-- ==== Sys2Proof/Word.lean ====
section
/-! DEFINITION. The word and index types of the CX32 (00_scope.md R8, R10). -/

namespace Sys2Proof

/-- A 32-bit word, the unit of every register and of every Bore parity check. -/
abbrev Word := BitVec 32
/-- One byte of the Bore, of the NAND partitions and of SMBus data. -/
abbrev Byte := BitVec 8
/-- Tile T0 to T31 (R8). -/
abbrev Tile := Fin 32
/-- Global reed index t * 32 + q (R8). -/
abbrev Reed := Fin 1024
/-- Global channel index ch = t * 1024 + q * 32 + lane (R8). -/
abbrev Chan := Fin 32768
/-- Plan slot 0 to 15 (R185). -/
abbrev Slot := Fin 16
/-- Submission or completion queue number (R401). -/
abbrev QId := Fin 64
/-- JCP tag (R410). -/
abbrev Tag := Fin 512

/-- The two backplane feeds (R8). -/
inductive Feed | a | b
  deriving DecidableEq, Repr

/-- The PCIe functions; PF0 is level P0, PF1 is P1, PF2 is P2 (R429, R439). -/
inductive Fn | pf0 | pf1 | pf2
  deriving DecidableEq, Repr

/-- The three BARs of a function (R429). -/
inductive Bar | bar0 | bar2 | bar4
  deriving DecidableEq, Repr

/-- The two valves of a tile, VA fed from HVA and VB from HVB (R8, R156). -/
inductive Valve | va | vb
  deriving DecidableEq, Repr

/-- The rails of the sequencer, in the bit order of PS_RAILS (R62). -/
inductive Rail | ib | core | io | aux | hva | hvb
  deriving DecidableEq, Repr

/-- The two dies of the CX32. -/
inductive Die | feed | drive
  deriving DecidableEq, Repr

/-- The two shelf-link ports (R542). -/
inductive Port | up | dn
  deriving DecidableEq, Repr

/-- What the pad test measures at one drive pad: the sum of its four conversions of the heater voltage, in the 0.78125 uV LSB of
the range, and whether the compliance detector flagged (R91, R259). -/
structure PadMeas where
  sum : Int
  compl : Bool
  deriving DecidableEq, Repr

/-- What the pad test measures at one monitor pad: the input voltages in uV at +50 nA and at -50 nA (R93). -/
structure MonMeas where
  plus : Int
  minus : Int
  deriving DecidableEq, Repr

/-- One shelf-link frame without its CRC (R543 table of 17_shelf_link.md). -/
structure SlFrame where
  type : BitVec 4
  src : BitVec 4
  dst : BitVec 4
  bc : Bool
  dir : Bool
  ttl : BitVec 4
  arg : BitVec 6
  data : Word
  deriving DecidableEq, Repr

/-- One sample of a meter pair before its correction, in the LSB of its two meter channels (R314, R318, R322). -/
structure VI where
  v : Int
  i : Int
  deriving DecidableEq, Repr

/-- What one read asks for: the offset of its first word, and how many more words (only BAR2 has those). -/
structure ReadSpan where
  off : BitVec 26
  more : BitVec 10
  deriving DecidableEq, Repr

/-- A write of one word of the MSI-X table in BAR4 (R429). -/
structure TableWrite where
  off : BitVec 14
  v : Word
  deriving DecidableEq, Repr

/-- One ONFI target as its parameter page and the mount scan report it (R455, R462): its channel and CE_n, whether it offers
NV-LPDDR4 at 1,600 MT/s, an 8-bit bus and every command of R455, LUNs, planes, pages per block, data and spare bytes per page, blocks,
factory-marked blocks, and the rated endurance in cycles. -/
structure Target where
  chan : Fin 4
  ce : Fin 8
  lpddr4 : Bool
  bus8 : Bool
  commands : Bool
  luns : Nat
  planes : Nat
  blkPages : Nat
  pageBytes : Nat
  spareBytes : Nat
  blocks : Nat
  factoryBad : Nat
  endurance : Nat
  deriving DecidableEq, Repr

/-- The attached NAND medium (R455 to R457, R463): its targets, and the free spare blocks and extreme cycle counts of its metadata. -/
structure Medium where
  targets : List Target
  freeSpare : Nat
  maxPe : Nat
  minPe : Nat
  deriving DecidableEq, Repr

/-- A torn page that the mount finds: its partition, LCA and kind (R477). -/
structure TornPage where
  part : BitVec 4
  lca : BitVec 28
  kind : BitVec 4
  deriving DecidableEq, Repr

end Sys2Proof
end

