-- ==== Sys2Proof/Syntax.lean ====
section
/-! DEFINITION. The commands the CX32 takes: one constructor per row of spec/opcode_table.json, in the table's order.
A command is a register access, a frame, a pin or supply event, or the moment at which a process of the part reaches
its stated end; its operands are what that row's rule takes from outside the State (assumption log 1 and 2). -/

namespace Sys2Proof

/-- The commands of opcode_table.json. -/
inductive Instr where
  /-- POR (R17): The feed die's always-on supply falls below its power-on threshold after HOLD is exhausted, and every domain is reset. -/
  | por
  /-- FEED_SUPPLY_START (R36): A feed rises above 18 V and the feed die starts its internal supply. -/
  | feedSupplyStart (f : Feed) (recordsKept : Bool)
  /-- OTP_PROFILE_LOADED (R36): The OTP profile is loaded and the fast trip, timed limit, OV comparator and start timer are armed, which is stage 0. -/
  | otpProfileLoaded (profile : BitVec 8) (crcOk : Bool)
  /-- HOLD_LOW (R52): HOLD has stayed below 8 V for 100 ms while a feed is present. -/
  | holdLow (vHold : BitVec 12)
  /-- PRES_ASSERTED (R39): PRES_x has been held low for 1 ms and the feed moves from 0 ABSENT to 1 QUALIFY or 10 HELD_OFF. -/
  | presAsserted (f : Feed)
  /-- PRES_DEASSERTED (R39): PRES_x has been high for 1 µs, so the gate is turned off and the feed returns to 0 ABSENT. -/
  | presDeasserted (f : Feed)
  /-- WINDOW_ENTER (R38): A feed rises into its window and qualification moves on, toward the insertion delay or the cool-down. -/
  | windowEnter (f : Feed) (v : BitVec 16)
  /-- WINDOW_LEAVE (R38): A feed that is not conducting leaves its window and returns to 1 QUALIFY, discarding any delay progress. -/
  | windowLeave (f : Feed) (v : BitVec 16)
  /-- UV_TRIP (R40): After its 100 µs filter, a conducting feed is found below 38 V, its gate is turned off and it is recorded as kind UV. -/
  | uvTrip (f : Feed) (v : BitVec 16)
  /-- OV_TRIP (R40): After its 1 µs filter, a feed is found above 66 V and its gate is turned off within 2 µs. -/
  | ovTrip (f : Feed) (v : BitVec 16)
  /-- COOLDOWN_EXPIRED (R49): The remaining cool-down reaches 0 and the insertion delay starts. -/
  | cooldownExpired (f : Feed)
  /-- INSERTION_DELAY_EXPIRED (R40): The insertion delay ends, and the feed enhances, ramps in fold-back or holds behind the other feed's ramp. -/
  | insertionDelayExpired (f : Feed) (vFeed vSled : BitVec 16) (otherToo : Bool)
  /-- START_TIMER_EXPIRED (R40): The start timer runs out during ramp or enhancement, and the gate is turned off with kind SHORT_AT_START. -/
  | startTimerExpired (f : Feed) (vSled : BitVec 16)
  /-- GATE_CHECK_TIMEOUT (R40): The gate check fails 5 ms after gate-on or after the enhance command, and the feed latches with kind GATE_FAIL. -/
  | gateCheckTimeout (f : Feed) (gateSrc : BitVec 16)
  /-- VDS_ENHANCE (R40): V_DS falls to 0.5 V during the ramp and the enhance command is issued. -/
  | vdsEnhance (f : Feed)
  /-- GATE_DWELL_DONE (R40): The gate has held at VFEED + 10 V or more for 1 ms, the start timer stops and the feed enters 6 ON. -/
  | gateDwellDone (f : Feed) (energyMj : BitVec 16)
  /-- CURRENT_LIMIT_ENTER (R46): The current reaches 5 A in 6 ON, the amplifier limits and the 2 ms timer starts. -/
  | currentLimitEnter (f : Feed) (cur : BitVec 16)
  /-- CURRENT_LIMIT_EXIT (R40): The demand falls below 5 A before 2 ms and the feed returns to 6 ON. -/
  | currentLimitExit (f : Feed) (cur : BitVec 16)
  /-- TIMED_LIMIT_EXPIRED (R40): The feed has been limiting for 2 ms and its gate is turned off with kind TIMED_LIMIT. -/
  | timedLimitExpired (f : Feed) (cur : BitVec 16)
  /-- FAST_TRIP (R45): The shunt current crosses ITRIP and the gate is pulled down within 200 ns. -/
  | fastTrip (f : Feed) (cur : BitVec 16)
  /-- REVERSE_CURRENT_TRIP (R40): A reverse current of 0.5 A or more turns the gate off within 1 µs and the feed enters 8 BLOCKED. -/
  | reverseCurrentTrip (f : Feed) (cur : BitVec 16)
  /-- BLOCKED_RECOVER (R609): The feed rises to at least VSLED + 50 mV and re-enhances into 6 ON. -/
  | blockedRecover (f : Feed) (vFeed vSled : BitVec 16)
  /-- CONSEC_COUNT_RESET (R48): After 60 s in 6 ON or 7 LIMIT without a counted trip, the feed's consecutive count resets to 0. -/
  | consecCountReset (f : Feed)
  /-- FD_OFF (R76): FD_CTRL.OFF = 1 holds the feed off, and is refused on the last feed unless LAST_OK is 1. -/
  | fdOff (f : Feed) (lastOk clrLatch : Bool)
  /-- FD_ON (R40): FD_CTRL.OFF = 0 moves a held-off feed to 1 QUALIFY. -/
  | fdOn (f : Feed) (clrLatch : Bool)
  /-- FD_CLR_LATCH (R50): FD_CTRL.CLR_LATCH clears a feed latch once the sticky bits are clear. -/
  | fdClrLatch (f : Feed) (off : Bool)
  /-- FD_INS_DELAY_WRITE (R73): A new insertion delay is written and takes effect at the next entry to 3 DELAY. -/
  | fdInsDelayWrite (f : Feed) (v : Word)
  /-- FD_FOLDBACK_WRITE (R73): A new fold-back limit is written and takes effect at the next ramp. -/
  | fdFoldbackWrite (f : Feed) (v : Word)
  /-- FD_FAST_TRIP_WRITE (R74): A new ITRIP is written; a raise moves the comparator first, a lower value is pushed first, and a value too close to the present current is refused. -/
  | fdFastTripWrite (f : Feed) (v : Word)
  /-- ITRIP_COMPARATOR_MOVE (R74): 10 µs after a lowering write is pushed, the comparator moves to the lower ITRIP. -/
  | itripComparatorMove (f : Feed)
  /-- FD_SAG_WRITE (R60): The sag threshold and sustain time are written, and a sustain of 0 is taken as 1 with FIELD_ZERO. -/
  | fdSagWrite (f : Feed) (v : Word)
  /-- TRIP_CAPTURE_DONE (R79): 16 ms after a trip, the recorder freezes 64,000 samples of the tripping feed. -/
  | tripCaptureDone (samples : List (Nat × Word))
  /-- TR_RELEASE (R79): TR_CTRL.RELEASE frees the held capture. -/
  | trRelease (arm : Bool)
  /-- TR_RD_DATA_READ (R79): A read of TR_RD_DATA returns a sample and advances IDX. -/
  | trRdDataRead
  /-- REBALANCE_SETTLED (R57): The shares have stayed within ±5 % for 5 ms and the state becomes 3 SHARING. -/
  | rebalanceSettled (permille : BitVec 10)
  /-- REBALANCE_TIMEOUT (R57): SH_REBAL.MAX_MS expires in 4 REBALANCE and the state leaves it. -/
  | rebalanceTimeout
  /-- AT_LIMIT_SET (R56): The sharing raise has stood at 150 mV for 5 ms with the shares still unequal, and AT_LIMIT sets. -/
  | atLimitSet
  /-- AT_LIMIT_CLEAR (R56): The raise has stood below 150 mV for 5 ms and AT_LIMIT clears. -/
  | atLimitClear
  /-- SH_CTRL_WRITE (R57): A write of SHARE_EN enables or disables sharing, and a write of 1 enters 4 REBALANCE. -/
  | shCtrlWrite (v : Word)
  /-- SHARE_ERR (R58): SHARE_EN has been 0, or the shares off by more than 10 %, for 100 ms while both feeds are on. -/
  | shareErr (permille : BitVec 10)
  /-- SAG_DETECT (R60): A conducting feed has been below SAG_V for more than 10 µs and SAG sets. -/
  | sagDetect (f : Feed) (v : BitVec 16)
  /-- SAG_SUSTAINED (R60): SUSTAIN_MS after SAG, SAG_SUST sets. -/
  | sagSustained (f : Feed) (v : BitVec 16)
  /-- SAG_CLEAR (R60): The feed voltage returns above SAG_V, or the feed leaves 6 ON and 7 LIMIT, and SAG and SAG_SUST clear. -/
  | sagClear (f : Feed) (v : BitVec 16)
  /-- BUS_SAG_SET (R60): VSLED falls below the lower SAG_V of the conducting feeds and BUS_SAG sets. -/
  | busSagSet (vSled : BitVec 16)
  /-- RAIL_SEQ_START (R62): PG_IB asserts and the sequencer drives EN_IB, beginning the up-sequence. -/
  | railSeqStart
  /-- RAIL_STEP_DONE (R62): A step's power-good has been high for STEP_MS and the next regulator is enabled. -/
  | railStepDone
  /-- RAIL_PG_TIMEOUT (R63): A step's power-good does not arrive within PG_TMO_MS, RAIL_FAIL is recorded and the down-sequence runs. -/
  | railPgTimeout (rail : Rail)
  /-- RAIL_PG_FALL (R63): A power-good already met falls during steps 1 to 5, RAIL_FAIL is recorded and the down-sequence runs. -/
  | railPgFall (rail : Rail)
  /-- HV_LOST (R65): PG_HVA or PG_HVB alone falls in 6 UP, and that rail's enable is dropped while the others stay on. -/
  | hvLost (v : Valve)
  /-- RAIL_LOST (R66): A shared power-good falls in 6 UP, RAIL_LOST is recorded and the down-sequence runs. -/
  | railLost (rail : Rail)
  /-- DOWN_SEQ_STEP (R64): After STEP_MS, the next enable of the down-sequence drops; the last step ends in RETRY_WAIT, STOPPED or LATCHED. -/
  | downSeqStep
  /-- RETRY_WAIT_EXPIRED (R63): 1,000 ms after entry to 9 RETRY_WAIT, the sequencer retries from step 1. -/
  | retryWaitExpired
  /-- RAIL_CONSEC_RESET (R63): After 60 s in 6 UP without a fall, CONSEC returns to 0. -/
  | railConsecReset
  /-- PG_IB_LOSS_ENABLES_DROP (R67): PG_IB deasserts and every enable drops within 10 µs. -/
  | pgIbLossEnablesDrop
  /-- PS_STOP (R68): PS_CTRL.STOP runs or completes the down-sequence into 8 STOPPED, depending on the state. -/
  | psStop
  /-- PS_START (R70): PS_CTRL.START in 8 STOPPED runs the up-sequence from step 1. -/
  | psStart
  /-- PS_CLR_LATCH (R70): PS_CTRL.CLR_LATCH in 10 LATCHED sets CONSEC to 0 and the state to 8 STOPPED. -/
  | psClrLatch
  /-- DTIN_ARMED (R604): PG_AUX has been high for 1 ms and the feed die starts watching DTIN. -/
  | dtinArmed
  /-- T_CRIT_STOP (R69): DTIN or the feed-die diode exceeds T_crit for 100 µs, every enable except EN_IB drops, and the sequencer enters 8 STOPPED. -/
  | tCritStop
  /-- FS_RESET (R72): Writing 0x0000_C1A5 to FS_RESET starts FRST, which restores FRST registers from OTP and pushes them. -/
  | fsReset (v : Word)
  /-- FEED_WATCHDOG_RESET (R17): The feed-die watchdog fires and causes FRST. -/
  | feedWatchdogReset
  /-- DRIVE_RAILS_UP (R86): The drive-die rails come up, and every channel sources 0 A with its pad pulled down. -/
  | driveRailsUp
  /-- DRIVE_RAILS_LOST (R520): The drive-die rails are lost and every drive-die domain goes off. -/
  | driveRailsLost
  /-- STAGE2_ENTRY (R80): The core, IO and aux rails have been good for 100 µs, stage 2 is entered and the drive-die domains come on. -/
  | stage2Entry
  /-- PARK_LOADER_START (R87): HVA and HVB exceed 4.5 V at every tile and the park loader reads copy 0 of the park store. -/
  | parkLoaderStart
  /-- PARK_STROBE (R87): The loader finishes reading and applies every channel's park code and range in one park event of cause LOADER. -/
  | parkStrobe (loadUs : BitVec 16)
  /-- PAD_TEST_DONE (R91): The pad test finishes measuring every pad and the bond report is ready. -/
  | padTestDone (vLow : Nat) (dflt : PadMeas) (drv : List (Nat × PadMeas)) (monDflt : MonMeas) (mon : List (Nat × MonMeas))
  /-- BOOT_SLOT_SELECT (R98): The boot ROM chooses a slot to boot, or holds at stage 2 with NO_IMAGE. -/
  | bootSlotSelect
  /-- SFW_VERIFIED (R99): The header and digest of the booted slot are checked, and the SFW starts or the slot fails. -/
  | sfwVerified
  /-- STAGE3_ENTRY (R80): The SFW is verified, pairing is not HELD, the Bore is initialised and the queues are live. -/
  | stage3Entry (queuesLive : Bool)
  /-- STAGE3_DEADLINE (R99): Stage 3 is not reached within 400 ms of stage-2 entry and the booted slot fails. -/
  | stage3Deadline
  /-- TRIAL_EXPIRED (R99): TRIAL_S passes without CONFIRM and the trial slot fails. -/
  | trialExpired
  /-- STAGE4_CAL_LOAD (R613): The core loads the tables, shapes, sequences, coefficients, loops and kernels from CAL, or the built-in content where no image exists. -/
  | stage4CalLoad (kind : Fin 6)
  /-- STAGE4_ENTRY (R80): The IDL push, the loads, the model warm-up and the loop start are complete, and stage 4 is entered. -/
  | stage4Entry
  /-- BT_CONFIRM (R101): CONFIRM during a trial marks the running slot VALID and preferred. -/
  | btConfirm (fn : Fn) (key : BitVec 16)
  /-- BT_ACTIVATE (R119): ACTIVATE with a PENDING slot causes a WARM reset. -/
  | btActivate (fn : Fn) (key : BitVec 16)
  /-- BT_FORCE_PAIR (R106): FORCE_PAIR changes a HELD outcome to FLOOR and the boot continues. -/
  | btForcePair (fn : Fn) (key : BitVec 16)
  /-- BT_UPD_WRITE (R116): WRITE starts programming a chunk of the flash buffer into the slot that is not running. -/
  | btUpdWrite (fn : Fn)
  /-- UPD_WRITE_DONE (R116): A WRITE finishes programming and clears BUSY. -/
  | updWriteDone (ok : Bool)
  /-- BT_UPD_SEAL (R118): SEAL starts checking the target's CRC and digest and forecasting its pairing. -/
  | btUpdSeal (fn : Fn)
  /-- UPD_SEAL_DONE (R118): SEAL finishes, reports FORECAST and marks the slot PENDING when it is correct. -/
  | updSealDone (ok : Bool)
  /-- BT_UPD_ABORT (R120): ABORT stops a WRITE or SEAL, or empties a PENDING slot. -/
  | btUpdAbort (fn : Fn)
  /-- BT_BOND_LIM_WRITE (R97): New R_LO and R_HI limits reclassify the stored drive entries within 100 µs. -/
  | btBondLimWrite (fn : Fn) (v : Word)
  /-- BT_BOND_DATA_READ (R95): A read of BT_BOND_DATA returns a bond entry and advances IDX. -/
  | btBondDataRead (fn : Fn)
  /-- BT_PADTEST_START (R122): BT_PADTEST START repeats the pad test at the present codes, and is refused while any slot is armed. -/
  | btPadtestStart (fn : Fn) (v : Word)
  /-- PADTEST_REPEAT_DONE (R122): A repeated pad test ends and the held loops and sequences resume. -/
  | padtestRepeatDone (vLow : Nat) (dflt : PadMeas) (drv : List (Nat × PadMeas)) (monDflt : MonMeas) (mon : List (Nat × MonMeas))
  /-- WARM_RESET (R81): A WARM reset returns the device to stage 2 with codes held and every slot emptied. -/
  | warmReset
  /-- DRST (R83): A full drive-die reset holds the last codes until the park strobe. -/
  | drst
  /-- CORE_WATCHDOG (R82): The core watchdog fires outside a trial, or the working store fails, and the core alone restarts. -/
  | coreWatchdog
  /-- CORE_RESTART_DONE (R82): The core has reloaded from the running slot and runs again. -/
  | coreRestartDone
  /-- IDL_TRAIN_START (R108): After a reset or a link loss, each side sends commas and then TRAIN frames. -/
  | idlTrainStart
  /-- IDL_TRAIN (R108): A TRAIN frame is received, carrying the version range and the lanes that trained. -/
  | idlTrain (receiver : Die) (verMin verMax : BitVec 8) (lanesOk : BitVec 4)
  /-- IDL_LINK_UP (R109): A common version and a set of lanes are agreed and the link comes up. -/
  | idlLinkUp
  /-- IDL_FRAME_ERROR (R110): A frame fails DPAR or HPAR, is discarded, and a NAK is sent. -/
  | idlFrameError (receiver : Die)
  /-- IDL_NAK (R110): A NAK is received and the sender replays in order from the NAKed SEQ. -/
  | idlNak (receiver : Die) (seq : BitVec 8)
  /-- IDL_LINK_LOST (R111): The link is lost after three replays or 1 µs without a valid frame, and READY of every armed plan clears. -/
  | idlLinkLost
  /-- IDL_PUSH0 (R112): A PUSH0 frame with the feed states and thresholds is received and held. -/
  | idlPush0
  /-- IDL_PUSH1 (R112): A PUSH1 that directly follows a PUSH0 applies both words in one cycle. -/
  | idlPush1
  /-- IDL_RD_REQ (R113): The feed die receives a read request, checks PRIV and returns RD_DATA. -/
  | idlRdReq
  /-- IDL_RD_DATA (R113): The drive die receives the value of a feed-page read and completes the BAR0 read. -/
  | idlRdData (latNs : BitVec 16)
  /-- IDL_WR_ADDR (R113): The feed die receives the address and privilege of a posted write. -/
  | idlWrAddr
  /-- IDL_WR_DATA (R113): The feed die receives the value, applies or refuses the write, and sends WR_ACK. -/
  | idlWrData
  /-- IDL_WR_ACK (R113): The drive die receives WR_ACK and releases later accesses to that feed page. -/
  | idlWrAck
  /-- IDL_DRONE (R114): A DRONE frame is received and the drive-die drone oscillator is trimmed toward the feed count. -/
  | idlDrone
  /-- IDL_DRONE_SEND (R114): Every 1,024 drone ticks the feed die sends a DRONE frame. -/
  | idlDroneSend
  /-- IDL_BELL0 (R115): The BELL0 frame of a feed-die message, with source and kind, is received. -/
  | idlBell0
  /-- IDL_BELL1 (R115): The BELL1 frame of a feed-die message, with detail, is received and the Bell timestamps the message. -/
  | idlBell1
  /-- IDL_HELD_BELL_SEND (R115): After the link returns and the full push is sent, the feed die sends its held messages in order. -/
  | idlHeldBellSend
  /-- ID_RETRAIN (R586): ID_CTRL.RETRAIN takes the link down and trains it again. -/
  | idRetrain (fn : Fn)
  /-- LIMITER_ENGAGE (R135): A channel exceeds its limiter threshold, is held there within 80 ns, and sends CH_SHORT. -/
  | limiterEngage (ch : Chan)
  /-- SHORT_FUSE (R137): The limiter has been engaged for 100 ns, or 100 µs under SHORT_ACT LIMIT, and the channel fuses with kind SHORT. -/
  | shortFuse (ch : Chan)
  /-- COMPL_DETECT (R136): The demanded pad voltage has been above compliance for 1 µs, and COMPL_FLAG and CH_COMPL are raised. -/
  | complDetect (ch : Chan)
  /-- COMPL_FUSE (R137): Under COMPL_ACT FUSE, with no tongue playing, 1 µs of compliance fuses the channel with kind COMPL. -/
  | complFuse (ch : Chan)
  /-- CH_CONSEC_RESET (R141): After 10 s in 0 CLEAR without a fuse, the channel's CONSEC returns to 0. -/
  | chConsecReset (ch : Chan)
  /-- TL_CH_RELEASE (R143): RELEASE returns a fused channel to its park code once the sticky bit of its kind is clear. -/
  | tlChRelease (fn : Fn) (t : Tile) (all : Bool)
  /-- TL_CH_UNLOCK (R143): UNLOCK, at P0, returns a locked channel to its park code with CONSEC 0. -/
  | tlChUnlock (fn : Fn) (t : Tile) (all : Bool)
  /-- TL_CH_OFF (R141): OFF takes a channel to 0 A in 3 OFF. -/
  | tlChOff (fn : Fn) (t : Tile) (all : Bool)
  /-- TL_CH_ON (R141): ON returns an off channel to its park code. -/
  | tlChOn (fn : Fn) (t : Tile) (all : Bool)
  /-- TL_CH_CLR_FLAGS (R141): CLR_FLAGS clears SHORT_FLAG and COMPL_FLAG unless they are live. -/
  | tlChClrFlags (fn : Fn) (t : Tile) (all : Bool)
  /-- TL_CH_CFG_WRITE (R138): A supervision setting takes effect within 2 cc, and any running timer continues under the new rule. -/
  | tlChCfgWrite (fn : Fn) (t : Tile) (v : Word)
  /-- TL_CH_PWR_READ (R152): A read of TL_CH_PWR returns the channel's voltage and power and, with AUTOINC, advances LANE. -/
  | tlChPwrRead (fn : Fn) (t : Tile)
  /-- P_STALE (R153): No valid heater-voltage result has arrived for 10 ms and P_STALE sets. -/
  | pStale (ch : Chan)
  /-- I_CHECK (R154): The output has differed from the programmed current by more than 2 % FS for 10 µs; I_OK clears and I_CHECK is sent. -/
  | iCheck (ch : Chan)
  /-- ISUM_MISMATCH (R155): ISUM and the valve senses have disagreed for 10 ms and ISUM_MISMATCH is sent. -/
  | isumMismatch (t : Tile) (diffMa : BitVec 32)
  /-- PK_PARK_ALL (R150): PARK_ALL requests a park event of cause COMMAND on all tiles. -/
  | pkParkAll (fn : Fn)
  /-- PK_PARK_TILES (R150): PARK_TILES requests a park event on the tiles in PK_TMASK. -/
  | pkParkTiles (fn : Fn)
  /-- PARK_EVENT_REACH_TILE (R151): A park event reaches tile t at STAGGER × t cc and applies the park codes there. -/
  | parkEventReachTile (t : Tile)
  /-- PK_UPDATE (R147): UPDATE takes a copy of the shadow and starts programming copy 1 and then copy 0. -/
  | pkUpdate (fn : Fn)
  /-- PK_UPDATE_DONE (R147): UPDATE finishes programming and verifying both copies. -/
  | pkUpdateDone (failedCopy : Option (Fin 2)) (verify : Bool)
  /-- PK_APPLY (R148): APPLY starts copying the shadow into every channel's park register. -/
  | pkApply (fn : Fn)
  /-- PK_APPLY_DONE (R148): APPLY has copied the shadow into every park register. -/
  | pkApplyDone
  /-- PK_RELOAD (R611): RELOAD starts reading the park store into the shadow. -/
  | pkReload (fn : Fn)
  /-- PK_RELOAD_DONE (R611): RELOAD completes and clears DIRTY. -/
  | pkReloadDone
  /-- PK_DATA_ACCESS (R147): A PK_DATA access reads or writes a pair of shadow entries, advances PAIR, and on a write sets DIRTY. -/
  | pkDataAccess (fn : Fn) (w : Option Word)
  /-- VALVE_REJOIN (R156): A blocked valve's rail reaches V_TILE + 10 mV, and the valve conducts or soft-starts. -/
  | valveRejoin (t : Tile) (v : Valve)
  /-- VALVE_LIMIT_ENTER (R156): The valve current reaches 1.8 A, is limited, and the 10 µs timer starts. -/
  | valveLimitEnter (t : Tile) (v : Valve) (cur : BitVec 12)
  /-- VALVE_LIMIT_EXIT (R156): The demand falls below 1.8 A before 10 µs and the valve returns to 1 CONDUCT. -/
  | valveLimitExit (t : Tile) (v : Valve) (cur : BitVec 12)
  /-- VALVE_LIMIT_EXPIRED (R156): The valve has been limiting for 10 µs and opens with a trip. -/
  | valveLimitExpired (t : Tile) (v : Valve) (cur : BitVec 12)
  /-- VALVE_FAST_TRIP (R156): The valve current reaches 3.0 A and the valve opens within 100 ns. -/
  | valveFastTrip (t : Tile) (v : Valve) (cur : BitVec 12)
  /-- VALVE_REVERSE_BLOCK (R156): The rail falls below V_TILE − 20 mV and the valve blocks. -/
  | valveReverseBlock (t : Tile) (v : Valve) (rail : BitVec 16)
  /-- SOFT_START_DONE (R610): V_TILE reaches rail − 100 mV and the soft-starting valve conducts. -/
  | softStartDone (t : Tile) (v : Valve)
  /-- SOFT_START_TIMEOUT (R156): The valve has been at its 0.5 A soft-start limit for 500 µs and trips. -/
  | softStartTimeout (t : Tile) (v : Valve) (cur : BitVec 12)
  /-- TL_VALVE_RELEASE (R157): RELEASE closes a tripped valve once its sticky bit is clear and its rail is good. -/
  | tlValveRelease (fn : Fn) (t : Tile) (v : Valve) (rail : BitVec 16)
  /-- TL_VALVE_OFF (R157): OFF, at P0, opens a valve while the other valve conducts. -/
  | tlValveOff (fn : Fn) (t : Tile) (v : Valve)
  /-- TL_VALVE_ON (R156): ON closes a held-off valve. -/
  | tlValveOn (fn : Fn) (t : Tile) (v : Valve)
  /-- TILE_DARK (R159): Neither valve has conducted for 1 µs; the tile goes dark, its codes go to 0 and its tongues are abandoned. -/
  | tileDark (t : Tile)
  /-- REED_REF_FAIL (R160): A reed reference has been outside its window for 8 µs and is declared failed. -/
  | reedRefFail (r : Reed)
  /-- REF_TRANSFER_DONE (R161): The reed's channels finish moving onto the tile backup reference. -/
  | refTransferDone (r : Reed)
  /-- BACKUP_FAIL (R160): The backup has disagreed with 17 or more reed references for 8 µs and fails. -/
  | backupFail (t : Tile) (disagree : BitVec 6)
  /-- BACKUP_RECOVER (R160): The backup has agreed with 24 or more references for 1 ms and returns to service. -/
  | backupRecover (t : Tile)
  /-- TL_REF_RETURN (R164): TL_REF_CMD RETURN moves a reed back to its own reference. -/
  | tlRefReturn (fn : Fn) (t : Tile) (q : Fin 32) (inWindow : Bool)
  /-- TILE_BLK_RESET (R614): A BLK reset of TILE_t clears its plan buffer, ends its tongues at final codes and abandons entries not yet started. -/
  | tileBlkReset (fn : Fn) (t : Tile)
  /-- BAR2_SETPOINT_WRITE (R173): A BAR2 write to the setpoint window updates entries, sets DIRTY, or is discarded while LOAD runs. -/
  | bar2SetpointWrite (fn : Fn) (off : BitVec 26) (data : List Word)
  /-- ST_LOAD (R613): ST_CMD LOAD starts replacing the table from the CAL image. -/
  | stLoad (fn : Fn)
  /-- ST_LOAD_DONE (R613): LOAD finishes, clearing DIRTY, or leaves the table unchanged with an error. -/
  | stLoadDone (ok : Bool)
  /-- ST_SAVE (R176): SAVE takes a copy of the table, checks it, and starts writing the CAL image. -/
  | stSave (fn : Fn)
  /-- ST_SAVE_DONE (R177): The CAL image of the table becomes durable, or SAVE ends with an error. -/
  | stSaveDone (ok : Bool)
  /-- ST_CHECK (R171): CHECK checks every entry and reports the results in ST_BAD. -/
  | stCheck (fn : Fn)
  /-- PL_OPEN (R185): OPEN puts an empty or rejected slot into 1 STAGING. -/
  | plOpen (fn : Fn) (slot : Slot)
  /-- PL_STAGE (R190): STAGE checks COUNT and the deltas and starts resolving them against the table. -/
  | plStage (fn : Fn) (slot : Slot) (count : BitVec 16)
  /-- EXPANSION_DONE (R185): Resolution completes, compensation is added, and admission starts. -/
  | expansionDone (slot : Slot)
  /-- ADMISSION_DONE (R224): Admission trials finish and the slot is admitted, with groups and offsets, or rejected. -/
  | admissionDone (slot : Slot)
  /-- ADMISSION_RESUME (R226): Once the IDL push has arrived and a feed is on, waiting admissions run. -/
  | admissionResume
  /-- PL_ARM (R188): ARM reserves plan-buffer space and starts the copy to the tiles. -/
  | plArm (fn : Fn) (slot : Slot)
  /-- ARM_COPY_VERIFIED (R25): Every plan-buffer word of the slot passes parity and READY sets. -/
  | armCopyVerified (slot : Slot)
  /-- PLAN_PARITY_REPAIR (R193): An expanded-plan word fails parity, and its delta is expanded and copied again within 3 µs. -/
  | planParityRepair (slot : Slot) (ch : Chan)
  /-- PL_DISARM (R187): DISARM clears READY, frees tile space and returns the slot to 3 ADMITTED. -/
  | plDisarm (fn : Fn) (slot : Slot)
  /-- PL_RELEASE (R185): RELEASE abandons the slot's work and empties it. -/
  | plRelease (fn : Fn) (slot : Slot)
  /-- BAR2_DELTA_WRITE (R189): A BAR2 write to a delta area is stored, or is discarded with DELTA_LOCKED when the slot's state forbids it. -/
  | bar2DeltaWrite (fn : Fn) (off : BitVec 26) (data : List Word)
  /-- SYNC_IN_EDGE (R209): A SYNC_IN edge of the selected polarity is one commit request for SYNC_SLOT. -/
  | syncInEdge (falling : Bool)
  /-- COMMIT_NOW (R199): A COMMIT_NOW write is one commit request for the named slot. -/
  | commitNow (fn : Fn) (slot : Slot) (cut : Bool)
  /-- SCHEDULE_FIRE (R210): Shelf time reaches the scheduled time less the path latency, and the entry fires a request. -/
  | scheduleFire (slot : Slot)
  /-- CM_SCHED_ARM (R210): Writing 1 to a bit of CM_SCHED_EN arms a schedule entry, or completes it as LATE or NO_SCHED. -/
  | cmSchedArm (fn : Fn) (slot : Slot)
  /-- CM_SCHED_CANCEL (R230): Writing 0 to an armed bit of CM_SCHED_EN cancels the entry with CANCELLED. -/
  | cmSchedCancel (fn : Fn) (slot : Slot)
  /-- CM_SCHED_T_WRITE (R230): A write of a scheduled time is refused while the entry is armed. -/
  | cmSchedTWrite (fn : Fn) (slot : Slot) (hi : Bool) (v : Word)
  /-- STROBE_ISSUE (R201): An accepted request finds every condition of R201 met and the fabric issues the strobe. -/
  | strobeIssue (slot : Slot)
  /-- COMMIT_TIMEOUT (R203): A pending request has spent CM_WAIT with READY 0 and completes with TIMEOUT. -/
  | commitTimeout (slot : Slot)
  /-- BREATH_WRITE (R225): A write to a BREATH register clears READY of every armed slot and redoes admission. -/
  | breathWrite (fn : Fn) (off : BitVec 12) (v : Word)
  /-- BREATH_OFFSET_REACHED (R238): A reed's breath offset arrives and its tongue player writes segment 0, or a plain step, for each entry. -/
  | breathOffsetReached (r : Reed)
  /-- TONGUE_SEGMENT_NEXT (R238): A segment's duration ends and the next segment code is written. -/
  | tongueSegmentNext (ch : Chan)
  /-- TONGUE_END (R238): The shape's length ends, the final code is written and the tongue ends. -/
  | tongueEnd (ch : Chan)
  /-- SETTLE_HOLD_END (R338): LP_SETTLE has passed after the reed's last tongue and the freeze ends. -/
  | settleHoldEnd (r : Reed)
  /-- BAR2_SHAPE_WRITE (R243): A write into a shape bank, into the bank in force, redoes armed slots as a BREATH write would. -/
  | bar2ShapeWrite (fn : Fn) (off : BitVec 26) (data : List Word)
  /-- TG_LOAD (R613): TG_CMD LOAD starts replacing all six banks from CAL. -/
  | tgLoad (fn : Fn)
  /-- TG_LOAD_DONE (R243): The bank load completes and armed slots are redone. -/
  | tgLoadDone (ok : Bool)
  /-- TG_SAVE (R612): TG_CMD SAVE takes a copy of the banks and starts writing the CAL image. -/
  | tgSave (fn : Fn)
  /-- TG_SAVE_DONE (R251): The shape image becomes durable, or SAVE ends with an error. -/
  | tgSaveDone (ok : Bool)
  /-- TG_CHECK (R250): CHECK reports the shapes that would be truncated or carry words after their end. -/
  | tgCheck (fn : Fn)
  /-- SEQ_MODE_WRITE (R270): A MODE change takes effect at the end of the running conversion. -/
  | seqModeWrite (fn : Fn) (v : Word)
  /-- SEQ_DELAY_EXPIRED (R263): An entry's DELAY expires and its conversion starts. -/
  | seqDelayExpired (r : Reed)
  /-- CONVERSION_END (R255): A conversion ends, its result goes to an accumulator, and the sequencer starts the next item. -/
  | conversionEnd (r : Reed) (raw : Int) (ovr : Bool)
  /-- MODULATOR_POWER_UP (R282): 2 µs before a known due time the reed powers up. -/
  | modulatorPowerUp (r : Reed)
  /-- STARTUP_DONE (R283): The 2 µs start-up delay ends and the conversion or insert starts. -/
  | startupDone (r : Reed)
  /-- MS_TRIG_SOFT (R271): MS_TRIG.SOFT triggers a pass of a reed whose source is SOFT. -/
  | msTrigSoft (fn : Fn)
  /-- MS_TRIG_DRV_ARM (R272): DRV_ARM sets DRV_ARMED. -/
  | msTrigDrvArm (fn : Fn)
  /-- MS_TRIG_DRV_DISARM (R272): DRV_DISARM clears DRV_ARMED. -/
  | msTrigDrvDisarm (fn : Fn)
  /-- REED_TIMER_TRIGGER (R271): The reed timer expires every PERIOD drone ticks and triggers a pass. -/
  | reedTimerTrigger (r : Reed)
  /-- DRIVE_TRIGGER (R271): DELAY_CC after a strobe with an entry in the reed, a DRIVE trigger fires while DRV_ARMED. -/
  | driveTrigger (r : Reed)
  /-- MS_TRIG_OVERRUN_READ (R274): A read of MS_TRIG_OVERRUN returns the count and clears it. -/
  | msTrigOverrunRead (fn : Fn)
  /-- MS_URGENT_WRITE (R276): An urgent conversion request is queued for the reed, or refused as busy. -/
  | msUrgentWrite (fn : Fn) (v : Word)
  /-- HK_ROUND_DUE (R278): HK_PERIOD expires and each reed owes a housekeeping round. -/
  | hkRoundDue
  /-- MS_OPEN_CLEAR (R501): A W1C write to MS_OPEN clears the open marks whose cause is gone. -/
  | msOpenClear (fn : Fn) (v : Word)
  /-- BAR2_SEQ_WRITE (R266): A write to the sequence window updates an entry, or is discarded while LOAD runs. -/
  | bar2SeqWrite (fn : Fn) (off : BitVec 26) (data : List Word)
  /-- MS_LOAD (R613): MS_CMD LOAD starts replacing all tables from CAL. -/
  | msLoad (fn : Fn)
  /-- MS_LOAD_DONE (R613): The sequence tables finish loading, or are left unchanged with an error. -/
  | msLoadDone (ok : Bool)
  /-- MS_SAVE (R612): MS_CMD SAVE checks the tables and starts writing the CAL image. -/
  | msSave (fn : Fn)
  /-- MS_SAVE_DONE (R291): The sequence image becomes durable, or SAVE ends with an error. -/
  | msSaveDone (ok : Bool)
  /-- MS_CHECK (R264): CHECK checks every entry and fills MS_BAD. -/
  | msCheck (fn : Fn)
  /-- MS_DEFAULT (R268): DEFAULT replaces every table with the built-in table. -/
  | msDefault (fn : Fn)
  /-- ACC_SAMPLE (R295): A corrected sample enters an accumulator and updates VALUE, SEQ and the trackers. -/
  | accSample (r : Reed) (acc : Fin 64) (sample : Int) (ovr : Bool)
  /-- ACC_PARITY_RESTART (R301): An accumulator word fails parity and replay, and the accumulator restarts. -/
  | accParityRestart (r : Reed) (acc : Fin 64)
  /-- AC_CFG_WRITE (R300): A write to AC_CFG restarts the selected accumulators at their next sample. -/
  | acCfgWrite (fn : Fn) (v : Word)
  /-- AC_RESTART (R301): AC_CMD RESTART restarts the accumulators in scope. -/
  | acRestart (fn : Fn)
  /-- AC_TRK_CLR (R297): AC_CMD TRK_CLR clears the trackers in scope. -/
  | acTrkClr (fn : Fn)
  /-- AC_DISC_CLR (R299): AC_CMD DISC_CLR clears the discard counts in scope. -/
  | acDiscClr (fn : Fn)
  /-- BAR2_ACC_WRITE (R303): A write to the accumulator window is discarded with ACC_WRITE. -/
  | bar2AccWrite (fn : Fn) (off : BitVec 26)
  /-- CL_DATA_ACCESS (R307): A CL_DATA write sets a coefficient, discarded when GAIN is out of range, and with AUTOINC the access advances IDX. -/
  | clDataAccess (fn : Fn) (w : Option Word)
  /-- CL_LOAD (R613): CL_CMD LOAD starts loading the coefficient image. -/
  | clLoad (fn : Fn)
  /-- CL_LOAD_DONE (R310): The coefficient load ends. -/
  | clLoadDone (ok : Bool)
  /-- CL_SAVE (R612): CL_CMD SAVE starts writing the coefficient image. -/
  | clSave (fn : Fn)
  /-- CL_SAVE_DONE (R310): The coefficient image becomes durable, or SAVE ends with an error. -/
  | clSaveDone (ok : Bool)
  /-- CL_DEFAULT (R309): DEFAULT sets the DRST-group coefficients to identity. -/
  | clDefault (fn : Fn)
  /-- CL_SC_ZERO (R311): SC_ZERO starts zero-calibration conversions of the input at CL_IDX. -/
  | clScZero (fn : Fn)
  /-- CL_SC_FULL (R311): SC_FULL starts full-scale calibration conversions of the input at CL_IDX. -/
  | clScFull (fn : Fn)
  /-- CL_SC_DONE (R313): A calibration run ends, and the coefficient is set once or is left unchanged with an error. -/
  | clScDone (idx : BitVec 18) (full : Bool)
  /-- CL_SC_URGENT_TIMEOUT (R312): A calibration run has waited 10 ms for the reed and ends with URGENT_BUSY. -/
  | clScUrgentTimeout
  /-- METER_PERIOD_END (R315): A meter period ends, and all results and power averages update together. -/
  | meterPeriodEnd (raw : List Int) (ovr : BitVec 8) (halvesOpen : BitVec 8)
  /-- POWER_SAMPLE (R318): Every 256 drone ticks, V × I of each pair is added to its power average and energy. -/
  | powerSample (a b ib : VI)
  /-- MT_PERIOD_WRITE (R316): A new period selection takes effect at the end of the running period. -/
  | mtPeriodWrite (off : BitVec 12) (v : Word)
  /-- MT_E_LO_READ (R319): A read of MT_E_x_LO copies the high word into the shadow. -/
  | mtELoRead (pair : Fin 3)
  /-- MT_E_CLR (R319): MT_CTRL.E_CLR clears the energies named in E_MASK. -/
  | mtEClr (mask : BitVec 3)
  /-- MT_SC_ZERO (R322): MT_SC ZERO starts a zero step over NPER periods on one meter channel. -/
  | mtScZero (c : Fin 8) (nper : BitVec 4)
  /-- MT_SC_FULL (R322): MT_SC FULL starts a full-scale step over NPER periods on one meter channel. -/
  | mtScFull (c : Fin 8) (nper : BitVec 4)
  /-- MT_SC_DONE (R322): An MT_SC run ends at a period boundary and updates MT_CAL or reports an error. -/
  | mtScDone (samples : List Int) (ovr : Bool)
  /-- FR_VIN_A (R324): Forerunner command 0xD0 returns V_A. -/
  | frVinA
  /-- FR_IIN_A (R324): Forerunner command 0xD1 returns I_A. -/
  | frIinA
  /-- FR_VIN_B (R324): Forerunner command 0xD2 returns V_B. -/
  | frVinB
  /-- FR_IIN_B (R324): Forerunner command 0xD3 returns I_B. -/
  | frIinB
  /-- FR_VOUT (R324): Forerunner command 0xD4 returns V_IB. -/
  | frVout
  /-- FR_IOUT (R324): Forerunner command 0xD5 returns I_IB. -/
  | frIout
  /-- FR_PIN (R324): Forerunner command 0xD6 returns the power of A plus B. -/
  | frPin
  /-- FR_TEMP (R324): Forerunner command 0xD7 returns T_FD. -/
  | frTemp
  /-- FR_STATUS (R324): Forerunner command 0xD8 returns OVR and OPEN and clears FRESH. -/
  | frStatus
  /-- FR_ENERGY (R324): Forerunner command 0xD9 returns the energy of A plus B. -/
  | frEnergy
  /-- LOOP_EVALUATE (R332): A looped channel's conditions hold, and the loop computes Δ and writes the new code. -/
  | loopEvaluate (ch : Chan)
  /-- LOOP_STALE (R344): A looped, unfrozen channel has not evaluated for 10 ms. -/
  | loopStale (ch : Chan)
  /-- LP_LOAD (R613): LP_CMD LOAD starts loading the loop image. -/
  | lpLoad (fn : Fn)
  /-- LP_LOAD_DONE (R346): The loop image load ends. -/
  | lpLoadDone (ok : Bool)
  /-- LP_SAVE (R612): LP_CMD SAVE starts writing the loop image. -/
  | lpSave (fn : Fn)
  /-- LP_SAVE_DONE (R346): The loop image becomes durable, or SAVE ends with an error. -/
  | lpSaveDone (ok : Bool)
  /-- MODEL_UPDATE (R351): Every 1,024 drone ticks, each tile's model updates node and element temperatures and TMAX. -/
  | modelUpdate
  /-- SHUT_WAIT_EXPIRED (R380): STOP has not been accepted within SHUT_WAIT_MS, and TEMP sends STOP over the IDL. -/
  | shutWaitExpired
  /-- THERM_CLIMB (R376): CLIMB_S passes while T_th stays at or above T_THROTTLE, and the request rises one level. -/
  | thermClimb
  /-- THERM_HOLD_FALL (R377): The conditions have held for HOLD_S and the thermal request falls. -/
  | thermHoldFall
  /-- DIODE_ROUND (R361): At each housekeeping round, each diode is converted, judged against the model and its neighbours, and moves state. -/
  | diodeRound
  /-- TP_DIODE_CLR (R362): DIODE_CLR returns a failed or out-of-range diode to OK once its cause is gone. -/
  | tpDiodeClr (fn : Fn) (j : Fin 64)
  /-- TP_THRESH_WRITE (R381): New thresholds apply only within their allowed ranges, or are refused. -/
  | tpThreshWrite (fn : Fn) (v : Word)
  /-- TH_K_DATA_WRITE (R357): A kernel word write updates the kernel and redoes the slots in the tiles concerned. -/
  | thKDataWrite (fn : Fn) (v : Word)
  /-- TH_TILE_CLASS_WRITE (R357): A tile class write redoes the slots in those tiles. -/
  | thTileClassWrite (fn : Fn) (j : Fin 4) (v : Word)
  /-- TH_LOAD (R613): TH_CMD LOAD starts loading the kernels and tile classes. -/
  | thLoad (fn : Fn)
  /-- TH_LOAD_DONE (R357): The kernel load ends and the affected slots are redone. -/
  | thLoadDone (ok : Bool)
  /-- TH_SAVE (R612): TH_CMD SAVE starts writing the kernel image. -/
  | thSave (fn : Fn)
  /-- TH_SAVE_DONE (R358): The kernel image becomes durable, or SAVE ends with an error. -/
  | thSaveDone (ok : Bool)
  /-- TH_CHECK (R356): CHECK checks every kernel word. -/
  | thCheck (fn : Fn)
  /-- BORE_REPLAY (R390): 8 cc after a parity failure, the Bore reads the word again. -/
  | boreReplay (addr : BitVec 26) (pass : Bool)
  /-- PATROL_READ (R398): The patrol reads its next word at the lowest priority. -/
  | patrolRead
  /-- BANK_RETENTION_ENTER (R399): At L5 or above, a bank idle for 1,024 cc enters retention. -/
  | bankRetentionEnter (bank : Fin 16)
  /-- BANK_WAKE (R399): An access to a bank in retention, or the level falling below L5, wakes the bank. -/
  | bankWake (bank : Fin 16)
  /-- BORE_INIT (R400): At stage-3 entry the Bore starts zeroing its words. -/
  | boreInit
  /-- BORE_INIT_DONE (R400): Zeroing ends and INIT_DONE sets. -/
  | boreInitDone
  /-- BAR2_PARTIAL_WRITE (R388): A partial-word BAR2 write is performed as an atomic read-modify-write, or discarded on a parity failure. -/
  | bar2PartialWrite (fn : Fn) (off : BitVec 26) (be : BitVec 4) (v : Word) (parityOk : Bool)
  /-- BAR2_SQ_WRITE (R443): A BAR2 write to the SQ window is accepted only within an enabled SQ of the writing function. -/
  | bar2SqWrite (fn : Fn) (off : BitVec 26) (data : List Word)
  /-- SQ_DOORBELL (R403): A tail doorbell write marks the SQ non-empty, or is discarded. -/
  | sqDoorbell (fn : Fn) (q : QId) (tail : BitVec 12)
  /-- CQ_DOORBELL (R406): A CQ head doorbell frees consumed completion slots. -/
  | cqDoorbell (fn : Fn) (q : QId) (head : BitVec 12)
  /-- SQ_ARBITRATE (R405): The arbiter grants a queue that is not skipped and fetches up to BURST entries. -/
  | sqArbitrate
  /-- CMD_DECODE (R413): A fetched entry is decoded and checked for privilege, rights, locks and version. -/
  | cmdDecode (badWords : BitVec 16)
  /-- FENCE_RELEASE (R412): The last earlier completion of the SQ is written and the fenced command proceeds. -/
  | fenceRelease (q : QId)
  /-- JCP_NOP (R416): NOP completes with success. -/
  | jcpNop (tag : Tag)
  /-- JCP_VERSION (R425): VERSION sets the function's JCP version. -/
  | jcpVersion (tag : Tag)
  /-- JCP_ABORT (R420): ABORT completes a target held at its FENCE step, or reports TOO_LATE or NOT_FOUND. -/
  | jcpAbort (tag : Tag)
  /-- JCP_PLAN (R417): PLAN performs a PL_CMD command and completes when WORK returns to 0. -/
  | jcpPlan (tag : Tag)
  /-- JCP_COMMIT (R418): COMMIT makes a commit request, or loads a schedule entry. -/
  | jcpCommit (tag : Tag)
  /-- JCP_PARK (R419): PARK performs PARK_ALL or PARK_TILES with the mask in the command. -/
  | jcpPark (tag : Tag)
  /-- JCP_REG_READ (R421): REG_READ reads a BAR0 register through the core. -/
  | jcpRegRead (tag : Tag)
  /-- JCP_REG_WRITE (R421): REG_WRITE writes a BAR0 register through the core. -/
  | jcpRegWrite (tag : Tag)
  /-- JCP_TABLE (R417): TABLE performs a page's command and completes when its BUSY clears. -/
  | jcpTable (tag : Tag)
  /-- JCP_NV_READ (R466): NV_READ reads partition bytes into a BAR2 buffer. -/
  | jcpNvRead (tag : Tag)
  /-- JCP_NV_WRITE (R466): NV_WRITE writes a BAR2 buffer to a partition. -/
  | jcpNvWrite (tag : Tag)
  /-- MGMT_COMPLETE (R414): The core completes a management command. -/
  | mgmtComplete (tag : Tag)
  /-- MGMT_TIMEOUT (R414): The core has not completed a management command in MGMT_MS, and it completes with TIMEOUT. -/
  | mgmtTimeout (tag : Tag)
  /-- CORE_UNAVAILABLE (R414): A management command completes within 10 µs with CORE_UNAVAILABLE while the core is not running. -/
  | coreUnavailable (tag : Tag)
  /-- JC_SQ_CTRL_WRITE (R402): An SQ configuration write enables or disables a queue, or is refused. -/
  | jcSqCtrlWrite (fn : Fn) (q : QId) (v : Word)
  /-- JC_CQ_CTRL_WRITE (R402): A CQ configuration write enables or disables a queue, or is refused. -/
  | jcCqCtrlWrite (fn : Fn) (q : QId) (v : Word)
  /-- SQ_DRAIN_DONE (R404): The last fetched command of a disabled SQ completes and its state becomes IDLE. -/
  | sqDrainDone (q : QId)
  /-- CQ_AGG_TIMER (R433): TIME_US passes since the oldest unsignalled completion and the CQ interrupt is raised. -/
  | cqAggTimer (q : QId)
  /-- REGISTER_WRITE (R572): A BAR0 write to a register with no behaviour of its own is checked under R607 and performed. -/
  | registerWrite (fn : Fn) (off : BitVec 24) (v : Word) (formOk : Bool)
  /-- FEED_PAGE_READ (R113): A BAR0 read of a feed-die page is sent over the IDL, or returns 0 while the link is down. -/
  | feedPageRead (fn : Fn) (off : BitVec 24)
  /-- FEED_PAGE_WRITE (R113): A posted write to a feed-die page is sent over the IDL, or discarded while the link is down. -/
  | feedPageWrite (fn : Fn) (off : BitVec 24) (v : Word)
  /-- POISONED_RX (R431): A received write TLP with EP set is discarded and counted. -/
  | poisonedRx (woff : BitVec 24)
  /-- FLR (R437): A Function Level Reset disables the function's queues and resets its version and MSI-X table. -/
  | flr (fn : Fn)
  /-- PERST_ASSERT (R436): PERST# asserts and causes a DRST. -/
  | perstAssert
  /-- HOT_RESET (R436): A hot reset or link-down reset is an FLR of every function. -/
  | hotReset
  /-- D3HOT_ENTER (R438): A function placed in D3hot stops its BAR decoding and interrupts. -/
  | d3hotEnter (fn : Fn)
  /-- MSIX_UNMASK (R435): Unmasking a vector sends its pending message. -/
  | msixUnmask (fn : Fn) (w : TableWrite)
  /-- PG_IRQ_STAT_WRITE (R434): A W1C write to PG_IRQ_STAT re-raises the interrupt when enabled bits remain. -/
  | pgIrqStatWrite (fn : Fn) (page : BitVec 9) (v : Word)
  /-- PG_LOCK_WRITE (R448): A page lock write is in force from the next cycle, and PR_GEN increments. -/
  | pgLockWrite (fn : Fn) (page : BitVec 9) (v : Word)
  /-- PR_REG_WRITE (R452): A protection register write takes effect, increments PR_GEN and is recorded. -/
  | prRegWrite (fn : Fn) (off : BitVec 12) (v : Word)
  /-- SMB_FD_ADDR (R454): FD_SMB_ADDR sets or returns the feed-page offset. -/
  | smbFdAddr (w : Option (BitVec 16)) (pecOk : Bool)
  /-- SMB_FD_DATA (R454): FD_SMB_DATA reads or writes, with PEC, the feed-page register at OFFSET. -/
  | smbFdData (w : Option Word) (pecOk : Bool)
  /-- SMB_FD_RES (R454): FD_SMB_RES returns the result of the last access. -/
  | smbFdRes
  /-- FD_SMB_RESET (R72): FD_SMB_RESET with 0xA5, 0xC1 starts FRST. -/
  | fdSmbReset (b0 b1 : Byte) (pecOk : Bool)
  /-- DD_STAGE (R453): Drive-die SMBus command 0x00 returns BT_STAGE. -/
  | ddStage
  /-- DD_PAIR (R453): Drive-die SMBus command 0x01 returns BT_PAIR. -/
  | ddPair
  /-- DD_VERS (R453): Drive-die SMBus command 0x02 returns the image and hardware versions. -/
  | ddVers
  /-- DD_BOND (R453): Drive-die SMBus command 0x03 returns the bond summaries. -/
  | ddBond
  /-- DD_LINK (R453): Drive-die SMBus command 0x04 returns HS_LINK. -/
  | ddLink
  /-- DD_TEMP (R453): Drive-die SMBus command 0x05 returns TP_STAT.TTH. -/
  | ddTemp
  /-- SMB_CLOCK_LOW_TIMEOUT (R453): The SMBus clock has been low for 25 ms to 35 ms and the port resets. -/
  | smbClockLowTimeout (port : Die)
  /-- FLASH_MOUNT (R476): With NVF on at stage 2, the controller reads parameter pages, trains and replays its metadata. -/
  | flashMount (m : Medium) (torn : List TornPage) (ckptFallback : Bool)
  /-- MOUNT_DONE (R479): Mount completes into READY, READ_ONLY or FAILED. -/
  | mountDone (ckptReadable : Bool) (ms : BitVec 16)
  /-- CODEWORD_READ (R458): A codeword is read up the read-retry ladder until decode and CRC succeed, or it is uncorrectable. -/
  | codewordRead (part : BitVec 4) (lca : BitVec 28) (step : Option (Fin 17)) (bitsCorrected : BitVec 10) (pband : Fin 6)
  /-- RELOCATION_DONE (R460): A block that needed retries has been rewritten into a fresh block. -/
  | relocationDone (freeSpare : Nat) (maxPe minPe : Nat)
  /-- PROGRAM_FAIL (R462): A program fails, the block is retired and the data written elsewhere. -/
  | programFail (block : Word)
  /-- ERASE_FAIL (R462): An erase fails and the block is retired. -/
  | eraseFail (block : Word)
  /-- WEAR_LEVEL_MOVE (R463): The cycle spread exceeds SPREAD and the least-cycled data block is moved. -/
  | wearLevelMove (maxPe minPe : Nat)
  /-- METADATA_DURABLE (R475): Copy 1 of a metadata page completes and the changes it records become durable. -/
  | metadataDurable
  /-- RING_APPEND (R469): A record is appended to a ring and TAIL advances when needed. -/
  | ringAppend (part : Fin 3) (type : Byte) (payload : List Byte)
  /-- TELEMETRY_INTERVAL (R473): INTERVAL_S expires, and at level 0 the core appends an interval record, or counts it lost. -/
  | telemetryInterval (sections : List (Fin 6))
  /-- TRIP_CAPTURE_WRITE (R473): TR_STAT.VALID rises, and the core writes a trip capture and releases the recorder. -/
  | tripCaptureWrite
  /-- BELL_JOURNAL_COPY (R496): The core copies the next Bell record into JOURNAL. -/
  | bellJournalCopy
  /-- SCRUB_RATE_UPDATE (R481): Every 60 s, and at every band change, the scrub rate is set anew, or OVERDUE is set. -/
  | scrubRateUpdate (pagesLeft : Nat) (elapsedS : Nat)
  /-- SCRUB_PASS_END (R480): A scrub pass reads its last page and a new pass starts. -/
  | scrubPassEnd
  /-- SCRUB_DEBT (R482): A block's B4 interval expires during the B5 suspension and is counted as debt. -/
  | scrubDebt (blocks : BitVec 20)
  /-- IF_RETRAIN (R484): The interface retrains every 10 min in B4 and B5, and at band changes. -/
  | ifRetrain
  /-- NF_QUIESCE (R486): QUIESCE starts refusing writes, abandoning erases and finishing programs. -/
  | nfQuiesce (fn : Fn)
  /-- QUIESCE_DONE (R486): The steps of QUIESCE are done and the controller enters 4 QUIESCED. -/
  | quiesceDone
  /-- NF_RESUME (R489): RESUME accepts writes again. -/
  | nfResume (fn : Fn)
  /-- NF_SCRUB_NOW (R489): SCRUB_NOW starts a new pass at MAX_PPS. -/
  | nfScrubNow (fn : Fn)
  /-- BELL_ACCEPT (R493): The Bell accepts a message, writes a record, sets the sticky bit and applies severity and shadowing. -/
  | bellAccept
  /-- SHADOW_CLOSE (R512): A shadow closes, and shadowed sources that are still live are recorded at their own severity. -/
  | shadowClose (shid : Fin 64)
  /-- STICKY_CLEAR (R501): A W1C write to PG_FLT_STICKY clears the bits whose cause is gone and counts refused clears. -/
  | stickyClear (fn : Fn) (page : BitVec 9) (v : Word)
  /-- PG_FLT_SEV_WRITE (R504): A new severity applies to messages accepted after the write. -/
  | pgFltSevWrite (fn : Fn) (page : BitVec 9) (v : Word)
  /-- INJ_OFF (R515): Injection MODE OFF ends a HOLD injection or disarms a CHECK. -/
  | injOff (fn : Fn) (page : BitVec 9) (src : Fin 16)
  /-- INJ_PULSE (R515): Injection MODE PULSE sends one injected message. -/
  | injPulse (fn : Fn) (page : BitVec 9) (src : Fin 16) (detail : BitVec 16)
  /-- INJ_HOLD (R515): Injection MODE HOLD sends a message and keeps the source live. -/
  | injHold (fn : Fn) (page : BitVec 9) (src : Fin 16) (detail : BitVec 16)
  /-- INJ_CHECK (R517): Injection MODE CHECK arms an inverted check bit on the next protected write. -/
  | injCheck (fn : Fn) (page : BitVec 9) (src : Fin 16) (detail : BitVec 16)
  /-- PG_BLK_RST (R581): BLK_RST applies the page's reaction and its clear, and records BLK_RESET. -/
  | pgBlkRst (fn : Fn) (page : BitVec 9)
  /-- SY_RESET_WARM (R585): SY_RESET ACT 1 with the key starts a WARM reset. -/
  | syResetWarm (fn : Fn) (key : BitVec 16)
  /-- SY_RESET_DRST (R585): SY_RESET ACT 2 with the key, at P0, starts a DRST. -/
  | syResetDrst (fn : Fn) (key : BitVec 16)
  /-- TG_DOMAIN_OFF (R521): A TG domain is switched off when R35 allows it, or the request is refused. -/
  | tgDomainOff (fn : Fn) (k : Fin 8)
  /-- TG_DOMAIN_ON (R523): Writing OFF 0 switches a TG domain back on. -/
  | tgDomainOn (fn : Fn) (k : Fin 8)
  /-- TG_DOMAIN_ON_DONE (R523): The domain is on, with its channels at 0 A and AT_PARK set, and its sequencers restart. -/
  | tgDomainOnDone (k : Fin 8)
  /-- PLL_WORK_ARRIVES (R525): Work arrives in SLEEP or WARM, and PLL_C starts or ungates. -/
  | pllWorkArrives
  /-- PLL_C_LOCKED (R525): PLL_C locks, the loads switch to it, and armed slots are redone after a loss of lock. -/
  | pllCLocked
  /-- WARM_IDLE_EXPIRED (R525): No work for WARM_CC and the PLL_C tree is gated into WARM. -/
  | warmIdleExpired
  /-- SLEEP_IDLE_EXPIRED (R525): No work for SLEEP_US with no slot armed, and PLL_C stops. -/
  | sleepIdleExpired
  /-- PLL_C_LOCK_LOSS (R525): PLL_C loses lock; tongues end, entries are abandoned, READY clears and a relock starts. -/
  | pllCLockLoss
  /-- REFCLK_LOST (R527): REFCLK has been absent for 1 µs, the PLLs lose lock and the loads run on the backup clock. -/
  | refclkLost
  /-- REFCLK_RETURN (R527): REFCLK returns, the PLLs relock and the loads return to their clocks. -/
  | refclkReturn
  /-- DROOP_START (R528): A droop sensor reads below THRESH_MV and the PLL_C loads skip every second cycle. -/
  | droopStart (mv : BitVec 10)
  /-- DROOP_END (R528): 64 cc after every sensor reads above the threshold, skipping ends. -/
  | droopEnd (mv : BitVec 10) (aboveCc : BitVec 16)
  /-- DROOP_SUSTAINED (R529): The core rail has been low for SUST_US, and the CORE cause and CORE_SAG rise. -/
  | droopSustained (mv : BitVec 10)
  /-- CAUSE_CLIMB (R531): CLIMB_MS passes while a cause's condition holds and its request rises one level. -/
  | causeClimb (feedCause : Bool)
  /-- BUS_SAG_HELD (R531): BUS_SAG has been set for 1 ms and the BUS request becomes L3. -/
  | busSagHeld
  /-- CORE_CAUSE_L8 (R531): The CORE cause has held for 100 ms and requests L8. -/
  | coreCauseL8
  /-- CLOCK_CAUSE_RISE (R531): REFCLK has been absent, or PLL_C unlocked, for 1 µs, and the CLOCK request is L3. -/
  | clockCauseRise
  /-- CLOCK_CAUSE_CLEAR (R531): Both clocks have been good for 10 ms and the CLOCK request clears. -/
  | clockCauseClear
  /-- LADDER_CLIMB (R533): The request rises above the level and each level up to it is entered in order. -/
  | ladderClimb
  /-- LADDER_DESCEND (R535): 10 ms after the later of the last change and the fall of the request, the ladder descends one level. -/
  | ladderDescend
  /-- L6_STEP (R536): L6_STEP_MS passes at L6 or above and the next priority class of tiles is parked. -/
  | l6Step
  /-- L8_STOP_WAIT_EXPIRED (R537): STOP has not been accepted within SHUT_WAIT_MS of L8, and PWR sends STOP itself. -/
  | l8StopWaitExpired
  /-- PW_FLOOR_WRITE (R541): A write of FLOOR changes the request at once. -/
  | pwFloorWrite (fn : Fn) (v : Word)
  /-- CK_CTRL_WRITE (R540): A clock or droop setting takes effect within 2 cc. -/
  | ckCtrlWrite (fn : Fn) (off : BitVec 12) (v : Word)
  /-- SL_FRAME_RECEIVE (R544): A shelf frame is checked, taken, forwarded or dropped. -/
  | slFrameReceive (p : Port) (fr : SlFrame) (crcOk : Bool)
  /-- SL_ECHO_TIMER (R549): Every 16 beat intervals a port sends ECHO_REQ. -/
  | slEchoTimer (p : Port)
  /-- SL_ECHO_REQ (R549): An ECHO_REQ is received and answered with ECHO_RSP. -/
  | slEchoReq (p : Port) (t2 t3 : Nat) (seq : Word)
  /-- SL_ECHO_RSP (R549): An ECHO_RSP is received and the segment delay is computed. -/
  | slEchoRsp (p : Port) (t1 t4 : Nat) (turn : Word)
  /-- SL_TIME1 (R550): A TIME1 with the next beat time is received. -/
  | slTime1 (p : Port) (hi : BitVec 16) (master : BitVec 4)
  /-- SL_BEAT_SEND (R550): Shelf time reaches the beat time and the device sends TIME1 and BEAT away from the master. -/
  | slBeatSend
  /-- SL_BEAT_RECEIVE (R551): A BEAT from the master side is received and shelf time is slewed or stepped. -/
  | slBeatReceive (p : Port) (beat : Word) (synced : Bool) (arrival16 : Nat)
  /-- SL_BEAT_TIMEOUT (R554): No BEAT for 4 intervals puts the device in holdover and starts an election. -/
  | slBeatTimeout
  /-- SL_HELLO (R568): A HELLO is received and the ring version and membership are renegotiated. -/
  | slHello (p : Port) (src : BitVec 4) (synced : Bool) (data : Word) (time : Nat)
  /-- SL_CLAIM (R554): A CLAIM is received and the election is judged. -/
  | slClaim (p : Port) (data : Word)
  /-- SL_ELECTION_DONE (R555): The election ends; the winner steps its time forward and becomes master. -/
  | slElectionDone
  /-- SL_SCHED_CMD (R559): The master distributes SCHED0 and SCHED1 to the named positions. -/
  | slSchedCmd (fn : Fn) (slot : Slot) (cut : Bool)
  /-- SL_SCHED0 (R560): A SCHED0 from the master is received and held. -/
  | slSched0 (src : BitVec 4) (slot : Slot) (cut : Bool) (lo : Word)
  /-- SL_SCHED1 (R560): A SCHED1 matching a SCHED0 loads the schedule entry and is answered with SCHED_ACK. -/
  | slSched1 (src : BitVec 4) (slot : Slot) (cut : Bool) (hi : Word)
  /-- SL_SCHED_ACK (R561): The master receives SCHED_ACK and sets ACCEPTED or REFUSED. -/
  | slSchedAck (src : BitVec 4) (slot : Slot) (result : BitVec 5)
  /-- SL_SCHED_NACK_TIMEOUT (R561): A named position has not answered within 20 µs and SCHED_NACK is raised. -/
  | slSchedNackTimeout (pos : BitVec 4)
  /-- SL_PORT_DOWN (R564): A port has had no valid frame for 1 µs, or 4 CRC errors in a beat interval, and goes down. -/
  | slPortDown (p : Port)
  /-- SL_WRAP (R565): A WRAP frame is received and the device takes beats from the port now facing the master. -/
  | slWrap (pos : BitVec 4) (dnPort : Bool)
  /-- SL_PORT_UP (R568): A port comes up and the link negotiates with HELLO. -/
  | slPortUp (p : Port)
  /-- SL_CTRL_WRITE (R568): A write of SL_CTRL enables or disables the link and sets SYNC_OUT mode, wrap and mastership. -/
  | slCtrlWrite (fn : Fn) (v : Word)
  /-- SL_TIME_LO_READ (R569): A read of SL_TIME_LO copies the high word into the shadow. -/
  | slTimeLoRead (fn : Fn)
  /-- PW_MAXLVL_READ (R541): A read of PW_MAXLVL returns the highest level and clears it. -/
  | pwMaxlvlRead (fn : Fn)
  /-- GATE_DWELL_RESTART (R40): In 5 ENHANCE the gate falls below VFEED + 10 V during the 1 ms dwell, and the dwell restarts while the start timer keeps running. -/
  | gateDwellRestart (f : Feed)
  /-- BUS_SAG_CLEAR (R60): VSLED rises back above the lower SAG_V of the conducting feeds and BUS_SAG clears. -/
  | busSagClear (vSled : BitVec 16)
  /-- LIMITER_RELEASE (R137): A limiting channel's demanded current falls back below the limiter threshold, LIMITING clears and the limiter timer restarts. -/
  | limiterRelease (ch : Chan)
  /-- COMPLIANCE_CLEARED (R137): The pad voltage that a channel demands returns within compliance, COMPL_LIVE clears and the compliance timer restarts. -/
  | complianceCleared (ch : Chan)
  /-- UPD_ABORT_DONE (R120): An ABORT given during a WRITE or SEAL takes effect at the end of the 4 KiB page being programmed; the slot is marked EMPTY, ERR reads ABORTED and BUSY clears. -/
  | updAbortDone
  /-- PCIE_LINK_UP (R436): The PCIe link finishes training after stage-2 entry, a DRST or a link loss; configuration requests are answered in full and LINK_DOWN is no longer live. -/
  | pcieLinkUp (speed width : BitVec 6)
  /-- HS_RETRAIN (R436): A write of HS_CTRL.RETRAIN makes the PCIe link retrain. -/
  | hsRetrain (fn : Fn)
  /-- PCIE_ERROR (R428): AER detects a correctable or uncorrectable PCIe error, HS_ERR counts it and PCIE_CORR or PCIE_UNCORR is raised. -/
  | pcieError (corr : Bool) (status : Word)
  /-- D3HOT_EXIT (R438): A function returns from D3hot to D0 and resumes BAR decoding and interrupts. -/
  | d3hotExit (fn : Fn)
  /-- PLL_C_WAKE_TIMEOUT (R615): During a wake from SLEEP, 20 µs pass without PLL_C locking, and PLL_C now counts as unlocked, so PLLC_UNLOCK becomes live. -/
  | pllCWakeTimeout
  /-- PLL_S_LOCK_LOSS (R540): PLL_S loses lock, PLLS_UNLOCK becomes live, and the supervisory core and the flash interface halt. -/
  | pllSLockLoss
  /-- PLL_S_LOCKED (R540): PLL_S locks again and the supervisory core and the flash interface resume. -/
  | pllSLocked
  /-- BAR_READ (R607): A BAR0 or BAR2 read is judged against R607 and either returns data or returns 0 or all ones, setting UNMAPPED, STAGE_CLOSED, ACCESS_DENIED or DOMAIN_OFF. -/
  | barRead (fn : Fn) (bar : Bar) (at' : ReadSpan) (formOk : Bool)
  /-- BAR2_WINDOW_WRITE (R607): A BAR2 write to the flash-buffer window, to a window that refuses writes, or to a gap is stored or refused under R607, R443 and R578. -/
  | bar2WindowWrite (fn : Fn) (off : BitVec 26) (data : List Word)
  /-- LP_CH_STAT_READ (R345): A read of LP_CH_STAT with AUTOINC set advances LP_CH_IDX.CH, wrapping 32,767 to 0. -/
  | lpChStatRead (fn : Fn)
  /-- TH_EL_TEMP_READ (R382): A read of TH_EL_TEMP with AUTOINC set advances TH_EL_IDX.CH. -/
  | thElTempRead (fn : Fn)
  /-- TH_NODE_READ (R382): A read of TH_NODE with AUTOINC set advances NODE and then TILE. -/
  | thNodeRead (fn : Fn)
  /-- TP_DIODE_E_READ (R384): A read of TP_DIODE_E with AUTOINC set advances TP_DIODE_IDX.DIODE, wrapping 63 to 0. -/
  | tpDiodeERead (fn : Fn)
  /-- TH_K_DATA_READ (R354): A read of TH_K_DATA with AUTOINC set returns the kernel word and advances TH_K_IDX. -/
  | thKDataRead (fn : Fn)
  /-- FEED_SUPPLY_LOST (R49): No feed powers the feed die any longer, and FAO runs from HOLD with its cool-downs held and its records kept. -/
  | feedSupplyLost (f : Feed)
  deriving DecidableEq, Repr

end Sys2Proof
end

