-- ==== Sys2Proof/WellFormed.lean ====
section
/-! DEFINITION. Which commands are well-formed: their operands lie in the ranges that the row's rule gives (R14, R403, R571,
R577). The machine takes every command; a well-formed one is one that the part can be given. -/

namespace Sys2Proof

/-- A BAR2 write TLP of whole words: aligned, not empty, at most 512 bytes, within one 4 KiB block of the address space (R388, R428,
R577). -/
def wfBar2 (off : BitVec 26) (data : List Word) : Bool :=
  off.toNat % 4 == 0 && !data.isEmpty && decide (data.length ≤ 128) && decide (off.toNat % 4096 + 4 * data.length ≤ 4096)

/-- A BAR2 offset lies in [lo, hi). -/
def inWindow (off : BitVec 26) (lo hi : Nat) : Bool := decide (lo ≤ off.toNat) && decide (off.toNat < hi)

/-- Keys of a sparse list are strictly rising and below `n`. -/
def wfKeys {α : Type} (l : List (Nat × α)) (n : Nat) : Bool :=
  (l.map (·.1)).Pairwise (· < ·) && l.all (fun p => decide (p.1 < n))

/-- The checks of a command's operands. -/
def WellFormed (i : Instr) : Bool := match i with
  | .tripCaptureDone samples => wfKeys samples 64000
  | .padTestDone _ _ drv _ mon => wfKeys drv 32768 && wfKeys mon 16384
  | .padtestRepeatDone _ _ drv _ mon => wfKeys drv 32768 && wfKeys mon 16384
  | .bar2SetpointWrite _ off data => wfBar2 off data && inWindow off 0x80_0000 0xA0_0000
  | .bar2DeltaWrite _ off data => wfBar2 off data && inWindow off 0x100_0000 0x140_0000
  | .bar2ShapeWrite _ off data => wfBar2 off data && inWindow off 0xA0_0000 0xAC_0000
  | .bar2SeqWrite _ off data => wfBar2 off data && inWindow off 0xB0_0000 0xB8_0000
  | .bar2AccWrite _ off => inWindow off 0xC0_0000 0xD0_0000
  | .bar2SqWrite _ off data => wfBar2 off data && inWindow off 0 0x40_0000
  | .bar2PartialWrite _ off be _ _ => off.toNat % 4 == 0 && be != 0 && be != 15
  | .bar2WindowWrite _ off data => wfBar2 off data
  | .breathWrite _ off _ => off.toNat % 4 == 0 && decide (0x40 ≤ off.toNat) && decide (off.toNat ≤ 0x58)
  | .mtPeriodWrite off _ => off.toNat % 4 == 0
  | .ckCtrlWrite _ off _ => off.toNat % 4 == 0
  | .prRegWrite _ off _ => off.toNat % 4 == 0
  | .registerWrite _ off _ formOk => !formOk || off.toNat % 4 == 0
  | .feedPageRead _ off => off.toNat % 4 == 0
  | .feedPageWrite _ off _ => off.toNat % 4 == 0
  | .barRead _ bar ⟨off, more⟩ formOk => (!formOk || off.toNat % 4 == 0) && (match bar with
      | .bar0 => more == 0 && decide (off.toNat < 0x100_0000)
      | .bar2 => decide (off.toNat % 4096 + 4 * (more.toNat + 1) ≤ 4096)
      | .bar4 => more == 0 && decide (off.toNat < 0x4000))
  | .msixUnmask _ w => w.off.toNat % 4 == 0
  | .pcieLinkUp speed width => decide (1 ≤ speed.toNat ∧ speed.toNat ≤ 4) && (width == 1 || width == 2 || width == 4)
  | .meterPeriodEnd raw _ _ => raw.length == 8
  | .mtScDone samples _ => !samples.isEmpty
  | .boreReplay addr _ => addr.toNat % 4 == 0
  | _ => true

end Sys2Proof
end

