-- ==== Sys2Proof/Decode.lean ====
section
/-! DEFINITION. Words that spell commands. No row of spec/opcode_table.json gives bits: the part takes its commands as bus
accesses, frames and events, not as encoded words, so no word spells one. -/

namespace Sys2Proof

/-- The command that a word of `nbits` bits spells: none, as no row of the table has bits. -/
def decodeTableWord (_nbits _w : Nat) : Option Instr := none

end Sys2Proof
end

