-- ==== Sys2Proof/Config.lean ====
section
/-! DEFINITION. What one CX32 fixes and the spec does not: fuses and strap pins, and the values the spec leaves open.
Every constant is opaque: nothing in the model or in a proof can see its value. -/

namespace Sys2Proof.Config

/-- DESIGN CHOICE (log 5): a value the spec leaves open, as an uninterpreted function of the count `State.free`. -/
opaque freeWord : Nat → Word

/-- The temperature in m°C that the factory trims of diode `j` give for an accumulator value (R359); the trims are the chip's. -/
opaque diodeTemp : Nat → Int → Int

/-- SY_DSN_LO and SY_DSN_HI come from fuses (R585). -/
opaque dsnLo : Word
opaque dsnHi : Word

/-- Where the supervisory core keeps its code in the working store (R386, R392): the byte offset in the booted bundle of the code
word at a Bore address, none for a word of data. The spec gives the working store no layout (log 16). -/
opaque coreCode : Nat → Option Nat

/-- The strap pins F_ADDR[1:0] and D_ADDR[1:0] (R453). -/
opaque fAddr : BitVec 2
opaque dAddr : BitVec 2

/-- The strap pins S_POS[3:0] (R543). -/
opaque shelfPos : BitVec 4

end Sys2Proof.Config
end

