-- ==== Sys2Proof/Machine/State.lean ====
section
/-! DEFINITION. The state of the CX32: both dies, the medium and the queue of waiting commands, as plain data.
Every field's default is its value after POR, so that the state after reset is the structure of defaults.
Registers that software reads or writes as words live in `regs`, by BAR0 byte offset; what they read as where nothing is
listed is the reset value of Machine/RegMap.lean. Sparse tables are lists of (key, value), keys strictly rising. -/

namespace Sys2Proof.Machine

/-- Why the machine stops with a fault. The spec of this block gives every command an effect, so no meaning raises one. -/
inductive Fault where
  /-- Raised by no command of this model: a place holder for a stop that the spec calls undefined. Safe. -/
  | undefinedBehaviour
  deriving DecidableEq, Repr

/-- Why a command is refused by the model. -/
inductive Refusal where
  /-- Raised by Dispatch for a command that has no meaning yet, by its mnemonic. Safe. -/
  | notModelled (mnemonic : String)
  deriving DecidableEq, Repr

/-- A sparse table: key and value, keys strictly rising, no value equal to the table's default. -/
abbrev Tab (α : Type) := List (Nat × α)

/-! ### Messages and links -/

/-- A coded message to the Bell: SOURCE, KIND, DETAIL and the INJ mark (R491, R493). -/
structure Msg where
  source : BitVec 13
  kind : BitVec 8
  detail : Word
  inj : Bool := false
  /-- shelf time at which the drive die received it, for a message of the feed die (R115) -/
  stamp : Option Nat := none
  deriving DecidableEq, Repr

/-- The replayable frames of the IDL (R108 table of 03_staged_start.md), with the fields that DATA carries. -/
inductive Frame where
  | push0 (data : Word)
  | push1 (data : Word)
  | rdReq (off : BitVec 15) (priv : BitVec 2)
  | rdData (v : Word)
  | wrAddr (off : BitVec 15) (priv : BitVec 2)
  | wrData (v : Word)
  | wrAck (off : BitVec 15) (refused : Bool)
  | drone (count : Word)
  | bell0 (source : BitVec 13) (kind : BitVec 8) (inj : Bool)
  | bell1 (detail : Word)
  deriving DecidableEq, Repr

/-- One direction of the IDL (R108 to R111). -/
structure IdlDir where
  /-- frames sent and not yet received in order, oldest first, each with its SEQ: the wire and the replay buffer of 64, and after
  those the frames that wait for a place in it -/
  wire : List (BitVec 8 × Frame) := []
  nextSeq : BitVec 8 := 0
  /-- the receiver discards every frame until the replay (R110) -/
  discarding : Bool := false
  /-- replays of the oldest frame without an acknowledgement (R111) -/
  replays : Nat := 0
  deriving DecidableEq, Repr

/-- ID_STAT.STATE (R586). -/
inductive IdlState | down | training | up
  deriving DecidableEq, Repr

/-- A feed-page access: its offset, the function it came from (3 for the drive die's own), its PRIV, the value of a write, and the
JCP tag that waits for it (R113, R421). -/
structure FeedWait where
  off : BitVec 15
  fn : BitVec 2
  priv : BitVec 2 := 0
  data : Option Word := none
  tag : Option Tag := none
  deriving DecidableEq, Repr

/-- The inter-die link (R108 to R115, R586). -/
structure Idl where
  state : IdlState := .down
  toDrive : IdlDir := {}
  toFeed : IdlDir := {}
  /-- what each side received in TRAIN: VER_MIN, VER_MAX, LANES_OK -/
  trainDrive : Option (BitVec 8 × BitVec 8 × BitVec 4) := none
  trainFeed : Option (BitVec 8 × BitVec 8 × BitVec 4) := none
  ver : BitVec 8 := 0
  lanes : BitVec 3 := 0
  pushOk : Bool := false
  /-- PUSH0 received and held for its PUSH1 (R112) -/
  held0 : Option Word := none
  /-- the last push applied: PUSH0 word and PUSH1 word -/
  push0 : Word := 0
  push1 : Word := 0
  /-- BELL0 received and held for its BELL1 (R115) -/
  bell0 : Option (BitVec 13 × BitVec 8 × Bool) := none
  /-- address half of a write held by the feed die for its WR_DATA (R113) -/
  wrHeld : Option (BitVec 15 × BitVec 2) := none
  /-- posted feed-page writes whose WR_ACK has not arrived, and feed-page reads in flight, in order (R113) -/
  wrWait : List FeedWait := []
  rdWait : List FeedWait := []
  /-- accesses held behind a write to the same feed page (R113) -/
  heldAcc : List FeedWait := []
  /-- drive-die drone-tick count at the last DRONE frame (CK_DRONE.LOCKED) -/
  droneAt : Option Nat := none
  deriving DecidableEq, Repr

/-! ### Feed die -/

/-- FD_STATE.STATE (R40). -/
inductive FeedState
  | absent | qualify | cooldown | delay | ramp | enhance | on | limit | blocked | latched | heldOff
  deriving DecidableEq, Repr

/-- The retained trip record TR_REC_x (R47 to R53). -/
structure TripRec where
  trips : BitVec 8 := 0
  lastKind : BitVec 4 := 0
  consec : BitVec 3 := 0
  latched : Bool := false
  coolMs : BitVec 14 := 0
  /-- the last of the three counted kinds (R48), hidden -/
  lastCounted : BitVec 4 := 0
  deriving DecidableEq, Repr

/-- The latest trip of a feed, as the choice of one kind among the events of a drone tick needs it (R41): its tick and kind, and what
stood before it: the record, the state, the start timer, the sticky bits of the feed page. -/
structure TickTrip where
  tick : Nat
  kind : BitVec 4
  rec0 : TripRec
  from0 : FeedState
  timer : Bool
  sticky : Word
  deriving DecidableEq, Repr

/-- One feed's breaker (R36 to R50, R60, R72 to R76). -/
structure FeedSt where
  state : FeedState := .absent
  pres : Bool := false
  inWindow : Bool := false
  sag : Bool := false
  sagSust : Bool := false
  gateEnh : Bool := false
  lastKind : BitVec 4 := 0
  /-- FD_CTRL.OFF, kept through FRST (R72) -/
  off : Bool := false
  tr : TripRec := {}
  /-- the insertion delay and the fold-back limit in force for the delay or ramp in progress (R73) -/
  delayMs : BitVec 11 := 100
  plimW : BitVec 8 := 40
  /-- the insertion delay has expired and is held behind the other feed (R40, R43) -/
  delayDone : Bool := false
  /-- V_DS was at most 0.5 V in the tick in which that delay expired (R608) -/
  flat : Bool := false
  /-- the latest trip, for the events of its drone tick (R41) -/
  tickTrip : Option TickTrip := none
  /-- ITRIP at the comparator, and the lower value it has still to move to (R74) -/
  itripCmp : BitVec 8 := 100
  itripNext : Option (BitVec 8) := none
  /-- start timer and 2 ms timed-limit timer running (R40, R46) -/
  startTimer : Bool := false
  limitTimer : Bool := false
  /-- feed-die drone tick at which the gate dwell last restarted (R40) -/
  dwellAt : Nat := 0
  /-- feed-die drone tick at entry to 4 RAMP, for FD_START (PSEQ table of 02) -/
  rampTick : Nat := 0
  deriving DecidableEq, Repr

/-- SH_STATE.STATE (R57). -/
inductive ShareState | none | aOnly | bOnly | sharing | rebalance | dual
  deriving DecidableEq, Repr

/-- PS_STATE.STATE (R62 to R70); step k of the up-sequence is `step k`, 1 to 5. -/
inductive SeqState | idle | step (k : Fin 6) | up | stopping | stopped | retryWait | latched
  deriving DecidableEq, Repr

/-- The rail sequencer (R62 to R70). -/
structure RailSeq where
  state : SeqState := .idle
  consec : BitVec 4 := 0
  failed : BitVec 4 := 15
  /-- EN and PG, bit order IB, CORE, IO, AUX, HVA, HVB -/
  en : BitVec 6 := 0
  pg : BitVec 6 := 0
  /-- next drop of the down-sequence, 0 (HVA and HVB) to 4 (IB), and the state that it ends in (R63, R64, R68) -/
  downNext : Nat := 0
  downTo : SeqState := .idle
  dtinArmed : Bool := false
  deriving DecidableEq, Repr

/-- The feed die outside its two breakers: supply, OTP, sharing, sags, recorder, meters, messages (R36, R51 to R61, R79, R115, R314 to R322). -/
structure FeedDie where
  /-- a feed powers the die; the breaker is armed, which is stage 0 -/
  supply : Bool := false
  armed : Bool := false
  /-- which feeds are above 18 V -/
  liveA : Bool := false
  liveB : Bool := false
  share : ShareState := .none
  atLimit : Bool := false
  /-- what the sharing loop adds to the 25 mV target of each feed, in mV (R56) -/
  raiseA : BitVec 8 := 0
  raiseB : BitVec 8 := 0
  busSag : Bool := false
  pgIb : Bool := false
  /-- FAO holds intact records (TR_HOLD.REC_VALID) -/
  recValid : Bool := false
  vHold : BitVec 12 := 0
  /-- capture in progress, with the kind and tick of its trip; capture held (TR_STAT.VALID) -/
  capture : Option (Feed × BitVec 4) := none
  capValid : Bool := false
  capFeed : Feed := .a
  capKind : BitVec 4 := 0
  capMissed : BitVec 8 := 0
  capTick : Nat := 0
  samples : Tab Word := []
  /-- SHARE_ERR is live (R58) -/
  shareErr : Bool := false
  /-- messages held while the IDL is down, in event order (R115) -/
  held : List Msg := []
  /-- the feed die's own counts of refused clears, by page (R501, R519) -/
  refused : Tab (BitVec 16) := []
  otpOk : Bool := false
  otpProfile : BitVec 8 := 0
  /-- energies of A, B and IB in mJ and their remainders, 51,200,000,000 to the mJ (R318, R319) -/
  energyA : Nat := 0
  energyB : Nat := 0
  energyIb : Nat := 0
  remA : Nat := 0
  remB : Nat := 0
  remIb : Nat := 0
  /-- sums of the power products in 312.5 pW and their count over the running period (R318) -/
  pSumA : Int := 0
  pSumB : Int := 0
  pSumIb : Int := 0
  pCount : Nat := 0
  /-- the coefficient words in force in the running period (MT_SC text of 09) -/
  calInForce : Tab Word := []
  /-- the period selection in force in the running period (R316) -/
  periodSel : BitVec 2 := 0
  periodMs : BitVec 10 := 20
  /-- high-word shadows of the energies (R319) -/
  eShadow : Tab Word := []
  /-- FRESH of FR_STATUS (R324) -/
  fresh : Bool := false
  /-- MT_SC run: channel, full-scale step, periods (R322) -/
  mtSc : Option (Nat × Bool × Nat) := none
  deriving DecidableEq, Repr

/-! ### Channels, valves, references, reeds, tiles -/

/-- TL_CH_STAT.FUSE (R141). -/
inductive Fuse | clear | fused | locked | off
  deriving DecidableEq, Repr

/-- One segment of a shape: signed Q1.14 amplitude and duration in cc (R233). -/
structure Seg where
  amp : Int
  dur : Nat
  deriving DecidableEq, Repr

/-- A resolved entry of an expanded plan (R183, R191, R370, R371). -/
structure Entry where
  ch : Nat
  code : BitVec 16
  range : Bool
  /-- a compensation entry without a delta (R370) -/
  comp : Bool := false
  /-- the delta asks for a plain step, or no shape applies (R183) -/
  plain : Bool := false
  shape : BitVec 12 := 0
  lmode : BitVec 2 := 0
  target : BitVec 24 := 0
  /-- P_SS_UW of the setpoint entry, 0 when not given (R172, R217) -/
  pss : BitVec 16 := 0
  /-- reed of the dominant aggressor of a compensation entry (R372) -/
  domReed : Nat := 0
  /-- NOXT of the delta (R182) -/
  noxt : Bool := false
  /-- the segments the copy resolved, empty for a plain step (R242) -/
  segs : List Seg := []
  /-- the copied first hold segment was adjusted below 1 cc (R372) -/
  late : Bool := false
  /-- TAG of the setpoint entry (R169) -/
  tag : BitVec 16 := 0
  deriving DecidableEq, Repr

/-- A tongue playing on a channel (R237 to R240). -/
structure Tongue where
  slot : Nat
  cOld : BitVec 16
  final : BitVec 16
  range : Bool
  segs : List Seg
  /-- index of the segment whose code stands in the load register -/
  k : Nat := 0
  /-- played as a plain step, a range change or an empty shape (R240) -/
  plain : Bool
  /-- cycle at which the next segment, or the end, falls due -/
  due : Nat := 0
  /-- cycle at which the tongue ends -/
  endAt : Nat := 0
  deriving DecidableEq, Repr

/-- One channel: load register, fuse, flags, supervision, park register, readback, tongue player (R123 to R155, R307). -/
structure ChanSt where
  code : BitVec 16 := 0
  range : Bool := false
  /-- SRC of TL_CH_CODE: 0 POWERUP, 1 PARK, 2 STROBE, 3 LOOP, 4 FUSE, 5 DARK -/
  src : BitVec 3 := 0
  fuse : Fuse := .clear
  kind : BitVec 2 := 0
  consec : BitVec 2 := 0
  limiting : Bool := false
  complLive : Bool := false
  shortFlag : Bool := false
  complFlag : Bool := false
  atPark : Bool := false
  /-- I_OK (R154) -/
  iOk : Bool := false
  /-- cycle of the last write of the load register, whose source SRC names (R27) -/
  wrote : Option Nat := none
  /-- code and source before the loop write of that cycle, which a strobe or park in the same cycle overrides (R27, R29) -/
  unlooped : Option (BitVec 16 × BitVec 3) := none
  /-- range change in progress or past: the code and range left, and the cycle at which it began (R131) -/
  change : Option (BitVec 16 × Bool × Nat) := none
  pStale : Bool := false
  /-- TL_CH_CFG: CO_EN, SHORT_ACT, COMPL_ACT (reset 1) -/
  cfg : BitVec 3 := 1
  /-- park register: CODE[14:0] and RANGE[15] (R145, R146) -/
  park : BitVec 16 := 0
  vHtr : BitVec 16 := 0
  pUw : BitVec 16 := 0
  /-- channel coefficients in force, ranges L and H (R307) -/
  coefL : Word := 0x8000
  coefH : Word := 0x8000
  tongue : Option Tongue := none
  /-- a strobed entry that waits for its breath offset, with its slot (R126, R238) -/
  waiting : Option (Nat × Entry) := none
  deriving DecidableEq, Repr

/-- TL_VA_STAT.STATE (R156). -/
inductive ValveState | blocked | conduct | limit | softStart | tripped | heldOff
  deriving DecidableEq, Repr

/-- One tile: valves, backup reference, dark state, strobe age (R156 to R165, R201). -/
structure TileSt where
  va : ValveState := .blocked
  vb : ValveState := .blocked
  iVa : BitVec 12 := 0
  iVb : BitVec 12 := 0
  dark : Bool := false
  /-- latest HK_VTILE result in 100 uV, 5.0 V before the first (R172) -/
  vTile : Nat := 50000
  /-- the exempt intervals of R159 -/
  exempt : Bool := true
  /-- end of the 600 us after its TG domain came on (R159) -/
  exemptTill : Nat := 0
  backupFailed : Bool := false
  /-- ISUM in units of 0.3125 nA at the last ISUM_MISMATCH, which stays live while ISUM stays there (R155, log 27) -/
  mismatchAt : Option Nat := none
  /-- cycle of the last strobe that reached the tile (R213) -/
  lastStrobe : Option Nat := none
  /-- slot that started the last tongue in the tile -/
  lastSlot : BitVec 4 := 0
  deriving DecidableEq, Repr

/-- MS_REED_STAT.STATE (R289). -/
inductive ReedSeq | off | wait | delay | startup | convert | insert
  deriving DecidableEq, Repr

/-- What the modulator of a reed converts: input, range, OSR code, open-wire current, free-running, accumulator (R255 to R262). -/
structure Conv where
  input : BitVec 6 := 0
  range : BitVec 2 := 0
  osr : BitVec 3 := 0
  owc : BitVec 2 := 0
  free : Bool := false
  acc : BitVec 6 := 0
  deriving DecidableEq, Repr

/-- One reed: sequencer, triggers, urgent request, reference, loop freeze (R160 to R164, R253 to R291, R338 to R341). -/
structure ReedSt where
  /-- MS_REED_CFG, MS_TIMER and MS_DRV_DELAY of the reed -/
  cfg : BitVec 5 := 1
  timer : BitVec 16 := 0x1000
  drvDelay : BitVec 16 := 0
  seq : ReedSeq := .off
  /-- state to which an insert returns (R289) -/
  resume : ReedSeq := .off
  /-- an inserted conversion waits for power-up, rather than the sequence (R283) -/
  startInsert : Bool := false
  seqEmpty : Bool := false
  trigPend : Bool := false
  drvArmed : Bool := false
  powered : Bool := false
  hkLate : Bool := false
  fieldZero : Bool := false
  entry : BitVec 6 := 0
  /-- DELAY of the running entry, in drone ticks -/
  delay : BitVec 16 := 0
  /-- cycles from which the running DELAY and the reed timer count (R263, R271) -/
  delayAt : Nat := 0
  timerAt : Nat := 0
  /-- strobes that carried an entry of the reed while DRV_ARMED was 1, and whose DRIVE trigger has not yet fired (R271) -/
  drvDue : List Nat := []
  /-- conversions the running entry has still to deliver, and whether its DELAY has expired during an insert (R263, R280) -/
  left : BitVec 8 := 0
  delayDone : Bool := false
  conv : Conv := {}
  /-- the inserted conversion that runs (R279) -/
  ins : Conv := {}
  /-- coefficient word that the running conversion took at its start (R307) -/
  coef : Word := 0x8000
  /-- last conversion of the stream and invalid outputs still to come (R256, R257) -/
  lastConv : Option Conv := none
  invalid : BitVec 2 := 0
  passes : BitVec 16 := 0
  overrun : BitVec 16 := 0
  badEnt : BitVec 16 := 0
  parity : BitVec 16 := 0
  /-- MS_OPEN and the live open marks (R285) -/
  opens : BitVec 16 := 0
  openLive : BitVec 16 := 0
  urgent : Option Conv := none
  /-- the urgent request, and the insert in progress, is the calibration engine's (R312) -/
  urgCal : Bool := false
  insCal : Bool := false
  /-- housekeeping conversions still owed by the round, 0 to 4 (R278, R281) -/
  hkOwed : BitVec 3 := 0
  /-- the insert in progress is the urgent conversion -/
  insUrgent : Bool := false
  /-- held by a CONTAIN reaction of MEAS, or by the pad test (R287, R506) -/
  contained : Bool := false
  padHold : Bool := false
  /-- reference: on the backup, in transfer, out of window (R160 to R164) -/
  onBackup : Bool := false
  refBad : Bool := false
  transfer : Bool := false
  /-- loop freeze of R29: frozen, some entry played plainly (R338), held by a CONTAIN reaction of LOOP (R506) -/
  frozen : Bool := false
  /-- cycle up to which tongues of the freezing strobe have played (R338) -/
  settleFrom : Nat := 0
  freezePlain : Bool := false
  loopHeld : Bool := false
  /-- breath group and offset of the last strobe that reached the reed, and its cycle -/
  group : BitVec 4 := 0
  offset : BitVec 12 := 0
  strobeAt : Nat := 0
  deriving DecidableEq, Repr

/-- Loop state of one channel (R328 to R344). -/
structure LoopCh where
  cfg : BitVec 13 := 0
  lmode : BitVec 2 := 0
  target : BitVec 24 := 0
  tgtClamp : Bool := false
  base : BitVec 16 := 0
  /-- an event has set BASE since the reset (log 22) -/
  based : Bool := false
  lastTrim : BitVec 16 := 0
  firstDelta : BitVec 16 := 0
  firstPend : Bool := false
  updates : BitVec 16 := 0
  seqA : BitVec 8 := 0
  seqB : BitVec 8 := 0
  /-- the latest q, and whether its update met the data conditions of R331 (LP_CH_MEAS) -/
  q : BitVec 24 := 0
  fresh : Bool := false
  limited : Bool := false
  capped : Bool := false
  stale : Bool := false
  drift : Bool := false
  /-- cycle of the last evaluation, and that from which a loop without one counts as stale (R331, R344) -/
  evalAt : Option Nat := none
  quietFrom : Nat := 0
  deriving DecidableEq, Repr

/-! ### Plans and commits -/

/-- PL_SLOT.STATE (R185). -/
inductive SlotState | empty | staging | expanded | admitted | armed | committed | rejected
  deriving DecidableEq, Repr

/-- The stage-time work a slot has in hand; PL_SLOT.WORK reads 1 unless it is `none` (R185, R226). -/
inductive Work
  | none
  /-- resolving deltas; then compensation and admission (R190) -/
  | expand
  | admission
  /-- copy and verification after ARM (R25) -/
  | copy
  /-- redo: admission, then copy and verification again (R26, R192) -/
  | redo
  deriving DecidableEq, Repr

/-- One plan slot (R185 to R194, R222 to R224). -/
structure SlotSt where
  state : SlotState := .empty
  ready : Bool := false
  reason : BitVec 5 := 0
  work : Work := .none
  /-- WORK holds for R226: admission cannot run now -/
  waitAdmit : Bool := false
  xt : Bool := false
  deltas : BitVec 16 := 0
  entries : List Entry := []
  detailIdx : BitVec 16 := 0
  detailCh : BitVec 15 := 0
  detailValid : Bool := false
  groups : BitVec 5 := 0
  spacing : BitVec 12 := 0
  endCc : BitVec 16 := 0
  dmax : BitVec 16 := 0
  /-- reeds with entries and their breath group (R222) -/
  reedGroup : Tab Nat := []
  /-- cycle of the last PL_CMD STAGE, for PL_WORK times (R190) -/
  stagedAt : Nat := 0
  /-- band in force when STAGE was accepted (R368) -/
  band : Nat := 0
  deriving DecidableEq, Repr

/-- A pending commit request (R199 to R208). -/
structure Req where
  src : BitVec 2
  cut : Bool
  arrived : Nat
  tag : Option Tag := none
  /-- path latency, with the wake from WARM (R5, R199) -/
  lat : Nat := 0
  /-- cycles spent with the slot's READY at 0 (R203) -/
  waited : Nat := 0
  deriving DecidableEq, Repr

/-- A command to the clocked fabric that waits for the first RUN cycle (R526): PL_CMD's command, slot and COUNT, or a command of
STAB, TONGUE or THM by CAL kind and code; with the JCP tag that carries it. -/
inductive FabCmd where
  | plan (cmd slot count : Nat) (tag : Option Tag)
  | table (kind code : Nat) (tag : Option Tag)
  deriving DecidableEq, Repr

/-! ### Commands -/

/-- Where a JCP command with a tag stands on the queued path (R404 to R414); `done`: over, but its completion waits for a CQ slot. -/
inductive CmdStage | fenced | released | running | mgmt | handed | done
  deriving DecidableEq, Repr

/-- Bytes that an accepted NV_READ moves when it completes: partition, offset, length, Bore address of the buffer, and the bytes
that are not zero by offset from the first (R459, R471). -/
structure NvMove where
  part : Nat
  off : Nat
  len : Nat
  dst : Nat
  cells : List Host.Cell
  deriving DecidableEq, Repr

/-- An SQ entry that has been fetched and not yet decoded: queue, function, SQ_HEAD after it, its words, and those that failed parity
and replay (R409). -/
structure Fetched where
  sq : Nat
  fn : Nat
  head : BitVec 12
  w0 : Word
  cdw : List Word
  bad : BitVec 16 := 0
  deriving DecidableEq, Repr

/-- A JCP command in flight (R407, R410). -/
structure Cmd where
  tag : Nat
  sq : Nat
  /-- function of its queue when it was fetched -/
  fn : Nat
  head : BitVec 12
  w0 : Word
  cdw : List Word
  stage : CmdStage := .fenced
  /-- CQ of the slot that it has reserved (R406) -/
  cq : Option Nat := none
  /-- cycle at which it passed its FENCE step (R414) -/
  since : Nat := 0
  /-- the words failed parity and replay (R409) -/
  bad : BitVec 16 := 0
  /-- the core has the result ready: SCT, SC, DW0, DW1 (R414) -/
  res : Option (Nat × Nat × Word × Word) := none
  move : Option NvMove := none
  deriving DecidableEq, Repr

/-- One submission queue beside its registers (R401 to R405). -/
structure SqSt where
  tail : BitVec 12 := 0
  head : BitVec 12 := 0
  draining : Bool := false
  deriving DecidableEq, Repr

/-- One completion queue beside its registers (R405, R406, R433). -/
structure CqSt where
  tail : BitVec 12 := 0
  head : BitVec 12 := 0
  phase : Bool := true
  /-- entries written and not yet consumed -/
  used : Nat := 0
  /-- completions that have not yet raised an interrupt (R433) -/
  unsig : Nat := 0
  /-- cycle of the oldest of these, and function of the latest completion's command (R433) -/
  unsigFrom : Nat := 0
  fn : Nat := 0
  deriving DecidableEq, Repr

/-! ### Bell -/

/-- An open reaction shadow (R508 to R512). -/
structure Shadow where
  /-- the time at which it may close, and its place in the order of opening -/
  closeAt : Nat
  order : Nat
  /-- the sources of the valve trips that opened or extended it -/
  valves : List Nat := []
  /-- the latest message of each source it has shadowed -/
  shadowed : List Msg := []
  deriving DecidableEq, Repr

/-- The Bell (R491 to R517). -/
structure Bell where
  /-- input queue of 64 messages, oldest first; messages that blocks hold while it is full (R492) -/
  inq : List Msg := []
  held : List Msg := []
  /-- local store of 256 records until stage 3 (R495), record number and words -/
  store : List (Word × List Word) := []
  ringLive : Bool := false
  parkHold : Bool := false
  /-- sources whose message took a park (R507) -/
  parkSrcs : List (Nat × Nat) := []
  /-- open shadows by SHID -/
  shadows : List (Nat × Shadow) := []
  /-- latest opener of each shadow identity (BL_SH_ORIGIN) -/
  origins : Tab Word := []
  shadowCount : Nat := 0
  /-- cycle and SOURCE of the last message accepted (R492, R502), and TIME of the last record (R494) -/
  last : Option (Nat × BitVec 13) := none
  lastTime : Nat := 0
  /-- refused clears of the drive-die pages, by page (R501) -/
  refused : Tab (BitVec 16) := []
  /-- the source of an armed CHECK injection has taken its write; the next message of it carries INJ (R517) -/
  injNext : List (Nat × Nat) := []
  /-- sources whose CONTAIN reaction holds until their sticky bit clears: page, source, what it holds (R503, R506) -/
  contained : List (Nat × Nat × List Nat) := []
  deriving DecidableEq, Repr

/-! ### Park, boot, Bore, flash -/

/-- One copy of the park store (R145). -/
structure ParkCopy where
  entries : Tab (BitVec 16) := []
  gen : Word := 0
  /-- CRC-32 of the trailer: that of 64 KiB and GEN, all zero -/
  crc : Word := 0xED26_7405
  cycles : BitVec 17 := 0
  deriving DecidableEq, Repr

/-- A park event that has not yet reached its last tile (R150, R151). -/
structure ParkEvent where
  cause : BitVec 4
  tiles : Word
  /-- tiles it has not reached -/
  left : Word
  deriving DecidableEq, Repr

/-- The park store, shadow and events (R145 to R151, R611). -/
structure Park where
  shadow : Tab (BitVec 16) := []
  copy0 : ParkCopy := {}
  copy1 : ParkCopy := {}
  /-- the copy UPDATE took of the shadow (R147) -/
  update : Option (Tab (BitVec 16)) := none
  apply : Bool := false
  reload : Bool := false
  loader : Bool := false
  events : List ParkEvent := []
  loaded : Bool := false
  copyUsed : BitVec 2 := 0
  lastErr : BitVec 4 := 0
  dirty : Bool := false
  lastCause : BitVec 4 := 0
  /-- the park strobe has come since the rails came up or the DRST (R86, R159) -/
  strobed : Bool := false
  deriving DecidableEq, Repr

/-- BT_SLOT state of an image slot. -/
inductive ImgState | empty | valid | pending | failed
  deriving DecidableEq, Repr

/-- Staged start, images and pairing (R80 to R122). -/
structure Boot where
  /-- 0 to 4 (R80) -/
  stage : Fin 5 := 0
  holdWhy : BitVec 4 := 0
  stateA : ImgState := .empty
  stateB : ImgState := .empty
  /-- consecutive failures of each slot (R100) -/
  failA : BitVec 2 := 0
  failB : BitVec 2 := 0
  /-- PREF, RUNNING (0 A, 1 B), TRIAL -/
  pref : Bool := false
  running : Bool := false
  trial : Bool := false
  /-- a slot has been chosen; SFW verified and core running -/
  selected : Bool := false
  core : Bool := false
  restarting : Bool := false
  outcome : BitVec 2 := 0
  forced : Bool := false
  outOfRange : BitVec 5 := 0
  untested : BitVec 5 := 0
  feat : BitVec 3 := 0
  sfw : Word := 0
  rmc : Word := 0
  tmi : Word := 0
  fiv : Word := 0
  /-- SFW, RMC, TMI and FIV versions at the FORCE_PAIR, and the slot (R107) -/
  forcedAt : List Word := []
  stage2At : Nat := 0
  /-- bond report: drive entries and monitor classes (R95), and pad test running or done -/
  bond : Tab Word := []
  mons : Tab (BitVec 2) := []
  padRun : Bool := false
  padDone : Bool := false
  padTiles : Word := 0
  /-- BT_UPD: 0 none, 1 WRITE, 2 SEAL running; abort asked; first WRITE already marked the slot (R116 to R120) -/
  updCmd : BitVec 2 := 0
  updAbort : Bool := false
  updStarted : Bool := false
  /-- OFF and LEN of the running WRITE -/
  updOff : Nat := 0
  updLen : Nat := 0
  updErr : BitVec 3 := 0
  forecast : BitVec 2 := 0
  featForecast : BitVec 3 := 0
  /-- CAL kinds loaded in this climb (R80, R613) -/
  calLoaded : List Nat := []
  deriving DecidableEq, Repr

/-- A table page's command engine: ST, TG, MS, CL, LP, TH in CAL kind order (R174 to R178, R612, R613). -/
structure TabCmd where
  /-- command code running, 0 none -/
  running : BitVec 4 := 0
  loaded : Bool := false
  dirty : BitVec 6 := 0
  lastCmd : BitVec 4 := 0
  lastErr : BitVec 4 := 0
  /-- the copy of the content a SAVE took, as payload bytes (R612) -/
  copy : List Host.Cell := []
  /-- cycle at which the command started, for LAST_US -/
  startAt : Nat := 0
  /-- JCP tag of a TABLE command that waits (R417) -/
  tag : Option Tag := none
  deriving DecidableEq, Repr

/-- The Bore (R385 to R400): bytes by Bore address, and the words whose stored parity is wrong. -/
structure Bore where
  mem : List Host.Cell := []
  badPar : List Nat := []
  initDone : Bool := false
  initRun : Bool := false
  /-- this climb's zeroing has ended (R400) -/
  climbDone : Bool := false
  ret : BitVec 16 := 0
  /-- retired rows by row address; words that failed read and replay, not written since, and written since (R395) -/
  retired : List Nat := []
  failed : List Nat := []
  rewritten : List Nat := []
  /-- words that fail hard in a bank without a free spare (R397) -/
  stuck : List Nat := []
  patrol : Nat := 0
  deriving DecidableEq, Repr

/-- NF_STAT.STATE (R489). -/
inductive FlashState | off | mount | ready | quiescing | quiesced | readOnly | failed
  deriving DecidableEq, Repr

/-- A write whose metadata is not yet durable (R474, R475). -/
inductive MetaChange where
  /-- a CAL image that NV_WRITE imports (R470): kind, header and payload, bytes moved, waiting JCP tag -/
  | cal (kind : Nat) (image : List Host.Cell) (len : Nat) (tag : Option Nat)
  /-- bytes appended to ring `part` at its offset (R469) -/
  | ring (part : Nat) (off : Nat) (bytes : List Byte)
  deriving DecidableEq, Repr

/-- The metadata journal (R474 to R478): pages written, pages since the last checkpoint, the SEQ of the newest and of the previous
checkpoint, and channel and LUN of copies 0 and 1 of the last page. -/
structure MetaJournal where
  seq : Nat := 0
  since : Nat := 0
  ckpt : Option Nat := none
  ckptPrev : Option Nat := none
  copies : Option ((Nat × Nat) × (Nat × Nat)) := none
  deriving DecidableEq, Repr

/-- A record that waits for the core's copy to JOURNAL: TYPE, payload words, and the Bore address it is read from, if it is staged
there (R216). -/
structure JItem where
  type : Byte
  words : List Word
  src : Option Nat := none
  deriving DecidableEq, Repr

/-- The flash store (R455 to R490). -/
structure Flash where
  state : FlashState := .off
  medium : Option Medium := none
  laidOut : Bool := false
  /-- exported capacity in MiB (R457) -/
  expMib : Nat := 0
  /-- bytes of the partitions BOOT, CAL, JOURNAL, TELEMETRY and CAPTURE -/
  boot : List Host.Cell := []
  cal : List Host.Cell := []
  rings : Tab (List Host.Cell) := []
  /-- the bond report of the latest stage-3 entry, which the next is compared with: drive entries and monitor classes (R96) -/
  bondPrev : Option (Tab Word × Tab (BitVec 2)) := none
  heads : Tab Nat := []
  tails : Tab Nat := []
  /-- start offsets of the whole records of each ring, oldest first (R469) -/
  recs : Tab (List Nat) := []
  /-- next offset to append, durable or not -/
  nexts : Tab Nat := []
  pending : List MetaChange := []
  mj : MetaJournal := {}
  /-- band in force at the program of a codeword, plus 1, by partition × 2^28 + LCA (PBAND); codewords of B0 that owe a scrub since the
  band reached B3, and those that the running pass owes (R461, R483) -/
  pbands : Tab Nat := []
  coldDue : List Nat := []
  coldPass : List Nat := []
  /-- RSEQ of the next record of each ring (R472) -/
  rseq : Tab Word := []
  /-- blocks that wait for their relocation, with the codeword whose read asked for it (R460, R462) -/
  relocs : List (Option Nat) := []
  readOnly : Bool := false
  sparesLow : Bool := false
  overdue : Bool := false
  /-- pages of the scrub pass, as its first rate update gave them, and pages left at the last -/
  passPages : Nat := 0
  passLeft : Nat := 0
  /-- cycles spent in band B5 before, and the cycle at which it was last entered (NF_SCRUB_DEBT.HOURS) -/
  b5Cc : Nat := 0
  b5Since : Option Nat := none
  /-- the last mount fell back to an earlier checkpoint (R478), torn pages it found -/
  fallback : Bool := false
  torn : List TornPage := []
  /-- worn thresholds already reported (R464) -/
  worn80 : Bool := false
  worn100 : Bool := false
  /-- records waiting for the core's copy to JOURNAL, and how many commit records have been staged in the Bore (R216, R452) -/
  journalQ : List JItem := []
  staged : Nat := 0
  /-- a block reset of NVF awaits 4 QUIESCED (R581) -/
  blkRun : Bool := false
  /-- cause of the CLOSE record: 0 T_SHUT, 1 L8, 2 command -/
  closeCause : Nat := 2
  deriving DecidableEq, Repr

/-! ### Thermal -/

/-- TP_DIODE.STATE (R361). -/
inductive DiodeState | ok | suspect | failed | range
  deriving DecidableEq, Repr

/-- One diode; temperatures in degrees C (R359 to R361). -/
structure Diode where
  td : Rat := 0
  e : Rat := 0
  state : DiodeState := .ok
  count : BitVec 2 := 0
  /-- latest round disagreed; latest round out of range (R362) -/
  disagree : Bool := false
  bad : Bool := false
  read : Bool := false
  /-- SEQ of the HK_DIODE accumulator at the last round that it took part in (R302) -/
  seq : Option (BitVec 8) := none
  deriving DecidableEq, Repr

/-- TMAX of a tile: temperature in degrees C, local index of the channel, valid at the last update, valid once (R353). -/
structure TMax where
  temp : Rat := 0
  lane : Nat := 0
  valid : Bool := false
  ever : Bool := false
  deriving DecidableEq, Repr

/-- Thermal model, bands and thermal request (R348 to R381). -/
structure Thermal where
  kernels : Tab Word := []
  badKernels : List Nat := []
  /-- node temperatures (tile * 64 + node), node powers in uW, element temperatures by channel, degrees C -/
  nodeT : Tab Rat := []
  nodeP : Tab Nat := []
  elT : Tab Rat := []
  /-- powers that the last update took for the channels, in uW (TH_EL_TEMP) -/
  elP : Tab Nat := []
  /-- TMAX by tile; tiles whose model was invalid at the last update -/
  tmax : Tab TMax := []
  invalid : Word := 0
  /-- base by tile and its source, 0 OWN to 3 HELD; tiles whose model has started (R363, R364) -/
  base : Tab Rat := []
  baseSrc : Tab Nat := []
  started : Word := 0
  warmCount : BitVec 10 := 0
  diodes : Tab Diode := []
  band : Fin 6 := 0
  prevBand : Fin 6 := 0
  bandChanges : BitVec 16 := 0
  /-- T_th, its source, tile (R374); a model update has run (DD_TEMP) -/
  tth : Rat := 0
  src : BitVec 2 := 0
  tile : BitVec 5 := 0
  updated : Bool := false
  req : Fin 9 := 0
  why : BitVec 3 := 0
  shutLatched : Bool := false
  parkTaken : Bool := false
  /-- request at the last update with every model valid; raised for an invalid model (R379) -/
  reqValid : Fin 9 := 0
  invalidRaised : Bool := false
  /-- an orderly stop was asked and STOP has not been accepted (R380) -/
  stopAsked : Bool := false
  /-- cycles: of the stop's request (R380); since which T_th has reached THROTTLE, or of the last climb (R376); since which a lower
  level has been justified; of the last diode that failed (R377); since which every model has been valid (R379) -/
  stopAt : Nat := 0
  climbFrom : Option Nat := none
  lowFrom : Option Nat := none
  diodeOutAt : Option Nat := none
  validFrom : Nat := 0
  /-- BACKGROUND: thermal CONTAIN reaction of THM (R506) -/
  contained : Bool := false
  /-- compensation counters of the last STAGE (TH_XT, TH_XT_CLAMP) -/
  xtEntries : BitVec 16 := 0
  xtDropped : BitVec 16 := 0
  xtClamp : BitVec 16 := 0
  xtLate : BitVec 16 := 0
  deriving DecidableEq, Repr

/-! ### Power, clocks, host, shelf link -/

/-- CK_STAT.STATE (R525). -/
inductive Fast | sleep | warm | run | waking
  deriving DecidableEq, Repr

/-- Power domains, clocks, droop and the shedding ladder (R520 to R541). -/
structure Power where
  /-- bit d: domain d on (R520) -/
  dom : BitVec 20 := 1
  /-- the drive-die rails have come up and have not been lost (R86) -/
  railsUp : Bool := false
  /-- TG domains coming on, bit k (R523) -/
  tgComing : BitVec 8 := 0
  fast : Fast := .sleep
  pllcLock : Bool := false
  pllsLock : Bool := false
  refOk : Bool := false
  stretch : Bool := false
  backup : Bool := false
  supSlow : Bool := false
  /-- a loss of lock awaits the redo of R26 at the next RUN; PLL_C counts as unlocked (R615) -/
  relock : Bool := false
  unlocked : Bool := false
  /-- cycle up to which there has been work, and at which a wake from SLEEP began (R525, R615) -/
  workAt : Nat := 0
  wakeAt : Nat := 0
  /-- cycles at which PLL_C came to count as unlocked, and from which REFCLK and PLL_C have been good (R531) -/
  unlockAt : Nat := 0
  clockGood : Nat := 0
  /-- cycle at which skipping began; from which the core rail has read below THRESH_MV; at which the CORE cause rose (R528, R529,
  R531) -/
  stretchAt : Nat := 0
  coreLow : Option Nat := none
  coreAt : Nat := 0
  /-- cycle from which BUS_SAG has been set, and when the FEED and BUS causes next climb (R531) -/
  busFrom : Option Nat := none
  feedDue : Nat := 0
  busDue : Nat := 0
  /-- cycle of the last change of level, and from which the request has stood below the level (R535); when L6 takes its next class
  (R536); of L8 entry (R537) -/
  levelAt : Nat := 0
  belowFrom : Option Nat := none
  l6Due : Nat := 0
  l8At : Nat := 0
  level : Fin 9 := 0
  feedReq : Fin 9 := 0
  /-- row of R531 that the FEED cause stands on: 0 none, 1 to 3 -/
  feedRow : Fin 4 := 0
  busReq : Fin 9 := 0
  coreReq : Fin 9 := 0
  clockReq : Fin 9 := 0
  l6Next : BitVec 3 := 0
  l6Mask : Word := 0
  l6Running : Bool := false
  maxLvl : BitVec 4 := 0
  vcore : BitVec 10 := 0
  vcoreMin : BitVec 10 := 0
  /-- L8: the orderly stop runs; feeds with SAG_SUST at L8 entry, bit 0 A, bit 1 B (R537) -/
  l8Stop : Bool := false
  l8Feeds : BitVec 2 := 0
  deriving DecidableEq, Repr

/-- An MSI-X message: its function and vector, and the address and data of the vector's table entry (R429). -/
structure Msi where
  fn : Nat
  vec : Nat
  addr : BitVec 64
  data : Word
  deriving DecidableEq, Repr

/-- PCIe, MSI-X and the SMBus ports (R428 to R454). -/
structure HostIf where
  linkUp : Bool := false
  speed : BitVec 4 := 0
  width : BitVec 6 := 0
  /-- MSI-X table of each function: word `i` of vector `vec` of function `fn` at fn * 128 + vec * 4 + i; MSI-X Enable per function;
  pending bits at fn * 32 + vec (R429, R435) -/
  msixTab : Tab Word := []
  msixEn : BitVec 3 := 0
  msixPend : Tab Bool := []
  /-- messages sent, oldest first -/
  msixSent : List Msi := []
  /-- AER status of each function: uncorrectable at 2 fn, correctable at 2 fn + 1 (R428) -/
  aer : Tab Word := []
  d3 : BitVec 3 := 0
  /-- route of each page, HS_RT_DATA (page index) -/
  routes : Tab Word := []
  /-- data of the last read completion and its EP bit -/
  rdata : Word := 0
  /-- further words of a BAR2 read of more than one, in the order of their addresses (R293) -/
  rmore : List Word := []
  poisoned : Bool := false
  /-- the last SMBus response, bytes lowest first; empty when not acknowledged -/
  smb : List Byte := []
  /-- FD_SMB_ADDR and FD_SMB_RES -/
  fdOffset : BitVec 16 := 0
  fdRes : BitVec 16 := 0
  /-- level of SYNC_IN, and the cycle at which the last STROBE pulse on SYNC_OUT ends (R562) -/
  syncIn : Bool := false
  /-- cycle of the last SYNC_IN edge that counted (R209) -/
  syncEdge : Option Nat := none
  syncEnd : Nat := 0
  deriving DecidableEq, Repr

/-- SL_STAT.STATE (R568). -/
inductive SlState | down | negotiate | elect | member | master | isolated
  deriving DecidableEq, Repr

/-- What a HELLO told of a member (R554, R555, R563). -/
structure Member where
  prio : BitVec 4
  verMin : BitVec 8
  verMax : BitVec 8
  masterOk : Bool
  time : Nat
  deriving DecidableEq, Repr

/-- The shelf link and shelf time (R542 to R569). -/
structure Shelf where
  /-- shelf time in 1/16 cc (R546) -/
  time16 : Nat := 0
  /-- slew still owed in 1/16 cc, negative when time must fall back (R548, R551) -/
  slew16 : Int := 0
  pos : BitVec 4 := 0
  state : SlState := .down
  synced : Bool := false
  holdover : Bool := false
  wrapped : Bool := false
  dupPos : Bool := false
  masterPos : BitVec 4 := 0
  hops : BitVec 4 := 0
  ver : BitVec 8 := 0
  upOk : Bool := false
  dnOk : Bool := false
  /-- the port that faces the master; the next TIME1 shows which it is -/
  towards : Port := .up
  seek : Bool := true
  delayUp : BitVec 16 := 0
  delayDn : BitVec 16 := 0
  goodBeats : BitVec 4 := 0
  e16 : Int := 0
  members : Tab Member := []
  claims : Tab Word := []
  nextHi : BitVec 16 := 0
  sched0 : Option (Nat × Bool × Word) := none
  /-- positions that have not answered SCHED1 (R561) -/
  schedWait : BitVec 16 := 0
  echoSeq : Word := 0
  timeShadow : Word := 0
  /-- frames sent out of each port, oldest first -/
  txUp : List SlFrame := []
  txDn : List SlFrame := []
  deriving DecidableEq, Repr

/-- A running SC command (R311, R312): full scale, coefficient index, conversions of the run and their OSR code, the results so far,
an over-range one among them, and the cycle since which the engine waits for the reed. -/
structure CalRun where
  full : Bool
  idx : Nat
  total : Nat
  osr : BitVec 3
  samples : List Int := []
  ovr : Bool := false
  since : Nat := 0
  deriving DecidableEq, Repr

/-- System calibration run (R311 to R313) and coefficients (R305 to R310). -/
structure Cal where
  /-- coefficient words by index; identity where unlisted -/
  coef : Tab Word := []
  run : Option CalRun := none
  /-- the MT_CAL words of the image in force wait for the IDL (R310) -/
  mtDue : Bool := false
  deriving DecidableEq, Repr

/-- Accumulators beside their Bore words: AC_CFG, block sum or EXP state, restart marks (R292 to R304). -/
structure Accs where
  cfg : Tab (BitVec 5) := []
  sum : Tab Int := []
  restart : List Nat := []
  /-- accumulators whose block in progress holds an over-range sample (R298) -/
  ovr : List Nat := []
  /-- accumulators held by a CONTAIN reaction (R506) -/
  held : List Nat := []
  deriving DecidableEq, Repr

/-- The command engine (R401 to R427). -/
structure CmdQ where
  sqs : Tab SqSt := []
  cqs : Tab CqSt := []
  /-- entries fetched and not decoded, oldest first; commands with a tag, in the order of their decode (R410, R411) -/
  fetched : List Fetched := []
  cmds : List Cmd := []
  /-- next queue to serve in round-robin order, classes HIGH and NORMAL -/
  rrHigh : Nat := 0
  rrNorm : Nat := 0
  /-- JCP version of PF0, PF1, PF2 (R424) -/
  ver : BitVec 8 × BitVec 8 × BitVec 8 := (0x10, 0x10, 0x10)
  hwm : BitVec 10 := 0
  /-- schedule entry to JCP tag (R410) -/
  schedTag : Tab Nat := []
  deriving DecidableEq, Repr

/-- The whole machine. -/
structure State where
  /-- commands that wait, first in, first out -/
  pending : List Instr := []
  /-- cycles of the nominal 1.2 GHz core clock since POR, and the phase of the drone clock against them, in 1/150,000 tick -/
  now : Nat := 0
  phase : Nat := 0
  /-- drone-tick counts of the feed die and of the drive die (R114) -/
  droneF : Nat := 0
  droneD : Nat := 0
  /-- registers by BAR0 byte offset, where they differ from their reset value -/
  regs : Tab Word := []
  feedA : FeedSt := {}
  feedB : FeedSt := {}
  fd : FeedDie := {}
  rails : RailSeq := {}
  idl : Idl := {}
  boot : Boot := {}
  chans : Tab ChanSt := []
  tiles : Tab TileSt := []
  reeds : Tab ReedSt := []
  loops : Tab LoopCh := []
  park : Park := {}
  slots : Tab SlotSt := []
  /-- pending commit request of each slot (R202) -/
  reqs : Tab Req := []
  /-- cycle of the last strobe of the device (R206), commands that wait for RUN (R526) -/
  strobeAt : Option Nat := none
  fabWait : List FabCmd := []
  /-- cycle from which HK_PERIOD counts: its last expiry (R278) -/
  hkAt : Nat := 0
  /-- SOURCE of each message sent in cycle `msgAt` (R499) -/
  msgAt : Nat := 0
  msgNow : List (BitVec 13) := []
  /-- command engines of STAB, TONGUE, MEAS, CAL, LOOP, THM, by CAL kind 0 to 5 -/
  tabs : Tab TabCmd := []
  accs : Accs := {}
  cal : Cal := {}
  thermal : Thermal := {}
  bore : Bore := {}
  cmdq : CmdQ := {}
  host : HostIf := {}
  flash : Flash := {}
  bell : Bell := {}
  power : Power := {}
  shelf : Shelf := {}
  /-- the model's own counter of free values taken (assumption log 5) -/
  free : Nat := 0
  deriving DecidableEq, Repr

/-- The machine right after POR (R17, R70 and the Reset columns of the page tables): every domain reset, no supply. -/
def State.reset : State := {}

end Sys2Proof.Machine
end

