-- ==== Sys2Proof/Machine/Table.lean ====
section
/-! DEFINITION. Sparse tables over plain lists, and bit fields of words. A table's default is a function of the key, and
a key whose value is the default is not listed. -/

namespace Sys2Proof.Machine

variable {α : Type}

/-- The value at key `k`: the first entry listed for it, else the default. -/
def tabGet (d : Nat → α) : Tab α → Nat → α
  | [], k => d k
  | (j, v) :: t, k => if k = j then v else tabGet d t k

/-- `l` with an entry (k, v) in place of the first entry of `k`, or before the first larger key. -/
def tabIns (l : Tab α) (k : Nat) (v : α) : Tab α :=
  match l with
  | [] => [(k, v)]
  | (j, w) :: t => if k < j then (k, v) :: (j, w) :: t else if k = j then (k, v) :: t else (j, w) :: tabIns t k v

/-- `l` without entries of `k`. -/
def tabDel (l : Tab α) (k : Nat) : Tab α := l.filter (fun p => p.1 != k)

/-- `l` with value `v` at key `k`; the default value is not listed. -/
def tabSet [DecidableEq α] (d : Nat → α) (l : Tab α) (k : Nat) (v : α) : Tab α :=
  if v = d k then tabDel l k else tabIns l k v

/-- `l` with `f` applied to the value at `k`. -/
def tabUpd [DecidableEq α] (d : Nat → α) (l : Tab α) (k : Nat) (f : α → α) : Tab α :=
  tabSet d l k (f (tabGet d l k))

/-- `l` with `f j` applied to the value at every key `j` of the `n` keys from `lo`. -/
def tabMap [DecidableEq α] (d : Nat → α) (l : Tab α) (lo n : Nat) (f : Nat → α → α) : Tab α :=
  l.filter (fun p => p.1 < lo)
    ++ (List.range' lo n).filterMap (fun k => let v := f k (tabGet d l k); if v = d k then none else some (k, v))
    ++ l.filter (fun p => decide (lo + n ≤ p.1))

/-- The canonical form: keys strictly rising, no value equal to its default. -/
def tabWf [DecidableEq α] (d : Nat → α) (l : Tab α) : Bool :=
  (l.map (·.1)).Pairwise (· < ·) && l.all (fun p => decide (p.2 ≠ d p.1))

/-! ### Bit fields -/

/-- Field [lo + n − 1 : lo] of a word. -/
def fld (w : Word) (lo n : Nat) : Nat := w.toNat / 2 ^ lo % 2 ^ n

/-- Bit `i` of a word. -/
def bit (w : Word) (i : Nat) : Bool := w.getLsbD i

/-- `w` with field [lo + n − 1 : lo] set to `v` (taken modulo 2^n). -/
def put (w : Word) (lo n v : Nat) : Word :=
  let m : Word := BitVec.ofNat 32 ((2 ^ n - 1) * 2 ^ lo)
  (w &&& ~~~ m) ||| BitVec.ofNat 32 (v % 2 ^ n * 2 ^ lo)

/-- A word composed of fields (lo, n, value). -/
def pack (fs : List (Nat × Nat × Nat)) : Word :=
  fs.foldl (fun w f => put w f.1 f.2.1 f.2.2) 0

/-- 1 for true, 0 for false. -/
def b2n (b : Bool) : Nat := if b then 1 else 0

/-- Field value taken modulo 2^n as a signed number. -/
def signed (n v : Nat) : Int := if v % 2 ^ n < 2 ^ (n - 1) then (v % 2 ^ n : Int) else (v % 2 ^ n : Int) - 2 ^ n

/-- The n-bit two's complement pattern of an integer. -/
def unsigned (n : Nat) (i : Int) : Nat := (i % (2 ^ n : Int)).toNat

/-- `i` brought into [lo, hi]. -/
def clampI (lo hi i : Int) : Int := if i < lo then lo else if hi < i then hi else i

/-- `i` saturated to n signed bits. -/
def satI (n : Nat) (i : Int) : Int := clampI (-(2 ^ (n - 1) : Int)) (2 ^ (n - 1) - 1) i

/-- a / b rounded to the nearest integer, ties away from zero (b > 0). -/
def roundDiv (a : Int) (b : Nat) : Int :=
  if 0 ≤ a then (2 * a + b) / (2 * b) else -((2 * (-a) + b) / (2 * b))

/-- A rational rounded to the nearest integer, ties away from zero. -/
def roundR (q : Rat) : Int := roundDiv q.num q.den

/-- The words of a bit mask: indices of set bits below `n`. -/
def bitsOf (w n : Nat) : List Nat := (List.range n).filter (fun i => w.testBit i)

/-- The mask of a list of bit indices. -/
def maskOf (l : List Nat) : Nat := l.foldl (fun m i => m ||| 2 ^ i) 0

/-! ### CRC-32 -/

/-- One step of CRC-32 (IEEE 802.3) over a byte. -/
def crcByte (crc : Nat) (b : Nat) : Nat :=
  (List.range 8).foldl (fun c _ => if c % 2 = 1 then (c / 2) ^^^ 0xEDB8_8320 else c / 2) (crc ^^^ b)

end Sys2Proof.Machine
end

