-- ==== Sys2Proof/Machine/RegMap.lean ====
section
/-! DEFINITION. Every block register of the page tables: where it lies, its access, its reset value and domain, the least
privileged function that may write it, its writable bits and its field rules (R12 to R17, R570 and the page tables of
chapters 02 to 18). A register's bits that are not writable here are read as zero or composed in Machine/Pages.lean. -/

namespace Sys2Proof.Machine

/-- The access column (R12). -/
inductive Acc | rw | ro | wo | rc | w1c
  deriving DecidableEq, Repr

/-- The reset domains of R17; `none` where the table gives none. -/
inductive Dom | none | por | frst | drst | warm
  deriving DecidableEq, Repr

/-- Where a FIELD_ZERO bit stands: at an offset of the page, or that many bytes after its register. -/
inductive FzAt | at (off : Nat) | plus (d : Nat)
  deriving DecidableEq, Repr

/-- A numeric or enumerated field [lo + n − 1 : lo] with least and largest value. `zeroAs` ≠ 0 is the value a written 0 is
taken as, with FIELD_ZERO at (`fz`, `fzBit`); any other value outside the range is discarded (R15). -/
structure FieldRule where
  lo : Nat
  n : Nat
  min : Nat
  max : Nat
  zeroAs : Nat := 0
  fz : FzAt := .at 0
  fzBit : Nat := 0
  deriving DecidableEq, Repr

/-- One row of a page table: `n` words from page offset `off`, `stride` bytes apart, on `pages` pages from index `pg`. -/
structure RegRow where
  pg : Nat
  pages : Nat
  off : Nat
  n : Nat
  stride : Nat
  acc : Acc
  reset : Word
  dom : Dom
  /-- the least privileged level that may write it: 0 P0, 1 P1, 2 P2 -/
  lvl : Nat
  mask : Word
  rules : List FieldRule
  deriving DecidableEq, Repr

/-- The FSYS page. -/
def regsFsys : List RegRow := [
  /- FS_FIV -/ ⟨0x100, 1, 0x040, 1, 4, .ro, 0x00000100, .por, 0, 0x00000000, []⟩,
  /- FS_OTP -/ ⟨0x100, 1, 0x044, 1, 4, .ro, 0x00000000, .por, 0, 0x00000000, []⟩,
  /- FS_RESET -/ ⟨0x100, 1, 0x048, 1, 4, .wo, 0x00000000, .none, 0, 0x00000000, []⟩,
  /- FS_PUSH -/ ⟨0x100, 1, 0x04C, 1, 4, .ro, 0x00000000, .frst, 0, 0x00000000, []⟩]

/-- The FEED_A and FEED_B page. -/
def regsFeed : List RegRow := [
  /- FD_CTRL -/ ⟨0x101, 2, 0x040, 1, 4, .rw, 0x00000000, .por, 0, 0x00000001, []⟩,
  /- FD_STATE -/ ⟨0x101, 2, 0x044, 1, 4, .ro, 0x00000000, .por, 0, 0x00000000, []⟩,
  /- FD_INS_DELAY -/ ⟨0x101, 2, 0x048, 1, 4, .rw, 0x00000064, .frst, 0, 0x000007FF, [{ lo := 0, n := 11, min := 0, max := 1600 }]⟩,
  /- FD_FOLDBACK -/ ⟨0x101, 2, 0x04C, 1, 4, .rw, 0x00000028, .frst, 0, 0x000000FF, [{ lo := 0, n := 8, min := 10, max := 200 }]⟩,
  /- FD_FAST_TRIP -/ ⟨0x101, 2, 0x050, 1, 4, .rw, 0x00000064, .frst, 0, 0x000000FF, [{ lo := 0, n := 8, min := 20, max := 250 }]⟩,
  /- FD_SAG -/ ⟨0x101, 2, 0x054, 1, 4, .rw, 0x000101B8, .frst, 0, 0x00FF03FF, [{ lo := 0, n := 10, min := 380, max := 540 }, { lo := 16, n := 8, min := 1, max := 255, zeroAs := 1, fz := .at 0x044, fzBit := 9 }]⟩,
  /- FD_WINDOWS -/ ⟨0x101, 2, 0x058, 1, 4, .ro, 0x42402826, .por, 0, 0x00000000, []⟩,
  /- FD_LIMITS -/ ⟨0x101, 2, 0x05C, 1, 4, .ro, 0x05641432, .por, 0, 0x00000000, []⟩,
  /- FD_INST -/ ⟨0x101, 2, 0x060, 1, 4, .ro, 0x00000000, .por, 0, 0x00000000, []⟩,
  /- FD_START -/ ⟨0x101, 2, 0x064, 1, 4, .ro, 0x00000000, .por, 0, 0x00000000, []⟩]

/-- The SHARE page. -/
def regsShare : List RegRow := [
  /- SH_CTRL -/ ⟨0x103, 1, 0x040, 1, 4, .rw, 0x00000001, .frst, 0, 0x00000001, []⟩,
  /- SH_STATE -/ ⟨0x103, 1, 0x044, 1, 4, .ro, 0x00000000, .por, 0, 0x00000000, []⟩,
  /- SH_RATIO -/ ⟨0x103, 1, 0x048, 1, 4, .ro, 0x00000000, .por, 0, 0x00000000, []⟩,
  /- SH_REBAL -/ ⟨0x103, 1, 0x04C, 1, 4, .rw, 0x00000014, .frst, 0, 0x000000FF, [{ lo := 0, n := 8, min := 5, max := 100 }]⟩]

/-- The TRIP page. -/
def regsTrip : List RegRow := [
  /- TR_CTRL -/ ⟨0x105, 1, 0x040, 1, 4, .rw, 0x00000002, .frst, 0, 0x00000002, []⟩,
  /- TR_STAT -/ ⟨0x105, 1, 0x044, 1, 4, .ro, 0x00000000, .por, 0, 0x00000000, []⟩,
  /- TR_TICK_LO -/ ⟨0x105, 1, 0x048, 1, 4, .ro, 0x00000000, .por, 0, 0x00000000, []⟩,
  /- TR_TICK_HI -/ ⟨0x105, 1, 0x04C, 1, 4, .ro, 0x00000000, .por, 0, 0x00000000, []⟩,
  /- TR_RD_IDX -/ ⟨0x105, 1, 0x050, 1, 4, .rw, 0x00000000, .frst, 0, 0x0000FFFF, [{ lo := 0, n := 16, min := 0, max := 63999 }]⟩,
  /- TR_RD_DATA -/ ⟨0x105, 1, 0x054, 1, 4, .ro, 0x00000000, .por, 0, 0x00000000, []⟩,
  /- TR_REC_A -/ ⟨0x105, 1, 0x058, 1, 4, .ro, 0x00000000, .por, 0, 0x00000000, []⟩,
  /- TR_REC_B -/ ⟨0x105, 1, 0x05C, 1, 4, .ro, 0x00000000, .por, 0, 0x00000000, []⟩,
  /- TR_HOLD -/ ⟨0x105, 1, 0x060, 1, 4, .ro, 0x00000000, .por, 0, 0x00000000, []⟩]

/-- The PSEQ page. -/
def regsPseq : List RegRow := [
  /- PS_CTRL -/ ⟨0x106, 1, 0x040, 1, 4, .wo, 0x00000000, .none, 0, 0x00000000, []⟩,
  /- PS_STATE -/ ⟨0x106, 1, 0x044, 1, 4, .ro, 0x00000F00, .por, 0, 0x00000000, []⟩,
  /- PS_RAILS -/ ⟨0x106, 1, 0x048, 1, 4, .ro, 0x00000000, .por, 0, 0x00000000, []⟩,
  /- PS_STEP -/ ⟨0x106, 1, 0x04C, 1, 4, .rw, 0x00001401, .frst, 0, 0x0000FF0F, [{ lo := 8, n := 8, min := 1, max := 50, zeroAs := 1, fz := .at 0x044, fzBit := 12 }]⟩]

/-- The BOOT page. -/
def regsBoot : List RegRow := [
  /- BT_STAGE -/ ⟨0x017, 1, 0x040, 1, 4, .ro, 0x00000002, .warm, 0, 0x00000000, []⟩,
  /- BT_CTRL -/ ⟨0x017, 1, 0x044, 1, 4, .wo, 0x00000000, .none, 0, 0x00000000, []⟩,
  /- BT_SLOT -/ ⟨0x017, 1, 0x048, 1, 4, .rw, 0x00007800, .drst, 0, 0x0000FF01, [{ lo := 8, n := 8, min := 1, max := 255, zeroAs := 1, fz := .at 0x048, fzBit := 16 }]⟩,
  /- BT_PAIR -/ ⟨0x017, 1, 0x04C, 1, 4, .ro, 0x00000000, .drst, 0, 0x00000000, []⟩,
  /- BT_SFW -/ ⟨0x017, 1, 0x050, 1, 4, .ro, 0x00000000, .warm, 0, 0x00000000, []⟩,
  /- BT_RMC -/ ⟨0x017, 1, 0x054, 1, 4, .ro, 0x00000000, .warm, 0, 0x00000000, []⟩,
  /- BT_TMI -/ ⟨0x017, 1, 0x058, 1, 4, .ro, 0x00000000, .warm, 0, 0x00000000, []⟩,
  /- BT_HWV -/ ⟨0x017, 1, 0x05C, 1, 4, .ro, 0x01010000, .none, 0, 0x00000000, []⟩,
  /- BT_FIV -/ ⟨0x017, 1, 0x060, 1, 4, .ro, 0x00000000, .drst, 0, 0x00000000, []⟩,
  /- BT_IDL -/ ⟨0x017, 1, 0x064, 1, 4, .ro, 0x00000000, .drst, 0, 0x00000000, []⟩,
  /- BT_TIMES -/ ⟨0x017, 1, 0x068, 1, 4, .ro, 0x00000000, .warm, 0, 0x00000000, []⟩,
  /- BT_BOND_SUM -/ ⟨0x017, 1, 0x06C, 1, 4, .ro, 0x00000000, .drst, 0, 0x00000000, []⟩,
  /- BT_BOND_SUM2 -/ ⟨0x017, 1, 0x070, 1, 4, .ro, 0x00000000, .drst, 0, 0x00000000, []⟩,
  /- BT_BOND_LIM -/ ⟨0x017, 1, 0x074, 1, 4, .rw, 0x096000FA, .drst, 0, 0x0FFF0FFF, []⟩,
  /- BT_BOND_IDX -/ ⟨0x017, 1, 0x078, 1, 4, .rw, 0x00000000, .drst, 2, 0x0000FFFF, [{ lo := 0, n := 16, min := 0, max := 36863 }]⟩,
  /- BT_BOND_DATA -/ ⟨0x017, 1, 0x07C, 1, 4, .ro, 0x00000000, .drst, 0, 0x00000000, []⟩,
  /- BT_PADTEST -/ ⟨0x017, 1, 0x080, 1, 4, .wo, 0x00000000, .none, 0, 0x00000000, []⟩,
  /- BT_UPD_OFF -/ ⟨0x017, 1, 0x084, 1, 4, .rw, 0x00000000, .warm, 0, 0xFFFFFFFF, []⟩,
  /- BT_UPD_LEN -/ ⟨0x017, 1, 0x088, 1, 4, .rw, 0x00000000, .warm, 0, 0xFFFFFFFF, [{ lo := 0, n := 32, min := 0, max := 262144 }]⟩,
  /- BT_UPD_CTRL -/ ⟨0x017, 1, 0x08C, 1, 4, .wo, 0x00000000, .none, 0, 0x00000000, []⟩,
  /- BT_UPD_STAT -/ ⟨0x017, 1, 0x090, 1, 4, .ro, 0x00000000, .warm, 0, 0x00000000, []⟩]

/-- The TILE_t page. -/
def regsTile : List RegRow := [
  /- TL_CTRL -/ ⟨0x020, 32, 0x040, 1, 4, .rw, 0x00000003, .drst, 0, 0x00000003, [{ lo := 0, n := 2, min := 1, max := 3, zeroAs := 1, fz := .at 0x044, fzBit := 1 }]⟩,
  /- TL_STAT -/ ⟨0x020, 32, 0x044, 1, 4, .ro, 0x00000000, .drst, 0, 0x00000000, []⟩,
  /- TL_CH_IDX -/ ⟨0x020, 32, 0x048, 1, 4, .rw, 0x00000000, .drst, 1, 0x000103FF, []⟩,
  /- TL_CH_CFG -/ ⟨0x020, 32, 0x04C, 1, 4, .rw, 0x00000001, .drst, 1, 0x00000007, []⟩,
  /- TL_CH_STAT -/ ⟨0x020, 32, 0x050, 1, 4, .ro, 0x00000000, .drst, 0, 0x00000000, []⟩,
  /- TL_CH_CODE -/ ⟨0x020, 32, 0x054, 1, 4, .ro, 0x00000000, .none, 0, 0x00000000, []⟩,
  /- TL_CH_PWR -/ ⟨0x020, 32, 0x058, 1, 4, .ro, 0x00000000, .drst, 0, 0x00000000, []⟩,
  /- TL_CH_CMD -/ ⟨0x020, 32, 0x05C, 1, 4, .wo, 0x00000000, .none, 1, 0x00000000, []⟩,
  /- TL_VA_STAT -/ ⟨0x020, 32, 0x060, 1, 4, .ro, 0x00000000, .drst, 0, 0x00000000, []⟩,
  /- TL_VB_STAT -/ ⟨0x020, 32, 0x064, 1, 4, .ro, 0x00000000, .drst, 0, 0x00000000, []⟩,
  /- TL_VALVE_CMD -/ ⟨0x020, 32, 0x068, 1, 4, .wo, 0x00000000, .none, 1, 0x00000000, []⟩,
  /- TL_ISUM -/ ⟨0x020, 32, 0x06C, 1, 4, .ro, 0x00000000, .drst, 0, 0x00000000, []⟩,
  /- TL_REF_MAP -/ ⟨0x020, 32, 0x070, 1, 4, .ro, 0x00000000, .drst, 0, 0x00000000, []⟩,
  /- TL_REF_LOST -/ ⟨0x020, 32, 0x074, 1, 4, .ro, 0x00000000, .drst, 0, 0x00000000, []⟩,
  /- TL_REF_CMD -/ ⟨0x020, 32, 0x078, 1, 4, .wo, 0x00000000, .none, 1, 0x00000000, []⟩,
  /- TL_FUSE_MAP -/ ⟨0x020, 32, 0x100, 32, 4, .ro, 0x00000000, .drst, 0, 0x00000000, []⟩,
  /- TL_FLAG_MAP -/ ⟨0x020, 32, 0x180, 32, 4, .ro, 0x00000000, .drst, 0, 0x00000000, []⟩,
  /- TL_PARK_MAP -/ ⟨0x020, 32, 0x200, 32, 4, .ro, 0x00000000, .drst, 0, 0x00000000, []⟩,
  /- TL_PB_STAT -/ ⟨0x020, 32, 0x400, 1, 4, .ro, 0x00002000, .drst, 0, 0x00000000, []⟩,
  /- TL_PB_PAR -/ ⟨0x020, 32, 0x404, 1, 4, .ro, 0x00000000, .drst, 0, 0x00000000, []⟩,
  /- TL_TP_PLAY -/ ⟨0x020, 32, 0x408, 1, 4, .ro, 0x00000000, .drst, 0, 0x00000000, []⟩,
  /- TL_TP_END -/ ⟨0x020, 32, 0x40C, 1, 4, .ro, 0x00000000, .drst, 0, 0x00000000, []⟩,
  /- TL_STROBE_AGE -/ ⟨0x020, 32, 0x410, 1, 4, .ro, 0x0000FFFF, .drst, 0, 0x00000000, []⟩,
  /- TL_TP_REED[q] -/ ⟨0x020, 32, 0x480, 32, 4, .ro, 0x00000000, .drst, 0, 0x00000000, []⟩]

/-- The PARK page. -/
def regsPark : List RegRow := [
  /- PK_CTRL -/ ⟨0x009, 1, 0x040, 1, 4, .rw, 0x00000020, .drst, 0, 0x000000FF, []⟩,
  /- PK_CMD -/ ⟨0x009, 1, 0x044, 1, 4, .wo, 0x00000000, .none, 1, 0x00000000, []⟩,
  /- PK_TMASK -/ ⟨0x009, 1, 0x048, 1, 4, .rw, 0x00000000, .drst, 1, 0xFFFFFFFF, []⟩,
  /- PK_STAT -/ ⟨0x009, 1, 0x04C, 1, 4, .ro, 0x00000000, .drst, 0, 0x00000000, []⟩,
  /- PK_PARKED -/ ⟨0x009, 1, 0x050, 1, 4, .ro, 0x00000000, .drst, 0, 0x00000000, []⟩,
  /- PK_IDX -/ ⟨0x009, 1, 0x054, 1, 4, .rw, 0x00000000, .drst, 0, 0x00003FFF, []⟩,
  /- PK_DATA -/ ⟨0x009, 1, 0x058, 1, 4, .rw, 0x00000000, .drst, 0, 0xFFFFFFFF, []⟩,
  /- PK_GEN -/ ⟨0x009, 1, 0x05C, 1, 4, .ro, 0x00000000, .drst, 0, 0x00000000, []⟩,
  /- PK_WEAR0 -/ ⟨0x009, 1, 0x060, 1, 4, .ro, 0x00000000, .drst, 0, 0x00000000, []⟩,
  /- PK_WEAR1 -/ ⟨0x009, 1, 0x064, 1, 4, .ro, 0x00000000, .drst, 0, 0x00000000, []⟩,
  /- PK_TIMES -/ ⟨0x009, 1, 0x068, 1, 4, .ro, 0x00000000, .drst, 0, 0x00000000, []⟩]

/-- The STAB page. -/
def regsStab : List RegRow := [
  /- ST_CMD -/ ⟨0x00A, 1, 0x040, 1, 4, .wo, 0x00000000, .none, 1, 0x00000000, []⟩,
  /- ST_STAT -/ ⟨0x00A, 1, 0x044, 1, 4, .ro, 0x00000000, .warm, 0, 0x00000000, []⟩,
  /- ST_BAD -/ ⟨0x00A, 1, 0x048, 1, 4, .ro, 0x00000000, .warm, 0, 0x00000000, []⟩,
  /- ST_FIRST_BAD -/ ⟨0x00A, 1, 0x04C, 1, 4, .ro, 0x00000000, .warm, 0, 0x00000000, []⟩,
  /- ST_CAL_GEN -/ ⟨0x00A, 1, 0x050, 1, 4, .ro, 0x00000000, .warm, 0, 0x00000000, []⟩,
  /- ST_TIMES -/ ⟨0x00A, 1, 0x054, 1, 4, .ro, 0x00000000, .warm, 0, 0x00000000, []⟩]

/-- The PLAN page. -/
def regsPlan : List RegRow := [
  /- PL_CMD -/ ⟨0x00B, 1, 0x040, 1, 4, .wo, 0x00000000, .none, 1, 0x00000000, []⟩,
  /- PL_CMD_STAT -/ ⟨0x00B, 1, 0x044, 1, 4, .ro, 0x00000000, .warm, 0, 0x00000000, []⟩,
  /- PL_BUF -/ ⟨0x00B, 1, 0x048, 1, 4, .ro, 0x00002000, .warm, 0, 0x00000000, []⟩,
  /- PL_LAST_CC -/ ⟨0x00B, 1, 0x04C, 1, 4, .ro, 0x00000000, .warm, 0, 0x00000000, []⟩,
  /- PL_REDO -/ ⟨0x00B, 1, 0x050, 1, 4, .ro, 0x00000000, .warm, 0, 0x00000000, []⟩,
  /- PL_SLOT[s] -/ ⟨0x00B, 1, 0x100, 16, 4, .ro, 0x00000000, .warm, 0, 0x00000000, []⟩,
  /- PL_ENTRIES[s] -/ ⟨0x00B, 1, 0x140, 16, 4, .ro, 0x00000000, .warm, 0, 0x00000000, []⟩,
  /- PL_DETAIL[s] -/ ⟨0x00B, 1, 0x180, 16, 4, .ro, 0x00000000, .warm, 0, 0x00000000, []⟩]

/-- The COMMIT page. -/
def regsCommit : List RegRow := [
  /- CM_CTRL -/ ⟨0x00C, 1, 0x040, 1, 4, .rw, 0x00000000, .drst, 1, 0x000000F7, []⟩,
  /- COMMIT_NOW -/ ⟨0x00C, 1, 0x044, 1, 4, .wo, 0x00000000, .none, 1, 0x00000000, []⟩,
  /- CM_WAIT -/ ⟨0x00C, 1, 0x048, 1, 4, .rw, 0x00000008, .drst, 1, 0x0000007F, [{ lo := 0, n := 7, min := 1, max := 100, zeroAs := 1, fz := .at 0x04C, fzBit := 16 }]⟩,
  /- CM_STAT -/ ⟨0x00C, 1, 0x04C, 1, 4, .ro, 0x00000000, .warm, 0, 0x00000000, []⟩,
  /- CM_COUNT -/ ⟨0x00C, 1, 0x050, 1, 4, .ro, 0x00000000, .warm, 0, 0x00000000, []⟩,
  /- COMMIT_DEFER -/ ⟨0x00C, 1, 0x054, 1, 4, .ro, 0x00000000, .warm, 0, 0x00000000, []⟩,
  /- CM_LAST_LAT -/ ⟨0x00C, 1, 0x058, 1, 4, .ro, 0x00000000, .warm, 0, 0x00000000, []⟩,
  /- CM_LAST_T_LO -/ ⟨0x00C, 1, 0x05C, 1, 4, .ro, 0x00000000, .warm, 0, 0x00000000, []⟩,
  /- CM_LAST_T_HI -/ ⟨0x00C, 1, 0x060, 1, 4, .ro, 0x00000000, .warm, 0, 0x00000000, []⟩,
  /- CM_SCHED_EN -/ ⟨0x00C, 1, 0x064, 1, 4, .rw, 0x00000000, .warm, 1, 0x0000FFFF, []⟩,
  /- CM_SCHED_CUT -/ ⟨0x00C, 1, 0x068, 1, 4, .rw, 0x00000000, .drst, 1, 0x0000FFFF, []⟩,
  /- CM_SCHED_T[s] -/ ⟨0x00C, 1, 0x100, 32, 4, .rw, 0x00000000, .warm, 1, 0xFFFFFFFF, []⟩,
  /- CM_RES[s] -/ ⟨0x00C, 1, 0x180, 16, 4, .ro, 0x00000000, .warm, 0, 0x00000000, []⟩]

/-- The BREATH page. -/
def regsBreath : List RegRow := [
  /- BR_CTRL -/ ⟨0x00D, 1, 0x040, 1, 4, .rw, 0x04B00010, .drst, 0, 0x0FFF001F, [{ lo := 0, n := 5, min := 1, max := 16, zeroAs := 1, fz := .at 0x040, fzBit := 5 }, { lo := 16, n := 12, min := 16, max := 4095 }]⟩,
  /- BR_VALVE -/ ⟨0x00D, 1, 0x044, 1, 4, .rw, 0x000005DC, .drst, 0, 0x000007FF, [{ lo := 0, n := 11, min := 100, max := 1500 }]⟩,
  /- BR_RAIL -/ ⟨0x00D, 1, 0x048, 1, 4, .rw, 0x00007D00, .drst, 0, 0x0000FFFF, [{ lo := 0, n := 16, min := 1000, max := 40000 }]⟩,
  /- BR_STEP -/ ⟨0x00D, 1, 0x04C, 1, 4, .rw, 0x04B00FA0, .drst, 0, 0x0FFFFFFF, [{ lo := 0, n := 16, min := 100, max := 20000 }, { lo := 16, n := 12, min := 16, max := 4095 }]⟩,
  /- BR_TILE_SS -/ ⟨0x00D, 1, 0x050, 1, 4, .rw, 0x00001000, .drst, 0, 0x00003FFF, [{ lo := 0, n := 14, min := 100, max := 8192 }]⟩,
  /- BR_DEV_SS -/ ⟨0x00D, 1, 0x054, 1, 4, .rw, 0x00020000, .drst, 0, 0x0003FFFF, [{ lo := 0, n := 18, min := 1000, max := 262143 }]⟩,
  /- BR_FEED -/ ⟨0x00D, 1, 0x058, 1, 4, .rw, 0x285A5A2C, .drst, 0, 0xFFFFFFFF, [{ lo := 0, n := 8, min := 38, max := 54 }, { lo := 8, n := 8, min := 50, max := 95 }, { lo := 16, n := 8, min := 70, max := 99 }]⟩,
  /- BR_LIVE -/ ⟨0x00D, 1, 0x05C, 1, 4, .ro, 0x00000000, .warm, 0, 0x00000000, []⟩,
  /- BR_LAST -/ ⟨0x00D, 1, 0x060, 1, 4, .ro, 0x00000000, .warm, 0, 0x00000000, []⟩,
  /- BR_LAST_I -/ ⟨0x00D, 1, 0x064, 1, 4, .ro, 0x00000000, .warm, 0, 0x00000000, []⟩,
  /- BR_LAST_F -/ ⟨0x00D, 1, 0x068, 1, 4, .ro, 0x00000000, .warm, 0, 0x00000000, []⟩,
  /- BR_LAST_T -/ ⟨0x00D, 1, 0x06C, 1, 4, .ro, 0x00000000, .warm, 0, 0x00000000, []⟩,
  /- BR_LAST_SS -/ ⟨0x00D, 1, 0x070, 1, 4, .ro, 0x00000000, .warm, 0, 0x00000000, []⟩,
  /- BR_SLOT[s] -/ ⟨0x00D, 1, 0x100, 16, 4, .ro, 0x00000000, .warm, 0, 0x00000000, []⟩,
  /- BR_SPAN[s] -/ ⟨0x00D, 1, 0x140, 16, 4, .ro, 0x00000000, .warm, 0, 0x00000000, []⟩]

/-- The TONGUE page. -/
def regsTongue : List RegRow := [
  /- TG_CMD -/ ⟨0x00E, 1, 0x040, 1, 4, .wo, 0x00000000, .none, 1, 0x00000000, []⟩,
  /- TG_STAT -/ ⟨0x00E, 1, 0x044, 1, 4, .ro, 0x00000000, .warm, 0, 0x00000000, []⟩,
  /- TG_BAD -/ ⟨0x00E, 1, 0x048, 1, 4, .ro, 0x00000000, .warm, 0, 0x00000000, []⟩,
  /- TG_CAL_GEN -/ ⟨0x00E, 1, 0x04C, 1, 4, .ro, 0x00000000, .warm, 0, 0x00000000, []⟩,
  /- TG_CLAMPS -/ ⟨0x00E, 1, 0x050, 1, 4, .ro, 0x00000000, .warm, 0, 0x00000000, []⟩,
  /- TG_EVENTS -/ ⟨0x00E, 1, 0x054, 1, 4, .ro, 0x00000000, .warm, 0, 0x00000000, []⟩,
  /- TG_PROBE -/ ⟨0x00E, 1, 0x058, 1, 4, .rw, 0x00000000, .warm, 1, 0x00007FFF, [{ lo := 12, n := 3, min := 0, max := 5 }]⟩,
  /- TG_PROBE_LEN -/ ⟨0x00E, 1, 0x05C, 1, 4, .ro, 0x00000000, .warm, 0, 0x00000000, []⟩,
  /- TG_PROBE_AMP -/ ⟨0x00E, 1, 0x060, 1, 4, .ro, 0x00000000, .warm, 0, 0x00000000, []⟩,
  /- TG_TIMES -/ ⟨0x00E, 1, 0x064, 1, 4, .ro, 0x00000000, .warm, 0, 0x00000000, []⟩]

/-- The MEAS page. -/
def regsMeas : List RegRow := [
  /- MS_CTRL -/ ⟨0x00F, 1, 0x040, 1, 4, .rw, 0x00000105, .drst, 0, 0x0000010F, [{ lo := 0, n := 4, min := 1, max := 15, zeroAs := 1, fz := .at 0x048, fzBit := 12 }]⟩,
  /- MS_CMD -/ ⟨0x00F, 1, 0x044, 1, 4, .wo, 0x00000000, .none, 1, 0x00000000, []⟩,
  /- MS_STAT -/ ⟨0x00F, 1, 0x048, 1, 4, .ro, 0x00000000, .warm, 0, 0x00000000, []⟩,
  /- MS_BAD -/ ⟨0x00F, 1, 0x04C, 1, 4, .ro, 0x00000000, .warm, 0, 0x00000000, []⟩,
  /- MS_CAL_GEN -/ ⟨0x00F, 1, 0x050, 1, 4, .ro, 0x00000000, .warm, 0, 0x00000000, []⟩,
  /- MS_REED_IDX -/ ⟨0x00F, 1, 0x054, 1, 4, .rw, 0x00000000, .drst, 1, 0x000103FF, []⟩,
  /- MS_REED_CFG -/ ⟨0x00F, 1, 0x058, 1, 4, .rw, 0x00000001, .drst, 1, 0x0000001F, [{ lo := 0, n := 2, min := 0, max := 2 }]⟩,
  /- MS_TIMER -/ ⟨0x00F, 1, 0x05C, 1, 4, .rw, 0x00001000, .drst, 1, 0x0000FFFF, []⟩,
  /- MS_DRV_DELAY -/ ⟨0x00F, 1, 0x060, 1, 4, .rw, 0x00000000, .drst, 1, 0x0000FFFF, []⟩,
  /- MS_TRIG -/ ⟨0x00F, 1, 0x064, 1, 4, .wo, 0x00000000, .none, 1, 0x00000000, []⟩,
  /- MS_REED_STAT -/ ⟨0x00F, 1, 0x068, 1, 4, .ro, 0x00000000, .warm, 0, 0x00000000, []⟩,
  /- MS_TRIG_OVERRUN -/ ⟨0x00F, 1, 0x06C, 1, 4, .rc, 0x00000000, .warm, 0, 0x00000000, []⟩,
  /- MS_SEQ_ERR -/ ⟨0x00F, 1, 0x070, 1, 4, .ro, 0x00000000, .warm, 0, 0x00000000, []⟩,
  /- MS_URGENT -/ ⟨0x00F, 1, 0x074, 1, 4, .wo, 0x00000000, .none, 1, 0x00000000, []⟩,
  /- MS_URG_STAT -/ ⟨0x00F, 1, 0x078, 1, 4, .ro, 0x00000000, .warm, 0, 0x00000000, []⟩,
  /- MS_OPEN -/ ⟨0x00F, 1, 0x07C, 1, 4, .w1c, 0x00000000, .warm, 1, 0x0000FFFF, []⟩,
  /- MS_HK -/ ⟨0x00F, 1, 0x080, 1, 4, .ro, 0x00000000, .warm, 0, 0x00000000, []⟩,
  /- MS_BAD_FIRST -/ ⟨0x00F, 1, 0x084, 1, 4, .ro, 0x00000000, .warm, 0, 0x00000000, []⟩]

/-- The ACC page. -/
def regsAcc : List RegRow := [
  /- AC_IDX -/ ⟨0x010, 1, 0x040, 1, 4, .rw, 0x00000000, .drst, 1, 0x033F03FF, []⟩,
  /- AC_CFG -/ ⟨0x010, 1, 0x044, 1, 4, .rw, 0x00000000, .drst, 1, 0x0000001F, []⟩,
  /- AC_CMD -/ ⟨0x010, 1, 0x048, 1, 4, .wo, 0x00000000, .none, 1, 0x00000000, []⟩,
  /- AC_STAT -/ ⟨0x010, 1, 0x04C, 1, 4, .ro, 0x00000000, .warm, 0, 0x00000000, []⟩]

/-- The CAL page. -/
def regsCal : List RegRow := [
  /- CL_IDX -/ ⟨0x011, 1, 0x040, 1, 4, .rw, 0x00000000, .drst, 1, 0x0103FFFF, []⟩,
  /- CL_DATA -/ ⟨0x011, 1, 0x044, 1, 4, .rw, 0x00000000, .none, 1, 0xFFFFFFFF, []⟩,
  /- CL_CMD -/ ⟨0x011, 1, 0x048, 1, 4, .wo, 0x00000000, .none, 1, 0x00000000, []⟩,
  /- CL_SC -/ ⟨0x011, 1, 0x04C, 1, 4, .rw, 0x00000014, .drst, 1, 0x0000007F, [{ lo := 0, n := 4, min := 0, max := 8 }, { lo := 4, n := 3, min := 0, max := 4 }]⟩,
  /- CL_SC_REF -/ ⟨0x011, 1, 0x050, 1, 4, .rw, 0x00000000, .drst, 1, 0x00FFFFFF, []⟩,
  /- CL_STAT -/ ⟨0x011, 1, 0x054, 1, 4, .ro, 0x00000000, .warm, 0, 0x00000000, []⟩,
  /- CL_SC_RES -/ ⟨0x011, 1, 0x058, 1, 4, .ro, 0x00000000, .warm, 0, 0x00000000, []⟩,
  /- CL_CAL_GEN -/ ⟨0x011, 1, 0x05C, 1, 4, .ro, 0x00000000, .warm, 0, 0x00000000, []⟩]

/-- The METER page. -/
def regsMeter : List RegRow := [
  /- MT_CTRL -/ ⟨0x104, 1, 0x040, 1, 4, .rw, 0x00000000, .frst, 0, 0x00000E13, [{ lo := 0, n := 2, min := 0, max := 2 }]⟩,
  /- MT_PERIOD -/ ⟨0x104, 1, 0x044, 1, 4, .rw, 0x00000014, .frst, 0, 0x000003FF, [{ lo := 0, n := 10, min := 1, max := 1000, zeroAs := 1, fz := .at 0x040, fzBit := 15 }]⟩,
  /- MT_STAT -/ ⟨0x104, 1, 0x048, 1, 4, .ro, 0x00000000, .por, 0, 0x00000000, []⟩,
  /- MT_RES[c] -/ ⟨0x104, 1, 0x050, 8, 4, .ro, 0x00000000, .por, 0, 0x00000000, []⟩,
  /- MT_P_A -/ ⟨0x104, 1, 0x070, 1, 4, .ro, 0x00000000, .por, 0, 0x00000000, []⟩,
  /- MT_P_B -/ ⟨0x104, 1, 0x074, 1, 4, .ro, 0x00000000, .por, 0, 0x00000000, []⟩,
  /- MT_P_IB -/ ⟨0x104, 1, 0x078, 1, 4, .ro, 0x00000000, .por, 0, 0x00000000, []⟩,
  /- MT_E_A_LO, _HI -/ ⟨0x104, 1, 0x080, 2, 4, .ro, 0x00000000, .por, 0, 0x00000000, []⟩,
  /- MT_E_B_LO, _HI -/ ⟨0x104, 1, 0x088, 2, 4, .ro, 0x00000000, .por, 0, 0x00000000, []⟩,
  /- MT_E_IB_LO, _HI -/ ⟨0x104, 1, 0x090, 2, 4, .ro, 0x00000000, .por, 0, 0x00000000, []⟩,
  /- MT_CAL[c] -/ ⟨0x104, 1, 0x0A0, 8, 4, .rw, 0x00008000, .por, 0, 0xFFFFFFFF, []⟩,
  /- MT_SC -/ ⟨0x104, 1, 0x0C0, 1, 4, .wo, 0x00000000, .none, 0, 0x00000000, []⟩,
  /- MT_SC_REF -/ ⟨0x104, 1, 0x0C4, 1, 4, .rw, 0x00000000, .frst, 0, 0x003FFFFF, []⟩,
  /- MT_SC_STAT -/ ⟨0x104, 1, 0x0C8, 1, 4, .ro, 0x00000000, .frst, 0, 0x00000000, []⟩]

/-- The LOOP page. -/
def regsLoop : List RegRow := [
  /- LP_CTRL -/ ⟨0x012, 1, 0x040, 1, 4, .rw, 0x00000101, .drst, 1, 0x0000FF01, [{ lo := 8, n := 8, min := 1, max := 255, zeroAs := 1, fz := .at 0x040, fzBit := 16 }]⟩,
  /- LP_SETTLE -/ ⟨0x012, 1, 0x044, 1, 4, .rw, 0x00320005, .drst, 1, 0x00FF00FF, []⟩,
  /- LP_LIGHT -/ ⟨0x012, 1, 0x048, 1, 4, .rw, 0x000020C5, .drst, 1, 0x00FFFFFF, [{ lo := 0, n := 24, min := 0, max := 8388607 }]⟩,
  /- LP_TILE_CAP -/ ⟨0x012, 1, 0x04C, 1, 4, .rw, 0x00000032, .drst, 0, 0x0000007F, [{ lo := 0, n := 7, min := 0, max := 125 }]⟩,
  /- LP_WARN -/ ⟨0x012, 1, 0x050, 1, 4, .rw, 0x00000100, .drst, 1, 0x00000FFF, []⟩,
  /- LP_CH_IDX -/ ⟨0x012, 1, 0x054, 1, 4, .rw, 0x00000000, .drst, 1, 0x00017FFF, []⟩,
  /- LP_CH_CFG -/ ⟨0x012, 1, 0x058, 1, 4, .rw, 0x00000000, .drst, 1, 0x00001FFF, []⟩,
  /- LP_CH_STAT -/ ⟨0x012, 1, 0x05C, 1, 4, .ro, 0x00000000, .warm, 0, 0x00000000, []⟩,
  /- LP_CH_TARGET -/ ⟨0x012, 1, 0x060, 1, 4, .ro, 0x00000000, .warm, 0, 0x00000000, []⟩,
  /- LP_CH_MEAS -/ ⟨0x012, 1, 0x064, 1, 4, .ro, 0x00000000, .warm, 0, 0x00000000, []⟩,
  /- LP_CH_BASE -/ ⟨0x012, 1, 0x068, 1, 4, .ro, 0x00000000, .warm, 0, 0x00000000, []⟩,
  /- LP_CH_FIRST -/ ⟨0x012, 1, 0x06C, 1, 4, .ro, 0x00000000, .warm, 0, 0x00000000, []⟩,
  /- LP_CMD -/ ⟨0x012, 1, 0x070, 1, 4, .wo, 0x00000000, .none, 1, 0x00000000, []⟩,
  /- LP_STAT -/ ⟨0x012, 1, 0x074, 1, 4, .ro, 0x00000000, .warm, 0, 0x00000000, []⟩,
  /- LP_COUNT -/ ⟨0x012, 1, 0x078, 1, 4, .ro, 0x00000000, .warm, 0, 0x00000000, []⟩,
  /- LP_GAIN[g] -/ ⟨0x012, 1, 0x0C0, 8, 4, .rw, 0x40100000, .drst, 1, 0xFF1FFFFF, [{ lo := 24, n := 8, min := 1, max := 255, zeroAs := 1, fz := .at 0x040, fzBit := 16 }]⟩,
  /- LP_TRIM[g] -/ ⟨0x012, 1, 0x0E0, 8, 4, .rw, 0x00000200, .drst, 1, 0x00000FFF, []⟩,
  /- LP_TILE_NET[t] -/ ⟨0x012, 1, 0x100, 32, 4, .ro, 0x00000000, .warm, 0, 0x00000000, []⟩,
  /- LP_FROZEN[t] -/ ⟨0x012, 1, 0x180, 32, 4, .ro, 0x00000000, .warm, 0, 0x00000000, []⟩]

/-- The THM page. -/
def regsThm : List RegRow := [
  /- TH_CTRL -/ ⟨0x013, 1, 0x040, 1, 4, .rw, 0x04000001, .drst, 1, 0x0FFF0001, [{ lo := 16, n := 12, min := 1, max := 4095, zeroAs := 1, fz := .at 0x048, fzBit := 14 }]⟩,
  /- TH_CMD -/ ⟨0x013, 1, 0x044, 1, 4, .wo, 0x00000000, .none, 1, 0x00000000, []⟩,
  /- TH_STAT -/ ⟨0x013, 1, 0x048, 1, 4, .ro, 0x00000000, .drst, 0, 0x00000000, []⟩,
  /- TH_CAL_GEN -/ ⟨0x013, 1, 0x04C, 1, 4, .ro, 0x00000000, .drst, 0, 0x00000000, []⟩,
  /- TH_K_IDX -/ ⟨0x013, 1, 0x050, 1, 4, .rw, 0x00000000, .drst, 1, 0x000107FF, []⟩,
  /- TH_K_DATA -/ ⟨0x013, 1, 0x054, 1, 4, .rw, 0x00000000, .drst, 1, 0xFFFFFFFF, []⟩,
  /- TH_WARM -/ ⟨0x013, 1, 0x058, 1, 4, .rw, 0x00000100, .drst, 1, 0x000003FF, [{ lo := 0, n := 10, min := 16, max := 1023 }]⟩,
  /- TH_VALID -/ ⟨0x013, 1, 0x05C, 1, 4, .ro, 0x00000000, .drst, 0, 0x00000000, []⟩,
  /- TH_INV -/ ⟨0x013, 1, 0x060, 1, 4, .ro, 0x00000000, .drst, 0, 0x00000000, []⟩,
  /- TH_EL_IDX -/ ⟨0x013, 1, 0x064, 1, 4, .rw, 0x00000000, .drst, 1, 0x00017FFF, []⟩,
  /- TH_EL_TEMP -/ ⟨0x013, 1, 0x068, 1, 4, .ro, 0x00000000, .drst, 0, 0x00000000, []⟩,
  /- TH_XT -/ ⟨0x013, 1, 0x06C, 1, 4, .ro, 0x00000000, .drst, 0, 0x00000000, []⟩,
  /- TH_XT_CLAMP -/ ⟨0x013, 1, 0x070, 1, 4, .ro, 0x00000000, .drst, 0, 0x00000000, []⟩,
  /- TH_NODE_IDX -/ ⟨0x013, 1, 0x074, 1, 4, .rw, 0x00000000, .drst, 1, 0x00013F1F, []⟩,
  /- TH_NODE -/ ⟨0x013, 1, 0x078, 1, 4, .ro, 0x00000000, .drst, 0, 0x00000000, []⟩,
  /- TH_TILE_CLASS[j] -/ ⟨0x013, 1, 0x080, 4, 4, .rw, 0x00000000, .drst, 1, 0xFFFFFFFF, []⟩,
  /- TH_TMAX[t] -/ ⟨0x013, 1, 0x100, 32, 4, .ro, 0x00000000, .drst, 0, 0x00000000, []⟩,
  /- TH_BASE[t] -/ ⟨0x013, 1, 0x180, 32, 4, .ro, 0x00000000, .drst, 0, 0x00000000, []⟩]

/-- The TEMP page. -/
def regsTemp : List RegRow := [
  /- TP_CTRL -/ ⟨0x014, 1, 0x040, 1, 4, .rw, 0x0014010A, .drst, 0, 0x00FFFFFF, [{ lo := 0, n := 8, min := 1, max := 255, zeroAs := 1, fz := .at 0x040, fzBit := 24 }, { lo := 8, n := 8, min := 1, max := 255, zeroAs := 1, fz := .at 0x040, fzBit := 24 }, { lo := 16, n := 8, min := 5, max := 255, zeroAs := 5, fz := .at 0x040, fzBit := 24 }]⟩,
  /- TP_THRESH -/ ⟨0x014, 1, 0x044, 1, 4, .rw, 0x006E695F, .drst, 0, 0x00FFFFFF, []⟩,
  /- TP_CMD -/ ⟨0x014, 1, 0x048, 1, 4, .wo, 0x00000000, .none, 0, 0x00000000, []⟩,
  /- TP_STAT -/ ⟨0x014, 1, 0x04C, 1, 4, .ro, 0x00000000, .drst, 0, 0x00000000, []⟩,
  /- TP_REQ -/ ⟨0x014, 1, 0x050, 1, 4, .ro, 0x00000000, .drst, 0, 0x00000000, []⟩,
  /- TP_BANDS -/ ⟨0x014, 1, 0x054, 1, 4, .ro, 0x00000000, .drst, 0, 0x00000000, []⟩,
  /- TP_DIODE_IDX -/ ⟨0x014, 1, 0x058, 1, 4, .rw, 0x00000000, .drst, 2, 0x0000013F, []⟩,
  /- TP_DIODE -/ ⟨0x014, 1, 0x05C, 1, 4, .ro, 0x00000000, .drst, 0, 0x00000000, []⟩,
  /- TP_DIODE_E -/ ⟨0x014, 1, 0x060, 1, 4, .ro, 0x00000000, .drst, 0, 0x00000000, []⟩,
  /- TP_FAILED_LO -/ ⟨0x014, 1, 0x064, 1, 4, .ro, 0x00000000, .drst, 0, 0x00000000, []⟩,
  /- TP_FAILED_HI -/ ⟨0x014, 1, 0x068, 1, 4, .ro, 0x00000000, .drst, 0, 0x00000000, []⟩]

/-- The BORE page. -/
def regsBore : List RegRow := [
  /- BO_CTRL -/ ⟨0x007, 1, 0x040, 1, 4, .rw, 0x00003C03, .drst, 0, 0x0000FF03, [{ lo := 8, n := 8, min := 1, max := 255, zeroAs := 1, fz := .at 0x040, fzBit := 16 }]⟩,
  /- BO_STAT -/ ⟨0x007, 1, 0x044, 1, 4, .ro, 0x00000000, .drst, 0, 0x00000000, []⟩,
  /- BO_PAR -/ ⟨0x007, 1, 0x048, 1, 4, .ro, 0x00000000, .warm, 0, 0x00000000, []⟩,
  /- BO_DAMAGE -/ ⟨0x007, 1, 0x04C, 1, 4, .ro, 0x00000000, .warm, 0, 0x00000000, []⟩,
  /- BO_LAST -/ ⟨0x007, 1, 0x050, 1, 4, .ro, 0x00000000, .warm, 0, 0x00000000, []⟩,
  /- BO_RETIRE -/ ⟨0x007, 1, 0x054, 1, 4, .ro, 0x00000040, .drst, 0, 0x00000000, []⟩,
  /- BO_RMW -/ ⟨0x007, 1, 0x058, 1, 4, .ro, 0x00000000, .warm, 0, 0x00000000, []⟩,
  /- BO_PATROL -/ ⟨0x007, 1, 0x05C, 1, 4, .ro, 0x00000000, .warm, 0, 0x00000000, []⟩]

/-- The CMDQ page. -/
def regsCmdq : List RegRow := [
  /- JC_CTRL -/ ⟨0x006, 1, 0x040, 1, 4, .rw, 0x00000064, .drst, 0, 0x000000FF, [{ lo := 0, n := 8, min := 1, max := 255, zeroAs := 1, fz := .at 0x044, fzBit := 31 }]⟩,
  /- JC_STAT -/ ⟨0x006, 1, 0x044, 1, 4, .ro, 0x00000000, .warm, 0, 0x00000000, []⟩,
  /- JC_EPOCH -/ ⟨0x006, 1, 0x048, 1, 4, .ro, 0x00000000, .drst, 0, 0x00000000, []⟩,
  /- JC_VER -/ ⟨0x006, 1, 0x04C, 1, 4, .ro, 0x00001110, .none, 0, 0x00000000, []⟩,
  /- JC_FN_VER -/ ⟨0x006, 1, 0x050, 1, 4, .ro, 0x00101010, .warm, 0, 0x00000000, []⟩,
  /- JC_COUNT -/ ⟨0x006, 1, 0x054, 1, 4, .ro, 0x00000000, .warm, 0, 0x00000000, []⟩,
  /- JC_ERRORS -/ ⟨0x006, 1, 0x058, 1, 4, .ro, 0x00000000, .warm, 0, 0x00000000, []⟩,
  /- JC_SQ_BASE[q] -/ ⟨0x006, 1, 0x100, 64, 16, .rw, 0x00000000, .warm, 0, 0x003FFFC0, []⟩,
  /- JC_SQ_CTRL[q] -/ ⟨0x006, 1, 0x104, 64, 16, .rw, 0x00000000, .warm, 0, 0x1FFF7FFF, [{ lo := 1, n := 2, min := 0, max := 2 }, { lo := 10, n := 5, min := 1, max := 16, zeroAs := 1, fz := .plus 8, fzBit := 26 }, { lo := 16, n := 13, min := 2, max := 4096 }]⟩,
  /- JC_SQ_LIM[q] -/ ⟨0x006, 1, 0x108, 64, 16, .rw, 0x00000200, .warm, 0, 0x000003FF, [{ lo := 0, n := 10, min := 1, max := 512, zeroAs := 1, fz := .plus 4, fzBit := 27 }]⟩,
  /- JC_SQ_STAT[q] -/ ⟨0x006, 1, 0x10C, 64, 16, .ro, 0x00000000, .warm, 0, 0x00000000, []⟩,
  /- JC_CQ_BASE[q] -/ ⟨0x006, 1, 0x500, 64, 16, .rw, 0x00000000, .warm, 0, 0x000FFFF0, []⟩,
  /- JC_CQ_CTRL[q] -/ ⟨0x006, 1, 0x504, 64, 16, .rw, 0x00000000, .warm, 0, 0x1FFF01F3, [{ lo := 16, n := 13, min := 2, max := 4096 }]⟩,
  /- JC_CQ_AGG[q] -/ ⟨0x006, 1, 0x508, 64, 16, .rw, 0x00000000, .warm, 0, 0x0000FFFF, []⟩,
  /- JC_CQ_STAT[q] -/ ⟨0x006, 1, 0x50C, 64, 16, .ro, 0x00000000, .warm, 0, 0x00000000, []⟩,
  /- JC_SQ_TAIL[q] -/ ⟨0x006, 1, 0x900, 64, 4, .wo, 0x00000000, .none, 2, 0x00000000, []⟩,
  /- JC_CQ_HEAD[q] -/ ⟨0x006, 1, 0xA00, 64, 4, .wo, 0x00000000, .none, 2, 0x00000000, []⟩]

/-- The HOST page. -/
def regsHost : List RegRow := [
  /- HS_LINK -/ ⟨0x005, 1, 0x040, 1, 4, .ro, 0x00000000, .drst, 0, 0x00000000, []⟩,
  /- HS_CTRL -/ ⟨0x005, 1, 0x044, 1, 4, .rw, 0x00000104, .drst, 0, 0x0000010F, [{ lo := 0, n := 4, min := 1, max := 4 }]⟩,
  /- HS_ERR -/ ⟨0x005, 1, 0x048, 1, 4, .ro, 0x00000000, .drst, 0, 0x00000000, []⟩,
  /- HS_RT_IDX -/ ⟨0x005, 1, 0x04C, 1, 4, .rw, 0x00000000, .drst, 2, 0x000001FF, []⟩,
  /- HS_RT_DATA -/ ⟨0x005, 1, 0x050, 1, 4, .rw, 0x00000100, .drst, 0, 0x0000071F, []⟩,
  /- HS_FLR -/ ⟨0x005, 1, 0x054, 1, 4, .ro, 0x00000000, .drst, 0, 0x00000000, []⟩,
  /- HS_SMB -/ ⟨0x005, 1, 0x058, 1, 4, .ro, 0x00000000, .drst, 0, 0x00000000, []⟩]

/-- The PROT page. -/
def regsProt : List RegRow := [
  /- PR_FN_CTRL -/ ⟨0x004, 1, 0x040, 1, 4, .rw, 0x00000000, .drst, 0, 0x00000066, []⟩,
  /- PR_MMIO_SLOTS -/ ⟨0x004, 1, 0x044, 1, 4, .rw, 0x0000FFFF, .drst, 0, 0x0000FFFF, []⟩,
  /- PR_GEN -/ ⟨0x004, 1, 0x048, 1, 4, .ro, 0x00000000, .drst, 0, 0x00000000, []⟩,
  /- PR_DENIED -/ ⟨0x004, 1, 0x04C, 1, 4, .ro, 0x00000000, .drst, 0, 0x00000000, []⟩,
  /- PR_DENY_LAST -/ ⟨0x004, 1, 0x050, 1, 4, .ro, 0x00000000, .drst, 0, 0x00000000, []⟩,
  /- PR_WIN[0] -/ ⟨0x004, 1, 0x100, 1, 4, .rw, 0x00000066, .drst, 0, 0x00000066, []⟩,
  /- PR_WIN[1] -/ ⟨0x004, 1, 0x104, 1, 4, .rw, 0x00000060, .drst, 0, 0x00000060, []⟩,
  /- PR_WIN[2] -/ ⟨0x004, 1, 0x108, 1, 4, .rw, 0x00000060, .drst, 0, 0x00000060, []⟩,
  /- PR_WIN[3] -/ ⟨0x004, 1, 0x10C, 1, 4, .rw, 0x00000060, .drst, 0, 0x00000060, []⟩,
  /- PR_WIN[4] -/ ⟨0x004, 1, 0x110, 1, 4, .rw, 0x00000062, .drst, 0, 0x00000062, []⟩,
  /- PR_WIN[5] -/ ⟨0x004, 1, 0x114, 1, 4, .rw, 0x00000062, .drst, 0, 0x00000062, []⟩,
  /- PR_WIN[6] -/ ⟨0x004, 1, 0x118, 1, 4, .rw, 0x00000062, .drst, 0, 0x00000062, []⟩,
  /- PR_WIN[7] -/ ⟨0x004, 1, 0x11C, 1, 4, .rw, 0x00000060, .drst, 0, 0x00000060, []⟩,
  /- PR_WIN[8] -/ ⟨0x004, 1, 0x120, 1, 4, .rw, 0x00000062, .drst, 0, 0x00000062, []⟩,
  /- PR_WIN[9] -/ ⟨0x004, 1, 0x124, 1, 4, .rw, 0x00000062, .drst, 0, 0x00000062, []⟩,
  /- PR_QRIGHTS[q] -/ ⟨0x004, 1, 0x200, 64, 4, .rw, 0xFFFF00FF, .drst, 0, 0xFFFF00FF, []⟩]

/-- The NVF page. -/
def regsNvf : List RegRow := [
  /- NF_CTRL -/ ⟨0x008, 1, 0x040, 1, 4, .rw, 0x003C3203, .drst, 0, 0xFFFF3F03, [{ lo := 8, n := 6, min := 10, max := 50 }, { lo := 16, n := 16, min := 1, max := 3600, zeroAs := 1, fz := .at 0x048, fzBit := 5 }]⟩,
  /- NF_CMD -/ ⟨0x008, 1, 0x044, 1, 4, .wo, 0x00000000, .none, 0, 0x00000000, []⟩,
  /- NF_STAT -/ ⟨0x008, 1, 0x048, 1, 4, .ro, 0x00000000, .drst, 0, 0x00000000, []⟩,
  /- NF_GEOM -/ ⟨0x008, 1, 0x04C, 1, 4, .ro, 0x00000000, .drst, 0, 0x00000000, []⟩,
  /- NF_TARGETS -/ ⟨0x008, 1, 0x050, 1, 4, .ro, 0x00000000, .drst, 0, 0x00000000, []⟩,
  /- NF_UNSUP -/ ⟨0x008, 1, 0x054, 1, 4, .ro, 0x00000000, .drst, 0, 0x00000000, []⟩,
  /- NF_RAW_MB -/ ⟨0x008, 1, 0x058, 1, 4, .ro, 0x00000000, .drst, 0, 0x00000000, []⟩,
  /- NF_EXP_MB -/ ⟨0x008, 1, 0x05C, 1, 4, .ro, 0x00000000, .drst, 0, 0x00000000, []⟩,
  /- NF_PART_IDX -/ ⟨0x008, 1, 0x060, 1, 4, .rw, 0x00000000, .drst, 2, 0x0000000F, [{ lo := 0, n := 4, min := 0, max := 4 }]⟩,
  /- NF_PART_SIZE -/ ⟨0x008, 1, 0x064, 1, 4, .ro, 0x00000010, .drst, 0, 0x00000000, []⟩,
  /- NF_PART_HEAD_LO, _HI -/ ⟨0x008, 1, 0x068, 2, 4, .ro, 0x00000000, .drst, 0, 0x00000000, []⟩,
  /- NF_PART_TAIL_LO, _HI -/ ⟨0x008, 1, 0x070, 2, 4, .ro, 0x00000000, .drst, 0, 0x00000000, []⟩,
  /- NF_SCRUB -/ ⟨0x008, 1, 0x078, 1, 4, .rw, 0x000007D0, .drst, 0, 0x0000FFFF, [{ lo := 0, n := 16, min := 100, max := 65535 }]⟩,
  /- NF_SCRUB_STAT -/ ⟨0x008, 1, 0x07C, 1, 4, .ro, 0x00000000, .drst, 0, 0x00000000, []⟩,
  /- NF_SCRUB_PASS -/ ⟨0x008, 1, 0x080, 1, 4, .ro, 0x00000000, .drst, 0, 0x00000000, []⟩,
  /- NF_SCRUB_DEBT -/ ⟨0x008, 1, 0x084, 1, 4, .ro, 0x00000000, .drst, 0, 0x00000000, []⟩,
  /- NF_IF -/ ⟨0x008, 1, 0x088, 1, 4, .ro, 0x00000000, .drst, 0, 0x00000000, []⟩,
  /- NF_ECC -/ ⟨0x008, 1, 0x08C, 1, 4, .ro, 0x00000000, .drst, 0, 0x00000000, []⟩,
  /- NF_RELOC -/ ⟨0x008, 1, 0x090, 1, 4, .rw, 0x00000028, .drst, 0, 0x000003FF, [{ lo := 0, n := 10, min := 1, max := 1023, zeroAs := 1, fz := .at 0x048, fzBit := 5 }]⟩,
  /- NF_WL -/ ⟨0x008, 1, 0x094, 1, 4, .rw, 0x00000100, .drst, 0, 0x00000FFF, [{ lo := 0, n := 12, min := 16, max := 4095 }]⟩,
  /- NF_BAD -/ ⟨0x008, 1, 0x098, 1, 4, .ro, 0x00000000, .drst, 0, 0x00000000, []⟩,
  /- NF_SPARE -/ ⟨0x008, 1, 0x09C, 1, 4, .ro, 0x00000000, .drst, 0, 0x00000000, []⟩,
  /- NF_WEAR -/ ⟨0x008, 1, 0x0A0, 1, 4, .ro, 0x00000000, .drst, 0, 0x00000000, []⟩,
  /- NF_PE_RATED -/ ⟨0x008, 1, 0x0A4, 1, 4, .ro, 0x00000000, .drst, 0, 0x00000000, []⟩,
  /- NF_MOUNT -/ ⟨0x008, 1, 0x0A8, 1, 4, .ro, 0x00000000, .drst, 0, 0x00000000, []⟩,
  /- NF_TELEM -/ ⟨0x008, 1, 0x0AC, 1, 4, .ro, 0x00000000, .drst, 0, 0x00000000, []⟩]

/-- The BELL page. -/
def regsBell : List RegRow := [
  /- BL_CTRL -/ ⟨0x003, 1, 0x040, 1, 4, .rw, 0x00000002, .drst, 0, 0x0000007F, [{ lo := 0, n := 7, min := 0, max := 65 }]⟩,
  /- BL_STAT -/ ⟨0x003, 1, 0x044, 1, 4, .ro, 0x00000000, .drst, 0, 0x00000000, []⟩,
  /- BL_WR -/ ⟨0x003, 1, 0x048, 1, 4, .ro, 0x00000000, .drst, 0, 0x00000000, []⟩,
  /- BL_CORE_RD -/ ⟨0x003, 1, 0x04C, 1, 4, .ro, 0x00000000, .drst, 0, 0x00000000, []⟩,
  /- BL_LOST -/ ⟨0x003, 1, 0x050, 1, 4, .ro, 0x00000000, .drst, 0, 0x00000000, []⟩,
  /- BL_LAST_ALERT -/ ⟨0x003, 1, 0x054, 1, 4, .ro, 0xFFFFFFFF, .drst, 0, 0x00000000, []⟩,
  /- BL_LAST_PARK -/ ⟨0x003, 1, 0x058, 1, 4, .ro, 0xFFFFFFFF, .drst, 0, 0x00000000, []⟩,
  /- BL_PG_IDX -/ ⟨0x003, 1, 0x05C, 1, 4, .rw, 0x00000000, .drst, 2, 0x000001FF, []⟩,
  /- BL_PG_REFUSED -/ ⟨0x003, 1, 0x060, 1, 4, .ro, 0x00000000, .drst, 0, 0x00000000, []⟩,
  /- BL_PEND_DRV -/ ⟨0x003, 1, 0x064, 1, 4, .ro, 0x00000000, .drst, 0, 0x00000000, []⟩,
  /- BL_PEND_TILE -/ ⟨0x003, 1, 0x068, 1, 4, .ro, 0x00000000, .drst, 0, 0x00000000, []⟩,
  /- BL_PEND_FEED -/ ⟨0x003, 1, 0x06C, 1, 4, .ro, 0x00000000, .drst, 0, 0x00000000, []⟩,
  /- BL_SH_IDX -/ ⟨0x003, 1, 0x070, 1, 4, .rw, 0x00000000, .drst, 2, 0x0000003F, []⟩,
  /- BL_SH_ORIGIN -/ ⟨0x003, 1, 0x074, 1, 4, .ro, 0xFFFFFFFF, .drst, 0, 0x00000000, []⟩,
  /- BL_SH_STATE -/ ⟨0x003, 1, 0x078, 1, 4, .ro, 0x00000000, .drst, 0, 0x00000000, []⟩,
  /- BL_SH_OPEN_LO -/ ⟨0x003, 1, 0x080, 1, 4, .ro, 0x00000000, .drst, 0, 0x00000000, []⟩,
  /- BL_SH_OPEN_HI -/ ⟨0x003, 1, 0x084, 1, 4, .ro, 0x00000000, .drst, 0, 0x00000000, []⟩]

/-- The CLK page. -/
def regsClk : List RegRow := [
  /- CK_CTRL -/ ⟨0x001, 1, 0x040, 1, 4, .rw, 0x03E81001, .drst, 0, 0xFFFFFFF3, [{ lo := 4, n := 12, min := 16, max := 4095 }, { lo := 16, n := 16, min := 1, max := 65535, zeroAs := 1, fz := .at 0x044, fzBit := 10 }]⟩,
  /- CK_STAT -/ ⟨0x001, 1, 0x044, 1, 4, .ro, 0x00000000, .drst, 0, 0x00000000, []⟩,
  /- CK_DROOP -/ ⟨0x001, 1, 0x048, 1, 4, .rw, 0x001402BC, .drst, 0, 0x00FF03FF, [{ lo := 0, n := 10, min := 650, max := 740 }, { lo := 16, n := 8, min := 1, max := 255, zeroAs := 1, fz := .at 0x044, fzBit := 10 }]⟩,
  /- CK_WAKES -/ ⟨0x001, 1, 0x04C, 1, 4, .ro, 0x00000000, .warm, 0, 0x00000000, []⟩,
  /- CK_STRETCH -/ ⟨0x001, 1, 0x050, 1, 4, .ro, 0x00000000, .warm, 0, 0x00000000, []⟩,
  /- CK_DRONE -/ ⟨0x001, 1, 0x054, 1, 4, .ro, 0x00000000, .drst, 0, 0x00000000, []⟩]

/-- The PWR page. -/
def regsPwr : List RegRow := [
  /- PW_CTRL -/ ⟨0x002, 1, 0x040, 1, 4, .rw, 0x000A0A00, .drst, 0, 0x00FFFF0F, [{ lo := 0, n := 4, min := 0, max := 7 }, { lo := 8, n := 8, min := 1, max := 255, zeroAs := 1, fz := .at 0x044, fzBit := 25 }, { lo := 16, n := 8, min := 1, max := 255, zeroAs := 1, fz := .at 0x044, fzBit := 25 }]⟩,
  /- PW_STAT -/ ⟨0x002, 1, 0x044, 1, 4, .ro, 0x00000000, .drst, 0, 0x00000000, []⟩,
  /- PW_REQ -/ ⟨0x002, 1, 0x048, 1, 4, .ro, 0x00000000, .drst, 0, 0x00000000, []⟩,
  /- PW_COUNT -/ ⟨0x002, 1, 0x04C, 1, 4, .ro, 0x00000000, .warm, 0, 0x00000000, []⟩,
  /- PW_MAXLVL -/ ⟨0x002, 1, 0x050, 1, 4, .rc, 0x00000000, .warm, 0, 0x00000000, []⟩,
  /- PW_CORE -/ ⟨0x002, 1, 0x054, 1, 4, .ro, 0x00000000, .drst, 0, 0x00000000, []⟩,
  /- PW_DOM_CTRL -/ ⟨0x002, 1, 0x058, 1, 4, .rw, 0x00000000, .drst, 0, 0x000FF000, []⟩,
  /- PW_DOM_STAT -/ ⟨0x002, 1, 0x05C, 1, 4, .ro, 0x000FFFFF, .drst, 0, 0x00000000, []⟩,
  /- PW_L6_MASK -/ ⟨0x002, 1, 0x060, 1, 4, .ro, 0x00000000, .drst, 0, 0x00000000, []⟩,
  /- PW_TPRIO[j] -/ ⟨0x002, 1, 0x080, 4, 4, .rw, 0x00000000, .drst, 0, 0x77777777, []⟩]

/-- The SLINK page. -/
def regsSlink : List RegRow := [
  /- SL_CTRL -/ ⟨0x015, 1, 0x040, 1, 4, .rw, 0x00003041, .drst, 0, 0x000033F1, [{ lo := 8, n := 2, min := 0, max := 2 }]⟩,
  /- SL_STAT -/ ⟨0x015, 1, 0x044, 1, 4, .ro, 0x00000000, .drst, 0, 0x00000000, []⟩,
  /- SL_ID -/ ⟨0x015, 1, 0x048, 1, 4, .ro, 0x00201000, .drst, 0, 0x00000000, []⟩,
  /- SL_TIME_LO -/ ⟨0x015, 1, 0x04C, 1, 4, .ro, 0x00000000, .drst, 0, 0x00000000, []⟩,
  /- SL_TIME_HI -/ ⟨0x015, 1, 0x050, 1, 4, .ro, 0x00000000, .drst, 0, 0x00000000, []⟩,
  /- SL_SYNC -/ ⟨0x015, 1, 0x054, 1, 4, .ro, 0x00000000, .drst, 0, 0x00000000, []⟩,
  /- SL_SEG_UP -/ ⟨0x015, 1, 0x058, 1, 4, .ro, 0x00000000, .drst, 0, 0x00000000, []⟩,
  /- SL_SEG_DN -/ ⟨0x015, 1, 0x05C, 1, 4, .ro, 0x00000000, .drst, 0, 0x00000000, []⟩,
  /- SL_MEMBERS -/ ⟨0x015, 1, 0x060, 1, 4, .ro, 0x00000000, .drst, 0, 0x00000000, []⟩,
  /- SL_COUNT -/ ⟨0x015, 1, 0x064, 1, 4, .ro, 0x00000000, .warm, 0, 0x00000000, []⟩,
  /- SL_SCHED_T_LO -/ ⟨0x015, 1, 0x068, 1, 4, .rw, 0x00000000, .drst, 1, 0xFFFFFFFF, []⟩,
  /- SL_SCHED_T_HI -/ ⟨0x015, 1, 0x06C, 1, 4, .rw, 0x00000000, .drst, 1, 0xFFFFFFFF, []⟩,
  /- SL_SCHED_MASK -/ ⟨0x015, 1, 0x070, 1, 4, .rw, 0x00000000, .drst, 1, 0x0000FFFF, []⟩,
  /- SL_SCHED_CMD -/ ⟨0x015, 1, 0x074, 1, 4, .wo, 0x00000000, .none, 1, 0x00000000, []⟩,
  /- SL_SCHED_ACK -/ ⟨0x015, 1, 0x078, 1, 4, .ro, 0x00000000, .drst, 0, 0x00000000, []⟩,
  /- SL_SCHED_WHY -/ ⟨0x015, 1, 0x07C, 1, 4, .ro, 0x00000000, .drst, 0, 0x00000000, []⟩]

/-- The SYS page. -/
def regsSys : List RegRow := [
  /- SY_PART -/ ⟨0x000, 1, 0x040, 1, 4, .ro, 0x00000120, .none, 0, 0x00000000, []⟩,
  /- SY_CAP0 -/ ⟨0x000, 1, 0x044, 1, 4, .ro, 0x10202020, .none, 0, 0x00000000, []⟩,
  /- SY_CAP1 -/ ⟨0x000, 1, 0x048, 1, 4, .ro, 0x80008000, .none, 0, 0x00000000, []⟩,
  /- SY_CAP2 -/ ⟨0x000, 1, 0x04C, 1, 4, .ro, 0x01061042, .none, 0, 0x00000000, []⟩,
  /- SY_CAP3 -/ ⟨0x000, 1, 0x050, 1, 4, .ro, 0x00100030, .none, 0, 0x00000000, []⟩,
  /- SY_CAP4 -/ ⟨0x000, 1, 0x054, 1, 4, .ro, 0x00020040, .none, 0, 0x00000000, []⟩,
  /- SY_FEAT -/ ⟨0x000, 1, 0x058, 1, 4, .ro, 0x00000007, .none, 0, 0x00000000, []⟩,
  /- SY_DSN_LO -/ ⟨0x000, 1, 0x05C, 1, 4, .ro, 0x00000000, .none, 0, 0x00000000, []⟩,
  /- SY_DSN_HI -/ ⟨0x000, 1, 0x060, 1, 4, .ro, 0x00000000, .none, 0, 0x00000000, []⟩,
  /- SY_RESET -/ ⟨0x000, 1, 0x064, 1, 4, .wo, 0x00000000, .none, 1, 0x00000000, []⟩,
  /- SY_RESET_CAUSE -/ ⟨0x000, 1, 0x068, 1, 4, .ro, 0x00000000, .none, 0, 0x00000000, []⟩]

/-- The IDL page. -/
def regsIdl : List RegRow := [
  /- ID_CTRL -/ ⟨0x016, 1, 0x040, 1, 4, .wo, 0x00000000, .none, 0, 0x00000000, []⟩,
  /- ID_STAT -/ ⟨0x016, 1, 0x044, 1, 4, .ro, 0x00000000, .drst, 0, 0x00000000, []⟩,
  /- ID_ERR -/ ⟨0x016, 1, 0x048, 1, 4, .ro, 0x00000000, .warm, 0, 0x00000000, []⟩,
  /- ID_REPLAY -/ ⟨0x016, 1, 0x04C, 1, 4, .ro, 0x00000000, .warm, 0, 0x00000000, []⟩,
  /- ID_RD_LAT -/ ⟨0x016, 1, 0x050, 1, 4, .ro, 0x00000000, .warm, 0, 0x00000000, []⟩,
  /- ID_FEED_LOST -/ ⟨0x016, 1, 0x054, 1, 4, .ro, 0x00000000, .warm, 0, 0x00000000, []⟩]

/-- The rows of every page. -/
def regRows : List RegRow :=
  regsFsys ++ regsFeed ++ regsShare ++ regsTrip ++ regsPseq ++ regsBoot ++ regsTile ++ regsPark ++ regsStab ++ regsPlan ++ regsCommit ++ regsBreath ++ regsTongue ++ regsMeas ++ regsAcc ++ regsCal ++ regsMeter ++ regsLoop ++ regsThm ++ regsTemp ++ regsBore ++ regsCmdq ++ regsHost ++ regsProt ++ regsNvf ++ regsBell ++ regsClk ++ regsPwr ++ regsSlink ++ regsSys ++ regsIdl

/-- A row of R587: page index, pages, PG_ID of the first, what PG_ID gains from page to page, PG_CAP, reset of PG_FLT_SEV. -/
structure HeadRow where
  pg : Nat
  pages : Nat
  id : Word
  step : Word
  cap : Word
  sev : Word
  deriving DecidableEq, Repr

/-- The table of R587. -/
def headRows : List HeadRow := [
  /- SYS -/ ⟨0x000, 1, 0x0000_0001, 0, 0x0000_8007, 0x0000_0004⟩,
  /- CLK -/ ⟨0x001, 1, 0x0001_0002, 0, 0x0000_801F, 0x0000_0055⟩,
  /- PWR -/ ⟨0x002, 1, 0x0002_0003, 0, 0x0000_E01F, 0x0000_0150⟩,
  /- BELL -/ ⟨0x003, 1, 0x0003_0004, 0, 0x0000_A007, 0x0000_0004⟩,
  /- PROT -/ ⟨0x004, 1, 0x0004_0005, 0, 0x0000_A003, 0x0000_0000⟩,
  /- HOST -/ ⟨0x005, 1, 0x0005_0006, 0, 0x0000_803F, 0x0000_0005⟩,
  /- CMDQ -/ ⟨0x006, 1, 0x0006_0007, 0, 0x0003_A01F, 0x0000_0011⟩,
  /- BORE -/ ⟨0x007, 1, 0x0007_0008, 0, 0x0001_803F, 0x0000_0140⟩,
  /- NVF -/ ⟨0x008, 1, 0x0008_0009, 0, 0x0002_A7FF, 0x0011_5541⟩,
  /- PARK -/ ⟨0x009, 1, 0x0009_000A, 0, 0x0000_A01F, 0x0000_0051⟩,
  /- STAB -/ ⟨0x00A, 1, 0x000A_000B, 0, 0x0001_A017, 0x0000_0015⟩,
  /- PLAN -/ ⟨0x00B, 1, 0x000B_000C, 0, 0x0003_A00F, 0x0000_0004⟩,
  /- COMMIT -/ ⟨0x00C, 1, 0x000C_000D, 0, 0x0000_A01F, 0x0000_0011⟩,
  /- BREATH -/ ⟨0x00D, 1, 0x000D_000E, 0, 0x0000_A00F, 0x0000_0004⟩,
  /- TONGUE -/ ⟨0x00E, 1, 0x000E_000F, 0, 0x0001_A07F, 0x0000_0015⟩,
  /- MEAS -/ ⟨0x00F, 1, 0x000F_0010, 0, 0x0003_A1FF, 0x0000_1015⟩,
  /- ACC -/ ⟨0x010, 1, 0x0010_0011, 0, 0x0003_8007, 0x0000_0001⟩,
  /- CAL -/ ⟨0x011, 1, 0x0011_0012, 0, 0x0000_A007, 0x0000_0014⟩,
  /- LOOP -/ ⟨0x012, 1, 0x0012_0013, 0, 0x0002_A03F, 0x0000_0504⟩,
  /- THM -/ ⟨0x013, 1, 0x0013_0014, 0, 0x0003_A01F, 0x0000_0055⟩,
  /- TEMP -/ ⟨0x014, 1, 0x0014_0015, 0, 0x0000_A0FF, 0x0000_1155⟩,
  /- SLINK -/ ⟨0x015, 1, 0x0015_0016, 0, 0x0000_A7FF, 0x0011_4115⟩,
  /- IDL -/ ⟨0x016, 1, 0x0016_0017, 0, 0x0000_A01F, 0x0000_0005⟩,
  /- BOOT -/ ⟨0x017, 1, 0x0017_0018, 0, 0x0000_A07F, 0x0000_0545⟩,
  /- TILE_t -/ ⟨0x020, 32, 0x0020_0020, 0x0001_0100, 0x0002_BFFF, 0x0166_4296⟩,
  /- FSYS -/ ⟨0x100, 1, 0x8100_0040, 0, 0x0000_8001, 0x0000_0001⟩,
  /- FEED_A -/ ⟨0x101, 1, 0x8101_0041, 0, 0x0000_83FF, 0x0000_5555⟩,
  /- FEED_B -/ ⟨0x102, 1, 0x8102_0141, 0, 0x0000_83FF, 0x0000_5555⟩,
  /- SHARE -/ ⟨0x103, 1, 0x8103_0043, 0, 0x0000_800F, 0x0000_0041⟩,
  /- METER -/ ⟨0x104, 1, 0x8104_0044, 0, 0x0000_8007, 0x0000_0001⟩,
  /- TRIP -/ ⟨0x105, 1, 0x8105_0045, 0, 0x0000_8007, 0x0000_0004⟩,
  /- PSEQ -/ ⟨0x106, 1, 0x8106_0046, 0, 0x0000_817F, 0x0000_1155⟩]

/-- The row of a page index, where a page lies (R570). -/
def headRow (page : Nat) : Option HeadRow :=
  headRows.find? (fun r => r.pg ≤ page && page < r.pg + r.pages)

/-- A page index names a page (R570). -/
def isPage (page : Nat) : Bool := (headRow page).isSome

/-- A page index names a feed-die page. -/
def isFeedPage (page : Nat) : Bool := 0x100 ≤ page && page ≤ 0x106

/-- PG_CAP of a page, 0 where there is none. -/
def pageCap (page : Nat) : Word := match headRow page with | some r => r.cap | none => 0

/-- The row holds the register at this BAR0 offset. -/
def RegRow.covers (r : RegRow) (off : Nat) : Bool :=
  let page := off / 4096
  let o := off % 4096
  r.pg ≤ page && page < r.pg + r.pages && r.off ≤ o && (o - r.off) % r.stride == 0 && (o - r.off) / r.stride < r.n

/-- The rows of one kind of page, by its first page index. -/
def rowsOf (pg : Nat) : List RegRow := match pg with
  | 0x100 => regsFsys
  | 0x101 => regsFeed
  | 0x103 => regsShare
  | 0x105 => regsTrip
  | 0x106 => regsPseq
  | 0x017 => regsBoot
  | 0x020 => regsTile
  | 0x009 => regsPark
  | 0x00A => regsStab
  | 0x00B => regsPlan
  | 0x00C => regsCommit
  | 0x00D => regsBreath
  | 0x00E => regsTongue
  | 0x00F => regsMeas
  | 0x010 => regsAcc
  | 0x011 => regsCal
  | 0x104 => regsMeter
  | 0x012 => regsLoop
  | 0x013 => regsThm
  | 0x014 => regsTemp
  | 0x007 => regsBore
  | 0x006 => regsCmdq
  | 0x005 => regsHost
  | 0x004 => regsProt
  | 0x008 => regsNvf
  | 0x003 => regsBell
  | 0x001 => regsClk
  | 0x002 => regsPwr
  | 0x015 => regsSlink
  | 0x000 => regsSys
  | 0x016 => regsIdl
  | _ => []

/-- The first page index of the pages of one kind: TILE_0 for a tile, FEED_A for a feed. -/
def pageKind (page : Nat) : Nat := if 0x20 ≤ page ∧ page ≤ 0x3F then 0x20 else if page = 0x102 then 0x101 else page

/-- The row of a block register. -/
def regRow (off : Nat) : Option RegRow := (rowsOf (pageKind (off / 4096))).find? (fun r => r.covers off)

/-- What a register reads as where State lists nothing for it: its reset value (R579, R587 and the page tables). -/
def regReset (off : Nat) : Word :=
  if off % 4096 < 0x40 then
    if off % 4096 = 0x20 then (match headRow (off / 4096) with | some r => r.sev | none => 0) else 0
  else match regRow off with | some r => r.reset | none => 0

/-- The reset domain of a register (R17, R579). -/
def regDom (off : Nat) : Dom :=
  let page := off / 4096
  if off % 4096 < 0x40 then
    if isFeedPage page then (if off % 4096 = 0x1C then .por else .frst) else .drst
  else match regRow off with | some r => r.dom | none => .none

/-- Each reset restores its own domain and those it includes (R17): POR all, DRST also WARM, FRST its own. -/
def Dom.restoredBy (reset d : Dom) : Bool := match reset, d with
  | _, .none => false
  | .por, _ => true
  | .drst, .drst => true
  | .drst, .warm => true
  | .warm, .warm => true
  | .frst, .frst => true
  | _, _ => false

end Sys2Proof.Machine
end

