-- ==== Sys2Proof/Machine/Ops.lean ====
section
/-! DEFINITION. The named operations that every family shares: registers, free values, interrupts, messages to the Bell,
frames of the inter-die link, and the words of the Bore. -/

namespace Sys2Proof.Machine

/-- The outcome of a command that the spec gives an effect. -/
abbrev Result := Host.Outcome State Fault Refusal

/-! ### Page indices (R570 and the inventory of 01_architecture.md) -/

abbrev pgSYS : Nat := 0x000
abbrev pgCLK : Nat := 0x001
abbrev pgPWR : Nat := 0x002
abbrev pgBELL : Nat := 0x003
abbrev pgPROT : Nat := 0x004
abbrev pgHOST : Nat := 0x005
abbrev pgCMDQ : Nat := 0x006
abbrev pgBORE : Nat := 0x007
abbrev pgNVF : Nat := 0x008
abbrev pgPARK : Nat := 0x009
abbrev pgSTAB : Nat := 0x00A
abbrev pgPLAN : Nat := 0x00B
abbrev pgCOMMIT : Nat := 0x00C
abbrev pgBREATH : Nat := 0x00D
abbrev pgTONGUE : Nat := 0x00E
abbrev pgMEAS : Nat := 0x00F
abbrev pgACC : Nat := 0x010
abbrev pgCAL : Nat := 0x011
abbrev pgLOOP : Nat := 0x012
abbrev pgTHM : Nat := 0x013
abbrev pgTEMP : Nat := 0x014
abbrev pgSLINK : Nat := 0x015
abbrev pgIDL : Nat := 0x016
abbrev pgBOOT : Nat := 0x017
abbrev pgFSYS : Nat := 0x100
abbrev pgSHARE : Nat := 0x103
abbrev pgMETER : Nat := 0x104
abbrev pgTRIP : Nat := 0x105
abbrev pgPSEQ : Nat := 0x106
/-- The page of a tile. -/
abbrev pgTILE (t : Nat) : Nat := 0x020 + t
/-- The page of a feed. -/
def pgFEED (f : Feed) : Nat := match f with | .a => 0x101 | .b => 0x102

/-! ### Registers -/

/-- BAR0 byte offset of page offset `o`. -/
abbrev ro (page o : Nat) : Nat := page * 4096 + o

/-- The stored word of a register. -/
def getReg (s : State) (off : Nat) : Word := tabGet regReset s.regs off

/-- A register takes a word. -/
def setReg (s : State) (off : Nat) (w : Word) : State := { s with regs := tabSet regReset s.regs off w }

/-- A field of a register. -/
def regFld (s : State) (off lo n : Nat) : Nat := fld (getReg s off) lo n

/-- A field of a register takes a value. -/
def putReg (s : State) (off lo n v : Nat) : State := setReg s off (put (getReg s off) lo n v)

/-- A wrapping counter field counts `k`. -/
def bumpReg (s : State) (off lo n : Nat) (k : Nat := 1) : State := putReg s off lo n (regFld s off lo n + k)

/-- A saturating counter field counts `k`. -/
def satReg (s : State) (off lo n : Nat) (k : Nat := 1) : State :=
  putReg s off lo n (min (regFld s off lo n + k) (2 ^ n - 1))

/-- Registers of the domains that a reset restores return to their reset values (R17). -/
def dropRegs (r : Dom) (s : State) : State :=
  { s with regs := s.regs.filter (fun p => !(r.restoredBy (regDom p.1))) }

/-- A free value of the word width (log 5): nothing is known of it. -/
def freeWord (s : State) : Word := Config.freeWord s.free

/-- The count of free values moves on. -/
def tick (s : State) : State := { s with free := s.free + 1 }

/-! ### Domains and stages -/

/-- Power domain `d` of R520 is on. -/
def domOn (s : State) (d : Nat) : Bool := s.power.dom.getLsbD d

/-- The power domain of a page, by the inventory of 01_architecture.md. -/
def pageDom (page : Nat) : Nat :=
  if isFeedPage page then 0
  else if 0x20 ≤ page then 12 + (page - 0x20) / 4
  else match page with
    | 0x004 => 8 | 0x005 => 8
    | 0x006 => 3 | 0x00A => 3 | 0x00B => 3 | 0x00C => 3 | 0x00D => 3 | 0x00E => 3 | 0x015 => 3
    | 0x007 => 4 | 0x008 => 9
    | 0x00F => 11 | 0x010 => 11 | 0x011 => 11 | 0x012 => 11
    | 0x013 => 10 | 0x014 => 10 | 0x017 => 2
    | _ => 1

/-- The drive die has power: its always-on domain DAO is on. -/
def driveOn (s : State) : Bool := domOn s 1

/-! ### Interrupts (R433 to R435) -/

/-- The function numbered `n`. -/
def fnNum (f : Fn) : Nat := match f with | .pf0 => 0 | .pf1 => 1 | .pf2 => 2

/-- A word of a function's MSI-X table: address low and high, data, vector control (R429). A vector whose control nobody has written is
masked. -/
def msixWord (s : State) (fn vec i : Nat) : Word :=
  if i = 3 then tabGet (fun _ => (1 : Word)) s.host.msixTab (fn * 128 + vec * 4 + 3)
  else tabGet (fun _ => (0 : Word)) s.host.msixTab (fn * 128 + vec * 4 + i)

/-- The Mask bit of a vector is clear. -/
def msixOpen (s : State) (fn vec : Nat) : Bool := !bit (msixWord s fn vec 3) 0

/-- The message that a vector's table entry describes. -/
def msixMsg (s : State) (fn vec : Nat) : Msi :=
  { fn := fn, vec := vec, addr := msixWord s fn vec 1 ++ msixWord s fn vec 0, data := msixWord s fn vec 2 }

/-- A message of a vector is sent, or kept pending while the vector is masked, MSI-X is disabled or the function is in D3hot
(R435, R438). -/
def sendMsi (s : State) (fn vec : Nat) : State :=
  let key := fn * 32 + vec
  if s.host.msixEn.getLsbD fn && msixOpen s fn vec && !s.host.d3.getLsbD fn then
    { s with host := { s.host with msixSent := s.host.msixSent ++ [msixMsg s fn vec] } }
  else { s with host := { s.host with msixPend := tabSet (fun _ => false) s.host.msixPend key true } }

/-- The route of a page, HS_RT_DATA (13_host_protection.md). -/
def route (s : State) (page : Nat) : Word := tabGet (fun _ => 0x100) s.host.routes page

/-- A page raises its interrupt on its vector, in every function its route names (R433). -/
def pageIrq (s : State) (page : Nat) : State :=
  let r := route s page
  [0, 1, 2].foldl (fun s fn => if bit r (8 + fn) then sendMsi s fn (fld r 0 5) else s) s

/-- Bits of PG_IRQ_STAT set; the page raises its interrupt when PG_IRQ_STAT AND PG_IRQ_EN leaves zero (R433). -/
def irqSet (s : State) (page : Nat) (bits : Word) : State :=
  let st := getReg s (ro page 0x14)
  let en := getReg s (ro page 0x18)
  let s' := setReg s (ro page 0x14) (st ||| bits)
  if st &&& en = 0 ∧ (st ||| bits) &&& en ≠ 0 then pageIrq s' page else s'

/-! ### The inter-die link as a pair of wires (R108 to R115) -/

/-- A replayable frame is sent while the link is up. -/
def IdlDir.send (d : IdlDir) (f : Frame) : IdlDir :=
  { d with wire := d.wire ++ [(d.nextSeq, f)], nextSeq := d.nextSeq + 1 }

/-- The link is up. -/
def idlUp (s : State) : Bool := s.idl.state == .up

/-- The feed die sends a frame. -/
def sendToDrive (s : State) (f : Frame) : State :=
  if idlUp s then { s with idl := { s.idl with toDrive := s.idl.toDrive.send f } } else s

/-- The drive die sends a frame. -/
def sendToFeed (s : State) (f : Frame) : State :=
  if idlUp s then { s with idl := { s.idl with toFeed := s.idl.toFeed.send f } } else s

/-! ### Messages (R491, R492, R497 to R499) -/

/-- Sources of one class on a page: the table of R498 and the class lines of chapters 16 to 18. Classes: 0 EVENT, 1 TRIP,
2 LIMIT, 3 INTEGRITY, 4 REFUSED, 5 CONFIG, 6 LINK. -/
def srcClass (page src : Nat) : Nat :=
  if src = 15 then 5 else
  let pick (trip limit integ refused link : List Nat) : Nat :=
    if src ∈ trip then 1 else if src ∈ limit then 2 else if src ∈ integ then 3
    else if src ∈ refused then 4 else if src ∈ link then 6 else 0
  match pageKind page with
  | 0x100 => pick [] [] [0] [] []
  | 0x101 => pick [0, 1, 2, 3, 4, 5, 7] [6] [] [8] []
  | 0x103 => pick [1, 2] [0, 3] [] [] []
  | 0x104 => pick [] [1] [0] [] []
  | 0x105 => pick [] [1] [2] [] []
  | 0x106 => pick [0, 1, 2, 3, 4, 6] [] [] [8] []
  | 0x020 => pick [0, 2, 3, 4, 7, 8, 10] [1] [9, 11, 12] [13] []
  | 0x009 => pick [4] [] [0, 1, 2, 3] [13] []
  | 0x017 => pick [] [] [4, 5] [6, 13] [1, 2, 3]
  | 0x00A => pick [] [] [0, 1, 2] [4, 13] []
  | 0x00B => pick [] [0] [1] [2, 13] []
  | 0x00C => pick [] [0, 2, 3] [] [4, 13] []
  | 0x00D => pick [] [0, 1] [] [13] []
  | 0x00E => pick [] [3, 5, 6] [0, 1, 2] [4, 13] []
  | 0x00F => if src = 3 ∨ src = 7 then 5 else pick [] [5, 8] [0, 1, 2, 6] [4, 13] []
  | 0x010 => pick [] [1] [0] [2] []
  | 0x011 => pick [] [] [1, 2] [13] []
  | 0x012 => pick [] [0, 1, 3] [4, 5] [13] []
  | 0x013 => pick [] [4] [0, 1, 2, 3] [13] []
  | 0x014 => pick [] [2, 3, 4] [0, 1, 6] [13] []
  | 0x007 => pick [] [4] [0, 1, 2, 3, 5] [] []
  | 0x006 => pick [] [2, 4] [0] [1, 13] []
  | 0x005 => pick [] [] [4, 5] [] [0, 1, 2]
  | 0x004 => pick [] [] [] [0, 13] []
  | 0x008 => pick [] [3, 4, 6, 7, 9] [0, 1, 2, 5, 10] [13] [8]
  | 0x002 => pick [3] [2] [] [13, 14] []
  | 0x003 => pick [1] [] [] [13] []
  | 0x000 => pick [] [] [] [0] []
  | 0x001 => pick [] [4] [] [] [0, 1, 2, 3]
  | 0x015 => pick [] [10] [9] [13] [0, 1, 2, 4, 6, 7, 8]
  | 0x016 => pick [] [] [2] [3, 13] [0, 1]
  | _ => 0

/-- SOURCE of a page and local source (R491). -/
def srcCode (page src : Nat) : BitVec 13 := BitVec.ofNat 13 (page * 16 + src)

/-- Page index of a SOURCE. -/
def Msg.page (m : Msg) : Nat := m.source.toNat / 16

/-- Local source of a SOURCE. -/
def Msg.local (m : Msg) : Nat := m.source.toNat % 16

/-- The sticky bit of a source of a page (PG_FLT_STICKY). -/
def sticky (s : State) (page src : Nat) : Bool := bit (getReg s (ro page 0x1C)) src

/-- A list of held messages takes one more: a message of a source already held replaces it (R115, R492); the Bool says so. -/
def holdMsg (held : List Msg) (m : Msg) : List Msg × Bool :=
  if held.any (fun h => h.source == m.source) then (held.map (fun h => if h.source == m.source then m else h), true)
  else (held ++ [m], false)

/-- BL_LOST counts and BELL PG_IRQ_STAT.LOST sets. -/
def bellLost (s : State) (lo n : Nat) : State := irqSet (satReg s (ro pgBELL 0x50) lo n) pgBELL 4

/-- A message reaches the Bell's input queue of 64, or is held by its block while the queue is full (R492). -/
def bellIn (s : State) (m : Msg) : State :=
  if s.bell.inq.length < 64 then { s with bell := { s.bell with inq := s.bell.inq ++ [m] } }
  else
    let h := holdMsg s.bell.held m
    let s' := { s with bell := { s.bell with held := h.1 } }
    if h.2 then bellLost s' 24 8 else s'

/-- The feed die sends a message over the link, or holds it while the link is down or older ones are still held; its sticky bit
sets at the event (R115). -/
def feedMsg (s : State) (m : Msg) : State :=
  let s := setReg s (ro m.page 0x1C) (getReg s (ro m.page 0x1C) ||| BitVec.ofNat 32 (2 ^ m.local))
  if idlUp s && s.fd.held.isEmpty then sendToDrive (sendToDrive s (.bell0 m.source m.kind m.inj)) (.bell1 m.detail)
  else
    let h := holdMsg s.fd.held m
    let s := { s with fd := { s.fd with held := h.1 } }
    if h.2 then satReg s (ro pgFSYS 0x4C) 25 7 else s

/-- A shadow opens, or is extended to the later closing time; a valve trip adds its source (R508, R511). -/
def openShadow (s : State) (shid : Nat) (valve : Option Nat := none) : State :=
  let b := s.bell
  let close := s.now + regFld s (ro pgBELL 0x40) 0 7 * 1200
  let new : Shadow := match b.shadows.lookup shid with
    | none => { closeAt := close, order := b.shadowCount, valves := valve.toList }
    | some x => { x with closeAt := max x.closeAt close, valves := x.valves ++ valve.toList }
  { s with bell := { b with shadows := tabIns b.shadows shid new, shadowCount := b.shadowCount + 1 } }

/-- A message by which a TILE page reports a reaction of its own: a channel fuse, a valve trip, a reference transfer or loss
(R508, R509). -/
def ownReaction (page src cls : Nat) : Bool :=
  pageKind page == 0x20 && cls == 1 && src ∈ [0, 1, 3, 4, 8, 10]

/-- A source sends a message in this cycle (R499). -/
def sentNow (s : State) (source : BitVec 13) : State :=
  { s with msgAt := s.now, msgNow := if s.msgAt = s.now then s.msgNow ++ [source] else [source] }

/-- A block sends a message: SOURCE, class and subtype, DETAIL. A source outside PG_CAP.IMPL sends none (R580); the first
message of a source that an armed CHECK has made carries INJ (R517). -/
def postAs (s : State) (page src cls sub : Nat) (detail : Word) : State :=
  if !bit (pageCap page) src then s else
  let inj := s.bell.injNext.contains (page, src)
  let m : Msg := { source := srcCode page src, kind := BitVec.ofNat 8 (cls * 32 + sub % 32), detail := detail, inj := inj }
  let s := if inj then { s with bell := { s.bell with injNext := s.bell.injNext.erase (page, src) } } else s
  if isFeedPage page then feedMsg (sentNow s m.source) m
  else if !driveOn s then s
  else
    let s := sentNow s m.source
    let s := if ownReaction page src cls then
        openShadow s page (if src = 3 ∨ src = 4 then some src else none) else s
    bellIn s m

/-- A block sends a message of its source's class with subtype `sub`. -/
def post (s : State) (page src : Nat) (detail : Word) (sub : Nat := 0) : State :=
  postAs s page src (srcClass page src) sub detail

/-- A message whose DETAIL the spec does not state carries a free value (log 5). -/
def postFree (s : State) (page src : Nat) (sub : Nat := 0) : State := tick (post s page src (freeWord s) sub)

/-- BAD_ENCODING of a page with the register's page offset as detail (R16). -/
def badEncoding (s : State) (page off : Nat) : State := post s page 15 (BitVec.ofNat 32 off)

/-- REFUSED_CTRL of a drive-die page. -/
def refusedCtrl (s : State) (page off : Nat) : State := post s page 13 (BitVec.ofNat 32 off)

/-! ### Writing a register by its field rules (R12 to R16) -/

/-- Where a FIELD_ZERO bit stands on the page of a register. -/
def fzOff (r : FieldRule) (off : Nat) : Nat := match r.fz with
  | .at o => off / 4096 * 4096 + o
  | .plus d => off + d

/-- The word after the fields of `v` have been judged one by one: discarded fields keep `old`, a zero is taken as `zeroAs`. -/
def ruleWord (rules : List FieldRule) (old v : Word) : Word :=
  rules.foldl (fun w r =>
    let x := fld v r.lo r.n
    if x = 0 ∧ r.zeroAs ≠ 0 then put w r.lo r.n r.zeroAs
    else if x < r.min ∨ r.max < x then put w r.lo r.n (fld old r.lo r.n)
    else w) v

/-- Some field of `v` carries a reserved or out-of-range encoding (R15). -/
def ruleBad (rules : List FieldRule) (v : Word) : Bool :=
  rules.any (fun r => let x := fld v r.lo r.n; !(decide (x = 0 ∧ r.zeroAs ≠ 0)) && (decide (x < r.min) || decide (r.max < x)))

/-- FIELD_ZERO bits follow the write: set where a field was written 0 and taken otherwise, cleared by the next other write. -/
def ruleZero (s : State) (off : Nat) (rules : List FieldRule) (v : Word) : State :=
  let zs := rules.filter (fun r => decide (r.zeroAs ≠ 0))
  match zs with
  | [] => s
  | r :: _ =>
    putReg s (fzOff r off) r.fzBit 1 (b2n (zs.any (fun r => decide (fld v r.lo r.n = 0))))

/-- A write to a block register: the writable bits take the value under the field rules; a discarded field raises
BAD_ENCODING (R15, R16). A read-only or reserved offset ignores the write (R12, R13). -/
def writeReg (s : State) (off : Nat) (v : Word) : State :=
  match regRow off with
  | none => s
  | some r =>
    if r.acc ≠ .rw then s else
    let old := getReg s off
    let w := ruleWord r.rules old v
    let s := ruleZero s off r.rules v
    let old := getReg s off
    let s := setReg s off ((old &&& ~~~ r.mask) ||| (w &&& r.mask))
    if ruleBad r.rules v then badEncoding s (off / 4096) (off % 4096) else s

/-! ### The Bore (R385 to R400, R577) -/

/-- A byte of the Bore. -/
def boreByte (s : State) (a : Nat) : Byte := tabGet (fun _ => 0) s.bore.mem a

/-- A byte of the Bore takes a value. -/
def memSet (m : List Host.Cell) (a : Nat) (b : Byte) : List Host.Cell := tabSet (fun _ => (0 : Byte)) m a b

/-- Four bytes of a table of bytes as a little-endian word (R10). -/
def wordAt (m : List Host.Cell) (a : Nat) : Word :=
  let b (i : Nat) : Byte := tabGet (fun _ => (0 : Byte)) m (a + i)
  b 3 ++ b 2 ++ b 1 ++ b 0

/-- The byte `i` of a word (R10). -/
def byteOf (w : Word) (i : Nat) : Byte := BitVec.ofNat 8 (w.toNat / 256 ^ i)

/-- A little-endian word written into a table of bytes. -/
def setWordAt (m : List Host.Cell) (a : Nat) (w : Word) : List Host.Cell :=
  memSet (memSet (memSet (memSet m a (byteOf w 0)) (a + 1) (byteOf w 1)) (a + 2) (byteOf w 2)) (a + 3) (byteOf w 3)

/-- The word of the Bore at a byte address. -/
def boreWord (s : State) (a : Nat) : Word := wordAt s.bore.mem a

/-- The region of a Bore address (R386, R577): 0 to 9, 13 for an unallocated address, 11 and 12 for quadrants 2 and 3. -/
def boreRegion (a : Nat) : Nat :=
  if a < 0x0040_0000 then 0 else if a < 0x0050_0000 then 1 else if a < 0x0060_0000 then 2
  else if a < 0x0080_0000 then 3 else if a < 0x00A0_0000 then 4 else if a < 0x00AC_0000 then 5
  else if a < 0x00B4_0000 then 6 else if a < 0x00C0_0000 then 13 else if a < 0x00D0_0000 then 7
  else if a < 0x0110_0000 then 8 else if a < 0x0150_0000 then 9 else if a < 0x0160_0000 then 10
  else if a < 0x0180_0000 then 13 else if (a - 0x0180_0000) % 0x0030_0000 < 0x0020_0000 then 11 else 12

/-- The page and source whose armed CHECK injection inverts the parity of the next write into a region (R517). -/
def checkSource (region : Nat) : Option (Nat × Nat) := match region with
  | 0 => some (pgCMDQ, 0)
  | 4 => some (pgSTAB, 0)
  | 5 => some (pgTONGUE, 0)
  | 6 => some (pgMEAS, 0)
  | 7 => some (pgACC, 0)
  | 8 => some (pgPLAN, 1)
  | _ => none

/-- A CHECK injection is armed on a page for a source: PG_FLT_INJ holds MODE 3, ARMED and SRC (R515). -/
def checkArmed (s : State) (page src : Nat) : Bool :=
  let w := getReg s (ro page 0x24)
  fld w 0 4 == src && fld w 4 2 == 3 && bit w 6

/-- The injection has been used: ARMED clears, and the first message of the source will carry INJ (R517). -/
def useCheck (s : State) (page src : Nat) : State :=
  let s := putReg s (ro page 0x24) 6 1 0
  { s with bell := { s.bell with injNext := s.bell.injNext ++ [(page, src)] } }

/-- The armed CHECK injection that the write of the word at `a` uses, if any. -/
def checkFor (s : State) (a : Nat) : Option (Nat × Nat) :=
  let w := getReg s (ro pgBORE 0x24)
  if fld w 4 2 = 3 ∧ bit w 6 ∧ fld w 0 4 ≤ 2 ∧ fld w 16 16 * 4 = a then some (pgBORE, fld w 0 4)
  else match checkSource (boreRegion a) with
    | some (p, k) => if checkArmed s p k then some (p, k) else none
    | none => none

/-- The word at `a` is written with parity that fails (`bad`) or passes; a word that failed before has been written since (R395). -/
def Bore.put (b : Bore) (a : Nat) (w : Word) (bad : Bool) : Bore :=
  { b with
    mem := setWordAt b.mem a w,
    badPar := b.badPar.erase a ++ (if bad || b.stuck.contains a then [a] else []),
    failed := b.failed.erase a,
    rewritten := if b.failed.contains a then b.rewritten ++ [a] else b.rewritten }

/-- A word of the Bore is written, with its parity; an armed CHECK injection inverts the parity (R389, R517). -/
def setBore (s : State) (a : Nat) (w : Word) : State :=
  match checkFor s a with
  | some (p, k) => let s := useCheck s p k; { s with bore := s.bore.put a w true }
  | none => { s with bore := s.bore.put a w false }

/-- Consecutive words written from a byte address. -/
def setBores (s : State) (a : Nat) (ws : List Word) : State :=
  (ws.foldl (fun (p : State × Nat) w => (setBore p.1 p.2 w, p.2 + 4)) (s, a)).1

/-- Consecutive words read from a byte address. -/
def boreWords (s : State) (a n : Nat) : List Word := (List.range n).map (fun i => boreWord s (a + 4 * i))

/-- The canonical form of the Bore: addresses strictly rising, no byte listed that equals what an unlisted one reads as. -/
def memWf (m : List Host.Cell) : Bool := tabWf (fun _ => (0 : Byte)) m

end Sys2Proof.Machine
end

