-- ==== Sys2Proof/Machine/Feed.lean ====
section
/-! DEFINITION. The feed die: supply, the two breakers, trips and retained records, sharing, sags, the trip recorder and
the resets of the feed die (02_feed_insertion.md, R17, R36 to R61, R71 to R79). -/

namespace Sys2Proof.Machine

/-! ### Reading the feeds -/

/-- The state of one feed. -/
def feed (s : State) (f : Feed) : FeedSt := match f with | .a => s.feedA | .b => s.feedB

/-- The other feed. -/
def other (f : Feed) : Feed := match f with | .a => .b | .b => .a

/-- One feed's state is replaced. -/
def setFeed (s : State) (f : Feed) (g : FeedSt) : State := match f with
  | .a => { s with feedA := g }
  | .b => { s with feedB := g }

/-- FD_STATE.STATE of a feed state (R40). -/
def FeedState.code : FeedState → Nat
  | .absent => 0 | .qualify => 1 | .cooldown => 2 | .delay => 3 | .ramp => 4 | .enhance => 5
  | .on => 6 | .limit => 7 | .blocked => 8 | .latched => 9 | .heldOff => 10

/-- The feed conducts: 6 ON or 7 LIMIT (R44, R57, R60). -/
def FeedState.isOn : FeedState → Bool
  | .on => true | .limit => true | _ => false

/-- The feed's gate is driven: 4 RAMP to 7 LIMIT (R45). -/
def FeedState.driven : FeedState → Bool
  | .ramp => true | .enhance => true | .on => true | .limit => true | _ => false

/-- SH_STATE.STATE codes (SHARE page). -/
def ShareState.code : ShareState → Nat
  | .none => 0 | .aOnly => 1 | .bOnly => 2 | .sharing => 3 | .rebalance => 4 | .dual => 5

/-- ITRIP of a feed as its register holds it. -/
def itrip (s : State) (f : Feed) : Nat := regFld s (ro (pgFEED f) 0x50) 0 8

/-- SINGLE_BASIS: not sharing, or a feed shows SAG (the table of R59). -/
def singleBasis (s : State) : Bool := s.fd.share != .sharing || s.feedA.sag || s.feedB.sag

/-! ### The push to the drive die (R23, R112) -/

/-- DATA of PUSH0: both states, both ITRIP, ILIM of 5 A. -/
def push0Word (s : State) : Word :=
  pack [(0, 4, s.feedA.state.code), (4, 4, s.feedB.state.code), (8, 8, itrip s .a), (16, 8, itrip s .b), (24, 8, 50)]

/-- DATA of PUSH1 below its PUSHES field. -/
def push1Low (s : State) : Word :=
  pack [(0, 3, s.fd.share.code), (3, 1, b2n s.fd.atLimit), (4, 1, b2n s.feedA.sag), (5, 1, b2n s.feedB.sag),
    (6, 1, b2n s.feedA.sagSust), (7, 1, b2n s.feedB.sagSust), (8, 1, b2n s.fd.busSag), (9, 1, b2n (singleBasis s))]

/-- The feed die pushes its full state: FS_PUSH counts it, PUSH0 and PUSH1 are sent. -/
def feedPush (s : State) : State :=
  if !idlUp s then s else
  let s := bumpReg s (ro pgFSYS 0x4C) 0 16
  sendToDrive (sendToDrive s (.push0 (push0Word s))) (.push1 (put (push1Low s) 16 16 (regFld s (ro pgFSYS 0x4C) 0 16)))

/-- A push follows when the pushed words have changed since `old` (R23). -/
def pushIfChanged (old s : State) : State :=
  if push0Word old = push0Word s ∧ push1Low old = push1Low s then s else feedPush s

/-! ### Sharing (R57) and PG_IB (R44) -/

/-- Both feeds are on. -/
def bothOn (s : State) : Bool := s.feedA.state.isOn && s.feedB.state.isOn

/-- SH_STATE.STATE outside 4 REBALANCE while both feeds are on. -/
def steadyShare (s : State) : ShareState :=
  if regFld s (ro pgSHARE 0x40) 0 1 = 0 ∨ s.fd.atLimit then .dual else .sharing

/-- SH_STATE.STATE after the feeds have moved from those of `old`. -/
def shareAfter (old s : State) : ShareState :=
  match s.feedA.state.isOn, s.feedB.state.isOn with
  | false, false => .none
  | true, false => .aOnly
  | false, true => .bOnly
  | true, true =>
    if !bothOn old then .rebalance
    else if s.fd.share = .rebalance then .rebalance else steadyShare s

/-- A feed outside 6 ON and 7 LIMIT shows no sag and no enhanced gate (R60). -/
def calmFeed (g : FeedSt) : FeedSt :=
  if g.state.isOn then g else { g with sag := false, sagSust := false, limitTimer := false }

/-- The other feed charges the bulk: 4 RAMP or 5 ENHANCE (R43). -/
def charging (s : State) (f : Feed) : Bool := (feed s f).state == .ramp || (feed s f).state == .enhance

/-- A feed whose insertion delay has expired leaves 3 DELAY: enhance directly where V_DS was at most 0.5 V in the tick of the expiry,
else ramp in fold-back with the limit now written (R40, R73, R608). -/
def leaveDelay (s : State) (f : Feed) : State :=
  let g := feed s f
  if g.flat then setFeed s f { g with state := .enhance, delayDone := false, startTimer := false, dwellAt := s.droneF }
  else setFeed s f { g with state := .ramp, delayDone := false, startTimer := true, rampTick := s.droneF,
                            plimW := BitVec.ofNat 8 (regFld s (ro (pgFEED f) 0x4C) 0 8) }

/-- A feed held at the expiry of its delay goes on once the other feed charges no longer (R40, R43). -/
def heldGoesOn (s : State) (f : Feed) : State :=
  if (feed s f).state = .delay ∧ (feed s f).delayDone ∧ s.fd.armed ∧ !charging s (other f) then leaveDelay s f else s

/-- FD_INST takes a measured voltage in 10 mV. -/
def measV (s : State) (f : Feed) (v : BitVec 16) : State := putReg s (ro (pgFEED f) 0x60) 16 16 v.toNat

/-- FD_INST takes a measured current in mA. -/
def measI (s : State) (f : Feed) (i : BitVec 16) : State := putReg s (ro (pgFEED f) 0x60) 0 16 i.toNat

/-- No current flows through a feed whose gate is off (FD_INST). -/
def calmI (s : State) (f : Feed) : State := if (feed s f).state.driven then s else measI s f 0

/-- A condition of SHARE_ERR holds: both feeds on, not in 4 REBALANCE, and SHARE_EN 0, or the shares off by more than 10 % in
3 SHARING (R58). -/
def shareBad (s : State) : Bool :=
  let p := regFld s (ro pgSHARE 0x48) 0 10
  bothOn s && s.fd.share != .rebalance &&
    (regFld s (ro pgSHARE 0x40) 0 1 == 0 || (s.fd.share == .sharing && decide (p < 400 ∨ 600 < p)))

/-- SHARE_ERR stays live while its condition holds (R58). -/
def shareErrHolds (s : State) : State := { s with fd := { s.fd with shareErr := s.fd.shareErr && shareBad s } }

/-- The sharing loop raises the target of the heavier feed, by at most 150 mV (R56). -/
def shareRaise (s : State) (heavier : Feed) (raise : Nat) : State :=
  let r : BitVec 8 := BitVec.ofNat 8 (min raise 150)
  { s with fd := match heavier with
    | .a => { s.fd with raiseA := r, raiseB := 0 }
    | .b => { s.fd with raiseA := 0, raiseB := r } }

/-- No target is raised: fewer than two feeds are on, or the loop is off (R56, SH_CTRL). -/
def shareRest (s : State) : State := { s with fd := { s.fd with raiseA := 0, raiseB := 0 } }

/-- What follows a move of a feed: a feed held at its expiry goes on, sharing, sags, currents, PG_IB and the push (R23, R40, R43,
R44, R57, R60). -/
def settleFeeds (old s : State) : State :=
  let s := heldGoesOn (heldGoesOn s .a) .b
  let s := calmI (calmI { s with feedA := calmFeed s.feedA, feedB := calmFeed s.feedB } .a) .b
  let anyOn := s.feedA.state.isOn || s.feedB.state.isOn
  let s := { s with fd := { s.fd with
    share := shareAfter old s, pgIb := anyOn, busSag := s.fd.busSag && anyOn } }
  pushIfChanged old (shareErrHolds (if bothOn s then s else shareRest s))

/-! ### Trips (R41, R47 to R50, R79) -/

/-- Kind codes of R47. -/
inductive TripKind | uv | ov | fastTrip | timedLimit | shortAtStart | gateFail | extract | forcedOff
  deriving DecidableEq, Repr

/-- The code of a kind (R47). -/
def TripKind.code : TripKind → Nat
  | .uv => 1 | .ov => 2 | .fastTrip => 3 | .timedLimit => 4 | .shortAtStart => 5 | .gateFail => 6
  | .extract => 7 | .forcedOff => 8

/-- FAST_TRIP, TIMED_LIMIT and SHORT_AT_START count (R48). -/
def TripKind.counted : TripKind → Bool
  | .fastTrip => true | .timedLimit => true | .shortAtStart => true | _ => false

/-- The cool-down after a trip with consecutive count `n`; none when the feed latches (R47). -/
def TripKind.cool (k : TripKind) (n : Nat) : Option Nat := match k with
  | .fastTrip => if n ≤ 1 then some 1000 else if n = 2 then some 2000 else if n = 3 then some 4000 else none
  | .timedLimit => if n ≤ 5 then some 1000 else none
  | .shortAtStart => if n ≤ 3 then some 10000 else none
  | .gateFail => none
  | _ => some 0

/-- The retained record after a trip of kind `k` (R47 to R50): count, kind, consecutive count, latch and cool-down. -/
def tripRecord (r : TripRec) (k : TripKind) : TripRec :=
  let n : Nat := if r.lastCounted.toNat = k.code then min (r.consec.toNat + 1) 7 else 1
  let r := { r with lastKind := BitVec.ofNat 4 k.code,
                    trips := if k.code ≤ 6 ∧ r.trips.toNat < 255 then r.trips + 1 else r.trips }
  let r := if k.counted then { r with consec := BitVec.ofNat 3 n, lastCounted := BitVec.ofNat 4 k.code } else r
  match k.cool n with
  | none => { r with latched := true }
  | some 0 => r
  | some ms => { r with coolMs := BitVec.ofNat 14 ms }

/-- The recorder starts a capture at a trip of kinds 1 to 6 while ARM is 1, or counts the trip missed while a capture is held,
whatever ARM says (R79). DESIGN CHOICE: a capture still being recorded counts as held (log 10). -/
def recordTrip (s : State) (f : Feed) (k : TripKind) : State :=
  if 6 < k.code then s
  else if s.fd.capValid ∨ s.fd.capture.isSome then
    let s := { s with fd := { s.fd with capMissed := if s.fd.capMissed.toNat < 255 then s.fd.capMissed + 1 else s.fd.capMissed } }
    postFree s pgTRIP 0
  else if regFld s (ro pgTRIP 0x40) 1 1 = 0 then s
  else { s with fd := { s.fd with capture := some (f, BitVec.ofNat 4 k.code), capTick := s.droneF } }

/-- The gate goes off and the feed enters `next`. -/
def gateOff (g : FeedSt) (next : FeedState) : FeedSt :=
  { g with state := next, gateEnh := false, startTimer := false, limitTimer := false, delayDone := false }

/-- The state of a feed in window order: 9 LATCHED, 2 COOLDOWN, 3 DELAY or 1 QUALIFY (the 1 QUALIFY rows of R40); the
insertion delay starts with the delay now written (R73). -/
def qualify (s : State) (f : Feed) : State :=
  let g := feed s f
  if g.tr.latched then setFeed s f { g with state := .latched }
  else if !g.inWindow then setFeed s f { g with state := .qualify }
  else if g.tr.coolMs ≠ 0 then setFeed s f { g with state := .cooldown }
  else setFeed s f { g with state := .delay, delayDone := false,
                            delayMs := BitVec.ofNat 11 (regFld s (ro (pgFEED f) 0x48) 0 11) }

/-- The local source of a kind on its feed page; 8 FORCED_OFF has none. -/
def TripKind.src : TripKind → Option Nat
  | .uv => some 0 | .ov => some 1 | .fastTrip => some 2 | .timedLimit => some 3 | .shortAtStart => some 4
  | .gateFail => some 5 | .extract => some 9 | .forcedOff => none

/-- FD_STATE.LAST_KIND, the message and the recorder of a trip (R47, R79). -/
def tripNotes (s : State) (f : Feed) (k : TripKind) (detail : Word) : State :=
  let s := setFeed s f { feed s f with lastKind := BitVec.ofNat 4 k.code }
  let s := match k.src with
    | some src => post s (pgFEED f) src detail (if src = 9 then 0 else k.code)
    | none => s
  recordTrip s f k

/-- The state after a trip: 0 ABSENT, 10 HELD_OFF, the retry rule, or 1 QUALIFY and what follows from it (R40, R47). -/
def afterTrip (s : State) (f : Feed) (k : TripKind) : State :=
  let g := feed s f
  match k with
  | .extract => setFeed s f { g with state := .absent }
  | .forcedOff => setFeed s f { g with state := .heldOff }
  | .uv => qualify s f
  | .ov => qualify s f
  | _ => setFeed s f { g with state := if g.tr.latched then .latched else .cooldown }

/-- A trip: gate off, kind recorded, retry rule (R40, R47). What stood before is kept for the other events of its drone tick (R41). -/
def tripFresh (s : State) (f : Feed) (k : TripKind) (detail : Word) : State :=
  let g0 := feed s f
  let t : TickTrip := { tick := s.droneF, kind := BitVec.ofNat 4 k.code, rec0 := g0.tr, from0 := g0.state, timer := g0.startTimer,
                        sticky := getReg s (ro (pgFEED f) 0x1C) }
  let s := tripNotes s f k detail
  let g := feed s f
  let s := setFeed s f { gateOff g .qualify with tr := tripRecord g.tr k, tickTrip := some t }
  let s := if (feed s f).tr.latched && !g.tr.latched then
      post s (pgFEED f) 7 (BitVec.ofNat 32 k.code) k.code else s
  afterTrip s f k

/-- The place of a kind in the order of R41; the lower counts. -/
def kindRank (code : Nat) : Nat := match code with
  | 3 => 0 | 2 => 1 | 5 => 2 | 6 => 3 | 4 => 4 | 1 => 5 | 7 => 6 | _ => 7

/-- The trip that this feed has already had in the running drone tick, while its gate is still off (R41). -/
def tripOfTick (s : State) (f : Feed) : Option TickTrip :=
  if (feed s f).state.driven then none else (feed s f).tickTrip.filter (fun t => t.tick == s.droneF)

/-- The state by which the events of a drone tick are judged: the one before this tick's trip (R41). -/
def tickState (s : State) (f : Feed) : FeedState := match tripOfTick s f with
  | some t => t.from0
  | none => (feed s f).state

/-- Messages of a source that have not left the feed die are withdrawn: from those held, or the last one from the link's queue (R41). -/
def IdlDir.withdraw (d : IdlDir) (src : BitVec 13) : IdlDir :=
  let isSrc (p : BitVec 8 × Frame) : Bool := match p.2 with | .bell0 x _ _ => x == src | _ => false
  let after := (d.wire.reverse.takeWhile (fun p => !isSrc p)).reverse
  let before := d.wire.take (d.wire.length - after.length - 1)
  if d.wire.any isSrc then
    { d with wire := before ++ (after.drop 1).map (fun p => (p.1 - 2, p.2)), nextSeq := d.nextSeq - 2 }
  else d

/-- A message of the tick gives way to another kind: it is withdrawn, and its sticky bit is as it was (R41). -/
def withdraw (s : State) (page src : Nat) (sticky : Word) : State :=
  let c := srcCode page src
  let s := putReg s (ro page 0x1C) src 1 (b2n (bit sticky src))
  if s.fd.held.any (fun m => m.source == c) then { s with fd := { s.fd with held := s.fd.held.filter (fun m => m.source != c) } }
  else { s with idl := { s.idl with toDrive := s.idl.toDrive.withdraw c } }

/-- The recorder takes the kind that counts: the capture of this tick changes its kind, or begins (R41, R79). -/
def recordInstead (s : State) (f : Feed) (t : TickTrip) (k : TripKind) : State :=
  if s.fd.capture = some (f, t.kind) ∧ s.fd.capTick = t.tick then
    { s with fd := { s.fd with capture := if k.code ≤ 6 then some (f, BitVec.ofNat 4 k.code) else none } }
  else if 6 < t.kind.toNat then recordTrip s f k else s

/-- A later event of the drone tick whose kind comes first in the order of R41: its kind is recorded in place of the other. A feed that
this tick has taken to 0 ABSENT or 10 HELD_OFF stays there. -/
def tripInstead (s : State) (f : Feed) (t : TickTrip) (k : TripKind) (detail : Word) : State :=
  let latchedBy := (feed s f).tr.latched && !t.rec0.latched
  let s := (if latchedBy then [7] else []).foldl (fun s src => withdraw s (pgFEED f) src t.sticky) s
  let s := match [TripKind.uv, .ov, .fastTrip, .timedLimit, .shortAtStart, .gateFail, .extract].find? (fun k => k.code == t.kind.toNat) with
    | some k0 => match k0.src with | some src => withdraw s (pgFEED f) src t.sticky | none => s
    | none => s
  let s := setFeed s f { feed s f with lastKind := BitVec.ofNat 4 k.code, tr := tripRecord t.rec0 k,
                                       tickTrip := some { t with kind := BitVec.ofNat 4 k.code } }
  let s := match k.src with
    | some src => post s (pgFEED f) src detail (if src = 9 then 0 else k.code)
    | none => s
  let s := recordInstead s f t k
  let s := if (feed s f).tr.latched && !t.rec0.latched then post s (pgFEED f) 7 (BitVec.ofNat 32 k.code) k.code else s
  if (feed s f).state = .absent ∨ (feed s f).state = .heldOff then s else afterTrip s f k

/-- A gate-off event of R40: of the events of one drone tick on one feed, one kind is recorded, by the order of R41. -/
def tripFeed (s : State) (f : Feed) (k : TripKind) (detail : Word) : State :=
  match tripOfTick s f with
  | none => tripFresh s f k detail
  | some t =>
    if kindRank k.code < kindRank t.kind.toNat then
      let s := tripInstead s f t k detail
      if k = .extract ∨ k = .forcedOff then afterTrip s f k else s
    else if k = .extract ∨ k = .forcedOff then afterTrip s f k else s

/-! ### Supply and OTP (R36, R51 to R54, R71) -/

/-- Some feed powers the feed die. -/
def fdLive (s : State) : Bool := s.fd.supply

/-- A feed above 18 V starts the supply and charges HOLD to 12 V; the records are kept and in force, or start at zero with REC_LOST
(R36, R52 to R54). DEDUCED: HOLD counts as charged at once (log 10). -/
def feedSupply (s : State) (f : Feed) (kept : Bool) : State :=
  let live := match f with
    | .a => { s.fd with liveA := true, vHold := 1200 }
    | .b => { s.fd with liveB := true, vHold := 1200 }
  if s.fd.supply then { s with fd := live } else
  let s := { s with fd := { live with supply := true, recValid := kept } }
  if kept then s
  else postFree { s with feedA := { s.feedA with tr := {} }, feedB := { s.feedB with tr := {} } } pgTRIP 2

def execFeedSupplyStart (f : Feed) (recordsKept : Bool) (s : State) : Result := .next (feedSupply s f recordsKept)

/-- A present feed that is absent or held off enters 1 QUALIFY or 10 HELD_OFF (R40). -/
def enterPresent (s : State) (f : Feed) : State :=
  let g := feed s f
  if g.pres ∧ g.state = .absent ∧ s.fd.armed then
    if g.off then setFeed s f { g with state := .heldOff } else qualify s f
  else s

/-- The profile is loaded or the built-in defaults are used; the breaker is armed, which is stage 0 (R36, R71). -/
def otpLoaded (s : State) (profile : BitVec 8) (crcOk : Bool) : State :=
  if !s.fd.supply then s else
  let s' := setReg s (ro pgFSYS 0x44) (pack [(0, 8, profile.toNat), (8, 1, b2n crcOk), (9, 1, b2n (!crcOk))])
  let s' := { s' with fd := { s'.fd with armed := true } }
  let s' := if crcOk then s' else postFree s' pgFSYS 0
  settleFeeds s (enterPresent (enterPresent s' .a) .b)

def execOtpProfileLoaded (profile : BitVec 8) (crcOk : Bool) (s : State) : Result := .next (otpLoaded s profile crcOk)

/-- HOLD below 8 V for 100 ms while a feed is present: TR_HOLD takes the voltage, HOLD_LOW is sent (TRIP page, R52). -/
def holdLow (s : State) (v : BitVec 12) : State :=
  if !s.fd.supply ∨ 800 ≤ v.toNat then s else postFree { s with fd := { s.fd with vHold := v } } pgTRIP 1

def execHoldLow (vHold : BitVec 12) (s : State) : Result := .next (holdLow s vHold)

/-- A feed of an unpowered feed die: gate off, presence and window no longer sensed; the record and FD_CTRL.OFF stay, and the feed
resumes from 1 QUALIFY when it returns (R36, R49, R53). -/
def unpowered (g : FeedSt) : FeedSt :=
  { gateOff g .absent with
    pres := false, inWindow := false, sag := false, sagSust := false, flat := false, tickTrip := none }

/-- A feed no longer powers the die; with none left every gate is off, cool-downs hold and the records stay in FAO (R49, R51, R53). -/
def supplyLost (s : State) (f : Feed) : State :=
  let fd := match f with
    | .a => { s.fd with liveA := false }
    | .b => { s.fd with liveB := false }
  if fd.liveA || fd.liveB then { s with fd := fd } else
  settleFeeds s { s with
    feedA := unpowered s.feedA, feedB := unpowered s.feedB, fd := { fd with supply := false, armed := false },
    boot := if driveOn s then s.boot else { s.boot with stage := 0 } }

def execFeedSupplyLost (f : Feed) (s : State) : Result := .next (supplyLost s f)

/-! ### Presence and window (R38, R39) -/

/-- PRES_x low for 1 ms (R39). -/
def presOn (s : State) (f : Feed) : State :=
  settleFeeds s (enterPresent (setFeed s f { feed s f with pres := true }) f)

def execPresAsserted (f : Feed) (s : State) : Result := .next (presOn s f)

/-- PRES_x high for 1 µs: gate off and 0 ABSENT; kind EXTRACT but from 0 ABSENT and 10 HELD_OFF, and without touching the
record of a latched feed (R39, R40, R50). -/
def presOff (s : State) (f : Feed) : State :=
  let s1 := setFeed s f { feed s f with pres := false }
  let g := feed s1 f
  let s2 := match g.state with
    | .absent => s1
    | .heldOff => setFeed s1 f { g with state := .absent }
    | .latched =>
      if (tripOfTick s1 f).isSome then setFeed s1 f { g with state := .absent } else
      let s3 := tripNotes s1 f .extract (BitVec.ofNat 32 g.state.code)
      setFeed s3 f { feed s3 f with state := .absent }
    | _ => tripFeed s1 f .extract (BitVec.ofNat 32 g.state.code)
  settleFeeds s s2

def execPresDeasserted (f : Feed) (s : State) : Result := .next (presOff s f)

/-- The feed rises into its window of 40 V to 64 V (R38). -/
def windowIn (s : State) (f : Feed) (v : BitVec 16) : State :=
  if v.toNat < 4000 ∨ 6400 < v.toNat then s else
  let s1 := measV s f v
  let s1 := setFeed s1 f { feed s1 f with inWindow := true }
  settleFeeds s (if (feed s1 f).state = .qualify then qualify s1 f else s1)

def execWindowEnter (f : Feed) (v : BitVec 16) (s : State) : Result := .next (windowIn s f v)

/-- A feed that is not conducting leaves its window: 2 COOLDOWN, 3 DELAY and 8 BLOCKED return to 1 QUALIFY (R38, R40). -/
def windowOut (s : State) (f : Feed) : State :=
  let g := feed s f
  if g.state.isOn then s else
  let next := match g.state with
    | .cooldown => .qualify
    | .delay => .qualify
    | .blocked => .qualify
    | st => st
  setFeed s f { g with inWindow := false, state := next, delayDone := g.delayDone && next == g.state }

def execWindowLeave (f : Feed) (v : BitVec 16) (s : State) : Result :=
  .next (if v.toNat < 3800 ∨ 6600 < v.toNat then settleFeeds s (windowOut (measV s f v) f) else s)

/-- Below 38 V in 6 ON or 7 LIMIT: kind UV (R40). -/
def uvTripFx (s : State) (f : Feed) (v : BitVec 16) : State :=
  if !(tickState s f).isOn ∨ 3800 ≤ v.toNat then s else
  let s1 := measV s f v
  settleFeeds s (tripFeed (setFeed s1 f { feed s1 f with inWindow := false }) f .uv (BitVec.ofNat 32 v.toNat))

def execUvTrip (f : Feed) (v : BitVec 16) (s : State) : Result := .next (uvTripFx s f v)

/-- Above 66 V: kind OV where the gate is driven, otherwise the feed leaves its window (R38, R40). -/
def ovTripFx (s : State) (f : Feed) (v : BitVec 16) : State :=
  if v.toNat ≤ 6600 then s else
  let s1 := measV s f v
  if (tickState s f).driven then
    settleFeeds s (tripFeed (setFeed s1 f { feed s1 f with inWindow := false }) f .ov (BitVec.ofNat 32 v.toNat))
  else settleFeeds s (windowOut s1 f)

def execOvTrip (f : Feed) (v : BitVec 16) (s : State) : Result := .next (ovTripFx s f v)

/-! ### Cool-down, delay, ramp, enhancement (R40 to R43, R49) -/

/-- The remaining cool-down reaches 0 while the die is powered from a feed (R49). -/
def coolDone (s : State) (f : Feed) : State :=
  if !s.fd.supply then s else
  let s1 := setFeed s f { feed s f with tr := { (feed s f).tr with coolMs := 0 } }
  settleFeeds s (if (feed s f).state = .cooldown then qualify s1 f else s1)

def execCooldownExpired (f : Feed) (s : State) : Result := .next (coolDone s f)

/-- The insertion delay expires: hold behind the other feed, enhance directly at V_DS ≤ 0.5 V, or ramp in fold-back with the
limit now written; A goes first when both expire in one tick (R40, R43, R73). V_DS is that of the tick of the expiry (R608). -/
def delayExpired (s : State) (f : Feed) (vFeed vSled : BitVec 16) (otherToo : Bool) : State :=
  if (feed s f).state ≠ .delay ∨ !s.fd.armed then s else
  let s1 := setFeed s f { feed s f with delayDone := true, flat := decide (vFeed.toNat ≤ vSled.toNat + 50) }
  if charging s (other f) ∨ (f = .b ∧ otherToo ∧ s.feedA.state = .delay) then s1 else settleFeeds s (leaveDelay s1 f)

def execInsertionDelayExpired (f : Feed) (vFeed vSled : BitVec 16) (otherToo : Bool) (s : State) : Result :=
  let s := delayExpired s f vFeed vSled otherToo
  .next (if s.boot.stage = 0 ∧ (feed s f).state.driven then { s with boot := { s.boot with stage := 1 } } else s)

/-- The start timer runs out in 4 RAMP or 5 ENHANCE: SHORT_AT_START with VSLED (R40). -/
def startExpired (s : State) (f : Feed) (vSled : BitVec 16) : State :=
  let early := match tripOfTick s f with | some t => t.timer && (t.from0 == .ramp || t.from0 == .enhance) | none => false
  if (charging s f && (feed s f).startTimer) || early then
    settleFeeds s (tripFeed s f .shortAtStart (BitVec.ofNat 32 vSled.toNat))
  else s

def execStartTimerExpired (f : Feed) (vSled : BitVec 16) (s : State) : Result := .next (startExpired s f vSled)

/-- The gate check fails in 4 RAMP or 5 ENHANCE: GATE_FAIL with GATE − SRC, signed (R40). -/
def gateCheckFx (s : State) (f : Feed) (gateSrc : BitVec 16) : State :=
  if tickState s f = .ramp ∨ tickState s f = .enhance then settleFeeds s (tripFeed s f .gateFail (gateSrc.signExtend 32)) else s

def execGateCheckTimeout (f : Feed) (gateSrc : BitVec 16) (s : State) : Result := .next (gateCheckFx s f gateSrc)

/-- V_DS falls to 0.5 V in 4 RAMP: enhance; the start timer keeps running (R40). -/
def vdsEnhanceFx (s : State) (f : Feed) : State :=
  if (feed s f).state = .ramp ∧ s.fd.armed then settleFeeds s (setFeed s f { feed s f with state := .enhance }) else s

def execVdsEnhance (f : Feed) (s : State) : Result := .next (vdsEnhanceFx s f)

/-- The gate has held for 1 ms in 5 ENHANCE: the start timer stops, 6 ON; FD_START reports a start through 4 RAMP (R40). -/
def dwellDone (s : State) (f : Feed) (energyMj : BitVec 16) : State :=
  let g := feed s f
  if g.state ≠ .enhance ∨ !s.fd.armed then s else
  let s1 := if g.startTimer then
      setReg s (ro (pgFEED f) 0x64) (pack [(0, 16, (s.droneF - g.rampTick) * 10 / 4096), (16, 16, energyMj.toNat)]) else s
  settleFeeds s (setFeed s1 f { g with state := .on, gateEnh := true, startTimer := false })

def execGateDwellDone (f : Feed) (energyMj : BitVec 16) (s : State) : Result := .next (dwellDone s f energyMj)

/-- The gate falls below VFEED + 10 V during the dwell: the dwell restarts, the start timer keeps running (R40). -/
def dwellRestart (s : State) (f : Feed) : State :=
  if (feed s f).state = .enhance then setFeed s f { feed s f with gateEnh := false, dwellAt := s.droneF } else s

def execGateDwellRestart (f : Feed) (s : State) : Result := .next (dwellRestart s f)

/-! ### On: limit, trips, reverse current (R45, R46, R609) -/

def execCurrentLimitEnter (f : Feed) (i : BitVec 16) (s : State) : Result :=
  .next (if (feed s f).state = .on ∧ 5000 ≤ i.toInt then
    let s1 := measI s f i
    settleFeeds s (setFeed s1 f { feed s1 f with state := .limit, limitTimer := true }) else s)

def execCurrentLimitExit (f : Feed) (i : BitVec 16) (s : State) : Result :=
  .next (if (feed s f).state = .limit ∧ i.toInt < 5000 then
    let s1 := measI s f i
    settleFeeds s (setFeed s1 f { feed s1 f with state := .on, limitTimer := false }) else s)

def execTimedLimitExpired (f : Feed) (i : BitVec 16) (s : State) : Result :=
  .next (if tickState s f = .limit then
    settleFeeds s (tripFeed (measI s f i) f .timedLimit (i.signExtend 32)) else s)

/-- The shunt current crosses the comparator's ITRIP in a state with the gate driven (R45). -/
def fastTripFx (s : State) (f : Feed) (i : BitVec 16) : State :=
  if (tickState s f).driven ∧ (((feed s f).itripCmp.toNat * 100 : Nat) : Int) ≤ i.toInt then settleFeeds s (tripFeed (measI s f i) f .fastTrip (i.signExtend 32)) else s

def execFastTrip (f : Feed) (i : BitVec 16) (s : State) : Result := .next (fastTripFx s f i)

/-- Reverse current of 0.5 A in 6 ON or 5 ENHANCE: gate off, 8 BLOCKED, REVERSE_A or REVERSE_B of SHARE (R40). -/
def reverseFx (s : State) (f : Feed) (i : BitVec 16) : State :=
  let g := feed s f
  if (g.state = .on ∨ g.state = .enhance) ∧ i.toInt ≤ -500 then
    let s1 := setFeed (measI s f i) f (gateOff g .blocked)
    settleFeeds s (postFree s1 pgSHARE (match f with | .a => 1 | .b => 2))
  else s

def execReverseCurrentTrip (f : Feed) (i : BitVec 16) (s : State) : Result := .next (reverseFx s f i)

/-- The feed reaches VSLED + 50 mV in 8 BLOCKED: 6 ON without a start timer (R40, R609). -/
def blockedBack (s : State) (f : Feed) (vFeed vSled : BitVec 16) : State :=
  if (feed s f).state = .blocked ∧ vSled.toNat + 5 ≤ vFeed.toNat ∧ s.fd.armed then
    let s1 := measV s f vFeed
    settleFeeds s (setFeed s1 f { feed s1 f with state := .on, gateEnh := true })
  else s

def execBlockedRecover (f : Feed) (vFeed vSled : BitVec 16) (s : State) : Result := .next (blockedBack s f vFeed vSled)

/-- 60 s in 6 ON or 7 LIMIT without a counted trip: the consecutive count returns to 0 (R48). -/
def execConsecCountReset (f : Feed) (s : State) : Result :=
  .next (if (feed s f).state.isOn then
    setFeed s f { feed s f with tr := { (feed s f).tr with consec := 0, lastCounted := 0 } } else s)

/-! ### FD_CTRL (R50, R76) -/

/-- The source whose sticky bit stands for the kind that latched a feed (R50). -/
def latchSrc (k : Nat) : Nat := match k with
  | 3 => 2 | 4 => 3 | 5 => 4 | _ => 5

/-- CLR_LATCH is accepted: the sticky bits of the latching kind and of LATCHED are clear (R50). -/
def clrLatchOk (s : State) (f : Feed) : Bool :=
  let st := getReg s (ro (pgFEED f) 0x1C)
  !bit st 7 && !bit st (latchSrc (feed s f).tr.lastKind.toNat)

/-- OFF = 1 is refused for the last feed in 4 RAMP to 7 LIMIT, but with LAST_OK (R76). -/
def offRefused (s : State) (f : Feed) (lastOk : Bool) : Bool :=
  (feed s f).state.driven && (feed s (other f)).state != .on && !lastOk

/-- The latch is cleared: consecutive count 0, 9 LATCHED to 1 QUALIFY (R40, R50). -/
def clearLatch (s : State) (f : Feed) : State :=
  let g := feed s f
  let s := setFeed s f { g with tr := { g.tr with latched := false, consec := 0, lastCounted := 0 } }
  if g.state = .latched then qualify s f else s

/-- OFF = 1 accepted: the gate goes off and the feed is held off (R40). -/
def holdOff (s : State) (f : Feed) : State :=
  let s := setFeed s f { feed s f with off := true }
  match (feed s f).state with
  | .absent => s
  | .heldOff => s
  | .latched => setFeed s f { feed s f with state := .heldOff }
  | _ => tripFeed s f .forcedOff 0

/-- OFF = 0: a held-off feed qualifies (R40). -/
def holdEnd (s : State) (f : Feed) : State :=
  let s := setFeed s f { feed s f with off := false }
  if (feed s f).state = .heldOff then qualify s f else s

/-- One write of FD_CTRL: each field judged on its own, the latch before OFF, REFUSED_SETTING once (R76). -/
def fdCtrl (s : State) (f : Feed) (off lastOk clr : Bool) : State :=
  if !s.fd.supply then s else
  let latched := (feed s f).tr.latched
  let clrBad := clr && latched && !clrLatchOk s f
  let s1 := if clr && latched && !clrBad then clearLatch s f else s
  let offBad := off && offRefused s1 f lastOk
  let s2 := if off then (if offBad then s1 else holdOff s1 f) else holdEnd s1 f
  settleFeeds s (if clrBad || offBad then post s2 (pgFEED f) 8 0x40 else s2)

def execFdOff (f : Feed) (lastOk clrLatch : Bool) (s : State) : Result := .next (fdCtrl s f true lastOk clrLatch)
def execFdOn (f : Feed) (clrLatch : Bool) (s : State) : Result := .next (fdCtrl s f false false clrLatch)
def execFdClrLatch (f : Feed) (off : Bool) (s : State) : Result := .next (fdCtrl s f off false true)

/-! ### Settings (R73 to R75) -/

def execFdInsDelayWrite (f : Feed) (v : Word) (s : State) : Result :=
  .next (if s.fd.supply then writeReg s (ro (pgFEED f) 0x48) v else s)

def execFdFoldbackWrite (f : Feed) (v : Word) (s : State) : Result :=
  .next (if s.fd.supply then writeReg s (ro (pgFEED f) 0x4C) v else s)

/-- The comparator follows ITRIP: up at once, down after the push and 10 µs (R74). -/
def itripMoves (s : State) (f : Feed) : State :=
  let g := feed s f
  let new := BitVec.ofNat 8 (itrip s f)
  if g.itripCmp.toNat ≤ new.toNat then setFeed s f { g with itripCmp := new, itripNext := none }
  else setFeed s f { g with itripNext := some new }

/-- FD_FAST_TRIP is written: refused when below the present current plus 1 A, else pushed (R74, R75). -/
def fastTripWrite (s : State) (f : Feed) (v : Word) : State :=
  if !s.fd.supply then s else
  let x := fld v 0 8
  let i := signed 16 (regFld s (ro (pgFEED f) 0x60) 0 16)
  if 20 ≤ x ∧ x ≤ 250 ∧ (x * 100 : Int) < i + 1000 then post s (pgFEED f) 8 0x50
  else pushIfChanged s (itripMoves (writeReg s (ro (pgFEED f) 0x50) v) f)

def execFdFastTripWrite (f : Feed) (v : Word) (s : State) : Result := .next (fastTripWrite s f v)

/-- 10 µs after a lowering write the comparator moves (R74). -/
def execItripComparatorMove (f : Feed) (s : State) : Result :=
  .next (match (feed s f).itripNext with
    | some v => setFeed s f { feed s f with itripCmp := v, itripNext := none }
    | none => s)

def execFdSagWrite (f : Feed) (v : Word) (s : State) : Result :=
  .next (if s.fd.supply then writeReg s (ro (pgFEED f) 0x54) v else s)

/-! ### The trip recorder (R79) -/

/-- TR_CTRL with RELEASE 1: the held capture is freed; ARM is written with it (TRIP page). -/
def trReleaseFx (s : State) (arm : Bool) : State :=
  if !s.fd.supply then s else
  let s := putReg s (ro pgTRIP 0x40) 1 1 (b2n arm)
  { s with fd := { s.fd with capValid := false, samples := [] } }

def execTrRelease (arm : Bool) (s : State) : Result := .next (trReleaseFx s arm)

/-- TR_RD_DATA: the sample at IDX, and IDX advances from 63,999 to 0 (TRIP page). -/
def trRdData (s : State) : Word × State :=
  let i := regFld s (ro pgTRIP 0x50) 0 16
  (tabGet (fun _ => 0) s.fd.samples i, putReg s (ro pgTRIP 0x50) 0 16 (if 63999 ≤ i then 0 else i + 1))

def execTrRdDataRead (s : State) : Result :=
  let (v, s') := trRdData s
  .next { s' with host := { s'.host with rdata := v, rmore := [], poisoned := false } }

/-! ### Sharing commands (R55 to R58) -/

/-- The share that the feeds carry is reported (SH_RATIO). -/
def shareNow (s : State) (permille : BitVec 10) : State := putReg s (ro pgSHARE 0x48) 0 10 permille.toNat

/-- What follows a change of the sharing state: SHARE_ERR and the push (R23, R58). -/
def settleShare (old s : State) : State := pushIfChanged old (shareErrHolds s)

/-- The feed that carries the larger share (R56), by SH_RATIO. -/
def heavierFeed (s : State) : Feed := if 500 ≤ regFld s (ro pgSHARE 0x48) 0 10 then .a else .b

/-- The loop raises the target of the heavier feed by less than `bound` mV: how much no rule and no row says, a free value (R56,
log 5). -/
def raiseBelow (s : State) (bound : Nat) : State := tick (shareRaise s (heavierFeed s) ((freeWord s).toNat % bound))

/-- 4 REBALANCE is left for the steady state (R56, R57). -/
def leaveRebalance (s : State) : State :=
  let s1 := if regFld s (ro pgSHARE 0x40) 0 1 = 0 then s else raiseBelow s 151
  settleShare s { s1 with fd := { s1.fd with share := steadyShare s } }

/-- REBALANCE_SETTLED, with the shares reached (R57). -/
def execRebalanceSettled (permille : BitVec 10) (s : State) : Result :=
  .next (if s.fd.share = .rebalance then leaveRebalance (shareNow s permille) else s)

def execRebalanceTimeout (s : State) : Result := .next (if s.fd.share = .rebalance then leaveRebalance s else s)

/-- AT_LIMIT sets while both feeds are on and the loop runs: the raise of the heavier feed stands at 150 mV, 5 DUAL (R56, R57). -/
def execAtLimitSet (s : State) : Result :=
  .next (if bothOn s ∧ regFld s (ro pgSHARE 0x40) 0 1 = 1 then
    let s1 := shareRaise s (heavierFeed s) 150
    settleShare s { s1 with fd := { s1.fd with atLimit := true, share := .dual } } else s)

/-- AT_LIMIT clears once the raise stands below 150 mV; with both feeds on, 4 REBALANCE (R56, R57). -/
def execAtLimitClear (s : State) : Result :=
  .next (if s.fd.atLimit then
    let s1 := if bothOn s then raiseBelow s 150 else s
    settleShare s { s1 with fd := { s1.fd with atLimit := false, share := if bothOn s then .rebalance else s.fd.share } } else s)

/-- SH_CTRL is written; SHARE_EN 1 enters 4 REBALANCE while both feeds are on, and SHARE_EN 0 leaves both targets at 25 mV (R57). -/
def shCtrl (s : State) (v : Word) : State :=
  if !s.fd.supply then s else
  let s1 := writeReg s (ro pgSHARE 0x40) v
  let s1 := if bit v 0 then s1 else shareRest s1
  if !bothOn s1 then s1 else
  let share := if bit v 0 then .rebalance else if s1.fd.share = .rebalance then .rebalance else steadyShare s1
  settleShare s { s1 with fd := { s1.fd with share := share } }

def execShCtrlWrite (v : Word) (s : State) : Result := .next (shCtrl s v)

/-- SHARE_ERR: SHARE_EN 0, or the shares off by more than 10 % in 3 SHARING, for 100 ms while both feeds are on, and not in
4 REBALANCE (R58). -/
def execShareErr (permille : BitVec 10) (s : State) : Result :=
  .next (let s1 := shareNow s permille
    if shareBad s1 then postFree { s1 with fd := { s1.fd with shareErr := true } } pgSHARE 0 else s)

/-! ### Sags (R60) -/

/-- FD_SAG.SAG_V in 10 mV. -/
def sagV (s : State) (f : Feed) : Nat := regFld s (ro (pgFEED f) 0x54) 0 10 * 10

def execSagDetect (f : Feed) (v : BitVec 16) (s : State) : Result :=
  .next (if (feed s f).state.isOn ∧ v.toNat < sagV s f then
    let s1 := measV s f v
    pushIfChanged s (setFeed s1 f { feed s1 f with sag := true }) else s)

def execSagSustained (f : Feed) (v : BitVec 16) (s : State) : Result :=
  .next (if (feed s f).state.isOn ∧ (feed s f).sag ∧ v.toNat < sagV s f then
    let s1 := measV s f v
    let s2 := post (setFeed s1 f { feed s1 f with sagSust := true }) (pgFEED f) 6 (BitVec.ofNat 32 v.toNat)
    pushIfChanged s s2 else s)

/-- The voltage is back at SAG_V; a feed that is not on shows no sag at any voltage (R60). -/
def execSagClear (f : Feed) (v : BitVec 16) (s : State) : Result :=
  .next (let s1 := measV s f v
    if (feed s f).state.isOn ∧ v.toNat < sagV s f then s1
    else pushIfChanged s (setFeed s1 f { feed s1 f with sag := false, sagSust := false }))

/-- The lower SAG_V of the feeds in 6 ON or 7 LIMIT, in 10 mV; 0 where none is (R60). -/
def busSagV (s : State) : Nat := match s.feedA.state.isOn, s.feedB.state.isOn with
  | true, true => min (sagV s .a) (sagV s .b)
  | true, false => sagV s .a
  | false, true => sagV s .b
  | false, false => 0

/-- VSLED falls below the lower SAG_V of the conducting feeds: BUS_SAG (R60). -/
def execBusSagSet (vSled : BitVec 16) (s : State) : Result :=
  .next (if vSled.toNat < busSagV s then
    pushIfChanged s (postFree { s with fd := { s.fd with busSag := true } } pgSHARE 3) else s)

def execBusSagClear (vSled : BitVec 16) (s : State) : Result :=
  .next (if vSled.toNat < busSagV s then s else pushIfChanged s { s with fd := { s.fd with busSag := false } })

/-! ### Resets of the feed die (R17, R72) -/

/-- FRST: the FRST registers return to the profile's values, the restored settings are pushed; feeds, gates, sequencer, rails,
records and OFF stay (R72). FIELD_ZERO bits of restored fields clear with them. -/
def frst (s : State) : State :=
  if !s.fd.supply then s else
  let s1 := dropRegs .frst s
  let s1 := putReg (putReg (putReg s1 (ro 0x101 0x44) 9 1 0) (ro 0x102 0x44) 9 1 0) (ro pgPSEQ 0x44) 12 1 0
  let s1 := itripMoves (itripMoves s1 .a) .b
  let s1 := { s1 with fd := { s1.fd with mtSc := none } }
  let s1 := if bothOn s1 ∧ s1.fd.share ≠ .rebalance then { s1 with fd := { s1.fd with share := steadyShare s1 } } else s1
  feedPush (shareErrHolds s1)

/-- FS_RESET takes 0x0000_C1A5 only (FSYS page). -/
def execFsReset (v : Word) (s : State) : Result := .next (if v = 0xC1A5 then frst s else s)

def execFeedWatchdogReset (s : State) : Result := .next (frst s)

end Sys2Proof.Machine
end

