-- ==== Sys2Proof/Machine/Rails.lean ====
section
/-! DEFINITION. The rail sequencer of the feed die (02_feed_insertion.md, R62 to R70, and R604). -/

namespace Sys2Proof.Machine

/-- PS_STATE.STATE (PSEQ page). -/
def SeqState.code : SeqState → Nat
  | .idle => 0 | .step k => k.val | .up => 6 | .stopping => 7 | .stopped => 8 | .retryWait => 9 | .latched => 10

/-- Bit of a rail in PS_RAILS and its code in FAILED. -/
def railIdx : Rail → Nat
  | .ib => 0 | .core => 1 | .io => 2 | .aux => 3 | .hva => 4 | .hvb => 5

/-- The step of R62 that enables a rail. -/
def railStep : Rail → Nat
  | .ib => 1 | .core => 2 | .io => 3 | .aux => 4 | .hva => 5 | .hvb => 5

/-- EN and PG bits of the regulators of step `k` (R62). -/
def stepMask (k : Nat) : BitVec 6 := match k with
  | 1 => 0b000001 | 2 => 0b000010 | 3 => 0b000100 | 4 => 0b001000 | 5 => 0b110000 | _ => 0

/-- The sequencer is at step `k` with that step's enable high (R62). -/
def enterStep (r : RailSeq) (k : Fin 6) : RailSeq := { r with state := .step k, en := r.en ||| stepMask k.val }

/-- The down-sequence begins: EN_HVA and EN_HVB drop together (R64). -/
def startDown (r : RailSeq) (dest : SeqState) : RailSeq :=
  { r with state := .stopping, downNext := 1, downTo := dest, en := r.en &&& ~~~ stepMask 5, pg := r.pg &&& ~~~ stepMask 5 }

/-- The sequencer stands in a step of the up-sequence. -/
def SeqState.stepping : SeqState → Bool
  | .step _ => true | _ => false

/-- The feed die watches DTIN only while PG_AUX stays high (R604). -/
def watchDtin (r : RailSeq) : RailSeq := { r with dtinArmed := r.dtinArmed && r.pg.getLsbD 3 }

/-- A RAIL_FAIL (source 0) or RAIL_LOST (source 1): the power-good is low, FAILED, CONSEC, and the down-sequence into 9 RETRY_WAIT, or into
10 LATCHED at the third in a row (R63, R66). -/
def railFailed (s : State) (src : Nat) (rail : Rail) : State :=
  let n := s.rails.consec.toNat + 1
  let r := watchDtin { s.rails with failed := BitVec.ofNat 4 (railIdx rail), consec := BitVec.ofNat 4 (min n 15),
                                    pg := s.rails.pg &&& ~~~ BitVec.ofNat 6 (2 ^ railIdx rail) }
  postFree { s with rails := startDown r (if 3 ≤ n then .latched else .retryWait) } pgPSEQ src

/-- PG_IB asserts: step 1 of the up-sequence (R62). -/
def execRailSeqStart (s : State) : Result :=
  .next (if s.fd.pgIb ∧ s.rails.state = .idle then { s with rails := enterStep s.rails 1 } else s)

/-- A step's power-good has been high for STEP_MS: the next enable, or 6 UP after step 5 (R62). -/
def railStepDoneFx (r : RailSeq) : RailSeq := match r.state with
  | .step k =>
    let r := { r with pg := r.pg ||| stepMask k.val }
    if k.val = 5 then { r with state := .up } else enterStep r (k + 1)
  | _ => r

def execRailStepDone (s : State) : Result := .next { s with rails := railStepDoneFx s.rails }

/-- The awaited power-good of the running step does not arrive: RAIL_FAIL (R63). -/
def execRailPgTimeout (rail : Rail) (s : State) : Result :=
  .next (match s.rails.state with
    | .step k => if railStep rail = k.val then railFailed s 0 rail else s
    | _ => s)

/-- A power-good already met falls during the up-sequence: RAIL_FAIL (R63). -/
def execRailPgFall (rail : Rail) (s : State) : Result :=
  .next (if s.rails.state.stepping ∧ s.rails.pg.getLsbD (railIdx rail) then railFailed s 0 rail else s)

/-- The rail of a valve. -/
def valveRail : Valve → Rail
  | .va => .hva | .vb => .hvb

/-- PG_HVA or PG_HVB falls in 6 UP: that enable alone drops, HV_LOST_x; both down is RAIL_LOST (R65, R66). DESIGN CHOICE: FAILED then
holds the rail that falls second, since R66 does not say which (log 10). -/
def hvLostFx (s : State) (v : Valve) : State :=
  let i := railIdx (valveRail v)
  let j := railIdx (valveRail (match v with | .va => .vb | .vb => .va))
  if s.rails.state ≠ .up ∨ !s.rails.pg.getLsbD i then s
  else if !s.rails.pg.getLsbD j then railFailed s 1 (valveRail v)
  else
    let m : BitVec 6 := ~~~ BitVec.ofNat 6 (2 ^ i)
    postFree { s with rails := { s.rails with en := s.rails.en &&& m, pg := s.rails.pg &&& m } } pgPSEQ
      (match v with | .va => 2 | .vb => 3)

def execHvLost (v : Valve) (s : State) : Result := .next (hvLostFx s v)

/-- A shared power-good falls in 6 UP: RAIL_LOST and the down-sequence (R66). -/
def execRailLost (rail : Rail) (s : State) : Result :=
  .next (if s.rails.state = .up then railFailed s 1 rail else s)

/-- The next drop of the down-sequence: AUX, IO, CORE, IB; after the last the state it ends in (R63, R64). -/
def downStepFx (s : State) : State :=
  if s.rails.state ≠ .stopping then s else
  let m := stepMask (5 - s.rails.downNext)
  let r : RailSeq := watchDtin { s.rails with en := s.rails.en &&& ~~~ m, pg := s.rails.pg &&& ~~~ m,
                                              downNext := s.rails.downNext + 1 }
  if r.downNext ≤ 4 then { s with rails := r }
  else
    let s := { s with rails := { r with state := r.downTo } }
    if r.downTo = .latched then postFree s pgPSEQ 6 else s

def execDownSeqStep (s : State) : Result := .next (downStepFx s)

/-- 1,000 ms after entry to 9 RETRY_WAIT, step 1 again (R63). -/
def execRetryWaitExpired (s : State) : Result :=
  .next (if s.rails.state = .retryWait then { s with rails := enterStep s.rails 1 } else s)

/-- 60 s in 6 UP without a fall: CONSEC 0 (R63). -/
def execRailConsecReset (s : State) : Result :=
  .next (if s.rails.state = .up then { s with rails := { s.rails with consec := 0 } } else s)

/-- PG_IB deasserts: every enable low; 8 STOPPED and 10 LATCHED also clear CONSEC; 0 IDLE (R67, R70). -/
def execPgIbLossEnablesDrop (s : State) : Result :=
  .next (if s.fd.pgIb then s else
    { s with rails := { s.rails with
        en := 0, pg := 0, dtinArmed := false,
        consec := if s.rails.state = .stopped ∨ s.rails.state = .latched then 0 else s.rails.consec,
        state := .idle } })

/-- REFUSED_SETTING of PSEQ, with the PS_CTRL value (PSEQ page). -/
def psRefused (s : State) (v : Nat) : State := post s pgPSEQ 8 (BitVec.ofNat 32 v)

/-- ORDERLY_STOP of PSEQ for an accepted STOP. -/
def psStopped (s : State) (r : RailSeq) : State := postFree { s with rails := r } pgPSEQ 5

/-- PS_CTRL.STOP (R68). -/
def psStop (s : State) : State :=
  if !s.fd.supply then s else
  match s.rails.state with
  | .step _ => psStopped s (startDown s.rails .stopped)
  | .up => psStopped s (startDown s.rails .stopped)
  | .stopping => psStopped s (if s.rails.downTo = .latched then s.rails else { s.rails with downTo := .stopped })
  | .retryWait => psStopped s { s.rails with state := .stopped }
  | _ => psRefused s 1

/-- STOP has been accepted (R68). -/
def stopAccepted (s : State) : Bool := s.rails.state == .stopping || s.rails.state == .stopped

def execPsStop (s : State) : Result := .next (psStop s)

/-- PS_CTRL.START: from 8 STOPPED only (R70). -/
def psStart (s : State) : State :=
  if !s.fd.supply then s
  else if s.rails.state = .stopped then { s with rails := enterStep s.rails 1 } else psRefused s 2

def execPsStart (s : State) : Result := .next (psStart s)

/-- PS_CTRL.CLR_LATCH: from 10 LATCHED to 8 STOPPED with CONSEC 0 (R70). -/
def psClrLatch (s : State) : State :=
  if !s.fd.supply then s
  else if s.rails.state = .latched then { s with rails := { s.rails with state := .stopped, consec := 0 } } else psRefused s 4

def execPsClrLatch (s : State) : Result := .next (psClrLatch s)

/-- PS_CTRL: one bit performs its command, more than one is discarded with BAD_ENCODING (PSEQ page). -/
def psCtrl (s : State) (v : Word) : State :=
  match fld v 0 3 with
  | 0 => s
  | 1 => psStop s
  | 2 => psStart s
  | 4 => psClrLatch s
  | _ => if s.fd.supply then badEncoding s pgPSEQ 0x40 else s

/-- PG_AUX has been high for 1 ms: the feed die watches DTIN (R604). -/
def execDtinArmed (s : State) : Result :=
  .next (if s.rails.pg.getLsbD 3 then { s with rails := { s.rails with dtinArmed := true } } else s)

/-- T_crit: every enable but EN_IB drops, T_CRIT_STOP, 8 STOPPED. DEDUCED: 10 LATCHED stays, which only the events of R70 leave
(R69, R70; log 10). Which crossed, DTIN or the feed die's own diode, the row does not say: a free value (log 5); DTIN is ignored
until it is watched (R604). -/
def tCrit (s : State) : State :=
  if !s.fd.supply then s else
  let byDtin := bit (freeWord s) 0
  let s := tick s
  if byDtin && !s.rails.dtinArmed then s else
  postFree { s with rails := { s.rails with
    en := s.rails.en &&& 1, pg := s.rails.pg &&& 1,
    dtinArmed := false, state := if s.rails.state = .latched then .latched else .stopped } } pgPSEQ 4

def execTCritStop (s : State) : Result := .next (tCrit s)

end Sys2Proof.Machine
end

