-- ==== Sys2Proof/Machine/Operands.lean ====
section
/-! DEFINITION. How a BAR0 or BAR2 access is judged before it acts: the order of R607 with the checks of R441, and what
each refusal records (R34, R85, R442, R571, R573). -/

namespace Sys2Proof.Machine

/-- The conditions of R607 in their order; `ok` where none is met. -/
inductive Verdict | hole | form | stage | mute | level | lock | slot | domain | feed | ok
  deriving DecidableEq, Repr

/-- One BAR access as the checks see it. -/
structure Access where
  fn : Fn
  bar2 : Bool := false
  off : Nat
  write : Bool := false
  formOk : Bool := true
  /-- the least privileged level the page's or window's rule admits: 0 P0, 1 P1, 2 P2, and 3 for nobody -/
  lvl : Nat := 2
  /-- the plan slot a P1 write of PL_CMD or COMMIT_NOW names -/
  slot : Option Nat := none
  /-- the bytes [lo, hi) that the TLP writes in the submission-queue window -/
  lo : Nat := off
  hi : Nat := off + 4
  deriving DecidableEq, Repr

/-- The function can be reached: the drive die has power, the link is up and the function is in D0 (R436, R438). -/
def hostReach (s : State) (fn : Fn) : Bool := driveOn s && s.host.linkUp && !s.host.d3.getLsbD (fnNum fn)

/-- The pages that the stage view opens (R85). -/
def stageView (page : Nat) : Bool :=
  isFeedPage page || page ∈ [pgSYS, pgCLK, pgPWR, pgBELL, pgPROT, pgHOST, pgPARK, pgIDL, pgBOOT]

/-- The stage view closes everything else at stage 2, which HELD does not leave (R85, R105). -/
def stageClosed (s : State) : Bool := decide (s.boot.stage.val ≤ 2)

/-- The region of a BAR2 offset, if it lies in a window (R577). -/
def windowOf (o : Nat) : Option Nat :=
  if o < 0x40_0000 then some 0 else if o < 0x50_0000 then some 1 else if o < 0x60_0000 then some 2
  else if o < 0x80_0000 then some 3 else if o < 0xA0_0000 then some 4 else if o < 0xAC_0000 then some 5
  else if 0xB0_0000 ≤ o ∧ o < 0xB8_0000 then some 6 else if 0xC0_0000 ≤ o ∧ o < 0xD0_0000 then some 7
  else if 0x100_0000 ≤ o ∧ o < 0x140_0000 then some 8 else if 0x140_0000 ≤ o ∧ o < 0x180_0000 then some 9
  else none

/-- The BAR2 offset at which a window begins (R577). -/
def windowStart (r : Nat) : Nat := match r with
  | 0 => 0 | 1 => 0x40_0000 | 2 => 0x50_0000 | 3 => 0x60_0000 | 4 => 0x80_0000 | 5 => 0xA0_0000
  | 6 => 0xB0_0000 | 7 => 0xC0_0000 | 8 => 0x100_0000 | _ => 0x140_0000

/-- The Bore address at which a window begins (R577). -/
def windowBase (r : Nat) : Nat := match r with
  | 0 => 0 | 1 => 0x40_0000 | 2 => 0x50_0000 | 3 => 0x60_0000 | 4 => 0x80_0000 | 5 => 0xA0_0000
  | 6 => 0xAC_0000 | 7 => 0xC0_0000 | 8 => 0xD0_0000 | _ => 0x110_0000

/-- The Bore address of a BAR2 offset in window `r`. -/
def windowAddr (r o : Nat) : Nat := windowBase r + (o - windowStart r)

/-- The least privileged level that may write a window: 3 where none may (the ceilings of 13_host_protection.md). -/
def windowWriteLvl (r : Nat) : Nat :=
  match r with | 0 => 2 | 1 => 3 | 2 => 3 | 3 => 3 | 7 => 3 | _ => 1

/-- A function may write bytes [lo, hi) of the submission-queue window: an enabled SQ bound to it covers them all (R443). -/
def sqCovers (s : State) (fn : Fn) (lo hi : Nat) : Bool :=
  (List.range 64).any (fun q =>
    let c := getReg s (ro pgCMDQ (0x104 + 16 * q))
    let base := fld (getReg s (ro pgCMDQ (0x100 + 16 * q))) 6 16 * 64
    bit c 0 && fld c 1 2 == fnNum fn && decide (base ≤ lo) && decide (hi ≤ base + fld c 16 13 * 64))

/-- A level's function is muted for writes, or hidden for reads (PR_FN_CTRL). -/
def muted (s : State) (fn : Fn) (write : Bool) : Bool :=
  fn != .pf0 && bit (getReg s (ro pgPROT 0x40)) (fnNum fn + if write then 0 else 4)

/-- A page's WLOCK or RLOCK excludes the level (R444). -/
def locked (s : State) (fn : Fn) (page : Nat) (write : Bool) : Bool :=
  fn != .pf0 && bit (getReg s (ro page 0x28)) (fnNum fn + if write then 0 else 4)

/-- A window's PR_WIN excludes the level. -/
def winLocked (s : State) (fn : Fn) (r : Nat) (write : Bool) : Bool :=
  fn != .pf0 && !bit (getReg s (ro pgPROT (0x100 + 4 * r))) (fnNum fn + if write then 0 else 4)

/-- The level of a function is below what the rule admits (R439 to R441). -/
def tooLow (fn : Fn) (lvl : Nat) : Bool := decide (2 < lvl) || decide (lvl < fnNum fn)

/-- R607 for a BAR0 access. -/
def judge0 (s : State) (a : Access) : Verdict :=
  let page := a.off / 4096
  if !isPage page then .hole
  else if !a.formOk then .form
  else if stageClosed s && !stageView page then .stage
  else if muted s a.fn a.write then .mute
  else if isFeedPage page then (if idlUp s then .ok else .feed)
  else if a.write && tooLow a.fn a.lvl then .level
  else if locked s a.fn page a.write then .lock
  else if a.write && a.fn == .pf1 && (match a.slot with
      | some k => !bit (getReg s (ro pgPROT 0x44)) k
      | none => false) then .slot
  else if !domOn s (pageDom page) then .domain
  else .ok

/-- R607 for one DW of a BAR2 access; every window is open to reads at P2, but for PR_WIN. -/
def judge2 (s : State) (a : Access) : Verdict :=
  match windowOf a.off with
  | none => .hole
  | some r =>
    if stageClosed s then .stage
    else if muted s a.fn a.write then .mute
    else if a.write && (tooLow a.fn (windowWriteLvl r) || (r == 0 && a.fn != .pf0 && !sqCovers s a.fn a.lo a.hi)) then .level
    else if winLocked s a.fn r a.write then .lock
    else if !domOn s (4 + r / 7) then .domain
    else .ok

/-- The judgement of an access. -/
def judge (s : State) (a : Access) : Verdict := if a.bar2 then judge2 s a else judge0 s a

/-- FN of PR_DENY_LAST: 0 PF1, 1 PF2, 2 PF0. -/
def denyFn (fn : Fn) : Nat := match fn with | .pf1 => 0 | .pf2 => 1 | .pf0 => 2

/-- A refusal is counted, detailed and reported (R442). -/
def denied (s : State) (a : Access) (kind : Nat) : State :=
  let d := pack [(0, 24, a.off / 4), (24, 2, denyFn a.fn), (26, 3, kind), (29, 1, b2n a.bar2)]
  let s := bumpReg s (ro pgPROT 0x4C) 0 16
  post (setReg s (ro pgPROT 0x50) d) pgPROT 0 d kind

/-- OFFSET[27:0] and BAR[31] of an access (R85, R571). -/
def accessDetail (a : Access) : Word := pack [(0, 28, a.off), (31, 1, b2n a.bar2)]

/-- What the condition that decides an access records: its one fault source (R607). -/
def onVerdict (s : State) (a : Access) (v : Verdict) : State := match v with
  | .hole => post s pgSYS 0 (accessDetail a)
  | .form => denied s a 5
  | .stage => post s pgBOOT 13 (accessDetail a)
  | .mute => denied s a 4
  | .level => denied s a (if a.bar2 then 2 else 0)
  | .lock => denied s a (if a.bar2 then 2 else 1)
  | .slot => denied s a 3
  | .domain => post s pgPWR 14 (BitVec.ofNat 32 (a.off / 4096))
  | .feed => post (satReg s (ro pgIDL 0x54) 0 16) pgIDL 3 (BitVec.ofNat 32 a.off)
  | .ok => s

/-- The data a read returns when a condition of R607 decides it: all ones for a refusal, zero otherwise. -/
def Verdict.data : Verdict → Word
  | .form => 0xFFFF_FFFF | .mute => 0xFFFF_FFFF | .level => 0xFFFF_FFFF | .lock => 0xFFFF_FFFF | .slot => 0xFFFF_FFFF
  | _ => 0

/-- An access that passes R607 has effect `k`; otherwise the deciding condition alone acts. A function that cannot be reached
makes no access. -/
def guarded (s : State) (a : Access) (k : State → State) : State :=
  if !hostReach s a.fn then s else
  match judge s a with
  | .ok => k s
  | v => onVerdict s a v

/-- A BAR0 write of page `page`, offset `o`, at level `lvl` or above. -/
def wr (s : State) (fn : Fn) (page o lvl : Nat) (k : State → State) : State :=
  guarded s { fn := fn, off := ro page o, write := true, lvl := lvl } k

/-- The read data goes to the host (log 14). -/
def answer (s : State) (v : Word) (poisoned : Bool := false) : State :=
  { s with host := { s.host with rdata := v, rmore := [], poisoned := poisoned } }

/-- A BAR0 read of a register whose read has an effect: the value and the state after it. -/
def rd (s : State) (fn : Fn) (page o : Nat) (k : State → Word × State) : State :=
  if !hostReach s fn then s else
  let a : Access := { fn := fn, off := ro page o }
  match judge s a with
  | .ok => answer (k s).2 (k s).1
  | v => answer (onVerdict s a v) v.data

/-- A write of a lower level leaves the bits of `mask` as they are; it counts as a refusal when it would have changed them
(R616). -/
def partialLevel (s : State) (fn : Fn) (off lvl : Nat) (mask v : Word) : State × Word :=
  if !tooLow fn lvl then (s, v) else
  let old := getReg s off
  let s' := if v &&& mask = old &&& mask then s else denied s { fn := fn, off := off, write := true, lvl := lvl } 0
  (s', (v &&& ~~~ mask) ||| (old &&& mask))

end Sys2Proof.Machine
end

