-- ==== Sys2Proof/Machine/Slots.lean ====
section
/-! DEFINITION. The sparse tables of State by their index, the completion of a JCP command (R406, R408, R410, R433), the words
of a plan slot (R185), the completion of a commit request (R215, R216) and the redo of stage work (R26, R192). -/

namespace Sys2Proof.Machine

/-! ### Tables by index -/

def chan (s : State) (ch : Nat) : ChanSt := tabGet (fun _ => {}) s.chans ch
def setChan (s : State) (ch : Nat) (c : ChanSt) : State := { s with chans := tabSet (fun _ => {}) s.chans ch c }
def tile (s : State) (t : Nat) : TileSt := tabGet (fun _ => {}) s.tiles t
def setTile (s : State) (t : Nat) (x : TileSt) : State := { s with tiles := tabSet (fun _ => {}) s.tiles t x }
def reed (s : State) (r : Nat) : ReedSt := tabGet (fun _ => {}) s.reeds r
def setReed (s : State) (r : Nat) (x : ReedSt) : State := { s with reeds := tabSet (fun _ => {}) s.reeds r x }
def loopCh (s : State) (ch : Nat) : LoopCh := tabGet (fun _ => {}) s.loops ch
def setLoopCh (s : State) (ch : Nat) (x : LoopCh) : State := { s with loops := tabSet (fun _ => {}) s.loops ch x }
def slot (s : State) (k : Nat) : SlotSt := tabGet (fun _ => {}) s.slots k
def setSlot (s : State) (k : Nat) (x : SlotSt) : State := { s with slots := tabSet (fun _ => {}) s.slots k x }
def tab (s : State) (k : Nat) : TabCmd := tabGet (fun _ => {}) s.tabs k
def setTab (s : State) (k : Nat) (x : TabCmd) : State := { s with tabs := tabSet (fun _ => {}) s.tabs k x }
/-- The pending commit request of a slot. -/
def req (s : State) (k : Nat) : Option Req := s.reqs.lookup k
def setReq (s : State) (k : Nat) (r : Req) : State := { s with reqs := tabIns s.reqs k r }
def delReq (s : State) (k : Nat) : State := { s with reqs := tabDel s.reqs k }

/-- The CAL kinds as indices of `tabs`: STAB, TONGUE, MEAS, CAL, LOOP, THM. -/
abbrev kST : Nat := 0
abbrev kTG : Nat := 1
abbrev kMS : Nat := 2
abbrev kCL : Nat := 3
abbrev kLP : Nat := 4
abbrev kTH : Nat := 5

/-- The slots, 0 to 15. -/
def slotList : List Nat := List.range 16

/-! ### Conditions that many blocks read -/

/-- SHAPES, XTALK and SCHED in force (R104, BT_PAIR.FEAT). -/
def featOn (s : State) (i : Nat) : Bool := s.boot.feat.getLsbD i

/-- Band B0 to B5 in force (R374, R375). -/
def band (s : State) : Nat := s.thermal.band.val

/-- The ladder's level (R533). -/
def level (s : State) : Nat := s.power.level.val

/-- SHAPES_ON: SHAPES in force and the level below L2 (TONGUE page). -/
def shapesOn (s : State) : Bool := featOn s 0 && decide (level s < 2)

/-- FD_STATE of a feed as the last applied push gives it (R23, R112). -/
def pushedState (s : State) (f : Feed) : Nat := fld s.idl.push0 (match f with | .a => 0 | .b => 4) 4

/-- The last push shows a feed in 6 ON or 7 LIMIT. -/
def pushedOn (s : State) (f : Feed) : Bool := pushedState s f == 6 || pushedState s f == 7

/-- The last push shows SAG on a feed. -/
def pushedSag (s : State) (f : Feed) : Bool := bit s.idl.push1 (match f with | .a => 4 | .b => 5)

/-- Admission cannot run: the IDL is down, no full push has arrived, or no feed is on (R226). -/
def admitBlocked (s : State) : Bool := !(idlUp s && s.idl.pushOk) || !(pushedOn s .a || pushedOn s .b)

/-- The fast state is 2 RUN: stage-time work runs and strobes issue (R525, R526). -/
def inRun (s : State) : Bool := s.power.fast == .run

/-- A table page's BUSY. -/
def tabBusy (s : State) (k : Nat) : Bool := (tab s k).running != 0

/-! ### Completing a JCP command -/

/-- JC_SQ_CTRL and JC_CQ_CTRL of a queue. -/
def sqCtrl (s : State) (q : Nat) : Word := getReg s (ro pgCMDQ (0x104 + 16 * q))
def cqCtrl (s : State) (q : Nat) : Word := getReg s (ro pgCMDQ (0x504 + 16 * q))
/-- FN, CQ and DEPTH of an SQ; DEPTH of a CQ. -/
def sqFn (s : State) (q : Nat) : Nat := fld (sqCtrl s q) 1 2
def sqCq (s : State) (q : Nat) : Nat := fld (sqCtrl s q) 4 6
def sqDepth (s : State) (q : Nat) : Nat := fld (sqCtrl s q) 16 13
def cqDepth (s : State) (q : Nat) : Nat := fld (cqCtrl s q) 16 13
def sq (s : State) (q : Nat) : SqSt := tabGet (fun _ => {}) s.cmdq.sqs q
def setSq (s : State) (q : Nat) (x : SqSt) : State :=
  { s with cmdq := { s.cmdq with sqs := tabSet (fun _ => {}) s.cmdq.sqs q x } }
def cq (s : State) (q : Nat) : CqSt := tabGet (fun _ => {}) s.cmdq.cqs q
def setCq (s : State) (q : Nat) (x : CqSt) : State :=
  { s with cmdq := { s.cmdq with cqs := tabSet (fun _ => {}) s.cmdq.cqs q x } }
/-- The command that holds a tag. -/
def cmdOf (s : State) (tag : Nat) : Option Cmd := s.cmdq.cmds.find? (fun c => c.tag == tag)
/-- A command's entry is replaced. -/
def setCmd (s : State) (c : Cmd) : State :=
  { s with cmdq := { s.cmdq with cmds := s.cmdq.cmds.map (fun d => if d.tag == c.tag then c else d) } }
/-- A tag is freed. -/
def freeTag (s : State) (tag : Nat) : State :=
  { s with cmdq := { s.cmdq with cmds := s.cmdq.cmds.filter (fun d => d.tag != tag) } }
/-- A feed-page access whose command is gone: the value of a read goes nowhere. -/
def FeedWait.orphan (w : FeedWait) : FeedWait :=
  if w.tag.isNone then w else { w with tag := none, fn := if w.data.isNone then 3 else w.fn }

/-- A change whose command is gone. -/
def MetaChange.orphan (tag : Nat) : MetaChange → MetaChange
  | .cal kind image len (some t) => .cal kind image len (if t = tag then none else some t)
  | c => c

/-- A command of the fabric whose JCP command is gone. -/
def FabCmd.orphan (tag : Nat) : FabCmd → FabCmd
  | .plan c k n (some t) => .plan c k n (if t.val = tag then none else some t)
  | .table k c (some t) => .table k c (if t.val = tag then none else some t)
  | c => c

/-- A tag is dropped: nothing that waits for it will complete a later command (R415, R437). -/
def dropTag (s : State) (tag : Nat) : State :=
  let is (t : Option Tag) : Bool := t.map (·.val) == some tag
  let s := freeTag s tag
  let wait (p : FeedWait) : FeedWait := if is p.tag then p.orphan else p
  { s with
    reqs := s.reqs.map (fun p => if is p.2.tag then (p.1, { p.2 with tag := none }) else p),
    tabs := (s.tabs.map (fun p => if is p.2.tag then (p.1, { p.2 with tag := none }) else p)).filter (fun p => decide (p.2 ≠ {})),
    cmdq := { s.cmdq with schedTag := s.cmdq.schedTag.filter (fun p => p.2 != tag) },
    flash := { s.flash with pending := s.flash.pending.map (MetaChange.orphan tag) },
    fabWait := s.fabWait.map (FabCmd.orphan tag),
    idl := { s.idl with wrWait := s.idl.wrWait.map wait, rdWait := s.idl.rdWait.map wait, heldAcc := s.idl.heldAcc.map wait } }

/-- Commands of an SQ in flight. -/
def inflight (s : State) (q : Nat) : Nat :=
  (s.cmdq.cmds.filter (fun c => c.sq == q)).length + (s.cmdq.fetched.filter (fun c => c.sq == q)).length

/-- Slots of a CQ that commands have reserved, and those that are free, counting reserved and unconsumed entries (R405, R406). -/
def cqReserved (s : State) (q : Nat) : Nat := (s.cmdq.cmds.filter (fun c => c.cq == some q)).length
def cqFree (s : State) (q : Nat) : Nat :=
  if !bit (cqCtrl s q) 0 then 0 else cqDepth s q - ((cq s q).used + cqReserved s q)

/-- CID of a command; 0xFFFF when its word 0 failed parity (R409). -/
def Cmd.cid (c : Cmd) : Nat := if c.bad.getLsbD 0 then 0xFFFF else fld c.w0 16 16

/-- A CQ raises its interrupt when COUNT completions have gathered, on the vector and function of its SQs (R433). -/
def cqSignal (s : State) (q fn : Nat) (force : Bool := false) : State :=
  let x := cq s q
  let n := regFld s (ro pgCMDQ (0x508 + 16 * q)) 0 8
  if !bit (cqCtrl s q) 1 then s
  else if force || n ≤ x.unsig then setCq (sendMsi s fn (fld (cqCtrl s q) 4 5)) q { x with unsig := 0 }
  else s

/-- A completion is written into the CQ entry and its shadow, counted and signalled; the tag is freed (R406, R408, R410). -/
def writeCompletion (s : State) (c : Cmd) (q sct sc : Nat) (dw0 dw1 : Word) : State :=
  let x := cq s q
  let base := fld (getReg s (ro pgCMDQ (0x500 + 16 * q))) 4 16 * 16 + x.tail.toNat * 16
  let ws : List Word := [dw0, dw1, pack [(0, 12, c.head.toNat), (12, 6, c.sq), (18, 9, c.tag)],
    pack [(0, 16, c.cid), (16, 8, sc), (24, 3, sct), (27, 1, b2n x.phase)]]
  let s := setBores (setBores s (0x40_0000 + base) ws) (0x150_0000 + base) ws
  let wrap := decide (cqDepth s q ≤ x.tail.toNat + 1)
  let s := setCq s q { x with
    tail := if wrap then 0 else x.tail + 1, phase := if wrap then !x.phase else x.phase, used := x.used + 1,
    unsig := x.unsig + 1, unsigFrom := if x.unsig = 0 then s.now else x.unsigFrom, fn := c.fn }
  let s := bumpReg s (ro pgCMDQ 0x54) 0 32
  let s := if sc ≠ 0 then bumpReg s (ro pgCMDQ 0x58) 16 16 else s
  cqSignal (freeTag s c.tag) q c.fn

/-- A command is over: its completion takes the slot that it reserved, or a free one of its SQ's CQ, or waits for one (R406). -/
def complete (s : State) (tag sct sc : Nat) (dw0 dw1 : Word) : State :=
  match cmdOf s tag with
  | none => s
  | some c =>
    match c.cq with
    | some q => writeCompletion s c q sct sc dw0 dw1
    | none =>
      if 0 < cqFree s (sqCq s c.sq) then writeCompletion s c (sqCq s c.sq) sct sc dw0 dw1
      else setCmd s { c with stage := .done, res := some (sct, sc, dw0, dw1) }

/-- Slots of a CQ have come free: completions that wait for one are written (R406). -/
def flushCq (s : State) (q : Nat) : State :=
  (s.cmdq.cmds.filter (fun c => c.stage == .done && sqCq s c.sq == q)).foldl (fun s c => match c.res with
    | some (sct, sc, d0, d1) => complete s c.tag sct sc d0 d1
    | none => s) s

/-! ### Plan slots -/

/-- PL_SLOT.STATE (R185). -/
def SlotState.code : SlotState → Nat
  | .empty => 0 | .staging => 1 | .expanded => 2 | .admitted => 3 | .armed => 4 | .committed => 5 | .rejected => 6

/-- PL_SLOT of a slot (PLAN page). -/
def slotWord (x : SlotSt) : Word :=
  pack [(0, 3, x.state.code), (3, 1, b2n x.ready), (4, 5, x.reason.toNat), (9, 1, b2n (x.work != .none)),
    (10, 1, b2n x.xt), (16, 16, x.deltas.toNat)]

/-- The slot has entries in a tile (R213). -/
def inTile (x : SlotSt) (t : Nat) : Bool := x.entries.any (fun e => e.ch / 1024 == t)

/-- The tiles in which a slot has entries. -/
def slotTiles (x : SlotSt) : List Nat := (List.range 32).filter (inTile x)

/-- The command is a PLAN of slot `k` that waits for the slot's WORK (R417). -/
def Cmd.waitsPlan (c : Cmd) (k : Nat) : Bool :=
  c.stage == .handed && fld c.w0 0 8 == 0x10 && fld (c.cdw.headD 0) 4 4 == k

/-- WORK has returned to 0: each PLAN command that waits completes, with 4 REJECTED for a rejected plan (R417, R423). -/
def planDone (s : State) (k : Nat) : State :=
  let x := slot s k
  let rej := decide (x.state = .rejected)
  ((s.cmdq.cmds.filter (·.waitsPlan k)).map (·.tag)).foldl (fun s tag =>
    complete s tag (if rej then 1 else 0) (if rej then 4 else 0) (slotWord x) (BitVec.ofNat 32 x.entries.length)) s

/-! ### Commit requests -/

/-- Shelf time in cc (R546): 64 bits. -/
def shelfNow (s : State) : Nat := s.shelf.time16 / 16 % 2 ^ 64

/-- The path latency of a source in RUN (R199). -/
def pathLat (src : Nat) : Nat := match src with | 0 => 3 | 1 => 3 | 2 => 7 | _ => 7

/-- The local source of a result of R215 on the COMMIT page. -/
def resultSource (result : Nat) : Option Nat := match result with
  | 7 => some 0 | 8 => some 2 | 6 => some 3 | 5 => some 4 | _ => none

/-- A record waits for the core's copy to JOURNAL. -/
def journal (s : State) (type : Byte) (ws : List Word) (src : Option Nat := none) : State :=
  { s with flash := { s.flash with journalQ := s.flash.journalQ ++ [{ type := type, words := ws, src := src }] } }

/-- A commit record is staged in the Bore's telemetry staging region, from which the core copies it to JOURNAL (R216). The region is
used as a ring of 131,072 records (DESIGN CHOICE, log 9). -/
def stageRecord (s : State) (ws : List Word) : State :=
  let a := 0x60_0000 + s.flash.staged % 131072 * 16
  let s := journal (setBores s a ws) 4 ws (some a)
  { s with flash := { s.flash with staged := s.flash.staged + 1 } }

/-- A request completes: CM_RES, CM_STAT, the interrupt, the commit record and a JCP completion (R208, R215, R216, R230). -/
def finish (s : State) (k src : Nat) (cut : Bool) (result groups : Nat) (arrived : Nat) (tag : Option Nat) : State :=
  let lat := min (s.now - arrived) 0xFF_FFFF
  let jt := if src = 3 then tag.getD 0 else 0
  let w0 := pack [(0, 4, k), (4, 2, src), (6, 1, b2n cut), (8, 5, result), (13, 5, groups), (23, 9, jt)]
  let w1 : Word := BitVec.ofNat 32 lat
  let t := shelfNow s
  let res := ro pgCOMMIT (0x180 + 4 * k)
  let s := putReg (putReg (bumpReg s res 16 16) res 0 5 result) res 5 2 src
  let s := putReg (putReg s (ro pgCOMMIT 0x4C) 20 4 k) (ro pgCOMMIT 0x4C) 24 5 result
  let s := setReg s (ro pgCOMMIT 0x58) (pack [(0, 24, lat), (24, 2, src)])
  let s := stageRecord s [w0, w1, BitVec.ofNat 32 t, BitVec.ofNat 32 (t / 2 ^ 32)]
  let s := irqSet s pgCOMMIT (if result = 0 then 1 else 2)
  let s := match resultSource result with
    | some src' => post s pgCOMMIT src' (BitVec.ofNat 32 k) (if srcClass pgCOMMIT src' = 2 then result else 0)
    | none => s
  match tag with
  | some tg => complete s tg (if result = 0 then 0 else 1) result w0 w1
  | none => s

/-- The pending request of a slot, if any, completes without a strobe (R203, R205). -/
def endReq (s : State) (k result : Nat) : State :=
  match req s k with
  | none => s
  | some r =>
    let s := delReq s k
    let s := if result = 7 then bumpReg s (ro pgCOMMIT 0x54) 0 16 else s
    finish s k r.src.toNat r.cut result 0 r.arrived (r.tag.map (·.val))

/-! ### Redo of stage work -/

/-- A slot's admission and, for an armed slot, its copy run again; READY clears (R26, R192, R225). -/
def redoSlot (s : State) (cause k : Nat) : State :=
  let x := slot s k
  let s := bumpReg s (ro pgPLAN 0x50) 0 16
  let s := post s pgPLAN 3 (pack [(0, 4, k), (4, 1, cause)])
  let wait := admitBlocked s
  let s := setSlot s k { x with ready := false, waitAdmit := wait, work := if x.state = .armed then .redo else .admission }
  if wait && !x.waitAdmit then post s pgBREATH 3 (BitVec.ofNat 32 k) else s

/-- An input of R26 changes for the slots that `p` names: every slot in 3 ADMITTED or 4 ARMED is redone. -/
def redoIf (s : State) (p : SlotSt → Bool) : State :=
  slotList.foldl (fun s k =>
    let x := slot s k
    if (x.state = .armed ∨ x.state = .admitted) ∧ p x then redoSlot s 0 k else s) s

/-- An input of R26 changes. -/
def redoAll (s : State) : State := redoIf s (fun _ => true)

/-- A strobe of `but`, or a park event, reaches tiles: every other armed slot with entries there is redone, once (R192). -/
def redoTiles (s : State) (ts : List Nat) (but : Option Nat := none) : State :=
  slotList.foldl (fun s k =>
    let x := slot s k
    if x.state = .armed ∧ but ≠ some k ∧ ts.any (inTile x) then redoSlot s 1 k else s) s

/-- One tile is reached. -/
def redoTile (s : State) (t : Nat) : State := redoTiles s [t]

/-- READY of every armed slot clears, and each owes its redo (R33, R525, R527). -/
def dropReady (s : State) : State :=
  slotList.foldl (fun s k =>
    let x := slot s k
    if x.state = .armed then setSlot s k { x with ready := false, work := .redo } else s) s

end Sys2Proof.Machine
end

