-- ==== Sys2Proof/Machine/Tongue.lean ====
section
/-! DEFINITION. Channel currents, the load register and its writers in the order of R27, and the tongue players
(R123 to R131, R233 to R240, R336, R337; 04_drive_channels.md, 07_tongue_shapes.md). -/

namespace Sys2Proof.Machine

/-! ### Currents -/

/-- Current of a code in a range in units of 0.3125 nA, so that 1 mA is 3,200,000 units (R123). -/
def codeCurrent (code : Nat) (range : Bool) : Nat := code * if range then 400 else 100

/-- 1 % of a range's full scale in the same units (R123, R132). -/
def onePercent (range : Bool) : Nat := if range then 262144 else 65536

/-- One mA in the same units. -/
abbrev mA : Nat := 3200000

/-- The current of a channel's active code, 0 A when it is fused (R28). -/
def chanCurrent (c : ChanSt) : Nat := if c.fuse = .clear then codeCurrent c.code.toNat c.range else 0

/-- The channel is in a range change: 32 cc, in 8 steps of 4 (R131). -/
def changing (c : ChanSt) (now : Nat) : Bool := match c.change with
  | some (_, _, t0) => decide (now < t0 + 32)
  | none => false

/-- The output of a channel in units of 1/8 of 0.3125 nA: in a range change both output stages conduct, and after step k the old one
carries (8 - k)/8 of its current and the new one k/8 of its own (R131). -/
def chanOut (c : ChanSt) (now : Nat) : Nat :=
  let new := chanCurrent c
  match c.change with
  | some (code, range, t0) =>
    let k := min ((now - t0) / 4) 8
    (8 - k) * codeCurrent code.toNat range + k * new
  | none => 8 * new

/-- The limiter threshold is that of range H: in range H, and in a change from or to it (R134, R135). -/
def limitsHigh (c : ChanSt) (now : Nat) : Bool :=
  c.range || (changing c now && (match c.change with | some (_, r, _) => r | none => false))

/-- ISUM of a tile (R155). -/
def isum (s : State) (t : Nat) : Nat :=
  s.chans.foldl (fun n p => if p.1 / 1024 = t then n + chanCurrent p.2 else n) 0

/-! ### Shapes -/

/-- Bore address of shape `i` of bank `b` (R241). -/
def shapeAddr (b i : Nat) : Nat := 0xA0_0000 + b * 0x2_0000 + i * 32

/-- The eight words of a shape. -/
def shapeWords (s : State) (b i : Nat) : List Word := boreWords s (shapeAddr b i) 8

/-- The segments of a shape before its ending segment (R233, R234). -/
def rawSegs : List Word → List Seg
  | [] => []
  | w :: ws => if fld w 16 16 = 0 then [] else { amp := signed 16 (fld w 0 16), dur := fld w 16 16 } :: rawSegs ws

/-- Segments cut so that their sum does not exceed `left` cc (R235). -/
def capSegs (left : Nat) : List Seg → List Seg
  | [] => []
  | g :: gs => if left = 0 then [] else if left < g.dur then [{ g with dur := left }] else g :: capSegs (left - g.dur) gs

/-- Sum of the DUR fields. -/
def segsLen (gs : List Seg) : Nat := gs.foldl (fun n g => n + g.dur) 0

/-- The segments that play of shape `i` in bank `b`. -/
def shapeSegs (s : State) (b i : Nat) : List Seg := capSegs 65535 (rawSegs (shapeWords s b i))

/-- The sum of a shape's DUR fields exceeds 65,535 cc (R235). -/
def shapeLong (s : State) (b i : Nat) : Bool := decide (65535 < segsLen (rawSegs (shapeWords s b i)))

/-- C_k of R237 before and after the clamp. -/
def rawCode (cOld final : Nat) (amp : Int) : Int := cOld + roundDiv (amp * ((final : Int) - cOld)) 16384
def segCode (cOld final : Nat) (amp : Int) : Nat := (clampI 0 65535 (rawCode cOld final amp)).toNat

/-- The clamp changes the code of a segment (R239). -/
def clamps (cOld final : Nat) (amp : Int) : Bool :=
  decide (rawCode cOld final amp < 0) || decide (65535 < rawCode cOld final amp)

/-! ### Loop base (R336, R337) -/

/-- TRIM of a channel: active code minus BASE. -/
def trim (c : ChanSt) (l : LoopCh) : Int := if l.based then (c.code.toNat : Int) - l.base.toNat else 0

/-- BASE is set; the TRIM reached goes to LAST_TRIM, and LOOP_DRIFT is armed again unless WARN is 0 (R337, R343). -/
def setBase (s : State) (ch : Nat) (code : BitVec 16) : State :=
  let l := loopCh s ch
  setLoopCh s ch { l with
    lastTrim := BitVec.ofInt 16 (satI 16 (trim (chan s ch) l)), base := code, based := true, updates := 0, quietFrom := s.now,
    drift := l.drift && regFld s (ro pgLOOP 0x50) 0 12 == 0 }

/-! ### Park codes -/

/-- Park code and range of a park register (R145). -/
def parkCode (w : BitVec 16) : BitVec 16 := (w &&& 0x7FFF) <<< 1
def parkRange (w : BitVec 16) : Bool := w.getLsbD 15

/-! ### Writes of the load register (R27, R130, R131, R307) -/

/-- Rank of a source of TL_CH_CODE.SRC: fuse and dark 4, park 3, strobe 2, loop 1 (R27). -/
def srcRank (src : BitVec 3) : Nat := match src.toNat with | 1 => 3 | 2 => 2 | 3 => 1 | 4 => 4 | 5 => 4 | _ => 0

/-- A source of rank above `rank` has written the channel in this cycle, which discards a write of that rank (R27). -/
def outranks (s : State) (c : ChanSt) (rank : Nat) : Bool := c.wrote == some s.now && decide (rank < srcRank c.src)

/-- The load register takes a code and range from source `src`; another range begins a range change from the present output
(R130, R131). -/
def ChanSt.load (c : ChanSt) (now : Nat) (code : BitVec 16) (range : Bool) (src : BitVec 3) : ChanSt :=
  { c with code := code, range := range, src := src, wrote := some now, unlooped := none, iOk := true,
           change := if range = c.range then c.change else some (c.code, c.range, now) }

/-- The coefficient word at an index of R306. -/
def coefAt (s : State) (i : Nat) : Word := tabGet (fun _ => (0x8000 : Word)) s.cal.coef i

/-- The written channel coefficients take effect: at a strobe entry, a park event or a fuse release (R307). -/
def takeCoef (s : State) (ch : Nat) (c : ChanSt) : ChanSt :=
  { c with coefL := coefAt s (98304 + 2 * ch), coefH := coefAt s (98305 + 2 * ch) }

/-- A park write to one channel: code and range of its park register, AT_PARK, the tongue or waiting entry abandoned, BASE
(R127, R150, R337); a fused channel ignores it, and so does one written by the dark tile in this cycle (R27, R28). -/
def parkChan (s : State) (ch : Nat) : State :=
  let c := chan s ch
  if c.fuse ≠ .clear || outranks s c 3 then s else
  let s := setBase s ch (parkCode c.park)
  setChan s ch { takeCoef s ch (c.load s.now (parkCode c.park) (parkRange c.park) 1) with
    atPark := true, tongue := none, waiting := none }

/-- The channels of a tile, a reed. -/
def tileChans (t : Nat) : List Nat := List.range' (t * 1024) 1024
def reedChans (r : Nat) : List Nat := List.range' (r * 32) 32

/-- A fuse or OFF write: 0 A, the tongue or waiting entry abandoned (R28, R127, R141). -/
def fuseChan (now : Nat) (c : ChanSt) (f : Fuse) : ChanSt :=
  { c with fuse := f, code := 0, src := 4, wrote := some now, unlooped := none, change := none,
           tongue := none, waiting := none, limiting := false, complLive := false }

/-- A released channel returns to its park code and range with AT_PARK (R141). KIND stays, and SRC reads 1 PARK, since the code is
that of the park register (DESIGN CHOICE, log 25). -/
def releaseChan (s : State) (ch : Nat) : State :=
  let c := chan s ch
  let s := setBase s ch (parkCode c.park)
  setChan s ch { takeCoef s ch (c.load s.now (parkCode c.park) (parkRange c.park) 1) with
    fuse := .clear, atPark := true }

/-! ### The tongue player -/

/-- A loop write of this cycle is undone by the strobe that freezes its reed (R27, R29). -/
def unloop (now : Nat) (c : ChanSt) : ChanSt := match c.unlooped with
  | some (code, src) => if c.wrote = some now then { c with code := code, src := src, wrote := none, unlooped := none } else c
  | none => c

/-- The reed has a looped channel whose loop the strobe freezes: the freeze of R29 starts, and `plain` notes a plain entry
(R214, R338, R339). -/
def freezeReed (s : State) (r : Nat) (plain : Bool) : State :=
  let s := setReed s r { reed s r with frozen := true, freezePlain := plain, settleFrom := s.now }
  { s with chans := tabMap (fun _ => {}) s.chans (r * 32) 32 (fun _ c => unloop s.now c) }

/-- A code that the clamp of R237 changes is counted and reported when it is written (R239). -/
def clampNote (s : State) (ch : Nat) (cOld final : BitVec 16) (g : Seg) : State :=
  if clamps cOld.toNat final.toNat g.amp then post (bumpReg s (ro pgTONGUE 0x50) 0 32) pgTONGUE 3 (BitVec.ofNat 32 ch) else s

/-- An entry reaches its breath offset: loop target and BASE (R336), then segment 0 or the final code (R126, R237, R238, R240). A park
or dark-tile write of this cycle discards it (R27). -/
def beginEntry (s : State) (ch k : Nat) (e : Entry) : State :=
  let c := chan s ch
  if c.fuse ≠ .clear || outranks s c 2 then setChan s ch { c with waiting := none } else
  let s := setBase s ch e.code
  let l := loopCh s ch
  let s := if e.comp then s else setLoopCh s ch { l with
    lmode := e.lmode, target := e.target, tgtClamp := e.lmode == 2 && e.target.getLsbD 23 }
  let plain := e.segs.isEmpty || e.range != c.range
  let len := if plain then 80 else segsLen e.segs
  let cOld := c.code.toNat
  let first := match e.segs with | g :: _ => segCode cOld e.code.toNat g.amp | [] => 0
  let due := match e.segs with | g :: _ => if plain then 80 else g.dur | [] => 80
  let tg : Tongue := { slot := k, cOld := c.code, final := e.code, range := e.range,
                       segs := if plain then [] else e.segs, plain := plain, due := s.now + due, endAt := s.now + len }
  let code := if plain then e.code else BitVec.ofNat 16 first
  let s := setChan s ch { takeCoef s ch (c.load s.now code e.range 2) with
    waiting := none, tongue := some tg }
  let s := match tg.segs with | g :: _ => clampNote s ch c.code e.code g | [] => s
  setTile s (ch / 1024) { tile s (ch / 1024) with lastSlot := BitVec.ofNat 4 k }

/-- A playing tongue writes its final code and ends (R207, R238, R252). -/
def finalChan (now : Nat) (c : ChanSt) : ChanSt := match c.tongue with
  | some g => { c with code := g.final, src := 2, wrote := some now, tongue := none }
  | none => c

/-- A playing tongue ends on its final code; an entry that has not started is abandoned and the channel keeps C_old (R252). -/
def stopChan (now : Nat) (c : ChanSt) : ChanSt := { finalChan now c with waiting := none }

/-- Every listed channel of the tiles that `p` names is changed by `f`; `f` must leave a channel at reset values as it is. -/
def mapChans (s : State) (p : Nat → Bool) (f : ChanSt → ChanSt) : State :=
  { s with chans := (s.chans.map (fun e => if p (e.1 / 1024) then (e.1, f e.2) else e)).filter (fun e => decide (e.2 ≠ {})) }

/-- Every tongue of the device stops on its final code, and waiting entries are abandoned (R252, R525, R527). -/
def stopTongues (s : State) : State := mapChans s (fun _ => true) (stopChan s.now)

/-- A channel of the tile plays a tongue, or an entry waits for its offset. -/
def tilePlays (s : State) (t : Nat) : Bool := s.chans.any (fun e => e.1 / 1024 == t && e.2.tongue.isSome)
def tileWaits (s : State) (t : Nat) : Bool := s.chans.any (fun e => e.1 / 1024 == t && e.2.waiting.isSome)
/-- A channel of the reed plays a tongue. -/
def reedPlays (s : State) (r : Nat) : Bool := s.chans.any (fun e => e.1 / 32 == r && e.2.tongue.isSome)

/-- Slot `k` has a tongue playing or an entry waiting in tile `t`. -/
def slotPlays (s : State) (t k : Nat) : Bool :=
  s.chans.any (fun e => e.1 / 1024 == t &&
    ((match e.2.tongue with | some g => g.slot == k | none => false) ||
     (match e.2.waiting with | some (j, _) => j == k | none => false)))

/-- A slot holds plan-buffer space in a tile: armed, or committed with tongues still playing there (R188). -/
def holdsSpace (s : State) (t k : Nat) : Bool :=
  let x := slot s k
  inTile x t && (x.state == .armed || (x.state == .committed && slotPlays s t k))

/-- Entries of a slot in a tile. -/
def tileEntries (x : SlotSt) (t : Nat) : Nat := (x.entries.filter (fun e => e.ch / 1024 == t)).length

/-- Free plan-buffer entries of a tile (R188). -/
def tileFree (s : State) (t : Nat) : Nat :=
  8192 - (slotList.foldl (fun n k => if holdsSpace s t k then n + tileEntries (slot s k) t else n) 0)

/-! ### Tongue events -/

/-- The waiting channels of a reed, in lane order. -/
def waitingIn (s : State) (r : Nat) : List (Nat × Nat × Entry) :=
  s.chans.filterMap (fun e => if e.1 / 32 = r then e.2.waiting.map (fun w => (e.1, w.1, w.2)) else none)

/-- The reed's breath offset arrives: every waiting entry of the reed starts (R238). -/
def breathReached (s : State) (r : Nat) : State :=
  (waitingIn s r).foldl (fun s w => beginEntry s w.1 w.2.1 w.2.2) s

def execBreathOffsetReached (r : Reed) (s : State) : Result := .next (breathReached s r.val)

/-- The next segment's code is written (R238). -/
def nextSeg (s : State) (ch : Nat) : State :=
  let c := chan s ch
  match c.tongue with
  | some g =>
    match g.segs[g.k + 1]? with
    | some sg =>
      clampNote (setChan s ch { c with
        code := BitVec.ofNat 16 (segCode g.cOld.toNat g.final.toNat sg.amp), src := 2, wrote := some s.now,
        tongue := some { g with k := g.k + 1, due := g.due + sg.dur } }) ch g.cOld g.final sg
    | none => s
  | none => s

def execTongueSegmentNext (ch : Chan) (s : State) : Result := .next (nextSeg s ch.val)

/-- The shape's length ends: C_new is written and the tongue ends (R238, R240). -/
def endTongue (s : State) (ch : Nat) : State := setChan s ch (finalChan s.now (chan s ch))

def execTongueEnd (ch : Chan) (s : State) : Result := .next (endTongue s ch.val)

end Sys2Proof.Machine
end

