-- ==== Sys2Proof/Machine/Bore.lean ====
section
/-! DEFINITION. The Bore's parity handling, retention and zeroing (R385 to R400, R426; 12_bore_commands.md), with the rules by which a consumer takes a failing table word from CAL (R181, R246, R267, R383). -/

namespace Sys2Proof.Machine

/-! ### CAL images as a source of words (log 24) -/

/-- Byte address in CAL of the image of a kind. -/
def calAt (kind : Nat) : Nat := kind * 0x200_0000

/-- The flash store serves reads: it is mounted and not failed (R486, R489). -/
def flashReads (s : State) : Bool :=
  domOn s 9 && (s.flash.state == .ready || s.flash.state == .readOnly || s.flash.state == .quiescing || s.flash.state == .quiesced)

/-- CAL holds an image of the kind and can be read (R470). -/
def calHas (s : State) (kind : Nat) : Bool :=
  flashReads s && wordAt s.flash.cal (calAt kind) == 0x4C41_4358

/-- The payload word of an image at a byte offset. -/
def calWord (s : State) (kind off : Nat) : Word := wordAt s.flash.cal (calAt kind + 64 + off)

/-! ### Parity failures -/

/-- The bank of a Bore address (R385). -/
def bankOf (a : Nat) : Nat :=
  if a < 0x0180_0000 then 4 * (a / 0x00C0_0000) + a % 0x00C0_0000 / 32 % 4 else 8 + (a - 0x0180_0000) / 0x0030_0000

/-- The row of an address. -/
def rowOf (a : Nat) : Nat := a / 32 * 32

/-- Free spare rows of a bank (R395). -/
def sparesFree (s : State) (bank : Nat) : Nat := 64 - (s.bore.retired.filter (fun r => bankOf r == bank)).length

/-- The core stops and restarts alone; management commands in flight complete with CORE_UNAVAILABLE (R82). -/
def coreRestart (s : State) : State :=
  if !s.boot.core then s else
  let s := post s pgSYS 1 s.boot.sfw
  let s := putReg { s with boot := { s.boot with core := false, restarting := true } } (ro pgSYS 0x68) 0 4 3
  (s.cmdq.cmds.filter (fun c => c.stage == .mgmt)).foldl (fun s c =>
    dropTag (complete (post s pgCMDQ 3 (BitVec.ofNat 32 c.tag)) c.tag 0 8 0 0) c.tag) s

/-- A message of the BORE page with the region of BO_LAST as subtype (R497). -/
def borePost (s : State) (src : Nat) (detail : Word) : State :=
  post s pgBORE src detail (regFld s (ro pgBORE 0x50) 28 4)

/-- A word has failed read and replay: a second failure after a write in between retires its row, or stays where the
bank has no free spare (R395 to R397). -/
def hardFail (s : State) (a : Nat) : State :=
  let bank := bankOf a
  if s.bore.rewritten.contains a ∧ 0 < sparesFree s bank then
    let row := rowOf a
    let s := { s with
      bore := { s.bore with retired := s.bore.retired ++ [row],
                            failed := s.bore.failed.filter (fun x => rowOf x != row),
                            rewritten := s.bore.rewritten.filter (fun x => rowOf x != row) } }
    let s := journal s 9 [BitVec.ofNat 32 row, 0, 0, 0]
    let s := borePost s 3 (BitVec.ofNat 32 row)
    if sparesFree s bank ≤ 8 then post s pgBORE 4 (BitVec.ofNat 32 bank) else s
  else if s.bore.rewritten.contains a then { s with bore := { s.bore with stuck := s.bore.stuck ++ [a], rewritten := s.bore.rewritten.erase a } }
  else if s.bore.failed.contains a then s
  else { s with bore := { s.bore with failed := s.bore.failed ++ [a], rewritten := s.bore.rewritten.erase a } }

/-- The word has a re-fetch source (the table of R386): of the working store only a word of code does. -/
def hasSource (a : Nat) : Bool :=
  let r := boreRegion a
  if r = 12 then (Config.coreCode a).isSome else r ∈ [1, 4, 5, 6, 9, 10, 11]

/-- The word that the region's re-fetch source gives: the completion shadow, CAL while the table is not dirty (R181, R246,
R267), the running slot's image for a word of the core's code (R392), the medium or re-expansion, which produce the word that was written (R391). -/
def sourceWord (s : State) (a : Nat) : Option Word :=
  match boreRegion a with
  | 1 => let b := a - 0x40_0000 + 0x150_0000; if s.bore.badPar.contains b then none else some (boreWord s b)
  | 10 => let b := a - 0x150_0000 + 0x40_0000; if s.bore.badPar.contains b then none else some (boreWord s b)
  | 4 => if (tab s kST).dirty = 0 ∧ calHas s kST then some (calWord s kST (a - 0x80_0000)) else none
  | 5 => if !(tab s kTG).dirty.getLsbD ((a - 0xA0_0000) / 0x2_0000) && calHas s kTG
      then some (calWord s kTG (a - 0xA0_0000)) else none
  | 6 => if (tab s kMS).dirty = 0 ∧ calHas s kMS then some (calWord s kMS (a - 0xAC_0000)) else none
  | 9 => some (boreWord s a)
  | 11 => some (boreWord s a)
  | 12 => (Config.coreCode a).map (fun o => wordAt s.flash.boot (b2n s.boot.running * 0x80_0000 + o))
  | _ => none

/-- What the consumer's block records of the failure of a unit of words (R181, R246, R267). -/
def regionNote (s : State) (a : Nat) : State :=
  match boreRegion a with
  | 4 => post s pgSTAB 0 (BitVec.ofNat 32 ((a - 0x80_0000) / 16))
  | 5 => post s pgTONGUE 0 (pack [(12, 3, (a - 0xA0_0000) / 0x2_0000), (0, 12, (a - 0xA0_0000) % 0x2_0000 / 32)])
  | 6 =>
    let e := (a - 0xAC_0000) / 8
    let x := reed s (e / 64)
    post (setReed s (e / 64) { x with parity := x.parity + 1 }) pgMEAS 0 (BitVec.ofNat 32 e)
  | _ => s

/-- The stored parity of a word is wrong. -/
def State.markBad (s : State) (a : Nat) : State :=
  if s.bore.badPar.contains a then s else { s with bore := { s.bore with badPar := s.bore.badPar ++ [a] } }

/-- A word fails its parity check and its replay: the re-fetch source rewrites it, or it is marked damaged (R391, R395); in the
working store the core restarts (R392).
The Bool says that the consumer receives the rewritten word; without one the word stays bad. -/
def parFail (s : State) (a : Nat) : State × Bool :=
  let r := boreRegion a
  let addr := BitVec.ofNat 32 a
  let s := if r = 13 then s else setReg s (ro pgBORE 0x50) (pack [(0, 26, a), (28, 4, r)])
  let s := if r = 12 then coreRestart (hardFail s a) else hardFail s a
  if hasSource a then
    let s := borePost (bumpReg s (ro pgBORE 0x48) 16 16) 1 addr
    match sourceWord s a with
    | some w => ({ s with bore := s.bore.put a w false }, true)
    | none => (s.markBad a, false)
  else (borePost (bumpReg (s.markBad a) (ro pgBORE 0x4C) 0 16) 2 addr, false)

/-- A read of a word: a word whose stored parity is wrong fails the read and the replay (R390, R391). -/
def parRead (s : State) (a : Nat) : State × Bool :=
  if s.bore.badPar.contains a then parFail s a else (s, true)

/-- A consumer reads one unit of `n` consecutive words; the Bool says that it receives them all, and its block records a failure once
(R181, R246, R267). -/
def parReads (s : State) (a n : Nat) : State × Bool :=
  match ((List.range n).map (fun i => a + 4 * i)).filter s.bore.badPar.contains with
  | [] => (s, true)
  | w :: ws =>
    let p := (w :: ws).foldl (fun p w => let r := parFail p.1 w; (r.1, p.2 && r.2)) (s, true)
    (regionNote p.1 w, p.2)

/-- A consumer reads the words of a span of bytes; the Bool says that all pass. -/
def parSpan (s : State) (a len : Nat) : State × Bool :=
  (s.bore.badPar.filter (fun w => decide (a ≤ w ∧ w < a + len))).foldl
    (fun p w => let r := parRead p.1 w; (r.1, p.2 && r.2)) (s, true)

/-! ### Retention -/

/-- BANK_RETENTION_ENTER (R399). -/
def execBankRetentionEnter (bank : Fin 16) (s : State) : Result :=
  if 5 ≤ level s ∧ bit (getReg s (ro pgBORE 0x40)) 0 then
    .next { s with bore := { s.bore with ret := s.bore.ret ||| BitVec.ofNat 16 (2 ^ bank.val) } }
  else .next s

/-- BANK_WAKE (R399). -/
def execBankWake (bank : Fin 16) (s : State) : Result :=
  .next { s with bore := { s.bore with ret := s.bore.ret &&& ~~~ (BitVec.ofNat 16 (2 ^ bank.val)) } }

/-! ### Initialisation -/

/-- The regions that the zeroing clears: all after a DRST, and 0, 1, 8, 10 and 11 after a WARM reset (R400). -/
def initClears (all : Bool) (region : Nat) : Bool := all || region ∈ [0, 1, 8, 10, 11]

/-- The Bore after zeroing. -/
def Bore.zeroed (b : Bore) : Bore :=
  let clears (a : Nat) : Bool := initClears (!b.initDone) (boreRegion a)
  { b with mem := b.mem.filter (fun c => !clears c.1),
           badPar := b.badPar.filter (fun a => !clears a),
           failed := b.failed.filter (fun a => !clears a),
           rewritten := b.rewritten ++ b.failed.filter clears,
           initRun := false, initDone := true, climbDone := true }

/-- The Bell-record region goes live and takes the records of the local store (R495). -/
def bellDrain (s : State) : State :=
  let s := s.bell.store.foldl (fun s r => setBores s (0x50_0000 + r.1.toNat % 65536 * 16) r.2) s
  { s with bell := { s.bell with ringLive := true, store := [] } }

/-- BORE_INIT_DONE (R400, R495). -/
def execBoreInitDone (s : State) : Result :=
  if s.bore.initRun then .next (bellDrain { s with bore := s.bore.zeroed }) else .next s

end Sys2Proof.Machine
end

