-- ==== Sys2Proof/Machine/Expand.lean ====
section
/-! DEFINITION. The setpoint table, plan deltas and their expansion with crosstalk compensation (R168 to R173, R179 to R184,
R190, R191, R354 to R356, R367 to R373, R383; chapters 05 and 11). -/

namespace Sys2Proof.Machine

/-! ### Setpoint entries -/

/-- Bore address of setpoint entry `i` (R168). -/
def spAddr (i : Nat) : Nat := 0x80_0000 + 16 * i

/-- The four words of a setpoint entry. -/
def spWords (s : State) (i : Nat) : List Word := boreWords s (spAddr i) 4

/-- The sum of the bytes of a word. -/
def byteSum (w : Word) : Nat := fld w 0 8 + fld w 8 8 + fld w 16 8 + fld w 24 8

/-- A setpoint entry is well-formed: the check byte holds, reserved bits are 0 and LMODE is not 3 (R170, R171). -/
def spOk (ws : List Word) : Bool :=
  (ws.map byteSum).sum % 256 == 0 &&
    match ws with
    | [w0, w1, w2, w3] => fld w0 30 2 == 0 && fld w1 26 6 == 0 && fld w1 24 2 != 3 && fld w2 16 16 == 0 && fld w3 16 8 == 0
    | _ => false

/-! ### Deltas -/

/-- Bore address of delta `i` of slot `k` (R182). -/
def deltaAddr (k i : Nat) : Nat := 0xD0_0000 + k * 0x4_0000 + 8 * i

/-- A delta is malformed: a reserved bit is set, or DIRECT 0 carries a code or range (R182, R184). -/
def deltaBad (w0 w1 : Word) : Bool :=
  bit w0 15 || fld w0 22 10 != 0 || fld w1 29 3 != 0 || (!bit w0 20 && (fld w1 0 16 != 0 || bit w0 21))

/-- The entry that a delta resolves to against the words of its setpoint entry (R183). -/
def deltaEntry (w0 w1 : Word) (sp : List Word) : Entry :=
  let direct := bit w0 20
  let s0 := sp[0]?.getD 0
  let s1 := sp[1]?.getD 0
  let s2 := sp[2]?.getD 0
  { ch := fld w0 0 15,
    code := BitVec.ofNat 16 (if direct then fld w1 0 16 else fld s0 0 16),
    range := if direct then bit w0 21 else bit s0 16,
    plain := bit w0 18 || (direct && !bit w1 28),
    shape := BitVec.ofNat 12 (if bit w1 28 then fld w1 16 12 else fld s0 18 12),
    lmode := BitVec.ofNat 2 (if direct then 0 else fld s1 24 2),
    target := BitVec.ofNat 24 (if direct then 0 else fld s1 0 24),
    pss := BitVec.ofNat 16 (if direct then 0 else fld s2 0 16),
    noxt := bit w0 19,
    tag := BitVec.ofNat 16 (if direct then 0 else fld (sp[3]?.getD 0) 0 16) }

/-- The outcome of resolving a list of deltas: the entries, or the reason and the failing index and channel (R190). -/
structure Resolved where
  s : State
  entries : List Entry := []
  fail : Option (Nat × Nat × Nat) := none

/-- One delta is checked and resolved after the deltas of `r` (R181, R190). -/
def resolveOne (k : Nat) (r : Resolved) (i : Nat) : Resolved :=
  match r.fail with
  | some _ => r
  | none =>
    let a := deltaAddr k i
    let w0 := boreWord r.s a
    let w1 := boreWord r.s (a + 4)
    let ch := fld w0 0 15
    let p := parReads r.s a 2
    if !p.2 then { r with s := postFree p.1 pgPLAN 1, fail := some (8, i, ch) } else
    if deltaBad w0 w1 then { r with s := p.1, fail := some (2, i, ch) } else
    let idx := ch * 4 + fld w0 16 2
    let q := if bit w0 20 then (p.1, true) else parReads p.1 (spAddr idx) 4
    let sp := spWords q.1 idx
    if !q.2 then { r with s := q.1, fail := some (8, i, ch) } else
    if !bit w0 20 && !bit (sp[0]?.getD 0) 17 then { r with s := q.1, fail := some (3, i, ch) } else
    if !bit w0 20 && !spOk sp then { r with s := q.1, fail := some (4, i, ch) } else
    if r.entries.any (fun e => e.ch == ch) then { r with s := q.1, fail := some (5, i, ch) } else
    { r with s := q.1, entries := r.entries ++ [deltaEntry w0 w1 sp] }

/-- The first `n` deltas of a slot are resolved from index 0 upwards (R190). -/
def resolve (s : State) (k n : Nat) : Resolved := (List.range n).foldl (resolveOne k) { s := s }

/-! ### Currents and resistances of admission and compensation -/

/-- Code and range that a channel ends on: that of a strobed entry not yet ended, else the active code (R217). -/
def settled (c : ChanSt) : BitVec 16 × Bool :=
  match c.waiting, c.tongue with
  | some (_, e), _ => (e.code, e.range)
  | none, some g => (g.final, g.range)
  | none, none => (c.code, c.range)

/-- I_old of R217, in units of 0.3125 nA. -/
def iOld (c : ChanSt) : Nat := if c.fuse = .clear then codeCurrent (settled c).1.toNat (settled c).2 else 0

/-- R_OHM of the bond report (R95). -/
def bondR (s : State) (ch : Nat) : Nat := fld (tabGet (fun _ => 0) s.boot.bond ch) 4 12

/-- R of R367: R_OHM, else V_HTR / I_active for at least 10 uA, else not known. -/
def resist (s : State) (ch : Nat) : Option Rat :=
  let c := chan s ch
  let i := chanCurrent c
  if bondR s ch ≠ 0 then some (bondR s ch)
  else if 32000 ≤ i ∧ c.vHtr ≠ 0 then some ((c.vHtr.toNat * 320000 : Nat) / (i : Rat))
  else none

/-! ### Kernels (R354, R383) -/

/-- The built-in kernel word: 0, but TAU_BASE 10 s (R358). -/
def kDefault (i : Nat) : Word := if i % 128 = 114 then 10 else 0

/-- Word `w` of class `k` of kernel `g`. -/
def kWord (s : State) (g k w : Nat) : Word := tabGet kDefault s.thermal.kernels (g * 128 + k * 16 + w)

/-- The geometry class of a tile (TH_TILE_CLASS). -/
def tileClass (s : State) (t : Nat) : Nat := regFld s (ro pgTHM (0x80 + 4 * (t / 8))) (4 * (t % 8)) 4

/-- A kernel word that fails parity and replay is taken from CAL while the kernels are not dirty; the Bool says that it passes
(R383). -/
def kernelRead (s : State) (i : Nat) : State × Bool :=
  if !s.thermal.badKernels.contains i then (s, true) else
  let s := post s pgTHM 0 (BitVec.ofNat 32 i)
  if (tab s kTH).dirty = 0 ∧ calHas s kTH then
    ({ s with thermal := { s.thermal with
        badKernels := s.thermal.badKernels.erase i,
        kernels := tabSet kDefault s.thermal.kernels i (calWord s kTH (4 * i)) } }, true)
  else (s, false)

/-- The 128 words of a kernel are read; the Bool says that all pass. -/
def kernelPass (s : State) (g : Nat) : State × Bool :=
  (s.thermal.badKernels.filter (fun i => i / 128 == g)).foldl
    (fun p i => let q := kernelRead p.1 i; (q.1, p.2 && q.2)) (s, true)

/-! ### Crosstalk expansion -/

/-- Compensation is added at STAGE: XTALK in force, XT_EN 1, level below L2 (TH_STAT.XT_ON). -/
def xtOn (s : State) : Bool :=
  featOn s 1 && bit (getReg s (ro pgTHM 0x40)) 0 && decide (level s < 2) && !s.thermal.contained

/-- One term of a victim's power correction: victim, class, aggressor, power in units of (0.3125 nA)^2 Ohm. -/
structure Term where
  victim : Nat
  cls : Nat
  aggr : Nat
  dp : Rat
  deriving DecidableEq, Repr

/-- Power step of an aggressor (R367). -/
def aggrStep (s : State) (e : Entry) : Option Rat :=
  let c := chan s e.ch
  (resist s e.ch).map (fun r =>
    let iNew : Nat := if c.fuse = .clear then codeCurrent e.code.toNat e.range else 0
    ((iNew * iNew : Nat) - (iOld c * iOld c : Nat) : Rat) * r)

/-- The victim of an aggressor under a relation's word (offset and enable) and mask; outside the tile it is dropped (R355). -/
def relation (mask dch : Word) (a : Nat) : Option (Option Nat) :=
  if !bit dch 8 || !bit mask (a % 32) then none else
  let v : Int := (a : Int) + signed 8 (fld dch 0 8)
  some (if 0 ≤ v ∧ v.toNat / 1024 = a / 1024 then some v.toNat else none)

/-- The terms of one aggressor in band `b`, and how many victims fall outside its tile (R354, R355, R368). -/
def aggrTerms (s : State) (b : Nat) (e : Entry) (dp : Rat) : List Term × Nat :=
  let g := tileClass s (e.ch / 1024)
  (List.range 6).foldl (fun (p : List Term × Nat) k =>
    let gain := signed 32 (kWord s g k (4 + b)).toNat
    [0, 2].foldl (fun (p : List Term × Nat) w =>
      match relation (kWord s g k w) (kWord s g k (w + 1)) e.ch with
      | none => p
      | some none => (p.1, p.2 + 1)
      | some (some v) => (p.1 ++ [{ victim := v, cls := k, aggr := e.ch, dp := -(gain * dp) / 1000000 }], p.2)) p) ([], 0)

/-- The terms by victim, victims rising. -/
def byVictim (ts : List Term) : Tab (List Term) :=
  ts.foldl (fun l t => tabIns l t.victim (tabGet (fun _ => []) l t.victim ++ [t])) []

/-- The sum of the terms. -/
def termSum (ts : List Term) : Rat := ts.foldl (fun q t => q + t.dp) 0

/-- Magnitude of a rational. -/
def ratAbs (q : Rat) : Rat := if q < 0 then -q else q

/-- The dominant class of a victim: the largest magnitude of a class's contribution, the lowest class on a tie (R370, log 26). -/
def domClass (ts : List Term) : Nat :=
  let m (k : Nat) : Rat := ratAbs (termSum (ts.filter (fun t => t.cls == k)))
  let ks := (List.range 6).filter (fun k => ts.any (fun t => t.cls == k))
  ks.foldl (fun best k => if m best < m k then k else best) (ks.headD 0)

/-- The reed of the dominant aggressor: the largest term of the dominant class, the first on a tie (R372, log 26). -/
def domReedOf (ts : List Term) : Nat :=
  let own := ts.filter (fun t => t.cls == domClass ts)
  match own with
  | [] => 0
  | t :: rest => (rest.foldl (fun (best : Term) t => if ratAbs best.dp < ratAbs t.dp then t else best) t).aggr / 32

/-- Floor of the square root of a number below 4^40. -/
def isqrt (n : Nat) : Nat := (List.range 40).foldl (fun r i => if (r + 2 ^ (39 - i)) ^ 2 ≤ n then r + 2 ^ (39 - i) else r) 0

/-- The compensated code before its limit: the rounded root of c^2 + dP / (R LSB^2), 0 for a negative argument (R369). -/
def compRoot (c : Nat) (range : Bool) (r dp : Rat) : Nat :=
  let lsb : Nat := if range then 400 else 100
  let q : Rat := (c * c : Nat) + dp / (r * (lsb * lsb : Nat))
  if q < 0 then 0 else (isqrt (4 * q).floor.toNat + 1) / 2

/-- The compensated code of a victim within XT_MAX; a limit is counted and reported, a code above the range is a free value
(R369, log 5). -/
def compCode (s : State) (v c : Nat) (range : Bool) (r dp : Rat) : State × Nat :=
  let step : Int := (compRoot c range r dp : Int) - c
  let m : Int := regFld s (ro pgTHM 0x40) 16 12
  let lim := clampI (-m) m step
  let s := if lim = step then s else
    post { s with thermal := { s.thermal with xtClamp := s.thermal.xtClamp + 1 } } pgTHM 4 (BitVec.ofNat 32 v)
  let x := ((c : Int) + lim).toNat
  if x < 65536 then (s, x) else (tick s, (freeWord s).toNat % 65536)

/-- DROPPED counts `n` more (R355, R367, R370). -/
def xtDrop (s : State) (n : Nat) : State :=
  { s with thermal := { s.thermal with xtDropped := BitVec.ofNat 16 (min (s.thermal.xtDropped.toNat + n) 65535) } }

/-- One victim takes its correction: merged into its delta entry, or as an entry of its own, or dropped (R369 to R371). -/
def compVictim (p : State × List Entry) (v : Nat) (ts : List Term) : State × List Entry :=
  let s := p.1
  match resist s v with
  | none => (xtDrop s 1, p.2)
  | some r =>
    if r = 0 then (xtDrop s 1, p.2) else
    let dp := termSum ts
    match p.2.find? (fun e => e.ch == v && !e.comp) with
    | some e =>
      let q := compCode s v e.code.toNat e.range r dp
      (q.1, p.2.map (fun d => if d.ch == v && !d.comp then { d with code := BitVec.ofNat 16 q.2 } else d))
    | none =>
      let c := chan s v
      if c.fuse ≠ .clear ∨ c.atPark then (xtDrop s 1, p.2) else
      let base : BitVec 16 × Bool := match c.tongue with | some g => (g.final, g.range) | none => (c.code, c.range)
      let q := compCode s v base.1.toNat base.2 r dp
      let g := tileClass s (v / 1024)
      let k := domClass ts
      let w10 := kWord s g k 10
      if ((q.2 : Int) - base.1.toNat).natAbs < fld w10 16 8 then (xtDrop q.1 1, p.2) else
      let e : Entry := { ch := v, code := BitVec.ofNat 16 q.2, range := base.2, comp := true,
                         shape := BitVec.ofNat 12 (fld w10 0 12), domReed := domReedOf ts }
      (q.1, p.2 ++ [e])

/-- Compensation is added to a resolved plan in band `b` (R367 to R371). -/
def compensate (s : State) (b : Nat) (es : List Entry) : State × List Entry :=
  let p := (es.filter (fun e => !e.noxt)).foldl (fun (p : State × List Term) e =>
    match aggrStep p.1 e with
    | none => (xtDrop p.1 1, p.2)
    | some dp => let r := aggrTerms p.1 b e dp; (xtDrop p.1 r.2, p.2 ++ r.1)) (s, [])
  (byVictim p.2).foldl (fun q vt => compVictim q vt.1 vt.2) (p.1, es)

/-- The kernels of the tiles with entries pass parity, or the STAGE is rejected (R383). -/
def kernelsPass (s : State) (es : List Entry) : State × Bool :=
  let gs := (es.map (fun e => tileClass s (e.ch / 1024))).eraseDups
  gs.foldl (fun p g => let q := kernelPass p.1 g; (q.1, p.2 && q.2)) (s, true)

end Sys2Proof.Machine
end

