-- ==== Sys2Proof/Machine/Plan.lean ====
section
/-! DEFINITION. Admission, the plan copy and the plan slots (R26, R172, R185 to R195, R217 to R226, R242 to R246, R372;
05_setpoint_table.md, 06_commit_breath.md, 07_tongue_shapes.md). Admission computes in units of 0.3125 nA (log 13). -/

namespace Sys2Proof.Machine

/-! ### What admission takes per entry (R217, R372) -/

/-- One entry as admission sees it: kick and settled change of current, length, and for a counter-shape with a leading hold the
reed of its dominant aggressor and the hold's length. -/
structure AdmEntry where
  reed : Nat
  pk : Int
  net : Int
  d : Nat
  hold : Option (Nat × Nat) := none
  deriving DecidableEq, Repr

/-- The segments an entry plays if copied now: none for a plain step (R183, R236, R242). -/
def entrySegs (s : State) (e : Entry) : List Seg :=
  if e.plain || !shapesOn s then [] else shapeSegs s (band s) e.shape.toNat

/-- Largest of the segment codes, or `m`. -/
def peakCode (cOld final m : Nat) (segs : List Seg) : Nat := segs.foldl (fun m g => max m (segCode cOld final g.amp)) m

/-- An entry's quantities of R217. -/
def admEntry (s : State) (e : Entry) : AdmEntry :=
  let c := chan s e.ch
  let old := settled c
  let segs := if e.range = old.2 then entrySegs s e else []
  let len := if segs.isEmpty then 80 else segsLen segs
  let hold := match segs with
    | g :: _ => if e.comp && g.amp == 0 then some (e.domReed, g.dur) else none
    | [] => none
  if c.fuse ≠ .clear then { reed := e.ch / 32, pk := 0, net := 0, d := len, hold := hold } else
  let iold := codeCurrent old.1.toNat old.2
  let inew := codeCurrent e.code.toNat e.range
  let ipk :=
    if e.range ≠ old.2 then max iold inew + onePercent e.range
    else codeCurrent (peakCode old.1.toNat e.code.toNat (max old.1.toNat e.code.toNat) segs) e.range
  { reed := e.ch / 32, pk := (ipk : Int) - iold, net := (inew : Int) - iold, d := len, hold := hold }

/-- Kick of every reed with entries (R218). -/
def reedKicks (as : List AdmEntry) : Tab Int :=
  as.foldl (fun l a => tabIns l a.reed (tabGet (fun _ => 0) l a.reed + a.pk)) []

/-- The kicking reeds in ascending order (R222). -/
def kicking (as : List AdmEntry) : List Nat := ((reedKicks as).filter (fun p => decide (0 < p.2))).map (·.1)

/-- The group of a reed in a trial of G groups (R222). -/
def groupOf (kicks : List Nat) (g r : Nat) : Nat := match kicks.idxOf? r with | some k => k % g | none => 0

/-- The spacing of R223. -/
def spacingOf (s : State) (g dmax : Nat) : Nat :=
  if g ≤ 1 then 0 else min (max (regFld s (ro pgBREATH 0x40) 16 12) dmax) (4095 / (g - 1))

/-- A counter-shape's length after its leading hold is moved by the difference of the offsets (R372). -/
def holdDur (off : Nat → Nat) (reed : Nat) (h : Nat × Nat) : Int := (h.2 : Int) + off h.1 - off reed
def adjusted (off : Nat → Nat) (a : AdmEntry) : Nat :=
  match a.hold with
  | none => a.d
  | some h => a.d - h.2 + (max 1 (holdDur off a.reed h)).toNat

/-! ### The trial (R218 to R221) -/

/-- Sums of one group in one scope: PK, NET and D. -/
structure GroupSum where
  pk : Int := 0
  net : Int := 0
  d : Nat := 0
  deriving DecidableEq, Repr

/-- The sums of group `g` over the entries that `p` admits. -/
def groupSum (as : List AdmEntry) (grp : Nat → Nat) (off : Nat → Nat) (p : Nat → Bool) (g : Nat) : GroupSum :=
  as.foldl (fun x a => if grp a.reed = g ∧ p (a.reed / 32) then
    { pk := x.pk + a.pk, net := x.net + a.net, d := max x.d (adjusted off a) } else x) {}

/-- I_X(tau) of R219 over the groups' sums, group g at g * sp. -/
def predicted (isum : Int) (gs : List GroupSum) (sp tau : Nat) : Int :=
  ((List.range gs.length).zip gs).foldl (fun i p =>
    let o := p.1 * sp
    if o ≤ tau ∧ tau < o + p.2.d then i + p.2.pk else if o + p.2.d ≤ tau then i + p.2.net else i) isum

/-- STEP(tau) of R219. -/
def stepAt (gs : List GroupSum) (sp win tau : Nat) : Int :=
  ((List.range gs.length).zip gs).foldl (fun i p =>
    if tau ≤ p.1 * sp ∧ p.1 * sp < tau + win then i + p.2.pk else i) 0

/-- The largest of a list, 0 for none. -/
def maxI (l : List Int) : Int := l.foldl max 0

/-- ISUM_t of R218: I_old over the channels of a tile. -/
def admIsum (s : State) (t : Nat) : Nat :=
  s.chans.foldl (fun n p => if p.1 / 1024 = t then n + iOld p.2 else n) 0

/-- One uW in the exact power unit of admission, (0.3125 nA)^2 Ohm / 25. -/
abbrev uW : Nat := 256000000000000

/-- P_ss of an entry in exact units (R172, R217). -/
def pss (s : State) (e : Entry) : Nat :=
  let c := chan s e.ch
  if c.fuse ≠ .clear then 0
  else if e.pss ≠ 0 then e.pss.toNat * uW
  else
    let i := codeCurrent e.code.toNat e.range
    if bondR s e.ch ≠ 0 then i * i * bondR s e.ch * 25 else i * ((tile s (e.ch / 1024)).vTile - 3500) * 8000000

/-- PSUM_t of R218 in exact units. -/
def psum (s : State) (es : List Entry) (t : Nat) : Nat :=
  let rest := s.chans.foldl (fun n p =>
    if p.1 / 1024 = t ∧ p.2.fuse = .clear ∧ !es.any (fun e => e.ch == p.1) then n + p.2.pUw.toNat * uW else n) 0
  es.foldl (fun n e => if e.ch / 1024 = t then n + pss s e else n) rest

/-- ITRIP_LO: the lower pushed ITRIP of the feeds that are on, in 100 mA; 0 when none is. -/
def itripLo (s : State) : Nat :=
  let a := fld s.idl.push0 8 8
  let b := fld s.idl.push0 16 8
  if pushedOn s .a then (if pushedOn s .b then min a b else a) else if pushedOn s .b then b else 0
/-- ILIM as pushed, in 100 mA. -/
def ilim (s : State) : Nat := fld s.idl.push0 24 8
/-- SINGLE_BASIS as pushed. -/
def singlePushed (s : State) : Bool := bit s.idl.push1 9
/-- Some feed shows SAG. -/
def sagAny (s : State) : Bool := pushedSag s .a || pushedSag s .b
/-- V_basis of R221. -/
def vBasis (s : State) : Nat := if sagAny s then 38 else regFld s (ro pgBREATH 0x58) 0 8

/-- The outcome of one trial. -/
structure Trial where
  g : Nat
  sp : Nat
  dmax : Nat
  reason : Nat
  devPk : Int
  step : Int
  feedMa : Nat
  tripMa : Nat
  tilePk : Int
  tileAt : Nat
  devSs : Nat
  tileSs : Nat
  endCc : Nat
  deriving DecidableEq, Repr

/-- The first index of a list that holds its largest value, with the value. -/
def argMax (l : List Int) : Int × Nat :=
  (l.foldl (fun (p : Option (Int × Nat) × Nat) x =>
    (match p.1 with | none => some (x, p.2) | some (m, i) => if m < x then some (x, p.2) else some (m, i), p.2 + 1))
    (none, 0)).1.getD (0, 0)

/-- A trial of G groups: every quantity of R219 and R220, and the first check that fails, 0 for none. -/
def trial (s : State) (es : List Entry) (as : List AdmEntry) (kicks : List Nat) (g : Nat) : Trial :=
  let dmax := as.foldl (fun m a => max m a.d) 0
  let sp := spacingOf s g dmax
  let grp := groupOf kicks g
  let off (r : Nat) : Nat := grp r * sp
  let taus := (List.range g).map (fun i => i * sp)
  let dev := (List.range g).map (groupSum as grp off (fun _ => true))
  let tiles := List.range 32
  let isums := tiles.map (admIsum s)
  let tilePks := tiles.map (fun t =>
    let gs := (List.range g).map (groupSum as grp off (fun u => u == t))
    maxI (taus.map (predicted (isums.getD t 0) gs sp)))
  let isum : Int := (isums.foldl (fun (n : Nat) m => n + m) 0 : Nat)
  let devPk := maxI (taus.map (predicted isum dev sp))
  let win := regFld s (ro pgBREATH 0x4C) 16 12
  let step := maxI (taus.map (stepAt dev sp win))
  let psums := tiles.map (psum s es)
  let ptot := psums.foldl (fun (n : Nat) m => n + m) 0
  let pmax := psums.foldl max 0
  let feed := getReg s (ro pgBREATH 0x58)
  let frac := fld feed 8 8
  let eta := fld feed 16 8
  let num := fld feed 24 8 * 3200000000 * eta + 500 * devPk.toNat
  let den := 3200000000 * eta
  let k := if singlePushed s then 100 else 55
  let pkT := argMax tilePks
  let endCc := as.foldl (fun m a => max m (off a.reed + adjusted off a)) 0
  let dark := es.any (fun e => let x := tile s (e.ch / 1024)
    !(x.va == .conduct || x.va == .limit || x.vb == .conduct || x.vb == .limit))
  let above (budget : Nat) (i : Int) : Bool := decide ((budget * mA : Int) < i)
  let reason :=
    if dark then 16
    else if regFld s (ro pgBREATH 0x50) 0 14 * 1000 * uW < pmax then 17
    else if regFld s (ro pgBREATH 0x54) 0 18 * 1000 * uW < ptot then 18
    else if above (regFld s (ro pgBREATH 0x44) 0 11) pkT.1 then 19
    else if above (regFld s (ro pgBREATH 0x48) 0 16) devPk then 20
    else if above (regFld s (ro pgBREATH 0x4C) 0 16) step then 21
    else if 38 * frac * itripLo s * den < num * 1000 then 22
    else if vBasis s * frac * ilim s * den < k * num * 10 then 23
    else if 65535 < ((List.range g).zip dev).foldl (fun m p => max m (p.1 * sp + p.2.d)) 0 then 24
    else 0
  { g := g, sp := sp, dmax := dmax, reason := reason, devPk := devPk, step := step,
    feedMa := k * num * 10 / (den * vBasis s), tripMa := num * 1000 / (den * 38),
    tilePk := pkT.1, tileAt := pkT.2, devSs := ptot / (10000 * uW), tileSs := pmax / (1000 * uW), endCc := endCc }

/-- Trials from G upwards, `n` more allowed: the first that passes, or the last (R224). -/
def trialsFrom (f : Nat → Trial) : Nat → Nat → Trial
  | 0, g => f g
  | n + 1, g =>
    let t := f g
    if t.reason = 0 ∨ t.reason = 16 ∨ t.reason = 17 ∨ t.reason = 18 then t else trialsFrom f n (g + 1)

/-- The admission of a plan; a plan without entries passes (R194, R224). -/
def admitPlan (s : State) (es : List Entry) : Trial × List AdmEntry × List Nat :=
  let as := es.map (admEntry s)
  let kicks := kicking as
  let most := min (regFld s (ro pgBREATH 0x40) 0 5) (max 1 kicks.length)
  let t := trialsFrom (trial s es as kicks) (most - 1) 1
  (if es.isEmpty then { t with reason := 0 } else t, as, kicks)

/-! ### Slots: rejection, results and work -/

/-- A plan is rejected: state, reason and detail, the message, the pending request and the waiting command (R185, R198, R205). -/
def rejectPlan (s : State) (k reason : Nat) (detail : Option (Nat × Nat)) : State :=
  let x := slot s k
  let s := setSlot s k { x with
    state := .rejected, ready := false, reason := BitVec.ofNat 5 reason, work := .none, waitAdmit := false,
    detailIdx := BitVec.ofNat 16 (detail.getD (0, 0)).1, detailCh := BitVec.ofNat 15 (detail.getD (0, 0)).2,
    detailValid := detail.isSome }
  let s := post s pgPLAN 0 (pack [(0, 4, k), (4, 5, reason)]) reason
  planDone (endReq s k 3) k

/-- A plan is rejected by its admission, the first after a STAGE or a redo (BREATH page). -/
def rejectAdmission (s : State) (k reason : Nat) (redo : Bool) : State :=
  rejectPlan (post s pgBREATH (if redo then 1 else 0) (pack [(0, 4, k), (4, 5, reason)])) k reason none

/-- Every shape word that the entries would play passes parity; the Bool says so (R246). -/
def shapesPass (s : State) (es : List Entry) : State × Bool :=
  ((es.filter (fun e => !e.plain && shapesOn s)).map (fun e => shapeAddr (band s) e.shape.toNat)).eraseDups.foldl
    (fun p a => let q := parReads p.1 a 8; (q.1, p.2 && q.2)) (s, true)

/-- Work that the slot needs starts to wait while admission cannot run (R226). -/
def startAdmit (s : State) (k : Nat) : State :=
  if admitBlocked s then
    post (setSlot s k { slot s k with waitAdmit := true }) pgBREATH 3 (BitVec.ofNat 32 k)
  else s

/-- Every slot whose admission cannot run now comes to wait: the link is lost, or a push shows no feed on (R226). -/
def admitWaits (s : State) : State :=
  slotList.foldl (fun s k =>
    let x := slot s k
    if (x.work = .redo ∨ x.work = .admission) ∧ !x.waitAdmit then startAdmit s k else s) s

/-- A slot's admission or copy may read the banks: it needs no bank content, or no LOAD of the banks runs (R244). -/
def banksReady (s : State) (k : Nat) : Bool :=
  (tab s kTG).running != 1 || !(slot s k).entries.any (fun e => !e.plain && shapesOn s)

/-! ### The expanded plan in the Bore (R386) -/

/-- Bore address of entry `i` of slot `k` in tile `t`. -/
def planAddr (t k i : Nat) : Nat := 0x0180_0000 + t / 4 * 0x0030_0000 + t % 4 * 0x8_0000 + k * 0x8000 + 16 * i

/-- The 16 bytes of an expanded entry (the layout is the model's: DESIGN CHOICE, log 5). -/
def entryWords (e : Entry) : List Word :=
  [pack [(0, 15, e.ch), (15, 1, b2n e.range), (16, 16, e.code.toNat)],
   pack [(0, 24, e.target.toNat), (24, 2, e.lmode.toNat), (26, 1, b2n e.comp), (27, 1, b2n e.plain), (28, 1, b2n e.noxt)],
   pack [(0, 16, e.pss.toNat), (16, 12, e.shape.toNat)], pack [(0, 16, e.tag.toNat)]]

/-- The entries of a plan in a tile, in the order of its segment. -/
def tilePart (es : List Entry) (t : Nat) : List Entry := es.filter (fun e => e.ch / 1024 == t)

/-- An expanded plan is written into the segments of its slot. -/
def writeEntries (s : State) (k : Nat) (es : List Entry) : State :=
  (List.range 32).foldl (fun s t =>
    (tilePart es t).zipIdx.foldl (fun s p => setBores s (planAddr t k p.2) (entryWords p.1)) s) s

/-- The channel whose entry of slot `k` a Bore word carries, if any. -/
def entryAt (s : State) (k a : Nat) : Option Nat :=
  if boreRegion a ≠ 11 then none else
  let q := (a - 0x0180_0000) / 0x0030_0000
  let o := (a - 0x0180_0000) % 0x0030_0000
  if o % 0x8_0000 / 0x8000 ≠ k then none
  else ((tilePart (slot s k).entries (4 * q + o / 0x8_0000))[o % 0x8000 / 16]?).map (·.ch)

/-! ### Stage-time work -/

/-- EXPANSION_DONE: resolution completes, compensation is added, and admission starts (R185, R190, R367 to R371, R383). -/
def expansionDone (s : State) (k : Nat) : State :=
  let x := slot s k
  if x.state ≠ .staging ∨ x.work ≠ .expand ∨ !inRun s then s else
  let r := resolve s k x.deltas.toNat
  match r.fail with
  | some (reason, i, ch) => rejectPlan r.s k reason (some (i, ch))
  | none =>
    let s := { r.s with thermal := { r.s.thermal with xtEntries := 0, xtDropped := 0, xtClamp := 0 } }
    let on := xtOn s && !r.entries.isEmpty
    let kp := if on then kernelsPass s r.entries else (s, true)
    if !kp.2 then rejectPlan kp.1 k 8 none else
    let c := if on then compensate kp.1 x.band r.entries else (kp.1, r.entries)
    let n := (c.2.filter (·.comp)).length
    let s := { c.1 with thermal := { c.1.thermal with xtEntries := BitVec.ofNat 16 n } }
    let s := putReg s (ro pgPLAN 0x4C) 0 16 (min (s.now - x.stagedAt) 65535)
    startAdmit (setSlot (writeEntries s k c.2) k { slot s k with
      state := .expanded, work := .admission, entries := c.2, xt := decide (0 < n) }) k

def execExpansionDone (k : Slot) (s : State) : Result := .next (expansionDone s k.val)

/-- The BREATH page records the last admission (BR_LAST_x, BR_SLOT, BR_SPAN). -/
def recordAdmission (s : State) (k : Nat) (t : Trial) (groups : Nat) : State :=
  let ma (i : Int) (n : Nat) : Nat := min (i.toNat / mA) (2 ^ n - 1)
  let s := setReg s (ro pgBREATH 0x60)
    (pack [(0, 4, k), (4, 5, groups), (9, 5, t.g), (16, 5, t.reason), (21, 1, b2n (t.reason == 0))])
  let s := setReg s (ro pgBREATH 0x64) (pack [(0, 16, ma t.devPk 16), (16, 16, ma t.step 16)])
  let s := setReg s (ro pgBREATH 0x68) (pack [(0, 16, min t.feedMa 65535), (16, 16, min t.tripMa 65535)])
  let s := setReg s (ro pgBREATH 0x6C) (pack [(0, 11, ma t.tilePk 11), (16, 5, t.tileAt)])
  setReg s (ro pgBREATH 0x70) (pack [(0, 16, min t.devSs 65535), (16, 16, min t.tileSs 65535)])

/-- ADMISSION_DONE: the trials end; the slot is admitted with groups and offsets, or rejected (R220, R224). -/
def admissionDone (s : State) (k : Nat) : State :=
  let x := slot s k
  if (x.work ≠ .admission ∧ x.work ≠ .redo) ∨ x.waitAdmit ∨ admitBlocked s ∨ !inRun s ∨ !banksReady s k then s else
  let redo := x.state != .expanded
  let p := shapesPass s x.entries
  if !p.2 then rejectAdmission p.1 k 8 redo else
  let s := p.1
  let a := admitPlan s x.entries
  let t := a.1
  let groups := if t.reason ≠ 0 ∨ x.entries.isEmpty then 0 else t.g
  let s := recordAdmission s k t groups
  if t.reason ≠ 0 then rejectAdmission s k t.reason redo else
  let s := if redo then s else putReg s (ro pgPLAN 0x4C) 16 16 (min (s.now - x.stagedAt) 65535)
  let s := setReg s (ro pgBREATH (0x100 + 4 * k)) (pack [(0, 5, groups), (16, 12, t.sp)])
  let s := setReg s (ro pgBREATH (0x140 + 4 * k)) (pack [(0, 16, t.endCc), (16, 16, t.dmax)])
  let s := setSlot s k { slot s k with
    state := if x.state = .armed then .armed else .admitted, work := if x.work = .redo then .copy else .none,
    groups := BitVec.ofNat 5 groups, spacing := BitVec.ofNat 12 t.sp, endCc := BitVec.ofNat 16 t.endCc,
    dmax := BitVec.ofNat 16 t.dmax,
    reedGroup := (reedKicks a.2.1).map (fun p => (p.1, groupOf a.2.2 t.g p.1)) }
  if x.work = .redo then s else planDone s k

def execAdmissionDone (k : Slot) (s : State) : Result := .next (admissionDone s k.val)

/-- ADMISSION_RESUME: the waiting admissions run once none of the cases of R226 holds. -/
def execAdmissionResume (s : State) : Result :=
  if admitBlocked s then .next s else
  .next (slotList.foldl (fun s k =>
    if (slot s k).waitAdmit then setSlot s k { slot s k with waitAdmit := false } else s) s)

/-- The breath offset of a reed in an admitted slot (R222, R223). -/
def offsetOf (x : SlotSt) (r : Nat) : Nat := tabGet (fun _ => 0) x.reedGroup r * x.spacing.toNat

/-- One entry is copied with the segments of the band in force; a leading hold of a counter-shape is moved (R235, R236, R242,
R372). -/
def copyEntry (s : State) (x : SlotSt) (e : Entry) : Entry :=
  let segs := entrySegs s e
  match segs with
  | g :: rest =>
    if e.comp && g.amp == 0 then
      let d := holdDur (offsetOf x) (e.ch / 32) (e.domReed, g.dur)
      { e with segs := { g with dur := (max 1 d).toNat } :: rest, late := decide (d < 1) }
    else { e with segs := segs, late := false }
  | [] => { e with segs := [], late := false }

/-- What the copy counts: empty shapes by entry, truncated shapes once each, late counter-shapes (R235, R236, R372). -/
def copyCounts (s : State) (es : List Entry) : State :=
  let b := band s
  let shaped := es.filter (fun e => !e.plain && shapesOn s)
  let key (i : Nat) : Word := pack [(12, 3, b), (0, 12, i)]
  let s := (shaped.filter (fun e => e.segs.isEmpty)).foldl (fun s e =>
    post (bumpReg s (ro pgTONGUE 0x54) 0 16) pgTONGUE 6 (key e.shape.toNat)) s
  let s := ((shaped.map (·.shape.toNat)).eraseDups.filter (fun i => shapeLong s b i)).foldl (fun s i =>
    post (bumpReg s (ro pgTONGUE 0x54) 16 16) pgTONGUE 5 (key i)) s
  { s with thermal := { s.thermal with xtLate := BitVec.ofNat 16 (es.filter (·.late)).length } }

/-- PLAN_PARITY_REPAIR: a word of an expanded entry fails; its delta is expanded and the entry copied again, or the delta word
fails as well (R190, R193). -/
def planParityRepair (s : State) (k ch : Nat) : State :=
  let x := slot s k
  if x.state ≠ .armed ∨ (x.work ≠ .copy ∧ x.work ≠ .redo) ∨ !x.entries.any (fun e => e.ch == ch) then s else
  let t := ch / 1024
  let s := (parFail s (planAddr t k ((tilePart x.entries t).findIdx (fun e => e.ch == ch)))).1
  let s := bumpReg s (ro (pgTILE t) 0x404) 16 16
  match (List.range x.deltas.toNat).find? (fun i => fld (boreWord s (deltaAddr k i)) 0 15 == ch) with
  | none => s
  | some i =>
    let p := parReads s (deltaAddr k i) 2
    if p.2 then p.1 else rejectPlan (postFree p.1 pgPLAN 1) k 8 (some (i, ch))

/-- The copy reads the slot's words in the Bore: each that fails is repaired from its delta (R193, R390). -/
def planRepairs (s : State) (k : Nat) : State :=
  (s.bore.badPar.filterMap (entryAt s k)).eraseDups.foldl (fun s ch => planParityRepair s k ch) s

/-- ARM_COPY_VERIFIED: every word is copied and verified, and READY sets (R25, R193, R242, R246). -/
def copyVerified (s : State) (k : Nat) : State :=
  let x := slot s k
  if x.state ≠ .armed ∨ x.work ≠ .copy ∨ !inRun s ∨ !banksReady s k then s else
  let s := planRepairs s k
  if (slot s k).state ≠ .armed then s else
  let p := shapesPass s x.entries
  if !p.2 then rejectPlan p.1 k 8 none else
  let es := x.entries.map (copyEntry p.1 x)
  let s := copyCounts p.1 es
  planDone (setSlot s k { slot s k with ready := true, work := .none, entries := es }) k

def execArmCopyVerified (k : Slot) (s : State) : Result := .next (copyVerified s k.val)

def execPlanParityRepair (k : Slot) (ch : Chan) (s : State) : Result := .next (planParityRepair s k.val ch.val)

/-! ### When a request strobes (R201, R206) -/

/-- 1,200 cc have passed since the last strobe that reached a tile (R201). -/
def spaced (s : State) (t : Nat) : Bool := match (tile s t).lastStrobe with
  | none => true
  | some at' => decide (at' + 1200 ≤ s.now)

/-- Every condition of R201 holds, with those of R33 and R526, for a request of slot `k`. -/
def strobeReady (s : State) (k : Nat) (cut : Bool) : Bool :=
  let x := slot s k
  idlUp s && s.idl.pushOk && inRun s && x.state == .armed && x.ready && decide (level s < 3) &&
    (slotTiles x).all (fun t => !tileWaits s t && (cut || !tilePlays s t) && spaced s t)

/-- The request's path latency has passed (R5, R199, R201). -/
def Req.due (r : Req) (now : Nat) : Bool := decide (r.arrived + r.lat ≤ now)

/-- Another request that is ready in this cycle goes first: SYNC_IN, schedule, COMMIT_NOW, JCP, and the oldest within one source
(R206). -/
def outranked (s : State) (k : Nat) (r : Req) : Bool :=
  s.reqs.any (fun p => p.1 != k && p.2.due s.now && strobeReady s p.1 p.2.cut &&
    (decide (p.2.src.toNat < r.src.toNat) || (p.2.src == r.src && decide (p.2.arrived < r.arrived))))

/-- The request of slot `k` strobes in this cycle: it is due and ready, no other goes first, and no strobe has been issued in the
cycle (R201, R206). -/
def goesNow (s : State) (k : Nat) (r : Req) : Bool :=
  r.due s.now && strobeReady s k r.cut && !outranked s k r && s.strobeAt != some s.now

/-- A commit source reaches the slot in this cycle (R187). -/
def committing (s : State) (k : Nat) : Bool := match req s k with
  | some r => r.arrived == s.now || goesNow s k r
  | none => false

/-! ### PL_CMD (R185 to R188, R197) -/

/-- The result of a command goes to PL_CMD_STAT; a refusal sends REFUSED_CTRL (R186). -/
def plResult (s : State) (cmd k count res : Nat) : State :=
  let s := setReg s (ro pgPLAN 0x44) (pack [(0, 4, cmd), (4, 4, k), (8, 3, res)])
  if res = 0 then s else post s pgPLAN 13 (pack [(0, 4, cmd), (4, 4, k), (16, 16, count)])

/-- OPEN. -/
def plOpen (s : State) (k : Nat) : State × Nat :=
  let x := slot s k
  if x.state = .empty ∨ x.state = .rejected then
    (setSlot s k { x with state := .staging, deltas := 0, reason := 0, work := .none, entries := [], xt := false,
                          detailIdx := 0, detailCh := 0, detailValid := false }, 0)
  else (s, 1)

/-- STAGE with COUNT n: BUSY, WRONG_STATE, or the checks of R190 and the start of the resolution. -/
def plStage (s : State) (k n : Nat) : State × Nat :=
  let x := slot s k
  if x.work ≠ .none then (s, 2)
  else if x.state ≠ .staging ∧ x.state ≠ .rejected then (s, 1) else
  let s := setSlot s k { x with state := .staging, deltas := BitVec.ofNat 16 n, reason := 0, work := .expand,
                                entries := [], xt := false, detailIdx := 0, detailCh := 0, detailValid := false,
                                stagedAt := s.now, band := band s }
  if 32768 < n then (rejectPlan s k 1 none, 0)
  else if s.boot.stage.val < 4 ∨ (tab s kST).running = 1 then (rejectPlan s k 7 none, 0)
  else
    let r := resolve s k n
    match r.fail with
    | some (reason, i, ch) => (rejectPlan r.s k reason (some (i, ch)), 0)
    | none => (r.s, 0)

/-- Every tile has room for the slot's entries (R188). -/
def hasRoom (s : State) (k : Nat) : Bool :=
  let x := slot s k
  let others := setSlot s k { x with state := .admitted }
  (slotTiles x).all (fun t => decide (tileEntries x t ≤ tileFree others t))

/-- ARM: WRONG_STATE under PARK_HOLD or from another state, BUSY, NO_BUFFER, or the copy; from 5 COMMITTED admission first. -/
def plArm (s : State) (k : Nat) : State × Nat :=
  let x := slot s k
  if x.work ≠ .none then (s, 2)
  else if s.bell.parkHold ∨ (x.state ≠ .admitted ∧ x.state ≠ .committed) then (s, 1)
  else if !hasRoom s k then (s, 3)
  else if x.state = .admitted then (setSlot s k { x with state := .armed, ready := false, work := .copy }, 0)
  else (startAdmit (setSlot s k { x with state := .armed, ready := false, work := .redo }) k, 0)

/-- An armed slot goes back to 3 ADMITTED, with the admission that a redo still owed, and its request ends (R185, R205). -/
def disarm (s : State) (k : Nat) : State :=
  let x := slot s k
  let s := setSlot s k { x with state := .admitted, ready := false, work := if x.work = .redo then .admission else .none }
  let s := endReq s k 4
  if x.work = .redo then s else planDone s k

/-- DISARM; WRONG_STATE in the cycle in which a commit source reaches the slot with READY 1 (R187). -/
def plDisarm (s : State) (k : Nat) : State × Nat :=
  let x := slot s k
  if x.state ≠ .armed ∨ (x.ready && committing s k) then (s, 1) else (disarm s k, 0)

/-- RELEASE: the work is abandoned and the slot emptied. -/
def plRelease (s : State) (k : Nat) : State × Nat :=
  let x := slot s k
  if x.state = .empty ∨ x.state = .armed then (s, 1) else
  (planDone (endReq (setSlot s k {}) k 4) k, 0)

/-- A command of PL_CMD, from the register or from JCP (R185, R186). -/
def planCmd (s : State) (cmd k count : Nat) : State :=
  let r := match cmd with
    | 1 => plOpen s k
    | 2 => plStage s k count
    | 3 => plArm s k
    | 4 => plDisarm s k
    | _ => plRelease s k
  plResult r.1 cmd k (if cmd = 2 then count else 0) r.2

/-! ### BAR2 writes into the plan and table windows -/

/-- The delta area of a slot takes writes (R189). -/
def deltasOpen (x : SlotSt) : Bool :=
  x.state == .empty || x.state == .rejected || (x.state == .staging && x.work == .none)

/-- Words for a delta area are stored, or discarded with DELTA_LOCKED (R189). -/
def deltaStore (s : State) (off a : Nat) (data : List Word) : State :=
  if deltasOpen (slot s ((a - 0xD0_0000) / 0x4_0000)) then setBores s a data else post s pgPLAN 2 (BitVec.ofNat 32 off)

/-- Words for the setpoint table are stored with DIRTY set, or discarded while LOAD runs (R173, R176, R178). -/
def setpointStore (s : State) (off a : Nat) (data : List Word) : State :=
  if (tab s kST).running = 1 then post s pgSTAB 4 (BitVec.ofNat 32 (off - 0x80_0000))
  else
    let s := setBores s a data
    setTab s kST { tab s kST with dirty := 1 }

/-- The shape bank of a Bore address. -/
def shapeBank (a : Nat) : Nat := (a - 0xA0_0000) / 0x2_0000

/-- A word for a shape bank is stored with the bank's DIRTY set, or discarded while LOAD runs (R244). -/
def shapeStore (s : State) (off a : Nat) (w : Word) : State :=
  if (tab s kTG).running = 1 then post s pgTONGUE 4 (BitVec.ofNat 32 (off - 0xA0_0000))
  else
    let s := setBore s a w
    setTab s kTG { tab s kTG with dirty := (tab s kTG).dirty ||| BitVec.ofNat 6 (2 ^ shapeBank a) }

/-- A write into the bank in force redoes the slots (R243). -/
def shapeWritten (s : State) (as : List Nat) : State :=
  if (tab s kTG).running ≠ 1 ∧ (as.map shapeBank).contains (band s) then redoAll s else s

end Sys2Proof.Machine
end

