-- ==== Sys2Proof/Machine/Commit.lean ====
section
/-! DEFINITION. Commit requests, schedules and the strobe, and writes of the BREATH page (R199 to R216, R225, R229 to R231;
06_commit_breath.md). -/

namespace Sys2Proof.Machine

/-! ### Requests (R199 to R208) -/

/-- A SYNC_IN edge is dropped: counted and reported with the result (R84, R202). -/
def syncDrop (s : State) (result : Nat) : State :=
  post (satReg s (ro pgCOMMIT 0x54) 16 16) pgCOMMIT 1 (BitVec.ofNat 32 result)

/-- A request arrives at the commit fabric: it completes at once, or becomes pending with its path latency, 16 cc longer from WARM
(R5, R84, R200, R202, R205; log 17). -/
def commitRequest (s : State) (src k : Nat) (cut : Bool) (tag : Option Nat) : State :=
  if s.boot.stage.val < 3 then syncDrop s 1
  else if s.boot.stage.val < 4 then finish (if src = 0 then syncDrop s 1 else s) k src cut 1 0 s.now tag
  else if 3 ≤ level s then finish s k src cut 6 0 s.now tag
  else if (slot s k).state ≠ .armed then finish s k src cut 2 0 s.now tag
  else if (req s k).isSome then finish (if src = 0 then syncDrop s 5 else s) k src cut 5 0 s.now tag
  else setReq s k { src := BitVec.ofNat 2 src, cut := cut, arrived := s.now, tag := tag.map (Fin.ofNat 512),
                    lat := pathLat src + if s.power.fast = .warm then 16 else 0 }

/-- SYNC_IN_EDGE (R209): an edge of the selected polarity is one request for SYNC_SLOT; one less than 2 cc after the last that counted
is part of it (log 1). -/
def execSyncInEdge (falling : Bool) (s : State) : Result :=
  let s := { s with host := { s.host with syncIn := !falling } }
  let c := getReg s (ro pgCOMMIT 0x40)
  let close := match s.host.syncEdge with | some t => decide (s.now < t + 2) | none => false
  if domOn s 3 && bit c 0 && bit c 1 == falling && !close then
    .next (commitRequest { s with host := { s.host with syncEdge := some s.now } } 0 (fld c 4 4) (bit c 2) none)
  else .next s

/-- COMMIT_NOW (R199). -/
def execCommitNow (fn : Fn) (k : Slot) (cut : Bool) (s : State) : Result :=
  .next (guarded s { fn := fn, off := ro pgCOMMIT 0x44, write := true, lvl := 1, slot := some k.val }
    (fun s => commitRequest s 2 k.val cut none))

/-! ### Schedules (R210, R230) -/

/-- A schedule entry is armed. -/
def schedEn (s : State) (k : Nat) : Bool := bit (getReg s (ro pgCOMMIT 0x64)) k
def setSchedEn (s : State) (k : Nat) (on : Bool) : State := putReg s (ro pgCOMMIT 0x64) k 1 (b2n on)
/-- CUT of a schedule entry. -/
def schedCut (s : State) (k : Nat) : Bool := bit (getReg s (ro pgCOMMIT 0x68)) k
/-- The scheduled time of an entry. -/
def schedTime (s : State) (k : Nat) : Nat :=
  (getReg s (ro pgCOMMIT (0x104 + 8 * k))).toNat * 2 ^ 32 + (getReg s (ro pgCOMMIT (0x100 + 8 * k))).toNat
/-- The JCP tag that loaded an entry is taken from it (R230). -/
def takeSchedTag (s : State) (k : Nat) : State × Option Nat :=
  ({ s with cmdq := { s.cmdq with schedTag := tabDel s.cmdq.schedTag k } }, s.cmdq.schedTag.lookup k)

/-- Bit s is written 1: NO_SCHED, LATE, or the entry is armed; the result is that of R215, 0 for armed (R210). -/
def schedArm (s : State) (k : Nat) (tag : Option Nat) : State × Nat :=
  if !featOn s 2 then (finish s k 1 (schedCut s k) 9 0 s.now tag, 9)
  else if schedTime s k < shelfNow s + 3 then (finish s k 1 (schedCut s k) 8 0 s.now tag, 8)
  else
    let s := setSchedEn s k true
    match tag with
    | some t => ({ s with cmdq := { s.cmdq with schedTag := tabIns s.cmdq.schedTag k t } }, 0)
    | none => (s, 0)

/-- CM_SCHED_ARM (R210). -/
def execCmSchedArm (fn : Fn) (k : Slot) (s : State) : Result :=
  .next (wr s fn pgCOMMIT 0x64 1 (fun s => if schedEn s k.val then s else (schedArm s k.val none).1))

/-- An armed entry ends without firing: its result, record and JCP completion (R210, R230, R557). -/
def schedEnd (s : State) (k result : Nat) : State :=
  let p := takeSchedTag (setSchedEn s k false) k
  finish p.1 k 1 (schedCut s k) result 0 s.now p.2

/-- CM_SCHED_CANCEL (R230). -/
def execCmSchedCancel (fn : Fn) (k : Slot) (s : State) : Result :=
  .next (wr s fn pgCOMMIT 0x64 1 (fun s => if schedEn s k.val then schedEnd s k.val 10 else s))

/-- A write of CM_SCHED_T: refused while the entry is armed (R230). -/
def schedTWrite (s : State) (o : Nat) (v : Word) : State :=
  if schedEn s ((o - 0x100) / 8) then post s pgCOMMIT 13 (BitVec.ofNat 32 o) else writeReg s (ro pgCOMMIT o) v

/-- CM_SCHED_T_WRITE. -/
def execCmSchedTWrite (fn : Fn) (k : Slot) (hi : Bool) (v : Word) (s : State) : Result :=
  let o := 0x100 + 8 * k.val + if hi then 4 else 0
  .next (wr s fn pgCOMMIT o 1 (fun s => schedTWrite s o v))

/-- A write of CM_SCHED_EN: each bit that rises arms its entry, each that falls cancels (R210, R230). -/
def schedEnWrite (s : State) (v : Word) : State :=
  slotList.foldl (fun s k =>
    if bit v k = schedEn s k then s
    else if bit v k then (schedArm s k none).1 else schedEnd s k 10) s

/-- SCHEDULE_FIRE (R210): shelf time reaches the scheduled time less the SYNC_IN path latency; firing clears the bit and is one
request. -/
def execScheduleFire (k : Slot) (s : State) : Result :=
  if schedEn s k.val ∧ schedTime s k.val ≤ shelfNow s + 3 then
    let p := takeSchedTag (setSchedEn s k.val false) k.val
    .next (commitRequest p.1 1 k.val (schedCut s k.val) p.2)
  else .next s

/-! ### The strobe (R201, R206, R207, R211 to R214) -/

/-- The strobe reaches one reed of the plan: freeze, group and offset, and with an entry of an armed reed the start of its DRIVE delay (R214, R271,
TL_TP_REED). -/
def strobeReed (x : SlotSt) (s : State) (r : Nat) : State :=
  let own := x.entries.filter (fun e => e.ch / 32 == r)
  let plain := own.any (fun e => e.segs.isEmpty || e.range != (chan s e.ch).range)
  let s := freezeReed s r plain
  setReed s r { reed s r with
    group := BitVec.ofNat 4 (tabGet (fun _ => 0) x.reedGroup r), offset := BitVec.ofNat 12 (offsetOf x r),
    strobeAt := s.now,
    drvDue := (reed s r).drvDue ++ (if own.isEmpty || !(reed s r).drvArmed then [] else [s.now]) }

/-- The strobe reaches one entry's channel: AT_PARK clears, and the entry begins or waits for its offset (R126, R129, R238);
a park or dark-tile write of this cycle discards it (R27). -/
def strobeEntry (x : SlotSt) (k : Nat) (s : State) (e : Entry) : State :=
  let c := chan s e.ch
  if c.fuse ≠ .clear || outranks s c 2 then s else
  let s := setChan s e.ch { c with atPark := false, waiting := some (k, e) }
  if offsetOf x (e.ch / 32) = 0 then beginEntry s e.ch k e else s

/-- The strobe reaches one tile of the plan (R201, R213). -/
def strobeTile (s : State) (t : Nat) : State :=
  setTile s t { tile s t with lastStrobe := some s.now }

/-- The strobe of slot `k`'s request. -/
def strobe (s : State) (k : Nat) (r : Req) : State :=
  let x := slot s k
  let tiles := slotTiles x
  let s := delReq { s with strobeAt := some s.now } k
  let s := if r.cut then mapChans s (fun t => tiles.contains t) (finalChan s.now) else s
  let s := (x.reedGroup.map (·.1)).foldl (strobeReed x) s
  let s := x.entries.foldl (strobeEntry x k) s
  let s := setSlot s k { slot s k with state := .committed, ready := false }
  let s := redoTiles (tiles.foldl strobeTile s) tiles (some k)
  let s := bumpReg s (ro pgCOMMIT 0x50) 0 32
  let s := setReg s (ro pgCOMMIT 0x5C) (BitVec.ofNat 32 (shelfNow s))
  let s := setReg s (ro pgCOMMIT 0x60) (BitVec.ofNat 32 (shelfNow s / 2 ^ 32))
  let s := if r.arrived + r.lat < s.now then bumpReg s (ro pgCOMMIT 0x54) 0 16 else s
  let s := if regFld s (ro pgSLINK 0x40) 8 2 = 2 then { s with host := { s.host with syncEnd := s.now + 8 } } else s
  finish s k r.src.toNat r.cut 0 x.groups.toNat r.arrived (r.tag.map (·.val))

/-- STROBE_ISSUE (R201, R206). -/
def execStrobeIssue (k : Slot) (s : State) : Result :=
  match req s k.val with
  | none => .next s
  | some r => if goesNow s k.val r then .next (strobe s k.val r) else .next s

/-- COMMIT_TIMEOUT (R203): the request has spent CM_WAIT.WAIT_US with READY at 0. -/
def execCommitTimeout (k : Slot) (s : State) : Result :=
  match req s k.val with
  | some r => if regFld s (ro pgCOMMIT 0x48) 0 7 * 1200 ≤ r.waited then .next (endReq s k.val 7) else .next s
  | none => .next s

/-! ### The BREATH page (R225, R231) -/

/-- At least one field of a write to a register is applied (R225). -/
def anyApplied (off : Nat) (v : Word) : Bool := match regRow off with
  | none => false
  | some r => r.acc == .rw &&
      (r.rules.isEmpty || r.rules.any (fun f => !ruleBad [f] v) ||
        r.mask &&& ~~~ (BitVec.ofNat 32 (r.rules.foldl (fun m f => m ||| (2 ^ f.n - 1) * 2 ^ f.lo) 0)) != 0)

/-- A write to a BREATH register. -/
def breathWrite (s : State) (o : Nat) (v : Word) : State :=
  if o < 0x40 then s else
  let s' := writeReg s (ro pgBREATH o) v
  if anyApplied (ro pgBREATH o) v then redoAll s' else s'

/-- BREATH_WRITE: a write of which some field is applied redoes admission of every armed and admitted slot (R225). -/
def execBreathWrite (fn : Fn) (off : BitVec 12) (v : Word) (s : State) : Result :=
  let o := off.toNat / 4 * 4
  .next (wr s fn pgBREATH o 0 (fun s => breathWrite s o v))

end Sys2Proof.Machine
end

