-- ==== Sys2Proof/Machine/Channels.lean ====
section
/-! DEFINITION. Channel supervision, fuses and their commands, valves, dark tiles and reed references (R123, R135 to R144,
R152 to R166, R610, R616; 04_drive_channels.md). -/

namespace Sys2Proof.Machine

/-- The TG domain of a tile is on (R520). -/
def tileOn (s : State) (t : Nat) : Bool := domOn s (12 + t / 4)

/-! ### Fuses (R135 to R141) -/

/-- A channel fuses on its own measurement: 0 A, KIND, CONSEC, LOCKED at FUSE_LOCK; the message is of class 1 TRIP (R137, R139,
R141, R498, R509). -/
def fuseNow (s : State) (ch kind src : Nat) : State :=
  let c := chan s ch
  let t := ch / 1024
  let n := min (c.consec.toNat + 1) 3
  let lock := decide (regFld s (ro (pgTILE t) 0x40) 0 2 ≤ n)
  let s := setChan s ch { fuseChan s.now c (if lock then .locked else .fused) with
    kind := BitVec.ofNat 2 kind, consec := BitVec.ofNat 2 n }
  let s := postAs s (pgTILE t) src 1 kind (BitVec.ofNat 32 ch)
  if lock then post s (pgTILE t) 2 (BitVec.ofNat 32 ch) kind else s

/-- The channel's current exceeds the limiter threshold (R135). -/
def limiterEngage (s : State) (ch : Nat) : State :=
  let c := chan s ch
  if !tileOn s (ch / 1024) ∨ c.fuse ≠ .clear ∨ c.limiting then s else
  postAs (setChan s ch { c with limiting := true, shortFlag := true }) (pgTILE (ch / 1024)) 0 2 0 (BitVec.ofNat 32 ch)

def execLimiterEngage (ch : Chan) (s : State) : Result := .next (limiterEngage s ch.val)

/-- LIMITER_RELEASE (R137). -/
def execLimiterRelease (ch : Chan) (s : State) : Result :=
  .next (setChan s ch.val { chan s ch.val with limiting := false })

/-- SHORT_FUSE (R137): the limiter has been engaged for its time. -/
def execShortFuse (ch : Chan) (s : State) : Result :=
  let c := chan s ch.val
  if c.fuse = .clear ∧ c.limiting then .next (fuseNow s ch.val 1 0) else .next s

/-- COMPL_DETECT (R136). -/
def execComplDetect (ch : Chan) (s : State) : Result :=
  let c := chan s ch.val
  if !tileOn s (ch.val / 1024) ∨ !c.cfg.getLsbD 0 ∨ c.fuse ≠ .clear ∨ c.complLive then .next s else
  .next (post (setChan s ch.val { c with complLive := true, complFlag := true }) (pgTILE (ch.val / 1024)) 1
    (BitVec.ofNat 32 ch.val))

/-- COMPL_FUSE (R137): CO_EN and COMPL_ACT FUSE, compliance exceeded and no tongue on the channel. -/
def execComplFuse (ch : Chan) (s : State) : Result :=
  let c := chan s ch.val
  if c.fuse = .clear ∧ c.complLive ∧ c.cfg.getLsbD 0 ∧ c.cfg.getLsbD 2 ∧ c.tongue.isNone then .next (fuseNow s ch.val 2 1) else .next s

/-- COMPLIANCE_CLEARED (R137). -/
def execComplianceCleared (ch : Chan) (s : State) : Result :=
  .next (setChan s ch.val { chan s ch.val with complLive := false })

/-- CH_CONSEC_RESET (R141). -/
def execChConsecReset (ch : Chan) (s : State) : Result :=
  let c := chan s ch.val
  if c.fuse = .clear then .next (setChan s ch.val { c with consec := 0 }) else .next s

/-! ### TL_CH_CMD (R141 to R144) -/

/-- The source on the TILE page of a fuse kind (R143). -/
def kindSource (kind : Nat) : Nat := match kind with | 2 => 1 | 3 => 10 | _ => 0

/-- RELEASE and UNLOCK are accepted for a channel: its kind's sticky bit is clear, and for REF_LOST its reed has a reference in
window (R143); that a lost reed reference is back in its window is seen outside alone, so it is a free value (log 1). -/
def releaseOk (s : State) (ch : Nat) : Bool :=
  let c := chan s ch
  let r := reed s (ch / 32)
  !sticky s (pgTILE (ch / 1024)) (kindSource c.kind.toNat) &&
    (c.kind != 3 || !r.refBad || (r.onBackup && !(tile s (ch / 1024)).backupFailed) || bit (freeWord s) (ch / 32 % 32))

/-- The channel that TL_CH_IDX selects. -/
def selected (s : State) (t : Nat) : Nat := t * 1024 + regFld s (ro (pgTILE t) 0x48) 0 10

/-- A command acts on the selected channel, or with ALL on every channel of the tile it applies to; a refusal sends REFUSED_CTRL
(R144), and so does a command in a state it does not apply in, OFF among them (DESIGN CHOICE for OFF, log 25). -/
def chCmd (s : State) (t : Nat) (all : Bool) (applies : ChanSt → Bool) (ok : State → Nat → Bool)
    (act : State → Nat → State) : State :=
  let refuse (s : State) : State := post s (pgTILE t) 13 0x5C
  if !all then
    let ch := selected s t
    if applies (chan s ch) && ok s ch then act s ch else refuse s
  else
    let chs := (tileChans t).filter (fun ch => applies (chan s ch))
    let s' := (chs.filter (ok s)).foldl act s
    if chs.all (ok s) then s' else refuse s'

/-- CLR_FLAGS on one channel: each flag clears unless its cause is live. -/
def clearFlags (c : ChanSt) : ChanSt :=
  { c with shortFlag := c.shortFlag && c.limiting, complFlag := c.complFlag && c.complLive }

/-- A command of TL_CH_CMD: 1 RELEASE, 2 UNLOCK, 3 OFF, 4 ON, 5 CLR_FLAGS (R141). -/
def tlChCmd (s : State) (t cmd : Nat) (all : Bool) : State := match cmd with
  | 1 => tick (chCmd s t all (fun c => c.fuse == .fused) releaseOk releaseChan)
  | 2 => tick (chCmd s t all (fun c => c.fuse == .locked) releaseOk (fun s ch =>
      let s := releaseChan s ch
      setChan s ch { chan s ch with consec := 0 }))
  | 3 => chCmd s t all (fun c => c.fuse == .clear || c.fuse == .fused) (fun _ _ => true) (fun s ch =>
      setChan s ch (fuseChan s.now (chan s ch) .off))
  | 4 => chCmd s t all (fun c => c.fuse == .off) (fun _ _ => true) releaseChan
  | 5 => chCmd s t all (fun _ => true) (fun _ _ => true) (fun s ch => setChan s ch (clearFlags (chan s ch)))
  | _ => badEncoding s (pgTILE t) 0x5C

/-- TL_CH_RELEASE. -/
def execTlChRelease (fn : Fn) (t : Tile) (all : Bool) (s : State) : Result :=
  .next (wr s fn (pgTILE t.val) 0x5C 1 (fun s => tlChCmd s t.val 1 all))

/-- TL_CH_UNLOCK: at P0 (R143, R616). -/
def execTlChUnlock (fn : Fn) (t : Tile) (all : Bool) (s : State) : Result :=
  .next (wr s fn (pgTILE t.val) 0x5C 0 (fun s => tlChCmd s t.val 2 all))

/-- TL_CH_OFF (R141). -/
def execTlChOff (fn : Fn) (t : Tile) (all : Bool) (s : State) : Result :=
  .next (wr s fn (pgTILE t.val) 0x5C 1 (fun s => tlChCmd s t.val 3 all))

/-- TL_CH_ON (R141). -/
def execTlChOn (fn : Fn) (t : Tile) (all : Bool) (s : State) : Result :=
  .next (wr s fn (pgTILE t.val) 0x5C 1 (fun s => tlChCmd s t.val 4 all))

/-- TL_CH_CLR_FLAGS (R141). -/
def execTlChClrFlags (fn : Fn) (t : Tile) (all : Bool) (s : State) : Result :=
  .next (wr s fn (pgTILE t.val) 0x5C 1 (fun s => tlChCmd s t.val 5 all))

/-- TL_CH_CFG: supervision of the selected channel; SHORT_ACT needs P0, and CO_EN 0 ends the detection of compliance (R136, R138,
R166, R616). -/
def chCfg (s : State) (fn : Fn) (t : Nat) (v : Word) : State :=
  let ch := selected s t
  let c := chan s ch
  let keep := tooLow fn 0 && bit v 1 != c.cfg.getLsbD 1
  let s := if keep then denied s { fn := fn, off := ro (pgTILE t) 0x4C, write := true, lvl := 0 } 0 else s
  let act := if keep then c.cfg.getLsbD 1 else bit v 1
  setChan s ch { c with
    cfg := BitVec.ofNat 3 (b2n (bit v 0) + 2 * b2n act + 4 * b2n (bit v 2)), complLive := c.complLive && bit v 0 }

/-- TL_CH_CFG_WRITE. -/
def execTlChCfgWrite (fn : Fn) (t : Tile) (v : Word) (s : State) : Result :=
  .next (wr s fn (pgTILE t.val) 0x4C 1 (fun s => chCfg s fn t.val v))

/-- A read of TL_CH_PWR: voltage and power; AUTOINC advances LANE (R152). -/
def chPwrRead (s : State) (t : Nat) : Word × State :=
  let c := chan s (selected s t)
  let idx := ro (pgTILE t) 0x48
  let s := if bit (getReg s idx) 16 then putReg s idx 0 10 (regFld s idx 0 10 + 1) else s
  (pack [(0, 16, c.vHtr.toNat), (16, 16, c.pUw.toNat)], s)

/-- TL_CH_PWR_READ. -/
def execTlChPwrRead (fn : Fn) (t : Tile) (s : State) : Result :=
  .next (rd s fn (pgTILE t.val) 0x58 (fun s => chPwrRead s t.val))

/-- P_STALE (R153). -/
def execPStale (ch : Chan) (s : State) : Result :=
  .next (setChan s ch.val { chan s ch.val with pStale := true })

/-- I_CHECK (R154): not while limiting, in compliance, in a range change or playing a tongue. -/
def execICheck (ch : Chan) (s : State) : Result :=
  let c := chan s ch.val
  if !tileOn s (ch.val / 1024) ∨ c.fuse ≠ .clear ∨ c.limiting ∨ c.complLive ∨ changing c s.now ∨ c.tongue.isSome then .next s
  else .next (post (setChan s ch.val { c with iOk := false }) (pgTILE (ch.val / 1024)) 12 (BitVec.ofNat 32 ch.val))

/-! ### Valves (R156 to R158, R610) -/

/-- TL_VA_STAT.STATE (R156). -/
def ValveState.code : ValveState → Nat
  | .blocked => 0 | .conduct => 1 | .limit => 2 | .softStart => 3 | .tripped => 4 | .heldOff => 5

/-- The valve feeds the tile node: 1 CONDUCT, 2 LIMIT or 3 SOFT_START. -/
def ValveState.feeds (v : ValveState) : Bool := v == .conduct || v == .limit || v == .softStart
/-- The valve is in 1 CONDUCT or 2 LIMIT. -/
def ValveState.carries (v : ValveState) : Bool := v == .conduct || v == .limit

def valve (x : TileSt) (v : Valve) : ValveState := match v with | .va => x.va | .vb => x.vb
def otherValve (v : Valve) : Valve := match v with | .va => .vb | .vb => .va

/-- A valve takes a state and a current reading; a tile fed again is dark no longer. -/
def TileSt.withValve (x : TileSt) (v : Valve) (st : ValveState) (i : BitVec 12) : TileSt :=
  let x := match v with | .va => { x with va := st, iVa := i } | .vb => { x with vb := st, iVb := i }
  { x with dark := x.dark && !st.feeds }

/-- A valve moves: a valve state is an input of R26 for the slots with entries in the tile. -/
def valveMove (s : State) (t : Nat) (v : Valve) (st : ValveState) (i : BitVec 12) : State :=
  redoIf (setTile s t ((tile s t).withValve v st i)) (fun x => inTile x t)

/-- The tile is in an exempt interval (R159). -/
def exemptNow (now : Nat) (x : TileSt) : Bool := x.exempt || decide (now < x.exemptTill)

/-- The state in which a valve closes: 3 SOFT_START on a dark tile, or on one not yet charged since the rails came up, else 1 CONDUCT
(R156, R165). -/
def closeState (now : Nat) (x : TileSt) : ValveState :=
  if x.dark || (exemptNow now x && !x.va.carries && !x.vb.carries) then .softStart else .conduct

/-- A valve event acts when the tile's domain is on and the valve is in a state that `p` names. -/
def valveEvent (s : State) (t : Nat) (v : Valve) (p : ValveState → Bool) (k : State → State) : State :=
  if tileOn s t && p (valve (tile s t) v) then k s else s

/-- A valve opens with a trip: a CONTAIN reaction of its own (R157). -/
def valveTrip (s : State) (t : Nat) (v : Valve) (i : BitVec 12) : State :=
  post (valveMove s t v .tripped 0) (pgTILE t) (match v with | .va => 3 | .vb => 4) (BitVec.ofNat 32 i.toNat)

/-- VALVE_REJOIN. -/
def execValveRejoin (t : Tile) (v : Valve) (s : State) : Result :=
  .next (valveEvent s t.val v (· == .blocked) (fun s => valveMove s t.val v (closeState s.now (tile s t.val)) 0))

/-- VALVE_LIMIT_ENTER. -/
def execValveLimitEnter (t : Tile) (v : Valve) (i : BitVec 12) (s : State) : Result :=
  .next (valveEvent s t.val v (· == .conduct) (fun s => valveMove s t.val v .limit i))

/-- VALVE_LIMIT_EXIT. -/
def execValveLimitExit (t : Tile) (v : Valve) (i : BitVec 12) (s : State) : Result :=
  .next (valveEvent s t.val v (· == .limit) (fun s => valveMove s t.val v .conduct i))

/-- VALVE_LIMIT_EXPIRED. -/
def execValveLimitExpired (t : Tile) (v : Valve) (i : BitVec 12) (s : State) : Result :=
  .next (valveEvent s t.val v (· == .limit) (fun s => valveTrip s t.val v i))

/-- VALVE_FAST_TRIP: in 1 CONDUCT, 2 LIMIT and 3 SOFT_START. -/
def execValveFastTrip (t : Tile) (v : Valve) (i : BitVec 12) (s : State) : Result :=
  .next (valveEvent s t.val v (·.feeds) (fun s => valveTrip s t.val v i))

/-- VALVE_REVERSE_BLOCK; `rail` in 10 mV. -/
def execValveReverseBlock (t : Tile) (v : Valve) (rail : BitVec 16) (s : State) : Result :=
  .next (valveEvent s t.val v (·.carries) (fun s =>
    post (valveMove s t.val v .blocked 0) (pgTILE t.val) (match v with | .va => 5 | .vb => 6) (BitVec.ofNat 32 rail.toNat)))

/-- SOFT_START_DONE. -/
def execSoftStartDone (t : Tile) (v : Valve) (s : State) : Result :=
  .next (valveEvent s t.val v (· == .softStart) (fun s => valveMove s t.val v .conduct 0))

/-- SOFT_START_TIMEOUT. -/
def execSoftStartTimeout (t : Tile) (v : Valve) (i : BitVec 12) (s : State) : Result :=
  .next (valveEvent s t.val v (· == .softStart) (fun s => valveTrip s t.val v i))

/-- A TL_VALVE_CMD command: performed, or refused with REFUSED_CTRL. -/
def valveCmd (s : State) (t : Nat) (ok : Bool) (k : State → State) : State :=
  if ok then k s else post s (pgTILE t) 13 0x68

/-- RELEASE: the trip's sticky bit clear and the rail at 4.5 V or more; `rail` in 10 mV (R157). -/
def valveRelease (s : State) (t : Nat) (v : Valve) (rail : Nat) : State :=
  valveCmd s t (valve (tile s t) v == .tripped && decide (450 ≤ rail) &&
      !sticky s (pgTILE t) (match v with | .va => 3 | .vb => 4))
    (fun s => valveMove s t v (closeState s.now (tile s t)) 0)

/-- OFF: while the other valve is in 1 CONDUCT or 2 LIMIT (R157). -/
def valveOff (s : State) (t : Nat) (v : Valve) : State :=
  valveCmd s t (valve (tile s t) v != .heldOff && (valve (tile s t) (otherValve v)).carries)
    (fun s => valveMove s t v .heldOff 0)

/-- ON (R156). -/
def valveOn (s : State) (t : Nat) (v : Valve) : State :=
  valveCmd s t (valve (tile s t) v == .heldOff) (fun s => valveMove s t v (closeState s.now (tile s t)) 0)

/-- TL_VALVE_RELEASE. -/
def execTlValveRelease (fn : Fn) (t : Tile) (v : Valve) (rail : BitVec 16) (s : State) : Result :=
  .next (wr s fn (pgTILE t.val) 0x68 1 (fun s => valveRelease s t.val v rail.toNat))

/-- TL_VALVE_OFF: at P0. -/
def execTlValveOff (fn : Fn) (t : Tile) (v : Valve) (s : State) : Result :=
  .next (wr s fn (pgTILE t.val) 0x68 0 (fun s => valveOff s t.val v))

/-- TL_VALVE_ON. -/
def execTlValveOn (fn : Fn) (t : Tile) (v : Valve) (s : State) : Result :=
  .next (wr s fn (pgTILE t.val) 0x68 1 (fun s => valveOn s t.val v))

/-- The dark-tile write to one channel: code 0 and AT_PARK, tongue and waiting entry abandoned (R127, R159); a fused channel, at
code 0 already, keeps its fuse and its source. -/
def darkChan (now : Nat) (c : ChanSt) : ChanSt :=
  if c.fuse ≠ .clear then { c with atPark := true }
  else { c with code := 0, src := 5, wrote := some now, unlooped := none, change := none,
                atPark := true, tongue := none, waiting := none }

/-- TILE_DARK (R159): from the park strobe on, neither valve feeds the tile. -/
def execTileDark (t : Tile) (s : State) : Result :=
  let x := tile s t.val
  if !tileOn s t.val ∨ exemptNow s.now x ∨ x.dark ∨ x.va.feeds ∨ x.vb.feeds then .next s else
  let s := setTile s t.val { x with dark := true }
  let s := { s with chans := tabMap (fun _ => {}) s.chans (t.val * 1024) 1024 (fun _ c => darkChan s.now c) }
  .next (post s (pgTILE t.val) 7 (pack [(0, 3, x.va.code), (4, 3, x.vb.code)]))

/-- The sums differ by more than 20 mA plus 2 % of ISUM, in 0.3125 nA (R155). -/
def sumsDiffer (isum : Nat) (diffMa : Int) : Bool := decide (20 * mA + isum / 50 < diffMa.natAbs * mA)

/-- ISUM_MISMATCH (R155): paused while a tongue plays or a valve limits or soft-starts. -/
def execIsumMismatch (t : Tile) (diffMa : BitVec 32) (s : State) : Result :=
  let x := tile s t.val
  let pausedBy (v : ValveState) : Bool := v == .limit || v == .softStart
  if !tileOn s t.val ∨ tilePlays s t.val ∨ pausedBy x.va ∨ pausedBy x.vb ∨ !sumsDiffer (isum s t.val) diffMa.toInt then .next s else
  .next (post (setTile s t.val { x with mismatchAt := some (isum s t.val) }) (pgTILE t.val) 11 diffMa)

/-- ISUM_MISMATCH of a tile is live (log 27). -/
def mismatchLive (s : State) (t : Nat) : Bool := (tile s t).mismatchAt == some (isum s t)

/-! ### References (R160 to R164) -/

/-- REED_REF_FAIL: the reed transfers to the backup, or with the backup failed its clear channels fuse REF_LOST, also those of a
reed that is on the backup or moving to it (R161, R163). -/
def refFail (s : State) (r : Nat) : State :=
  let x := reed s r
  let t := r / 32
  let q : Word := BitVec.ofNat 32 (r % 32)
  if !tileOn s t then s
  else if !(tile s t).backupFailed then
    if x.onBackup || x.transfer then s else
    post (setReed s r { x with refBad := true, transfer := true }) (pgTILE t) 8 q
  else
    let s := setReed s r { x with refBad := true, transfer := false }
    let s := { s with chans := tabMap (fun _ => {}) s.chans (r * 32) 32 (fun _ c =>
      if c.fuse = .clear then { fuseChan s.now c .fused with kind := 3 } else c) }
    post s (pgTILE t) 10 q 3

def execReedRefFail (r : Reed) (s : State) : Result := .next (refFail s r.val)

/-- REF_TRANSFER_DONE (R161). -/
def execRefTransferDone (r : Reed) (s : State) : Result :=
  let x := reed s r.val
  if x.transfer then .next (setReed s r.val { x with transfer := false, onBackup := true }) else .next s

/-- BACKUP_FAIL (R160). -/
def execBackupFail (t : Tile) (disagree : BitVec 6) (s : State) : Result :=
  let x := tile s t.val
  if !tileOn s t.val ∨ x.backupFailed then .next s else
  .next (post (setTile s t.val { x with backupFailed := true }) (pgTILE t.val) 9 (BitVec.ofNat 32 disagree.toNat))

/-- BACKUP_RECOVER (R160). -/
def execBackupRecover (t : Tile) (s : State) : Result :=
  .next (setTile s t.val { tile s t.val with backupFailed := false })

/-- RETURN of TL_REF_CMD (R164). -/
def refReturn (s : State) (r : Nat) (inWindow : Bool) : State :=
  let x := reed s r
  if x.onBackup && inWindow && !sticky s (pgTILE (r / 32)) 8 && !reedPlays s r then
    setReed s r { x with onBackup := false, refBad := false }
  else post s (pgTILE (r / 32)) 13 0x78

/-- TL_REF_RETURN. -/
def execTlRefReturn (fn : Fn) (t : Tile) (q : Fin 32) (inWindow : Bool) (s : State) : Result :=
  .next (wr s fn (pgTILE t.val) 0x78 1 (fun s => refReturn s (t.val * 32 + q.val) inWindow))

end Sys2Proof.Machine
end

