-- ==== Sys2Proof/Machine/Park.lean ====
section
/-! DEFINITION. Park events, the park loader and the park store (R86 to R90, R145 to R151, R167, R611; 04_drive_channels.md). -/

namespace Sys2Proof.Machine

/-! ### Park events (R150, R151) -/

/-- A park event is requested on the tiles of a mask; a mask of 0 does nothing. Tiles of a domain that is off are not reached
(log 23). -/
def parkEvent (s : State) (cause : Nat) (tiles : Word) : State :=
  if tiles = 0 then s else
  let left := BitVec.ofNat 32 (maskOf ((bitsOf tiles.toNat 32).filter (tileOn s)))
  let e : ParkEvent := { cause := BitVec.ofNat 4 cause, tiles := tiles, left := left }
  let s := { s with park := { s.park with
    lastCause := BitVec.ofNat 4 cause, events := if left = 0 then s.park.events else s.park.events ++ [e] } }
  post s pgPARK 4 tiles cause

/-- Every tile. -/
abbrev allTiles : Word := 0xFFFF_FFFF

/-- The first event that has not reached tile `t` has reached it. -/
def reachFirst (t : Nat) : List ParkEvent → Option (List ParkEvent)
  | [] => none
  | e :: es =>
    if e.left.getLsbD t then
      let left := e.left &&& ~~~ (BitVec.ofNat 32 (2 ^ t))
      some (if left = 0 then es else { e with left := left } :: es)
    else (reachFirst t es).map (e :: ·)

/-- PARK_EVENT_REACH_TILE: every channel of the tile takes its park code and range (R150), and READY of the armed slots with
entries there clears (R192). -/
def parkReach (s : State) (t : Nat) : State :=
  match reachFirst t s.park.events with
  | none => s
  | some es =>
    let s := { s with park := { s.park with events := es } }
    redoTile ((tileChans t).foldl parkChan s) t

def execParkEventReachTile (t : Tile) (s : State) : Result := .next (parkReach s t.val)

/-! ### The loader (R86 to R89) -/

/-- CRC-32 register after `n` entries of two bytes from channel `ch`, low byte first. -/
def crcEntries (es : Tab (BitVec 16)) (c ch : Nat) : Nat → Nat
  | 0 => c
  | n + 1 => match es with
    | (k, w) :: rest =>
      if k = ch then crcEntries rest (crcByte (crcByte c (w.toNat % 256)) (w.toNat / 256)) (ch + 1) n
      else crcEntries es (crcByte (crcByte c 0) 0) (ch + 1) n
    | [] => crcEntries [] (crcByte (crcByte c 0) 0) (ch + 1) n

/-- CRC-32 of the 64 KiB of entries followed by GEN (R145). -/
def parkCrc (es : Tab (BitVec 16)) (gen : Word) : Word :=
  let c := crcEntries es 0xFFFF_FFFF 0 32768
  BitVec.ofNat 32 ((List.range 4).foldl (fun c i => crcByte c (byteOf gen i).toNat) c ^^^ 0xFFFF_FFFF)

/-- A copy passes its CRC (R87). -/
def ParkCopy.intact (c : ParkCopy) : Bool := c.crc == parkCrc c.entries c.gen

/-- The copy that the rule of R87 reads, COPY_USED, and the message that reading it sends. -/
def readStore (s : State) : Tab (BitVec 16) × BitVec 2 × State :=
  let c0 := s.park.copy0
  let c1 := s.park.copy1
  if c0.intact then (c0.entries, 0, s)
  else if c1.intact then (c1.entries, 1, post s pgPARK 1 c1.gen)
  else ([], 2, post s pgPARK 0 c0.gen)

/-- PARK_LOADER_START (R87, R90): HVA and HVB are both good. -/
def execParkLoaderStart (s : State) : Result :=
  if driveOn s && !s.park.strobed && s.rails.pg.getLsbD 4 && s.rails.pg.getLsbD 5 then
    .next { s with park := { s.park with loader := true } }
  else .next s

/-- Every channel's park register takes the shadow (R146, R148); those of a TG domain that is off are held too (R522). -/
def loadParkRegs (s : State) : State :=
  let sh := s.park.shadow
  { s with chans := tabMap (fun _ => {}) s.chans 0 32768 (fun ch c => { c with park := tabGet (fun _ => 0) sh ch }) }

/-- PARK_STROBE: the loader's copy goes to the shadow and the park registers, the park event of cause 0 starts and the pad test
takes every reed's modulator (R87, R88, R146, R159, R287). -/
def parkStrobe (s : State) (loadUs : Nat) : State :=
  if !s.park.loader then s else
  let r := readStore s
  let s := r.2.2
  let s := { s with park := { s.park with
    shadow := r.1, copyUsed := r.2.1, loader := false, loaded := true, strobed := true, dirty := false } }
  let s := loadParkRegs s
  let s := { s with
    tiles := tabMap (fun _ => {}) s.tiles 0 32 (fun _ x => { x with exempt := false }),
    reeds := tabMap (fun _ => {}) s.reeds 0 1024 (fun _ x => { x with padHold := true }),
    boot := { s.boot with padRun := true, padTiles := allTiles } }
  parkEvent (putReg s (ro pgPARK 0x68) 0 16 loadUs) 0 allTiles

def execParkStrobe (loadUs : BitVec 16) (s : State) : Result := .next (parkStrobe s loadUs.toNat)

/-! ### PK_CMD and PK_DATA (R147 to R149, R167, R611) -/

/-- PK_STAT.BUSY: UPDATE, APPLY, RELOAD, the loader or a park event runs (R611). -/
def parkStatBusy (s : State) : Bool :=
  s.park.update.isSome || s.park.apply || s.park.reload || s.park.loader || !s.park.events.isEmpty

/-- UPDATE, APPLY, RELOAD or the loader runs. -/
def parkBusy (s : State) : Bool := s.park.update.isSome || s.park.apply || s.park.reload || s.park.loader

/-- PK_PARK_ALL. -/
def execPkParkAll (fn : Fn) (s : State) : Result := .next (wr s fn pgPARK 0x44 1 (fun s => parkEvent s 5 allTiles))

/-- PK_PARK_TILES. -/
def execPkParkTiles (fn : Fn) (s : State) : Result :=
  .next (wr s fn pgPARK 0x44 1 (fun s => parkEvent s 5 (getReg s (ro pgPARK 0x48))))

/-- A command is refused as BUSY (R611). -/
def parkRefuse (s : State) : State :=
  post { s with park := { s.park with lastErr := 4 } } pgPARK 13 0x44

/-- The copy that has been programmed 100,000 times, if any (R149); of two, copy 0 is named (DESIGN CHOICE, log 23). -/
def wornCopy (s : State) : Option Nat :=
  if 100000 ≤ s.park.copy0.cycles.toNat then some 0 else if 100000 ≤ s.park.copy1.cycles.toNat then some 1 else none

/-- UPDATE: refused as BUSY or WORN, or the copy of the shadow is taken (R147, R149). -/
def parkUpdate (s : State) : State :=
  if parkBusy s then parkRefuse s else
  match wornCopy s with
  | some c => post { s with park := { s.park with lastErr := 3 } } pgPARK 3 (BitVec.ofNat 32 c)
  | none => { s with park := { s.park with update := some s.park.shadow, dirty := false, lastErr := 0 } }

/-- PK_UPDATE. -/
def execPkUpdate (fn : Fn) (s : State) : Result := .next (wr s fn pgPARK 0x44 0 parkUpdate)

/-- A copy is programmed with the entries and generation and their CRC; a failure leaves its CRC wrong (log 23). -/
def programCopy (c : ParkCopy) (es : Tab (BitVec 16)) (gen : Word) (ok : Bool) : ParkCopy :=
  { entries := es, gen := gen, crc := if ok then parkCrc es gen else ~~~ parkCrc es gen, cycles := c.cycles + 1 }

/-- PK_UPDATE_DONE: both copies hold the new entries, or the programming stopped at a copy with an error (R147); PROG_FAIL gives the
copy and, where PK_STAT has it, LAST_ERR (log 5). -/
def parkUpdateDone (s : State) (failed : Option (Fin 2)) (verify : Bool) : State :=
  match s.park.update with
  | none => s
  | some es =>
    let p := s.park
    let gen := (if p.copy0.gen.toNat ≤ p.copy1.gen.toNat then p.copy1.gen else p.copy0.gen) + 1
    let err : BitVec 4 := if failed.isNone then 0 else if verify then 2 else 1
    let one := programCopy p.copy1 es gen (failed != some 1)
    let two := if failed = some 1 then p.copy0 else programCopy p.copy0 es gen (failed != some 0)
    let s := { s with park := { p with
      update := none, copy0 := two, copy1 := one, lastErr := err, dirty := p.dirty || err != 0 } }
    match failed with
    | some c => post s pgPARK 2 (pack [(0, 1, c.val), (4, 4, err.toNat)])
    | none => s

def execPkUpdateDone (failedCopy : Option (Fin 2)) (verify : Bool) (s : State) : Result :=
  .next (parkUpdateDone s failedCopy verify)

/-- APPLY (R148, R611). -/
def parkApply (s : State) : State :=
  if parkBusy s || !s.park.events.isEmpty then parkRefuse s
  else { s with park := { s.park with apply := true, lastErr := 0 } }

/-- PK_APPLY. -/
def execPkApply (fn : Fn) (s : State) : Result := .next (wr s fn pgPARK 0x44 0 parkApply)

/-- PK_APPLY_DONE (R148): the park registers take the shadow; no output moves. -/
def execPkApplyDone (s : State) : Result :=
  if s.park.apply then .next (loadParkRegs { s with park := { s.park with apply := false } }) else .next s

/-- RELOAD (R611). LAST_ERR is 0 once a command is accepted (DESIGN CHOICE, log 23). -/
def parkReload (s : State) : State :=
  if parkBusy s || !s.park.events.isEmpty then parkRefuse s
  else { s with park := { s.park with reload := true, lastErr := 0 } }

/-- PK_RELOAD. -/
def execPkReload (fn : Fn) (s : State) : Result := .next (wr s fn pgPARK 0x44 0 parkReload)

/-- PK_RELOAD_DONE (R611): COPY_USED and the messages are those of the loader's rule (DESIGN CHOICE, log 23). -/
def execPkReloadDone (s : State) : Result :=
  if !s.park.reload then .next s else
  let r := readStore s
  .next { r.2.2 with park := { r.2.2.park with reload := false, dirty := false, shadow := r.1, copyUsed := r.2.1 } }

/-- PAIR advances, wrapping 16,383 to 0. -/
def advancePair (s : State) : State := bumpReg s (ro pgPARK 0x54) 0 14

/-- PAIR of PK_IDX. -/
def parkPair (s : State) : Nat := regFld s (ro pgPARK 0x54) 0 14

/-- A write of PK_DATA: a pair of shadow entries (R147, R167). -/
def parkDataWrite (s : State) (v : Word) : State :=
  let d : Nat → BitVec 16 := fun _ => 0
  let i := 2 * parkPair s
  let sh := tabSet d (tabSet d s.park.shadow i (BitVec.ofNat 16 (fld v 0 16))) (i + 1) (BitVec.ofNat 16 (fld v 16 16))
  advancePair { s with park := { s.park with shadow := sh, dirty := true } }

/-- A read of PK_DATA. -/
def parkDataRead (s : State) : Word × State :=
  let d : Nat → BitVec 16 := fun _ => 0
  let i := 2 * parkPair s
  (pack [(0, 16, (tabGet d s.park.shadow i).toNat), (16, 16, (tabGet d s.park.shadow (i + 1)).toNat)], advancePair s)

/-- PK_DATA_ACCESS. -/
def execPkDataAccess (fn : Fn) (w : Option Word) (s : State) : Result :=
  match w with
  | some v => .next (wr s fn pgPARK 0x58 0 (fun s => parkDataWrite s v))
  | none => .next (rd s fn pgPARK 0x58 parkDataRead)

end Sys2Proof.Machine
end

