-- ==== Sys2Proof/Machine/Tables.lean ====
section
/-! DEFINITION. The command engines of the six table pages: LOAD, SAVE and CHECK against the CAL images, and the content that
each image carries (R168 to R178, R243 to R251, R264 to R269, R291, R310, R346, R356 to R358, R470, R612, R613). -/

namespace Sys2Proof.Machine

/-! ### The six pages -/

/-- The page of a table kind. -/
def tabPage (k : Nat) : Nat := match k with
  | 0 => pgSTAB | 1 => pgTONGUE | 2 => pgMEAS | 3 => pgCAL | 4 => pgLOOP | _ => pgTHM

/-- Offset of the page's command register. -/
def tabCmdOff (k : Nat) : Nat := match k with
  | 0 => 0x40 | 1 => 0x40 | 2 => 0x44 | 3 => 0x48 | 4 => 0x70 | _ => 0x44

/-- Local sources SAVE_FAIL and LOAD_FAIL of the page. -/
def saveSrc (k : Nat) : Nat := if k = kLP then 4 else 1
def loadSrc (k : Nat) : Nat := if k = kLP then 5 else 2

/-- Offset of the page's CAL_GEN register; LOOP has none. -/
def genOff (k : Nat) : Option Nat := match k with
  | 0 => some 0x50 | 1 => some 0x4C | 2 => some 0x50 | 3 => some 0x5C | 4 => none | _ => some 0x4C

/-- Offset of the page's LAST_US register; only STAB and TONGUE have one. -/
def timesOff (k : Nat) : Option Nat := match k with
  | 0 => some 0x54 | 1 => some 0x64 | _ => none

/-- Payload bytes of the image of a kind (14_flash_store.md). -/
def payloadLen (k : Nat) : Nat := match k with
  | 0 => 0x20_0000 | 1 => 0xC_0000 | 2 => 0x8_0000 | 3 => 671776 | 4 => 0x2_1000 | _ => 8208

/-- Bore address of a table that lies in the Bore (R386). -/
def tabBase (k : Nat) : Nat := match k with
  | 0 => 0x80_0000 | 1 => 0xA0_0000 | _ => 0xAC_0000

/-! ### Bytes and words of an image -/

/-- The bytes of a word at `a` that are not zero. -/
def wordCells (a : Nat) (w : Word) : List Host.Cell :=
  ((List.range 4).map (fun i => ((a + i, byteOf w i) : Host.Cell))).filter (fun c => c.2 != 0)

/-- The bytes of consecutive words from `a` that are not zero. -/
def wordsCells (a : Nat) : List Word → List Host.Cell
  | [] => []
  | w :: ws => wordCells a w ++ wordsCells (a + 4) ws

/-- The cells of [lo, lo + n), moved to begin at `dst`. -/
def cellsFrom (m : List Host.Cell) (lo n dst : Nat) : List Host.Cell :=
  (m.filter (fun c => decide (lo ≤ c.1 ∧ c.1 < lo + n))).map (fun c => (c.1 - lo + dst, c.2))

/-- The cells of `cs` that lie in [lo, hi) in rising order and are not zero: the canonical form of a copied range. -/
def cellsIn (hi : Nat) : Nat → List Host.Cell → List Host.Cell
  | _, [] => []
  | lo, c :: cs => if lo ≤ c.1 ∧ c.1 < hi ∧ c.2 ≠ 0 then c :: cellsIn hi (c.1 + 1) cs else cellsIn hi lo cs

/-- `m` with the bytes of [lo, lo + n) replaced by `cs`, whose keys lie there. -/
def cellsInto (m : List Host.Cell) (lo n : Nat) (cs : List Host.Cell) : List Host.Cell :=
  m.filter (fun c => decide (c.1 < lo)) ++ cellsIn (lo + n) lo cs ++ m.filter (fun c => decide (lo + n ≤ c.1))

/-- CRC-32 of the image of LENGTH `len` at byte `a`: bytes 0x00 to 0x3B and the payload (14_flash_store.md). -/
def imageCrc (m : List Host.Cell) (a len : Nat) : Word :=
  let at' (i : Nat) : Nat := (tabGet (fun _ => (0 : Byte)) m (a + i)).toNat
  let head := (List.range 60).foldl (fun c i => crcByte c (at' i)) 0xFFFF_FFFF
  BitVec.ofNat 32 (((List.range len).foldl (fun c i => crcByte c (at' (64 + i))) head) ^^^ 0xFFFF_FFFF)

/-- The image of a kind in CAL is replaced by a payload with its header; GEN is one higher than before (R470). -/
def putImage (m : List Host.Cell) (kind : Nat) (gen : Word) (payload : List Host.Cell) : List Host.Cell :=
  let a := calAt kind
  let len := payloadLen kind
  let cs := wordsCells a [0x4C41_4358, BitVec.ofNat 32 kind, gen, BitVec.ofNat 32 len, 0x0101_0000]
    ++ payload.map (fun c => (a + 64 + c.1, c.2))
  let m := cellsInto m a 0x200_0000 cs
  setWordAt m (a + 0x3C) (imageCrc m a len)

/-- An imported image, header and payload from offset 0: GEN is one higher than before and the CRC is made to match (R470). -/
def importImage (m : List Host.Cell) (kind : Nat) (gen : Word) (image : List Host.Cell) : List Host.Cell :=
  let a := calAt kind
  let m := cellsInto m a 0x200_0000 (image.map (fun c => (a + c.1, c.2)))
  let m := setWordAt m (a + 8) gen
  setWordAt m (a + 0x3C) (imageCrc m a (payloadLen kind))

/-- GEN of the image of a kind, 0 when there is none. -/
def imageGen (m : List Host.Cell) (kind : Nat) : Word :=
  if wordAt m (calAt kind) = 0x4C41_4358 then wordAt m (calAt kind + 8) else 0

/-! ### The band at a program (R461, R483) -/

/-- The codewords of `len` bytes from byte `off` of a partition, as partition × 2^28 + LCA. -/
def codewords (part off len : Nat) : List Nat :=
  (List.range' (off / 4096) ((off + len + 4095) / 4096 - off / 4096)).map (fun l => part * 2 ^ 28 + l)

/-- Bytes are programmed: their codewords carry the band in force. -/
def notePrograms (s : State) (part off len : Nat) : State :=
  let ks := codewords part off len
  { s with flash := { s.flash with
    pbands := ks.foldl (fun t k => tabSet (fun _ => 0) t k (band s + 1)) s.flash.pbands,
    coldDue := s.flash.coldDue.filter (fun k => !ks.contains k),
    coldPass := s.flash.coldPass.filter (fun k => !ks.contains k) } }

/-! ### Coefficients (R305 to R309) -/

/-- The identity coefficient word. -/
abbrev identity : Word := 0x8000
/-- Coefficient indices of R306. -/
abbrev coefCount : Nat := 167936
/-- The coefficient word at an index. -/
def coef (s : State) (i : Nat) : Word := tabGet (fun _ => identity) s.cal.coef i
/-- A coefficient word is set. -/
def setCoef (s : State) (i : Nat) (w : Word) : State :=
  { s with cal := { s.cal with coef := tabSet (fun _ => identity) s.cal.coef i w } }

/-! ### Content of a kind -/

/-- A table in the Bore takes new bytes: parity is fresh, a word that had failed has been written since; an armed CHECK
injection inverts the parity of its word (R395, R517). -/
def loadRegion (s : State) (k : Nat) (payload : List Host.Cell) : State :=
  let lo := tabBase k
  let n := payloadLen k
  let inside (a : Nat) : Bool := decide (lo ≤ a ∧ a < lo + n)
  let b := s.bore
  let b : Bore := { b with
    mem := cellsInto b.mem lo n (payload.map (fun c => (c.1 + lo, c.2))),
    badPar := b.badPar.filter (fun a => !inside a),
    failed := b.failed.filter (fun a => !inside a),
    rewritten := b.rewritten ++ b.failed.filter inside }
  let s := { s with bore := b }
  let a := fld (getReg s (ro pgBORE 0x24)) 16 16 * 4
  let w := if inside a then a else lo
  match checkFor s w with
  | some (p, i) => let s := useCheck s p i; { s with bore := { s.bore with badPar := s.bore.badPar ++ [w] } }
  | none => s

/-- The LOOP registers that the loop image carries, in the model's order (log 28). -/
def loopImageRegs : List Nat :=
  (List.range 8).map (fun g => 0xC0 + 4 * g) ++ (List.range 8).map (fun g => 0xE0 + 4 * g) ++ [0x44, 0x48, 0x50]

/-- The built-in sequence tables (R268): word 0 of entry `e`. -/
def builtinEntry (e : Nat) : Word :=
  if e < 16 then BitVec.ofNat 32 (0x1_0180 + e) else if e < 48 then BitVec.ofNat 32 (0x1_0100 + e) else 0

/-- The built-in sequence tables as payload bytes. -/
def builtinSeq : List Host.Cell :=
  (List.range 1024).flatMap (fun r => (List.range 48).flatMap (fun e => wordCells (r * 512 + e * 8) (builtinEntry e)))

/-- The content of a kind as payload bytes (14_flash_store.md, CAL images). -/
def tabContent (s : State) (k : Nat) : List Host.Cell := match k with
  | 3 => wordsCells 0 ((List.range coefCount).map (coef s)
      ++ (List.range 8).map (fun c => getReg s (ro pgMETER (0xA0 + 4 * c))))
  | 4 => wordsCells 0 ((List.range 32768).map (fun ch => (loopCh s ch).cfg.setWidth 32)
      ++ loopImageRegs.map (fun o => getReg s (ro pgLOOP o)))
  | 5 => wordsCells 0 ((List.range 2048).map (fun i => tabGet kDefault s.thermal.kernels i)
      ++ (List.range 4).map (fun j => getReg s (ro pgTHM (0x80 + 4 * j))))
  | _ => cellsFrom s.bore.mem (tabBase k) (payloadLen k) 0

/-- Words of an image into consecutive registers. -/
def setRegsFrom (s : State) (p : List Host.Cell) (at' : Nat) (offs : List Nat) : State :=
  (offs.zipIdx).foldl (fun s o => setReg s o.1 (wordAt p (at' + 4 * o.2))) s

/-- The eight MT_CAL words of an image go to the feed die over the IDL, or wait for it (R310, R322). -/
def loadMtCal (s : State) (p : List Host.Cell) : State :=
  let s := { s with cal := { s.cal with mtDue := !idlUp s } }
  if idlUp s then setRegsFrom s p (4 * coefCount) ((List.range 8).map (fun c => ro pgMETER (0xA0 + 4 * c))) else s

/-- The content of a kind is replaced by payload bytes. -/
def tabRestore (s : State) (k : Nat) (p : List Host.Cell) : State := match k with
  | 3 => loadMtCal { s with cal := { s.cal with
      coef := (List.range coefCount).filterMap (fun i =>
        let w := wordAt p (4 * i); if w = identity then none else some (i, w)) } } p
  | 4 =>
    let maps := tabMap (fun _ => ({} : LoopCh)) s.loops 0 32768 (fun ch l => { l with cfg := (wordAt p (4 * ch)).setWidth 13 })
    setRegsFrom { s with loops := maps } p 0x2_0000 (loopImageRegs.map (ro pgLOOP))
  | 5 => setRegsFrom { s with thermal := { s.thermal with
      badKernels := [],
      kernels := (List.range 2048).filterMap (fun i =>
        let w := wordAt p (4 * i); if w = kDefault i then none else some (i, w)) } } p 8192
      ((List.range 4).map (fun j => ro pgTHM (0x80 + 4 * j)))
  | _ => loadRegion s k p

/-- The content that a stage-4 load gives a kind without an image (R174, R245, R268, R310, R346, R358). -/
def tabBuiltin (s : State) (k : Nat) : State := match k with
  | 2 => loadRegion s k builtinSeq
  | 3 => { s with cal := { s.cal with coef := [] } }
  | 4 =>
    let maps := tabMap (fun _ => ({} : LoopCh)) s.loops 0 32768 (fun _ l => { l with cfg := l.cfg &&& 0x1DFF })
    loopImageRegs.foldl (fun s o => setReg s (ro pgLOOP o) (regReset (ro pgLOOP o))) { s with loops := maps }
  | 5 => (List.range 4).foldl (fun s j => setReg s (ro pgTHM (0x80 + 4 * j)) 0)
      { s with thermal := { s.thermal with kernels := [], badKernels := [] } }
  | _ => loadRegion s k []

/-- What a change of a kind's content redoes (R243, R357). -/
def tabRedo (s : State) (k : Nat) : State :=
  if k = kTG then redoAll s else if k = kTH then redoIf s (fun x => !x.entries.isEmpty) else s

/-! ### Commands of the pages -/

/-- A management command's result is ready for its completion (R414, R417). -/
def setRes (s : State) (tag sct sc : Nat) (dw0 dw1 : Word) : State :=
  match cmdOf s tag with
  | none => s
  | some c => setCmd s { c with res := some (sct, sc, dw0, dw1) }

/-- A command written while BUSY is 1 is refused (the command register of each page). -/
def tabRefuse (s : State) (k : Nat) : State :=
  refusedCtrl (setTab s k { tab s k with lastErr := 4 }) (tabPage k) (tabCmdOff k)

/-- A command starts. -/
def tabStart (s : State) (k cmd : Nat) : State :=
  setTab s k { tab s k with running := BitVec.ofNat 4 cmd, lastCmd := BitVec.ofNat 4 cmd, lastErr := 0, startAt := s.now }

/-- A command ends with LAST_ERR: BUSY clears, LAST_US is noted and a waiting TABLE command has its result (R417, R423). -/
def tabEnd (s : State) (k err : Nat) : State :=
  let x := tab s k
  let s := setTab s k { x with running := 0, lastErr := BitVec.ofNat 4 err, copy := [], tag := none }
  let s := match timesOff k with
    | some o => setReg s (ro (tabPage k) o) (BitVec.ofNat 32 ((s.now - x.startAt) / 1200))
    | none => s
  match x.tag with
  | some tg => setRes s tg.val (if err = 0 then 0 else 1) err (BitVec.ofNat 32 err) 0
  | none => s

/-- GEN of the page's image as last loaded or saved. -/
def setGen (s : State) (k : Nat) (g : Word) : State := match genOff k with
  | some o => setReg s (ro (tabPage k) o) g
  | none => s

/-- A LOAD starts; it ends at the page's LOAD_DONE. -/
def tabLoad (s : State) (k : Nat) : State := if tabBusy s k then tabRefuse s k else tabStart s k 1

/-- A LOAD ends: medium failure, no image, or the content replaced with DIRTY clear (R613). -/
def tabLoadDone (s : State) (k : Nat) (ok : Bool) : State :=
  if (tab s k).running ≠ 1 then s
  else if !ok || !flashReads s then tabEnd (post s (tabPage k) (loadSrc k) 2) k 2
  else if !calHas s k then tabEnd (post s (tabPage k) (loadSrc k) 3) k 3
  else
    let s := tabRestore s k (cellsFrom s.flash.cal (calAt k + 64) (payloadLen k) 0)
    let s := setGen s k (imageGen s.flash.cal k)
    let s := setTab s k { tab s k with loaded := true, dirty := 0 }
    tabRedo (tabEnd s k 0) k

/-- The load of a kind during the climb to stage 4: an image, or the built-in content without a fault source (R613). -/
def tabClimbLoad (s : State) (k : Nat) : State :=
  let has := calHas s k
  let s := setTab s k { tab s k with lastCmd := 1, lastErr := if has then 0 else 3, loaded := true, dirty := 0 }
  let s := if has then tabRestore s k (cellsFrom s.flash.cal (calAt k + 64) (payloadLen k) 0) else tabBuiltin s k
  tabRedo (setGen s k (if has then imageGen s.flash.cal k else 0)) k

/-- A SAVE starts: DIRTY clears and the content is copied (R176, R612). -/
def tabSaveStart (s : State) (k : Nat) : State :=
  let s := tabStart s k 2
  setTab s k { tab s k with dirty := 0, copy := tabContent s k }

/-- A SAVE ends without an image. -/
def tabSaveFail (s : State) (k err : Nat) : State :=
  tabEnd (post s (tabPage k) (saveSrc k) (BitVec.ofNat 32 err)) k err

/-- A SAVE ends: its image is durable, or the flash store reported a failure (R177, R251, R291, R310, R346, R358). -/
def tabSaveDone (s : State) (k : Nat) (ok : Bool) : State :=
  if (tab s k).running ≠ 2 then s
  else if !ok || !(domOn s 9 && (s.flash.state == .ready || s.flash.state == .quiescing)) then tabSaveFail s k 2
  else
    let g := imageGen s.flash.cal k + 1
    let s := { s with flash := { s.flash with
      cal := putImage s.flash.cal k g (tab s k).copy } }
    let s := notePrograms s 1 (calAt k) (64 + payloadLen k)
    tabEnd (setGen (journal s 12 [BitVec.ofNat 32 k, g, 0, 0]) k g) k 0

/-! ### Checks -/

/-- Words of a region whose parity fails are read and repaired where they can be (R391). -/
def parSweep (s : State) (k : Nat) : State :=
  (s.bore.badPar.filter (fun a => decide (tabBase k ≤ a ∧ a < tabBase k + payloadLen k))).foldl (fun s a => (parRead s a).1) s

/-- A word of [a, a + n) still fails its parity. -/
def parBad (s : State) (a n : Nat) : Bool := s.bore.badPar.any (fun b => decide (a ≤ b ∧ b < a + n))

/-- Entries that fail their check, lowest first, of `n` entries. -/
def failing (n : Nat) (bad : Nat → Bool) : List Nat := (List.range n).filter bad

/-- The setpoint entries that fail R171. -/
def badSetpoints (s : State) : List Nat := failing 131072 (fun i => !spOk (spWords s i) || parBad s (spAddr i) 16)

/-- The results of a check of the setpoint table (ST_BAD, ST_FIRST_BAD). -/
def noteSetpoints (s : State) (bad : List Nat) : State :=
  setReg (setReg s (ro pgSTAB 0x48) (BitVec.ofNat 32 bad.length)) (ro pgSTAB 0x4C)
    (match bad with | [] => 0 | i :: _ => pack [(0, 17, i), (31, 1, 1)])

/-- A shape that R234 or R235 would play in another form than written: too long, or words after its end (TG_CMD CHECK). -/
def shapeOdd (ws : List Word) : Bool :=
  decide (65535 < segsLen (rawSegs ws)) || (ws.drop (rawSegs ws).length).tail.any (fun w => w != 0)

/-- The shapes that CHECK reports, as bank × 4096 + index. -/
def oddShapes (s : State) : List Nat := failing 24576 (fun i => shapeOdd (shapeWords s (i / 4096) (i % 4096)))

/-- Bore address of entry `e` of reed `r` (R262). -/
def seqAddr (r e : Nat) : Nat := 0xAC_0000 + r * 512 + e * 8

/-- A sequence entry without reserved encodings (R262, R264). -/
def seqOk (w0 w1 : Word) : Bool :=
  let input := fld w0 0 6
  decide (input ≤ 51) && decide (fld w0 8 3 ≤ 4) && decide (fld w0 12 2 ≠ 3) && fld w0 14 2 == 0 && fld w0 24 8 == 0
    && (decide (input < 16) || (fld w0 6 2 == 0 && fld w0 12 2 == 0))
    && decide (fld w1 16 4 ≤ 12) && fld w1 20 12 == 0

/-- The sequence entries that fail R264, as reed × 64 + entry. -/
def badSeqs (s : State) : List Nat :=
  failing 65536 (fun i => !seqOk (boreWord s (seqAddr 0 i)) (boreWord s (seqAddr 0 i + 4)) || parBad s (seqAddr 0 i) 8)

/-- The results of a check of the sequence tables: MS_BAD and MS_BAD_FIRST. -/
def noteSeqs (s : State) (bad : List Nat) : State :=
  setReg (setReg s (ro pgMEAS 0x4C) (BitVec.ofNat 32 bad.length)) (ro pgMEAS 0x84)
    (match bad with | [] => 0 | i :: _ => pack [(0, 16, i), (31, 1, 1)])

/-- A kernel word as a write may set it (R356): reserved bits 0, CGAIN within ±100,000. -/
def kernelWordOk (i : Nat) (v : Word) : Bool :=
  let k := i / 16 % 8
  let w := i % 16
  if k < 6 then
    if w = 0 ∨ w = 2 then true
    else if w = 1 ∨ w = 3 then fld v 9 23 == 0
    else if w ≤ 9 then decide (-100000 ≤ v.toInt ∧ v.toInt ≤ 100000)
    else if w = 10 then fld v 12 4 == 0 && fld v 24 8 == 0
    else if w = 11 then fld v 16 16 == 0
    else v == 0
  else if k = 6 then if w ≤ 14 then fld v 16 16 == 0 else v == 0
  else if w ≤ 1 then fld v 16 16 == 0 else if w = 2 then fld v 8 24 == 0 else v == 0

/-- The kernel words that fail R356. -/
def badKernelWords (s : State) : List Nat :=
  failing 2048 (fun i => !kernelWordOk i (tabGet kDefault s.thermal.kernels i))

/-! ### One command code of a page (the CMD tables) -/

/-- SAVE of a page: a table in the Bore is read before DIRTY clears, and STAB and MEAS check every entry of the content (R176,
MS_CMD). -/
def tabSave (s : State) (k : Nat) : State :=
  if tabBusy s k then tabRefuse s k else
  let s := tabSaveStart (if k ≤ kMS then parSweep s k else s) k
  if k = kST then
    let bad := badSetpoints s
    let s := noteSetpoints s bad
    if bad.isEmpty then s else tabSaveFail s k 1
  else if k = kMS then
    let bad := badSeqs s
    let s := noteSeqs s bad
    if bad.isEmpty then s else tabSaveFail s k 1
  else s

/-- CHECK of a page, whole (R171, R250 text, R264, R356). -/
def tabCheck (s : State) (k : Nat) : State :=
  if tabBusy s k then tabRefuse s k else
  let s := tabStart s k 3
  match k with
  | 0 => let s := parSweep s k; tabEnd (noteSetpoints s (badSetpoints s)) k 0
  | 1 =>
    let s := parSweep s k
    let bad := oddShapes s
    tabEnd (setReg s (ro pgTONGUE 0x48) (match bad with
      | [] => 0
      | i :: _ => pack [(0, 15, bad.length), (16, 12, i % 4096), (28, 3, i / 4096), (31, 1, 1)])) k 0
  | 2 => let s := parSweep s k; tabEnd (noteSeqs s (badSeqs s)) k 0
  | _ =>
    match badKernelWords s with
    | [] => tabEnd s k 0
    | i :: _ => tabEnd (putReg s (ro pgTHM 0x50) 0 11 i) k 1

/-- MS_CMD DEFAULT: the built-in tables, DIRTY set (R268). -/
def seqDefault (s : State) : State :=
  if tabBusy s kMS then tabRefuse s kMS else
  let s := loadRegion (tabStart s kMS 4) kMS builtinSeq
  tabEnd (setTab s kMS { tab s kMS with dirty := 1 }) kMS 0

/-- CL_CMD DEFAULT: identity for every coefficient but those of the channels (R309). -/
def coefDefault (s : State) : State :=
  if tabBusy s kCL then tabRefuse s kCL else
  let s := tabStart s kCL 3
  tabEnd { s with cal := { s.cal with coef := s.cal.coef.filter (fun p => decide (98304 ≤ p.1 ∧ p.1 ≤ 163839)) } } kCL 0

/-! ### The rows -/

/-- A command written to a page's command register, at P1 or above (R196, R249, R290, R326, R345, R382). -/
def tabWrite (s : State) (fn : Fn) (k : Nat) (f : State → State) : Result :=
  .next (wr s fn (tabPage k) (tabCmdOff k) 1 f)

def execStLoadDone (ok : Bool) (s : State) : Result := .next (tabLoadDone s kST ok)
def execStSaveDone (ok : Bool) (s : State) : Result := .next (tabSaveDone s kST ok)
def execTgLoadDone (ok : Bool) (s : State) : Result := .next (tabLoadDone s kTG ok)
def execTgSaveDone (ok : Bool) (s : State) : Result := .next (tabSaveDone s kTG ok)
def execMsLoad (fn : Fn) (s : State) : Result := tabWrite s fn kMS (fun s => tabLoad s kMS)
def execMsLoadDone (ok : Bool) (s : State) : Result := .next (tabLoadDone s kMS ok)
def execMsSave (fn : Fn) (s : State) : Result := tabWrite s fn kMS (fun s => tabSave s kMS)
def execMsSaveDone (ok : Bool) (s : State) : Result := .next (tabSaveDone s kMS ok)
def execMsCheck (fn : Fn) (s : State) : Result := tabWrite s fn kMS (fun s => tabCheck s kMS)
def execMsDefault (fn : Fn) (s : State) : Result := tabWrite s fn kMS seqDefault
def execClLoad (fn : Fn) (s : State) : Result := tabWrite s fn kCL (fun s => tabLoad s kCL)
def execClLoadDone (ok : Bool) (s : State) : Result := .next (tabLoadDone s kCL ok)
def execClSave (fn : Fn) (s : State) : Result := tabWrite s fn kCL (fun s => tabSave s kCL)
def execClSaveDone (ok : Bool) (s : State) : Result := .next (tabSaveDone s kCL ok)
def execClDefault (fn : Fn) (s : State) : Result := tabWrite s fn kCL coefDefault
def execLpLoad (fn : Fn) (s : State) : Result := tabWrite s fn kLP (fun s => tabLoad s kLP)
def execLpLoadDone (ok : Bool) (s : State) : Result := .next (tabLoadDone s kLP ok)
def execLpSave (fn : Fn) (s : State) : Result := tabWrite s fn kLP (fun s => tabSave s kLP)
def execLpSaveDone (ok : Bool) (s : State) : Result := .next (tabSaveDone s kLP ok)
def execThLoadDone (ok : Bool) (s : State) : Result := .next (tabLoadDone s kTH ok)
def execThSaveDone (ok : Bool) (s : State) : Result := .next (tabSaveDone s kTH ok)

end Sys2Proof.Machine
end

