-- ==== Sys2Proof/Machine/Fabric.lean ====
section
/-! DEFINITION. Commands to the clocked fabric: PL_CMD and the command registers of STAB, TONGUE and THM, which outside RUN wait for the
first RUN cycle (R185, R186, R196, R197, R249, R382, R417, R526). -/

namespace Sys2Proof.Machine

/-- A command of STAB, TONGUE or THM by its code. -/
def fabTable (s : State) (k code : Nat) : State := match code with
  | 1 => tabLoad s k
  | 2 => tabSave s k
  | 3 => tabCheck s k
  | _ => badEncoding s (tabPage k) (tabCmdOff k)

/-- A TABLE command's tag waits for BUSY to clear, or has its result at once when the command is refused or already over (R417). -/
def tableTag (s : State) (k tag : Nat) (busy : Bool) : State :=
  if !busy && tabBusy s k then setTab s k { tab s k with tag := some (Fin.ofNat 512 tag) }
  else
    let e := (tab s k).lastErr.toNat
    setRes s tag (if e = 0 then 0 else 1) e 0 0

/-- A PLAN command's tag waits for WORK to return to 0, or completes at once when the command is refused (R417, R423). -/
def planTag (s : State) (k tag : Nat) : State :=
  let res := regFld s (ro pgPLAN 0x44) 8 3
  if res ≠ 0 then complete s tag 1 res (slotWord (slot s k)) (BitVec.ofNat 32 (slot s k).entries.length)
  else
    let s := match cmdOf s tag with | some c => setCmd s { c with stage := .handed } | none => s
    if (slot s k).work = .none then planDone s k else s

/-- A command takes effect. -/
def runFab (s : State) : FabCmd → State
  | .plan cmd k count none => planCmd s cmd k count
  | .plan cmd k count (some t) => planTag (planCmd s cmd k count) k t.val
  | .table k code none => fabTable s k code
  | .table k code (some t) => tableTag (fabTable s k code) k t.val (tabBusy s k)

/-- A command arrives: accepted in RUN, else held until the first RUN cycle (R526). -/
def fabAccept (s : State) (c : FabCmd) : State :=
  if inRun s then runFab s c else { s with fabWait := s.fabWait ++ [c] }

/-- The first RUN cycle accepts the commands that wait, in the order of their arrival (R186, R526). -/
def acceptWaiting (s : State) : State := s.fabWait.foldl runFab { s with fabWait := [] }

/-! ### The rows -/

/-- A write of PL_CMD at a function's level, with the slot right of a P1 writer. -/
def plWrite (s : State) (fn : Fn) (cmd k count : Nat) : State :=
  guarded s { fn := fn, off := ro pgPLAN 0x40, write := true, lvl := 1, slot := some k } (fun s =>
    fabAccept s (.plan cmd k count none))

def execPlOpen (fn : Fn) (k : Slot) (s : State) : Result := .next (plWrite s fn 1 k.val 0)
def execPlStage (fn : Fn) (k : Slot) (count : BitVec 16) (s : State) : Result := .next (plWrite s fn 2 k.val count.toNat)
def execPlArm (fn : Fn) (k : Slot) (s : State) : Result := .next (plWrite s fn 3 k.val 0)
def execPlDisarm (fn : Fn) (k : Slot) (s : State) : Result := .next (plWrite s fn 4 k.val 0)
def execPlRelease (fn : Fn) (k : Slot) (s : State) : Result := .next (plWrite s fn 5 k.val 0)

/-- A write of ST_CMD, TG_CMD or TH_CMD. -/
def fabWrite (s : State) (fn : Fn) (k code : Nat) : Result := tabWrite s fn k (fun s => fabAccept s (.table k code none))

def execStLoad (fn : Fn) (s : State) : Result := fabWrite s fn kST 1
def execStSave (fn : Fn) (s : State) : Result := fabWrite s fn kST 2
def execStCheck (fn : Fn) (s : State) : Result := fabWrite s fn kST 3
def execTgLoad (fn : Fn) (s : State) : Result := fabWrite s fn kTG 1
def execTgSave (fn : Fn) (s : State) : Result := fabWrite s fn kTG 2
def execTgCheck (fn : Fn) (s : State) : Result := fabWrite s fn kTG 3
def execThLoad (fn : Fn) (s : State) : Result := fabWrite s fn kTH 1
def execThSave (fn : Fn) (s : State) : Result := fabWrite s fn kTH 2
def execThCheck (fn : Fn) (s : State) : Result := fabWrite s fn kTH 3

end Sys2Proof.Machine
end

