-- ==== Sys2Proof/Machine/Acc.lean ====
section
/-! DEFINITION. The reed accumulators and their page (R292 to R305, R325), and what an update of a heater voltage or of the tile
node feeds (R152, R153, R172). -/

namespace Sys2Proof.Machine

/-- Bore address of accumulator `i` = reed × 64 + index (R292). -/
def accAddr (i : Nat) : Nat := 0xC0_0000 + i * 16

/-- AC_CFG after reset, by index (R304). -/
def accReset (i : Nat) : BitVec 5 := if i % 64 < 16 then 0x02 else if i % 64 < 52 then 0x11 else 0x08

/-- AC_CFG of an accumulator: SHIFT[3:0], MODE[4]. -/
def accCfg (s : State) (i : Nat) : BitVec 5 := tabGet accReset s.accs.cfg i

/-- REED[15:6], ACC[5:0] as a detail. -/
def accDetail (i : Nat) : Word := BitVec.ofNat 32 i

/-- The correction of R305: round((x − OFFSET) × GAIN / 32,768), ties away from zero, saturated to `n` signed bits. -/
def corrected (n : Nat) (w : Word) (x : Int) : Int :=
  satI n (roundDiv ((x - signed 16 (fld w 16 16)) * fld w 0 16) 32768)

/-- The words of an accumulator. -/
def accSet (s : State) (i : Nat) (w0 w1 w2 w3 : Word) : State := setBores s (accAddr i) [w0, w1, w2, w3]

/-- MIN and MAX of cleared trackers (R297). -/
abbrev minClear : Word := 0x007F_FFFF
abbrev maxClear : Word := 0x0080_0000

/-- Word `k` of an accumulator. -/
def accWord (s : State) (i k : Nat) : Word := boreWord s (accAddr i + 4 * k)

/-- VALUE, SEQ and VALID as the consumers read them (R302). -/
def accValue (s : State) (i : Nat) : Int := signed 24 (fld (accWord s i 0) 0 24)
def accSeq (s : State) (i : Nat) : Nat := fld (accWord s i 0) 24 8
def accValid (s : State) (i : Nat) : Bool := bit (accWord s i 3) 16
def accOvr (s : State) (i : Nat) : Bool := bit (accWord s i 3) 17

/-- An accumulator restarts: VALID, FILL and SEQ become 0 and the trackers are cleared; DISC counts for a parity failure
(R301). -/
def accRestart (s : State) (disc : Nat) (i : Nat) : State :=
  let w3 := accWord s i 3
  let w3 := put (put (put (put w3 8 8 0) 16 1 0) 18 1 0) 0 8 (min (fld w3 0 8 + disc) 255)
  let s := { s with accs := { s.accs with
    sum := tabSet (fun _ => (0 : Int)) s.accs.sum i 0, restart := s.accs.restart.erase i, ovr := s.accs.ovr.erase i } }
  accSet s i (put (accWord s i 0) 24 8 0) minClear maxClear w3

/-- An accumulator word fails its parity check and its replay (R301). -/
def accParity (s : State) (i : Nat) : State :=
  let s := bumpReg s (ro pgACC 0x4C) 0 16
  post (accRestart s 1 i) pgACC 0 (accDetail i)

/-- An accumulator is read: one with a bad word restarts; the Bool says that it passed (R301, R393). -/
def accCheck (s : State) (i : Nat) : State × Bool :=
  let p := parReads s (accAddr i) 4
  if p.2 then p else (accParity p.1 i, false)

/-- DISC counts an invalid output (R258, R299). -/
def accDiscard (s : State) (i : Nat) : State :=
  let s := (accCheck s i).1
  let w3 := accWord s i 3
  setBore s (accAddr i + 12) (put w3 0 8 (min (fld w3 0 8 + 1) 255))

/-- A reed's heater-voltage accumulator of a lane has an update: V_HTR in 100 uV, P_UW = I_cal × V_HTR, P_STALE clears
(R152, R153). -/
def powerUpdate (s : State) (ch : Nat) (v : Int) : State :=
  let c := chan s ch
  let p := roundDiv (v * chanCurrent c) 4096000000
  setChan s ch { c with vHtr := BitVec.ofNat 16 (clampI 0 65535 (roundDiv v 128)).toNat,
                        pUw := BitVec.ofNat 16 (clampI 0 65535 p).toNat, pStale := false }

/-! ### What the loops measure (R328, R331) -/

/-- MON_A, MON_B, SIGN, MAP_EN and GSEL of a loop map. -/
def LoopCh.monA (l : LoopCh) : Nat := l.cfg.toNat % 16
def LoopCh.monB (l : LoopCh) : Nat := l.cfg.toNat / 16 % 16
def LoopCh.sign (l : LoopCh) : Bool := l.cfg.getLsbD 8
def LoopCh.mapEn (l : LoopCh) : Bool := l.cfg.getLsbD 9
def LoopCh.gsel (l : LoopCh) : Nat := l.cfg.toNat / 1024 % 8
/-- The loop takes light of A alone (R328). -/
def LoopCh.isAbs (l : LoopCh) : Bool := l.lmode == 2

/-- A and B of a channel: the VALUEs of its monitors, not below 0. -/
def loopA (s : State) (ch : Nat) : Nat := (accValue s (ch / 32 * 64 + (loopCh s ch).monA)).toNat
def loopB (s : State) (ch : Nat) : Nat := (accValue s (ch / 32 * 64 + (loopCh s ch).monB)).toNat

/-- q of R328: A alone, or A / (A + B) in Q0.24; a channel with LMODE NONE reports the ratio. -/
def loopQ (isAbs : Bool) (a b : Nat) : Nat :=
  if isAbs then min a 8388607 else min (a * 16777216 / (a + b)) 16777215

/-- The channel's monitors are read from the Bore (R301, R393). -/
def loopCheck (s : State) (ch : Nat) : State :=
  let l := loopCh s ch
  let s := (accCheck s (ch / 32 * 64 + l.monA)).1
  if l.isAbs then s else (accCheck s (ch / 32 * 64 + l.monB)).1

/-- The accumulators of the loop have values without over-range (R331). -/
def loopData (s : State) (ch : Nat) (p : Nat → Bool) : Bool :=
  let l := loopCh s ch
  p (ch / 32 * 64 + l.monA) && (l.isAbs || p (ch / 32 * 64 + l.monB))

/-- Neither monitor is marked open (R331). -/
def loopOpen (s : State) (ch : Nat) : Bool :=
  let l := loopCh s ch
  let o := (reed s (ch / 32)).opens
  o.getLsbD l.monA || o.getLsbD l.monB

/-- RATIO has light: A + B at least LIGHT_MIN and above 0 (R331). -/
def loopLight (s : State) (ch : Nat) : Bool :=
  let n := loopA s ch + loopB s ch
  (loopCh s ch).isAbs || (decide (regFld s (ro pgLOOP 0x48) 0 24 ≤ n) && decide (0 < n))

/-- An update of a monitor accumulator refreshes LP_CH_MEAS of the channels of the reed that map it. -/
def loopMeasure (s : State) (i : Nat) : State :=
  (reedChans (i / 64)).foldl (fun s ch =>
    let l := loopCh s ch
    if !l.mapEn || !(l.monA == i % 64 || (!l.isAbs && l.monB == i % 64)) then s else
    let s := loopCheck s ch
    let a := loopA s ch
    let b := loopB s ch
    let q := if l.isAbs || a + b != 0 then BitVec.ofNat 24 (loopQ l.isAbs a b) else l.q
    let ok := loopData s ch (accValid s) && loopData s ch (fun j => !accOvr s j) && !loopOpen s ch && loopLight s ch
    setLoopCh s ch { l with q := q, fresh := ok }) s

/-- What an update of VALUE feeds beside the readers of the Bore: channel power, and V_TILE of the tile (R153, R172). -/
def accFeeds (s : State) (i : Nat) (v : Int) : State :=
  let k := i % 64
  if 16 ≤ k ∧ k < 48 then powerUpdate s (i / 64 * 32 + (k - 16)) v
  else if k = 48 then
    let t := i / 64 / 32
    setTile s t { tile s t with vTile := (roundDiv v 128).toNat }
  else if k < 16 then loopMeasure s i
  else s

/-- What a sample makes of an accumulator's block or filter: the new sum or state, the samples in the block, and the new VALUE
if there is an update (R295, R296). -/
def accStep (cfg : BitVec 5) (fresh : Bool) (sum : Int) (fill : Nat) (x : Int) : Int × Nat × Option Int :=
  let shift := cfg.toNat % 16
  if cfg.getLsbD 4 then
    let st := if fresh then x * 256 else sum + (x * 256 - sum) / 2 ^ shift
    (st, 0, some ((st + 128) / 256))
  else
    let sum := (if fill = 0 then 0 else sum) + x
    if fill + 1 = 2 ^ shift then (0, 0, some ((sum + 2 ^ (shift - 1)) / 2 ^ shift)) else (sum, fill + 1, none)

/-- A corrected sample enters an accumulator (R294 to R300). -/
def accEnter (s : State) (i : Nat) (x : Int) (ovr : Bool) : State :=
  if s.accs.held.contains i then s else
  let s := (accCheck s i).1
  let cfg := accCfg s i
  let w0 := accWord s i 0
  let w3 := accWord s i 3
  let mark := s.accs.restart.contains i
  let zeroed := accWord s i 1 = 0 ∧ accWord s i 2 = 0 ∧ fld w3 8 8 = 0 ∧ !bit w3 16
  let mn := if zeroed then 8388607 else signed 24 (fld (accWord s i 1) 0 24)
  let mx := if zeroed then -8388608 else signed 24 (fld (accWord s i 2) 0 24)
  let fill := if mark then 0 else fld w3 8 8
  let r := accStep cfg (mark || !bit w3 16) (tabGet (fun _ => (0 : Int)) s.accs.sum i) fill x
  let blockOvr := ovr || (fill != 0 && s.accs.ovr.contains i)
  let s := { s with accs := { s.accs with
    sum := tabSet (fun _ => (0 : Int)) s.accs.sum i r.1,
    restart := s.accs.restart.erase i,
    ovr := s.accs.ovr.erase i ++ (if blockOvr && r.2.2.isNone then [i] else []) } }
  let w3' := put (put (put w3 8 8 r.2.1) 18 1 (b2n (ovr || bit w3 18))) 19 5 cfg.toNat
  let m1 : Word := BitVec.ofNat 32 (unsigned 24 (min mn x))
  let m2 : Word := BitVec.ofNat 32 (unsigned 24 (max mx x))
  match r.2.2 with
  | none => accSet s i w0 m1 m2 w3'
  | some v =>
    let w0' := put (put w0 0 24 (unsigned 24 v)) 24 8 (fld w0 24 8 + 1)
    let s := accSet s i w0' m1 m2 (put (put w3' 16 1 1) 17 1 (b2n blockOvr))
    let s := if blockOvr && !bit w3 17 then post s pgACC 1 (accDetail i) else s
    accFeeds s i v

/-- ACC_SAMPLE (R295): a corrected sample enters an accumulator. -/
def execAccSample (r : Reed) (acc : Fin 64) (sample : Int) (ovr : Bool) (s : State) : Result :=
  .next (if domOn s 4 then accEnter s (r.val * 64 + acc.val) (satI 24 sample) ovr else s)

/-- ACC_PARITY_RESTART (R301). -/
def execAccParityRestart (r : Reed) (acc : Fin 64) (s : State) : Result :=
  .next (if domOn s 4 then accParity s (r.val * 64 + acc.val) else s)

/-! ### The ACC page (R300, R325) -/

/-- The accumulators in the scope of AC_IDX. -/
def accScope (s : State) : List Nat :=
  let w := getReg s (ro pgACC 0x40)
  let r := fld w 0 10
  let k := fld w 16 6
  match fld w 24 2 with
  | 0 => [r * 64 + k]
  | 1 => List.range' (r * 64) 64
  | 2 => (List.range 1024).map (fun r => r * 64 + k)
  | _ => List.range 65536

/-- The word AC_CFG takes in one accumulator: SHIFT 0 is taken as 1, 9 to 15 keeps the old SHIFT (R15). -/
def accCfgWord (old : BitVec 5) (v : Word) : BitVec 5 :=
  let sh := fld v 0 4
  let sh' := if sh = 0 then 1 else if 8 < sh then old.toNat % 16 else sh
  BitVec.ofNat 5 (sh' + 16 * fld v 4 1)

/-- A write of AC_CFG (R300). -/
def accCfgWrite (s : State) (v : Word) : State :=
  let ids := accScope s
  let s := { s with accs := { s.accs with
    cfg := ids.foldl (fun t i => tabUpd accReset t i (fun o => accCfgWord o v)) s.accs.cfg,
    restart := ids.foldl (fun l i => if l.contains i then l else l ++ [i]) s.accs.restart } }
  let s := putReg s (ro pgACC 0x4C) 16 1 (b2n (fld v 0 4 == 0))
  if 8 < fld v 0 4 then badEncoding s pgACC 0x44 else s

def execAcCfgWrite (fn : Fn) (v : Word) (s : State) : Result := .next (wr s fn pgACC 0x44 1 (fun s => accCfgWrite s v))

/-- AC_CMD: 1 RESTART, 2 TRK_CLR, 3 DISC_CLR over the scope (R297, R299, R301). -/
def accCmd (s : State) (cmd : Nat) : State :=
  let ids := accScope s
  let s := if 1 ≤ cmd ∧ cmd ≤ 3 then ids.foldl (fun s i => (accCheck s i).1) s else s
  match cmd with
  | 1 => ids.foldl (fun s i => accRestart s 0 i) s
  | 2 => ids.foldl (fun s i => accSet s i (accWord s i 0) minClear maxClear (put (accWord s i 3) 18 1 0)) s
  | 3 => ids.foldl (fun s i => setBore s (accAddr i + 12) (put (accWord s i 3) 0 8 0)) s
  | _ => badEncoding s pgACC 0x48

def execAcRestart (fn : Fn) (s : State) : Result := .next (wr s fn pgACC 0x48 1 (fun s => accCmd s 1))
def execAcTrkClr (fn : Fn) (s : State) : Result := .next (wr s fn pgACC 0x48 1 (fun s => accCmd s 2))
def execAcDiscClr (fn : Fn) (s : State) : Result := .next (wr s fn pgACC 0x48 1 (fun s => accCmd s 3))

/-- A WARM reset restarts every accumulator and clears DISC; AC_CFG stays (R304). -/
def accWarm (s : State) : State :=
  (List.range 65536).foldl (fun s i =>
    let s := accRestart s 0 i
    setBore s (accAddr i + 12) (put (accWord s i 3) 0 8 0)) s

end Sys2Proof.Machine
end

