-- ==== Sys2Proof/Machine/Meas.lean ====
section
/-! DEFINITION. The reed sequencers: entries, passes, triggers, inserts, power-down and open-wire marks (R253 to R291). -/

namespace Sys2Proof.Machine

/-! ### Settings of a reed -/

/-- MODE, TSRC and DRV_REPEAT of MS_REED_CFG. -/
def ReedSt.mode (x : ReedSt) : Nat := x.cfg.toNat % 4
def ReedSt.tsrc (x : ReedSt) : Nat := x.cfg.toNat / 4 % 4
def ReedSt.drvRepeat (x : ReedSt) : Bool := x.cfg.getLsbD 4
/-- The reed takes no conversion: a CONTAIN reaction or a pad test holds it (R287, R506). -/
def ReedSt.heldOff (x : ReedSt) : Bool := x.contained || x.padHold
/-- MS_REED_STAT.STATE (R289). -/
def ReedSeq.code : ReedSeq → Nat
  | .off => 0 | .wait => 1 | .delay => 2 | .startup => 3 | .convert => 4 | .insert => 5

/-- MS_CTRL.PD_EN. -/
def pdEn (s : State) : Bool := bit (getReg s (ro pgMEAS 0x40)) 8

/-- Cycles of a number of drone ticks. -/
def ticksCc (n : Nat) : Nat := n * 150000 / 512

/-- The cycle at which the next housekeeping round falls due (R278). -/
def hkDueAt (s : State) : Nat := s.hkAt + ticksCc (1024 * max (regFld s (ro pgMEAS 0x40) 0 4) 1)

/-- The cycles at which the reed timer and the running DELAY expire (R263, R271). -/
def ReedSt.timerDue (x : ReedSt) : Nat := x.timerAt + ticksCc x.timer.toNat
def ReedSt.delayDue (x : ReedSt) : Nat := x.delayAt + ticksCc x.delay.toNat

/-- The next conversion of an idle reed is due at a known time at least 4 us ahead: the housekeeping round, a TIMER trigger, and in
2 DELAY the entry's DELAY (R282). -/
def dueFar (s : State) (x : ReedSt) : Bool :=
  let far (t : Nat) : Bool := decide (s.now + 4800 ≤ t)
  far (hkDueAt s) && (x.mode != 2 || x.tsrc != 1 || far x.timerDue) && (x.seq != .delay || far x.delayDue)

/-- A reed between conversions powers down unless PD_EN is 0, a drive trigger is armed or a conversion is near; the power-down ends a
free-running stream (R257, R282, R284). -/
def restPower (s : State) (x : ReedSt) : ReedSt :=
  if x.powered && pdEn s && !x.drvArmed && dueFar s x then { x with powered := false, lastConv := none } else x

/-- Each reed between conversions is judged again under R282 after a write that bears on it. -/
def restReed (s : State) (x : ReedSt) : ReedSt :=
  if x.seq = .off ∨ x.seq = .wait ∨ x.seq = .delay then restPower s x else x

/-- The sequencers run: the tables are loaded and MEAS has power (R268). -/
def seqLive (s : State) : Bool := (tab s kMS).loaded && domOn s 11

/-- The reed may start a conversion (R268, R287, R288). -/
def mayConvert (s : State) (x : ReedSt) : Bool := !x.heldOff && seqLive s

/-! ### Conversions -/

/-- The coefficient index of what a conversion measures; none with the open-wire current on (R306). -/
def convIndex (r : Nat) (c : Conv) : Option Nat :=
  let k := c.input.toNat
  if c.owc ≠ 0 then none
  else if k < 16 then some ((r * 16 + k) * 4 + c.range.toNat)
  else if k < 48 then some (65536 + r * 32 + (k - 16))
  else some (163840 + r * 4 + (k - 48))

/-- The coefficient word that a conversion takes at its start (R307). -/
def convCoef (s : State) (r : Nat) (c : Conv) : Word := match convIndex r c with
  | some i => coef s i | none => identity

/-- The part of a conversion that R257 compares. -/
def Conv.key (c : Conv) : Conv := { c with acc := 0 }

/-- A conversion of the sequence starts; a free-running stream restarts under R257 with three invalid outputs (R256). -/
def startConv (s : State) (r : Nat) (x : ReedSt) (restart : Bool) : ReedSt :=
  let again := restart || !x.powered || x.lastConv != some x.conv.key
  { x with seq := .convert, powered := true, coef := convCoef s r x.conv, delayDone := false,
           invalid := if x.conv.free && again then 3 else if x.conv.free then x.invalid else 0 }

/-- The conversion of a housekeeping round that comes next: HK_VTILE, HK_REF, HK_DIODE, HK_ZERO at OSR 128 (R278). -/
def hkConv (x : ReedSt) : Conv :=
  let k : BitVec 6 := BitVec.ofNat 6 (48 + (4 - x.hkOwed.toNat))
  { input := k, osr := 1, acc := k }

/-- An insert is pending (R279). -/
def insertDue (x : ReedSt) : Bool := x.urgent.isSome || x.hkOwed != 0

/-- The first pending insert starts: the urgent conversion, then the owed housekeeping conversions (R279). -/
def startIns (s : State) (r : Nat) (x : ReedSt) (resume : ReedSeq) : ReedSt :=
  let c := match x.urgent with | some u => u | none => hkConv x
  { x with seq := .insert, resume := resume, insUrgent := x.urgent.isSome, insCal := x.urgCal, powered := true,
           ins := c, coef := convCoef s r c, invalid := 0, startInsert := false }

/-! ### Entries and passes -/

/-- The sequencer reads entry `e`: its conversion, REPEAT and DELAY, or nothing where it is skipped (R263, R264, R266, R267). -/
def readEntry (s : State) (r e : Nat) : State × Option (Conv × Nat × Nat) :=
  let a := seqAddr r e
  let p := parReads s a 2
  let s := p.1
  let w0 := boreWord s a
  let w1 := boreWord s (a + 4)
  if !p.2 || !seqOk w0 w1 then
    (post (setReed s r { reed s r with badEnt := (reed s r).badEnt + 1 }) pgMEAS 3 (pack [(6, 10, r), (0, 6, e)]), none)
  else if fld w0 16 8 = 0 then (s, none)
  else
    let scr := fld w1 16 4
    let c : Conv := { input := BitVec.ofNat 6 (fld w0 0 6), range := BitVec.ofNat 2 (fld w0 6 2), osr := BitVec.ofNat 3 (fld w0 8 3),
                      free := bit w0 11, owc := BitVec.ofNat 2 (fld w0 12 2),
                      acc := BitVec.ofNat 6 (if scr = 0 then fld w0 0 6 else 51 + scr) }
    (s, some (c, fld w0 16 8, fld w1 0 16))

/-- The first entry from `e` on that is not skipped. -/
def findEntry (s : State) (r : Nat) : Nat → Nat → State × Option (Nat × Conv × Nat × Nat)
  | _, 0 => (s, none)
  | e, n + 1 =>
    let p := readEntry s r e
    match p.2 with
    | some c => (p.1, some (e, c))
    | none => findEntry p.1 r (e + 1) n

/-- The conversion of the running entry is due: it starts once DELAY has passed, powers up first where that takes the start-up
delay (R283), or waits (R263). -/
def toDelay (s : State) (r : Nat) (x : ReedSt) (known : Bool) : ReedSt :=
  if x.heldOff then { x with seq := .delay }
  else if x.delay ≠ 0 ∧ !x.delayDone then
    restPower s { x with seq := .delay }
  else if !x.powered ∧ !known then { x with seq := .startup, startInsert := false }
  else startConv s r x (x.delay != 0)

/-- An entry begins. -/
def takeEntry (now : Nat) (x : ReedSt) (f : Nat × Conv × Nat × Nat) : ReedSt :=
  { x with delayAt := now, entry := BitVec.ofNat 6 f.1, conv := f.2.1, left := BitVec.ofNat 8 f.2.2.1, delay := BitVec.ofNat 16 f.2.2.2,
           delayDone := false, seqEmpty := false }

/-- A pass begins with its first entry, or ends at once on an empty table (R265, R275). -/
def startPass (s : State) (r : Nat) (known : Bool) : State :=
  let s := setReed s r { reed s r with trigPend := false }
  let p := findEntry s r 0 64
  let x := reed p.1 r
  match p.2 with
  | some f => setReed p.1 r (toDelay p.1 r (takeEntry s.now x f) known)
  | none =>
    let s := if x.seqEmpty then p.1 else post p.1 pgMEAS 7 (BitVec.ofNat 32 r)
    setReed s r (restPower s { x with seq := .wait, seqEmpty := true })

/-- The reed waits for its next pass: mode 1 begins it at once, mode 2 when a trigger is pending (R289). -/
def toWait (s : State) (r : Nat) (known : Bool) : State :=
  let x := reed s r
  if mayConvert s x && (x.mode == 1 || (x.mode == 2 && x.trigPend)) then startPass (setReed s r { x with seq := .wait }) r known
  else setReed s r (restPower s { x with seq := .wait })

/-- The reed goes on from where it stood, or starts a pending insert (R279, R280, R289). -/
def goOn (s : State) (r : Nat) (target : ReedSeq) (known : Bool) : State :=
  let x := reed s r
  if mayConvert s x && insertDue x then setReed s r (startIns s r x target)
  else match target with
    | .off => setReed s r (restPower s { x with seq := .off })
    | .wait => toWait s r known
    | _ => setReed s r (toDelay s r x known)

/-- An idle reed whose holds or settings have changed goes on (R289). -/
def wakeReed (s : State) (r : Nat) : State :=
  let x := reed s r
  if x.heldOff || !domOn s 11 then s else
  match x.seq with
  | .off => goOn s r (if x.mode ≠ 0 ∧ x.mode ≠ 3 ∧ seqLive s then .wait else .off) false
  | .wait => goOn s r .wait false
  | .delay => goOn s r .delay true
  | _ => s

/-- An insert of a reed has become due: an idle reed starts it, after the start-up delay when it is powered down and the time was
not known (R279, R283). -/
def kickInsert (s : State) (r : Nat) (known : Bool) : State :=
  let x := reed s r
  if !mayConvert s x then s else
  match x.seq with
  | .off => setReed s r (if x.powered || known then startIns s r x .off else { x with seq := .startup, startInsert := true, resume := .off })
  | .wait => setReed s r (if x.powered || known then startIns s r x .wait else { x with seq := .startup, startInsert := true, resume := .wait })
  | .delay => setReed s r (if x.powered || known then startIns s r x .delay else { x with seq := .startup, startInsert := true, resume := .delay })
  | _ => s

/-! ### Conversions of the calibration engine (R311, R312) -/

/-- The reed whose input a coefficient index names (R306). -/
def scReed (i : Nat) : Nat := if i < 65536 then i / 64 else (i - 65536) / 32

/-- The conversion of the input that a coefficient index names (R306, R311). -/
def scConv (i : Nat) (osr : BitVec 3) : Conv :=
  if i < 65536 then { input := BitVec.ofNat 6 (i / 4 % 16), range := BitVec.ofNat 2 (i % 4), osr := osr }
  else { input := BitVec.ofNat 6 (16 + (i - 65536) % 32), osr := osr }

/-- The engine has a conversion to make: it issues it as the urgent request of its reed, unless the reed holds one or is held (R312). -/
def calIssue (s : State) : State := match s.cal.run with
  | none => s
  | some c =>
    let r := scReed c.idx
    let x := reed s r
    if c.ovr || decide (c.total ≤ c.samples.length) || x.urgent.isSome || x.heldOff then s
    else kickInsert (setReed s r { x with urgent := some (scConv c.idx c.osr), urgCal := true }) r false

/-! ### The end of a conversion -/

/-- Open-wire magnitude of 0.58 V in the LSB of R259. -/
abbrev openLimit : Nat := 5939200

/-- An open-wire result marks its input open, or ends the open cause (R285). -/
def openWire (s : State) (r : Nat) (c : Conv) (x : Int) : State :=
  if c.owc = 0 ∨ 16 ≤ c.input.toNat then s else
  let k := c.input.toNat
  let b : BitVec 16 := BitVec.ofNat 16 (2 ^ k)
  let q := reed s r
  if openLimit ≤ x.natAbs then
    let s := setReed s r { q with opens := q.opens ||| b, openLive := q.openLive ||| b }
    if q.openLive.getLsbD k then s else post s pgMEAS 6 (BitVec.ofNat 32 (r * 16 + k))
  else setReed s r { q with openLive := q.openLive &&& ~~~ b }

/-- The code of a result and its over-range mark: beyond the full scale it is the saturated code of its sign (R260). -/
def fullScale (raw : Int) (ovr : Bool) : Int × Bool :=
  let ovr := ovr || decide (raw < -8388608) || decide (8388607 < raw)
  (if !ovr then raw else if raw < 0 then -8388608 else 8388607, ovr)

/-- The result of a conversion goes to its accumulator (R258, R294, R298). -/
def deliver (s : State) (r : Nat) (c : Conv) (w : Word) (raw : Int) (ovr : Bool) : State :=
  let f := fullScale raw ovr
  let x := if f.2 || c.owc != 0 then f.1 else corrected 24 w f.1
  openWire (accEnter s (r * 64 + c.acc.toNat) x f.2) r c x

/-- The next item of the pass after a delivered conversion (R289): MODE 0 ends the sequence. -/
def afterConv (s : State) (r : Nat) : State :=
  let x := reed s r
  let x := { x with lastConv := some x.conv.key }
  if x.mode = 0 ∨ x.contained ∨ !seqLive s then goOn (setReed s r x) r .off true
  else if 1 < x.left.toNat then
    let x := { x with left := x.left - 1, delayDone := x.conv.free, delayAt := s.now }
    if x.conv.free && !x.heldOff && !insertDue x then setReed s r { startConv s r x false with left := x.left }
    else goOn (setReed s r x) r .delay true
  else
    let p := findEntry (setReed s r x) r (x.entry.toNat + 1) (63 - x.entry.toNat)
    let x := reed p.1 r
    match p.2 with
    | some f => goOn (setReed p.1 r (takeEntry s.now x f)) r .delay true
    | none => goOn (setReed p.1 r { x with passes := x.passes + 1 }) r .wait true

/-- A housekeeping conversion has ended; a period is complete once every reed owes nothing (MS_HK). -/
def hkDone (s : State) (r : Nat) : State :=
  let x := reed s r
  let s := setReed s r { x with hkOwed := x.hkOwed - 1 }
  if x.hkOwed = 1 ∧ (List.range 1024).all (fun q => (reed s q).hkOwed == 0) then bumpReg s (ro pgMEAS 0x80) 0 32 else s

/-- A conversion of the calibration engine has its result, corrected by the factory trims only; no accumulator sees it (R311). -/
def calSample (s : State) (raw : Int) (ovr : Bool) : State := match s.cal.run with
  | none => s
  | some c => { s with cal := { s.cal with run := some { c with samples := c.samples ++ [raw], ovr := c.ovr || ovr, since := s.now } } }

/-- An inserted conversion ends: the next insert, or the sequence goes on; the engine issues its next conversion (R279, R280, R312). -/
def afterInsert (s : State) (r : Nat) : State :=
  let x := reed s r
  let s := setReed s r { x with lastConv := some x.ins.key }
  let s :=
    if x.insUrgent then
      calIssue (bumpReg (setReed s r { reed s r with urgent := none, insUrgent := false, urgCal := false, insCal := false })
        (ro pgMEAS 0x78) 16 16)
    else hkDone s r
  let x := reed s r
  goOn s r (if x.contained ∨ x.mode = 0 ∨ !seqLive s then .off else if x.resume = .off then .wait else x.resume) true

/-- CONVERSION_END (R255): the running conversion ends. -/
def conversionEnd (s : State) (r : Nat) (raw : Int) (ovr : Bool) : State :=
  let x := reed s r
  match x.seq with
  | .insert =>
    let f := fullScale raw ovr
    afterInsert (if x.insCal then calSample s f.1 f.2 else deliver s r x.ins x.coef raw ovr) r
  | .convert =>
    if x.conv.free ∧ x.invalid ≠ 0 then
      let s := accDiscard s (r * 64 + x.conv.acc.toNat)
      if x.mode = 0 ∨ x.heldOff ∨ insertDue x ∨ !seqLive s then
        goOn (setReed s r { x with invalid := 0, lastConv := none, delayDone := true }) r
          (if x.mode = 0 ∨ x.contained ∨ !seqLive s then .off else .delay) true
      else setReed s r { x with invalid := x.invalid - 1 }
    else afterConv (deliver s r x.conv x.coef raw ovr) r
  | _ => s

def execConversionEnd (r : Reed) (raw : Int) (ovr : Bool) (s : State) : Result := .next (conversionEnd s r.val raw ovr)

/-- SEQ_DELAY_EXPIRED (R263, R280): the DELAY of the running entry has passed, be it during an insert or its start-up delay. -/
def execSeqDelayExpired (r : Reed) (s : State) : Result :=
  let x := reed s r.val
  let y := { x with delayDone := true }
  if s.now < x.delayDue then .next s else
  match x.seq with
  | .delay => .next (setReed s r.val (toDelay s r.val y true))
  | .insert => .next (if x.resume = .delay then setReed s r.val y else s)
  | .startup => .next (if x.startInsert ∧ x.resume = .delay then setReed s r.val y else s)
  | _ => .next s

/-- MODULATOR_POWER_UP (R282): 2 us before a known due time. -/
def execModulatorPowerUp (r : Reed) (s : State) : Result :=
  let x := reed s r.val
  .next (if (x.seq = .off ∨ x.seq = .wait ∨ x.seq = .delay) ∧ domOn s 11 then setReed s r.val { x with powered := true } else s)

/-- STARTUP_DONE (R283). -/
def execStartupDone (r : Reed) (s : State) : Result :=
  let x := reed s r.val
  if x.seq ≠ .startup then .next s else
  let y := { x with powered := true }
  if x.heldOff then .next (setReed s r.val { y with seq := if x.startInsert then x.resume else .delay })
  else .next (setReed s r.val
    (if x.startInsert ∧ insertDue x then startIns s r.val y x.resume else startConv s r.val { y with powered := false } true))

/-! ### Modes and triggers -/

/-- The reeds that a write through MS_REED_IDX acts on: one, or all (MEAS page). -/
def reedScope (s : State) : List Nat :=
  let w := getReg s (ro pgMEAS 0x54)
  if bit w 16 then List.range 1024 else [fld w 0 10]

/-- The reed that reads through MS_REED_IDX return. -/
def reedIdx (s : State) : Nat := regFld s (ro pgMEAS 0x54) 0 10

/-- A written MS_REED_CFG: reserved MODE 3 and TSRC 3 keep the old field (R15). -/
def reedCfgWord (old : BitVec 5) (v : Word) : BitVec 5 :=
  let m := if fld v 0 2 = 3 then old.toNat % 4 else fld v 0 2
  let t := if fld v 2 2 = 3 then old.toNat / 4 % 4 else fld v 2 2
  BitVec.ofNat 5 (m + 4 * t + 16 * fld v 4 1)

/-- MS_REED_CFG takes effect: a running conversion ends first; an idle reed goes to 0 OFF, or on; a power-up for the sequence serves
an insert that has fallen due. The reed timer counts from the write that selects it (R270, R271, R289). -/
def setReedCfg (s : State) (v : Word) (r : Nat) : State :=
  let x := reed s r
  let timed (x : ReedSt) : Bool := x.mode == 2 && x.tsrc == 1
  let y := { x with cfg := reedCfgWord x.cfg v }
  let x := if timed y && !timed x then { y with timerAt := s.now } else y
  let s := setReed s r x
  match x.seq with
  | .off => wakeReed s r
  | .wait => if x.mode = 0 then setReed s r (restPower s { x with seq := .off }) else wakeReed s r
  | .delay => if x.mode = 0 then setReed s r (restPower s { x with seq := .off }) else s
  | .startup =>
    if x.mode ≠ 0 ∨ x.startInsert then s
    else if insertDue x then setReed s r { x with startInsert := true, resume := .off }
    else setReed s r (restPower s { x with seq := .off })
  | _ => s

/-- SEQ_MODE_WRITE (R270, R290): MS_REED_CFG at P1. -/
def seqModeWrite (s : State) (v : Word) : State :=
  let s := (reedScope s).foldl (fun s r => setReedCfg s v r) s
  if fld v 0 2 = 3 ∨ fld v 2 2 = 3 then badEncoding s pgMEAS 0x58 else s

def execSeqModeWrite (fn : Fn) (v : Word) (s : State) : Result := .next (wr s fn pgMEAS 0x58 1 (fun s => seqModeWrite s v))

/-- MS_TIMER: PERIOD 0 is taken as 1 with the reed's FIELD_ZERO. -/
def timerWrite (s : State) (v : Word) : State :=
  let p := fld v 0 16
  (reedScope s).foldl (fun s r =>
    setReed s r <| restReed s { reed s r with timer := BitVec.ofNat 16 (max p 1), fieldZero := decide (p = 0) }) s

/-- MS_DRV_DELAY. -/
def drvDelayWrite (s : State) (v : Word) : State :=
  (reedScope s).foldl (fun s r => setReed s r { reed s r with drvDelay := BitVec.ofNat 16 (fld v 0 16) }) s

/-- A trigger of source `src` fires (R271 to R275). -/
def trigger (s : State) (src : Nat) (r : Nat) : State :=
  let x := reed s r
  if x.mode ≠ 2 ∨ x.tsrc ≠ src ∨ !seqLive s ∨ x.contained then s else
  if x.seq = .wait ∧ !x.heldOff then startPass (setReed s r x) r (src != 0)
  else if x.trigPend then
    post (setReed s r { x with overrun := BitVec.ofNat 16 (min (x.overrun.toNat + 1) 65535) }) pgMEAS 5 (BitVec.ofNat 32 r)
  else setReed s r { x with trigPend := true }

/-- MS_TRIG: SOFT, DRV_ARM, DRV_DISARM; ARM and DISARM together are discarded (MEAS page). An armed reed is powered (R284). -/
def trigWrite (s : State) (v : Word) : State :=
  if bit v 1 ∧ bit v 2 then badEncoding s pgMEAS 0x64 else
  let rs := reedScope s
  let s := if bit v 1 then rs.foldl (fun s r => setReed s r { reed s r with drvArmed := true, powered := true }) s else s
  let s := if bit v 2 then rs.foldl (fun s r => setReed s r (restReed s { reed s r with drvArmed := false, drvDue := [] })) s else s
  if bit v 0 then rs.foldl (fun s r => trigger s 0 r) s else s

def execMsTrigSoft (fn : Fn) (s : State) : Result := .next (wr s fn pgMEAS 0x64 1 (fun s => trigWrite s 1))
def execMsTrigDrvArm (fn : Fn) (s : State) : Result := .next (wr s fn pgMEAS 0x64 1 (fun s => trigWrite s 2))
def execMsTrigDrvDisarm (fn : Fn) (s : State) : Result := .next (wr s fn pgMEAS 0x64 1 (fun s => trigWrite s 4))

/-- REED_TIMER_TRIGGER (R271): PERIOD drone ticks after the timer's last expiry, or after the write that selected it. -/
def execReedTimerTrigger (r : Reed) (s : State) : Result :=
  let x := reed s r.val
  if x.mode ≠ 2 ∨ x.tsrc ≠ 1 ∨ s.now < x.timerDue then .next s
  else .next (trigger (setReed s r.val { x with timerAt := x.timerDue }) 1 r.val)

/-- DRIVE_TRIGGER (R271, R272): DELAY_CC after a strobe that carried an entry of the armed reed; it disarms unless DRV_REPEAT is 1. -/
def execDriveTrigger (r : Reed) (s : State) : Result :=
  let x := reed s r.val
  match x.drvDue with
  | [] => .next s
  | t :: rest =>
    if s.now < t + x.drvDelay.toNat ∨ !x.drvArmed then .next s else
    let y := { x with drvArmed := x.drvRepeat, drvDue := if x.drvRepeat then rest else [] }
    if x.mode ≠ 2 ∨ x.tsrc ≠ 2 then .next (setReed s r.val { x with drvDue := rest })
    else .next (trigger (setReed s r.val y) 2 r.val)

/-- A read of MS_TRIG_OVERRUN returns the count of the reed and clears it (R274). -/
def overrunRead (s : State) : Word × State :=
  let r := reedIdx s
  (BitVec.ofNat 32 (reed s r).overrun.toNat, setReed s r { reed s r with overrun := 0 })

def execMsTrigOverrunRead (fn : Fn) (s : State) : Result := .next (rd s fn pgMEAS 0x6C overrunRead)

/-! ### Urgent conversions and housekeeping -/

/-- A MS_URGENT word without reserved encodings (R262, R277). -/
def urgentOk (v : Word) : Bool :=
  let k := fld v 10 6
  decide (k ≤ 51) && (decide (k < 16) || fld v 16 2 == 0) && decide (fld v 18 3 ≤ 4) && decide (fld v 21 4 ≤ 12)

/-- An urgent request (R276, R277). -/
def urgentWrite (s : State) (v : Word) : State :=
  let r := fld v 0 10
  let st := ro pgMEAS 0x78
  if !urgentOk v then badEncoding s pgMEAS 0x74
  else if (reed s r).urgent.isSome then refusedCtrl (putReg (putReg s st 0 10 r) st 12 2 2) pgMEAS 0x74
  else
    let scr := fld v 21 4
    let c : Conv := { input := BitVec.ofNat 6 (fld v 10 6), range := BitVec.ofNat 2 (fld v 16 2), osr := BitVec.ofNat 3 (fld v 18 3),
                      acc := BitVec.ofNat 6 (if scr = 0 then fld v 10 6 else 51 + scr) }
    let s := setReed (putReg (putReg s st 0 10 r) st 12 2 1) r { reed s r with urgent := some c }
    kickInsert s r false

def execMsUrgentWrite (fn : Fn) (v : Word) (s : State) : Result := .next (wr s fn pgMEAS 0x74 1 (fun s => urgentWrite s v))

/-- Every reed owes a housekeeping round; a round still owed is late (R278, R281). -/
def hkDue (s : State) : State :=
  if !seqLive s || decide (s.now < hkDueAt s) then s else
  (List.range 1024).foldl (fun s r =>
    let x := reed s r
    if x.hkOwed ≠ 0 then kickInsert (post (setReed s r { x with hkLate := true }) pgMEAS 8 (BitVec.ofNat 32 r)) r true
    else kickInsert (setReed s r { x with hkOwed := 4 }) r true) { s with hkAt := hkDueAt s }

/-- HK_ROUND_DUE (R278): HK_PERIOD after the last. -/
def execHkRoundDue (s : State) : Result := .next (hkDue s)

/-- Refused clears of a page count, saturating (R501). -/
def refuseClears (s : State) (page n : Nat) : State :=
  let add (c : BitVec 16) : BitVec 16 := BitVec.ofNat 16 (min (c.toNat + n) 65535)
  if isFeedPage page then { s with fd := { s.fd with refused := tabUpd (fun _ => (0 : BitVec 16)) s.fd.refused page add } }
  else { s with bell := { s.bell with refused := tabUpd (fun _ => (0 : BitVec 16)) s.bell.refused page add } }

/-- A write of MS_OPEN clears the marks whose input is no longer open; the others are refused clears (R285, R501). -/
def openClear (s : State) (v : Word) : State :=
  let r := reedIdx s
  let x := reed s r
  let w : BitVec 16 := BitVec.ofNat 16 (fld v 0 16)
  let s := setReed s r { x with opens := x.opens &&& ~~~ (w &&& ~~~ x.openLive) }
  let n := (bitsOf (w &&& x.opens &&& x.openLive).toNat 16).length
  if n = 0 then s else refuseClears s pgMEAS n

def execMsOpenClear (fn : Fn) (v : Word) (s : State) : Result := .next (wr s fn pgMEAS 0x7C 1 (fun s => openClear s v))

/-- Words for the sequence tables are stored with DIRTY set, or discarded while LOAD runs (R266, R269). -/
def seqStore (s : State) (off a : Nat) (data : List Word) : State :=
  if (tab s kMS).running = 1 then post s pgMEAS 4 (BitVec.ofNat 32 (off - 0xB0_0000))
  else
    let s := setBores s a data
    setTab s kMS { tab s kMS with dirty := 1 }

/-! ### Holds and resets -/

/-- One reed at a WARM reset: its sequence stops at the end of the running conversion; triggers, arming, the urgent request, the owed
round and the counts of the WARM domain clear (R288; log 5). -/
def ReedSt.warm (x : ReedSt) : ReedSt := { x with
  trigPend := false, drvArmed := false, drvDue := [], urgent := none, urgCal := false, insCal := false, hkOwed := 0, hkLate := false, fieldZero := false, seqEmpty := false,
  passes := 0, overrun := 0, badEnt := 0, parity := 0, opens := 0, entry := 0, left := 0, resume := .off,
  seq := match x.seq with | .convert => .convert | .insert => .insert | _ => .off }

/-- Every reed at a WARM reset (R288). -/
def measWarm (s : State) : State :=
  { s with reeds := tabMap (fun _ => ({} : ReedSt)) s.reeds 0 1024 (fun _ x => x.warm) }

/-- The sequencers start in their modes once their tables are loaded (R268). -/
def measStart (s : State) : State := (List.range 1024).foldl (fun s r => wakeReed s r) s

/-- A CONTAIN reaction of MEAS holds a reed (R506). -/
def containReed (s : State) (r : Nat) : State :=
  let x := reed s r
  let x := { x with contained := true, trigPend := false, drvArmed := false, drvDue := [], urgent := none, urgCal := false }
  setReed s r (match x.seq with
    | .convert => x | .insert => x
    | _ => restPower s { x with seq := .off })

/-- The clear of the reaction restarts the sequencer in its mode (R506). -/
def freeReed (s : State) (r : Nat) : State := calIssue (wakeReed (setReed s r { reed s r with contained := false }) r)

/-- The pad test takes, or gives back, every modulator of a tile; a stream restarts after it (R257, R287). -/
def padHoldTile (s : State) (t : Nat) (on : Bool) : State :=
  (List.range' (t * 32) 32).foldl (fun s r =>
    let x := reed s r
    let s := setReed s r { x with padHold := on, lastConv := none }
    if on then s else calIssue (wakeReed s r)) s

end Sys2Proof.Machine
end

