-- ==== Sys2Proof/Machine/Cal.lean ====
section
/-! DEFINITION. The CAL page: coefficient access and system calibration from applied zero and full scale (R305 to R313, R326). -/

namespace Sys2Proof.Machine

/-- Indices of the channel coefficients, which P0 alone writes and which survive a DRST (R309, R326). -/
def chanCoef (i : Nat) : Bool := decide (98304 ≤ i ∧ i ≤ 163839)

/-- CL_IDX.IDX. -/
def coefIdx (s : State) : Nat := regFld s (ro pgCAL 0x40) 0 18

/-- With AUTOINC, a CL_DATA access advances IDX, 167,935 to 0. -/
def coefStep (s : State) : State :=
  if !bit (getReg s (ro pgCAL 0x40)) 24 then s else
  let i := coefIdx s
  putReg s (ro pgCAL 0x40) 0 18 (if i = 167935 then 0 else i + 1)

/-- GAIN of a coefficient word is in 0x6000 to 0xA000 (R308). -/
def gainOk (g : Int) : Bool := decide (0x6000 ≤ g ∧ g ≤ 0xA000)

/-- The detail of SC_FAIL: IDX[17:0], LAST_ERR above it (log 5). -/
def scDetail (err i : Nat) : Word := pack [(0, 18, i), (18, 4, err)]

/-- A calibration run ends, and the engine withdraws a request that has not begun: the coefficient is left, or has been set once (R313). -/
def scEnd (s : State) (err : Nat) : State :=
  match s.cal.run with
  | none => s
  | some c =>
    let r := scReed c.idx
    let x := reed s r
    let s := if x.urgCal && !x.insCal then setReed s r { x with urgent := none, urgCal := false } else s
    let s := { s with cal := { s.cal with run := none } }
    tabEnd (if err = 0 then s else post s pgCAL 0 (scDetail err c.idx)) kCL err

/-- A write of CL_DATA at IDX (R306 to R308); into the target of a run it ends the run with 4 BUSY (R313). -/
def coefWrite (s : State) (w : Word) : State :=
  let i := coefIdx s
  let s :=
    if coefCount ≤ i ∨ !gainOk (fld w 0 16) then badEncoding s pgCAL 0x44
    else
      let s := setCoef s i w
      let s := setTab s kCL { tab s kCL with dirty := 1 }
      match s.cal.run with
      | some c => if c.idx = i then scEnd s 4 else s
      | none => s
  coefStep s

/-- A read of CL_DATA at IDX; a reserved index reads 0. -/
def coefRead (s : State) : Word × State :=
  let i := coefIdx s
  (if coefCount ≤ i then 0 else coef s i, coefStep s)

/-- CL_DATA_ACCESS (R307, R326). -/
def execClDataAccess (fn : Fn) (w : Option Word) (s : State) : Result :=
  match w with
  | some v => .next (wr s fn pgCAL 0x44 (if chanCoef (coefIdx s) then 0 else 1) (fun s => coefWrite s v))
  | none => .next (rd s fn pgCAL 0x44 coefRead)

/-- SC_ZERO or SC_FULL starts on the input of CL_IDX, a monitor or a heater voltage (R311, R313). -/
def scStart (s : State) (full : Bool) : State :=
  if tabBusy s kCL then tabRefuse s kCL else
  let i := coefIdx s
  let s := tabStart s kCL (if full then 5 else 4)
  if 98303 < i then tabEnd (post s pgCAL 0 (scDetail 6 i)) kCL 6
  else calIssue { s with cal := { s.cal with run := some {
    full := full, idx := i, total := 2 ^ regFld s (ro pgCAL 0x4C) 0 4, osr := BitVec.ofNat 3 (regFld s (ro pgCAL 0x4C) 4 3),
    since := s.now } } }

def execClScZero (fn : Fn) (s : State) : Result := tabWrite s fn kCL (fun s => scStart s false)
def execClScFull (fn : Fn) (s : State) : Result := tabWrite s fn kCL (fun s => scStart s true)

/-- What a calibration run makes of a coefficient word: the new word, or the error code (R311, R313). -/
def scResult (old : Word) (full : Bool) (reference : Int) (samples : List Int) (ovr : Bool) : Word ⊕ Nat :=
  let n := samples.length
  let sum := samples.foldl (· + ·) 0
  if ovr then .inr 5
  else if !full then
    let m := roundDiv sum (max n 1)
    if m < -32768 ∨ 32767 < m then .inr 8 else .inl (put old 16 16 (unsigned 16 m))
  else
    let d := sum - signed 16 (fld old 16 16) * n
    if d ≤ 0 then .inr 1
    else
      let g := roundDiv (reference * 32768 * n) d.toNat
      if gainOk g then .inl (put old 0 16 g.toNat) else .inr 1

/-- Largest minus smallest sample. -/
def spreadOf (l : List Int) : Nat := match l with
  | [] => 0
  | x :: t => (t.foldl max x - t.foldl min x).toNat

/-- CL_SC_DONE of the run for `idx` (R311 to R313): every conversion of the run is made, or one was over-range: the coefficient is
set once, or stays. -/
def scDone (s : State) (idx : Nat) (full : Bool) : State :=
  match s.cal.run with
  | none => s
  | some c =>
    if c.idx != idx || c.full != full || !c.ovr && decide (c.samples.length < c.total) then s else
    let s := setReg s (ro pgCAL 0x58) (pack [(0, 24, spreadOf c.samples), (24, 8, c.idx)])
    match scResult (coef s c.idx) c.full (signed 24 (regFld s (ro pgCAL 0x50) 0 24)) c.samples c.ovr with
    | .inl w => scEnd (setCoef s c.idx w) 0
    | .inr e => scEnd s e

def execClScDone (idx : BitVec 18) (full : Bool) (s : State) : Result := .next (scDone s idx.toNat full)

/-- CL_SC_URGENT_TIMEOUT (R312): for 10 ms the run has waited for the reed, which holds an urgent request or is held. -/
def execClScUrgentTimeout (s : State) : Result :=
  match s.cal.run with
  | none => .next s
  | some c =>
    let x := reed s (scReed c.idx)
    if (x.heldOff || (x.urgent.isSome && !x.urgCal)) && decide (c.since + 12000000 ≤ s.now) then .next (scEnd s 7) else .next s

end Sys2Proof.Machine
end

