-- ==== Sys2Proof/Machine/Meter.lean ====
section
/-! DEFINITION. The feed meters: periods, power and energy, open sense wires and their calibration (R314 to R323, R327). -/

namespace Sys2Proof.Machine

/-- The register of a meter channel. -/
abbrev mtRes (c : Nat) : Nat := ro pgMETER (0x50 + 4 * c)
abbrev mtCal (c : Nat) : Nat := ro pgMETER (0xA0 + 4 * c)

/-- The channels whose sense pairs carry the open-wire pulls (R320). -/
def pulled (c : Nat) : Bool := c ∈ [1, 3, 4, 5, 6]

/-- RES of a channel as a number. -/
def meterRes (s : State) (c : Nat) : Int := signed 22 (regFld s (mtRes c) 0 22)

/-- The coefficient word in force in the running period (METER page). -/
def mtCoef (s : State) (c : Nat) : Word := tabGet (fun _ => identity) s.fd.calInForce c

/-- A meter result: corrected by the coefficient of the period, or the saturated code with OVR (R317, R322). -/
def meterCode (w : Word) (raw : Int) (ovr : Bool) : Int :=
  if ovr then (if raw < 0 then -2097152 else 2097151) else corrected 22 w raw

/-- The mean power of a period in mW, from a sum of products in 312.5 pW (R314, R318). -/
def meanMw (sum : Int) (n : Nat) : Nat := (clampI 0 0xFFFFF (roundDiv sum (3200000 * max n 1))).toNat

/-- METER_PERIOD_END (R315, R316, R320): results, averages and SEQ change together, and the next period begins with the
selection and coefficients written. -/
def periodEnd (s : State) (raw : List Int) (ovr halves : BitVec 8) : State :=
  if !s.fd.supply then s else
  let osw := bit (getReg s (ro pgMETER 0x40)) 4
  let openOf (c : Nat) : Bool := if osw then pulled c && halves.getLsbD c else bit (getReg s (mtRes c)) 25
  let opens := maskOf ((List.range 8).filter openOf)
  let newOpen := (List.range 8).filter (fun c => openOf c && !bit (getReg s (mtRes c)) 25)
  let stat := getReg s (ro pgMETER 0x48)
  let newOvr := decide (∃ c ∈ List.range 8, ovr.getLsbD c ∧ !bit stat (16 + c))
  let s := (List.range 8).foldl (fun s c =>
    let v := meterCode (mtCoef s c) ((raw[c]?).getD 0) (ovr.getLsbD c)
    setReg s (mtRes c) (pack [(0, 22, unsigned 22 v), (24, 1, b2n (ovr.getLsbD c)), (25, 1, b2n (opens.testBit c))])) s
  let s := setReg s (ro pgMETER 0x48) (pack [(0, 16, fld stat 0 16 + 1), (16, 8, ovr.toNat), (24, 8, opens)])
  let n := s.fd.pCount
  let s := setReg s (ro pgMETER 0x70) (BitVec.ofNat 32 (meanMw s.fd.pSumA n))
  let s := setReg s (ro pgMETER 0x74) (BitVec.ofNat 32 (meanMw s.fd.pSumB n))
  let s := setReg s (ro pgMETER 0x78) (BitVec.ofNat 32 (meanMw s.fd.pSumIb n))
  let cals := (List.range 8).foldl (fun t c => tabSet (fun _ => identity) t c (getReg s (mtCal c))) []
  let s := { s with fd := { s.fd with
    pSumA := 0, pSumB := 0, pSumIb := 0, pCount := 0, fresh := true, calInForce := cals,
    periodSel := BitVec.ofNat 2 (regFld s (ro pgMETER 0x40) 0 2), periodMs := BitVec.ofNat 10 (regFld s (ro pgMETER 0x44) 0 10) } }
  let s := newOpen.foldl (fun s c => post s pgMETER 0 (BitVec.ofNat 32 c)) s
  if newOvr then post s pgMETER 1 (BitVec.ofNat 32 ovr.toNat) else s

def execMeterPeriodEnd (raw : List Int) (ovr halvesOpen : BitVec 8) (s : State) : Result := .next (periodEnd s raw ovr halvesOpen)

/-- A sample of a pair with its two channels' corrections (R318, R322). -/
def viCorrected (s : State) (chV chI : Nat) (x : VI) : VI :=
  { v := corrected 22 (mtCoef s chV) x.v, i := corrected 22 (mtCoef s chI) x.i }

/-- The product of a corrected pair in 312.5 pW: 50 uV by 12.5 uA for the feeds, 12.5 uV by 25 uA for the bus converter (R314). -/
def feedPower (x : VI) : Int := x.v * x.i * 2
def ibPower (x : VI) : Int := x.v * x.i

/-- Energy after a product over 62.5 us: 51,200,000,000 units to the mJ, the rest carried; a negative product adds 0 (R318). -/
def addEnergy (mj rem : Nat) (p : Int) : Nat × Nat :=
  let t := rem + p.toNat
  ((mj + t / 51200000000) % 2 ^ 64, t % 51200000000)

/-- FD_INST of a feed follows the samples: mA and 10 mV, saturated; with the gate off no current flows. -/
def measured (s : State) (f : Feed) (x : VI) : State :=
  let s := measV s f (BitVec.ofNat 16 (clampI 0 65535 (roundDiv x.v 200)).toNat)
  calmI (measI s f (BitVec.ofInt 16 (satI 16 (roundDiv x.i 80)))) f

/-- SH_RATIO follows the currents of the two feeds while they carry any (R55). -/
def permilleNow (s : State) (ia ib : Int) : State :=
  let a := max ia 0
  let b := max ib 0
  if !bothOn s ∨ a + b = 0 then s else shareNow s (BitVec.ofNat 10 (roundDiv (1000 * a) (a + b).toNat).toNat)

/-- POWER_SAMPLE (R318): the corrected products enter the averages and the energies, and FD_INST and SH_RATIO follow. -/
def powerSample (s : State) (a b ib : VI) : State :=
  if !s.fd.supply then s else
  let a := viCorrected s 0 1 a
  let b := viCorrected s 2 3 b
  let ib := viCorrected s 4 5 ib
  let ea := addEnergy s.fd.energyA s.fd.remA (feedPower a)
  let eb := addEnergy s.fd.energyB s.fd.remB (feedPower b)
  let ei := addEnergy s.fd.energyIb s.fd.remIb (ibPower ib)
  let s := permilleNow (measured (measured s .a a) .b b) a.i b.i
  let s := { s with fd := { s.fd with
    pSumA := s.fd.pSumA + feedPower a, pSumB := s.fd.pSumB + feedPower b, pSumIb := s.fd.pSumIb + ibPower ib,
    pCount := s.fd.pCount + 1,
    energyA := ea.1, remA := ea.2, energyB := eb.1, remB := eb.2, energyIb := ei.1, remIb := ei.2 } }
  shareErrHolds s

def execPowerSample (a b ib : VI) (s : State) : Result := .next (powerSample s a b ib)

/-- E_CLR clears the energies named in E_MASK (R319). -/
def energyClear (s : State) (m : Nat) : State :=
  { s with fd := { s.fd with
    energyA := if m.testBit 0 then 0 else s.fd.energyA, remA := if m.testBit 0 then 0 else s.fd.remA,
    energyB := if m.testBit 1 then 0 else s.fd.energyB, remB := if m.testBit 1 then 0 else s.fd.remB,
    energyIb := if m.testBit 2 then 0 else s.fd.energyIb, remIb := if m.testBit 2 then 0 else s.fd.remIb } }

/-- A write of the METER page: MT_CTRL, with E_CLR, and MT_PERIOD take effect at the end of the running period (R316, R319); a
coefficient word with GAIN out of range is discarded (R308). -/
def meterWrite (s : State) (o : Nat) (v : Word) : State :=
  if 0xA0 ≤ o ∧ o < 0xC0 ∧ !gainOk (fld v 0 16) then badEncoding s pgMETER o else
  let s := writeReg s (ro pgMETER o) v
  if o = 0x40 ∧ bit v 8 then energyClear s (fld v 9 3) else s

def execMtPeriodWrite (off : BitVec 12) (v : Word) (s : State) : Result :=
  let o := off.toNat
  .next (if s.fd.supply ∧ (o = 0x40 ∨ o = 0x44) then meterWrite s o v else s)

def execMtEClr (mask : BitVec 3) (s : State) : Result := .next (if s.fd.supply then energyClear (putReg s (ro pgMETER 0x40) 9 3 mask.toNat) mask.toNat else s)

/-- The energy of a pair: 0 A, 1 B, 2 IB. -/
def energyOf (s : State) (p : Nat) : Nat := match p with | 0 => s.fd.energyA | 1 => s.fd.energyB | _ => s.fd.energyIb

/-- A read of MT_E_x_LO copies the high word into the shadow (R319). -/
def energyLoRead (s : State) (p : Nat) : Word × State :=
  let e := energyOf s p
  (BitVec.ofNat 32 e, { s with fd := { s.fd with
    eShadow := tabSet (fun _ => (0 : Word)) s.fd.eShadow p (BitVec.ofNat 32 (e / 2 ^ 32)) } })

def execMtELoRead (pair : Fin 3) (s : State) : Result :=
  let r := energyLoRead s pair.val
  .next (if s.fd.supply then answer r.2 r.1 else s)

/-- MT_SC_STAT takes a result. -/
def mtScStat (s : State) (busy : Bool) (err c : Nat) : State :=
  setReg s (ro pgMETER 0xC8) (pack [(0, 1, b2n busy), (1, 4, err), (8, 3, c)])

/-- SC_FAIL of METER: LAST_ERR and the channel at their places of MT_SC_STAT (log 5). -/
def mtScFail (s : State) (err c : Nat) : State := post s pgMETER 2 (pack [(1, 4, err), (8, 3, c)])

/-- MT_SC starts a zero or full-scale step on a channel (R322); BUSY refuses it. -/
def mtScStart (s : State) (c : Nat) (full : Bool) (nper : Nat) : State :=
  if !s.fd.supply then s
  else if s.fd.mtSc.isSome then mtScFail (putReg s (ro pgMETER 0xC8) 1 4 4) 4 c
  else mtScStat { s with fd := { s.fd with mtSc := some (c, full, max nper 1) } } true 0 c

/-- MT_SC by its register word. -/
def mtScWrite (s : State) (v : Word) : State :=
  match fld v 4 2 with
  | 1 => mtScStart s (fld v 0 3) false (fld v 8 4)
  | 2 => mtScStart s (fld v 0 3) true (fld v 8 4)
  | _ => badEncoding s pgMETER 0xC0

def execMtScZero (c : Fin 8) (nper : BitVec 4) (s : State) : Result := .next (mtScStart s c.val false nper.toNat)
def execMtScFull (c : Fin 8) (nper : BitVec 4) (s : State) : Result := .next (mtScStart s c.val true nper.toNat)

/-- MT_SC_DONE (R311, R313, R322): the run ends at a period boundary, with the NPER results of the channel, before their correction. -/
def mtScDone (s : State) (samples : List Int) (ovr : Bool) : State :=
  match s.fd.mtSc with
  | none => s
  | some (c, full, nper) =>
    if samples.length ≠ nper then s else
    let s := { s with fd := { s.fd with mtSc := none } }
    match scResult (getReg s (mtCal c)) full (signed 22 (regFld s (ro pgMETER 0xC4) 0 22)) samples ovr with
    | .inl w => mtScStat (setReg s (mtCal c) w) false 0 c
    | .inr e => mtScFail (mtScStat s false e c) e c

def execMtScDone (samples : List Int) (ovr : Bool) (s : State) : Result := .next (mtScDone s samples ovr)

/-! ### The trip recorder's capture (R79, R323) -/

/-- A field of a sample with its channel's correction: `k` LSB of the channel to the unit of TR_RD_DATA (R323). -/
def sampleField (s : State) (c : Nat) (k : Nat) (x : Int) : Int := roundDiv (corrected 22 (mtCoef s c) (x * k)) k

/-- A sample of TR_RD_DATA with the correction of the feed's two channels (R323). -/
def sampleCorrected (s : State) (f : Feed) (w : Word) : Word :=
  let c := match f with | .a => 0 | .b => 2
  pack [(0, 16, unsigned 16 (satI 16 (sampleField s (c + 1) 80 (signed 16 (fld w 0 16))))),
    (16, 16, (clampI 0 65535 (sampleField s c 200 (fld w 16 16))).toNat)]

/-- 16 ms after the trip the capture is frozen and held, its samples corrected (R79, R323). -/
def captureDone (s : State) (samples : List (Nat × Word)) : State :=
  match s.fd.capture with
  | some (f, k) =>
    { s with fd := { s.fd with
      capture := none, capValid := true, capFeed := f, capKind := k,
      samples := samples.foldl (fun t p => if p.1 < 64000 then tabSet (fun _ => (0 : Word)) t p.1 (sampleCorrected s f p.2) else t) [] } }
  | none => s

def execTripCaptureDone (samples : List (Nat × Word)) (s : State) : Result := .next (captureDone s samples)

end Sys2Proof.Machine
end

