-- ==== Sys2Proof/Machine/Loop.lean ====
section
/-! DEFINITION. The element loops: evaluation, limits, settle hold and resume, status (R328 to R347). -/

namespace Sys2Proof.Machine

/-! ### When a loop acts (R331, R341, R342) -/

/-- The reed's loops are frozen by a strobe or held by a CONTAIN reaction. -/
def loopFrozen (s : State) (r : Nat) : Bool := (reed s r).frozen

/-- Every loop of the reed is held: stage, level, pad test, CONTAIN (R341, R506). -/
def loopHeld (s : State) (r : Nat) : Bool :=
  decide (s.boot.stage.val < 4) || decide (4 ≤ level s) || (reed s r).padHold || (reed s r).loopHeld

/-- LP_CTRL.EN. -/
def loopEn (s : State) : Bool := bit (getReg s (ro pgLOOP 0x40)) 0

/-- The channel is looped (R328). -/
def looped (l : LoopCh) : Bool := l.lmode != 0 && l.lmode != 3 && l.mapEn

/-- The accumulators have been updated since the last evaluation (R331). -/
def loopNew (s : State) (ch : Nat) : Bool :=
  let l := loopCh s ch
  accSeq s (ch / 32 * 64 + l.monA) != l.seqA.toNat
    && (l.isAbs || accSeq s (ch / 32 * 64 + l.monB) != l.seqB.toNat)

/-- PERIOD_MS has passed since the channel's last evaluation (R331). -/
def loopPeriod (s : State) (ch : Nat) : Bool := match (loopCh s ch).evalAt with
  | none => true
  | some t => decide (t + max (regFld s (ro pgLOOP 0x40) 8 8) 1 * 1200000 ≤ s.now)

/-- The conditions of R331. -/
def loopReady (s : State) (ch : Nat) : Bool :=
  let c := chan s ch
  loopPeriod s ch && loopEn s && !loopHeld s (ch / 32) && looped (loopCh s ch) && !loopFrozen s (ch / 32) && c.fuse == .clear && !c.atPark
    && loopData s ch (accValid s) && loopNew s ch && loopData s ch (fun j => !accOvr s j) && !loopOpen s ch && loopLight s ch

/-- A channel of the reed in a lower lane is to be evaluated first (R335). -/
def lowerLane (s : State) (ch : Nat) : Bool := (List.range (ch % 32)).any (fun q => loopReady s (ch / 32 * 32 + q))

/-! ### One evaluation (R332 to R334) -/

/-- The target in force: 8,388,607 where TARGET[23] of an ABS loop is 1 (R329). -/
def loopTarget (l : LoopCh) : Nat := if l.tgtClamp then 8388607 else l.target.toNat

/-- Δ of R332 from a gain word and the error. -/
def loopDelta (gain : Word) (sign : Bool) (e : Int) : Int :=
  let p := (if sign then -1 else 1) * (fld gain 0 16 : Int) * e
  let m : Int := fld gain 24 8
  clampI (-m) m (roundDiv p (2 ^ fld gain 16 5))

/-- The code of R333: within 0 to 65,535 and BASE ± TRIM_MAX. -/
def loopLimit (base : Nat) (trimMax : Nat) (code : Int) : Int :=
  clampI (max 0 ((base : Int) - trimMax)) (min 65535 ((base : Int) + trimMax)) code

/-- LSB of a channel's range in 0.3125 nA. -/
def lsb (range : Bool) : Nat := if range then 400 else 100

/-- NET of a tile in 0.3125 nA (R334). -/
def tileNet (s : State) (t : Nat) : Int :=
  (tileChans t).foldl (fun n ch =>
    let c := chan s ch
    if c.fuse = .clear then n + trim c (loopCh s ch) * lsb c.range else n) 0

/-- The largest Δ in the direction of `d` that keeps |NET| within the cap (R334). -/
def capDelta (net : Int) (cap l : Nat) (d : Int) : Int :=
  let room := ((if 0 ≤ d then (cap : Int) - net else cap + net) / l)
  let n := min d.natAbs room.toNat
  if 0 ≤ d then n else -n

/-- LOOP_DRIFT: |TRIM| first exceeds WARN, and again only after it has fallen below WARN / 2 (R343). -/
def driftCheck (s : State) (ch : Nat) : State :=
  let l := loopCh s ch
  let w := regFld s (ro pgLOOP 0x50) 0 12
  let a := (trim (chan s ch) l).natAbs
  if w ≠ 0 ∧ w < a ∧ !l.drift then post (setLoopCh s ch { l with drift := true }) pgLOOP 1 (BitVec.ofNat 32 ch)
  else if l.drift ∧ 2 * a < w then setLoopCh s ch { l with drift := false }
  else s

/-- LOOP_EVALUATE (R301, R331 to R335). -/
def loopEvaluate (s : State) (ch : Nat) : State :=
  let s := if looped (loopCh s ch) then loopCheck s ch else s
  if !loopReady s ch || lowerLane s ch || outranks s (chan s ch) 1 then s else
  let l := loopCh s ch
  let c := chan s ch
  let q := loopQ l.isAbs (loopA s ch) (loopB s ch)
  let d := loopDelta (getReg s (ro pgLOOP (0xC0 + 4 * l.gsel))) l.sign ((loopTarget l : Int) - q)
  let lim := loopLimit l.base.toNat (regFld s (ro pgLOOP (0xE0 + 4 * l.gsel)) 0 12) (c.code.toNat + d)
  let d1 := if d = 0 then 0 else lim - c.code.toNat
  let cut := decide (d1 ≠ d)
  let d2 := capDelta (tileNet s (ch / 1024)) (regFld s (ro pgLOOP 0x4C) 0 7 * mA) (lsb c.range) d1
  let capped := decide (d1 ≠ 0 ∧ d2 = 0)
  let l' : LoopCh := { l with
    seqA := BitVec.ofNat 8 (accSeq s (ch / 32 * 64 + l.monA)), seqB := BitVec.ofNat 8 (accSeq s (ch / 32 * 64 + l.monB)),
    limited := cut, capped := capped, stale := false, evalAt := some s.now, quietFrom := s.now,
    updates := BitVec.ofNat 16 (min (l.updates.toNat + 1) 65535),
    firstDelta := if l.firstPend ∧ d2 ≠ 0 then BitVec.ofInt 16 d2 else l.firstDelta,
    firstPend := l.firstPend && d2 == 0 }
  let s := setLoopCh s ch l'
  let s := if d2 = 0 then s
    else bumpReg (setChan s ch { c with
      code := BitVec.ofInt 16 (c.code.toNat + d2), src := 3, wrote := some s.now, unlooped := some (c.code, c.src) }) (ro pgLOOP 0x78) 0 32
  let s := if cut && !l.limited then post s pgLOOP 0 (BitVec.ofNat 32 ch) else s
  let s := if capped && !l.capped then post s pgLOOP 3 (BitVec.ofNat 32 (ch / 1024)) else s
  driftCheck s ch

def execLoopEvaluate (ch : Chan) (s : State) : Result := .next (loopEvaluate s ch.val)

/-- LOOP_STALE (R344): no evaluation for 10 ms, since the last or since the loop could act (log 31). -/
def execLoopStale (ch : Chan) (s : State) : Result :=
  let l := loopCh s ch.val
  let r := ch.val / 32
  .next (if looped l && !loopFrozen s r && !loopHeld s r && loopEn s && !l.stale && decide (l.quietFrom + 12000000 ≤ s.now) then
    post (setLoopCh s ch.val { l with stale := true }) pgLOOP 2 (BitVec.ofNat 32 ch.val) else s)

/-! ### Settle hold and resume (R338 to R341) -/

/-- The loops of a reed resume: the mapped accumulators restart their blocks, and the next Δ of each looped channel is the first
after resuming (R340). -/
def loopResume (s : State) (r : Nat) : State :=
  let chs := (reedChans r).filter (fun ch => looped (loopCh s ch))
  let accs := (chs.flatMap (fun ch => [r * 64 + (loopCh s ch).monA, r * 64 + (loopCh s ch).monB])).eraseDups
  let s := { s with accs := { s.accs with restart := s.accs.restart ++ accs.filter (fun i => !s.accs.restart.contains i) } }
  chs.foldl (fun s ch =>
    let l := loopCh s ch
    setLoopCh s ch { l with firstPend := true, quietFrom := s.now, seqA := BitVec.ofNat 8 (accSeq s (r * 64 + l.monA)),
                            seqB := BitVec.ofNat 8 (accSeq s (r * 64 + l.monB)) }) s

/-- Every reed resumes. -/
def loopResumeAll (s : State) : State := (List.range 1024).foldl loopResume s

/-- SETTLE_HOLD_END (R338): the last tongue of the reed has ended and LP_SETTLE has passed since: STEP_US after a plain entry, else
SHAPED_US. -/
def settleHoldEnd (s : State) (r : Nat) : State :=
  let x := reed s r
  let us := regFld s (ro pgLOOP 0x44) (if x.freezePlain then 16 else 0) 8
  if !x.frozen || decide (s.now < x.settleFrom + us * 1200) || reedPlays s r || s.chans.any (fun e => e.1 / 32 == r && e.2.waiting.isSome) then s
  else loopResume (setReed s r { x with frozen := false, freezePlain := false }) r

def execSettleHoldEnd (r : Reed) (s : State) : Result := .next (settleHoldEnd s r.val)

/-! ### Registers (R342, R345, R347) -/

/-- LP_CH_STAT.STATE (R342). -/
def loopState (s : State) (ch : Nat) : Nat :=
  let l := loopCh s ch
  let c := chan s ch
  let r := ch / 32
  if !looped l then 0
  else if !loopEn s || loopHeld s r then 1
  else if c.fuse ≠ .clear then 2
  else if c.atPark then 3
  else if loopFrozen s r then 4
  else if loopOpen s ch then 5
  else if !loopData s ch (accValid s) || l.stale then 6
  else if !loopData s ch (fun j => !accOvr s j) then 7
  else if !loopLight s ch then 8
  else if l.limited then 10
  else if l.capped then 11
  else 9

/-- LP_CH_IDX.CH. -/
def loopIdx (s : State) : Nat := regFld s (ro pgLOOP 0x54) 0 15

/-- LP_CH_STAT of the channel. -/
def loopStatWord (s : State) (ch : Nat) : Word :=
  let l := loopCh s ch
  pack [(0, 4, loopState s ch), (4, 2, l.lmode.toNat), (6, 1, b2n l.tgtClamp), (16, 16, unsigned 16 (satI 16 (trim (chan s ch) l)))]

/-- A read of LP_CH_STAT advances CH with AUTOINC, 32,767 to 0 (R345). -/
def loopStatRead (s : State) : Word × State :=
  (loopStatWord s (loopIdx s),
    if bit (getReg s (ro pgLOOP 0x54)) 16 then bumpReg s (ro pgLOOP 0x54) 0 15 else s)

def execLpChStatRead (fn : Fn) (s : State) : Result := .next (rd s fn pgLOOP 0x5C loopStatRead)

/-- LP_TILE_NET: NET in 10 uA and AT_CAP. -/
def loopNetWord (s : State) (t : Nat) : Word :=
  pack [(0, 16, unsigned 16 (satI 16 (roundDiv (tileNet s t) 32000))),
    (16, 1, b2n ((tileChans t).any (fun ch => (loopCh s ch).capped)))]

/-- LP_FROZEN of a tile. -/
def loopFrozenWord (s : State) (t : Nat) : Word :=
  BitVec.ofNat 32 (maskOf ((List.range 32).filter (fun q => loopFrozen s (t * 32 + q) || loopHeld s (t * 32 + q))))

/-- A write of a LOOP register: LP_CH_CFG of the selected channel; the writes of R347 set DIRTY. -/
def loopRegWrite (s : State) (o : Nat) (v : Word) : State :=
  let s := if o = 0x58 then
      setLoopCh s (loopIdx s) { loopCh s (loopIdx s) with cfg := BitVec.ofNat 13 (fld v 0 13) }
    else writeReg s (ro pgLOOP o) v
  if o = 0x58 ∨ o = 0x48 ∨ o = 0x4C ∨ (0xC0 ≤ o ∧ o < 0x100) then setTab s kLP { tab s kLP with dirty := 1 } else s

/-- A WARM reset keeps the loop map; everything that the registers of the WARM domain show is as at reset, so that the loop is off until a
strobe names its mode again (R17, R345; log 22). -/
def LoopCh.warm (l : LoopCh) : LoopCh := { cfg := l.cfg }

end Sys2Proof.Machine
end

