-- ==== Sys2Proof/Machine/Flash.lean ====
section
/-! DEFINITION. The flash store: mount, codeword reads, blocks and wear, rings and their records, metadata durability, scrubbing,
interface training, quiesce and resume (R455 to R490), with the feed-die writes that its orderly stop ends in (R68, R380). -/

namespace Sys2Proof.Machine

/-! ### Writes that the drive die sends to a feed page (R113) -/

/-- Where a request over the link names the refused-clear count of a feed page, beyond the seven pages (R519; log 35). -/
abbrev refusedCount : Nat := 0x7000

/-- The feed page of an access, 0 to 6. -/
def FeedWait.page (w : FeedWait) : Nat :=
  if refusedCount ≤ w.off.toNat then (w.off.toNat - refusedCount) / 4 else w.off.toNat / 4096

/-- An access goes out over the link: a write posted, a read requested. -/
def feedSend (s : State) (w : FeedWait) : State :=
  match w.data with
  | some v =>
    let s := sendToFeed (sendToFeed s (.wrAddr w.off w.priv)) (.wrData v)
    { s with idl := { s.idl with wrWait := s.idl.wrWait ++ [w] } }
  | none =>
    let s := sendToFeed s (.rdReq w.off w.priv)
    { s with idl := { s.idl with rdWait := s.idl.rdWait ++ [w] } }

/-- An access to a feed page is sent, or held behind a write to the same page that still awaits its WR_ACK (R113). -/
def feedAccess (s : State) (w : FeedWait) : State :=
  if !idlUp s then s
  else if (s.idl.wrWait ++ s.idl.heldAcc).any (fun p => p.page == w.page) then
    { s with idl := { s.idl with heldAcc := s.idl.heldAcc ++ [w] } }
  else feedSend s w

/-- A write by the drive die itself, at P0. -/
def feedWrite (s : State) (off : Nat) (v : Word) : State :=
  feedAccess s { off := BitVec.ofNat 15 off, fn := 3, data := some v }

/-- PS_CTRL.STOP is sent to the feed die (R68, R380, R537). -/
def sendStop (s : State) : State := feedWrite s (ro pgPSEQ 0x40) 1

/-- The supervisory core runs: its firmware is verified and PLL_S clocks it (R82; CLK page). -/
def coreRuns (s : State) : Bool := s.boot.core && s.power.pllsLock

/-- STOP, and at L8 FD_CTRL.OFF with LAST_OK for each feed that was sagging at its entry (R537). -/
def orderlyStop (s : State) : State :=
  let s := sendStop s
  if !s.power.l8Stop then s else
  let off (s : State) (f : Feed) : State := feedWrite s (ro (pgFEED f) 0x40) 3
  let s := if s.power.l8Feeds.getLsbD 0 then off s .a else s
  if s.power.l8Feeds.getLsbD 1 then off s .b else s

/-! ### Layout (R456, R457) -/

/-- Exported MiB of a raw capacity in MB: 80 %, rounded down (R457). -/
def exportedMib (rawMb : Nat) : Nat := rawMb * 1000000 * 4 / 5 / 1048576

/-- Size of a partition in MiB (R457). -/
def partMib (f : Flash) (p : Nat) : Nat := match p with
  | 0 => 16
  | 1 => 256
  | 2 => f.expMib / 64
  | 4 => f.expMib / 16
  | 3 => f.expMib - 16 - 256 - f.expMib / 64 - f.expMib / 16
  | _ => 0

/-- Size of a partition in bytes. -/
def partBytes (f : Flash) (p : Nat) : Nat := partMib f p * 1048576

/-! ### The medium (R455, R456) -/

end Sys2Proof.Machine

namespace Sys2Proof

open Sys2Proof.Machine

/-- The target offers what R455 requires. -/
def Target.supported (t : Target) : Bool :=
  t.lpddr4 && t.bus8 && t.commands && decide (1 ≤ t.luns ∧ t.luns ≤ 4) && t.pageBytes == 16384 && decide (2208 ≤ t.spareBytes)
    && decide (256 ≤ t.blkPages ∧ t.blkPages ≤ 4096) && t.planes ∈ [1, 2, 4]

/-- The targets whose blocks the controller uses. -/
def Medium.mounted (m : Medium) : List Target := m.targets.filter (·.supported)
/-- Blocks that are neither unsupported nor factory-marked bad. -/
def Target.good (t : Target) : Nat := t.blocks - t.factoryBad
def Medium.usable (m : Medium) : Nat := m.mounted.foldl (fun n t => n + t.good) 0
def Medium.factoryBad (m : Medium) : Nat := m.mounted.foldl (fun n t => n + t.factoryBad) 0
/-- Raw capacity of a channel in MB, at most 1 TB (R456). -/
def Medium.chanMb (m : Medium) (c : Nat) : Nat :=
  min ((m.mounted.filter (fun t => t.chan.val == c)).foldl (fun n t => n + t.good * t.blkPages * 16384) 0 / 1000000) 1000000
/-- Raw capacity in MB (R456). -/
def Medium.rawMb (m : Medium) : Nat := m.chanMb 0 + m.chanMb 1 + m.chanMb 2 + m.chanMb 3
/-- Mounted targets of a channel. -/
def Medium.count (m : Medium) (c : Nat) : Nat := (m.mounted.filter (fun t => t.chan.val == c)).length
/-- Rated endurance: the least of the targets in use (log 32). -/
def Medium.rated (m : Medium) : Nat := match m.mounted with
  | [] => 0
  | t :: ts => ts.foldl (fun n u => min n u.endurance) t.endurance
/-- NF_GEOM: the geometry of the first target in use (log 32). -/
def Medium.geom (m : Medium) : Word := match m.mounted with
  | [] => 0
  | t :: _ => pack [(0, 13, t.blkPages), (16, 2, if t.planes = 4 then 2 else t.planes - 1), (18, 2, t.luns - 1), (20, 12, t.spareBytes)]
/-- NF_TARGETS and CH_OK. -/
def Medium.targetWord (m : Medium) : Word := pack ((List.range 4).map (fun c => (4 * c, 4, m.count c)))
def Medium.chOk (m : Medium) : Nat := maskOf ((List.range 4).filter (fun c => decide (0 < m.count c)))
/-- NF_UNSUP, bits rising. -/
def Medium.unsup (m : Medium) : List Nat :=
  (List.range 32).filter (fun i => m.targets.any (fun t => !t.supported && t.chan.val * 8 + t.ce.val == i))

end Sys2Proof

namespace Sys2Proof.Machine

/-- HEAD, TAIL and next offset of a ring partition 2 to 4. -/
def ringHead (f : Flash) (p : Nat) : Nat := tabGet (fun _ => 0) f.heads p
def ringTail (f : Flash) (p : Nat) : Nat := tabGet (fun _ => 0) f.tails p
def ringNext (f : Flash) (p : Nat) : Nat := tabGet (fun _ => 0) f.nexts p

/-- The controller is mounted: states 2 to 5. -/
def mounted (f : Flash) : Bool := f.state == .ready || f.state == .quiescing || f.state == .quiesced || f.state == .readOnly

/-- NF_STAT.STATE (R489). -/
def FlashState.code : FlashState → Nat
  | .off => 0 | .mount => 1 | .ready => 2 | .quiescing => 3 | .quiesced => 4 | .readOnly => 5 | .failed => 6

/-! ### Spares and wear (R462 to R465) -/

/-- NF_PE_RATED.PCT. -/
def wornPct (maxPe rated : Nat) : Nat := if rated = 0 then 0 else min (maxPe * 100 / rated) 255

/-- Free spare blocks take a new count: SPARES_LOW at 1 % of the usable blocks, READ_ONLY at 64 (R465). -/
def sparesCheck (s : State) (free : Nat) : State :=
  let usable := match s.flash.medium with | some m => m.usable | none => 0
  let s := putReg s (ro pgNVF 0x9C) 0 20 free
  let low := decide (free * 100 ≤ usable)
  let full := decide (free ≤ 64)
  let newLow := low && !s.flash.sparesLow
  let newFull := full && !s.flash.readOnly
  let st := if full && s.flash.state == .ready then .readOnly else s.flash.state
  let s := { s with flash := { s.flash with sparesLow := low, readOnly := full || s.flash.readOnly, state := st } }
  let s := if newLow then post s pgNVF 3 (BitVec.ofNat 32 free) else s
  if newFull then post s pgNVF 4 (BitVec.ofNat 32 free) else s

/-- Cycle counts take new extremes: WORN at 80 % and at 100 % of the rated endurance (R464). -/
def wearCheck (s : State) (maxPe minPe : Nat) : State :=
  let rated := match s.flash.medium with | some m => m.rated | none => 0
  let s := setReg s (ro pgNVF 0xA0) (pack [(0, 16, maxPe), (16, 16, minPe)])
  let pct := wornPct maxPe rated
  let s := setReg s (ro pgNVF 0xA4) (pack [(0, 16, rated), (16, 8, pct)])
  let n80 := decide (80 ≤ pct) && !s.flash.worn80
  let n100 := decide (100 ≤ pct) && !s.flash.worn100
  let s := { s with flash := { s.flash with worn80 := s.flash.worn80 || n80, worn100 := s.flash.worn100 || n100 } }
  let s := if n80 then post s pgNVF 7 (BitVec.ofNat 32 pct) else s
  if n100 then post s pgNVF 7 (BitVec.ofNat 32 pct) else s

/-- NF_IF after a training: BAND in force, its rate, TRAINS (R484). -/
def trainIf (s : State) : State :=
  let b := band s
  setReg s (ro pgNVF 0x88) (pack [(0, 3, b), (4, 11, if b = 5 then 1200 else 1600),
    (16, 16, regFld s (ro pgNVF 0x88) 16 16 + 1)])

/-! ### The metadata journal (R474, R475) -/

/-- Channel and LUN of copies 0 and 1 of metadata page `n`: on different channels when two are present, else on different LUNs (which
ones is the model's choice, log 32). -/
def metaPlaces (m : Medium) (n : Nat) : (Nat × Nat) × (Nat × Nat) :=
  let cs := (List.range 4).filter (fun c => decide (0 < m.count c))
  let chan (i : Nat) : Nat := cs.getD (i % max cs.length 1) 0
  let luns (c : Nat) : Nat := (m.mounted.filter (fun t => t.chan.val == c)).foldl (fun n t => n + t.luns) 0
  if 2 ≤ cs.length then ((chan n, n % max (luns (chan n)) 1), (chan (n + 1), n % max (luns (chan (n + 1))) 1))
  else ((chan 0, n % max (luns (chan 0)) 1), (chan 0, (n + 1) % max (luns (chan 0)) 1))

/-- A metadata page has both its copies; every 4,096th is followed by a checkpoint of the whole state. -/
def metaPage (s : State) : State := match s.flash.medium with
  | none => s
  | some m =>
    let j := s.flash.mj
    let ck := decide (4096 ≤ j.since + 1)
    { s with flash := { s.flash with mj := {
      seq := j.seq + 1, since := if ck then 0 else j.since + 1, copies := some (metaPlaces m j.seq),
      ckpt := if ck then some (j.seq + 1) else j.ckpt, ckptPrev := if ck then j.ckpt else j.ckptPrev } } }

/-- The layout of a blank medium is recorded with the first checkpoint (R457, R478; log 32). -/
def metaFirst (s : State) : State :=
  let s := metaPage s
  { s with flash := { s.flash with mj := { s.flash.mj with ckpt := some s.flash.mj.seq } } }

/-! ### Mount (R455, R476 to R479, R489) -/

/-- FLASH_MOUNT: parameter pages, training and replay of the metadata. -/
def flashMount (s : State) (m : Medium) (torn : List TornPage) (fallback : Bool) : State :=
  if s.flash.state ≠ .off ∨ !domOn s 9 ∨ s.boot.stage.val < 2 then s else
  let j := s.flash.mj
  let s := { s with flash := { s.flash with
    state := .mount, medium := some m, pending := [], nexts := s.flash.heads, torn := torn, fallback := fallback,
    mj := if fallback then { j with ckpt := j.ckptPrev, ckptPrev := none } else j,
    sparesLow := false, readOnly := false, worn80 := false, worn100 := false, relocs := [] } }
  let n := min torn.length 255
  let s := setReg s (ro pgNVF 0x4C) m.geom
  let s := setReg s (ro pgNVF 0x50) m.targetWord
  let s := setReg s (ro pgNVF 0x54) (BitVec.ofNat 32 (maskOf m.unsup))
  let s := setReg s (ro pgNVF 0x58) (BitVec.ofNat 32 m.rawMb)
  let s := putReg s (ro pgNVF 0x98) 0 16 m.factoryBad
  let s := setReg s (ro pgNVF 0xA8) (pack [(16, 8, n), (24, 1, b2n fallback)])
  let s := putReg s (ro pgNVF 0x90) 16 5 0
  let s := trainIf s
  let s := m.unsup.foldl (fun s i => post s pgNVF 8 (pack [(4, 4, i / 8), (0, 4, i % 8)])) s
  let s := if torn = [] then s
    else post (journal s 10 (torn.flatMap (fun p => [pack [(28, 4, p.part.toNat), (0, 28, p.lca.toNat)], p.kind.setWidth 32, 0, 0])))
      pgNVF 5 (BitVec.ofNat 32 n)
  if !fallback then s else match j.ckptPrev with
    | some q => post s pgNVF 10 (BitVec.ofNat 32 q)
    | none => postFree s pgNVF 10

def execFlashMount (m : Medium) (torn : List TornPage) (ckptFallback : Bool) (s : State) : Result :=
  .next (flashMount s m torn ckptFallback)

/-- MOUNT_DONE: READY, READ_ONLY or FAILED; a blank medium gets its layout (R457, R478, R479). -/
def mountDone (s : State) (readable : Bool) (ms : BitVec 16) : State :=
  match s.flash.state, s.flash.medium with
  | .mount, some m =>
    let s := putReg s (ro pgNVF 0xA8) 0 16 ms.toNat
    if s.flash.laidOut ∧ !readable then { s with flash := { s.flash with state := .failed } } else
    let s := if s.flash.laidOut then s
      else metaFirst { s with flash := { s.flash with laidOut := true, expMib := exportedMib m.rawMb } }
    let s := setReg s (ro pgNVF 0x5C) (BitVec.ofNat 32 (s.flash.expMib * 1048576 / 1000000))
    wearCheck (sparesCheck { s with flash := { s.flash with state := .ready } } m.freeSpare) m.maxPe m.minPe
  | _, _ => s

def execMountDone (ckptReadable : Bool) (ms : BitVec 16) (s : State) : Result := .next (mountDone s ckptReadable ms)

/-! ### Codewords and blocks (R458 to R463) -/

/-- An NV_READ that meets the uncorrectable codeword completes with 4 UNCORRECTABLE and the bytes before it (R459). -/
def Cmd.meetUncorrectable (f : Flash) (part lca : Nat) (c : Cmd) : Cmd :=
  match c.move with
  | none => c
  | some m =>
    let size := max (partBytes f part) 1
    let p := m.off % size
    let d := if p / 4096 = lca then 0 else (lca * 4096 + size - p) % size
    if m.part = part ∧ d < m.len then
      { c with move := some { m with len := d }, res := some (1, 4, BitVec.ofNat 32 d, 0) }
    else c

/-- PBAND of a codeword: that of its program, or what the medium reports of one that the model has not programmed (R461). -/
def pbandOf (s : State) (key reported : Nat) : Nat :=
  match tabGet (fun _ => 0) s.flash.pbands key with | 0 => reported | n + 1 => n

/-- CODEWORD_READ: the ladder's end, counts, the block's relocation, or UNCORRECTABLE. -/
def codewordRead (s : State) (part lca : Nat) (step : Option Nat) (bits : Nat) (reported : Nat) : State :=
  if !mounted s.flash then s else
  let key := part * 2 ^ 28 + lca
  match step with
  | none =>
    let s := { s with cmdq := { s.cmdq with cmds := s.cmdq.cmds.map (Cmd.meetUncorrectable s.flash part lca) } }
    post (bumpReg s (ro pgNVF 0x8C) 16 16) pgNVF 0 (pack [(28, 4, part), (0, 28, lca)])
  | some k =>
    let pband := pbandOf s key reported
    let crossed := decide (3 ≤ max pband (band s) - min pband (band s))
    let k := if crossed then max k 1 else k
    let s := if 1 ≤ k then bumpReg s (ro pgNVF 0x8C) 0 16 else s
    let s := putReg s (ro pgNVF 0x90) 16 5 (max k (regFld s (ro pgNVF 0x90) 16 5))
    let move := decide ((if crossed then 1 else 0) < k) || decide (regFld s (ro pgNVF 0x90) 0 10 < bits)
    if move then { s with flash := { s.flash with relocs := s.flash.relocs ++ [some key] } } else s

def execCodewordRead (part : BitVec 4) (lca : BitVec 28) (step : Option (Fin 17)) (bitsCorrected : BitVec 10) (pband : Fin 6)
    (s : State) : Result :=
  .next (codewordRead s part.toNat lca.toNat (step.map (·.val)) bitsCorrected.toNat pband.val)

/-- RELOCATION_DONE (R460): a block has been rewritten, in the band in force. -/
def execRelocationDone (freeSpare : Nat) (maxPe minPe : Nat) (s : State) : Result :=
  match s.flash.relocs with
  | [] => .next s
  | r :: rest =>
    let s := bumpReg { s with flash := { s.flash with relocs := rest } } (ro pgNVF 0x80) 16 16
    let s := match r with
      | some key => notePrograms s (key / 2 ^ 28) (key % 2 ^ 28 * 4096) 4096
      | none => s
    .next (wearCheck (sparesCheck s freeSpare) maxPe minPe)

/-- A grown bad block is retired: it leaves the spare pool (R462, R465). -/
def retireBlock (s : State) (src : Nat) (block : Word) (moves : Nat) : State :=
  if !mounted s.flash then s else
  let s := bumpReg { s with flash := { s.flash with relocs := s.flash.relocs ++ List.replicate moves none } } (ro pgNVF 0x98) 16 16
  sparesCheck (post s pgNVF src block) (regFld s (ro pgNVF 0x9C) 0 20 - 1)

def execProgramFail (block : Word) (s : State) : Result := .next (retireBlock s 1 block 1)
def execEraseFail (block : Word) (s : State) : Result := .next (retireBlock s 2 block 0)

/-- WEAR_LEVEL_MOVE (R463): the spread of cycle counts exceeds SPREAD. -/
def execWearLevelMove (maxPe minPe : Nat) (s : State) : Result :=
  let w := getReg s (ro pgNVF 0xA0)
  if mounted s.flash ∧ regFld s (ro pgNVF 0x94) 0 12 < fld w 0 16 - fld w 16 16 then .next (wearCheck s maxPe minPe) else .next s

/-! ### Rings and records (R468 to R473) -/

/-- Bytes of a word, lowest first. -/
def wordBytes (w : Word) : List Byte := [byteOf w 0, byteOf w 1, byteOf w 2, byteOf w 3]

/-- Bytes padded with zeros to a multiple of 16. -/
def pad16 (l : List Byte) : List Byte := l ++ List.replicate ((16 - l.length % 16) % 16) 0

/-- A record: the 16-byte header, with DAMAGED, and its payload (R31; JOURNAL records of 14_flash_store.md). -/
def recordBytes (type : Byte) (rseq : Word) (time : Nat) (payload : List Byte) (damaged : Bool) : List Byte :=
  let p := pad16 payload
  wordBytes (pack [(0, 8, type.toNat), (8, 1, b2n damaged), (16, 16, p.length / 16)]) ++ wordBytes rseq
    ++ wordBytes (BitVec.ofNat 32 time) ++ wordBytes (BitVec.ofNat 32 (time / 2 ^ 32)) ++ p

/-- A ring takes appends: JOURNAL while READY, READ_ONLY or QUIESCING; the others while READY with spares (R465, R486). -/
def ringOpen (s : State) (p : Nat) : Bool :=
  let f := s.flash
  domOn s 9 && (if p = 2 then f.state == .ready || f.state == .readOnly || f.state == .quiescing
    else f.state == .ready && !f.sparesLow)

/-- A record is appended: RSEQ, the bytes wait for durability, TAIL makes room by whole records (R468, R469, R472, R475). -/
def appendRecord (s : State) (p : Nat) (type : Byte) (payload : List Byte) (damaged : Bool := false) : State :=
  let f := s.flash
  let seq := tabGet (fun _ => (0 : Word)) f.rseq p
  let bytes := recordBytes type seq (shelfNow s) payload damaged
  let start := ringNext f p
  let stop := start + bytes.length
  let size := partBytes f p
  let recs := tabGet (fun _ => ([] : List Nat)) f.recs p ++ [start]
  let tail := if ringTail f p + size < stop then (recs.find? (fun o => decide (stop ≤ o + size))).getD start else ringTail f p
  { s with flash := { f with
    rseq := tabSet (fun _ => (0 : Word)) f.rseq p (seq + 1),
    recs := tabSet (fun _ => ([] : List Nat)) f.recs p (recs.filter (fun o => decide (tail ≤ o))),
    tails := tabSet (fun _ => 0) f.tails p tail,
    nexts := tabSet (fun _ => 0) f.nexts p stop,
    pending := f.pending ++ [.ring p start bytes] } }

/-- Bytes written into a ring from a logical offset (R468). -/
def ringPut (m : List Host.Cell) (size off : Nat) (bytes : List Byte) : List Host.Cell :=
  (bytes.zipIdx).foldl (fun m b => memSet m ((off + b.2) % max size 1) b.1) m

/-- Bytes at a ring's logical offset are programmed (R468). -/
def noteRing (s : State) (p off len : Nat) : State :=
  let size := max (partBytes s.flash p) 1
  let o := off % size
  let s := notePrograms s p o (min len (size - o))
  if size < o + len then notePrograms s p 0 (o + len - size) else s

/-- One change becomes durable (R470, R475). -/
def makeDurable (s : State) (c : MetaChange) : State := match c with
  | .ring p off bytes =>
    let f := s.flash
    noteRing { s with flash := { f with
      rings := tabUpd (fun _ => ([] : List Host.Cell)) f.rings p (fun m => ringPut m (partBytes f p) off bytes),
      heads := tabSet (fun _ => 0) f.heads p (off + bytes.length) } } p off bytes.length
  | .cal kind image len tag =>
    let g := imageGen s.flash.cal kind + 1
    let s := notePrograms { s with flash := { s.flash with cal := importImage s.flash.cal kind g image } } 1 (calAt kind) len
    let s := journal s 12 [BitVec.ofNat 32 kind, g, 1, 0]
    match tag with
    | some t => setRes s t 0 0 (BitVec.ofNat 32 len) 0
    | none => s

/-- A metadata page has both copies, and every change that it records becomes durable (R474, R475). -/
def allDurable (s : State) : State :=
  let ps := s.flash.pending
  ps.foldl makeDurable (metaPage { s with flash := { s.flash with pending := [] } })

/-- METADATA_DURABLE (R475): copy 1 of a metadata page completes. -/
def execMetadataDurable (s : State) : Result := .next (if mounted s.flash then allDurable s else s)

/-- The bytes of a record that waits, and whether a word of it fails parity and replay where it is staged (R31, R216). -/
def itemBytes (s : State) (it : JItem) : State × List Byte × Bool := match it.src with
  | none => (s, it.words.flatMap wordBytes, false)
  | some a =>
    let r := parSpan s a (4 * it.words.length)
    (r.1, (boreWords r.1 a it.words.length).flatMap wordBytes, !r.2)

/-- RING_APPEND (R216, R469): the core appends a record to JOURNAL, TELEMETRY or CAPTURE. To JOURNAL it writes the oldest record of the
type that waits, and `payload` when none does. -/
def execRingAppend (part : Fin 3) (type : Byte) (payload : List Byte) (s : State) : Result :=
  let p := part.val + 2
  if !coreRuns s || !ringOpen s p then .next s else
  match (if p = 2 then s.flash.journalQ.find? (fun it => it.type == type) else none) with
  | none => .next (appendRecord s p type payload)
  | some it =>
    let r := itemBytes { s with flash := { s.flash with journalQ := s.flash.journalQ.erase it } } it
    .next (appendRecord r.1 2 type r.2.1 r.2.2)

/-- TR_STAT and the retained record of a feed (TRIP page). -/
def trStatWord (s : State) : Word :=
  pack [(0, 1, b2n s.fd.capValid), (1, 1, if s.fd.capFeed = .a then 0 else 1), (2, 4, s.fd.capKind.toNat), (8, 8, s.fd.capMissed.toNat)]
def trRecWord (r : TripRec) : Word :=
  pack [(0, 8, r.trips.toNat), (8, 4, r.lastKind.toNat), (12, 3, r.consec.toNat), (15, 1, b2n r.latched), (16, 14, r.coolMs.toNat)]

/-- TRIP_CAPTURE_WRITE (R473): the core writes the trip capture and its TRIP record, and releases the recorder. -/
def execTripCaptureWrite (s : State) : Result :=
  if !s.fd.capValid || !coreRuns s || !idlUp s || !ringOpen s 4 then .next s else
  let words : List Word := [trStatWord s, BitVec.ofNat 32 s.fd.capTick, BitVec.ofNat 32 (s.fd.capTick / 2 ^ 32)]
    ++ (List.range 64000).map (fun i => tabGet (fun _ => (0 : Word)) s.fd.samples i)
  let rec' : List Word := [trRecWord s.feedA.tr, trRecWord s.feedB.tr, trStatWord s, BitVec.ofNat 32 (if s.fd.capFeed = .a then 0 else 1)]
  let s := appendRecord s 4 64 (words.flatMap wordBytes)
  let s := journal s 5 rec'
  .next (trReleaseFx s (bit (getReg s (ro pgTRIP 0x40)) 1))

/-! ### Scrubbing and the interface (R480 to R484) -/

/-- Interval of a band in seconds (R480). -/
def scrubInterval (b : Nat) : Nat := 86400 * (match b with | 0 => 30 | 1 => 14 | 2 => 7 | 3 => 3 | _ => 1)

/-- SCRUB_RATE_UPDATE (R481): the rate from the pages left, or MAX_PPS and OVERDUE; suspended in B5 (R482). -/
def scrubRate (s : State) (left elapsed : Nat) : State :=
  if !bit (getReg s (ro pgNVF 0x40)) 0 || !mounted s.flash then s
  else if band s = 5 then putReg (putReg s (ro pgNVF 0x7C) 0 20 0) (ro pgNVF 0x7C) 31 1 1
  else
    let max := regFld s (ro pgNVF 0x78) 0 16 * 10
    let pass := scrubInterval (band s) * regFld s (ro pgNVF 0x40) 8 6 / 100
    let late := decide (pass ≤ elapsed)
    let rate := if late then max else min ((left + (pass - elapsed) - 1) / (pass - elapsed)) max
    let total := if s.flash.passPages = 0 then left else s.flash.passPages
    let prog := if total = 0 then 0 else (total - left) * 1000 / total
    let overdue := late || s.flash.overdue
    let s := { s with flash := { s.flash with overdue := overdue, passPages := total, passLeft := left } }
    setReg s (ro pgNVF 0x7C) (pack [(0, 20, rate), (20, 10, prog), (30, 1, b2n overdue)])

def execScrubRateUpdate (pagesLeft : Nat) (elapsedS : Nat) (s : State) : Result := .next (scrubRate s pagesLeft elapsedS)

/-- A new pass begins: PROG 0, OVERDUE clear; it reads the codewords of B0 that owe a scrub (R483). -/
def newPass (s : State) : State :=
  let s := { s with flash := { s.flash with overdue := false, passPages := 0, passLeft := 0,
                                            coldPass := s.flash.coldPass ++ s.flash.coldDue, coldDue := [] } }
  putReg (putReg s (ro pgNVF 0x7C) 20 10 0) (ro pgNVF 0x7C) 30 1 0

/-- SCRUB_PASS_END (R480): the pass has read its last page, and the next starts. -/
def execScrubPassEnd (s : State) : Result :=
  if !bit (getReg s (ro pgNVF 0x40)) 0 || band s = 5 || !mounted s.flash then .next s
  else .next (newPass (bumpReg { s with flash := { s.flash with coldPass := [] } } (ro pgNVF 0x80) 0 16))

/-- SCRUB_DEBT (R482): intervals of B4 expire during the suspension. -/
def execScrubDebt (blocks : BitVec 20) (s : State) : Result :=
  if band s ≠ 5 ∨ !mounted s.flash ∨ blocks = 0 then .next s else
  let s := satReg s (ro pgNVF 0x84) 0 20 blocks.toNat
  .next (post s pgNVF 6 (BitVec.ofNat 32 (regFld s (ro pgNVF 0x84) 0 20)))

/-- Hours in B5, saturating (NF_SCRUB_DEBT). -/
def b5Hours (s : State) : Nat :=
  min ((s.flash.b5Cc + match s.flash.b5Since with | some t => s.now - t | none => 0) / 4320000000000) 4095

/-- What a band change does to the store: the interface trains (R484); from B3 on, what was programmed in B0 owes a scrub (R483); B5
suspends the scrubber, and leaving B5 resumes it with a SCRUB_DEBT record (R482). -/
def flashBand (s : State) (old new : Nat) : State :=
  let s := if mounted s.flash then trainIf s else s
  let s := if old < 3 ∧ 3 ≤ new then
      { s with flash := { s.flash with coldDue := (s.flash.pbands.filter (fun p => p.2 == 1)).map (·.1) } } else s
  if new = 5 ∧ old ≠ 5 then
    putReg { s with flash := { s.flash with b5Since := some s.now } } (ro pgNVF 0x7C) 31 1 1
  else if old = 5 ∧ new ≠ 5 then
    let h := b5Hours s
    let s := { s with flash := { s.flash with
      b5Cc := s.flash.b5Cc + (match s.flash.b5Since with | some t => s.now - t | none => 0), b5Since := none } }
    putReg (journal s 11 [getReg s (ro pgNVF 0x84), BitVec.ofNat 32 h, 0, 0]) (ro pgNVF 0x7C) 31 1 0
  else s

/-- IF_RETRAIN (R484). -/
def execIfRetrain (s : State) : Result := .next (if mounted s.flash then trainIf s else s)

/-! ### Quiesce and resume (R486, R489, R490) -/

/-- QUIESCE begins: new writes are refused, erases are abandoned (R486). -/
def quiesce (s : State) (cause : Nat) : State :=
  if s.flash.state = .ready ∨ s.flash.state = .readOnly then
    { s with flash := { s.flash with state := .quiescing, closeCause := cause } }
  else s

/-- RESUME: writes are accepted again (R489). -/
def resumeFlash (s : State) : State :=
  if s.flash.state = .quiesced then
    { s with flash := { s.flash with state := if s.flash.readOnly then .readOnly else .ready } }
  else s

/-- NF_CMD by its code. -/
def nfCmd (s : State) (c : Nat) : State := match c with
  | 1 => if s.flash.state = .ready ∨ s.flash.state = .readOnly then quiesce s 2 else refusedCtrl s pgNVF 0x44
  | 2 => if s.flash.state = .quiesced then resumeFlash s else refusedCtrl s pgNVF 0x44
  | 3 => if mounted s.flash then
      let s := newPass s
      if band s = 5 then s else putReg s (ro pgNVF 0x7C) 0 20 (regFld s (ro pgNVF 0x78) 0 16 * 10)
    else s
  | _ => badEncoding s pgNVF 0x44

def execNfQuiesce (fn : Fn) (s : State) : Result := .next (wr s fn pgNVF 0x44 0 (fun s => nfCmd s 1))
def execNfResume (fn : Fn) (s : State) : Result := .next (wr s fn pgNVF 0x44 0 (fun s => nfCmd s 2))
def execNfScrubNow (fn : Fn) (s : State) : Result := .next (wr s fn pgNVF 0x44 0 (fun s => nfCmd s 3))

/-- QUIESCE_DONE (R486): programs and the CLOSE record are durable; a block reset goes on to RESUME (R581); an orderly stop then writes STOP (R380, R537). -/
def execQuiesceDone (s : State) : Result :=
  if s.flash.state ≠ .quiescing then .next s else
  let s := if coreRuns s then appendRecord s 2 2 (wordBytes (BitVec.ofNat 32 s.flash.closeCause)) else s
  let s := allDurable s
  let again := s.flash.blkRun
  let s := { s with flash := { s.flash with state := .quiesced, blkRun := false } }
  let s := if again then resumeFlash s else s
  .next (if coreRuns s ∧ (s.thermal.stopAsked ∨ s.power.l8Stop) then orderlyStop s else s)

/-- Changes that are not durable are as if never written: the rings end at HEAD and RSEQ continues from the highest in the
ring (R472, R488). -/
def Flash.discard (f : Flash) : Flash :=
  let rings := f.pending.filterMap (fun c => match c with | .ring p _ _ => some p | _ => none)
  { f with
    pending := [], nexts := f.heads,
    rseq := rings.foldl (fun q p => tabSet (fun _ => (0 : Word)) q p (tabGet (fun _ => (0 : Word)) q p - 1)) f.rseq,
    recs := (f.recs.map (fun r => (r.1, r.2.filter (fun o => decide (o < ringHead f r.1))))).filter (fun r => r.2 != []) }

/-- The controller loses power or is reset (R487, R489). -/
def flashOff (s : State) : State :=
  { s with flash := { s.flash.discard with state := .off, blkRun := false, medium := none, relocs := [],
                                           overdue := false, passPages := 0, passLeft := 0 } }

end Sys2Proof.Machine
end

