-- ==== Sys2Proof/Machine/Parity.lean ====
section
/-! DEFINITION. Reads of the Bore that no command of a block makes: failed replays and what they mean to the block that reads the word,
the patrol, and the start of the zeroing with the retirement map of JOURNAL (R181, R246, R267, R301, R390 to R400). -/

namespace Sys2Proof.Machine

/-! ### A failed word and its consumer -/

/-- Some delta of the slot takes the entry of the setpoint table: its index and channel. -/
def deltaUsing (s : State) (k idx : Nat) : Option (Nat × Nat) :=
  ((List.range (slot s k).deltas.toNat).find? (fun i =>
      let w := boreWord s (deltaAddr k i)
      !bit w 20 && fld w 0 15 * 4 + fld w 16 2 == idx)).map (fun i => (i, fld (boreWord s (deltaAddr k i)) 0 15))

/-- The plans that a setpoint word, a shape word or a delta word without a good source belongs to, and that read it now, are rejected;
an accumulator restarts (R181, R190, R246, R301). -/
def consumerFails (s : State) (a : Nat) : State := match boreRegion a with
  | 4 => slotList.foldl (fun s k =>
      if (slot s k).work ≠ .expand then s else
      match deltaUsing s k ((a - 0x80_0000) / 16) with
      | some d => rejectPlan s k 8 (some d)
      | none => s) s
  | 5 => slotList.foldl (fun s k =>
      let x := slot s k
      let plays := x.entries.any (fun e =>
        !e.plain && shapesOn s && shapeAddr (band s) e.shape.toNat == a / 32 * 32)
      if !plays then s
      else if x.work = .copy then rejectPlan s k 8 none
      else if x.work = .admission ∨ x.work = .redo then rejectAdmission s k 8 (x.state != .expanded)
      else s) s
  | 7 => accParity s ((a - 0xC0_0000) / 16)
  | 8 =>
    let k := (a - 0xD0_0000) / 0x4_0000
    let i := (a - 0xD0_0000) % 0x4_0000 / 8
    if (slot s k).work = .expand ∧ i < (slot s k).deltas.toNat then
      rejectPlan (postFree s pgPLAN 1) k 8 (some (i, fld (boreWord s (deltaAddr k i)) 0 15))
    else s
  | _ => s

/-- BORE_REPLAY (R390): the replay passes, or R391 runs, and the block that reads the word follows its own rule. -/
def execBoreReplay (addr : BitVec 26) (pass : Bool) (s : State) : Result :=
  let a := addr.toNat / 4 * 4
  if !domOn s 4 then .next s
  else if pass then .next (borePost (bumpReg s (ro pgBORE 0x48) 0 16) 0 (BitVec.ofNat 32 a))
  else
    let r := parFail s a
    let s := regionNote r.1 a
    .next (if r.2 then s else consumerFails s a)

/-- A word that is read and fails outside the block that uses it: R391 runs, and an accumulator restarts (R301, R394, R398). -/
def strayFail (s : State) (a : Nat) : State :=
  let r := parFail s a
  if boreRegion a = 7 then accParity r.1 ((a - 0xC0_0000) / 16) else r.1

/-! ### Patrol -/

/-- Words of the Bore. -/
abbrev boreSize : Nat := 12582912

/-- PATROL_READ (R398): the patrol reads its next word. -/
def execPatrolRead (s : State) : Result :=
  if !bit (getReg s (ro pgBORE 0x40)) 1 || !domOn s 4 then .next s else
  let a := s.bore.patrol * 4
  let s := if s.bore.badPar.contains a then strayFail s a else s
  let n := s.bore.patrol + 1
  if n < boreSize then .next { s with bore := { s.bore with patrol := n } }
  else .next (bumpReg { s with bore := { s.bore with patrol := 0 } } (ro pgBORE 0x5C) 0 16)

/-! ### Initialisation -/

/-- The word at a logical offset of the JOURNAL. -/
def journalWord (f : Flash) (o : Nat) : Word :=
  wordAt (tabGet (fun _ => ([] : List Host.Cell)) f.rings 2) (o % max (partBytes f 2) 1)

/-- The rows that the durable records of JOURNAL name as retired (R396). -/
def journalRows (f : Flash) : List Nat :=
  (((tabGet (fun _ => ([] : List Nat)) f.recs 2).filter (fun o =>
    decide (ringTail f 2 ≤ o ∧ o < ringHead f 2) && fld (journalWord f o) 0 8 == 9)).map
      (fun o => (journalWord f (o + 16)).toNat)).eraseDups

/-- BORE_INIT (R396, R400): the climb from stage 2 starts the zeroing; after a DRST the retirement map is first applied again from
JOURNAL. -/
def execBoreInit (s : State) : Result :=
  if s.boot.stage = 2 ∧ domOn s 4 ∧ !s.bore.climbDone then
    .next { s with bore := { s.bore with
      initRun := true
      retired := if s.bore.initDone || !flashReads s then s.bore.retired else journalRows s.flash } }
  else .next s

end Sys2Proof.Machine
end

