-- ==== Sys2Proof/Machine/Thermal.lean ====
section
/-! DEFINITION. The thermal model, the diodes, the bands and the thermal request (R348 to R366, R374 to R383). Temperatures
are exact, in degrees C; powers are in uW, so that a coefficient in m°C per mW is a coefficient in 10^-6 degrees per uW. -/

namespace Sys2Proof.Machine

/-! ### Reading the model -/

/-- The power that the model takes for a channel: 0 unless its fuse is clear (R348). -/
def modelPower (c : ChanSt) : Nat := if c.fuse = .clear then c.pUw.toNat else 0

/-- Temperature of node `n` of tile `t`, and the tile's base. -/
def nodeTemp (s : State) (t n : Nat) : Rat := tabGet (fun _ => 0) s.thermal.nodeT (t * 64 + n)
def baseTemp (s : State) (t : Nat) : Rat := tabGet (fun _ => 0) s.thermal.base t
/-- Source of the base, 0 OWN to 3 HELD (R363). -/
def baseSource (s : State) (t : Nat) : Nat := tabGet (fun _ => 0) s.thermal.baseSrc t
/-- TMAX of a tile. -/
def tmaxOf (s : State) (t : Nat) : TMax := tabGet (fun _ => {}) s.thermal.tmax t
/-- Diode `j`. -/
def diode (s : State) (j : Nat) : Diode := tabGet (fun _ => {}) s.thermal.diodes j

/-- A temperature as a register shows it: signed, 10 m°C, 16 bits. -/
def temp10 (q : Rat) : Nat := unsigned 16 (satI 16 (roundR (q * 100)))

/-- The model is warm (R364). -/
def modelWarm (s : State) : Bool := decide (regFld s (ro pgTHM 0x58) 0 10 ≤ s.thermal.warmCount.toNat)

/-- Thresholds of TP_THRESH in degrees C. -/
def tThrottle (s : State) : Nat := regFld s (ro pgTEMP 0x44) 0 8
def tPark (s : State) : Nat := regFld s (ro pgTEMP 0x44) 8 8
def tShut (s : State) : Nat := regFld s (ro pgTEMP 0x44) 16 8

/-- WHY of R349: NO_KERNEL 0, STALE 1, ISUM 2. A kernel word that is still bad has not been repaired from CAL. -/
def whyInvalid (s : State) (t : Nat) : Nat :=
  let g := tileClass s t
  let noKernel := !(tab s kTH).loaded || s.thermal.badKernels.any (fun i => i / 128 == g)
  let stale := (s.chans.filter (fun p => p.1 / 1024 == t && p.2.fuse == .clear && p.2.pStale)).length
  b2n noKernel + 2 * b2n (decide (32 < stale)) + 4 * b2n (mismatchLive s t)

/-- The model of a tile is valid (R349, TH_VALID without its warmth). -/
def modelValid (s : State) (t : Nat) : Bool := s.thermal.updated && !s.thermal.invalid.getLsbD t

/-! ### The update (R351 to R353) -/

/-- Distance of two nodes (R350). -/
def nodeDist (n m : Nat) : Nat :=
  ((n % 8 : Int) - (m % 8 : Int)).natAbs + ((n / 8 : Int) - (m / 8 : Int)).natAbs

/-- The channels of a tile that draw power, as local index and uW. -/
def powered (s : State) (t : Nat) : List (Nat × Nat) :=
  (s.chans.filter (fun p => p.1 / 1024 == t && decide (modelPower p.2 ≠ 0))).map (fun p => (p.1 % 1024, modelPower p.2))

/-- Power of node `n`: the channels of reed n >> 1 in lanes 0 to 15 or 16 to 31, which are the local indices 16 n to 16 n + 15. -/
def nodePower (ps : List (Nat × Nat)) (n : Nat) : Nat := ((ps.filter (fun p => p.1 / 16 == n)).map (·.2)).sum

/-- The new temperature of a node (R351). -/
def nodeStep (tn base : Rat) (tau : Nat) (g : Nat → Nat) (pw : List Nat) (n : Nat) : Rat :=
  let rise : Nat := ((pw.zipIdx).map (fun p => g (nodeDist n p.2) * p.1)).sum
  let tgt := base + (rise : Rat) / 1000000
  if tau ≤ 250 then tgt else tn + (tgt - tn) * (250 / (tau : Rat))

/-- The rise that aggressors bring to local channels: victim and rise in 10^-6 degrees, once per class and aggressor
(R352). -/
def crossRises (s : State) (t : Nat) (ps : List (Nat × Nat)) : List (Nat × Nat) :=
  let g := tileClass s t
  ps.flatMap (fun p => (List.range 6).flatMap (fun k => ([0, 2].filterMap (fun w =>
    match relation (kWord s g k w) (kWord s g k (w + 1)) (t * 1024 + p.1) with
    | some (some v) => some (v % 1024, fld (kWord s g k 11) 0 16 * p.2)
    | _ => none)).eraseDups))

/-- The model of one tile is updated; a tile newly invalid is reported, as is one whose domain is off (R349, R351 to R353, R522). -/
def updateTile (s : State) (t : Nat) : State :=
  let s := (kernelPass s (tileClass s t)).1
  let why := whyInvalid s t
  let ok := decide (why = 0) && tileOn s t
  let g := tileClass s t
  let ps := powered s t
  let pw := (List.range 64).map (nodePower ps)
  let gain (d : Nat) : Nat := fld (kWord s g 6 d) 0 16
  let tau := fld (kWord s g 7 1) 0 16
  let nodes := (List.range 64).map (fun n => nodeStep (nodeTemp s t n) (baseTemp s t) tau gain pw n)
  let rises := crossRises s t ps
  let self' := fld (kWord s g 7 0) 0 16
  let el (i : Nat) : Rat :=
    let own : Nat := modelPower (chan s (t * 1024 + i)) * self' + ((rises.filter (fun r => r.1 == i)).map (·.2)).sum
    nodes.getD (i / 16) 0 + (own : Rat) / 1000000
  let els := (List.range 1024).map el
  let best := els.zipIdx.foldl (fun (b : Rat × Nat) e => if b.1 < e.1 then e else b) (els.headD 0, 0)
  let old := tmaxOf s t
  let new : TMax := if ok then { temp := best.1, lane := best.2, valid := true, ever := true } else { old with valid := false }
  let was := s.thermal.invalid.getLsbD t
  let mask : Word := BitVec.ofNat 32 (2 ^ t)
  let th := s.thermal
  let s := { s with thermal := { th with
    nodeT := tabMap (fun _ => 0) th.nodeT (t * 64) 64 (fun i _ => nodes.getD (i % 64) 0),
    nodeP := tabMap (fun _ => 0) th.nodeP (t * 64) 64 (fun i _ => pw.getD (i % 64) 0),
    elT := tabMap (fun _ => 0) th.elT (t * 1024) 1024 (fun i _ => els.getD (i % 1024) 0),
    elP := tabMap (fun _ => 0) th.elP (t * 1024) 1024 (fun i _ => modelPower (chan s i)),
    tmax := tabSet (fun _ => {}) th.tmax t new,
    invalid := if ok then th.invalid &&& ~~~ mask else th.invalid ||| mask } }
  if !ok ∧ !was then post s pgTHM 3 (pack [(0, 5, t), (8, 3, why)]) else s

/-! ### T_th, bands and the request (R374 to R379) -/

/-- The largest temperature that the diodes of a tile in 0 OK or 1 SUSPECT read, if any (R365). -/
def diodeMax (s : State) (t : Nat) : Option Rat :=
  ((List.range 2).filterMap (fun i =>
    let d := diode s (2 * t + i)
    if d.read ∧ (d.state = .ok ∨ d.state = .suspect) then some d.td else none)).max?

/-- The values of R374 in its order: temperature, source, tile. -/
def tthCandidates (s : State) : List (Rat × Nat × Nat) :=
  let warm := modelWarm s
  let ts := List.range 32
  let own := ts.filterMap (fun t => if modelValid s t && warm then some ((tmaxOf s t).temp, 0, t) else none)
  let held := ts.filterMap (fun t => if !modelValid s t && (tmaxOf s t).ever then some ((tmaxOf s t).temp, 2, t) else none)
  let pre := ts.filterMap (fun t =>
    if !warm || baseSource s t == 3 then (diodeMax s t).map (fun q => (q + 5, 3, t)) else none)
  let dio := (List.range 64).filterMap (fun j =>
    let d := diode s j
    if d.read ∧ d.state = .ok then some (d.td, 1, j / 2) else none)
  own ++ held ++ pre ++ dio

/-- The largest candidate, the first on a tie. -/
def tthOf (l : List (Rat × Nat × Nat)) : Option (Rat × Nat × Nat) := match l with
  | [] => none
  | x :: xs => some (xs.foldl (fun b y => if b.1 < y.1 then y else b) x)

/-- Lower limits of the bands B1 to B5. -/
def bandLimits : List Nat := [25, 45, 65, 85, 100]

/-- The band that T_th moves to from band `b` (R375). -/
def bandNext (q : Rat) (b : Fin 6) : Fin 6 :=
  let up := (bandLimits.filter (fun (l : Nat) => decide ((l : Rat) ≤ q))).length
  let down := (bandLimits.filter (fun (l : Nat) => decide ((l : Rat) - 2 ≤ q))).length
  if b.val < up then Fin.ofNat 6 up else if down < b.val then Fin.ofNat 6 down else b

/-- The band follows T_th (R26, R375). -/
def bandMove (s : State) : State :=
  let b := s.thermal.band
  let n := bandNext s.thermal.tth b
  if n = b then s else
  let th := s.thermal
  let s := { s with thermal := { th with band := n, prevBand := b, bandChanges := th.bandChanges + 1 } }
  let s := post s pgTEMP 5 (pack [(0, 3, b.val), (4, 3, n.val)])
  redoAll (flashBand s b.val n.val)

/-- The request takes a level and its WHY; a change is reported (THERM_REQ, with the places of TP_REQ; log 5). -/
def setRequest (s : State) (r : Fin 9) (why : Nat) : State :=
  let old := s.thermal.req
  let s := { s with thermal := { s.thermal with req := r, why := BitVec.ofNat 3 why } }
  if r = old then s else post s pgTEMP 7 (pack [(0, 4, r.val), (4, 3, why)])

/-- WHY of a request level. -/
def whyOf (s : State) (r : Nat) : Nat :=
  if s.thermal.shutLatched then 3 else if s.thermal.invalidRaised then 4 else if r = 0 then 0
  else if (tPark s : Rat) ≤ s.thermal.tth ∨ (s.thermal.why = 2 ∧ 7 ≤ r) then 2 else 1

/-- The orderly stop that T_SHUT asks of the core (R380). -/
def shutStop (s : State) : State :=
  if s.thermal.shutLatched then s else
  let s := { s with thermal := { s.thermal with shutLatched := true, stopAsked := true, stopAt := s.now } }
  if coreRuns s then quiesce s 0 else s

/-- A threshold that T_th newly reaches is reported with TTH. -/
def crossed (s : State) (was : Bool) (thr src : Nat) : State :=
  if !was && decide ((thr : Rat) ≤ s.thermal.tth) then post s pgTEMP src (BitVec.ofNat 32 (temp10 s.thermal.tth)) else s

/-- The table of R376, then R379, at one model update; `old` is T_th of the update before, if there was one. -/
def requestUpdate (s : State) (old : Option Rat) : State :=
  let q := s.thermal.tth
  let had (thr : Nat) : Bool := match old with | some p => decide ((thr : Rat) ≤ p) | none => false
  let s := crossed (crossed (crossed s (had (tThrottle s)) (tThrottle s) 2) (had (tPark s)) (tPark s) 3) (had (tShut s)) (tShut s) 4
  let s := if (tShut s : Rat) ≤ q then shutStop s else s
  let hot : Bool := decide ((tPark s : Rat) ≤ q)
  let s := if hot && !s.thermal.parkTaken then parkEvent s 2 allTiles else s
  let s := { s with thermal := { s.thermal with parkTaken := hot } }
  let r := s.thermal.req.val
  let r := if (tThrottle s : Rat) ≤ q then max r 1 else r
  let r := if hot then max r 7 else r
  let r := if s.thermal.shutLatched then 8 else r
  if s.thermal.invalid = 0 then
    let s := setRequest s (Fin.ofNat 9 r) (whyOf s r)
    if s.thermal.invalidRaised then s else { s with thermal := { s.thermal with reqValid := Fin.ofNat 9 r } }
  else if s.thermal.invalidRaised then setRequest s (Fin.ofNat 9 r) (whyOf s r)
  else
    let s := { s with thermal := { s.thermal with invalidRaised := true } }
    let r := min 8 (max r s.thermal.reqValid.val + 1)
    setRequest s (Fin.ofNat 9 r) (whyOf s r)

/-- TP_CTRL.HOLD_S and CLIMB_S in cycles. -/
def holdCc (s : State) : Nat := max (regFld s (ro pgTEMP 0x40) 0 8) 1 * 1200000000
def climbCc (s : State) : Nat := max (regFld s (ro pgTEMP 0x40) 8 8) 1 * 1200000000

/-- The level that the table of R376 gives for the present T_th (R377; log 34). -/
def tableLevel (s : State) : Nat :=
  let q := s.thermal.tth
  let r := s.thermal.req.val
  if (tPark s : Rat) ≤ q then min r 7 else if (tThrottle s : Rat) ≤ q then min r 6
  else if (tThrottle s : Rat) - 2 ≤ q then r else 0

/-- What TEMP times from one update to the next: how long T_th has stood at THROTTLE or above, a lower level has been justified, and
every model has been valid (R376, R377, R379). -/
def timeUpdate (s : State) : State :=
  let th := s.thermal
  let since (p : Bool) (o : Option Nat) : Option Nat := if !p then none else some (o.getD s.now)
  { s with thermal := { th with
    climbFrom := since (decide ((tThrottle s : Rat) ≤ th.tth)) th.climbFrom,
    lowFrom := since (decide (tableLevel s < th.req.val)) th.lowFrom,
    validFrom := if th.invalid = 0 then th.validFrom else s.now } }

/-- MODEL_UPDATE. -/
def modelUpdate (s : State) : State :=
  if !domOn s 10 then s else
  let old := if s.thermal.updated then some s.thermal.tth else none
  let s := (List.range 32).foldl updateTile s
  let s := { s with thermal := { s.thermal with updated := true } }
  let s := match tthOf (tthCandidates s) with
    | none => s
    | some (q, src, t) => { s with thermal := { s.thermal with
        tth := q, src := BitVec.ofNat 2 src, tile := BitVec.ofNat 5 t } }
  timeUpdate (requestUpdate (bandMove s) old)

def execModelUpdate (s : State) : Result := .next (modelUpdate s)

/-- SHUT_WAIT_EXPIRED (R380): for SHUT_WAIT_MS STOP has not been accepted, and TEMP sends it over the link itself. -/
def execShutWaitExpired (s : State) : Result :=
  let wait := max (regFld s (ro pgTEMP 0x40) 16 8) 5 * 1200000
  .next (if s.thermal.stopAsked && !stopAccepted s && decide (s.thermal.stopAt + wait ≤ s.now) then sendStop s else s)

/-- THERM_CLIMB (R376): one level higher, up to L6, when T_th has stood at THROTTLE or above for CLIMB_S since the last; an invalid model
holds the request (R379). -/
def thermClimb (s : State) : State :=
  let th := s.thermal
  let due : Bool := match th.climbFrom with | some t => decide (t + climbCc s ≤ s.now) | none => false
  if th.updated ∧ due ∧ !th.invalidRaised ∧ !th.shutLatched ∧ th.req.val < 6 then
    setRequest { s with thermal := { th with climbFrom := some s.now } } (Fin.ofNat 9 (th.req.val + 1)) (whyOf s (th.req.val + 1))
  else s

def execThermClimb (s : State) : Result := .next (thermClimb s)

/-- Some diode is in 1 SUSPECT (R377). -/
def anySuspect (s : State) : Bool := s.thermal.diodes.any (fun p => p.2.state == .suspect)

/-- Cycles until the request may fall, as far as the present state tells: until a lower level has been justified for HOLD_S, until
HOLD_S after the last diode failed, and until every model has been valid for HOLD_S (R377, R379). -/
def holdLeft (s : State) : Nat :=
  let th := s.thermal
  let left (t : Nat) : Nat := t + holdCc s - s.now
  max (left (th.lowFrom.getD s.now)) (max (match th.diodeOutAt with | some t => left t | none => 0)
    (if th.invalidRaised then left (if th.invalid = 0 then th.validFrom else s.now) else 0))

/-- THERM_HOLD_FALL (R377, R379): nothing holds the request any more, and it falls to the level of the table. -/
def thermHoldFall (s : State) : State :=
  if s.thermal.shutLatched ∨ s.thermal.invalid ≠ 0 ∨ anySuspect s ∨ holdLeft s ≠ 0 then s else
  let s := { s with thermal := { s.thermal with invalidRaised := false, lowFrom := none } }
  let s := setRequest s (Fin.ofNat 9 (tableLevel s)) (whyOf s (tableLevel s))
  { s with thermal := { s.thermal with reqValid := s.thermal.req } }

def execThermHoldFall (s : State) : Result := .next (thermHoldFall s)

/-- TP_REQ.HOLD_REM: 0 without a request, saturated while one cannot fall (TEMP page). -/
def holdRem (s : State) : Nat :=
  if s.thermal.req = 0 then 0 else if s.thermal.shutLatched then 65535 else min ((holdLeft s + 119999999) / 120000000) 65535

/-! ### Diodes and the base (R359 to R365) -/

/-- The HK_DIODE accumulator of diode `j`, and its node. -/
def diodeAcc (j : Nat) : Nat := (j / 2 * 32 + j % 2 * 16) * 64 + 50
def diodeNode (j : Nat) : Nat := j % 2 * 32

/-- A diode's reading of a round: T_d, and out of range: OVR, VALID 0, or outside −40 to 150 °C (R359, R361). -/
def diodeReading (s : State) (j : Nat) : Rat × Bool :=
  let i := diodeAcc j
  let q : Rat := (Config.diodeTemp j (accValue s i) : Rat) / 1000
  (q, accOvr s i || !accValid s i || decide (q < -40) || decide (150 < q))

/-- A diode can be a neighbour (R360). -/
def canNeighbour (s : State) (j : Nat) : Bool := (diode s j).state == .ok || (diode s j).state == .suspect

/-- The two neighbours of a diode; fewer where the chain has no more (R360). -/
def neighbours (s : State) (j : Nat) : List Nat :=
  let down := (List.range j).reverse.filter (canNeighbour s)
  let up := (List.range' (j + 1) (63 - j)).filter (canNeighbour s)
  match down, up with
  | a :: _, b :: _ => [a, b]
  | [], us => us.take 2
  | ds, [] => ds.take 2

/-- A diode disagrees with the model and with both of its neighbours (R361); `e` gives the base estimates of the round. -/
def disagrees (s : State) (e : Nat → Rat) (j : Nat) (td : Rat) : Bool :=
  let far (a b : Rat) : Bool := decide (4 < ratAbs (a - b))
  match neighbours s j with
  | [a, b] => far td (nodeTemp s (j / 2) (diodeNode j)) && far (e j) (e a) && far (e j) (e b)
  | _ => false

/-- A diode after its round, and the local source that its transition sends (R361). -/
def diodeStep (d : Diode) (td e : Rat) (bad dis : Bool) : Diode × Option Nat :=
  let d := { d with td := td, e := e, bad := bad, disagree := dis, read := d.read || !bad }
  match d.state with
  | .failed | .range => (d, none)
  | .ok => if bad then ({ d with state := .range }, some 1) else
      if dis then ({ d with state := .suspect, count := 1 }, none) else (d, none)
  | .suspect => if bad then ({ d with state := .range }, some 1) else
      if !dis then ({ d with state := .ok, count := 0 }, none)
      else if d.count = 2 then ({ d with state := .failed }, some 0) else ({ d with count := d.count + 1 }, none)

/-- A tile's model starts at the first valid reading of its diodes (R364). -/
def startTile (s : State) (t : Nat) (reads : List (Rat × Bool)) : State :=
  let ok := (reads.filter (fun r => !r.2)).map (·.1)
  if s.thermal.started.getLsbD t ∨ ok.isEmpty then s else
  let q : Rat := ok.sum / (ok.length : Rat)
  let th := s.thermal
  { s with thermal := { th with
      started := th.started ||| BitVec.ofNat 32 (2 ^ t),
      base := tabSet (fun _ => 0) th.base t q,
      nodeT := tabMap (fun _ => 0) th.nodeT (t * 64) 64 (fun _ _ => q) } }

/-- The target of a tile's base and its source (R363); `bases` and `srcs` are those before the round. -/
def baseTarget (s : State) (bases : Nat → Rat) (srcs : Nat → Nat) (t : Nat) : Option Rat × Nat :=
  let a := diode s (2 * t)
  let b := diode s (2 * t + 1)
  match a.state == .ok, b.state == .ok with
  | true, true => (some ((a.e + b.e) / 2), 0)
  | true, false => (some a.e, 1)
  | false, true => (some b.e, 1)
  | false, false =>
    let near := ((if t = 0 then [] else [t - 1]) ++ (if t = 31 then [] else [t + 1])).filter (fun u => decide (srcs u ≤ 1))
    if near.isEmpty then (none, 3) else (some ((near.map bases).sum / (near.length : Rat)), 2)

/-- The base of one tile moves toward its target (R363). -/
def baseStep (bases : Nat → Rat) (srcs : Nat → Nat) (s : State) (t : Nat) : State :=
  let g := baseTarget s bases srcs t
  let period : Rat := (regFld s (ro pgMEAS 0x40) 0 4 : Rat) / 4000
  let tau : Rat := max 1 (fld (kWord s (tileClass s t) 7 2) 0 8)
  let f : Rat := if tau ≤ period then 1 else period / tau
  let th := s.thermal
  let s := { s with thermal := { th with baseSrc := tabSet (fun _ => 0) th.baseSrc t g.2 } }
  match g.1 with
  | none => post s pgTEMP 6 (BitVec.ofNat 32 t)
  | some b =>
    let old := baseTemp s t
    { s with thermal := { s.thermal with base := tabSet (fun _ => 0) s.thermal.base t (old + (b - old) * f) } }

/-- A diode has a reading that no round has used: its accumulator's SEQ has changed, or VALID is 0 (R302, R361). -/
def diodeNew (s : State) (j : Nat) : Bool :=
  !accValid s (diodeAcc j) || (diode s j).seq != some (BitVec.ofNat 8 (accSeq s (diodeAcc j)))

/-- DIODE_ROUND (R301, R302, R359 to R365): a diode without a new reading takes no part. -/
def diodeRound (s : State) : State :=
  if !domOn s 10 ∨ !domOn s 11 then s else
  let s := (List.range 64).foldl (fun s j => (accCheck s (diodeAcc j)).1) s
  let fresh := (List.range 64).map (diodeNew s)
  let acts (j : Nat) : Bool := fresh.getD j false
  let reads := (List.range 64).map (fun j => let r := diodeReading s j; (r.1, r.2 || !acts j))
  let s := (List.range 32).foldl (fun s t => startTile s t [reads.getD (2 * t) (0, true), reads.getD (2 * t + 1) (0, true)]) s
  let eOf (j : Nat) : Rat :=
    (reads.getD j (0, true)).1 - (nodeTemp s (j / 2) (diodeNode j) - baseTemp s (j / 2))
  let es := (List.range 64).map (fun j => if acts j then eOf j else (diode s j).e)
  let e (j : Nat) : Rat := es.getD j 0
  let moved := (List.range 64).map (fun j =>
    let r := reads.getD j (0, true)
    if !acts j then (diode s j, none)
    else diodeStep { diode s j with seq := some (BitVec.ofNat 8 (accSeq s (diodeAcc j))) } r.1 (e j) r.2 (disagrees s e j r.1))
  let s := moved.zipIdx.foldl (fun s m =>
    let s := { s with thermal := { s.thermal with diodes := tabSet (fun _ => {}) s.thermal.diodes m.2 m.1.1 } }
    match m.1.2 with
    | some src => post { s with thermal := { s.thermal with diodeOutAt := some s.now } } pgTEMP src (BitVec.ofNat 32 m.2)
    | none => s) s
  let bases := baseTemp s
  let srcs := baseSource s
  let s := (List.range 32).foldl (baseStep bases srcs) s
  if !(tab s kTH).loaded then s else
  { s with thermal := { s.thermal with
      warmCount := BitVec.ofNat 10 (min (s.thermal.warmCount.toNat + 1) (regFld s (ro pgTHM 0x58) 0 10)) } }

def execDiodeRound (s : State) : Result := .next (diodeRound s)

/-- TP_DIODE_CLR (R361, R362). -/
def diodeClr (s : State) (j : Nat) : State :=
  let d := diode s j
  if d.disagree ∨ d.bad then refusedCtrl s pgTEMP 0x48
  else if d.state = .failed ∨ d.state = .range then
    { s with thermal := { s.thermal with diodes := tabSet (fun _ => {}) s.thermal.diodes j { d with state := .ok, count := 0 } } }
  else s

def execTpDiodeClr (fn : Fn) (j : Fin 64) (s : State) : Result := .next (wr s fn pgTEMP 0x48 0 (fun s => diodeClr s j.val))

/-- A TP_THRESH word is allowed (R381). -/
def threshOk (v : Word) : Bool :=
  let a := fld v 0 8
  let b := fld v 8 8
  let c := fld v 16 8
  decide (60 ≤ a ∧ a ≤ 95 ∧ 70 ≤ b ∧ b ≤ 105 ∧ 80 ≤ c ∧ c ≤ 110 ∧ a + 5 ≤ b ∧ b + 5 ≤ c)

/-- A write to TP_THRESH (R381). -/
def threshWrite (s : State) (v : Word) : State :=
  if threshOk v then setReg s (ro pgTEMP 0x44) (v &&& 0xFF_FFFF) else refusedCtrl s pgTEMP 0x44

def execTpThreshWrite (fn : Fn) (v : Word) (s : State) : Result := .next (wr s fn pgTEMP 0x44 0 (fun s => threshWrite s v))

/-! ### Kernels and indexed reads -/

/-- TH_K_IDX.IDX, and its step after an access with AUTOINC. -/
def kIdx (s : State) : Nat := regFld s (ro pgTHM 0x50) 0 11
def kAdvance (s : State) : State := if bit (getReg s (ro pgTHM 0x50)) 16 then bumpReg s (ro pgTHM 0x50) 0 11 else s

/-- DIRTY of the kernels sets. -/
def kDirty (s : State) : State := setTab s kTH { tab s kTH with dirty := 1 }

/-- A kernel word takes a value; an armed CHECK injection inverts its parity (R357, R517). -/
def kernelPut (s : State) (i : Nat) (v : Word) : State :=
  let hit := checkArmed s pgTHM 0
  let s := if hit then useCheck s pgTHM 0 else s
  let bad := s.thermal.badKernels.erase i
  kDirty { s with thermal := { s.thermal with
    kernels := tabSet kDefault s.thermal.kernels i v, badKernels := if hit then bad ++ [i] else bad } }

/-- A write of TH_K_DATA (R356, R357). -/
def kDataWrite (s : State) (v : Word) : State :=
  let i := kIdx s
  let s := kAdvance s
  if !kernelWordOk i v then badEncoding s pgTHM 0x54 else
  let s := kernelPut s i v
  redoIf s (fun x => x.entries.any (fun e => tileClass s (e.ch / 1024) == i / 128))

def execThKDataWrite (fn : Fn) (v : Word) (s : State) : Result := .next (wr s fn pgTHM 0x54 1 (fun s => kDataWrite s v))

/-- A write of a tile-class word: slots with entries in its eight tiles are redone (R357). -/
def tileClassWrite (s : State) (j : Nat) (v : Word) : State :=
  let s := kDirty (setReg s (ro pgTHM (0x80 + 4 * j)) v)
  redoIf s (fun x => x.entries.any (fun e => e.ch / 8192 == j))

def execThTileClassWrite (fn : Fn) (j : Fin 4) (v : Word) (s : State) : Result :=
  .next (wr s fn pgTHM (0x80 + 4 * j.val) 1 (fun s => tileClassWrite s j.val v))

/-- The kernel word at IDX (R354). -/
def kDataRead (s : State) : Word × State :=
  let i := kIdx s
  let s := (kernelRead s i).1
  (tabGet kDefault s.thermal.kernels i, kAdvance s)

def execThKDataRead (fn : Fn) (s : State) : Result := .next (rd s fn pgTHM 0x54 kDataRead)

/-- TH_EL_TEMP of a channel: its temperature, and the power that the model used. -/
def elTempWord (s : State) (ch : Nat) : Word :=
  pack [(0, 16, temp10 (tabGet (fun _ => 0) s.thermal.elT ch)), (16, 16, tabGet (fun _ => 0) s.thermal.elP ch)]

/-- TH_EL_TEMP of the channel at TH_EL_IDX. -/
def elTempRead (s : State) : Word × State :=
  let ch := regFld s (ro pgTHM 0x64) 0 15
  (elTempWord s ch, if bit (getReg s (ro pgTHM 0x64)) 16 then bumpReg s (ro pgTHM 0x64) 0 15 else s)

def execThElTempRead (fn : Fn) (s : State) : Result := .next (rd s fn pgTHM 0x68 elTempRead)

/-- TH_NODE of the node at TH_NODE_IDX; AUTOINC advances NODE, then TILE. -/
def nodeRead (s : State) : Word × State :=
  let t := regFld s (ro pgTHM 0x74) 0 5
  let n := regFld s (ro pgTHM 0x74) 8 6
  let p := tabGet (fun _ => 0) s.thermal.nodeP (t * 64 + n)
  let w := pack [(0, 16, temp10 (nodeTemp s t n)), (16, 16, (roundDiv (p : Int) 1000).toNat)]
  let go := putReg (putReg s (ro pgTHM 0x74) 8 6 (n + 1)) (ro pgTHM 0x74) 0 5 (if n = 63 then t + 1 else t)
  (w, if bit (getReg s (ro pgTHM 0x74)) 16 then go else s)

def execThNodeRead (fn : Fn) (s : State) : Result := .next (rd s fn pgTHM 0x78 nodeRead)

/-- TP_DIODE_E of the diode at TP_DIODE_IDX. -/
def diodeERead (s : State) : Word × State :=
  let j := regFld s (ro pgTEMP 0x58) 0 6
  let w := pack [(0, 16, temp10 (diode s j).e), (16, 16, temp10 (nodeTemp s (j / 2) (diodeNode j)))]
  (w, if bit (getReg s (ro pgTEMP 0x58)) 8 then bumpReg s (ro pgTEMP 0x58) 0 6 else s)

def execTpDiodeERead (fn : Fn) (s : State) : Result := .next (rd s fn pgTEMP 0x60 diodeERead)

end Sys2Proof.Machine
end

