-- ==== Sys2Proof/Machine/Flags.lean ====
section
/-! DEFINITION. The live and sticky bits of the pages and the header words that follow from them (R499 to R502, R579, R587). -/

namespace Sys2Proof.Machine

/-- A HOLD injection keeps a source live (R515). -/
def heldLive (s : State) (page src : Nat) : Bool :=
  let w := getReg s (ro page 0x24)
  fld w 4 2 == 2 && fld w 0 4 == src

/-- PLL_C counts as unlocked (R615). -/
def pllcUnlocked (s : State) : Bool := s.power.unlocked

/-- ERR of CK_DRONE, signed. -/
def droneErr (s : State) : Int := signed 8 (regFld s (ro pgCLK 0x54) 0 8)

/-- The lasting condition that a source's table states holds now (R499; the source tables of chapters 02 to 18). -/
def causeLive (s : State) (page src : Nat) : Bool := match pageKind page, src with
  | 0x020, 0 => s.chans.any (fun p => p.1 / 1024 == page - 0x20 && p.2.limiting && p.2.fuse == .clear)
  | 0x020, 1 => s.chans.any (fun p => p.1 / 1024 == page - 0x20 && p.2.complLive)
  | 0x020, 7 => (tile s (page - 0x20)).dark
  | 0x020, 9 => (tile s (page - 0x20)).backupFailed
  | 0x020, 11 => mismatchLive s (page - 0x20)
  | 0x101, 6 => (feed s (if page = 0x101 then .a else .b)).sagSust
  | 0x103, 0 => s.fd.shareErr
  | 0x103, 3 => s.fd.busSag
  | 0x104, 0 => (List.range 8).any (fun c => bit (getReg s (mtRes c)) 25)
  | 0x000, _ => false
  | 0x001, 0 => pllcUnlocked s
  | 0x001, 1 => driveOn s && !s.power.pllsLock
  | 0x001, 2 => driveOn s && !s.power.refOk
  | 0x001, 3 => idlUp s && decide (2 < (droneErr s).natAbs)
  | 0x002, 2 => s.power.coreReq != 0
  | 0x003, 1 => s.bell.parkHold
  | 0x005, 0 => driveOn s && !s.host.linkUp
  | 0x00F, 6 => s.reeds.any (fun p => p.2.openLive != 0)
  | 0x014, 0 => s.thermal.diodes.any (fun p => p.2.disagree)
  | 0x014, 1 => s.thermal.diodes.any (fun p => p.2.bad)
  | 0x014, 6 => s.thermal.baseSrc.any (fun p => p.2 == 3)
  | 0x015, 0 => !s.shelf.upOk
  | 0x015, 1 => !s.shelf.dnOk
  | 0x015, 4 => s.shelf.wrapped
  | 0x015, 6 => !s.shelf.synced
  | 0x016, 0 => !idlUp s
  | 0x016, 1 => idlUp s && s.idl.lanes == 2
  | _, _ => false

/-- The source has sent a message in this cycle: an event is live in that cycle alone (R499, R515). -/
def justSent (s : State) (page src : Nat) : Bool := decide (s.msgAt = s.now) && s.msgNow.contains (srcCode page src)

/-- PG_FLT_LIVE bit of a source; one that is not implemented is never live (R580). -/
def liveNow (s : State) (page src : Nat) : Bool :=
  bit (pageCap page) src && (heldLive s page src || causeLive s page src || justSent s page src)

/-- PG_FLT_LIVE. -/
def liveWord (s : State) (page : Nat) : Word := BitVec.ofNat 32 (maskOf ((List.range 16).filter (liveNow s page)))

/-- PG_STAT: PWR_ON, STICKY, LIVE, IRQ, INJ, BLK_BUSY, which only the reset of NVF shows, since every other acts at once (R579, R581,
log 35). -/
def pgStat (s : State) (page : Nat) : Word :=
  let inj := getReg s (ro page 0x24)
  pack [(0, 1, 1), (1, 1, b2n (getReg s (ro page 0x1C) != 0)), (2, 1, b2n (liveWord s page != 0)),
    (3, 1, b2n (getReg s (ro page 0x14) &&& getReg s (ro page 0x18) != 0)), (4, 1, b2n (fld inj 4 2 == 2 || bit inj 6)),
    (5, 1, b2n (page == pgNVF && s.flash.blkRun))]

/-- A header register as it reads (R579, R587). -/
def headerWord (s : State) (page o : Nat) : Word := match o with
  | 0x00 => (match headRow page with | some r => r.id + BitVec.ofNat 32 (page - r.pg) * r.step | none => 0)
  | 0x04 => 0x100
  | 0x08 => pageCap page
  | 0x10 => pgStat s page
  | 0x2C => liveWord s page
  | 0x0C => 0
  | _ => if o < 0x30 then getReg s (ro page o) else 0

/-- The local sources that a page implements, as a mask. -/
def implMask (page : Nat) : Word := pageCap page &&& 0xFFFF

/-- The PG_FLT_SEV bits of implemented sources (R580). -/
def sevMask (page : Nat) : Word :=
  BitVec.ofNat 32 (maskOf ((bitsOf (implMask page).toNat 16).flatMap (fun k => [2 * k, 2 * k + 1])))

/-- Severity of a source. -/
def severity (s : State) (page src : Nat) : Nat := regFld s (ro page 0x20) (2 * src) 2

end Sys2Proof.Machine
end

