-- ==== Sys2Proof/Machine/Bell.lean ====
section
/-! DEFINITION. The Bell: records, severities, reactions, shadows, clears, injection and block resets (R491 to R519, R581,
R614). -/

namespace Sys2Proof.Machine

/-! ### Records (R493 to R496) -/

/-- NEXT of BL_WR and of BL_CORE_RD. -/
def nextRecord (s : State) : Word := getReg s (ro pgBELL 0x48)
def coreRecord (s : State) : Word := getReg s (ro pgBELL 0x4C)

/-- Byte address of record `n` in the Bore (R494). -/
def recordAddr (n : Word) : Nat := 0x50_0000 + n.toNat % 65536 * 16

/-- A record that the core has not copied is about to be overwritten: it is lost, and the core covers the gap (R496). -/
def ringOverwrite (s : State) (n : Word) : State :=
  let old := coreRecord s
  if (n - old).toNat < 65536 then s else
  let s := setReg s (ro pgBELL 0x4C) (old + 1)
  let s := journal s 13 [old, old, 0, 0]
  let s := irqSet (bumpReg s (ro pgBELL 0x50) 0 16) pgBELL 4
  post s pgBELL 0 (getReg s (ro pgBELL 0x50))

/-- Word 0 of a record. -/
def recordHead (m : Msg) (conseq opener : Bool) (shid sev : Nat) : Word :=
  pack [(0, 13, m.source.toNat), (13, 8, m.kind.toNat), (21, 1, b2n conseq), (22, 1, b2n opener),
    (23, 6, if conseq || opener then shid else 0), (29, 1, b2n m.inj), (30, 2, sev)]

/-- A record is written into the ring, or into the local store until the region is live; it is dropped when the store is full
(R493 to R495); its time is that of acceptance, of the receipt for a message of the feed die (R115), and never below that of the record
before it (R494). -/
def record (s : State) (m : Msg) (conseq opener : Bool) (shid sev : Nat) : State :=
  let n := nextRecord s
  let t := max (m.stamp.getD (shelfNow s)) s.bell.lastTime
  let ws : List Word := [recordHead m conseq opener shid sev, m.detail, BitVec.ofNat 32 t, BitVec.ofNat 32 (t / 2 ^ 32)]
  let s := setReg { s with bell := { s.bell with lastTime := t } } (ro pgBELL 0x48) (n + 1)
  let s := if opener then { s with bell := { s.bell with origins := tabIns s.bell.origins shid n } } else s
  if s.bell.ringLive then setBores (ringOverwrite s n) (recordAddr n) ws
  else if s.bell.store.length < 256 then { s with bell := { s.bell with store := s.bell.store ++ [(n, ws)] } }
  else bellLost s 16 8

/-! ### Shadows (R508 to R514) -/

/-- The sources that a shadow holds (R514). -/
def shadowHolds (shid : Nat) (x : Shadow) (page src : Nat) : Bool :=
  let loops (ks : List Nat) : Bool := page == pgLOOP && ks.contains src
  let model : Bool := page == pgTHM && src == 3
  let tiles : Bool := src ∈ [1, 11, 12]
  if 32 ≤ shid then
    (page == shid && (tiles || (!x.valves.isEmpty && src ∈ [5, 6]) || (x.valves.contains 3 && src == 4)
      || (x.valves.contains 4 && src == 3)))
    || loops [0, 2, 3] || model
  else match shid with
    | 24 => (pageKind page == 0x20 && tiles) || loops [0, 1, 2, 3] || model || (page == pgPLAN && src == 3)
        || (page == pgBREATH && src == 1) || (page == pgCOMMIT && src == 0)
    | 18 => loops [2]
    | 15 => loops [2] || (page == pgMEAS && src == 8) || model
    | 16 => loops [2] || model
    | 8 => (page == pgNVF && src == 9) || (page ∈ [pgSTAB, pgTONGUE, pgMEAS] && src == 1) || (page == pgCAL && src == 1)
        || loops [4] || (page == pgTHM && src == 1)
    | 6 => page == pgCMDQ && src == 1
    | 11 => page == pgCOMMIT && src == 0
    | _ => false

/-- The earliest-opened open shadow whose list holds a source (R510). -/
def shadowOf (s : State) (page src : Nat) : Option Nat :=
  let own := s.bell.shadows.filter (fun p => shadowHolds p.1 p.2 page src)
  match own with
  | [] => none
  | p :: ps => some (ps.foldl (fun (b : Nat × Shadow) q => if q.2.order < b.2.order then q else b) p).1

/-- A shadow notes the latest message of a source it has shadowed. -/
def noteShadowed (s : State) (shid : Nat) (m : Msg) : State :=
  let add (x : Shadow) : Shadow := { x with shadowed := x.shadowed.filter (fun h => h.source != m.source) ++ [m] }
  let bell := s.bell
  { s with bell := { bell with shadows := bell.shadows.map (fun p => if p.1 = shid then (p.1, add p.2) else p) } }

/-! ### Reactions (R506, R507) -/

/-- An SQ is disabled under R404. -/
def disableSq (s : State) (q : Nat) : State :=
  if !bit (sqCtrl s q) 0 then s else
  setSq (putReg s (ro pgCMDQ (0x104 + 16 * q)) 0 1 0) q { sq s q with draining := decide (inflight s q ≠ 0) }

/-- A slot is released whatever its state: a pending request completes with 4 DISARMED (R506, R581). -/
def emptySlot (s : State) (k : Nat) : State :=
  planDone (endReq (setSlot s k {}) k 4) k

/-- An accumulator restarts and takes no samples. -/
def holdAcc (s : State) (i : Nat) : State :=
  let s := accRestart s 0 i
  { s with accs := { s.accs with held := if s.accs.held.contains i then s.accs.held else s.accs.held ++ [i] } }

/-- What the detail of a message names, for the pages with a reaction (R506). -/
def containTargets (s : State) (page src : Nat) (d : Word) : List Nat := match page with
  | 0x012 => if src ≤ 2 then [fld d 0 15 / 32] else if src = 3 then List.range' (fld d 0 5 * 32) 32 else []
  | 0x00F => if src = 0 ∨ src = 3 then [fld d 6 10] else if src = 5 ∨ src = 7 ∨ src = 8 then [fld d 0 10]
      else if src = 6 then [fld d 0 14 / 16]
      else if src = 4 ∧ 0xB0_0000 ≤ d.toNat ∧ d.toNat < 0xB8_0000 then [(d.toNat - 0xB0_0000) / 512] else []
  | 0x010 => if src ≤ 1 then [fld d 0 16]
      else if src = 2 ∧ 0xC0_0000 ≤ d.toNat ∧ d.toNat < 0xD0_0000 then [(d.toNat - 0xC0_0000) / 16] else []
  | 0x013 => [0]
  | 0x008 => [0]
  | 0x006 => if src = 0 ∨ src = 4 then [fld d 0 6]
      else if src = 1 ∧ 0x900 ≤ d.toNat ∧ d.toNat < 0xA00 then [(d.toNat - 0x900) / 4]
      else if src = 2 ∨ src = 3 then (cmdOf s (fld d 0 9)).toList.map (·.sq) else []
  | 0x00B => if src ≤ 1 ∨ src = 3 then [fld d 0 4]
      else if src = 2 ∧ 0x100_0000 ≤ d.toNat ∧ d.toNat < 0x140_0000 then [(d.toNat - 0x100_0000) / 0x4_0000] else []
  | _ => []

/-- The CONTAIN action of a page on one thing. -/
def containOne (page : Nat) (s : State) (i : Nat) : State := match page with
  | 0x012 => setReed s i { reed s i with loopHeld := true }
  | 0x00F => containReed s i
  | 0x010 => holdAcc s i
  | 0x013 => { s with thermal := { s.thermal with contained := true } }
  | 0x008 => quiesce s 2
  | 0x006 => disableSq s i
  | 0x00B => emptySlot s i
  | _ => s

/-- The action at the clear on one thing. -/
def freeOne (page : Nat) (s : State) (i : Nat) : State := match page with
  | 0x012 => loopResume (setReed s i { reed s i with loopHeld := false }) i
  | 0x00F => freeReed s i
  | 0x010 => { s with accs := { s.accs with held := s.accs.held.erase i } }
  | 0x013 => { s with thermal := { s.thermal with contained := false } }
  | 0x008 => resumeFlash s
  | _ => s

/-- A CONTAIN reaction opens the page's shadow, acts and holds (R506, R508). -/
def contain (s : State) (page src : Nat) (targets : List Nat) : State :=
  let s := targets.foldl (containOne page) (openShadow s page)
  { s with bell := { s.bell with contained := s.bell.contained ++ [(page, src, targets)] } }

/-- The clear of a source ends its hold on everything that no other source holds (R503). -/
def uncontain (s : State) (page src : Nat) : State :=
  let own := s.bell.contained.filter (fun c => c.1 == page && c.2.1 == src)
  let rest := s.bell.contained.filter (fun c => !(c.1 == page && c.2.1 == src))
  let kept := (rest.filter (fun c => c.1 == page)).flatMap (·.2.2)
  let s := { s with bell := { s.bell with contained := rest } }
  ((own.flatMap (·.2.2)).eraseDups.filter (fun i => !kept.contains i)).foldl (freeOne page) s

/-- A slot in 4 ARMED returns to 3 ADMITTED at a park reaction (R507). -/
def unarm (s : State) (k : Nat) : State := if (slot s k).state = .armed then disarm s k else s

/-- Severity of a source as the Bell applies it: codes 2 and 3 of the BELL page act as 1 (R518). -/
def appliedSev (s : State) (page src : Nat) : Nat :=
  let v := severity s page src
  if page = pgBELL then min v 1 else v

/-- An ALERT or higher: the interrupt and BL_LAST_ALERT. -/
def alert (s : State) (n : Word) : State := irqSet (setReg s (ro pgBELL 0x54) n) pgBELL 1

/-- The device-wide park reaction of a record (R507). -/
def parkReaction (s : State) (page src : Nat) (n : Word) : State :=
  let s := setReg s (ro pgBELL 0x58) n
  let s := { s with bell := { s.bell with
    parkHold := true, parkSrcs := if s.bell.parkSrcs.contains (page, src) then s.bell.parkSrcs else s.bell.parkSrcs ++ [(page, src)] } }
  let s := irqSet s pgBELL 2
  let s := slotList.foldl unarm (parkEvent s 1 allTiles)
  let s := openShadow s 24
  let s := setReg s (ro pgBELL 0x1C) (getReg s (ro pgBELL 0x1C) ||| 2)
  let sev := appliedSev s pgBELL 1
  let m := nextRecord s
  let taken : Msg := { source := srcCode pgBELL 1, kind := 0x21, detail := n }
  let s := record s taken false true 24 sev
  if 1 ≤ sev then alert s m else s

/-- A message that is not consequent is recorded and its severity applied; `own` says that it reports the block's own reaction
(R506, R507, R509). -/
def settle (s : State) (m : Msg) (own : Bool) : State :=
  let page := m.page
  let src := m.local
  let sev := appliedSev s page src
  let targets := if sev = 2 then containTargets s page src m.detail else []
  let n := nextRecord s
  let s := if targets.isEmpty then s else contain s page src targets
  let s := record s m false (own || !targets.isEmpty) page sev
  let s := if 1 ≤ sev then alert s n else s
  if sev = 3 then parkReaction s page src n else s

/-! ### Accepting a message -/

/-- The message's class (R497). -/
def Msg.cls (m : Msg) : Nat := m.kind.toNat / 32

/-- One accepted message: sticky bit, CONSEQUENT record in the earliest shadow that holds its source, or its severity
(R493, R499, R510). A message that reports a reaction of its own is an opener (R509, R511). -/
def accept (s : State) (m : Msg) : State :=
  let page := m.page
  let src := m.local
  let s := if isFeedPage page then s else
    setReg s (ro page 0x1C) (getReg s (ro page 0x1C) ||| BitVec.ofNat 32 (2 ^ src))
  let own := ownReaction page src m.cls
  match if own then none else shadowOf s page src with
  | some shid => record (noteShadowed s shid m) m true false shid 0
  | none => settle s m own

/-- BELL_ACCEPT: the first message leaves the queue, and a held one takes its place; the Bell accepts no second one in a cycle (R492). -/
def bellAccept (s : State) : State :=
  match s.bell.inq with
  | [] => s
  | m :: rest =>
    let b := s.bell
    if b.last.map (·.1) = some s.now then s
    else accept { s with bell := { b with
      inq := rest ++ b.held.take 1, held := b.held.drop 1, last := some (s.now, m.source) } } m

def execBellAccept (s : State) : Result := .next (bellAccept s)

/-- The reaction of an open shadow has ended (R508): its transfer has completed, its park event has reached the last tile, the flash
store is quiesced. Fuses, valve trips and the other reactions end where they act (log 35). -/
def reactionOver (s : State) (shid : Nat) : Bool :=
  if 32 ≤ shid then (List.range 32).all (fun q => !(reed s ((shid - 32) * 32 + q)).transfer)
  else if shid = 24 then !s.park.events.any (fun e => e.cause == 1)
  else if shid = 8 then s.flash.state != .quiescing
  else true

/-- SHADOW_CLOSE (R508, R512): the closing time has come and the reaction has ended; every shadowed source that is still live is recorded anew with its own severity. -/
def shadowClose (s : State) (shid : Nat) : State :=
  match s.bell.shadows.lookup shid with
  | none => s
  | some x =>
    if s.now < x.closeAt || !reactionOver s shid then s else
    let s := { s with bell := { s.bell with shadows := tabDel s.bell.shadows shid } }
    let again := x.shadowed.filter (fun m => liveNow s m.page m.local)
    let s := again.foldl (fun s m => settle s m false) s
    if again.isEmpty then s else irqSet s pgBELL 8

def execShadowClose (shid : Fin 64) (s : State) : Result := .next (shadowClose s shid.val)

/-- BELL_JOURNAL_COPY (R496): the core copies the next record as a BELL record, marked DAMAGED when a word of it fails parity and
replay (R31). -/
def execBellJournalCopy (s : State) : Result :=
  let n := coreRecord s
  if coreRuns s ∧ s.bell.ringLive ∧ n ≠ nextRecord s ∧ ringOpen s 2 then
    let r := parSpan s (recordAddr n) 16
    .next (setReg (appendRecord r.1 2 3 ((boreWords r.1 (recordAddr n) 4).flatMap wordBytes) (!r.2)) (ro pgBELL 0x4C) (n + 1))
  else .next s

/-! ### Writes to the header (R433, R434, R501 to R505, R515) -/

/-- The park hold ends when no sticky bit of a source that took a park remains (R507). -/
def parkRelease (s : State) : State :=
  if s.bell.parkHold && !s.bell.parkSrcs.any (fun p => sticky s p.1 p.2) then
    { s with bell := { s.bell with parkHold := false, parkSrcs := [] } }
  else s

/-- The Bell has accepted a message of the source in this cycle. -/
def justAccepted (s : State) (page src : Nat) : Bool := s.bell.last == some (s.now, srcCode page src)

/-- A write of PG_FLT_STICKY: each bit clears only when its cause is not live; the others are refused clears (R501, R503). A bit whose
message is accepted in this cycle stays set (R502). -/
def stickyWrite (s : State) (page : Nat) (v : Word) : State :=
  let asked := (bitsOf (v &&& implMask page).toNat 16).filter (sticky s page)
  let live := asked.filter (liveNow s page)
  let gone := asked.filter (fun k => !liveNow s page k && !justAccepted s page k)
  let s := setReg s (ro page 0x1C) (getReg s (ro page 0x1C) &&& ~~~ (BitVec.ofNat 32 (maskOf gone)))
  let s := if live.isEmpty then s else refuseClears s page live.length
  parkRelease (gone.foldl (fun s k => uncontain s page k) s)

/-- A W1C write of PG_IRQ_STAT raises the interrupt again while enabled bits remain (R434). -/
def irqStatWrite (s : State) (page : Nat) (v : Word) : State :=
  let st := getReg s (ro page 0x14) &&& ~~~ v
  let s := setReg s (ro page 0x14) st
  if st &&& getReg s (ro page 0x18) ≠ 0 then pageIrq s page else s

/-- The bits that PG_IRQ_STAT defines on a page: ALERT, PARK, LOST and PERSIST of BELL, STROBE and FAILED of COMMIT (R579). -/
def irqBits (page : Nat) : Word := if page = pgBELL then 0xF else if page = pgCOMMIT then 3 else 0

/-- A write of PG_IRQ_EN, of which reserved bits stay 0 (R13), raises the interrupt when it makes the enabled bits non-zero
(R433). -/
def irqEnWrite (s : State) (page : Nat) (v : Word) : State :=
  let st := getReg s (ro page 0x14)
  let old := getReg s (ro page 0x18)
  let s := setReg s (ro page 0x18) (v &&& irqBits page)
  if st &&& old = 0 ∧ st &&& v ≠ 0 then pageIrq s page else s

/-- A write of PG_FLT_SEV: sources that do not exist keep 0 (R504, R580). -/
def sevWrite (s : State) (page : Nat) (v : Word) : State := setReg s (ro page 0x20) (v &&& sevMask page)

/-- The sources that accept CHECK (R517). -/
def checkable (page src : Nat) : Bool :=
  (page == pgBORE && decide (src ≤ 2)) || (page ∈ [pgSTAB, pgTONGUE, pgMEAS, pgACC, pgTHM, pgCMDQ] && src == 0)
    || (page == pgPLAN && src == 1)

/-- An injected message of a source (R515, R516). -/
def injected (s : State) (page src : Nat) (detail : Word) : State :=
  let s := { s with bell := { s.bell with injNext := s.bell.injNext ++ [(page, src)] } }
  if bit (pageCap page) src then post s page src detail
  else { s with bell := { s.bell with injNext := s.bell.injNext.erase (page, src) } }

/-- A write of PG_FLT_INJ: OFF, PULSE, HOLD or CHECK (R515, R517). -/
def injWrite (s : State) (page : Nat) (v : Word) : State :=
  let src := fld v 0 4
  let detail := BitVec.ofNat 32 (fld v 16 16)
  let word := v &&& 0xFFFF_003F
  match fld v 4 2 with
  | 0 => setReg s (ro page 0x24) word
  | 3 => if checkable page src then setReg s (ro page 0x24) (word ||| 0x40) else badEncoding s page 0x24
  | _ => injected (setReg s (ro page 0x24) word) page src detail

/-! ### Block resets (R581, R614) -/

/-- BLK of TILE_t: tongues write their final codes, waiting entries are abandoned, armed slots of the tile are redone
(R165, R614). -/
def tileBlk (s : State) (t : Nat) : State := redoTile (mapChans s (· == t) (stopChan s.now)) t

/-- The block reset of a page, applied to everything the page covers. What a reaction holds already stays held until its clear (R503);
THM's reaction and clear leave nothing behind; NVF resumes when it has reached 4 QUIESCED. -/
def blkAction (s : State) (page : Nat) : State :=
  if pageKind page = 0x20 then tileBlk s (page - 0x20) else
  match page with
  | 0x012 => loopResumeAll s
  | 0x00F => (List.range 1024).foldl (fun s r => if (reed s r).contained then s else freeReed (containReed s r) r) s
  | 0x008 =>
    let s := quiesce s 2
    if s.flash.state = .quiescing then { s with flash := { s.flash with blkRun := true } } else s
  | 0x010 => (List.range 65536).foldl (fun s i => if s.accs.held.contains i then s else accRestart s 0 i) s
  | 0x006 => (List.range 64).foldl disableSq s
  | 0x00B => slotList.foldl emptySlot s
  | _ => s

/-- BLK_RST of a page that has one: the action, and the BLK_RESET record that opens the page's shadow (R581). On any other page
the bit is reserved. -/
def blkReset (s : State) (page : Nat) : State :=
  if !bit (pageCap page) 17 then s else
  let s := blkAction (openShadow s page) page
  let s := setReg s (ro pgBELL 0x1C) (getReg s (ro pgBELL 0x1C) ||| 4)
  let sev := appliedSev s pgBELL 2
  let n := nextRecord s
  let s := record s { source := srcCode pgBELL 2, kind := 0, detail := BitVec.ofNat 32 page } false true page sev
  if 1 ≤ sev then alert s n else s

/-- A write of a header register of a page (R579). The level of each is judged before. -/
def headerWrite (s : State) (page o : Nat) (v : Word) : State := match o with
  | 0x0C => if bit v 0 then blkReset s page else s
  | 0x14 => irqStatWrite s page v
  | 0x18 => irqEnWrite s page v
  | 0x1C => stickyWrite s page v
  | 0x20 => sevWrite s page v
  | 0x24 => injWrite s page v
  | _ => s

end Sys2Proof.Machine
end

