-- ==== Sys2Proof/Machine/Link.lean ====
section
/-! DEFINITION. The PCIe functions as the link offers them, and what the resets of a function and of the link do (R428, R429, R435 to
R438). -/

namespace Sys2Proof.Machine

/-! ### Capabilities (R428, R429) -/

/-- Device ID and class code of a function. -/
def deviceId (fn : Fn) : BitVec 16 := match fn with | .pf0 => 0xC320 | .pf1 => 0xC321 | .pf2 => 0xC322
def classCode (_fn : Fn) : BitVec 24 := 0x11_8000

/-- The Device Serial Number capability: PF0 alone has it. -/
def deviceSerial (fn : Fn) : Option (BitVec 64) := match fn with
  | .pf0 => some (Config.dsnHi ++ Config.dsnLo) | _ => none

/-- Bytes that a BAR maps: 16 MiB, 64 MiB and 16 KiB. -/
def barBytes (b : Bar) : Nat := match b with | .bar0 => 0x100_0000 | .bar2 => 0x400_0000 | .bar4 => 0x4000

/-- Link speeds, 1 to 4 for 2.5 to 16 GT/s, and widths that the link supports. -/
def linkCan (speed width : Nat) : Bool := decide (1 ≤ speed) && decide (speed ≤ 4) && (width == 1 || width == 2 || width == 4)

/-- The largest payload in DWs. -/
abbrev maxPayload : Nat := 128

/-! ### Resets -/

/-- JCP version of a function is set. -/
def setJcpVer (s : State) (fn : Nat) (v : BitVec 8) : State :=
  let x := s.cmdq.ver
  { s with cmdq := { s.cmdq with ver := match fn with
    | 0 => (v, x.2.1, x.2.2) | 1 => (x.1, v, x.2.2) | _ => (x.1, x.2.1, v) } }

/-- FLR of a function (R437): its queues are disabled, its commands dropped, its version and MSI-X table return. -/
def flr (s : State) (fn : Nat) : State :=
  let qs := (List.range 64).filter (fun q => sqFn s q == fn && (bit (sqCtrl s q) 0 || inflight s q != 0))
  let cqs := (qs.map (sqCq s)).eraseDups
  let tags := (s.cmdq.cmds.filter (fun c => c.fn == fn)).map (·.tag)
  let s := tags.foldl dropTag s
  let s := { s with cmdq := { s.cmdq with fetched := s.cmdq.fetched.filter (fun c => c.fn != fn) } }
  let s := qs.foldl (fun s q => setSq (putReg s (ro pgCMDQ (0x104 + 16 * q)) 0 1 0) q {}) s
  let s := cqs.foldl (fun s q => setCq (putReg s (ro pgCMDQ (0x504 + 16 * q)) 0 1 0) q {}) s
  let s := setJcpVer s fn 0x10
  let h := s.host
  let s := { s with host := { h with
    msixTab := h.msixTab.filter (fun p => p.1 / 128 != fn), msixPend := h.msixPend.filter (fun p => p.1 / 32 != fn),
    msixEn := h.msixEn &&& ~~~ (BitVec.ofNat 3 (2 ^ fn)), d3 := h.d3 &&& ~~~ (BitVec.ofNat 3 (2 ^ fn)) } }
  let s := bumpReg s (ro pgHOST 0x54) (8 * fn) 8
  post s pgHOST 3 (BitVec.ofNat 32 fn)

/-- FLR of every function (R436). -/
def flrAll (s : State) : State := [0, 1, 2].foldl flr s

/-- HS_LINK: SPEED, WIDTH, UP, STAGE_VIEW (HOST page). -/
def hsLink (s : State) : Word :=
  pack [(0, 4, s.host.speed.toNat), (4, 6, s.host.width.toNat), (12, 1, b2n s.host.linkUp),
    (13, 1, b2n (decide (s.boot.stage.val = 2) && s.host.linkUp))]

/-- The PCIe link goes down: LINK_DOWN with HS_LINK at the loss. -/
def linkDown (s : State) : State :=
  if !s.host.linkUp then s else
  let d := hsLink s
  post { s with host := { s.host with linkUp := false, speed := 0, width := 0 } } pgHOST 0 d

/-- A hot reset or a link-down reset: the link goes down, every function takes an FLR and the configuration space is reset, AER status with
it (R436, R437). -/
def linkReset (s : State) : State :=
  let s := flrAll (linkDown s)
  { s with host := { s.host with aer := [] } }

end Sys2Proof.Machine
end

