-- ==== Sys2Proof/Machine/Shelf.lean ====
section
/-! DEFINITION. The shelf link: frames, shelf time, election, distributed schedules, wrapping and link states (R542 to R569). -/

namespace Sys2Proof.Machine

/-! ### Ports and frames (R544, R545, R565) -/

/-- A port is up. -/
def portOk (s : State) (p : Port) : Bool := match p with | .up => s.shelf.upOk | .dn => s.shelf.dnOk
def otherPort (p : Port) : Port := match p with | .up => .dn | .dn => .up

/-- Field of SL_CTRL. -/
def slEn (s : State) : Bool := bit (getReg s (ro pgSLINK 0x40)) 0
def slPrio (s : State) : Nat := regFld s (ro pgSLINK 0x40) 4 4
def slWrapEn (s : State) : Bool := bit (getReg s (ro pgSLINK 0x40)) 12
def slMasterOk (s : State) : Bool := bit (getReg s (ro pgSLINK 0x40)) 13

/-- A frame leaves a port, with the DIR of that port. -/
def slTx (s : State) (p : Port) (fr : SlFrame) : State := match p with
  | .up => { s with shelf := { s.shelf with txUp := s.shelf.txUp ++ [{ fr with dir := true }] } }
  | .dn => { s with shelf := { s.shelf with txDn := s.shelf.txDn ++ [{ fr with dir := false }] } }

/-- A frame for a port: a wrapped device sends what a dead port would send out of the other port (R565). -/
def slSend (s : State) (p : Port) (fr : SlFrame) : State :=
  if portOk s p then slTx s p fr
  else if s.shelf.wrapped ∧ portOk s (otherPort p) then slTx s (otherPort p) fr else s

/-- A frame of this device. -/
def slFrame (s : State) (type arg : Nat) (data : Word) (dst : Nat := 0) (bc : Bool := false) : SlFrame :=
  { type := BitVec.ofNat 4 type, src := s.shelf.pos, dst := BitVec.ofNat 4 dst, bc := bc, dir := false, ttl := 15,
    arg := BitVec.ofNat 6 arg, data := data }

/-- A frame that travels the ring leaves by DN, or by UP where DN leads nowhere. -/
def slRing (s : State) (fr : SlFrame) : State := slSend s (if portOk s .dn ∨ s.shelf.wrapped then .dn else .up) fr

/-- HELLO and CLAIM of this device. -/
def slSayHello (s : State) : State :=
  slRing s (slFrame s 1 (b2n s.shelf.synced)
    (pack [(0, 8, 0x10), (8, 8, 0x20), (16, 4, slPrio s), (20, 1, b2n (slMasterOk s))]) 0 true)
def slSayClaim (s : State) : State :=
  if slMasterOk s then
    slRing s (slFrame s 6 0 (pack [(0, 4, slPrio s), (4, 8, 0x20), (12, 4, s.shelf.pos.toNat)]) 0 true)
  else s

/-- Code of the link state. -/
def SlState.code : SlState → Nat
  | .down => 0 | .negotiate => 1 | .elect => 2 | .member => 3 | .master => 4 | .isolated => 5

/-- SL_STAT. -/
def slStat (s : State) : Word :=
  let l := s.shelf
  pack [(0, 3, l.state.code), (4, 1, b2n l.synced), (5, 1, b2n l.holdover), (6, 1, b2n l.wrapped), (7, 1, b2n l.dupPos),
    (8, 4, l.masterPos.toNat), (12, 4, l.hops.toNat), (16, 8, l.ver.toNat), (24, 1, b2n l.upOk), (25, 1, b2n l.dnOk)]

/-- A type that travels one hop. -/
def oneHop (type : Nat) : Bool := type ∈ [0, 2, 3, 4, 5]

/-- SL_FRAME_RECEIVE: the CRC, the sender, the hop count, and the frame goes on to the next device (R544). What a taken frame
does is the command of its type (log 33). -/
def slReceive (s : State) (p : Port) (fr : SlFrame) (crcOk : Bool) : State :=
  if !driveOn s ∨ !slEn s then s
  else if !crcOk then
    let o := match p with | .up => 0x58 | .dn => 0x5C
    let s := bumpReg s (ro pgSLINK o) 16 16
    post s pgSLINK 9 (pack [(4, 1, match p with | .up => 0 | .dn => 1), (5, 16, regFld s (ro pgSLINK o) 16 16)])
  else if fr.src = s.shelf.pos ∨ oneHop fr.type.toNat ∨ (!fr.bc ∧ fr.dst = s.shelf.pos) ∨ fr.ttl ≤ 1 then s
  else slSend s (otherPort p) { fr with ttl := fr.ttl - 1 }

def execSlFrameReceive (p : Port) (fr : SlFrame) (crcOk : Bool) (s : State) : Result := .next (slReceive s p fr crcOk)

/-! ### Segment delay (R549) -/

def execSlEchoTimer (p : Port) (s : State) : Result :=
  .next (if s.shelf.state = .down ∨ !portOk s p then s else
    let s := { s with shelf := { s.shelf with echoSeq := s.shelf.echoSeq + 1 } }
    slTx s p (slFrame s 2 0 s.shelf.echoSeq))

def execSlEchoReq (p : Port) (t2 t3 : Nat) (_seq : Word) (s : State) : Result :=
  .next (if s.shelf.state = .down ∨ !portOk s p then s else slTx s p (slFrame s 3 0 (BitVec.ofNat 32 (t3 - t2))))

/-- The delay of a port's segment, in 1/16 cc. -/
def execSlEchoRsp (p : Port) (t1 t4 : Nat) (turn : Word) (s : State) : Result :=
  let d := BitVec.ofNat 16 (min 65535 (((t4 - t1) - turn.toNat) / 2))
  if s.shelf.state = .down then .next s else
  .next (match p with
    | .up => { s with shelf := { s.shelf with delayUp := d } }
    | .dn => { s with shelf := { s.shelf with delayDn := d } })

/-! ### Shelf time (R546 to R552, R557) -/

/-- The device leaves synced; UNSYNCED carries E (R552). -/
def slUnsync (s : State) : State :=
  let was := s.shelf.synced
  let s := { s with shelf := { s.shelf with synced := false, goodBeats := 0 } }
  if was then post s pgSLINK 6 (BitVec.ofInt 32 s.shelf.e16) else s

/-- Shelf time steps forward; loaded schedule entries that it overtakes complete LATE (R548, R557). -/
def slStep (s : State) (by16 : Nat) : State :=
  let s := { s with shelf := { s.shelf with time16 := s.shelf.time16 + by16, slew16 := 0 } }
  let s := bumpReg s (ro pgSLINK 0x64) 16 16
  let s := post s pgSLINK 5 (BitVec.ofNat 32 (min (by16 / 16) 0xFFFF_FFFF))
  (slotList.filter (fun k => schedEn s k && decide (schedTime s k < shelfNow s))).foldl (fun s k => schedEnd s k 8) s

/-- Shelf time moves to at least `cc` (R555). -/
def slStepTo (s : State) (cc : Nat) : State :=
  if s.shelf.time16 < cc * 16 then slStep s (cc * 16 - s.shelf.time16) else s

/-- SL_TIME1: the high part of the next beat time, the master and, when it is sought, the port that faces it. In 1 NEGOTIATE it
shows that a master is present (R550, R568). -/
def slTime1 (s : State) (p : Port) (hi : BitVec 16) (master : BitVec 4) : State :=
  let l := s.shelf
  if !(l.state = .negotiate ∨ l.state = .member) ∨ !(l.seek ∨ p = l.towards) then s else
  { s with shelf := { l with nextHi := hi, masterPos := master, towards := p, seek := false, state := .member } }

def execSlTime1 (p : Port) (hi : BitVec 16) (master : BitVec 4) (s : State) : Result := .next (slTime1 s p hi master)

/-- The beat of shelf time `t16`: the multiple of 65,536 cc nearest to it. -/
def beatTime (t16 : Nat) : Nat := (t16 / 16 + 32768) / 65536 * 65536

/-- SL_BEAT_SEND: the master, or a synced member, sends TIME1 and BEAT away from the master (R550). TIME1 goes ahead of the BEAT
whose time it completes. A dead port sends neither, wrapped or not (log 33). -/
def slBeatSend (s : State) : State :=
  let l := s.shelf
  let t := beatTime l.time16
  let go (s : State) (p : Port) : State :=
    if !portOk s p then s else
    let s := slTx s p (slFrame s 5 0 (pack [(0, 16, t / 2 ^ 48), (16, 4, l.masterPos.toNat)]))
    slTx s p (slFrame s 4 (b2n l.synced) (BitVec.ofNat 32 (t / 65536)))
  if l.state = .master then go (go s .up) .dn
  else if l.state = .member ∧ l.synced then go s (otherPort l.towards) else s

def execSlBeatSend (s : State) : Result := .next (slBeatSend s)

/-- SL_BEAT_RECEIVE: e, the slew or the step, and the device's synced state (R551, R552). RATE is left open (log 5). -/
def slBeat (s : State) (p : Port) (beat : Word) (synced : Bool) (arrival16 : Nat) : State :=
  let l := s.shelf
  if l.state ≠ .member ∨ p ≠ l.towards then s else
  let tb := l.nextHi.toNat * 2 ^ 48 + beat.toNat * 65536
  let d := match p with | .up => l.delayUp | .dn => l.delayDn
  let e : Int := ((tb * 16 + d.toNat : Nat) : Int) - arrival16
  let good := decide (e.natAbs ≤ 4) && synced
  let n := if good then min (l.goodBeats.toNat + 1) 8 else 0
  let s := { s with shelf := { l with e16 := e, holdover := false, goodBeats := BitVec.ofNat 4 n } }
  let s := tick (setReg s (ro pgSLINK 0x54) (pack [(0, 16, unsigned 16 (satI 16 e)), (16, 16, fld (freeWord s) 0 16)]))
  let s := if 256 < e then slStep s e.toNat else { s with shelf := { s.shelf with slew16 := e } }
  if 16 < e.natAbs then slUnsync s
  else if n = 8 then { s with shelf := { s.shelf with synced := true } } else s

def execSlBeatReceive (p : Port) (beat : Word) (synced : Bool) (arrival16 : Nat) (s : State) : Result :=
  .next (slBeat s p beat synced arrival16)

/-! ### Election (R554 to R556) -/

/-- An election starts: claims are gathered and this device claims. -/
def slElect (s : State) : State :=
  slSayClaim { s with shelf := { s.shelf with state := .elect, claims := [] } }

/-- SL_BEAT_TIMEOUT: holdover, MASTER_LOST and an election (R554, R556). -/
def slBeatTimeout (s : State) : State :=
  if s.shelf.state ≠ .member then s else
  let s := slUnsync { s with shelf := { s.shelf with holdover := true } }
  slElect (post s pgSLINK 2 (BitVec.ofNat 32 s.shelf.masterPos.toNat))

def execSlBeatTimeout (s : State) : Result := .next (slBeatTimeout s)

/-- The rank of a claim: PRIO, then VER_MAX, then the lowest position (R554). -/
def claimRank (w : Word) : Nat := (fld w 0 4 * 256 + fld w 4 8) * 16 + (15 - fld w 12 4)
/-- The claim of this device. -/
def ownClaim (s : State) : Word := pack [(0, 4, slPrio s), (4, 8, 0x20), (12, 4, s.shelf.pos.toNat)]

/-- SL_CLAIM: noted; a master yields to a better one (R554, R568). -/
def slClaim (s : State) (w : Word) : State :=
  let l := s.shelf
  if l.state = .down ∨ l.state = .isolated then s else
  let s := { s with shelf := { l with claims := tabIns l.claims (fld w 12 4) w } }
  if l.state = .master ∧ claimRank (ownClaim s) < claimRank w then
    slUnsync { s with shelf := { s.shelf with state := .member, masterPos := BitVec.ofNat 4 (fld w 12 4), seek := true } }
  else s

def execSlClaim (_p : Port) (data : Word) (s : State) : Result := .next (slClaim s data)

/-- SL_ELECTION_DONE: the winner steps to the largest time of the members and is master, the others are members (R554, R555). -/
def slElectionDone (s : State) : State :=
  if s.shelf.state ≠ .elect then s else
  let cs := (if slMasterOk s then [ownClaim s] else []) ++ s.shelf.claims.map (·.2)
  match cs with
  | [] => s
  | c :: rest =>
    let best := rest.foldl (fun b w => if claimRank b < claimRank w then w else b) c
    let pos : BitVec 4 := BitVec.ofNat 4 (fld best 12 4)
    let s := bumpReg s (ro pgSLINK 0x64) 0 16
    let ledBefore := s.shelf.masterPos = s.shelf.pos
    let s := { s with shelf := { s.shelf with masterPos := pos, claims := [] } }
    let s := if pos = s.shelf.pos then
        let most := s.shelf.members.foldl (fun m p => max m p.2.time) 0
        let s := slStepTo s most
        { s with shelf := { s.shelf with state := .master, synced := true, holdover := false, hops := 0 } }
      else
        let s := if ledBefore then slUnsync s else s
        tick { s with shelf := { s.shelf with
        state := .member, goodBeats := 0, seek := true, hops := BitVec.ofNat 4 (freeWord s).toNat } }
    post s pgSLINK 3 (BitVec.ofNat 32 pos.toNat)

def execSlElectionDone (s : State) : Result := .next (slElectionDone s)

/-! ### Membership and versions (R558, R563, R568) -/

/-- The ring version: the lowest VER_MAX of the members and of this device (R563). -/
def ringVersion (s : State) : Nat := s.shelf.members.foldl (fun v p => min v p.2.verMax.toNat) 0x20

/-- The members that set a ring version below 2.0 (SL_MEMBERS.LIMITING). -/
def limiting (s : State) : List Nat :=
  if ringVersion s = 0x20 then [] else
  (s.shelf.members.filter (fun p => p.2.verMax.toNat == ringVersion s)).map (·.1)

/-- The ring version follows the membership; a change leaves synced, a limit is reported (R552, R563). -/
def slRenegotiate (s : State) : State :=
  let v := ringVersion s
  if v = s.shelf.ver.toNat then s else
  let low := decide (v < 0x20)
  let s := { s with shelf := { s.shelf with ver := BitVec.ofNat 8 v } }
  let s := if s.shelf.state = .master then s else slUnsync s
  if low then post s pgSLINK 7 (pack [(0, 8, v), (8, 4, (limiting s).headD 0)]) else s

/-- A device whose VER_MIN, 1.0, exceeds the ring version enters 5 ISOLATED (R563). -/
def slRangeCheck (s : State) : State :=
  if ringVersion s < 0x10 then slUnsync { s with shelf := { s.shelf with state := .isolated } } else s

/-- A duplicate position isolates the device (R558). -/
def slDup (s : State) : State :=
  let s := slUnsync { s with shelf := { s.shelf with dupPos := true, state := .isolated } }
  post s pgSLINK 8 (BitVec.ofNat 32 s.shelf.pos.toNat)

/-- SL_HELLO: membership, version, and the step of the link state that follows (R554, R555, R558, R563, R568). -/
def slHello (s : State) (src : BitVec 4) (data : Word) (time : Nat) : State :=
  let l := s.shelf
  if l.state = .down then s
  else if src = l.pos then slDup s
  else
    let m : Member := { prio := BitVec.ofNat 4 (fld data 16 4), verMin := BitVec.ofNat 8 (fld data 0 8),
                        verMax := BitVec.ofNat 8 (fld data 8 8), masterOk := bit data 20, time := time }
    let fresh := (l.members.lookup src.toNat).map (fun o => { o with time := time }) != some m
    let top := if l.masterPos = l.pos then slPrio s else
      match l.members.lookup l.masterPos.toNat with | some o => o.prio.toNat | none => 0
    let s := { s with shelf := { l with members := tabIns l.members src.toNat m, wrapped := l.wrapped && !(l.upOk && l.dnOk) } }
    let s := slRenegotiate s
    match l.state with
    | .isolated => if fresh then slSayHello { s with shelf := { s.shelf with state := .negotiate, dupPos := false } } else s
    | .negotiate =>
      if ringVersion s < 0x10 then slRangeCheck s else slElect s
    | .elect => slRangeCheck s
    | _ =>
      let s := if l.state = .master then slStepTo s time else s
      if ringVersion s < 0x10 then slRangeCheck s
      else if fresh ∧ m.masterOk ∧ top < m.prio.toNat then slElect s else s

def execSlHello (_p : Port) (src : BitVec 4) (_synced : Bool) (data : Word) (time : Nat) (s : State) : Result :=
  .next (slHello s src data time)

/-! ### Distributed schedules (R559 to R561) -/

/-- A schedule entry is loaded as R418 does; the result is 0, 5, 8 or 9 (R560). -/
def schedLoad (s : State) (k : Nat) (cut : Bool) (lo hi : Word) (tag : Option Nat) : State × Nat :=
  if schedEn s k then (s, 5) else
  let s := setReg (setReg s (ro pgCOMMIT (0x100 + 8 * k)) lo) (ro pgCOMMIT (0x104 + 8 * k)) hi
  schedArm (putReg s (ro pgCOMMIT 0x68) k 1 (b2n cut)) k tag

/-- The master notes the result of a position (R561). -/
def schedNote (s : State) (pos result : Nat) : State :=
  if result = 0 then putReg s (ro pgSLINK 0x78) pos 1 1 else
  let s := putReg s (ro pgSLINK 0x78) (16 + pos) 1 1
  if bit (getReg s (ro pgSLINK 0x7C)) 31 then s else setReg s (ro pgSLINK 0x7C) (pack [(0, 4, pos), (8, 5, result), (31, 1, 1)])

/-- Positions present: the members and this device. -/
def presentMask (s : State) : Nat := maskOf (s.shelf.pos.toNat :: s.shelf.members.map (·.1))

/-- A distribution on the master (R559). -/
def slSchedCmd (s : State) (k : Nat) (cut : Bool) : State :=
  if s.shelf.state ≠ .master ∨ s.shelf.ver.toNat < 0x11 then refusedCtrl s pgSLINK 0x74 else
  let mask := regFld s (ro pgSLINK 0x70) 0 16
  let lo := getReg s (ro pgSLINK 0x68)
  let hi := getReg s (ro pgSLINK 0x6C)
  let own := s.shelf.pos.toNat
  let s := setReg (setReg s (ro pgSLINK 0x78) 0) (ro pgSLINK 0x7C) 0
  let others := (bitsOf mask 16).filter (· != own)
  let arg := k + 16 * b2n cut
  let pair (s : State) (dst : Nat) (bc : Bool) : State :=
    slRing (slRing s (slFrame s 7 arg lo dst bc)) (slFrame s 8 arg hi dst bc)
  let all := presentMask s
  let s := if others.isEmpty then s
    else if mask &&& all = all then pair s 0 true else others.foldl (fun s d => pair s d false) s
  let s := { s with shelf := { s.shelf with schedWait := BitVec.ofNat 16 (maskOf others) } }
  if mask.testBit own then let r := schedLoad s k cut lo hi none; schedNote r.1 own r.2 else s

def execSlSchedCmd (fn : Fn) (slot : Slot) (cut : Bool) (s : State) : Result :=
  .next (wr s fn pgSLINK 0x74 1 (fun s => slSchedCmd s slot.val cut))

def execSlSched0 (src : BitVec 4) (slot : Slot) (cut : Bool) (lo : Word) (s : State) : Result :=
  .next (if s.shelf.state = .member ∧ src = s.shelf.masterPos then
    { s with shelf := { s.shelf with sched0 := some (slot.val, cut, lo) } } else s)

/-- SL_SCHED1: with a matching SCHED0 the entry is loaded and answered (R560). -/
def slSched1 (s : State) (src : BitVec 4) (k : Nat) (hi : Word) : State :=
  if s.shelf.state ≠ .member ∨ src ≠ s.shelf.masterPos then s else
  match s.shelf.sched0 with
  | none => s
  | some (j, cut, lo) =>
    if j ≠ k then s else
    let r := schedLoad { s with shelf := { s.shelf with sched0 := none } } k cut lo hi none
    slRing r.1 (slFrame r.1 9 k (BitVec.ofNat 32 r.2) src.toNat)

def execSlSched1 (src : BitVec 4) (slot : Slot) (_cut : Bool) (hi : Word) (s : State) : Result :=
  .next (slSched1 s src slot.val hi)

/-- SL_SCHED_ACK on the master; an answer after the 20 µs counts for nothing (R561). -/
def slSchedAck (s : State) (pos : Nat) (result : Nat) : State :=
  if s.shelf.state ≠ .master ∨ !s.shelf.schedWait.getLsbD pos then s else
  schedNote { s with shelf := { s.shelf with schedWait := s.shelf.schedWait &&& ~~~ (BitVec.ofNat 16 (2 ^ pos)) } } pos result

def execSlSchedAck (src : BitVec 4) (_slot : Slot) (result : BitVec 5) (s : State) : Result :=
  .next (slSchedAck s src.toNat result.toNat)

def execSlSchedNackTimeout (pos : BitVec 4) (s : State) : Result :=
  .next (if s.shelf.schedWait.getLsbD pos.toNat then
    let left := s.shelf.schedWait &&& ~~~ (BitVec.ofNat 16 (2 ^ pos.toNat))
    post { s with shelf := { s.shelf with schedWait := left } } pgSLINK 10 (BitVec.ofNat 32 pos.toNat) else s)

/-! ### Ports, wrapping and the link state (R564 to R568) -/

/-- The link goes to 0 DOWN in holdover (R568). -/
def slDown (s : State) : State :=
  if s.shelf.state = .down then s else
  slUnsync { s with shelf := { s.shelf with
    state := .down, holdover := true, wrapped := false, members := [], claims := [], sched0 := none, schedWait := 0,
    seek := true, dupPos := false } }

/-- WRAPPED is reported with the wrapping port and position. -/
def slWrapped (s : State) (dnPort : Bool) (pos : BitVec 4) : State :=
  let was := s.shelf.wrapped
  let s := { s with shelf := { s.shelf with wrapped := true, seek := true } }
  if was then s else post s pgSLINK 4 (pack [(0, 4, pos.toNat), (4, 1, b2n dnPort)])

/-- A port goes down: both down end the link; one down wraps at version 2.0 (R564, R565, R568). -/
def slPortDown (s : State) (p : Port) : State :=
  if !portOk s p then s else
  let s := { s with shelf := match p with
    | .up => { s.shelf with upOk := false } | .dn => { s.shelf with dnOk := false } }
  let s := post s pgSLINK (match p with | .up => 0 | .dn => 1) (slStat s)
  if !s.shelf.upOk ∧ !s.shelf.dnOk then slDown s
  else if s.shelf.state ≠ .down ∧ s.shelf.ver = 0x20 ∧ slWrapEn s then
    let dn := p == .dn
    let s := slWrapped s dn s.shelf.pos
    slRing s (slFrame s 10 0 (pack [(0, 4, s.shelf.pos.toNat), (4, 1, b2n dn)]) 0 true)
  else s

def execSlPortDown (p : Port) (s : State) : Result := .next (slPortDown s p)

def execSlWrap (pos : BitVec 4) (dnPort : Bool) (s : State) : Result :=
  .next (if s.shelf.state = .down ∨ s.shelf.state = .isolated then s else slWrapped s dnPort pos)

/-- From 0 DOWN with EN 1 and a port up: HELLO and 1 NEGOTIATE (R568). -/
def slOpen (s : State) : State :=
  if s.shelf.state = .down ∧ slEn s ∧ (s.shelf.upOk ∨ s.shelf.dnOk) then
    slSayHello { s with shelf := { s.shelf with state := .negotiate, ver := 0x20, seek := true } }
  else s

/-- A port comes up; a device with both ports up is no longer wrapped. -/
def slPortUp (s : State) (p : Port) : State :=
  if !driveOn s ∨ !s.power.refOk then s else
  let s := { s with shelf := match p with
    | .up => { s.shelf with upOk := true } | .dn => { s.shelf with dnOk := true } }
  if s.shelf.state = .down then slOpen s else
  let s := { s with shelf := { s.shelf with wrapped := s.shelf.wrapped && !(s.shelf.upOk && s.shelf.dnOk), seek := true } }
  slSayHello s

def execSlPortUp (p : Port) (s : State) : Result := .next (slPortUp s p)

/-- A write of SL_CTRL (R568, R569). -/
def slCtrlWrite (s : State) (v : Word) : State :=
  let s := writeReg s (ro pgSLINK 0x40) v
  if slEn s then slOpen s else slDown s

def execSlCtrlWrite (fn : Fn) (v : Word) (s : State) : Result := .next (wr s fn pgSLINK 0x40 0 (fun s => slCtrlWrite s v))

/-- A read of SL_TIME_LO (R569). -/
def slTimeLo (s : State) : Word × State :=
  let t := shelfNow s
  (BitVec.ofNat 32 t, { s with shelf := { s.shelf with timeShadow := BitVec.ofNat 32 (t / 2 ^ 32) } })

def execSlTimeLoRead (fn : Fn) (s : State) : Result := .next (rd s fn pgSLINK 0x4C slTimeLo)

/-- SL_MEMBERS. -/
def slMembers (s : State) : Word :=
  if s.shelf.state = .down then 0 else pack [(0, 16, presentMask s), (16, 16, maskOf (limiting s))]

/-- SL_SEG_UP or SL_SEG_DN: the delay beside the stored CRC_ERR. -/
def slSeg (s : State) (p : Port) : Word := match p with
  | .up => put (getReg s (ro pgSLINK 0x58)) 0 16 s.shelf.delayUp.toNat
  | .dn => put (getReg s (ro pgSLINK 0x5C)) 0 16 s.shelf.delayDn.toNat

end Sys2Proof.Machine
end

