-- ==== Sys2Proof/Machine/Power.lean ====
section
/-! DEFINITION. Power domains, the fast clock, droop, requests and the shedding ladder (R520 to R541, R615). -/

namespace Sys2Proof.Machine

/-! ### TG domains (R521 to R523) -/

/-- The channels of TG domain `k`. -/
def tgChans (k : Nat) : List Nat := List.range' (k * 4096) 4096

/-- R35: every channel of the domain has its fuse clear and code 0. -/
def tgIdle (s : State) (k : Nat) : Bool :=
  s.chans.all (fun p => p.1 / 4096 != k || (p.2.fuse == .clear && p.2.code == 0))

/-- The tiles of a TG domain. -/
def tgTiles (k : Nat) : List Nat := List.range' (4 * k) 4

/-- Slots in 3 ADMITTED or 4 ARMED with entries in the domain's tiles are redone: their tiles' dark state has changed. -/
def tgRedo (s : State) (k : Nat) : State := redoIf s (fun x => x.entries.any (fun e => e.ch / 4096 == k))

/-- A domain goes off: outputs, reeds and valves lose power; codes, fuses, park registers and coefficients stay (R522). -/
def tgOff (s : State) (k : Nat) : State :=
  let s := { s with power := { s.power with dom := s.power.dom &&& ~~~ (BitVec.ofNat 20 (2 ^ (12 + k))),
                                            tgComing := s.power.tgComing &&& ~~~ (BitVec.ofNat 8 (2 ^ k)) } }
  let s := mapChans s (fun t => t / 4 == k) (stopChan s.now)
  let s := (tgTiles k).foldl (fun s t =>
    setTile s t { tile s t with va := .blocked, vb := .blocked, iVa := 0, iVb := 0, dark := false }) s
  let s := { s with reeds := tabMap (fun _ => {}) s.reeds (k * 128) 128 (fun _ x =>
    { x.warm with cfg := x.cfg, timer := x.timer, drvDelay := x.drvDelay, powered := false }) }
  tgRedo s k

/-- A write of 1 to PW_DOM_CTRL.OFF (R521). -/
def tgOffAsk (s : State) (k : Nat) : State :=
  if !domOn s (12 + k) then putReg s (ro pgPWR 0x58) (12 + k) 1 1
  else if tgIdle s k then tgOff (putReg s (ro pgPWR 0x58) (12 + k) 1 1) k
  else refusedCtrl s pgPWR 0x58

/-- A write of 0: an off domain begins to come on (R523). -/
def tgOnAsk (s : State) (k : Nat) : State :=
  let s := putReg s (ro pgPWR 0x58) (12 + k) 1 0
  if domOn s (12 + k) then s
  else { s with power := { s.power with tgComing := s.power.tgComing ||| BitVec.ofNat 8 (2 ^ k) } }

def execTgDomainOff (fn : Fn) (k : Fin 8) (s : State) : Result := .next (wr s fn pgPWR 0x58 0 (fun s => tgOffAsk s k.val))
def execTgDomainOn (fn : Fn) (k : Fin 8) (s : State) : Result := .next (wr s fn pgPWR 0x58 0 (fun s => tgOnAsk s k.val))

/-- A write of PW_DOM_CTRL, bit by bit. -/
def domCtrlWrite (s : State) (v : Word) : State :=
  (List.range 8).foldl (fun s k => if bit v (12 + k) then tgOffAsk s k else tgOnAsk s k) s

/-- TG_DOMAIN_ON_DONE (R159, R523): the channels come up at 0 A with AT_PARK set, the valves soft-start, the tiles are exempt for 600 us,
the sequencers restart and the models start anew. -/
def tgOnDone (s : State) (k : Nat) : State :=
  if !s.power.tgComing.getLsbD k then s else
  let s := { s with power := { s.power with dom := s.power.dom ||| BitVec.ofNat 20 (2 ^ (12 + k)),
                                            tgComing := s.power.tgComing &&& ~~~ (BitVec.ofNat 8 (2 ^ k)) } }
  let s := { s with chans := tabMap (fun _ => {}) s.chans (k * 4096) 4096 (fun _ c =>
    { c with code := 0, src := 0, atPark := true, tongue := none, waiting := none }) }
  let s := (tgTiles k).foldl (fun s t => setTile s t { tile s t with
    va := .softStart, vb := .softStart, dark := false, exemptTill := s.now + 720000 }) s
  let mask : Word := BitVec.ofNat 32 (15 * 2 ^ (4 * k))
  let s := { s with thermal := { s.thermal with started := s.thermal.started &&& ~~~ mask } }
  tgRedo ((List.range' (k * 128) 128).foldl wakeReed s) k

def execTgDomainOnDone (k : Fin 8) (s : State) : Result := .next (tgOnDone s k.val)

/-! ### The fast clock (R525 to R527, R615) -/

/-- Some slot is in 4 ARMED. -/
def anyArmed (s : State) : Bool := s.slots.any (fun p => p.2.state == .armed)

/-- Work of R525; a command that waits for RUN is work too (R526, log 36). -/
def hasWork (s : State) : Bool :=
  s.slots.any (fun p => p.2.work != .none) || s.chans.any (fun p => p.2.tongue.isSome || p.2.waiting.isSome)
    || !s.cmdq.cmds.isEmpty || !s.cmdq.fetched.isEmpty || !s.reqs.isEmpty || !s.fabWait.isEmpty || s.bore.initRun || bit (getReg s (ro pgCLK 0x40)) 1

/-- Code of the fast state. -/
def Fast.code : Fast → Nat | .sleep => 0 | .warm => 1 | .run => 2 | .waking => 3

/-- CK_STAT. -/
def ckStat (s : State) : Word :=
  let p := s.power
  pack [(0, 2, p.fast.code), (4, 1, b2n p.pllcLock), (5, 1, b2n p.pllsLock), (6, 1, b2n p.refOk), (7, 1, b2n p.stretch),
    (8, 1, b2n (anyArmed s)), (9, 1, b2n p.backup), (10, 1, regFld s (ro pgCLK 0x44) 10 1), (11, 1, b2n p.supSlow)]

/-- The work of the fast clock's loss: tongues end, waiting entries are abandoned, READY clears (R525, R527). -/
def clockLost (s : State) : State := dropReady (stopTongues s)

/-- PLL_WORK_ARRIVES. -/
def workArrives (s : State) : State :=
  if !hasWork s then s else
  match s.power.fast with
  | .sleep => bumpReg { s with power := { s.power with fast := .waking, wakeAt := s.now } } (ro pgCLK 0x4C) 0 16
  | .warm => acceptWaiting (bumpReg { s with power := { s.power with fast := .run } } (ro pgCLK 0x4C) 16 16)
  | _ => s

def execPllWorkArrives (s : State) : Result := .next (if driveOn s then workArrives s else s)

/-- PLL_C_LOCKED: RUN; after a loss of lock every armed slot is redone, and the commands that wait are accepted (R525, R526). -/
def pllcLocked (s : State) : State :=
  if s.power.fast ≠ .waking ∨ !s.power.refOk then s else
  let redo := s.power.relock
  let s := { s with power := { s.power with 
    fast := .run, pllcLock := true, unlocked := false, relock := false, backup := false
    clockGood := if s.power.unlocked then s.now else s.power.clockGood } }
  acceptWaiting (if redo then redoIf s (fun x => x.state == .armed) else s)

def execPllCLocked (s : State) : Result := .next (pllcLocked s)

/-- Skipping ends, and CK_STRETCH.LONGEST_CC notes the longest episode (R528, R540). -/
def endStretch (s : State) : State :=
  if !s.power.stretch then s else
  putReg { s with power := { s.power with stretch := false } } (ro pgCLK 0x50) 16 16
    (min (max (regFld s (ro pgCLK 0x50) 16 16) (s.now - s.power.stretchAt)) 65535)

/-- There has been no work for `n` cycles (R525). -/
def idleFor (s : State) (n : Nat) : Bool := !hasWork s && decide (s.power.workAt + n ≤ s.now)

/-- WARM_IDLE_EXPIRED and SLEEP_IDLE_EXPIRED (R525): no work for WARM_CC, and for SLEEP_US. -/
def execWarmIdleExpired (s : State) : Result :=
  .next (if s.power.fast = .run ∧ idleFor s (regFld s (ro pgCLK 0x40) 4 12) then
    let s := endStretch s
    { s with power := { s.power with fast := .warm } } else s)
def execSleepIdleExpired (s : State) : Result :=
  .next (if s.power.fast = .warm ∧ idleFor s (regFld s (ro pgCLK 0x40) 16 16 * 1200) ∧ !anyArmed s ∧ bit (getReg s (ro pgCLK 0x40)) 0 then
    { s with power := { s.power with fast := .sleep, pllcLock := false } } else s)

/-- PLL_C loses lock outside SLEEP: WAKING, counted as unlocked, and a relock starts (R525, R615). -/
def pllcLost (s : State) : State :=
  if s.power.fast = .sleep then s else
  let d := ckStat s
  let s := endStretch s
  let s := { s with power := { s.power with
    fast := .waking, pllcLock := false, unlocked := true, relock := true
    unlockAt := if s.power.unlocked then s.power.unlockAt else s.now } }
  clockLost (post s pgCLK 0 d)

def execPllCLockLoss (s : State) : Result := .next (if driveOn s then pllcLost s else s)

/-- PLL_C_WAKE_TIMEOUT (R615): 20 us since the wake began. -/
def execPllCWakeTimeout (s : State) : Result :=
  .next (if s.power.fast = .waking ∧ !s.power.unlocked ∧ s.power.wakeAt + 24000 ≤ s.now then
    post { s with power := { s.power with unlocked := true, unlockAt := s.now } } pgCLK 0 (ckStat s) else s)

/-- PLL_S_LOCK_LOSS: the core and the flash interface halt (CLK page). -/
def pllsLost (s : State) : State :=
  if !s.power.pllsLock then s else
  post { s with power := { s.power with pllsLock := false } } pgCLK 1 (ckStat s)

def execPllSLockLoss (s : State) : Result := .next (pllsLost s)
def execPllSLocked (s : State) : Result :=
  .next (if driveOn s && s.power.refOk then { s with power := { s.power with pllsLock := true } } else s)

/-- REFCLK_LOST (R527, R567). -/
def refclkLost (s : State) : State :=
  if !driveOn s ∨ !s.power.refOk then s else
  let s := post { s with power := { s.power with refOk := false } } pgCLK 2 1
  let s := clockLost (pllsLost (pllcLost s))
  let s := slPortDown (slPortDown s .up) .dn
  linkReset { s with power := { s.power with backup := true, clockReq := 3 } }

def execRefclkLost (s : State) : Result := .next (refclkLost s)

/-- REFCLK_RETURN (R527): the loads leave the backup; the PLLs report their lock by events of their own. -/
def execRefclkReturn (s : State) : Result :=
  .next (if driveOn s && !s.power.refOk then 
    { s with power := { s.power with refOk := true, backup := false, clockGood := s.now } } else s)

/-! ### Droop (R528, R529) -/

/-- CK_DROOP.THRESH_MV. -/
def threshMv (s : State) : Nat := regFld s (ro pgCLK 0x48) 0 10

/-- The sensors read `mv`: PW_CORE follows, and the time below the threshold counts (R529). -/
def readCore (s : State) (mv : Nat) : State :=
  let least := if s.power.vcoreMin = 0 ∨ mv < s.power.vcoreMin.toNat then BitVec.ofNat 10 mv else s.power.vcoreMin
  { s with power := { s.power with
    vcore := BitVec.ofNat 10 mv, vcoreMin := least
    coreLow := if threshMv s ≤ mv then none else some (s.power.coreLow.getD s.now) } }

/-- DROOP_START: skipping starts in RUN while a sensor is below the threshold; the episode counts and is reported. -/
def droopStart (s : State) (mv : Nat) : State :=
  if !driveOn s then s else
  let s := readCore s mv
  if s.power.fast ≠ .run ∨ s.power.stretch ∨ threshMv s ≤ mv then s else
  let s := bumpReg { s with power := { s.power with stretch := true, stretchAt := s.now } } (ro pgCLK 0x50) 0 16
  post s pgCLK 4 (BitVec.ofNat 32 mv)

def execDroopStart (mv : BitVec 10) (s : State) : Result := .next (droopStart s mv.toNat)

/-- DROOP_END: every sensor has been above THRESH_MV + 10 mV for `aboveCc`, 64 cc at least; the CORE cause ends with it (R528,
R531). -/
def droopEnd (s : State) (mv aboveCc : Nat) : State :=
  if !driveOn s then s else
  let s := readCore s mv
  if mv ≤ threshMv s + 10 ∨ aboveCc < 64 then s else
  let s := endStretch s
  { s with power := { s.power with coreReq := 0 } }

def execDroopEnd (mv : BitVec 10) (aboveCc : BitVec 16) (s : State) : Result := .next (droopEnd s mv.toNat aboveCc.toNat)

/-- DROOP_SUSTAINED: the rail has been below the threshold for SUST_US, and the CORE cause rises with CORE_SAG (R529, R531). -/
def droopSustained (s : State) (mv : Nat) : State :=
  if !driveOn s then s else
  let s := readCore s mv
  let due := match s.power.coreLow with
    | some t => decide (t + regFld s (ro pgCLK 0x48) 16 8 * 1200 ≤ s.now)
    | none => false
  if !due ∨ s.power.coreReq ≠ 0 then s else
  post { s with power := { s.power with coreReq := 5, coreAt := s.now } } pgPWR 2 (BitVec.ofNat 32 mv)

def execDroopSustained (mv : BitVec 10) (s : State) : Result := .next (droopSustained s mv.toNat)

/-! ### Requests (R530 to R532) -/

/-- The row of R531 that the pushed feed states put the FEED cause on. -/
def feedRowOf (s : State) : Fin 4 :=
  let sust (f : Feed) : Bool := bit s.idl.push1 (match f with | .a => 6 | .b => 7)
  let fs := [Feed.a, Feed.b].filter (pushedOn s)
  if !fs.isEmpty && fs.all sust then 3
  else if fs.any (fun f => sust f && pushedState s (other f) == 6 && !pushedSag s (other f)) then 2
  else if fs.any (pushedSag s) then 1 else 0

/-- When a climb that starts or steps now is due again: CLIMB_MS as it stands (R531, R541). -/
def climbDue (s : State) : Nat := s.now + regFld s (ro pgPWR 0x40) 16 8 * 1200000

/-- A full push brings the FEED and BUS causes up to date; a cause that changes its row starts that row afresh (R531). -/
def pushCauses (s : State) : State :=
  let row := feedRowOf s
  let base : Fin 9 := match row with | 0 => 0 | 1 => 1 | 2 => 2 | _ => 3
  let p := s.power
  let p := if row = p.feedRow then p else { p with feedRow := row, feedReq := base, feedDue := climbDue s }
  let sag := bit s.idl.push1 8
  { s with power := { p with
    busReq := if sag then p.busReq else 0
    busFrom := if sag then some (p.busFrom.getD s.now) else none } }

/-- CAUSE_CLIMB: CLIMB_MS has passed on a row that climbs; neither cause climbs while the link is down (R531, R532). -/
def causeClimb (s : State) (feedCause : Bool) : State :=
  if !idlUp s then s else
  let p := s.power
  if feedCause then
    let top : Nat := if p.feedRow = 3 then 8 else if p.feedRow = 2 then 3 else 0
    if p.feedReq.val < top ∧ p.feedDue ≤ s.now then
      { s with power := { p with feedReq := Fin.ofNat 9 (p.feedReq.val + 1), feedDue := climbDue s } }
    else s
  else if 3 ≤ p.busReq.val ∧ p.busReq.val < 8 ∧ p.busDue ≤ s.now then
    { s with power := { p with busReq := Fin.ofNat 9 (p.busReq.val + 1), busDue := climbDue s } }
  else s

def execCauseClimb (feedCause : Bool) (s : State) : Result := .next (causeClimb s feedCause)

/-- BUS_SAG as pushed has been set for 1 ms. -/
def busHeld (s : State) : Bool := match s.power.busFrom with | some t => decide (t + 1200000 ≤ s.now) | none => false

/-- BUS_SAG_HELD. -/
def execBusSagHeld (s : State) : Result :=
  .next (if idlUp s ∧ busHeld s ∧ s.power.busReq = 0 then
    { s with power := { s.power with busReq := 3, busDue := climbDue s } } else s)

/-- CORE_CAUSE_L8 (R531): the CORE cause has held for 100 ms. -/
def execCoreCauseL8 (s : State) : Result :=
  .next (if s.power.coreReq ≠ 0 ∧ s.power.coreAt + 120000000 ≤ s.now then { s with power := { s.power with coreReq := 8 } } else s)

/-- REFCLK is absent, as REFCLK_LOST has found after its 1 us, or PLL_C has counted as unlocked for 1 us (R531). -/
def clockBad (s : State) : Bool := !s.power.refOk || (pllcUnlocked s && decide (s.power.unlockAt + 1200 ≤ s.now))

/-- CLOCK_CAUSE_RISE, and CLOCK_CAUSE_CLEAR when both have been good for 10 ms (R531). -/
def execClockCauseRise (s : State) : Result :=
  .next (if driveOn s ∧ clockBad s then { s with power := { s.power with clockReq := 3 } } else s)
def execClockCauseClear (s : State) : Result :=
  .next (if s.power.refOk ∧ !pllcUnlocked s ∧ s.power.clockGood + 12000000 ≤ s.now then
    { s with power := { s.power with clockReq := 0 } } else s)

/-- PW_CTRL.FLOOR. -/
def floorReq (s : State) : Nat := regFld s (ro pgPWR 0x40) 0 4

/-- The request, the largest of its parts (R530). -/
def request (s : State) : Nat :=
  let p := s.power
  max (max (max s.thermal.req.val p.feedReq.val) (max p.busReq.val p.coreReq.val)) (max p.clockReq.val (floorReq s))

/-- CAUSE of PW_STAT: THERMAL, FEED, BUS, CORE, CLOCK, FLOOR, each with a request of its own. -/
def causeMask (s : State) : Nat :=
  let p := s.power
  maskOf (([(0, s.thermal.req.val), (1, p.feedReq.val), (2, p.busReq.val), (3, p.coreReq.val), (4, p.clockReq.val),
    (5, floorReq s)].filter (fun c => c.2 ≠ 0)).map (·.1))

/-! ### The ladder (R533 to R537) -/

/-- Tiles of a priority class (PW_TPRIO). -/
def prioTiles (s : State) (k : Nat) : Word :=
  BitVec.ofNat 32 (maskOf ((List.range 32).filter (fun t => regFld s (ro pgPWR (0x80 + 4 * (t / 8))) (4 * (t % 8)) 3 == k)))

/-- L6 parks the classes up to `k`: the whole set goes to PK_TMASK and PW_L6_MASK, with a park event of cause 3 (R536). -/
def shedClass (s : State) (k : Nat) : State :=
  let mask := s.power.l6Mask ||| prioTiles s k
  let s := { s with power := { s.power with
    l6Mask := mask
    l6Next := BitVec.ofNat 3 (k + 1), l6Running := true
    l6Due := s.now + regFld s (ro pgPWR 0x40) 8 8 * 1200000 } }
  let s := parkEvent (setReg s (ro pgPARK 0x48) mask) 3 mask
  if mask = 0 then s else post s pgPWR 3 mask

/-- The orderly stop of L8 begins (R537). -/
def l8Enter (s : State) : State :=
  let sust (f : Feed) : Nat := b2n (bit s.idl.push1 (match f with | .a => 6 | .b => 7))
  let s := { s with power := { s.power with l8Stop := true, l8At := s.now, l8Feeds := BitVec.ofNat 2 (sust .a + 2 * sust .b) } }
  let s := if coreRuns s then quiesce s (if s.thermal.shutLatched then 0 else 1) else s
  post s pgPWR 4 (BitVec.ofNat 32 (causeMask s))

/-- What entering a level does (R534). -/
def enterLevel (s : State) (l : Nat) : State := match l with
  | 2 => redoIf s (fun x => x.state == .armed)
  | 3 => slotList.foldl (fun s k => endReq s k 6) s
  | 5 => { s with power := { s.power with supSlow := true } }
  | 6 => shedClass s 0
  | 7 => post (parkEvent s 4 allTiles) pgPWR 3 allTiles
  | 8 => l8Enter s
  | _ => s

/-- What leaving a level does (R534). -/
def leaveLevel (s : State) (l : Nat) : State := match l with
  | 2 => redoIf s (fun x => x.state == .armed)
  | 4 => loopResumeAll s
  | 5 => { s with power := { s.power with supSlow := false }, bore := { s.bore with ret := 0 } }
  | 6 => { s with power := { s.power with l6Next := 0, l6Mask := 0, l6Running := false } }
  | _ => s

/-- The ladder takes a level, which PW_MAXLVL notes. -/
def setLevel (s : State) (l : Nat) : State :=
  { s with power := { s.power with level := Fin.ofNat 9 l, levelAt := s.now, maxLvl := BitVec.ofNat 4 (max s.power.maxLvl.toNat l) } }

/-- One level is entered, with LEVEL_UP. -/
def climbOne (s : State) (l : Nat) : State :=
  let s := enterLevel (bumpReg (setLevel s l) (ro pgPWR 0x4C) 0 16) l
  post s pgPWR 0 (pack [(0, 4, l), (8, 6, causeMask s)])

/-- LADDER_CLIMB: every level above the present one is entered, up to the request (R533). -/
def ladderClimb (s : State) : State :=
  if !driveOn s then s else
  (List.range' (level s + 1) (request s - level s)).foldl climbOne s

def execLadderClimb (s : State) : Result := .next (ladderClimb s)

/-- 10 ms have passed since the last change of level and since the request fell below it (R535). -/
def descentDue (s : State) : Bool := match s.power.belowFrom with
  | some t => decide (max t s.power.levelAt + 12000000 ≤ s.now)
  | none => false

/-- LADDER_DESCEND: one level down while the request is below the level; not while the link is down (R532, R535). -/
def ladderDescend (s : State) : State :=
  let l := level s
  if !driveOn s ∨ !idlUp s ∨ l ≤ request s ∨ !descentDue s then s else
  let s := leaveLevel (bumpReg (setLevel s (l - 1)) (ro pgPWR 0x4C) 16 16) l
  post s pgPWR 1 (BitVec.ofNat 32 (l - 1))

def execLadderDescend (s : State) : Result := .next (ladderDescend s)

/-- L6_STEP: L6_STEP_MS after the last class the next one, up to 6, while the request is L6 or higher (R536). -/
def l6Step (s : State) : State :=
  if s.power.l6Due ≤ s.now ∧ 6 ≤ level s ∧ 6 ≤ request s ∧ s.power.l6Running ∧ s.power.l6Next.toNat ≤ 6 then shedClass s s.power.l6Next.toNat else s

def execL6Step (s : State) : Result := .next (l6Step s)

/-- L8_STOP_WAIT_EXPIRED: STOP has not been accepted within SHUT_WAIT_MS of L8 entry, and PWR sends STOP and the OFF writes itself
(R537). -/
def execL8StopWaitExpired (s : State) : Result :=
  let wait := max (regFld s (ro pgTEMP 0x40) 16 8) 5 * 1200000
  .next (if s.power.l8Stop && !stopAccepted s && decide (s.power.l8At + wait ≤ s.now) then orderlyStop s else s)

/-! ### Registers -/

/-- A write of PW_CTRL: FLOOR takes effect at once (R541). -/
def pwCtrlWrite (s : State) (v : Word) : State := ladderClimb (writeReg s (ro pgPWR 0x40) v)

def execPwFloorWrite (fn : Fn) (v : Word) (s : State) : Result := .next (wr s fn pgPWR 0x40 0 (fun s => pwCtrlWrite s v))

/-- CK_CTRL_WRITE: a write of CK_CTRL or CK_DROOP (R540). -/
def execCkCtrlWrite (fn : Fn) (off : BitVec 12) (v : Word) (s : State) : Result :=
  if off = 0x40 ∨ off = 0x48 then .next (wr s fn pgCLK off.toNat 0 (fun s => writeReg s (ro pgCLK off.toNat) v))
  else .next s

/-- PW_MAXLVL is read and clears (R541). -/
def maxlvlRead (s : State) : Word × State :=
  (BitVec.ofNat 32 s.power.maxLvl.toNat, { s with power := { s.power with maxLvl := 0 } })

def execPwMaxlvlRead (fn : Fn) (s : State) : Result := .next (rd s fn pgPWR 0x50 maxlvlRead)

/-- PW_STAT. -/
def pwStat (s : State) : Word :=
  pack [(0, 4, level s), (4, 4, request s), (8, 3, s.power.l6Next.toNat), (16, 6, causeMask s),
    (24, 1, b2n (driveOn s && !idlUp s)), (25, 1, regFld s (ro pgPWR 0x44) 25 1)]

/-- PW_REQ. -/
def pwReq (s : State) : Word :=
  let p := s.power
  pack [(0, 4, s.thermal.req.val), (4, 4, p.feedReq.val), (8, 4, p.busReq.val), (12, 4, p.coreReq.val), (16, 4, p.clockReq.val)]

end Sys2Proof.Machine
end

