-- ==== Sys2Proof/Machine/Reset.lean ====
section
/-! DEFINITION. The resets of the drive die and the loss of its rails, and POR (R16 to R19, R81 to R83, R86, R165, R288, R304,
R309, R364, R366, R396, R415, R424, R436, R472, R488, R489, R494, R520, R538, R547, R585). -/

namespace Sys2Proof.Machine

/-! ### Shared parts -/

/-- SY_RESET_CAUSE takes a reset: LAST, and the count in the field at `lo` (R585). -/
def noteCause (s : State) (last lo : Nat) : State := bumpReg (putReg s (ro pgSYS 0x68) 0 4 last) (ro pgSYS 0x68) lo 8

/-- RESET is sent with LAST as detail. -/
def resetMsg (s : State) : State := post s pgSYS 2 (BitVec.ofNat 32 (regFld s (ro pgSYS 0x68) 0 4))

/-- The messages that the feed die has sent and the drive die has not taken whole (log 7). -/
def unreceived (half : Option (BitVec 13 × BitVec 8 × Bool)) : List (BitVec 8 × Frame) → List Msg
  | [] => []
  | (_, .bell0 src kind inj) :: fs => unreceived (some (src, kind, inj)) fs
  | (_, .bell1 d) :: fs => match half with
    | some (src, kind, inj) => { source := src, kind := kind, detail := d, inj := inj } :: unreceived none fs
    | none => unreceived none fs
  | _ :: fs => unreceived half fs

/-- A feed-die message is held; one that replaces a held one of its source counts in FS_PUSH.MERGED (R115). -/
def holdAgain (s : State) (m : Msg) : State :=
  let h := holdMsg s.fd.held m
  let s := { s with fd := { s.fd with held := h.1 } }
  if h.2 then satReg s (ro pgFSYS 0x4C) 25 7 else s

/-- The link leaves 2 UP: frames on the wire are gone, halves held are dropped, and the feed die holds again what has not been
received (R33, R108, R115). -/
def idlDrop (s : State) : State :=
  let back := unreceived s.idl.bell0 s.idl.toDrive.wire
  (back ++ s.fd.held).foldl holdAgain
    { s with idl := { push0 := s.idl.push0, push1 := s.idl.push1 }, fd := { s.fd with held := [] } }

/-- The stage that the feed die alone has reached (R80). -/
def lowStage (s : State) : Fin 5 :=
  let past (g : FeedSt) : Bool := g.state.driven
  if past s.feedA || past s.feedB then 1 else 0

/-- What BOOT metadata keeps through every reset: the slot states, PREF and the failures (R98, R100). -/
def Boot.kept (b : Boot) : Boot :=
  { stateA := b.stateA, stateB := b.stateB, failA := b.failA, failB := b.failB, pref := b.pref }

/-! ### WARM (R81) -/

/-- BOOT at a WARM reset: stage 2 from its start; what DRST alone resets stays. -/
def Boot.warm (b : Boot) (now : Nat) : Boot := { b with
  stage := 2, holdWhy := 0, trial := false, selected := false, core := false, restarting := false, sfw := 0, rmc := 0, tmi := 0,
  stage2At := now, updCmd := 0, updAbort := false, updStarted := false, updErr := 0, forecast := 0, featForecast := 0,
  calLoaded := [] }

/-- A WARM reset with the code of SY_RESET_CAUSE (R18, R81, R165, R185, R288, R304, R366, R415, R424, R488, R538, R547). -/
def warm (s : State) (last : Nat) : State :=
  if !driveOn s then s else
  let s := accWarm (measWarm s)
  let s := dropRegs .warm s
  let s := bumpReg s (ro pgCMDQ 0x48) 0 16
  let idl := s.idl
  let s := { s with
    boot := s.boot.warm s.now,
    slots := [], reqs := [], fabWait := [], tabs := s.tabs.filter (fun p => p.1 == kTH), cmdq := {},
    loops := (s.loops.map (fun l => (l.1, l.2.warm))).filter (fun l => decide (l.2 ≠ {})),
    cal := { s.cal with run := none },
    bore := { s.bore with initRun := false, climbDone := false, patrol := 0 },
    flash := s.flash.discard,
    idl := { idl with wrWait := idl.wrWait.map FeedWait.orphan, rdWait := idl.rdWait.map FeedWait.orphan,
                      heldAcc := idl.heldAcc.map FeedWait.orphan } }
  resetMsg (noteCause s last 8)

def execWarmReset (s : State) : Result := .next (warm s 4)

/-! ### DRST (R83) -/

/-- A channel at a DRST with the rails up: the last code stays, fuse states clear, supervision returns (R83, R141, R165, R309). -/
def ChanSt.drst (c : ChanSt) : ChanSt :=
  { code := c.code, range := c.range, src := c.src, park := c.park, coefL := c.coefL, coefH := c.coefH }

/-- A valve at a DRST with the rails up (R165). -/
def ValveState.drst (v : ValveState) (dark : Bool) : ValveState := match v with
  | .tripped => if dark then .softStart else .conduct
  | .heldOff => if dark then .softStart else .conduct
  | v => v

/-- A tile at a DRST with the rails up: not judged dark until the park strobe (R159, R165). -/
def TileSt.drst (x : TileSt) : TileSt :=
  { va := x.va.drst x.dark, vb := x.vb.drst x.dark }

/-- TG domains that are off come on again (R520). -/
def allTgOn (s : State) : State :=
  (List.range 8).foldl (fun s k =>
    if domOn s (12 + k) then s
    else tgOnDone { s with power := { s.power with tgComing := s.power.tgComing ||| BitVec.ofNat 8 (2 ^ k) } } k) s

/-- The drive-die state that a DRST and a loss of the rails both clear: everything but the channels, the tiles, the clocks and
what is kept in the medium, the park store and BOOT metadata. -/
def drstCommon (s : State) : State :=
  let s := idlDrop (flashOff s)
  let h := s.host
  { s with
    reeds := [], loops := [], slots := [], reqs := [], fabWait := [], tabs := [], accs := {}, cmdq := {}, thermal := {}, bell := {},
    droneD := 0, hkAt := s.now,
    park := { copy0 := s.park.copy0, copy1 := s.park.copy1 },
    bore := { mem := s.bore.mem, badPar := s.bore.badPar, stuck := s.bore.stuck },
    shelf := { pos := Config.shelfPos },
    flash := { s.flash with journalQ := [] },
    host := { rdata := h.rdata, poisoned := h.poisoned, smb := h.smb, fdOffset := h.fdOffset, fdRes := h.fdRes,
              syncIn := h.syncIn } }

/-- A DRST with the rails up, with the code of SY_RESET_CAUSE: tongues write their final codes first (R252), then every register
and block of the drive die is as after power-on but for the channels' codes and coefficients, and stage 2 begins anew. -/
def drstFx (s : State) (last : Nat) : State :=
  if !driveOn s then s else
  let s := allTgOn (stopTongues s)
  let s := drstCommon (accWarm (dropRegs .drst s))
  let p := s.power
  let s := { s with
    chans := (s.chans.map (fun c => (c.1, c.2.drst))).filter (fun c => decide (c.2 ≠ {})),
    tiles := (s.tiles.map (fun t => (t.1, t.2.drst))).filter (fun t => decide (t.2 ≠ {})),
    cal := { coef := s.cal.coef.filter (fun c => decide (98304 ≤ c.1 ∧ c.1 ≤ 163839)) },
    power := { dom := 0xFFFFF, railsUp := p.railsUp, refOk := p.refOk, pllsLock := p.refOk },
    boot := { s.boot.kept with stage := 2, stage2At := s.now } }
  resetMsg (noteCause s last 16)

def execDrst (s : State) : Result := .next (drstFx s 2)

/-! ### The drive-die rails (R86, R520) -/

/-- Nothing of the drive die is left but the medium, the park store and BOOT metadata. -/
def railsLost (s : State) : State :=
  let s := drstCommon s
  { s with
    regs := s.regs.filter (fun r => isFeedPage (r.1 / 4096)),
    chans := [], tiles := [], cal := {}, power := {},
    bore := { stuck := s.bore.stuck },
    boot := { s.boot.kept with stage := lowStage s } }

def execDriveRailsLost (s : State) : Result :=
  .next (if driveOn s then railsLost s else { s with power := { s.power with railsUp := false } })

/-- DRIVE_RAILS_UP (R86, R165, R309): every channel sources 0 A, every valve is blocked and SY_RESET_CAUSE notes RAILS. -/
def execDriveRailsUp (s : State) : Result :=
  .next (if driveOn s || s.power.railsUp then s
    else noteCause { s with
      chans := [], tiles := [], cal := {}, power := { s.power with railsUp := true } } 0 16)

/-- The stage below has been reached and the drive die's rails stand: its rails have come up and PG of CORE, IO and AUX is 1
(R62, R80). -/
def stage2Ready (s : State) : Bool :=
  s.power.railsUp && s.fd.armed && s.boot.stage == 1 && [1, 2, 3].all (fun i => s.rails.pg.getLsbD i)

/-- STAGE2_ENTRY (R80, R520): from stage 1, with the core, IO and aux rails good, the drive-die domains come on, the clocks run,
and RESET reports the cause. -/
def execStage2Entry (s : State) : Result :=
  .next (if driveOn s || !stage2Ready s then s else
    resetMsg { s with
      power := { dom := 0xFFFFF, railsUp := true, refOk := true, pllsLock := true },
      shelf := { pos := Config.shelfPos },
      boot := { s.boot.kept with stage := 2, stage2At := s.now } })

/-- POR (R17): every domain of both dies is reset; the medium, the park store and BOOT metadata stay. -/
def porFx (s : State) : State :=
  let d := railsLost s
  { pending := s.pending, now := s.now, phase := s.phase, free := s.free,
    park := d.park, bore := d.bore, flash := d.flash,
    boot := d.boot.kept, shelf := { pos := Config.shelfPos }, host := { syncIn := s.host.syncIn } }

def execPor (s : State) : Result := .next (porFx s)

/-! ### SY_RESET (R585) -/

/-- A write of SY_RESET: the key and ACT 1 or 2; ACT 2 is for P0. -/
def syReset (s : State) (fn : Fn) (v : Word) : State :=
  if fld v 16 16 ≠ 0xD0A5 then badEncoding s pgSYS 0x64
  else match fld v 0 2 with
    | 1 => warm s 4
    | 2 => if fn = .pf0 then drstFx s 2 else denied s { fn := fn, off := ro pgSYS 0x64, write := true } 0
    | _ => badEncoding s pgSYS 0x64

def execSyResetWarm (fn : Fn) (key : BitVec 16) (s : State) : Result :=
  .next (wr s fn pgSYS 0x64 1 (fun s => syReset s fn (pack [(0, 2, 1), (16, 16, key.toNat)])))
def execSyResetDrst (fn : Fn) (key : BitVec 16) (s : State) : Result :=
  .next (wr s fn pgSYS 0x64 1 (fun s => syReset s fn (pack [(0, 2, 2), (16, 16, key.toNat)])))

end Sys2Proof.Machine
end

