-- ==== Sys2Proof/Machine/Boot.lean ====
section
/-! DEFINITION. Staged start, bundles and pairing, the pad test and the bond report, and updates of the firmware (R80, R82,
R91 to R107, R116 to R122; 03_staged_start.md). -/

namespace Sys2Proof.Machine

/-! ### SHA-256 of a bundle (the DIGEST row of the bundle header) -/

/-- The primes below 312, which are the first 64. -/
def shaPrimes : List Nat :=
  (List.range 312).filter (fun n => decide (2 ≤ n) && (List.range n).all (fun d => decide (d < 2) || n % d != 0))

/-- The first 32 bits of the fraction of the `k`-th root of `p`, by halving: the largest `r` with `r ^ k ≤ p * 2 ^ (32 * k)`. -/
def rootFraction (k p : Nat) : Word :=
  BitVec.ofNat 32 ((List.range 36).reverse.foldl
    (fun r i => if (r + 2 ^ i) ^ k ≤ p * 2 ^ (32 * k) then r + 2 ^ i else r) 0)

/-- The additive constants of the 64 rounds, from the cube roots of the primes; the hash before the first block, from the square
roots of the first eight. -/
def shaAdd : List Word := shaPrimes.map (rootFraction 3)
def shaStart : List Word := (shaPrimes.take 8).map (rootFraction 2)

/-- The exclusive or of a word's rotations to the right. -/
def spun (w : Word) (turns : List Nat) : Word := turns.foldl (fun x n => x ^^^ w.rotateRight n) 0

/-- A hash in progress: its two chains of four words, `hi` and `lo`, and the last 16 words of the schedule, latest first. -/
structure Digest where
  hi : List Word
  lo : List Word
  win : List Word
  deriving DecidableEq, Repr

/-- One round: each chain takes a word from the mix of both with the constant and the oldest word of the window, and the window
takes its next word. -/
def Digest.turn (d : Digest) (k : Word) : Digest :=
  let hi (i : Nat) : Word := d.hi.getD i 0
  let lo (i : Nat) : Word := d.lo.getD i 0
  let win (i : Nat) : Word := d.win.getD i 0
  let chosen := lo 2 ^^^ (lo 0 &&& (lo 1 ^^^ lo 2))
  let most := (hi 0 &&& (hi 1 ||| hi 2)) ||| (hi 1 &&& hi 2)
  let mix := lo 3 + spun (lo 0) [6, 11, 25] + chosen + k + win 15
  let next := win 15 + (spun (win 14) [7, 18] ^^^ (win 14 >>> 3)) + win 6 + (spun (win 1) [17, 19] ^^^ (win 1 >>> 10))
  { hi := (mix + spun (hi 0) [2, 13, 22] + most) :: d.hi.take 3,
    lo := (hi 3 + mix) :: d.lo.take 3,
    win := next :: d.win.take 15 }

/-- A block of 16 words, latest first, is added to a hash of eight. -/
def hashBlock (h win : List Word) : List Word :=
  let d := shaAdd.foldl Digest.turn { hi := h.take 4, lo := h.drop 4, win := win }
  List.zipWith (· + ·) h (d.hi ++ d.lo)

/-- Byte `i` of a message of `len` bytes with its padding: a one bit, zeros, and the length in bits, in `total` bytes. -/
def paddedByte (msg : Nat → Byte) (len total i : Nat) : Byte :=
  if i < len then msg i else if i = len then 0x80
  else if total ≤ i + 8 then BitVec.ofNat 8 (len * 8 / 256 ^ (total - 1 - i)) else 0

/-- The SHA-256 of `len` bytes, as eight words. -/
def sha256 (msg : Nat → Byte) (len : Nat) : List Word :=
  let blocks := (len + 72) / 64
  let b := paddedByte msg len (blocks * 64)
  let word (a : Nat) : Word := b a ++ b (a + 1) ++ b (a + 2) ++ b (a + 3)
  (List.range blocks).foldl (fun h j => hashBlock h ((List.range 16).map (fun k => word (64 * j + 60 - 4 * k)))) shaStart

/-! ### Bundles (bundle header and manifest tables) -/

/-- The byte offset of slot A (0) or B (1) in the BOOT partition. -/
def slotAt (i : Nat) : Nat := i * 0x80_0000

/-- A word of a slot's bundle. -/
def bundle (s : State) (i off : Nat) : Word := wordAt s.flash.boot (slotAt i + off)

/-- The judgement of a bundle, as a code of BT_UPD_STAT.ERR: 0, 5 HEADER, 3 CRC or 4 DIGEST. -/
def bundleErr (s : State) (i : Nat) : Nat :=
  let byte (k : Nat) : Byte := tabGet (fun _ => (0 : Byte)) s.flash.boot (slotAt i + k)
  let len := (bundle s i 8).toNat
  let crc := (List.range 0xFC).foldl (fun c k => crcByte c (byte k).toNat) 0xFFFF_FFFF
  if bundle s i 0 ≠ 0x474E_4C43 ∨ bundle s i 4 ≠ 0x0001_0000 ∨ len = 0 ∨ len % 4096 ≠ 0 ∨ 0x80_0000 < len then 5
  else if bundle s i 0xFC ≠ BitVec.ofNat 32 (crc ^^^ 0xFFFF_FFFF) then 3
  else
    let be (k : Nat) : Word := byte k ++ byte (k + 1) ++ byte (k + 2) ++ byte (k + 3)
    if (List.range 8).map (fun k => be (0x60 + 4 * k)) ≠ sha256 (fun k => byte (0x100 + k)) (len - 0x100) then 4 else 0

/-- VERSION of SFW, RMC or TMI (COMP 0 to 2). -/
def compVersion (s : State) (i c : Nat) : Word := bundle s i (0x0C + 12 * c)

/-! ### Pairing (R102 to R107) -/

/-- MAJOR.MINOR.0 of a MAJOR and a MINOR. -/
def version (major minor : Nat) : Word := BitVec.ofNat 32 (major * 2 ^ 24 + minor * 2 ^ 16)

/-- FS_FIV over the link, as MAJOR.MINOR.0. -/
def fivVersion (s : State) : Word := version (regFld s (ro pgFSYS 0x40) 8 8) (regFld s (ro pgFSYS 0x40) 0 8)

/-- The negotiated link version, as MAJOR.MINOR.0. -/
def idlVersion (s : State) : Word := version (s.idl.ver.toNat / 16) (s.idl.ver.toNat % 16)

/-- The version of partner `p`: RMC, TMI, FIV, HWV, IDL. -/
def partnerVersion (s : State) (i p : Nat) : Word := match p with
  | 0 => compVersion s i 1 | 1 => compVersion s i 2 | 2 => fivVersion s | 3 => getReg s (ro pgBOOT 0x5C) | _ => idlVersion s

/-- The manifest entries of partner `p` of one kind, as VER_LO and VER_HI. -/
def manifest (s : State) (i p kind : Nat) : List (Word × Word) :=
  let n := (bundle s i 0x40).toNat
  let base := (bundle s i 0x3C).toNat
  (List.range (if n ≤ 255 then n else 0)).filterMap (fun k =>
    let a := base + 12 * k
    let w := bundle s i a
    if fld w 0 8 = p ∧ fld w 8 8 = kind then some (bundle s i (a + 4), bundle s i (a + 8)) else none)

/-- A partner is tested, and in range (R102). -/
def partnerTested (s : State) (i p : Nat) : Bool := (manifest s i p 1).any (fun e => e.1 == partnerVersion s i p)
def partnerInRange (s : State) (i p : Nat) : Bool :=
  let v := (partnerVersion s i p).toNat
  (manifest s i p 0).any (fun e => decide (e.1.toNat ≤ v ∧ v ≤ e.2.toNat))

/-- OUT_OF_RANGE and UNTESTED masks, by partner code. -/
def outOfRange (s : State) (i : Nat) : BitVec 5 :=
  BitVec.ofNat 5 (maskOf ((List.range 5).filter (fun p => !partnerInRange s i p)))
def untested (s : State) (i : Nat) : BitVec 5 :=
  BitVec.ofNat 5 (maskOf ((List.range 5).filter (fun p => !partnerTested s i p)))

/-- The outcome: 1 PAIRED, 3 HELD or 2 FLOOR (R103). -/
def pairOutcome (s : State) (i : Nat) : BitVec 2 :=
  if untested s i = 0 then 1 else if outOfRange s i ≠ 0 then 3 else 2

/-- The features in force under an outcome (R104). -/
def pairFeatures (s : State) (i : Nat) (outcome : BitVec 2) : BitVec 3 :=
  let f (w : Word) : BitVec 3 := BitVec.ofNat 3 w.toNat
  let sfw := f (bundle s i 0x30)
  let rmc := f (bundle s i 0x34)
  let tmi := f (bundle s i 0x38)
  let hwv := f (getReg s (ro pgSYS 0x58))
  match outcome.toNat with
  | 1 => sfw
  | 2 => sfw &&& ((rmc &&& hwv &&& 1) ||| (rmc &&& tmi &&& hwv &&& 2) ||| (hwv &&& 4))
  | _ => 0

/-- Every version that a forced outcome rests on (R107). -/
def pairKey (s : State) (i : Nat) : List Word :=
  [compVersion s i 0, compVersion s i 1, compVersion s i 2, fivVersion s, idlVersion s]

/-! ### Words of the page -/

/-- Slot number of RUNNING, and of the slot that is not running. -/
def runningSlot (s : State) : Nat := b2n s.boot.running
def targetSlot (s : State) : Nat := 1 - b2n s.boot.running

/-- State of a slot, its code, and the slot's state set. -/
def slotState (s : State) (i : Nat) : ImgState := if i = 0 then s.boot.stateA else s.boot.stateB
def ImgState.code : ImgState → Nat | .empty => 0 | .valid => 1 | .pending => 2 | .failed => 3
def setSlotState (s : State) (i : Nat) (x : ImgState) : State :=
  { s with boot := if i = 0 then { s.boot with stateA := x } else { s.boot with stateB := x } }

/-- VER_MAX and VER_MIN of the CX32: 1.0 (R108). -/
abbrev ownIdlVersion : Nat := 0x10

/-- The lower of a received VER_MAX and the CX32's own is at least both VER_MIN (R108). -/
def commonVersion (r : BitVec 8 × BitVec 8 × BitVec 4) : Bool := decide (max r.1.toNat ownIdlVersion ≤ min r.2.1.toNat ownIdlVersion)

/-- The versions received in training leave none in common (R108). -/
def idlNoCommon (s : State) : Bool :=
  [s.idl.trainDrive, s.idl.trainFeed].any (fun t => match t with
    | some r => !commonVersion r
    | none => false)

/-- HOLD_WHY of a climb that waits for the link: 3 IDL_DOWN or 4 IDL_NO_COMMON. -/
def idlWhy (s : State) : BitVec 4 := if idlNoCommon s then 4 else 3

/-- BT_STAGE; at stage 3 a link that is not ready holds the climb (R80). -/
def btStage (s : State) : Word :=
  let why : BitVec 4 := if s.boot.stage = 3 ∧ !(idlUp s && s.idl.pushOk) then idlWhy s else s.boot.holdWhy
  pack [(0, 3, s.boot.stage.val), (4, 4, why.toNat)]

/-- BT_SLOT. -/
def btSlot (s : State) : Word :=
  let b := s.boot
  let w := getReg s (ro pgBOOT 0x48)
  put (put (put (put (put w 0 1 (b2n b.pref)) 1 1 (b2n b.running)) 2 1 (b2n b.trial)) 4 2 b.stateA.code) 6 2 b.stateB.code

/-- BT_PAIR. -/
def btPair (s : State) : Word :=
  let b := s.boot
  pack [(0, 2, b.outcome.toNat), (2, 1, b2n b.forced), (8, 5, b.outOfRange.toNat), (16, 5, b.untested.toNat), (24, 3, b.feat.toNat)]

/-- BT_IDL. -/
def btIdl (s : State) : Word := pack [(0, 8, s.idl.ver.toNat), (8, 3, s.idl.lanes.toNat), (11, 1, b2n (idlUp s))]

/-! ### Booting a slot (R98 to R101) -/

/-- REFUSED_CTRL of the BOOT page. -/
def bootRefused (s : State) (off : Nat) : State := post s pgBOOT 6 (BitVec.ofNat 32 off)

/-- IMAGE_BAD: the slot, and the ERR code where BT_UPD_STAT has it (log 5). -/
def imageBad (s : State) (i err : Nat) : State := post s pgBOOT 5 (pack [(0, 1, i), (1, 3, err)])

/-- BOOT_SLOT_SELECT (R98): a PENDING slot as a trial, else the VALID slot of PREF, else the other VALID slot, else a hold. Of two
PENDING slots A is booted (DESIGN CHOICE, log 37). -/
def slotSelect (s : State) : State :=
  let b := s.boot
  if b.stage ≠ 2 ∨ b.selected ∨ !driveOn s then s else
  if s.flash.state = .failed then { s with boot := { b with holdWhy := 5 } } else
  if !mounted s.flash then s else
  let pref := b2n b.pref
  let order := [0, 1].filter (fun i => slotState s i == .pending) ++ [pref, 1 - pref].filter (fun i => slotState s i == .valid)
  match order with
  | [] => { s with boot := { b with holdWhy := 2 } }
  | i :: _ => { s with boot := { b with
      selected := true, running := decide (i = 1), trial := slotState s i == .pending, holdWhy := 0 } }

def execBootSlotSelect (s : State) : Result := .next (slotSelect s)

/-- The booted slot fails: a trial at once, a VALID slot at its third failure in a row, is marked FAILED with BOOT_FALLBACK; a WARM
reset boots again (R99, R100). -/
def slotFails (s : State) : State :=
  let i := runningSlot s
  let n := (if i = 0 then s.boot.failA else s.boot.failB).toNat + 1
  let note (s : State) (n : BitVec 2) : State :=
    { s with boot := if i = 0 then { s.boot with failA := n } else { s.boot with failB := n } }
  if !s.boot.trial ∧ n < 3 then warm (note s (BitVec.ofNat 2 n)) 5
  else warm (post (setSlotState (note s 0) i .failed) pgBOOT 0 (BitVec.ofNat 32 i)) 5

/-- Pairing of the running slot, once the link can give FIV and its own version (R102 to R107). -/
def pairing (s : State) : State :=
  let b := s.boot
  if b.stage ≠ 2 ∨ !b.core then s else
  if !idlUp s then { s with boot := { b with holdWhy := idlWhy s } } else
  let i := runningSlot s
  let fresh := pairOutcome s i
  let out : BitVec 2 := if fresh = 3 ∧ b.forced ∧ b.forcedAt = pairKey s i then 2 else fresh
  let s := { s with boot := { b with
    outcome := out, outOfRange := outOfRange s i, untested := untested s i, fiv := fivVersion s,
    feat := pairFeatures s i out, holdWhy := if out = 3 then 1 else 0 } }
  if out = 3 then
    if s.boot.trial then slotFails s else post s pgBOOT 1 (s.boot.outOfRange.setWidth 32) 3
  else if out = 2 then post s pgBOOT 2 (s.boot.untested.setWidth 32) 2
  else s

/-- SFW_VERIFIED: the header and the digest are checked; the SFW starts and pairing runs, or the slot fails (R99, R103). -/
def sfwVerified (s : State) : State :=
  let b := s.boot
  if b.stage ≠ 2 ∨ !b.selected ∨ b.core then s else
  let i := runningSlot s
  if bundleErr s i ≠ 0 then slotFails (imageBad s i (bundleErr s i))
  else pairing { s with boot := { b with
    core := true, sfw := compVersion s i 0, rmc := compVersion s i 1, tmi := compVersion s i 2 } }

def execSfwVerified (s : State) : Result := .next (sfwVerified s)

/-- Milliseconds since stage-2 entry, saturating (BT_TIMES). -/
def bootMs (s : State) : Nat := min ((s.now - s.boot.stage2At) / 1200000) 65535

/-- The bond report as words: the drive entries, then the monitor words (R95, R96). -/
def monWord (s : State) (k : Nat) : Word :=
  let c (j : Nat) : Nat := (tabGet (fun _ => (3 : BitVec 2)) s.boot.mons (4 * k + j)).toNat
  pack [(0, 2, c 0), (8, 2, c 1), (16, 2, c 2), (24, 2, c 3)]
def bondWord (s : State) (i : Nat) : Word :=
  if i < 32768 then tabGet (fun _ => 0) s.boot.bond i else if i ≤ 36863 then monWord s (i - 32768) else 0
def bondReport (s : State) : List Word := (List.range 36864).map (bondWord s)

/-- The pads whose class was OK in an earlier report and is not now, as indices of the bond report (R95, R96). -/
def movedFromOk (s : State) (drv : Tab Word) (mons : Tab (BitVec 2)) : List Nat :=
  (s.boot.bond.filter (fun p => fld p.2 0 3 != 0 && fld (tabGet (fun _ => (0 : Word)) drv p.1) 0 3 == 0)).map (·.1) ++
  (mons.filter (fun p => p.2 == 0 && tabGet (fun _ => (3 : BitVec 2)) s.boot.mons p.1 != 0)).map (fun p => 32768 + p.1 / 4)

/-- The bond report is compared with the previous one, and is the previous one of the next (R96). -/
def bondCompare (s : State) : State :=
  let moved := match s.flash.bondPrev with
    | none => []
    | some (drv, mons) => movedFromOk s drv mons
  let s := { s with flash := { s.flash with bondPrev := some (s.boot.bond, s.boot.mons) } }
  match moved with
  | [] => s
  | i :: _ => post s pgBOOT 4 (BitVec.ofNat 32 i)

/-- STAGE3_ENTRY (R80, R96, R472): the core is verified, pairing is not HELD, the Bore is initialised, and the SFW has its queues
live. -/
def stage3 (s : State) (queuesLive : Bool) : State :=
  let b := s.boot
  if !queuesLive ∨ b.stage ≠ 2 ∨ !b.core ∨ b.holdWhy ≠ 0 ∨ (b.outcome ≠ 1 ∧ b.outcome ≠ 2) ∨ !s.bore.climbDone then s else
  let b := if b.running then { b with failB := 0 } else { b with failA := 0 }
  let s := putReg { s with boot := { b with stage := 3 } } (ro pgBOOT 0x68) 0 16 (bootMs s)
  let s := journal s 1 [btStage s, btSlot s, btPair s, s.boot.sfw]
  if b.padDone then bondCompare (journal s 6 (bondReport s)) else s

def execStage3Entry (queuesLive : Bool) (s : State) : Result := .next (stage3 s queuesLive)

/-- STAGE3_DEADLINE (R99): 400 ms have passed at stage 2 with a booted slot that HELD does not keep there (R105). -/
def execStage3Deadline (s : State) : Result :=
  .next (if s.boot.stage = 2 ∧ s.boot.selected ∧ s.boot.holdWhy ≠ 1 ∧ s.boot.stage2At + 480_000_000 ≤ s.now then slotFails s else s)

/-- TRIAL_EXPIRED (R99). -/
def execTrialExpired (s : State) : Result := .next (if s.boot.trial then slotFails s else s)

/-- CORE_WATCHDOG (R82, R99): a trial fails, or the core alone restarts. -/
def execCoreWatchdog (s : State) : Result :=
  .next (if !s.boot.core then s else if s.boot.trial then slotFails s else coreRestart s)

/-- CORE_RESTART_DONE (R82). -/
def execCoreRestartDone (s : State) : Result :=
  .next (if s.boot.restarting && s.boot.selected then { s with boot := { s.boot with core := true, restarting := false } } else s)

/-- STAGE4_CAL_LOAD (R613): the stage-4 load of one kind, which waits for a command of its page. -/
def calLoad (s : State) (k : Nat) : State :=
  if s.boot.stage ≠ 3 ∨ !coreRuns s ∨ tabBusy s k ∨ s.boot.calLoaded.contains k then s else
  let s := tabClimbLoad s k
  let s := { s with boot := { s.boot with calLoaded := s.boot.calLoaded ++ [k] } }
  if k = kMS then measStart s else s

def execStage4CalLoad (kind : Fin 6) (s : State) : Result := .next (calLoad s kind.val)

/-- STAGE4_ENTRY (R80, R340, R341): the link has its push, every kind is loaded and the model is warm; the loops resume. -/
def execStage4Entry (s : State) : Result :=
  .next (if s.boot.stage = 3 ∧ coreRuns s ∧ idlUp s ∧ s.idl.pushOk ∧ (List.range 6).all (s.boot.calLoaded.contains ·) ∧ modelWarm s then
    loopResumeAll (putReg { s with boot := { s.boot with stage := 4 } } (ro pgBOOT 0x68) 16 16 (bootMs s))
  else s)

/-! ### BT_CTRL (R101, R106, R119, R121) -/

/-- A write of BT_CTRL. One with the right KEY and no action bit does nothing (DESIGN CHOICE, log 37). -/
def btCtrl (s : State) (v : Word) : State :=
  let b := s.boot
  if fld v 16 16 ≠ 0xB007 then badEncoding s pgBOOT 0x44
  else match fld v 0 3 with
    | 0 => s
    | 1 =>
      if !b.trial then bootRefused s 0x44
      else setSlotState { s with boot := { b with trial := false, pref := b.running } } (runningSlot s) .valid
    | 2 =>
      if (b.stateA = .pending ∨ b.stateB = .pending) ∧ b.updCmd = 0 then warm s 5 else bootRefused s 0x44
    | 4 =>
      if b.outcome ≠ 3 then bootRefused s 0x44 else
      let i := runningSlot s
      let s := { s with boot := { b with
        outcome := 2, forced := true, forcedAt := pairKey s i, feat := pairFeatures s i 2,
        holdWhy := if b.holdWhy = 1 then 0 else b.holdWhy } }
      redoAll (journal (post s pgBOOT 3 (b.outOfRange.setWidth 32) 2) 8 [btPair s, 0, 0, 0])
    | _ => badEncoding s pgBOOT 0x44

def execBtConfirm (fn : Fn) (key : BitVec 16) (s : State) : Result :=
  .next (wr s fn pgBOOT 0x44 0 (fun s => btCtrl s (pack [(0, 3, 1), (16, 16, key.toNat)])))
def execBtActivate (fn : Fn) (key : BitVec 16) (s : State) : Result :=
  .next (wr s fn pgBOOT 0x44 0 (fun s => btCtrl s (pack [(0, 3, 2), (16, 16, key.toNat)])))
def execBtForcePair (fn : Fn) (key : BitVec 16) (s : State) : Result :=
  .next (wr s fn pgBOOT 0x44 0 (fun s => btCtrl s (pack [(0, 3, 4), (16, 16, key.toNat)])))

/-! ### Pad test and bond report (R91 to R97, R122) -/

/-- The class of a measured drive pad by R94, from its resistance and COMPL. -/
def padClass (lo hi r : Nat) (compl : Bool) : Nat :=
  if compl ∨ r = 4095 then 1 else if r < 50 then 2 else if r < lo then 3 else if hi < r then 4 else 0

/-- R = V / I of the mean of four conversions, rounded to 1 ohm and saturating (R91): the sum is in 0.78125 uV, the current in
0.3125 nA. -/
def padOhms (sum : Int) (i : Nat) : Nat := min ((2 * 625 * sum.toNat + i) / (2 * i)) 4095

/-- A drive entry (R91, R92, R94): `i` is the channel's current in 0.3125 nA, the lower rail is in 100 uV. -/
def bondEntry (lo hi : Nat) (fused : Bool) (i vLow : Nat) (m : PadMeas) : Word :=
  if fused then pack [(0, 3, 6), (3, 1, b2n m.compl)]
  else if i < 32000 then pack [(0, 3, 5), (3, 1, b2n m.compl)]
  else
    let r := padOhms m.sum i
    let c := padClass lo hi r m.compl
    if c = 1 then pack [(0, 3, 1), (3, 1, b2n m.compl), (4, 12, 4095)]
    else
      let head := if r = 0 then 65535 else min ((vLow - 3500) * 800 / r) 65535
      pack [(0, 3, c), (3, 1, b2n m.compl), (4, 12, r), (16, 16, head)]

/-- The class of a monitor pad (R93). -/
def monClass (m : MonMeas) : BitVec 2 :=
  if 600000 ≤ m.plus.natAbs ∨ 600000 ≤ m.minus.natAbs then 1 else if (m.plus - m.minus).natAbs < 2000 then 2 else 0

/-- R_LO and R_HI. -/
def rLo (s : State) : Nat := regFld s (ro pgBOOT 0x74) 0 12
def rHi (s : State) : Nat := regFld s (ro pgBOOT 0x74) 16 12

/-- The pads of the tiles under test take their entries, and the modulators and loops go on (R91 to R94, R122, R287, R341);
those of a tile whose TG domain is off keep what they have (DESIGN CHOICE, log 37). -/
def padTest (s : State) (vLow : Nat) (dflt : PadMeas) (drv : List (Nat × PadMeas)) (monDflt : MonMeas)
    (mon : List (Nat × MonMeas)) : State :=
  let under (t : Nat) : Bool := s.boot.padTiles.getLsbD t && tileOn s t
  let entry (ch : Nat) (old : Word) : Word :=
    if !under (ch / 1024) then old else
    let c := chan s ch
    bondEntry (rLo s) (rHi s) (c.fuse != .clear) (codeCurrent c.code.toNat c.range) vLow ((drv.lookup ch).getD dflt)
  let cls (m : Nat) (old : BitVec 2) : BitVec 2 := if !under (m / 512) then old else monClass ((mon.lookup m).getD monDflt)
  let bond := tabMap (fun _ => 0) s.boot.bond 0 32768 entry
  let mons := tabMap (fun _ => (3 : BitVec 2)) s.boot.mons 0 16384 cls
  let tiles := bitsOf s.boot.padTiles.toNat 32
  let s := { s with boot := { s.boot with bond := bond, mons := mons, padRun := false, padDone := true, padTiles := 0 } }
  tiles.foldl (fun s t => (List.range' (t * 32) 32).foldl loopResume (padHoldTile s t false)) s

/-- PAD_TEST_DONE: the test after the park strobe ends. -/
def execPadTestDone (vLow : Nat) (dflt : PadMeas) (drv : List (Nat × PadMeas)) (monDflt : MonMeas) (mon : List (Nat × MonMeas))
    (s : State) : Result :=
  .next (if s.boot.padRun ∧ !s.boot.padDone then padTest s vLow dflt drv monDflt mon else s)

/-- PADTEST_REPEAT_DONE: a test that BT_PADTEST started ends. -/
def execPadtestRepeatDone (vLow : Nat) (dflt : PadMeas) (drv : List (Nat × PadMeas)) (monDflt : MonMeas)
    (mon : List (Nat × MonMeas)) (s : State) : Result :=
  .next (if s.boot.padRun ∧ s.boot.padDone then padTest s vLow dflt drv monDflt mon else s)

/-- A write of BT_PADTEST (R122). -/
def padtestWrite (s : State) (v : Word) : State :=
  if !bit v 8 then s
  else if anyArmed s then bootRefused s 0x80
  else
    let tiles : Word := if bit v 5 then allTiles else BitVec.ofNat 32 (2 ^ fld v 0 5)
    let s := { s with boot := { s.boot with padRun := true, padTiles := s.boot.padTiles ||| tiles } }
    (bitsOf tiles.toNat 32).foldl (fun s t => padHoldTile s t true) s

def execBtPadtestStart (fn : Fn) (v : Word) (s : State) : Result := .next (wr s fn pgBOOT 0x80 0 (fun s => padtestWrite s v))

/-- A write of BT_BOND_LIM: entries of class OK, LOW or HIGH are classified again (R97). -/
def bondLimWrite (s : State) (v : Word) : State :=
  if fld v 16 12 ≤ fld v 0 12 then badEncoding s pgBOOT 0x74 else
  let s := writeReg s (ro pgBOOT 0x74) v
  let again (w : Word) : Word :=
    if fld w 0 3 = 0 ∨ fld w 0 3 = 3 ∨ fld w 0 3 = 4 then put w 0 3 (padClass (rLo s) (rHi s) (fld w 4 12) false) else w
  { s with boot := { s.boot with bond := (s.boot.bond.map (fun p => (p.1, again p.2))).filter (fun p => decide (p.2 ≠ 0)) } }

def execBtBondLimWrite (fn : Fn) (v : Word) (s : State) : Result := .next (wr s fn pgBOOT 0x74 0 (fun s => bondLimWrite s v))

/-- A read of BT_BOND_DATA returns the entry and advances IDX (R95). -/
def bondDataRead (s : State) : Word × State :=
  let i := regFld s (ro pgBOOT 0x78) 0 16
  (bondWord s i, putReg s (ro pgBOOT 0x78) 0 16 (if 36863 ≤ i then 0 else i + 1))

def execBtBondDataRead (fn : Fn) (s : State) : Result := .next (rd s fn pgBOOT 0x7C bondDataRead)

/-- BT_BOND_SUM and BT_BOND_SUM2. -/
def bondSum (s : State) : Word :=
  let bad := (s.boot.bond.filter (fun p => fld p.2 0 3 ∈ [1, 2, 3, 4, 6])).length
  let mon := (s.boot.mons.filter (fun p => p.2 = 1 ∨ p.2 = 2)).length
  pack [(0, 16, bad), (16, 16, mon)]
def bondSum2 (s : State) : Word :=
  pack [(0, 16, (s.boot.bond.filter (fun p => fld p.2 0 3 = 5)).length), (16, 1, b2n s.boot.padDone), (17, 1, b2n s.boot.padRun)]

/-! ### Updates (R116 to R120) -/

/-- BT_UPD_STAT. -/
def updStat (s : State) : Word :=
  let b := s.boot
  pack [(0, 1, b2n (b.updCmd != 0)), (1, 3, b.updErr.toNat), (4, 2, b.forecast.toNat), (8, 3, b.featForecast.toNat)]

/-- OFF and LEN are within R116. -/
def updRangeOk (off len : Nat) : Bool :=
  off % 4096 == 0 && len % 4096 == 0 && decide (len ≤ 0x4_0000) && decide (off + len ≤ 0x80_0000)

/-- A write of BT_UPD_CTRL: WRITE, SEAL or ABORT (R116 to R118, R120). ABORT with no command running is refused while only the
running slot is PENDING (DESIGN CHOICE, log 37). -/
def updCtrl (s : State) (cmd : Nat) : State :=
  let b := s.boot
  let off := (getReg s (ro pgBOOT 0x84)).toNat
  let len := (getReg s (ro pgBOOT 0x88)).toNat
  match cmd with
  | 1 =>
    if b.updCmd ≠ 0 then bootRefused s 0x8C
    else if !updRangeOk off len then { s with boot := { b with updErr := 1 } }
    else if len = 0 then { s with boot := { b with updErr := 0 } }
    else
      let s := { s with boot := { b with
        updCmd := 1, updErr := 0, updStarted := true, updOff := off, updLen := len } }
      if b.updStarted then s else setSlotState s (targetSlot s) .empty
  | 2 =>
    if b.updCmd ≠ 0 then bootRefused s 0x8C
    else { s with boot := { b with updCmd := 2, updErr := 0, updStarted := false, forecast := 0, featForecast := 0 } }
  | 3 =>
    if b.updCmd ≠ 0 then { s with boot := { b with updAbort := true } }
    else if slotState s (targetSlot s) = .pending then
      setSlotState { s with boot := { b with updStarted := false } } (targetSlot s) .empty
    else bootRefused s 0x8C
  | _ => badEncoding s pgBOOT 0x8C

def execBtUpdWrite (fn : Fn) (s : State) : Result := .next (wr s fn pgBOOT 0x8C 0 (fun s => updCtrl s 1))
def execBtUpdSeal (fn : Fn) (s : State) : Result := .next (wr s fn pgBOOT 0x8C 0 (fun s => updCtrl s 2))
def execBtUpdAbort (fn : Fn) (s : State) : Result := .next (wr s fn pgBOOT 0x8C 0 (fun s => updCtrl s 3))

/-- The BOOT partition can be programmed. -/
def bootWritable (s : State) : Bool := domOn s 9 && s.flash.state == .ready

/-- The first `len` bytes of the running WRITE enter the target slot; the Bool says that their words passed parity (R116, R393). -/
def updProgram (s : State) (len : Nat) : State × Bool :=
  let r := parSpan s 0x110_0000 len
  let s := r.1
  let off := slotAt (targetSlot s) + s.boot.updOff
  if !r.2 then r
  else (notePrograms { s with flash := { s.flash with
    boot := cellsInto s.flash.boot off len (cellsFrom s.bore.mem 0x110_0000 len off) } } 0 off len, true)

/-- UPD_WRITE_DONE: the chunk is in the target slot, or the medium failed (R116). -/
def updWriteDone (s : State) (ok : Bool) : State :=
  if s.boot.updCmd ≠ 1 ∨ s.boot.updAbort then s else
  let r := if ok && bootWritable s then updProgram s s.boot.updLen else (s, false)
  { r.1 with boot := { r.1.boot with updCmd := 0, updErr := if r.2 then 0 else 2 } }

def execUpdWriteDone (ok : Bool) (s : State) : Result := .next (updWriteDone s ok)

/-- UPD_SEAL_DONE: the checks, the forecast, and PENDING when header, CRC and digest are right (R118). -/
def updSealDone (s : State) (ok : Bool) : State :=
  let b := s.boot
  let t := targetSlot s
  if b.updCmd ≠ 2 ∨ b.updAbort then s
  else if !ok || !bootWritable s then { s with boot := { b with updCmd := 0, updErr := 2 } }
  else
    let err := bundleErr s t
    if err ≠ 0 then imageBad { s with boot := { b with updCmd := 0, updErr := BitVec.ofNat 3 err } } t err
    else
      let out := pairOutcome s t
      setSlotState { s with boot := { b with updCmd := 0, forecast := out, featForecast := pairFeatures s t out } } t .pending

def execUpdSealDone (ok : Bool) (s : State) : Result := .next (updSealDone s ok)

/-- The 4 KiB pages that a WRITE of `len` bytes has programmed when it stops after the one being programmed: one at least, and how
many is a free value (R120, log 5). -/
def pagesDone (s : State) (len : Nat) : Nat := (freeWord s).toNat % ((len + 4095) / 4096) + 1

/-- UPD_ABORT_DONE (R120): the pages that a WRITE has programmed stay; the slot is EMPTY. -/
def updAbortDone (s : State) : State :=
  if !s.boot.updAbort then s else
  let s := if s.boot.updCmd = 1 && bootWritable s then
      (updProgram (tick s) (min (pagesDone s s.boot.updLen * 4096) s.boot.updLen)).1
    else s
  setSlotState { s with boot := { s.boot with
    updCmd := 0, updAbort := false, updStarted := false, updErr := 6 } } (targetSlot s) .empty

def execUpdAbortDone (s : State) : Result := .next (updAbortDone s)

end Sys2Proof.Machine
end

