-- ==== Sys2Proof/Machine/FeedPages.lean ====
section
/-! DEFINITION. The seven pages of the feed die as the feed die itself reads and writes them, for the IDL and for its SMBus port
(R77, R113, R327, R444, R445, R449, R452, R505, R519, R579). Offsets are BAR0 byte offsets, 0x10_0000 to 0x10_6FFC. -/

namespace Sys2Proof.Machine

/-! ### Reads -/

/-- FD_STATE: FIELD_ZERO is the stored bit 9. -/
def fdStateWord (s : State) (f : Feed) : Word :=
  let g := feed s f
  pack [(0, 4, g.state.code), (4, 1, b2n g.pres), (5, 1, b2n g.inWindow), (6, 1, b2n g.sag), (7, 1, b2n g.sagSust),
    (8, 1, b2n g.gateEnh), (9, 1, regFld s (ro (pgFEED f) 0x44) 9 1), (10, 4, g.lastKind.toNat)]

/-- SH_STATE. -/
def shStateWord (s : State) : Word := pack [(0, 3, s.fd.share.code), (3, 1, b2n s.fd.atLimit), (4, 1, b2n s.fd.busSag)]

/-- SH_RATIO: A_PERMILLE is stored; the target of a feed that is on is 25 mV and what the sharing loop adds (R56). -/
def shRatioWord (s : State) : Word :=
  let target (g : FeedSt) (r : BitVec 8) : Nat := if g.state.isOn then 25 + r.toNat else 0
  put (put (getReg s (ro pgSHARE 0x48)) 16 8 (target s.feedA s.fd.raiseA)) 24 8 (target s.feedB s.fd.raiseB)

/-- PS_STATE: FIELD_ZERO is the stored bit 12. -/
def psStateWord (s : State) : Word :=
  pack [(0, 4, s.rails.state.code), (4, 4, s.rails.consec.toNat), (8, 4, s.rails.failed.toNat),
    (12, 1, regFld s (ro pgPSEQ 0x44) 12 1)]

/-- FS_PUSH: PUSHES and MERGED are stored. -/
def fsPushWord (s : State) : Word :=
  put (put (getReg s (ro pgFSYS 0x4C)) 16 1 (b2n (idlUp s))) 17 8 (min s.fd.held.length 255)

/-- A page of a feed: block registers. -/
def feedReadFeed (s : State) (f : Feed) (o : Nat) : Word := match o with
  | 0x40 => pack [(0, 1, b2n (feed s f).off)]
  | 0x44 => fdStateWord s f
  | _ => getReg s (ro (pgFEED f) o)

/-- The TRIP page; a read of TR_RD_DATA advances IDX. -/
def feedReadTrip (s : State) (o : Nat) : Word × State := match o with
  | 0x44 => (trStatWord s, s)
  | 0x48 => (BitVec.ofNat 32 s.fd.capTick, s)
  | 0x4C => (BitVec.ofNat 32 (s.fd.capTick / 2 ^ 32), s)
  | 0x54 => trRdData s
  | 0x58 => (trRecWord s.feedA.tr, s)
  | 0x5C => (trRecWord s.feedB.tr, s)
  | 0x60 => (pack [(0, 12, s.fd.vHold.toNat), (12, 1, b2n s.fd.recValid)], s)
  | _ => (getReg s (ro pgTRIP o), s)

/-- The METER page; a read of an energy's low word copies the high word into its shadow (R319). -/
def feedReadMeter (s : State) (o : Nat) : Word × State := match o with
  | 0x80 => energyLoRead s 0
  | 0x88 => energyLoRead s 1
  | 0x90 => energyLoRead s 2
  | 0x84 => (tabGet (fun _ => 0) s.fd.eShadow 0, s)
  | 0x8C => (tabGet (fun _ => 0) s.fd.eShadow 1, s)
  | 0x94 => (tabGet (fun _ => 0) s.fd.eShadow 2, s)
  | _ => (getReg s (ro pgMETER o), s)

/-- A read of a feed page by the feed die; a write-only or reserved offset reads 0 (R12, R13). -/
def feedRead (s : State) (off : Nat) : Word × State :=
  let page := off / 4096
  let o := off % 4096
  if o < 0x40 then (headerWord s page o, s) else
  match regRow off with
  | none => (0, s)
  | some r => if r.acc = .wo then (0, s) else
    match page with
    | 0x100 => (if o = 0x4C then fsPushWord s else getReg s off, s)
    | 0x101 => (feedReadFeed s .a o, s)
    | 0x102 => (feedReadFeed s .b o, s)
    | 0x103 => (if o = 0x44 then shStateWord s else if o = 0x48 then shRatioWord s else getReg s off, s)
    | 0x104 => feedReadMeter s o
    | 0x105 => feedReadTrip s o
    | _ => (match o with
      | 0x44 => psStateWord s
      | 0x48 => pack [(0, 6, s.rails.en.toNat), (8, 6, s.rails.pg.toNat)]
      | _ => getReg s off, s)

/-! ### Protection changes (R444, R452) -/

/-- PG_LOCK keeps its writable bits. -/
abbrev lockMask : Word := 0x0000_0666

/-- An accepted write of a PG_LOCK or a PR register: PR_GEN counts, PROT_CHANGE reports and JOURNAL will hold it (R452; log 9). -/
def protChanged (s : State) (off : Nat) (v : Word) (fn : Nat) : State :=
  if !driveOn s then s else
  let s := bumpReg s (ro pgPROT 0x48) 0 32
  journal (post s pgPROT 1 (BitVec.ofNat 32 off)) 7 [BitVec.ofNat 32 off, v, BitVec.ofNat 32 fn]

/-- A write of PG_LOCK. -/
def lockWrite (s : State) (page : Nat) (v : Word) (fn : Nat) : State :=
  protChanged (setReg s (ro page 0x28) (v &&& lockMask)) (ro page 0x28) v fn

/-! ### Writes -/

/-- A write to a feed page's block register takes effect. -/
def feedStoreReg (s : State) (off : Nat) (v : Word) : State :=
  let o := off % 4096
  match off / 4096 with
  | 0x100 => if o = 0x48 ∧ v = 0xC1A5 then frst s else s
  | 0x101 => if o = 0x40 then fdCtrl s .a (bit v 0) (bit v 1) (bit v 2) else if o = 0x50 then fastTripWrite s .a v else writeReg s off v
  | 0x102 => if o = 0x40 then fdCtrl s .b (bit v 0) (bit v 1) (bit v 2) else if o = 0x50 then fastTripWrite s .b v else writeReg s off v
  | 0x103 => if o = 0x40 then shCtrl s v else writeReg s off v
  | 0x104 => if o = 0xC0 then mtScWrite s v else meterWrite s o v
  | 0x105 => if o = 0x40 ∧ bit v 0 then trReleaseFx s (bit v 1) else writeReg s off v
  | _ => if o = 0x40 then psCtrl s v else writeReg s off v

/-- A write to a feed page takes effect at P0; `fn` is the function it came from, for the record of a lock change. -/
def feedStore (s : State) (off : Nat) (v : Word) (fn : Nat) : State :=
  let page := off / 4096
  let o := off % 4096
  if o = 0x28 then lockWrite s page v fn
  else if o < 0x40 then headerWrite s page o v
  else match regRow off with
    | none => s
    | some r => if r.acc = .rw ∨ r.acc = .wo then feedStoreReg s off v else s

/-- The offset takes writes: a header register or an RW or WO register (R77, R327, R505). -/
def feedWritable (off : Nat) : Bool :=
  let o := off % 4096
  if o < 0x40 then o ∈ [0x14, 0x18, 0x1C, 0x20, 0x24, 0x28]
  else match regRow off with
    | none => false
    | some r => r.acc == .rw || r.acc == .wo

/-- PG_LOCK of a feed page excludes a level (R444, R445). -/
def feedLocked (s : State) (off priv : Nat) (write : Bool) : Bool :=
  priv != 0 && bit (getReg s (ro (off / 4096) 0x28)) (priv + if write then 0 else 4)

/-- A write is refused at its PRIV (R77, R113, R327, R445). -/
def feedRefuses (s : State) (off priv : Nat) : Bool := (priv != 0 && feedWritable off) || feedLocked s off priv true

/-- A write that a feed page discards with REFUSED_SETTING (R75, R76). -/
def settingRefused (s : State) (off : Nat) (v : Word) : Bool :=
  let f : Feed := if off / 4096 = 0x101 then .a else .b
  if off / 4096 ≠ 0x101 ∧ off / 4096 ≠ 0x102 then false
  else match off % 4096 with
    | 0x40 =>
      let clr := bit v 2 && (feed s f).tr.latched && !clrLatchOk s f
      clr || (bit v 0 && offRefused s f (bit v 1))
    | 0x50 =>
      let x := fld v 0 8
      decide (20 ≤ x ∧ x ≤ 250 ∧ (x * 100 : Int) < signed 16 (regFld s (ro (pgFEED f) 0x60) 0 16) + 1000)
    | _ => false

end Sys2Proof.Machine
end

