-- ==== Sys2Proof/Machine/Pages.lean ====
section
/-! DEFINITION. Reads of the drive-die pages: each register as the page tables compose it from the state, and the effects that a
read has (the page tables of chapters 03 to 18, R12, R13, R575). -/

namespace Sys2Proof.Machine

/-- Bits of a list of naturals as a word. -/
def bitWord (n : Nat) (p : Nat → Bool) : Word := BitVec.ofNat 32 (maskOf ((List.range n).filter p))

/-! ### DAO, host and protection pages -/

/-- SYS. -/
def readSys (s : State) (o : Nat) : Word := match o with
  | 0x5C => Config.dsnLo
  | 0x60 => Config.dsnHi
  | _ => getReg s (ro pgSYS o)

/-- CK_DRONE: LOCKED beside the stored ERR and TRIM. -/
def ckDrone (s : State) : Word :=
  let near := match s.idl.droneAt with | some t => decide (s.droneD < t + 2048) | none => false
  put (getReg s (ro pgCLK 0x54)) 8 1 (b2n (idlUp s && near && decide ((droneErr s).natAbs ≤ 2)))

/-- CLK. -/
def readClk (s : State) (o : Nat) : Word := match o with
  | 0x44 => ckStat s
  | 0x54 => ckDrone s
  | _ => getReg s (ro pgCLK o)

/-- PWR; a read of PW_MAXLVL clears it. -/
def readPwr (s : State) (o : Nat) : Word × State := match o with
  | 0x44 => (pwStat s, s)
  | 0x48 => (pwReq s, s)
  | 0x50 => maxlvlRead s
  | 0x54 => (pack [(0, 10, s.power.vcore.toNat), (16, 10, s.power.vcoreMin.toNat)], s)
  | 0x5C => (BitVec.ofNat 32 s.power.dom.toNat, s)
  | 0x60 => (s.power.l6Mask, s)
  | _ => (getReg s (ro pgPWR o), s)

/-- A page has a sticky bit set. -/
def pending (s : State) (page : Nat) : Bool := isPage page && getReg s (ro page 0x1C) != 0

/-- BELL. -/
def readBell (s : State) (o : Nat) : Word :=
  let b := s.bell
  let shid := regFld s (ro pgBELL 0x70) 0 6
  match o with
  | 0x44 => pack [(0, 1, b2n b.ringLive), (1, 1, b2n b.parkHold), (2, 9, b.store.length), (16, 6, b.shadows.length)]
  | 0x60 => BitVec.ofNat 32 (tabGet (fun _ => (0 : BitVec 16)) b.refused (regFld s (ro pgBELL 0x5C) 0 9)).toNat
  | 0x64 => bitWord 24 (pending s)
  | 0x68 => bitWord 32 (fun t => pending s (pgTILE t))
  | 0x6C => bitWord 7 (fun p => pending s (0x100 + p))
  | 0x74 => (b.origins.lookup shid).getD 0xFFFF_FFFF
  | 0x78 => match b.shadows.lookup shid with
    | some x => pack [(0, 7, (x.closeAt - s.now + 1199) / 1200), (31, 1, 1)]
    | none => 0
  | 0x80 => bitWord 32 (fun i => (b.shadows.lookup i).isSome)
  | 0x84 => bitWord 32 (fun i => (b.shadows.lookup (i + 32)).isSome)
  | _ => getReg s (ro pgBELL o)

/-- HOST; a reserved HS_RT_IDX selects nothing. -/
def readHost (s : State) (o : Nat) : Word := match o with
  | 0x40 => hsLink s
  | 0x50 => let p := regFld s (ro pgHOST 0x4C) 0 9
            if isPage p then route s p else 0
  | 0x58 => put (getReg s (ro pgHOST 0x58)) 0 7 (0x48 + Config.dAddr.toNat)
  | _ => getReg s (ro pgHOST o)

/-- BOOT; a read of BT_BOND_DATA advances IDX. -/
def readBoot (s : State) (o : Nat) : Word × State := match o with
  | 0x40 => (btStage s, s)
  | 0x48 => (btSlot s, s)
  | 0x4C => (btPair s, s)
  | 0x50 => (s.boot.sfw, s)
  | 0x54 => (s.boot.rmc, s)
  | 0x58 => (s.boot.tmi, s)
  | 0x60 => (s.boot.fiv, s)
  | 0x64 => (btIdl s, s)
  | 0x6C => (bondSum s, s)
  | 0x70 => (bondSum2 s, s)
  | 0x7C => bondDataRead s
  | 0x90 => (updStat s, s)
  | _ => (getReg s (ro pgBOOT o), s)

/-- PK_PARKED, bit t: every channel of tile t that is not fused has AT_PARK. -/
def tileParked (s : State) (t : Nat) : Bool :=
  (tileChans t).all (fun ch => (chan s ch).fuse != .clear || (chan s ch).atPark)

/-- PARK; a read of PK_DATA advances PAIR. -/
def readPark (s : State) (o : Nat) : Word × State :=
  let p := s.park
  match o with
  | 0x4C => (pack [(0, 1, b2n (parkStatBusy s)), (1, 1, b2n p.loaded), (2, 2, p.copyUsed.toNat), (4, 4, p.lastErr.toNat),
      (8, 1, b2n p.dirty), (12, 4, p.lastCause.toNat)], s)
  | 0x50 => (bitWord 32 (tileParked s), s)
  | 0x58 => parkDataRead s
  | 0x5C => (pack [(0, 16, p.copy0.gen.toNat), (16, 16, p.copy1.gen.toNat)], s)
  | 0x60 => (BitVec.ofNat 32 p.copy0.cycles.toNat, s)
  | 0x64 => (BitVec.ofNat 32 p.copy1.cycles.toNat, s)
  | _ => (getReg s (ro pgPARK o), s)

/-- IDL. -/
def readIdl (s : State) (o : Nat) : Word := match o with
  | 0x44 => pack [(0, 2, match s.idl.state with | .down => 0 | .training => 1 | .up => 2), (4, 3, s.idl.lanes.toNat),
      (8, 8, s.idl.ver.toNat), (16, 1, b2n s.idl.pushOk)]
  | _ => getReg s (ro pgIDL o)

/-! ### TILE pages -/

/-- TL_CH_STAT of a channel. -/
def chStatWord (s : State) (ch : Nat) : Word :=
  let c := chan s ch
  pack [(0, 2, match c.fuse with | .clear => 0 | .fused => 1 | .locked => 2 | .off => 3), (2, 2, c.kind.toNat),
    (4, 2, c.consec.toNat), (6, 1, b2n c.limiting), (7, 1, b2n c.complLive), (8, 1, b2n c.shortFlag), (9, 1, b2n c.complFlag),
    (10, 1, b2n c.atPark), (11, 1, b2n (reed s (ch / 32)).onBackup), (12, 1, b2n c.iOk), (13, 1, b2n c.tongue.isSome),
    (14, 1, b2n c.pStale)]

/-- One bit per lane of a reed. -/
def laneMap (s : State) (t q : Nat) (p : ChanSt → Bool) : Word := bitWord 32 (fun l => p (chan s (t * 1024 + q * 32 + l)))

/-- TL_VA_STAT or TL_VB_STAT. -/
def valveWord (v : ValveState) (i : BitVec 12) : Word := pack [(0, 3, v.code), (16, 12, i.toNat)]

/-- TL_TP_END: cycles to the last end of a tongue in the tile. -/
def tpEnd (s : State) (t : Nat) : Word :=
  let ends := s.chans.filterMap (fun e => if e.1 / 1024 = t then e.2.tongue.map (·.endAt) else none)
  pack [(0, 16, min ((ends.foldl max 0) - s.now) 65535), (16, 4, (tile s t).lastSlot.toNat)]

/-- TL_STROBE_AGE. -/
def strobeAge (s : State) (t : Nat) : Word := match (tile s t).lastStrobe with
  | some n => BitVec.ofNat 32 (min (s.now - n) 65535)
  | none => 0xFFFF

/-- TL_TP_REED of a reed. -/
def tpReed (s : State) (r : Nat) : Word :=
  let x := reed s r
  pack [(0, 4, x.group.toNat), (16, 12, x.offset.toNat), (31, 1, b2n (reedPlays s r))]

/-- A TILE page; a read of TL_CH_PWR may advance LANE. -/
def readTile (s : State) (t o : Nat) : Word × State :=
  let x := tile s t
  let ch := selected s t
  let c := chan s ch
  match o with
  | 0x44 => (pack [(0, 1, b2n x.dark), (1, 1, regFld s (ro (pgTILE t) 0x44) 1 1), (2, 1, b2n (!x.backupFailed)),
      (16, 11, ((tileChans t).filter (fun i => (chan s i).fuse != .clear)).length)], s)
  | 0x4C => (BitVec.ofNat 32 c.cfg.toNat, s)
  | 0x50 => (chStatWord s ch, s)
  | 0x54 => (pack [(0, 16, c.code.toNat), (16, 1, b2n c.range), (17, 3, c.src.toNat)], s)
  | 0x58 => chPwrRead s t
  | 0x60 => (valveWord x.va x.iVa, s)
  | 0x64 => (valveWord x.vb x.iVb, s)
  | 0x6C => (pack [(0, 16, isum s t / mA), (16, 16, x.iVa.toNat + x.iVb.toNat)], s)
  | 0x70 => (bitWord 32 (fun q => (reed s (t * 32 + q)).onBackup), s)
  | 0x74 => (bitWord 32 (fun q => (reedChans (t * 32 + q)).any (fun i => (chan s i).kind == 3 && (chan s i).fuse != .clear)), s)
  | 0x400 => (pack [(0, 14, tileFree s t), (16, 16, maskOf (slotList.filter (holdsSpace s t)))], s)
  | 0x408 => (bitWord 32 (fun q => reedPlays s (t * 32 + q)), s)
  | 0x40C => (tpEnd s t, s)
  | 0x410 => (strobeAge s t, s)
  | _ =>
    if 0x100 ≤ o ∧ o < 0x180 then (laneMap s t ((o - 0x100) / 4) (fun c => c.fuse != .clear), s)
    else if 0x180 ≤ o ∧ o < 0x200 then (laneMap s t ((o - 0x180) / 4) (fun c => c.shortFlag || c.complFlag), s)
    else if 0x200 ≤ o ∧ o < 0x280 then (laneMap s t ((o - 0x200) / 4) (fun c => c.atPark), s)
    else if 0x480 ≤ o ∧ o < 0x500 then (tpReed s (t * 32 + (o - 0x480) / 4), s)
    else (getReg s (ro (pgTILE t) o), s)

/-! ### Pages of the fast domain -/

/-- The status register of a page with a table: BUSY, LOADED, DIRTY, LAST_CMD, LAST_ERR. -/
def tabStat (s : State) (k : Nat) : Word :=
  let x := tab s k
  pack [(0, 1, b2n (x.running != 0)), (1, 1, b2n x.loaded), (2, 1, b2n (x.dirty != 0)), (4, 4, x.lastCmd.toNat),
    (8, 4, x.lastErr.toNat)]

/-- STAB. -/
def readStab (s : State) (o : Nat) : Word := match o with
  | 0x44 => tabStat s kST
  | _ => getReg s (ro pgSTAB o)

/-- PLAN. -/
def readPlan (s : State) (o : Nat) : Word := match o with
  | 0x48 =>
    let best := (List.range 32).foldl (fun (b : Nat × Nat) t => if tileFree s t < b.1 then (tileFree s t, t) else b) (tileFree s 0, 0)
    pack [(0, 14, best.1), (16, 5, best.2)]
  | _ =>
    if 0x100 ≤ o ∧ o < 0x140 then slotWord (slot s ((o - 0x100) / 4))
    else if 0x140 ≤ o ∧ o < 0x180 then BitVec.ofNat 32 (slot s ((o - 0x140) / 4)).entries.length
    else if 0x180 ≤ o ∧ o < 0x1C0 then
      let x := slot s ((o - 0x180) / 4)
      pack [(0, 16, x.detailIdx.toNat), (16, 15, x.detailCh.toNat), (31, 1, b2n x.detailValid)]
    else getReg s (ro pgPLAN o)

/-- COMMIT. -/
def readCommit (s : State) (o : Nat) : Word := match o with
  | 0x4C => put (getReg s (ro pgCOMMIT 0x4C)) 0 16 (maskOf (s.reqs.map (·.1)))
  | _ => getReg s (ro pgCOMMIT o)

/-- BREATH; BR_LIVE reads 0 until a push has been applied. -/
def readBreath (s : State) (o : Nat) : Word := match o with
  | 0x5C => if s.idl.push0 = 0 ∧ s.idl.push1 = 0 then 0 else
    pack [(0, 8, itripLo s), (8, 8, ilim s), (16, 1, b2n (singlePushed s)), (17, 1, b2n (sagAny s)), (18, 1, b2n s.idl.pushOk),
      (24, 8, vBasis s)]
  | _ => getReg s (ro pgBREATH o)

/-- The shape that TG_PROBE names: the segments that play. -/
def probed (s : State) : List Seg := shapeSegs s (regFld s (ro pgTONGUE 0x58) 12 3) (regFld s (ro pgTONGUE 0x58) 0 12)

/-- A read of a probe register reads the probed shape's words with their parity; where one is not delivered, what it
reads is a free value (R250, R393; log 5). -/
def probeRead (s : State) : State × Bool :=
  parReads s (shapeAddr (regFld s (ro pgTONGUE 0x58) 12 3) (regFld s (ro pgTONGUE 0x58) 0 12)) 8

/-- TONGUE. -/
def readTongue (s : State) (o : Nat) : Word :=
  let x := tab s kTG
  match o with
  | 0x44 => pack [(0, 1, b2n (x.running != 0)), (1, 1, b2n x.loaded), (2, 6, x.dirty.toNat), (8, 4, x.lastCmd.toNat),
      (12, 4, x.lastErr.toNat), (16, 3, band s), (19, 1, b2n (shapesOn s))]
  | 0x5C => pack [(0, 16, segsLen (probed s)), (16, 4, (probed s).length),
      (20, 1, b2n (shapeLong s (regFld s (ro pgTONGUE 0x58) 12 3) (regFld s (ro pgTONGUE 0x58) 0 12)))]
  | 0x60 => match (probed s).map (·.amp) with
    | [] => 0
    | a :: l => pack [(0, 16, unsigned 16 (l.foldl max a)), (16, 16, unsigned 16 (l.foldl min a))]
  | _ => getReg s (ro pgTONGUE o)

/-- State code of an SQ (CMDQ page). -/
def sqState (s : State) (q : Nat) : Nat :=
  if (sq s q).draining then 2
  else if !bit (sqCtrl s q) 0 then 0
  else match s.cmdq.cmds.find? (fun c => c.sq == q) with
    | some c => if c.stage == .fenced then 3 else 1
    | none => if (sq s q).head == (sq s q).tail && inflight s q == 0 then 0 else 1

/-- CMDQ. -/
def readCmdq (s : State) (o : Nat) : Word :=
  let v := s.cmdq.ver
  match o with
  | 0x44 => pack [(0, 10, s.cmdq.cmds.length), (16, 10, s.cmdq.hwm.toNat), (31, 1, regFld s (ro pgCMDQ 0x44) 31 1)]
  | 0x50 => pack [(0, 8, v.1.toNat), (8, 8, v.2.1.toNat), (16, 8, v.2.2.toNat)]
  | _ =>
    if 0x100 ≤ o ∧ o < 0x500 ∧ o % 16 = 12 then
      let q := (o - 0x100) / 16
      pack [(0, 12, (sq s q).head.toNat), (12, 3, sqState s q), (16, 10, inflight s q),
        (26, 1, b2n (regFld s (ro pgCMDQ o) 26 2 != 0))]
    else if 0x500 ≤ o ∧ o < 0x900 ∧ o % 16 = 12 then
      let x := cq s ((o - 0x500) / 16)
      pack [(0, 12, x.tail.toNat), (12, 1, b2n x.phase), (16, 13, cqReserved s ((o - 0x500) / 16) + x.used)]
    else getReg s (ro pgCMDQ o)

/-- SLINK; a read of SL_TIME_LO takes the shadow. -/
def readSlink (s : State) (o : Nat) : Word × State := match o with
  | 0x44 => (slStat s, s)
  | 0x48 => (0x0020_1000 + BitVec.ofNat 32 s.shelf.pos.toNat, s)
  | 0x4C => slTimeLo s
  | 0x50 => (s.shelf.timeShadow, s)
  | 0x54 => (put (getReg s (ro pgSLINK 0x54)) 0 16 (unsigned 16 (satI 16 s.shelf.e16)), s)
  | 0x58 => (slSeg s .up, s)
  | 0x5C => (slSeg s .dn, s)
  | 0x60 => (slMembers s, s)
  | _ => (getReg s (ro pgSLINK o), s)

/-! ### Bore and flash -/

/-- BO_RETIRE. -/
def boRetire (s : State) : Word :=
  let best := (List.range 16).foldl (fun (b : Nat × Nat) k => if sparesFree s k < b.1 then (sparesFree s k, k) else b) (sparesFree s 0, 0)
  pack [(0, 7, best.1), (8, 4, best.2), (16, 10, min s.bore.retired.length 1023)]

/-- BORE. -/
def readBore (s : State) (o : Nat) : Word := match o with
  | 0x44 => pack [(0, 1, b2n s.bore.initDone), (1, 1, b2n s.bore.initRun), (4, 4, s.power.dom.toNat / 16), (16, 16, s.bore.ret.toNat)]
  | 0x54 => boRetire s
  | 0x5C => put (getReg s (ro pgBORE 0x5C)) 16 16 (s.bore.patrol / 256)
  | _ => getReg s (ro pgBORE o)

/-- HEAD or TAIL of the ring that NF_PART_IDX selects; 0 for BOOT and CAL. -/
def partOffset (s : State) (head : Bool) : Nat :=
  let p := regFld s (ro pgNVF 0x60) 0 4
  if p < 2 then 0 else if head then ringHead s.flash p else ringTail s.flash p

/-- NVF. -/
def readNvf (s : State) (o : Nat) : Word := match o with
  | 0x48 => pack [(0, 3, s.flash.state.code), (3, 1, b2n s.flash.readOnly), (4, 1, b2n s.flash.sparesLow),
      (5, 1, regFld s (ro pgNVF 0x48) 5 1),
      (8, 4, maskOf ((List.range 4).filter (fun c => regFld s (ro pgNVF 0x50) (4 * c) 4 != 0)))]
  | 0x64 => BitVec.ofNat 32 (partMib s.flash (regFld s (ro pgNVF 0x60) 0 4))
  | 0x68 => BitVec.ofNat 32 (partOffset s true)
  | 0x6C => BitVec.ofNat 32 (partOffset s true / 2 ^ 32)
  | 0x70 => BitVec.ofNat 32 (partOffset s false)
  | 0x74 => BitVec.ofNat 32 (partOffset s false / 2 ^ 32)
  | 0x84 => put (getReg s (ro pgNVF 0x84)) 20 12 (b5Hours s)
  | _ => getReg s (ro pgNVF o)

/-! ### Measurement, calibration and loops -/

/-- MEAS; a read of MS_TRIG_OVERRUN clears it. -/
def readMeas (s : State) (o : Nat) : Word × State :=
  let x := reed s (reedIdx s)
  match o with
  | 0x48 => (put (tabStat s kMS) 12 1 (regFld s (ro pgMEAS 0x48) 12 1), s)
  | 0x58 => (BitVec.ofNat 32 x.cfg.toNat, s)
  | 0x5C => (BitVec.ofNat 32 x.timer.toNat, s)
  | 0x60 => (BitVec.ofNat 32 x.drvDelay.toNat, s)
  | 0x68 => (pack [(0, 3, x.seq.code), (3, 1, b2n x.seqEmpty), (4, 1, b2n x.trigPend), (5, 1, b2n x.drvArmed),
      (6, 1, b2n x.urgent.isSome), (7, 1, b2n x.powered), (8, 6, x.entry.toNat), (14, 1, b2n x.hkLate), (15, 1, b2n x.fieldZero),
      (16, 16, x.passes.toNat)], s)
  | 0x6C => overrunRead s
  | 0x70 => (pack [(0, 16, x.badEnt.toNat), (16, 16, x.parity.toNat)], s)
  | 0x7C => (BitVec.ofNat 32 x.opens.toNat, s)
  | _ => (getReg s (ro pgMEAS o), s)

/-- The accumulator that AC_IDX selects. -/
def accIdx (s : State) : Nat := regFld s (ro pgACC 0x40) 0 10 * 64 + regFld s (ro pgACC 0x40) 16 6

/-- ACC. -/
def readAcc (s : State) (o : Nat) : Word := match o with
  | 0x44 => BitVec.ofNat 32 (accCfg s (accIdx s)).toNat
  | _ => getReg s (ro pgACC o)

/-- CAL; a read of CL_DATA may advance IDX. -/
def readCal (s : State) (o : Nat) : Word × State := match o with
  | 0x44 => coefRead s
  | 0x54 => (tabStat s kCL, s)
  | _ => (getReg s (ro pgCAL o), s)

/-- LOOP; a read of LP_CH_STAT may advance CH. -/
def readLoop (s : State) (o : Nat) : Word × State :=
  let ch := loopIdx s
  let l := loopCh s ch
  match o with
  | 0x58 => (BitVec.ofNat 32 l.cfg.toNat, s)
  | 0x5C => loopStatRead s
  | 0x60 => (BitVec.ofNat 32 (loopTarget l), s)
  | 0x64 => (pack [(0, 24, l.q.toNat), (24, 1, b2n l.fresh)], s)
  | 0x68 => (pack [(0, 16, l.base.toNat), (16, 16, l.lastTrim.toNat)], s)
  | 0x6C => (pack [(0, 16, l.firstDelta.toNat), (16, 16, l.updates.toNat)], s)
  | 0x74 => (tabStat s kLP, s)
  | _ =>
    if 0x100 ≤ o ∧ o < 0x180 then (loopNetWord s ((o - 0x100) / 4), s)
    else if 0x180 ≤ o ∧ o < 0x200 then (loopFrozenWord s ((o - 0x180) / 4), s)
    else (getReg s (ro pgLOOP o), s)

/-! ### Thermal pages -/

/-- TH_INV: the lowest invalid tile, why, and how many. -/
def thInv (s : State) : Word := match bitsOf s.thermal.invalid.toNat 32 with
  | [] => 0
  | t :: ts => pack [(0, 5, t), (8, 3, whyInvalid s t), (16, 6, ts.length + 1)]

/-- THM; reads of indexed data advance their index. -/
def readThm (s : State) (o : Nat) : Word × State :=
  let h := s.thermal
  match o with
  | 0x48 => (pack [(0, 12, (tabStat s kTH).toNat), (12, 1, b2n (modelWarm s)), (13, 1, b2n (xtOn s)),
      (14, 1, regFld s (ro pgTHM 0x48) 14 1)], s)
  | 0x54 => kDataRead s
  | 0x58 => (put (getReg s (ro pgTHM 0x58)) 16 10 h.warmCount.toNat, s)
  | 0x5C => (bitWord 32 (fun t => modelValid s t && modelWarm s), s)
  | 0x60 => (thInv s, s)
  | 0x68 => elTempRead s
  | 0x6C => (pack [(0, 16, h.xtEntries.toNat), (16, 16, h.xtDropped.toNat)], s)
  | 0x70 => (pack [(0, 16, h.xtClamp.toNat), (16, 16, h.xtLate.toNat)], s)
  | 0x78 => nodeRead s
  | _ =>
    if 0x100 ≤ o ∧ o < 0x180 then
      let x := tmaxOf s ((o - 0x100) / 4)
      (pack [(0, 16, temp10 x.temp), (16, 10, x.lane), (31, 1, b2n x.valid)], s)
    else if 0x180 ≤ o ∧ o < 0x200 then
      let t := (o - 0x180) / 4
      (pack [(0, 16, temp10 (baseTemp s t)), (16, 2, baseSource s t)], s)
    else (getReg s (ro pgTHM o), s)

/-- A diode is in 2 FAILED or 3 RANGE. -/
def diodeOut (s : State) (j : Nat) : Bool := (diode s j).state == .failed || (diode s j).state == .range

/-- TEMP. -/
def readTemp (s : State) (o : Nat) : Word × State :=
  let h := s.thermal
  let j := regFld s (ro pgTEMP 0x58) 0 6
  match o with
  | 0x4C => (pack [(0, 3, h.band.val), (6, 2, h.src.toNat), (8, 5, h.tile.toNat), (16, 16, temp10 h.tth)], s)
  | 0x50 => (pack [(0, 4, h.req.val), (4, 3, h.why.toNat), (16, 16, holdRem s)], s)
  | 0x54 => (pack [(0, 16, h.bandChanges.toNat), (16, 3, h.prevBand.val)], s)
  | 0x5C => (pack [(0, 16, temp10 (diode s j).td),
      (16, 2, match (diode s j).state with | .ok => 0 | .suspect => 1 | .failed => 2 | .range => 3), (18, 2, (diode s j).count.toNat)], s)
  | 0x60 => diodeERead s
  | 0x64 => (bitWord 32 (diodeOut s), s)
  | 0x68 => (bitWord 32 (fun i => diodeOut s (i + 32)), s)
  | _ => (getReg s (ro pgTEMP o), s)

/-! ### Any drive-die page -/

/-- A read of a drive-die register: header, block register, or 0 at a write-only or reserved offset (R12, R13). -/
def pageRead (s : State) (off : Nat) : Word × State :=
  let page := off / 4096
  let o := off % 4096
  if o < 0x40 then (headerWord s page o, s) else
  match regRow off with
  | none => (0, s)
  | some r => if r.acc = .wo then (0, s) else
    if pageKind page = 0x20 then readTile s (page - 0x20) o else
    match page with
    | 0x000 => (readSys s o, s)
    | 0x001 => (readClk s o, s)
    | 0x002 => readPwr s o
    | 0x003 => (readBell s o, s)
    | 0x005 => (readHost s o, s)
    | 0x006 => (readCmdq s o, s)
    | 0x007 => (readBore s o, s)
    | 0x008 => (readNvf s o, s)
    | 0x009 => readPark s o
    | 0x00A => (readStab s o, s)
    | 0x00B => (readPlan s o, s)
    | 0x00C => (readCommit s o, s)
    | 0x00D => (readBreath s o, s)
    | 0x00E =>
      if o = 0x5C ∨ o = 0x60 then let p := probeRead s; if p.2 then (readTongue p.1 o, p.1) else (freeWord p.1, tick p.1) else (readTongue s o, s)
    | 0x00F => readMeas s o
    | 0x010 => (readAcc s o, s)
    | 0x011 => readCal s o
    | 0x012 => readLoop s o
    | 0x013 => readThm s o
    | 0x014 => readTemp s o
    | 0x015 => readSlink s o
    | 0x016 => (readIdl s o, s)
    | 0x017 => readBoot s o
    | _ => (getReg s off, s)

end Sys2Proof.Machine
end

