-- ==== Sys2Proof/Machine/Records.lean ====
section
/-! DEFINITION. The interval records of TELEMETRY (R31, R465, R473; 14_flash_store.md). -/

namespace Sys2Proof.Machine

/-- The two bytes of a 16-bit value, lowest first. -/
def halfBytes (v : BitVec 16) : List Byte := [v.setWidth 8, (v >>> 8).setWidth 8]

/-- A section: its header of 16 bytes, SID and LEN in 16-byte units, and its data. -/
def section16 (sid : Nat) (data : List Byte) : List Byte :=
  let p := pad16 data
  wordBytes (pack [(0, 8, sid), (16, 16, p.length / 16)]) ++ List.replicate 12 0 ++ p

/-- The channels, and the monitor accumulators, of the device in their order. -/
def allChans : List Nat := List.range 32768
def monitorAccs : List Nat := (List.range 16384).map (fun i => i / 16 * 64 + i % 16)

/-- MT_RES, MT_P and the three energies, as the core reads them over the link; zeros while the link is down. -/
def meterWords (s : State) : List Word :=
  if !idlUp s then List.replicate 17 0 else
  (List.range 11).map (fun i => getReg s (ro pgMETER (0x50 + 4 * i)))
    ++ (List.range 3).flatMap (fun p => [BitVec.ofNat 32 (energyOf s p), BitVec.ofNat 32 (energyOf s p / 2 ^ 32)])

/-- The words of the maps of a tile. -/
def mapWords (s : State) (t : Nat) : List Word :=
  [0x100, 0x180, 0x200].flatMap (fun b => (List.range 32).map (fun q => (readTile s t (b + 4 * q)).1))

/-- The data of section SID `i + 1` of an interval record (R473). -/
def sectionData (s : State) (i : Fin 6) : List Byte := match i with
  | 0 => allChans.flatMap (fun ch => halfBytes (chan s ch).pUw)
  | 1 => allChans.flatMap (fun ch => halfBytes (BitVec.ofInt 16 (satI 16 (trim (chan s ch) (loopCh s ch)))))
  | 2 => allChans.flatMap (fun ch => halfBytes ((elTempWord s ch).setWidth 16))
  | 3 => monitorAccs.flatMap (fun i => wordBytes (BitVec.ofInt 32 (accValue s i)))
  | 4 => (List.range 32).flatMap (fun t => (mapWords s t).flatMap wordBytes)
  | 5 => (meterWords s).flatMap wordBytes

/-- The payload of an interval record: the sections that the core writes, in its order (R473). -/
def intervalPayload (s : State) (sections : List (Fin 6)) : List Byte :=
  sections.flatMap (fun i => section16 (i.val + 1) (sectionData s i))

/-- The record of an interval is appended; it is DAMAGED when a VALUE that it takes fails parity and replay, which restarts its
accumulator (R31, R301). -/
def appendInterval (s : State) (sections : List (Fin 6)) : State :=
  let read := if sections.contains 3 then monitorAccs else []
  let r := read.foldl (fun (p : State × Bool) i => let q := accCheck p.1 i; (q.1, p.2 && q.2)) (s, true)
  bumpReg (appendRecord r.1 3 32 (intervalPayload s sections) (!r.2)) (ro pgNVF 0xAC) 0 16

/-- TELEMETRY_INTERVAL (R465, R473): at level 0 a record, else a lost interval. -/
def execTelemetryInterval (sections : List (Fin 6)) (s : State) : Result :=
  if !bit (getReg s (ro pgNVF 0x40)) 1 || !coreRuns s then .next s
  else if level s = 0 ∧ ringOpen s 3 then .next (appendInterval s sections)
  else
    let s := bumpReg s (ro pgNVF 0xAC) 16 16
    .next (post s pgNVF 9 (BitVec.ofNat 32 (regFld s (ro pgNVF 0xAC) 16 16)))

end Sys2Proof.Machine
end

