-- ==== Sys2Proof/Machine/Idl.lean ====
section
/-! DEFINITION. The inter-die link: training, frames in order, errors and replays, loss and retraining, pushes, feed-page accesses,
the drone count and feed-die messages (R23, R33, R108 to R115, R226, R573, R586). Commands that receive a frame take the oldest
frame that its sender has sent and the receiver has not taken (log 7). -/

namespace Sys2Proof.Machine

/-! ### Training (R108, R109) -/

/-- IDL_TRAIN_START: both dies have power and send commas, then TRAIN frames. -/
def execIdlTrainStart (s : State) : Result :=
  .next (if s.fd.supply ∧ driveOn s ∧ s.idl.state = .down then { s with idl := { s.idl with state := .training } } else s)

/-- A climb that waits for the link says why (BT_STAGE.HOLD_WHY). -/
def holdForLink (s : State) : State :=
  if s.boot.holdWhy = 3 ∨ s.boot.holdWhy = 4 then { s with boot := { s.boot with holdWhy := idlWhy s } } else s

/-- IDL_TRAIN: a side receives the other's version range and trained lanes. -/
def execIdlTrain (receiver : Die) (verMin verMax : BitVec 8) (lanesOk : BitVec 4) (s : State) : Result :=
  .next (if s.idl.state ≠ .training then s else
    match receiver with
    | .drive => holdForLink { s with idl := { s.idl with trainDrive := some (verMin, verMax, lanesOk) } }
    | .feed => holdForLink { s with idl := { s.idl with trainFeed := some (verMin, verMax, lanesOk) } })

/-- The lanes that train on both sides, and how many the link uses: four, a pair, or none (R109). -/
def linkLanes (a b : BitVec 4) : BitVec 4 × Nat :=
  let c := a &&& b
  if c = 15 then (c, 4) else if c &&& 3 = 3 ∨ c &&& 12 = 12 then (c, 2) else (c, 0)

/-- IDL_LINK_UP: a common version and lanes are agreed; the feed die pushes its full state (R33, R108, R109). -/
def linkUp (s : State) : State :=
  match s.idl.state, s.idl.trainDrive, s.idl.trainFeed with
  | .training, some d, some f =>
    let lanes := linkLanes d.2.2 f.2.2
    if idlNoCommon s ∨ lanes.2 = 0 then s else
    let s := { s with idl := { push0 := s.idl.push0, push1 := s.idl.push1, state := .up, ver := BitVec.ofNat 8 ownIdlVersion,
                               lanes := BitVec.ofNat 3 lanes.2 } }
    let s := if lanes.2 = 2 then post s pgIDL 1 (lanes.1.setWidth 32) else s
    let s := feedPush s
    let s := if s.cal.mtDue && calHas s kCL then loadMtCal s (cellsFrom s.flash.cal (calAt kCL + 64) (payloadLen kCL) 0) else s
    if s.boot.holdWhy = 3 ∨ s.boot.holdWhy = 4 then pairing s else s
  | _, _, _ => s

def execIdlLinkUp (s : State) : Result := .next (linkUp s)

/-! ### Frames in order (R110, R111) -/

/-- The oldest frame of a direction is received in order and leaves the replay buffer. -/
def IdlDir.received (d : IdlDir) : IdlDir := { d with wire := d.wire.drop 1, replays := 0 }

/-- The drive die takes a frame, if the oldest is one that `p` reads; any frame ends the hold of a PUSH0 (R112). -/
def takeDrive {α : Type} (s : State) (p : Frame → Option α) (k : α → State → State) : State :=
  let d := s.idl.toDrive
  if !idlUp s || d.discarding then s else
  match d.wire.head?.bind (fun f => p f.2) with
  | some x => k x { s with idl := { s.idl with toDrive := d.received, held0 := none } }
  | none => s

/-- The feed die takes a frame. -/
def takeFeed {α : Type} (s : State) (p : Frame → Option α) (k : α → State → State) : State :=
  let d := s.idl.toFeed
  if !idlUp s || d.discarding then s else
  match d.wire.head?.bind (fun f => p f.2) with
  | some x => k x { s with idl := { s.idl with toFeed := d.received } }
  | none => s

/-- TYPE of a frame (the frame table of 03_staged_start.md). -/
def Frame.type : Frame → Nat
  | .push0 _ => 2 | .push1 _ => 3 | .rdReq _ _ => 4 | .rdData _ => 5 | .wrAddr _ _ => 6 | .wrData _ => 7
  | .wrAck _ _ => 8 | .drone _ => 10 | .bell0 _ _ _ => 11 | .bell1 _ => 12

/-- TYPE of the next frame of a direction; IDLE fills an empty slot (R111). -/
def IdlDir.nextType (d : IdlDir) : Nat := match d.wire with | [] => 0 | f :: _ => f.2.type

/-- IDL_FRAME_ERROR: the receiver discards the frame and every later one until the replay; the drive die counts and reports
its own (R110). -/
def frameError (s : State) (receiver : Die) : State :=
  if !idlUp s then s else
  match receiver with
  | .drive =>
    let d := s.idl.toDrive
    if d.discarding then s else
    let s := { s with idl := { s.idl with toDrive := { d with discarding := true } } }
    post (bumpReg s (ro pgIDL 0x48) 0 16) pgIDL 2 (BitVec.ofNat 32 d.nextType)
  | .feed => { s with idl := { s.idl with toFeed := { s.idl.toFeed with discarding := true } } }

def execIdlFrameError (receiver : Die) (s : State) : Result := .next (frameError s receiver)

/-- A replay in order from the oldest frame that has not been received. -/
def IdlDir.replay (d : IdlDir) : IdlDir := { d with discarding := false, replays := d.replays + 1 }

/-- SEQ expected by the receiver, which its NAK carries: that of the oldest frame not received, or of the next one. -/
def IdlDir.expected (d : IdlDir) : BitVec 8 := match d.wire with | [] => d.nextSeq | f :: _ => f.1

/-! ### The link goes down (R33, R111, R573, R586) -/

/-- FEED_UNREACH: an access to a feed page finds no link (R573). -/
def feedUnreach (s : State) (off : Nat) : State :=
  post (satReg s (ro pgIDL 0x54) 0 16) pgIDL 3 (BitVec.ofNat 32 (0x10_0000 + off))

/-- An access that the loss of the link ends: recorded, a read returns 0, and a command that waits has its result. -/
def feedLostAccess (s : State) (w : FeedWait) : State :=
  let s := feedUnreach s w.off.toNat
  match w.tag with
  | some t => setRes s t.val 0 0 0 0
  | none => if w.data.isSome || w.fn == 3 then s else answer s 0

/-- The link leaves 2 UP: READY of every armed plan clears, and accesses in flight end (R33). -/
def linkGone (s : State) : State :=
  let lost := s.idl.rdWait ++ s.idl.wrWait ++ s.idl.heldAcc
  let s := idlDrop s
  admitWaits (dropReady (lost.foldl feedLostAccess s))

/-- The link is lost: LINK_LOST with BT_IDL at the loss (R111, R586). -/
def linkLost (s : State) : State :=
  if !idlUp s then s else linkGone (bumpReg (post s pgIDL 0 (btIdl s)) (ro pgIDL 0x4C) 16 16)

/-- IDL_LINK_LOST (R111): no valid frame has arrived for 1 µs. -/
def execIdlLinkLost (s : State) : Result := .next (linkLost s)

/-- IDL_NAK: the side that receives it replays from the SEQ expected; the drive die counts NAKs and its replays (R110; log 7). A
frame that three replays have not brought across loses the link (R111). -/
def idlNak (s : State) (receiver : Die) (seq : BitVec 8) : State :=
  if !idlUp s then s else
  match receiver with
  | .drive =>
    let d := s.idl.toFeed
    if !d.discarding || seq != d.expected then s else
    let s := bumpReg s (ro pgIDL 0x48) 16 16
    if 3 ≤ d.replays then linkLost s
    else { bumpReg s (ro pgIDL 0x4C) 0 16 with idl := { s.idl with toFeed := d.replay } }
  | .feed =>
    let d := s.idl.toDrive
    if !d.discarding || seq != d.expected then s
    else if 3 ≤ d.replays then linkLost s
    else { s with idl := { s.idl with toDrive := d.replay } }

def execIdlNak (receiver : Die) (seq : BitVec 8) (s : State) : Result := .next (idlNak s receiver seq)

/-- ID_CTRL.RETRAIN (R586). -/
def retrain (s : State) : State :=
  if !idlUp s then refusedCtrl s pgIDL 0x40 else linkGone (post s pgIDL 4 0)

def execIdRetrain (fn : Fn) (s : State) : Result := .next (wr s fn pgIDL 0x40 0 retrain)

/-! ### Pushes (R23, R112) -/

/-- What admission uses of a push: ITRIP, ILIM, which feeds are on, the sharing state, SAG and SINGLE_BASIS (R26, R220, R221). -/
def admissionInputs (p0 p1 : Word) : List Nat :=
  let isOn (lo : Nat) : Nat := b2n (fld p0 lo 4 == 6 || fld p0 lo 4 == 7)
  [fld p0 8 24, isOn 0, isOn 4, fld p1 0 4, fld p1 4 2, fld p1 9 1]

/-- SINGLE_BASIS and SAG_ANY of a push, as BASIS_SINGLE reports them. -/
def basisBits (p1 : Word) : Word := pack [(0, 1, fld p1 9 1), (1, 1, b2n (fld p1 4 2 != 0))]

/-- IDL_PUSH0: held for its PUSH1. -/
def execIdlPush0 (s : State) : Result :=
  .next (takeDrive s (fun f => match f with | .push0 w => some w | _ => none)
    (fun w s => { s with idl := { s.idl with held0 := some w } }))

/-- A push is applied: both words in one cycle (R112). -/
def applyPush (s : State) (w0 w1 : Word) : State :=
  let p0 := s.idl.push0
  let p1 := s.idl.push1
  let full := !s.idl.pushOk
  let s := pushCauses { s with idl := { s.idl with push0 := w0, push1 := w1, pushOk := true } }
  let s := if !full && basisBits p1 != basisBits w1 then post s pgBREATH 2 (basisBits w1) else s
  admitWaits (if full || admissionInputs p0 p1 != admissionInputs w0 w1 then redoAll s else s)

/-- IDL_PUSH1: applied when it directly follows a PUSH0. -/
def execIdlPush1 (s : State) : Result :=
  let held := s.idl.held0
  .next (takeDrive s (fun f => match f with | .push1 w => some w | _ => none)
    (fun w s => match held with | some w0 => applyPush s w0 w | none => s))

/-! ### Feed-page accesses (R77, R113, R327, R445, R449) -/

/-- IDL_RD_REQ: the feed die checks PRIV and returns the value, all ones where RLOCK excludes it. -/
def execIdlRdReq (s : State) : Result :=
  .next (takeFeed s (fun f => match f with | .rdReq o p => some (o, p) | _ => none) (fun a s =>
    let off := 0x10_0000 + a.1.toNat
    if refusedCount ≤ a.1.toNat then
      let p := 0x100 + (a.1.toNat - refusedCount) / 4
      sendToDrive s (.rdData (BitVec.ofNat 32 (tabGet (fun _ => (0 : BitVec 16)) s.fd.refused p).toNat))
    else if feedLocked s off a.2.toNat false then sendToDrive s (.rdData 0xFFFF_FFFF)
    else
      let r := feedRead s off
      sendToDrive r.2 (.rdData r.1)))

/-- The function that an access came from; the drive die's own counts as PF0. -/
def FeedWait.func (w : FeedWait) : Fn := match w.fn with | 1 => .pf1 | 2 => .pf2 | _ => .pf0

/-- IDL_RD_DATA: the value goes to the reader, latency is noted, and a read that the lock refused is recorded (R442, R445). -/
def rdDataIn (s : State) (v : Word) (lat : Nat) : State :=
  match s.idl.rdWait with
  | [] => s
  | w :: rest =>
    let s := { s with idl := { s.idl with rdWait := rest } }
    let s := putReg s (ro pgIDL 0x50) 0 16 lat
    let s := putReg s (ro pgIDL 0x50) 16 16 (max lat (regFld s (ro pgIDL 0x50) 16 16))
    let off := 0x10_0000 + w.off.toNat
    match w.tag with
    | some t => setRes s t.val 0 0 v 0
    | none =>
      let s := if v = 0xFFFF_FFFF ∧ feedLocked s off w.priv.toNat false then denied s { fn := w.func, off := off } 1 else s
      if w.fn = 3 then s else answer s v

def execIdlRdData (latNs : BitVec 16) (s : State) : Result :=
  .next (takeDrive s (fun f => match f with | .rdData v => some v | _ => none) (fun v s => rdDataIn s v latNs.toNat))

/-- IDL_WR_ADDR: the address and privilege of a posted write. -/
def execIdlWrAddr (s : State) : Result :=
  .next (takeFeed s (fun f => match f with | .wrAddr o p => some (o, p) | _ => none)
    (fun a s => { s with idl := { s.idl with wrHeld := some a } }))

/-- IDL_WR_DATA: the feed die applies or refuses the write and sends WR_ACK. -/
def wrDataIn (s : State) (v : Word) : State :=
  match s.idl.wrHeld with
  | none => s
  | some (o, p) =>
    let s := { s with idl := { s.idl with wrHeld := none } }
    let off := 0x10_0000 + o.toNat
    let fn := match s.idl.wrWait with | w :: _ => w.fn.toNat | [] => p.toNat
    if feedRefuses s off p.toNat then sendToDrive s (.wrAck o true)
    else sendToDrive (feedStore s off v fn) (.wrAck o false)

def execIdlWrData (s : State) : Result :=
  .next (takeFeed s (fun f => match f with | .wrData v => some v | _ => none) (fun v s => wrDataIn s v))

/-- IDL_WR_ACK: a refusal is recorded, with the kind of the first check that fails at the feed die (R441), or fails its command (R421, R442), and the accesses held behind the write go out in order. -/
def wrAckIn (s : State) (refused : Bool) : State :=
  match s.idl.wrWait with
  | [] => s
  | w :: rest =>
    let held := s.idl.heldAcc
    let s := { s with idl := { s.idl with wrWait := rest, heldAcc := [] } }
    let s := match w.tag with
      | some t => setRes s t.val 0 (if refused then 3 else 0) 0 0
      | none =>
        let off := 0x10_0000 + w.off.toNat
        if refused then denied s { fn := w.func, off := off, write := true } (if w.priv ≠ 0 && feedWritable off then 0 else 1) else s
    held.foldl feedAccess s

def execIdlWrAck (s : State) : Result :=
  .next (takeDrive s (fun f => match f with | .wrAck _ r => some r | _ => none) (fun r s => wrAckIn s r))

/-! ### The drone count (R114) -/

/-- IDL_DRONE_SEND: every 1,024 of its ticks the feed die sends its count. -/
def execIdlDroneSend (s : State) : Result :=
  .next (if s.droneF % 1024 = 0 then sendToDrive s (.drone (BitVec.ofNat 32 s.droneF)) else s)

/-- The drive die's count less a received one, both of 32 bits. -/
def droneGap (s : State) (count : Word) : Int := signed 32 (unsigned 32 ((s.droneD : Int) - (count.toNat : Int)))

/-- IDL_DRONE: ERR is the drive count less the one received, saturating; the trim then brings the count to within 2 ticks of it. The trim's
value and where between -2 and 2 the count comes to stand are free values (log 5). -/
def droneIn (s : State) (count : Word) : State :=
  let was := idlUp s && decide (2 < (droneErr s).natAbs)
  let gap := droneGap s count
  let stand : Int := (fld (freeWord s) 0 8 % 5 : Nat) - 2
  let trim := fld (freeWord (tick s)) 0 8
  let s := tick (tick s)
  let w := getReg s (ro pgCLK 0x54)
  let s := setReg s (ro pgCLK 0x54) (put (put w 0 8 (unsigned 8 (clampI (-128) 127 gap))) 16 8 trim)
  let now := if gap.natAbs ≤ 2 then s.droneD else ((s.droneD : Int) - gap + stand).toNat
  let s := { s with droneD := now, idl := { s.idl with droneAt := some now } }
  if !was && decide (2 < (droneErr s).natAbs) then post s pgCLK 3 (BitVec.ofNat 32 (unsigned 32 (droneErr s))) else s

def execIdlDrone (s : State) : Result :=
  .next (takeDrive s (fun f => match f with | .drone c => some c | _ => none) (fun c s => droneIn s c))

/-! ### Feed-die messages (R115) -/

/-- IDL_BELL0: SOURCE and KIND, held for the detail. -/
def execIdlBell0 (s : State) : Result :=
  .next (takeDrive s (fun f => match f with | .bell0 src kind inj => some (src, kind, inj) | _ => none)
    (fun m s => { s with idl := { s.idl with bell0 := some m } }))

/-- IDL_BELL1: the message is whole and reaches the Bell with the time of this receipt. -/
def execIdlBell1 (s : State) : Result :=
  .next (takeDrive s (fun f => match f with | .bell1 d => some d | _ => none)
    (fun d s => match s.idl.bell0 with
      | some (src, kind, inj) =>
        bellIn { s with idl := { s.idl with bell0 := none } } 
          { source := src, kind := kind, detail := d, inj := inj, stamp := some (shelfNow s) }
      | none => s))

/-- IDL_HELD_BELL_SEND: after the full push the feed die sends what it holds, in order. -/
def execIdlHeldBellSend (s : State) : Result :=
  if !idlUp s then .next s else
  let held := s.fd.held
  .next (held.foldl (fun s m => sendToDrive (sendToDrive s (.bell0 m.source m.kind m.inj)) (.bell1 m.detail))
    { s with fd := { s.fd with held := [] } })

end Sys2Proof.Machine
end

