-- ==== Sys2Proof/Machine/Queues.lean ====
section
/-! DEFINITION. The submission and completion queues: configuration, doorbells, arbitration and fetch, drain and interrupt
aggregation (R401 to R405, R410, R427, R433, R451). -/

namespace Sys2Proof.Machine

/-! ### Configuration (R401, R402) -/

/-- The word that a write to a register would leave there under its field rules (R12, R15). -/
def taken (s : State) (off : Nat) (v : Word) : Word := match regRow off with
  | none => 0
  | some r => (getReg s off &&& ~~~ r.mask) ||| (ruleWord r.rules (getReg s off) v &&& r.mask)

/-- Byte range of a queue within its region: first and past-last. -/
def sqRange (s : State) (q depth : Nat) : Nat × Nat :=
  let b := fld (getReg s (ro pgCMDQ (0x100 + 16 * q))) 6 16 * 64
  (b, b + depth * 64)
def cqRange (s : State) (q depth : Nat) : Nat × Nat :=
  let b := fld (getReg s (ro pgCMDQ (0x500 + 16 * q))) 4 16 * 16
  (b, b + depth * 16)

/-- Two byte ranges share a byte. -/
def rangesMeet (a b : Nat × Nat) : Bool := decide (a.1 < b.2) && decide (b.1 < a.2)

/-- A queue lies in its region and overlaps no other enabled queue of its kind (R402). -/
def sqFits (s : State) (q depth : Nat) : Bool :=
  decide (2 ≤ depth) && decide ((sqRange s q depth).2 ≤ 0x40_0000) &&
    (List.range 64).all (fun p => p == q || !bit (sqCtrl s p) 0 || !rangesMeet (sqRange s q depth) (sqRange s p (sqDepth s p)))
def cqFits (s : State) (q depth : Nat) : Bool :=
  decide (2 ≤ depth) && decide ((cqRange s q depth).2 ≤ 0x10_0000) &&
    (List.range 64).all (fun p => p == q || !bit (cqCtrl s p) 0 || !rangesMeet (cqRange s q depth) (cqRange s p (cqDepth s p)))

/-- An enabled SQ is bound to the CQ. -/
def cqBound (s : State) (q : Nat) : Bool := (List.range 64).any (fun p => bit (sqCtrl s p) 0 && sqCq s p == q)

/-- A write of JC_SQ_CTRL: FN, CQ and DEPTH of an enabled queue stay, and EN needs R402. A disabled queue keeps what it has not
fetched (R404); a new DEPTH makes it an empty one (log 19). -/
def sqCtrlWrite (s : State) (q : Nat) (v : Word) : State :=
  let o := 0x104 + 16 * q
  let old := sqCtrl s q
  let new := taken s (ro pgCMDQ o) v
  let depth := fld new 16 13
  let bound : Word := 0x1FFF_03F6
  if bit old 0 && (old &&& bound) != (new &&& bound) then refusedCtrl s pgCMDQ o
  else if bit new 0 && !(sqFits s q depth && bit (cqCtrl s (fld new 4 6)) 0) then refusedCtrl s pgCMDQ o
  else
    let x := sq s q
    let x := if depth = sqDepth s q then x else { x with head := 0, tail := 0 }
    let x := { x with draining := !bit new 0 && decide (inflight s q ≠ 0) }
    setSq (writeReg s (ro pgCMDQ o) v) q x

/-- A write of JC_CQ_CTRL: enabling starts the first pass (R402, R406). -/
def cqCtrlWrite (s : State) (q : Nat) (v : Word) : State :=
  let o := 0x504 + 16 * q
  let old := cqCtrl s q
  let new := taken s (ro pgCMDQ o) v
  let depth := fld new 16 13
  if bit old 0 && (decide (depth ≠ fld old 16 13) || (!bit new 0 && cqBound s q)) then refusedCtrl s pgCMDQ o
  else if bit new 0 && !bit old 0 && !cqFits s q depth then refusedCtrl s pgCMDQ o
  else
    let s := writeReg s (ro pgCMDQ o) v
    if bit new 0 && !bit old 0 then flushCq (setCq s q {}) q else s

/-- A write of JC_SQ_BASE or JC_CQ_BASE: refused while the queue is enabled (R402). -/
def sqBaseWrite (s : State) (q : Nat) (v : Word) : State :=
  let o := 0x100 + 16 * q
  if bit (sqCtrl s q) 0 then refusedCtrl s pgCMDQ o
  else setSq (writeReg s (ro pgCMDQ o) v) q { sq s q with head := 0, tail := 0 }
def cqBaseWrite (s : State) (q : Nat) (v : Word) : State :=
  let o := 0x500 + 16 * q
  if bit (cqCtrl s q) 0 then refusedCtrl s pgCMDQ o else writeReg s (ro pgCMDQ o) v

def execJcSqCtrlWrite (fn : Fn) (q : QId) (v : Word) (s : State) : Result :=
  .next (wr s fn pgCMDQ (0x104 + 16 * q.val) 0 (fun s => sqCtrlWrite s q.val v))
def execJcCqCtrlWrite (fn : Fn) (q : QId) (v : Word) (s : State) : Result :=
  .next (wr s fn pgCMDQ (0x504 + 16 * q.val) 0 (fun s => cqCtrlWrite s q.val v))

/-! ### Doorbells (R403, R406) -/

/-- DOORBELL_BAD. -/
def doorbellBad (s : State) (o : Nat) : State := post s pgCMDQ 1 (BitVec.ofNat 32 o)

/-- A tail doorbell. -/
def sqTailWrite (s : State) (fn : Fn) (q tail : Nat) : State :=
  let o := 0x900 + 4 * q
  if sqFn s q ≠ fnNum fn then doorbellBad s o
  else if sqDepth s q ≤ tail then badEncoding s pgCMDQ o
  else setSq s q { sq s q with tail := BitVec.ofNat 12 tail }

/-- The functions whose enabled SQs are bound to a CQ. -/
def cqFns (s : State) (q : Nat) : List Nat :=
  ((List.range 64).filter (fun p => bit (sqCtrl s p) 0 && sqCq s p == q)).map (sqFn s)

/-- A head doorbell: the entries from HEAD to TAIL stay unconsumed (R405, R406). -/
def cqHeadWrite (s : State) (fn : Fn) (q head : Nat) : State :=
  let o := 0xA00 + 4 * q
  let own := cqFns s q
  let d := cqDepth s q
  if !own.isEmpty && !own.contains (fnNum fn) then doorbellBad s o
  else if d ≤ head then badEncoding s pgCMDQ o
  else
    let x := cq s q
    let used := if head = x.head.toNat then x.used else (x.tail.toNat + d - head) % d
    flushCq (setCq s q { x with head := BitVec.ofNat 12 head, used := used }) q

def execSqDoorbell (fn : Fn) (q : QId) (tail : BitVec 12) (s : State) : Result :=
  .next (wr s fn pgCMDQ (0x900 + 4 * q.val) 2 (fun s => sqTailWrite s fn q.val tail.toNat))
def execCqDoorbell (fn : Fn) (q : QId) (head : BitVec 12) (s : State) : Result :=
  .next (wr s fn pgCMDQ (0xA00 + 4 * q.val) 2 (fun s => cqHeadWrite s fn q.val head.toNat))

/-! ### Arbitration and fetch (R405, R410, R451) -/

/-- INFL of an SQ. -/
def sqLimit (s : State) (q : Nat) : Nat := regFld s (ro pgCMDQ (0x108 + 16 * q)) 0 10

/-- Entries that an SQ holds. -/
def sqWaiting (s : State) (q : Nat) : Nat :=
  let x := sq s q
  let d := sqDepth s q
  if d = 0 then 0 else (x.tail.toNat + d - x.head.toNat) % d

/-- The function of an SQ. -/
def sqFunc (s : State) (q : Nat) : Fn := match sqFn s q with | 1 => .pf1 | 2 => .pf2 | _ => .pf0

/-- The arbiter does not skip the queue, tags apart: enabled, not empty, not muted, with CQ slots and below INFL. -/
def sqServed (s : State) (q : Nat) : Bool :=
  bit (sqCtrl s q) 0 && decide (0 < sqWaiting s q) && !muted s (sqFunc s q) true && decide (0 < cqFree s (sqCq s q))
    && decide (inflight s q < sqLimit s q)

/-- The first queue of a class that the arbiter serves, from `start` on in round-robin order. -/
def roundRobin (s : State) (high : Bool) (start : Nat) : Option Nat :=
  ((List.range 64).map (fun k => (start + k) % 64)).find? (fun q => bit (sqCtrl s q) 3 == high && sqServed s q)

/-- The lowest tag that is free (log 19). -/
def freeTagNo (s : State) : Option Nat := (List.range 512).find? (fun t => (cmdOf s t).isNone)

/-- One entry is fetched: its words with their parity, and its place (R409). -/
def fetchOne (s : State) (q : Nat) : State :=
  let x := sq s q
  let d := sqDepth s q
  let a := (sqRange s q d).1 + 64 * x.head.toNat
  let r := (List.range 16).foldl (fun (p : State × Nat) i =>
    let w := parRead p.1 (a + 4 * i)
    (w.1, if w.2 then p.2 else p.2 ||| 2 ^ i)) (s, 0)
  let s := r.1
  let head := BitVec.ofNat 12 ((x.head.toNat + 1) % d)
  let c : Fetched := { sq := q, fn := sqFn s q, head := head, w0 := boreWord s a, cdw := boreWords s (a + 4) 15, bad := BitVec.ofNat 16 r.2 }
  let s := setSq s q { x with head := head }
  { s with cmdq := { s.cmdq with fetched := s.cmdq.fetched ++ [c] } }

/-- Entries fetched one after another. -/
def fetchSome (q : Nat) : Nat → State → State
  | 0, s => s
  | n + 1, s => fetchSome q n (fetchOne s q)

/-- SQ_ARBITRATE: class HIGH before NORMAL, up to BURST entries; without a free tag the queue is skipped (R405). -/
def sqArbitrate (s : State) : State :=
  if !domOn s 3 then s else
  let pick := match roundRobin s true s.cmdq.rrHigh with
    | some q => some (q, true)
    | none => (roundRobin s false s.cmdq.rrNorm).map (fun q => (q, false))
  match pick with
  | none => s
  | some (q, high) =>
    if (freeTagNo s).isNone then post s pgCMDQ 4 (BitVec.ofNat 32 q) else
    let n := min (min (max (fld (sqCtrl s q) 10 5) 1) (sqWaiting s q)) (sqLimit s q - inflight s q)
    let next := (q + 1) % 64
    let s := { s with cmdq := if high then { s.cmdq with rrHigh := next } else { s.cmdq with rrNorm := next } }
    fetchSome q n s

def execSqArbitrate (s : State) : Result := .next (sqArbitrate s)

/-! ### Draining and aggregation (R404, R433) -/

/-- SQ_DRAIN_DONE: the last fetched command has completed. -/
def execSqDrainDone (q : QId) (s : State) : Result :=
  .next (if (sq s q.val).draining ∧ inflight s q.val = 0 then setSq s q.val { sq s q.val with draining := false } else s)

/-- CQ_AGG_TIMER: TIME_US has passed since the oldest completion that has not raised an interrupt. -/
def execCqAggTimer (q : QId) (s : State) : Result :=
  let t := regFld s (ro pgCMDQ (0x508 + 16 * q.val)) 8 8
  let x := cq s q.val
  .next (if t = 0 ∨ x.unsig = 0 ∨ s.now < x.unsigFrom + t * 1200 then s else cqSignal s q.val x.fn true)

end Sys2Proof.Machine
end

