-- ==== Sys2Proof/Machine/Writes.lean ====
section
/-! DEFINITION. Writes to any drive-die register by its page: the level each needs (R77, R166, R167, R505, R616 and the write rule
of every page) and what it does. The rows for single registers and the core's REG_WRITE share the page's own operation. -/

namespace Sys2Proof.Machine

/-! ### The level of a write (R439 to R441, R505, R616) -/

/-- The least privileged level that may write a header register: PG_CTRL exists only with PG_CAP.BLK (R444, R505, R581). -/
def headerLvl (page o : Nat) : Nat := match o with
  | 0x0C => if bit (pageCap page) 17 then 0 else 2
  | 0x14 => 1
  | 0x18 => 1
  | 0x1C => 1
  | 0x20 => 0
  | 0x24 => 0
  | 0x28 => 0
  | _ => 2

/-- The level of a value written to a block register of a drive-die page, with the codes that R616 sets apart; an offset that
takes no write is open to all. -/
def writeLvl (s : State) (off : Nat) (v : Word) : Nat :=
  let page := off / 4096
  let o := off % 4096
  if o < 0x40 then headerLvl page o else
  match regRow off with
  | none => 2
  | some r =>
    if r.acc = .ro ∨ r.acc = .rc then 2
    else if pageKind page = 0x20 then
      (if o = 0x5C ∧ fld v 0 4 = 2 then 0 else if o = 0x68 ∧ fld v 4 2 = 2 then 0 else r.lvl)
    else if page = pgPARK ∧ o = 0x44 then (if 3 ≤ fld v 0 4 ∧ fld v 0 4 ≤ 5 then 0 else 1)
    else if page = pgCAL ∧ o = 0x44 then (if 98304 ≤ coefIdx s ∧ coefIdx s ≤ 163839 then 0 else 1)
    else if page = pgSYS ∧ o = 0x64 then (if fld v 0 2 = 2 ∧ fld v 16 16 = 0xD0A5 then 0 else 1)
    else r.lvl

/-- The plan slot that a write of PL_CMD or COMMIT_NOW names (R441). -/
def writeSlot (off : Nat) (v : Word) : Option Nat :=
  if off = ro pgPLAN 0x40 then some (fld v 4 4) else if off = ro pgCOMMIT 0x44 then some (fld v 0 4) else none

/-! ### Command registers -/

/-- A command code of a table page (ST_CMD, TG_CMD, MS_CMD, CL_CMD, LP_CMD, TH_CMD). -/
def tabCode (s : State) (k c : Nat) : State :=
  let bad := badEncoding s (tabPage k) (tabCmdOff k)
  if (k = kST ∨ k = kTG ∨ k = kTH) ∧ 1 ≤ c ∧ c ≤ 3 then fabAccept s (.table k c none) else
  match c with
  | 1 => tabLoad s k
  | 2 => tabSave s k
  | 3 => if k = kCL then coefDefault s else if k = kMS then tabCheck s k else bad
  | 4 => if k = kMS then seqDefault s else if k = kCL then scStart s false else bad
  | 5 => if k = kCL then scStart s true else bad
  | _ => bad

/-- The table of a page with a command register. -/
def pageTab (page : Nat) : Option Nat := match page with
  | 0x00A => some kST | 0x00E => some kTG | 0x00F => some kMS | 0x011 => some kCL | 0x012 => some kLP | 0x013 => some kTH
  | _ => none

/-- PK_CMD by its code; `mask` stands in place of PK_TMASK for a JCP command (R419). -/
def pkCmd (s : State) (c : Nat) (mask : Word) : State := match c with
  | 1 => parkEvent s 5 allTiles
  | 2 => if mask = 0 then s else parkEvent s 5 mask
  | 3 => parkUpdate s
  | 4 => parkApply s
  | 5 => parkReload s
  | _ => badEncoding s pgPARK 0x44

/-- TL_VALVE_CMD: the rail voltage that RELEASE judges is not in the write, so it is a free value (log 1). -/
def valveCode (s : State) (t : Nat) (v : Word) : State :=
  let x : Valve := if bit v 0 then .vb else .va
  match fld v 4 2 with
  | 1 => tick (valveRelease s t x (fld (freeWord s) 0 16))
  | 2 => valveOff s t x
  | 3 => valveOn s t x
  | _ => badEncoding s (pgTILE t) 0x68

/-- TL_REF_CMD: whether the reference is in window is a free value (log 1). -/
def refCode (s : State) (t : Nat) (v : Word) : State :=
  if bit v 8 then tick (refReturn s (t * 32 + fld v 0 5) (bit (freeWord s) 0)) else s

/-- HS_CTRL.RETRAIN: the PCIe link retrains at MAX_SPEED or below (HOST page; log 16). -/
def pcieRetrain (s : State) : State :=
  let m := regFld s (ro pgHOST 0x44) 0 4
  if s.host.linkUp ∧ m < s.host.speed.toNat then { s with host := { s.host with speed := BitVec.ofNat 4 m } } else s

/-- HS_RT_DATA of the page that HS_RT_IDX selects. -/
def routeWrite (s : State) (v : Word) : State :=
  let p := regFld s (ro pgHOST 0x4C) 0 9
  if isPage p then { s with host := { s.host with routes := tabSet (fun _ => 0x100) s.host.routes p (v &&& 0x71F) } } else s

/-- A PR register: the change is in force, counted and reported (R448, R452). -/
def prWrite (s : State) (o : Nat) (v : Word) (fn : Fn) : State :=
  match regRow (ro pgPROT o) with
  | some r => if r.acc = .rw then protChanged (writeReg s (ro pgPROT o) v) (ro pgPROT o) v (fnNum fn) else s
  | none => s

/-! ### Pages -/

/-- A TILE page. -/
def writeTile (s : State) (fn : Fn) (t o : Nat) (v : Word) : State := match o with
  | 0x4C => chCfg s fn t v
  | 0x5C => tlChCmd s t (fld v 0 4) (bit v 8)
  | 0x68 => valveCode s t v
  | 0x78 => refCode s t v
  | _ => writeReg s (ro (pgTILE t) o) v

/-- PLAN and COMMIT. -/
def writePlan (s : State) (o : Nat) (v : Word) : State :=
  if o = 0x40 then
    (if 1 ≤ fld v 0 4 ∧ fld v 0 4 ≤ 5 then fabAccept s (.plan (fld v 0 4) (fld v 4 4) (fld v 16 16) none) else badEncoding s pgPLAN 0x40)
  else writeReg s (ro pgPLAN o) v
def writeCommit (s : State) (o : Nat) (v : Word) : State :=
  if o = 0x44 then commitRequest s 2 (fld v 0 4) (bit v 4) none
  else if o = 0x64 then schedEnWrite s v
  else if 0x100 ≤ o ∧ o < 0x180 then schedTWrite s o v
  else writeReg s (ro pgCOMMIT o) v

/-- MEAS, ACC, CAL and THM. -/
def writeMeas (s : State) (o : Nat) (v : Word) : State := match o with
  | 0x40 =>
    let s := writeReg s (ro pgMEAS o) v
    { s with reeds := tabMap (fun _ => ({} : ReedSt)) s.reeds 0 1024 (fun _ x => restReed s x) }
  | 0x44 => tabCode s kMS (fld v 0 4)
  | 0x58 => seqModeWrite s v
  | 0x5C => timerWrite s v
  | 0x60 => drvDelayWrite s v
  | 0x64 => trigWrite s v
  | 0x74 => urgentWrite s v
  | 0x7C => openClear s v
  | _ => writeReg s (ro pgMEAS o) v
def writeAcc (s : State) (o : Nat) (v : Word) : State := match o with
  | 0x44 => accCfgWrite s v
  | 0x48 => accCmd s (fld v 0 4)
  | _ => writeReg s (ro pgACC o) v
def writeCal (s : State) (o : Nat) (v : Word) : State := match o with
  | 0x44 => coefWrite s v
  | 0x48 => tabCode s kCL (fld v 0 4)
  | _ => writeReg s (ro pgCAL o) v
def writeThm (s : State) (o : Nat) (v : Word) : State :=
  if o = 0x44 then tabCode s kTH (fld v 0 4)
  else if o = 0x54 then kDataWrite s v
  else if 0x80 ≤ o ∧ o < 0x90 then tileClassWrite s ((o - 0x80) / 4) v
  else writeReg s (ro pgTHM o) v

/-- PARK, TEMP, BOOT, HOST, SLINK, PWR and CMDQ. -/
def writePark (s : State) (o : Nat) (v : Word) : State := match o with
  | 0x44 => pkCmd s (fld v 0 4) (getReg s (ro pgPARK 0x48))
  | 0x58 => parkDataWrite s v
  | _ => writeReg s (ro pgPARK o) v
def writeTemp (s : State) (o : Nat) (v : Word) : State := match o with
  | 0x44 => threshWrite s v
  | 0x48 => if fld v 0 4 = 1 then diodeClr s (fld v 8 6) else badEncoding s pgTEMP 0x48
  | _ => writeReg s (ro pgTEMP o) v
def writeBoot (s : State) (o : Nat) (v : Word) : State := match o with
  | 0x44 => btCtrl s v
  | 0x48 =>
    let s := writeReg s (ro pgBOOT 0x48) v
    { s with boot := { s.boot with pref := bit v 0 } }
  | 0x74 => bondLimWrite s v
  | 0x80 => padtestWrite s v
  | 0x8C => updCtrl s (fld v 0 2)
  | _ => writeReg s (ro pgBOOT o) v
def writeHost (s : State) (o : Nat) (v : Word) : State := match o with
  | 0x44 =>
    let s := writeReg s (ro pgHOST 0x44) v
    if bit v 12 then pcieRetrain s else s
  | 0x50 => routeWrite s v
  | _ => writeReg s (ro pgHOST o) v
def writeSlink (s : State) (o : Nat) (v : Word) : State := match o with
  | 0x40 => slCtrlWrite s v
  | 0x74 => slSchedCmd s (fld v 0 4) (bit v 4)
  | _ => writeReg s (ro pgSLINK o) v
def writePwr (s : State) (o : Nat) (v : Word) : State := match o with
  | 0x40 => pwCtrlWrite s v
  | 0x58 => domCtrlWrite s v
  | _ => writeReg s (ro pgPWR o) v
def writeCmdq (s : State) (fn : Fn) (o : Nat) (v : Word) : State :=
  if 0x900 ≤ o ∧ o < 0xA00 then sqTailWrite s fn ((o - 0x900) / 4) (fld v 0 12)
  else if 0xA00 ≤ o ∧ o < 0xB00 then cqHeadWrite s fn ((o - 0xA00) / 4) (fld v 0 12)
  else if 0x100 ≤ o ∧ o < 0x500 then
    (match o % 16 with
     | 0 => sqBaseWrite s ((o - 0x100) / 16) v
     | 4 => sqCtrlWrite s ((o - 0x100) / 16) v
     | _ => writeReg s (ro pgCMDQ o) v)
  else if 0x500 ≤ o ∧ o < 0x900 then
    (match o % 16 with
     | 0 => cqBaseWrite s ((o - 0x500) / 16) v
     | 4 => cqCtrlWrite s ((o - 0x500) / 16) v
     | _ => writeReg s (ro pgCMDQ o) v)
  else writeReg s (ro pgCMDQ o) v

/-- A write of value `v` at BAR0 offset `off` of a drive-die page takes effect, whatever its writer's rights. -/
def pageWrite (s : State) (fn : Fn) (off : Nat) (v : Word) : State :=
  let page := off / 4096
  let o := off % 4096
  if o = 0x28 then lockWrite s page v (fnNum fn)
  else if o < 0x40 then headerWrite s page o v
  else if pageKind page = 0x20 then writeTile s fn (page - 0x20) o v
  else match page with
  | 0x000 => if o = 0x64 then syReset s fn v else s
  | 0x002 => writePwr s o v
  | 0x004 => prWrite s o v fn
  | 0x005 => writeHost s o v
  | 0x006 => writeCmdq s fn o v
  | 0x008 => if o = 0x44 then nfCmd s (fld v 0 4) else writeReg s off v
  | 0x009 => writePark s o v
  | 0x00A => if o = 0x40 then tabCode s kST (fld v 0 4) else writeReg s off v
  | 0x00B => writePlan s o v
  | 0x00C => writeCommit s o v
  | 0x00D => breathWrite s o v
  | 0x00E => if o = 0x40 then tabCode s kTG (fld v 0 4) else writeReg s off v
  | 0x00F => writeMeas s o v
  | 0x010 => writeAcc s o v
  | 0x011 => writeCal s o v
  | 0x012 => if o = 0x70 then tabCode s kLP (fld v 0 4) else loopRegWrite s o v
  | 0x013 => writeThm s o v
  | 0x014 => writeTemp s o v
  | 0x015 => writeSlink s o v
  | 0x016 => if o = 0x40 then (if bit v 0 then retrain s else s) else s
  | 0x017 => writeBoot s o v
  | _ => writeReg s off v

/-! ### BAR0 accesses -/

/-- FN and PRIV of an access to a feed page. -/
def feedWaitOf (fn : Fn) (off : Nat) (data : Option Word) (tag : Option Tag := none) : FeedWait :=
  { off := BitVec.ofNat 15 (off - 0x10_0000), fn := BitVec.ofNat 2 (fnNum fn), priv := BitVec.ofNat 2 (fnNum fn), data := data, tag := tag }

/-- A drive-die register whose value the feed die holds: BL_PG_REFUSED of a feed page (R519). -/
def remoteCount (s : State) (off : Nat) : Option Nat :=
  let p := regFld s (ro pgBELL 0x5C) 0 9
  if off = ro pgBELL 0x60 ∧ isFeedPage p then some (0x10_0000 + refusedCount + 4 * (p - 0x100)) else none

/-- The offset by which a read is sent over the link, for a feed page or a count that the feed die holds (R113, R519). -/
def linkedRead (s : State) (off : Nat) : Option Nat :=
  if isFeedPage (off / 4096) then some off else remoteCount s off

/-- A BAR0 write under R607. -/
def bar0Write (s : State) (fn : Fn) (off : Nat) (v : Word) (formOk : Bool) : State :=
  guarded s { fn := fn, off := off, write := true, formOk := formOk, lvl := writeLvl s off v, slot := writeSlot off v } (fun s =>
    if isFeedPage (off / 4096) then feedAccess s (feedWaitOf fn off (some v)) else pageWrite s fn off v)

/-- A BAR0 read under R607; the value of a feed page comes with its RD_DATA. -/
def bar0Read (s : State) (fn : Fn) (off : Nat) (formOk : Bool) : State :=
  if !hostReach s fn then s else
  let a : Access := { fn := fn, off := off, formOk := formOk }
  match judge s a with
  | .ok =>
    (match linkedRead s off with
    | some o =>
      if idlUp s then feedAccess s (feedWaitOf fn o none)
      else answer (onVerdict s { a with off := ro pgBELL 0x60 } .feed) 0
    | none =>
      let r := pageRead s off
      answer r.2 r.1)
  | v => answer (onVerdict s a v) v.data

def execRegisterWrite (fn : Fn) (off : BitVec 24) (v : Word) (formOk : Bool) (s : State) : Result :=
  .next (bar0Write s fn off.toNat v formOk)
/-- FEED_PAGE_READ and FEED_PAGE_WRITE (R113): accesses to one of the seven feed pages. -/
def execFeedPageRead (fn : Fn) (off : BitVec 24) (s : State) : Result :=
  .next (if isFeedPage (off.toNat / 4096) then bar0Read s fn off.toNat true else s)
def execFeedPageWrite (fn : Fn) (off : BitVec 24) (v : Word) (s : State) : Result :=
  .next (if isFeedPage (off.toNat / 4096) then bar0Write s fn off.toNat v true else s)

/-! ### Header registers (R433, R434, R444, R452, R501 to R505, R515, R517, R581) -/

/-- A write of a header register. -/
def headerAccess (s : State) (fn : Fn) (page : BitVec 9) (o : Nat) (v : Word) : Result :=
  .next (bar0Write s fn (ro page.toNat o) v true)

def execPgIrqStatWrite (fn : Fn) (page : BitVec 9) (v : Word) (s : State) : Result := headerAccess s fn page 0x14 v
def execPgLockWrite (fn : Fn) (page : BitVec 9) (v : Word) (s : State) : Result := headerAccess s fn page 0x28 v
def execStickyClear (fn : Fn) (page : BitVec 9) (v : Word) (s : State) : Result := headerAccess s fn page 0x1C v
def execPgFltSevWrite (fn : Fn) (page : BitVec 9) (v : Word) (s : State) : Result := headerAccess s fn page 0x20 v
def execPgBlkRst (fn : Fn) (page : BitVec 9) (s : State) : Result := headerAccess s fn page 0x0C 1

/-- PG_FLT_INJ: SRC, MODE and DETAIL of a write. -/
def injWord (src mode detail : Nat) : Word := pack [(0, 4, src), (4, 2, mode), (16, 16, detail)]

def execInjOff (fn : Fn) (page : BitVec 9) (src : Fin 16) (s : State) : Result :=
  headerAccess s fn page 0x24 (injWord src.val 0 0)
def execInjPulse (fn : Fn) (page : BitVec 9) (src : Fin 16) (detail : BitVec 16) (s : State) : Result :=
  headerAccess s fn page 0x24 (injWord src.val 1 detail.toNat)
def execInjHold (fn : Fn) (page : BitVec 9) (src : Fin 16) (detail : BitVec 16) (s : State) : Result :=
  headerAccess s fn page 0x24 (injWord src.val 2 detail.toNat)
def execInjCheck (fn : Fn) (page : BitVec 9) (src : Fin 16) (detail : BitVec 16) (s : State) : Result :=
  headerAccess s fn page 0x24 (injWord src.val 3 detail.toNat)

/-- PR_REG_WRITE (R448, R451, R452). -/
def execPrRegWrite (fn : Fn) (off : BitVec 12) (v : Word) (s : State) : Result :=
  .next (bar0Write s fn (ro pgPROT (off.toNat / 4 * 4)) v true)

/-! ### BAR2 writes (R388, R443, R577, R578) -/

/-- The DWs of a TLP: BAR2 offset and value. -/
def tlpWords (off : Nat) (data : List Word) : List (Nat × Word) := data.zipIdx.map (fun p => (off + 4 * p.2, p.1))

/-- The accumulator window refuses a write with ACC_WRITE beside the window's own refusal (R303, R443). -/
def accWrite (s : State) (off : Nat) : State := post s pgACC 2 (BitVec.ofNat 32 off)

/-- One DW that passes R607 is stored by the rules of its window (R189, R173, R243, R290). -/
def windowStore (s : State) (off : Nat) (w : Word) : State :=
  let r := (windowOf off).getD 0
  let a := windowAddr r off
  match r with
  | 4 => setpointStore s off a [w]
  | 5 => shapeStore s off a w
  | 6 => seqStore s off a [w]
  | 8 => deltaStore s off a [w]
  | _ => setBore s a w

/-- The window's own rule discards a write now: DELTA_LOCKED or a running LOAD (R173, R189, R244, R290). -/
def windowClosed (s : State) (off : Nat) : Bool :=
  let r := (windowOf off).getD 0
  match r with
  | 4 => (tab s kST).running == 1
  | 5 => (tab s kTG).running == 1
  | 6 => (tab s kMS).running == 1
  | 8 => !deltasOpen (slot s ((windowAddr r off - 0xD0_0000) / 0x4_0000))
  | _ => false

/-- What the DWs of one TLP have recorded: each fault source at most once (R578). -/
inductive Mark | verdict (page src : Nat) | window (r : Nat)
  deriving DecidableEq, Repr

/-- The fault source of a verdict. -/
def Verdict.source : Verdict → Nat × Nat
  | .hole => (pgSYS, 0) | .stage => (pgBOOT, 13) | .domain => (pgPWR, 14) | .feed => (pgIDL, 3) | _ => (pgPROT, 0)

/-! ### BAR2 reads (R293, R394, R578) -/

/-- What the DWs of a read TLP have given so far: the words, whether one is poisoned, and the fault sources set. -/
structure ReadTlp where
  s : State
  words : List Word := []
  poisoned : Bool := false
  marks : List Mark := []

/-- A DW of a read TLP: a word whose parity fails is returned as read, and its region's rule runs once the TLP has its words (R394). -/
def readStep (fn : Fn) (p : ReadTlp) (off : Nat) : ReadTlp :=
  let a : Access := { fn := fn, bar2 := true, off := off }
  match judge p.s a with
  | .ok =>
    let addr := windowAddr ((windowOf off).getD 0) (off / 4 * 4)
    let bad := p.s.bore.badPar.contains addr
    { p with s := if bad then bumpReg p.s (ro pgBORE 0x4C) 16 16 else p.s,
             words := p.words ++ [boreWord p.s addr], poisoned := p.poisoned || bad }
  | v =>
    let m : Mark := .verdict v.source.1 v.source.2
    { p with s := if p.marks.contains m then p.s else onVerdict p.s a v, words := p.words ++ [v.data], marks := p.marks ++ [m] }

/-- The Bore addresses of bad words that a read TLP returned. -/
def badHits (s : State) (fn : Fn) (offs : List Nat) : List Nat :=
  (offs.filter (fun o => judge s { fn := fn, bar2 := true, off := o } == .ok)).map
    (fun o => windowAddr ((windowOf o).getD 0) (o / 4 * 4)) |>.filter s.bore.badPar.contains

/-- A BAR2 read of `more + 1` words in one TLP: all are taken in one state; then each bad word has its region's rule (R293, R301,
R394). -/
def bar2Read (s : State) (fn : Fn) (off more : Nat) : State :=
  if !hostReach s fn then s else
  let offs := (List.range (more + 1)).map (fun i => off + 4 * i)
  let p := offs.foldl (readStep fn) { s := s }
  let s := (badHits s fn offs).foldl (fun s a => if s.bore.badPar.contains a then strayFail s a else s) p.s
  let s := answer s (p.words.headD 0) p.poisoned
  { s with host := { s.host with rmore := p.words.tail } }

/-- A word of BAR4: the MSI-X table at 0x0000, the pending bits at 0x2000 (R429). -/
def bar4Word (s : State) (fn : Fn) (o : Nat) : Word :=
  if o < 0x200 then msixWord s (fnNum fn) (o / 16) (o / 4 % 4)
  else if o / 4 = 0x800 then
    BitVec.ofNat 32 (maskOf ((List.range 32).filter (fun v => tabGet (fun _ => false) s.host.msixPend (fnNum fn * 32 + v))))
  else 0

/-- BAR_READ. A function's BAR4 is its own: no condition of R607 stands before it. -/
def execBarRead (fn : Fn) (bar : Bar) (at' : ReadSpan) (formOk : Bool) (s : State) : Result :=
  .next (match bar with
    | .bar0 => bar0Read s fn at'.off.toNat formOk
    | .bar2 => bar2Read s fn at'.off.toNat at'.more.toNat
    | .bar4 => if hostReach s fn then answer s (bar4Word s fn (at'.off.toNat % 0x4000)) else s)

/-! ### BAR2 writes of whole words -/

/-- One DW of a TLP that writes bytes [lo, hi). -/
def tlpStep (fn : Fn) (lo hi : Nat) (p : State × List Mark) (x : Nat × Word) : State × List Mark :=
  let a : Access := { fn := fn, bar2 := true, off := x.1, write := true, lo := lo, hi := min hi 0x40_0000 }
  let once (m : Mark) (k : State → State) : State × List Mark :=
    if p.2.contains m then p else (k p.1, p.2 ++ [m])
  match judge p.1 a with
  | .ok =>
    if windowClosed p.1 x.1 then once (.window ((windowOf x.1).getD 0)) (fun s => windowStore s x.1 x.2)
    else (windowStore p.1 x.1 x.2, p.2)
  | v =>
    let src := v.source
    let q := once (.verdict src.1 src.2) (fun s => onVerdict s a v)
    if v = .level ∧ windowOf x.1 = some 7 ∧ !q.2.contains (.window 7) then (accWrite q.1 x.1, q.2 ++ [.window 7]) else q

/-- The Bore addresses in the shape banks that the DWs of a TLP pass to. -/
def shapeHits (s : State) (fn : Fn) (xs : List (Nat × Word)) : List Nat :=
  (xs.filter (fun x => windowOf x.1 == some 5 && judge s { fn := fn, bar2 := true, off := x.1, write := true } == .ok)).map
    (fun x => windowAddr 5 x.1)

/-- A write TLP of whole words (R578); slots are redone once for what it stored in the shape bank in force (R243). A payload above 512
bytes is no TLP that the part supports (R428): it has no effect. -/
def bar2Write (s : State) (fn : Fn) (off : Nat) (data : List Word) : State :=
  if !hostReach s fn || decide (maxPayload < data.length) then s else
  let xs := tlpWords off data
  shapeWritten (xs.foldl (tlpStep fn off (off + 4 * data.length)) (s, [])).1 (shapeHits s fn xs)

def execBar2SetpointWrite (fn : Fn) (off : BitVec 26) (data : List Word) (s : State) : Result :=
  .next (bar2Write s fn off.toNat data)
def execBar2DeltaWrite (fn : Fn) (off : BitVec 26) (data : List Word) (s : State) : Result :=
  .next (bar2Write s fn off.toNat data)
def execBar2ShapeWrite (fn : Fn) (off : BitVec 26) (data : List Word) (s : State) : Result :=
  .next (bar2Write s fn off.toNat data)
def execBar2SeqWrite (fn : Fn) (off : BitVec 26) (data : List Word) (s : State) : Result :=
  .next (bar2Write s fn off.toNat data)
def execBar2SqWrite (fn : Fn) (off : BitVec 26) (data : List Word) (s : State) : Result :=
  .next (bar2Write s fn off.toNat data)
def execBar2WindowWrite (fn : Fn) (off : BitVec 26) (data : List Word) (s : State) : Result :=
  .next (bar2Write s fn off.toNat data)

/-- BAR2_ACC_WRITE (R303): refused, whatever the words. -/
def execBar2AccWrite (fn : Fn) (off : BitVec 26) (s : State) : Result := .next (bar2Write s fn off.toNat [0])

/-- The word with the enabled bytes of `v` in place. -/
def mergeBytes (old v : Word) (be : BitVec 4) : Word :=
  (List.range 4).foldl (fun w i => if be.getLsbD i then put w (8 * i) 8 (fld v (8 * i) 8) else w) old

/-- BAR2_PARTIAL_WRITE (R388): a read-modify-write, discarded when the read fails parity and replay. -/
def bar2Partial (s : State) (fn : Fn) (off : Nat) (be : BitVec 4) (v : Word) (parityOk : Bool) : State :=
  if !hostReach s fn then s else
  let o := off / 4 * 4
  let a : Access := { fn := fn, bar2 := true, off := o, write := true }
  match judge s a with
  | .ok =>
    if windowClosed s o then windowStore s o v else
    let addr := windowAddr ((windowOf o).getD 0) o
    let s := bumpReg s (ro pgBORE 0x58) 0 16
    if parityOk && !s.bore.badPar.contains addr then
      let s := windowStore s o (mergeBytes (boreWord s addr) v be)
      if windowOf o = some 5 then shapeWritten s [addr] else s
    else post (bumpReg (strayFail s addr) (ro pgBORE 0x58) 16 16) pgBORE 5 (BitVec.ofNat 32 addr)
  | _ => bar2Write s fn o [v]

def execBar2PartialWrite (fn : Fn) (off : BitVec 26) (be : BitVec 4) (v : Word) (parityOk : Bool) (s : State) : Result :=
  .next (bar2Partial s fn off.toNat be v parityOk)

end Sys2Proof.Machine
end

