-- ==== Sys2Proof/Machine/Jcp.lean ====
section
/-! DEFINITION. The commands of the queues: decode, fences, the engine's and the core's commands and their completions (R406, R409
to R425, R439, R444, R446, R447, R466, R467, R470). -/

namespace Sys2Proof.Machine

/-! ### Fields of an entry (R407, R416) -/

/-- Word `i` of the entry, 1 to 15. -/
def Cmd.cw (c : Cmd) (i : Nat) : Word := c.cdw.getD (i - 1) 0
/-- The function of its queue. -/
def Cmd.func (c : Cmd) : Fn := match c.fn with | 1 => .pf1 | 2 => .pf2 | _ => .pf0
/-- OPC and FENCE. -/
def Cmd.opc (c : Cmd) : Nat := fld c.w0 0 8
def Cmd.fence (c : Cmd) : Bool := bit c.w0 8

/-- The opcodes of R416. -/
def opcodes : List Nat := [0x00, 0x01, 0x02, 0x10, 0x11, 0x12, 0x20, 0x21, 0x22, 0x30, 0x31]

/-- The opcodes that the supervisory core executes (R414). -/
def mgmtOp (opc : Nat) : Bool := opc ∈ [0x20, 0x21, 0x22, 0x30, 0x31]

/-- JCP version of a function (R424). -/
def jcpVer (s : State) (fn : Nat) : Nat := match fn with
  | 1 => s.cmdq.ver.2.1.toNat | 2 => s.cmdq.ver.2.2.toNat | _ => s.cmdq.ver.1.toNat

/-- SCHED of a COMMIT. -/
def Cmd.sched (c : Cmd) : Bool := c.opc == 0x11 && bit (c.cw 1) 5

/-- Words 1 to 5 keep their reserved bits 0: the mask of the bits that each may use (R416). -/
def usedBits (ver : Nat) (c : Cmd) : List Word := match c.opc with
  | 0x01 => [0xFFFF, 0, 0, 0, 0]
  | 0x02 => [0xFFFF_003F, 0, 0, 0, 0]
  | 0x10 => [0xFFFF_00FF, 0, 0, 0, 0]
  | 0x11 => if ver < 0x11 then [0x1F, 0, 0, 0, 0] else if c.sched then [0x3F, 0xFFFF_FFFF, 0xFFFF_FFFF, 0, 0] else [0x3F, 0, 0, 0, 0]
  | 0x12 => [0xF, 0xFFFF_FFFF, 0, 0, 0]
  | 0x20 => [0xFF_FFFC, 0, 0, 0, 0]
  | 0x21 => [0xFF_FFFC, 0xFFFF_FFFF, 0, 0, 0]
  | 0x22 => [0xF1FF, 0, 0, 0, 0]
  | 0x30 => [0xF, 0xFFFF_FFFF, 0xFFFF_FFFF, 0xFFFF_FFFF, 0xFFFF_FFFF]
  | 0x31 => [0xF, 0xFFFF_FFFF, 0xFFFF_FFFF, 0xFFFF_FFFF, 0xFFFF_FFFF]
  | _ => [0, 0, 0, 0, 0]

/-- A code that the command's field reserves: PL_CMD and PK_CMD codes, a page without a table, a partition (R423, R466; log 19). -/
def codeReserved (c : Cmd) : Bool := match c.opc with
  | 0x10 => let k := fld (c.cw 1) 0 4; decide (k = 0 ∨ 5 < k)
  | 0x12 => let k := fld (c.cw 1) 0 4; decide (k ≠ 1 ∧ k ≠ 2)
  | 0x22 => match pageTab (fld (c.cw 1) 0 9) with
    | none => true
    | some k => let n := fld (c.cw 1) 12 4
                decide (n = 0) || decide ((if k = kMS then 4 else if k = kCL then 5 else if k = kLP then 2 else 3) < n)
  | 0x30 => decide (4 < fld (c.cw 1) 0 4)
  | 0x31 => decide (4 < fld (c.cw 1) 0 4)
  | _ => false

/-- A reserved bit is not zero, or a field holds a reserved code. -/
def badField (ver : Nat) (c : Cmd) : Bool :=
  fld c.w0 9 7 != 0 || (c.cdw.drop 5).any (· != 0)
    || ((usedBits ver c).zipIdx.any (fun p => c.cw (p.2 + 1) &&& ~~~ p.1 != 0)) || codeReserved c

/-! ### Decode (R413, R439, R444, R446) -/

/-- The least privileged level of the command (R416, R466). -/
def cmdLvl (s : State) (c : Cmd) : Nat := match c.opc with
  | 0x10 => 1
  | 0x11 => 1
  | 0x12 => 1
  | 0x21 =>
    let off := fld (c.cw 1) 0 24
    if isFeedPage (off / 4096) then (if feedWritable off then 0 else 2) else writeLvl s off (c.cw 2)
  | 0x22 => 1
  | 0x30 => match fld (c.cw 1) 0 4 with | 0 => 0 | 1 => 1 | _ => 2
  | 0x31 => if fld (c.cw 1) 0 4 = 1 then 0 else 2
  | _ => 2

/-- The CLASS bit of PR_QRIGHTS that an opcode needs. -/
def opClass (opc : Nat) : Option Nat := match opc with
  | 0x10 => some 0 | 0x11 => some 1 | 0x12 => some 2 | 0x21 => some 3 | 0x22 => some 4 | 0x30 => some 5 | 0x31 => some 6
  | 0x02 => some 7 | _ => none

/-- The slot that a PLAN or a COMMIT names. -/
def Cmd.slotNo (c : Cmd) : Nat := if c.opc = 0x10 then fld (c.cw 1) 4 4 else fld (c.cw 1) 0 4

/-- PR_QRIGHTS of the queue withholds the command (R446). -/
def noRight (s : State) (c : Cmd) : Bool :=
  let w := getReg s (ro pgPROT (0x200 + 4 * c.sq))
  (match opClass c.opc with | some k => !bit w k | none => false)
    || ((c.opc == 0x10 || c.opc == 0x11) && !bit w (16 + c.slotNo))

/-- The page lock or the read hide in force refuses the command: 4 PAGE_LOCKED, 3 for a hide (R413, R444). -/
def lockSc (s : State) (c : Cmd) : Nat :=
  let fn := c.fn
  let q (page : Nat) : Nat := if bit (getReg s (ro page 0x28)) (8 + fn) then 4 else 0
  let page := fld (c.cw 1) 12 12
  match c.opc with
  | 0x10 => q pgPLAN
  | 0x11 => q pgCOMMIT
  | 0x12 => q pgPARK
  | 0x22 => q (fld (c.cw 1) 0 9)
  | 0x20 => if muted s (c.func) false then 3 else if locked s (c.func) page false then 4 else 0
  | 0x21 => if locked s (c.func) page true then 4 else 0
  | _ => 0

/-- SC of the decode step, 0 for an accepted command: opcode and version, fields, level, rights, locks; nothing that can be set
refuses PF0 (R413, R416, R439, R446). -/
def decodeSc (s : State) (c : Cmd) : Nat :=
  let fn := c.fn
  let ver := jcpVer s fn
  if !opcodes.contains c.opc || (c.opc == 0x02 && decide (ver < 0x11)) then 1
  else if badField ver c then 2
  else if fn = 0 then 0
  else if cmdLvl s c < fn then 3
  else if c.opc = 0x02 ∧ sqFn s (fld (c.cw 1) 0 6) ≠ fn then 3
  else if noRight s c then 3
  else lockSc s c

/-! ### The FENCE step (R411, R412) -/

/-- The commands of the SQ fetched before this one and not yet completed. -/
def earlier (s : State) (c : Cmd) : List Cmd :=
  (s.cmdq.cmds.takeWhile (fun d => d.tag != c.tag)).filter (fun d => d.sq == c.sq)

/-- A command passes the FENCE step: a fenced one after every earlier command, any other after every earlier fenced one. -/
def passesFence (s : State) (c : Cmd) : Bool :=
  if c.fence then (earlier s c).isEmpty else !(earlier s c).any (fun d => d.fence)

/-- A command passes its FENCE step. -/
def release (s : State) (c : Cmd) : State := setCmd s { c with stage := .released, since := s.now }

/-- CMD_DECODE: the oldest fetched entry is decoded and takes a tag, for which it waits; `badWords` failed parity and replay (R409, R410,
R413, R447). -/
def cmdDecode (s : State) (badWords : BitVec 16) : State :=
  match s.cmdq.fetched, freeTagNo s with
  | e :: rest, some tag =>
    let place := (sqRange s e.sq 0).1 + 64 * ((e.head.toNat + sqDepth s e.sq - 1) % max (sqDepth s e.sq) 1)
    let s := (bitsOf (badWords &&& ~~~ e.bad).toNat 16).foldl (fun s i => (parFail s (place + 4 * i)).1) s
    let c : Cmd := { tag := tag, sq := e.sq, fn := e.fn, head := e.head, w0 := e.w0, cdw := e.cdw, bad := e.bad ||| badWords }
    let n := s.cmdq.cmds.length + 1
    let s := { s with cmdq := { s.cmdq with
      fetched := rest, cmds := s.cmdq.cmds ++ [c], hwm := if s.cmdq.hwm.toNat < n then BitVec.ofNat 10 n else s.cmdq.hwm } }
    if c.bad ≠ 0 then
      let s := bumpReg s (ro pgCMDQ 0x58) 0 16
      complete (post s pgCMDQ 0 (pack [(0, 6, c.sq), (16, 12, c.head.toNat)])) c.tag 0 5 0 0
    else
      let sc := decodeSc s c
      if sc ≠ 0 then complete s c.tag 0 sc 0 0
      else if passesFence s c then release s c else s
  | _, _ => s

def execCmdDecode (badWords : BitVec 16) (s : State) : Result := .next (cmdDecode s badWords)

/-- FENCE_RELEASE: held commands of an SQ that may now pass do so, in queue order. -/
def execFenceRelease (q : QId) (s : State) : Result :=
  .next ((s.cmdq.cmds.filter (fun c => c.sq == q.val && c.stage == .fenced)).foldl
    (fun s c => if passesFence s c then release s c else s) s)

/-! ### The engine's commands (R416 to R420, R425) -/

/-- A command of an opcode has passed the FENCE step, every earlier command of its SQ has reached its block, and a slot of its CQ is
free: it reserves that slot (R406, R411). -/
def ready (s : State) (tag opc : Nat) : Option Cmd :=
  match cmdOf s tag with
  | none => none
  | some c =>
    let q := sqCq s c.sq
    if c.stage == .released && c.opc == opc && decide (0 < cqFree s q) &&
        !(earlier s c).any (fun d => d.stage == .fenced || d.stage == .released) then some { c with cq := some q }
    else none

/-- The effect of a command that is ready. -/
def onReady (s : State) (tag : Tag) (opc : Nat) (k : Cmd → State → State) : Result :=
  .next (match ready s tag.val opc with | some c => k c (setCmd s c) | none => s)

def execJcpNop (tag : Tag) (s : State) : Result := onReady s tag 0x00 (fun c s => complete s c.tag 0 0 0 0)

/-- VERSION: the lower of VER_MAX and 1.1, in force after its completion (R425). -/
def jcpVersion (c : Cmd) (s : State) : State :=
  let fn := c.fn
  let v := min (fld (c.cw 1) 8 8) 0x11
  let ok := decide (max (fld (c.cw 1) 0 8) 0x10 ≤ v)
  let new := if ok then v else jcpVer s fn
  let s := complete s c.tag 0 (if ok then 0 else 7) (pack [(0, 8, new), (8, 8, 0x10), (16, 8, 0x11)]) (s.boot.feat.setWidth 32)
  setJcpVer s fn (BitVec.ofNat 8 new)

def execJcpVersion (tag : Tag) (s : State) : Result := onReady s tag 0x01 jcpVersion

/-- ABORT: the oldest command of the SQ with the CID (R420). -/
def jcpAbort (c : Cmd) (s : State) : State :=
  let q := fld (c.cw 1) 0 6
  let cid := fld (c.cw 1) 16 16
  match s.cmdq.cmds.find? (fun d => d.sq == q && d.cid == cid && d.tag != c.tag) with
  | none => complete s c.tag 0 0 1 0
  | some d =>
    if d.stage = .fenced then complete (complete s d.tag 0 6 0 0) c.tag 0 0 0 0
    else complete s c.tag 0 0 2 0

def execJcpAbort (tag : Tag) (s : State) : Result := onReady s tag 0x02 jcpAbort

/-- PLAN: PL_CMD's command, complete when WORK returns to 0 or at once when refused (R417, R423). -/
def jcpPlan (c : Cmd) (s : State) : State :=
  fabAccept (setCmd s { c with stage := .running })
    (.plan (fld (c.cw 1) 0 4) c.slotNo (fld (c.cw 1) 16 16) (some (Fin.ofNat 512 c.tag)))

def execJcpPlan (tag : Tag) (s : State) : Result := onReady s tag 0x10 jcpPlan

/-- COMMIT: a request, or a load of the slot's schedule entry (R418); at stage 3 either is NOT_READY (R84). A refused load has no commit record: its result words are
free values (log 5). -/
def jcpCommit (c : Cmd) (s : State) : State :=
  let k := c.slotNo
  let cut := bit (c.cw 1) 4
  if !c.sched then commitRequest (setCmd s { c with stage := .handed }) 3 k cut (some c.tag)
  else if s.boot.stage.val < 4 then complete (tick (tick s)) c.tag 1 1 (freeWord s) (freeWord (tick s))
  else if schedEn s k then complete (tick (tick s)) c.tag 1 5 (freeWord s) (freeWord (tick s))
  else
    let s := setCmd s { c with stage := .handed }
    let s := setReg (setReg s (ro pgCOMMIT (0x100 + 8 * k)) (c.cw 2)) (ro pgCOMMIT (0x104 + 8 * k)) (c.cw 3)
    (schedArm (putReg s (ro pgCOMMIT 0x68) k 1 (b2n cut)) k (some c.tag)).1

def execJcpCommit (tag : Tag) (s : State) : Result := onReady s tag 0x11 jcpCommit

/-- PARK with the mask of CDW2 (R419). -/
def jcpPark (c : Cmd) (s : State) : State :=
  let s := pkCmd s (fld (c.cw 1) 0 4) (c.cw 2)
  complete s c.tag 0 0 (readPark s 0x4C).1 0

def execJcpPark (tag : Tag) (s : State) : Result := onReady s tag 0x12 jcpPark

/-! ### The core's commands (R414, R417, R421) -/

/-- A management command is handed to the running core. -/
def onCore (s : State) (tag : Tag) (opc : Nat) (k : Cmd → State → State) : Result :=
  onReady s tag opc (fun c s => if coreRuns s then k c (setCmd s { c with stage := .mgmt }) else s)

/-- A register access by the core meets a hole, a page without power or a feed page without a link (R34, R571, R573). -/
def coreAccess (s : State) (fn : Fn) (off : Nat) : Verdict × State :=
  let a : Access := { fn := fn, off := off }
  if !isPage (off / 4096) then (.hole, onVerdict s a .hole)
  else if isFeedPage (off / 4096) then (if idlUp s then (.ok, s) else (.feed, onVerdict s a .feed))
  else if !domOn s (pageDom (off / 4096)) then (.domain, onVerdict s a .domain)
  else (.ok, s)

/-- REG_READ. -/
def jcpRegRead (c : Cmd) (s : State) : State :=
  let off := fld (c.cw 1) 0 24
  let fn := c.func
  let r := coreAccess s fn off
  if r.1 ≠ .ok then setRes r.2 c.tag 0 0 0 0
  else match linkedRead s off with
    | some o =>
      if idlUp s then feedAccess s (feedWaitOf fn o none (some (Fin.ofNat 512 c.tag)))
      else setRes (onVerdict s { fn := fn, off := off } .feed) c.tag 0 0 0 0
    | none =>
      let p := pageRead s off
      setRes p.2 c.tag 0 0 p.1 0

def execJcpRegRead (tag : Tag) (s : State) : Result := onCore s tag 0x20 jcpRegRead

/-- REG_WRITE; one to a feed page has its result at the WR_ACK. -/
def jcpRegWrite (c : Cmd) (s : State) : State :=
  let off := fld (c.cw 1) 0 24
  let fn := c.func
  let r := coreAccess s fn off
  if r.1 ≠ .ok then setRes r.2 c.tag 0 0 0 0
  else if isFeedPage (off / 4096) then feedAccess s (feedWaitOf fn off (some (c.cw 2)) (some (Fin.ofNat 512 c.tag)))
  else setRes (pageWrite s fn off (c.cw 2)) c.tag 0 0 0 0

def execJcpRegWrite (tag : Tag) (s : State) : Result := onCore s tag 0x21 jcpRegWrite

/-- TABLE: the page's command, with its result when BUSY clears, or LAST_ERR at once when it is refused or already over. -/
def jcpTable (c : Cmd) (s : State) : State :=
  let page := fld (c.cw 1) 0 9
  match pageTab page with
  | none => s
  | some k =>
    if !domOn s (pageDom page) then setRes (onVerdict s { fn := .pf0, off := ro page 0 } .domain) c.tag 0 0 0 0 else
    let code := fld (c.cw 1) 12 4
    if k = kST ∨ k = kTG ∨ k = kTH then fabAccept s (.table k code (some (Fin.ofNat 512 c.tag)))
    else tableTag (tabCode s k code) k c.tag (tabBusy s k)

def execJcpTable (tag : Tag) (s : State) : Result := onCore s tag 0x22 jcpTable

/-! ### Partition transfers (R422, R466 to R471) -/

/-- PART, offset, length and buffer of a transfer. -/
def Cmd.part (c : Cmd) : Nat := fld (c.cw 1) 0 4
def Cmd.nvOff (c : Cmd) : Nat := (c.cw 2).toNat + (c.cw 3).toNat * 2 ^ 32
def Cmd.nvLen (c : Cmd) : Nat := (c.cw 4).toNat

/-- The Bore address of a buffer that lies wholly in the flash-buffer window or the telemetry staging window (R422). -/
def bufferAt (o len : Nat) : Option Nat :=
  if 0x140_0000 ≤ o ∧ o + len ≤ 0x180_0000 then some (windowAddr 9 o)
  else if 0x60_0000 ≤ o ∧ o + len ≤ 0x80_0000 then some (windowAddr 3 o)
  else none

/-- The bytes of [off, off + len) of a partition, by offset from `off`; a ring's byte x lies at x mod size (R468). -/
def partCells (f : Flash) (part off len : Nat) : List Host.Cell := match part with
  | 0 => cellsFrom f.boot off len 0
  | 1 => cellsFrom f.cal off len 0
  | _ =>
    let m := tabGet (fun _ => ([] : List Host.Cell)) f.rings part
    let size := max (partBytes f part) 1
    let p := off % size
    cellsFrom m p (min len (size - p)) 0 ++ (if size < p + len then cellsFrom m 0 (p + len - size) (size - p) else [])

/-- Flash code of a read, 0 when it is accepted (R467, R468, NOT_MOUNTED). -/
def readCode (f : Flash) (part off len : Nat) : Nat :=
  if !mounted f then 8
  else if 0x40_0000 < len ∨ off % 4 ≠ 0 ∨ len % 4 ≠ 0 then 2
  else if part < 2 then (if partBytes f part < off + len then 1 else 0)
  else if ringHead f part < off + len then 1
  else if off < ringTail f part then 3 else 0

/-- NV_READ: the bytes as they stand at acceptance move at the completion (R471). -/
def jcpNvRead (c : Cmd) (s : State) : State :=
  if c.nvLen = 0 then setRes s c.tag 0 0 0 0 else
  match bufferAt (c.cw 5).toNat c.nvLen with
  | none => setRes s c.tag 0 9 0 0
  | some dst =>
    let e := readCode s.flash c.part c.nvOff c.nvLen
    if e ≠ 0 then setRes s c.tag 1 e 0 0 else
    let m : NvMove := { part := c.part, off := c.nvOff, len := c.nvLen, dst := dst, cells := partCells s.flash c.part c.nvOff c.nvLen }
    match cmdOf s c.tag with
    | some d => setCmd s { d with move := some m, res := some (0, 0, c.cw 4, 0) }
    | none => s

def execJcpNvRead (tag : Tag) (s : State) : Result := onCore s tag 0x30 jcpNvRead

/-- Flash code of a write before its content is judged: READ_ONLY for a partition of none, then the controller's state, the limits
and the partition (R465 to R467, R486). -/
def writeCode (f : Flash) (part off len : Nat) : Nat :=
  if part ≠ 1 then 6
  else if !mounted f then 8
  else if f.state = .quiescing ∨ f.state = .quiesced then 5
  else if f.state = .readOnly then 6
  else if 0x40_0000 < len ∨ off % 4096 ≠ 0 ∨ len % 4096 ≠ 0 then 2
  else if partBytes f 1 < off + len then 1 else 0

/-- The bytes are a whole and correct image of the kind whose place `off` is (R470). -/
def imageOk (cells : List Host.Cell) (off len : Nat) : Bool :=
  let kind := off / 0x200_0000
  let n := payloadLen kind
  decide (off % 0x200_0000 = 0) && decide (kind < 6) && wordAt cells 0 == 0x4C41_4358 && wordAt cells 4 == BitVec.ofNat 32 kind
    && wordAt cells 12 == BitVec.ofNat 32 n && decide (len = (64 + n + 4095) / 4096 * 4096)
    && wordAt cells 0x3C == imageCrc cells 0 n

/-- NV_WRITE: a CAL image is taken from the buffer and waits to become durable; a buffer of
which a word is not delivered holds no correct image (R393, R422, R466, R470, R475). -/
def jcpNvWrite (c : Cmd) (s : State) : State :=
  if c.nvLen = 0 then setRes s c.tag 0 0 0 0 else
  match bufferAt (c.cw 5).toNat c.nvLen with
  | none => setRes s c.tag 0 9 0 0
  | some src =>
    let e := writeCode s.flash c.part c.nvOff c.nvLen
    if e ≠ 0 then setRes s c.tag 1 e 0 0 else
    let p := parSpan s src c.nvLen
    let s := p.1
    if !p.2 then setRes s c.tag 1 7 0 0 else
    let cells := cellsFrom s.bore.mem src c.nvLen 0
    if !imageOk cells c.nvOff c.nvLen then setRes s c.tag 1 7 0 0 else
    let kind := c.nvOff / 0x200_0000
    let image := cells.filter (fun b => decide (b.1 < 64 + payloadLen kind))
    { s with flash := { s.flash with pending := s.flash.pending ++ [.cal kind image c.nvLen (some c.tag)] } }

def execJcpNvWrite (tag : Tag) (s : State) : Result := onCore s tag 0x31 jcpNvWrite

/-! ### Completion, time-out and an absent core (R414, R417, R423) -/

/-- The page's status register as a TABLE completion carries it. -/
def tableStatus (s : State) (page : Nat) : Word :=
  let o := match page with | 0x00F => 0x48 | 0x011 => 0x54 | 0x012 => 0x74 | 0x013 => 0x48 | _ => 0x44
  (pageRead s (ro page o)).1

/-- The words of a transfer's buffer, lowest first. -/
def moveWords (m : NvMove) : List Word :=
  let cells := m.cells.filter (fun b => decide (b.1 < m.len))
  (List.range (m.len / 4)).map (fun i => wordAt cells (4 * i))

/-- MGMT_COMPLETE: the core has the result; a transfer's bytes move into the buffer first. -/
def mgmtComplete (s : State) (tag : Nat) : State :=
  match cmdOf s tag with
  | none => s
  | some c =>
    if c.stage ≠ .mgmt ∨ !coreRuns s then s else
    match c.res with
    | none => s
    | some (sct, sc, d0, d1) =>
      let s := match c.move with | some m => setBores s m.dst (moveWords m) | none => s
      complete s tag sct sc (if c.opc = 0x22 then tableStatus s (fld (c.cw 1) 0 9) else d0) d1

def execMgmtComplete (tag : Tag) (s : State) : Result := .next (mgmtComplete s tag.val)

/-- MGMT_TIMEOUT: MGMT_MS have passed since the engine handed the command to the core, whether the core has acted on it or not. -/
def execMgmtTimeout (tag : Tag) (s : State) : Result :=
  .next (match cmdOf s tag.val with
    | some c =>
      let handed := c.stage == .mgmt || (ready s tag.val c.opc).isSome
      let ms := max (regFld s (ro pgCMDQ 0x40) 0 8) 1
      if mgmtOp c.opc && handed && coreRuns s && decide (c.since + ms * 1200000 ≤ s.now) then
        dropTag (complete (post s pgCMDQ 2 (BitVec.ofNat 32 tag.val)) tag.val 0 0x0A 0 0) tag.val
      else s
    | none => s)

/-- CORE_UNAVAILABLE. -/
def execCoreUnavailable (tag : Tag) (s : State) : Result :=
  .next (match cmdOf s tag.val with
    | some c =>
      if mgmtOp c.opc ∧ (c.stage = .released ∨ c.stage = .mgmt) ∧ !coreRuns s then
        dropTag (complete (post s pgCMDQ 3 (BitVec.ofNat 32 tag.val)) tag.val 0 8 0 0) tag.val
      else s
    | none => s)

end Sys2Proof.Machine
end

