-- ==== Sys2Proof/Machine/Host.lean ====
section
/-! DEFINITION. The PCIe link, function resets, D3hot, MSI-X masks and PCIe errors as the host or the link brings them about
(R428, R431, R435 to R438), and the block reset of a TILE page (R165, R614). -/

namespace Sys2Proof.Machine

/-- The function's configuration space can be reached: the drive die has power and the link is up. -/
def configUp (s : State) : Bool := driveOn s && s.host.linkUp

/-- POISONED_RX (R431): the write is discarded, HS_ERR.POISONED_RX counts and POISONED_RX is sent. -/
def execPoisonedRx (woff : BitVec 24) (s : State) : Result :=
  .next (if configUp s then post (bumpReg s (ro pgHOST 0x48) 24 8) pgHOST 4 (woff.setWidth 32) else s)

/-- FLR (R437). -/
def execFlr (fn : Fn) (s : State) : Result := .next (if configUp s then flr s (fnNum fn) else s)

/-- PERST_ASSERT (R17, R436): the link goes down and a DRST with cause PERST takes place. -/
def execPerstAssert (s : State) : Result := .next (if driveOn s then drstFx (linkDown s) 1 else s)

/-- HOT_RESET (R436, R437): the link goes down to train again, every function takes an FLR and the configuration space is reset, AER
status with it (log 16). -/
def execHotReset (s : State) : Result :=
  .next (if driveOn s then linkReset s else s)

/-- D3HOT_ENTER (R438). -/
def execD3hotEnter (fn : Fn) (s : State) : Result :=
  .next (if configUp s then { s with host := { s.host with d3 := s.host.d3 ||| BitVec.ofNat 3 (2 ^ fnNum fn) } } else s)

/-- The pending message of a vector is sent if nothing holds it back any longer (R435). -/
def msixRelease (s : State) (fn vec : Nat) : State :=
  let key := fn * 32 + vec
  if tabGet (fun _ => false) s.host.msixPend key then
    sendMsi { s with host := { s.host with msixPend := tabSet (fun _ => false) s.host.msixPend key false } } fn vec
  else s

/-- D3HOT_EXIT (R438): the function decodes its BARs and sends its interrupts again, those kept in the meantime among them
(log 14). -/
def execD3hotExit (fn : Fn) (s : State) : Result :=
  .next (if configUp s && s.host.d3.getLsbD (fnNum fn) then
    let s := { s with host := { s.host with d3 := s.host.d3 &&& ~~~ (BitVec.ofNat 3 (2 ^ fnNum fn)) } }
    (List.range 32).foldl (fun s v => msixRelease s (fnNum fn) v) s
  else s)

/-- MSIX_UNMASK (R429, R435): the function writes a word of its MSI-X table in BAR4. One that clears the Mask bit of a vector's control
word, with MSI-X Enable of the function set (log 14), sends the vector's pending message. -/
def execMsixUnmask (fn : Fn) (w : TableWrite) (s : State) : Result :=
  let off := w.off
  let v := w.v
  .next (if !hostReach s fn || decide (0x200 ≤ off.toNat) then s else
    let n := fnNum fn
    let vec := off.toNat / 16
    let i := off.toNat / 4 % 4
    let h := s.host
    let kept : Word := match i with | 0 => v &&& 0xFFFF_FFFC | 3 => v &&& 1 | _ => v
    let s := { s with host := { h with
      msixTab := tabSet (fun k => if k % 4 = 3 then 1 else 0) h.msixTab (n * 128 + vec * 4 + i) kept } }
    if i = 3 ∧ !bit v 0 then
      msixRelease { s with host := { s.host with msixEn := s.host.msixEn ||| BitVec.ofNat 3 (2 ^ n) } } n vec
    else s)

/-- PCIE_LINK_UP (R428, R436): the link has trained at a speed and width that it supports, 20 ms or more after stage 2 began; LINK_DOWN
is no longer live. -/
def execPcieLinkUp (speed width : BitVec 6) (s : State) : Result :=
  .next (if driveOn s && s.power.refOk && !s.host.linkUp && decide (2 ≤ s.boot.stage.val) && decide (s.boot.stage2At + 24_000_000 ≤ s.now)
      && linkCan speed.toNat width.toNat && decide (speed.toNat ≤ regFld s (ro pgHOST 0x44) 0 4) then
    { s with host := { s.host with linkUp := true, speed := speed.setWidth 4, width := width } }
  else s)

/-- HS_RETRAIN (R436): RETRAIN of HS_CTRL, at P0. -/
def execHsRetrain (fn : Fn) (s : State) : Result := .next (wr s fn pgHOST 0x44 0 pcieRetrain)

/-- The status stands in the AER capability of every function (R428). -/
def aerNote (s : State) (corr : Bool) (status : Word) : State :=
  [0, 1, 2].foldl (fun s fn =>
    let k := 2 * fn + b2n corr
    { s with host := { s.host with aer := tabSet (fun _ => 0) s.host.aer k (tabGet (fun _ => (0 : Word)) s.host.aer k ||| status) } }) s

/-- PCIE_ERROR (R428 and the HOST page): every function's AER status takes the error, HS_ERR counts and PCIE_CORR or PCIE_UNCORR is sent
with the AER status. -/
def execPcieError (corr : Bool) (status : Word) (s : State) : Result :=
  .next (if driveOn s then
    post (bumpReg (aerNote s corr status) (ro pgHOST 0x48) (if corr then 0 else 12) 12) pgHOST (if corr then 2 else 1) status
  else s)

/-- TILE_BLK_RESET (R165, R581, R614): a write of PG_CTRL.BLK_RST on a TILE page. -/
def execTileBlkReset (fn : Fn) (t : Tile) (s : State) : Result := headerAccess s fn (BitVec.ofNat 9 (pgTILE t)) 0x0C 1

end Sys2Proof.Machine
end

