-- ==== Sys2Proof/Machine/Smbus.lean ====
section
/-! DEFINITION. The two SMBus ports: the forerunner view and the register window of the feed-die port, the read-only drive-die port
(R72, R77, R324, R453, R454), and the two alert pins. A response stands in `host.smb`, lowest byte first; an empty list is a command
that is not acknowledged. -/

namespace Sys2Proof.Machine

/-- The lowest `n` bytes of a number, lowest first. -/
def leBytes (n v : Nat) : List Byte := (List.range n).map (fun k => BitVec.ofNat 8 (v / 256 ^ k))

/-- A response on either port. -/
def smbAnswer (s : State) (b : List Byte) : State := { s with host := { s.host with smb := b } }

/-- The ports' 7-bit addresses (R453). -/
def fdSmbAddress : BitVec 7 := 0x40 + Config.fAddr.setWidth 7
def ddSmbAddress : BitVec 7 := 0x48 + Config.dAddr.setWidth 7

/-! ### The feed-die port, live from stage 0 -/

/-- The feed-die port answers while the port is live. -/
def fdRead (s : State) (b : List Byte) : State := smbAnswer s (if s.fd.armed then b else [])

/-- A meter result in the units of the forerunner view: rounded to the nearest, saturated (R324; log 39). -/
def frWord (lo hi : Int) (v : Int) (d : Nat) : List Byte := leBytes 2 (unsigned 16 (clampI lo hi (roundDiv v d)))
def frUnsigned (v : Int) (d : Nat) : List Byte := frWord 0 65535 v d
def frSigned (v : Int) (d : Nat) : List Byte := frWord (-32768) 32767 v d

def execFrVinA (s : State) : Result := .next (fdRead s (frUnsigned (meterRes s 0) 50))
def execFrIinA (s : State) : Result := .next (fdRead s (frSigned (meterRes s 1) 80))
def execFrVinB (s : State) : Result := .next (fdRead s (frUnsigned (meterRes s 2) 50))
def execFrIinB (s : State) : Result := .next (fdRead s (frSigned (meterRes s 3) 80))
def execFrVout (s : State) : Result := .next (fdRead s (frUnsigned (meterRes s 4) 80))
def execFrIout (s : State) : Result := .next (fdRead s (frSigned (meterRes s 5) 40))

/-- FR_PIN (R324): the mean powers of the period, A plus B. -/
def execFrPin (s : State) : Result :=
  .next (fdRead s (frUnsigned ((getReg s (ro pgMETER 0x70)).toNat + (getReg s (ro pgMETER 0x74)).toNat) 10))
def execFrTemp (s : State) : Result := .next (fdRead s (frSigned (meterRes s 7) 100))

/-- FR_STATUS (R324): OVR and OPEN of the latest period; FRESH is cleared by this read. -/
def execFrStatus (s : State) : Result :=
  let st := getReg s (ro pgMETER 0x48)
  let w := pack [(0, 8, fld st 16 8), (8, 1, b2n (fld st 24 8 != 0)), (9, 1, b2n s.fd.fresh)]
  .next (if s.fd.armed then fdRead { s with fd := { s.fd with fresh := false } } (leBytes 2 w.toNat) else fdRead s [])
def execFrEnergy (s : State) : Result := .next (fdRead s (leBytes 8 (min (s.fd.energyA + s.fd.energyB) (2 ^ 64 - 1))))

/-- A write without a correct PEC is discarded with 2 BAD_PEC (R454). -/
def badPec (s : State) : State := { s with host := { s.host with fdRes := 2 } }

/-- FD_SMB_ADDR (R454): a write sets the offset, a read returns it. -/
def execSmbFdAddr (w : Option (BitVec 16)) (pecOk : Bool) (s : State) : Result :=
  .next (if !s.fd.armed then smbAnswer s [] else match w with
    | none => smbAnswer s (leBytes 2 s.host.fdOffset.toNat)
    | some v => if pecOk then { s with host := { s.host with fdOffset := v } } else badPec s)

/-- The byte offset in BAR0 that FD_SMB_ADDR names, word-aligned; none beyond the seven pages. -/
def fdTarget (s : State) : Option Nat :=
  let o := (s.host.fdOffset.setWidth 15).toNat / 4 * 4
  if o < 0x7000 then some (0x10_0000 + o) else none

/-- An offset of a feed page that holds no register. -/
def feedReserved (off : Nat) : Bool := if off % 4096 < 0x40 then decide (0x30 ≤ off % 4096) else (regRow off).isNone

/-- The access's result, and OFFSET advanced by 4 with AUTOINC (SMBus table of chapter 13). -/
def fdDone (s : State) (res : Nat) : State :=
  let o := s.host.fdOffset
  let next : BitVec 16 := if o.getLsbD 15 then (o &&& 0x8000) ||| ((o + 4) &&& 0x7FFF) else o
  { s with host := { s.host with fdRes := BitVec.ofNat 16 res, fdOffset := next } }

/-- FD_SMB_DATA read: the register at OFFSET, at P0 (R445). -/
def fdDataRead (s : State) : State := match fdTarget s with
  | none => fdDone (smbAnswer s (leBytes 4 0)) 3
  | some off =>
    if feedReserved off then fdDone (smbAnswer s (leBytes 4 0)) 1
    else
      let r := feedRead s off
      fdDone (smbAnswer r.2 (leBytes 4 r.1.toNat)) 0

/-- FD_SMB_DATA write: the register at OFFSET, at P0 (R77, R445); 1 REFUSED under R75, R76 or at a reserved offset. -/
def fdDataWrite (s : State) (v : Word) : State := match fdTarget s with
  | none => fdDone s 3
  | some off =>
    if feedReserved off then fdDone s 1
    else
      let refused := settingRefused s off v
      fdDone (feedStore s off v 3) (if refused then 1 else 0)

/-- FD_SMB_DATA (R454). -/
def execSmbFdData (w : Option Word) (pecOk : Bool) (s : State) : Result :=
  .next (if !s.fd.armed then smbAnswer s [] else match w with
    | none => fdDataRead s
    | some v => if pecOk then fdDataWrite s v else badPec s)

/-- FD_SMB_RES (R454). -/
def execSmbFdRes (s : State) : Result := .next (fdRead s (leBytes 2 s.host.fdRes.toNat))

/-- FD_SMB_RESET (R72): 0xA5, 0xC1 starts FRST; any other value is discarded. -/
def execFdSmbReset (b0 b1 : Byte) (pecOk : Bool) (s : State) : Result :=
  .next (if !s.fd.armed then smbAnswer s []
    else if !pecOk then badPec s
    else if b0 = 0xA5 ∧ b1 = 0xC1 then frst s else s)

/-! ### The drive-die port, live from stage 2 and read-only -/

/-- The drive-die port answers from stage 2 on. -/
def ddRead (s : State) (b : List Byte) : State := smbAnswer s (if driveOn s && decide (2 ≤ s.boot.stage.val) then b else [])

/-- Bytes of a BOOT register. -/
def ddReg (s : State) (o n : Nat) : List Byte := leBytes n (pageRead s (ro pgBOOT o)).1.toNat

def execDdStage (s : State) : Result := .next (ddRead s (ddReg s 0x40 2))
def execDdPair (s : State) : Result := .next (ddRead s (ddReg s 0x4C 4))
def execDdVers (s : State) : Result := .next (ddRead s (ddReg s 0x50 4 ++ ddReg s 0x54 4 ++ ddReg s 0x58 4 ++ ddReg s 0x5C 4))
def execDdBond (s : State) : Result := .next (ddRead s (ddReg s 0x6C 4 ++ ddReg s 0x70 4))
def execDdLink (s : State) : Result := .next (ddRead s (leBytes 2 (hsLink s).toNat))
def execDdTemp (s : State) : Result :=
  .next (ddRead s (leBytes 2 (if s.thermal.updated then temp10 s.thermal.tth else 0x8000)))

/-- SMB_CLOCK_LOW_TIMEOUT (R453): the port resets and the transfer in progress is gone; its registers stay (log 39). -/
def execSmbClockLowTimeout (port : Die) (s : State) : Result :=
  .next (if (match port with | .feed => s.fd.armed | .drive => driveOn s) then smbAnswer s [] else s)

/-! ### The alert pins -/

/-- FD_ALERT# is asserted while PG_IRQ_STAT AND PG_IRQ_EN is non-zero on any feed-die page. -/
def fdAlert (s : State) : Bool :=
  s.fd.armed && (List.range 7).any (fun p => getReg s (ro (0x100 + p) 0x14) &&& getReg s (ro (0x100 + p) 0x18) != 0)

/-- DD_ALERT# is asserted while BT_STAGE.HOLD_WHY is not 0 NONE. -/
def ddAlert (s : State) : Bool := driveOn s && s.boot.holdWhy != 0

end Sys2Proof.Machine
end

