-- ==== Sys2Proof/Machine/Time.lean ====
section
/-! DEFINITION. What the passing of one cycle of the nominal core clock does by itself, when no command waits: the counts of time run.
Everything that falls due at a time is a command of the table (log 4). -/

namespace Sys2Proof.Machine

/-- Drone phase per cycle: 4.096 MHz against 1.2 GHz is 512 in 150,000. -/
abbrev dronePerCc : Nat := 512
abbrev droneUnit : Nat := 150000

/-- A remaining cool-down counts down by the millisecond; its last one ends with COOLDOWN_EXPIRED (R49). -/
def coolTick (g : FeedSt) : FeedSt :=
  if 1 < g.tr.coolMs.toNat then { g with tr := { g.tr with coolMs := g.tr.coolMs - 1 } } else g

/-- A tick of the feed die's drone oscillator, counted while a feed powers the die. -/
def feedTick (s : State) : State :=
  if !s.fd.supply then s else
  let s := { s with droneF := s.droneF + 1 }
  if s.droneF % 4096 = 0 then { s with feedA := coolTick s.feedA, feedB := coolTick s.feedB } else s

/-- A tick of the drive die's drone oscillator. -/
def driveTick (s : State) : State := if driveOn s then { s with droneD := s.droneD + 1 } else s

/-- Shelf time passes one cycle; a slew changes it by 1/16 cc in 313 cycles, below 200 ppm (R546, R548). -/
def shelfTick (s : State) : State :=
  if !driveOn s then s else
  let l := s.shelf
  let due := s.now % 313 = 0
  if due ∧ l.slew16 < 0 then { s with shelf := { l with time16 := l.time16 + 15, slew16 := l.slew16 + 1 } }
  else if due ∧ 0 < l.slew16 then { s with shelf := { l with time16 := l.time16 + 17, slew16 := l.slew16 - 1 } }
  else { s with shelf := { l with time16 := l.time16 + 16 } }

/-- Each pending request whose slot has READY 0 counts the cycle (R203). -/
def waitTick (s : State) : State :=
  { s with reqs := s.reqs.map (fun p => if (slot s p.1).ready then p else (p.1, { p.2 with waited := p.2.waited + 1 })) }

/-- What the cycle leaves for the idle times of R525 and the descent of R535: whether there is work, and whether the request stands below the
level. -/
def powerTick (s : State) : State :=
  { s with power := { s.power with
    workAt := if hasWork s then s.now + 1 else s.power.workAt
    belowFrom := if request s < level s then some (s.power.belowFrom.getD s.now) else none } }

/-- The settle hold of a frozen reed counts from the end of its tongues (R338). -/
def settleTick (s : State) : State :=
  { s with reeds := s.reeds.map (fun p =>
      if p.2.frozen && (reedPlays s p.1 || s.chans.any (fun e => e.1 / 32 == p.1 && e.2.waiting.isSome)) then
        (p.1, { p.2 with settleFrom := s.now + 1 })
      else p) }

/-- One cycle of the nominal core clock passes. -/
def idle (s : State) : State :=
  let p := s.phase + dronePerCc
  let s := settleTick (powerTick s)
  let s := waitTick (shelfTick { s with now := s.now + 1 })
  if droneUnit ≤ p then driveTick (feedTick { s with phase := p - droneUnit }) else { s with phase := p }

end Sys2Proof.Machine
end

