-- ==== Sys2Proof/Machine/Dispatch.lean ====
section
/-! DEFINITION. The meaning of each command: one arm per constructor, one direct call. -/

namespace Sys2Proof.Machine

/-- The effect of a command on everything but the queue. -/
def exec (i : Instr) (s : State) : Host.Outcome State Fault Refusal :=
  match i with
  | .por => Sys2Proof.Machine.execPor s
  | .feedSupplyStart f recordsKept => Sys2Proof.Machine.execFeedSupplyStart f recordsKept s
  | .otpProfileLoaded profile crcOk => Sys2Proof.Machine.execOtpProfileLoaded profile crcOk s
  | .holdLow vHold => Sys2Proof.Machine.execHoldLow vHold s
  | .presAsserted f => Sys2Proof.Machine.execPresAsserted f s
  | .presDeasserted f => Sys2Proof.Machine.execPresDeasserted f s
  | .windowEnter f v => Sys2Proof.Machine.execWindowEnter f v s
  | .windowLeave f v => Sys2Proof.Machine.execWindowLeave f v s
  | .uvTrip f v => Sys2Proof.Machine.execUvTrip f v s
  | .ovTrip f v => Sys2Proof.Machine.execOvTrip f v s
  | .cooldownExpired f => Sys2Proof.Machine.execCooldownExpired f s
  | .insertionDelayExpired f vFeed vSled otherToo => Sys2Proof.Machine.execInsertionDelayExpired f vFeed vSled otherToo s
  | .startTimerExpired f vSled => Sys2Proof.Machine.execStartTimerExpired f vSled s
  | .gateCheckTimeout f gateSrc => Sys2Proof.Machine.execGateCheckTimeout f gateSrc s
  | .vdsEnhance f => Sys2Proof.Machine.execVdsEnhance f s
  | .gateDwellDone f energyMj => Sys2Proof.Machine.execGateDwellDone f energyMj s
  | .currentLimitEnter f cur => Sys2Proof.Machine.execCurrentLimitEnter f cur s
  | .currentLimitExit f cur => Sys2Proof.Machine.execCurrentLimitExit f cur s
  | .timedLimitExpired f cur => Sys2Proof.Machine.execTimedLimitExpired f cur s
  | .fastTrip f cur => Sys2Proof.Machine.execFastTrip f cur s
  | .reverseCurrentTrip f cur => Sys2Proof.Machine.execReverseCurrentTrip f cur s
  | .blockedRecover f vFeed vSled => Sys2Proof.Machine.execBlockedRecover f vFeed vSled s
  | .consecCountReset f => Sys2Proof.Machine.execConsecCountReset f s
  | .fdOff f lastOk clrLatch => Sys2Proof.Machine.execFdOff f lastOk clrLatch s
  | .fdOn f clrLatch => Sys2Proof.Machine.execFdOn f clrLatch s
  | .fdClrLatch f off => Sys2Proof.Machine.execFdClrLatch f off s
  | .fdInsDelayWrite f v => Sys2Proof.Machine.execFdInsDelayWrite f v s
  | .fdFoldbackWrite f v => Sys2Proof.Machine.execFdFoldbackWrite f v s
  | .fdFastTripWrite f v => Sys2Proof.Machine.execFdFastTripWrite f v s
  | .itripComparatorMove f => Sys2Proof.Machine.execItripComparatorMove f s
  | .fdSagWrite f v => Sys2Proof.Machine.execFdSagWrite f v s
  | .tripCaptureDone samples => Sys2Proof.Machine.execTripCaptureDone samples s
  | .trRelease arm => Sys2Proof.Machine.execTrRelease arm s
  | .trRdDataRead => Sys2Proof.Machine.execTrRdDataRead s
  | .rebalanceSettled permille => Sys2Proof.Machine.execRebalanceSettled permille s
  | .rebalanceTimeout => Sys2Proof.Machine.execRebalanceTimeout s
  | .atLimitSet => Sys2Proof.Machine.execAtLimitSet s
  | .atLimitClear => Sys2Proof.Machine.execAtLimitClear s
  | .shCtrlWrite v => Sys2Proof.Machine.execShCtrlWrite v s
  | .shareErr permille => Sys2Proof.Machine.execShareErr permille s
  | .sagDetect f v => Sys2Proof.Machine.execSagDetect f v s
  | .sagSustained f v => Sys2Proof.Machine.execSagSustained f v s
  | .sagClear f v => Sys2Proof.Machine.execSagClear f v s
  | .busSagSet vSled => Sys2Proof.Machine.execBusSagSet vSled s
  | .railSeqStart => Sys2Proof.Machine.execRailSeqStart s
  | .railStepDone => Sys2Proof.Machine.execRailStepDone s
  | .railPgTimeout rail => Sys2Proof.Machine.execRailPgTimeout rail s
  | .railPgFall rail => Sys2Proof.Machine.execRailPgFall rail s
  | .hvLost v => Sys2Proof.Machine.execHvLost v s
  | .railLost rail => Sys2Proof.Machine.execRailLost rail s
  | .downSeqStep => Sys2Proof.Machine.execDownSeqStep s
  | .retryWaitExpired => Sys2Proof.Machine.execRetryWaitExpired s
  | .railConsecReset => Sys2Proof.Machine.execRailConsecReset s
  | .pgIbLossEnablesDrop => Sys2Proof.Machine.execPgIbLossEnablesDrop s
  | .psStop => Sys2Proof.Machine.execPsStop s
  | .psStart => Sys2Proof.Machine.execPsStart s
  | .psClrLatch => Sys2Proof.Machine.execPsClrLatch s
  | .dtinArmed => Sys2Proof.Machine.execDtinArmed s
  | .tCritStop => Sys2Proof.Machine.execTCritStop s
  | .fsReset v => Sys2Proof.Machine.execFsReset v s
  | .feedWatchdogReset => Sys2Proof.Machine.execFeedWatchdogReset s
  | .driveRailsUp => Sys2Proof.Machine.execDriveRailsUp s
  | .driveRailsLost => Sys2Proof.Machine.execDriveRailsLost s
  | .stage2Entry => Sys2Proof.Machine.execStage2Entry s
  | .parkLoaderStart => Sys2Proof.Machine.execParkLoaderStart s
  | .parkStrobe loadUs => Sys2Proof.Machine.execParkStrobe loadUs s
  | .padTestDone vLow dflt drv monDflt mon => Sys2Proof.Machine.execPadTestDone vLow dflt drv monDflt mon s
  | .bootSlotSelect => Sys2Proof.Machine.execBootSlotSelect s
  | .sfwVerified => Sys2Proof.Machine.execSfwVerified s
  | .stage3Entry queuesLive => Sys2Proof.Machine.execStage3Entry queuesLive s
  | .stage3Deadline => Sys2Proof.Machine.execStage3Deadline s
  | .trialExpired => Sys2Proof.Machine.execTrialExpired s
  | .stage4CalLoad kind => Sys2Proof.Machine.execStage4CalLoad kind s
  | .stage4Entry => Sys2Proof.Machine.execStage4Entry s
  | .btConfirm fn key => Sys2Proof.Machine.execBtConfirm fn key s
  | .btActivate fn key => Sys2Proof.Machine.execBtActivate fn key s
  | .btForcePair fn key => Sys2Proof.Machine.execBtForcePair fn key s
  | .btUpdWrite fn => Sys2Proof.Machine.execBtUpdWrite fn s
  | .updWriteDone ok => Sys2Proof.Machine.execUpdWriteDone ok s
  | .btUpdSeal fn => Sys2Proof.Machine.execBtUpdSeal fn s
  | .updSealDone ok => Sys2Proof.Machine.execUpdSealDone ok s
  | .btUpdAbort fn => Sys2Proof.Machine.execBtUpdAbort fn s
  | .btBondLimWrite fn v => Sys2Proof.Machine.execBtBondLimWrite fn v s
  | .btBondDataRead fn => Sys2Proof.Machine.execBtBondDataRead fn s
  | .btPadtestStart fn v => Sys2Proof.Machine.execBtPadtestStart fn v s
  | .padtestRepeatDone vLow dflt drv monDflt mon => Sys2Proof.Machine.execPadtestRepeatDone vLow dflt drv monDflt mon s
  | .warmReset => Sys2Proof.Machine.execWarmReset s
  | .drst => Sys2Proof.Machine.execDrst s
  | .coreWatchdog => Sys2Proof.Machine.execCoreWatchdog s
  | .coreRestartDone => Sys2Proof.Machine.execCoreRestartDone s
  | .idlTrainStart => Sys2Proof.Machine.execIdlTrainStart s
  | .idlTrain receiver verMin verMax lanesOk => Sys2Proof.Machine.execIdlTrain receiver verMin verMax lanesOk s
  | .idlLinkUp => Sys2Proof.Machine.execIdlLinkUp s
  | .idlFrameError receiver => Sys2Proof.Machine.execIdlFrameError receiver s
  | .idlNak receiver seq => Sys2Proof.Machine.execIdlNak receiver seq s
  | .idlLinkLost => Sys2Proof.Machine.execIdlLinkLost s
  | .idlPush0 => Sys2Proof.Machine.execIdlPush0 s
  | .idlPush1 => Sys2Proof.Machine.execIdlPush1 s
  | .idlRdReq => Sys2Proof.Machine.execIdlRdReq s
  | .idlRdData latNs => Sys2Proof.Machine.execIdlRdData latNs s
  | .idlWrAddr => Sys2Proof.Machine.execIdlWrAddr s
  | .idlWrData => Sys2Proof.Machine.execIdlWrData s
  | .idlWrAck => Sys2Proof.Machine.execIdlWrAck s
  | .idlDrone => Sys2Proof.Machine.execIdlDrone s
  | .idlDroneSend => Sys2Proof.Machine.execIdlDroneSend s
  | .idlBell0 => Sys2Proof.Machine.execIdlBell0 s
  | .idlBell1 => Sys2Proof.Machine.execIdlBell1 s
  | .idlHeldBellSend => Sys2Proof.Machine.execIdlHeldBellSend s
  | .idRetrain fn => Sys2Proof.Machine.execIdRetrain fn s
  | .limiterEngage ch => Sys2Proof.Machine.execLimiterEngage ch s
  | .shortFuse ch => Sys2Proof.Machine.execShortFuse ch s
  | .complDetect ch => Sys2Proof.Machine.execComplDetect ch s
  | .complFuse ch => Sys2Proof.Machine.execComplFuse ch s
  | .chConsecReset ch => Sys2Proof.Machine.execChConsecReset ch s
  | .tlChRelease fn t all => Sys2Proof.Machine.execTlChRelease fn t all s
  | .tlChUnlock fn t all => Sys2Proof.Machine.execTlChUnlock fn t all s
  | .tlChOff fn t all => Sys2Proof.Machine.execTlChOff fn t all s
  | .tlChOn fn t all => Sys2Proof.Machine.execTlChOn fn t all s
  | .tlChClrFlags fn t all => Sys2Proof.Machine.execTlChClrFlags fn t all s
  | .tlChCfgWrite fn t v => Sys2Proof.Machine.execTlChCfgWrite fn t v s
  | .tlChPwrRead fn t => Sys2Proof.Machine.execTlChPwrRead fn t s
  | .pStale ch => Sys2Proof.Machine.execPStale ch s
  | .iCheck ch => Sys2Proof.Machine.execICheck ch s
  | .isumMismatch t diffMa => Sys2Proof.Machine.execIsumMismatch t diffMa s
  | .pkParkAll fn => Sys2Proof.Machine.execPkParkAll fn s
  | .pkParkTiles fn => Sys2Proof.Machine.execPkParkTiles fn s
  | .parkEventReachTile t => Sys2Proof.Machine.execParkEventReachTile t s
  | .pkUpdate fn => Sys2Proof.Machine.execPkUpdate fn s
  | .pkUpdateDone failedCopy verify => Sys2Proof.Machine.execPkUpdateDone failedCopy verify s
  | .pkApply fn => Sys2Proof.Machine.execPkApply fn s
  | .pkApplyDone => Sys2Proof.Machine.execPkApplyDone s
  | .pkReload fn => Sys2Proof.Machine.execPkReload fn s
  | .pkReloadDone => Sys2Proof.Machine.execPkReloadDone s
  | .pkDataAccess fn w => Sys2Proof.Machine.execPkDataAccess fn w s
  | .valveRejoin t v => Sys2Proof.Machine.execValveRejoin t v s
  | .valveLimitEnter t v cur => Sys2Proof.Machine.execValveLimitEnter t v cur s
  | .valveLimitExit t v cur => Sys2Proof.Machine.execValveLimitExit t v cur s
  | .valveLimitExpired t v cur => Sys2Proof.Machine.execValveLimitExpired t v cur s
  | .valveFastTrip t v cur => Sys2Proof.Machine.execValveFastTrip t v cur s
  | .valveReverseBlock t v rail => Sys2Proof.Machine.execValveReverseBlock t v rail s
  | .softStartDone t v => Sys2Proof.Machine.execSoftStartDone t v s
  | .softStartTimeout t v cur => Sys2Proof.Machine.execSoftStartTimeout t v cur s
  | .tlValveRelease fn t v rail => Sys2Proof.Machine.execTlValveRelease fn t v rail s
  | .tlValveOff fn t v => Sys2Proof.Machine.execTlValveOff fn t v s
  | .tlValveOn fn t v => Sys2Proof.Machine.execTlValveOn fn t v s
  | .tileDark t => Sys2Proof.Machine.execTileDark t s
  | .reedRefFail r => Sys2Proof.Machine.execReedRefFail r s
  | .refTransferDone r => Sys2Proof.Machine.execRefTransferDone r s
  | .backupFail t disagree => Sys2Proof.Machine.execBackupFail t disagree s
  | .backupRecover t => Sys2Proof.Machine.execBackupRecover t s
  | .tlRefReturn fn t q inWindow => Sys2Proof.Machine.execTlRefReturn fn t q inWindow s
  | .tileBlkReset fn t => Sys2Proof.Machine.execTileBlkReset fn t s
  | .bar2SetpointWrite fn off data => Sys2Proof.Machine.execBar2SetpointWrite fn off data s
  | .stLoad fn => Sys2Proof.Machine.execStLoad fn s
  | .stLoadDone ok => Sys2Proof.Machine.execStLoadDone ok s
  | .stSave fn => Sys2Proof.Machine.execStSave fn s
  | .stSaveDone ok => Sys2Proof.Machine.execStSaveDone ok s
  | .stCheck fn => Sys2Proof.Machine.execStCheck fn s
  | .plOpen fn slot => Sys2Proof.Machine.execPlOpen fn slot s
  | .plStage fn slot count => Sys2Proof.Machine.execPlStage fn slot count s
  | .expansionDone slot => Sys2Proof.Machine.execExpansionDone slot s
  | .admissionDone slot => Sys2Proof.Machine.execAdmissionDone slot s
  | .admissionResume => Sys2Proof.Machine.execAdmissionResume s
  | .plArm fn slot => Sys2Proof.Machine.execPlArm fn slot s
  | .armCopyVerified slot => Sys2Proof.Machine.execArmCopyVerified slot s
  | .planParityRepair slot ch => Sys2Proof.Machine.execPlanParityRepair slot ch s
  | .plDisarm fn slot => Sys2Proof.Machine.execPlDisarm fn slot s
  | .plRelease fn slot => Sys2Proof.Machine.execPlRelease fn slot s
  | .bar2DeltaWrite fn off data => Sys2Proof.Machine.execBar2DeltaWrite fn off data s
  | .syncInEdge falling => Sys2Proof.Machine.execSyncInEdge falling s
  | .commitNow fn slot cut => Sys2Proof.Machine.execCommitNow fn slot cut s
  | .scheduleFire slot => Sys2Proof.Machine.execScheduleFire slot s
  | .cmSchedArm fn slot => Sys2Proof.Machine.execCmSchedArm fn slot s
  | .cmSchedCancel fn slot => Sys2Proof.Machine.execCmSchedCancel fn slot s
  | .cmSchedTWrite fn slot hi v => Sys2Proof.Machine.execCmSchedTWrite fn slot hi v s
  | .strobeIssue slot => Sys2Proof.Machine.execStrobeIssue slot s
  | .commitTimeout slot => Sys2Proof.Machine.execCommitTimeout slot s
  | .breathWrite fn off v => Sys2Proof.Machine.execBreathWrite fn off v s
  | .breathOffsetReached r => Sys2Proof.Machine.execBreathOffsetReached r s
  | .tongueSegmentNext ch => Sys2Proof.Machine.execTongueSegmentNext ch s
  | .tongueEnd ch => Sys2Proof.Machine.execTongueEnd ch s
  | .settleHoldEnd r => Sys2Proof.Machine.execSettleHoldEnd r s
  | .bar2ShapeWrite fn off data => Sys2Proof.Machine.execBar2ShapeWrite fn off data s
  | .tgLoad fn => Sys2Proof.Machine.execTgLoad fn s
  | .tgLoadDone ok => Sys2Proof.Machine.execTgLoadDone ok s
  | .tgSave fn => Sys2Proof.Machine.execTgSave fn s
  | .tgSaveDone ok => Sys2Proof.Machine.execTgSaveDone ok s
  | .tgCheck fn => Sys2Proof.Machine.execTgCheck fn s
  | .seqModeWrite fn v => Sys2Proof.Machine.execSeqModeWrite fn v s
  | .seqDelayExpired r => Sys2Proof.Machine.execSeqDelayExpired r s
  | .conversionEnd r raw ovr => Sys2Proof.Machine.execConversionEnd r raw ovr s
  | .modulatorPowerUp r => Sys2Proof.Machine.execModulatorPowerUp r s
  | .startupDone r => Sys2Proof.Machine.execStartupDone r s
  | .msTrigSoft fn => Sys2Proof.Machine.execMsTrigSoft fn s
  | .msTrigDrvArm fn => Sys2Proof.Machine.execMsTrigDrvArm fn s
  | .msTrigDrvDisarm fn => Sys2Proof.Machine.execMsTrigDrvDisarm fn s
  | .reedTimerTrigger r => Sys2Proof.Machine.execReedTimerTrigger r s
  | .driveTrigger r => Sys2Proof.Machine.execDriveTrigger r s
  | .msTrigOverrunRead fn => Sys2Proof.Machine.execMsTrigOverrunRead fn s
  | .msUrgentWrite fn v => Sys2Proof.Machine.execMsUrgentWrite fn v s
  | .hkRoundDue => Sys2Proof.Machine.execHkRoundDue s
  | .msOpenClear fn v => Sys2Proof.Machine.execMsOpenClear fn v s
  | .bar2SeqWrite fn off data => Sys2Proof.Machine.execBar2SeqWrite fn off data s
  | .msLoad fn => Sys2Proof.Machine.execMsLoad fn s
  | .msLoadDone ok => Sys2Proof.Machine.execMsLoadDone ok s
  | .msSave fn => Sys2Proof.Machine.execMsSave fn s
  | .msSaveDone ok => Sys2Proof.Machine.execMsSaveDone ok s
  | .msCheck fn => Sys2Proof.Machine.execMsCheck fn s
  | .msDefault fn => Sys2Proof.Machine.execMsDefault fn s
  | .accSample r acc sample ovr => Sys2Proof.Machine.execAccSample r acc sample ovr s
  | .accParityRestart r acc => Sys2Proof.Machine.execAccParityRestart r acc s
  | .acCfgWrite fn v => Sys2Proof.Machine.execAcCfgWrite fn v s
  | .acRestart fn => Sys2Proof.Machine.execAcRestart fn s
  | .acTrkClr fn => Sys2Proof.Machine.execAcTrkClr fn s
  | .acDiscClr fn => Sys2Proof.Machine.execAcDiscClr fn s
  | .bar2AccWrite fn off => Sys2Proof.Machine.execBar2AccWrite fn off s
  | .clDataAccess fn w => Sys2Proof.Machine.execClDataAccess fn w s
  | .clLoad fn => Sys2Proof.Machine.execClLoad fn s
  | .clLoadDone ok => Sys2Proof.Machine.execClLoadDone ok s
  | .clSave fn => Sys2Proof.Machine.execClSave fn s
  | .clSaveDone ok => Sys2Proof.Machine.execClSaveDone ok s
  | .clDefault fn => Sys2Proof.Machine.execClDefault fn s
  | .clScZero fn => Sys2Proof.Machine.execClScZero fn s
  | .clScFull fn => Sys2Proof.Machine.execClScFull fn s
  | .clScDone idx full => Sys2Proof.Machine.execClScDone idx full s
  | .clScUrgentTimeout => Sys2Proof.Machine.execClScUrgentTimeout s
  | .meterPeriodEnd raw ovr halvesOpen => Sys2Proof.Machine.execMeterPeriodEnd raw ovr halvesOpen s
  | .powerSample a b ib => Sys2Proof.Machine.execPowerSample a b ib s
  | .mtPeriodWrite off v => Sys2Proof.Machine.execMtPeriodWrite off v s
  | .mtELoRead pair => Sys2Proof.Machine.execMtELoRead pair s
  | .mtEClr mask => Sys2Proof.Machine.execMtEClr mask s
  | .mtScZero c nper => Sys2Proof.Machine.execMtScZero c nper s
  | .mtScFull c nper => Sys2Proof.Machine.execMtScFull c nper s
  | .mtScDone samples ovr => Sys2Proof.Machine.execMtScDone samples ovr s
  | .frVinA => Sys2Proof.Machine.execFrVinA s
  | .frIinA => Sys2Proof.Machine.execFrIinA s
  | .frVinB => Sys2Proof.Machine.execFrVinB s
  | .frIinB => Sys2Proof.Machine.execFrIinB s
  | .frVout => Sys2Proof.Machine.execFrVout s
  | .frIout => Sys2Proof.Machine.execFrIout s
  | .frPin => Sys2Proof.Machine.execFrPin s
  | .frTemp => Sys2Proof.Machine.execFrTemp s
  | .frStatus => Sys2Proof.Machine.execFrStatus s
  | .frEnergy => Sys2Proof.Machine.execFrEnergy s
  | .loopEvaluate ch => Sys2Proof.Machine.execLoopEvaluate ch s
  | .loopStale ch => Sys2Proof.Machine.execLoopStale ch s
  | .lpLoad fn => Sys2Proof.Machine.execLpLoad fn s
  | .lpLoadDone ok => Sys2Proof.Machine.execLpLoadDone ok s
  | .lpSave fn => Sys2Proof.Machine.execLpSave fn s
  | .lpSaveDone ok => Sys2Proof.Machine.execLpSaveDone ok s
  | .modelUpdate => Sys2Proof.Machine.execModelUpdate s
  | .shutWaitExpired => Sys2Proof.Machine.execShutWaitExpired s
  | .thermClimb => Sys2Proof.Machine.execThermClimb s
  | .thermHoldFall => Sys2Proof.Machine.execThermHoldFall s
  | .diodeRound => Sys2Proof.Machine.execDiodeRound s
  | .tpDiodeClr fn j => Sys2Proof.Machine.execTpDiodeClr fn j s
  | .tpThreshWrite fn v => Sys2Proof.Machine.execTpThreshWrite fn v s
  | .thKDataWrite fn v => Sys2Proof.Machine.execThKDataWrite fn v s
  | .thTileClassWrite fn j v => Sys2Proof.Machine.execThTileClassWrite fn j v s
  | .thLoad fn => Sys2Proof.Machine.execThLoad fn s
  | .thLoadDone ok => Sys2Proof.Machine.execThLoadDone ok s
  | .thSave fn => Sys2Proof.Machine.execThSave fn s
  | .thSaveDone ok => Sys2Proof.Machine.execThSaveDone ok s
  | .thCheck fn => Sys2Proof.Machine.execThCheck fn s
  | .boreReplay addr pass => Sys2Proof.Machine.execBoreReplay addr pass s
  | .patrolRead => Sys2Proof.Machine.execPatrolRead s
  | .bankRetentionEnter bank => Sys2Proof.Machine.execBankRetentionEnter bank s
  | .bankWake bank => Sys2Proof.Machine.execBankWake bank s
  | .boreInit => Sys2Proof.Machine.execBoreInit s
  | .boreInitDone => Sys2Proof.Machine.execBoreInitDone s
  | .bar2PartialWrite fn off be v parityOk => Sys2Proof.Machine.execBar2PartialWrite fn off be v parityOk s
  | .bar2SqWrite fn off data => Sys2Proof.Machine.execBar2SqWrite fn off data s
  | .sqDoorbell fn q tail => Sys2Proof.Machine.execSqDoorbell fn q tail s
  | .cqDoorbell fn q head => Sys2Proof.Machine.execCqDoorbell fn q head s
  | .sqArbitrate => Sys2Proof.Machine.execSqArbitrate s
  | .cmdDecode badWords => Sys2Proof.Machine.execCmdDecode badWords s
  | .fenceRelease q => Sys2Proof.Machine.execFenceRelease q s
  | .jcpNop tag => Sys2Proof.Machine.execJcpNop tag s
  | .jcpVersion tag => Sys2Proof.Machine.execJcpVersion tag s
  | .jcpAbort tag => Sys2Proof.Machine.execJcpAbort tag s
  | .jcpPlan tag => Sys2Proof.Machine.execJcpPlan tag s
  | .jcpCommit tag => Sys2Proof.Machine.execJcpCommit tag s
  | .jcpPark tag => Sys2Proof.Machine.execJcpPark tag s
  | .jcpRegRead tag => Sys2Proof.Machine.execJcpRegRead tag s
  | .jcpRegWrite tag => Sys2Proof.Machine.execJcpRegWrite tag s
  | .jcpTable tag => Sys2Proof.Machine.execJcpTable tag s
  | .jcpNvRead tag => Sys2Proof.Machine.execJcpNvRead tag s
  | .jcpNvWrite tag => Sys2Proof.Machine.execJcpNvWrite tag s
  | .mgmtComplete tag => Sys2Proof.Machine.execMgmtComplete tag s
  | .mgmtTimeout tag => Sys2Proof.Machine.execMgmtTimeout tag s
  | .coreUnavailable tag => Sys2Proof.Machine.execCoreUnavailable tag s
  | .jcSqCtrlWrite fn q v => Sys2Proof.Machine.execJcSqCtrlWrite fn q v s
  | .jcCqCtrlWrite fn q v => Sys2Proof.Machine.execJcCqCtrlWrite fn q v s
  | .sqDrainDone q => Sys2Proof.Machine.execSqDrainDone q s
  | .cqAggTimer q => Sys2Proof.Machine.execCqAggTimer q s
  | .registerWrite fn off v formOk => Sys2Proof.Machine.execRegisterWrite fn off v formOk s
  | .feedPageRead fn off => Sys2Proof.Machine.execFeedPageRead fn off s
  | .feedPageWrite fn off v => Sys2Proof.Machine.execFeedPageWrite fn off v s
  | .poisonedRx woff => Sys2Proof.Machine.execPoisonedRx woff s
  | .flr fn => Sys2Proof.Machine.execFlr fn s
  | .perstAssert => Sys2Proof.Machine.execPerstAssert s
  | .hotReset => Sys2Proof.Machine.execHotReset s
  | .d3hotEnter fn => Sys2Proof.Machine.execD3hotEnter fn s
  | .msixUnmask fn w => Sys2Proof.Machine.execMsixUnmask fn w s
  | .pgIrqStatWrite fn page v => Sys2Proof.Machine.execPgIrqStatWrite fn page v s
  | .pgLockWrite fn page v => Sys2Proof.Machine.execPgLockWrite fn page v s
  | .prRegWrite fn off v => Sys2Proof.Machine.execPrRegWrite fn off v s
  | .smbFdAddr w pecOk => Sys2Proof.Machine.execSmbFdAddr w pecOk s
  | .smbFdData w pecOk => Sys2Proof.Machine.execSmbFdData w pecOk s
  | .smbFdRes => Sys2Proof.Machine.execSmbFdRes s
  | .fdSmbReset b0 b1 pecOk => Sys2Proof.Machine.execFdSmbReset b0 b1 pecOk s
  | .ddStage => Sys2Proof.Machine.execDdStage s
  | .ddPair => Sys2Proof.Machine.execDdPair s
  | .ddVers => Sys2Proof.Machine.execDdVers s
  | .ddBond => Sys2Proof.Machine.execDdBond s
  | .ddLink => Sys2Proof.Machine.execDdLink s
  | .ddTemp => Sys2Proof.Machine.execDdTemp s
  | .smbClockLowTimeout port => Sys2Proof.Machine.execSmbClockLowTimeout port s
  | .flashMount m torn ckptFallback => Sys2Proof.Machine.execFlashMount m torn ckptFallback s
  | .mountDone ckptReadable ms => Sys2Proof.Machine.execMountDone ckptReadable ms s
  | .codewordRead part lca step bitsCorrected pband => Sys2Proof.Machine.execCodewordRead part lca step bitsCorrected pband s
  | .relocationDone freeSpare maxPe minPe => Sys2Proof.Machine.execRelocationDone freeSpare maxPe minPe s
  | .programFail block => Sys2Proof.Machine.execProgramFail block s
  | .eraseFail block => Sys2Proof.Machine.execEraseFail block s
  | .wearLevelMove maxPe minPe => Sys2Proof.Machine.execWearLevelMove maxPe minPe s
  | .metadataDurable => Sys2Proof.Machine.execMetadataDurable s
  | .ringAppend part type payload => Sys2Proof.Machine.execRingAppend part type payload s
  | .telemetryInterval sections => Sys2Proof.Machine.execTelemetryInterval sections s
  | .tripCaptureWrite => Sys2Proof.Machine.execTripCaptureWrite s
  | .bellJournalCopy => Sys2Proof.Machine.execBellJournalCopy s
  | .scrubRateUpdate pagesLeft elapsedS => Sys2Proof.Machine.execScrubRateUpdate pagesLeft elapsedS s
  | .scrubPassEnd => Sys2Proof.Machine.execScrubPassEnd s
  | .scrubDebt blocks => Sys2Proof.Machine.execScrubDebt blocks s
  | .ifRetrain => Sys2Proof.Machine.execIfRetrain s
  | .nfQuiesce fn => Sys2Proof.Machine.execNfQuiesce fn s
  | .quiesceDone => Sys2Proof.Machine.execQuiesceDone s
  | .nfResume fn => Sys2Proof.Machine.execNfResume fn s
  | .nfScrubNow fn => Sys2Proof.Machine.execNfScrubNow fn s
  | .bellAccept => Sys2Proof.Machine.execBellAccept s
  | .shadowClose shid => Sys2Proof.Machine.execShadowClose shid s
  | .stickyClear fn page v => Sys2Proof.Machine.execStickyClear fn page v s
  | .pgFltSevWrite fn page v => Sys2Proof.Machine.execPgFltSevWrite fn page v s
  | .injOff fn page src => Sys2Proof.Machine.execInjOff fn page src s
  | .injPulse fn page src detail => Sys2Proof.Machine.execInjPulse fn page src detail s
  | .injHold fn page src detail => Sys2Proof.Machine.execInjHold fn page src detail s
  | .injCheck fn page src detail => Sys2Proof.Machine.execInjCheck fn page src detail s
  | .pgBlkRst fn page => Sys2Proof.Machine.execPgBlkRst fn page s
  | .syResetWarm fn key => Sys2Proof.Machine.execSyResetWarm fn key s
  | .syResetDrst fn key => Sys2Proof.Machine.execSyResetDrst fn key s
  | .tgDomainOff fn k => Sys2Proof.Machine.execTgDomainOff fn k s
  | .tgDomainOn fn k => Sys2Proof.Machine.execTgDomainOn fn k s
  | .tgDomainOnDone k => Sys2Proof.Machine.execTgDomainOnDone k s
  | .pllWorkArrives => Sys2Proof.Machine.execPllWorkArrives s
  | .pllCLocked => Sys2Proof.Machine.execPllCLocked s
  | .warmIdleExpired => Sys2Proof.Machine.execWarmIdleExpired s
  | .sleepIdleExpired => Sys2Proof.Machine.execSleepIdleExpired s
  | .pllCLockLoss => Sys2Proof.Machine.execPllCLockLoss s
  | .refclkLost => Sys2Proof.Machine.execRefclkLost s
  | .refclkReturn => Sys2Proof.Machine.execRefclkReturn s
  | .droopStart mv => Sys2Proof.Machine.execDroopStart mv s
  | .droopEnd mv aboveCc => Sys2Proof.Machine.execDroopEnd mv aboveCc s
  | .droopSustained mv => Sys2Proof.Machine.execDroopSustained mv s
  | .causeClimb feedCause => Sys2Proof.Machine.execCauseClimb feedCause s
  | .busSagHeld => Sys2Proof.Machine.execBusSagHeld s
  | .coreCauseL8 => Sys2Proof.Machine.execCoreCauseL8 s
  | .clockCauseRise => Sys2Proof.Machine.execClockCauseRise s
  | .clockCauseClear => Sys2Proof.Machine.execClockCauseClear s
  | .ladderClimb => Sys2Proof.Machine.execLadderClimb s
  | .ladderDescend => Sys2Proof.Machine.execLadderDescend s
  | .l6Step => Sys2Proof.Machine.execL6Step s
  | .l8StopWaitExpired => Sys2Proof.Machine.execL8StopWaitExpired s
  | .pwFloorWrite fn v => Sys2Proof.Machine.execPwFloorWrite fn v s
  | .ckCtrlWrite fn off v => Sys2Proof.Machine.execCkCtrlWrite fn off v s
  | .slFrameReceive p fr crcOk => Sys2Proof.Machine.execSlFrameReceive p fr crcOk s
  | .slEchoTimer p => Sys2Proof.Machine.execSlEchoTimer p s
  | .slEchoReq p t2 t3 seq => Sys2Proof.Machine.execSlEchoReq p t2 t3 seq s
  | .slEchoRsp p t1 t4 turn => Sys2Proof.Machine.execSlEchoRsp p t1 t4 turn s
  | .slTime1 p hi master => Sys2Proof.Machine.execSlTime1 p hi master s
  | .slBeatSend => Sys2Proof.Machine.execSlBeatSend s
  | .slBeatReceive p beat synced arrival16 => Sys2Proof.Machine.execSlBeatReceive p beat synced arrival16 s
  | .slBeatTimeout => Sys2Proof.Machine.execSlBeatTimeout s
  | .slHello p src synced data time => Sys2Proof.Machine.execSlHello p src synced data time s
  | .slClaim p data => Sys2Proof.Machine.execSlClaim p data s
  | .slElectionDone => Sys2Proof.Machine.execSlElectionDone s
  | .slSchedCmd fn slot cut => Sys2Proof.Machine.execSlSchedCmd fn slot cut s
  | .slSched0 src slot cut lo => Sys2Proof.Machine.execSlSched0 src slot cut lo s
  | .slSched1 src slot cut hi => Sys2Proof.Machine.execSlSched1 src slot cut hi s
  | .slSchedAck src slot result => Sys2Proof.Machine.execSlSchedAck src slot result s
  | .slSchedNackTimeout pos => Sys2Proof.Machine.execSlSchedNackTimeout pos s
  | .slPortDown p => Sys2Proof.Machine.execSlPortDown p s
  | .slWrap pos dnPort => Sys2Proof.Machine.execSlWrap pos dnPort s
  | .slPortUp p => Sys2Proof.Machine.execSlPortUp p s
  | .slCtrlWrite fn v => Sys2Proof.Machine.execSlCtrlWrite fn v s
  | .slTimeLoRead fn => Sys2Proof.Machine.execSlTimeLoRead fn s
  | .pwMaxlvlRead fn => Sys2Proof.Machine.execPwMaxlvlRead fn s
  | .gateDwellRestart f => Sys2Proof.Machine.execGateDwellRestart f s
  | .busSagClear vSled => Sys2Proof.Machine.execBusSagClear vSled s
  | .limiterRelease ch => Sys2Proof.Machine.execLimiterRelease ch s
  | .complianceCleared ch => Sys2Proof.Machine.execComplianceCleared ch s
  | .updAbortDone => Sys2Proof.Machine.execUpdAbortDone s
  | .pcieLinkUp speed width => Sys2Proof.Machine.execPcieLinkUp speed width s
  | .hsRetrain fn => Sys2Proof.Machine.execHsRetrain fn s
  | .pcieError corr status => Sys2Proof.Machine.execPcieError corr status s
  | .d3hotExit fn => Sys2Proof.Machine.execD3hotExit fn s
  | .pllCWakeTimeout => Sys2Proof.Machine.execPllCWakeTimeout s
  | .pllSLockLoss => Sys2Proof.Machine.execPllSLockLoss s
  | .pllSLocked => Sys2Proof.Machine.execPllSLocked s
  | .barRead fn bar at' formOk => Sys2Proof.Machine.execBarRead fn bar at' formOk s
  | .bar2WindowWrite fn off data => Sys2Proof.Machine.execBar2WindowWrite fn off data s
  | .lpChStatRead fn => Sys2Proof.Machine.execLpChStatRead fn s
  | .thElTempRead fn => Sys2Proof.Machine.execThElTempRead fn s
  | .thNodeRead fn => Sys2Proof.Machine.execThNodeRead fn s
  | .tpDiodeERead fn => Sys2Proof.Machine.execTpDiodeERead fn s
  | .thKDataRead fn => Sys2Proof.Machine.execThKDataRead fn s
  | .feedSupplyLost f => Sys2Proof.Machine.execFeedSupplyLost f s

end Sys2Proof.Machine
end

