-- ==== Sys2Proof/Safety.lean ====
section
/-! DEFINITION. The terms in which statements speak: a command that completes with an effect, an access that the checks admit, what a
statement calls unchanged, and the invariants of the machine. -/

namespace Sys2Proof.Safety
open Sys2Proof.Machine

/-- The command answers a next state, and that state satisfies `P`. -/
def Yields (c : Instr) (s : State) (P : State → Prop) : Prop := ∃ t, exec c s = .next t ∧ P t

/-- A write of page offset `o` by `fn` passes every condition of R607, the page's rule admitting level `lvl` and above. -/
def mayWrite (s : State) (fn : Fn) (page o lvl : Nat) : Bool :=
  hostReach s fn && judge s { fn := fn, off := ro page o, write := true, lvl := lvl } == .ok

/-- A write that names a plan slot passes every condition of R607. -/
def mayWriteSlot (s : State) (fn : Fn) (page o lvl slot : Nat) : Bool :=
  hostReach s fn && judge s { fn := fn, off := ro page o, write := true, lvl := lvl, slot := some slot } == .ok

/-- A read of page offset `o` by `fn` passes every condition of R607. -/
def mayRead (s : State) (fn : Fn) (page o : Nat) : Bool :=
  hostReach s fn && judge s { fn := fn, off := ro page o } == .ok

/-- A write of one DW at a BAR2 offset passes every condition of R607. -/
def mayStore (s : State) (fn : Fn) (off : Nat) : Bool :=
  hostReach s fn && judge s { fn := fn, bar2 := true, off := off, write := true } == .ok

/-- The output of a channel: the code and the range of its load register. -/
def output (s : State) (ch : Nat) : BitVec 16 × Bool := ((chan s ch).code, (chan s ch).range)

/-- Every channel's output is as before. -/
def SameOutputs (s t : State) : Prop := ∀ ch, output t ch = output s ch

/-- Both breakers, the sharing state and the rail sequencer are as before. -/
def SameFeedGates (s t : State) : Prop := t.feedA = s.feedA ∧ t.feedB = s.feedB ∧ t.rails = s.rails

/-- Every byte of the Bore reads as before. -/
def SameBore (s t : State) : Prop := ∀ a, boreByte t a = boreByte s a

/-- The queue, the clocks and the drone count of the feed die are as before. -/
def SameClock (s t : State) : Prop :=
  t.pending = s.pending ∧ t.now = s.now ∧ t.phase = s.phase ∧ t.droneF = s.droneF

/-- The drone count of the feed die never runs ahead of the time that has passed, at 4.096 MHz against 1.2 GHz. -/
def ClockInv (s : State) : Prop :=
  s.phase < droneUnit ∧ s.droneF * droneUnit + s.phase ≤ s.now * dronePerCc

/-- The Bore and every sparse table that a command rewrites as a whole are in their canonical form. -/
def CanonInv (s : State) : Prop :=
  memWf s.bore.mem = true ∧ tabWf regReset s.regs = true ∧ tabWf (fun _ => ({} : ChanSt)) s.chans = true ∧
  tabWf (fun _ => ({} : TileSt)) s.tiles = true ∧ tabWf (fun _ => ({} : LoopCh)) s.loops = true ∧
  tabWf (fun _ => ({} : TabCmd)) s.tabs = true

/-- Every channel but one is as before. -/
def OtherChans (ch : Nat) (s t : State) : Prop := ∀ c, c ≠ ch → chan t c = chan s c

/-- A channel whose fuse is not clear holds code 0, plays no tongue and has no entry waiting. -/
def FusedQuiet (s : State) : Prop := ∀ ch, (chan s ch).fuse ≠ .clear →
  (chan s ch).code = 0 ∧ (chan s ch).tongue = none ∧ (chan s ch).waiting = none

/-- No word of the Bore fails its parity, none is stuck, and no CHECK injection waits: a read passes, and a write leaves its words
sound. -/
def BoreSound (s : State) : Prop := s.bore.badPar = [] ∧ s.bore.stuck = [] ∧ ∀ a, checkFor s a = none

/-! ### Which commands may change what: every other command leaves it as it is -/

/-- Commands that may change a channel: its output, fuse, supervision, park register or tongue. -/
def mayMoveChannels : Instr → Bool
  | .por | .driveRailsUp | .driveRailsLost | .parkStrobe .. | .drst | .idlWrData | .limiterEngage .. | .shortFuse ..
  | .complDetect .. | .complFuse .. | .chConsecReset .. | .tlChRelease .. | .tlChUnlock .. | .tlChOff .. | .tlChOn ..
  | .tlChClrFlags .. | .tlChCfgWrite .. | .pStale .. | .iCheck .. | .parkEventReachTile .. | .pkApplyDone | .tileDark ..
  | .reedRefFail .. | .tileBlkReset .. | .strobeIssue .. | .breathOffsetReached .. | .tongueSegmentNext ..
  | .tongueEnd .. | .conversionEnd .. | .accSample .. | .loopEvaluate .. | .jcpRegWrite .. | .registerWrite ..
  | .feedPageWrite .. | .perstAssert | .pgIrqStatWrite .. | .pgLockWrite .. | .prRegWrite .. | .smbFdData ..
  | .stickyClear .. | .pgFltSevWrite .. | .injOff .. | .injPulse .. | .injHold .. | .injCheck .. | .pgBlkRst ..
  | .syResetWarm .. | .syResetDrst .. | .tgDomainOff .. | .tgDomainOnDone .. | .pllCLockLoss | .refclkLost
  | .limiterRelease .. | .complianceCleared .. => true
  | _ => false

/-- Commands that may change a feed's breaker and gate. -/
def mayMoveFeeds : Instr → Bool
  | .por | .feedSupplyStart .. | .otpProfileLoaded .. | .presAsserted .. | .presDeasserted .. | .windowEnter ..
  | .windowLeave .. | .uvTrip .. | .ovTrip .. | .cooldownExpired .. | .insertionDelayExpired .. | .startTimerExpired ..
  | .gateCheckTimeout .. | .vdsEnhance .. | .gateDwellDone .. | .currentLimitEnter .. | .currentLimitExit ..
  | .timedLimitExpired .. | .fastTrip .. | .reverseCurrentTrip .. | .blockedRecover .. | .consecCountReset ..
  | .fdOff .. | .fdOn .. | .fdClrLatch .. | .fdFastTripWrite .. | .itripComparatorMove .. | .sagDetect ..
  | .sagSustained .. | .sagClear .. | .fsReset .. | .feedWatchdogReset | .idlWrData | .smbFdData .. | .fdSmbReset ..
  | .gateDwellRestart .. | .feedSupplyLost .. => true
  | _ => false

/-- Commands that may change the rail sequencer. -/
def mayMoveRails : Instr → Bool
  | .por | .railSeqStart | .railStepDone | .railPgTimeout .. | .railPgFall .. | .hvLost .. | .railLost .. | .downSeqStep
  | .retryWaitExpired | .railConsecReset | .pgIbLossEnablesDrop | .psStop | .psStart | .psClrLatch | .dtinArmed
  | .tCritStop | .idlWrData | .smbFdData .. => true
  | _ => false

/-- Commands that may change the park store, its shadow or a park event in progress. -/
def mayMovePark : Instr → Bool
  | .por | .driveRailsLost | .parkLoaderStart | .parkStrobe .. | .drst | .pkParkAll .. | .pkParkTiles ..
  | .parkEventReachTile .. | .pkUpdate .. | .pkUpdateDone .. | .pkApply .. | .pkApplyDone | .pkReload .. | .pkReloadDone
  | .pkDataAccess .. | .tileBlkReset .. | .modelUpdate | .jcpPark .. | .jcpRegWrite .. | .registerWrite ..
  | .feedPageWrite .. | .perstAssert | .pgIrqStatWrite .. | .pgLockWrite .. | .prRegWrite .. | .bellAccept
  | .shadowClose .. | .stickyClear .. | .pgFltSevWrite .. | .injOff .. | .injPulse .. | .injHold .. | .injCheck ..
  | .pgBlkRst .. | .syResetWarm .. | .syResetDrst .. | .ladderClimb | .l6Step | .pwFloorWrite .. => true
  | _ => false

/-- Commands that may change the conversion coefficients or a calibration run. -/
def mayMoveCoefficients : Instr → Bool
  | .por | .driveRailsUp | .driveRailsLost | .sfwVerified | .stage3Deadline | .trialExpired | .stage4CalLoad ..
  | .btConfirm .. | .btActivate .. | .btForcePair .. | .warmReset | .drst | .coreWatchdog | .idlLinkUp
  | .tileBlkReset .. | .stLoadDone .. | .tgLoadDone .. | .conversionEnd .. | .msLoadDone .. | .clDataAccess ..
  | .clLoadDone .. | .clDefault .. | .clScZero .. | .clScFull .. | .clScDone .. | .clScUrgentTimeout | .lpLoadDone ..
  | .thLoadDone .. | .jcpRegWrite .. | .jcpTable .. | .registerWrite .. | .feedPageWrite .. | .perstAssert
  | .pgIrqStatWrite .. | .pgLockWrite .. | .prRegWrite .. | .stickyClear .. | .pgFltSevWrite .. | .injOff ..
  | .injPulse .. | .injHold .. | .injCheck .. | .pgBlkRst .. | .syResetWarm .. | .syResetDrst .. => true
  | _ => false

/-- Commands that may change a tile's valves, backup reference or dark state. -/
def mayMoveTiles : Instr → Bool
  | .por | .driveRailsUp | .driveRailsLost | .parkStrobe .. | .drst | .isumMismatch .. | .valveRejoin ..
  | .valveLimitEnter .. | .valveLimitExit .. | .valveLimitExpired .. | .valveFastTrip .. | .valveReverseBlock ..
  | .softStartDone .. | .softStartTimeout .. | .tlValveRelease .. | .tlValveOff .. | .tlValveOn .. | .tileDark ..
  | .backupFail .. | .backupRecover .. | .tileBlkReset .. | .strobeIssue .. | .breathOffsetReached ..
  | .conversionEnd .. | .accSample .. | .jcpRegWrite .. | .registerWrite .. | .feedPageWrite .. | .perstAssert
  | .pgIrqStatWrite .. | .pgLockWrite .. | .prRegWrite .. | .stickyClear .. | .pgFltSevWrite .. | .injOff ..
  | .injPulse .. | .injHold .. | .injCheck .. | .pgBlkRst .. | .syResetWarm .. | .syResetDrst .. | .tgDomainOff ..
  | .tgDomainOnDone .. => true
  | _ => false

/-- Commands that may change a plan slot. -/
def mayMoveSlots : Instr → Bool
  | .por | .driveRailsLost | .sfwVerified | .stage3Deadline | .trialExpired | .stage4CalLoad .. | .btConfirm ..
  | .btActivate .. | .btForcePair .. | .warmReset | .drst | .coreWatchdog | .idlLinkUp | .idlNak .. | .idlLinkLost
  | .idlPush1 | .idlWrData | .idRetrain .. | .parkEventReachTile .. | .valveRejoin .. | .valveLimitEnter ..
  | .valveLimitExit .. | .valveLimitExpired .. | .valveFastTrip .. | .valveReverseBlock .. | .softStartDone ..
  | .softStartTimeout .. | .tlValveRelease .. | .tlValveOff .. | .tlValveOn .. | .tileBlkReset ..
  | .bar2SetpointWrite .. | .stLoad .. | .stLoadDone .. | .stSave .. | .stCheck .. | .plOpen .. | .plStage ..
  | .expansionDone .. | .admissionDone .. | .admissionResume | .plArm .. | .armCopyVerified .. | .planParityRepair ..
  | .plDisarm .. | .plRelease .. | .bar2DeltaWrite .. | .strobeIssue .. | .breathWrite .. | .bar2ShapeWrite ..
  | .tgLoad .. | .tgLoadDone .. | .tgSave .. | .tgCheck .. | .bar2SeqWrite .. | .msLoadDone .. | .bar2AccWrite ..
  | .clLoadDone .. | .lpLoadDone .. | .modelUpdate | .thKDataWrite .. | .thTileClassWrite .. | .thLoad ..
  | .thLoadDone .. | .thSave .. | .thCheck .. | .boreReplay .. | .bar2PartialWrite .. | .bar2SqWrite .. | .jcpPlan ..
  | .jcpRegWrite .. | .jcpTable .. | .registerWrite .. | .feedPageWrite .. | .perstAssert | .pgIrqStatWrite ..
  | .pgLockWrite .. | .prRegWrite .. | .smbFdData .. | .bellAccept | .shadowClose .. | .stickyClear ..
  | .pgFltSevWrite .. | .injOff .. | .injPulse .. | .injHold .. | .injCheck .. | .pgBlkRst .. | .syResetWarm ..
  | .syResetDrst .. | .tgDomainOff .. | .tgDomainOnDone .. | .pllWorkArrives | .pllCLocked | .pllCLockLoss | .refclkLost
  | .ladderClimb | .ladderDescend | .pwFloorWrite .. | .bar2WindowWrite .. => true
  | _ => false

/-- Commands that may change the Bore: a byte of it, or what is known of its parity and rows. -/
def mayMoveBore : Instr → Bool
  | .por | .driveRailsLost | .padTestDone .. | .sfwVerified | .stage3Deadline | .trialExpired | .stage4CalLoad ..
  | .btConfirm .. | .btActivate .. | .btForcePair .. | .updWriteDone .. | .btPadtestStart .. | .padtestRepeatDone ..
  | .warmReset | .drst | .coreWatchdog | .idlLinkUp | .idlWrData | .tileBlkReset .. | .bar2SetpointWrite .. | .stLoad ..
  | .stLoadDone .. | .stSave .. | .stCheck .. | .plOpen .. | .plStage .. | .expansionDone .. | .admissionDone ..
  | .plArm .. | .armCopyVerified .. | .planParityRepair .. | .plDisarm .. | .plRelease .. | .bar2DeltaWrite ..
  | .syncInEdge .. | .commitNow .. | .scheduleFire .. | .cmSchedArm .. | .cmSchedCancel .. | .strobeIssue ..
  | .commitTimeout .. | .bar2ShapeWrite .. | .tgLoad .. | .tgLoadDone .. | .tgSave .. | .tgCheck .. | .seqModeWrite ..
  | .conversionEnd .. | .msTrigSoft .. | .msTrigDrvArm .. | .msTrigDrvDisarm .. | .reedTimerTrigger ..
  | .driveTrigger .. | .bar2SeqWrite .. | .msLoadDone .. | .msSave .. | .msCheck .. | .msDefault .. | .accSample ..
  | .accParityRestart .. | .acRestart .. | .acTrkClr .. | .acDiscClr .. | .bar2AccWrite .. | .clLoadDone .. | .clSave ..
  | .loopEvaluate .. | .lpLoadDone .. | .lpSave .. | .diodeRound | .thLoad .. | .thLoadDone .. | .thSave ..
  | .thCheck .. | .boreReplay .. | .patrolRead | .bankRetentionEnter .. | .bankWake .. | .boreInit | .boreInitDone
  | .bar2PartialWrite .. | .bar2SqWrite .. | .cqDoorbell .. | .sqArbitrate | .cmdDecode .. | .jcpNop .. | .jcpVersion ..
  | .jcpAbort .. | .jcpPlan .. | .jcpCommit .. | .jcpPark .. | .jcpRegRead .. | .jcpRegWrite .. | .jcpTable ..
  | .jcpNvWrite .. | .mgmtComplete .. | .mgmtTimeout .. | .coreUnavailable .. | .jcCqCtrlWrite .. | .registerWrite ..
  | .feedPageRead .. | .feedPageWrite .. | .perstAssert | .pgIrqStatWrite .. | .pgLockWrite .. | .prRegWrite ..
  | .smbFdData .. | .ddStage | .ddPair | .ddVers | .ddBond | .ringAppend .. | .telemetryInterval .. | .bellJournalCopy
  | .bellAccept | .shadowClose .. | .stickyClear .. | .pgFltSevWrite .. | .injOff .. | .injPulse .. | .injHold ..
  | .injCheck .. | .pgBlkRst .. | .syResetWarm .. | .syResetDrst .. | .tgDomainOnDone .. | .pllWorkArrives | .pllCLocked
  | .ladderClimb | .ladderDescend | .pwFloorWrite .. | .slBeatReceive .. | .slHello .. | .slElectionDone
  | .slSchedCmd .. | .slSched1 .. | .updAbortDone | .barRead .. | .bar2WindowWrite .. => true
  | _ => false

end Sys2Proof.Safety
end

