-- ==== Sys2Proof/Certificates/Slice0/Obligations.lean ====
section
/-! DEFINITION. The statements of this model: what the commands of each family do, what they leave unchanged, and the invariants that
every step keeps. Each says which chapter or rule of the spec it formalises. -/

open Sys2Proof Sys2Proof.Machine Sys2Proof.Safety

/-- A step with a command at the front of the queue is that command's effect on the machine with the queue's rest. For every
command c, every state s and every rest of the queue: a step of s with c in front of the rest answers exactly what exec of c
answers on s with the rest as its queue. The queue and the step are the model's own (log 4). (00_scope.md,
18_register_pages.md) -/
def Obligations.StepRunsFront : Prop :=
  ∀ (c : Instr) (rest : List Instr) (s : State),
    step { s with pending := c :: rest } = exec c { s with pending := rest }

/-- On an empty queue a step lets one core cycle pass and changes only counts of time. With no command waiting, a step answers a
next state in which now is one higher, the queue is still empty, and the registers, the Bore, the channels, tiles and plan
slots, the state and gate of each feed, the rail sequencer, the command queues, the host side, the flash store, the park store
and the Bell are as before; of a reed only the cycle up to which its settle hold counts may move. That a tick is what step
does on an empty queue is the model's choice (log 4). (00_scope.md, 17_shelf_link.md) -/
def Obligations.IdleIsOneCycle : Prop :=
  ∀ s : State, s.pending = [] → ∃ t, step s = .next t ∧ t.pending = [] ∧ t.now = s.now + 1 ∧
    t.regs = s.regs ∧ t.bore = s.bore ∧ t.chans = s.chans ∧ t.tiles = s.tiles ∧ t.slots = s.slots ∧ t.park = s.park ∧
    (∀ r, reed t r = { reed s r with settleFrom := (reed t r).settleFrom }) ∧
    t.rails = s.rails ∧ t.cmdq = s.cmdq ∧ t.flash = s.flash ∧ t.bell = s.bell ∧ t.host = s.host ∧
    (∀ f, (feed t f).state = (feed s f).state ∧ (feed t f).gateEnh = (feed s f).gateEnh)

/-- The state after reset meets every invariant and its queue is empty. State.reset has an empty queue, its drone count does not
run ahead of time, its Bore and its tables are in canonical form, and no fused channel drives a code. (00_scope.md,
12_bore_commands.md, 18_register_pages.md) -/
def Obligations.ResetInvariants : Prop :=
  State.reset.pending = [] ∧ ClockInv State.reset ∧ CanonInv State.reset ∧ FusedQuiet State.reset

/-- After reset every register reads its reset value, both feeds are 0 ABSENT, the sequencer is 0 IDLE and no stage is reached. In
State.reset every stored register holds the value of the Reset column, both feeds are in 0 ABSENT with nothing latched, the
rail sequencer is in 0 IDLE with every enable low, the drive die has no power, the link is down, the stage is 0, no plan slot,
schedule or request exists, every channel sources code 0 in range L, and no Bell message waits. (00_scope.md,
02_feed_insertion.md, 03_staged_start.md, 18_register_pages.md) -/
def Obligations.ResetValues : Prop :=
  (∀ off, getReg State.reset off = regReset off) ∧
  (∀ f, (feed State.reset f).state = .absent ∧ (feed State.reset f).tr = {}) ∧
  State.reset.rails.state = .idle ∧ State.reset.rails.en = 0 ∧ driveOn State.reset = false ∧
  State.reset.idl.state = .down ∧ State.reset.boot.stage = 0 ∧
  (∀ k, (slot State.reset k).state = .empty ∧ req State.reset k = none) ∧
  (∀ ch, output State.reset ch = (0, false) ∧ (chan State.reset ch).fuse = .clear) ∧
  State.reset.bell.inq = [] ∧ (∀ a, boreByte State.reset a = 0)

/-- The feed die's drone count never runs ahead of the time that has passed, whatever command a step runs. For every state that
meets the clock invariant: if a step answers a next state, that state meets it too. The invariant: the phase stays below one
drone tick, and the drone count times 150,000 plus the phase is at most the passed core cycles times 512 (4.096 MHz against
1.2 GHz). The counting of time is the model's choice (log 4). (00_scope.md, 03_staged_start.md, 16_power_clocks.md) -/
def Obligations.EveryStepKeepsClock : Prop :=
  ∀ s t : State, ClockInv s → step s = .next t → ClockInv t

/-- Every step keeps the Bore and the sparse tables in canonical form. For every state whose Bore lists its bytes at strictly
rising addresses with no zero byte listed, and whose tables of registers, channels, tiles, loops and table pages list strictly
rising keys with no reset value listed: after any step that answers a next state the same holds. So equal memories are equal
data, whatever commands have run. The form is the model's. (12_bore_commands.md, 18_register_pages.md) -/
def Obligations.EveryStepKeepsCanon : Prop :=
  ∀ s t : State, CanonInv s → step s = .next t → CanonInv t

/-- No command touches the queue of waiting commands or the passed time. Every command acts on everything but the queue: when exec
answers a next state, the queue, the count of core cycles and the drone phase are what they were, and the drone count of the
feed die is what it was unless the command is POR, which clears it. (00_scope.md) -/
def Obligations.CommandsLeaveQueueAndClock : Prop :=
  ∀ (c : Instr) (s t : State), exec c s = .next t →
    t.pending = s.pending ∧ t.now = s.now ∧ t.phase = s.phase ∧ (c ≠ .por → t.droneF = s.droneF)

/-- Supply, profile, HOLD and presence of the feed die. FEED_SUPPLY_START of an unpowered die starts the supply with HOLD at 12 V
(that HOLD counts as charged at once is the model's choice, log 10) and keeps the retained records when they are kept, else
starts them at zero; OTP_PROFILE_LOADED of a supplied die arms the breaker and FS_OTP reports the profile; HOLD_LOW below 8 V
puts the voltage into TR_HOLD; PRES_ASSERTED and PRES_DEASSERTED set the presence, the first moving an absent feed with OFF 1
to 10 HELD_OFF, the second always ending in 0 ABSENT; FEED_SUPPLY_LOST of the last live feed ends supply and arming, leaves
both retained records and both feeds in 0 ABSENT with their gates off. (02_feed_insertion.md) -/
def Obligations.FeedSupplyAndPresence : Prop :=
  ∀ (s : State) (f : Feed),
    (∀ kept, s.fd.supply = false → Yields (.feedSupplyStart f kept) s fun t =>
      t.fd.supply = true ∧ t.fd.recValid = kept ∧ t.fd.vHold = 1200 ∧
      (kept = true → t.feedA.tr = s.feedA.tr ∧ t.feedB.tr = s.feedB.tr) ∧
      (kept = false → t.feedA.tr = {} ∧ t.feedB.tr = {})) ∧
    (∀ p ok, s.fd.supply = true → Yields (.otpProfileLoaded p ok) s fun t =>
      t.fd.armed = true ∧ regFld t (ro pgFSYS 0x44) 0 8 = p.toNat) ∧
    (∀ v, s.fd.supply = true → v.toNat < 800 → Yields (.holdLow v) s fun t => t.fd.vHold = v) ∧
    Yields (.presAsserted f) s (fun t => (feed t f).pres = true ∧
      ((feed s f).state = .absent → s.fd.armed = true → (feed s f).off = true → (feed t f).state = .heldOff)) ∧
    Yields (.presDeasserted f) s (fun t => (feed t f).pres = false ∧ (feed t f).state = .absent) ∧
    ((match f with | .a => s.fd.liveB | .b => s.fd.liveA) = false → Yields (.feedSupplyLost f) s fun t =>
      t.fd.supply = false ∧ t.fd.armed = false ∧ t.feedA.tr = s.feedA.tr ∧ t.feedB.tr = s.feedB.tr ∧
      t.feedA.state = .absent ∧ t.feedB.state = .absent ∧ t.feedA.gateEnh = false ∧ t.feedB.gateEnh = false)

/-- The window, the cool-down and the insertion delay. WINDOW_ENTER at 40 V to 64 V reports the voltage and moves a feed in 1
QUALIFY, not latched and without cool-down, to 3 DELAY; WINDOW_LEAVE below 38 V or above 66 V of a feed that is not on clears
its window and returns 2, 3 and 8 to 1 QUALIFY; UV_TRIP below 38 V of a feed that is on and OV_TRIP above 66 V of a feed whose
gate is driven turn the gate off with kinds 1 and 2 and leave an unlatched feed in 1 QUALIFY; COOLDOWN_EXPIRED in 2 COOLDOWN
starts the delay; INSERTION_DELAY_EXPIRED of an armed breaker in 3 DELAY enhances directly within 0.5 V, ramps otherwise with
the limit of FD_FOLDBACK, and holds while the other feed charges the bulk. (02_feed_insertion.md) -/
def Obligations.FeedWindowAndDelay : Prop :=
  ∀ (s : State) (f : Feed),
    (∀ v, 4000 ≤ v.toNat → v.toNat ≤ 6400 → Yields (.windowEnter f v) s fun t => (feed t f).inWindow = true ∧
      regFld t (ro (pgFEED f) 0x60) 16 16 = v.toNat ∧
      ((feed s f).state = .qualify → (feed s f).tr.latched = false → (feed s f).tr.coolMs = 0 → (feed t f).state = .delay)) ∧
    (∀ v, (v.toNat < 3800 ∨ 6600 < v.toNat) → (feed s f).state.isOn = false → Yields (.windowLeave f v) s fun t => (feed t f).inWindow = false ∧
      ((feed s f).state ∈ [.cooldown, .delay, .blocked] → (feed t f).state = .qualify)) ∧
    (∀ v, v.toNat < 3800 → (feed s f).state.isOn = true → (feed s f).tr.latched = false → Yields (.uvTrip f v) s fun t =>
      (feed t f).state = .qualify ∧ (feed t f).lastKind = 1 ∧ (feed t f).gateEnh = false) ∧
    (∀ v, 6600 < v.toNat → (feed s f).state.driven = true → (feed s f).tr.latched = false → Yields (.ovTrip f v) s fun t =>
      (feed t f).state = .qualify ∧ (feed t f).lastKind = 2 ∧ (feed t f).gateEnh = false) ∧
    (s.fd.supply = true → (feed s f).state = .cooldown → (feed s f).inWindow = true → (feed s f).tr.latched = false →
      Yields (.cooldownExpired f) s fun t => (feed t f).state = .delay ∧ (feed t f).tr.coolMs = 0) ∧
    (∀ vf vs o, (feed s f).state = .delay → s.fd.armed = true →
      (charging s (other f) = false → ¬ (f = .b ∧ o = true ∧ s.feedA.state = .delay) →
        Yields (.insertionDelayExpired f vf vs o) s fun t =>
          (vf.toNat ≤ vs.toNat + 50 → (feed t f).state = .enhance) ∧
          (vs.toNat + 50 < vf.toNat → (feed t f).state = .ramp ∧ (feed t f).startTimer = true ∧
            (feed t f).plimW = BitVec.ofNat 8 (regFld s (ro (pgFEED f) 0x4C) 0 8))) ∧
      (charging s (other f) = true → Yields (.insertionDelayExpired f vf vs o) s fun t =>
        (feed t f).state = .delay ∧ (feed t f).delayDone = true))

/-- Ramp, enhancement, current limit, trips and reverse current of a feed. START_TIMER_EXPIRED in 4 RAMP or 5 ENHANCE,
TIMED_LIMIT_EXPIRED in 7 LIMIT and FAST_TRIP at the comparator's ITRIP in 4 to 7 record kinds 5, 4 and 3, turn the gate off
and latch the feed or begin its cool-down; GATE_CHECK_TIMEOUT in 4 or 5 records kind 6 and latches; VDS_ENHANCE,
GATE_DWELL_DONE, GATE_DWELL_RESTART, CURRENT_LIMIT_ENTER from 5 A, CURRENT_LIMIT_EXIT below 5 A, REVERSE_CURRENT_TRIP at 0.5 A
and BLOCKED_RECOVER at VSLED + 50 mV make the moves of R40, CONSEC_COUNT_RESET of a feed that is on only zeroes its
consecutive count. A fast trip also counts in TRIPS, saturating. (02_feed_insertion.md) -/
def Obligations.FeedStartAndTrips : Prop :=
  ∀ (s : State) (f : Feed),
    (∀ v, charging s f = true → (feed s f).startTimer = true → Yields (.startTimerExpired f v) s fun t =>
      (feed t f).lastKind = 5 ∧ (feed t f).gateEnh = false ∧
      (feed t f).state = if (feed t f).tr.latched then .latched else .cooldown) ∧
    (∀ v, charging s f = true → Yields (.gateCheckTimeout f v) s fun t =>
      (feed t f).lastKind = 6 ∧ (feed t f).state = .latched ∧ (feed t f).tr.latched = true) ∧
    ((feed s f).state = .ramp → s.fd.armed = true → Yields (.vdsEnhance f) s fun t => (feed t f).state = .enhance) ∧
    (∀ e, (feed s f).state = .enhance → s.fd.armed = true → Yields (.gateDwellDone f e) s fun t =>
      (feed t f).state = .on ∧ (feed t f).gateEnh = true ∧ (feed t f).startTimer = false) ∧
    ((feed s f).state = .enhance → Yields (.gateDwellRestart f) s fun t =>
      (feed t f).state = .enhance ∧ (feed t f).gateEnh = false ∧ (feed t f).dwellAt = s.droneF) ∧
    (∀ i, (feed s f).state = .on → 5000 ≤ i.toInt → Yields (.currentLimitEnter f i) s fun t =>
      (feed t f).state = .limit ∧ (feed t f).limitTimer = true ∧ regFld t (ro (pgFEED f) 0x60) 0 16 = i.toNat) ∧
    (∀ i, (feed s f).state = .limit → i.toInt < 5000 → Yields (.currentLimitExit f i) s fun t =>
      (feed t f).state = .on ∧ (feed t f).limitTimer = false) ∧
    (∀ i, (feed s f).state = .limit → Yields (.timedLimitExpired f i) s fun t =>
      (feed t f).lastKind = 4 ∧ (feed t f).gateEnh = false ∧
      (feed t f).state = if (feed t f).tr.latched then .latched else .cooldown) ∧
    (∀ i, (feed s f).state.driven = true → (((feed s f).itripCmp.toNat * 100 : Nat) : Int) ≤ i.toInt → Yields (.fastTrip f i) s fun t =>
      (feed t f).lastKind = 3 ∧ (feed t f).gateEnh = false ∧
      (feed t f).tr.trips.toNat = min ((feed s f).tr.trips.toNat + 1) 255 ∧
      (feed t f).state = if (feed t f).tr.latched then .latched else .cooldown) ∧
    (∀ i, (feed s f).state = .on ∨ (feed s f).state = .enhance → i.toInt ≤ -500 → Yields (.reverseCurrentTrip f i) s fun t =>
      (feed t f).state = .blocked ∧ (feed t f).gateEnh = false) ∧
    (∀ vf vs, (feed s f).state = .blocked → s.fd.armed = true → vs.toNat + 5 ≤ vf.toNat → Yields (.blockedRecover f vf vs) s fun t =>
      (feed t f).state = .on ∧ (feed t f).gateEnh = true) ∧
    ((feed s f).state.isOn = true → Yields (.consecCountReset f) s fun t =>
      (feed t f).tr.consec = 0 ∧ (feed t f).state = (feed s f).state)

/-- FD_CTRL and the settings of a feed. FD_OFF holds a conducting feed off when the other feed is on or LAST_OK is 1, and is
refused otherwise; FD_ON qualifies a held-off feed; FD_CLR_LATCH clears an accepted latch; a settings write in range is what
the register then holds, FD_FAST_TRIP is refused below the present current plus 1 A, and ITRIP_COMPARATOR_MOVE brings the
comparator to the lower value. (02_feed_insertion.md) -/
def Obligations.FeedControl : Prop :=
  ∀ (s : State) (f : Feed), s.fd.supply = true →
    (∀ lastOk, (feed s f).state = .on → ((feed s (other f)).state = .on ∨ lastOk = true) →
      Yields (.fdOff f lastOk false) s fun t => (feed t f).state = .heldOff ∧ (feed t f).off = true ∧ (feed t f).lastKind = 8) ∧
    ((feed s f).state = .on → (feed s (other f)).state ≠ .on →
      Yields (.fdOff f false false) s fun t => (feed t f).state = .on ∧ (feed t f).off = (feed s f).off) ∧
    ((feed s f).state = .heldOff → (feed s f).tr.latched = false → (feed s f).inWindow = true → (feed s f).tr.coolMs = 0 →
      Yields (.fdOn f false) s fun t => (feed t f).state = .delay ∧ (feed t f).off = false) ∧
    ((feed s f).tr.latched = true → (feed s f).state = .latched → clrLatchOk s f = true →
      Yields (.fdClrLatch f false) s fun t =>
        (feed t f).tr.latched = false ∧ (feed t f).tr.consec = 0 ∧ (feed t f).state ≠ .latched) ∧
    (∀ v, fld v 0 11 ≤ 1600 → Yields (.fdInsDelayWrite f v) s fun t => regFld t (ro (pgFEED f) 0x48) 0 11 = fld v 0 11) ∧
    (∀ v, 10 ≤ fld v 0 8 → fld v 0 8 ≤ 200 → Yields (.fdFoldbackWrite f v) s fun t =>
      regFld t (ro (pgFEED f) 0x4C) 0 8 = fld v 0 8) ∧
    (∀ v, 20 ≤ fld v 0 8 → fld v 0 8 ≤ 250 →
      (signed 16 (regFld s (ro (pgFEED f) 0x60) 0 16) + 1000 ≤ (fld v 0 8 * 100 : Nat) →
        Yields (.fdFastTripWrite f v) s fun t => regFld t (ro (pgFEED f) 0x50) 0 8 = fld v 0 8) ∧
      (((fld v 0 8 * 100 : Nat) : Int) < signed 16 (regFld s (ro (pgFEED f) 0x60) 0 16) + 1000 →
        Yields (.fdFastTripWrite f v) s fun t => regFld t (ro (pgFEED f) 0x50) 0 8 = regFld s (ro (pgFEED f) 0x50) 0 8)) ∧
    (∀ v, (feed s f).itripNext = some v → Yields (.itripComparatorMove f) s fun t =>
      (feed t f).itripCmp = v ∧ (feed t f).itripNext = none) ∧
    (∀ v, 380 ≤ fld v 0 10 → fld v 0 10 ≤ 540 → fld v 16 8 ≠ 0 → Yields (.fdSagWrite f v) s fun t =>
      regFld t (ro (pgFEED f) 0x54) 0 10 = fld v 0 10 ∧ regFld t (ro (pgFEED f) 0x54) 16 8 = fld v 16 8)

/-- What the sharing, sag and trip-recorder commands do in the states their rules name. REBALANCE_SETTLED and REBALANCE_TIMEOUT in
4 REBALANCE go to the steady state, the first with the share reported; with both feeds on and SHARE_EN 1, AT_LIMIT_SET goes to
5 DUAL with the raise at 150 mV of the feed that SH_RATIO shows as the heavier, and AT_LIMIT_CLEAR, with AT_LIMIT set, to 4
REBALANCE with both raises below 150 mV, as does a write of SHARE_EN 1; SHARE_ERR comes live in 5 DUAL with SHARE_EN 0 and in
3 SHARING with a share off by more than 10 %. A feed that is on shows SAG and then SAG_SUST below SAG_V, and neither at or
above it; BUS_SAG follows VSLED against the lower SAG_V of the feeds that are on. The capture of a trip is held when it is
done, RELEASE frees it and sets ARM, and a read of TR_RD_DATA returns the sample at IDX and advances IDX, 63,999 to 0. None of
these moves a gate or the rails. (02_feed_insertion.md) -/
def Obligations.SharingAndSags : Prop :=
  ∀ (s : State) (f : Feed),
    (s.fd.share = .rebalance →
      (∀ p, Yields (.rebalanceSettled p) s fun t =>
        t.fd.share = steadyShare s ∧ regFld t (ro pgSHARE 0x48) 0 10 = p.toNat ∧ SameFeedGates s t) ∧
      (Yields .rebalanceTimeout s fun t =>
        t.fd.share = steadyShare s ∧ regFld t (ro pgSHARE 0x48) 0 10 = regFld s (ro pgSHARE 0x48) 0 10 ∧ SameFeedGates s t)) ∧
    (bothOn s = true → regFld s (ro pgSHARE 0x40) 0 1 = 1 → Yields .atLimitSet s fun t =>
      t.fd.atLimit = true ∧ t.fd.share = .dual ∧ (heavierFeed s = .a → t.fd.raiseA = 150 ∧ t.fd.raiseB = 0) ∧
      (heavierFeed s = .b → t.fd.raiseB = 150 ∧ t.fd.raiseA = 0) ∧ SameFeedGates s t) ∧
    (bothOn s = true → s.fd.atLimit = true → Yields .atLimitClear s fun t =>
      t.fd.atLimit = false ∧ t.fd.share = .rebalance ∧ t.fd.raiseA.toNat < 150 ∧ t.fd.raiseB.toNat < 150 ∧ SameFeedGates s t) ∧
    (∀ v, s.fd.supply = true → bothOn s = true → bit v 0 = true → Yields (.shCtrlWrite v) s fun t =>
      t.fd.share = .rebalance ∧ regFld t (ro pgSHARE 0x40) 0 1 = 1 ∧ SameFeedGates s t) ∧
    (∀ p : BitVec 10, bothOn s = true →
      ((regFld s (ro pgSHARE 0x40) 0 1 = 0 ∧ s.fd.share = .dual) ∨ (s.fd.share = .sharing ∧ (p.toNat < 400 ∨ 600 < p.toNat))) →
      Yields (.shareErr p) s fun t => t.fd.shareErr = true ∧ regFld t (ro pgSHARE 0x48) 0 10 = p.toNat ∧ SameFeedGates s t) ∧
    (∀ v, (feed s f).state.isOn = true → v.toNat < sagV s f → Yields (.sagDetect f v) s fun t =>
      (feed t f).sag = true ∧ (feed t f).state = (feed s f).state ∧ feed t (other f) = feed s (other f)) ∧
    (∀ v, (feed s f).state.isOn = true → (feed s f).sag = true → v.toNat < sagV s f → Yields (.sagSustained f v) s fun t =>
      (feed t f).sagSust = true ∧ (feed t f).state = (feed s f).state ∧ feed t (other f) = feed s (other f)) ∧
    (∀ v, ((feed s f).state.isOn = false ∨ sagV s f ≤ v.toNat) → Yields (.sagClear f v) s fun t =>
      (feed t f).sag = false ∧ (feed t f).sagSust = false ∧ (feed t f).state = (feed s f).state ∧ feed t (other f) = feed s (other f)) ∧
    (∀ v, v.toNat < busSagV s → Yields (.busSagSet v) s fun t => t.fd.busSag = true ∧ SameFeedGates s t) ∧
    (∀ v, busSagV s ≤ v.toNat → Yields (.busSagClear v) s fun t => t.fd.busSag = false ∧ SameFeedGates s t) ∧
    (∀ xs k, s.fd.capture = some (f, k) → Yields (.tripCaptureDone xs) s fun t =>
      t.fd.capValid = true ∧ t.fd.capFeed = f ∧ t.fd.capKind = k ∧ t.fd.capture = none ∧ SameFeedGates s t) ∧
    (∀ arm, s.fd.supply = true → Yields (.trRelease arm) s fun t =>
      t.fd.capValid = false ∧ regFld t (ro pgTRIP 0x40) 1 1 = b2n arm ∧ SameFeedGates s t) ∧
    Yields .trRdDataRead s (fun t => SameFeedGates s t ∧
      t.host.rdata = tabGet (fun _ => 0) s.fd.samples (regFld s (ro pgTRIP 0x50) 0 16) ∧
      regFld t (ro pgTRIP 0x50) 0 16 = if 63999 ≤ regFld s (ro pgTRIP 0x50) 0 16 then 0 else regFld s (ro pgTRIP 0x50) 0 16 + 1)

/-- The rail sequencer's up-sequence, failures, down-sequence and commands. RAIL_SEQ_START with PG_IB enters step 1 and raises its
enable; RAIL_STEP_DONE notes the power-goods of the step and goes to the next, or to 6 UP after step 5; RAIL_PG_FALL and
RAIL_PG_TIMEOUT in a step, and RAIL_LOST in 6 UP, begin the down-sequence with the rail in FAILED, the timeout with CONSEC one
higher (at most 15) and 10 LATCHED from the third on; HV_LOST of one of two good rails drops that enable alone; DOWN_SEQ_STEP
takes the next drop and after the last the state to end in; RETRY_WAIT_EXPIRED and PS_START from 8 STOPPED enter step 1;
RAIL_CONSEC_RESET in 6 UP zeroes CONSEC; PG_IB_LOSS_ENABLES_DROP with PG_IB low drops every enable, 0 IDLE; PS_STOP in 6 UP
begins the down-sequence into 8 STOPPED; PS_CLR_LATCH takes 10 LATCHED to 8 STOPPED with CONSEC 0; DTIN_ARMED with PG_AUX
watches DTIN; T_CRIT_STOP with DTIN watched drops every enable but EN_IB and enters 8 STOPPED from every state but 10 LATCHED,
and with DTIN not yet watched does that or nothing. (02_feed_insertion.md) -/
def Obligations.RailSequencer : Prop :=
  ∀ s : State,
    (s.fd.pgIb = true → s.rails.state = .idle → Yields .railSeqStart s fun t =>
      t.rails.state = .step 1 ∧ t.rails.en = s.rails.en ||| 1) ∧
    (∀ k : Fin 6, s.rails.state = .step k → Yields .railStepDone s fun t =>
      t.rails.pg = s.rails.pg ||| stepMask k.val ∧
      t.rails.state = if k.val = 5 then .up else .step (k + 1)) ∧
    (∀ r : Rail, s.rails.state.stepping = true → s.rails.pg.getLsbD (railIdx r) = true → Yields (.railPgFall r) s fun t =>
      t.rails.state = .stopping ∧ t.rails.failed.toNat = railIdx r) ∧
    (∀ (r : Rail) (k : Fin 6), s.rails.state = .step k → railStep r = k.val → Yields (.railPgTimeout r) s fun t =>
      t.rails.state = .stopping ∧ t.rails.failed.toNat = railIdx r ∧ t.rails.consec.toNat = min (s.rails.consec.toNat + 1) 15 ∧
      t.rails.downTo = if 3 ≤ s.rails.consec.toNat + 1 then .latched else .retryWait) ∧
    (∀ v : Valve, s.rails.state = .up → s.rails.pg.getLsbD 4 = true → s.rails.pg.getLsbD 5 = true → Yields (.hvLost v) s fun t =>
      t.rails.state = .up ∧ t.rails.en.getLsbD (railIdx (valveRail v)) = false ∧
      (∀ i, i ≠ railIdx (valveRail v) → t.rails.en.getLsbD i = s.rails.en.getLsbD i)) ∧
    (∀ r : Rail, s.rails.state = .up → Yields (.railLost r) s fun t =>
      t.rails.state = .stopping ∧ t.rails.failed.toNat = railIdx r) ∧
    (s.rails.state = .stopping → s.rails.downNext < 4 → Yields .downSeqStep s fun t =>
      t.rails.state = .stopping ∧ t.rails.downNext = s.rails.downNext + 1) ∧
    (s.rails.state = .stopping → s.rails.downNext = 4 → Yields .downSeqStep s fun t =>
      t.rails.state = s.rails.downTo ∧ t.rails.en.getLsbD 0 = false) ∧
    (s.rails.state = .retryWait → Yields .retryWaitExpired s fun t => t.rails.state = .step 1) ∧
    (s.rails.state = .up → Yields .railConsecReset s fun t => t.rails.consec = 0 ∧ t.rails.state = .up) ∧
    (s.fd.pgIb = false → Yields .pgIbLossEnablesDrop s fun t => t.rails.en = 0 ∧ t.rails.state = .idle) ∧
    (s.fd.supply = true → s.rails.state = .up → Yields .psStop s fun t =>
      t.rails.state = .stopping ∧ t.rails.downTo = .stopped) ∧
    (s.fd.supply = true → s.rails.state = .stopped → Yields .psStart s fun t => t.rails.state = .step 1) ∧
    (s.fd.supply = true → s.rails.state = .latched → Yields .psClrLatch s fun t =>
      t.rails.state = .stopped ∧ t.rails.consec = 0) ∧
    (s.rails.pg.getLsbD 3 = true → Yields .dtinArmed s fun t => t.rails.dtinArmed = true) ∧
    (s.fd.supply = true → s.rails.state ≠ .latched →
      let stopped (t : State) : Prop := t.rails.state = .stopped ∧ t.rails.en = s.rails.en &&& 1 ∧ t.rails.dtinArmed = false
      (s.rails.dtinArmed = true → Yields .tCritStop s stopped) ∧ Yields .tCritStop s fun t => stopped t ∨ t.rails = s.rails)

/-- FRST restores the FRST-domain registers and leaves the feeds, the gates, the sequencer, the rails, the records and OFF.
FS_RESET with 0x0000_C1A5, the feed watchdog and FD_SMB_RESET with 0xA5, 0xC1 start FRST. Every FRST-domain register but the
push counter, which counts the push of R23, then holds its reset value; the state, the gate, the retained record and OFF of
each feed, the sequencer and the rails are as before; with the link up the restored settings are pushed. (R72) -/
def Obligations.FeedReset : Prop :=
  ∀ s : State, s.fd.supply = true → ∀ c : Instr,
    (c = .fsReset 0x0000C1A5 ∨ c = .feedWatchdogReset ∨ (c = .fdSmbReset 0xA5 0xC1 true ∧ s.fd.armed = true)) →
    Yields c s fun t =>
      (∀ off, regDom off = .frst → off ≠ ro pgFSYS 0x4C → getReg t off = regReset off) ∧
      (∀ f, (feed t f).state = (feed s f).state ∧ (feed t f).gateEnh = (feed s f).gateEnh ∧
        (feed t f).tr = (feed s f).tr ∧ (feed t f).off = (feed s f).off) ∧
      t.rails = s.rails ∧
      (idlUp s = true → t.idl.toDrive.wire.length = s.idl.toDrive.wire.length + 2)

/-- POR, the rails, stage 2 and the resets of the drive die. POR leaves every register at its reset value, both feeds absent, the
sequencer idle and every channel at 0 A, and keeps the park store's copies and BOOT and CAL; DRIVE_RAILS_UP leaves 0 A in
every channel, every valve blocked and LAST at 0 RAILS; DRIVE_RAILS_LOST ends power and outputs, takes both links down and
returns every drive-die register to its reset value, and leaves the feeds and the park copies; STAGE2_ENTRY from stage 1 with
the rails up, the breaker armed and PG of core, IO and aux turns every domain on; WARM_RESET empties every slot, request and
command and begins stage 2 with every output as it was; DRST in a machine of canonical form with every TG domain on clears
every fuse, ends every tongue and keeps the output of every channel without one; CORE_WATCHDOG outside a trial stops the core
alone and CORE_RESTART_DONE of a chosen slot starts it again; SY_RESET with its key does what the two resets do. (00_scope.md,
03_staged_start.md, 16_power_clocks.md, 18_register_pages.md) -/
def Obligations.DriveDieResets : Prop :=
  ∀ s : State,
    Yields .por s (fun t => (∀ off, getReg t off = regReset off) ∧ (∀ f, (feed t f).state = .absent) ∧
      (∀ ch, output t ch = (0, false)) ∧ t.rails.state = .idle ∧ driveOn t = false ∧ t.boot.stage = 0 ∧
      t.park.copy0 = s.park.copy0 ∧ t.park.copy1 = s.park.copy1 ∧ t.flash.boot = s.flash.boot ∧ t.flash.cal = s.flash.cal) ∧
    (driveOn s = false → s.power.railsUp = false → Yields .driveRailsUp s fun t => t.power.railsUp = true ∧ (∀ ch, output t ch = (0, false)) ∧
      (∀ k, (tile t k).va = .blocked ∧ (tile t k).vb = .blocked) ∧ regFld t (ro pgSYS 0x68) 0 4 = 0) ∧
    (driveOn s = true → Yields .driveRailsLost s fun t => driveOn t = false ∧ (∀ ch, output t ch = (0, false)) ∧
      t.idl.state = .down ∧ t.host.linkUp = false ∧ t.park.copy0 = s.park.copy0 ∧ t.feedA = s.feedA ∧ t.feedB = s.feedB ∧
      (∀ off, isFeedPage (off / 4096) = false → getReg t off = regReset off)) ∧
    (driveOn s = false → stage2Ready s = true → Yields .stage2Entry s fun t => t.power.dom = 0xFFFFF ∧ t.boot.stage = 2 ∧ t.boot.stage2At = s.now) ∧
    (driveOn s = true → Yields .warmReset s fun t => t.boot.stage = 2 ∧ t.boot.selected = false ∧ SameOutputs s t ∧
      (∀ k, (slot t k).state = .empty ∧ req t k = none) ∧ t.cmdq.cmds = [] ∧ regFld t (ro pgSYS 0x68) 0 4 = 4) ∧
    (CanonInv s → driveOn s = true → s.power.dom = 0xFFFFF → Yields .drst s fun t => t.boot.stage = 2 ∧ t.idl.state = .down ∧
      (∀ ch, (chan t ch).fuse = .clear ∧ (chan t ch).tongue = none ∧
        ((chan s ch).tongue = none → output t ch = output s ch)) ∧ regFld t (ro pgSYS 0x68) 0 4 = 2) ∧
    (s.boot.core = true → s.boot.trial = false → Yields .coreWatchdog s fun t =>
      t.boot.core = false ∧ t.boot.restarting = true ∧ t.boot.stage = s.boot.stage ∧ SameOutputs s t) ∧
    (s.boot.restarting = true → s.boot.selected = true → Yields .coreRestartDone s fun t => t.boot.core = true ∧ t.boot.restarting = false) ∧
    (∀ fn, mayWrite s fn pgSYS 0x64 1 = true → Yields (.syResetWarm fn 0xD0A5) s fun t =>
      t.boot.stage = 2 ∧ SameOutputs s t ∧ ∀ k, (slot t k).state = .empty) ∧
    (mayWrite s .pf0 pgSYS 0x64 1 = true → Yields (.syResetDrst .pf0 0xD0A5) s fun t =>
      t.boot.stage = 2 ∧ t.idl.state = .down ∧ regFld t (ro pgSYS 0x68) 0 4 = 2)

/-- A WARM reset leaves every channel and every tile as it was. WARM_RESET and SY_RESET_WARM with any function and key, in every
state: every channel (its code, range, fuse state, tongue, supervision and park register) and every tile (its valves and
backup reference) is as before. (R18) -/
def Obligations.WarmResetLeavesDrives : Prop :=
  ∀ s : State, (∀ c : Instr, (c = .warmReset ∨ ∃ fn key, c = .syResetWarm fn key) →
    Yields c s fun t => t.chans = s.chans ∧ t.tiles = s.tiles)

/-- Choosing, verifying and failing an image slot, and the entries of stages 3 and 4. BOOT_SLOT_SELECT at stage 2 with the medium
ready takes slot A when it is PENDING as a trial, the VALID slot of PREF when none is PENDING, and holds with HOLD_WHY 2 when
both are EMPTY or FAILED; SFW_VERIFIED starts a slot outside a trial whose header, CRC and digest are right, and marks a trial
that fails them FAILED; STAGE3_ENTRY and STAGE4_ENTRY advance the stage when core, pairing and zeroing, and link, push, kinds
and model, are ready; STAGE3_DEADLINE of a trial 400 ms after stage 2 began, unless pairing is HELD, and TRIAL_EXPIRED mark
the trial FAILED; STAGE4_CAL_LOAD loads a kind that is not yet loaded; with its key CONFIRM makes the running slot VALID and
preferred, ACTIVATE of a PENDING slot resets and keeps it PENDING, FORCE_PAIR turns HELD into FLOOR. (03_staged_start.md) -/
def Obligations.BootSlots : Prop :=
  ∀ s : State,
    (s.boot.stage = 2 → s.boot.selected = false → driveOn s = true → s.flash.state = .ready →
      (s.boot.stateA = .pending → Yields .bootSlotSelect s fun t =>
        t.boot.selected = true ∧ t.boot.running = false ∧ t.boot.trial = true) ∧
      (s.boot.stateA ≠ .pending → s.boot.stateB ≠ .pending → slotState s (b2n s.boot.pref) = .valid →
        Yields .bootSlotSelect s fun t => t.boot.selected = true ∧ t.boot.running = s.boot.pref ∧ t.boot.trial = false) ∧
      (s.boot.stateA ∈ [.empty, .failed] → s.boot.stateB ∈ [.empty, .failed] → Yields .bootSlotSelect s fun t =>
        t.boot.selected = false ∧ t.boot.holdWhy = 2)) ∧
    (s.boot.stage = 2 → s.boot.selected = true → s.boot.core = false →
      (bundleErr s (runningSlot s) = 0 → s.boot.trial = false → Yields .sfwVerified s fun t =>
        t.boot.core = true ∧ t.boot.sfw = compVersion s (runningSlot s) 0) ∧
      (bundleErr s (runningSlot s) ≠ 0 → s.boot.trial = true → driveOn s = true → Yields .sfwVerified s fun t =>
        slotState t (runningSlot s) = .failed ∧ t.boot.core = false ∧ t.boot.selected = false)) ∧
    (s.boot.stage = 2 → s.boot.core = true → s.boot.holdWhy = 0 → (s.boot.outcome = 1 ∨ s.boot.outcome = 2) →
      s.bore.climbDone = true → Yields (.stage3Entry true) s fun t => t.boot.stage = 3 ∧ SameOutputs s t) ∧
    (s.boot.stage = 2 → s.boot.selected = true → s.boot.holdWhy ≠ 1 → s.boot.stage2At + 480_000_000 ≤ s.now →
      s.boot.trial = true → driveOn s = true →
      Yields .stage3Deadline s fun t => slotState t (runningSlot s) = .failed ∧ t.boot.selected = false) ∧
    (s.boot.trial = true → driveOn s = true → Yields .trialExpired s fun t =>
      slotState t (runningSlot s) = .failed ∧ t.boot.trial = false) ∧
    (∀ k : Fin 6, s.boot.stage = 3 → coreRuns s = true → tabBusy s k.val = false → k.val ∉ s.boot.calLoaded →
      Yields (.stage4CalLoad k) s fun t => t.boot.calLoaded = s.boot.calLoaded ++ [k.val] ∧ (tab t k.val).loaded = true) ∧
    (s.boot.stage = 3 → coreRuns s = true → idlUp s = true → s.idl.pushOk = true →
      (∀ k : Fin 6, k.val ∈ s.boot.calLoaded) → modelWarm s = true → Yields .stage4Entry s fun t => t.boot.stage = 4) ∧
    (∀ fn, mayWrite s fn pgBOOT 0x44 0 = true →
      (s.boot.trial = true → Yields (.btConfirm fn 0xB007) s fun t =>
        slotState t (runningSlot s) = .valid ∧ t.boot.pref = s.boot.running ∧ t.boot.trial = false) ∧
      (s.boot.stateA = .pending → s.boot.updCmd = 0 → Yields (.btActivate fn 0xB007) s fun t =>
        t.boot.stage = 2 ∧ t.boot.selected = false ∧ t.boot.stateA = .pending ∧ regFld t (ro pgSYS 0x68) 0 4 = 5) ∧
      (s.boot.outcome = 3 → s.boot.holdWhy = 1 → Yields (.btForcePair fn 0xB007) s fun t =>
        t.boot.outcome = 2 ∧ t.boot.forced = true ∧ t.boot.holdWhy = 0))

/-- WRITE, SEAL and ABORT of an image. With no command running, WRITE with OFF and LEN in range and LEN not 0 starts and empties
the target slot when it is the first, SEAL starts, and ABORT empties a PENDING target. The end of a WRITE puts the bytes of
the flash buffer, whose words pass parity, into the target slot at its OFF, or ends with ERR 2; the end of a SEAL marks a
target whose header, CRC and digest are right PENDING with the forecast; ABORT of a running command is noted, and its end
leaves ERR 6 and the target EMPTY. The target is the slot that is not running; WRITE and ABORT leave the running slot's state
as it was. (03_staged_start.md) -/
def Obligations.ImageUpdates : Prop :=
  ∀ s : State,
    (∀ fn, mayWrite s fn pgBOOT 0x8C 0 = true → s.boot.updCmd = 0 →
      (updRangeOk (getReg s (ro pgBOOT 0x84)).toNat (getReg s (ro pgBOOT 0x88)).toNat = true →
        getReg s (ro pgBOOT 0x88) ≠ 0 → Yields (.btUpdWrite fn) s fun t => t.boot.updCmd = 1 ∧ t.boot.updErr = 0 ∧
          (s.boot.updStarted = false → slotState t (targetSlot s) = .empty) ∧
          slotState t (runningSlot s) = slotState s (runningSlot s)) ∧
      Yields (.btUpdSeal fn) s (fun t => t.boot.updCmd = 2 ∧ t.boot.updErr = 0) ∧
      (slotState s (targetSlot s) = .pending → Yields (.btUpdAbort fn) s fun t =>
        slotState t (targetSlot s) = .empty ∧ slotState t (runningSlot s) = slotState s (runningSlot s))) ∧
    (∀ fn, mayWrite s fn pgBOOT 0x8C 0 = true → s.boot.updCmd ≠ 0 → Yields (.btUpdAbort fn) s fun t => t.boot.updAbort = true) ∧
    (memWf s.bore.mem = true → (∀ w ∈ s.bore.badPar, w < 0x110_0000 ∨ 0x110_0000 + s.boot.updLen ≤ w) →
      s.boot.updCmd = 1 → s.boot.updAbort = false → bootWritable s = true →
      Yields (.updWriteDone true) s fun t => t.boot.updCmd = 0 ∧ t.boot.updErr = 0 ∧
        ∀ i, i < s.boot.updLen →
          tabGet (fun _ => (0 : Byte)) t.flash.boot (slotAt (targetSlot s) + s.boot.updOff + i) = boreByte s (0x110_0000 + i)) ∧
    (s.boot.updCmd = 1 → s.boot.updAbort = false → Yields (.updWriteDone false) s fun t =>
      t.boot.updCmd = 0 ∧ t.boot.updErr = 2 ∧ t.flash = s.flash) ∧
    (s.boot.updCmd = 2 → s.boot.updAbort = false → bootWritable s = true → bundleErr s (targetSlot s) = 0 →
      Yields (.updSealDone true) s fun t => t.boot.updCmd = 0 ∧ slotState t (targetSlot s) = .pending ∧
        t.boot.forecast = pairOutcome s (targetSlot s)) ∧
    (s.boot.updAbort = true → Yields .updAbortDone s fun t =>
      t.boot.updCmd = 0 ∧ t.boot.updErr = 6 ∧ slotState t (targetSlot s) = .empty)

/-- The pad test and the bond report. The end of a pad test (the first, or a repeat) gives every drive pad of a powered tile under
test the entry computed from what was measured at it, its channel's fuse state and current and the limits, gives every monitor
pad there its class, ends the run and moves no output; new limits with R_LO below R_HI stand in BT_BOND_LIM; BT_BOND_DATA
reads the entry at IDX and advances IDX below its last; BT_PADTEST starts a repeat, and starts none while a slot is armed.
(03_staged_start.md) -/
def Obligations.PadTestAndBonds : Prop :=
  ∀ s : State,
    (∀ vLow dflt drv (md : MonMeas) mon, s.boot.padRun = true →
      ∀ c : Instr, ((c = .padTestDone vLow dflt drv md mon ∧ s.boot.padDone = false) ∨
          (c = .padtestRepeatDone vLow dflt drv md mon ∧ s.boot.padDone = true)) →
        Yields c s fun t => t.boot.padRun = false ∧ t.boot.padDone = true ∧ SameOutputs s t ∧
          (∀ m, m < 16384 → s.boot.padTiles.getLsbD (m / 512) = true → tileOn s (m / 512) = true →
            tabGet (fun _ => (3 : BitVec 2)) t.boot.mons m = monClass ((mon.lookup m).getD md)) ∧
          ∀ ch : Chan, s.boot.padTiles.getLsbD (ch.val / 1024) = true → tileOn s (ch.val / 1024) = true →
            tabGet (fun _ => (0 : Word)) t.boot.bond ch.val =
              bondEntry (rLo s) (rHi s) ((chan s ch.val).fuse != .clear)
                (codeCurrent (chan s ch.val).code.toNat (chan s ch.val).range) vLow ((drv.lookup ch.val).getD dflt)) ∧
    (∀ fn v, mayWrite s fn pgBOOT 0x74 0 = true → fld v 0 12 < fld v 16 12 → Yields (.btBondLimWrite fn v) s fun t =>
      rLo t = fld v 0 12 ∧ rHi t = fld v 16 12) ∧
    (∀ fn, mayRead s fn pgBOOT 0x7C = true → Yields (.btBondDataRead fn) s fun t =>
      t.host.rdata = bondWord s (regFld s (ro pgBOOT 0x78) 0 16) ∧
      (regFld s (ro pgBOOT 0x78) 0 16 < 36863 → regFld t (ro pgBOOT 0x78) 0 16 = regFld s (ro pgBOOT 0x78) 0 16 + 1)) ∧
    (∀ fn v, mayWrite s fn pgBOOT 0x80 0 = true → bit v 8 = true →
      (anyArmed s = false → Yields (.btPadtestStart fn v) s fun t => t.boot.padRun = true) ∧
      (anyArmed s = true → Yields (.btPadtestStart fn v) s fun t => t.boot.padRun = s.boot.padRun))

/-- The park loader, the park store and park events. With HVA and HVB good and no park strobe yet the loader starts; PARK_STROBE
with copy 0 intact puts its entries into the shadow and every park register and begins the park event of every tile; PARK_ALL
and PARK_TILES request events and move no output; an event that reaches a tile brings every channel there that is not fused,
and that the dark tile has not written in this cycle, to its park code and range with AT_PARK, and leaves every other output;
UPDATE takes the shadow, and its end without an error leaves both copies intact with it under one generation; APPLY loads
every park register, and RELOAD from an intact copy 0 brings its entries back into the shadow, without moving an output;
PK_DATA writes and reads a pair of entries. (That an event names every tile it was asked for is stated with every TG domain
on.) (04_drive_channels.md, 03_staged_start.md) -/
def Obligations.ParkStore : Prop :=
  ∀ s : State,
    (driveOn s = true → s.park.strobed = false → s.rails.pg.getLsbD 4 = true → s.rails.pg.getLsbD 5 = true →
      Yields .parkLoaderStart s fun t => t.park.loader = true) ∧
    (∀ us, s.park.loader = true → s.park.copy0.intact = true → s.power.dom = 0xFFFFF → Yields (.parkStrobe us) s fun t =>
      t.park.loaded = true ∧ t.park.strobed = true ∧ t.park.loader = false ∧ t.park.shadow = s.park.copy0.entries ∧
      t.park.copyUsed = 0 ∧ regFld t (ro pgPARK 0x68) 0 16 = us.toNat ∧
      t.park.events = s.park.events ++ [{ cause := 0, tiles := allTiles, left := allTiles }] ∧
      (∀ ch : Chan, (chan t ch.val).park = tabGet (fun _ => 0) s.park.copy0.entries ch.val)) ∧
    (∀ fn, mayWrite s fn pgPARK 0x44 1 = true → s.power.dom = 0xFFFFF →
      Yields (.pkParkAll fn) s (fun t =>
        t.park.events = s.park.events ++ [{ cause := 5, tiles := allTiles, left := allTiles }] ∧ SameOutputs s t) ∧
      (getReg s (ro pgPARK 0x48) ≠ 0 → Yields (.pkParkTiles fn) s fun t =>
        t.park.events = s.park.events ++
          [{ cause := 5, tiles := getReg s (ro pgPARK 0x48), left := getReg s (ro pgPARK 0x48) }] ∧ SameOutputs s t)) ∧
    (∀ (t' : Tile) (e : ParkEvent), s.park.events = [e] → e.left.getLsbD t'.val = true →
      Yields (.parkEventReachTile t') s fun t =>
        (∀ ch, ch / 1024 = t'.val → ((chan s ch).fuse = .clear → outranks s (chan s ch) 3 = false → output t ch = (parkCode (chan s ch).park, parkRange (chan s ch).park) ∧
          (chan t ch).atPark = true) ∧ ((chan s ch).fuse ≠ .clear → output t ch = output s ch)) ∧
        (∀ ch, ch / 1024 ≠ t'.val → output t ch = output s ch)) ∧
    (∀ fn, mayWrite s fn pgPARK 0x44 0 = true → parkBusy s = false →
      (wornCopy s = none → Yields (.pkUpdate fn) s fun t => t.park.update = some s.park.shadow ∧ t.park.dirty = false) ∧
      (s.park.events = [] → Yields (.pkApply fn) s fun t => t.park.apply = true) ∧
      (s.park.events = [] → Yields (.pkReload fn) s fun t => t.park.reload = true)) ∧
    (∀ es v, s.park.update = some es → Yields (.pkUpdateDone none v) s fun t =>
      t.park.copy0.entries = es ∧ t.park.copy1.entries = es ∧ t.park.copy0.intact = true ∧ t.park.copy1.intact = true ∧
      t.park.copy0.gen = t.park.copy1.gen ∧ t.park.update = none ∧ t.park.lastErr = 0) ∧
    (s.park.apply = true → Yields .pkApplyDone s fun t => t.park.apply = false ∧ SameOutputs s t ∧
      ∀ ch : Chan, (chan t ch.val).park = tabGet (fun _ => 0) s.park.shadow ch.val) ∧
    (s.park.reload = true → s.park.copy0.intact = true → Yields .pkReloadDone s fun t =>
      t.park.reload = false ∧ t.park.dirty = false ∧ t.park.shadow = s.park.copy0.entries ∧ SameOutputs s t) ∧
    (∀ fn, (∀ v, mayWrite s fn pgPARK 0x58 0 = true → Yields (.pkDataAccess fn (some v)) s fun t =>
        t.park.dirty = true ∧ tabGet (fun _ => 0) t.park.shadow (2 * parkPair s) = BitVec.ofNat 16 (fld v 0 16) ∧
        tabGet (fun _ => 0) t.park.shadow (2 * parkPair s + 1) = BitVec.ofNat 16 (fld v 16 16) ∧ SameOutputs s t) ∧
      (mayRead s fn pgPARK 0x58 = true → Yields (.pkDataAccess fn none) s fun t =>
        fld t.host.rdata 0 16 = (tabGet (fun _ => (0 : BitVec 16)) s.park.shadow (2 * parkPair s)).toNat ∧
        t.park.shadow = s.park.shadow ∧ parkPair t = (parkPair s + 1) % 16384))

/-- Training, errors, replays and the loss of the inter-die link. Training begins with both dies powered and the link down, each
side notes the other's version range and lanes, and the link comes up on version 1.0, which both ranges include, with four
lanes or a pair; a frame in error makes its receiver discard until the replay and counts at the drive die; a NAK with the SEQ
expected starts the replay of every frame not received, and after three replays takes the link down; the loss of the link and
RETRAIN take it down and clear READY of every armed plan, which stays armed. (03_staged_start.md, 18_register_pages.md) -/
def Obligations.LinkTraining : Prop :=
  ∀ s : State,
    (s.fd.supply = true → driveOn s = true → s.idl.state = .down → Yields .idlTrainStart s fun t => t.idl.state = .training) ∧
    (∀ lo hi l, s.idl.state = .training →
      Yields (.idlTrain .drive lo hi l) s (fun t => t.idl.trainDrive = some (lo, hi, l) ∧ t.idl.trainFeed = s.idl.trainFeed) ∧
      Yields (.idlTrain .feed lo hi l) s (fun t => t.idl.trainFeed = some (lo, hi, l) ∧ t.idl.trainDrive = s.idl.trainDrive)) ∧
    (∀ lo hi l lo' hi' l', s.idl.state = .training → s.idl.trainDrive = some (lo, hi, l) → s.idl.trainFeed = some (lo', hi', l') →
      lo.toNat ≤ 16 → 16 ≤ hi.toNat → lo'.toNat ≤ 16 → 16 ≤ hi'.toNat → (linkLanes l l').2 ≠ 0 → Yields .idlLinkUp s fun t =>
        t.idl.state = .up ∧ t.idl.ver = 0x10 ∧ t.idl.lanes.toNat = (linkLanes l l').2) ∧
    (idlUp s = true →
      (s.idl.toDrive.discarding = false → Yields (.idlFrameError .drive) s fun t => t.idl.toDrive.discarding = true ∧
        regFld t (ro pgIDL 0x48) 0 16 = (regFld s (ro pgIDL 0x48) 0 16 + 1) % 65536) ∧
      Yields (.idlFrameError .feed) s (fun t => t.idl.toFeed.discarding = true) ∧
      (s.idl.toDrive.discarding = true → Yields (.idlNak .feed s.idl.toDrive.expected) s fun t =>
        (s.idl.toDrive.replays < 3 → t.idl.toDrive.discarding = false ∧ t.idl.toDrive.wire = s.idl.toDrive.wire ∧
          t.idl.toDrive.replays = s.idl.toDrive.replays + 1 ∧ t.idl.state = .up) ∧
        (3 ≤ s.idl.toDrive.replays → t.idl.state = .down)) ∧
      (s.idl.toFeed.discarding = true → Yields (.idlNak .drive s.idl.toFeed.expected) s fun t =>
        regFld t (ro pgIDL 0x48) 16 16 = (regFld s (ro pgIDL 0x48) 16 16 + 1) % 65536 ∧
        (s.idl.toFeed.replays < 3 → t.idl.toFeed.discarding = false ∧ t.idl.toFeed.wire = s.idl.toFeed.wire ∧ t.idl.state = .up) ∧
        (3 ≤ s.idl.toFeed.replays → t.idl.state = .down)) ∧
      Yields .idlLinkLost s (fun t => t.idl.state = .down ∧ t.idl.pushOk = false ∧
        ∀ k : Slot, (slot s k.val).state = .armed → (slot t k.val).state = .armed ∧ (slot t k.val).ready = false) ∧
      (∀ fn, mayWrite s fn pgIDL 0x40 0 = true → Yields (.idRetrain fn) s fun t => t.idl.state = .down ∧
        ∀ k : Slot, (slot s k.val).state = .armed → (slot t k.val).ready = false))

/-- Pushes, feed-page accesses, the drone count and feed-die messages over the link. Each receive command takes the oldest frame
of its direction while its receiver does not discard: a PUSH0 is held, a PUSH1 that directly follows applies both words, and
one that does not leaves the push in force; a read request of a feed page is answered with the value, or with all ones where
the page's lock excludes the level, and the value completes a host's read; the address of a write is held for its data, data
of a write that is refused is acknowledged so without moving a feed gate or the rails, a write of FD_INS_DELAY at PRIV 0 takes
effect and is acknowledged, and the acknowledgement ends the wait; a drone count is taken over; the first half of a message is
held and the second reaches the Bell with the shelf time of its receipt. The feed die sends its drone count when its count is
a multiple of 1,024, and what it holds as two frames each. (03_staged_start.md) -/
def Obligations.LinkFrames : Prop :=
  ∀ s : State, idlUp s = true →
    (s.idl.toDrive.discarding = false →
      (∀ q w rest, s.idl.toDrive.wire = (q, .push0 w) :: rest → Yields .idlPush0 s fun t =>
        t.idl.held0 = some w ∧ t.idl.toDrive.wire = rest ∧ t.idl.push0 = s.idl.push0) ∧
      (∀ q w rest, s.idl.toDrive.wire = (q, .push1 w) :: rest →
        (∀ w0, s.idl.held0 = some w0 → Yields .idlPush1 s fun t =>
          t.idl.push0 = w0 ∧ t.idl.push1 = w ∧ t.idl.pushOk = true ∧ t.idl.toDrive.wire = rest) ∧
        (s.idl.held0 = none → Yields .idlPush1 s fun t => t.idl.push0 = s.idl.push0 ∧ t.idl.push1 = s.idl.push1)) ∧
      (∀ q v rest w ws lat, s.idl.toDrive.wire = (q, .rdData v) :: rest → s.idl.rdWait = w :: ws → w.tag = none → w.fn ≠ 3 →
        Yields (.idlRdData lat) s fun t => t.host.rdata = v ∧ t.host.poisoned = false ∧ t.idl.rdWait = ws ∧
          regFld t (ro pgIDL 0x50) 0 16 = lat.toNat) ∧
      (∀ q o r rest w ws, s.idl.toDrive.wire = (q, .wrAck o r) :: rest → s.idl.wrWait = w :: ws → w.tag = none → s.idl.heldAcc = [] →
        Yields .idlWrAck s fun t => t.idl.wrWait = ws ∧ t.idl.toDrive.wire = rest ∧
          regFld t (ro pgPROT 0x4C) 0 16 = (regFld s (ro pgPROT 0x4C) 0 16 + b2n r) % 65536) ∧
      (∀ q c rest, s.idl.toDrive.wire = (q, .drone c) :: rest → Yields .idlDrone s fun t =>
        t.idl.droneAt = some t.droneD ∧ t.idl.toDrive.wire = rest) ∧
      (∀ q src kind inj rest, s.idl.toDrive.wire = (q, .bell0 src kind inj) :: rest → Yields .idlBell0 s fun t =>
        t.idl.bell0 = some (src, kind, inj)) ∧
      (∀ q d rest src kind inj, s.idl.toDrive.wire = (q, .bell1 d) :: rest → s.idl.bell0 = some (src, kind, inj) →
        s.bell.inq.length < 64 → Yields .idlBell1 s fun t => t.idl.bell0 = none ∧
          t.bell.inq = s.bell.inq ++
            [{ source := src, kind := kind, detail := d, inj := inj, stamp := some (shelfNow s) }])) ∧
    (s.idl.toFeed.discarding = false →
      (∀ q o p rest, s.idl.toFeed.wire = (q, .rdReq o p) :: rest → o.toNat < 0x7000 →
        (feedLocked s (0x10_0000 + o.toNat) p.toNat false = true → Yields .idlRdReq s fun t =>
          t.idl.toDrive.wire = s.idl.toDrive.wire ++ [(s.idl.toDrive.nextSeq, .rdData 0xFFFF_FFFF)]) ∧
        (feedLocked s (0x10_0000 + o.toNat) p.toNat false = false → Yields .idlRdReq s fun t =>
          t.idl.toDrive.wire = s.idl.toDrive.wire ++ [(s.idl.toDrive.nextSeq, .rdData (feedRead s (0x10_0000 + o.toNat)).1)])) ∧
      (∀ q o p rest, s.idl.toFeed.wire = (q, .wrAddr o p) :: rest → Yields .idlWrAddr s fun t =>
        t.idl.wrHeld = some (o, p) ∧ t.idl.toFeed.wire = rest) ∧
      (∀ q v rest o p, s.idl.toFeed.wire = (q, .wrData v) :: rest → s.idl.wrHeld = some (o, p) →
        (feedRefuses s (0x10_0000 + o.toNat) p.toNat = true → Yields .idlWrData s fun t => SameFeedGates s t ∧
          t.idl.toDrive.wire = s.idl.toDrive.wire ++ [(s.idl.toDrive.nextSeq, .wrAck o true)]) ∧
        (p = 0 → o = 0x1048 → fld v 0 11 ≤ 1600 → Yields .idlWrData s fun t =>
          regFld t (ro 0x101 0x48) 0 11 = fld v 0 11 ∧ t.idl.toDrive.wire.getLast?.map (·.2) = some (.wrAck o false)))) ∧
    (s.droneF % 1024 = 0 → Yields .idlDroneSend s fun t =>
      t.idl.toDrive.wire = s.idl.toDrive.wire ++ [(s.idl.toDrive.nextSeq, .drone (BitVec.ofNat 32 s.droneF))]) ∧
    Yields .idlHeldBellSend s (fun t => t.fd.held = [] ∧
      t.idl.toDrive.wire.length = s.idl.toDrive.wire.length + 2 * s.fd.held.length)

/-- The limiter, compliance, fuses and checks of one channel. Each event of one channel acts on that channel alone: on a clear
channel of a powered tile the limiter engages, and it releases; a limiting clear channel that is short fuses to 0 A with KIND
1 and CONSEC one higher up to 3, locked from FUSE_LOCK on; with CO_EN compliance is detected, and with COMPL_ACT FUSE and no
tongue it fuses the channel to 0 A with KIND 2; its end, CONSEC's return to 0, P_STALE, and I_OK 0 outside a limit,
compliance, a range change and a tongue. A short of a channel that is not clear or not limiting, and exceeded compliance under
a tongue or without CO_EN, fuse nothing. (04_drive_channels.md) -/
def Obligations.ChannelSupervision : Prop :=
  ∀ (s : State) (ch : Chan), let c := chan s ch.val
    (tileOn s (ch.val / 1024) = true → c.fuse = .clear → c.limiting = false → Yields (.limiterEngage ch) s fun t =>
      chan t ch.val = { c with limiting := true, shortFlag := true } ∧ OtherChans ch.val s t) ∧
    Yields (.limiterRelease ch) s (fun t => chan t ch.val = { c with limiting := false } ∧ OtherChans ch.val s t) ∧
    (c.fuse = .clear → c.limiting = true → Yields (.shortFuse ch) s fun t => output t ch.val = (0, c.range) ∧
      (chan t ch.val).kind = 1 ∧ (chan t ch.val).consec.toNat = min (c.consec.toNat + 1) 3 ∧
      (chan t ch.val).fuse = (if regFld s (ro (pgTILE (ch.val / 1024)) 0x40) 0 2 ≤ min (c.consec.toNat + 1) 3 then .locked else .fused) ∧
      (chan t ch.val).tongue = none ∧ OtherChans ch.val s t) ∧
    ((c.fuse ≠ .clear ∨ c.limiting = false) → Yields (.shortFuse ch) s fun t => t = s) ∧
    (tileOn s (ch.val / 1024) = true → c.cfg.getLsbD 0 = true → c.fuse = .clear → c.complLive = false →
      Yields (.complDetect ch) s fun t => chan t ch.val = { c with complLive := true, complFlag := true } ∧ OtherChans ch.val s t) ∧
    (c.fuse = .clear → c.complLive = true → c.cfg.getLsbD 0 = true → c.cfg.getLsbD 2 = true → c.tongue = none → Yields (.complFuse ch) s fun t =>
      output t ch.val = (0, c.range) ∧ (chan t ch.val).kind = 2 ∧ (chan t ch.val).fuse ≠ .clear ∧ OtherChans ch.val s t) ∧
    (c.tongue ≠ none ∨ c.cfg.getLsbD 0 = false → Yields (.complFuse ch) s fun t => t = s) ∧
    Yields (.complianceCleared ch) s (fun t => chan t ch.val = { c with complLive := false } ∧ OtherChans ch.val s t) ∧
    (c.fuse = .clear → Yields (.chConsecReset ch) s fun t => chan t ch.val = { c with consec := 0 } ∧ OtherChans ch.val s t) ∧
    Yields (.pStale ch) s (fun t => chan t ch.val = { c with pStale := true } ∧ OtherChans ch.val s t) ∧
    (tileOn s (ch.val / 1024) = true → c.fuse = .clear → c.limiting = false → c.complLive = false → changing c s.now = false →
      c.tongue = none → Yields (.iCheck ch) s fun t => chan t ch.val = { c with iOk := false } ∧ OtherChans ch.val s t)

/-- TL_CH_CMD, TL_CH_CFG and TL_CH_PWR. On the channel that TL_CH_IDX selects: RELEASE of a fused and UNLOCK of a locked channel
that releaseOk admits bring it to its park code and range, clear, UNLOCK with CONSEC 0; OFF takes a clear or fused channel to
0 A in 3 OFF, ON brings it to its park code and range, CLR_FLAGS clears what is not live; RELEASE with ALL releases every
fused channel of the tile that releaseOk admits. RELEASE of a fused channel moves nothing while the sticky bit of its kind is
set. TL_CH_CFG sets CO_EN and COMPL_ACT, and SHORT_ACT at P0 only, and CO_EN 0 ends the detection of compliance; TL_CH_PWR
reads voltage and power. (04_drive_channels.md, 18_register_pages.md) -/
def Obligations.ChannelCommands : Prop :=
  ∀ (s : State) (fn : Fn) (k : Tile), let ch := selected s k.val
    (mayWrite s fn (pgTILE k.val) 0x5C 1 = true →
      ((chan s ch).fuse = .fused → releaseOk s ch = true → Yields (.tlChRelease fn k false) s fun t =>
        output t ch = (parkCode (chan s ch).park, parkRange (chan s ch).park) ∧ (chan t ch).fuse = .clear ∧
        (chan t ch).atPark = true ∧ OtherChans ch s t) ∧
      ((chan s ch).fuse = .fused → sticky s (pgTILE k.val) (kindSource (chan s ch).kind.toNat) = true →
        Yields (.tlChRelease fn k false) s fun t => t.chans = s.chans) ∧
      Yields (.tlChRelease fn k true) s (fun t => ∀ c, c / 1024 = k.val → (chan s c).fuse = .fused → releaseOk s c = true →
        (chan t c).fuse = .clear ∧ output t c = (parkCode (chan s c).park, parkRange (chan s c).park)) ∧
      ((chan s ch).fuse = .clear ∨ (chan s ch).fuse = .fused → Yields (.tlChOff fn k false) s fun t =>
        output t ch = (0, (chan s ch).range) ∧ (chan t ch).fuse = .off ∧ OtherChans ch s t) ∧
      ((chan s ch).fuse = .off → Yields (.tlChOn fn k false) s fun t =>
        output t ch = (parkCode (chan s ch).park, parkRange (chan s ch).park) ∧ (chan t ch).fuse = .clear ∧ OtherChans ch s t) ∧
      Yields (.tlChClrFlags fn k false) s (fun t => chan t ch = clearFlags (chan s ch) ∧ OtherChans ch s t)) ∧
    (mayWrite s fn (pgTILE k.val) 0x5C 0 = true → (chan s ch).fuse = .locked → releaseOk s ch = true →
      Yields (.tlChUnlock fn k false) s fun t => (chan t ch).fuse = .clear ∧ (chan t ch).consec = 0 ∧
        output t ch = (parkCode (chan s ch).park, parkRange (chan s ch).park) ∧ OtherChans ch s t) ∧
    (∀ v, mayWrite s fn (pgTILE k.val) 0x4C 1 = true → Yields (.tlChCfgWrite fn k v) s fun t =>
      (chan t ch).cfg.getLsbD 0 = bit v 0 ∧ (chan t ch).cfg.getLsbD 2 = bit v 2 ∧
      (chan t ch).cfg.getLsbD 1 = (if fn = .pf0 then bit v 1 else (chan s ch).cfg.getLsbD 1) ∧
      (bit v 0 = false → (chan t ch).complLive = false) ∧ SameOutputs s t ∧
      OtherChans ch s t) ∧
    (mayRead s fn (pgTILE k.val) 0x58 = true → Yields (.tlChPwrRead fn k) s fun t =>
      fld t.host.rdata 0 16 = (chan s ch).vHtr.toNat ∧ fld t.host.rdata 16 16 = (chan s ch).pUw.toNat ∧ t.chans = s.chans)

/-- The two valves of a tile. In a powered tile each valve event in the state that its row names, and each command whose
conditions hold, brings that valve into the stated state; the other valve of the tile, every other tile and every channel are
as before. RELEASE below 4.5 V and OFF while the other valve carries nothing move no valve. TILE_DARK of a powered, not yet
dark tile that neither valve feeds, outside its exempt interval, makes it dark and brings its clear channels to 0 A with
AT_PARK. (04_drive_channels.md) -/
def Obligations.Valves : Prop :=
  ∀ (s : State) (k : Tile) (v : Valve),
    let x := tile s k.val
    let goes (st : ValveState) (t : State) : Prop := valve (tile t k.val) v = st ∧
      valve (tile t k.val) (otherValve v) = valve x (otherValve v) ∧ (∀ j, j ≠ k.val → tile t j = tile s j) ∧ t.chans = s.chans
    (tileOn s k.val = true →
      (valve x v = .blocked → Yields (.valveRejoin k v) s (goes (closeState s.now x))) ∧
      (∀ i, valve x v = .conduct → Yields (.valveLimitEnter k v i) s (goes .limit)) ∧
      (∀ i, valve x v = .limit → Yields (.valveLimitExit k v i) s (goes .conduct)) ∧
      (∀ i, valve x v = .limit → Yields (.valveLimitExpired k v i) s (goes .tripped)) ∧
      (∀ i, (valve x v).feeds = true → Yields (.valveFastTrip k v i) s (goes .tripped)) ∧
      (∀ mv, (valve x v).carries = true → Yields (.valveReverseBlock k v mv) s (goes .blocked)) ∧
      (valve x v = .softStart → Yields (.softStartDone k v) s (goes .conduct)) ∧
      (∀ i, valve x v = .softStart → Yields (.softStartTimeout k v i) s (goes .tripped)) ∧
      (exemptNow s.now x = false → x.dark = false → x.va.feeds = false → x.vb.feeds = false → Yields (.tileDark k) s fun t =>
        (tile t k.val).dark = true ∧ (∀ ch, ch / 1024 = k.val → (chan s ch).fuse = .clear →
          output t ch = (0, (chan s ch).range) ∧ (chan t ch).atPark = true) ∧
        (∀ ch, ch / 1024 ≠ k.val → chan t ch = chan s ch))) ∧
    (∀ fn rail, mayWrite s fn (pgTILE k.val) 0x68 1 = true →
      (valve x v = .tripped → 450 ≤ rail.toNat → sticky s (pgTILE k.val) (match v with | .va => 3 | .vb => 4) = false →
        Yields (.tlValveRelease fn k v rail) s (goes (closeState s.now x))) ∧
      (rail.toNat < 450 → Yields (.tlValveRelease fn k v rail) s fun t => t.tiles = s.tiles ∧ t.chans = s.chans) ∧
      (valve x v = .heldOff → Yields (.tlValveOn fn k v) s (goes (closeState s.now x)))) ∧
    (∀ fn, mayWrite s fn (pgTILE k.val) 0x68 0 = true →
      (valve x v ≠ .heldOff → (valve x (otherValve v)).carries = true → Yields (.tlValveOff fn k v) s (goes .heldOff)) ∧
      ((valve x (otherValve v)).carries = false → Yields (.tlValveOff fn k v) s fun t => t.tiles = s.tiles))

/-- References of reeds, ISUM and the block reset of a tile. In a powered tile a failed reference of a reed on its own starts the
transfer to the backup, and with the backup failed any reed's failure fuses its clear channels to 0 A with KIND 3; a transfer
that is done puts the reed on the backup; the backup fails and recovers; RETURN of a reed on the backup, in window, without
REF_TRANSFER's sticky bit and without a tongue, puts it back, and out of window leaves the reeds as they were; sums that
differ by more than the limit of R155, with no tongue and both valves conducting, make a mismatch live; in a machine of
canonical form a block reset of a TILE page ends every tongue of the tile on its final code, abandons waiting entries and
leaves every other output. (04_drive_channels.md, 18_register_pages.md) -/
def Obligations.ReferencesAndTileChecks : Prop :=
  ∀ s : State,
    (∀ r : Reed, tileOn s (r.val / 32) = true →
      ((tile s (r.val / 32)).backupFailed = false → (reed s r.val).onBackup = false → (reed s r.val).transfer = false →
        Yields (.reedRefFail r) s fun t =>
        (reed t r.val).refBad = true ∧ (reed t r.val).transfer = true ∧ t.chans = s.chans) ∧
      ((tile s (r.val / 32)).backupFailed = true → Yields (.reedRefFail r) s fun t =>
        (∀ ch, ch / 32 = r.val → (chan s ch).fuse = .clear →
          output t ch = (0, (chan s ch).range) ∧ (chan t ch).fuse = .fused ∧ (chan t ch).kind = 3) ∧
        (∀ ch, ch / 32 ≠ r.val → chan t ch = chan s ch))) ∧
    (∀ r : Reed, (reed s r.val).transfer = true → Yields (.refTransferDone r) s fun t =>
      reed t r.val = { reed s r.val with transfer := false, onBackup := true } ∧ t.chans = s.chans) ∧
    (∀ k : Tile, (∀ d, tileOn s k.val = true → Yields (.backupFail k d) s fun t => (tile t k.val).backupFailed = true ∧ t.chans = s.chans) ∧
      Yields (.backupRecover k) s (fun t => tile t k.val = { tile s k.val with backupFailed := false } ∧ t.chans = s.chans) ∧
      (∀ d, tileOn s k.val = true → tilePlays s k.val = false → (tile s k.val).va = .conduct → (tile s k.val).vb = .conduct →
        sumsDiffer (isum s k.val) d.toInt = true →
        Yields (.isumMismatch k d) s fun t => mismatchLive t k.val = true ∧ t.chans = s.chans)) ∧
    (∀ fn (k : Tile) (q : Fin 32), mayWrite s fn (pgTILE k.val) 0x78 1 = true →
      (reed s (k.val * 32 + q.val)).onBackup = true → sticky s (pgTILE k.val) 8 = false → reedPlays s (k.val * 32 + q.val) = false →
      Yields (.tlRefReturn fn k q true) s (fun t => (reed t (k.val * 32 + q.val)).onBackup = false ∧
        (reed t (k.val * 32 + q.val)).refBad = false ∧ t.chans = s.chans) ∧
      Yields (.tlRefReturn fn k q false) s (fun t => t.reeds = s.reeds ∧ t.chans = s.chans)) ∧
    (∀ fn (k : Tile), CanonInv s → mayWrite s fn (pgTILE k.val) 0x0C 0 = true → Yields (.tileBlkReset fn k) s fun t =>
      (∀ ch g, ch / 1024 = k.val → (chan s ch).tongue = some g → (chan t ch).code = g.final ∧ (chan t ch).tongue = none) ∧
      (∀ ch, ch / 1024 = k.val → (chan t ch).waiting = none ∧ ((chan s ch).tongue = none → output t ch = output s ch)) ∧
      (∀ ch, ch / 1024 ≠ k.val → chan t ch = chan s ch))

/-- OPEN, STAGE, ARM, DISARM and RELEASE of a plan slot. By a function that may write PL_CMD for the slot, in RUN: OPEN of an
empty or rejected slot starts staging, and of any other is result 1; STAGE in 1 STAGING or 6 REJECTED is rejected with reason
1 beyond 32,768 deltas and 7 before stage 4, and at stage 4, with deltas that all resolve, no LOAD running and no word of
failing parity, starts the expansion; ARM of an admitted slot without work and with room starts the copy with READY 0, and
changes no slot while PARK_HOLD stands; DISARM brings an armed slot back to 3 ADMITTED and ends its request, or is result 1
when a commit source reaches the ready slot in the same cycle; RELEASE empties any slot that is neither empty nor armed.
Outside RUN the command waits and no slot changes. No command of the five moves an output. (05_setpoint_table.md,
06_commit_breath.md) -/
def Obligations.PlanCommands : Prop :=
  ∀ (s : State) (fn : Fn) (k : Slot), mayWriteSlot s fn pgPLAN 0x40 1 k.val = true → let x := slot s k.val
    (inRun s = false →
      Yields (.plOpen fn k) s (fun t => t.fabWait = s.fabWait ++ [.plan 1 k.val 0 none] ∧ t.slots = s.slots ∧ SameOutputs s t) ∧
      (∀ n, Yields (.plStage fn k n) s fun t =>
        t.fabWait = s.fabWait ++ [.plan 2 k.val n.toNat none] ∧ t.slots = s.slots ∧ SameOutputs s t) ∧
      Yields (.plArm fn k) s (fun t => t.fabWait = s.fabWait ++ [.plan 3 k.val 0 none] ∧ t.slots = s.slots ∧ SameOutputs s t) ∧
      Yields (.plDisarm fn k) s (fun t => t.fabWait = s.fabWait ++ [.plan 4 k.val 0 none] ∧ t.slots = s.slots ∧ SameOutputs s t) ∧
      Yields (.plRelease fn k) s fun t =>
        t.fabWait = s.fabWait ++ [.plan 5 k.val 0 none] ∧ t.slots = s.slots ∧ SameOutputs s t) ∧
    (inRun s = true →
    (x.state = .empty ∨ x.state = .rejected → Yields (.plOpen fn k) s fun t =>
      (slot t k.val).state = .staging ∧ (slot t k.val).deltas = 0 ∧ (slot t k.val).reason = 0 ∧
      fld (getReg t (ro pgPLAN 0x44)) 8 3 = 0 ∧ SameOutputs s t) ∧
    (x.state ≠ .empty → x.state ≠ .rejected → Yields (.plOpen fn k) s fun t =>
      t.slots = s.slots ∧ fld (getReg t (ro pgPLAN 0x44)) 8 3 = 1 ∧ SameOutputs s t) ∧
    (∀ n : BitVec 16, (x.state = .staging ∨ x.state = .rejected) → x.work = .none →
      (32768 < n.toNat → Yields (.plStage fn k n) s fun t =>
        (slot t k.val).state = .rejected ∧ (slot t k.val).reason = 1 ∧ SameOutputs s t) ∧
      (n.toNat ≤ 32768 → s.boot.stage.val < 4 → Yields (.plStage fn k n) s fun t =>
        (slot t k.val).state = .rejected ∧ (slot t k.val).reason = 7 ∧ SameOutputs s t) ∧
      (n.toNat ≤ 32768 → s.boot.stage.val = 4 → (tab s kST).running ≠ 1 → s.bore.badPar = [] →
        (resolve s k.val n.toNat).fail = none → Yields (.plStage fn k n) s fun t =>
          (slot t k.val).state = .staging ∧ (slot t k.val).work = .expand ∧ (slot t k.val).deltas = n ∧ SameOutputs s t)) ∧
    (x.work = .none → x.state = .admitted → s.bell.parkHold = false → hasRoom s k.val = true → Yields (.plArm fn k) s fun t =>
      (slot t k.val).state = .armed ∧ (slot t k.val).ready = false ∧ (slot t k.val).work = .copy ∧
      (slot t k.val).entries = x.entries ∧ SameOutputs s t) ∧
    (x.work = .none → s.bell.parkHold = true → Yields (.plArm fn k) s fun t => t.slots = s.slots ∧ SameOutputs s t) ∧
    (x.state = .armed → (x.ready = false ∨ committing s k.val = false) → Yields (.plDisarm fn k) s fun t =>
      (slot t k.val).state = .admitted ∧ (slot t k.val).ready = false ∧ req t k.val = none ∧ SameOutputs s t) ∧
    (x.state = .armed → x.ready = true → committing s k.val = true → Yields (.plDisarm fn k) s fun t =>
      t.slots = s.slots ∧ t.reqs = s.reqs ∧ fld (getReg t (ro pgPLAN 0x44)) 8 3 = 1 ∧ SameOutputs s t) ∧
    (x.state ≠ .empty → x.state ≠ .armed → Yields (.plRelease fn k) s fun t =>
      (slot t k.val).state = .empty ∧ (slot t k.val).entries = [] ∧ req t k.val = none ∧ SameOutputs s t))

/-- Expansion, admission, copy and parity of a plan. With no failing parity in the Bore and the clocks in RUN: the expansion of a
slot ends with exactly the resolved entries when XTALK is not in force, or rejects it with the reason and the delta that
failed; the admission of an expanded slot ends in 3 ADMITTED, with the groups and the spacing of the trial that passes, when
one passes every check, and otherwise in 6 REJECTED with the reason of the check; waiting admissions resume; the copy sets
READY; a failed word of an armed plan, copied again from its delta, is counted at its tile and leaves a slot of fewer than
2,048 entries as it was. None of them moves an output. (05_setpoint_table.md, 06_commit_breath.md, 07_tongue_shapes.md,
11_thermal_model.md) -/
def Obligations.StageWork : Prop :=
  ∀ (s : State) (k : Slot), s.bore.badPar = [] → inRun s = true → let x := slot s k.val
    (x.state = .staging → x.work = .expand → featOn s 1 = false → (resolve s k.val x.deltas.toNat).fail = none →
      Yields (.expansionDone k) s fun t => (slot t k.val).state = .expanded ∧ (slot t k.val).work = .admission ∧
        (slot t k.val).entries = (resolve s k.val x.deltas.toNat).entries ∧ (slot t k.val).xt = false ∧ SameOutputs s t) ∧
    (∀ reason i ch, x.state = .staging → x.work = .expand → (resolve s k.val x.deltas.toNat).fail = some (reason, i, ch) →
      Yields (.expansionDone k) s fun t => (slot t k.val).state = .rejected ∧ (slot t k.val).reason = BitVec.ofNat 5 reason ∧
        (slot t k.val).detailIdx = BitVec.ofNat 16 i ∧ (slot t k.val).detailCh = BitVec.ofNat 15 ch ∧ SameOutputs s t) ∧
    (x.state = .expanded → x.work = .admission → x.waitAdmit = false → admitBlocked s = false → banksReady s k.val = true →
      ((admitPlan s x.entries).1.reason = 0 → Yields (.admissionDone k) s fun t => (slot t k.val).state = .admitted ∧
        (slot t k.val).work = .none ∧ (slot t k.val).spacing = BitVec.ofNat 12 (admitPlan s x.entries).1.sp ∧
        (x.entries ≠ [] → (slot t k.val).groups = BitVec.ofNat 5 (admitPlan s x.entries).1.g) ∧ SameOutputs s t) ∧
      ((admitPlan s x.entries).1.reason ≠ 0 → Yields (.admissionDone k) s fun t => (slot t k.val).state = .rejected ∧
        (slot t k.val).reason = BitVec.ofNat 5 (admitPlan s x.entries).1.reason ∧ SameOutputs s t)) ∧
    (admitBlocked s = false → Yields .admissionResume s fun t => ∀ j : Slot, (slot t j.val).waitAdmit = false ∧
      (slot t j.val).state = (slot s j.val).state ∧ SameOutputs s t) ∧
    (x.state = .armed → x.work = .copy → banksReady s k.val = true → Yields (.armCopyVerified k) s fun t =>
      (slot t k.val).ready = true ∧ (slot t k.val).state = .armed ∧ (slot t k.val).work = .none ∧
      (slot t k.val).entries.length = x.entries.length ∧ SameOutputs s t) ∧
    (∀ ch : Chan, x.state = .armed → (x.work = .copy ∨ x.work = .redo) → (∃ e ∈ x.entries, e.ch = ch.val) →
      Yields (.planParityRepair k ch) s fun t => (x.entries.length < 2048 → slot t k.val = x) ∧ SameOutputs s t ∧
        regFld t (ro (pgTILE (ch.val / 1024)) 0x404) 16 16 = (regFld s (ro (pgTILE (ch.val / 1024)) 0x404) 16 16 + 1) % 65536)

/-- Requests of COMMIT_NOW, SYNC_IN and schedules, and their timeouts. At stage 4 below L3 a request of COMMIT_NOW, of an edge on
SYNC_IN or of a schedule entry, for an armed slot without a pending one, becomes its pending request, with its source, CUT and
path latency; COMMIT_NOW of a slot that is not armed completes with result 2. An edge less than 2 cc after the last that
counted makes no request. With SCHED in force a schedule entry is armed when its time is at least 3 cc ahead and ends with
result 8 otherwise, an armed one is cancelled with result 10, the time of one that is not armed is written, and an armed one
whose time is at most 3 cc ahead fires as one request; an earlier SCHEDULE_FIRE does nothing. A request that has waited
WAIT_US with READY 0 ends with result 7, none earlier. These move no output. (06_commit_breath.md, 17_shelf_link.md) -/
def Obligations.CommitRequests : Prop :=
  ∀ (s : State) (k : Slot),
    let free := 4 = s.boot.stage.val ∧ level s < 3 ∧ (slot s k.val).state = .armed ∧ req s k.val = none
    let pends (src : BitVec 2) (cut : Bool) (t : State) : Prop :=
      (∃ r, req t k.val = some r ∧ r.src = src ∧ r.cut = cut ∧ r.arrived = s.now ∧
        r.lat = pathLat src.toNat + if s.power.fast = .warm then 16 else 0) ∧ t.slots = s.slots ∧ SameOutputs s t
    let ends (result : Nat) (t : State) : Prop := regFld t (ro pgCOMMIT (0x180 + 4 * k.val)) 0 5 = result ∧ SameOutputs s t
    (∀ fn cut, mayWriteSlot s fn pgCOMMIT 0x44 1 k.val = true →
      (free → Yields (.commitNow fn k cut) s (pends 2 cut)) ∧
      (s.boot.stage.val = 4 → level s < 3 → (slot s k.val).state ≠ .armed → Yields (.commitNow fn k cut) s (ends 2))) ∧
    (∀ falling, let c := getReg s (ro pgCOMMIT 0x40)
      domOn s 3 = true → bit c 0 = true → bit c 1 = falling → fld c 4 4 = k.val → free →
      (∀ e, s.host.syncEdge = some e → e + 2 ≤ s.now) →
      Yields (.syncInEdge falling) s fun t => pends 0 (bit c 2) t ∧ t.host.syncIn = !falling) ∧
    (∀ falling e, s.host.syncEdge = some e → s.now < e + 2 → Yields (.syncInEdge falling) s fun t =>
      t.reqs = s.reqs ∧ t.slots = s.slots ∧ SameOutputs s t) ∧
    (schedEn s k.val = true → schedTime s k.val ≤ shelfNow s + 3 → free → Yields (.scheduleFire k) s fun t =>
      pends 1 (schedCut s k.val) t ∧ schedEn t k.val = false) ∧
    (shelfNow s + 3 < schedTime s k.val → Yields (.scheduleFire k) s fun t => t = s) ∧
    (∀ fn, mayWrite s fn pgCOMMIT 0x64 1 = true →
      (schedEn s k.val = false → featOn s 2 = true → shelfNow s + 3 ≤ schedTime s k.val → Yields (.cmSchedArm fn k) s fun t =>
        schedEn t k.val = true ∧ SameOutputs s t) ∧
      (schedEn s k.val = false → featOn s 2 = true → schedTime s k.val < shelfNow s + 3 → Yields (.cmSchedArm fn k) s fun t =>
        schedEn t k.val = false ∧ ends 8 t) ∧
      (schedEn s k.val = true → Yields (.cmSchedCancel fn k) s fun t => schedEn t k.val = false ∧ ends 10 t)) ∧
    (∀ fn hi v, mayWrite s fn pgCOMMIT (0x100 + 8 * k.val + if hi then 4 else 0) 1 = true → schedEn s k.val = false →
      Yields (.cmSchedTWrite fn k hi v) s fun t => getReg t (ro pgCOMMIT (0x100 + 8 * k.val + if hi then 4 else 0)) = v ∧ SameOutputs s t) ∧
    (∀ r, req s k.val = some r → let wait := regFld s (ro pgCOMMIT 0x48) 0 7 * 1200
      (wait ≤ r.waited → Yields (.commitTimeout k) s fun t => req t k.val = none ∧ ends 7 t) ∧
      (r.waited < wait → Yields (.commitTimeout k) s fun t => t = s))

/-- The strobe of a request that goes in this cycle, and writes of a BREATH register. A request that is due, meets every condition
of a strobe, is not outranked, and finds no strobe issued in its cycle makes the slot 5 COMMITTED with READY 0 and completes
with result 0; CM_COUNT counts and every tile of the plan notes the strobe; every clear channel that the plan names once, and
that nothing has written in this cycle, leaves AT_PARK and, at offset 0, starts its entry or, at a later offset, waits with
it; without CUT every channel that the plan does not name, and whose code no loop wrote in this cycle, is as it was. Any other
request strobes nothing. A P0 write of a BREATH register whose fields are all in range, none written 0, is what the register's
writable bits then hold; every armed slot loses READY and owes its admission and copy again, every admitted slot its
admission. (06_commit_breath.md, 07_tongue_shapes.md, 18_register_pages.md) -/
def Obligations.StrobesAndBreath : Prop :=
  (∀ (s : State) (k : Slot) (r : Req), req s k.val = some r →
    (goesNow s k.val r = true → Yields (.strobeIssue k) s fun t =>
      (slot t k.val).state = .committed ∧ (slot t k.val).ready = false ∧ req t k.val = none ∧ t.strobeAt = some s.now ∧
      regFld t (ro pgCOMMIT (0x180 + 4 * k.val)) 0 5 = 0 ∧
      regFld t (ro pgCOMMIT 0x50) 0 32 = (regFld s (ro pgCOMMIT 0x50) 0 32 + 1) % 2 ^ 32 ∧
      (∀ j, j ∈ slotTiles (slot s k.val) → (tile t j).lastStrobe = some s.now) ∧
      (∀ e ∈ (slot s k.val).entries, ((slot s k.val).entries.filter (fun e' => e'.ch == e.ch)).length = 1 →
        (chan s e.ch).fuse = .clear → (chan s e.ch).wrote ≠ some s.now →
        (chan t e.ch).atPark = false ∧
        (offsetOf (slot s k.val) (e.ch / 32) = 0 → (chan t e.ch).waiting = none ∧ (chan t e.ch).range = e.range ∧
          ∃ g, (chan t e.ch).tongue = some g ∧ g.slot = k.val ∧ g.final = e.code) ∧
        (offsetOf (slot s k.val) (e.ch / 32) ≠ 0 → (chan t e.ch).waiting = some (k.val, e))) ∧
      (r.cut = false → ∀ ch, (∀ e ∈ (slot s k.val).entries, e.ch ≠ ch) → (chan s ch).unlooped = none →
        chan t ch = chan s ch)) ∧
    (goesNow s k.val r = false → Yields (.strobeIssue k) s fun t => t = s)) ∧
  (∀ (s : State) (fn : Fn) (off : BitVec 12) (v : Word) (r : RegRow), let o := off.toNat / 4 * 4
    mayWrite s fn pgBREATH o 0 = true → 0x40 ≤ o → regRow (ro pgBREATH o) = some r → r.acc = .rw →
    (∀ f ∈ r.rules, f.min ≤ fld v f.lo f.n ∧ fld v f.lo f.n ≤ f.max ∧ fld v f.lo f.n ≠ 0) →
    Yields (.breathWrite fn off v) s fun t => getReg t (ro pgBREATH o) &&& r.mask = v &&& r.mask ∧ SameOutputs s t ∧
      (∀ k : Slot, (slot s k.val).state = .armed → (slot t k.val).ready = false ∧ (slot t k.val).work = .redo) ∧
      (∀ k : Slot, (slot s k.val).state = .admitted → (slot t k.val).work = .admission))

/-- The course of a tongue. In a machine of canonical form, at its breath offset a waiting entry of a clear channel of the reed
starts, unless a park or dark-tile write of this cycle holds the channel: an entry without segments or with a change of range
writes the final code, any other the code of segment 0; a held channel keeps its output and the entry is dropped; the channels
of other reeds are as before. The next segment of a tongue writes its code by R237 and the end of a tongue the final code;
every other channel is as before. (07_tongue_shapes.md) -/
def Obligations.TongueEvents : Prop :=
  ∀ s : State,
    (∀ (r : Reed) (ch : Chan) k e, CanonInv s → ch.val / 32 = r.val → (chan s ch.val).waiting = some (k, e) →
      (chan s ch.val).fuse = .clear → outranks s (chan s ch.val) 2 = false → Yields (.breathOffsetReached r) s fun t =>
        (chan t ch.val).waiting = none ∧ (chan t ch.val).range = e.range ∧
        (∃ g, (chan t ch.val).tongue = some g ∧ g.slot = k ∧ g.final = e.code ∧ g.cOld = (chan s ch.val).code) ∧
        (e.segs = [] ∨ e.range ≠ (chan s ch.val).range → (chan t ch.val).code = e.code) ∧
        (∀ g gs, e.segs = g :: gs → e.range = (chan s ch.val).range →
          (chan t ch.val).code.toNat = segCode (chan s ch.val).code.toNat e.code.toNat g.amp) ∧
        (∀ c, c / 32 ≠ r.val → chan t c = chan s c)) ∧
    (∀ (r : Reed) (ch : Chan) k e, CanonInv s → ch.val / 32 = r.val → (chan s ch.val).waiting = some (k, e) →
      outranks s (chan s ch.val) 2 = true → Yields (.breathOffsetReached r) s fun t =>
        (chan t ch.val).waiting = none ∧ output t ch.val = output s ch.val) ∧
    (∀ (ch : Chan) g sg, (chan s ch.val).tongue = some g → g.segs[g.k + 1]? = some sg → Yields (.tongueSegmentNext ch) s fun t =>
      (chan t ch.val).code.toNat = segCode g.cOld.toNat g.final.toNat sg.amp ∧
      (∃ h, (chan t ch.val).tongue = some h ∧ h.k = g.k + 1 ∧ h.due = g.due + sg.dur) ∧ OtherChans ch.val s t) ∧
    (∀ (ch : Chan) g, (chan s ch.val).tongue = some g → Yields (.tongueEnd ch) s fun t =>
      (chan t ch.val).code = g.final ∧ (chan t ch.val).tongue = none ∧ OtherChans ch.val s t)

/-- LOAD and SAVE of the six table pages. A LOAD written while the page is not BUSY starts, with LAST_ERR 0 and DIRTY as it was;
one written while it is BUSY leaves the running command and ends in LAST_ERR 4 (STAB, TONGUE and THM: in RUN). A LOAD that the
medium serves and for which CAL holds an image ends with LOADED 1, DIRTY 0 and LAST_ERR 0 and moves no output, one without an
image with 3, a failed one with 2, and these two change no byte of the Bore. A SAVE written while the page is not BUSY, of a
table without words of failing parity, and for STAB and MEAS without entries that fail their check, takes the content and
clears DIRTY; it ends with an image one generation higher in CAL, or, when the program failed, with 2 and CAL as it was.
(05_setpoint_table.md, 07_tongue_shapes.md, 08_monitor_conversion.md, 09_accumulators_meters.md, 10_element_loops.md,
11_thermal_model.md, 14_flash_store.md) -/
def Obligations.TableLoadAndSave : Prop :=
  ∀ s : State,
    (∀ (fn : Fn) (c : Instr) (k : Nat),
      ((c = .stLoad fn ∧ k = kST) ∨ (c = .tgLoad fn ∧ k = kTG) ∨ (c = .msLoad fn ∧ k = kMS) ∨ (c = .clLoad fn ∧ k = kCL) ∨
        (c = .lpLoad fn ∧ k = kLP) ∨ (c = .thLoad fn ∧ k = kTH)) → mayWrite s fn (tabPage k) (tabCmdOff k) 1 = true →
      (k = kMS ∨ k = kCL ∨ k = kLP ∨ inRun s = true) →
      (tabBusy s k = false → Yields c s fun t => (tab t k).running = 1 ∧ (tab t k).lastErr = 0 ∧ (tab t k).dirty = (tab s k).dirty) ∧
      (tabBusy s k = true → Yields c s fun t => (tab t k).running = (tab s k).running ∧ (tab t k).lastErr = 4)) ∧
    (∀ (ok : Bool) (c : Instr) (k : Nat),
      ((c = .stLoadDone ok ∧ k = kST) ∨ (c = .tgLoadDone ok ∧ k = kTG) ∨ (c = .msLoadDone ok ∧ k = kMS) ∨
        (c = .clLoadDone ok ∧ k = kCL) ∨ (c = .lpLoadDone ok ∧ k = kLP) ∨ (c = .thLoadDone ok ∧ k = kTH)) →
      (tab s k).running = 1 →
      (ok = true → flashReads s = true → calHas s k = true → Yields c s fun t =>
        (tab t k).running = 0 ∧ (tab t k).loaded = true ∧ (tab t k).dirty = 0 ∧ (tab t k).lastErr = 0 ∧ SameOutputs s t) ∧
      (ok = true → flashReads s = true → calHas s k = false → Yields c s fun t =>
        (tab t k).running = 0 ∧ (tab t k).lastErr = 3 ∧ SameBore s t) ∧
      (ok = false → Yields c s fun t => (tab t k).running = 0 ∧ (tab t k).lastErr = 2 ∧ SameBore s t ∧ t.cal.coef = s.cal.coef)) ∧
    (∀ (fn : Fn) (c : Instr) (k : Nat),
      ((c = .tgSave fn ∧ k = kTG ∧ s.bore.badPar = []) ∨ (c = .clSave fn ∧ k = kCL) ∨ (c = .lpSave fn ∧ k = kLP) ∨ (c = .thSave fn ∧ k = kTH) ∨
        (c = .stSave fn ∧ k = kST ∧ s.bore.badPar = [] ∧ badSetpoints s = []) ∨
        (c = .msSave fn ∧ k = kMS ∧ s.bore.badPar = [] ∧ badSeqs s = [])) →
      mayWrite s fn (tabPage k) (tabCmdOff k) 1 = true → (k = kMS ∨ k = kCL ∨ k = kLP ∨ inRun s = true) →
      tabBusy s k = false → Yields c s fun t =>
        (tab t k).running = 2 ∧ (tab t k).dirty = 0 ∧ (tab t k).copy = tabContent s k ∧ (tab t k).lastErr = 0) ∧
    (∀ (ok : Bool) (c : Instr) (k : Nat),
      ((c = .stSaveDone ok ∧ k = kST) ∨ (c = .tgSaveDone ok ∧ k = kTG) ∨ (c = .msSaveDone ok ∧ k = kMS) ∨
        (c = .clSaveDone ok ∧ k = kCL) ∨ (c = .lpSaveDone ok ∧ k = kLP) ∨ (c = .thSaveDone ok ∧ k = kTH)) →
      (tab s k).running = 2 →
      (ok = true → domOn s 9 = true → s.flash.state = .ready → Yields c s fun t =>
        (tab t k).running = 0 ∧ (tab t k).lastErr = 0 ∧ wordAt t.flash.cal (calAt k) = 0x4C41_4358 ∧
        wordAt t.flash.cal (calAt k + 8) = imageGen s.flash.cal k + 1 ∧ SameBore s t) ∧
      (ok = false → Yields c s fun t => (tab t k).running = 0 ∧ (tab t k).lastErr = 2 ∧ t.flash.cal = s.flash.cal))

/-- What LOAD, CHECK and DEFAULT do to the content. With a CAL medium in canonical form that serves reads, a LOAD brings the
payload of the CAL image, byte by byte or word by word, into the table, and for a table in the Bore no other byte changes;
CHECK written while the page is not BUSY, with no word of failing parity in the Bore (STAB, TONGUE and THM: in RUN), counts
the entries that fail, ends at once and leaves the content; DEFAULT of MEAS stores the 48 built-in entries of every reed with
DIRTY 1, DEFAULT of CAL makes every coefficient but those of the channels the identity. (05_setpoint_table.md,
08_monitor_conversion.md, 09_accumulators_meters.md, 10_element_loops.md, 11_thermal_model.md, 14_flash_store.md) -/
def Obligations.TableContent : Prop :=
  ∀ s : State,
    (memWf s.flash.cal = true → flashReads s = true →
      (∀ (c : Instr) (k : Nat), ((c = .stLoadDone true ∧ k = kST) ∨ (c = .tgLoadDone true ∧ k = kTG) ∨ (c = .msLoadDone true ∧ k = kMS)) →
        (tab s k).running = 1 → calHas s k = true → Yields c s fun t =>
          (∀ i, i < payloadLen k → boreByte t (tabBase k + i) = tabGet (fun _ => (0 : Byte)) s.flash.cal (calAt k + 64 + i)) ∧
          (∀ a, a < tabBase k ∨ tabBase k + payloadLen k ≤ a → boreByte t a = boreByte s a)) ∧
      ((tab s kCL).running = 1 → calHas s kCL = true → Yields (.clLoadDone true) s fun t => SameBore s t ∧
        ∀ i, i < coefCount → coef t i = calWord s kCL (4 * i)) ∧
      ((tab s kLP).running = 1 → calHas s kLP = true → Yields (.lpLoadDone true) s fun t => SameBore s t ∧
        ∀ ch : Chan, (loopCh t ch.val).cfg = (calWord s kLP (4 * ch.val)).setWidth 13) ∧
      ((tab s kTH).running = 1 → calHas s kTH = true → Yields (.thLoadDone true) s fun t => SameBore s t ∧
        ∀ i, i < 2048 → tabGet kDefault t.thermal.kernels i = calWord s kTH (4 * i))) ∧
    (∀ fn,
      (mayWrite s fn pgSTAB 0x40 1 = true → inRun s = true → tabBusy s kST = false → s.bore.badPar = [] → Yields (.stCheck fn) s fun t =>
        getReg t (ro pgSTAB 0x48) = BitVec.ofNat 32 (badSetpoints s).length ∧ (tab t kST).running = 0 ∧ (tab t kST).lastErr = 0 ∧ SameBore s t) ∧
      (mayWrite s fn pgTONGUE 0x40 1 = true → inRun s = true → tabBusy s kTG = false → s.bore.badPar = [] → Yields (.tgCheck fn) s fun t =>
        fld (getReg t (ro pgTONGUE 0x48)) 0 15 = (oddShapes s).length ∧ (tab t kTG).running = 0 ∧ (tab t kTG).lastErr = 0 ∧ SameBore s t) ∧
      (mayWrite s fn pgMEAS 0x44 1 = true → tabBusy s kMS = false → s.bore.badPar = [] → Yields (.msCheck fn) s fun t =>
        getReg t (ro pgMEAS 0x4C) = BitVec.ofNat 32 (badSeqs s).length ∧ (tab t kMS).running = 0 ∧ (tab t kMS).lastErr = 0 ∧ SameBore s t) ∧
      (mayWrite s fn pgTHM 0x44 1 = true → inRun s = true → tabBusy s kTH = false → Yields (.thCheck fn) s fun t =>
        (tab t kTH).running = 0 ∧ (tab t kTH).lastErr = (if badKernelWords s = [] then 0 else 1) ∧ t.thermal.kernels = s.thermal.kernels) ∧
      (mayWrite s fn pgMEAS 0x44 1 = true → tabBusy s kMS = false → Yields (.msDefault fn) s fun t =>
        (∀ (r : Reed) (e : Fin 48), boreWord t (seqAddr r.val e.val) = builtinEntry e.val ∧ boreWord t (seqAddr r.val e.val + 4) = 0) ∧ (tab t kMS).dirty = 1 ∧ (tab t kMS).running = 0) ∧
      (mayWrite s fn pgCAL 0x48 1 = true → tabBusy s kCL = false → Yields (.clDefault fn) s fun t =>
        ∀ i, coef t i = if 98304 ≤ i ∧ i ≤ 163839 then coef s i else identity))

/-- Writes through the BAR2 windows. A write TLP of at most 128 DWs whose every DW passes R607 in one window, that lies wholly in
one own SQ where that window is the queues' (or comes from PF0), and that the window's rule takes stores exactly its DWs: each
reads back at its Bore address, every byte outside them is as before and no output moves. A DW for a delta area that is not
open or for a table whose LOAD runs stores nothing. A partial write merges the enabled bytes of a word that passes parity; one
whose read fails in the deltas stores nothing. A DW for the accumulator window stores nothing and counts in PR_DENY.
(12_bore_commands.md, 13_host_protection.md, 05_setpoint_table.md, 07_tongue_shapes.md, 08_monitor_conversion.md) -/
def Obligations.WindowWrites : Prop :=
  ∀ (s : State) (fn : Fn) (off : BitVec 26),
    (∀ (data : List Word) (r : Nat) (c : Instr),
      ((c = .bar2SetpointWrite fn off data ∧ r = 4) ∨ (c = .bar2DeltaWrite fn off data ∧ r = 8) ∨ (c = .bar2ShapeWrite fn off data ∧ r = 5) ∨
        (c = .bar2SeqWrite fn off data ∧ r = 6) ∨ (c = .bar2SqWrite fn off data ∧ r = 0) ∨ c = .bar2WindowWrite fn off data) →
      (∀ i, i < data.length → mayStore s fn (off.toNat + 4 * i) = true ∧ windowOf (off.toNat + 4 * i) = some r ∧
        windowClosed s (off.toNat + 4 * i) = false) →
      (r = 0 → fn = .pf0 ∨ sqCovers s fn off.toNat (off.toNat + 4 * data.length) = true) → data.length ≤ maxPayload →
      Yields c s fun t => SameOutputs s t ∧ (∀ i (h : i < data.length), boreWord t (windowAddr r (off.toNat + 4 * i)) = data[i]) ∧
        (∀ a, (∀ i, i < data.length → a < windowAddr r (off.toNat + 4 * i) ∨ windowAddr r (off.toNat + 4 * i) + 4 ≤ a) →
          boreByte t a = boreByte s a)) ∧
    (∀ v, mayStore s fn off.toNat = true → windowClosed s off.toNat = true →
      (windowOf off.toNat = some 8 → Yields (.bar2DeltaWrite fn off [v]) s fun t => SameBore s t) ∧
      (windowOf off.toNat = some 4 → Yields (.bar2SetpointWrite fn off [v]) s fun t => SameBore s t) ∧
      (windowOf off.toNat = some 5 → Yields (.bar2ShapeWrite fn off [v]) s fun t => SameBore s t) ∧
      (windowOf off.toNat = some 6 → Yields (.bar2SeqWrite fn off [v]) s fun t => SameBore s t)) ∧
    (∀ r be v, let o := off.toNat / 4 * 4
      mayStore s fn o = true → windowOf o = some r → windowClosed s o = false → s.bore.badPar.contains (windowAddr r o) = false →
      Yields (.bar2PartialWrite fn off be v true) s (fun t =>
        boreWord t (windowAddr r o) = mergeBytes (boreWord s (windowAddr r o)) v be ∧
        ∀ a, (a < windowAddr r o ∨ windowAddr r o + 4 ≤ a) → boreByte t a = boreByte s a) ∧
      (r = 8 → Yields (.bar2PartialWrite fn off be v false) s fun t => SameBore s t)) ∧
    (hostReach s fn = true → stageClosed s = false → muted s fn true = false → windowOf off.toNat = some 7 →
      Yields (.bar2AccWrite fn off) s fun t => SameBore s t ∧
        regFld t (ro pgPROT 0x4C) 0 16 = (regFld s (ro pgPROT 0x4C) 0 16 + 1) % 65536)

/-- BAR0 and BAR2 reads, BAR0 writes and the accesses to feed pages. A P0 write of BL_CTRL with SHADOW_US at most 65 is what the
field then holds. A BAR0 write at a hole is discarded with one UNMAPPED message and a read there returns 0. A BAR0 read that
R607 admits, of a register the drive die holds, returns it; a BAR2 read TLP whose every word passes R607 in one window and has
good parity returns its words, and a BAR4 read the word of the function's MSI-X table or pending bits. A read or write of a
feed page by a function that is not muted goes out over the link when no write waits, and with the link down a read returns 0
and ID_FEED_LOST counts. (13_host_protection.md, 18_register_pages.md, 03_staged_start.md) -/
def Obligations.RegisterAccesses : Prop :=
  ∀ (s : State) (fn : Fn),
    (∀ v, mayWrite s fn pgBELL 0x40 0 = true → fld v 0 7 ≤ 65 → Yields (.registerWrite fn 0x003040 v true) s fun t =>
      regFld t (ro pgBELL 0x40) 0 7 = fld v 0 7) ∧
    (∀ v (off : BitVec 24), hostReach s fn = true → isPage (off.toNat / 4096) = false → s.bell.inq.length < 64 → s.bell.injNext = [] →
      Yields (.registerWrite fn off v true) s fun t => t.regs = s.regs ∧ SameBore s t ∧ t.bell.inq = s.bell.inq ++
        [{ source := srcCode pgSYS 0, kind := BitVec.ofNat 8 (srcClass pgSYS 0 * 32), detail := BitVec.ofNat 32 off.toNat }]) ∧
    (∀ (off : BitVec 26) more, hostReach s fn = true → linkedRead s off.toNat = none →
      judge s { fn := fn, off := off.toNat } = .ok → Yields (.barRead fn .bar0 ⟨off, more⟩ true) s fun t =>
        t.host.rdata = (pageRead s off.toNat).1 ∧ t.host.poisoned = false) ∧
    (∀ (off : BitVec 26) more, hostReach s fn = true → isPage (off.toNat / 4096) = false →
      Yields (.barRead fn .bar0 ⟨off, more⟩ true) s fun t => t.host.rdata = 0 ∧ t.host.poisoned = false ∧ t.regs = s.regs) ∧
    (∀ (off : BitVec 26) (more : BitVec 10) r, hostReach s fn = true →
      (∀ i, i ≤ more.toNat → judge s { fn := fn, bar2 := true, off := off.toNat + 4 * i } = .ok ∧
        windowOf (off.toNat + 4 * i) = some r ∧ s.bore.badPar.contains (windowAddr r ((off.toNat + 4 * i) / 4 * 4)) = false) →
      Yields (.barRead fn .bar2 ⟨off, more⟩ true) s fun t =>
        t.host.rdata = boreWord s (windowAddr r (off.toNat / 4 * 4)) ∧ t.host.poisoned = false ∧ t.regs = s.regs ∧ SameBore s t ∧
        t.host.rmore = (List.range more.toNat).map (fun i => boreWord s (windowAddr r ((off.toNat + 4 * (i + 1)) / 4 * 4)))) ∧
    (∀ (off : BitVec 26) more, hostReach s fn = true → Yields (.barRead fn .bar4 ⟨off, more⟩ true) s fun t =>
      t.host.rdata = bar4Word s fn (off.toNat % 0x4000) ∧ t.host.poisoned = false ∧ t.regs = s.regs) ∧
    (∀ off : BitVec 24, isFeedPage (off.toNat / 4096) = true → hostReach s fn = true → muted s fn false = false →
      (idlUp s = true → s.idl.wrWait = [] → s.idl.heldAcc = [] → Yields (.feedPageRead fn off) s fun t =>
        t.idl.rdWait = s.idl.rdWait ++ [feedWaitOf fn off.toNat none] ∧ t.idl.toFeed.wire = s.idl.toFeed.wire ++
          [(s.idl.toFeed.nextSeq, .rdReq (BitVec.ofNat 15 (off.toNat - 0x10_0000)) (BitVec.ofNat 2 (fnNum fn)))]) ∧
      (idlUp s = false → Yields (.feedPageRead fn off) s fun t => t.host.rdata = 0 ∧
        regFld t (ro pgIDL 0x54) 0 16 = min (regFld s (ro pgIDL 0x54) 0 16 + 1) 65535)) ∧
    (∀ (off : BitVec 24) v, isFeedPage (off.toNat / 4096) = true → hostReach s fn = true → muted s fn true = false →
      idlUp s = true → s.idl.wrWait = [] → s.idl.heldAcc = [] → Yields (.feedPageWrite fn off v) s fun t =>
        t.idl.wrWait = [feedWaitOf fn off.toNat (some v)] ∧ t.idl.toFeed.wire.length = s.idl.toFeed.wire.length + 2 ∧ SameFeedGates s t)

/-- A poisoned write is discarded, counted and reported. POISONED_RX with the function's configuration in reach:
HS_ERR.POISONED_RX counts, POISONED_RX with the word offset as detail enters the Bell's queue while it has room, and the
queues of commands, every output, every slot, the Bore, the tables and the other registers are as before. (R431) -/
def Obligations.PoisonedWrite : Prop :=
  ∀ (s : State) (w : BitVec 24), configUp s = true → s.bell.inq.length < 64 → s.bell.injNext = [] →
    Yields (.poisonedRx w) s fun t =>
      regFld t (ro pgHOST 0x48) 24 8 = (regFld s (ro pgHOST 0x48) 24 8 + 1) % 256 ∧
      (∀ off, off ≠ ro pgHOST 0x48 → getReg t off = getReg s off) ∧
      t.bell.inq = s.bell.inq ++ [{ source := srcCode pgHOST 4, kind := BitVec.ofNat 8 (srcClass pgHOST 4 * 32), detail := w.setWidth 32 }] ∧
      t.chans = s.chans ∧ t.tiles = s.tiles ∧ t.slots = s.slots ∧ t.cmdq = s.cmdq ∧ t.bore = s.bore ∧ t.tabs = s.tabs ∧
      t.idl = s.idl ∧ SameFeedGates s t

/-- A function in D3hot decodes no BAR and sends no interrupt, and nothing else changes. D3HOT_ENTER of a function whose
configuration is in reach: afterwards the function reaches no BAR and a message of any of its vectors stays pending; the
command queues, the interrupts sent so far, every output, every slot and the reach of every other function are as before.
(R438) -/
def Obligations.D3hotStopsAFunction : Prop :=
  ∀ (s : State) (fn : Fn), configUp s = true → Yields (.d3hotEnter fn) s fun t =>
    hostReach t fn = false ∧ (∀ vec, (sendMsi t (fnNum fn) vec).host.msixSent = t.host.msixSent) ∧
    t.cmdq = s.cmdq ∧ t.regs = s.regs ∧ t.chans = s.chans ∧ t.slots = s.slots ∧ t.host.msixSent = s.host.msixSent ∧
    (∀ g, g ≠ fn → hostReach t g = hostReach s g ∧
      ∀ vec, (sendMsi t (fnNum g) vec).host.msixSent = (sendMsi s (fnNum g) vec).host.msixSent)

/-- Resets of functions, the PCIe link and MSI-X. An FLR of a function whose configuration is in reach disables its enabled queues
and the CQs bound to them, drops its commands, masks its MSI-X table and returns its JCP version to 1.0; the queues of the
other functions, every channel and every slot are as before. PERST takes the link down with a DRST; a hot reset takes it down
with an FLR of every function and clears AER status; with the reference clock, 20 ms after stage 2 began, the link comes up at
a speed and width that it supports up to MAX_SPEED; RETRAIN brings a faster link to MAX_SPEED; an error stands in the AER
status of every function and counts; a table write that unmasks a vector in D0 sends its pending message as the entry
describes it; a function leaves D3hot. (13_host_protection.md, 18_register_pages.md) -/
def Obligations.PcieEvents : Prop :=
  ∀ s : State,
    (∀ fn, configUp s = true → Yields (.flr fn) s fun t =>
      (∀ q : QId, sqFn s q.val = fnNum fn → bit (sqCtrl s q.val) 0 = true →
        bit (sqCtrl t q.val) 0 = false ∧ bit (cqCtrl t (sqCq s q.val)) 0 = false) ∧
      (∀ q : QId, sqFn s q.val ≠ fnNum fn → sqCtrl t q.val = sqCtrl s q.val ∧ sq t q.val = sq s q.val) ∧
      (∀ c ∈ t.cmdq.cmds, c.fn ≠ fnNum fn) ∧ (∀ c ∈ t.cmdq.fetched, c.fn ≠ fnNum fn) ∧ jcpVer t (fnNum fn) = 0x10 ∧
      t.host.msixEn.getLsbD (fnNum fn) = false ∧ (∀ v : Fin 32, msixOpen t (fnNum fn) v.val = false) ∧
      t.chans = s.chans ∧ t.slots = s.slots) ∧
    (driveOn s = true → Yields .perstAssert s fun t => t.host.linkUp = false ∧ t.boot.stage = 2 ∧ regFld t (ro pgSYS 0x68) 0 4 = 1) ∧
    (driveOn s = true → Yields .hotReset s fun t => t.host.linkUp = false ∧ (∀ fn, jcpVer t (fnNum fn) = 0x10) ∧
      t.host.aer = [] ∧ t.chans = s.chans ∧ t.slots = s.slots) ∧
    (∀ sp w, driveOn s = true → s.power.refOk = true → s.host.linkUp = false → 2 ≤ s.boot.stage.val →
      s.boot.stage2At + 24_000_000 ≤ s.now → linkCan sp.toNat w.toNat = true → sp.toNat ≤ regFld s (ro pgHOST 0x44) 0 4 → Yields (.pcieLinkUp sp w) s fun t =>
      t.host.linkUp = true ∧ t.host.width = w ∧ t.host.speed = sp.setWidth 4) ∧
    (∀ fn, mayWrite s fn pgHOST 0x44 0 = true → s.host.linkUp = true → regFld s (ro pgHOST 0x44) 0 4 < s.host.speed.toNat → Yields (.hsRetrain fn) s fun t =>
      t.host.speed.toNat = regFld s (ro pgHOST 0x44) 0 4 ∧ t.host.linkUp = true) ∧
    (∀ corr st, driveOn s = true → Yields (.pcieError corr st) s fun t =>
      regFld t (ro pgHOST 0x48) (if corr then 0 else 12) 12 = (regFld s (ro pgHOST 0x48) (if corr then 0 else 12) 12 + 1) % 4096 ∧
      ∀ fn : Fn, tabGet (fun _ => (0 : Word)) t.host.aer (2 * fnNum fn + b2n corr) =
        tabGet (fun _ => (0 : Word)) s.host.aer (2 * fnNum fn + b2n corr) ||| st) ∧
    (∀ fn (vec : Fin 32) (v : Word), hostReach s fn = true → bit v 0 = false →
      tabGet (fun _ => false) s.host.msixPend (fnNum fn * 32 + vec.val) = true →
      Yields (.msixUnmask fn ⟨BitVec.ofNat 14 (16 * vec.val + 12), v⟩) s fun t =>
        t.host.msixSent = s.host.msixSent ++ [msixMsg s (fnNum fn) vec.val] ∧ msixOpen t (fnNum fn) vec.val = true ∧
        tabGet (fun _ => false) t.host.msixPend (fnNum fn * 32 + vec.val) = false) ∧
    (∀ fn, configUp s = true → s.host.d3.getLsbD (fnNum fn) = true → Yields (.d3hotExit fn) s fun t =>
      t.host.d3.getLsbD (fnNum fn) = false ∧ t.cmdq = s.cmdq ∧ t.chans = s.chans)

/-- PG_IRQ_STAT, PG_LOCK, the PR registers and PROT_CHANGE. On a drive-die page: a write of PG_IRQ_STAT clears the bits written 1
and no other; a P0 write of PG_LOCK holds its writable bits; an admitted write of a PR register whose fields are in range
holds them. Each of the last two counts in PR_GEN and sends PROT_CHANGE with the register's BAR0 offset. A write of PG_LOCK
below P0 changes no register but those of PROT. (13_host_protection.md, 15_faults_bell.md, 18_register_pages.md) -/
def Obligations.HeaderAndProtection : Prop :=
  ∀ (s : State) (fn : Fn) (page : BitVec 9) (v : Word), isFeedPage page.toNat = false →
    (mayWrite s fn page.toNat 0x14 1 = true → Yields (.pgIrqStatWrite fn page v) s fun t =>
      getReg t (ro page.toNat 0x14) = getReg s (ro page.toNat 0x14) &&& ~~~ v ∧
      ∀ off, off ≠ ro page.toNat 0x14 → getReg t off = getReg s off) ∧
    (mayWrite s fn page.toNat 0x28 0 = true → s.bell.inq.length < 64 → s.bell.injNext = [] → Yields (.pgLockWrite fn page v) s fun t =>
      getReg t (ro page.toNat 0x28) = v &&& lockMask ∧
      regFld t (ro pgPROT 0x48) 0 32 = (regFld s (ro pgPROT 0x48) 0 32 + 1) % 2 ^ 32 ∧
      t.bell.inq = s.bell.inq ++ [{ source := srcCode pgPROT 1, kind := BitVec.ofNat 8 (srcClass pgPROT 1 * 32),
                                    detail := BitVec.ofNat 32 (ro page.toNat 0x28) }]) ∧
    (fn ≠ .pf0 → Yields (.pgLockWrite fn page v) s fun t => ∀ off, off / 4096 ≠ pgPROT → off / 4096 ≠ pgBELL →
      getReg t off = getReg s off) ∧
    (∀ (off : BitVec 12) (r : RegRow), let o := off.toNat / 4 * 4
      regRow (ro pgPROT o) = some r → r.acc = .rw → ruleBad r.rules v = false → (∀ f ∈ r.rules, f.zeroAs = 0) → 0x40 ≤ o →
      mayWrite s fn pgPROT o r.lvl = true → s.bell.inq.length < 64 → s.bell.injNext = [] → Yields (.prRegWrite fn off v) s fun t =>
        getReg t (ro pgPROT o) &&& r.mask = v &&& r.mask ∧
        regFld t (ro pgPROT 0x48) 0 32 = (regFld s (ro pgPROT 0x48) 0 32 + 1) % 2 ^ 32 ∧
        t.bell.inq = s.bell.inq ++ [{ source := srcCode pgPROT 1, kind := BitVec.ofNat 8 (srcClass pgPROT 1 * 32),
                                      detail := BitVec.ofNat 32 (ro pgPROT o) }])

/-- The two SMBus ports. On the live feed-die port each forerunner word is the meter result in its unit, FR_STATUS returns OVR in
its low byte and clears FRESH, FR_ENERGY is the sum of both energies, saturated; the offset is written and read; the register
at the offset is read, the insertion delay of feed A written when at most 1600, an offset beyond the seven pages has result 3,
and a write with a bad PEC result 2 and no other effect. On the drive-die port, live from stage 2, each word is the register
it names. A port that is not live, and one whose clock stays low, answers nothing. The reads of both ports change no register,
feed or channel. (09_accumulators_meters.md, 13_host_protection.md) -/
def Obligations.SmbusPorts : Prop :=
  ∀ s : State,
    let fr (c : Instr) (b : List Byte) : Prop := Yields c s fun t =>
      t.host.smb = (if s.fd.armed then b else []) ∧ t.regs = s.regs ∧ SameFeedGates s t ∧ t.chans = s.chans
    let dd (c : Instr) (b : List Byte) : Prop := Yields c s fun t =>
      t.host.smb = (if driveOn s && decide (2 ≤ s.boot.stage.val) then b else []) ∧ t.regs = s.regs ∧ SameFeedGates s t ∧ t.chans = s.chans
    fr .frVinA (frUnsigned (meterRes s 0) 50) ∧ fr .frIinA (frSigned (meterRes s 1) 80) ∧
    fr .frVinB (frUnsigned (meterRes s 2) 50) ∧ fr .frIinB (frSigned (meterRes s 3) 80) ∧
    fr .frVout (frUnsigned (meterRes s 4) 80) ∧ fr .frIout (frSigned (meterRes s 5) 40) ∧
    fr .frPin (frUnsigned ((getReg s (ro pgMETER 0x70)).toNat + (getReg s (ro pgMETER 0x74)).toNat) 10) ∧
    fr .frTemp (frSigned (meterRes s 7) 100) ∧ fr .frEnergy (leBytes 8 (min (s.fd.energyA + s.fd.energyB) (2 ^ 64 - 1))) ∧
    fr .smbFdRes (leBytes 2 s.host.fdRes.toNat) ∧ fr (.smbFdAddr none true) (leBytes 2 s.host.fdOffset.toNat) ∧
    (s.fd.armed = true → Yields .frStatus s fun t => t.fd.fresh = false ∧ t.host.smb.length = 2 ∧
      (t.host.smb.getD 0 0).toNat = fld (getReg s (ro pgMETER 0x48)) 16 8 ∧ t.regs = s.regs) ∧
    (∀ v, s.fd.armed = true →
      Yields (.smbFdAddr (some v) true) s (fun t => t.host.fdOffset = v ∧ t.regs = s.regs) ∧
      Yields (.smbFdAddr (some v) false) s (fun t => t.host.fdRes = 2 ∧ t.host.fdOffset = s.host.fdOffset ∧ t.regs = s.regs)) ∧
    (∀ off, s.fd.armed = true → fdTarget s = some off → feedReserved off = false →
      Yields (.smbFdData none true) s fun t => t.host.smb = leBytes 4 (feedRead s off).1.toNat ∧ t.host.fdRes = 0) ∧
    (∀ v, s.fd.armed = true → fdTarget s = some (ro 0x101 0x48) → fld v 0 11 ≤ 1600 →
      Yields (.smbFdData (some v) true) s (fun t => regFld t (ro 0x101 0x48) 0 11 = fld v 0 11 ∧ t.host.fdRes = 0) ∧
      Yields (.smbFdData (some v) false) s (fun t => t.regs = s.regs ∧ t.host.fdRes = 2)) ∧
    (∀ v, s.fd.armed = true → fdTarget s = none → Yields (.smbFdData (some v) true) s fun t =>
      t.host.fdRes = 3 ∧ t.regs = s.regs ∧ SameFeedGates s t) ∧
    dd .ddStage (leBytes 2 (btStage s).toNat) ∧ dd .ddPair (leBytes 4 (btPair s).toNat) ∧
    dd .ddVers (leBytes 4 s.boot.sfw.toNat ++ leBytes 4 s.boot.rmc.toNat ++ leBytes 4 s.boot.tmi.toNat ++
      leBytes 4 (getReg s (ro pgBOOT 0x5C)).toNat) ∧
    dd .ddBond (leBytes 4 (bondSum s).toNat ++ leBytes 4 (bondSum2 s).toNat) ∧ dd .ddLink (leBytes 2 (hsLink s).toNat) ∧
    dd .ddTemp (leBytes 2 (if s.thermal.updated then temp10 s.thermal.tth else 0x8000)) ∧
    (s.fd.armed = true → Yields (.smbClockLowTimeout .feed) s fun t => t.host.smb = [] ∧ t.host.fdOffset = s.host.fdOffset ∧ t.regs = s.regs) ∧
    (driveOn s = true → Yields (.smbClockLowTimeout .drive) s fun t => t.host.smb = [] ∧ t.regs = s.regs)

/-- Accepting messages, severities, shadows and the copy to JOURNAL. In a cycle in which no message has been accepted, the first
message of the queue sets its sticky bit on a drive-die page; one that reports no reaction of its own is recorded in the live
ring: outside every shadow at severity 0 at NEXT with its detail and source, and nothing reacts; inside a shadow that holds
its source the record is marked CONSEQUENT and no severity applies; at severity 3 the device-wide park is requested, PARK_HOLD
stands and no slot stays armed. A shadow whose time has come, whose reaction is over and that has shadowed nothing closes. The
core's copy of a record moves CORE_RD by one and changes no byte of the Bore. (15_faults_bell.md) -/
def Obligations.BellRecords : Prop :=
  ∀ s : State,
    (∀ m rest, s.bell.inq = m :: rest → s.bell.last.map (·.1) ≠ some s.now → isFeedPage m.page = false → Yields .bellAccept s fun t =>
      sticky t m.page m.local = true) ∧
    (∀ m rest, s.bell.inq = m :: rest → s.bell.last.map (·.1) ≠ some s.now → s.bell.ringLive = true → ownReaction m.page m.local m.cls = false →
      (shadowOf s m.page m.local = none → appliedSev s m.page m.local = 0 → Yields .bellAccept s fun t =>
        nextRecord t = nextRecord s + 1 ∧ boreWord t (recordAddr (nextRecord s) + 4) = m.detail ∧
        fld (boreWord t (recordAddr (nextRecord s))) 0 13 = m.source.toNat ∧
        fld (boreWord t (recordAddr (nextRecord s))) 21 2 = 0 ∧ t.slots = s.slots ∧ t.park = s.park ∧ SameOutputs s t) ∧
      (∀ shid, shadowOf s m.page m.local = some shid → Yields .bellAccept s fun t =>
        nextRecord t = nextRecord s + 1 ∧ fld (boreWord t (recordAddr (nextRecord s))) 21 1 = 1 ∧
        t.slots = s.slots ∧ t.park = s.park ∧ SameOutputs s t) ∧
      (shadowOf s m.page m.local = none → appliedSev s m.page m.local = 3 → Yields .bellAccept s fun t =>
        t.bell.parkHold = true ∧ (∀ k : Slot, (slot t k.val).state ≠ .armed) ∧ SameOutputs s t ∧
        (s.power.dom = 0xFFFFF → t.park.events = s.park.events ++ [{ cause := 1, tiles := allTiles, left := allTiles }]))) ∧
    (∀ (shid : Fin 64) x, s.bell.shadows.lookup shid.val = some x → x.shadowed = [] → x.closeAt ≤ s.now →
      reactionOver s shid.val = true → Yields (.shadowClose shid) s fun t =>
      t.bell.shadows.lookup shid.val = none ∧ t.regs = s.regs ∧ SameOutputs s t) ∧
    (coreRuns s = true → s.bell.ringLive = true → coreRecord s ≠ nextRecord s → ringOpen s 2 = true →
      Yields .bellJournalCopy s fun t => coreRecord t = coreRecord s + 1 ∧ nextRecord t = nextRecord s ∧ SameBore s t)

/-- Clears, severities, injection and block resets. On a drive-die page, by a function that may write the register: a write of
PG_FLT_STICKY clears a set bit written 1 whose cause is not live, unless the Bell has accepted its message in this cycle, and
leaves one whose cause is live; PG_FLT_SEV holds the severities of the sources that exist, and no other register changes; OFF
ends an injection; with room in the Bell's queue PULSE and HOLD of a source that exists send its message marked INJ, and HOLD
keeps it live; CHECK of a source that takes it arms; a block reset is recorded and sets BLK_RESET's sticky bit, that of CMDQ
disables every submission queue, that of PLAN empties every slot. (15_faults_bell.md, 18_register_pages.md) -/
def Obligations.BellControl : Prop :=
  ∀ (s : State) (fn : Fn) (page : BitVec 9), isFeedPage page.toNat = false →
    (∀ v (k : Fin 16), mayWrite s fn page.toNat 0x1C 1 = true → bit (v &&& implMask page.toNat) k.val = true →
      sticky s page.toNat k.val = true → justAccepted s page.toNat k.val = false → Yields (.stickyClear fn page v) s fun t =>
        sticky t page.toNat k.val = liveNow s page.toNat k.val) ∧
    (∀ v, mayWrite s fn page.toNat 0x20 0 = true → Yields (.pgFltSevWrite fn page v) s fun t =>
      getReg t (ro page.toNat 0x20) = v &&& sevMask page.toNat ∧ ∀ off, off ≠ ro page.toNat 0x20 → getReg t off = getReg s off) ∧
    (mayWrite s fn page.toNat 0x24 0 = true →
      (∀ src : Fin 16, Yields (.injOff fn page src) s fun t =>
        fld (getReg t (ro page.toNat 0x24)) 4 2 = 0 ∧ bit (getReg t (ro page.toNat 0x24)) 6 = false) ∧
      (∀ (src : Fin 16) d, bit (pageCap page.toNat) src.val = true → s.bell.inq.length < 64 →
        Yields (.injPulse fn page src d) s (fun t => t.bell.inq = s.bell.inq ++
          [{ source := srcCode page.toNat src.val, kind := BitVec.ofNat 8 (srcClass page.toNat src.val * 32),
             detail := BitVec.ofNat 32 d.toNat, inj := true }]) ∧
        Yields (.injHold fn page src d) s (fun t => liveNow t page.toNat src.val = true ∧ t.bell.inq = s.bell.inq ++
          [{ source := srcCode page.toNat src.val, kind := BitVec.ofNat 8 (srcClass page.toNat src.val * 32),
             detail := BitVec.ofNat 32 d.toNat, inj := true }])) ∧
      (∀ (src : Fin 16) d, checkable page.toNat src.val = true → Yields (.injCheck fn page src d) s fun t =>
        checkArmed t page.toNat src.val = true ∧ t.bell = s.bell)) ∧
    (mayWrite s fn page.toNat 0x0C 0 = true → bit (pageCap page.toNat) 17 = true → Yields (.pgBlkRst fn page) s fun t =>
      nextRecord t = nextRecord s + 1 ∧ sticky t pgBELL 2 = true ∧
      (page = 0x006 → ∀ q : QId, bit (sqCtrl t q.val) 0 = false) ∧ (page = 0x00B → ∀ k : Slot, (slot t k.val).state = .empty))

/-- Replay, patrol, retention and initialisation of the Bore. A passed replay counts and changes no byte; a word of the queues, of
the Bell records or of the staging buffers that fails read and replay counts as damaged and changes no byte. With no word of
failing parity the enabled patrol reads the next word, and counts its passes; a bank enters retention at L5 with RET_EN, not
below L5, and wakes; the zeroing starts in the climb from stage 2, and its end, with no record held back, leaves the regions
it clears at 0 and the others as they were. (12_bore_commands.md) -/
def Obligations.BoreUpkeep : Prop :=
  ∀ s : State,
    (∀ a, domOn s 4 = true → Yields (.boreReplay a true) s (fun t => SameBore s t ∧
        regFld t (ro pgBORE 0x48) 0 16 = (regFld s (ro pgBORE 0x48) 0 16 + 1) % 65536) ∧
      (boreRegion (a.toNat / 4 * 4) ∈ [0, 2, 3] → Yields (.boreReplay a false) s fun t => SameBore s t ∧
        regFld t (ro pgBORE 0x4C) 0 16 = (regFld s (ro pgBORE 0x4C) 0 16 + 1) % 65536)) ∧
    (domOn s 4 = true → bit (getReg s (ro pgBORE 0x40)) 1 = true → s.bore.badPar = [] →
      (s.bore.patrol + 1 < boreSize → Yields .patrolRead s fun t => t.bore.patrol = s.bore.patrol + 1 ∧ SameBore s t ∧ t.regs = s.regs) ∧
      (boreSize ≤ s.bore.patrol + 1 → Yields .patrolRead s fun t => t.bore.patrol = 0 ∧ SameBore s t ∧
        regFld t (ro pgBORE 0x5C) 0 16 = (regFld s (ro pgBORE 0x5C) 0 16 + 1) % 65536)) ∧
    (∀ b : Fin 16, (5 ≤ level s → bit (getReg s (ro pgBORE 0x40)) 0 = true → Yields (.bankRetentionEnter b) s fun t =>
        t.bore.ret.getLsbD b.val = true ∧ SameBore s t) ∧
      (level s < 5 → Yields (.bankRetentionEnter b) s fun t => t = s) ∧
      Yields (.bankWake b) s (fun t => t.bore.ret.getLsbD b.val = false ∧ SameBore s t)) ∧
    (s.boot.stage = 2 → domOn s 4 = true → s.bore.climbDone = false → Yields .boreInit s fun t => t.bore.initRun = true ∧ SameBore s t) ∧
    (s.bore.initRun = true → Yields .boreInitDone s fun t => t.bore.climbDone = true ∧ t.bore.initDone = true ∧
      t.bore.initRun = false ∧ t.bell.ringLive = true ∧ t.bell.store = [] ∧
      (s.bell.store = [] → ∀ a, boreByte t a = if initClears (!s.bore.initDone) (boreRegion a) then 0 else boreByte s a))

/-- Enabling, disabling, doorbells, fetching and draining of the queues. A disabled SQ that fits, on an enabled CQ, is enabled
with its FN, CQ and DEPTH; disabling one keeps its HEAD and tail, drains what is in flight and leaves the commands; a disabled
CQ that fits starts its first pass empty, and a head doorbell of a function that uses the CQ sets its head, when no completion
waits for a slot; a tail doorbell of the queue's own function sets its tail, and a foreign doorbell changes no queue; with a
free tag and no word of failing parity the arbiter fetches the next entry of the queue that is next in its class, with the
words as they stand in the Bore; a drain with nothing in flight ends; TIME_US after the oldest completion that has raised no
interrupt the aggregation timer raises it. (12_bore_commands.md) -/
def Obligations.QueueControl : Prop :=
  ∀ s : State,
    (∀ fn (q : QId) v, mayWrite s fn pgCMDQ (0x104 + 16 * q.val) 0 = true → let new := taken s (ro pgCMDQ (0x104 + 16 * q.val)) v
      (bit (sqCtrl s q.val) 0 = false → bit new 0 = true → sqFits s q.val (fld new 16 13) = true → bit (cqCtrl s (fld new 4 6)) 0 = true →
        Yields (.jcSqCtrlWrite fn q v) s fun t => bit (sqCtrl t q.val) 0 = true ∧ sqFn t q.val = fld new 1 2 ∧
          sqCq t q.val = fld new 4 6 ∧ sqDepth t q.val = fld new 16 13) ∧
      (bit (sqCtrl s q.val) 0 = true → bit new 0 = false → sqCtrl s q.val &&& 0x1FFF_03F6 = new &&& 0x1FFF_03F6 →
        Yields (.jcSqCtrlWrite fn q v) s fun t => bit (sqCtrl t q.val) 0 = false ∧ (sq t q.val).head = (sq s q.val).head ∧
          (sq t q.val).tail = (sq s q.val).tail ∧ (sq t q.val).draining = decide (inflight s q.val ≠ 0) ∧ t.cmdq.cmds = s.cmdq.cmds)) ∧
    (∀ fn (q : QId) v, mayWrite s fn pgCMDQ (0x504 + 16 * q.val) 0 = true → let new := taken s (ro pgCMDQ (0x504 + 16 * q.val)) v
      bit (cqCtrl s q.val) 0 = false → bit new 0 = true → cqFits s q.val (fld new 16 13) = true →
      (∀ c ∈ s.cmdq.cmds, c.stage ≠ .done) →
      Yields (.jcCqCtrlWrite fn q v) s fun t => bit (cqCtrl t q.val) 0 = true ∧ cqDepth t q.val = fld new 16 13 ∧ cq t q.val = {}) ∧
    (∀ fn (q : QId) n, mayWrite s fn pgCMDQ (0x900 + 4 * q.val) 2 = true →
      (sqFn s q.val = fnNum fn → n.toNat < sqDepth s q.val → Yields (.sqDoorbell fn q n) s fun t =>
        (sq t q.val).tail = n ∧ (sq t q.val).head = (sq s q.val).head) ∧
      (sqFn s q.val ≠ fnNum fn → Yields (.sqDoorbell fn q n) s fun t => t.cmdq = s.cmdq)) ∧
    (∀ fn (q : QId) n, mayWrite s fn pgCMDQ (0xA00 + 4 * q.val) 2 = true →
      (fnNum fn ∈ cqFns s q.val → n.toNat < cqDepth s q.val → (∀ c ∈ s.cmdq.cmds, c.stage ≠ .done) → Yields (.cqDoorbell fn q n) s fun t =>
        (cq t q.val).head = n ∧ (cq t q.val).tail = (cq s q.val).tail) ∧
      (cqFns s q.val ≠ [] → fnNum fn ∉ cqFns s q.val → Yields (.cqDoorbell fn q n) s fun t => t.cmdq = s.cmdq)) ∧
    (∀ q, domOn s 3 = true → s.bore.badPar = [] → freeTagNo s ≠ none →
      (roundRobin s true s.cmdq.rrHigh = some q ∨ (roundRobin s true s.cmdq.rrHigh = none ∧ roundRobin s false s.cmdq.rrNorm = some q)) →
      Yields .sqArbitrate s fun t => SameBore s t ∧ SameOutputs s t ∧ t.cmdq.cmds = s.cmdq.cmds ∧
        ∃ c, t.cmdq.fetched[s.cmdq.fetched.length]? = some c ∧ c.sq = q ∧ c.fn = sqFn s q ∧ c.bad = 0 ∧
          c.w0 = boreWord s ((sqRange s q (sqDepth s q)).1 + 64 * (sq s q).head.toNat)) ∧
    (∀ q : QId, (sq s q.val).draining = true → inflight s q.val = 0 → Yields (.sqDrainDone q) s fun t =>
      sq t q.val = { sq s q.val with draining := false } ∧ t.regs = s.regs) ∧
    (∀ q : QId, let us := regFld s (ro pgCMDQ (0x508 + 16 * q.val)) 8 8
      us ≠ 0 → (cq s q.val).unsig ≠ 0 → (cq s q.val).unsigFrom + us * 1200 ≤ s.now → bit (cqCtrl s q.val) 1 = true →
      Yields (.cqAggTimer q) s fun t => (cq t q.val).unsig = 0 ∧ t.regs = s.regs ∧ SameBore s t)

/-- No two commands in flight hold one tag, after any step. For every state in which the tags of the commands in flight are all
different: after any step that answers a next state they are all different. (12_bore_commands.md) -/
def Obligations.CommandTags : Prop :=
  ∀ s t : State, (s.cmdq.cmds.map (·.tag)).Nodup → step s = .next t → (t.cmdq.cmds.map (·.tag)).Nodup

/-- Decode, fences and the commands that the engine executes. In states in which no two commands hold one tag. The oldest fetched
entry, with no word of failing parity, takes the lowest free tag: it is released or fenced when decode accepts it, and
otherwise, with a free slot in its CQ, completed with the SC of the first check that it fails; a fence releases what may pass.
A command that is ready: NOP completes with 0; VERSION sets the function's version to the lower of VER_MAX and 1.1, or
completes with 7 and leaves it; ABORT of a fenced command completes that one with 6, and of none completes with 0; PLAN OPEN
of an empty slot in RUN starts staging and completes; COMMIT of an armed slot at stage 4 below L3 becomes its request; PARK of
the device, with every TG domain on, requests the park event. A completion stands in the next entry of the CQ with its SC, SCT
and CID, its tag is free and no output moves. (12_bore_commands.md, 13_host_protection.md) -/
def Obligations.CommandsOfTheEngine : Prop :=
  ∀ s : State, (s.cmdq.cmds.map (·.tag)).Nodup →
    let done (c : Cmd) (sct sc : Nat) (t : State) : Prop :=
      let e := 0x40_0000 + fld (getReg s (ro pgCMDQ (0x500 + 16 * sqCq s c.sq))) 4 16 * 16 + (cq s (sqCq s c.sq)).tail.toNat * 16
      cmdOf t c.tag = none ∧ fld (boreWord t (e + 12)) 16 8 = sc ∧ fld (boreWord t (e + 12)) 24 3 = sct ∧
      fld (boreWord t (e + 12)) 0 16 = c.cid ∧ SameOutputs s t
    (∀ (e : Fetched) rest tag, s.cmdq.fetched = e :: rest → freeTagNo s = some tag → e.bad = 0 →
      let c : Cmd := { tag := tag, sq := e.sq, fn := e.fn, head := e.head, w0 := e.w0, cdw := e.cdw }
      let before := s.cmdq.cmds.filter (fun d => d.sq == e.sq)
      (decodeSc s c = 0 → Yields (.cmdDecode 0) s fun t => t.cmdq.fetched = rest ∧ SameBore s t ∧ SameOutputs s t ∧
        ∃ d, cmdOf t tag = some d ∧ d.sq = e.sq ∧ d.fn = e.fn ∧ d.w0 = e.w0 ∧ d.cdw = e.cdw ∧
          d.stage = (if (if c.fence then before.isEmpty else !before.any (·.fence)) then .released else .fenced)) ∧
      (decodeSc s c ≠ 0 → 0 < cqFree s (sqCq s e.sq) → Yields (.cmdDecode 0) s fun t =>
        t.cmdq.fetched = rest ∧ done c 0 (decodeSc s c) t)) ∧
    (∀ c (q : QId), c ∈ s.cmdq.cmds → c.sq = q.val → c.stage = .fenced → passesFence s c = true → Yields (.fenceRelease q) s fun t =>
      cmdOf t c.tag = some { c with stage := .released, since := s.now } ∧ SameBore s t ∧ SameOutputs s t) ∧
    (∀ (tag : Tag) c, ready s tag.val 0x00 = some c → Yields (.jcpNop tag) s (done c 0 0)) ∧
    (∀ (tag : Tag) c, ready s tag.val 0x01 = some c → let v := min (fld (c.cw 1) 8 8) 0x11
      (max (fld (c.cw 1) 0 8) 0x10 ≤ v → Yields (.jcpVersion tag) s fun t => done c 0 0 t ∧ (c.fn < 3 → jcpVer t c.fn = v)) ∧
      (v < max (fld (c.cw 1) 0 8) 0x10 → Yields (.jcpVersion tag) s fun t =>
        done c 0 7 t ∧ (c.fn < 3 → jcpVer t c.fn = jcpVer s c.fn))) ∧
    (∀ (tag : Tag) c, ready s tag.val 0x02 = some c →
      let named := s.cmdq.cmds.find? (fun d => d.sq == fld (c.cw 1) 0 6 && d.cid == fld (c.cw 1) 16 16 && d.tag != c.tag)
      (named = none → Yields (.jcpAbort tag) s (done c 0 0)) ∧
      (∀ d, named = some d → d.stage = .fenced → d.cq = none → sqCq s d.sq = sqCq s c.sq → 1 < cqFree s (sqCq s c.sq) →
        Yields (.jcpAbort tag) s fun t => cmdOf t c.tag = none ∧ done d 0 6 t)) ∧
    (∀ (tag : Tag) c, ready s tag.val 0x10 = some c → inRun s = true → fld (c.cw 1) 0 4 = 1 → (slot s c.slotNo).state = .empty →
      Yields (.jcpPlan tag) s fun t => (slot t c.slotNo).state = .staging ∧ cmdOf t c.tag = none ∧ SameOutputs s t) ∧
    (∀ (tag : Tag) c, ready s tag.val 0x11 = some c → c.sched = false → s.boot.stage.val = 4 → level s < 3 →
      (slot s c.slotNo).state = .armed → req s c.slotNo = none → Yields (.jcpCommit tag) s fun t =>
        (∃ r, req t c.slotNo = some r ∧ r.src = 3 ∧ r.tag = some tag ∧ r.cut = bit (c.cw 1) 4 ∧ r.arrived = s.now) ∧ SameOutputs s t) ∧
    (∀ (tag : Tag) c, ready s tag.val 0x12 = some c → fld (c.cw 1) 0 4 = 1 → s.power.dom = 0xFFFFF → Yields (.jcpPark tag) s fun t =>
      t.park.events = s.park.events ++ [{ cause := 5, tiles := allTiles, left := allTiles }] ∧ done c 0 0 t)

/-- The commands that the supervisory core executes, and their completions. In states in which no two commands hold one tag, with
the core running, a command that is ready: REG_READ of a register that the powered drive die holds has its value, REG_WRITE of
BL_CTRL in range writes it, TABLE LOAD of a page that is not BUSY (STAB, TONGUE and THM: in RUN) starts it and waits for it,
NV_READ takes the bytes at its acceptance, NV_WRITE from a buffer to a partition other than CAL is refused with READ_ONLY and
of a correct image whose words pass parity waits to become durable. MGMT_COMPLETE completes a command that has moved no bytes
with its result; one that the core has held for MGMT_MS completes with 0x0A, no earlier, and without a running core a
management command completes with 8. A completion stands in the next entry of the CQ with its SC, SCT and CID, its tag is free
and no output moves. (12_bore_commands.md, 14_flash_store.md) -/
def Obligations.CommandsOfTheCore : Prop :=
  ∀ s : State, (s.cmdq.cmds.map (·.tag)).Nodup →
    let done (c : Cmd) (sct sc : Nat) (t : State) : Prop :=
      let e := 0x40_0000 + fld (getReg s (ro pgCMDQ (0x500 + 16 * sqCq s c.sq))) 4 16 * 16 + (cq s (sqCq s c.sq)).tail.toNat * 16
      cmdOf t c.tag = none ∧ fld (boreWord t (e + 12)) 16 8 = sc ∧ fld (boreWord t (e + 12)) 24 3 = sct ∧
      fld (boreWord t (e + 12)) 0 16 = c.cid ∧ SameOutputs s t
    let result (c : Cmd) (r : Nat × Nat × Word × Word) (t : State) : Prop :=
      ∃ d, cmdOf t c.tag = some d ∧ d.stage = .mgmt ∧ d.res = some r
    (∀ (tag : Tag) c, coreRuns s = true →
      (ready s tag.val 0x20 = some c → isPage (fld (c.cw 1) 0 24 / 4096) = true → isFeedPage (fld (c.cw 1) 0 24 / 4096) = false →
        domOn s (pageDom (fld (c.cw 1) 0 24 / 4096)) = true → linkedRead s (fld (c.cw 1) 0 24) = none → Yields (.jcpRegRead tag) s
          (result c (0, 0, (pageRead (setCmd s { c with stage := .mgmt }) (fld (c.cw 1) 0 24)).1, 0))) ∧
      (ready s tag.val 0x21 = some c → fld (c.cw 1) 0 24 = ro pgBELL 0x40 → domOn s 1 = true → fld (c.cw 2) 0 7 ≤ 65 →
        Yields (.jcpRegWrite tag) s fun t => regFld t (ro pgBELL 0x40) 0 7 = fld (c.cw 2) 0 7 ∧ result c (0, 0, 0, 0) t) ∧
      (∀ k, ready s tag.val 0x22 = some c → pageTab (fld (c.cw 1) 0 9) = some k → domOn s (pageDom (fld (c.cw 1) 0 9)) = true →
        fld (c.cw 1) 12 4 = 1 → tabBusy s k = false → (k = kMS ∨ k = kCL ∨ k = kLP ∨ inRun s = true) → Yields (.jcpTable tag) s fun t =>
          (tab t k).running = 1 ∧ (tab t k).tag = some tag) ∧
      (ready s tag.val 0x30 = some c → c.nvLen ≠ 0 → bufferAt (c.cw 5).toNat c.nvLen ≠ none →
        readCode s.flash c.part c.nvOff c.nvLen = 0 → Yields (.jcpNvRead tag) s fun t => result c (0, 0, c.cw 4, 0) t ∧
          ∃ d m, cmdOf t c.tag = some d ∧ d.move = some m ∧ m.cells = partCells s.flash c.part c.nvOff c.nvLen) ∧
      (ready s tag.val 0x31 = some c → c.part ≠ 1 → c.nvLen ≠ 0 → bufferAt (c.cw 5).toNat c.nvLen ≠ none → Yields (.jcpNvWrite tag) s fun t => result c (1, 6, 0, 0) t ∧ t.flash = s.flash) ∧
      (∀ src, ready s tag.val 0x31 = some c → c.part = 1 → c.nvLen ≠ 0 → bufferAt (c.cw 5).toNat c.nvLen = some src →
        writeCode s.flash 1 c.nvOff c.nvLen = 0 → s.bore.badPar = [] → imageOk (cellsFrom s.bore.mem src c.nvLen 0) c.nvOff c.nvLen = true →
        Yields (.jcpNvWrite tag) s fun t => t.flash.pending.length = s.flash.pending.length + 1 ∧ t.flash.cal = s.flash.cal)) ∧
    (∀ (tag : Tag) c sct sc d0 d1, cmdOf s tag.val = some c → c.stage = .mgmt → coreRuns s = true →
      c.res = some (sct, sc, d0, d1) → c.move = none → c.cq = some (sqCq s c.sq) → sct < 8 → sc < 256 → Yields (.mgmtComplete tag) s (done c sct sc)) ∧
    (∀ (tag : Tag) c, cmdOf s tag.val = some c → mgmtOp c.opc = true → coreRuns s = true →
      let due := c.since + max (regFld s (ro pgCMDQ 0x40) 0 8) 1 * 1200000
      (c.stage = .mgmt → c.cq = some (sqCq s c.sq) → due ≤ s.now → Yields (.mgmtTimeout tag) s (done c 0 0x0A)) ∧
      (s.now < due → Yields (.mgmtTimeout tag) s fun t => t = s)) ∧
    (∀ (tag : Tag) c, cmdOf s tag.val = some c → mgmtOp c.opc = true → coreRuns s = false →
      ((c.stage = .mgmt ∧ c.cq = some (sqCq s c.sq)) ∨ (c.stage = .released ∧ c.cq = none ∧ 0 < cqFree s (sqCq s c.sq))) →
      Yields (.coreUnavailable tag) s (done c 0 8))

/-- Conversions, delays, start-up, modes, triggers, urgent and housekeeping conversions of a reed. On a free-running reed that
nothing holds, without an insert due and with the sequencers live, an invalid output is discarded and counted, with no word of
failing parity in the Bore, and a delivered one enters its accumulator, corrected and saturated, with one conversion fewer
left. An urgent conversion that ends clears its request, with no calibration running. An entry's DELAY that has passed starts
the conversion with the coefficient of that moment, as start-up done does; none starts earlier. A mode write without reserved
codes reaches every reed in the scope of MS_REED_IDX and no other, DRV_ARM powers and arms them, DRV_DISARM disarms them. A
trigger of the reed's source (the timer's after its period, the strobe's after its delay) makes a pass pending while the reed
is busy, counts an overrun when one is pending, and takes the pending mark of a waiting reed. MS_TRIG_OVERRUN is read and
cleared. An urgent request without reserved codes waits for the running conversion, starts at once on a waiting powered reed,
and is refused while one is held. At its time a housekeeping round adds four conversions to every reed that owes none and
marks the others late; a write of MS_OPEN clears the marks that are not live. (08_monitor_conversion.md) -/
def Obligations.ReedSequencers : Prop :=
  ∀ (s : State) (r : Reed), let x := reed s r.val
    (∀ raw ovr, x.seq = .convert → x.conv.free = true → x.invalid ≠ 0 → x.mode ≠ 0 → x.heldOff = false → insertDue x = false →
      seqLive s = true → s.bore.badPar = [] → Yields (.conversionEnd r raw ovr) s fun t => let a := r.val * 64 + x.conv.acc.toNat
        reed t r.val = { x with invalid := x.invalid - 1 } ∧ SameOutputs s t ∧
        fld (accWord t a 3) 0 8 = min (fld (accWord s a 3) 0 8 + 1) 255 ∧ accWord t a 0 = accWord s a 0) ∧
    (∀ raw ovr, x.seq = .convert → x.conv.free = true → x.invalid = 0 → x.mode ≠ 0 → x.heldOff = false → insertDue x = false →
      seqLive s = true → 1 < x.left.toNat → Yields (.conversionEnd r raw ovr) s fun t =>
        (reed t r.val).seq = .convert ∧ (reed t r.val).left = x.left - 1 ∧ SameOutputs s t ∧
        let v := fullScale raw ovr
        ∀ a, boreByte t a = boreByte (accEnter s (r.val * 64 + x.conv.acc.toNat)
          (if v.2 || x.conv.owc != 0 then v.1 else corrected 24 x.coef v.1) v.2) a) ∧
    (∀ raw ovr, x.seq = .insert → x.insUrgent = true → s.cal.run = none → Yields (.conversionEnd r raw ovr) s fun t =>
      (reed t r.val).urgent = none ∧ (reed t r.val).insUrgent = false ∧
      regFld t (ro pgMEAS 0x78) 16 16 = (regFld s (ro pgMEAS 0x78) 16 16 + 1) % 65536 ∧ SameOutputs s t) ∧
    (s.now < x.delayDue → Yields (.seqDelayExpired r) s fun t => t = s) ∧
    (x.seq = .delay → x.heldOff = false → x.delayDue ≤ s.now → Yields (.seqDelayExpired r) s fun t => (reed t r.val).seq = .convert ∧
      (reed t r.val).coef = convCoef s r.val x.conv ∧ (reed t r.val).powered = true ∧ SameBore s t ∧ t.chans = s.chans) ∧
    (x.seq ∈ [.off, .wait, .delay] → domOn s 11 = true → Yields (.modulatorPowerUp r) s fun t =>
      reed t r.val = { x with powered := true } ∧ SameBore s t ∧ t.chans = s.chans) ∧
    (x.seq = .startup → x.heldOff = false → x.startInsert = false → Yields (.startupDone r) s fun t =>
      (reed t r.val).seq = .convert ∧ (reed t r.val).powered = true ∧
      (reed t r.val).invalid = (if x.conv.free then 3 else 0) ∧ SameBore s t ∧ t.chans = s.chans) ∧
    (∀ fn v, mayWrite s fn pgMEAS 0x58 1 = true → fld v 0 2 ≠ 3 → fld v 2 2 ≠ 3 → Yields (.seqModeWrite fn v) s fun t =>
      ((r.val ∈ reedScope s) → (reed t r.val).cfg = BitVec.ofNat 5 (fld v 0 2 + 4 * fld v 2 2 + 16 * fld v 4 1)) ∧
      (r.val ∉ reedScope s → reed t r.val = x) ∧ SameOutputs s t) ∧
    (∀ fn, mayWrite s fn pgMEAS 0x64 1 = true →
      Yields (.msTrigDrvArm fn) s (fun t => (r.val ∈ reedScope s → reed t r.val = { x with drvArmed := true, powered := true }) ∧
        (r.val ∉ reedScope s → reed t r.val = x) ∧ SameBore s t) ∧
      Yields (.msTrigDrvDisarm fn) s (fun t =>
        (r.val ∈ reedScope s → (reed t r.val).drvArmed = false ∧ (reed t r.val).drvDue = []) ∧
        (r.val ∉ reedScope s → reed t r.val = x) ∧ SameBore s t)) ∧
    (∀ fn src c, ((c = .msTrigSoft fn ∧ src = 0 ∧ mayWrite s fn pgMEAS 0x64 1 = true ∧ r.val ∈ reedScope s) ∨
        (c = .reedTimerTrigger r ∧ src = 1 ∧ x.timerDue ≤ s.now) ∨
        (c = .driveTrigger r ∧ src = 2 ∧ x.drvArmed = true ∧ ∃ at' rest, x.drvDue = at' :: rest ∧ at' + x.drvDelay.toNat ≤ s.now)) →
      x.mode = 2 → x.tsrc = src → seqLive s = true → x.contained = false →
      (x.seq ≠ .wait → x.trigPend = false → Yields c s fun t => (reed t r.val).trigPend = true ∧ (reed t r.val).seq = x.seq) ∧
      (x.seq ≠ .wait → x.trigPend = true → Yields c s fun t => (reed t r.val).trigPend = true ∧
        (reed t r.val).overrun.toNat = min (x.overrun.toNat + 1) 65535) ∧
      (x.seq = .wait → x.heldOff = false → Yields c s fun t => (reed t r.val).trigPend = false ∧ (reed t r.val).overrun = x.overrun)) ∧
    (x.mode = 2 → x.tsrc = 1 → s.now < x.timerDue → Yields (.reedTimerTrigger r) s fun t => t = s) ∧
    (∀ fn, mayRead s fn pgMEAS 0x6C = true → Yields (.msTrigOverrunRead fn) s fun t =>
      t.host.rdata = BitVec.ofNat 32 (reed s (reedIdx s)).overrun.toNat ∧
      reed t (reedIdx s) = { reed s (reedIdx s) with overrun := 0 }) ∧
    (∀ fn v, mayWrite s fn pgMEAS 0x74 1 = true → urgentOk v = true → let u := reed s (fld v 0 10)
      (u.urgent = none → u.heldOff = false → u.seq = .convert → Yields (.msUrgentWrite fn v) s fun t =>
        (reed t (fld v 0 10)).seq = .convert ∧ ((reed t (fld v 0 10)).urgent.map (·.input.toNat)) = some (fld v 10 6) ∧
        regFld t (ro pgMEAS 0x78) 12 2 = 1) ∧
      (u.urgent = none → u.heldOff = false → u.seq = .wait → u.powered = true → seqLive s = true → Yields (.msUrgentWrite fn v) s fun t =>
        (reed t (fld v 0 10)).seq = .insert ∧ (reed t (fld v 0 10)).ins.input.toNat = fld v 10 6) ∧
      (u.urgent ≠ none → Yields (.msUrgentWrite fn v) s fun t => reed t (fld v 0 10) = u ∧ regFld t (ro pgMEAS 0x78) 12 2 = 2)) ∧
    (seqLive s = true → hkDueAt s ≤ s.now → Yields .hkRoundDue s fun t =>
      (x.hkOwed = 0 → (reed t r.val).hkOwed = 4) ∧
      (x.hkOwed ≠ 0 → (reed t r.val).hkLate = true ∧ (reed t r.val).hkOwed = x.hkOwed) ∧ t.hkAt = hkDueAt s ∧ SameBore s t) ∧
    (s.now < hkDueAt s → Yields .hkRoundDue s fun t => t = s) ∧
    (∀ fn v, mayWrite s fn pgMEAS 0x7C 1 = true → Yields (.msOpenClear fn v) s fun t => let o := reed s (reedIdx s)
      reed t (reedIdx s) = { o with opens := o.opens &&& ~~~ (BitVec.ofNat 16 (fld v 0 16) &&& ~~~ o.openLive) } ∧ SameBore s t)

/-- What a sample, a parity failure and the ACC page do to an accumulator. With no word of the Bore failing, stuck or under an
injection, for an accumulator that is neither held nor marked to restart: in block mode a sample adds to the sum, and the last
of 2^SHIFT samples writes the rounded mean with SEQ one higher and VALID 1; in filter mode each sample moves the state of a
valid accumulator by 1/2^SHIFT of the difference; no byte of another accumulator changes. A parity failure leaves VALID, FILL
and SEQ at 0 and DISC one higher. AC_CFG reaches the scope of AC_IDX alone and marks it to restart; RESTART leaves VALID and
SEQ at 0 and the trackers cleared, and, with no word of failing parity, TRK_CLR the trackers cleared and DISC_CLR a count of
0, each in every accumulator of the scope. No output moves. (09_accumulators_meters.md) -/
def Obligations.Accumulators : Prop :=
  ∀ (s : State),
    (∀ (r : Reed) (k : Fin 64) (v : Int) ovr, let i := r.val * 64 + k.val
      let x := satI 24 v
      let sh := (accCfg s i).toNat % 16
      let fill := fld (accWord s i 3) 8 8
      let sum := tabGet (fun _ => (0 : Int)) s.accs.sum i
      domOn s 4 = true → s.accs.held.contains i = false → s.accs.restart.contains i = false → BoreSound s →
      ((accCfg s i).getLsbD 4 = false → fill + 1 = 2 ^ sh → Yields (.accSample r k v ovr) s fun t =>
        fld (accWord t i 0) 0 24 = unsigned 24 (((if fill = 0 then 0 else sum) + x + 2 ^ (sh - 1)) / 2 ^ sh) ∧
        accSeq t i = (accSeq s i + 1) % 256 ∧ accValid t i = true ∧ fld (accWord t i 3) 8 8 = 0 ∧ SameOutputs s t) ∧
      ((accCfg s i).getLsbD 4 = false → fill + 1 ≠ 2 ^ sh → Yields (.accSample r k v ovr) s fun t =>
        accWord t i 0 = accWord s i 0 ∧ fld (accWord t i 3) 8 8 = (fill + 1) % 256 ∧
        tabGet (fun _ => (0 : Int)) t.accs.sum i = (if fill = 0 then 0 else sum) + x ∧ t.chans = s.chans) ∧
      ((accCfg s i).getLsbD 4 = true → accValid s i = true → Yields (.accSample r k v ovr) s fun t =>
        fld (accWord t i 0) 0 24 = unsigned 24 ((sum + (x * 256 - sum) / 2 ^ sh + 128) / 256) ∧
        accSeq t i = (accSeq s i + 1) % 256 ∧ accValid t i = true ∧ SameOutputs s t) ∧
      Yields (.accSample r k v ovr) s (fun t => ∀ a, (a < accAddr i ∨ accAddr i + 16 ≤ a) → boreByte t a = boreByte s a)) ∧
    (∀ (r : Reed) (k : Fin 64), let i := r.val * 64 + k.val
      domOn s 4 = true → Yields (.accParityRestart r k) s fun t =>
        accValid t i = false ∧ accSeq t i = 0 ∧ fld (accWord t i 3) 8 8 = 0 ∧
        fld (accWord t i 3) 0 8 = min (fld (accWord s i 3) 0 8 + 1) 255 ∧
        regFld t (ro pgACC 0x4C) 0 16 = (regFld s (ro pgACC 0x4C) 0 16 + 1) % 65536 ∧ t.chans = s.chans) ∧
    (∀ fn v, mayWrite s fn pgACC 0x44 1 = true → Yields (.acCfgWrite fn v) s fun t => SameBore s t ∧ t.chans = s.chans ∧
      ∀ i, (i ∈ accScope s → accCfg t i = accCfgWord (accCfg s i) v ∧ t.accs.restart.contains i = true) ∧
        (i ∉ accScope s → accCfg t i = accCfg s i)) ∧
    (∀ fn, mayWrite s fn pgACC 0x48 1 = true →
      Yields (.acRestart fn) s (fun t => t.chans = s.chans ∧ ∀ i ∈ accScope s, accValid t i = false ∧ accSeq t i = 0 ∧
        accWord t i 1 = minClear ∧ accWord t i 2 = maxClear) ∧
      (s.bore.badPar = [] → Yields (.acTrkClr fn) s fun t => t.chans = s.chans ∧ ∀ i ∈ accScope s, accWord t i 0 = accWord s i 0 ∧
        accWord t i 1 = minClear ∧ accWord t i 2 = maxClear ∧ bit (accWord t i 3) 18 = false) ∧
      (s.bore.badPar = [] → Yields (.acDiscClr fn) s fun t => t.chans = s.chans ∧ ∀ i ∈ accScope s, accWord t i 0 = accWord s i 0 ∧
        fld (accWord t i 3) 0 8 = 0))

/-- CL_DATA and the system calibration. A read of CL_DATA returns the coefficient of CL_IDX, 0 beyond the last, and AUTOINC
advances the index; a write with GAIN in range changes that coefficient alone, one with GAIN out of range changes none. While
CAL is not BUSY, SC_ZERO and SC_FULL start a run of 2^NLOG samples on a monitor or heater-voltage index, and end with 6 on any
other. A run with its samples made and no over-range sets its coefficient alone: a zero run the mean as OFFSET, where 16 bits
hold it, a full-scale run the GAIN that its samples give, where it is in range; one that waits for samples goes on; an
over-range ends it with 5, and 10 ms with the reed held or its urgent request taken with 7, leaving the coefficient.
(09_accumulators_meters.md, 18_register_pages.md) -/
def Obligations.Coefficients : Prop :=
  ∀ (s : State) (fn : Fn), let i := coefIdx s
    (mayRead s fn pgCAL 0x44 = true → Yields (.clDataAccess fn none) s fun t =>
      t.host.rdata = (if coefCount ≤ i then 0 else coef s i) ∧ t.cal = s.cal ∧
      coefIdx t = (if bit (getReg s (ro pgCAL 0x40)) 24 = false then i else if i = 167935 then 0 else (i + 1) % 2 ^ 18)) ∧
    (∀ v, mayWrite s fn pgCAL 0x44 (if chanCoef i then 0 else 1) = true →
      (i < coefCount → gainOk (fld v 0 16) = true → Yields (.clDataAccess fn (some v)) s fun t =>
        ∀ j, coef t j = if j = i then v else coef s j) ∧
      (gainOk (fld v 0 16) = false → Yields (.clDataAccess fn (some v)) s fun t => t.cal = s.cal ∧ t.tabs = s.tabs)) ∧
    (∀ (c : Instr) (full : Bool), ((c = .clScZero fn ∧ full = false) ∨ (c = .clScFull fn ∧ full = true)) →
      mayWrite s fn pgCAL 0x48 1 = true → tabBusy s kCL = false →
      (i ≤ 98303 → Yields c s fun t => tabBusy t kCL = true ∧ t.cal.coef = s.cal.coef ∧ ∃ q, t.cal.run = some q ∧
        q.full = full ∧ q.idx = i ∧ q.total = 2 ^ regFld s (ro pgCAL 0x4C) 0 4 ∧ q.samples = []) ∧
      (98303 < i → Yields c s fun t => t.cal = s.cal ∧ (tab t kCL).lastErr = 6)) ∧
    (∀ q (idx : BitVec 18), s.cal.run = some q → idx.toNat = q.idx →
      (q.ovr = false → q.samples.length < q.total → Yields (.clScDone idx q.full) s fun t => t = s) ∧
      (q.ovr = true → Yields (.clScDone idx q.full) s fun t => t.cal.run = none ∧ (tab t kCL).lastErr = 5 ∧ t.cal.coef = s.cal.coef) ∧
      (q.ovr = false → q.total ≤ q.samples.length →
        let m := roundDiv (q.samples.foldl (· + ·) 0) (max q.samples.length 1)
        (q.full = false → -32768 ≤ m → m ≤ 32767 → Yields (.clScDone idx q.full) s fun t => t.cal.run = none ∧ (tab t kCL).lastErr = 0 ∧
          fld (coef t q.idx) 16 16 = unsigned 16 m ∧ fld (coef t q.idx) 0 16 = fld (coef s q.idx) 0 16 ∧
          ∀ k, k ≠ q.idx → coef t k = coef s k) ∧
        (∀ w, q.full = true →
          scResult (coef s q.idx) true (signed 24 (regFld s (ro pgCAL 0x50) 0 24)) q.samples false = .inl w →
          Yields (.clScDone idx q.full) s fun t => t.cal.run = none ∧ (tab t kCL).lastErr = 0 ∧ coef t q.idx = w ∧
            ∀ k, k ≠ q.idx → coef t k = coef s k)) ∧
      (let x := reed s (scReed q.idx);
        (x.heldOff = true ∨ (x.urgent ≠ none ∧ x.urgCal = false)) → q.since + 12000000 ≤ s.now →
        Yields .clScUrgentTimeout s fun t => t.cal.run = none ∧ (tab t kCL).lastErr = 7 ∧ t.cal.coef = s.cal.coef))

/-- What the meter commands of the feed die do to results, energies, settings and coefficients. With the feed supply present: the
end of a period writes the corrected results of all eight channels with SEQ one higher and the mean power of A, and the next
period takes the period and coefficients then in the registers. Each corrected product adds its energy, a negative one none,
and enters the average of A, and of the registers a sample changes FD_INST and SH_RATIO alone. A period from 1 to 1000 is held
for the next period; E_CLR clears the pairs it names, a read of a low word takes the high word into its shadow; a calibration
step starts unless one runs, which refuses it with 4, and with its NPER results it ends with 5 on an over-range and else with
the coefficient that they give. No feed or rail moves. (09_accumulators_meters.md) -/
def Obligations.Meters : Prop :=
  ∀ s : State, s.fd.supply = true →
    (∀ raw ovr ho, Yields (.meterPeriodEnd raw ovr ho) s fun t => SameFeedGates s t ∧ t.fd.energyA = s.fd.energyA ∧
      (∀ c, c < 8 → regFld t (mtRes c) 0 22 = unsigned 22 (meterCode (mtCoef s c) ((raw[c]?).getD 0) (ovr.getLsbD c)) ∧
        bit (getReg t (mtRes c)) 24 = ovr.getLsbD c ∧ mtCoef t c = getReg s (mtCal c)) ∧
      regFld t (ro pgMETER 0x48) 0 16 = (regFld s (ro pgMETER 0x48) 0 16 + 1) % 65536 ∧
      getReg t (ro pgMETER 0x70) = BitVec.ofNat 32 (meanMw s.fd.pSumA s.fd.pCount) ∧ t.fd.pCount = 0 ∧
      t.fd.periodMs.toNat = regFld s (ro pgMETER 0x44) 0 10) ∧
    (∀ a b ib, let pa := (feedPower (viCorrected s 0 1 a)).toNat; let pb := (feedPower (viCorrected s 2 3 b)).toNat
      let pi := (ibPower (viCorrected s 4 5 ib)).toNat
      Yields (.powerSample a b ib) s fun t => SameFeedGates s t ∧
      (∀ off, off ≠ ro 0x101 0x60 → off ≠ ro 0x102 0x60 → off ≠ ro pgSHARE 0x48 → getReg t off = getReg s off) ∧
      t.fd.energyA = (s.fd.energyA + (s.fd.remA + pa) / 51200000000) % 2 ^ 64 ∧ t.fd.remA = (s.fd.remA + pa) % 51200000000 ∧
      t.fd.energyB = (s.fd.energyB + (s.fd.remB + pb) / 51200000000) % 2 ^ 64 ∧ t.fd.remB = (s.fd.remB + pb) % 51200000000 ∧
      t.fd.energyIb = (s.fd.energyIb + (s.fd.remIb + pi) / 51200000000) % 2 ^ 64 ∧ t.fd.remIb = (s.fd.remIb + pi) % 51200000000 ∧
      t.fd.pSumA = s.fd.pSumA + feedPower (viCorrected s 0 1 a) ∧ t.fd.pCount = s.fd.pCount + 1) ∧
    (∀ v, 1 ≤ fld v 0 10 → fld v 0 10 ≤ 1000 → Yields (.mtPeriodWrite 0x044 v) s fun t =>
      regFld t (ro pgMETER 0x44) 0 10 = fld v 0 10 ∧ t.fd.periodMs = s.fd.periodMs ∧ SameFeedGates s t) ∧
    (∀ p : Fin 3, Yields (.mtELoRead p) s fun t => t.host.rdata = BitVec.ofNat 32 (energyOf s p.val) ∧
      tabGet (fun _ => (0 : Word)) t.fd.eShadow p.val = BitVec.ofNat 32 (energyOf s p.val / 2 ^ 32) ∧ t.regs = s.regs ∧ SameFeedGates s t) ∧
    (∀ m, Yields (.mtEClr m) s fun t => regFld t (ro pgMETER 0x40) 9 3 = m.toNat ∧ SameFeedGates s t ∧ ∀ p : Fin 3, energyOf t p.val = if m.getLsbD p.val then 0 else energyOf s p.val) ∧
    (∀ (ch : Fin 8) n (full : Bool) (c : Instr), ((c = .mtScZero ch n ∧ full = false) ∨ (c = .mtScFull ch n ∧ full = true)) →
      (s.fd.mtSc = none → Yields c s fun t => t.fd.mtSc = some (ch.val, full, max n.toNat 1) ∧
        bit (getReg t (ro pgMETER 0xC8)) 0 = true ∧ SameFeedGates s t) ∧
      (s.fd.mtSc ≠ none → Yields c s fun t => t.fd.mtSc = s.fd.mtSc ∧ regFld t (ro pgMETER 0xC8) 1 4 = 4 ∧ SameFeedGates s t)) ∧
    (∀ c full n l, c < 8 → s.fd.mtSc = some (c, full, n) → l.length = n →
      Yields (.mtScDone l true) s (fun t => t.fd.mtSc = none ∧ regFld t (ro pgMETER 0xC8) 1 4 = 5 ∧
        getReg t (mtCal c) = getReg s (mtCal c) ∧ SameFeedGates s t) ∧
      (∀ w, scResult (getReg s (mtCal c)) full (signed 22 (regFld s (ro pgMETER 0xC4) 0 22)) l false = .inl w →
        Yields (.mtScDone l false) s fun t => t.fd.mtSc = none ∧ regFld t (ro pgMETER 0xC8) 1 4 = 0 ∧
          getReg t (mtCal c) = w ∧ SameFeedGates s t))

/-- Evaluation, limits, staleness, the end of the settle hold and the status of the element loops. While no word of the Bore fails
its parity: a loop that R331 does not let act, that has a lower lane of its reed to wait for or that a higher source has
outranked in this cycle changes nothing. Any other counts its evaluation, changes no other channel, and a code within 0 to
65,535 and BASE ± TRIM_MAX stays within; where neither limit nor cap cuts it, the code moves by exactly the Δ of R332.
LOOP_STALE marks a loop that can act once 10 ms have passed without an evaluation and leaves it alone before; the end of the
settle hold, LP_SETTLE after the last tongue of a frozen reed, thaws the reed and makes the next Δ of each looped channel the
first; and a read of LP_CH_STAT returns the channel of LP_CH_IDX and advances it with AUTOINC. (10_element_loops.md) -/
def Obligations.ElementLoops : Prop :=
  ∀ (s : State),
    (∀ ch : Chan, let l := loopCh s ch.val
      let c := chan s ch.val
      let base : Int := l.base.toNat
      let most : Int := regFld s (ro pgLOOP (0xE0 + 4 * l.gsel)) 0 12
      let d := loopDelta (getReg s (ro pgLOOP (0xC0 + 4 * l.gsel))) l.sign
        ((loopTarget l : Int) - loopQ l.isAbs (loopA s ch.val) (loopB s ch.val))
      let acts := loopReady s ch.val && !lowerLane s ch.val && !outranks s c 1
      (s.bore.badPar = [] → acts = false → Yields (.loopEvaluate ch) s fun t => t = s) ∧
      (s.bore.badPar = [] → acts = true → Yields (.loopEvaluate ch) s fun t => OtherChans ch.val s t ∧ SameBore s t ∧ SameFeedGates s t ∧
        (loopCh t ch.val).updates.toNat = min (l.updates.toNat + 1) 65535 ∧
        (base - most ≤ c.code.toNat → (c.code.toNat : Int) ≤ base + most →
          base - most ≤ (chan t ch.val).code.toNat ∧ ((chan t ch.val).code.toNat : Int) ≤ base + most)) ∧
      (s.bore.badPar = [] → acts = true → d ≠ 0 → loopLimit l.base.toNat (regFld s (ro pgLOOP (0xE0 + 4 * l.gsel)) 0 12) (c.code.toNat + d) =
          c.code.toNat + d → capDelta (tileNet s (ch.val / 1024)) (regFld s (ro pgLOOP 0x4C) 0 7 * mA) (lsb c.range) d = d →
        Yields (.loopEvaluate ch) s fun t => ((chan t ch.val).code.toNat : Int) = c.code.toNat + d ∧ (chan t ch.val).src = 3 ∧
          regFld t (ro pgLOOP 0x78) 0 32 = (regFld s (ro pgLOOP 0x78) 0 32 + 1) % 2 ^ 32) ∧
      (looped l = true → loopFrozen s (ch.val / 32) = false → loopHeld s (ch.val / 32) = false → loopEn s = true → l.stale = false →
        l.quietFrom + 12000000 ≤ s.now →
        Yields (.loopStale ch) s fun t => loopCh t ch.val = { l with stale := true } ∧ t.chans = s.chans) ∧
      (s.now < l.quietFrom + 12000000 → Yields (.loopStale ch) s fun t => t = s)) ∧
    (∀ r : Reed, (reed s r.val).frozen = true →
      (reed s r.val).settleFrom + regFld s (ro pgLOOP 0x44) (if (reed s r.val).freezePlain then 16 else 0) 8 * 1200 ≤ s.now →
      (∀ e ∈ s.chans, e.1 / 32 = r.val → e.2.tongue = none ∧ e.2.waiting = none) →
      Yields (.settleHoldEnd r) s fun t => (reed t r.val).frozen = false ∧ t.chans = s.chans ∧ SameBore s t ∧
        ∀ ch, ch / 32 = r.val → looped (loopCh s ch) = true → (loopCh t ch).firstPend = true) ∧
    (∀ fn, mayRead s fn pgLOOP 0x5C = true → Yields (.lpChStatRead fn) s fun t => t.host.rdata = loopStatWord s (loopIdx s) ∧
      loopIdx t = (if bit (getReg s (ro pgLOOP 0x54)) 16 then (loopIdx s + 1) % 32768 else loopIdx s))

/-- The band, the thermal request, the diodes and the threshold, kernel and class writes. After a model update the band is the one
that R375 gives for the new T_th, the request has not fallen and is at least L1 from THROTTLE on, at least L7 from PARK on and
L8 with T_SHUT latched from SHUT on. SHUT_WAIT_EXPIRED sends STOP once SHUT_WAIT_MS have passed without its acceptance.
THERM_CLIMB raises the request by one, up to L6, once T_th has stood at THROTTLE or above for CLIMB_S; THERM_HOLD_FALL takes
it to the level of the table once nothing holds it, L0 below the hysteresis of THROTTLE, and does nothing while a latched
T_SHUT, an invalid model, a suspect diode or time holds it. An over-range or invalid reading takes a diode from OK to RANGE,
and a clear brings it back once the cause is gone. TP_THRESH takes allowed words alone, TH_K_DATA changes its kernel word
alone, and the indexed reads return what they name. (11_thermal_model.md) -/
def Obligations.ThermalRequest : Prop :=
  ∀ (s : State),
    (domOn s 10 = true → Yields .modelUpdate s fun t => t.thermal.updated = true ∧ t.chans = s.chans ∧ SameFeedGates s t ∧
      t.thermal.band = bandNext t.thermal.tth s.thermal.band ∧ s.thermal.req.val ≤ t.thermal.req.val ∧
      ((tThrottle s : Rat) ≤ t.thermal.tth → 1 ≤ t.thermal.req.val) ∧ ((tPark s : Rat) ≤ t.thermal.tth → 7 ≤ t.thermal.req.val) ∧
      ((tShut s : Rat) ≤ t.thermal.tth → t.thermal.req = 8 ∧ t.thermal.shutLatched = true)) ∧
    (s.thermal.stopAsked = true → stopAccepted s = false → s.thermal.stopAt + max (regFld s (ro pgTEMP 0x40) 16 8) 5 * 1200000 ≤ s.now → idlUp s = true → s.idl.wrWait = [] → s.idl.heldAcc = [] → Yields .shutWaitExpired s fun t =>
      t.idl.wrWait = [{ off := BitVec.ofNat 15 (ro pgPSEQ 0x40), fn := 3, data := some 1 }] ∧ t.chans = s.chans) ∧
    (∀ from', s.thermal.updated = true → s.thermal.climbFrom = some from' → from' + climbCc s ≤ s.now → s.thermal.invalidRaised = false →
      s.thermal.shutLatched = false → s.thermal.req.val < 6 → Yields .thermClimb s fun t =>
        t.thermal.req.val = s.thermal.req.val + 1 ∧ t.thermal.climbFrom = some s.now ∧ t.chans = s.chans) ∧
    (let held := s.thermal.shutLatched = true ∨ s.thermal.invalid ≠ 0 ∨ anySuspect s = true ∨ holdLeft s ≠ 0;
      (held → Yields .thermHoldFall s fun t => t = s) ∧
      (¬ held → Yields .thermHoldFall s fun t => t.thermal.req.val = tableLevel s ∧ t.thermal.req.val ≤ s.thermal.req.val ∧
        (s.thermal.tth < (tPark s : Rat) → s.thermal.tth < (tThrottle s : Rat) - 2 → t.thermal.req = 0) ∧
        t.thermal.invalidRaised = false ∧ t.chans = s.chans)) ∧
    (s.bore.badPar = [] → domOn s 10 = true → domOn s 11 = true → Yields .diodeRound s fun t => t.chans = s.chans ∧ SameBore s t ∧
      ∀ j : Fin 64, ((diode s j.val).state = .ok → (accOvr s (diodeAcc j.val) = true ∨ accValid s (diodeAcc j.val) = false) →
          diodeNew s j.val = true → (diode t j.val).state = .range) ∧
        ((diode s j.val).state = .failed → (diode t j.val).state = .failed)) ∧
    (∀ fn (j : Fin 64), mayWrite s fn pgTEMP 0x48 0 = true → let d := diode s j.val
      ((d.state = .failed ∨ d.state = .range) → d.disagree = false → d.bad = false → Yields (.tpDiodeClr fn j) s fun t =>
        diode t j.val = { d with state := .ok, count := 0 } ∧ ∀ i, i ≠ j.val → diode t i = diode s i) ∧
      ((d.disagree = true ∨ d.bad = true) → Yields (.tpDiodeClr fn j) s fun t => t.thermal = s.thermal)) ∧
    (∀ fn v, mayWrite s fn pgTEMP 0x44 0 = true → Yields (.tpThreshWrite fn v) s fun t => t.thermal = s.thermal ∧
      getReg t (ro pgTEMP 0x44) = if threshOk v then v &&& 0xFF_FFFF else getReg s (ro pgTEMP 0x44)) ∧
    (∀ fn v, mayWrite s fn pgTHM 0x54 1 = true →
      (kernelWordOk (kIdx s) v = true → Yields (.thKDataWrite fn v) s fun t => (tab t kTH).dirty = 1 ∧ t.chans = s.chans ∧
        ∀ i, tabGet kDefault t.thermal.kernels i = if i = kIdx s then v else tabGet kDefault s.thermal.kernels i) ∧
      (kernelWordOk (kIdx s) v = false → Yields (.thKDataWrite fn v) s fun t => t.thermal.kernels = s.thermal.kernels ∧ t.tabs = s.tabs)) ∧
    (∀ fn (j : Fin 4) v, mayWrite s fn pgTHM (0x80 + 4 * j.val) 1 = true → Yields (.thTileClassWrite fn j v) s fun t =>
      getReg t (ro pgTHM (0x80 + 4 * j.val)) = v ∧ (tab t kTH).dirty = 1 ∧ t.chans = s.chans) ∧
    (∀ fn, s.thermal.badKernels.contains (kIdx s) = false → mayRead s fn pgTHM 0x54 = true → Yields (.thKDataRead fn) s fun t =>
      t.host.rdata = tabGet kDefault s.thermal.kernels (kIdx s) ∧
      kIdx t = if bit (getReg s (ro pgTHM 0x50)) 16 then (kIdx s + 1) % 2048 else kIdx s) ∧
    (∀ fn, mayRead s fn pgTHM 0x68 = true → Yields (.thElTempRead fn) s fun t => let ch := regFld s (ro pgTHM 0x64) 0 15
      fld t.host.rdata 0 16 = temp10 (tabGet (fun _ => 0) s.thermal.elT ch) ∧
      fld t.host.rdata 16 16 = tabGet (fun _ => 0) s.thermal.elP ch % 65536) ∧
    (∀ fn, mayRead s fn pgTHM 0x78 = true → Yields (.thNodeRead fn) s fun t =>
      fld t.host.rdata 0 16 = temp10 (nodeTemp s (regFld s (ro pgTHM 0x74) 0 5) (regFld s (ro pgTHM 0x74) 8 6)) ∧ t.thermal = s.thermal) ∧
    (∀ fn, mayRead s fn pgTEMP 0x60 = true → Yields (.tpDiodeERead fn) s fun t => let j := regFld s (ro pgTEMP 0x58) 0 6
      fld t.host.rdata 0 16 = temp10 (diode s j).e ∧ fld t.host.rdata 16 16 = temp10 (nodeTemp s (j / 2) (diodeNode j)) ∧
      t.thermal = s.thermal)

/-- Mount, codewords, blocks, rings, durability, scrubbing, quiesce and resume of the flash store. A mount goes from OFF through
MOUNT to READY, READ_ONLY or FAILED; reads, relocations and failed blocks count where their rules say; a metadata page makes
everything that waits durable and takes the next metadata sequence number, its two copies in their places; an append takes the
next sequence number and the next offset and is not durable before the metadata page, and to JOURNAL the core writes the
oldest record of its type that waits; quiesce makes everything durable and refuses what it does not admit, and a block reset
resumes from it; scrubbing takes its rate from the pages left, and a new pass takes over the codewords that owe one. Where the
clause says so the channels, the Bore or the flash store are as before. (14_flash_store.md, 11_thermal_model.md) -/
def Obligations.FlashStore : Prop :=
  ∀ (s : State),
    (∀ m torn fb, s.flash.state = .off → domOn s 9 = true → 2 ≤ s.boot.stage.val → Yields (.flashMount m torn fb) s fun t =>
      t.flash.state = .mount ∧ t.flash.medium = some m ∧ t.flash.pending = [] ∧ t.chans = s.chans) ∧
    (∀ ok ms m, s.flash.state = .mount → s.flash.medium = some m →
      (s.flash.laidOut = true → ok = false → Yields (.mountDone ok ms) s fun t => t.flash.state = .failed) ∧
      ((s.flash.laidOut = false ∨ ok = true) → Yields (.mountDone ok ms) s fun t =>
        t.flash.state = (if m.freeSpare ≤ 64 then .readOnly else .ready) ∧ t.flash.laidOut = true ∧
        t.flash.expMib = (if s.flash.laidOut then s.flash.expMib else exportedMib m.rawMb))) ∧
    (mounted s.flash = true →
      (∀ part lca bits band', Yields (.codewordRead part lca none bits band') s fun t =>
        regFld t (ro pgNVF 0x8C) 16 16 = (regFld s (ro pgNVF 0x8C) 16 16 + 1) % 65536 ∧ t.chans = s.chans ∧ SameBore s t) ∧
      (∀ part lca k bits band', regFld s (ro pgNVF 0x90) 0 10 < bits.toNat → Yields (.codewordRead part lca (some k) bits band') s fun t =>
        t.flash.relocs = s.flash.relocs ++ [some (part.toNat * 2 ^ 28 + lca.toNat)] ∧ t.chans = s.chans ∧ SameBore s t) ∧
      (∀ n hi lo x rest, s.flash.relocs = x :: rest → Yields (.relocationDone n hi lo) s fun t => t.flash.relocs = rest ∧
        regFld t (ro pgNVF 0x80) 16 16 = (regFld s (ro pgNVF 0x80) 16 16 + 1) % 65536 ∧ t.chans = s.chans) ∧
      (∀ b, Yields (.programFail b) s (fun t => t.flash.relocs = s.flash.relocs ++ [none] ∧
          regFld t (ro pgNVF 0x98) 16 16 = (regFld s (ro pgNVF 0x98) 16 16 + 1) % 65536 ∧
          regFld t (ro pgNVF 0x9C) 0 20 = regFld s (ro pgNVF 0x9C) 0 20 - 1) ∧
        Yields (.eraseFail b) s fun t => t.flash.relocs = s.flash.relocs ∧
          regFld t (ro pgNVF 0x98) 16 16 = (regFld s (ro pgNVF 0x98) 16 16 + 1) % 65536 ∧
          regFld t (ro pgNVF 0x9C) 0 20 = regFld s (ro pgNVF 0x9C) 0 20 - 1) ∧
      (∀ hi lo, regFld s (ro pgNVF 0x94) 0 12 < regFld s (ro pgNVF 0xA0) 0 16 - regFld s (ro pgNVF 0xA0) 16 16 →
        Yields (.wearLevelMove hi lo) s fun t => regFld t (ro pgNVF 0xA0) 0 16 = hi % 65536 ∧
          regFld t (ro pgNVF 0xA0) 16 16 = lo % 65536 ∧ t.chans = s.chans) ∧
      Yields .metadataDurable s (fun t => t.flash.pending = [] ∧ t.flash.state = s.flash.state ∧ t.chans = s.chans ∧
        ∀ m, s.flash.medium = some m → t.flash.mj.seq = s.flash.mj.seq + 1 ∧
          t.flash.mj.copies = some (metaPlaces m s.flash.mj.seq)) ∧
      Yields .ifRetrain s (fun t => regFld t (ro pgNVF 0x88) 4 11 = (if band s = 5 then 1200 else 1600) ∧ t.flash = s.flash) ∧
      (∀ left past, bit (getReg s (ro pgNVF 0x40)) 0 = true → band s ≠ 5 →
        let pass := scrubInterval (band s) * regFld s (ro pgNVF 0x40) 8 6 / 100
        let most := regFld s (ro pgNVF 0x78) 0 16 * 10
        (past < pass → Yields (.scrubRateUpdate left past) s fun t =>
          regFld t (ro pgNVF 0x7C) 0 20 = min ((left + (pass - past) - 1) / (pass - past)) most) ∧
        (pass ≤ past → Yields (.scrubRateUpdate left past) s fun t => regFld t (ro pgNVF 0x7C) 0 20 = most ∧ t.flash.overdue = true) ∧
        Yields .scrubPassEnd s (fun t => regFld t (ro pgNVF 0x80) 0 16 = (regFld s (ro pgNVF 0x80) 0 16 + 1) % 65536 ∧
          t.flash.overdue = false ∧ t.flash.passPages = 0 ∧ t.flash.coldPass = s.flash.coldDue ∧ t.flash.coldDue = [])) ∧
      (∀ n, band s = 5 → n ≠ 0 → Yields (.scrubDebt n) s fun t =>
        regFld t (ro pgNVF 0x84) 0 20 = min (regFld s (ro pgNVF 0x84) 0 20 + n.toNat) (2 ^ 20 - 1) ∧ t.chans = s.chans)) ∧
    (∀ (part : Fin 3) type l, coreRuns s = true → ringOpen s (part.val + 2) = true →
      let appended (t : State) (n : Nat) : Prop :=
        ringNext t.flash (part.val + 2) = ringNext s.flash (part.val + 2) + 16 + (n + 15) / 16 * 16 ∧
        tabGet (fun _ => (0 : Word)) t.flash.rseq (part.val + 2) = tabGet (fun _ => (0 : Word)) s.flash.rseq (part.val + 2) + 1 ∧
        ringHead t.flash (part.val + 2) = ringHead s.flash (part.val + 2) ∧ t.flash.pending.length = s.flash.pending.length + 1
      let waits := if part.val = 0 then s.flash.journalQ.find? (fun it => it.type == type) else none
      (waits = none → Yields (.ringAppend part type l) s fun t => appended t l.length ∧ t.flash.journalQ = s.flash.journalQ) ∧
      (∀ it, waits = some it → it.src = none → Yields (.ringAppend part type l) s fun t => appended t (4 * it.words.length) ∧
        t.flash.journalQ = s.flash.journalQ.erase it)) ∧
    (bit (getReg s (ro pgNVF 0x40)) 1 = true → coreRuns s = true →
      (∀ sections, s.bore.badPar = [] → level s = 0 → ringOpen s 3 = true → Yields (.telemetryInterval sections) s fun t =>
        regFld t (ro pgNVF 0xAC) 0 16 = (regFld s (ro pgNVF 0xAC) 0 16 + 1) % 65536 ∧
        t.flash.pending.length = s.flash.pending.length + 1) ∧
      (∀ sections, (level s ≠ 0 ∨ ringOpen s 3 = false) → Yields (.telemetryInterval sections) s fun t =>
        regFld t (ro pgNVF 0xAC) 16 16 = (regFld s (ro pgNVF 0xAC) 16 16 + 1) % 65536 ∧ t.flash = s.flash)) ∧
    (s.fd.capValid = true → s.fd.supply = true → coreRuns s = true → idlUp s = true → ringOpen s 4 = true →
      Yields .tripCaptureWrite s fun t => t.fd.capValid = false ∧ t.flash.pending.length = s.flash.pending.length + 1 ∧ SameFeedGates s t) ∧
    (∀ fn, mayWrite s fn pgNVF 0x44 0 = true →
      ((s.flash.state = .ready ∨ s.flash.state = .readOnly) → Yields (.nfQuiesce fn) s fun t => t.flash.state = .quiescing) ∧
      (s.flash.state ≠ .ready → s.flash.state ≠ .readOnly → Yields (.nfQuiesce fn) s fun t => t.flash = s.flash) ∧
      (s.flash.state = .quiesced → Yields (.nfResume fn) s fun t =>
        t.flash.state = if s.flash.readOnly then .readOnly else .ready) ∧
      (mounted s.flash = true → band s ≠ 5 → Yields (.nfScrubNow fn) s fun t => regFld t (ro pgNVF 0x7C) 20 10 = 0 ∧
        regFld t (ro pgNVF 0x7C) 0 20 = regFld s (ro pgNVF 0x78) 0 16 * 10)) ∧
    (s.flash.state = .quiescing → Yields .quiesceDone s fun t => t.flash.pending = [] ∧ t.chans = s.chans ∧
      t.flash.state = if s.flash.blkRun then (if s.flash.readOnly then .readOnly else .ready) else .quiesced)

/-- TG domains, causes, the ladder and its actions. An idle TG domain goes off with its valves blocked and its reeds unpowered,
one that is not idle stays on; coming on, every channel of it is at code 0 with AT_PARK. The causes rise and climb by their
rows when their times have passed, not while the link is down. The ladder climbs to the request, ends every pending commit
request from L3 on and parks every tile at L7; it descends one level at a time, 10 ms after the last change and after the
request fell below it, and not while the link is down. L6 parks the next class, an L8 whose STOP has not been accepted in time
sends it again, FLOOR acts at once, and a read of PW_MAXLVL clears it. (16_power_clocks.md, 06_commit_breath.md) -/
def Obligations.SheddingLadder : Prop :=
  ∀ (s : State),
    (∀ fn (k : Fin 8), mayWrite s fn pgPWR 0x58 0 = true →
      (domOn s (12 + k.val) = true → tgIdle s k.val = true → Yields (.tgDomainOff fn k) s fun t =>
        (∀ d, domOn t d = if d = 12 + k.val then false else domOn s d) ∧
        (∀ r, r / 128 = k.val → (reed t r).powered = false) ∧
        (∀ u, u / 4 = k.val → (tile t u).va = .blocked ∧ (tile t u).vb = .blocked)) ∧
      (domOn s (12 + k.val) = true → tgIdle s k.val = false → Yields (.tgDomainOff fn k) s fun t =>
        t.power = s.power ∧ t.chans = s.chans ∧ t.reeds = s.reeds) ∧
      (domOn s (12 + k.val) = false → Yields (.tgDomainOn fn k) s fun t => t.power.tgComing.getLsbD k.val = true ∧
        t.power.dom = s.power.dom ∧ t.chans = s.chans)) ∧
    (∀ k : Fin 8, s.power.tgComing.getLsbD k.val = true → Yields (.tgDomainOnDone k) s fun t => domOn t (12 + k.val) = true ∧
      (∀ ch, ch / 4096 = k.val → (chan t ch).code = 0 ∧ (chan t ch).atPark = true ∧ (chan t ch).tongue = none ∧
        (chan t ch).fuse = (chan s ch).fuse) ∧ ∀ ch, ch / 4096 ≠ k.val → chan t ch = chan s ch) ∧
    (idlUp s = true → ((s.power.feedRow = 3 ∧ s.power.feedReq.val < 8) ∨ (s.power.feedRow = 2 ∧ s.power.feedReq.val < 3)) →
      s.power.feedDue ≤ s.now → Yields (.causeClimb true) s fun t =>
      t.power = { s.power with feedReq := Fin.ofNat 9 (s.power.feedReq.val + 1), feedDue := climbDue s } ∧ t.chans = s.chans) ∧
    (idlUp s = true → 3 ≤ s.power.busReq.val → s.power.busReq.val < 8 → s.power.busDue ≤ s.now → Yields (.causeClimb false) s fun t =>
      t.power = { s.power with busReq := Fin.ofNat 9 (s.power.busReq.val + 1), busDue := climbDue s } ∧ t.chans = s.chans) ∧
    (∀ b, (idlUp s = false ∨ s.now < (if b then s.power.feedDue else s.power.busDue)) → Yields (.causeClimb b) s fun t => t = s) ∧
    (∀ from', idlUp s = true → s.power.busFrom = some from' → from' + 1200000 ≤ s.now → s.power.busReq = 0 → Yields .busSagHeld s fun t =>
      t.power = { s.power with busReq := 3, busDue := climbDue s }) ∧
    (s.power.coreReq ≠ 0 → s.power.coreAt + 120000000 ≤ s.now → Yields .coreCauseL8 s fun t =>
      t.power = { s.power with coreReq := 8 }) ∧
    (driveOn s = true → (s.power.refOk = false ∨ (s.power.unlocked = true ∧ s.power.unlockAt + 1200 ≤ s.now)) →
      Yields .clockCauseRise s fun t => t.power = { s.power with clockReq := 3 }) ∧
    (s.power.refOk = true → s.power.unlocked = false → s.power.clockGood + 12000000 ≤ s.now → Yields .clockCauseClear s fun t =>
      t.power = { s.power with clockReq := 0 }) ∧
    (driveOn s = true → floorReq s ≤ 8 → Yields .ladderClimb s fun t => level t = max (level s) (request s) ∧ t.chans = s.chans ∧
      SameFeedGates s t ∧ regFld t (ro pgPWR 0x4C) 0 16 = (regFld s (ro pgPWR 0x4C) 0 16 + (request s - level s)) % 65536 ∧
      (level s < 3 → 3 ≤ request s → ∀ k, k < 16 → req t k = none) ∧ (level s < 7 → 7 ≤ request s → t.park.lastCause = 4)) ∧
    (driveOn s = true → idlUp s = true → request s < level s → descentDue s = true → Yields .ladderDescend s fun t => level t + 1 = level s ∧
      regFld t (ro pgPWR 0x4C) 16 16 = (regFld s (ro pgPWR 0x4C) 16 16 + 1) % 65536 ∧ t.chans = s.chans) ∧
    ((idlUp s = false ∨ descentDue s = false) → Yields .ladderDescend s fun t => t = s) ∧
    (s.power.l6Due ≤ s.now → 6 ≤ level s → 6 ≤ request s → s.power.l6Running = true → s.power.l6Next.toNat ≤ 6 → Yields .l6Step s fun t =>
      t.power.l6Mask = s.power.l6Mask ||| prioTiles s s.power.l6Next.toNat ∧ getReg t (ro pgPARK 0x48) = t.power.l6Mask ∧
      t.power.l6Next.toNat = s.power.l6Next.toNat + 1 ∧ t.chans = s.chans) ∧
    (s.power.l8Stop = true → stopAccepted s = false → s.power.l8At + max (regFld s (ro pgTEMP 0x40) 16 8) 5 * 1200000 ≤ s.now → idlUp s = true → s.idl.wrWait = [] → s.idl.heldAcc = [] → Yields .l8StopWaitExpired s fun t =>
      t.idl.wrWait[0]? = some { off := BitVec.ofNat 15 (ro pgPSEQ 0x40), fn := 3, data := some 1 } ∧ t.chans = s.chans) ∧
    (∀ fn v, mayWrite s fn pgPWR 0x40 0 = true → fld v 0 4 ≤ 7 → Yields (.pwFloorWrite fn v) s fun t =>
      floorReq t = fld v 0 4 ∧ fld v 0 4 ≤ level t ∧ t.chans = s.chans) ∧
    (∀ fn, mayRead s fn pgPWR 0x50 = true → Yields (.pwMaxlvlRead fn) s fun t =>
      t.host.rdata = BitVec.ofNat 32 s.power.maxLvl.toNat ∧ t.power = { s.power with maxLvl := 0 })

/-- The fast clock, its losses, the reference and droop. Work wakes the fast clock from SLEEP and WARM, lock brings it to RUN,
WARM_CC without work to WARM and SLEEP_US to SLEEP, where no slot is armed. A loss of lock ends every tongue, clears READY of
every armed slot and leaves the clock WAKING; the loss of the reference takes the links down as well and raises the CLOCK
cause. Skipping starts below the droop threshold in RUN and ends 10 mV above it, and a droop of SUST_US raises the CORE cause.
(16_power_clocks.md, 06_commit_breath.md) -/
def Obligations.ClocksAndDroop : Prop :=
  ∀ (s : State),
    (driveOn s = true → hasWork s = true →
      (s.power.fast = .sleep → Yields .pllWorkArrives s fun t => t.power = { s.power with fast := .waking, wakeAt := s.now } ∧ t.chans = s.chans) ∧
      (s.power.fast = .warm → Yields .pllWorkArrives s fun t => t.power.fast = .run ∧ t.chans = s.chans)) ∧
    (s.power.fast = .waking → s.power.refOk = true → Yields .pllCLocked s fun t => t.power.fast = .run ∧ t.power.pllcLock = true ∧
      t.power.unlocked = false ∧ t.chans = s.chans) ∧
    (hasWork s = false →
      (s.power.fast = .run → s.power.workAt + regFld s (ro pgCLK 0x40) 4 12 ≤ s.now → Yields .warmIdleExpired s fun t => t.power.fast = .warm ∧ t.chans = s.chans) ∧
      (s.power.fast = .warm → s.power.workAt + regFld s (ro pgCLK 0x40) 16 16 * 1200 ≤ s.now → anyArmed s = false → bit (getReg s (ro pgCLK 0x40)) 0 = true → Yields .sleepIdleExpired s fun t =>
        t.power.fast = .sleep ∧ t.power.pllcLock = false ∧ t.chans = s.chans)) ∧
    (driveOn s = true → s.power.fast ≠ .sleep → Yields .pllCLockLoss s fun t => t.power.fast = .waking ∧ t.power.pllcLock = false ∧
      (∀ ch, (chan t ch).tongue = none ∧ (chan t ch).waiting = none) ∧
      (∀ k, k < 16 → (slot s k).state = .armed → (slot t k).state = .armed ∧ (slot t k).ready = false)) ∧
    (s.power.fast = .waking → s.power.unlocked = false → s.power.wakeAt + 24000 ≤ s.now → Yields .pllCWakeTimeout s fun t =>
      t.power = { s.power with unlocked := true, unlockAt := s.now } ∧ t.chans = s.chans) ∧
    (s.power.pllsLock = true → Yields .pllSLockLoss s fun t => t.power = { s.power with pllsLock := false } ∧ coreRuns t = false) ∧
    (driveOn s = true → s.power.refOk = true → Yields .pllSLocked s fun t => t.power = { s.power with pllsLock := true }) ∧
    (driveOn s = true → s.power.refOk = true → Yields .refclkLost s fun t => t.power.refOk = false ∧ t.power.backup = true ∧
      t.power.clockReq = 3 ∧ t.power.pllsLock = false ∧ t.host.linkUp = false ∧ t.shelf.upOk = false ∧ t.shelf.dnOk = false ∧
      SameFeedGates s t) ∧
    (driveOn s = true → s.power.refOk = false → Yields .refclkReturn s fun t =>
      t.power = { s.power with refOk := true, backup := false, clockGood := s.now } ∧ t.chans = s.chans) ∧
    (∀ mv, driveOn s = true → s.power.fast = .run → s.power.stretch = false → mv.toNat < threshMv s → Yields (.droopStart mv) s fun t =>
      t.power.stretch = true ∧ t.power.vcore = mv ∧ t.chans = s.chans ∧
      regFld t (ro pgCLK 0x50) 0 16 = (regFld s (ro pgCLK 0x50) 0 16 + 1) % 65536) ∧
    (∀ mv cc, driveOn s = true → threshMv s + 10 < mv.toNat → 64 ≤ cc.toNat → Yields (.droopEnd mv cc) s fun t =>
      t.power.stretch = false ∧ t.power.coreReq = 0 ∧ t.chans = s.chans) ∧
    (∀ mv from', driveOn s = true → mv.toNat < threshMv s → s.power.coreLow = some from' →
      from' + regFld s (ro pgCLK 0x48) 16 8 * 1200 ≤ s.now → s.power.coreReq = 0 → Yields (.droopSustained mv) s fun t =>
      t.power.coreReq = 5 ∧ t.chans = s.chans) ∧
    (∀ fn v, mayWrite s fn pgCLK 0x48 0 = true → 650 ≤ fld v 0 10 → fld v 0 10 ≤ 740 → Yields (.ckCtrlWrite fn 0x048 v) s fun t =>
      threshMv t = fld v 0 10 ∧ t.power = s.power)

/-- Frames, shelf time, election, membership, schedules and ports of the shelf link. A frame with a wrong CRC is counted and acts
no further, a broadcast travels on with one hop fewer; echoes measure the delay of their segment; the master sends TIME1 and
BEAT of the beat time out of each port that is up; a beat sets e and slews or steps time; a lost master, a better claim, a
duplicate position, ports that go down or up and SL_CTRL move the link state as R568 says; a winner is master, synced, at a
time no member is ahead of; a schedule distributed by the master is loaded by a member and answered. (17_shelf_link.md,
06_commit_breath.md) -/
def Obligations.ShelfLink : Prop :=
  ∀ (s : State), let l := s.shelf
    (∀ p fr, driveOn s = true → slEn s = true →
      (Yields (.slFrameReceive p fr false) s fun t => t.shelf = l ∧
        let o := match p with | .up => 0x58 | .dn => 0x5C
        regFld t (ro pgSLINK o) 16 16 = (regFld s (ro pgSLINK o) 16 16 + 1) % 65536) ∧
      (fr.src ≠ l.pos → oneHop fr.type.toNat = false → fr.bc = true → 1 < fr.ttl.toNat →
        (p = .up → l.dnOk = true → Yields (.slFrameReceive p fr true) s fun t =>
          t.shelf = { l with txDn := l.txDn ++ [{ fr with ttl := fr.ttl - 1, dir := false }] }) ∧
        (p = .dn → l.upOk = true → Yields (.slFrameReceive p fr true) s fun t =>
          t.shelf = { l with txUp := l.txUp ++ [{ fr with ttl := fr.ttl - 1, dir := true }] }))) ∧
    (∀ p, l.state ≠ .down → portOk s p = true → let sent (t : State) := match p with | .up => t.shelf.txUp | .dn => t.shelf.txDn
      Yields (.slEchoTimer p) s (fun t => t.shelf.echoSeq = l.echoSeq + 1 ∧
        sent t = sent s ++ [{ slFrame s 2 0 (l.echoSeq + 1) with dir := p == .up }]) ∧
      (∀ t2 t3 q, Yields (.slEchoReq p t2 t3 q) s fun t =>
        sent t = sent s ++ [{ slFrame s 3 0 (BitVec.ofNat 32 (t3 - t2)) with dir := p == .up }])) ∧
    (∀ p t1 t4 turn, l.state ≠ .down → Yields (.slEchoRsp p t1 t4 turn) s fun t =>
      (match p with | .up => t.shelf.delayUp | .dn => t.shelf.delayDn).toNat = min 65535 (((t4 - t1) - turn.toNat) / 2)) ∧
    (∀ p hi m, (l.state = .negotiate ∨ l.state = .member) → (l.seek = true ∨ p = l.towards) → Yields (.slTime1 p hi m) s fun t =>
      t.shelf = { l with nextHi := hi, masterPos := m, towards := p, seek := false, state := .member }) ∧
    (l.state = .master → Yields .slBeatSend s fun t =>
      let frames (d : Bool) := [{ slFrame s 5 0 (pack [(0, 16, beatTime l.time16 / 2 ^ 48), (16, 4, l.masterPos.toNat)]) with dir := d },
        { slFrame s 4 (b2n l.synced) (BitVec.ofNat 32 (beatTime l.time16 / 65536)) with dir := d }]
      (l.upOk = true → t.shelf.txUp = l.txUp ++ frames true) ∧ (l.dnOk = true → t.shelf.txDn = l.txDn ++ frames false)) ∧
    (∀ p beat sy (arr : Nat), l.state = .member → p = l.towards →
      let e : Int := (((l.nextHi.toNat * 2 ^ 48 + beat.toNat * 65536) * 16 +
        (match p with | .up => l.delayUp | .dn => l.delayDn).toNat : Nat) : Int) - (arr : Nat)
      Yields (.slBeatReceive p beat sy arr) s fun t => t.shelf.e16 = e ∧ t.chans = s.chans ∧
        (256 < e → t.shelf.time16 = l.time16 + e.toNat) ∧ (e ≤ 256 → t.shelf.slew16 = e ∧ t.shelf.time16 = l.time16) ∧
        (16 < e.natAbs → t.shelf.synced = false) ∧
        (e.natAbs ≤ 4 → sy = true → 7 ≤ l.goodBeats.toNat → t.shelf.synced = true)) ∧
    (l.state = .member → Yields .slBeatTimeout s fun t => t.shelf.state = .elect ∧ t.shelf.holdover = true ∧ t.shelf.synced = false) ∧
    (∀ p src sy data time, l.state ≠ .down →
      (src = l.pos → Yields (.slHello p src sy data time) s fun t => t.shelf.state = .isolated ∧ t.shelf.dupPos = true ∧
        t.shelf.synced = false) ∧
      (src ≠ l.pos → Yields (.slHello p src sy data time) s fun t =>
        (t.shelf.members.lookup src.toNat).map (fun m => (m.time, m.prio.toNat, m.verMax.toNat)) =
          some (time, fld data 16 4, fld data 8 8) ∧ (l.state = .master → time * 16 ≤ t.shelf.time16))) ∧
    (∀ p w, l.state ≠ .down → l.state ≠ .isolated → Yields (.slClaim p w) s fun t => t.shelf.claims.lookup (fld w 12 4) = some w ∧
      (l.state = .master → t.shelf.state = if claimRank (ownClaim s) < claimRank w then .member else .master)) ∧
    (l.state = .elect → slMasterOk s = true → (∀ c ∈ l.claims, claimRank c.2 ≤ claimRank (ownClaim s)) → Yields .slElectionDone s fun t =>
      t.shelf.state = .master ∧ t.shelf.synced = true ∧ t.shelf.masterPos = l.pos ∧
      ∀ m ∈ l.members, m.2.time * 16 ≤ t.shelf.time16) ∧
    (∀ fn k cut, mayWrite s fn pgSLINK 0x74 1 = true →
      (l.state = .master → 0x11 ≤ l.ver.toNat → Yields (.slSchedCmd fn k cut) s fun t => ∀ i, i < 16 →
        t.shelf.schedWait.getLsbD i = (bit (getReg s (ro pgSLINK 0x70)) i && i != l.pos.toNat)) ∧
      (l.state ≠ .master → Yields (.slSchedCmd fn k cut) s fun t => t.shelf = l)) ∧
    (∀ src k cut lo, l.state = .member → src = l.masterPos → Yields (.slSched0 src k cut lo) s fun t =>
      t.shelf = { l with sched0 := some (k.val, cut, lo) }) ∧
    (∀ src (k : Slot) cut cut' lo hi, l.state = .member → src = l.masterPos → l.sched0 = some (k.val, cut', lo) → schedEn s k.val = false →
      Yields (.slSched1 src k cut hi) s fun t => t.shelf.sched0 = none ∧ getReg t (ro pgCOMMIT (0x100 + 8 * k.val)) = lo ∧
        getReg t (ro pgCOMMIT (0x104 + 8 * k.val)) = hi) ∧
    (∀ (pos : BitVec 4), l.schedWait.getLsbD pos.toNat = true →
      (∀ k, l.state = .master → Yields (.slSchedAck pos k 0) s fun t => t.shelf.schedWait.getLsbD pos.toNat = false ∧
        bit (getReg t (ro pgSLINK 0x78)) pos.toNat = true) ∧
      Yields (.slSchedNackTimeout pos) s fun t => t.shelf.schedWait.getLsbD pos.toNat = false ∧ t.chans = s.chans) ∧
    (∀ p, portOk s p = true → Yields (.slPortDown p) s fun t => portOk t p = false ∧
      (portOk s (otherPort p) = false → t.shelf.state = .down)) ∧
    (∀ pos dn, l.state ≠ .down → l.state ≠ .isolated → Yields (.slWrap pos dn) s fun t => t.shelf.wrapped = true) ∧
    (∀ p, driveOn s = true → s.power.refOk = true → Yields (.slPortUp p) s fun t => portOk t p = true ∧
      (l.state = .down → slEn s = true → t.shelf.state = .negotiate)) ∧
    (∀ fn v, mayWrite s fn pgSLINK 0x40 0 = true →
      (bit v 0 = false → Yields (.slCtrlWrite fn v) s fun t => t.shelf.state = .down) ∧
      (bit v 0 = true → l.state = .down → l.upOk = true → Yields (.slCtrlWrite fn v) s fun t => t.shelf.state = .negotiate)) ∧
    (∀ fn, mayRead s fn pgSLINK 0x4C = true → Yields (.slTimeLoRead fn) s fun t => t.host.rdata = BitVec.ofNat 32 (shelfNow s) ∧
      t.shelf = { l with timeShadow := BitVec.ofNat 32 (shelfNow s / 2 ^ 32) })

/-- A fused channel sources 0 A and ignores park, strobe and loop writes until software clears its fuse. In a state in which every
channel whose fuse is not clear holds code 0 with no tongue and no waiting entry: such a channel sources 0 A; every step,
whatever it runs, leads to a state of the same kind; and the park event that reaches a tile, the strobe, the breath offset,
the segments and the end of a tongue and the loop's evaluation leave the fuse of each such channel as it is and its code at 0.
The premise on the channel table is the model's canonical form, kept by every step. (R28) -/
def Obligations.FusedSourcesNothing : Prop :=
  ∀ s : State, tabWf (fun _ => ({} : ChanSt)) s.chans = true → FusedQuiet s →
    (∀ ch, (chan s ch).fuse ≠ .clear → chanCurrent (chan s ch) = 0) ∧
    (∀ t, step s = .next t → FusedQuiet t) ∧
    (∀ (c : Instr) (x : Tile) (k : Slot) (r : Reed) (e : Chan),
      (c = .parkEventReachTile x ∨ c = .strobeIssue k ∨ c = .breathOffsetReached r ∨ c = .tongueSegmentNext e ∨ c = .tongueEnd e ∨
        c = .loopEvaluate e) → Yields c s fun t => ∀ ch, (chan s ch).fuse ≠ .clear →
          (chan t ch).fuse = (chan s ch).fuse ∧ (chan t ch).code = 0 ∧ chanCurrent (chan t ch) = 0)

/-- Over every command, a slot becomes COMMITTED only by a strobe of a READY plan, and READY only by its verified copy. Whatever a
step runs: a slot that is COMMITTED after it was COMMITTED before, or the command at the front was STROBE_ISSUE of that slot
while it was ARMED with READY 1, the link up after a full push, the fast clock in RUN and the level below L3; and a slot with
READY 1 after it had READY 1 before, or the command was ARM_COPY_VERIFIED of that slot while it was ARMED with its copy
running. STROBE_ISSUE of a slot whose READY is clear does nothing. (01_architecture.md, 05_setpoint_table.md,
06_commit_breath.md) -/
def Obligations.OnlyAReadyPlanStrobes : Prop :=
  (∀ (s t : State) (k : Nat), step s = .next t →
    ((slot t k).state = .committed → (slot s k).state = .committed ∨ ∃ c : Slot, c.val = k ∧
      s.pending.head? = some (.strobeIssue c) ∧ (slot s k).state = .armed ∧ (slot s k).ready = true ∧ idlUp s = true ∧
      s.idl.pushOk = true ∧ inRun s = true ∧ level s < 3) ∧
    ((slot t k).ready = true → (slot s k).ready = true ∨ ∃ c : Slot, c.val = k ∧
      s.pending.head? = some (.armCopyVerified c) ∧ (slot s k).state = .armed ∧ (slot s k).work = .copy)) ∧
  (∀ (s : State) (k : Slot), (slot s k.val).ready = false → Yields (.strobeIssue k) s fun t => t = s)

/-- Over every command, the channels, feeds, rails, tiles, plan slots, park store, coefficients and Bore change only by the
commands named for each. When exec of a command answers a next state: the channels are as before unless the command is one
that mayMoveChannels names, both feeds unless mayMoveFeeds names it, the rail sequencer unless mayMoveRails names it, the park
store and the park events unless mayMovePark names it, the coefficients and the calibration run unless mayMoveCoefficients
names it, the tiles unless mayMoveTiles names it, the plan slots unless mayMoveSlots names it, and the Bore, with its parity
and its rows, unless mayMoveBore names it. The eight sets are written out in Safety.lean; they follow from the effects that
the chapters give each command. (01_architecture.md, 02_feed_insertion.md, 04_drive_channels.md, 05_setpoint_table.md,
09_accumulators_meters.md, 12_bore_commands.md) -/
def Obligations.OnlyTheirCommandsMoveThem : Prop :=
  ∀ (c : Instr) (s t : State), exec c s = .next t →
    (mayMoveChannels c = false → t.chans = s.chans) ∧
    (mayMoveFeeds c = false → t.feedA = s.feedA ∧ t.feedB = s.feedB) ∧
    (mayMoveRails c = false → t.rails = s.rails) ∧
    (mayMovePark c = false → t.park = s.park) ∧
    (mayMoveCoefficients c = false → t.cal = s.cal) ∧
    (mayMoveTiles c = false → t.tiles = s.tiles) ∧
    (mayMoveSlots c = false → t.slots = s.slots) ∧
    (mayMoveBore c = false → t.bore = s.bore)
end

