-- ==== Sys2Proof/Laws/Table.lean ====
section
/-! SUPPORT. The laws of sparse tables: what a key reads after an update, and that each operation keeps the canonical form. -/

namespace Sys2Proof.Machine

variable {α : Type}

/-! ### What a key reads -/

@[simp] theorem tabGet_nil (d : Nat → α) (k : Nat) : tabGet d [] k = d k := rfl

/-- A key that no entry has reads as its default. -/
theorem tabGet_of_absent (d : Nat → α) (l : Tab α) (k : Nat) (h : ∀ p ∈ l, p.1 ≠ k) : tabGet d l k = d k := by
  induction l with
  | nil => rfl
  | cons p t ih =>
    obtain ⟨j, v⟩ := p
    have : k ≠ j := fun e => h (j, v) (by simp) e.symm
    simp only [tabGet, this, if_false]
    exact ih (fun q hq => h q (by simp [hq]))

@[simp] theorem tabGet_tabIns_self (d : Nat → α) (l : Tab α) (k : Nat) (v : α) : tabGet d (tabIns l k v) k = v := by
  induction l with
  | nil => simp [tabIns, tabGet]
  | cons p t ih =>
    obtain ⟨j, w⟩ := p
    simp only [tabIns]
    split
    · simp [tabGet]
    · split
      · simp [tabGet]
      · rename_i _ hne; simp [tabGet, hne, ih]

theorem tabGet_tabIns_other (d : Nat → α) (l : Tab α) (k j : Nat) (v : α) (h : j ≠ k) :
    tabGet d (tabIns l k v) j = tabGet d l j := by
  induction l with
  | nil => simp [tabIns, tabGet, h]
  | cons p t ih =>
    obtain ⟨i, w⟩ := p
    simp only [tabIns]
    split
    · simp [tabGet, h]
    · split
      · rename_i _ e; subst e; simp [tabGet, h]
      · simp only [tabGet]; split <;> simp_all

@[simp] theorem tabGet_tabDel_self (d : Nat → α) (l : Tab α) (k : Nat) : tabGet d (tabDel l k) k = d k :=
  tabGet_of_absent d _ k (fun p hp => by simpa [tabDel] using (List.mem_filter.mp hp).2)

/-- Entries that a filter drops matter to no key that it keeps. -/
theorem tabGet_filter (d : Nat → α) (l : Tab α) (k : Nat) (p : Nat → Bool) (h : p k = true) :
    tabGet d (l.filter (fun e => p e.1)) k = tabGet d l k := by
  induction l with
  | nil => rfl
  | cons e t ih =>
    obtain ⟨j, w⟩ := e
    by_cases hj : k = j
    · subst hj; simp [tabGet, h]
    · by_cases hp : p j
      · simp [hp, tabGet, hj, ih]
      · simp [hp, tabGet, hj, ih]

theorem tabGet_tabDel_other (d : Nat → α) (l : Tab α) (k j : Nat) (h : j ≠ k) :
    tabGet d (tabDel l k) j = tabGet d l j :=
  tabGet_filter d l j (fun i => i != k) (by simp [h])

theorem tabGet_append (d : Nat → α) (l m : Tab α) (k : Nat) (h : ∀ p ∈ l, p.1 ≠ k) :
    tabGet d (l ++ m) k = tabGet d m k := by
  induction l with
  | nil => rfl
  | cons p t ih =>
    obtain ⟨j, v⟩ := p
    have : k ≠ j := fun e => h (j, v) (by simp) e.symm
    simp only [List.cons_append, tabGet, this, if_false]
    exact ih (fun q hq => h q (by simp [hq]))

/-- A key of the first part reads the same whatever follows, once it is listed there or the rest does not list it. -/
theorem tabGet_append_left (d : Nat → α) (l m : Tab α) (k : Nat) (h : ∀ p ∈ m, p.1 ≠ k) :
    tabGet d (l ++ m) k = tabGet d l k := by
  induction l with
  | nil => simpa using tabGet_of_absent d m k h
  | cons p t ih => obtain ⟨j, v⟩ := p; simp only [List.cons_append, tabGet, ih]

theorem mem_tabIns (l : Tab α) (k : Nat) (v : α) (p : Nat × α) (h : p ∈ tabIns l k v) : p = (k, v) ∨ p ∈ l := by
  induction l with
  | nil => simpa [tabIns] using h
  | cons e t ih =>
    obtain ⟨j, w⟩ := e
    simp only [tabIns] at h
    split at h
    · simpa using h
    · split at h
      · rcases List.mem_cons.mp h with h | h
        · exact .inl h
        · exact .inr (List.mem_cons_of_mem _ h)
      · rcases List.mem_cons.mp h with h | h
        · exact .inr (h ▸ List.mem_cons_self)
        · exact (ih h).imp id (List.mem_cons_of_mem _)

variable [DecidableEq α]

@[simp] theorem tabGet_tabSet_self (d : Nat → α) (l : Tab α) (k : Nat) (v : α) : tabGet d (tabSet d l k v) k = v := by
  unfold tabSet; split <;> simp_all

theorem tabGet_tabSet_other (d : Nat → α) (l : Tab α) (k j : Nat) (v : α) (h : j ≠ k) :
    tabGet d (tabSet d l k v) j = tabGet d l j := by
  unfold tabSet; split
  · exact tabGet_tabDel_other d l k j h
  · exact tabGet_tabIns_other d l k j v h

/-- What any key reads after one key has been set. -/
theorem tabGet_tabSet (d : Nat → α) (l : Tab α) (k j : Nat) (v : α) :
    tabGet d (tabSet d l k v) j = if j = k then v else tabGet d l j := by
  split
  · rename_i h; subst h; simp
  · exact tabGet_tabSet_other d l k j v ‹_›

@[simp] theorem tabGet_tabUpd_self (d : Nat → α) (l : Tab α) (k : Nat) (f : α → α) :
    tabGet d (tabUpd d l k f) k = f (tabGet d l k) := by simp [tabUpd]

theorem tabGet_tabUpd_other (d : Nat → α) (l : Tab α) (k j : Nat) (f : α → α) (h : j ≠ k) :
    tabGet d (tabUpd d l k f) j = tabGet d l j := tabGet_tabSet_other d l k j _ h

/-! ### The canonical form -/

theorem tabWf_iff (d : Nat → α) (l : Tab α) :
    tabWf d l = true ↔ (l.map (·.1)).Pairwise (· < ·) ∧ ∀ p ∈ l, p.2 ≠ d p.1 := by
  simp [tabWf]

@[simp] theorem tabWf_nil (d : Nat → α) : tabWf d ([] : Tab α) = true := by simp [tabWf]

/-- Any part of a canonical table is canonical. -/
theorem tabWf_filter (d : Nat → α) (l : Tab α) (p : Nat × α → Bool) (h : tabWf d l = true) : tabWf d (l.filter p) = true := by
  rw [tabWf_iff] at h ⊢
  refine ⟨?_, fun q hq => h.2 q (List.mem_of_mem_filter hq)⟩
  exact h.1.sublist (List.filter_sublist.map _)

theorem tabWf_tabDel (d : Nat → α) (l : Tab α) (k : Nat) (h : tabWf d l = true) : tabWf d (tabDel l k) = true :=
  tabWf_filter d l _ h

theorem tabWf_tabIns (d : Nat → α) (l : Tab α) (k : Nat) (v : α) (hv : v ≠ d k) (h : tabWf d l = true) :
    tabWf d (tabIns l k v) = true := by
  rw [tabWf_iff] at h ⊢
  refine ⟨?_, ?_⟩
  · induction l with
    | nil => simp [tabIns]
    | cons e t ih =>
      obtain ⟨j, w⟩ := e
      have hp := h.1
      simp only [List.map_cons, List.pairwise_cons] at hp
      simp only [tabIns]
      split
      · rename_i hk
        simp only [List.map_cons, List.pairwise_cons]
        refine ⟨fun a ha => ?_, hp⟩
        rcases List.mem_cons.mp ha with rfl | ha
        · exact hk
        · exact lt_trans hk (hp.1 a ha)
      · split
        · rename_i _ e; subst e
          simpa only [List.map_cons, List.pairwise_cons] using hp
        · rename_i h1 h2
          simp only [List.map_cons, List.pairwise_cons]
          refine ⟨fun a ha => ?_, ih ⟨hp.2, fun p hp => h.2 p (List.mem_cons_of_mem _ hp)⟩⟩
          obtain ⟨p, hp', rfl⟩ := List.mem_map.mp ha
          rcases mem_tabIns t k v p hp' with rfl | hm
          · exact lt_of_le_of_ne (Nat.le_of_not_lt h1) (Ne.symm h2)
          · exact hp.1 _ (List.mem_map_of_mem hm)
  · intro p hp
    rcases mem_tabIns l k v p hp with rfl | hm
    · exact hv
    · exact h.2 p hm

/-- Setting a key keeps the canonical form. -/
theorem tabWf_tabSet (d : Nat → α) (l : Tab α) (k : Nat) (v : α) (h : tabWf d l = true) : tabWf d (tabSet d l k v) = true := by
  unfold tabSet; split
  · exact tabWf_tabDel d l k h
  · exact tabWf_tabIns d l k v ‹_› h

theorem tabWf_tabUpd (d : Nat → α) (l : Tab α) (k : Nat) (f : α → α) (h : tabWf d l = true) : tabWf d (tabUpd d l k f) = true :=
  tabWf_tabSet d l k _ h

/-- Two canonical parts, every key of the first below every key of the second, make a canonical table. -/
theorem tabWf_append (d : Nat → α) (l m : Tab α) (hl : tabWf d l = true) (hm : tabWf d m = true)
    (h : ∀ p ∈ l, ∀ q ∈ m, p.1 < q.1) : tabWf d (l ++ m) = true := by
  rw [tabWf_iff] at hl hm ⊢
  refine ⟨?_, fun p hp => ?_⟩
  · rw [List.map_append, List.pairwise_append]
    refine ⟨hl.1, hm.1, fun a ha b hb => ?_⟩
    obtain ⟨p, hp, rfl⟩ := List.mem_map.mp ha
    obtain ⟨q, hq, rfl⟩ := List.mem_map.mp hb
    exact h p hp q hq
  · rcases List.mem_append.mp hp with hp | hp
    · exact hl.2 p hp
    · exact hm.2 p hp

/-- The entries that `tabMap` computes. -/
theorem tabWf_range (d : Nat → α) (g : Nat → α) (lo n : Nat) :
    tabWf d ((List.range' lo n).filterMap (fun k => if g k = d k then none else some (k, g k))) = true := by
  rw [tabWf_iff]
  induction n generalizing lo with
  | zero => simp
  | succ n ih =>
    obtain ⟨h1, h2⟩ := ih (lo + 1)
    rw [List.range'_succ, List.filterMap_cons]
    split
    · exact ⟨h1, h2⟩
    · rename_i e he
      by_cases hg : g lo = d lo
      · simp [hg] at he
      · simp [hg] at he
        subst he
        refine ⟨?_, fun p hp => ?_⟩
        · simp only [List.map_cons, List.pairwise_cons]
          refine ⟨fun a ha => ?_, h1⟩
          obtain ⟨p, hp, rfl⟩ := List.mem_map.mp ha
          obtain ⟨k, hk, hp⟩ := List.mem_filterMap.mp hp
          split at hp
          · cases hp
          · cases hp; have := (List.mem_range'_1.mp hk).1; omega
        · rcases List.mem_cons.mp hp with rfl | hp
          · exact hg
          · exact h2 p hp

theorem mem_range_part (d : Nat → α) (g : Nat → α) (lo n : Nat) (p : Nat × α)
    (h : p ∈ (List.range' lo n).filterMap (fun k => if g k = d k then none else some (k, g k))) : lo ≤ p.1 ∧ p.1 < lo + n := by
  obtain ⟨k, hk, hp⟩ := List.mem_filterMap.mp h
  split at hp
  · cases hp
  · cases hp; exact List.mem_range'_1.mp hk

/-- Mapping a range of keys keeps the canonical form. -/
theorem tabWf_tabMap (d : Nat → α) (l : Tab α) (lo n : Nat) (f : Nat → α → α) (h : tabWf d l = true) :
    tabWf d (tabMap d l lo n f) = true := by
  refine tabWf_append d _ _ (tabWf_append d _ _ (tabWf_filter d l _ h) (tabWf_range d (fun k => f k (tabGet d l k)) lo n) ?_)
    (tabWf_filter d l _ h) ?_
  · intro p hp q hq
    have h1 := (List.mem_filter.mp hp).2
    have h2 := (mem_range_part d (fun k => f k (tabGet d l k)) lo n q hq).1
    simp only [decide_eq_true_eq] at h1
    omega
  · intro p hp q hq
    have h2 := (List.mem_filter.mp hq).2
    simp only [decide_eq_true_eq] at h2
    rcases List.mem_append.mp hp with hp | hp
    · have h1 := (List.mem_filter.mp hp).2
      simp only [decide_eq_true_eq] at h1
      omega
    · have := (mem_range_part d (fun k => f k (tabGet d l k)) lo n p hp).2
      omega

theorem tabGet_range (d : Nat → α) (g : Nat → α) (lo n k : Nat) (h : lo ≤ k ∧ k < lo + n) :
    tabGet d ((List.range' lo n).filterMap (fun k => if g k = d k then none else some (k, g k))) k = g k := by
  induction n generalizing lo with
  | zero => omega
  | succ n ih =>
    rw [List.range'_succ, List.filterMap_cons]
    by_cases hk : k = lo
    · subst hk
      by_cases hg : g k = d k
      · rw [if_pos hg, hg]
        exact tabGet_of_absent d _ k (fun p hp => by have := (mem_range_part d g (k + 1) n p hp).1; omega)
      · rw [if_neg hg]; simp [tabGet]
    · have hr : lo + 1 ≤ k ∧ k < lo + 1 + n := by omega
      by_cases hg : g lo = d lo
      · rw [if_pos hg]; exact ih (lo + 1) hr
      · rw [if_neg hg]; simp only [tabGet, hk, if_false]; exact ih (lo + 1) hr

/-- What a key in the mapped range reads. -/
theorem tabGet_tabMap_in (d : Nat → α) (l : Tab α) (lo n : Nat) (f : Nat → α → α) (k : Nat) (h : lo ≤ k ∧ k < lo + n) :
    tabGet d (tabMap d l lo n f) k = f k (tabGet d l k) := by
  unfold tabMap
  rw [tabGet_append_left, tabGet_append]
  · exact tabGet_range d (fun k => f k (tabGet d l k)) lo n k h
  · intro p hp; have := (List.mem_filter.mp hp).2; simp only [decide_eq_true_eq] at this; omega
  · intro p hp; have := (List.mem_filter.mp hp).2; simp only [decide_eq_true_eq] at this; omega

/-- A key outside the mapped range reads as before. -/
theorem tabGet_tabMap_out (d : Nat → α) (l : Tab α) (lo n : Nat) (f : Nat → α → α) (k : Nat) (h : k < lo ∨ lo + n ≤ k) :
    tabGet d (tabMap d l lo n f) k = tabGet d l k := by
  unfold tabMap
  rcases h with h | h
  · rw [tabGet_append_left, tabGet_append_left]
    · exact tabGet_filter d l k (fun i => decide (i < lo)) (by simpa using h)
    · intro p hp; have := (mem_range_part d (fun k => f k (tabGet d l k)) lo n p hp).1; omega
    · intro p hp; have := (List.mem_filter.mp hp).2; simp only [decide_eq_true_eq] at this; omega
  · rw [tabGet_append]
    · exact tabGet_filter d l k (fun i => decide (lo + n ≤ i)) (by simpa using h)
    · intro p hp
      rcases List.mem_append.mp hp with hp | hp
      · have := (List.mem_filter.mp hp).2; simp only [decide_eq_true_eq] at this; omega
      · have := (mem_range_part d (fun k => f k (tabGet d l k)) lo n p hp).2; omega

end Sys2Proof.Machine
end

