-- ==== Sys2Proof/Laws/State.lean ====
section
/-! SUPPORT. One lemma per field per update of State, each true by unfolding, so that no proof unfolds a record update; and what the
updated table itself reads. -/

namespace Sys2Proof.Machine

variable (s : State)

/-! ### setReg -/

@[simp] theorem setReg_pending (off : Nat) (w : Word) : (setReg s off w).pending = s.pending := rfl
@[simp] theorem setReg_now (off : Nat) (w : Word) : (setReg s off w).now = s.now := rfl
@[simp] theorem setReg_phase (off : Nat) (w : Word) : (setReg s off w).phase = s.phase := rfl
@[simp] theorem setReg_droneF (off : Nat) (w : Word) : (setReg s off w).droneF = s.droneF := rfl
@[simp] theorem setReg_droneD (off : Nat) (w : Word) : (setReg s off w).droneD = s.droneD := rfl
@[simp] theorem setReg_feedA (off : Nat) (w : Word) : (setReg s off w).feedA = s.feedA := rfl
@[simp] theorem setReg_feedB (off : Nat) (w : Word) : (setReg s off w).feedB = s.feedB := rfl
@[simp] theorem setReg_fd (off : Nat) (w : Word) : (setReg s off w).fd = s.fd := rfl
@[simp] theorem setReg_rails (off : Nat) (w : Word) : (setReg s off w).rails = s.rails := rfl
@[simp] theorem setReg_idl (off : Nat) (w : Word) : (setReg s off w).idl = s.idl := rfl
@[simp] theorem setReg_boot (off : Nat) (w : Word) : (setReg s off w).boot = s.boot := rfl
@[simp] theorem setReg_chans (off : Nat) (w : Word) : (setReg s off w).chans = s.chans := rfl
@[simp] theorem setReg_tiles (off : Nat) (w : Word) : (setReg s off w).tiles = s.tiles := rfl
@[simp] theorem setReg_reeds (off : Nat) (w : Word) : (setReg s off w).reeds = s.reeds := rfl
@[simp] theorem setReg_loops (off : Nat) (w : Word) : (setReg s off w).loops = s.loops := rfl
@[simp] theorem setReg_park (off : Nat) (w : Word) : (setReg s off w).park = s.park := rfl
@[simp] theorem setReg_slots (off : Nat) (w : Word) : (setReg s off w).slots = s.slots := rfl
@[simp] theorem setReg_reqs (off : Nat) (w : Word) : (setReg s off w).reqs = s.reqs := rfl
@[simp] theorem setReg_tabs (off : Nat) (w : Word) : (setReg s off w).tabs = s.tabs := rfl
@[simp] theorem setReg_accs (off : Nat) (w : Word) : (setReg s off w).accs = s.accs := rfl
@[simp] theorem setReg_cal (off : Nat) (w : Word) : (setReg s off w).cal = s.cal := rfl
@[simp] theorem setReg_thermal (off : Nat) (w : Word) : (setReg s off w).thermal = s.thermal := rfl
@[simp] theorem setReg_bore (off : Nat) (w : Word) : (setReg s off w).bore = s.bore := rfl
@[simp] theorem setReg_cmdq (off : Nat) (w : Word) : (setReg s off w).cmdq = s.cmdq := rfl
@[simp] theorem setReg_host (off : Nat) (w : Word) : (setReg s off w).host = s.host := rfl
@[simp] theorem setReg_flash (off : Nat) (w : Word) : (setReg s off w).flash = s.flash := rfl
@[simp] theorem setReg_bell (off : Nat) (w : Word) : (setReg s off w).bell = s.bell := rfl
@[simp] theorem setReg_power (off : Nat) (w : Word) : (setReg s off w).power = s.power := rfl
@[simp] theorem setReg_shelf (off : Nat) (w : Word) : (setReg s off w).shelf = s.shelf := rfl
@[simp] theorem setReg_free (off : Nat) (w : Word) : (setReg s off w).free = s.free := rfl
@[simp] theorem setReg_strobeAt (off : Nat) (w : Word) : (setReg s off w).strobeAt = s.strobeAt := rfl
@[simp] theorem setReg_fabWait (off : Nat) (w : Word) : (setReg s off w).fabWait = s.fabWait := rfl
@[simp] theorem setReg_hkAt (off : Nat) (w : Word) : (setReg s off w).hkAt = s.hkAt := rfl
@[simp] theorem setReg_msgAt (off : Nat) (w : Word) : (setReg s off w).msgAt = s.msgAt := rfl
@[simp] theorem setReg_msgNow (off : Nat) (w : Word) : (setReg s off w).msgNow = s.msgNow := rfl

/-! ### putReg -/

@[simp] theorem putReg_pending (off lo n v : Nat) : (putReg s off lo n v).pending = s.pending := rfl
@[simp] theorem putReg_now (off lo n v : Nat) : (putReg s off lo n v).now = s.now := rfl
@[simp] theorem putReg_phase (off lo n v : Nat) : (putReg s off lo n v).phase = s.phase := rfl
@[simp] theorem putReg_droneF (off lo n v : Nat) : (putReg s off lo n v).droneF = s.droneF := rfl
@[simp] theorem putReg_droneD (off lo n v : Nat) : (putReg s off lo n v).droneD = s.droneD := rfl
@[simp] theorem putReg_feedA (off lo n v : Nat) : (putReg s off lo n v).feedA = s.feedA := rfl
@[simp] theorem putReg_feedB (off lo n v : Nat) : (putReg s off lo n v).feedB = s.feedB := rfl
@[simp] theorem putReg_fd (off lo n v : Nat) : (putReg s off lo n v).fd = s.fd := rfl
@[simp] theorem putReg_rails (off lo n v : Nat) : (putReg s off lo n v).rails = s.rails := rfl
@[simp] theorem putReg_idl (off lo n v : Nat) : (putReg s off lo n v).idl = s.idl := rfl
@[simp] theorem putReg_boot (off lo n v : Nat) : (putReg s off lo n v).boot = s.boot := rfl
@[simp] theorem putReg_chans (off lo n v : Nat) : (putReg s off lo n v).chans = s.chans := rfl
@[simp] theorem putReg_tiles (off lo n v : Nat) : (putReg s off lo n v).tiles = s.tiles := rfl
@[simp] theorem putReg_reeds (off lo n v : Nat) : (putReg s off lo n v).reeds = s.reeds := rfl
@[simp] theorem putReg_loops (off lo n v : Nat) : (putReg s off lo n v).loops = s.loops := rfl
@[simp] theorem putReg_park (off lo n v : Nat) : (putReg s off lo n v).park = s.park := rfl
@[simp] theorem putReg_slots (off lo n v : Nat) : (putReg s off lo n v).slots = s.slots := rfl
@[simp] theorem putReg_reqs (off lo n v : Nat) : (putReg s off lo n v).reqs = s.reqs := rfl
@[simp] theorem putReg_tabs (off lo n v : Nat) : (putReg s off lo n v).tabs = s.tabs := rfl
@[simp] theorem putReg_accs (off lo n v : Nat) : (putReg s off lo n v).accs = s.accs := rfl
@[simp] theorem putReg_cal (off lo n v : Nat) : (putReg s off lo n v).cal = s.cal := rfl
@[simp] theorem putReg_thermal (off lo n v : Nat) : (putReg s off lo n v).thermal = s.thermal := rfl
@[simp] theorem putReg_bore (off lo n v : Nat) : (putReg s off lo n v).bore = s.bore := rfl
@[simp] theorem putReg_cmdq (off lo n v : Nat) : (putReg s off lo n v).cmdq = s.cmdq := rfl
@[simp] theorem putReg_host (off lo n v : Nat) : (putReg s off lo n v).host = s.host := rfl
@[simp] theorem putReg_flash (off lo n v : Nat) : (putReg s off lo n v).flash = s.flash := rfl
@[simp] theorem putReg_bell (off lo n v : Nat) : (putReg s off lo n v).bell = s.bell := rfl
@[simp] theorem putReg_power (off lo n v : Nat) : (putReg s off lo n v).power = s.power := rfl
@[simp] theorem putReg_shelf (off lo n v : Nat) : (putReg s off lo n v).shelf = s.shelf := rfl
@[simp] theorem putReg_free (off lo n v : Nat) : (putReg s off lo n v).free = s.free := rfl
@[simp] theorem putReg_strobeAt (off lo n v : Nat) : (putReg s off lo n v).strobeAt = s.strobeAt := rfl
@[simp] theorem putReg_fabWait (off lo n v : Nat) : (putReg s off lo n v).fabWait = s.fabWait := rfl
@[simp] theorem putReg_hkAt (off lo n v : Nat) : (putReg s off lo n v).hkAt = s.hkAt := rfl
@[simp] theorem putReg_msgAt (off lo n v : Nat) : (putReg s off lo n v).msgAt = s.msgAt := rfl
@[simp] theorem putReg_msgNow (off lo n v : Nat) : (putReg s off lo n v).msgNow = s.msgNow := rfl

/-! ### bumpReg -/

@[simp] theorem bumpReg_pending (off lo n k : Nat) : (bumpReg s off lo n k).pending = s.pending := rfl
@[simp] theorem bumpReg_now (off lo n k : Nat) : (bumpReg s off lo n k).now = s.now := rfl
@[simp] theorem bumpReg_phase (off lo n k : Nat) : (bumpReg s off lo n k).phase = s.phase := rfl
@[simp] theorem bumpReg_droneF (off lo n k : Nat) : (bumpReg s off lo n k).droneF = s.droneF := rfl
@[simp] theorem bumpReg_droneD (off lo n k : Nat) : (bumpReg s off lo n k).droneD = s.droneD := rfl
@[simp] theorem bumpReg_feedA (off lo n k : Nat) : (bumpReg s off lo n k).feedA = s.feedA := rfl
@[simp] theorem bumpReg_feedB (off lo n k : Nat) : (bumpReg s off lo n k).feedB = s.feedB := rfl
@[simp] theorem bumpReg_fd (off lo n k : Nat) : (bumpReg s off lo n k).fd = s.fd := rfl
@[simp] theorem bumpReg_rails (off lo n k : Nat) : (bumpReg s off lo n k).rails = s.rails := rfl
@[simp] theorem bumpReg_idl (off lo n k : Nat) : (bumpReg s off lo n k).idl = s.idl := rfl
@[simp] theorem bumpReg_boot (off lo n k : Nat) : (bumpReg s off lo n k).boot = s.boot := rfl
@[simp] theorem bumpReg_chans (off lo n k : Nat) : (bumpReg s off lo n k).chans = s.chans := rfl
@[simp] theorem bumpReg_tiles (off lo n k : Nat) : (bumpReg s off lo n k).tiles = s.tiles := rfl
@[simp] theorem bumpReg_reeds (off lo n k : Nat) : (bumpReg s off lo n k).reeds = s.reeds := rfl
@[simp] theorem bumpReg_loops (off lo n k : Nat) : (bumpReg s off lo n k).loops = s.loops := rfl
@[simp] theorem bumpReg_park (off lo n k : Nat) : (bumpReg s off lo n k).park = s.park := rfl
@[simp] theorem bumpReg_slots (off lo n k : Nat) : (bumpReg s off lo n k).slots = s.slots := rfl
@[simp] theorem bumpReg_reqs (off lo n k : Nat) : (bumpReg s off lo n k).reqs = s.reqs := rfl
@[simp] theorem bumpReg_tabs (off lo n k : Nat) : (bumpReg s off lo n k).tabs = s.tabs := rfl
@[simp] theorem bumpReg_accs (off lo n k : Nat) : (bumpReg s off lo n k).accs = s.accs := rfl
@[simp] theorem bumpReg_cal (off lo n k : Nat) : (bumpReg s off lo n k).cal = s.cal := rfl
@[simp] theorem bumpReg_thermal (off lo n k : Nat) : (bumpReg s off lo n k).thermal = s.thermal := rfl
@[simp] theorem bumpReg_bore (off lo n k : Nat) : (bumpReg s off lo n k).bore = s.bore := rfl
@[simp] theorem bumpReg_cmdq (off lo n k : Nat) : (bumpReg s off lo n k).cmdq = s.cmdq := rfl
@[simp] theorem bumpReg_host (off lo n k : Nat) : (bumpReg s off lo n k).host = s.host := rfl
@[simp] theorem bumpReg_flash (off lo n k : Nat) : (bumpReg s off lo n k).flash = s.flash := rfl
@[simp] theorem bumpReg_bell (off lo n k : Nat) : (bumpReg s off lo n k).bell = s.bell := rfl
@[simp] theorem bumpReg_power (off lo n k : Nat) : (bumpReg s off lo n k).power = s.power := rfl
@[simp] theorem bumpReg_shelf (off lo n k : Nat) : (bumpReg s off lo n k).shelf = s.shelf := rfl
@[simp] theorem bumpReg_free (off lo n k : Nat) : (bumpReg s off lo n k).free = s.free := rfl
@[simp] theorem bumpReg_strobeAt (off lo n k : Nat) : (bumpReg s off lo n k).strobeAt = s.strobeAt := rfl
@[simp] theorem bumpReg_fabWait (off lo n k : Nat) : (bumpReg s off lo n k).fabWait = s.fabWait := rfl
@[simp] theorem bumpReg_hkAt (off lo n k : Nat) : (bumpReg s off lo n k).hkAt = s.hkAt := rfl
@[simp] theorem bumpReg_msgAt (off lo n k : Nat) : (bumpReg s off lo n k).msgAt = s.msgAt := rfl
@[simp] theorem bumpReg_msgNow (off lo n k : Nat) : (bumpReg s off lo n k).msgNow = s.msgNow := rfl

/-! ### satReg -/

@[simp] theorem satReg_pending (off lo n k : Nat) : (satReg s off lo n k).pending = s.pending := rfl
@[simp] theorem satReg_now (off lo n k : Nat) : (satReg s off lo n k).now = s.now := rfl
@[simp] theorem satReg_phase (off lo n k : Nat) : (satReg s off lo n k).phase = s.phase := rfl
@[simp] theorem satReg_droneF (off lo n k : Nat) : (satReg s off lo n k).droneF = s.droneF := rfl
@[simp] theorem satReg_droneD (off lo n k : Nat) : (satReg s off lo n k).droneD = s.droneD := rfl
@[simp] theorem satReg_feedA (off lo n k : Nat) : (satReg s off lo n k).feedA = s.feedA := rfl
@[simp] theorem satReg_feedB (off lo n k : Nat) : (satReg s off lo n k).feedB = s.feedB := rfl
@[simp] theorem satReg_fd (off lo n k : Nat) : (satReg s off lo n k).fd = s.fd := rfl
@[simp] theorem satReg_rails (off lo n k : Nat) : (satReg s off lo n k).rails = s.rails := rfl
@[simp] theorem satReg_idl (off lo n k : Nat) : (satReg s off lo n k).idl = s.idl := rfl
@[simp] theorem satReg_boot (off lo n k : Nat) : (satReg s off lo n k).boot = s.boot := rfl
@[simp] theorem satReg_chans (off lo n k : Nat) : (satReg s off lo n k).chans = s.chans := rfl
@[simp] theorem satReg_tiles (off lo n k : Nat) : (satReg s off lo n k).tiles = s.tiles := rfl
@[simp] theorem satReg_reeds (off lo n k : Nat) : (satReg s off lo n k).reeds = s.reeds := rfl
@[simp] theorem satReg_loops (off lo n k : Nat) : (satReg s off lo n k).loops = s.loops := rfl
@[simp] theorem satReg_park (off lo n k : Nat) : (satReg s off lo n k).park = s.park := rfl
@[simp] theorem satReg_slots (off lo n k : Nat) : (satReg s off lo n k).slots = s.slots := rfl
@[simp] theorem satReg_reqs (off lo n k : Nat) : (satReg s off lo n k).reqs = s.reqs := rfl
@[simp] theorem satReg_tabs (off lo n k : Nat) : (satReg s off lo n k).tabs = s.tabs := rfl
@[simp] theorem satReg_accs (off lo n k : Nat) : (satReg s off lo n k).accs = s.accs := rfl
@[simp] theorem satReg_cal (off lo n k : Nat) : (satReg s off lo n k).cal = s.cal := rfl
@[simp] theorem satReg_thermal (off lo n k : Nat) : (satReg s off lo n k).thermal = s.thermal := rfl
@[simp] theorem satReg_bore (off lo n k : Nat) : (satReg s off lo n k).bore = s.bore := rfl
@[simp] theorem satReg_cmdq (off lo n k : Nat) : (satReg s off lo n k).cmdq = s.cmdq := rfl
@[simp] theorem satReg_host (off lo n k : Nat) : (satReg s off lo n k).host = s.host := rfl
@[simp] theorem satReg_flash (off lo n k : Nat) : (satReg s off lo n k).flash = s.flash := rfl
@[simp] theorem satReg_bell (off lo n k : Nat) : (satReg s off lo n k).bell = s.bell := rfl
@[simp] theorem satReg_power (off lo n k : Nat) : (satReg s off lo n k).power = s.power := rfl
@[simp] theorem satReg_shelf (off lo n k : Nat) : (satReg s off lo n k).shelf = s.shelf := rfl
@[simp] theorem satReg_free (off lo n k : Nat) : (satReg s off lo n k).free = s.free := rfl
@[simp] theorem satReg_strobeAt (off lo n k : Nat) : (satReg s off lo n k).strobeAt = s.strobeAt := rfl
@[simp] theorem satReg_fabWait (off lo n k : Nat) : (satReg s off lo n k).fabWait = s.fabWait := rfl
@[simp] theorem satReg_hkAt (off lo n k : Nat) : (satReg s off lo n k).hkAt = s.hkAt := rfl
@[simp] theorem satReg_msgAt (off lo n k : Nat) : (satReg s off lo n k).msgAt = s.msgAt := rfl
@[simp] theorem satReg_msgNow (off lo n k : Nat) : (satReg s off lo n k).msgNow = s.msgNow := rfl

/-! ### tick -/

@[simp] theorem tick_pending : (tick s).pending = s.pending := rfl
@[simp] theorem tick_now : (tick s).now = s.now := rfl
@[simp] theorem tick_phase : (tick s).phase = s.phase := rfl
@[simp] theorem tick_droneF : (tick s).droneF = s.droneF := rfl
@[simp] theorem tick_droneD : (tick s).droneD = s.droneD := rfl
@[simp] theorem tick_regs : (tick s).regs = s.regs := rfl
@[simp] theorem tick_feedA : (tick s).feedA = s.feedA := rfl
@[simp] theorem tick_feedB : (tick s).feedB = s.feedB := rfl
@[simp] theorem tick_fd : (tick s).fd = s.fd := rfl
@[simp] theorem tick_rails : (tick s).rails = s.rails := rfl
@[simp] theorem tick_idl : (tick s).idl = s.idl := rfl
@[simp] theorem tick_boot : (tick s).boot = s.boot := rfl
@[simp] theorem tick_chans : (tick s).chans = s.chans := rfl
@[simp] theorem tick_tiles : (tick s).tiles = s.tiles := rfl
@[simp] theorem tick_reeds : (tick s).reeds = s.reeds := rfl
@[simp] theorem tick_loops : (tick s).loops = s.loops := rfl
@[simp] theorem tick_park : (tick s).park = s.park := rfl
@[simp] theorem tick_slots : (tick s).slots = s.slots := rfl
@[simp] theorem tick_reqs : (tick s).reqs = s.reqs := rfl
@[simp] theorem tick_tabs : (tick s).tabs = s.tabs := rfl
@[simp] theorem tick_accs : (tick s).accs = s.accs := rfl
@[simp] theorem tick_cal : (tick s).cal = s.cal := rfl
@[simp] theorem tick_thermal : (tick s).thermal = s.thermal := rfl
@[simp] theorem tick_bore : (tick s).bore = s.bore := rfl
@[simp] theorem tick_cmdq : (tick s).cmdq = s.cmdq := rfl
@[simp] theorem tick_host : (tick s).host = s.host := rfl
@[simp] theorem tick_flash : (tick s).flash = s.flash := rfl
@[simp] theorem tick_bell : (tick s).bell = s.bell := rfl
@[simp] theorem tick_power : (tick s).power = s.power := rfl
@[simp] theorem tick_shelf : (tick s).shelf = s.shelf := rfl
@[simp] theorem tick_strobeAt : (tick s).strobeAt = s.strobeAt := rfl
@[simp] theorem tick_fabWait : (tick s).fabWait = s.fabWait := rfl
@[simp] theorem tick_hkAt : (tick s).hkAt = s.hkAt := rfl
@[simp] theorem tick_msgAt : (tick s).msgAt = s.msgAt := rfl
@[simp] theorem tick_msgNow : (tick s).msgNow = s.msgNow := rfl

/-! ### setChan -/

@[simp] theorem setChan_pending (ch : Nat) (c : ChanSt) : (setChan s ch c).pending = s.pending := rfl
@[simp] theorem setChan_now (ch : Nat) (c : ChanSt) : (setChan s ch c).now = s.now := rfl
@[simp] theorem setChan_phase (ch : Nat) (c : ChanSt) : (setChan s ch c).phase = s.phase := rfl
@[simp] theorem setChan_droneF (ch : Nat) (c : ChanSt) : (setChan s ch c).droneF = s.droneF := rfl
@[simp] theorem setChan_droneD (ch : Nat) (c : ChanSt) : (setChan s ch c).droneD = s.droneD := rfl
@[simp] theorem setChan_regs (ch : Nat) (c : ChanSt) : (setChan s ch c).regs = s.regs := rfl
@[simp] theorem setChan_feedA (ch : Nat) (c : ChanSt) : (setChan s ch c).feedA = s.feedA := rfl
@[simp] theorem setChan_feedB (ch : Nat) (c : ChanSt) : (setChan s ch c).feedB = s.feedB := rfl
@[simp] theorem setChan_fd (ch : Nat) (c : ChanSt) : (setChan s ch c).fd = s.fd := rfl
@[simp] theorem setChan_rails (ch : Nat) (c : ChanSt) : (setChan s ch c).rails = s.rails := rfl
@[simp] theorem setChan_idl (ch : Nat) (c : ChanSt) : (setChan s ch c).idl = s.idl := rfl
@[simp] theorem setChan_boot (ch : Nat) (c : ChanSt) : (setChan s ch c).boot = s.boot := rfl
@[simp] theorem setChan_tiles (ch : Nat) (c : ChanSt) : (setChan s ch c).tiles = s.tiles := rfl
@[simp] theorem setChan_reeds (ch : Nat) (c : ChanSt) : (setChan s ch c).reeds = s.reeds := rfl
@[simp] theorem setChan_loops (ch : Nat) (c : ChanSt) : (setChan s ch c).loops = s.loops := rfl
@[simp] theorem setChan_park (ch : Nat) (c : ChanSt) : (setChan s ch c).park = s.park := rfl
@[simp] theorem setChan_slots (ch : Nat) (c : ChanSt) : (setChan s ch c).slots = s.slots := rfl
@[simp] theorem setChan_reqs (ch : Nat) (c : ChanSt) : (setChan s ch c).reqs = s.reqs := rfl
@[simp] theorem setChan_tabs (ch : Nat) (c : ChanSt) : (setChan s ch c).tabs = s.tabs := rfl
@[simp] theorem setChan_accs (ch : Nat) (c : ChanSt) : (setChan s ch c).accs = s.accs := rfl
@[simp] theorem setChan_cal (ch : Nat) (c : ChanSt) : (setChan s ch c).cal = s.cal := rfl
@[simp] theorem setChan_thermal (ch : Nat) (c : ChanSt) : (setChan s ch c).thermal = s.thermal := rfl
@[simp] theorem setChan_bore (ch : Nat) (c : ChanSt) : (setChan s ch c).bore = s.bore := rfl
@[simp] theorem setChan_cmdq (ch : Nat) (c : ChanSt) : (setChan s ch c).cmdq = s.cmdq := rfl
@[simp] theorem setChan_host (ch : Nat) (c : ChanSt) : (setChan s ch c).host = s.host := rfl
@[simp] theorem setChan_flash (ch : Nat) (c : ChanSt) : (setChan s ch c).flash = s.flash := rfl
@[simp] theorem setChan_bell (ch : Nat) (c : ChanSt) : (setChan s ch c).bell = s.bell := rfl
@[simp] theorem setChan_power (ch : Nat) (c : ChanSt) : (setChan s ch c).power = s.power := rfl
@[simp] theorem setChan_shelf (ch : Nat) (c : ChanSt) : (setChan s ch c).shelf = s.shelf := rfl
@[simp] theorem setChan_free (ch : Nat) (c : ChanSt) : (setChan s ch c).free = s.free := rfl
@[simp] theorem setChan_strobeAt (ch : Nat) (c : ChanSt) : (setChan s ch c).strobeAt = s.strobeAt := rfl
@[simp] theorem setChan_fabWait (ch : Nat) (c : ChanSt) : (setChan s ch c).fabWait = s.fabWait := rfl
@[simp] theorem setChan_hkAt (ch : Nat) (c : ChanSt) : (setChan s ch c).hkAt = s.hkAt := rfl
@[simp] theorem setChan_msgAt (ch : Nat) (c : ChanSt) : (setChan s ch c).msgAt = s.msgAt := rfl
@[simp] theorem setChan_msgNow (ch : Nat) (c : ChanSt) : (setChan s ch c).msgNow = s.msgNow := rfl

/-! ### setTile -/

@[simp] theorem setTile_pending (t : Nat) (x : TileSt) : (setTile s t x).pending = s.pending := rfl
@[simp] theorem setTile_now (t : Nat) (x : TileSt) : (setTile s t x).now = s.now := rfl
@[simp] theorem setTile_phase (t : Nat) (x : TileSt) : (setTile s t x).phase = s.phase := rfl
@[simp] theorem setTile_droneF (t : Nat) (x : TileSt) : (setTile s t x).droneF = s.droneF := rfl
@[simp] theorem setTile_droneD (t : Nat) (x : TileSt) : (setTile s t x).droneD = s.droneD := rfl
@[simp] theorem setTile_regs (t : Nat) (x : TileSt) : (setTile s t x).regs = s.regs := rfl
@[simp] theorem setTile_feedA (t : Nat) (x : TileSt) : (setTile s t x).feedA = s.feedA := rfl
@[simp] theorem setTile_feedB (t : Nat) (x : TileSt) : (setTile s t x).feedB = s.feedB := rfl
@[simp] theorem setTile_fd (t : Nat) (x : TileSt) : (setTile s t x).fd = s.fd := rfl
@[simp] theorem setTile_rails (t : Nat) (x : TileSt) : (setTile s t x).rails = s.rails := rfl
@[simp] theorem setTile_idl (t : Nat) (x : TileSt) : (setTile s t x).idl = s.idl := rfl
@[simp] theorem setTile_boot (t : Nat) (x : TileSt) : (setTile s t x).boot = s.boot := rfl
@[simp] theorem setTile_chans (t : Nat) (x : TileSt) : (setTile s t x).chans = s.chans := rfl
@[simp] theorem setTile_reeds (t : Nat) (x : TileSt) : (setTile s t x).reeds = s.reeds := rfl
@[simp] theorem setTile_loops (t : Nat) (x : TileSt) : (setTile s t x).loops = s.loops := rfl
@[simp] theorem setTile_park (t : Nat) (x : TileSt) : (setTile s t x).park = s.park := rfl
@[simp] theorem setTile_slots (t : Nat) (x : TileSt) : (setTile s t x).slots = s.slots := rfl
@[simp] theorem setTile_reqs (t : Nat) (x : TileSt) : (setTile s t x).reqs = s.reqs := rfl
@[simp] theorem setTile_tabs (t : Nat) (x : TileSt) : (setTile s t x).tabs = s.tabs := rfl
@[simp] theorem setTile_accs (t : Nat) (x : TileSt) : (setTile s t x).accs = s.accs := rfl
@[simp] theorem setTile_cal (t : Nat) (x : TileSt) : (setTile s t x).cal = s.cal := rfl
@[simp] theorem setTile_thermal (t : Nat) (x : TileSt) : (setTile s t x).thermal = s.thermal := rfl
@[simp] theorem setTile_bore (t : Nat) (x : TileSt) : (setTile s t x).bore = s.bore := rfl
@[simp] theorem setTile_cmdq (t : Nat) (x : TileSt) : (setTile s t x).cmdq = s.cmdq := rfl
@[simp] theorem setTile_host (t : Nat) (x : TileSt) : (setTile s t x).host = s.host := rfl
@[simp] theorem setTile_flash (t : Nat) (x : TileSt) : (setTile s t x).flash = s.flash := rfl
@[simp] theorem setTile_bell (t : Nat) (x : TileSt) : (setTile s t x).bell = s.bell := rfl
@[simp] theorem setTile_power (t : Nat) (x : TileSt) : (setTile s t x).power = s.power := rfl
@[simp] theorem setTile_shelf (t : Nat) (x : TileSt) : (setTile s t x).shelf = s.shelf := rfl
@[simp] theorem setTile_free (t : Nat) (x : TileSt) : (setTile s t x).free = s.free := rfl
@[simp] theorem setTile_strobeAt (t : Nat) (x : TileSt) : (setTile s t x).strobeAt = s.strobeAt := rfl
@[simp] theorem setTile_fabWait (t : Nat) (x : TileSt) : (setTile s t x).fabWait = s.fabWait := rfl
@[simp] theorem setTile_hkAt (t : Nat) (x : TileSt) : (setTile s t x).hkAt = s.hkAt := rfl
@[simp] theorem setTile_msgAt (t : Nat) (x : TileSt) : (setTile s t x).msgAt = s.msgAt := rfl
@[simp] theorem setTile_msgNow (t : Nat) (x : TileSt) : (setTile s t x).msgNow = s.msgNow := rfl

/-! ### setReed -/

@[simp] theorem setReed_pending (r : Nat) (x : ReedSt) : (setReed s r x).pending = s.pending := rfl
@[simp] theorem setReed_now (r : Nat) (x : ReedSt) : (setReed s r x).now = s.now := rfl
@[simp] theorem setReed_phase (r : Nat) (x : ReedSt) : (setReed s r x).phase = s.phase := rfl
@[simp] theorem setReed_droneF (r : Nat) (x : ReedSt) : (setReed s r x).droneF = s.droneF := rfl
@[simp] theorem setReed_droneD (r : Nat) (x : ReedSt) : (setReed s r x).droneD = s.droneD := rfl
@[simp] theorem setReed_regs (r : Nat) (x : ReedSt) : (setReed s r x).regs = s.regs := rfl
@[simp] theorem setReed_feedA (r : Nat) (x : ReedSt) : (setReed s r x).feedA = s.feedA := rfl
@[simp] theorem setReed_feedB (r : Nat) (x : ReedSt) : (setReed s r x).feedB = s.feedB := rfl
@[simp] theorem setReed_fd (r : Nat) (x : ReedSt) : (setReed s r x).fd = s.fd := rfl
@[simp] theorem setReed_rails (r : Nat) (x : ReedSt) : (setReed s r x).rails = s.rails := rfl
@[simp] theorem setReed_idl (r : Nat) (x : ReedSt) : (setReed s r x).idl = s.idl := rfl
@[simp] theorem setReed_boot (r : Nat) (x : ReedSt) : (setReed s r x).boot = s.boot := rfl
@[simp] theorem setReed_chans (r : Nat) (x : ReedSt) : (setReed s r x).chans = s.chans := rfl
@[simp] theorem setReed_tiles (r : Nat) (x : ReedSt) : (setReed s r x).tiles = s.tiles := rfl
@[simp] theorem setReed_loops (r : Nat) (x : ReedSt) : (setReed s r x).loops = s.loops := rfl
@[simp] theorem setReed_park (r : Nat) (x : ReedSt) : (setReed s r x).park = s.park := rfl
@[simp] theorem setReed_slots (r : Nat) (x : ReedSt) : (setReed s r x).slots = s.slots := rfl
@[simp] theorem setReed_reqs (r : Nat) (x : ReedSt) : (setReed s r x).reqs = s.reqs := rfl
@[simp] theorem setReed_tabs (r : Nat) (x : ReedSt) : (setReed s r x).tabs = s.tabs := rfl
@[simp] theorem setReed_accs (r : Nat) (x : ReedSt) : (setReed s r x).accs = s.accs := rfl
@[simp] theorem setReed_cal (r : Nat) (x : ReedSt) : (setReed s r x).cal = s.cal := rfl
@[simp] theorem setReed_thermal (r : Nat) (x : ReedSt) : (setReed s r x).thermal = s.thermal := rfl
@[simp] theorem setReed_bore (r : Nat) (x : ReedSt) : (setReed s r x).bore = s.bore := rfl
@[simp] theorem setReed_cmdq (r : Nat) (x : ReedSt) : (setReed s r x).cmdq = s.cmdq := rfl
@[simp] theorem setReed_host (r : Nat) (x : ReedSt) : (setReed s r x).host = s.host := rfl
@[simp] theorem setReed_flash (r : Nat) (x : ReedSt) : (setReed s r x).flash = s.flash := rfl
@[simp] theorem setReed_bell (r : Nat) (x : ReedSt) : (setReed s r x).bell = s.bell := rfl
@[simp] theorem setReed_power (r : Nat) (x : ReedSt) : (setReed s r x).power = s.power := rfl
@[simp] theorem setReed_shelf (r : Nat) (x : ReedSt) : (setReed s r x).shelf = s.shelf := rfl
@[simp] theorem setReed_free (r : Nat) (x : ReedSt) : (setReed s r x).free = s.free := rfl
@[simp] theorem setReed_strobeAt (r : Nat) (x : ReedSt) : (setReed s r x).strobeAt = s.strobeAt := rfl
@[simp] theorem setReed_fabWait (r : Nat) (x : ReedSt) : (setReed s r x).fabWait = s.fabWait := rfl
@[simp] theorem setReed_hkAt (r : Nat) (x : ReedSt) : (setReed s r x).hkAt = s.hkAt := rfl
@[simp] theorem setReed_msgAt (r : Nat) (x : ReedSt) : (setReed s r x).msgAt = s.msgAt := rfl
@[simp] theorem setReed_msgNow (r : Nat) (x : ReedSt) : (setReed s r x).msgNow = s.msgNow := rfl

/-! ### setLoopCh -/

@[simp] theorem setLoopCh_pending (ch : Nat) (x : LoopCh) : (setLoopCh s ch x).pending = s.pending := rfl
@[simp] theorem setLoopCh_now (ch : Nat) (x : LoopCh) : (setLoopCh s ch x).now = s.now := rfl
@[simp] theorem setLoopCh_phase (ch : Nat) (x : LoopCh) : (setLoopCh s ch x).phase = s.phase := rfl
@[simp] theorem setLoopCh_droneF (ch : Nat) (x : LoopCh) : (setLoopCh s ch x).droneF = s.droneF := rfl
@[simp] theorem setLoopCh_droneD (ch : Nat) (x : LoopCh) : (setLoopCh s ch x).droneD = s.droneD := rfl
@[simp] theorem setLoopCh_regs (ch : Nat) (x : LoopCh) : (setLoopCh s ch x).regs = s.regs := rfl
@[simp] theorem setLoopCh_feedA (ch : Nat) (x : LoopCh) : (setLoopCh s ch x).feedA = s.feedA := rfl
@[simp] theorem setLoopCh_feedB (ch : Nat) (x : LoopCh) : (setLoopCh s ch x).feedB = s.feedB := rfl
@[simp] theorem setLoopCh_fd (ch : Nat) (x : LoopCh) : (setLoopCh s ch x).fd = s.fd := rfl
@[simp] theorem setLoopCh_rails (ch : Nat) (x : LoopCh) : (setLoopCh s ch x).rails = s.rails := rfl
@[simp] theorem setLoopCh_idl (ch : Nat) (x : LoopCh) : (setLoopCh s ch x).idl = s.idl := rfl
@[simp] theorem setLoopCh_boot (ch : Nat) (x : LoopCh) : (setLoopCh s ch x).boot = s.boot := rfl
@[simp] theorem setLoopCh_chans (ch : Nat) (x : LoopCh) : (setLoopCh s ch x).chans = s.chans := rfl
@[simp] theorem setLoopCh_tiles (ch : Nat) (x : LoopCh) : (setLoopCh s ch x).tiles = s.tiles := rfl
@[simp] theorem setLoopCh_reeds (ch : Nat) (x : LoopCh) : (setLoopCh s ch x).reeds = s.reeds := rfl
@[simp] theorem setLoopCh_park (ch : Nat) (x : LoopCh) : (setLoopCh s ch x).park = s.park := rfl
@[simp] theorem setLoopCh_slots (ch : Nat) (x : LoopCh) : (setLoopCh s ch x).slots = s.slots := rfl
@[simp] theorem setLoopCh_reqs (ch : Nat) (x : LoopCh) : (setLoopCh s ch x).reqs = s.reqs := rfl
@[simp] theorem setLoopCh_tabs (ch : Nat) (x : LoopCh) : (setLoopCh s ch x).tabs = s.tabs := rfl
@[simp] theorem setLoopCh_accs (ch : Nat) (x : LoopCh) : (setLoopCh s ch x).accs = s.accs := rfl
@[simp] theorem setLoopCh_cal (ch : Nat) (x : LoopCh) : (setLoopCh s ch x).cal = s.cal := rfl
@[simp] theorem setLoopCh_thermal (ch : Nat) (x : LoopCh) : (setLoopCh s ch x).thermal = s.thermal := rfl
@[simp] theorem setLoopCh_bore (ch : Nat) (x : LoopCh) : (setLoopCh s ch x).bore = s.bore := rfl
@[simp] theorem setLoopCh_cmdq (ch : Nat) (x : LoopCh) : (setLoopCh s ch x).cmdq = s.cmdq := rfl
@[simp] theorem setLoopCh_host (ch : Nat) (x : LoopCh) : (setLoopCh s ch x).host = s.host := rfl
@[simp] theorem setLoopCh_flash (ch : Nat) (x : LoopCh) : (setLoopCh s ch x).flash = s.flash := rfl
@[simp] theorem setLoopCh_bell (ch : Nat) (x : LoopCh) : (setLoopCh s ch x).bell = s.bell := rfl
@[simp] theorem setLoopCh_power (ch : Nat) (x : LoopCh) : (setLoopCh s ch x).power = s.power := rfl
@[simp] theorem setLoopCh_shelf (ch : Nat) (x : LoopCh) : (setLoopCh s ch x).shelf = s.shelf := rfl
@[simp] theorem setLoopCh_free (ch : Nat) (x : LoopCh) : (setLoopCh s ch x).free = s.free := rfl
@[simp] theorem setLoopCh_strobeAt (ch : Nat) (x : LoopCh) : (setLoopCh s ch x).strobeAt = s.strobeAt := rfl
@[simp] theorem setLoopCh_fabWait (ch : Nat) (x : LoopCh) : (setLoopCh s ch x).fabWait = s.fabWait := rfl
@[simp] theorem setLoopCh_hkAt (ch : Nat) (x : LoopCh) : (setLoopCh s ch x).hkAt = s.hkAt := rfl
@[simp] theorem setLoopCh_msgAt (ch : Nat) (x : LoopCh) : (setLoopCh s ch x).msgAt = s.msgAt := rfl
@[simp] theorem setLoopCh_msgNow (ch : Nat) (x : LoopCh) : (setLoopCh s ch x).msgNow = s.msgNow := rfl

/-! ### setSlot -/

@[simp] theorem setSlot_pending (k : Nat) (x : SlotSt) : (setSlot s k x).pending = s.pending := rfl
@[simp] theorem setSlot_now (k : Nat) (x : SlotSt) : (setSlot s k x).now = s.now := rfl
@[simp] theorem setSlot_phase (k : Nat) (x : SlotSt) : (setSlot s k x).phase = s.phase := rfl
@[simp] theorem setSlot_droneF (k : Nat) (x : SlotSt) : (setSlot s k x).droneF = s.droneF := rfl
@[simp] theorem setSlot_droneD (k : Nat) (x : SlotSt) : (setSlot s k x).droneD = s.droneD := rfl
@[simp] theorem setSlot_regs (k : Nat) (x : SlotSt) : (setSlot s k x).regs = s.regs := rfl
@[simp] theorem setSlot_feedA (k : Nat) (x : SlotSt) : (setSlot s k x).feedA = s.feedA := rfl
@[simp] theorem setSlot_feedB (k : Nat) (x : SlotSt) : (setSlot s k x).feedB = s.feedB := rfl
@[simp] theorem setSlot_fd (k : Nat) (x : SlotSt) : (setSlot s k x).fd = s.fd := rfl
@[simp] theorem setSlot_rails (k : Nat) (x : SlotSt) : (setSlot s k x).rails = s.rails := rfl
@[simp] theorem setSlot_idl (k : Nat) (x : SlotSt) : (setSlot s k x).idl = s.idl := rfl
@[simp] theorem setSlot_boot (k : Nat) (x : SlotSt) : (setSlot s k x).boot = s.boot := rfl
@[simp] theorem setSlot_chans (k : Nat) (x : SlotSt) : (setSlot s k x).chans = s.chans := rfl
@[simp] theorem setSlot_tiles (k : Nat) (x : SlotSt) : (setSlot s k x).tiles = s.tiles := rfl
@[simp] theorem setSlot_reeds (k : Nat) (x : SlotSt) : (setSlot s k x).reeds = s.reeds := rfl
@[simp] theorem setSlot_loops (k : Nat) (x : SlotSt) : (setSlot s k x).loops = s.loops := rfl
@[simp] theorem setSlot_park (k : Nat) (x : SlotSt) : (setSlot s k x).park = s.park := rfl
@[simp] theorem setSlot_reqs (k : Nat) (x : SlotSt) : (setSlot s k x).reqs = s.reqs := rfl
@[simp] theorem setSlot_tabs (k : Nat) (x : SlotSt) : (setSlot s k x).tabs = s.tabs := rfl
@[simp] theorem setSlot_accs (k : Nat) (x : SlotSt) : (setSlot s k x).accs = s.accs := rfl
@[simp] theorem setSlot_cal (k : Nat) (x : SlotSt) : (setSlot s k x).cal = s.cal := rfl
@[simp] theorem setSlot_thermal (k : Nat) (x : SlotSt) : (setSlot s k x).thermal = s.thermal := rfl
@[simp] theorem setSlot_bore (k : Nat) (x : SlotSt) : (setSlot s k x).bore = s.bore := rfl
@[simp] theorem setSlot_cmdq (k : Nat) (x : SlotSt) : (setSlot s k x).cmdq = s.cmdq := rfl
@[simp] theorem setSlot_host (k : Nat) (x : SlotSt) : (setSlot s k x).host = s.host := rfl
@[simp] theorem setSlot_flash (k : Nat) (x : SlotSt) : (setSlot s k x).flash = s.flash := rfl
@[simp] theorem setSlot_bell (k : Nat) (x : SlotSt) : (setSlot s k x).bell = s.bell := rfl
@[simp] theorem setSlot_power (k : Nat) (x : SlotSt) : (setSlot s k x).power = s.power := rfl
@[simp] theorem setSlot_shelf (k : Nat) (x : SlotSt) : (setSlot s k x).shelf = s.shelf := rfl
@[simp] theorem setSlot_free (k : Nat) (x : SlotSt) : (setSlot s k x).free = s.free := rfl
@[simp] theorem setSlot_strobeAt (k : Nat) (x : SlotSt) : (setSlot s k x).strobeAt = s.strobeAt := rfl
@[simp] theorem setSlot_fabWait (k : Nat) (x : SlotSt) : (setSlot s k x).fabWait = s.fabWait := rfl
@[simp] theorem setSlot_hkAt (k : Nat) (x : SlotSt) : (setSlot s k x).hkAt = s.hkAt := rfl
@[simp] theorem setSlot_msgAt (k : Nat) (x : SlotSt) : (setSlot s k x).msgAt = s.msgAt := rfl
@[simp] theorem setSlot_msgNow (k : Nat) (x : SlotSt) : (setSlot s k x).msgNow = s.msgNow := rfl

/-! ### setTab -/

@[simp] theorem setTab_pending (k : Nat) (x : TabCmd) : (setTab s k x).pending = s.pending := rfl
@[simp] theorem setTab_now (k : Nat) (x : TabCmd) : (setTab s k x).now = s.now := rfl
@[simp] theorem setTab_phase (k : Nat) (x : TabCmd) : (setTab s k x).phase = s.phase := rfl
@[simp] theorem setTab_droneF (k : Nat) (x : TabCmd) : (setTab s k x).droneF = s.droneF := rfl
@[simp] theorem setTab_droneD (k : Nat) (x : TabCmd) : (setTab s k x).droneD = s.droneD := rfl
@[simp] theorem setTab_regs (k : Nat) (x : TabCmd) : (setTab s k x).regs = s.regs := rfl
@[simp] theorem setTab_feedA (k : Nat) (x : TabCmd) : (setTab s k x).feedA = s.feedA := rfl
@[simp] theorem setTab_feedB (k : Nat) (x : TabCmd) : (setTab s k x).feedB = s.feedB := rfl
@[simp] theorem setTab_fd (k : Nat) (x : TabCmd) : (setTab s k x).fd = s.fd := rfl
@[simp] theorem setTab_rails (k : Nat) (x : TabCmd) : (setTab s k x).rails = s.rails := rfl
@[simp] theorem setTab_idl (k : Nat) (x : TabCmd) : (setTab s k x).idl = s.idl := rfl
@[simp] theorem setTab_boot (k : Nat) (x : TabCmd) : (setTab s k x).boot = s.boot := rfl
@[simp] theorem setTab_chans (k : Nat) (x : TabCmd) : (setTab s k x).chans = s.chans := rfl
@[simp] theorem setTab_tiles (k : Nat) (x : TabCmd) : (setTab s k x).tiles = s.tiles := rfl
@[simp] theorem setTab_reeds (k : Nat) (x : TabCmd) : (setTab s k x).reeds = s.reeds := rfl
@[simp] theorem setTab_loops (k : Nat) (x : TabCmd) : (setTab s k x).loops = s.loops := rfl
@[simp] theorem setTab_park (k : Nat) (x : TabCmd) : (setTab s k x).park = s.park := rfl
@[simp] theorem setTab_slots (k : Nat) (x : TabCmd) : (setTab s k x).slots = s.slots := rfl
@[simp] theorem setTab_reqs (k : Nat) (x : TabCmd) : (setTab s k x).reqs = s.reqs := rfl
@[simp] theorem setTab_accs (k : Nat) (x : TabCmd) : (setTab s k x).accs = s.accs := rfl
@[simp] theorem setTab_cal (k : Nat) (x : TabCmd) : (setTab s k x).cal = s.cal := rfl
@[simp] theorem setTab_thermal (k : Nat) (x : TabCmd) : (setTab s k x).thermal = s.thermal := rfl
@[simp] theorem setTab_bore (k : Nat) (x : TabCmd) : (setTab s k x).bore = s.bore := rfl
@[simp] theorem setTab_cmdq (k : Nat) (x : TabCmd) : (setTab s k x).cmdq = s.cmdq := rfl
@[simp] theorem setTab_host (k : Nat) (x : TabCmd) : (setTab s k x).host = s.host := rfl
@[simp] theorem setTab_flash (k : Nat) (x : TabCmd) : (setTab s k x).flash = s.flash := rfl
@[simp] theorem setTab_bell (k : Nat) (x : TabCmd) : (setTab s k x).bell = s.bell := rfl
@[simp] theorem setTab_power (k : Nat) (x : TabCmd) : (setTab s k x).power = s.power := rfl
@[simp] theorem setTab_shelf (k : Nat) (x : TabCmd) : (setTab s k x).shelf = s.shelf := rfl
@[simp] theorem setTab_free (k : Nat) (x : TabCmd) : (setTab s k x).free = s.free := rfl
@[simp] theorem setTab_strobeAt (k : Nat) (x : TabCmd) : (setTab s k x).strobeAt = s.strobeAt := rfl
@[simp] theorem setTab_fabWait (k : Nat) (x : TabCmd) : (setTab s k x).fabWait = s.fabWait := rfl
@[simp] theorem setTab_hkAt (k : Nat) (x : TabCmd) : (setTab s k x).hkAt = s.hkAt := rfl
@[simp] theorem setTab_msgAt (k : Nat) (x : TabCmd) : (setTab s k x).msgAt = s.msgAt := rfl
@[simp] theorem setTab_msgNow (k : Nat) (x : TabCmd) : (setTab s k x).msgNow = s.msgNow := rfl

/-! ### setReq -/

@[simp] theorem setReq_pending (k : Nat) (r : Req) : (setReq s k r).pending = s.pending := rfl
@[simp] theorem setReq_now (k : Nat) (r : Req) : (setReq s k r).now = s.now := rfl
@[simp] theorem setReq_phase (k : Nat) (r : Req) : (setReq s k r).phase = s.phase := rfl
@[simp] theorem setReq_droneF (k : Nat) (r : Req) : (setReq s k r).droneF = s.droneF := rfl
@[simp] theorem setReq_droneD (k : Nat) (r : Req) : (setReq s k r).droneD = s.droneD := rfl
@[simp] theorem setReq_regs (k : Nat) (r : Req) : (setReq s k r).regs = s.regs := rfl
@[simp] theorem setReq_feedA (k : Nat) (r : Req) : (setReq s k r).feedA = s.feedA := rfl
@[simp] theorem setReq_feedB (k : Nat) (r : Req) : (setReq s k r).feedB = s.feedB := rfl
@[simp] theorem setReq_fd (k : Nat) (r : Req) : (setReq s k r).fd = s.fd := rfl
@[simp] theorem setReq_rails (k : Nat) (r : Req) : (setReq s k r).rails = s.rails := rfl
@[simp] theorem setReq_idl (k : Nat) (r : Req) : (setReq s k r).idl = s.idl := rfl
@[simp] theorem setReq_boot (k : Nat) (r : Req) : (setReq s k r).boot = s.boot := rfl
@[simp] theorem setReq_chans (k : Nat) (r : Req) : (setReq s k r).chans = s.chans := rfl
@[simp] theorem setReq_tiles (k : Nat) (r : Req) : (setReq s k r).tiles = s.tiles := rfl
@[simp] theorem setReq_reeds (k : Nat) (r : Req) : (setReq s k r).reeds = s.reeds := rfl
@[simp] theorem setReq_loops (k : Nat) (r : Req) : (setReq s k r).loops = s.loops := rfl
@[simp] theorem setReq_park (k : Nat) (r : Req) : (setReq s k r).park = s.park := rfl
@[simp] theorem setReq_slots (k : Nat) (r : Req) : (setReq s k r).slots = s.slots := rfl
@[simp] theorem setReq_tabs (k : Nat) (r : Req) : (setReq s k r).tabs = s.tabs := rfl
@[simp] theorem setReq_accs (k : Nat) (r : Req) : (setReq s k r).accs = s.accs := rfl
@[simp] theorem setReq_cal (k : Nat) (r : Req) : (setReq s k r).cal = s.cal := rfl
@[simp] theorem setReq_thermal (k : Nat) (r : Req) : (setReq s k r).thermal = s.thermal := rfl
@[simp] theorem setReq_bore (k : Nat) (r : Req) : (setReq s k r).bore = s.bore := rfl
@[simp] theorem setReq_cmdq (k : Nat) (r : Req) : (setReq s k r).cmdq = s.cmdq := rfl
@[simp] theorem setReq_host (k : Nat) (r : Req) : (setReq s k r).host = s.host := rfl
@[simp] theorem setReq_flash (k : Nat) (r : Req) : (setReq s k r).flash = s.flash := rfl
@[simp] theorem setReq_bell (k : Nat) (r : Req) : (setReq s k r).bell = s.bell := rfl
@[simp] theorem setReq_power (k : Nat) (r : Req) : (setReq s k r).power = s.power := rfl
@[simp] theorem setReq_shelf (k : Nat) (r : Req) : (setReq s k r).shelf = s.shelf := rfl
@[simp] theorem setReq_free (k : Nat) (r : Req) : (setReq s k r).free = s.free := rfl
@[simp] theorem setReq_strobeAt (k : Nat) (r : Req) : (setReq s k r).strobeAt = s.strobeAt := rfl
@[simp] theorem setReq_fabWait (k : Nat) (r : Req) : (setReq s k r).fabWait = s.fabWait := rfl
@[simp] theorem setReq_hkAt (k : Nat) (r : Req) : (setReq s k r).hkAt = s.hkAt := rfl
@[simp] theorem setReq_msgAt (k : Nat) (r : Req) : (setReq s k r).msgAt = s.msgAt := rfl
@[simp] theorem setReq_msgNow (k : Nat) (r : Req) : (setReq s k r).msgNow = s.msgNow := rfl

/-! ### delReq -/

@[simp] theorem delReq_pending (k : Nat) : (delReq s k).pending = s.pending := rfl
@[simp] theorem delReq_now (k : Nat) : (delReq s k).now = s.now := rfl
@[simp] theorem delReq_phase (k : Nat) : (delReq s k).phase = s.phase := rfl
@[simp] theorem delReq_droneF (k : Nat) : (delReq s k).droneF = s.droneF := rfl
@[simp] theorem delReq_droneD (k : Nat) : (delReq s k).droneD = s.droneD := rfl
@[simp] theorem delReq_regs (k : Nat) : (delReq s k).regs = s.regs := rfl
@[simp] theorem delReq_feedA (k : Nat) : (delReq s k).feedA = s.feedA := rfl
@[simp] theorem delReq_feedB (k : Nat) : (delReq s k).feedB = s.feedB := rfl
@[simp] theorem delReq_fd (k : Nat) : (delReq s k).fd = s.fd := rfl
@[simp] theorem delReq_rails (k : Nat) : (delReq s k).rails = s.rails := rfl
@[simp] theorem delReq_idl (k : Nat) : (delReq s k).idl = s.idl := rfl
@[simp] theorem delReq_boot (k : Nat) : (delReq s k).boot = s.boot := rfl
@[simp] theorem delReq_chans (k : Nat) : (delReq s k).chans = s.chans := rfl
@[simp] theorem delReq_tiles (k : Nat) : (delReq s k).tiles = s.tiles := rfl
@[simp] theorem delReq_reeds (k : Nat) : (delReq s k).reeds = s.reeds := rfl
@[simp] theorem delReq_loops (k : Nat) : (delReq s k).loops = s.loops := rfl
@[simp] theorem delReq_park (k : Nat) : (delReq s k).park = s.park := rfl
@[simp] theorem delReq_slots (k : Nat) : (delReq s k).slots = s.slots := rfl
@[simp] theorem delReq_tabs (k : Nat) : (delReq s k).tabs = s.tabs := rfl
@[simp] theorem delReq_accs (k : Nat) : (delReq s k).accs = s.accs := rfl
@[simp] theorem delReq_cal (k : Nat) : (delReq s k).cal = s.cal := rfl
@[simp] theorem delReq_thermal (k : Nat) : (delReq s k).thermal = s.thermal := rfl
@[simp] theorem delReq_bore (k : Nat) : (delReq s k).bore = s.bore := rfl
@[simp] theorem delReq_cmdq (k : Nat) : (delReq s k).cmdq = s.cmdq := rfl
@[simp] theorem delReq_host (k : Nat) : (delReq s k).host = s.host := rfl
@[simp] theorem delReq_flash (k : Nat) : (delReq s k).flash = s.flash := rfl
@[simp] theorem delReq_bell (k : Nat) : (delReq s k).bell = s.bell := rfl
@[simp] theorem delReq_power (k : Nat) : (delReq s k).power = s.power := rfl
@[simp] theorem delReq_shelf (k : Nat) : (delReq s k).shelf = s.shelf := rfl
@[simp] theorem delReq_free (k : Nat) : (delReq s k).free = s.free := rfl
@[simp] theorem delReq_strobeAt (k : Nat) : (delReq s k).strobeAt = s.strobeAt := rfl
@[simp] theorem delReq_fabWait (k : Nat) : (delReq s k).fabWait = s.fabWait := rfl
@[simp] theorem delReq_hkAt (k : Nat) : (delReq s k).hkAt = s.hkAt := rfl
@[simp] theorem delReq_msgAt (k : Nat) : (delReq s k).msgAt = s.msgAt := rfl
@[simp] theorem delReq_msgNow (k : Nat) : (delReq s k).msgNow = s.msgNow := rfl

/-! ### setSq -/

@[simp] theorem setSq_pending (q : Nat) (x : SqSt) : (setSq s q x).pending = s.pending := rfl
@[simp] theorem setSq_now (q : Nat) (x : SqSt) : (setSq s q x).now = s.now := rfl
@[simp] theorem setSq_phase (q : Nat) (x : SqSt) : (setSq s q x).phase = s.phase := rfl
@[simp] theorem setSq_droneF (q : Nat) (x : SqSt) : (setSq s q x).droneF = s.droneF := rfl
@[simp] theorem setSq_droneD (q : Nat) (x : SqSt) : (setSq s q x).droneD = s.droneD := rfl
@[simp] theorem setSq_regs (q : Nat) (x : SqSt) : (setSq s q x).regs = s.regs := rfl
@[simp] theorem setSq_feedA (q : Nat) (x : SqSt) : (setSq s q x).feedA = s.feedA := rfl
@[simp] theorem setSq_feedB (q : Nat) (x : SqSt) : (setSq s q x).feedB = s.feedB := rfl
@[simp] theorem setSq_fd (q : Nat) (x : SqSt) : (setSq s q x).fd = s.fd := rfl
@[simp] theorem setSq_rails (q : Nat) (x : SqSt) : (setSq s q x).rails = s.rails := rfl
@[simp] theorem setSq_idl (q : Nat) (x : SqSt) : (setSq s q x).idl = s.idl := rfl
@[simp] theorem setSq_boot (q : Nat) (x : SqSt) : (setSq s q x).boot = s.boot := rfl
@[simp] theorem setSq_chans (q : Nat) (x : SqSt) : (setSq s q x).chans = s.chans := rfl
@[simp] theorem setSq_tiles (q : Nat) (x : SqSt) : (setSq s q x).tiles = s.tiles := rfl
@[simp] theorem setSq_reeds (q : Nat) (x : SqSt) : (setSq s q x).reeds = s.reeds := rfl
@[simp] theorem setSq_loops (q : Nat) (x : SqSt) : (setSq s q x).loops = s.loops := rfl
@[simp] theorem setSq_park (q : Nat) (x : SqSt) : (setSq s q x).park = s.park := rfl
@[simp] theorem setSq_slots (q : Nat) (x : SqSt) : (setSq s q x).slots = s.slots := rfl
@[simp] theorem setSq_reqs (q : Nat) (x : SqSt) : (setSq s q x).reqs = s.reqs := rfl
@[simp] theorem setSq_tabs (q : Nat) (x : SqSt) : (setSq s q x).tabs = s.tabs := rfl
@[simp] theorem setSq_accs (q : Nat) (x : SqSt) : (setSq s q x).accs = s.accs := rfl
@[simp] theorem setSq_cal (q : Nat) (x : SqSt) : (setSq s q x).cal = s.cal := rfl
@[simp] theorem setSq_thermal (q : Nat) (x : SqSt) : (setSq s q x).thermal = s.thermal := rfl
@[simp] theorem setSq_bore (q : Nat) (x : SqSt) : (setSq s q x).bore = s.bore := rfl
@[simp] theorem setSq_host (q : Nat) (x : SqSt) : (setSq s q x).host = s.host := rfl
@[simp] theorem setSq_flash (q : Nat) (x : SqSt) : (setSq s q x).flash = s.flash := rfl
@[simp] theorem setSq_bell (q : Nat) (x : SqSt) : (setSq s q x).bell = s.bell := rfl
@[simp] theorem setSq_power (q : Nat) (x : SqSt) : (setSq s q x).power = s.power := rfl
@[simp] theorem setSq_shelf (q : Nat) (x : SqSt) : (setSq s q x).shelf = s.shelf := rfl
@[simp] theorem setSq_free (q : Nat) (x : SqSt) : (setSq s q x).free = s.free := rfl
@[simp] theorem setSq_strobeAt (q : Nat) (x : SqSt) : (setSq s q x).strobeAt = s.strobeAt := rfl
@[simp] theorem setSq_fabWait (q : Nat) (x : SqSt) : (setSq s q x).fabWait = s.fabWait := rfl
@[simp] theorem setSq_hkAt (q : Nat) (x : SqSt) : (setSq s q x).hkAt = s.hkAt := rfl
@[simp] theorem setSq_msgAt (q : Nat) (x : SqSt) : (setSq s q x).msgAt = s.msgAt := rfl
@[simp] theorem setSq_msgNow (q : Nat) (x : SqSt) : (setSq s q x).msgNow = s.msgNow := rfl

/-! ### setCq -/

@[simp] theorem setCq_pending (q : Nat) (x : CqSt) : (setCq s q x).pending = s.pending := rfl
@[simp] theorem setCq_now (q : Nat) (x : CqSt) : (setCq s q x).now = s.now := rfl
@[simp] theorem setCq_phase (q : Nat) (x : CqSt) : (setCq s q x).phase = s.phase := rfl
@[simp] theorem setCq_droneF (q : Nat) (x : CqSt) : (setCq s q x).droneF = s.droneF := rfl
@[simp] theorem setCq_droneD (q : Nat) (x : CqSt) : (setCq s q x).droneD = s.droneD := rfl
@[simp] theorem setCq_regs (q : Nat) (x : CqSt) : (setCq s q x).regs = s.regs := rfl
@[simp] theorem setCq_feedA (q : Nat) (x : CqSt) : (setCq s q x).feedA = s.feedA := rfl
@[simp] theorem setCq_feedB (q : Nat) (x : CqSt) : (setCq s q x).feedB = s.feedB := rfl
@[simp] theorem setCq_fd (q : Nat) (x : CqSt) : (setCq s q x).fd = s.fd := rfl
@[simp] theorem setCq_rails (q : Nat) (x : CqSt) : (setCq s q x).rails = s.rails := rfl
@[simp] theorem setCq_idl (q : Nat) (x : CqSt) : (setCq s q x).idl = s.idl := rfl
@[simp] theorem setCq_boot (q : Nat) (x : CqSt) : (setCq s q x).boot = s.boot := rfl
@[simp] theorem setCq_chans (q : Nat) (x : CqSt) : (setCq s q x).chans = s.chans := rfl
@[simp] theorem setCq_tiles (q : Nat) (x : CqSt) : (setCq s q x).tiles = s.tiles := rfl
@[simp] theorem setCq_reeds (q : Nat) (x : CqSt) : (setCq s q x).reeds = s.reeds := rfl
@[simp] theorem setCq_loops (q : Nat) (x : CqSt) : (setCq s q x).loops = s.loops := rfl
@[simp] theorem setCq_park (q : Nat) (x : CqSt) : (setCq s q x).park = s.park := rfl
@[simp] theorem setCq_slots (q : Nat) (x : CqSt) : (setCq s q x).slots = s.slots := rfl
@[simp] theorem setCq_reqs (q : Nat) (x : CqSt) : (setCq s q x).reqs = s.reqs := rfl
@[simp] theorem setCq_tabs (q : Nat) (x : CqSt) : (setCq s q x).tabs = s.tabs := rfl
@[simp] theorem setCq_accs (q : Nat) (x : CqSt) : (setCq s q x).accs = s.accs := rfl
@[simp] theorem setCq_cal (q : Nat) (x : CqSt) : (setCq s q x).cal = s.cal := rfl
@[simp] theorem setCq_thermal (q : Nat) (x : CqSt) : (setCq s q x).thermal = s.thermal := rfl
@[simp] theorem setCq_bore (q : Nat) (x : CqSt) : (setCq s q x).bore = s.bore := rfl
@[simp] theorem setCq_host (q : Nat) (x : CqSt) : (setCq s q x).host = s.host := rfl
@[simp] theorem setCq_flash (q : Nat) (x : CqSt) : (setCq s q x).flash = s.flash := rfl
@[simp] theorem setCq_bell (q : Nat) (x : CqSt) : (setCq s q x).bell = s.bell := rfl
@[simp] theorem setCq_power (q : Nat) (x : CqSt) : (setCq s q x).power = s.power := rfl
@[simp] theorem setCq_shelf (q : Nat) (x : CqSt) : (setCq s q x).shelf = s.shelf := rfl
@[simp] theorem setCq_free (q : Nat) (x : CqSt) : (setCq s q x).free = s.free := rfl
@[simp] theorem setCq_strobeAt (q : Nat) (x : CqSt) : (setCq s q x).strobeAt = s.strobeAt := rfl
@[simp] theorem setCq_fabWait (q : Nat) (x : CqSt) : (setCq s q x).fabWait = s.fabWait := rfl
@[simp] theorem setCq_hkAt (q : Nat) (x : CqSt) : (setCq s q x).hkAt = s.hkAt := rfl
@[simp] theorem setCq_msgAt (q : Nat) (x : CqSt) : (setCq s q x).msgAt = s.msgAt := rfl
@[simp] theorem setCq_msgNow (q : Nat) (x : CqSt) : (setCq s q x).msgNow = s.msgNow := rfl

/-! ### setCmd -/

@[simp] theorem setCmd_pending (c : Cmd) : (setCmd s c).pending = s.pending := rfl
@[simp] theorem setCmd_now (c : Cmd) : (setCmd s c).now = s.now := rfl
@[simp] theorem setCmd_phase (c : Cmd) : (setCmd s c).phase = s.phase := rfl
@[simp] theorem setCmd_droneF (c : Cmd) : (setCmd s c).droneF = s.droneF := rfl
@[simp] theorem setCmd_droneD (c : Cmd) : (setCmd s c).droneD = s.droneD := rfl
@[simp] theorem setCmd_regs (c : Cmd) : (setCmd s c).regs = s.regs := rfl
@[simp] theorem setCmd_feedA (c : Cmd) : (setCmd s c).feedA = s.feedA := rfl
@[simp] theorem setCmd_feedB (c : Cmd) : (setCmd s c).feedB = s.feedB := rfl
@[simp] theorem setCmd_fd (c : Cmd) : (setCmd s c).fd = s.fd := rfl
@[simp] theorem setCmd_rails (c : Cmd) : (setCmd s c).rails = s.rails := rfl
@[simp] theorem setCmd_idl (c : Cmd) : (setCmd s c).idl = s.idl := rfl
@[simp] theorem setCmd_boot (c : Cmd) : (setCmd s c).boot = s.boot := rfl
@[simp] theorem setCmd_chans (c : Cmd) : (setCmd s c).chans = s.chans := rfl
@[simp] theorem setCmd_tiles (c : Cmd) : (setCmd s c).tiles = s.tiles := rfl
@[simp] theorem setCmd_reeds (c : Cmd) : (setCmd s c).reeds = s.reeds := rfl
@[simp] theorem setCmd_loops (c : Cmd) : (setCmd s c).loops = s.loops := rfl
@[simp] theorem setCmd_park (c : Cmd) : (setCmd s c).park = s.park := rfl
@[simp] theorem setCmd_slots (c : Cmd) : (setCmd s c).slots = s.slots := rfl
@[simp] theorem setCmd_reqs (c : Cmd) : (setCmd s c).reqs = s.reqs := rfl
@[simp] theorem setCmd_tabs (c : Cmd) : (setCmd s c).tabs = s.tabs := rfl
@[simp] theorem setCmd_accs (c : Cmd) : (setCmd s c).accs = s.accs := rfl
@[simp] theorem setCmd_cal (c : Cmd) : (setCmd s c).cal = s.cal := rfl
@[simp] theorem setCmd_thermal (c : Cmd) : (setCmd s c).thermal = s.thermal := rfl
@[simp] theorem setCmd_bore (c : Cmd) : (setCmd s c).bore = s.bore := rfl
@[simp] theorem setCmd_host (c : Cmd) : (setCmd s c).host = s.host := rfl
@[simp] theorem setCmd_flash (c : Cmd) : (setCmd s c).flash = s.flash := rfl
@[simp] theorem setCmd_bell (c : Cmd) : (setCmd s c).bell = s.bell := rfl
@[simp] theorem setCmd_power (c : Cmd) : (setCmd s c).power = s.power := rfl
@[simp] theorem setCmd_shelf (c : Cmd) : (setCmd s c).shelf = s.shelf := rfl
@[simp] theorem setCmd_free (c : Cmd) : (setCmd s c).free = s.free := rfl
@[simp] theorem setCmd_strobeAt (c : Cmd) : (setCmd s c).strobeAt = s.strobeAt := rfl
@[simp] theorem setCmd_fabWait (c : Cmd) : (setCmd s c).fabWait = s.fabWait := rfl
@[simp] theorem setCmd_hkAt (c : Cmd) : (setCmd s c).hkAt = s.hkAt := rfl
@[simp] theorem setCmd_msgAt (c : Cmd) : (setCmd s c).msgAt = s.msgAt := rfl
@[simp] theorem setCmd_msgNow (c : Cmd) : (setCmd s c).msgNow = s.msgNow := rfl

/-! ### freeTag -/

@[simp] theorem freeTag_pending (tag : Nat) : (freeTag s tag).pending = s.pending := rfl
@[simp] theorem freeTag_now (tag : Nat) : (freeTag s tag).now = s.now := rfl
@[simp] theorem freeTag_phase (tag : Nat) : (freeTag s tag).phase = s.phase := rfl
@[simp] theorem freeTag_droneF (tag : Nat) : (freeTag s tag).droneF = s.droneF := rfl
@[simp] theorem freeTag_droneD (tag : Nat) : (freeTag s tag).droneD = s.droneD := rfl
@[simp] theorem freeTag_regs (tag : Nat) : (freeTag s tag).regs = s.regs := rfl
@[simp] theorem freeTag_feedA (tag : Nat) : (freeTag s tag).feedA = s.feedA := rfl
@[simp] theorem freeTag_feedB (tag : Nat) : (freeTag s tag).feedB = s.feedB := rfl
@[simp] theorem freeTag_fd (tag : Nat) : (freeTag s tag).fd = s.fd := rfl
@[simp] theorem freeTag_rails (tag : Nat) : (freeTag s tag).rails = s.rails := rfl
@[simp] theorem freeTag_idl (tag : Nat) : (freeTag s tag).idl = s.idl := rfl
@[simp] theorem freeTag_boot (tag : Nat) : (freeTag s tag).boot = s.boot := rfl
@[simp] theorem freeTag_chans (tag : Nat) : (freeTag s tag).chans = s.chans := rfl
@[simp] theorem freeTag_tiles (tag : Nat) : (freeTag s tag).tiles = s.tiles := rfl
@[simp] theorem freeTag_reeds (tag : Nat) : (freeTag s tag).reeds = s.reeds := rfl
@[simp] theorem freeTag_loops (tag : Nat) : (freeTag s tag).loops = s.loops := rfl
@[simp] theorem freeTag_park (tag : Nat) : (freeTag s tag).park = s.park := rfl
@[simp] theorem freeTag_slots (tag : Nat) : (freeTag s tag).slots = s.slots := rfl
@[simp] theorem freeTag_reqs (tag : Nat) : (freeTag s tag).reqs = s.reqs := rfl
@[simp] theorem freeTag_tabs (tag : Nat) : (freeTag s tag).tabs = s.tabs := rfl
@[simp] theorem freeTag_accs (tag : Nat) : (freeTag s tag).accs = s.accs := rfl
@[simp] theorem freeTag_cal (tag : Nat) : (freeTag s tag).cal = s.cal := rfl
@[simp] theorem freeTag_thermal (tag : Nat) : (freeTag s tag).thermal = s.thermal := rfl
@[simp] theorem freeTag_bore (tag : Nat) : (freeTag s tag).bore = s.bore := rfl
@[simp] theorem freeTag_host (tag : Nat) : (freeTag s tag).host = s.host := rfl
@[simp] theorem freeTag_flash (tag : Nat) : (freeTag s tag).flash = s.flash := rfl
@[simp] theorem freeTag_bell (tag : Nat) : (freeTag s tag).bell = s.bell := rfl
@[simp] theorem freeTag_power (tag : Nat) : (freeTag s tag).power = s.power := rfl
@[simp] theorem freeTag_shelf (tag : Nat) : (freeTag s tag).shelf = s.shelf := rfl
@[simp] theorem freeTag_free (tag : Nat) : (freeTag s tag).free = s.free := rfl
@[simp] theorem freeTag_strobeAt (tag : Nat) : (freeTag s tag).strobeAt = s.strobeAt := rfl
@[simp] theorem freeTag_fabWait (tag : Nat) : (freeTag s tag).fabWait = s.fabWait := rfl
@[simp] theorem freeTag_hkAt (tag : Nat) : (freeTag s tag).hkAt = s.hkAt := rfl
@[simp] theorem freeTag_msgAt (tag : Nat) : (freeTag s tag).msgAt = s.msgAt := rfl
@[simp] theorem freeTag_msgNow (tag : Nat) : (freeTag s tag).msgNow = s.msgNow := rfl

/-! ### setCoef -/

@[simp] theorem setCoef_pending (i : Nat) (w : Word) : (setCoef s i w).pending = s.pending := rfl
@[simp] theorem setCoef_now (i : Nat) (w : Word) : (setCoef s i w).now = s.now := rfl
@[simp] theorem setCoef_phase (i : Nat) (w : Word) : (setCoef s i w).phase = s.phase := rfl
@[simp] theorem setCoef_droneF (i : Nat) (w : Word) : (setCoef s i w).droneF = s.droneF := rfl
@[simp] theorem setCoef_droneD (i : Nat) (w : Word) : (setCoef s i w).droneD = s.droneD := rfl
@[simp] theorem setCoef_regs (i : Nat) (w : Word) : (setCoef s i w).regs = s.regs := rfl
@[simp] theorem setCoef_feedA (i : Nat) (w : Word) : (setCoef s i w).feedA = s.feedA := rfl
@[simp] theorem setCoef_feedB (i : Nat) (w : Word) : (setCoef s i w).feedB = s.feedB := rfl
@[simp] theorem setCoef_fd (i : Nat) (w : Word) : (setCoef s i w).fd = s.fd := rfl
@[simp] theorem setCoef_rails (i : Nat) (w : Word) : (setCoef s i w).rails = s.rails := rfl
@[simp] theorem setCoef_idl (i : Nat) (w : Word) : (setCoef s i w).idl = s.idl := rfl
@[simp] theorem setCoef_boot (i : Nat) (w : Word) : (setCoef s i w).boot = s.boot := rfl
@[simp] theorem setCoef_chans (i : Nat) (w : Word) : (setCoef s i w).chans = s.chans := rfl
@[simp] theorem setCoef_tiles (i : Nat) (w : Word) : (setCoef s i w).tiles = s.tiles := rfl
@[simp] theorem setCoef_reeds (i : Nat) (w : Word) : (setCoef s i w).reeds = s.reeds := rfl
@[simp] theorem setCoef_loops (i : Nat) (w : Word) : (setCoef s i w).loops = s.loops := rfl
@[simp] theorem setCoef_park (i : Nat) (w : Word) : (setCoef s i w).park = s.park := rfl
@[simp] theorem setCoef_slots (i : Nat) (w : Word) : (setCoef s i w).slots = s.slots := rfl
@[simp] theorem setCoef_reqs (i : Nat) (w : Word) : (setCoef s i w).reqs = s.reqs := rfl
@[simp] theorem setCoef_tabs (i : Nat) (w : Word) : (setCoef s i w).tabs = s.tabs := rfl
@[simp] theorem setCoef_accs (i : Nat) (w : Word) : (setCoef s i w).accs = s.accs := rfl
@[simp] theorem setCoef_thermal (i : Nat) (w : Word) : (setCoef s i w).thermal = s.thermal := rfl
@[simp] theorem setCoef_bore (i : Nat) (w : Word) : (setCoef s i w).bore = s.bore := rfl
@[simp] theorem setCoef_cmdq (i : Nat) (w : Word) : (setCoef s i w).cmdq = s.cmdq := rfl
@[simp] theorem setCoef_host (i : Nat) (w : Word) : (setCoef s i w).host = s.host := rfl
@[simp] theorem setCoef_flash (i : Nat) (w : Word) : (setCoef s i w).flash = s.flash := rfl
@[simp] theorem setCoef_bell (i : Nat) (w : Word) : (setCoef s i w).bell = s.bell := rfl
@[simp] theorem setCoef_power (i : Nat) (w : Word) : (setCoef s i w).power = s.power := rfl
@[simp] theorem setCoef_shelf (i : Nat) (w : Word) : (setCoef s i w).shelf = s.shelf := rfl
@[simp] theorem setCoef_free (i : Nat) (w : Word) : (setCoef s i w).free = s.free := rfl
@[simp] theorem setCoef_strobeAt (i : Nat) (w : Word) : (setCoef s i w).strobeAt = s.strobeAt := rfl
@[simp] theorem setCoef_fabWait (i : Nat) (w : Word) : (setCoef s i w).fabWait = s.fabWait := rfl
@[simp] theorem setCoef_hkAt (i : Nat) (w : Word) : (setCoef s i w).hkAt = s.hkAt := rfl
@[simp] theorem setCoef_msgAt (i : Nat) (w : Word) : (setCoef s i w).msgAt = s.msgAt := rfl
@[simp] theorem setCoef_msgNow (i : Nat) (w : Word) : (setCoef s i w).msgNow = s.msgNow := rfl

/-! ### mapChans -/

@[simp] theorem mapChans_pending (p : Nat → Bool) (f : ChanSt → ChanSt) : (mapChans s p f).pending = s.pending := rfl
@[simp] theorem mapChans_now (p : Nat → Bool) (f : ChanSt → ChanSt) : (mapChans s p f).now = s.now := rfl
@[simp] theorem mapChans_phase (p : Nat → Bool) (f : ChanSt → ChanSt) : (mapChans s p f).phase = s.phase := rfl
@[simp] theorem mapChans_droneF (p : Nat → Bool) (f : ChanSt → ChanSt) : (mapChans s p f).droneF = s.droneF := rfl
@[simp] theorem mapChans_droneD (p : Nat → Bool) (f : ChanSt → ChanSt) : (mapChans s p f).droneD = s.droneD := rfl
@[simp] theorem mapChans_regs (p : Nat → Bool) (f : ChanSt → ChanSt) : (mapChans s p f).regs = s.regs := rfl
@[simp] theorem mapChans_feedA (p : Nat → Bool) (f : ChanSt → ChanSt) : (mapChans s p f).feedA = s.feedA := rfl
@[simp] theorem mapChans_feedB (p : Nat → Bool) (f : ChanSt → ChanSt) : (mapChans s p f).feedB = s.feedB := rfl
@[simp] theorem mapChans_fd (p : Nat → Bool) (f : ChanSt → ChanSt) : (mapChans s p f).fd = s.fd := rfl
@[simp] theorem mapChans_rails (p : Nat → Bool) (f : ChanSt → ChanSt) : (mapChans s p f).rails = s.rails := rfl
@[simp] theorem mapChans_idl (p : Nat → Bool) (f : ChanSt → ChanSt) : (mapChans s p f).idl = s.idl := rfl
@[simp] theorem mapChans_boot (p : Nat → Bool) (f : ChanSt → ChanSt) : (mapChans s p f).boot = s.boot := rfl
@[simp] theorem mapChans_tiles (p : Nat → Bool) (f : ChanSt → ChanSt) : (mapChans s p f).tiles = s.tiles := rfl
@[simp] theorem mapChans_reeds (p : Nat → Bool) (f : ChanSt → ChanSt) : (mapChans s p f).reeds = s.reeds := rfl
@[simp] theorem mapChans_loops (p : Nat → Bool) (f : ChanSt → ChanSt) : (mapChans s p f).loops = s.loops := rfl
@[simp] theorem mapChans_park (p : Nat → Bool) (f : ChanSt → ChanSt) : (mapChans s p f).park = s.park := rfl
@[simp] theorem mapChans_slots (p : Nat → Bool) (f : ChanSt → ChanSt) : (mapChans s p f).slots = s.slots := rfl
@[simp] theorem mapChans_reqs (p : Nat → Bool) (f : ChanSt → ChanSt) : (mapChans s p f).reqs = s.reqs := rfl
@[simp] theorem mapChans_tabs (p : Nat → Bool) (f : ChanSt → ChanSt) : (mapChans s p f).tabs = s.tabs := rfl
@[simp] theorem mapChans_accs (p : Nat → Bool) (f : ChanSt → ChanSt) : (mapChans s p f).accs = s.accs := rfl
@[simp] theorem mapChans_cal (p : Nat → Bool) (f : ChanSt → ChanSt) : (mapChans s p f).cal = s.cal := rfl
@[simp] theorem mapChans_thermal (p : Nat → Bool) (f : ChanSt → ChanSt) : (mapChans s p f).thermal = s.thermal := rfl
@[simp] theorem mapChans_bore (p : Nat → Bool) (f : ChanSt → ChanSt) : (mapChans s p f).bore = s.bore := rfl
@[simp] theorem mapChans_cmdq (p : Nat → Bool) (f : ChanSt → ChanSt) : (mapChans s p f).cmdq = s.cmdq := rfl
@[simp] theorem mapChans_host (p : Nat → Bool) (f : ChanSt → ChanSt) : (mapChans s p f).host = s.host := rfl
@[simp] theorem mapChans_flash (p : Nat → Bool) (f : ChanSt → ChanSt) : (mapChans s p f).flash = s.flash := rfl
@[simp] theorem mapChans_bell (p : Nat → Bool) (f : ChanSt → ChanSt) : (mapChans s p f).bell = s.bell := rfl
@[simp] theorem mapChans_power (p : Nat → Bool) (f : ChanSt → ChanSt) : (mapChans s p f).power = s.power := rfl
@[simp] theorem mapChans_shelf (p : Nat → Bool) (f : ChanSt → ChanSt) : (mapChans s p f).shelf = s.shelf := rfl
@[simp] theorem mapChans_free (p : Nat → Bool) (f : ChanSt → ChanSt) : (mapChans s p f).free = s.free := rfl
@[simp] theorem mapChans_strobeAt (p : Nat → Bool) (f : ChanSt → ChanSt) : (mapChans s p f).strobeAt = s.strobeAt := rfl
@[simp] theorem mapChans_fabWait (p : Nat → Bool) (f : ChanSt → ChanSt) : (mapChans s p f).fabWait = s.fabWait := rfl
@[simp] theorem mapChans_hkAt (p : Nat → Bool) (f : ChanSt → ChanSt) : (mapChans s p f).hkAt = s.hkAt := rfl
@[simp] theorem mapChans_msgAt (p : Nat → Bool) (f : ChanSt → ChanSt) : (mapChans s p f).msgAt = s.msgAt := rfl
@[simp] theorem mapChans_msgNow (p : Nat → Bool) (f : ChanSt → ChanSt) : (mapChans s p f).msgNow = s.msgNow := rfl

/-! ### answer -/

@[simp] theorem answer_pending (v : Word) (b : Bool) : (answer s v b).pending = s.pending := rfl
@[simp] theorem answer_now (v : Word) (b : Bool) : (answer s v b).now = s.now := rfl
@[simp] theorem answer_phase (v : Word) (b : Bool) : (answer s v b).phase = s.phase := rfl
@[simp] theorem answer_droneF (v : Word) (b : Bool) : (answer s v b).droneF = s.droneF := rfl
@[simp] theorem answer_droneD (v : Word) (b : Bool) : (answer s v b).droneD = s.droneD := rfl
@[simp] theorem answer_regs (v : Word) (b : Bool) : (answer s v b).regs = s.regs := rfl
@[simp] theorem answer_feedA (v : Word) (b : Bool) : (answer s v b).feedA = s.feedA := rfl
@[simp] theorem answer_feedB (v : Word) (b : Bool) : (answer s v b).feedB = s.feedB := rfl
@[simp] theorem answer_fd (v : Word) (b : Bool) : (answer s v b).fd = s.fd := rfl
@[simp] theorem answer_rails (v : Word) (b : Bool) : (answer s v b).rails = s.rails := rfl
@[simp] theorem answer_idl (v : Word) (b : Bool) : (answer s v b).idl = s.idl := rfl
@[simp] theorem answer_boot (v : Word) (b : Bool) : (answer s v b).boot = s.boot := rfl
@[simp] theorem answer_chans (v : Word) (b : Bool) : (answer s v b).chans = s.chans := rfl
@[simp] theorem answer_tiles (v : Word) (b : Bool) : (answer s v b).tiles = s.tiles := rfl
@[simp] theorem answer_reeds (v : Word) (b : Bool) : (answer s v b).reeds = s.reeds := rfl
@[simp] theorem answer_loops (v : Word) (b : Bool) : (answer s v b).loops = s.loops := rfl
@[simp] theorem answer_park (v : Word) (b : Bool) : (answer s v b).park = s.park := rfl
@[simp] theorem answer_slots (v : Word) (b : Bool) : (answer s v b).slots = s.slots := rfl
@[simp] theorem answer_reqs (v : Word) (b : Bool) : (answer s v b).reqs = s.reqs := rfl
@[simp] theorem answer_tabs (v : Word) (b : Bool) : (answer s v b).tabs = s.tabs := rfl
@[simp] theorem answer_accs (v : Word) (b : Bool) : (answer s v b).accs = s.accs := rfl
@[simp] theorem answer_cal (v : Word) (b : Bool) : (answer s v b).cal = s.cal := rfl
@[simp] theorem answer_thermal (v : Word) (b : Bool) : (answer s v b).thermal = s.thermal := rfl
@[simp] theorem answer_bore (v : Word) (b : Bool) : (answer s v b).bore = s.bore := rfl
@[simp] theorem answer_cmdq (v : Word) (b : Bool) : (answer s v b).cmdq = s.cmdq := rfl
@[simp] theorem answer_flash (v : Word) (b : Bool) : (answer s v b).flash = s.flash := rfl
@[simp] theorem answer_bell (v : Word) (b : Bool) : (answer s v b).bell = s.bell := rfl
@[simp] theorem answer_power (v : Word) (b : Bool) : (answer s v b).power = s.power := rfl
@[simp] theorem answer_shelf (v : Word) (b : Bool) : (answer s v b).shelf = s.shelf := rfl
@[simp] theorem answer_free (v : Word) (b : Bool) : (answer s v b).free = s.free := rfl
@[simp] theorem answer_strobeAt (v : Word) (b : Bool) : (answer s v b).strobeAt = s.strobeAt := rfl
@[simp] theorem answer_fabWait (v : Word) (b : Bool) : (answer s v b).fabWait = s.fabWait := rfl
@[simp] theorem answer_hkAt (v : Word) (b : Bool) : (answer s v b).hkAt = s.hkAt := rfl
@[simp] theorem answer_msgAt (v : Word) (b : Bool) : (answer s v b).msgAt = s.msgAt := rfl
@[simp] theorem answer_msgNow (v : Word) (b : Bool) : (answer s v b).msgNow = s.msgNow := rfl

/-! ### What the updated table reads -/

@[simp] theorem getReg_setReg_self (off : Nat) (w : Word) : getReg (setReg s off w) off = w := by simp [getReg, setReg]
theorem getReg_setReg_other (off o : Nat) (w : Word) (h : o ≠ off) : getReg (setReg s off w) o = getReg s o := by
  simp [getReg, setReg, tabGet_tabSet_other, h]
/-- What any register reads after one has been set. -/
theorem getReg_setReg (off o : Nat) (w : Word) : getReg (setReg s off w) o = if o = off then w else getReg s o := by
  simp [getReg, setReg, tabGet_tabSet]
@[simp] theorem chan_setChan_self (k : Nat) (x : ChanSt) : chan (setChan s k x) k = x := by simp [chan, setChan]
theorem chan_setChan (k j : Nat) (x : ChanSt) : chan (setChan s k x) j = if j = k then x else chan s j := by
  simp [chan, setChan, tabGet_tabSet]
@[simp] theorem tile_setTile_self (k : Nat) (x : TileSt) : tile (setTile s k x) k = x := by simp [tile, setTile]
theorem tile_setTile (k j : Nat) (x : TileSt) : tile (setTile s k x) j = if j = k then x else tile s j := by
  simp [tile, setTile, tabGet_tabSet]
@[simp] theorem reed_setReed_self (k : Nat) (x : ReedSt) : reed (setReed s k x) k = x := by simp [reed, setReed]
theorem reed_setReed (k j : Nat) (x : ReedSt) : reed (setReed s k x) j = if j = k then x else reed s j := by
  simp [reed, setReed, tabGet_tabSet]
@[simp] theorem loopCh_setLoopCh_self (k : Nat) (x : LoopCh) : loopCh (setLoopCh s k x) k = x := by simp [loopCh, setLoopCh]
theorem loopCh_setLoopCh (k j : Nat) (x : LoopCh) : loopCh (setLoopCh s k x) j = if j = k then x else loopCh s j := by
  simp [loopCh, setLoopCh, tabGet_tabSet]
@[simp] theorem slot_setSlot_self (k : Nat) (x : SlotSt) : slot (setSlot s k x) k = x := by simp [slot, setSlot]
theorem slot_setSlot (k j : Nat) (x : SlotSt) : slot (setSlot s k x) j = if j = k then x else slot s j := by
  simp [slot, setSlot, tabGet_tabSet]
@[simp] theorem tab_setTab_self (k : Nat) (x : TabCmd) : tab (setTab s k x) k = x := by simp [tab, setTab]
theorem tab_setTab (k j : Nat) (x : TabCmd) : tab (setTab s k x) j = if j = k then x else tab s j := by
  simp [tab, setTab, tabGet_tabSet]
@[simp] theorem sq_setSq_self (k : Nat) (x : SqSt) : sq (setSq s k x) k = x := by simp [sq, setSq]
theorem sq_setSq (k j : Nat) (x : SqSt) : sq (setSq s k x) j = if j = k then x else sq s j := by
  simp [sq, setSq, tabGet_tabSet]
@[simp] theorem cq_setCq_self (k : Nat) (x : CqSt) : cq (setCq s k x) k = x := by simp [cq, setCq]
theorem cq_setCq (k j : Nat) (x : CqSt) : cq (setCq s k x) j = if j = k then x else cq s j := by
  simp [cq, setCq, tabGet_tabSet]
@[simp] theorem coef_setCoef_self (i : Nat) (w : Word) : coef (setCoef s i w) i = w := by simp [coef, setCoef]
theorem coef_setCoef (i j : Nat) (w : Word) : coef (setCoef s i w) j = if j = i then w else coef s j := by
  simp [coef, setCoef, tabGet_tabSet]
@[simp] theorem answer_rdata (v : Word) (b : Bool) : (answer s v b).host.rdata = v := rfl
@[simp] theorem answer_poisoned (v : Word) (b : Bool) : (answer s v b).host.poisoned = b := rfl

end Sys2Proof.Machine
end

