-- ==== Sys2Proof/Laws/Ops.lean ====
section
/-! SUPPORT. What the shared operations can do, said once: an operation that reports (a message, an interrupt, a count, a refused or
judged access) leaves everything still but the registers, the two links, the host side, the Bell and the free values; an
access that the checks admit has exactly its effect; and the Bore keeps its canonical form. -/

namespace Sys2Proof.Machine

/-- The part of the machine that reporting does not touch. -/
def State.still (s : State) : State :=
  { s with regs := [], fd := {}, idl := {}, host := {}, bell := {}, msgAt := 0, msgNow := [], free := 0 }

/-! ### What still states agree on -/

theorem pending_of_still {s t : State} (h : t.still = s.still) : t.pending = s.pending :=
  (congrArg State.pending h : t.still.pending = s.still.pending)
theorem now_of_still {s t : State} (h : t.still = s.still) : t.now = s.now :=
  (congrArg State.now h : t.still.now = s.still.now)
theorem phase_of_still {s t : State} (h : t.still = s.still) : t.phase = s.phase :=
  (congrArg State.phase h : t.still.phase = s.still.phase)
theorem droneF_of_still {s t : State} (h : t.still = s.still) : t.droneF = s.droneF :=
  (congrArg State.droneF h : t.still.droneF = s.still.droneF)
theorem droneD_of_still {s t : State} (h : t.still = s.still) : t.droneD = s.droneD :=
  (congrArg State.droneD h : t.still.droneD = s.still.droneD)
theorem feedA_of_still {s t : State} (h : t.still = s.still) : t.feedA = s.feedA :=
  (congrArg State.feedA h : t.still.feedA = s.still.feedA)
theorem feedB_of_still {s t : State} (h : t.still = s.still) : t.feedB = s.feedB :=
  (congrArg State.feedB h : t.still.feedB = s.still.feedB)
theorem rails_of_still {s t : State} (h : t.still = s.still) : t.rails = s.rails :=
  (congrArg State.rails h : t.still.rails = s.still.rails)
theorem boot_of_still {s t : State} (h : t.still = s.still) : t.boot = s.boot :=
  (congrArg State.boot h : t.still.boot = s.still.boot)
theorem chans_of_still {s t : State} (h : t.still = s.still) : t.chans = s.chans :=
  (congrArg State.chans h : t.still.chans = s.still.chans)
theorem tiles_of_still {s t : State} (h : t.still = s.still) : t.tiles = s.tiles :=
  (congrArg State.tiles h : t.still.tiles = s.still.tiles)
theorem reeds_of_still {s t : State} (h : t.still = s.still) : t.reeds = s.reeds :=
  (congrArg State.reeds h : t.still.reeds = s.still.reeds)
theorem loops_of_still {s t : State} (h : t.still = s.still) : t.loops = s.loops :=
  (congrArg State.loops h : t.still.loops = s.still.loops)
theorem park_of_still {s t : State} (h : t.still = s.still) : t.park = s.park :=
  (congrArg State.park h : t.still.park = s.still.park)
theorem slots_of_still {s t : State} (h : t.still = s.still) : t.slots = s.slots :=
  (congrArg State.slots h : t.still.slots = s.still.slots)
theorem reqs_of_still {s t : State} (h : t.still = s.still) : t.reqs = s.reqs :=
  (congrArg State.reqs h : t.still.reqs = s.still.reqs)
theorem strobeAt_of_still {s t : State} (h : t.still = s.still) : t.strobeAt = s.strobeAt :=
  (congrArg State.strobeAt h : t.still.strobeAt = s.still.strobeAt)
theorem fabWait_of_still {s t : State} (h : t.still = s.still) : t.fabWait = s.fabWait :=
  (congrArg State.fabWait h : t.still.fabWait = s.still.fabWait)
theorem hkAt_of_still {s t : State} (h : t.still = s.still) : t.hkAt = s.hkAt :=
  (congrArg State.hkAt h : t.still.hkAt = s.still.hkAt)
theorem tabs_of_still {s t : State} (h : t.still = s.still) : t.tabs = s.tabs :=
  (congrArg State.tabs h : t.still.tabs = s.still.tabs)
theorem accs_of_still {s t : State} (h : t.still = s.still) : t.accs = s.accs :=
  (congrArg State.accs h : t.still.accs = s.still.accs)
theorem cal_of_still {s t : State} (h : t.still = s.still) : t.cal = s.cal :=
  (congrArg State.cal h : t.still.cal = s.still.cal)
theorem thermal_of_still {s t : State} (h : t.still = s.still) : t.thermal = s.thermal :=
  (congrArg State.thermal h : t.still.thermal = s.still.thermal)
theorem bore_of_still {s t : State} (h : t.still = s.still) : t.bore = s.bore :=
  (congrArg State.bore h : t.still.bore = s.still.bore)
theorem cmdq_of_still {s t : State} (h : t.still = s.still) : t.cmdq = s.cmdq :=
  (congrArg State.cmdq h : t.still.cmdq = s.still.cmdq)
theorem flash_of_still {s t : State} (h : t.still = s.still) : t.flash = s.flash :=
  (congrArg State.flash h : t.still.flash = s.still.flash)
theorem power_of_still {s t : State} (h : t.still = s.still) : t.power = s.power :=
  (congrArg State.power h : t.still.power = s.still.power)
theorem shelf_of_still {s t : State} (h : t.still = s.still) : t.shelf = s.shelf :=
  (congrArg State.shelf h : t.still.shelf = s.still.shelf)

/-- A fold of steps that leave the machine still leaves it still. -/
theorem foldl_still {α : Type} (f : State → α → State) (h : ∀ s x, (f s x).still = s.still) (l : List α) (s : State) :
    (l.foldl f s).still = s.still := by
  induction l generalizing s with
  | nil => rfl
  | cons a l ih => rw [List.foldl_cons, ih, h]

/-! ### Reporting -/

variable (s : State)

@[simp] theorem still_regs (v : Tab Word) : State.still { s with regs := v } = s.still := rfl
@[simp] theorem still_fd (v : FeedDie) : State.still { s with fd := v } = s.still := rfl
@[simp] theorem still_idl (v : Idl) : State.still { s with idl := v } = s.still := rfl
@[simp] theorem still_host (v : HostIf) : State.still { s with host := v } = s.still := rfl
@[simp] theorem still_msg (a : Nat) (n : List (BitVec 13)) : State.still { s with msgAt := a, msgNow := n } = s.still := rfl
@[simp] theorem still_bell (v : Machine.Bell) : State.still { s with bell := v } = s.still := rfl

@[simp] theorem setReg_still (off : Nat) (w : Word) : (setReg s off w).still = s.still := rfl
@[simp] theorem putReg_still (off lo n v : Nat) : (putReg s off lo n v).still = s.still := rfl
@[simp] theorem bumpReg_still (off lo n k : Nat) : (bumpReg s off lo n k).still = s.still := rfl
@[simp] theorem satReg_still (off lo n k : Nat) : (satReg s off lo n k).still = s.still := rfl
@[simp] theorem tick_still : (tick s).still = s.still := rfl
@[simp] theorem answer_still (v : Word) (b : Bool) : (answer s v b).still = s.still := rfl
@[simp] theorem refuseClears_still (page n : Nat) : (refuseClears s page n).still = s.still := by
  unfold refuseClears; split <;> rfl
@[simp] theorem sentNow_still (c : BitVec 13) : (sentNow s c).still = s.still := by
  unfold sentNow; (try split) <;> rfl
@[simp] theorem useCheck_still (page src : Nat) : (useCheck s page src).still = s.still := by
  simp only [useCheck, still_bell, putReg_still]
@[simp] theorem openShadow_still (k : Nat) (v : Option Nat) : (openShadow s k v).still = s.still := by
  simp only [openShadow, still_bell]

@[simp] theorem sendMsi_still (fn vec : Nat) : (sendMsi s fn vec).still = s.still := by
  simp only [sendMsi]; split <;> simp only [still_host]

@[simp] theorem pageIrq_still (page : Nat) : (pageIrq s page).still = s.still :=
  foldl_still _ (fun s fn => by split <;> simp) _ s

@[simp] theorem irqSet_still (page : Nat) (bits : Word) : (irqSet s page bits).still = s.still := by
  unfold irqSet; dsimp only; split <;> simp

@[simp] theorem sendToDrive_still (f : Frame) : (sendToDrive s f).still = s.still := by unfold sendToDrive; split <;> rfl
@[simp] theorem sendToFeed_still (f : Frame) : (sendToFeed s f).still = s.still := by unfold sendToFeed; split <;> rfl
@[simp] theorem bellLost_still (lo n : Nat) : (bellLost s lo n).still = s.still := by simp [bellLost]

@[simp] theorem bellIn_still (m : Msg) : (bellIn s m).still = s.still := by
  simp only [bellIn]; split
  · simp only [still_bell]
  · split <;> simp only [bellLost_still, still_bell]

@[simp] theorem feedMsg_still (m : Msg) : (feedMsg s m).still = s.still := by
  simp only [feedMsg]; split
  · simp only [sendToDrive_still, setReg_still]
  · split <;> simp only [satReg_still, still_fd, setReg_still]

@[simp] theorem postAs_still (page src cls sub : Nat) (d : Word) : (postAs s page src cls sub d).still = s.still := by
  simp only [postAs]
  repeat' split
  all_goals simp only [sentNow_still, feedMsg_still, bellIn_still, openShadow_still, still_bell]

@[simp] theorem post_still (page src : Nat) (d : Word) (sub : Nat) : (post s page src d sub).still = s.still := by simp [post]
@[simp] theorem postFree_still (page src sub : Nat) : (postFree s page src sub).still = s.still := by simp [postFree]
@[simp] theorem badEncoding_still (page off : Nat) : (badEncoding s page off).still = s.still := by simp [badEncoding]
@[simp] theorem refusedCtrl_still (page off : Nat) : (refusedCtrl s page off).still = s.still := by simp [refusedCtrl]
@[simp] theorem borePost_still (src : Nat) (d : Word) : (borePost s src d).still = s.still := by simp [borePost]
/-- A word found bad in one of the block regions is noted there: beside reporting, only the reed whose sequence holds it counts. -/
theorem regionNote_still (a : Nat) : (regionNote s a).still = { s.still with reeds := (regionNote s a).reeds } := by
  unfold regionNote; split
  all_goals first
    | rfl
    | (rw [post_still, reeds_of_still (post_still _ _ _ _ _)]; rfl)

@[simp] theorem ruleZero_still (off : Nat) (rules : List FieldRule) (v : Word) : (ruleZero s off rules v).still = s.still := by
  unfold ruleZero; dsimp only; split <;> simp

/-- A write to a block register, whatever it does, touches no more than its registers and what reports it (R12 to R16). -/
@[simp] theorem writeReg_still (off : Nat) (v : Word) : (writeReg s off v).still = s.still := by
  unfold writeReg
  split
  · rfl
  · dsimp only; split
    · rfl
    · split <;> simp

/-! ### Accesses (R607) -/

@[simp] theorem denied_still (a : Access) (kind : Nat) : (denied s a kind).still = s.still := by simp [denied]
@[simp] theorem onVerdict_still (a : Access) (v : Verdict) : (onVerdict s a v).still = s.still := by
  unfold onVerdict; split <;> simp

/-- A judged access has its effect, or leaves the machine still. -/
theorem guarded_cases (a : Access) (k : State → State) :
    (guarded s a k = k s ∧ hostReach s a.fn = true ∧ judge s a = .ok) ∨ (guarded s a k).still = s.still := by
  unfold guarded
  split
  · exact .inr rfl
  · split
    · exact .inl ⟨rfl, by simp_all, ‹_›⟩
    · exact .inr (onVerdict_still s a _)

/-- A write that the checks admit has exactly its effect. -/
theorem wr_of_mayWrite (fn : Fn) (page o lvl : Nat) (k : State → State) (h : Safety.mayWrite s fn page o lvl = true) :
    wr s fn page o lvl k = k s := by
  simp only [Safety.mayWrite, Bool.and_eq_true, beq_iff_eq] at h
  simp [wr, guarded, h.1, h.2]

/-- A write that names a slot, and that the checks admit, has exactly its effect. -/
theorem guarded_of_mayWriteSlot (fn : Fn) (page o lvl k : Nat) (f : State → State)
    (h : Safety.mayWriteSlot s fn page o lvl k = true) :
    guarded s { fn := fn, off := ro page o, write := true, lvl := lvl, slot := some k } f = f s := by
  simp only [Safety.mayWriteSlot, Bool.and_eq_true, beq_iff_eq] at h
  simp [guarded, h.1, h.2]

/-- A read that the checks admit answers the register and has exactly its effect. -/
theorem rd_of_mayRead (fn : Fn) (page o : Nat) (k : State → Word × State) (h : Safety.mayRead s fn page o = true) :
    rd s fn page o k = answer (k s).2 (k s).1 := by
  simp only [Safety.mayRead, Bool.and_eq_true, beq_iff_eq] at h
  simp [rd, h.1, h.2]

/-- A write that the checks do not admit leaves the machine still. -/
theorem wr_still_of_refused (fn : Fn) (page o lvl : Nat) (k : State → State) (h : Safety.mayWrite s fn page o lvl = false) :
    (wr s fn page o lvl k).still = s.still := by
  rcases guarded_cases s { fn := fn, off := ro page o, write := true, lvl := lvl } k with ⟨_, h1, h2⟩ | h'
  · simp only [Safety.mayWrite] at h
    simp only at h1
    simp [h1, h2] at h
  · exact h'

/-! ### The Bore (R385 to R400) -/

@[simp] theorem memWf_memSet (m : List Host.Cell) (a : Nat) (b : Byte) (h : memWf m = true) : memWf (memSet m a b) = true :=
  tabWf_tabSet _ m a b h

/-- Writing a word keeps the Bore in its canonical form. -/
@[simp] theorem memWf_setWordAt (m : List Host.Cell) (a : Nat) (w : Word) (h : memWf m = true) : memWf (setWordAt m a w) = true := by
  simp only [setWordAt]
  exact memWf_memSet _ _ _ (memWf_memSet _ _ _ (memWf_memSet _ _ _ (memWf_memSet _ _ _ h)))

/-- Every other byte reads as before a word was written. -/
theorem tabGet_setWordAt_other (m : List Host.Cell) (a x : Nat) (w : Word) (h : x < a ∨ a + 4 ≤ x) :
    tabGet (fun _ => (0 : Byte)) (setWordAt m a w) x = tabGet (fun _ => (0 : Byte)) m x := by
  simp only [setWordAt, memSet]
  rw [tabGet_tabSet_other, tabGet_tabSet_other, tabGet_tabSet_other, tabGet_tabSet_other] <;> omega

theorem bytes_of_word (w : Word) : byteOf w 3 ++ byteOf w 2 ++ byteOf w 1 ++ byteOf w 0 = w := by
  simp only [byteOf]
  apply BitVec.eq_of_toNat_eq
  have := w.isLt
  simp only [BitVec.toNat_append, BitVec.toNat_ofNat, ← Nat.shiftLeft_add_eq_or_of_lt (Nat.mod_lt _ (by decide : 0 < 2 ^ 8))]
  simp only [Nat.shiftLeft_eq]
  omega

/-- A word reads back as it was written (R10). -/
@[simp] theorem wordAt_setWordAt_self (m : List Host.Cell) (a : Nat) (w : Word) : wordAt (setWordAt m a w) a = w := by
  have h0 : tabGet (fun _ => (0 : Byte)) (setWordAt m a w) a = byteOf w 0 := by
    simp only [setWordAt, memSet]
    rw [tabGet_tabSet_other, tabGet_tabSet_other, tabGet_tabSet_other, tabGet_tabSet_self] <;> omega
  have h1 : tabGet (fun _ => (0 : Byte)) (setWordAt m a w) (a + 1) = byteOf w 1 := by
    simp only [setWordAt, memSet]
    rw [tabGet_tabSet_other, tabGet_tabSet_other, tabGet_tabSet_self] <;> omega
  have h2 : tabGet (fun _ => (0 : Byte)) (setWordAt m a w) (a + 2) = byteOf w 2 := by
    simp only [setWordAt, memSet]
    rw [tabGet_tabSet_other, tabGet_tabSet_self]; omega
  have h3 : tabGet (fun _ => (0 : Byte)) (setWordAt m a w) (a + 3) = byteOf w 3 := by
    simp only [setWordAt, memSet]
    rw [tabGet_tabSet_self]
  simp only [wordAt, Nat.add_zero, h0, h1, h2, h3]
  exact bytes_of_word w

/-- A word elsewhere reads as before. -/
theorem wordAt_setWordAt_other (m : List Host.Cell) (a x : Nat) (w : Word) (h : x + 4 ≤ a ∨ a + 4 ≤ x) :
    wordAt (setWordAt m a w) x = wordAt m x := by
  simp only [wordAt]
  rw [tabGet_setWordAt_other, tabGet_setWordAt_other, tabGet_setWordAt_other, tabGet_setWordAt_other] <;> omega

/-- A write of the Bore stores the word; beside the Bore it touches only what an armed injection uses (R389, R517). -/
theorem setBore_mem (a : Nat) (w : Word) : (setBore s a w).bore.mem = setWordAt s.bore.mem a w := by
  unfold setBore; split
  · show setWordAt (useCheck s _ _).bore.mem a w = _
    rw [bore_of_still (useCheck_still s _ _)]
  · rfl

theorem setBore_still (a : Nat) (w : Word) :
    (setBore s a w).still = { s.still with bore := (setBore s a w).bore } := by
  unfold setBore; split
  · rename_i p k _
    exact congrArg (fun u : State => { u with bore := (useCheck s p k).bore.put a w true }) (useCheck_still s p k)
  · rfl

/-- The word that a write of the Bore stores is what the Bore then reads. -/
@[simp] theorem boreWord_setBore_self (a : Nat) (w : Word) : boreWord (setBore s a w) a = w := by
  simp [boreWord, setBore_mem]

theorem boreWord_setBore_other (a x : Nat) (w : Word) (h : x + 4 ≤ a ∨ a + 4 ≤ x) :
    boreWord (setBore s a w) x = boreWord s x := by
  simp [boreWord, setBore_mem, wordAt_setWordAt_other _ _ _ _ h]

/-- Every byte outside the word reads as before. -/
theorem boreByte_setBore_other (a x : Nat) (w : Word) (h : x < a ∨ a + 4 ≤ x) : boreByte (setBore s a w) x = boreByte s x := by
  simp only [boreByte, setBore_mem]; exact tabGet_setWordAt_other _ _ _ _ h

theorem setBores_nil (a : Nat) : setBores s a [] = s := rfl
theorem setBores_cons (a : Nat) (w : Word) (ws : List Word) : setBores s a (w :: ws) = setBores (setBore s a w) (a + 4) ws := rfl

/-- A write of the Bore keeps its canonical form. -/
theorem memWf_setBore (a : Nat) (w : Word) (h : memWf s.bore.mem = true) : memWf (setBore s a w).bore.mem = true := by
  rw [setBore_mem]; exact memWf_setWordAt _ _ _ h

theorem memWf_setBores (a : Nat) (ws : List Word) (h : memWf s.bore.mem = true) : memWf (setBores s a ws).bore.mem = true := by
  induction ws generalizing s a with
  | nil => exact h
  | cons w ws ih => rw [setBores_cons]; exact ih _ _ (memWf_setBore s a w h)

/-- Every byte outside consecutive words reads as before they were written. -/
theorem boreByte_setBores_other (a x : Nat) (ws : List Word) (h : x < a ∨ a + 4 * ws.length ≤ x) :
    boreByte (setBores s a ws) x = boreByte s x := by
  induction ws generalizing s a with
  | nil => rfl
  | cons w ws ih =>
    rw [setBores_cons, ih, boreByte_setBore_other]
    · rcases h with h | h
      · exact .inl h
      · exact .inr (by simp at h; omega)
    · rcases h with h | h
      · exact .inl (by omega)
      · exact .inr (by simp at h; omega)

/-- The bytes of a copied range are in canonical form and lie in the range. -/
theorem cellsIn_wf (hi lo : Nat) (cs : List Host.Cell) :
    memWf (cellsIn hi lo cs) = true ∧ ∀ c ∈ cellsIn hi lo cs, lo ≤ c.1 ∧ c.1 < hi := by
  induction cs generalizing lo with
  | nil => exact ⟨rfl, by simp [cellsIn]⟩
  | cons c cs ih =>
    simp only [cellsIn]
    split
    · rename_i hc
      obtain ⟨h1, h2⟩ := ih (c.1 + 1)
      refine ⟨?_, ?_⟩
      · rw [memWf, tabWf_iff] at h1 ⊢
        refine ⟨?_, ?_⟩
        · simp only [List.map_cons, List.pairwise_cons]
          refine ⟨fun a ha => ?_, h1.1⟩
          obtain ⟨d, hd, rfl⟩ := List.mem_map.mp ha
          exact (h2 d hd).1
        · intro p hp
          rcases List.mem_cons.mp hp with rfl | hp
          · exact hc.2.2
          · exact h1.2 p hp
      · intro d hd
        rcases List.mem_cons.mp hd with rfl | hd
        · exact ⟨hc.1, hc.2.1⟩
        · have := h2 d hd; omega
    · exact ih lo

/-- Copying a range of bytes keeps the canonical form. -/
theorem memWf_cellsInto (m : List Host.Cell) (lo n : Nat) (cs : List Host.Cell) (h : memWf m = true) :
    memWf (cellsInto m lo n cs) = true := by
  obtain ⟨h1, h2⟩ := cellsIn_wf (lo + n) lo cs
  refine tabWf_append _ _ _ (tabWf_append _ _ _ (tabWf_filter _ m _ h) h1 ?_) (tabWf_filter _ m _ h) ?_
  · intro p hp q hq
    have := (List.mem_filter.mp hp).2
    have := h2 q hq
    simp only [decide_eq_true_eq] at *
    omega
  · intro p hp q hq
    have hq := (List.mem_filter.mp hq).2
    simp only [decide_eq_true_eq] at hq
    rcases List.mem_append.mp hp with hp | hp
    · have := (List.mem_filter.mp hp).2
      simp only [decide_eq_true_eq] at this
      omega
    · have := h2 p hp
      omega

/-- The reset state's Bore has the canonical form. -/
theorem memWf_reset : memWf State.reset.bore.mem = true := rfl

end Sys2Proof.Machine
end

