-- ==== Sys2Proof/Laws/Shared.lean ====
section
/-! SUPPORT. What the operations that complete work can do, said once: a completion, a record, a redo and a rejected plan leave
the electrical side (feeds, rails, channels, tiles, references, loops, park store), the clock and the queue as they were. -/

namespace Sys2Proof.Machine

/-- The part of the machine that completing work does not touch: the still part but for the Bore, the command engine, the
pending requests, the table commands and the flash. -/
def State.quiet (s : State) : State := { s.still with bore := {}, cmdq := {}, reqs := [], tabs := [], flash := {} }

/-- The part of the machine that redoing and rejecting plans does not touch: the quiet part but for the plan slots. -/
def State.outside (s : State) : State := { s.quiet with slots := [] }

theorem quiet_of_still {s t : State} (h : t.still = s.still) : t.quiet = s.quiet :=
  congrArg (fun u : State => { u with bore := {}, cmdq := {}, reqs := [], tabs := [], flash := {} }) h
theorem outside_of_quiet {s t : State} (h : t.quiet = s.quiet) : t.outside = s.outside :=
  congrArg (fun u : State => { u with slots := [] }) h

/-! ### What quiet states agree on -/

theorem pending_of_quiet {s t : State} (h : t.quiet = s.quiet) : t.pending = s.pending :=
  (congrArg State.pending h : t.quiet.pending = s.quiet.pending)
theorem now_of_quiet {s t : State} (h : t.quiet = s.quiet) : t.now = s.now :=
  (congrArg State.now h : t.quiet.now = s.quiet.now)
theorem phase_of_quiet {s t : State} (h : t.quiet = s.quiet) : t.phase = s.phase :=
  (congrArg State.phase h : t.quiet.phase = s.quiet.phase)
theorem droneF_of_quiet {s t : State} (h : t.quiet = s.quiet) : t.droneF = s.droneF :=
  (congrArg State.droneF h : t.quiet.droneF = s.quiet.droneF)
theorem droneD_of_quiet {s t : State} (h : t.quiet = s.quiet) : t.droneD = s.droneD :=
  (congrArg State.droneD h : t.quiet.droneD = s.quiet.droneD)
theorem feedA_of_quiet {s t : State} (h : t.quiet = s.quiet) : t.feedA = s.feedA :=
  (congrArg State.feedA h : t.quiet.feedA = s.quiet.feedA)
theorem feedB_of_quiet {s t : State} (h : t.quiet = s.quiet) : t.feedB = s.feedB :=
  (congrArg State.feedB h : t.quiet.feedB = s.quiet.feedB)
theorem rails_of_quiet {s t : State} (h : t.quiet = s.quiet) : t.rails = s.rails :=
  (congrArg State.rails h : t.quiet.rails = s.quiet.rails)
theorem boot_of_quiet {s t : State} (h : t.quiet = s.quiet) : t.boot = s.boot :=
  (congrArg State.boot h : t.quiet.boot = s.quiet.boot)
theorem chans_of_quiet {s t : State} (h : t.quiet = s.quiet) : t.chans = s.chans :=
  (congrArg State.chans h : t.quiet.chans = s.quiet.chans)
theorem tiles_of_quiet {s t : State} (h : t.quiet = s.quiet) : t.tiles = s.tiles :=
  (congrArg State.tiles h : t.quiet.tiles = s.quiet.tiles)
theorem reeds_of_quiet {s t : State} (h : t.quiet = s.quiet) : t.reeds = s.reeds :=
  (congrArg State.reeds h : t.quiet.reeds = s.quiet.reeds)
theorem loops_of_quiet {s t : State} (h : t.quiet = s.quiet) : t.loops = s.loops :=
  (congrArg State.loops h : t.quiet.loops = s.quiet.loops)
theorem park_of_quiet {s t : State} (h : t.quiet = s.quiet) : t.park = s.park :=
  (congrArg State.park h : t.quiet.park = s.quiet.park)
theorem slots_of_quiet {s t : State} (h : t.quiet = s.quiet) : t.slots = s.slots :=
  (congrArg State.slots h : t.quiet.slots = s.quiet.slots)
theorem accs_of_quiet {s t : State} (h : t.quiet = s.quiet) : t.accs = s.accs :=
  (congrArg State.accs h : t.quiet.accs = s.quiet.accs)
theorem cal_of_quiet {s t : State} (h : t.quiet = s.quiet) : t.cal = s.cal :=
  (congrArg State.cal h : t.quiet.cal = s.quiet.cal)
theorem thermal_of_quiet {s t : State} (h : t.quiet = s.quiet) : t.thermal = s.thermal :=
  (congrArg State.thermal h : t.quiet.thermal = s.quiet.thermal)
theorem power_of_quiet {s t : State} (h : t.quiet = s.quiet) : t.power = s.power :=
  (congrArg State.power h : t.quiet.power = s.quiet.power)
theorem shelf_of_quiet {s t : State} (h : t.quiet = s.quiet) : t.shelf = s.shelf :=
  (congrArg State.shelf h : t.quiet.shelf = s.quiet.shelf)

/-! ### What states that agree outside the plans agree on -/

theorem pending_of_outside {s t : State} (h : t.outside = s.outside) : t.pending = s.pending :=
  (congrArg State.pending h : t.outside.pending = s.outside.pending)
theorem now_of_outside {s t : State} (h : t.outside = s.outside) : t.now = s.now :=
  (congrArg State.now h : t.outside.now = s.outside.now)
theorem phase_of_outside {s t : State} (h : t.outside = s.outside) : t.phase = s.phase :=
  (congrArg State.phase h : t.outside.phase = s.outside.phase)
theorem droneF_of_outside {s t : State} (h : t.outside = s.outside) : t.droneF = s.droneF :=
  (congrArg State.droneF h : t.outside.droneF = s.outside.droneF)
theorem droneD_of_outside {s t : State} (h : t.outside = s.outside) : t.droneD = s.droneD :=
  (congrArg State.droneD h : t.outside.droneD = s.outside.droneD)
theorem feedA_of_outside {s t : State} (h : t.outside = s.outside) : t.feedA = s.feedA :=
  (congrArg State.feedA h : t.outside.feedA = s.outside.feedA)
theorem feedB_of_outside {s t : State} (h : t.outside = s.outside) : t.feedB = s.feedB :=
  (congrArg State.feedB h : t.outside.feedB = s.outside.feedB)
theorem rails_of_outside {s t : State} (h : t.outside = s.outside) : t.rails = s.rails :=
  (congrArg State.rails h : t.outside.rails = s.outside.rails)
theorem boot_of_outside {s t : State} (h : t.outside = s.outside) : t.boot = s.boot :=
  (congrArg State.boot h : t.outside.boot = s.outside.boot)
theorem chans_of_outside {s t : State} (h : t.outside = s.outside) : t.chans = s.chans :=
  (congrArg State.chans h : t.outside.chans = s.outside.chans)
theorem tiles_of_outside {s t : State} (h : t.outside = s.outside) : t.tiles = s.tiles :=
  (congrArg State.tiles h : t.outside.tiles = s.outside.tiles)
theorem reeds_of_outside {s t : State} (h : t.outside = s.outside) : t.reeds = s.reeds :=
  (congrArg State.reeds h : t.outside.reeds = s.outside.reeds)
theorem loops_of_outside {s t : State} (h : t.outside = s.outside) : t.loops = s.loops :=
  (congrArg State.loops h : t.outside.loops = s.outside.loops)
theorem park_of_outside {s t : State} (h : t.outside = s.outside) : t.park = s.park :=
  (congrArg State.park h : t.outside.park = s.outside.park)
theorem accs_of_outside {s t : State} (h : t.outside = s.outside) : t.accs = s.accs :=
  (congrArg State.accs h : t.outside.accs = s.outside.accs)
theorem cal_of_outside {s t : State} (h : t.outside = s.outside) : t.cal = s.cal :=
  (congrArg State.cal h : t.outside.cal = s.outside.cal)
theorem thermal_of_outside {s t : State} (h : t.outside = s.outside) : t.thermal = s.thermal :=
  (congrArg State.thermal h : t.outside.thermal = s.outside.thermal)
theorem power_of_outside {s t : State} (h : t.outside = s.outside) : t.power = s.power :=
  (congrArg State.power h : t.outside.power = s.outside.power)
theorem shelf_of_outside {s t : State} (h : t.outside = s.outside) : t.shelf = s.shelf :=
  (congrArg State.shelf h : t.outside.shelf = s.outside.shelf)

/-- A fold of steps that leave the machine quiet still leaves it quiet. -/
theorem foldl_quiet {α : Type} (f : State → α → State) (h : ∀ s x, (f s x).quiet = s.quiet) (l : List α) (s : State) :
    (l.foldl f s).quiet = s.quiet := by
  induction l generalizing s with
  | nil => rfl
  | cons a l ih => rw [List.foldl_cons, ih, h]

/-- A fold of steps that touch no more than the plans touches no more than the plans. -/
theorem foldl_outside {α : Type} (f : State → α → State) (h : ∀ s x, (f s x).outside = s.outside) (l : List α) (s : State) :
    (l.foldl f s).outside = s.outside := by
  induction l generalizing s with
  | nil => rfl
  | cons a l ih => rw [List.foldl_cons, ih, h]

variable (s : State)

/-! ### Completing a command or a request -/

@[simp] theorem quiet_bore (v : Machine.Bore) : State.quiet { s with bore := v } = s.quiet := rfl
@[simp] theorem quiet_cmdq (v : CmdQ) : State.quiet { s with cmdq := v } = s.quiet := rfl
@[simp] theorem quiet_reqs (v : Tab Req) : State.quiet { s with reqs := v } = s.quiet := rfl
@[simp] theorem quiet_tabs (v : Tab TabCmd) : State.quiet { s with tabs := v } = s.quiet := rfl
@[simp] theorem quiet_flash (v : Machine.Flash) : State.quiet { s with flash := v } = s.quiet := rfl
@[simp] theorem quiet_bell (v : Machine.Bell) : State.quiet { s with bell := v } = s.quiet := rfl
@[simp] theorem setSq_quiet (q : Nat) (x : SqSt) : (setSq s q x).quiet = s.quiet := rfl
@[simp] theorem setCq_quiet (q : Nat) (x : CqSt) : (setCq s q x).quiet = s.quiet := rfl
@[simp] theorem setCmd_quiet (c : Cmd) : (setCmd s c).quiet = s.quiet := rfl
@[simp] theorem freeTag_quiet (tag : Nat) : (freeTag s tag).quiet = s.quiet := rfl
@[simp] theorem setReq_quiet (k : Nat) (r : Req) : (setReq s k r).quiet = s.quiet := rfl
@[simp] theorem delReq_quiet (k : Nat) : (delReq s k).quiet = s.quiet := rfl
@[simp] theorem setTab_quiet (k : Nat) (x : TabCmd) : (setTab s k x).quiet = s.quiet := rfl
@[simp] theorem setReg_quiet (off : Nat) (w : Word) : (setReg s off w).quiet = s.quiet := rfl
@[simp] theorem putReg_quiet (off lo n v : Nat) : (putReg s off lo n v).quiet = s.quiet := rfl
@[simp] theorem bumpReg_quiet (off lo n k : Nat) : (bumpReg s off lo n k).quiet = s.quiet := rfl
@[simp] theorem sendMsi_quiet (fn vec : Nat) : (sendMsi s fn vec).quiet = s.quiet := quiet_of_still (sendMsi_still s fn vec)
@[simp] theorem irqSet_quiet (page : Nat) (bits : Word) : (irqSet s page bits).quiet = s.quiet :=
  quiet_of_still (irqSet_still s page bits)
@[simp] theorem post_quiet (page src : Nat) (d : Word) (sub : Nat) : (post s page src d sub).quiet = s.quiet :=
  quiet_of_still (post_still s page src d sub)
@[simp] theorem refusedCtrl_quiet (page off : Nat) : (refusedCtrl s page off).quiet = s.quiet :=
  quiet_of_still (refusedCtrl_still s page off)

@[simp] theorem setBore_quiet (a : Nat) (w : Word) : (setBore s a w).quiet = s.quiet :=
  congrArg (fun u : State => { u with bore := {}, cmdq := {}, reqs := [], tabs := [], flash := {} }) (setBore_still s a w)

@[simp] theorem setBores_quiet (a : Nat) (ws : List Word) : (setBores s a ws).quiet = s.quiet := by
  induction ws generalizing s a with
  | nil => rfl
  | cons w ws ih => rw [setBores_cons, ih, setBore_quiet]

@[simp] theorem cqSignal_quiet (q fn : Nat) (force : Bool) : (cqSignal s q fn force).quiet = s.quiet := by
  simp only [cqSignal]
  repeat' split
  all_goals simp only [setCq_quiet, sendMsi_quiet]

@[simp] theorem writeCompletion_quiet (c : Cmd) (q sct sc : Nat) (dw0 dw1 : Word) :
    (writeCompletion s c q sct sc dw0 dw1).quiet = s.quiet := by
  simp only [writeCompletion]
  rw [cqSignal_quiet, freeTag_quiet]
  split <;> simp only [bumpReg_quiet, setCq_quiet, setBores_quiet]

/-- A completion touches the Bore, the command engine and what reports it (R406, R408, R410). -/
@[simp] theorem complete_quiet (tag sct sc : Nat) (dw0 dw1 : Word) : (complete s tag sct sc dw0 dw1).quiet = s.quiet := by
  unfold complete
  split
  · rfl
  · split
    · exact writeCompletion_quiet ..
    · split
      · exact writeCompletion_quiet ..
      · rfl

@[simp] theorem planDone_quiet (k : Nat) : (planDone s k).quiet = s.quiet :=
  foldl_quiet _ (fun s tag => complete_quiet s tag _ _ _ _) _ s

@[simp] theorem journal_quiet (type : Byte) (ws : List Word) (src : Option Nat) :
    (journal s type ws src).quiet = s.quiet := rfl

/-- A commit record goes into the Bore's staging region and waits for its copy to JOURNAL (R216). -/
@[simp] theorem stageRecord_quiet (ws : List Word) : (stageRecord s ws).quiet = s.quiet := by
  simp only [stageRecord, journal, quiet_flash, setBores_quiet]

/-- A finished request touches its record and what reports it (R208, R215, R216). -/
@[simp] theorem finish_quiet (k src : Nat) (cut : Bool) (result groups arrived : Nat) (tag : Option Nat) :
    (finish s k src cut result groups arrived tag).quiet = s.quiet := by
  simp only [finish]
  repeat' split
  all_goals simp only [complete_quiet, post_quiet, irqSet_quiet, stageRecord_quiet, setReg_quiet, putReg_quiet, bumpReg_quiet]

@[simp] theorem endReq_quiet (k result : Nat) : (endReq s k result).quiet = s.quiet := by
  unfold endReq
  split
  · rfl
  · dsimp only
    rw [finish_quiet]
    split <;> simp only [bumpReg_quiet, delReq_quiet]

/-- No pending request of the slot: ending it changes nothing. -/
@[simp] theorem endReq_none (k result : Nat) (h : req s k = none) : endReq s k result = s := by simp only [endReq, h]

@[simp] theorem setRes_quiet (tag sct sc : Nat) (dw0 dw1 : Word) : (setRes s tag sct sc dw0 dw1).quiet = s.quiet := by
  unfold setRes; split <;> simp only [setCmd_quiet]

@[simp] theorem tabRefuse_quiet (k : Nat) : (tabRefuse s k).quiet = s.quiet := by
  simp only [tabRefuse, refusedCtrl_quiet, setTab_quiet]

@[simp] theorem tabStart_quiet (k cmd : Nat) : (tabStart s k cmd).quiet = s.quiet := rfl

@[simp] theorem tabEnd_quiet (k err : Nat) : (tabEnd s k err).quiet = s.quiet := by
  simp only [tabEnd]
  repeat' split
  all_goals simp only [setRes_quiet, setReg_quiet, setTab_quiet]

/-- A ring record touches the flash alone (R475). -/
theorem appendRecord_flash (p : Nat) (type : Byte) (payload : List Byte) :
    appendRecord s p type payload = { s with flash := (appendRecord s p type payload).flash } := by
  simp only [appendRecord]

@[simp] theorem appendRecord_quiet (p : Nat) (type : Byte) (payload : List Byte) :
    (appendRecord s p type payload).quiet = s.quiet := by
  rw [appendRecord_flash, quiet_flash]

/-- A Bell record touches the Bell, its ring in the Bore and what reports it (R494). -/
@[simp] theorem record_quiet (m : Msg) (conseq opener : Bool) (shid sev : Nat) :
    (record s m conseq opener shid sev).quiet = s.quiet := by
  have lost (u : State) : (bellLost u 16 8).quiet = u.quiet := quiet_of_still (bellLost_still u 16 8)
  have overw (u : State) (n : Word) : (ringOverwrite u n).quiet = u.quiet := by
    unfold ringOverwrite
    dsimp only
    split
    · rfl
    · rw [post_quiet, irqSet_quiet, bumpReg_quiet, journal_quiet, setReg_quiet]
  simp only [record]
  repeat' split
  all_goals simp only [setBores_quiet, overw, lost, quiet_bell, setReg_quiet]

/-- A park event touches the park unit and what reports it. -/
theorem parkEvent_still (cause : Nat) (tiles : Word) :
    (parkEvent s cause tiles).still = { s.still with park := (parkEvent s cause tiles).park } := by
  unfold parkEvent
  split
  · rfl
  · dsimp only
    rw [park_of_still (post_still _ _ _ _ _), post_still]
    rfl

/-! ### Redoing and rejecting plans -/

@[simp] theorem setSlot_outside (k : Nat) (x : SlotSt) : (setSlot s k x).outside = s.outside := rfl
@[simp] theorem post_outside (page src : Nat) (d : Word) (sub : Nat) : (post s page src d sub).outside = s.outside :=
  outside_of_quiet (post_quiet s page src d sub)
@[simp] theorem bumpReg_outside (off lo n k : Nat) : (bumpReg s off lo n k).outside = s.outside := rfl

/-- A redo touches the plan slots and what reports it (R26, R192). -/
@[simp] theorem redoSlot_outside (cause k : Nat) : (redoSlot s cause k).outside = s.outside := by
  simp only [redoSlot]
  split <;> simp only [post_outside, setSlot_outside, bumpReg_outside]

@[simp] theorem redoIf_outside (p : SlotSt → Bool) : (redoIf s p).outside = s.outside :=
  foldl_outside _ (fun s k => by dsimp only; split <;> simp only [redoSlot_outside]) _ s

@[simp] theorem redoAll_outside : (redoAll s).outside = s.outside := redoIf_outside s _

@[simp] theorem redoTiles_outside (ts : List Nat) (but : Option Nat) : (redoTiles s ts but).outside = s.outside :=
  foldl_outside _ (fun s k => by dsimp only; split <;> simp only [redoSlot_outside]) _ s

@[simp] theorem redoTile_outside (t : Nat) : (redoTile s t).outside = s.outside := redoTiles_outside s [t] none

@[simp] theorem dropReady_outside : (dropReady s).outside = s.outside :=
  foldl_outside _ (fun s k => by dsimp only; split <;> simp only [setSlot_outside]) _ s

@[simp] theorem rejectPlan_outside (k reason : Nat) (detail : Option (Nat × Nat)) :
    (rejectPlan s k reason detail).outside = s.outside := by
  simp only [rejectPlan]
  rw [outside_of_quiet (planDone_quiet _ _), outside_of_quiet (endReq_quiet _ _ _), post_outside, setSlot_outside]

end Sys2Proof.Machine
end

