-- ==== Sys2Proof/Laws/Feeds.lean ====
section
/-! SUPPORT. What the shared operations of the feed die can do, said once: a push touches only what reports it; what follows a move
of a feed leaves the feed in the state it moved to, and the rails, the boot and the drive die as they were. -/

namespace Sys2Proof.Machine

variable (s : State)

/-! ### One feed -/

@[simp] theorem feed_setFeed_self (f : Feed) (g : FeedSt) : feed (setFeed s f g) f = g := by cases f <;> rfl
@[simp] theorem feed_setFeed_other (f : Feed) (g : FeedSt) : feed (setFeed s f g) (other f) = feed s (other f) := by cases f <;> rfl
@[simp] theorem other_other (f : Feed) : other (other f) = f := by cases f <;> rfl

@[simp] theorem setFeed_regs (f : Feed) (g : FeedSt) : (setFeed s f g).regs = s.regs := by cases f <;> rfl
@[simp] theorem setFeed_fd (f : Feed) (g : FeedSt) : (setFeed s f g).fd = s.fd := by cases f <;> rfl
@[simp] theorem setFeed_rails (f : Feed) (g : FeedSt) : (setFeed s f g).rails = s.rails := by cases f <;> rfl
@[simp] theorem setFeed_idl (f : Feed) (g : FeedSt) : (setFeed s f g).idl = s.idl := by cases f <;> rfl
@[simp] theorem setFeed_boot (f : Feed) (g : FeedSt) : (setFeed s f g).boot = s.boot := by cases f <;> rfl
@[simp] theorem setFeed_droneF (f : Feed) (g : FeedSt) : (setFeed s f g).droneF = s.droneF := by cases f <;> rfl
@[simp] theorem setFeed_getReg (f : Feed) (g : FeedSt) (off : Nat) : getReg (setFeed s f g) off = getReg s off := by cases f <;> rfl

/-- Machines that agree on both feeds agree on each. -/
theorem feed_of_still {s t : State} (h : t.still = s.still) (f : Feed) : feed t f = feed s f := by
  cases f
  · exact feedA_of_still h
  · exact feedB_of_still h

@[simp] theorem feed_putReg (off lo n v : Nat) (f : Feed) : feed (putReg s off lo n v) f = feed s f := by cases f <;> rfl
@[simp] theorem feed_measV (f g : Feed) (v : BitVec 16) : feed (measV s f v) g = feed s g := feed_putReg ..
@[simp] theorem feed_measI (f g : Feed) (i : BitVec 16) : feed (measI s f i) g = feed s g := feed_putReg ..
@[simp] theorem feed_post (page src : Nat) (d : Word) (sub : Nat) (f : Feed) : feed (post s page src d sub) f = feed s f :=
  feed_of_still (post_still ..) f
@[simp] theorem feed_postFree (page src sub : Nat) (f : Feed) : feed (postFree s page src sub) f = feed s f :=
  feed_of_still (postFree_still ..) f

/-! ### The push -/

/-- A push touches its counter and the link (R23). -/
@[simp] theorem feedPush_still : (feedPush s).still = s.still := by
  unfold feedPush; split
  · rfl
  · simp only [sendToDrive_still, bumpReg_still]

@[simp] theorem pushIfChanged_still (old : State) : (pushIfChanged old s).still = s.still := by
  unfold pushIfChanged; split
  · rfl
  · exact feedPush_still s

@[simp] theorem shareErrHolds_still : (shareErrHolds s).still = s.still := rfl
@[simp] theorem shareRest_still : (shareRest s).still = s.still := rfl
@[simp] theorem settleShare_still (old : State) : (settleShare old s).still = s.still := by
  unfold settleShare; rw [pushIfChanged_still, shareErrHolds_still]

/-! ### What follows a move of a feed -/

/-- A feed that is not in 3 DELAY is not one that goes on at the end of a hold. -/
theorem heldGoesOn_of_not_delay (f : Feed) (h : (feed s f).state ≠ .delay) : heldGoesOn s f = s := by
  unfold heldGoesOn; rw [if_neg (fun c => h c.1)]

/-- Nor is one whose delay has not expired. -/
theorem heldGoesOn_of_not_done (f : Feed) (h : (feed s f).delayDone = false) : heldGoesOn s f = s := by
  unfold heldGoesOn; rw [if_neg (by simp [h])]

theorem leaveDelay_other (f : Feed) : feed (leaveDelay s f) (other f) = feed s (other f) := by
  unfold leaveDelay; dsimp only; split <;> exact feed_setFeed_other ..

theorem heldGoesOn_other (f : Feed) : feed (heldGoesOn s f) (other f) = feed s (other f) := by
  unfold heldGoesOn; split
  · exact leaveDelay_other ..
  · rfl

@[simp] theorem leaveDelay_rails (f : Feed) : (leaveDelay s f).rails = s.rails := by
  unfold leaveDelay; dsimp only; split <;> exact setFeed_rails ..
@[simp] theorem heldGoesOn_rails (f : Feed) : (heldGoesOn s f).rails = s.rails := by
  unfold heldGoesOn; split
  · exact leaveDelay_rails ..
  · rfl
@[simp] theorem leaveDelay_boot (f : Feed) : (leaveDelay s f).boot = s.boot := by
  unfold leaveDelay; dsimp only; split <;> exact setFeed_boot ..
@[simp] theorem heldGoesOn_boot (f : Feed) : (heldGoesOn s f).boot = s.boot := by
  unfold heldGoesOn; split
  · exact leaveDelay_boot ..
  · rfl
@[simp] theorem calmI_still (f : Feed) : (calmI s f).still = s.still := by
  unfold calmI; split
  · rfl
  · exact putReg_still ..

/-- Beside what reports it and the feed die's own registers, settling moves no more than the two feeds: each is what the end of a
hold makes of it, calmed (R40, R43, R60). -/
theorem settleFeeds_still (old : State) :
    (settleFeeds old s).still =
      { (heldGoesOn (heldGoesOn s .a) .b).still with
        feedA := calmFeed (heldGoesOn (heldGoesOn s .a) .b).feedA, feedB := calmFeed (heldGoesOn (heldGoesOn s .a) .b).feedB } := by
  unfold settleFeeds
  dsimp only
  rw [pushIfChanged_still, shareErrHolds_still]
  split
  · rw [still_fd, calmI_still, calmI_still]; rfl
  · rw [shareRest_still, still_fd, calmI_still, calmI_still]; rfl

@[simp] theorem settleFeeds_rails (old : State) : (settleFeeds old s).rails = s.rails := by
  have h := congrArg State.rails (settleFeeds_still s old)
  exact h.trans (by show (heldGoesOn (heldGoesOn s .a) .b).rails = _; simp)

@[simp] theorem settleFeeds_boot (old : State) : (settleFeeds old s).boot = s.boot := by
  have h := congrArg State.boot (settleFeeds_still s old)
  exact h.trans (by show (heldGoesOn (heldGoesOn s .a) .b).boot = _; simp)

/-- A feed that is not in 3 DELAY is, after settling, what it was, calmed. -/
theorem settleFeeds_feed (old : State) (f : Feed) (h : (feed s f).state ≠ .delay) :
    feed (settleFeeds old s) f = calmFeed (feed s f) := by
  have hs := settleFeeds_still s old
  cases f
  · have e := congrArg State.feedA hs
    refine Eq.trans e ?_
    show calmFeed (feed (heldGoesOn (heldGoesOn s .a) .b) (other .b)) = _
    rw [heldGoesOn_other, heldGoesOn_of_not_delay s .a h]; rfl
  · have e := congrArg State.feedB hs
    refine Eq.trans e ?_
    show calmFeed (feed (heldGoesOn (heldGoesOn s .a) .b) .b) = _
    have hb : feed (heldGoesOn s .a) .b = feed s .b := heldGoesOn_other s .a
    rw [heldGoesOn_of_not_delay _ .b (by rw [hb]; exact h), hb]

/-- So is a feed whose insertion delay has not expired. -/
theorem settleFeeds_feed_running (old : State) (f : Feed) (hd : (feed s f).delayDone = false) :
    feed (settleFeeds old s) f = calmFeed (feed s f) := by
  have hs := settleFeeds_still s old
  cases f
  · have ha := heldGoesOn_of_not_done s .a hd
    have e := congrArg State.feedA hs
    refine Eq.trans e ?_
    show calmFeed (feed (heldGoesOn (heldGoesOn s .a) .b) (other .b)) = _
    rw [heldGoesOn_other, ha]; rfl
  · have e := congrArg State.feedB hs
    refine Eq.trans e ?_
    show calmFeed (feed (heldGoesOn (heldGoesOn s .a) .b) .b) = _
    have hb : feed (heldGoesOn s .a) .b = feed s .b := heldGoesOn_other s .a
    rw [heldGoesOn_of_not_done _ .b (by rw [hb]; exact hd), hb]

@[simp] theorem calmFeed_state (g : FeedSt) : (calmFeed g).state = g.state := by unfold calmFeed; split <;> rfl
@[simp] theorem calmFeed_gateEnh (g : FeedSt) : (calmFeed g).gateEnh = g.gateEnh := by unfold calmFeed; split <;> rfl
@[simp] theorem calmFeed_tr (g : FeedSt) : (calmFeed g).tr = g.tr := by unfold calmFeed; split <;> rfl
@[simp] theorem calmFeed_off (g : FeedSt) : (calmFeed g).off = g.off := by unfold calmFeed; split <;> rfl
@[simp] theorem calmFeed_pres (g : FeedSt) : (calmFeed g).pres = g.pres := by unfold calmFeed; split <;> rfl
@[simp] theorem calmFeed_inWindow (g : FeedSt) : (calmFeed g).inWindow = g.inWindow := by unfold calmFeed; split <;> rfl
@[simp] theorem calmFeed_lastKind (g : FeedSt) : (calmFeed g).lastKind = g.lastKind := by unfold calmFeed; split <;> rfl

end Sys2Proof.Machine
end

