-- ==== Sys2Proof/Machine/Bond.lean ====
section
/-! DEFINITION. The surfaces of chapter 19 that software and the board see as numbers: the bond field and its pads, the bump groups and
their capacity, and the level of TOUT (R588 to R592, R596, R603, R604). -/

namespace Sys2Proof.Machine

/-! ### The bond field (R588 to R591) -/

/-- Sites on a side, the pitch and the pad in nm. -/
abbrev bondSites : Nat := 2560
abbrev bondPitch : Nat := 9000
abbrev bondPad : Nat := 4500

/-- Centre of a site in nm from the lower-left corner of the field, seen looking at the drive die's face. -/
def siteCentre (col row : Nat) : Nat × Nat := (4500 + col * bondPitch, 4500 + row * bondPitch)

/-- The mirror of an x coordinate on the photonic die, seen from its own face. -/
def mirrorX (x : Nat) : Nat := bondSites * bondPitch - x

/-- A site lies in one of the four corner keep-outs of 8 by 8. -/
def keepOut (col row : Nat) : Bool :=
  (decide (col < 8) || decide (2552 ≤ col)) && (decide (row < 8) || decide (2552 ≤ row))

/-- Classes of sites, by the number of each in a reed. -/
inductive PadClass | drive | heaterReturn | monitor | monitorReturn | shield
  deriving DecidableEq, Repr

def padsPerReed : PadClass → Nat
  | .drive => 32 | .heaterReturn => 32 | .monitor => 16 | .monitorReturn => 8 | .shield => 48

/-- Every class. -/
def padClasses : List PadClass := [.drive, .heaterReturn, .monitor, .monitorReturn, .shield]

/-- Lower-left site of reed t.q: column and row. -/
def reedSite (t q : Nat) : Nat × Nat := ((t % 8 * 4 + q % 4) * 80, (t / 8 * 8 + q / 4) * 80)

/-- Lower-left and past-last site of the cluster of 16 by 12 at the centre of the reed site. -/
def reedCluster (t q : Nat) : (Nat × Nat) × (Nat × Nat) :=
  let o := reedSite t q
  ((o.1 + 32, o.2 + 34), (o.1 + 48, o.2 + 46))

/-- The reed whose site holds a bond site: tile and reed within it. -/
def siteReed (col row : Nat) : Nat × Nat :=
  let x := col / 80
  let y := row / 80
  (y / 8 * 8 + x / 4, y % 8 * 4 + x % 4)

/-- Two sites may be connected on the photonic die as far as their reeds go: sites of one reed, or shield sites of one tile (R592). -/
def mayJoin (a b : Nat × Nat) (shields : Bool) : Bool :=
  siteReed a.1 a.2 == siteReed b.1 b.2 || (shields && (siteReed a.1 a.2).1 == (siteReed b.1 b.2).1)

/-! ### Bumps (R596) -/

/-- A power or ground group of the drive die: its bumps. -/
inductive BumpGroup | hva | hvb | core | io | aux | gnd
  deriving DecidableEq, Repr

def groupBumps : BumpGroup → Nat
  | .hva => 640 | .hvb => 640 | .core => 640 | .io => 96 | .aux => 64 | .gnd => 1536

/-- What a group carries in µA: 62.5 mA a bump. -/
def groupCapacity (g : BumpGroup) : Nat := groupBumps g * 62500

/-! ### TOUT (R603, R604) -/

/-- TOUT in 0.1 mV against TOUT_RET at a junction temperature in 0.1 degree: 0.400 V and 8.0 mV a degree, before its tolerance. -/
def toutLevel (t10 : Int) : Int := 4000 + 8 * t10

/-- A nominal level of DTIN in 0.1 mV at which the feed die acts: hot, open or shorted. -/
def dtinActs (v : Int) : Bool := decide (13600 < v) || decide (v < 800) || decide (16000 < v)

end Sys2Proof.Machine
end

