-- ==== Sys2Proof/Tests/Slice0.lean ====
section
/-! SUPPORT. The ill-formed commands that WellFormed refuses; for every statement with hypotheses, states and operands that meet
them, clause by clause and at the ends of ranges; and a few effects worked out from the spec's tables. -/

namespace Sys2Proof.Tests
open Sys2Proof Sys2Proof.Machine Sys2Proof.Safety
set_option Elab.async false

/-! ### States -/

/-- A feed in 6 ON. -/
def onFeed : FeedSt := { state := .on, pres := true, inWindow := true, gateEnh := true }

/-- A machine at stage 4 with both feeds on, both dies powered, the links up and the flash store mounted. -/
def live : State := { State.reset with
  feedA := onFeed, feedB := onFeed,
  fd := { supply := true, armed := true, liveA := true, liveB := true, pgIb := true, share := .sharing },
  rails := { state := .up, en := 63, pg := 63, dtinArmed := true },
  idl := { state := .up, pushOk := true, push0 := 0x66, ver := 0x10, lanes := 4 },
  boot := { stage := 4, selected := true, core := true, stateA := .valid, outcome := 1, feat := 7 },
  power := { dom := 0xFFFFF, fast := .run, pllcLock := true, pllsLock := true, refOk := true, vcore := 750 },
  host := { linkUp := true, speed := 4, width := 4, msixEn := 7 },
  flash := { state := .ready, laidOut := true, expMib := 1024 },
  bore := { initDone := true, climbDone := true },
  bell := { ringLive := true } }

/-- The live machine with feed A as given. -/
def feedAs (g : FeedSt) : State := { live with feedA := g }
/-- The live machine with the sequencer as given. -/
def railsAs (r : RailSeq) : State := { live with rails := r }
/-- The live machine with the feed die as given. -/
def dieAs (d : FeedDie) : State := { live with fd := { d with supply := true, armed := true } }
/-- The live machine with these boot facts. -/
def bootAs (b : Boot) : State := { live with boot := b }
/-- The live machine with this link. -/
def linkAs (l : Idl) : State := { live with idl := l }
/-- The live machine with one channel as given. -/
def chanAs (ch : Nat) (c : ChanSt) : State := setChan live ch c
/-- The live machine with one tile as given. -/
def tileAs (k : Nat) (x : TileSt) : State := setTile live k x
/-- The live machine with one reed as given. -/
def reedAs (r : Nat) (x : ReedSt) : State := setReed live r x
/-- The live machine with one slot as given. -/
def slotAs (k : Nat) (x : SlotSt) : State := setSlot live k x
/-- The live machine with one table page as given. -/
def tabAs (k : Nat) (x : TabCmd) : State := setTab live k x
/-- The live machine with one register written. -/
def regAs (off : Nat) (w : Word) : State := setReg live off w

/-! ### Well-formed commands: each check refuses an ill-formed one -/

theorem test_wf_refuses_keys : WellFormed (.tripCaptureDone [(63999, 1), (64000, 1)]) = false ∧
    WellFormed (.tripCaptureDone [(5, 1), (5, 1)]) = false ∧ WellFormed (.tripCaptureDone [(5, 1), (63999, 1)]) = true ∧
    WellFormed (.padTestDone 0 ⟨0, false⟩ [(32768, ⟨0, false⟩)] ⟨0, 0⟩ []) = false ∧
    WellFormed (.padTestDone 0 ⟨0, false⟩ [] ⟨0, 0⟩ [(16384, ⟨0, 0⟩)]) = false ∧
    WellFormed (.padtestRepeatDone 0 ⟨0, false⟩ [(32768, ⟨0, false⟩)] ⟨0, 0⟩ []) = false ∧
    WellFormed (.padtestRepeatDone 0 ⟨0, false⟩ [(32767, ⟨0, false⟩)] ⟨0, 0⟩ [(16383, ⟨0, 0⟩)]) = true := by decide

theorem test_wf_refuses_windows : WellFormed (.bar2SetpointWrite .pf0 0x7F_FFFC [0]) = false ∧
    WellFormed (.bar2SetpointWrite .pf0 0x80_0000 [0]) = true ∧ WellFormed (.bar2SetpointWrite .pf0 0x80_0002 [0]) = false ∧
    WellFormed (.bar2SetpointWrite .pf0 0x80_0FFC [0, 0]) = false ∧ WellFormed (.bar2SetpointWrite .pf0 0x80_0000 []) = false ∧
    WellFormed (.bar2DeltaWrite .pf0 0x140_0000 [0]) = false ∧ WellFormed (.bar2ShapeWrite .pf0 0xAC_0000 [0]) = false ∧
    WellFormed (.bar2SeqWrite .pf0 0xB8_0000 [0]) = false ∧ WellFormed (.bar2AccWrite .pf0 0xD0_0000) = false ∧
    WellFormed (.bar2SqWrite .pf0 0x40_0000 [0]) = false ∧ WellFormed (.bar2WindowWrite .pf0 1 [0]) = false := by decide

theorem test_wf_refuses_forms : WellFormed (.bar2PartialWrite .pf0 0 0 0 true) = false ∧
    WellFormed (.bar2PartialWrite .pf0 0 15 0 true) = false ∧ WellFormed (.bar2PartialWrite .pf0 2 1 0 true) = false ∧
    WellFormed (.breathWrite .pf0 0x3C 0) = false ∧ WellFormed (.breathWrite .pf0 0x5C 0) = false ∧
    WellFormed (.mtPeriodWrite 0x45 0) = false ∧ WellFormed (.ckCtrlWrite .pf0 0x49 0) = false ∧
    WellFormed (.prRegWrite .pf0 0x42 0) = false ∧ WellFormed (.registerWrite .pf0 3 0 true) = false ∧
    WellFormed (.registerWrite .pf0 3 0 false) = true ∧ WellFormed (.feedPageRead .pf0 0x100001) = false ∧
    WellFormed (.feedPageWrite .pf0 0x100001 0) = false ∧ WellFormed (.barRead .pf0 .bar0 ⟨1, 0⟩ true) = false ∧
    WellFormed (.barRead .pf0 .bar0 ⟨0, 1⟩ true) = false ∧ WellFormed (.barRead .pf0 .bar2 ⟨0xFFC, 1⟩ true) = false ∧
    WellFormed (.barRead .pf0 .bar4 ⟨0x4000, 0⟩ true) = false ∧ WellFormed (.barRead .pf0 .bar2 ⟨0xFF0, 3⟩ true) = true ∧
    WellFormed (.pcieLinkUp 5 4) = false ∧ WellFormed (.pcieLinkUp 4 16) = false ∧ WellFormed (.pcieLinkUp 4 4) = true ∧
    WellFormed (.msixUnmask .pf0 ⟨2, 0⟩) = false ∧
    WellFormed (.meterPeriodEnd [0] 0 0) = false ∧ WellFormed (.mtScDone [] false) = false ∧ WellFormed (.boreReplay 1 true) = false := by decide

/-! ### The queue, time and reset -/

theorem test_IdleIsOneCycle_admits : live.pending = [] := rfl

/-- The clock invariant is met with the counts at their bounds, and the step of such a state goes on. -/
theorem test_EveryStepKeepsClock_admits :
    let s : State := { live with now := 150000, droneF := 511, phase := 149999 }
    ClockInv s ∧ ∃ t, step s = .next t ∧ t.droneF = 512 :=
  ⟨by unfold ClockInv; decide, _, rfl, by decide⟩

theorem test_EveryStepKeepsCanon_admits :
    let s : State := { setBore (regAs (ro pgBELL 0x40) 1) 0x110_0000 0x100 with pending := [.coreWatchdog] }
    CanonInv s ∧ ∃ t, step s = .next t := ⟨by unfold CanonInv; decide, _, rfl⟩

theorem test_CommandsLeaveQueueAndClock_admits : ∃ t, exec .coreWatchdog live = .next t := ⟨_, rfl⟩

/-! ### Feeds and rails -/

theorem test_FeedSupplyAndPresence_admits :
    State.reset.fd.supply = false ∧ live.fd.supply = true ∧ (799 : BitVec 16).toNat < 800 ∧
    (let s := feedAs { onFeed with state := .absent, off := true }
     (feed s .a).state = .absent ∧ s.fd.armed = true ∧ (feed s .a).off = true) ∧
    (match Feed.a with | .a => (dieAs {}).fd.liveB | .b => (dieAs {}).fd.liveA) = false := by decide

theorem test_FeedWindowAndDelay_admits :
    ((feed (feedAs { state := .qualify }) .a).state = .qualify ∧ (feed (feedAs { state := .qualify }) .a).tr.latched = false ∧
      (feed (feedAs { state := .qualify }) .a).tr.coolMs = 0) ∧
    (∀ st ∈ [FeedState.cooldown, .delay, .blocked], (feed (feedAs { state := st }) .a).state.isOn = false) ∧
    (4000 ≤ (4000 : BitVec 16).toNat ∧ (4000 : BitVec 16).toNat ≤ 6400 ∧ 4000 ≤ (6400 : BitVec 16).toNat ∧ (6400 : BitVec 16).toNat ≤ 6400) ∧
    ((3799 : BitVec 16).toNat < 3800 ∧ 6600 < (6601 : BitVec 16).toNat) ∧
    (∀ st ∈ [FeedState.on, .limit], (feed (feedAs { state := st }) .a).state.isOn = true ∧ (feed (feedAs { state := st }) .a).tr.latched = false) ∧
    (∀ st ∈ [FeedState.ramp, .enhance, .on, .limit], (feed (feedAs { state := st }) .a).state.driven = true) ∧
    (let s := feedAs { state := .cooldown, inWindow := true }
     s.fd.supply = true ∧ (feed s .a).state = .cooldown ∧ (feed s .a).inWindow = true ∧ (feed s .a).tr.latched = false) := by decide

theorem test_FeedWindowAndDelay_admits_delay :
    (let s := feedAs { state := .delay }
     (feed s .a).state = .delay ∧ s.fd.armed = true ∧ charging s (other .a) = false ∧
      (600 : BitVec 16).toNat ≤ (550 : BitVec 16).toNat + 50 ∧ (550 : BitVec 16).toNat + 50 < (601 : BitVec 16).toNat) ∧
    (let s := { live with feedB := { state := .delay } }
     (feed s .b).state = .delay ∧ charging s (other .b) = false ∧ s.feedA.state ≠ .delay) ∧
    (let s := { feedAs { state := .delay } with feedB := { state := .ramp } }
     (feed s .a).state = .delay ∧ s.fd.armed = true ∧ charging s (other .a) = true) := by decide

theorem test_FeedStartAndTrips_admits :
    (∀ st ∈ [FeedState.ramp, .enhance], let s := feedAs { state := st, startTimer := true }
     charging s .a = true ∧ (feed s .a).startTimer = true ∧ (feed s .a).state = st ∧ s.fd.armed = true) ∧
    ((feed live .a).state = .on ∧ (5000 : Int) ≤ (5000 : BitVec 16).toInt) ∧
    ((feed (feedAs { state := .limit }) .a).state = .limit ∧ (4999 : BitVec 16).toInt < 5000) ∧
    (∀ st ∈ [FeedState.ramp, .enhance, .on, .limit], let s := feedAs { state := st }
     (feed s .a).state.driven = true ∧ (feed s .a).itripCmp = 100) ∧ ((((100 : BitVec 8).toNat * 100 : Nat) : Int) ≤ (10000 : BitVec 16).toInt) ∧
    (∀ st ∈ [FeedState.on, .enhance], let s := feedAs { state := st }
     ((feed s .a).state = .on ∨ (feed s .a).state = .enhance) ∧ (-500 : BitVec 16).toInt ≤ -500) ∧
    (let s := feedAs { state := .blocked }
     (feed s .a).state = .blocked ∧ s.fd.armed = true ∧ (5395 : BitVec 16).toNat + 5 ≤ (5400 : BitVec 16).toNat) ∧
    (∀ st ∈ [FeedState.on, .limit], (feed (feedAs { state := st }) .a).state.isOn = true) := by decide

theorem test_FeedControl_admits :
    live.fd.supply = true ∧ (feed live .a).state = .on ∧ (feed live (other .a)).state = .on ∧
    (let s := { live with feedB := { state := .absent } }; (feed s .a).state = .on ∧ (feed s (other .a)).state ≠ .on) ∧
    (let s := feedAs { state := .heldOff, inWindow := true }
     (feed s .a).state = .heldOff ∧ (feed s .a).tr.latched = false ∧ (feed s .a).inWindow = true ∧ (feed s .a).tr.coolMs = 0) ∧
    (let s := feedAs { state := .latched, tr := { latched := true, lastKind := 3 } }
     (feed s .a).tr.latched = true ∧ (feed s .a).state = .latched ∧ clrLatchOk s .a = true) ∧
    fld (1600 : Word) 0 11 ≤ 1600 ∧ (10 ≤ fld (10 : Word) 0 8 ∧ fld (200 : Word) 0 8 ≤ 200) ∧
    (20 ≤ fld (20 : Word) 0 8 ∧ fld (250 : Word) 0 8 ≤ 250) ∧
    (let s := regAs (ro (pgFEED .a) 0x60) 1000
     signed 16 (regFld s (ro (pgFEED .a) 0x60) 0 16) + 1000 ≤ ((fld (20 : Word) 0 8 * 100 : Nat) : Int)) ∧
    (let s := regAs (ro (pgFEED .a) 0x60) 1001
     ((fld (20 : Word) 0 8 * 100 : Nat) : Int) < signed 16 (regFld s (ro (pgFEED .a) 0x60) 0 16) + 1000) ∧
    (feed (feedAs { onFeed with itripNext := some 20 }) .a).itripNext = some 20 ∧
    (380 ≤ fld (0x1017C : Word) 0 10 ∧ fld (0x1017C : Word) 16 8 ≠ 0 ∧ fld (0x1021C : Word) 0 10 ≤ 540) := by decide

theorem test_SharingAndSags_admits :
    (dieAs { share := .rebalance }).fd.share = .rebalance ∧
    (bothOn live = true ∧ regFld live (ro pgSHARE 0x40) 0 1 = 1) ∧
    (let s := dieAs { atLimit := true }; bothOn s = true ∧ s.fd.atLimit = true ∧ (149 : BitVec 8).toNat < 150) ∧
    (live.fd.supply = true ∧ bothOn live = true ∧ bit (1 : Word) 0 = true) ∧
    (let s : State := { regAs (ro pgSHARE 0x40) 0 with fd := { live.fd with share := .dual } }
     bothOn s = true ∧ regFld s (ro pgSHARE 0x40) 0 1 = 0 ∧ s.fd.share = .dual) ∧
    (bothOn live = true ∧ live.fd.share = .sharing ∧ (399 : BitVec 10).toNat < 400 ∧ 600 < (601 : BitVec 10).toNat) ∧
    (∀ st ∈ [FeedState.on, .limit], let s := feedAs { state := st, sag := true }
     (feed s .a).state.isOn = true ∧ (feed s .a).sag = true ∧ (BitVec.ofNat 16 (sagV s .a - 1)).toNat < sagV s .a ∧
      sagV s .a ≤ (BitVec.ofNat 16 (sagV s .a)).toNat) ∧
    (feed (feedAs { state := .absent }) .a).state.isOn = false ∧
    ((BitVec.ofNat 16 (busSagV live - 1)).toNat < busSagV live ∧ busSagV live ≤ (BitVec.ofNat 16 (busSagV live)).toNat) ∧
    (dieAs { capture := some (.a, 3) }).fd.capture = some (.a, 3) := by decide

theorem test_RailSequencer_admits :
    (let s := railsAs {}; s.fd.pgIb = true ∧ s.rails.state = .idle) ∧
    (∀ k : Fin 6, (railsAs { state := .step k }).rails.state = .step k) ∧
    (∀ r ∈ [Rail.ib, .core, .io, .aux, .hva, .hvb], (railsAs { state := .step 5, pg := 63 }).rails.state.stepping = true ∧
      (railsAs { state := .step 5, pg := 63 }).rails.pg.getLsbD (railIdx r) = true) ∧
    (∀ r ∈ [Rail.ib, .core, .io, .aux, .hva, .hvb], ∃ k : Fin 6, (railsAs { state := .step k }).rails.state = .step k ∧ railStep r = k.val) ∧
    (live.rails.state = .up ∧ live.rails.pg.getLsbD 4 = true ∧ live.rails.pg.getLsbD 5 = true) ∧
    (let s := railsAs { state := .stopping, downNext := 3 }; s.rails.state = .stopping ∧ s.rails.downNext < 4) ∧
    (let s := railsAs { state := .stopping, downNext := 4 }; s.rails.state = .stopping ∧ s.rails.downNext = 4) ∧
    (railsAs { state := .retryWait }).rails.state = .retryWait ∧ State.reset.fd.pgIb = false ∧
    (live.fd.supply = true ∧ live.rails.state = .up) ∧ (railsAs { state := .stopped }).rails.state = .stopped ∧
    (railsAs { state := .latched }).rails.state = .latched ∧ live.rails.pg.getLsbD 3 = true ∧
    (∀ st ∈ [SeqState.idle, .step 3, .up], let s := railsAs { state := st, dtinArmed := true }
     s.fd.supply = true ∧ s.rails.dtinArmed = true ∧ s.rails.state ≠ .latched) := by decide

theorem test_FeedReset_admits : live.fd.supply = true ∧ live.fd.armed = true ∧ idlUp live = true ∧
    regDom (ro (pgFEED .a) 0x48) = .frst ∧ ro (pgFEED .a) 0x48 ≠ ro pgFSYS 0x4C := by decide
/-! ### Resets, boot and images -/

theorem test_CanonInv_live : CanonInv live := by unfold CanonInv; decide

theorem test_DriveDieResets_admits :
    (driveOn State.reset = false ∧ State.reset.power.railsUp = false) ∧ driveOn live = true ∧
    (let s : State := { bootAs { stage := 1 } with power := { railsUp := true } }; driveOn s = false ∧ stage2Ready s = true) ∧
    (driveOn live = true ∧ live.power.dom = 0xFFFFF) ∧ (live.boot.core = true ∧ live.boot.trial = false) ∧
    (let s := bootAs { restarting := true, selected := true }; s.boot.restarting = true ∧ s.boot.selected = true) ∧
    mayWrite live .pf0 pgSYS 0x64 1 = true ∧ mayWrite live .pf1 pgSYS 0x64 1 = true := by decide

/-- The four bytes of a word at an address. -/
def cellsOf (a : Nat) (w : Word) : List Host.Cell :=
  [(a, byteOf w 0), (a + 1, byteOf w 1), (a + 2, byteOf w 2), (a + 3, byteOf w 3)]

/-- A table without the key reads as before one entry was put in front. -/
theorem tabGet_cons_other {α : Type} (d : Nat → α) (l : Tab α) (a k : Nat) (v : α) (h : k ≠ a) :
    tabGet d ((a, v) :: l) k = tabGet d l k := by
  simp [tabGet, h]

theorem tabGet_cons_self {α : Type} (d : Nat → α) (l : Tab α) (a : Nat) (v : α) : tabGet d ((a, v) :: l) a = v := by
  simp [tabGet]

/-- Bytes elsewhere read as before a word was put in front. -/
theorem tabGet_cellsOf_other (l : List Host.Cell) (a k : Nat) (w : Word) (h : k < a ∨ a + 4 ≤ k) :
    tabGet (fun _ => (0 : Byte)) (cellsOf a w ++ l) k = tabGet (fun _ => (0 : Byte)) l k := by
  simp only [cellsOf, List.cons_append, List.nil_append]
  rw [tabGet_cons_other, tabGet_cons_other, tabGet_cons_other, tabGet_cons_other] <;> omega

theorem wordAt_cellsOf_other (l : List Host.Cell) (a k : Nat) (w : Word) (h : k + 4 ≤ a ∨ a + 4 ≤ k) :
    wordAt (cellsOf a w ++ l) k = wordAt l k := by
  simp only [wordAt]
  rw [tabGet_cellsOf_other, tabGet_cellsOf_other, tabGet_cellsOf_other, tabGet_cellsOf_other] <;> omega

theorem wordAt_cellsOf_self (l : List Host.Cell) (a : Nat) (w : Word) : wordAt (cellsOf a w ++ l) a = w := by
  have h0 : tabGet (fun _ => (0 : Byte)) (cellsOf a w ++ l) a = byteOf w 0 := tabGet_cons_self ..
  have h1 : tabGet (fun _ => (0 : Byte)) (cellsOf a w ++ l) (a + 1) = byteOf w 1 := by
    simp only [cellsOf, List.cons_append]; rw [tabGet_cons_other _ _ _ _ _ (by omega), tabGet_cons_self]
  have h2 : tabGet (fun _ => (0 : Byte)) (cellsOf a w ++ l) (a + 2) = byteOf w 2 := by
    simp only [cellsOf, List.cons_append]
    rw [tabGet_cons_other _ _ _ _ _ (by omega), tabGet_cons_other _ _ _ _ _ (by omega), tabGet_cons_self]
  have h3 : tabGet (fun _ => (0 : Byte)) (cellsOf a w ++ l) (a + 3) = byteOf w 3 := by
    simp only [cellsOf, List.cons_append]
    rw [tabGet_cons_other _ _ _ _ _ (by omega), tabGet_cons_other _ _ _ _ _ (by omega), tabGet_cons_other _ _ _ _ _ (by omega),
      tabGet_cons_self]
  simp only [wordAt, Nat.add_zero, h0, h1, h2, h3]
  exact bytes_of_word w

/-- A table whose keys all lie below `k` does not list `k`. -/
theorem tabGet_below {α : Type} (d : Nat → α) (l : Tab α) (n k : Nat) (h : ∀ p ∈ l, p.1 < n) (hk : n ≤ k) : tabGet d l k = d k := by
  induction l with
  | nil => rfl
  | cons p l ih =>
    have hp := h p (by simp)
    rw [show p = (p.1, p.2) from rfl, tabGet_cons_other _ _ _ _ _ (by omega), ih (fun q hq => h q (by simp [hq]))]

theorem foldl_same {α β : Type} (f g : β → α → β) (l : List α) (b : β) (h : ∀ x ∈ l, ∀ c, f c x = g c x) :
    l.foldl f b = l.foldl g b := by
  induction l generalizing b with
  | nil => rfl
  | cons a l ih => rw [List.foldl_cons, List.foldl_cons, h a (by simp), ih _ (fun x hx => h x (by simp [hx]))]

/-- A round keeps both chains at four words. -/
theorem turn_length (d : Digest) (k : Word) (h : d.hi.length = 4 ∧ d.lo.length = 4) :
    (d.turn k).hi.length = 4 ∧ (d.turn k).lo.length = 4 := by
  simp [Digest.turn, h.1, h.2]

theorem turns_length (l : List Word) (d : Digest) (h : d.hi.length = 4 ∧ d.lo.length = 4) :
    (l.foldl Digest.turn d).hi.length = 4 ∧ (l.foldl Digest.turn d).lo.length = 4 := by
  induction l generalizing d with
  | nil => exact h
  | cons k l ih => exact ih _ (turn_length d k h)

theorem hashBlock_length (h win : List Word) (hh : h.length = 8) : (hashBlock h win).length = 8 := by
  have e := turns_length shaAdd { hi := h.take 4, lo := h.drop 4, win := win } (by simp [hh])
  simp only [hashBlock, List.length_zipWith, List.length_append, hh, e.1, e.2]
  rfl

/-- A SHA-256 is eight words. -/
theorem sha256_length (msg : Nat → Byte) (len : Nat) : (sha256 msg len).length = 8 := by
  have key : ∀ (f : Nat → List Word) (l : List Nat) (h : List Word), h.length = 8 →
      (l.foldl (fun h j => hashBlock h (f j)) h).length = 8 := by
    intro f l
    induction l with
    | nil => exact fun h hh => hh
    | cons j l ih => exact fun h hh => ih _ (hashBlock_length h (f j) hh)
  exact key _ _ _ (by decide)

/-- The digest of an empty bundle of one block, the bundle's header before its CRC, and its CRC. -/
def zeroDigest : List Word := sha256 (fun _ => 0) 0xF00
def digestCells (k : Nat) : List Host.Cell :=
  let w := zeroDigest.getD k 0
  [(0x60 + 4 * k, byteOf w 3), (0x61 + 4 * k, byteOf w 2), (0x62 + 4 * k, byteOf w 1), (0x63 + 4 * k, byteOf w 0)]
def headCells : List Host.Cell :=
  cellsOf 0 0x474E_4C43 ++ (cellsOf 4 0x0001_0000 ++ (cellsOf 8 0x1000 ++
    (digestCells 0 ++ digestCells 1 ++ digestCells 2 ++ digestCells 3 ++ digestCells 4 ++ digestCells 5 ++ digestCells 6 ++
      digestCells 7)))
def headCrc : Nat :=
  (List.range 0xFC).foldl (fun c k => crcByte c (tabGet (fun _ => (0 : Byte)) headCells k).toNat) 0xFFFF_FFFF
def goodBundle : List Host.Cell := cellsOf 0xFC (BitVec.ofNat 32 (headCrc ^^^ 0xFFFF_FFFF)) ++ headCells

theorem goodBundle_low (k : Nat) (h : k < 0xFC) : tabGet (fun _ => (0 : Byte)) goodBundle k = tabGet (fun _ => (0 : Byte)) headCells k :=
  tabGet_cellsOf_other _ _ _ _ (.inl h)

theorem goodBundle_high (k : Nat) (h : 0x100 ≤ k) : tabGet (fun _ => (0 : Byte)) goodBundle k = 0 :=
  tabGet_below _ _ 0x100 k (by simp [goodBundle, headCells, cellsOf, digestCells]) h

/-- The bundle passes header, CRC and digest. -/
theorem goodBundle_ok (s : State) (h : s.flash.boot = goodBundle) : bundleErr s 0 = 0 := by
  have w0 : bundle s 0 0 = 0x474E_4C43 := by
    simp only [bundle, h, slotAt]
    rw [goodBundle, wordAt_cellsOf_other _ _ _ _ (by omega), headCells, wordAt_cellsOf_self]
  have w4 : bundle s 0 4 = 0x0001_0000 := by
    simp only [bundle, h, slotAt]
    rw [goodBundle, wordAt_cellsOf_other _ _ _ _ (by omega), headCells, wordAt_cellsOf_other _ _ _ _ (by omega), wordAt_cellsOf_self]
  have w8 : bundle s 0 8 = 0x1000 := by
    simp only [bundle, h, slotAt]
    rw [goodBundle, wordAt_cellsOf_other _ _ _ _ (by omega), headCells, wordAt_cellsOf_other _ _ _ _ (by omega),
      wordAt_cellsOf_other _ _ _ _ (by omega), wordAt_cellsOf_self]
  have wc : bundle s 0 0xFC = BitVec.ofNat 32 (headCrc ^^^ 0xFFFF_FFFF) := by
    simp only [bundle, h, slotAt]
    rw [goodBundle, wordAt_cellsOf_self]
  have crc : (List.range 0xFC).foldl (fun c k => crcByte c
      (tabGet (fun _ => (0 : Byte)) s.flash.boot (slotAt 0 + k)).toNat) 0xFFFF_FFFF = headCrc := by
    unfold headCrc
    refine foldl_same _ _ _ _ (fun x hx c => ?_)
    have hx' : x < 0xFC := List.mem_range.mp hx
    rw [h, slotAt, Nat.zero_mul, Nat.zero_add, goodBundle_low x hx']
  have sha : (sha256 (fun k => tabGet (fun _ => (0 : Byte)) s.flash.boot (slotAt 0 + (0x100 + k))) 0xF00) = zeroDigest := by
    unfold zeroDigest
    congr 1
    funext k
    rw [h, slotAt, Nat.zero_mul, Nat.zero_add, goodBundle_high _ (by omega)]
  have dig : (List.range 8).map (fun k => tabGet (fun _ => (0 : Byte)) s.flash.boot (slotAt 0 + (0x60 + 4 * k)) ++
      tabGet (fun _ => (0 : Byte)) s.flash.boot (slotAt 0 + (0x60 + 4 * k + 1)) ++
      tabGet (fun _ => (0 : Byte)) s.flash.boot (slotAt 0 + (0x60 + 4 * k + 2)) ++
      tabGet (fun _ => (0 : Byte)) s.flash.boot (slotAt 0 + (0x60 + 4 * k + 3))) = zeroDigest := by
    have hl : zeroDigest.length = 8 := sha256_length _ _
    rw [h]
    simp only [goodBundle, headCells, digestCells]
    generalize zeroDigest = d at hl
    generalize BitVec.ofNat 32 (headCrc ^^^ 0xFFFF_FFFF) = c
    match d, hl with
    | [a0, a1, a2, a3, a4, a5, a6, a7], _ =>
      simp [List.range_succ, slotAt, tabGet, cellsOf, bytes_of_word]
  unfold bundleErr
  dsimp only
  rw [w0, w4, w8, wc, crc]
  have e : (0x1000 : Word).toNat - 0x100 = 0xF00 := by decide
  rw [if_neg (by decide), if_neg (fun h => h rfl), e, sha, dig, if_neg (fun h => h rfl)]

/-- The live machine with a correct bundle in slot A. -/
def withBundle (b : Boot) : State := { bootAs b with flash := { live.flash with boot := goodBundle } }

theorem test_BootSlots_admits :
    (let s := bootAs { stage := 2, stateA := .pending }
     s.boot.stage = 2 ∧ s.boot.selected = false ∧ driveOn s = true ∧ s.flash.state = .ready ∧ s.boot.stateA = .pending) ∧
    (let s := bootAs { stage := 2, stateA := .failed, stateB := .valid, pref := true }
     s.boot.stateA ≠ .pending ∧ s.boot.stateB ≠ .pending ∧ slotState s (b2n s.boot.pref) = .valid ∧ s.boot.selected = false) ∧
    (let s := bootAs { stage := 2, stateA := .failed }
     s.boot.stateA ∈ [.empty, .failed] ∧ s.boot.stateB ∈ [.empty, .failed] ∧ s.boot.selected = false ∧ s.flash.state = .ready) ∧
    (let s := bootAs { stage := 2, selected := true, trial := true, stateA := .pending }
     s.boot.stage = 2 ∧ s.boot.selected = true ∧ s.boot.core = false ∧ bundleErr s (runningSlot s) ≠ 0 ∧ s.boot.trial = true ∧
      driveOn s = true) ∧
    (let s : State := { bootAs { stage := 2, selected := true, trial := true, stateA := .pending, holdWhy := 3, stage2At := 1 } with
       now := 480_000_001 }
     s.boot.stage = 2 ∧ s.boot.selected = true ∧ s.boot.holdWhy ≠ 1 ∧ s.boot.stage2At + 480_000_000 ≤ s.now ∧ s.boot.trial = true ∧
      driveOn s = true):= by decide

theorem test_BootSlots_admits_stages :
    (∀ o ∈ [(1 : BitVec 2), 2], let s := bootAs { stage := 2, core := true, outcome := o }
     s.boot.stage = 2 ∧ s.boot.core = true ∧ s.boot.holdWhy = 0 ∧ (s.boot.outcome = 1 ∨ s.boot.outcome = 2) ∧ s.bore.climbDone = true) ∧
    (∀ k : Fin 6, let s := bootAs { stage := 3, core := true }
     s.boot.stage = 3 ∧ coreRuns s = true ∧ tabBusy s k.val = false ∧ k.val ∉ s.boot.calLoaded) ∧
    (let s : State := { bootAs { stage := 3, core := true, calLoaded := [0, 1, 2, 3, 4, 5] } with thermal := { warmCount := 256 } }
     s.boot.stage = 3 ∧ coreRuns s = true ∧ idlUp s = true ∧ s.idl.pushOk = true ∧ (∀ k : Fin 6, k.val ∈ s.boot.calLoaded) ∧
      modelWarm s = true) ∧
    (let s := bootAs { stage := 4, trial := true }; mayWrite s .pf0 pgBOOT 0x44 0 = true ∧ s.boot.trial = true ∧ driveOn s = true) ∧
    (let s := bootAs { stage := 4, stateA := .pending }
     mayWrite s .pf0 pgBOOT 0x44 0 = true ∧ s.boot.stateA = .pending ∧ s.boot.updCmd = 0) ∧
    (let s := bootAs { stage := 3, outcome := 3, holdWhy := 1 }
     mayWrite s .pf0 pgBOOT 0x44 0 = true ∧ s.boot.outcome = 3 ∧ s.boot.holdWhy = 1) := by decide

theorem test_BootSlots_admits_bundle :
    let s := withBundle { stage := 2, selected := true }
    s.boot.stage = 2 ∧ s.boot.selected = true ∧ s.boot.core = false ∧ bundleErr s (runningSlot s) = 0 ∧ s.boot.trial = false :=
  ⟨rfl, rfl, rfl, goodBundle_ok _ rfl, rfl⟩

theorem test_ImageUpdates_admits :
    (mayWrite live .pf0 pgBOOT 0x8C 0 = true ∧ live.boot.updCmd = 0 ∧ live.boot.updStarted = false) ∧
    (let s := bootAs { stage := 4, updCmd := 1 }
     (∀ w ∈ ([0x10F_FFFC, 0x110_0008] : List Nat), w < 0x110_0000 ∨ 0x110_0000 + s.boot.updLen ≤ w)) ∧
    (let s := setReg (regAs (ro pgBOOT 0x84) 0x7C_0000) (ro pgBOOT 0x88) 0x4_0000
     updRangeOk (getReg s (ro pgBOOT 0x84)).toNat (getReg s (ro pgBOOT 0x88)).toNat = true ∧ getReg s (ro pgBOOT 0x88) ≠ 0) ∧
    (let s := bootAs { stage := 4, stateB := .pending }; slotState s (targetSlot s) = .pending) ∧
    (∀ c ∈ [(1 : BitVec 2), 2], mayWrite (bootAs { stage := 4, updCmd := c }) .pf0 pgBOOT 0x8C 0 = true ∧
      (bootAs { stage := 4, updCmd := c }).boot.updCmd ≠ 0) ∧
    (let s := bootAs { stage := 4, updCmd := 1 }
     memWf s.bore.mem = true ∧ s.bore.badPar = [] ∧ s.boot.updCmd = 1 ∧ s.boot.updAbort = false ∧ bootWritable s = true) ∧
    (bootAs { updAbort := true }).boot.updAbort = true := by decide

theorem test_ImageUpdates_admits_seal :
    let s := withBundle { stage := 4, running := true, updCmd := 2 }
    s.boot.updCmd = 2 ∧ s.boot.updAbort = false ∧ bootWritable s = true ∧ bundleErr s (targetSlot s) = 0 :=
  ⟨rfl, rfl, rfl, goodBundle_ok _ rfl⟩

theorem test_PadTestAndBonds_admits :
    (let s := bootAs { stage := 2, padRun := true, padTiles := 1 }
     s.boot.padRun = true ∧ s.boot.padDone = false ∧ s.boot.padTiles.getLsbD ((1023 : Chan).val / 1024) = true ∧
      tileOn s ((1023 : Chan).val / 1024) = true) ∧
    (let s := bootAs { padRun := true, padDone := true, padTiles := 0x8000_0000 }
     s.boot.padRun = true ∧ s.boot.padDone = true ∧ s.boot.padTiles.getLsbD ((32767 : Chan).val / 1024) = true ∧
      s.boot.padTiles.getLsbD (16383 / 512) = true ∧ tileOn s 31 = true) ∧
    (mayWrite live .pf0 pgBOOT 0x74 0 = true ∧ fld (0x0001_0000 : Word) 0 12 < fld (0x0001_0000 : Word) 16 12) ∧
    (mayRead live .pf2 pgBOOT 0x7C = true ∧
      regFld (regAs (ro pgBOOT 0x78) 36862) (ro pgBOOT 0x78) 0 16 < 36863) ∧
    (mayWrite live .pf0 pgBOOT 0x80 0 = true ∧ bit (0x100 : Word) 8 = true ∧ anyArmed live = false ∧
      anyArmed (slotAs 15 { state := .armed }) = true) := by decide

/-- A copy whose trailer holds the CRC of its entries. -/
def goodCopy : ParkCopy := { entries := [(5, 0x1234)], gen := 7, crc := parkCrc [(5, 0x1234)] 7 }
theorem goodCopy_intact : goodCopy.intact = true := by simp only [ParkCopy.intact, goodCopy, beq_self_eq_true]

theorem test_ParkStore_admits_copy :
    (let s : State := { live with park := { loader := true, copy0 := goodCopy } }
     s.park.loader = true ∧ s.park.copy0.intact = true ∧ s.power.dom = 0xFFFFF) ∧
    (let s : State := { live with park := { reload := true, copy0 := goodCopy } }
     s.park.reload = true ∧ s.park.copy0.intact = true) :=
  ⟨⟨rfl, goodCopy_intact, rfl⟩, rfl, goodCopy_intact⟩

theorem test_ParkStore_admits :
    (driveOn live = true ∧ live.park.strobed = false ∧ live.rails.pg.getLsbD 4 = true ∧ live.rails.pg.getLsbD 5 = true) ∧
    (mayWrite live .pf1 pgPARK 0x44 1 = true ∧ live.power.dom = 0xFFFFF ∧ getReg (regAs (ro pgPARK 0x48) 0x8000_0000) (ro pgPARK 0x48) ≠ 0) ∧
    (let e : ParkEvent := { cause := 5, tiles := 0x8000_0001, left := 0x8000_0000 }
     let s : State := { live with park := { events := [e] } }
     s.park.events = [e] ∧ e.left.getLsbD (31 : Tile).val = true ∧ (chan s 32767).fuse = .clear ∧ outranks s (chan s 32767) 3 = false) ∧
    (mayWrite live .pf0 pgPARK 0x44 0 = true ∧ parkBusy live = false ∧ wornCopy live = none ∧ live.park.events = []) ∧
    ({ live with park := { update := some [] } } : State).park.update = some [] ∧
    ({ live with park := { apply := true } } : State).park.apply = true ∧
    mayWrite live .pf0 pgPARK 0x58 0 = true ∧ mayRead live .pf0 pgPARK 0x58 = true := by decide

theorem test_LinkTraining_admits :
    (linkAs {}).idl.state = .down ∧ live.fd.supply = true ∧ driveOn live = true ∧
    (let s := linkAs { state := .training, trainDrive := some (0x10, 0x10, 15), trainFeed := some (0x0F, 0x11, 12) }
     s.idl.state = .training ∧ s.idl.trainDrive = some (0x10, 0x10, 15) ∧ s.idl.trainFeed = some (0x0F, 0x11, 12) ∧
      (0x10 : BitVec 8).toNat ≤ 16 ∧ 16 ≤ (0x10 : BitVec 8).toNat ∧ (0x0F : BitVec 8).toNat ≤ 16 ∧ 16 ≤ (0x11 : BitVec 8).toNat ∧
      (linkLanes 15 12).2 ≠ 0) ∧
    (idlUp live = true ∧ live.idl.toDrive.discarding = false) ∧
    (∀ n ∈ [2, 3], let s := linkAs { live.idl with
       toDrive := { wire := [(7, .push0 0)], discarding := true, replays := n },
       toFeed := { wire := [(9, .wrData 0)], discarding := true, replays := n } }
     idlUp s = true ∧ s.idl.toDrive.discarding = true ∧ s.idl.toFeed.discarding = true ∧
      (n < 3 → s.idl.toDrive.replays < 3 ∧ s.idl.toFeed.replays < 3) ∧ (3 ≤ n → 3 ≤ s.idl.toDrive.replays ∧ 3 ≤ s.idl.toFeed.replays)) ∧
    (mayWrite live .pf0 pgIDL 0x40 0 = true ∧
      (slot (slotAs 15 { state := .armed, ready := true }) (15 : Slot).val).state = .armed) := by decide

/-- The live machine with these frames on the way to the drive die and to the feed die. -/
def wires (d f : List (BitVec 8 × Frame)) (w : FeedWait) : State :=
  linkAs { live.idl with
    toDrive := { wire := d }, toFeed := { wire := f }, rdWait := [w], wrWait := [w], held0 := some 1,
    bell0 := some (1, 2, false), wrHeld := some (0x1048, 0) }

theorem test_LinkFrames_admits :
    (∀ f ∈ [Frame.push0 1, .push1 1, .rdData 1, .wrAck 0x48 true, .wrAck 0x48 false, .drone 1, .bell0 1 2 false, .bell1 3],
      let s := wires [(0, f)] [] { off := 0x48, fn := 0 }
      idlUp s = true ∧ s.idl.toDrive.discarding = false ∧ s.idl.toDrive.wire = (0, f) :: [] ∧
      s.idl.rdWait = { off := 0x48, fn := 0 } :: [] ∧ s.idl.wrWait = { off := 0x48, fn := 0 } :: [] ∧ s.idl.heldAcc = [] ∧
      (s.idl.rdWait.all fun w => w.tag == none && w.fn != 3) = true ∧
      s.idl.held0 = some 1 ∧ s.idl.bell0 = some (1, 2, false) ∧ s.bell.inq.length < 64) ∧
    live.idl.held0 = none ∧ live.droneF % 1024 = 0 ∧ (0x1048 : BitVec 15).toNat < 0x7000 ∧
    (∀ f ∈ [Frame.rdReq 0x1048 0, .wrAddr 0x1048 0, .wrData 1600], let s := wires [] [(0, f)] { off := 0x48, fn := 0 }
      idlUp s = true ∧ s.idl.toFeed.discarding = false ∧ s.idl.toFeed.wire = (0, f) :: [] ∧ s.idl.wrHeld = some (0x1048, 0) ∧
      feedLocked s (0x10_0000 + 0x1048) 0 false = false ∧ feedRefuses s (0x10_0000 + 0x1048) 1 = true ∧
      fld (1600 : Word) 0 11 ≤ 1600) ∧
    feedLocked (setReg live (ro 0x101 0x28) 0x60) (0x10_0000 + 0x1048) 2 false = true := by decide

/-! ### Channels, tiles and references -/

theorem test_ChannelSupervision_admits : let ch : Chan := 32767
    (∀ c ∈ [({} : ChanSt), { limiting := true }, { complLive := true, cfg := 5 }, { complLive := false, cfg := 1 },
        { limiting := true, consec := 3 }], (chan (chanAs ch c) ch.val).fuse = .clear ∧ tileOn (chanAs ch c) (ch.val / 1024) = true) ∧
    (chan live ch.val).limiting = false ∧ (chan (chanAs ch { limiting := true }) ch.val).limiting = true ∧
    (chan (chanAs ch { fuse := .fused }) ch.val).fuse ≠ .clear ∧
    (let c := chan live ch.val
     c.limiting = false ∧ c.complLive = false ∧ changing c live.now = false ∧ c.tongue = none) ∧
    (chan (chanAs ch { cfg := 0 }) ch.val).cfg.getLsbD 0 = false ∧
    ((chan live ch.val).cfg.getLsbD 0 = true ∧ (chan live ch.val).complLive = false ∧ (chan live ch.val).tongue = none) ∧
    (let c := chan (chanAs ch { complLive := true, cfg := 5 }) ch.val
     c.fuse = .clear ∧ c.complLive = true ∧ c.cfg.getLsbD 0 = true ∧ c.cfg.getLsbD 2 = true ∧ c.tongue = none) ∧
    (chan (chanAs ch { tongue := some { slot := 0, cOld := 0, final := 1, range := false, segs := [], plain := true } }) ch.val).tongue
      ≠ none := by decide

theorem test_ChannelCommands_admits : let k : Tile := 31
    (∀ o ∈ [0x5C, 0x4C], mayWrite live .pf1 (pgTILE k.val) o 1 = true) ∧ mayWrite live .pf0 (pgTILE k.val) 0x5C 0 = true ∧
    mayRead live .pf2 (pgTILE k.val) 0x58 = true ∧
    (let s := setReg (chanAs 32767 { fuse := .fused, kind := 1 }) (ro (pgTILE k.val) 0x48) 1023
     selected s k.val = 32767 ∧ (chan s (selected s k.val)).fuse = .fused ∧ releaseOk s (selected s k.val) = true) ∧
    (let s := setReg (chanAs 31744 { fuse := .fused, kind := 2 }) (ro (pgTILE k.val) 0x1C) 2
     (chan s (selected s k.val)).fuse = .fused ∧
      sticky s (pgTILE k.val) (kindSource (chan s (selected s k.val)).kind.toNat) = true) ∧
    (chan live (selected live k.val)).fuse = .clear ∧
    (chan (chanAs 31744 { fuse := .off }) (selected live k.val)).fuse = .off ∧
    (let s := chanAs 31744 { fuse := .locked, kind := 1 }
     (chan s (selected s k.val)).fuse = .locked ∧ releaseOk s (selected s k.val) = true) := by decide +kernel

theorem test_Valves_admits : let k : Tile := 31
    tileOn live k.val = true ∧
    (∀ st ∈ [ValveState.blocked, .conduct, .limit, .softStart, .tripped, .heldOff], ∀ v ∈ [Valve.va, .vb],
      valve (tile (tileAs k { va := st, vb := st }) k.val) v = st) ∧
    (∀ st ∈ [ValveState.conduct, .limit, .softStart], st.feeds = true ∨ st.carries = true) ∧
    (ValveState.conduct.feeds = true ∧ ValveState.conduct.carries = true) ∧
    (let s : State := { tileAs k { exempt := false, exemptTill := 7 } with now := 7 }
     let x := tile s k.val
     exemptNow s.now x = false ∧ x.dark = false ∧ x.va.feeds = false ∧ x.vb.feeds = false) ∧
    mayWrite live .pf1 (pgTILE k.val) 0x68 1 = true ∧ mayWrite live .pf0 (pgTILE k.val) 0x68 0 = true ∧
    (450 ≤ (450 : BitVec 10).toNat ∧ (449 : BitVec 10).toNat < 450) ∧
    (∀ v ∈ [Valve.va, .vb], sticky live (pgTILE k.val) (match v with | .va => 3 | .vb => 4) = false) ∧
    (valve (tile (tileAs k { va := .conduct, vb := .conduct }) k.val) (otherValve .va)).carries = true ∧
    (valve (tile live k.val) (otherValve .va)).carries = false := by decide

theorem test_ReferencesAndTileChecks_admits : let r : Reed := 1023
    (tileOn live (r.val / 32) = true ∧ (reed live r.val).onBackup = false ∧ (reed live r.val).transfer = false ∧
      (tile live (r.val / 32)).backupFailed = false) ∧
    (tile (tileAs 31 { backupFailed := true }) (r.val / 32)).backupFailed = true ∧
    (reed (reedAs r { transfer := true }) r.val).transfer = true ∧
    (let s := tileAs 31 { va := .conduct, vb := .conduct }
     tilePlays s 31 = false ∧ (tile s 31).va = .conduct ∧ (tile s 31).vb = .conduct ∧
      sumsDiffer (isum s 31) (21 : BitVec 32).toInt = true ∧ sumsDiffer (isum s 31) (20 : BitVec 32).toInt = false) ∧
    (let s := reedAs 1023 { onBackup := true }
     mayWrite s .pf1 (pgTILE 31) 0x78 1 = true ∧ (reed s (31 * 32 + 31)).onBackup = true ∧ sticky s (pgTILE 31) 8 = false ∧
      reedPlays s (31 * 32 + 31) = false) ∧
    (let g : Tongue := { slot := 0, cOld := 0, final := 1, range := false, segs := [], plain := true }
     let s := chanAs 31744 { tongue := some g }
     mayWrite s .pf0 (pgTILE 31) 0x0C 0 = true ∧ 31744 / 1024 = (31 : Tile).val ∧ (chan s 31744).tongue = some g) := by decide

theorem test_CanonInv_chan : CanonInv (chanAs 31744 { atPark := true }) := by unfold CanonInv; decide

/-! ### Plans and commits -/

theorem test_PlanCommands_admits : let k : Slot := 15
    (∀ st ∈ [SlotState.empty, .staging, .admitted, .armed, .rejected, .committed],
      let s := slotAs k { state := st }
      mayWriteSlot s .pf0 pgPLAN 0x40 1 k.val = true ∧ mayWriteSlot s .pf1 pgPLAN 0x40 1 k.val = true ∧ (slot s k.val).state = st ∧
      (slot s k.val).work = .none ∧ s.bell.parkHold = false ∧ inRun s = true) ∧
    (let s : State := { slotAs k { state := .empty } with power := { live.power with fast := .warm } }
     mayWriteSlot s .pf0 pgPLAN 0x40 1 k.val = true ∧ inRun s = false) ∧
    (let s := slotAs k { state := .armed }; (slot s k.val).ready = false ∧ committing s k.val = false) ∧
    (∀ at' ∈ [5, 4], let s : State := { setReq (slotAs k { state := .armed, ready := true }) k { src := 2, cut := false, arrived := at', lat := 7 } with
       now := 5 }
     (slot s k.val).state = .armed ∧ (slot s k.val).ready = true ∧ committing s k.val = (at' == 5)) ∧
    (32768 < (32769 : BitVec 16).toNat ∧ (32768 : BitVec 16).toNat ≤ 32768) ∧
    (let s : State := { slotAs k { state := .staging } with boot := { live.boot with stage := 3 } }
     mayWriteSlot s .pf0 pgPLAN 0x40 1 k.val = true ∧ s.boot.stage.val < 4) ∧
    (let s := slotAs k { state := .staging }
     s.boot.stage.val = 4 ∧ (tab s kST).running ≠ 1 ∧ s.bore.badPar = [] ∧ (resolve s k.val (0 : BitVec 16).toNat).fail = none) ∧
    (let s := setBore (slotAs k { state := .staging }) (deltaAddr k.val 0) 0x0010_7FFF
     (resolve s k.val (1 : BitVec 16).toNat).fail = none) ∧
    (let s := slotAs k { state := .admitted, entries := [{ ch := 32767, code := 1, range := false }] }
     (slot s k.val).state = .admitted ∧ hasRoom s k.val = true) ∧
    (let s : State := { slotAs k { state := .admitted } with bell := { parkHold := true } }
     mayWriteSlot s .pf0 pgPLAN 0x40 1 k.val = true ∧ (slot s k.val).work = .none ∧ s.bell.parkHold = true) := by decide +kernel

theorem test_StageWork_admits : let k : Slot := 15
    (live.bore.badPar = [] ∧ inRun live = true) ∧
    (let s : State := { slotAs k { state := .staging, work := .expand } with boot := { live.boot with feat := 5 } }
     (slot s k.val).state = .staging ∧ (slot s k.val).work = .expand ∧ featOn s 1 = false ∧
      (resolve s k.val (slot s k.val).deltas.toNat).fail = none) ∧
    (let s := slotAs k { state := .staging, work := .expand, deltas := 1 }
     (resolve s k.val (slot s k.val).deltas.toNat).fail = some (3, 0, 0)) ∧
    (let s := slotAs k { state := .expanded, work := .admission }
     (slot s k.val).waitAdmit = false ∧ admitBlocked s = false ∧ banksReady s k.val = true ∧ (admitPlan s (slot s k.val).entries).1.reason = 0) ∧
    (let s := slotAs k { state := .expanded, work := .admission, entries := [{ ch := 0, code := 65535, range := true }] }
     admitBlocked s = false ∧ (slot s k.val).entries ≠ [] ∧ (admitPlan s (slot s k.val).entries).1.reason ≠ 0) ∧
    (let s := slotAs k { state := .armed, work := .copy, entries := [{ ch := 32767, code := 1, range := false }] }
     (slot s k.val).state = .armed ∧ (slot s k.val).work = .copy ∧ banksReady s k.val = true ∧ (slot s k.val).entries.length < 2048 ∧
      ∃ e ∈ (slot s k.val).entries, e.ch = (32767 : Chan).val) := by decide

theorem test_CommitRequests_admits : let k : Slot := 15
    (let s := slotAs k { state := .armed }
     4 = s.boot.stage.val ∧ level s < 3 ∧ (slot s k.val).state = .armed ∧ req s k.val = none ∧
      mayWriteSlot s .pf1 pgCOMMIT 0x44 1 k.val = true) ∧
    (slot live k.val).state ≠ .armed ∧
    (∀ falling ∈ [true, false], ∀ e ∈ [none, some 3],
     let s : State := { setReg (slotAs k { state := .armed }) (ro pgCOMMIT 0x40) (if falling then 0xF3 else 0xF1) with
       now := 5, host := { live.host with syncEdge := e } }
     let c := getReg s (ro pgCOMMIT 0x40)
     domOn s 3 = true ∧ bit c 0 = true ∧ bit c 1 = falling ∧ fld c 4 4 = k.val ∧ s.host.syncEdge = e ∧ e.getD 3 + 2 ≤ s.now) ∧
    (let s : State := { live with now := 5, host := { live.host with syncEdge := some 4 } }
     s.host.syncEdge = some 4 ∧ s.now < 4 + 2) := by decide

/-- The live machine with slot 15 armed, and its schedule entry armed for time `n`. -/
def schedAs (n : Word) : State := setReg (setReg (slotAs 15 { state := .armed }) (ro pgCOMMIT 0x64) 0x8000) (ro pgCOMMIT 0x178) n

theorem test_CommitRequests_admits_armed : let k : Slot := 15
    schedEn (schedAs 3) k.val = true ∧ (slot (schedAs 3) k.val).state = .armed ∧ req (schedAs 3) k.val = none ∧
    mayWrite (schedAs 3) .pf1 pgCOMMIT 0x64 1 = true ∧ schedTime (schedAs 3) k.val ≤ shelfNow (schedAs 3) + 3 ∧
    shelfNow (schedAs 4) + 3 < schedTime (schedAs 4) k.val := by decide +kernel

theorem test_CommitRequests_admits_schedule : let k : Slot := 15
    (let s := regAs (ro pgCOMMIT 0x178) 3
     schedEn s k.val = false ∧ featOn s 2 = true ∧ shelfNow s + 3 ≤ schedTime s k.val) ∧
    (let s := regAs (ro pgCOMMIT 0x178) 2; schedTime s k.val < shelfNow s + 3) ∧
    (∀ hi ∈ [true, false], mayWrite live .pf1 pgCOMMIT (0x100 + 8 * k.val + if hi then 4 else 0) 1 = true) := by decide +kernel

theorem test_CommitRequests_admits_timeout : let k : Slot := 15
    let s := regAs (ro pgCOMMIT 0x48) 1
    ∀ n ∈ [1199, 1200], let s := setReq s k { src := 2, cut := false, arrived := 0, waited := n }
     req s k.val = some { src := 2, cut := false, arrived := 0, waited := n } ∧
      (n = 1200 → regFld s (ro pgCOMMIT 0x48) 0 7 * 1200 ≤ n) ∧ (n = 1199 → n < regFld s (ro pgCOMMIT 0x48) 0 7 * 1200) := by decide

/-- An admitted and copied slot 15 with one entry, at channel 32767. -/
def strobeSlot : State := slotAs 15 { state := .armed, ready := true, entries := [{ ch := 32767, code := 1, range := false }] }
/-- The request of slot 15. -/
def strobeReq (cut : Bool) : Req := { src := 3, cut := cut, arrived := 0, lat := 7 }
/-- Slot 15 with its request, its tile last written at time 0. -/
def strobeState (cut : Bool) (now : Nat) : State :=
  { setReq (setTile strobeSlot 31 { lastStrobe := some 0 }) 15 (strobeReq cut) with
    now := now }

theorem test_StrobesAndBreath_admits_request : req (strobeState true 1200) 15 = some (strobeReq true) ∧
    req (strobeState false 1200) 15 = some (strobeReq false) ∧ (chan (strobeState false 1200) 32767).fuse = .clear ∧
    (chan (strobeState false 1200) 32767).wrote = none ∧ (chan (strobeState false 1200) 0).unlooped = none := by decide

theorem test_StrobesAndBreath_admits_goes : goesNow (strobeState true 1200) 15 (strobeReq true) = true ∧
    goesNow (strobeState false 1200) 15 (strobeReq false) = true ∧ goesNow (strobeState false 1199) 15 (strobeReq false) = false ∧
    goesNow { strobeState false 1200 with strobeAt := some 1200 } 15 (strobeReq false) = false := by decide +kernel

theorem test_StrobesAndBreath_admits_offsets :
    (∀ off ∈ [0, 1], let x : SlotSt := { groups := 2, spacing := 100, reedGroup := [(1023, off)] }
     (offsetOf x 1023 = 0 ↔ off = 0)) := by decide

theorem test_StrobesAndBreath_admits_breath : ∀ f ∈ ((regRow (ro pgBREATH 0x40)).map (·.rules)).getD [],
    (f.min ≤ fld (0x0010_0010 : Word) f.lo f.n ∧ fld (0x0010_0010 : Word) f.lo f.n ≤ f.max ∧ fld (0x0010_0010 : Word) f.lo f.n ≠ 0) ∧
    f.min ≤ fld (0x0FFF_0001 : Word) f.lo f.n ∧ fld (0x0FFF_0001 : Word) f.lo f.n ≤ f.max ∧ fld (0x0FFF_0001 : Word) f.lo f.n ≠ 0 := by
  decide +kernel

theorem test_StrobesAndBreath_admits_write : (regRow (ro pgBREATH 0x40)).map (·.acc) = some .rw ∧
    mayWrite live .pf0 pgBREATH 0x40 0 = true := by decide +kernel

theorem test_TongueEvents_admits :
    (let e : Entry := { ch := 32767, code := 9, range := false, segs := [⟨16384, 1⟩] }
     let s := chanAs 32767 { waiting := some (15, e) }
     (32767 : Chan).val / 32 = (1023 : Reed).val ∧ (chan s 32767).waiting = some (15, e) ∧ (chan s 32767).fuse = .clear ∧
      outranks s (chan s 32767) 2 = false ∧ e.segs = ⟨16384, 1⟩ :: [] ∧ e.range = (chan s 32767).range) ∧
    (let e : Entry := { ch := 32767, code := 9, range := true }
     e.segs = [] ∨ e.range ≠ (chan (chanAs 32767 { waiting := some (15, e) }) 32767).range) ∧
    (let s := chanAs 32767 { waiting := some (15, { ch := 32767, code := 9, range := false }), wrote := some 0, src := 1 }
     outranks s (chan s 32767) 2 = true) ∧
    (let g : Tongue := { slot := 15, cOld := 0, final := 9, range := false, segs := [⟨1, 1⟩, ⟨2, 65535⟩], plain := false }
     (chan (chanAs 32767 { tongue := some g }) 32767).tongue = some g ∧ g.segs[g.k + 1]? = some ⟨2, 65535⟩) := by decide

theorem test_CanonInv_waiting : CanonInv (chanAs 32767 { waiting := some (15, { ch := 32767, code := 9, range := false }) }) := by
  unfold CanonInv; decide

/-! ### Tables, the Bore and the host -/

/-- The live machine with an image header of kind `k` in CAL and the table page `k` as given. -/
def withImage (k : Nat) (x : TabCmd) : State :=
  { tabAs k x with flash := { live.flash with cal := cellsOf (calAt k) 0x4C41_4358 } }

theorem test_TableLoadAndSave_admits :
    (∀ k ∈ [kST, kTG, kMS, kCL, kLP, kTH], mayWrite live .pf1 (tabPage k) (tabCmdOff k) 1 = true ∧ tabBusy live k = false ∧
      mayWrite (tabAs k { running := 1 }) .pf1 (tabPage k) (tabCmdOff k) 1 = true ∧ tabBusy (tabAs k { running := 1 }) k = true ∧
      (tab (tabAs k { running := 2 }) k).running = 2) ∧
    (∀ k ∈ [kST, kTG, kMS, kCL, kLP, kTH], (tab (withImage k { running := 1 }) k).running = 1 ∧
      flashReads (withImage k { running := 1 }) = true ∧ calHas (withImage k { running := 1 }) k = true ∧
      calHas (tabAs k { running := 1 }) k = false) ∧
    live.bore.badPar = [] ∧ domOn live 9 = true ∧ live.flash.state = .ready ∧ inRun live = true := by decide +kernel

theorem live_bore (a : Nat) : boreWord live a = 0 := by
  have h : live.bore.mem = [] := rfl
  simp only [boreWord, wordAt, h, tabGet]
  decide

theorem test_TableLoadAndSave_admits_checks : badSetpoints live = [] ∧ badSeqs live = [] := by
  constructor
  · unfold badSetpoints failing
    rw [List.filter_eq_nil_iff]
    intro i _
    have h : spWords live i = [0, 0, 0, 0] := by simp [spWords, boreWords, live_bore, List.range_succ]
    have p : parBad live (spAddr i) 16 = false := rfl
    rw [h, p]; decide
  · unfold badSeqs failing
    rw [List.filter_eq_nil_iff]
    intro i _
    have p : parBad live (seqAddr 0 i) 8 = false := rfl
    rw [live_bore, live_bore, p]; decide

theorem test_TableContent_admits :
    (∀ k ∈ [kST, kTG, kMS, kCL, kLP, kTH], memWf (withImage k { running := 1 }).flash.cal = true ∧
      flashReads (withImage k { running := 1 }) = true ∧ (tab (withImage k { running := 1 }) k).running = 1 ∧
      calHas (withImage k { running := 1 }) k = true) ∧
    inRun live = true ∧ (∀ k ∈ [kST, kTG, kMS, kCL, kTH], tabBusy live k = false) ∧ live.bore.badPar = [] ∧
    mayWrite live .pf1 pgSTAB 0x40 1 = true ∧ mayWrite live .pf1 pgTONGUE 0x40 1 = true ∧ mayWrite live .pf1 pgMEAS 0x44 1 = true ∧
    mayWrite live .pf1 pgTHM 0x44 1 = true ∧ mayWrite live .pf1 pgCAL 0x48 1 = true := by decide +kernel

theorem test_TableContent_admits_shapes : oddShapes live = [] := by
  unfold oddShapes failing
  rw [List.filter_eq_nil_iff]
  intro i _
  have h : shapeWords live (i / 4096) (i % 4096) = [0, 0, 0, 0, 0, 0, 0, 0] := by
    simp [shapeWords, boreWords, live_bore, List.range_succ]
  rw [h]; decide

/-- The live machine with slot 0 staging, and submission queue 5 enabled for PF1 from the start of the window. -/
def openWindows : State :=
  setReg (slotAs 0 { state := .staging }) (ro pgCMDQ (0x104 + 16 * 5)) (pack [(0, 1, 1), (1, 2, 1), (4, 6, 5), (16, 13, 64)])

theorem test_WindowWrites_admits :
    (∀ p ∈ [((0x80_0000 : BitVec 26), 4), (0x9F_FFFC, 4), (0x100_0000, 8), (0xA0_0000, 5), (0xB0_0000, 6), (0, 0), (0xFFC, 0)],
      ∀ i, i < [(1 : Word)].length → mayStore openWindows .pf1 (p.1.toNat + 4 * i) = true ∧
        windowOf (p.1.toNat + 4 * i) = some p.2 ∧ windowClosed openWindows (p.1.toNat + 4 * i) = false) ∧
    (∀ p ∈ [((0x13F_FFFC : BitVec 26), 8, slotAs 15 { state := .armed }), (0x80_0000, 4, tabAs kST { running := 1 }), (0xA0_0000, 5, tabAs kTG { running := 1 }),
        (0xB0_0000, 6, tabAs kMS { running := 1 })],
      mayStore p.2.2 .pf0 p.1.toNat = true ∧ windowClosed p.2.2 p.1.toNat = true ∧ windowOf p.1.toNat = some p.2.1) ∧
    [(1 : Word)].length ≤ maxPayload ∧ (List.replicate 128 (0 : Word)).length ≤ maxPayload ∧
    (sqCovers openWindows .pf1 0 (0 + 4 * 1024) = true ∧ sqCovers openWindows .pf1 0xFFC (0xFFC + 4 * 1) = true) ∧
    (openWindows.bore.badPar.contains (windowAddr 8 0x100_0000) = false ∧ 0x100_0000 / 4 * 4 = 0x100_0000) ∧
    (hostReach live .pf1 = true ∧ stageClosed live = false ∧ muted live .pf1 true = false ∧ windowOf 0xCF_FFFC = some 7) := by
  decide +kernel

theorem test_RegisterAccesses_admits :
    (mayWrite live .pf0 pgBELL 0x40 0 = true ∧ fld (65 : Word) 0 7 ≤ 65) ∧
    (hostReach live .pf2 = true ∧ isPage ((0xFF_F000 : BitVec 24).toNat / 4096) = false ∧ live.bell.inq.length < 64 ∧
      live.bell.injNext = []) ∧
    (linkedRead live (0x3040 : BitVec 26).toNat = none ∧ judge live { fn := .pf2, off := 0x3040 } = .ok) ∧
    (∀ off ∈ [0x80_0000, 0x9F_FFFC], ∀ i ∈ [0, 1, 3], i * 4 + off < 0xA0_0000 →
      judge live { fn := .pf0, bar2 := true, off := off + 4 * i } = .ok ∧ windowOf (off + 4 * i) = some 4 ∧
      live.bore.badPar.contains (windowAddr 4 ((off + 4 * i) / 4 * 4)) = false) ∧
    (isFeedPage ((0x10_1048 : BitVec 24).toNat / 4096) = true ∧ muted live .pf0 false = false ∧ muted live .pf0 true = false ∧
      idlUp live = true ∧ live.idl.wrWait = [] ∧ live.idl.heldAcc = []) ∧
    idlUp (linkAs {}) = false ∧ hostReach (linkAs {}) .pf0 = true := by decide +kernel

theorem test_PoisonedWrite_admits :
    configUp live = true ∧ live.bell.inq.length < 64 ∧ live.bell.injNext = [] ∧
    ({ live with bell := { inq := List.replicate 63 { source := 0, kind := 0, detail := 0 } } } : State).bell.inq.length < 64 := by decide

theorem test_D3hotStopsAFunction_admits : configUp live = true := by decide

theorem test_PcieEvents_admits :
    configUp live = true ∧ driveOn live = true ∧
    (sqFn openWindows (5 : QId).val = fnNum .pf1 ∧ bit (sqCtrl openWindows (5 : QId).val) 0 = true ∧
      sqFn openWindows (63 : QId).val ≠ fnNum .pf1) ∧
    (let s : State := { live with host := {}, now := 24_000_000 }
     s.host.linkUp = false ∧ s.power.refOk = true ∧ 2 ≤ s.boot.stage.val ∧ s.boot.stage2At + 24_000_000 ≤ s.now ∧
      linkCan (4 : BitVec 6).toNat (4 : BitVec 6).toNat = true ∧ linkCan 1 1 = true ∧
      (4 : BitVec 6).toNat ≤ regFld s (ro pgHOST 0x44) 0 4) ∧
    (let s := regAs (ro pgHOST 0x44) 3
     mayWrite s .pf0 pgHOST 0x44 0 = true ∧ s.host.linkUp = true ∧ regFld s (ro pgHOST 0x44) 0 4 < s.host.speed.toNat) ∧
    (let s : State := { live with host := { live.host with msixPend := [(2 * 32 + 31, true)] } }
     hostReach s .pf2 = true ∧ bit (0xFFFF_FFFE : Word) 0 = false ∧
      tabGet (fun _ => false) s.host.msixPend (fnNum .pf2 * 32 + (31 : Fin 32).val) = true) ∧
    (let s : State := { live with host := { live.host with d3 := 4 } }
     configUp s = true ∧ s.host.d3.getLsbD (fnNum .pf2) = true) := by decide

theorem test_HeaderAndProtection_admits :
    (∀ page ∈ [(0x000 : BitVec 9), 0x00B, 0x03F], isFeedPage page.toNat = false ∧ mayWrite live .pf1 page.toNat 0x14 1 = true ∧
      mayWrite live .pf0 page.toNat 0x28 0 = true) ∧
    Fn.pf1 ≠ .pf0 ∧ live.bell.inq.length < 64 ∧ live.bell.injNext = [] ∧
    (∀ o ∈ [0x40, 0x44], ((regRow (ro pgPROT o)).map fun r => r.acc == .rw && !ruleBad r.rules 0 &&
      r.rules.all (fun f => f.zeroAs == 0) && mayWrite live .pf0 pgPROT o r.lvl) = some true) := by decide +kernel

theorem test_SmbusPorts_admits :
    live.fd.armed = true ∧ driveOn live = true ∧ live.fd.supply = true ∧
    (let s : State := { live with host := { live.host with fdOffset := 0x1048 } }
     fdTarget s = some (ro 0x101 0x48) ∧ feedReserved (ro 0x101 0x48) = false ∧ fld (1600 : Word) 0 11 ≤ 1600) ∧
    fdTarget { live with host := { live.host with fdOffset := 0x7000 } } = none ∧
    fdTarget { live with host := { live.host with fdOffset := 0x6FFF } } = some 0x10_6FFC := by decide

/-! ### The Bell, the Bore's upkeep and the commands -/

/-- The live machine with one message of source 3 of PLAN waiting at the Bell, severities as given. -/
def oneMessage (sev : Word) (shadows : List (Nat × Shadow)) : State :=
  setReg { live with bell := { live.bell with inq := [{ source := srcCode pgPLAN 3, kind := 0, detail := 1 }], shadows := shadows } }
    (ro pgPLAN 0x20) sev

/-- That message. -/
def theMessage : Msg := { source := srcCode pgPLAN 3, kind := 0, detail := 1 }

theorem test_BellRecords_admits :
    (isFeedPage theMessage.page = false ∧ ownReaction theMessage.page theMessage.local theMessage.cls = false) ∧
    (oneMessage 0 []).bell.last.map (·.1) ≠ some (oneMessage 0 []).now ∧
    ((oneMessage 0 []).bell.inq = theMessage :: [] ∧ (oneMessage 0 []).bell.ringLive = true ∧
      shadowOf (oneMessage 0 []) theMessage.page theMessage.local = none ∧
      appliedSev (oneMessage 0 []) theMessage.page theMessage.local = 0) ∧
    ((oneMessage 0xFFFF_FFFF []).bell.inq = theMessage :: [] ∧
      shadowOf (oneMessage 0xFFFF_FFFF []) theMessage.page theMessage.local = none ∧
      appliedSev (oneMessage 0xFFFF_FFFF []) theMessage.page theMessage.local = 3 ∧ (oneMessage 0xFFFF_FFFF []).power.dom = 0xFFFFF) ∧
    shadowOf (oneMessage 0 [(24, { closeAt := 0, order := 0 })]) theMessage.page theMessage.local = some 24 := by decide +kernel

theorem test_BellRecords_admits_closing :
    (∀ shid ∈ [63, 24, 8, 0], let s : State := { oneMessage 0 [(shid, { closeAt := 5, order := 0 })] with now := 5 }
     s.bell.shadows.lookup shid = some { closeAt := 5, order := 0 } ∧ 5 ≤ s.now ∧ reactionOver s shid = true) ∧
    (let s := regAs (ro pgBELL 0x48) 1
     coreRuns s = true ∧ s.bell.ringLive = true ∧ coreRecord s ≠ nextRecord s ∧ ringOpen s 2 = true) := by decide +kernel

theorem test_BellControl_admits :
    (∀ page ∈ [(0x006 : BitVec 9), 0x00B, 0x03F], isFeedPage page.toNat = false ∧ mayWrite live .pf1 page.toNat 0x1C 1 = true ∧
      mayWrite live .pf0 page.toNat 0x20 0 = true ∧ mayWrite live .pf0 page.toNat 0x24 0 = true ∧
      mayWrite live .pf0 page.toNat 0x0C 0 = true ∧ bit (pageCap page.toNat) 17 = true ∧ bit (pageCap page.toNat) 0 = true) ∧
    (let s := regAs (ro 0x00B 0x1C) 1
     bit ((1 : Word) &&& implMask 0x00B) (0 : Fin 16).val = true ∧ sticky s 0x00B (0 : Fin 16).val = true ∧
      justAccepted s 0x00B (0 : Fin 16).val = false) ∧
    checkable 0x00B 1 = true ∧ live.bell.inq.length < 64 := by decide +kernel

theorem test_BoreUpkeep_admits :
    domOn live 4 = true ∧
    (∀ a ∈ [0x3FF_FFFF, 0x40_0000, 0x60_0000, 0x70_0000], boreRegion (a / 4 * 4) ∈ [0, 2, 3] ∨ 0x40_0000 ≤ a) ∧
    boreRegion ((0 : BitVec 26).toNat / 4 * 4) ∈ [0, 2, 3] ∧
    (bit (getReg (regAs (ro pgBORE 0x40) 3) (ro pgBORE 0x40)) 1 = true ∧ live.bore.badPar = [] ∧ live.bore.patrol + 1 < boreSize) ∧
    boreSize ≤ (boreSize - 1) + 1 ∧
    (let s : State := { regAs (ro pgBORE 0x40) 1 with power := { live.power with level := 5 } }
     5 ≤ level s ∧ bit (getReg s (ro pgBORE 0x40)) 0 = true) ∧ level live < 5 ∧
    (let s : State := { bootAs { stage := 2 } with bore := {} }
     s.boot.stage = 2 ∧ domOn s 4 = true ∧ s.bore.climbDone = false) ∧
    (let s : State := { live with bore := { initRun := true } }; s.bore.initRun = true ∧ s.bell.store = []) := by decide +kernel

/-- The live machine with SQ 5 and CQ 5 enabled for PF1 and these commands in flight. -/
def engine (cs : List Cmd) : State :=
  let s := setReg openWindows (ro pgCMDQ (0x504 + 16 * 5)) (pack [(0, 1, 1), (1, 1, 1), (16, 13, 64)])
  { s with cmdq := { s.cmdq with cmds := cs } }

theorem test_QueueControl_admits :
    (let v := pack [(0, 1, 1), (1, 2, 1), (4, 6, 5), (16, 13, 2)]
     let s := setReg (engine []) (ro pgCMDQ (0x100 + 16 * 63)) (pack [(6, 16, 128)])
     let new := taken s (ro pgCMDQ (0x104 + 16 * 63)) v
     mayWrite s .pf0 pgCMDQ (0x104 + 16 * 63) 0 = true ∧ bit (sqCtrl s 63) 0 = false ∧ bit new 0 = true ∧
      sqFits s 63 (fld new 16 13) = true ∧ bit (cqCtrl s (fld new 4 6)) 0 = true) ∧
    (let s := engine []
     let new := taken s (ro pgCMDQ (0x104 + 16 * 5)) (sqCtrl s 5 &&& ~~~ 1)
     bit (sqCtrl s 5) 0 = true ∧ bit new 0 = false ∧ sqCtrl s 5 &&& 0x1FFF_03F6 = new &&& 0x1FFF_03F6) ∧
    (let new := taken live (ro pgCMDQ (0x504 + 16 * 63)) (pack [(0, 1, 1), (16, 13, 4096)])
     mayWrite live .pf0 pgCMDQ (0x504 + 16 * 63) 0 = true ∧ bit (cqCtrl live 63) 0 = false ∧ bit new 0 = true ∧
      cqFits live 63 (fld new 16 13) = true) ∧
    (let s := engine []
     s.cmdq.cmds = [] ∧ mayWrite s .pf1 pgCMDQ (0x900 + 4 * 5) 2 = true ∧ sqFn s 5 = fnNum .pf1 ∧ (63 : BitVec 12).toNat < sqDepth s 5 ∧
      sqFn s 5 ≠ fnNum .pf2 ∧ mayWrite s .pf2 pgCMDQ (0x900 + 4 * 5) 2 = true ∧ mayWrite s .pf1 pgCMDQ (0xA00 + 4 * 5) 2 = true ∧
      fnNum .pf1 ∈ cqFns s 5 ∧ (63 : BitVec 12).toNat < cqDepth s 5 ∧ cqFns s 5 ≠ [] ∧ fnNum .pf2 ∉ cqFns s 5 ∧
      mayWrite s .pf2 pgCMDQ (0xA00 + 4 * 5) 2 = true) ∧
    (let s := setSq (engine []) 5 { tail := 1 }
     domOn s 3 = true ∧ s.bore.badPar = [] ∧ freeTagNo s = some 0 ∧ roundRobin s true s.cmdq.rrHigh = none ∧
      roundRobin s false s.cmdq.rrNorm = some 5) ∧
    (let s := setSq (setReg (engine []) (ro pgCMDQ (0x104 + 16 * 5)) (sqCtrl (engine []) 5 ||| 8)) 5 { tail := 1 }
     roundRobin s true s.cmdq.rrHigh = some 5) ∧
    (let s := setSq (engine []) 63 { draining := true }; (sq s 63).draining = true ∧ inflight s 63 = 0) ∧
    (let s : State := { setCq (setReg (engine []) (ro pgCMDQ (0x508 + 16 * 5)) 0xFF08) 5 { unsig := 1, unsigFrom := 7 } with
       now := 306_007 }
     let us := regFld s (ro pgCMDQ (0x508 + 16 * 5)) 8 8
     us ≠ 0 ∧ (cq s 5).unsig ≠ 0 ∧ (cq s 5).unsigFrom + us * 1200 ≤ s.now ∧ bit (cqCtrl s 5) 1 = true) := by
  decide +kernel

/-- A command of SQ 5 with its opcode, its words from 1 on, and its stage. -/
def cmdAt (tag opc : Nat) (ws : List Word) (st : CmdStage) : Cmd :=
  { tag := tag, sq := 5, fn := 1, head := 1, w0 := pack [(0, 8, opc), (16, 16, tag)], cdw := ws, stage := st }
/-- The engine with one entry fetched from SQ 5, its opcode given. -/
def fetchedAt (opc : Nat) : State :=
  let s := engine [cmdAt 0 0 [] .released]
  { s with cmdq := { s.cmdq with fetched := [{ sq := 5, fn := 1, head := 1, w0 := pack [(0, 8, opc), (16, 16, 9)], cdw := [] }] } }

theorem test_CommandTags_admits : ((fetchedAt 0).cmdq.cmds.map (·.tag)).Nodup ∧
    ∃ t, step { fetchedAt 0 with pending := [.cmdDecode 0] } = .next t := ⟨by decide, _, rfl⟩

theorem test_CommandsOfTheEngine_admits_decode :
    (∀ opc ∈ [0x00, 0x7F], let s := fetchedAt opc
     (s.cmdq.cmds.map (·.tag)).Nodup ∧ s.cmdq.fetched.length = 1 ∧ freeTagNo s = some 1 ∧ 0 < cqFree s (sqCq s 5) ∧
      (s.cmdq.fetched.all fun e => e.bad == 0) = true ∧
      decodeSc s { tag := 1, sq := 5, fn := 1, head := 1, w0 := pack [(0, 8, opc), (16, 16, 9)], cdw := [] } = (if opc = 0 then 0 else 1)) ∧
    (let c := { cmdAt 3 0x00 [] .fenced with w0 := 0x100 }
     let s := engine [c]; c ∈ s.cmdq.cmds ∧ c.sq = (5 : QId).val ∧ c.stage = .fenced ∧ passesFence s c = true) := by decide +kernel

theorem test_CommandsOfTheEngine_admits :
    (∀ p ∈ [((0x00 : Nat), ([] : List Word)), (0x01, [0x1110]), (0x01, [0x0F12]), (0x02, [0x0005_0005]), (0x10, [0xF1]), (0x11, [0x0F]),
        (0x12, [1])],
      ready (engine [cmdAt 511 p.1 p.2 .released]) 511 p.1 = some { cmdAt 511 p.1 p.2 .released with cq := some 5 }) ∧
    (let w := (cmdAt 511 1 [0x1110] .released).cw 1; max (fld w 0 8) 0x10 ≤ min (fld w 8 8) 0x11) ∧
    (let w := (cmdAt 511 1 [0x0F12] .released).cw 1; min (fld w 8 8) 0x11 < max (fld w 0 8) 0x10) ∧
    (let c := cmdAt 511 0x02 [0x0005_0005] .released
     let d := { cmdAt 5 0x00 [] .fenced with w0 := 0x0005_0100 }
     let f (d : Cmd) : Bool := d.sq == fld (c.cw 1) 0 6 && d.cid == fld (c.cw 1) 16 16 && d.tag != c.tag
     let s := engine [c, d]
     (engine [c]).cmdq.cmds.find? f = none ∧ s.cmdq.cmds.find? f = some d ∧ d.stage = .fenced ∧ d.cq = none ∧
      sqCq s d.sq = sqCq s c.sq ∧ 1 < cqFree s (sqCq s c.sq) ∧ ready s 511 0x02 = some { c with cq := some 5 }) ∧
    (let c := cmdAt 511 0x10 [0xF1] .released
     fld (c.cw 1) 0 4 = 1 ∧ (slot (engine [c]) c.slotNo).state = .empty ∧ inRun (engine [c]) = true) ∧
    (let c := cmdAt 511 0x11 [0x0F] .released
     let s := setSlot (engine [c]) 15 { state := .armed }
     c.sched = false ∧ s.boot.stage.val = 4 ∧ level s < 3 ∧ (slot s c.slotNo).state = .armed ∧ req s c.slotNo = none) ∧
    (fld ((cmdAt 511 0x12 [1] .released).cw 1) 0 4 = 1 ∧ (engine []).power.dom = 0xFFFFF) := by decide +kernel

theorem test_CommandsOfTheCore_admits :
    coreRuns (engine []) = true ∧
    (∀ p ∈ [((0x20 : Nat), ([0x3040] : List Word)), (0x21, [0x3040, 65]), (0x22, [0x100A]), (0x30, [0, 0, 0, 4, 0x140_0000]),
        (0x31, [0, 0, 0, 4, 0x140_0000]), (0x31, [1, 0xA00_0000, 0, 0x3000, 0x140_0000])],
      ready (engine [cmdAt 511 p.1 p.2 .released]) 511 p.1 = some { cmdAt 511 p.1 p.2 .released with cq := some 5 } ∧
      ((engine [cmdAt 511 p.1 p.2 .released]).cmdq.cmds.map (·.tag)).Nodup) ∧
    (let c := cmdAt 511 0x20 [0x3040] .released
     isPage (fld (c.cw 1) 0 24 / 4096) = true ∧ isFeedPage (fld (c.cw 1) 0 24 / 4096) = false ∧
      domOn live (pageDom (fld (c.cw 1) 0 24 / 4096)) = true ∧ linkedRead live (fld (c.cw 1) 0 24) = none) ∧
    (let c := cmdAt 511 0x21 [0x3040, 65] .released
     fld (c.cw 1) 0 24 = ro pgBELL 0x40 ∧ domOn live 1 = true ∧ fld (c.cw 2) 0 7 ≤ 65) ∧
    (let c := cmdAt 511 0x22 [0x100A] .released
     pageTab (fld (c.cw 1) 0 9) = some kST ∧ domOn live (pageDom (fld (c.cw 1) 0 9)) = true ∧ fld (c.cw 1) 12 4 = 1 ∧
      tabBusy live kST = false ∧ inRun live = true) ∧
    (let c := cmdAt 511 0x30 [0, 0, 0, 4, 0x140_0000] .released
     c.nvLen ≠ 0 ∧ bufferAt (c.cw 5).toNat c.nvLen ≠ none ∧ readCode live.flash c.part c.nvOff c.nvLen = 0) ∧
    (let c := cmdAt 511 0x31 [0, 0, 0, 4, 0x140_0000] .released
     c.part ≠ 1 ∧ c.nvLen ≠ 0 ∧ bufferAt (c.cw 5).toNat c.nvLen ≠ none) ∧
    (let c := cmdAt 511 0x31 [1, 0xA00_0000, 0, 0x3000, 0x140_0000] .released
     c.part = 1 ∧ c.nvLen ≠ 0 ∧ bufferAt (c.cw 5).toNat c.nvLen = some (windowAddr 9 0x140_0000) ∧
      writeCode live.flash 1 c.nvOff c.nvLen = 0 ∧ live.bore.badPar = []) := by decide +kernel

theorem test_CommandsOfTheCore_admits_ends :
    (let c := { cmdAt 511 0x20 [0x3040] .mgmt with res := some (7, 255, 0, 0), cq := some 5 }
     let s := engine [c]
     cmdOf s (511 : Tag).val = some c ∧ c.stage = .mgmt ∧ c.res = some (7, 255, 0, 0) ∧ c.move = none ∧ c.cq = some (sqCq s c.sq)) ∧
    (∀ n ∈ [0, 1], let c := { cmdAt 511 0x20 [0x3040] .mgmt with cq := some 5, since := 5 }
     let s : State := { setReg (engine [c]) (ro pgCMDQ 0x40) 10 with now := 12_000_004 + n }
     let due := c.since + max (regFld s (ro pgCMDQ 0x40) 0 8) 1 * 1200000
     cmdOf s (511 : Tag).val = some c ∧ mgmtOp c.opc = true ∧ coreRuns s = true ∧ c.cq = some (sqCq s c.sq) ∧
      (n = 1 → due ≤ s.now) ∧ (n = 0 → s.now < due)) ∧
    (∀ c ∈ [cmdAt 511 0x20 [0x3040] .released, { cmdAt 511 0x20 [0x3040] .mgmt with cq := some 5 }],
     let s : State := { engine [c] with boot := { live.boot with core := false } }
     cmdOf s (511 : Tag).val = some c ∧ mgmtOp c.opc = true ∧ coreRuns s = false ∧
      ((c.stage = .mgmt ∧ c.cq = some (sqCq s c.sq)) ∨ (c.stage = .released ∧ c.cq = none ∧ 0 < cqFree s (sqCq s c.sq)))) := by
  decide +kernel

/-- An image of the thermal kernels, all bytes of the payload 0, with its CRC. -/
def imageHead : List Host.Cell := cellsOf 0 0x4C41_4358 ++ (cellsOf 4 5 ++ (cellsOf 12 8208 ++ []))
def goodImage : List Host.Cell := cellsOf 0x3C (imageCrc imageHead 0 8208) ++ imageHead

/-- The CRC of an image does not rest on the word that holds it. -/
theorem imageCrc_cellsOf (l : List Host.Cell) (w : Word) (n : Nat) : imageCrc (cellsOf 0x3C w ++ l) 0 n = imageCrc l 0 n := by
  have g (i : Nat) (h : i < 60 ∨ 64 ≤ i) :
      tabGet (fun _ => (0 : Byte)) (cellsOf 0x3C w ++ l) i = tabGet (fun _ => (0 : Byte)) l i := tabGet_cellsOf_other _ _ _ _ (by omega)
  unfold imageCrc
  have head : (List.range 60).foldl (fun c i => crcByte c (tabGet (fun _ => (0 : Byte)) (cellsOf 0x3C w ++ l) (0 + i)).toNat) 0xFFFF_FFFF =
      (List.range 60).foldl (fun c i => crcByte c (tabGet (fun _ => (0 : Byte)) l (0 + i)).toNat) 0xFFFF_FFFF := by
    refine foldl_same _ _ _ _ (fun x hx c => ?_)
    have hx' : x < 60 := List.mem_range.mp hx
    rw [g (0 + x) (by omega)]
  dsimp only
  rw [head]
  refine congrArg (fun n => BitVec.ofNat 32 (n ^^^ 0xFFFF_FFFF)) ?_
  refine foldl_same _ _ _ _ (fun x _ c => ?_)
  rw [g (0 + (64 + x)) (by omega)]

/-- The judgement of a whole image by its words. -/
theorem imageOk_of_words (m : List Host.Cell) (off len kind n : Nat) (hk : off / 0x200_0000 = kind) (hn : payloadLen kind = n)
    (h0 : off % 0x200_0000 = 0) (h6 : kind < 6) (w0 : wordAt m 0 = 0x4C41_4358) (w4 : wordAt m 4 = BitVec.ofNat 32 kind)
    (w12 : wordAt m 12 = BitVec.ofNat 32 n) (hl : len = (64 + n + 4095) / 4096 * 4096) (wc : wordAt m 0x3C = imageCrc m 0 n) :
    imageOk m off len = true := by
  simp only [imageOk, hk, hn, h0, w0, w4, w12, wc, ← hl, beq_self_eq_true, Bool.and_true, decide_true, h6]

/-- The image passes as one of kind 5. -/
theorem test_CommandsOfTheCore_admits_image : imageOk goodImage 0xA00_0000 0x3000 = true := by
  refine imageOk_of_words _ _ _ 5 8208 (by decide) rfl (by decide) (by decide) ?_ ?_ ?_ (by decide) ?_
  · rw [goodImage, wordAt_cellsOf_other _ _ _ _ (by omega), imageHead, wordAt_cellsOf_self]
  · rw [goodImage, wordAt_cellsOf_other _ _ _ _ (by omega), imageHead, wordAt_cellsOf_other _ _ _ _ (by omega), wordAt_cellsOf_self]
    rfl
  · rw [goodImage, wordAt_cellsOf_other _ _ _ _ (by omega), imageHead, wordAt_cellsOf_other _ _ _ _ (by omega),
      wordAt_cellsOf_other _ _ _ _ (by omega), wordAt_cellsOf_self]
    rfl
  · rw [goodImage, wordAt_cellsOf_self, imageCrc_cellsOf]

/-- The image in the flash buffer of the Bore is the one that NV_WRITE takes from there. -/
theorem test_CommandsOfTheCore_admits_buffer :
    cellsFrom (goodImage.map (fun c => (0x110_0000 + c.1, c.2))) (windowAddr 9 0x140_0000) 0x3000 0 = goodImage := by
  rw [show windowAddr 9 0x140_0000 = 0x110_0000 from rfl]
  simp [cellsFrom, goodImage, imageHead, cellsOf]

/-! ### Measurement, loops and temperatures -/

/-- The live machine with the sequence tables loaded and reed 1023 as given. -/
def seqAs (x : ReedSt) : State := setTab (reedAs 1023 x) kMS { loaded := true }

theorem test_ReedSequencers_admits :
    (∀ n ∈ [(0 : BitVec 2), 3], let x := reed (seqAs { seq := .convert, conv := { free := true }, invalid := n, left := 2 }) 1023
     x.seq = .convert ∧ x.conv.free = true ∧ x.invalid = n ∧ x.mode ≠ 0 ∧ x.heldOff = false ∧ insertDue x = false ∧
      seqLive (seqAs x) = true ∧ (seqAs x).bore.badPar = [] ∧ 1 < x.left.toNat) ∧
    (let s := seqAs { seq := .insert, insUrgent := true }
     (reed s 1023).seq = .insert ∧ (reed s 1023).insUrgent = true ∧ s.cal.run = none) ∧
    (let s : State := { seqAs { seq := .delay, delay := 1, delayAt := 7 } with now := 300 }
     let x := reed s 1023; x.seq = .delay ∧ x.heldOff = false ∧ x.delayDue = 299 ∧ x.delayDue ≤ s.now ∧ x.seq ∈ [.off, .wait, .delay]) ∧
    domOn live 11 = true ∧
    (let x := reed (seqAs { seq := .startup }) 1023; x.seq = .startup ∧ x.heldOff = false ∧ x.startInsert = false) ∧
    (mayWrite live .pf1 pgMEAS 0x58 1 = true ∧ fld (0x1A : Word) 0 2 ≠ 3 ∧ fld (0x1A : Word) 2 2 ≠ 3) ∧
    mayWrite live .pf1 pgMEAS 0x64 1 = true ∧ mayRead live .pf2 pgMEAS 0x6C = true ∧ mayWrite live .pf1 pgMEAS 0x74 1 = true ∧
    mayWrite live .pf1 pgMEAS 0x7C 1 = true := by decide +kernel

theorem test_ReedSequencers_admits_triggers :
    (let s := setReg (seqAs { cfg := 2 }) (ro pgMEAS 0x54) 1023
     (1023 : Reed).val ∈ reedScope s ∧ (0 : Reed).val ∉ reedScope s ∧ reedIdx s = 1023) ∧
    (∀ src ∈ [0, 1, 2], ∀ st ∈ [ReedSeq.wait, .convert],
     let s : State := { seqAs { cfg := BitVec.ofNat 5 (2 + 4 * src), seq := st, drvArmed := true, drvDue := [9], drvDelay := 291, timer := 1, timerAt := 7 } with
       now := 300 }
     let x := reed s 1023
     x.mode = 2 ∧ x.tsrc = src ∧ x.drvArmed = true ∧ x.drvDue = 9 :: [] ∧ 9 + x.drvDelay.toNat ≤ s.now ∧ x.timerDue ≤ s.now ∧
      seqLive s = true ∧ x.contained = false ∧ x.trigPend = false ∧ x.seq = st ∧ x.heldOff = false) ∧
    (let s : State := { seqAs { cfg := 6, timer := 1, timerAt := 9 } with now := 300 }
     (reed s 1023).mode = 2 ∧ (reed s 1023).tsrc = 1 ∧ s.now < (reed s 1023).timerDue) ∧
    (reed (seqAs { cfg := 2, seq := .convert, trigPend := true }) 1023).trigPend = true := by decide +kernel

theorem test_ReedSequencers_admits_inserts :
    (urgentOk (pack [(0, 10, 1023), (10, 6, 51), (18, 3, 4), (21, 4, 12)]) = true ∧
      fld (pack [(0, 10, 1023), (10, 6, 51), (18, 3, 4), (21, 4, 12)]) 0 10 = 1023) ∧
    (let u := reed (seqAs { seq := .wait, powered := true }) 1023
     u.urgent = none ∧ u.heldOff = false ∧ u.seq = .wait ∧ u.powered = true) ∧
    (let u := reed (seqAs { seq := .convert }) 1023; u.urgent = none ∧ u.heldOff = false ∧ u.seq = .convert) ∧
    (reed (seqAs { urgent := some {} }) 1023).urgent ≠ none ∧
    (let s : State := { seqAs { hkOwed := 1 } with now := 1500000 }
     (reed s 1023).hkOwed ≠ 0 ∧ (reed s 0).hkOwed = 0 ∧ seqLive s = true ∧ hkDueAt s = 1500000) ∧
    (let s := seqAs {}; s.now < hkDueAt s) := by decide +kernel

/-- No CHECK injection is armed in the machine with no register written. -/
theorem BoreSound_of (s : State) (hb : s.bore.badPar = []) (hs : s.bore.stuck = []) (hr : s.regs = []) : BoreSound s := by
  have w (off : Nat) : getReg s off = regReset off := by simp [getReg, hr]
  have armed (p k : Nat) (h : (fld (regReset (ro p 0x24)) 4 2 == 3) = false) : checkArmed s p k = false := by
    simp only [checkArmed, w, h, Bool.and_false, Bool.false_and]
  refine ⟨hb, hs, fun a => ?_⟩
  have h0 : fld (getReg s (ro pgBORE 0x24)) 4 2 ≠ 3 := by rw [w]; decide +kernel
  have key : ∀ p k, checkSource (boreRegion a) = some (p, k) → checkArmed s p k = false := by
    intro p k h
    unfold checkSource at h
    split at h <;> cases h <;> exact armed _ _ (by decide +kernel)
  unfold checkFor
  dsimp only
  rw [if_neg (fun h => h0 h.1)]
  split
  · rename_i p k h
    rw [if_neg (by rw [key p k h]; decide)]
  · rfl

theorem test_Accumulators_admits :
    (let i := (1023 : Reed).val * 64 + (63 : Fin 64).val
     domOn live 4 = true ∧ live.accs.held.contains i = false ∧ live.accs.restart.contains i = false ∧ live.bore.badPar = [] ∧
      (accCfg live i).getLsbD 4 = false ∧ fld (accWord live i 3) 8 8 + 1 ≠ 2 ^ ((accCfg live i).toNat % 16)) ∧
    (let s : State := { live with accs := { cfg := [(0, 0), (1, 0x1F)] } }
     (accCfg s 0).getLsbD 4 = false ∧ fld (accWord s 0 3) 8 8 + 1 = 2 ^ ((accCfg s 0).toNat % 16) ∧ (accCfg s 1).getLsbD 4 = true) ∧
    (let s : State := { setBore live (accAddr 1 + 12) 0x10000 with accs := { cfg := [(1, 0x1F)] } }
     (accCfg s 1).getLsbD 4 = true ∧ accValid s 1 = true) ∧
    mayWrite live .pf1 pgACC 0x44 1 = true ∧ mayWrite live .pf1 pgACC 0x48 1 = true ∧
    (let s := regAs (ro pgACC 0x40) (pack [(0, 10, 1023), (16, 6, 63)]); 65535 ∈ accScope s ∧ 65534 ∉ accScope s) := by decide +kernel

theorem test_Accumulators_admits_sound : BoreSound live ∧ BoreSound { live with accs := { cfg := [(0, 0), (1, 0x1F)] } } ∧
    BoreSound { setBore live (accAddr 1 + 12) 0x10000 with accs := { cfg := [(1, 0x1F)] } } :=
  ⟨BoreSound_of _ rfl rfl rfl, BoreSound_of _ rfl rfl rfl, BoreSound_of _ rfl rfl rfl⟩

/-- The live machine with this calibration run. -/
def calAs (q : CalRun) : State := { live with cal := { run := some q } }

theorem test_Coefficients_admits :
    mayRead live .pf2 pgCAL 0x44 = true ∧ chanCoef (coefIdx live) = false ∧ mayWrite live .pf1 pgCAL 0x44 1 = true ∧
    (let s := regAs (ro pgCAL 0x40) 98304; chanCoef (coefIdx s) = true ∧ mayWrite s .pf0 pgCAL 0x44 0 = true ∧ 98303 < coefIdx s) ∧
    (let s := regAs (ro pgCAL 0x40) 167935; coefIdx s < coefCount ∧ coefIdx s = 167935) ∧
    (let s := regAs (ro pgCAL 0x40) 98303; coefIdx s ≤ 98303 ∧ mayWrite s .pf1 pgCAL 0x48 1 = true ∧ tabBusy s kCL = false) ∧
    (gainOk (fld (0x6000 : Word) 0 16) = true ∧ gainOk (fld (0xA000 : Word) 0 16) = true ∧ gainOk (fld (0xA001 : Word) 0 16) = false ∧
      gainOk (fld (0x5FFF : Word) 0 16) = false) := by decide +kernel

theorem test_Coefficients_admits_run :
    (∀ n ∈ [1, 2], let q : CalRun := { full := false, idx := 98303, total := 2, osr := 0, samples := List.replicate n (-32768) }
     (calAs q).cal.run = some q ∧ q.ovr = false ∧ (n = 1 → q.samples.length < q.total) ∧ (n = 2 → q.total ≤ q.samples.length)) ∧
    (∀ m ∈ [(-32768 : Int), 32767], let n := roundDiv ([m, m].foldl (· + ·) 0) (max [m, m].length 1); -32768 ≤ n ∧ n ≤ 32767) ∧
    (let q : CalRun := { full := true, idx := 0, total := 1, osr := 0, ovr := true }; (calAs q).cal.run = some q ∧ q.ovr = true) ∧
    (let q : CalRun := { full := true, idx := 0, total := 1, osr := 0, samples := [6744100] }
     let s := setReg (calAs q) (ro pgCAL 0x50) 6744100
     q.full = true ∧ scResult (coef s q.idx) true (signed 24 (regFld s (ro pgCAL 0x50) 0 24)) q.samples false = .inl 0x8000) ∧
    (∀ x ∈ [({ contained := true } : ReedSt), { urgent := some {} }],
     let s : State := { setReed (calAs { full := true, idx := 65535, total := 1, osr := 0, since := 9 }) 1023 x with now := 12_000_009 }
     ((reed s (scReed 65535)).heldOff = true ∨ ((reed s (scReed 65535)).urgent ≠ none ∧ (reed s (scReed 65535)).urgCal = false)) ∧
      9 + 12000000 ≤ s.now) := by decide +kernel

theorem test_Meters_admits :
    live.fd.supply = true ∧ (1 ≤ fld (1 : Word) 0 10 ∧ fld (1000 : Word) 0 10 ≤ 1000) ∧ live.fd.mtSc = none ∧
    (dieAs { mtSc := some (7, false, 1) }).fd.mtSc = some (7, false, 1) ∧
    scResult (getReg (dieAs { mtSc := some (7, false, 1) }) (mtCal 7)) false 0 [5] false =
      .inl (put (getReg (dieAs { mtSc := some (7, false, 1) }) (mtCal 7)) 16 16 5) := by decide +kernel

/-- The live machine with channel 0 in an ABS loop on the given base, its monitor's light in accumulator 0. -/
def loopAs (x : LoopCh) (code : BitVec 16) : State :=
  setLoopCh (setBore (setBore (setReg (setReg (chanAs 0 { code := code, src := 3 }) (ro pgLOOP 0x40) 1) (ro pgLOOP 0xC0) 0x4010_0400)
    (accAddr 0) 0x0100_0064) (accAddr 0 + 12) 0x10000) 0 { x with cfg := 0x200, lmode := 2, based := true }

theorem test_ElementLoops_admits :
    (loopReady live 0 = false ∧ live.bore.badPar = []) ∧
    (let s := loopAs { base := 32768, target := 0x10064 } 32768
     let l := loopCh s 0
     let d := loopDelta (getReg s (ro pgLOOP (0xC0 + 4 * l.gsel))) l.sign ((loopTarget l : Int) - loopQ l.isAbs (loopA s 0) (loopB s 0))
     s.bore.badPar = [] ∧ (loopReady s 0 && !lowerLane s 0 && !outranks s (chan s 0) 1) = true ∧ d ≠ 0 ∧
      loopLimit l.base.toNat (regFld s (ro pgLOOP (0xE0 + 4 * l.gsel)) 0 12) ((chan s 0).code.toNat + d) = (chan s 0).code.toNat + d ∧
      capDelta (tileNet s 0) (regFld s (ro pgLOOP 0x4C) 0 7 * mA) (lsb (chan s 0).range) d = d ∧
      (l.base.toNat : Int) - regFld s (ro pgLOOP (0xE0 + 4 * l.gsel)) 0 12 ≤ (chan s 0).code.toNat) ∧
    (let s := loopAs { base := 32768, target := 0x10064 } 32768
     let held := setChan s 0 { chan s 0 with wrote := some 0, src := 1 }
     (loopReady held 0 && !lowerLane held 0 && !outranks held (chan held 0) 1) = false) := by decide +kernel

theorem test_ElementLoops_admits_times :
    (∀ n ∈ [12000006, 12000007], let s : State := { loopAs { base := 5, quietFrom := 7 } 5 with now := n }
     let l := loopCh s 0
     looped l = true ∧ loopFrozen s 0 = false ∧ loopHeld s 0 = false ∧ loopEn s = true ∧ l.stale = false ∧
      (l.quietFrom + 12000000 ≤ s.now ↔ n = 12000007)) ∧
    (∀ plain ∈ [true, false], let s : State := { setReg (reedAs 1023 { frozen := true, settleFrom := 5, freezePlain := plain }) (ro pgLOOP 0x44) 0x2_0001 with
       now := if plain then 2405 else 1205 }
     let x := reed s (1023 : Reed).val
     x.frozen = true ∧ x.settleFrom + regFld s (ro pgLOOP 0x44) (if x.freezePlain then 16 else 0) 8 * 1200 = s.now ∧
      (∀ e ∈ s.chans, e.1 / 32 = 1023 → e.2.tongue = none ∧ e.2.waiting = none)) ∧
    mayRead live .pf2 pgLOOP 0x5C = true := by decide +kernel

/-- The live machine with this thermal state. -/
def warmAs (x : Thermal) : State := { live with thermal := x }

theorem test_ThermalRequest_admits :
    (domOn live 10 = true ∧ domOn live 11 = true ∧ live.bore.badPar = []) ∧
    (let s : State := { warmAs { stopAsked := true, stopAt := 7 } with now := 7 + max (regFld live (ro pgTEMP 0x40) 16 8) 5 * 1200000 }
     s.thermal.stopAsked = true ∧ stopAccepted s = false ∧ s.thermal.stopAt + max (regFld s (ro pgTEMP 0x40) 16 8) 5 * 1200000 ≤ s.now ∧
      idlUp s = true ∧ s.idl.wrWait = [] ∧ s.idl.heldAcc = []) ∧
    (let s : State := { warmAs { updated := true, tth := 110, req := 5, climbFrom := some 7 } with now := 7 + climbCc live }
     s.thermal.updated = true ∧ s.thermal.climbFrom = some 7 ∧ 7 + climbCc s ≤ s.now ∧ s.thermal.invalidRaised = false ∧
      s.thermal.shutLatched = false ∧ s.thermal.req.val < 6) ∧
    (∀ d ∈ [0, 1], let s : State := { warmAs { tth := 20, req := 6, lowFrom := some d, diodes := [(63, { state := .failed })] } with now := holdCc live }
     s.thermal.shutLatched = false ∧ s.thermal.invalid = 0 ∧ anySuspect s = false ∧ holdLeft s = d ∧
      s.thermal.tth < (tPark s : Rat) ∧ s.thermal.tth < (tThrottle s : Rat) - 2) := by decide +kernel

theorem test_ThermalRequest_admits_diodes :
    (warmAs { shutLatched := true }).thermal.shutLatched = true ∧ (warmAs { invalid := 1 }).thermal.invalid ≠ 0 ∧
    anySuspect (warmAs { diodes := [(63, { state := .suspect })] }) = true ∧
    ((diode live 63).state = .ok ∧ accValid live (diodeAcc 63) = false ∧ diodeNew live 63 = true) ∧
    (diode (warmAs { diodes := [(63, { state := .failed })] }) 63).state = .failed ∧
    mayWrite live .pf0 pgTEMP 0x48 0 = true ∧
    (∀ st ∈ [DiodeState.failed, .range], let d := diode (warmAs { diodes := [(63, { state := st })] }) (63 : Fin 64).val
     d.state = st ∧ d.disagree = false ∧ d.bad = false) ∧
    (diode (warmAs { diodes := [(63, { bad := true })] }) 63).bad = true ∧
    mayWrite live .pf0 pgTEMP 0x44 0 = true ∧ mayWrite live .pf1 pgTHM 0x54 1 = true ∧
    (kernelWordOk (kIdx live) 0xFFFF_FFFF = true ∧ kernelWordOk (kIdx (regAs (ro pgTHM 0x50) 2047)) 1 = false) ∧
    mayWrite live .pf1 pgTHM 0x8C 1 = true ∧ live.thermal.badKernels = [] ∧ mayRead live .pf2 pgTHM 0x54 = true ∧
    mayRead live .pf2 pgTHM 0x68 = true ∧ mayRead live .pf2 pgTHM 0x78 = true ∧ mayRead live .pf2 pgTEMP 0x60 = true := by
  decide +kernel

/-! ### The flash store, power and clocks -/

/-- The live machine with this flash store. -/
def flashAs (f : Flash) : State := { live with flash := f }
/-- A target that keeps every rule of the medium. -/
def target : Target :=
  { chan := 0, ce := 0, lpddr4 := true, bus8 := true, commands := true, luns := 1, planes := 1, blkPages := 256, pageBytes := 16384,
    spareBytes := 2208, blocks := 2000, factoryBad := 3, endurance := 3000 }
/-- A medium with so many free spare blocks. -/
def medium (n : Nat) : Medium := { targets := [target, { target with chan := 1 }], freeSpare := n, maxPe := 0, minPe := 0 }

theorem test_FlashStore_admits :
    (let s := flashAs {}; s.flash.state = .off ∧ domOn s 9 = true ∧ 2 ≤ s.boot.stage.val) ∧
    (∀ n ∈ [64, 65], ∀ l ∈ [true, false], let s := flashAs { state := .mount, medium := some (medium n), laidOut := l }
     s.flash.state = .mount ∧ s.flash.medium = some (medium n) ∧ s.flash.laidOut = l ∧ (medium n).freeSpare = n) ∧
    (∀ st ∈ [FlashState.ready, .quiescing, .quiesced, .readOnly], mounted (flashAs { state := st }).flash = true) ∧
    regFld live (ro pgNVF 0x90) 0 10 < (1023 : BitVec 10).toNat ∧
    (flashAs { relocs := [some 5, none] }).flash.relocs = some 5 :: [none] ∧
    (let s := setReg (regAs (ro pgNVF 0x94) 1) (ro pgNVF 0xA0) 0x0001_0003
     regFld s (ro pgNVF 0x94) 0 12 < regFld s (ro pgNVF 0xA0) 0 16 - regFld s (ro pgNVF 0xA0) 16 16) ∧
    (let s := regAs (ro pgNVF 0x40) 0xFFFF_FFFF
     let pass := scrubInterval (band s) * regFld s (ro pgNVF 0x40) 8 6 / 100
     bit (getReg s (ro pgNVF 0x40)) 0 = true ∧ bit (getReg s (ro pgNVF 0x40)) 1 = true ∧ band s ≠ 5 ∧ pass - 1 < pass) ∧
    (band (warmAs { band := 5 }) = 5 ∧ (1 : BitVec 20) ≠ 0) := by decide +kernel

theorem test_FlashStore_admits_rings :
    (coreRuns live = true ∧ ringOpen live 2 = true ∧ ringOpen live 3 = true ∧ ringOpen live 4 = true ∧ level live = 0 ∧
      live.bore.badPar = []) ∧
    level { live with power := { live.power with level := 1 } } ≠ 0 ∧ ringOpen (flashAs {}) 3 = false ∧
    (let it : JItem := { type := 7, words := [1, 2], src := none }
     let s := flashAs { live.flash with journalQ := [{ type := 6, words := [], src := none }, it] }
     s.flash.journalQ.find? (fun it => it.type == 7) = some it ∧ it.src = none ∧ s.flash.journalQ.find? (fun it => it.type == 9) = none) ∧
    (let s := dieAs { capValid := true }
     s.fd.capValid = true ∧ s.fd.supply = true ∧ coreRuns s = true ∧ idlUp s = true ∧ ringOpen s 4 = true) ∧
    mayWrite live .pf0 pgNVF 0x44 0 = true ∧ (flashAs {}).flash.state ≠ .ready ∧ (flashAs {}).flash.state ≠ .readOnly ∧
    (∀ b ∈ [true, false], (flashAs { state := .quiescing, blkRun := b }).flash.state = .quiescing) := by decide +kernel

/-- The live machine with this power state, its domains on and its clocks locked. -/
def powerAs (p : Power) : State :=
  { live with power := { p with dom := 0xFFFFF, pllcLock := true, pllsLock := true, refOk := true } }

theorem test_SheddingLadder_admits :
    (mayWrite live .pf0 pgPWR 0x58 0 = true ∧ domOn live 19 = true ∧ tgIdle live 7 = true ∧
      tgIdle (chanAs 32767 { code := 1 }) 7 = false) ∧
    (let s : State := { live with power := { live.power with dom := 0x7FFFF } }
     domOn s 19 = false ∧ mayWrite s .pf0 pgPWR 0x58 0 = true) ∧
    (powerAs { tgComing := 0x80 }).power.tgComing.getLsbD (7 : Fin 8).val = true ∧
    (∀ r ∈ [(3 : Fin 9), 7], let s : State := { powerAs { feedRow := 3, feedReq := r, busReq := r, feedDue := 7, busDue := 7 } with now := 7 }
     idlUp s = true ∧ s.power.feedRow = 3 ∧ s.power.feedReq.val < 8 ∧ s.power.feedDue ≤ s.now ∧ 3 ≤ s.power.busReq.val ∧
      s.power.busReq.val < 8 ∧ s.power.busDue ≤ s.now) ∧
    (let s := powerAs { feedRow := 2, feedReq := 2, feedDue := 1 }
     idlUp s = true ∧ s.power.feedRow = 2 ∧ s.power.feedReq.val < 3 ∧ s.now < s.power.feedDue) ∧
    idlUp (linkAs {}) = false ∧
    (let s : State := { powerAs { busFrom := some 7 } with now := 1200007 }
     idlUp s = true ∧ s.power.busFrom = some 7 ∧ 7 + 1200000 ≤ s.now ∧ s.power.busReq = 0) ∧
    (let s : State := { powerAs { coreReq := 5, coreAt := 7 } with now := 120000007 }
     s.power.coreReq ≠ 0 ∧ s.power.coreAt + 120000000 ≤ s.now) := by decide +kernel

theorem test_SheddingLadder_admits_levels :
    (driveOn live = true ∧ ({ live with power := { live.power with refOk := false } } : State).power.refOk = false) ∧
    (let s : State := { powerAs { unlocked := true, unlockAt := 7 } with now := 1207 }
     s.power.unlocked = true ∧ s.power.unlockAt + 1200 ≤ s.now) ∧
    (let s : State := { powerAs { clockGood := 7 } with now := 12000007 }
     s.power.refOk = true ∧ s.power.unlocked = false ∧ s.power.clockGood + 12000000 ≤ s.now) ∧ floorReq live ≤ 8 ∧
    (let s := powerAs { level := 2, feedReq := 7 }; level s < 3 ∧ 3 ≤ request s ∧ level s < 7 ∧ 7 ≤ request s) ∧
    (∀ n ∈ [12000006, 12000007], let s : State := { powerAs { level := 1, belowFrom := some 3, levelAt := 7 } with now := n }
     driveOn s = true ∧ idlUp s = true ∧ request s < level s ∧ descentDue s = (n == 12000007)) ∧
    (let s : State := { powerAs { level := 6, feedReq := 6, l6Running := true, l6Next := 6, l6Due := 7 } with now := 7 }
     s.power.l6Due ≤ s.now ∧ 6 ≤ level s ∧ 6 ≤ request s ∧ s.power.l6Running = true ∧ s.power.l6Next.toNat ≤ 6) ∧
    (let s : State := { powerAs { l8Stop := true, l8At := 7 } with now := 7 + max (regFld live (ro pgTEMP 0x40) 16 8) 5 * 1200000 }
     s.power.l8Stop = true ∧ stopAccepted s = false ∧ s.power.l8At + max (regFld s (ro pgTEMP 0x40) 16 8) 5 * 1200000 ≤ s.now ∧
      idlUp s = true ∧ s.idl.wrWait = [] ∧ s.idl.heldAcc = []) ∧
    (mayWrite live .pf0 pgPWR 0x40 0 = true ∧ fld (7 : Word) 0 4 ≤ 7 ∧ mayRead live .pf2 pgPWR 0x50 = true) := by decide +kernel

theorem test_ClocksAndDroop_admits :
    (∀ f ∈ [Fast.sleep, .warm], let s : State := { slotAs 0 { state := .armed, work := .copy } with power := { live.power with fast := f } }
     driveOn s = true ∧ hasWork s = true ∧ s.power.fast = f) ∧
    (let s : State := { powerAs { fast := .waking, wakeAt := 7 } with now := 24007 }
     s.power.fast = .waking ∧ s.power.refOk = true ∧ s.power.unlocked = false ∧ s.power.wakeAt + 24000 ≤ s.now) ∧
    (let s : State := { setReg (powerAs { fast := .run, workAt := 7 }) (ro pgCLK 0x40) 0x101 with now := 23 }
     hasWork s = false ∧ s.power.fast = .run ∧ s.power.workAt + regFld s (ro pgCLK 0x40) 4 12 ≤ s.now) ∧
    (let s : State := { setReg (powerAs { fast := .warm, workAt := 7 }) (ro pgCLK 0x40) 0x1_0001 with now := 1207 }
     hasWork s = false ∧ s.power.fast = .warm ∧ s.power.workAt + regFld s (ro pgCLK 0x40) 16 16 * 1200 ≤ s.now ∧ anyArmed s = false ∧
      bit (getReg s (ro pgCLK 0x40)) 0 = true) ∧
    (driveOn live = true ∧ live.power.fast ≠ .sleep ∧ live.power.pllsLock = true ∧ live.power.refOk = true) ∧
    ({ live with power := { live.power with refOk := false } } : State).power.refOk = false ∧
    (live.power.stretch = false ∧ live.power.fast = .run ∧ (649 : BitVec 10).toNat < threshMv live ∧
      threshMv live + 10 < (751 : BitVec 10).toNat ∧ live.power.coreReq = 0) ∧
    (let s : State := { powerAs { coreLow := some 7 } with now := 7 + regFld live (ro pgCLK 0x48) 16 8 * 1200 }
     s.power.coreLow = some 7 ∧ 7 + regFld s (ro pgCLK 0x48) 16 8 * 1200 ≤ s.now ∧ s.power.coreReq = 0) ∧
    (mayWrite live .pf0 pgCLK 0x48 0 = true ∧ 650 ≤ fld (650 : Word) 0 10 ∧ fld (740 : Word) 0 10 ≤ 740) := by decide +kernel

/-- The live machine with its shelf link enabled, in this state. -/
def shelfAs (x : Shelf) : State := { regAs (ro pgSLINK 0x40) 0x2001 with shelf := { x with upOk := true, dnOk := true } }

theorem test_ShelfLink_admits :
    (let s := shelfAs { pos := 3 }
     let fr : SlFrame := { type := 6, src := 5, dst := 0, bc := true, dir := false, ttl := 2, arg := 0, data := 0 }
     driveOn s = true ∧ slEn s = true ∧ fr.src ≠ s.shelf.pos ∧ oneHop fr.type.toNat = false ∧ fr.bc = true ∧ 1 < fr.ttl.toNat ∧
      s.shelf.dnOk = true ∧ s.shelf.upOk = true) ∧
    (∀ st ∈ [SlState.negotiate, .elect, .member, .master], let s := shelfAs { state := st }
     s.shelf.state ≠ .down ∧ s.shelf.state ≠ .isolated ∧ portOk s .up = true ∧ portOk s .dn = true) ∧
    (let s := shelfAs { state := .member, seek := false, towards := .dn, goodBeats := 7 }
     s.shelf.state = .member ∧ Port.dn = s.shelf.towards ∧ 7 ≤ s.shelf.goodBeats.toNat) ∧
    (shelfAs { state := .negotiate }).shelf.seek = true ∧
    (let s := shelfAs { pos := 3, state := .member }; (3 : BitVec 4) = s.shelf.pos ∧ (4 : BitVec 4) ≠ s.shelf.pos) ∧
    (let s := shelfAs { state := .elect, pos := 15 }
     s.shelf.state = .elect ∧ slMasterOk s = true ∧ (∀ c ∈ s.shelf.claims, claimRank c.2 ≤ claimRank (ownClaim s))) ∧
    (let s := shelfAs { state := .master, ver := 0x11 }
     mayWrite s .pf1 pgSLINK 0x74 1 = true ∧ s.shelf.state = .master ∧ 0x11 ≤ s.shelf.ver.toNat) ∧
    (shelfAs { state := .member }).shelf.state ≠ .master ∧
    (let s := shelfAs { state := .member, masterPos := 2, sched0 := some (15, true, 7) }
     (2 : BitVec 4) = s.shelf.masterPos ∧ s.shelf.sched0 = some ((15 : Slot).val, true, 7) ∧ schedEn s (15 : Slot).val = false) ∧
    (shelfAs { state := .master, schedWait := 0x8000 }).shelf.schedWait.getLsbD (15 : BitVec 4).toNat = true ∧
    (let s : State := { shelfAs {} with shelf := { upOk := true } }; portOk s .up = true ∧ portOk s (otherPort .up) = false) ∧
    (let s := shelfAs {}; driveOn s = true ∧ s.power.refOk = true ∧ s.shelf.state = .down ∧ slEn s = true) ∧
    (let s := shelfAs {}
     mayWrite s .pf0 pgSLINK 0x40 0 = true ∧ bit (0 : Word) 0 = false ∧ bit (1 : Word) 0 = true ∧ s.shelf.upOk = true) ∧
    mayRead live .pf2 pgSLINK 0x4C = true := by decide +kernel

/-! ### Statements over every command -/

/-- A fused channel beside one that plays, and a step of that machine. -/
theorem test_FusedSourcesNothing_admits :
    let s : State := { setChan (chanAs 7 { fuse := .fused, kind := 1 }) 8 { code := 5 } with pending := [.tongueEnd 8] }
    tabWf (fun _ => ({} : ChanSt)) s.chans = true ∧ FusedQuiet s ∧ (chan s 7).fuse ≠ .clear ∧ ∃ t, step s = .next t := by
  refine ⟨by decide, fun ch h => ?_, by decide, _, rfl⟩
  by_cases h7 : ch = 7
  · subst h7; decide
  · by_cases h8 : ch = 8
    · subst h8; exact absurd rfl h
    · exfalso; apply h
      show (tabGet (fun _ => ({} : ChanSt)) [(7, { fuse := .fused, kind := 1 }), (8, { code := 5 })] ch).fuse = .clear
      simp [tabGet, h7, h8]

theorem test_OnlyAReadyPlanStrobes_admits :
    (∃ t, step { live with pending := [.strobeIssue 15] } = .next t) ∧ (slot live (15 : Slot).val).ready = false :=
  ⟨⟨_, rfl⟩, by decide⟩

theorem test_OnlyTheirCommandsMoveThem_admits :
    (∃ t, exec (.cqAggTimer 63) live = .next t) ∧ mayMoveChannels (.cqAggTimer 63) = false ∧ mayMoveFeeds (.cqAggTimer 63) = false ∧
    mayMoveRails (.cqAggTimer 63) = false ∧ mayMovePark (.cqAggTimer 63) = false ∧ mayMoveCoefficients (.cqAggTimer 63) = false ∧
    mayMoveTiles (.cqAggTimer 63) = false ∧ mayMoveSlots (.cqAggTimer 63) = false ∧ mayMoveBore (.cqAggTimer 63) = false :=
  ⟨⟨_, rfl⟩, by decide⟩

/-! ### Numbers that the spec works out -/

/-- 03_staged_start.md: channel 5,683 at code 24,000 in range L reads 0.768 V; V_low is 5.00 V. -/
theorem test_bond_entry : bondEntry 200 4000 false (codeCurrent 24000 false) 50000 { sum := 4 * 983040, compl := false } = 0x8DE8_4000 := by
  decide +kernel

/-- 04_drive_channels.md: a park code of 24,000 in range L is the entry 0x2EE0. -/
theorem test_park_entry : parkCode 0x2EE0 = 24000 ∧ parkRange 0x2EE0 = false := by decide

/-- 07_tongue_shapes.md: the codes of shapes 7 and 8, and the clamped step from 40,000 to 60,000. -/
theorem test_shape_codes :
    rawSegs [0x0230_6000, 0x008C_5000, 0x0050_4400, 0, 0, 0, 0, 0] = [⟨0x6000, 560⟩, ⟨0x5000, 140⟩, ⟨0x4400, 80⟩] ∧
    segCode 20000 48990 0x6000 = 63485 ∧ segCode 20000 48990 0x5000 = 56238 ∧ segCode 20000 48990 0x4400 = 50802 ∧
    segCode 48990 20000 0x6C00 = 69 ∧ segCode 48990 20000 0x5000 = 12752 ∧ segCode 48990 20000 0x4400 = 18188 ∧
    segCode 40000 60000 0x6000 = 65535 ∧ segCode 40000 60000 0x5000 = 65000 ∧ segCode 40000 60000 0x4400 = 61250 := by decide +kernel

/-- 09_accumulators_meters.md: the system calibration of monitor 2,838 and its reading of 8.000 µA. -/
theorem test_calibration :
    scResult 0x8000 false 0 (List.replicate 16 1250) false = .inl 0x04E2_8000 ∧
    scResult 0x04E2_8000 true 6710886 (List.replicate 16 6744100) false = .inl 0x04E2_7F65 ∧
    corrected 24 0x04E2_7F65 6744100 = 6710955 := by decide +kernel

/-- 10_element_loops.md: Δ at 0 ms with LP_GAIN 0x8010_00E2 and SIGN 1. -/
theorem test_loop_delta : loopDelta 0x8010_00E2 true (-30832) = 106 := by decide

/-- 15_faults_bell.md and 18_register_pages.md: SOURCE codes, PG_ID and PG_FLT_SEV of TILE_12. -/
theorem test_source_codes : srcCode 0x101 2 = 0x1012 ∧ srcCode 0x2C 0 = 0x2C0 ∧ (pageRead live (ro 0x2C 0)).1 = 0x002C_0C20 ∧
    fld (getReg live (ro 0x2C 0x20)) 0 4 = 6 := by decide +kernel

/-- 18_register_pages.md: where the entries of earlier examples lie in BAR2. -/
theorem test_bar2_places : windowAddr 4 0x85_8210 = spAddr 22561 ∧ windowAddr 5 0xA4_00E0 = shapeAddr 2 7 ∧
    windowAddr 6 0xB1_6200 = seqAddr (5 * 32 + 17) 0 ∧ windowAddr 7 0xC2_C460 = accAddr ((5 * 32 + 17) * 64 + 6) ∧
    windowAddr 8 0x10C_0000 = deltaAddr 3 0 := by decide +kernel

/-- A command's effect reaches the machine through the queue: a P0 write of BL_CTRL at its greatest value. -/
theorem test_step_runs_command :
    (match step { live with pending := [.registerWrite .pf0 0x003040 65 true] } with
      | .next t => t.pending.isEmpty && regFld t (ro pgBELL 0x40) 0 7 == 65
      | _ => false) = true := by decide +kernel

/-- No row of the table has bits: no word spells a command, and the machine with a word is the machine. -/
theorem test_no_words : decodeTableWord 32 0xFFFF_FFFF = none ∧ State.reset.withFetchWord 32 0xFFFF_FFFF = State.reset := by decide

end Sys2Proof.Tests
end

