-- ==== Sys2Proof/Proofs/Fields.lean ====
section
/-! SUPPORT. The bits of a field, and what a field reads after another one has been set. -/

namespace Sys2Proof.Machine

theorem testBit_fld (w : Word) (lo n i : Nat) : (fld w lo n).testBit i = (decide (i < n) && w.getLsbD (lo + i)) := by
  rw [fld, Nat.testBit_mod_two_pow, Nat.testBit_div_two_pow, BitVec.testBit_toNat, Nat.add_comm]

/-- Setting a field leaves the bits below it as they were. -/
theorem getLsbD_put_below (w : Word) (lo n v i : Nat) (h : i < lo) : (put w lo n v).getLsbD i = w.getLsbD i := by
  have zero (a : Nat) : (a * 2 ^ lo).testBit i = false := by simp [Nat.testBit_mul_two_pow, Nat.not_le.mpr h]
  by_cases hi : i < 32
  · simp only [put, BitVec.getLsbD_or, BitVec.getLsbD_and, BitVec.getLsbD_not, BitVec.getLsbD_ofNat, zero, hi, decide_true,
      Bool.and_false, Bool.not_false, Bool.and_true, Bool.or_false]
  · rw [BitVec.getLsbD_of_ge _ _ (Nat.not_lt.mp hi), BitVec.getLsbD_of_ge _ _ (Nat.not_lt.mp hi)]

/-- Setting a field leaves every field below it as it was. -/
theorem fld_put_below (w : Word) (lo n v lo' n' : Nat) (h : lo' + n' ≤ lo) : fld (put w lo n v) lo' n' = fld w lo' n' := by
  refine Nat.eq_of_testBit_eq fun i => ?_
  rw [testBit_fld, testBit_fld]
  by_cases hi : i < n'
  · rw [getLsbD_put_below w lo n v _ (by omega)]
  · simp [hi]

end Sys2Proof.Machine
end

