-- ==== Sys2Proof/Proofs/WarmReset.lean ====
section
/-! PROOF. A WARM reset leaves the drives as they were: each part of it touches neither a channel nor a tile (R18). -/

namespace Sys2Proof.Machine

/-- What R18 keeps through a WARM reset: every channel and every tile. -/
def State.drives (s : State) : Tab ChanSt × Tab TileSt := (s.chans, s.tiles)

theorem drives_of_quiet {s t : State} (h : t.quiet = s.quiet) : t.drives = s.drives :=
  congrArg₂ Prod.mk (chans_of_quiet h) (tiles_of_quiet h)
theorem drives_of_still {s t : State} (h : t.still = s.still) : t.drives = s.drives := drives_of_quiet (quiet_of_still h)

variable (s : State)

/-! ### The parts of a WARM reset -/

/-- A restart touches the accumulator's words in the Bore and its sum (R301). -/
theorem accRestart_drives (disc i : Nat) : (accRestart s disc i).drives = s.drives :=
  drives_of_quiet (s := { s with accs := { s.accs with
    sum := tabSet (fun _ => (0 : Int)) s.accs.sum i 0, restart := s.accs.restart.erase i, ovr := s.accs.ovr.erase i } })
    (setBores_quiet ..)

/-- Restarting every accumulator and clearing DISC leaves the drives (R304). -/
theorem accWarm_drives : (accWarm s).drives = s.drives := by
  unfold accWarm
  refine List.foldlRecOn (motive := fun t : State => t.drives = s.drives) _ _ rfl fun t ht i _ => ?_
  exact (drives_of_quiet (setBore_quiet ..)).trans ((accRestart_drives t 0 i).trans ht)

theorem measWarm_drives : (measWarm s).drives = s.drives := rfl
theorem noteCause_drives (last lo : Nat) : (noteCause s last lo).drives = s.drives := rfl
theorem resetMsg_drives : (resetMsg s).drives = s.drives := drives_of_still (post_still ..)

/-- A WARM reset leaves every channel and every tile as it was (R18). -/
theorem warm_drives (last : Nat) : (warm s last).drives = s.drives := by
  -- `u` hides the restart of 65,536 accumulators from the kernel, which would unfold it.
  obtain ⟨u, hu⟩ : ∃ u, accWarm (measWarm s) = u := ⟨_, rfl⟩
  have restarted : u.drives = s.drives := hu ▸ (accWarm_drives _).trans (measWarm_drives s)
  rw [warm, hu]
  split
  · rfl
  · rw [resetMsg_drives, noteCause_drives]
    exact restarted

/-! ### The two commands that make one -/

/-- A write whose effect leaves the drives leaves them whether it is admitted or not (R607). -/
theorem wr_drives (fn : Fn) (page o lvl : Nat) (k : State → State) (hk : (k s).drives = s.drives) :
    (wr s fn page o lvl k).drives = s.drives := by
  rcases guarded_cases s { fn := fn, off := ro page o, write := true, lvl := lvl } k with ⟨h, -, -⟩ | h
  · exact (congrArg State.drives h).trans hk
  · exact drives_of_still h

/-- A write of SY_RESET with ACT 1 is a bad encoding or a WARM reset (R585). -/
theorem syReset_of_act_one (fn : Fn) (v : Word) (h : fld v 0 2 = 1) :
    syReset s fn v = badEncoding s pgSYS 0x64 ∨ syReset s fn v = warm s 4 := by
  unfold syReset
  split
  · exact .inl rfl
  · rw [h]; exact .inr rfl

theorem syReset_act_one_drives (fn : Fn) (v : Word) (h : fld v 0 2 = 1) : (syReset s fn v).drives = s.drives := by
  rcases syReset_of_act_one s fn v h with e | e <;> rw [e]
  · exact drives_of_still (badEncoding_still ..)
  · exact warm_drives s 4

/-- The word of SY_RESET_WARM has ACT 1 whatever its key. -/
theorem fld_act_syResetWarm (key : Nat) : fld (pack [(0, 2, 1), (16, 16, key)]) 0 2 = 1 :=
  (fld_put_below (put 0 0 2 1) 16 16 key 0 2 (by decide)).trans (by decide)

theorem exec_warmReset : exec .warmReset s = .next (warm s 4) := rfl

theorem exec_syResetWarm (fn : Fn) (key : BitVec 16) :
    exec (.syResetWarm fn key) s =
      .next (wr s fn pgSYS 0x64 1 fun s => syReset s fn (pack [(0, 2, 1), (16, 16, key.toNat)])) := rfl

/-- Settles O16: each of the two commands answers a state with the drives of the state before. -/
theorem warmResetLeavesDrives : Obligations.WarmResetLeavesDrives := by
  rintro s c (rfl | ⟨fn, key, rfl⟩)
  · exact ⟨_, exec_warmReset s, Prod.mk.inj (warm_drives s 4)⟩
  · refine ⟨_, exec_syResetWarm s fn key, Prod.mk.inj (wr_drives s fn pgSYS 0x64 1 _ ?_)⟩
    exact syReset_act_one_drives s fn _ (fld_act_syResetWarm key.toNat)

end Sys2Proof.Machine
end

