-- ==== Sys2Proof/Proofs/FusedChannel.lean ====
section
/-! PROOF. The undoing of a loop write reaches a fused channel: a strobe that freezes a reed gives every channel of it the code
before the loop write of that cycle (R27, R29), and does not ask whether the channel has fused since (R28). -/

namespace Sys2Proof.Machine
open Sys2Proof.Safety

variable (s : State)

/-! ### A strobe's undoing of a loop write -/

/-- A channel that a loop wrote in this cycle takes back the code it had before, whatever its fuse (R27). -/
theorem unloop_of_wrote (now : Nat) (c : ChanSt) (code : BitVec 16) (src : BitVec 3) (hu : c.unlooped = some (code, src))
    (hw : c.wrote = some now) : unloop now c = { c with code := code, src := src, wrote := none, unlooped := none } := by
  simp [unloop, hu, hw]

/-- Freezing a reed undoes the loop write of each of its channels. -/
theorem chan_freezeReed (r ch : Nat) (plain : Bool) (h : ch / 32 = r) :
    chan (freezeReed s r plain) ch = unloop s.now (chan s ch) :=
  tabGet_tabMap_in _ s.chans (r * 32) 32 (fun _ c => unloop s.now c) ch (by omega)

theorem chan_strobeReed (x : SlotSt) (r ch : Nat) (h : ch / 32 = r) :
    chan (strobeReed x s r) ch = unloop s.now (chan s ch) := chan_freezeReed s r ch _ h

/-! ### The strobe's entries -/

theorem clampNote_chans (ch : Nat) (cOld final : BitVec 16) (g : Seg) : (clampNote s ch cOld final g).chans = s.chans := by
  unfold clampNote
  split
  · exact chans_of_still (post_still ..)
  · rfl

/-- The begin of an entry touches its own channel alone. -/
theorem chan_beginEntry_other (ch k j : Nat) (e : Entry) (h : j ≠ ch) : chan (beginEntry s ch k e) j = chan s j := by
  have other (u : State) (c : ChanSt) (hu : u.chans = s.chans) : chan (setChan u ch c) j = chan s j := by
    rw [chan_setChan, if_neg h, chan, hu, chan]
  have noted (u : State) (cOld final : BitVec 16) (g : Seg) : chan (clampNote u ch cOld final g) j = chan u j := by
    rw [chan, clampNote_chans, chan]
  have tiled (u : State) (t : Nat) (x : TileSt) : chan (setTile u t x) j = chan u j := rfl
  have based (u v : State) (hu : u.chans = s.chans) (hv : v.chans = s.chans) : (if e.comp then u else v).chans = s.chans := by
    split <;> assumption
  unfold beginEntry
  dsimp only
  split
  · exact other s _ rfl
  · rw [tiled]
    split
    · rw [noted]; exact other _ _ (based _ _ rfl rfl)
    · exact other _ _ (based _ _ rfl rfl)

/-- An entry's strobe ignores a fused channel, and touches no other channel than its own (R28). -/
theorem chan_strobeEntry_of_fused (x : SlotSt) (k ch : Nat) (e : Entry) (h : (chan s ch).fuse ≠ .clear) :
    chan (strobeEntry x k s e) ch = chan s ch := by
  unfold strobeEntry
  dsimp only
  by_cases he : ch = e.ch
  · subst he; rw [if_pos (by simp [h])]
  · split
    · rfl
    · split
      · rw [chan_beginEntry_other _ _ _ _ _ he, chan_setChan, if_neg he]
      · rw [chan_setChan, if_neg he]

theorem chan_foldl_strobeEntry_of_fused (x : SlotSt) (k ch : Nat) (es : List Entry) (h : (chan s ch).fuse ≠ .clear) :
    chan (es.foldl (strobeEntry x k) s) ch = chan s ch := by
  refine List.foldlRecOn (motive := fun t : State => chan t ch = chan s ch) _ _ rfl fun t ht e _ => ?_
  rw [chan_strobeEntry_of_fused t x k ch e (ht ▸ h), ht]

/-! ### The strobe -/

/-- The channels after a strobe without CUT are what its reeds and then its entries leave. -/
theorem strobe_chans (k : Nat) (r : Req) (h : r.cut = false) :
    (strobe s k r).chans = ((slot s k).entries.foldl (strobeEntry (slot s k) k)
      (((slot s k).reedGroup.map (·.1)).foldl (strobeReed (slot s k)) (delReq { s with strobeAt := some s.now } k))).chans := by
  have tiles (ts : List Nat) (u : State) : (ts.foldl strobeTile u).chans = u.chans :=
    List.foldlRecOn (motive := fun t : State => t.chans = u.chans) _ _ rfl fun _ ht _ _ => ht
  unfold strobe
  simp only [h, Bool.false_eq_true, if_false]
  rw [chans_of_quiet (finish_quiet ..)]
  split <;> split <;> simp [chans_of_outside (redoTiles_outside ..), tiles]

/-- A strobe of a plan in a fused channel's reed gives that channel the code that its loop write of this cycle replaced. -/
theorem chan_strobe_of_unlooped (k ch g : Nat) (r : Req) (code : BitVec 16) (src : BitVec 3) (hcut : r.cut = false)
    (hreed : (slot s k).reedGroup = [(ch / 32, g)]) (hf : (chan s ch).fuse ≠ .clear)
    (hu : (chan s ch).unlooped = some (code, src)) (hw : (chan s ch).wrote = some s.now) :
    chan (strobe s k r) ch = { chan s ch with code := code, src := src, wrote := none, unlooped := none } := by
  have undone : chan (strobeReed (slot s k) (delReq { s with strobeAt := some s.now } k) (ch / 32)) ch =
      { chan s ch with code := code, src := src, wrote := none, unlooped := none } :=
    (chan_strobeReed _ _ _ ch rfl).trans (unloop_of_wrote s.now (chan s ch) code src hu hw)
  rw [chan, strobe_chans s k r hcut, hreed, ← chan]
  refine (chan_foldl_strobeEntry_of_fused _ _ _ _ _ ?_).trans undone
  exact congrArg ChanSt.fuse undone ▸ hf

/-! ### A machine in which it happens -/

/-- A fused channel at code 0 that still keeps the code 5 from before a loop write of this cycle. -/
def fusedUnlooped : ChanSt := { fuse := .fused, unlooped := some (5, 3), wrote := some 0 }

/-- A COMMIT_NOW request that arrived in cycle 0. -/
def reqNow : Req := { src := 2, cut := false, arrived := 0 }

/-- Channel 7 is such a channel, and an armed plan that moves channel 8 of its reed is ready to strobe. -/
def strobeBesideFused : State :=
  { State.reset with
    idl := { state := .up, pushOk := true }
    power := { fast := .run }
    chans := [(7, fusedUnlooped)]
    slots := [(0, { state := .armed, ready := true, entries := [{ ch := 8, code := 9, range := false }], reedGroup := [(0, 0)] })]
    reqs := [(0, reqNow)] }

theorem fusedQuiet_strobeBesideFused : FusedQuiet strobeBesideFused := by
  intro ch h
  by_cases h7 : ch = 7
  · subst h7; decide
  · exact absurd (show (chan strobeBesideFused ch).fuse = .clear by simp [chan, strobeBesideFused, tabGet, h7]) h

theorem exec_strobeIssue_strobeBesideFused :
    exec (.strobeIssue 0) strobeBesideFused = .next (strobe strobeBesideFused 0 reqNow) := by
  have goes : goesNow strobeBesideFused 0 reqNow = true := by decide
  show execStrobeIssue 0 strobeBesideFused = _
  simp [execStrobeIssue, show req strobeBesideFused 0 = some reqNow from rfl, goes]

/-- The strobe gives the fused channel 7 its old code 5. -/
theorem code_strobe_strobeBesideFused : (chan (strobe strobeBesideFused 0 reqNow) 7).code = 5 :=
  congrArg ChanSt.code
    (chan_strobe_of_unlooped strobeBesideFused 0 7 0 reqNow 5 3 rfl rfl (by decide) (by decide) (by decide))

/-- Refutes O58: FusedQuiet does not ask that a fused channel keeps no code from before a loop write, and in a state that keeps one
STROBE_ISSUE of a plan in the channel's reed writes that code to it. The model's own fuse writes (`fuseChan`) drop the kept code,
so the statement lacks `unlooped = none` for each fused channel among its premises. -/
theorem not_fusedSourcesNothing : ¬ Obligations.FusedSourcesNothing := by
  unfold Obligations.FusedSourcesNothing
  intro h
  obtain ⟨-, -, ignores⟩ := h strobeBesideFused (by decide) fusedQuiet_strobeBesideFused
  obtain ⟨t, ht, stays⟩ := ignores (.strobeIssue 0) 0 0 0 0 (.inr (.inl rfl))
  obtain rfl : strobe strobeBesideFused 0 reqNow = t :=
    Host.Outcome.next.inj (exec_strobeIssue_strobeBesideFused.symm.trans ht)
  obtain ⟨-, code, -⟩ := stays 7 (by decide)
  exact absurd (code_strobe_strobeBesideFused.symm.trans code) (by decide)

end Sys2Proof.Machine
end

