-- ==== Sys2Proof/Proofs/Reports.lean ====
section
/-! SUPPORT. What a count and a message leave: the counter field reads one more, modulo its width, and a message of a drive-die
block enters the Bell's queue while it has room (R492). -/

namespace Sys2Proof.Machine

/-! ### Counters -/

/-- Inside the field that has been set stand the bits of the value. -/
theorem getLsbD_put_inside (w : Word) (lo n v i : Nat) (hi : i < n) (h : lo + n ≤ 32) :
    (put w lo n v).getLsbD (lo + i) = v.testBit i := by
  have hlt : lo + i < 32 := by omega
  simp only [put, BitVec.getLsbD_or, BitVec.getLsbD_and, BitVec.getLsbD_not, BitVec.getLsbD_ofNat, Nat.testBit_mul_two_pow,
    Nat.testBit_mod_two_pow, Nat.testBit_two_pow_sub_one, Nat.add_sub_cancel_left, Nat.le_add_right, hlt, hi]
  simp

/-- A field that has been set reads the value, modulo its width. -/
theorem fld_put_self (w : Word) (lo n v : Nat) (h : lo + n ≤ 32) : fld (put w lo n v) lo n = v % 2 ^ n := by
  refine Nat.eq_of_testBit_eq fun i => ?_
  rw [testBit_fld, Nat.testBit_mod_two_pow]
  by_cases hi : i < n
  · rw [getLsbD_put_inside w lo n v i hi h]
  · simp [hi]

variable (s : State)

/-- A wrapping counter reads its count modulo its width. -/
theorem regFld_bumpReg_self (off lo n k : Nat) (h : lo + n ≤ 32) :
    regFld (bumpReg s off lo n k) off lo n = (regFld s off lo n + k) % 2 ^ n := by
  rw [regFld, bumpReg, putReg, getReg_setReg_self, fld_put_self _ _ _ _ h]

/-- A count touches no other register. -/
theorem getReg_bumpReg_other (off lo n k o : Nat) (h : o ≠ off) : getReg (bumpReg s off lo n k) o = getReg s o :=
  getReg_setReg_other s off o _ h

/-! ### Messages -/

/-- The message that a block sends while no CHECK injection waits. -/
def msgOf (page src cls sub : Nat) (d : Word) : Msg :=
  { source := srcCode page src, kind := BitVec.ofNat 8 (cls * 32 + sub % 32), detail := d }

/-- A message that reaches a queue with room waits there as its newest (R492). -/
theorem bellIn_of_room (m : Msg) (h : s.bell.inq.length < 64) :
    bellIn s m = { s with bell := { s.bell with inq := s.bell.inq ++ [m] } } := if_pos h

/-- A message that a drive-die block sends, beside no shadow of its own and with no CHECK injection waiting, does nothing but
reach the Bell. -/
theorem postAs_of_plain (page src cls sub : Nat) (d : Word) (himpl : bit (pageCap page) src = true)
    (hpage : isFeedPage page = false) (hown : ownReaction page src cls = false) (hon : driveOn s = true)
    (hinj : s.bell.injNext = []) :
    postAs s page src cls sub d = bellIn (sentNow s (srcCode page src)) (msgOf page src cls sub d) := by
  simp [postAs, msgOf, himpl, hpage, hown, hon, hinj]

end Sys2Proof.Machine
end

