-- ==== Sys2Proof/Proofs/PoisonedWrite.lean ====
section
/-! PROOF. A poisoned write is counted in HS_ERR and reported to the Bell, and touches nothing else (R431). -/

namespace Sys2Proof.Machine
open Sys2Proof.Safety

variable (s : State) (w : BitVec 24)

theorem driveOn_of_configUp (h : configUp s = true) : driveOn s = true := (Bool.and_eq_true_iff.mp h).1

theorem exec_poisonedRx (h : configUp s = true) :
    exec (.poisonedRx w) s = .next (post (bumpReg s (ro pgHOST 0x48) 24 8) pgHOST 4 (w.setWidth 32)) := by
  show execPoisonedRx w s = _
  rw [execPoisonedRx, if_pos h]

/-- The HOST page's source 4, POISONED_RX, enters the Bell's queue while it has room. -/
theorem post_poisonedRx (d : Word) (hon : driveOn s = true) (hroom : s.bell.inq.length < 64) (hinj : s.bell.injNext = []) :
    post s pgHOST 4 d = { sentNow s (srcCode pgHOST 4) with
      bell := { s.bell with inq := s.bell.inq ++ [msgOf pgHOST 4 (srcClass pgHOST 4) 0 d] } } := by
  rw [post, postAs_of_plain s pgHOST 4 _ 0 d (by decide) (by decide) (by decide) hon hinj]
  exact bellIn_of_room _ _ hroom

/-- Settles O36: the count changes one field of one register, and the message only lengthens the Bell's queue. -/
theorem poisonedWrite : Obligations.PoisonedWrite := by
  intro s w hup hroom hinj
  have counted := regFld_bumpReg_self s (ro pgHOST 0x48) 24 8 1 (by decide)
  have others := getReg_bumpReg_other s (ro pgHOST 0x48) 24 8 1
  have reported := post_poisonedRx (bumpReg s (ro pgHOST 0x48) 24 8) (w.setWidth 32) (driveOn_of_configUp s hup) hroom hinj
  exact ⟨_, (exec_poisonedRx s w hup).trans (congrArg _ reported),
    counted, others, rfl, rfl, rfl, rfl, rfl, rfl, rfl, rfl, rfl, rfl, rfl⟩

end Sys2Proof.Machine
end

