-- ==== Sys2Proof/Proofs/D3hot.lean ====
section
/-! PROOF. A function placed in D3hot decodes no BAR and keeps its messages pending, and every other function stays as it was
(R438). -/

namespace Sys2Proof.Machine
open Sys2Proof.Safety

/-! ### Functions and their bits -/

theorem fnNum_injective : Function.Injective fnNum := by
  intro f g
  cases f <;> cases g <;> decide

theorem fnNum_lt (f : Fn) : fnNum f < 3 := by cases f <;> decide

/-- Setting the bit of one function sets it for that function alone. -/
theorem getLsbD_or_fnBit (d : BitVec 3) (f g : Fn) :
    (d ||| BitVec.ofNat 3 (2 ^ fnNum f)).getLsbD (fnNum g) = (d.getLsbD (fnNum g) || decide (g = f)) := by
  rw [BitVec.getLsbD_or, BitVec.getLsbD_ofNat, Nat.testBit_two_pow]
  simp [fnNum_lt g, fnNum_injective.eq_iff, eq_comm]

/-! ### Messages of a vector -/

variable (s : State)

/-- In D3hot a message of a vector becomes pending and is not sent. -/
theorem sendMsi_of_d3 (fn vec : Nat) (h : s.host.d3.getLsbD fn = true) :
    sendMsi s fn vec =
      { s with host := { s.host with msixPend := tabSet (fun _ => false) s.host.msixPend (fn * 32 + vec) true } } := by
  simp [sendMsi, h]

/-- What has left the part after a message of a vector: one more if MSI-X is on, the vector open and the function not in
D3hot. -/
theorem sendMsi_msixSent (fn vec : Nat) :
    (sendMsi s fn vec).host.msixSent = s.host.msixSent ++
      if s.host.msixEn.getLsbD fn && msixOpen s fn vec && !s.host.d3.getLsbD fn then [msixMsg s fn vec] else [] := by
  unfold sendMsi
  dsimp only
  split <;> simp

/-! ### Entering D3hot -/

/-- The machine with one function more in D3hot. -/
def d3With (fn : Fn) : State := { s with host := { s.host with d3 := s.host.d3 ||| BitVec.ofNat 3 (2 ^ fnNum fn) } }

theorem exec_d3hotEnter (fn : Fn) (h : configUp s = true) : exec (.d3hotEnter fn) s = .next (d3With s fn) := by
  show execD3hotEnter fn s = _
  rw [execD3hotEnter, if_pos h, d3With]

theorem d3With_d3 (fn g : Fn) : (d3With s fn).host.d3.getLsbD (fnNum g) = (s.host.d3.getLsbD (fnNum g) || decide (g = fn)) :=
  getLsbD_or_fnBit s.host.d3 fn g

theorem d3With_d3_self (fn : Fn) : (d3With s fn).host.d3.getLsbD (fnNum fn) = true := by simp [d3With_d3]

theorem d3With_d3_other (fn g : Fn) (h : g ≠ fn) :
    (d3With s fn).host.d3.getLsbD (fnNum g) = s.host.d3.getLsbD (fnNum g) := by simp [d3With_d3, h]

theorem hostReach_d3With_self (fn : Fn) : hostReach (d3With s fn) fn = false := by
  rw [hostReach, d3With_d3_self, Bool.not_true, Bool.and_false]

theorem hostReach_d3With_other (fn g : Fn) (h : g ≠ fn) : hostReach (d3With s fn) g = hostReach s g := by
  rw [hostReach, d3With_d3_other s fn g h]
  rfl

/-- Another function's vector sends what it would have sent. -/
theorem msixSent_d3With_other (fn g : Fn) (vec : Nat) (h : g ≠ fn) :
    (sendMsi (d3With s fn) (fnNum g) vec).host.msixSent = (sendMsi s (fnNum g) vec).host.msixSent := by
  rw [sendMsi_msixSent, sendMsi_msixSent, d3With_d3_other s fn g h]
  rfl

/-- Settles O37: the command sets one bit of D3hot, which closes the function's BARs and holds its messages back. -/
theorem d3hotStopsAFunction : Obligations.D3hotStopsAFunction := by
  intro s fn hup
  refine ⟨d3With s fn, exec_d3hotEnter s fn hup, hostReach_d3With_self s fn, fun vec => ?_,
    rfl, rfl, rfl, rfl, rfl, fun g hg => ?_⟩
  · rw [sendMsi_of_d3 _ _ vec (d3With_d3_self s fn)]
  · exact ⟨hostReach_d3With_other s fn g hg, fun vec => msixSent_d3With_other s fn g vec hg⟩

end Sys2Proof.Machine
end

