-- ==== Sys2Proof/Proofs/Steps.lean ====
section
/-! PROOF. What a step is: the front of the queue runs, and an empty queue counts one cycle of time and nothing else; and the state
after reset meets every invariant. -/

namespace Sys2Proof.Machine

open Sys2Proof.Safety

variable (s : State)

/-! ### The two kinds of step -/

theorem step_of_front {c : Instr} {rest : List Instr} (h : s.pending = c :: rest) :
    step s = exec c { s with pending := rest } := by simp only [step, h]

theorem step_of_empty (h : s.pending = []) : step s = .next (idle s) := by simp only [step, h]

/-- Settles O1: the queue's front is what a step runs. -/
theorem stepRunsFront : Obligations.StepRunsFront := fun _ _ _ => rfl

/-! ### One cycle of time -/

/-- The part of the machine to which no count of time belongs. -/
def State.timeless (s : State) : State :=
  { s with now := 0, phase := 0, droneF := 0, droneD := 0, feedA := {}, feedB := {}, reeds := [], reqs := [], power := {},
           shelf := {} }

theorem parts_of_timeless {s t : State} (h : t.timeless = s.timeless) :
    t.pending = s.pending ∧ t.regs = s.regs ∧ t.bore = s.bore ∧ t.chans = s.chans ∧ t.tiles = s.tiles ∧ t.slots = s.slots ∧
      t.park = s.park ∧ t.rails = s.rails ∧ t.cmdq = s.cmdq ∧ t.flash = s.flash ∧ t.bell = s.bell ∧ t.host = s.host ∧
      t.loops = s.loops ∧ t.tabs = s.tabs :=
  have e {α : Type} (π : State → α) : π t.timeless = π s.timeless := congrArg π h
  ⟨e State.pending, e State.regs, e State.bore, e State.chans, e State.tiles, e State.slots, e State.park, e State.rails,
    e State.cmdq, e State.flash, e State.bell, e State.host, e State.loops,
    e State.tabs⟩

@[simp] theorem timeless_now (n : Nat) : State.timeless { s with now := n } = s.timeless := rfl
@[simp] theorem timeless_phase (n : Nat) : State.timeless { s with phase := n } = s.timeless := rfl
@[simp] theorem powerTick_timeless : (powerTick s).timeless = s.timeless := rfl
@[simp] theorem settleTick_timeless : (settleTick s).timeless = s.timeless := rfl
@[simp] theorem waitTick_timeless : (waitTick s).timeless = s.timeless := rfl
@[simp] theorem driveTick_timeless : (driveTick s).timeless = s.timeless := by unfold driveTick; split <;> rfl

@[simp] theorem feedTick_timeless : (feedTick s).timeless = s.timeless := by
  unfold feedTick
  split
  · rfl
  · dsimp only
    split <;> rfl

theorem shelfTick_eq : shelfTick s = { s with shelf := (shelfTick s).shelf } := by
  unfold shelfTick
  split
  · rfl
  · dsimp only
    repeat' split
    all_goals rfl

@[simp] theorem shelfTick_timeless : (shelfTick s).timeless = s.timeless := by rw [shelfTick_eq]; rfl

/-- The machine when a cycle has been counted, before the drone oscillators follow. -/
def counted (s : State) : State := waitTick (shelfTick { settleTick (powerTick s) with now := s.now + 1 })

@[simp] theorem counted_timeless : (counted s).timeless = s.timeless := by simp [counted]
theorem counted_now : (counted s).now = s.now + 1 := by
  have h : ∀ u : State, (waitTick (shelfTick u)).now = u.now := fun u => by rw [shelfTick_eq]; rfl
  exact h _
theorem counted_droneF : (counted s).droneF = s.droneF := by
  have h : ∀ u : State, (waitTick (shelfTick u)).droneF = u.droneF := fun u => by rw [shelfTick_eq]; rfl
  exact h _
theorem counted_reeds : (counted s).reeds = (settleTick (powerTick s)).reeds := by
  have h : ∀ u : State, (waitTick (shelfTick u)).reeds = u.reeds := fun u => by rw [shelfTick_eq]; rfl
  exact h _
theorem feed_counted (f : Feed) : feed (counted s) f = feed s f := by
  have h : ∀ u : State, feed (waitTick (shelfTick u)) f = feed u f := fun u => by rw [shelfTick_eq]; cases f <;> rfl
  exact (h _).trans (by cases f <;> rfl)

/-- The drone phase of a cycle: at a whole tick of `n` the two drone oscillators follow. -/
def droned (s : State) (n p : Nat) : State :=
  if n ≤ p then driveTick (feedTick { s with phase := p - n }) else { s with phase := p }

-- The kernel compares the two sides without unfolding the numerals.
theorem idle_eq : idle s = droned (counted s) droneUnit (s.phase + dronePerCc) := by
  unfold idle droned counted
  generalize droneUnit = n
  generalize dronePerCc = m
  rfl

theorem droned_cases (n p : Nat) :
    (∃ q, q = p - n ∧ n ≤ p ∧ droned s n p = driveTick (feedTick { s with phase := q })) ∨
    (∃ q, q = p ∧ p < n ∧ droned s n p = { s with phase := q }) := by
  unfold droned
  split
  · exact .inl ⟨_, rfl, ‹_›, rfl⟩
  · exact .inr ⟨_, rfl, Nat.lt_of_not_le ‹_›, rfl⟩

/-- The drone phase of the cycle reaches a whole tick, or it does not. -/
theorem idle_cases :
    (∃ q, q = s.phase + dronePerCc - droneUnit ∧ droneUnit ≤ s.phase + dronePerCc ∧
      idle s = driveTick (feedTick { counted s with phase := q })) ∨
    (∃ q, q = s.phase + dronePerCc ∧ s.phase + dronePerCc < droneUnit ∧ idle s = { counted s with phase := q }) := by
  rw [idle_eq]
  exact droned_cases (counted s) droneUnit (s.phase + dronePerCc)

/-- An idle cycle moves counts of time alone. -/
@[simp] theorem idle_timeless : (idle s).timeless = s.timeless := by
  rcases idle_cases s with ⟨q, _, _, e⟩ | ⟨q, _, _, e⟩ <;> simp [e]

/-- The ticks of the two drone oscillators move no more than the drone counts and the cool-downs of the feeds. -/
theorem ticks_eq : ∃ dF dD fA fB, driveTick (feedTick s) =
    { s with droneF := dF, droneD := dD, feedA := fA, feedB := fB } ∧ (dF = s.droneF ∨ dF = s.droneF + 1) ∧
      (fA = s.feedA ∨ fA = coolTick s.feedA) ∧ (fB = s.feedB ∨ fB = coolTick s.feedB) := by
  have hd : ∀ u : State, ∃ d, driveTick u = { u with droneD := d } := fun u => by
    unfold driveTick; split <;> exact ⟨_, rfl⟩
  obtain ⟨dD, e⟩ := hd (feedTick s)
  rw [e]
  unfold feedTick
  split
  · exact ⟨_, _, _, _, rfl, .inl rfl, .inl rfl, .inl rfl⟩
  · dsimp only
    split
    · exact ⟨_, _, _, _, rfl, .inr rfl, .inr rfl, .inr rfl⟩
    · exact ⟨_, _, _, _, rfl, .inr rfl, .inl rfl, .inl rfl⟩

theorem idle_now : (idle s).now = s.now + 1 := by
  rcases idle_cases s with ⟨q, _, _, e⟩ | ⟨q, _, _, e⟩
  · obtain ⟨_, _, _, _, et, _⟩ := ticks_eq { counted s with phase := q }
    rw [e, et]; exact counted_now s
  · rw [e]; exact counted_now s

theorem idle_reeds : (idle s).reeds = (settleTick (powerTick s)).reeds := by
  rcases idle_cases s with ⟨q, _, _, e⟩ | ⟨q, _, _, e⟩
  · obtain ⟨_, _, _, _, et, _⟩ := ticks_eq { counted s with phase := q }
    rw [e, et]; exact counted_reeds s
  · rw [e]; exact counted_reeds s

theorem feed_idle (f : Feed) : feed (idle s) f = feed s f ∨ feed (idle s) f = coolTick (feed s f) := by
  rcases idle_cases s with ⟨q, _, _, e⟩ | ⟨q, _, _, e⟩
  · obtain ⟨_, _, _, _, et, _, ha, hb⟩ := ticks_eq { counted s with phase := q }
    rw [e, et, ← feed_counted s f]
    cases f
    · exact ha
    · exact hb
  · exact .inl (by rw [e, ← feed_counted s f]; cases f <;> rfl)

theorem coolTick_state (g : FeedSt) : (coolTick g).state = g.state := by unfold coolTick; split <;> rfl
theorem coolTick_gateEnh (g : FeedSt) : (coolTick g).gateEnh = g.gateEnh := by unfold coolTick; split <;> rfl

/-- A table whose entries are each changed by `f`, which leaves their keys, reads at a key what it read, changed by `f`, or the
default. -/
theorem tabGet_map {α : Type} (d : Nat → α) (f : Nat × α → Nat × α) (P : α → α → Prop) (hd : ∀ v, P v v)
    (hf : ∀ p, (f p).1 = p.1 ∧ P p.2 (f p).2) (l : Tab α) (k : Nat) : P (tabGet d l k) (tabGet d (l.map f) k) := by
  induction l with
  | nil => exact hd _
  | cons p l ih =>
    obtain ⟨h1, h2⟩ := hf p
    show P (if k = p.1 then p.2 else tabGet d l k) (if k = (f p).1 then (f p).2 else tabGet d (l.map f) k)
    rw [h1]
    split
    · exact h2
    · exact ih

/-- Of a reed only the cycle from which its settle hold counts may move (R338). -/
theorem reed_idle (r : Nat) : reed (idle s) r = { reed s r with settleFrom := (reed (idle s) r).settleFrom } := by
  unfold reed
  rw [idle_reeds]
  refine tabGet_map _ _ (fun v w => w = { v with settleFrom := w.settleFrom }) (fun _ => rfl) (fun p => ?_) s.reeds r
  split <;> exact ⟨rfl, rfl⟩

/-- Settles O2: an idle cycle moves counts of time, and of those that show none but the cool-downs and the settle holds. -/
theorem idleIsOneCycle : Obligations.IdleIsOneCycle := by
  intro s hp
  obtain ⟨e1, e2, e3, e4, e5, e6, e7, e8, e9, e10, e11, e12, _⟩ := parts_of_timeless (idle_timeless s)
  refine ⟨idle s, step_of_empty s hp, e1.trans hp, idle_now s, e2, e3, e4, e5, e6, e7, reed_idle s, e8, e9, e10, e11, e12,
    fun f => ?_⟩
  · rcases feed_idle s f with e | e
    · rw [e]; exact ⟨rfl, rfl⟩
    · rw [e]; exact ⟨coolTick_state _, coolTick_gateEnh _⟩

/-! ### The drone count -/

/-- A count of ticks of `U` that gains at most one while the phase wraps stays behind time that gains `M`. -/
theorem ticks_behind {U M p q d d' n : Nat} (hd : d * U + p ≤ n * M) (hq : q + U = p + M) (hF : d' ≤ d + 1) :
    d' * U + q ≤ (n + 1) * M := by
  have h : d' * U ≤ d * U + U := (Nat.mul_le_mul_right U hF).trans (Nat.succ_mul d U).le
  rw [Nat.succ_mul]
  omega

/-- An idle cycle keeps the drone count behind the time that has passed. -/
theorem clockInv_idle (h : ClockInv s) : ClockInv (idle s) := by
  obtain ⟨hp, hd⟩ := h
  unfold ClockInv
  rw [idle_now]
  rcases idle_cases s with ⟨q, hq, hu, e⟩ | ⟨q, hq, hu, e⟩
  · obtain ⟨dF, _, _, _, et, hF, _⟩ := ticks_eq { counted s with phase := q }
    have hF' : dF ≤ s.droneF + 1 := counted_droneF s ▸ hF.elim (fun h => h.le.trans (Nat.le_succ _)) Eq.le
    rw [show (idle s).phase = q from congrArg State.phase (e.trans et),
      show (idle s).droneF = dF from congrArg State.droneF (e.trans et)]
    have hq' : q + droneUnit = s.phase + dronePerCc := hq ▸ Nat.sub_add_cancel hu
    exact ⟨Nat.lt_of_add_lt_add_right (hq' ▸ Nat.add_lt_add hp (by decide)), ticks_behind hd hq' hF'⟩
  · rw [show (idle s).phase = q from congrArg State.phase e,
      show (idle s).droneF = s.droneF from (congrArg State.droneF e).trans (counted_droneF s)]
    refine ⟨hq ▸ hu, ?_⟩
    rw [hq, Nat.succ_mul, ← Nat.add_assoc]
    exact Nat.add_le_add_right hd _

/-! ### The state after reset -/

/-- Settles O3: nothing is listed in a table after reset. -/
theorem resetInvariants : Obligations.ResetInvariants := by
  refine ⟨rfl, ⟨by decide, by decide⟩, ⟨rfl, rfl, rfl, rfl, rfl, rfl⟩, fun ch hc => absurd rfl hc⟩

/-- Settles O4: an empty table reads its default at every key. -/
theorem resetValues : Obligations.ResetValues := by
  refine ⟨fun _ => rfl, fun f => ?_, rfl, rfl, rfl, rfl, rfl, fun _ => ⟨rfl, rfl⟩, fun _ => ⟨rfl, rfl⟩, rfl, fun _ => rfl⟩
  cases f <;> exact ⟨rfl, rfl⟩

end Sys2Proof.Machine
end

