-- ==== Sys2Proof/Proofs/Keeps.lean ====
section
/-! SUPPORT. The relation between the machine before and after an operation from which the statements over every command follow,
with a rule for each kind of move. -/

namespace Sys2Proof.Machine

open Sys2Proof.Safety

/-- What a command may move: one mark per part of the machine that Safety.lean names, one for the drone count, one
for taking a tag, and the slot that it may commit or make ready. -/
structure Moves where
  chans : Bool := false
  feeds : Bool := false
  rails : Bool := false
  park : Bool := false
  cal : Bool := false
  tiles : Bool := false
  slots : Bool := false
  bore : Bool := false
  drone : Bool := false
  decodes : Bool := false
  strobes : Option Nat := none
  copies : Option Nat := none

/-- The tags of the commands in flight are all different. -/
def TagsDiffer (q : CmdQ) : Prop := (q.cmds.map (·.tag)).Nodup

/-- No tag is taken: those in flight were in flight before, in their order. -/
def TagsKept (p q : CmdQ) : Prop := (q.cmds.map (·.tag)).Sublist (p.cmds.map (·.tag))

/-- What holds between the machine before and after an operation that moves no more than `may` says: the queue and the time
are as they were, canonical form and distinct tags are kept, a tag is taken and a slot is committed or made ready only where
`may` says so, and every part that `may` does not mark is as it was. -/
structure Keeps (may : Moves) (was s : State) : Prop where
  pending : s.pending = was.pending
  now : s.now = was.now
  phase : s.phase = was.phase
  droneF : may.drone = false → s.droneF = was.droneF
  canon : CanonInv was → CanonInv s
  tags : TagsDiffer was.cmdq → TagsDiffer s.cmdq
  tagsKept : may.decodes = false → TagsKept was.cmdq s.cmdq
  committed : ∀ k, (slot s k).state = .committed → (slot was k).state = .committed ∨ may.strobes = some k
  ready : ∀ k, (slot s k).ready = true → (slot was k).ready = true ∨ may.copies = some k
  chans : may.chans = false → s.chans = was.chans
  feeds : may.feeds = false → s.feedA = was.feedA ∧ s.feedB = was.feedB
  rails : may.rails = false → s.rails = was.rails
  park : may.park = false → s.park = was.park
  cal : may.cal = false → s.cal = was.cal
  tiles : may.tiles = false → s.tiles = was.tiles
  slots : may.slots = false → s.slots = was.slots
  bore : may.bore = false → s.bore = was.bore

variable {may : Moves} {was s : State}

/-- A part that is marked may end in any value. -/
theorem unmarked {b : Bool} {p : Prop} (hm : b = true) (e : b = false) : p := absurd (e.symm.trans hm) Bool.false_ne_true

theorem Keeps.rfl : Keeps may s s :=
  ⟨Eq.refl _, Eq.refl _, Eq.refl _, fun _ => Eq.refl _, id, id, fun _ => List.Sublist.refl _, fun _ => .inl, fun _ => .inl,
    fun _ => Eq.refl _,
    fun _ => ⟨Eq.refl _, Eq.refl _⟩, fun _ => Eq.refl _, fun _ => Eq.refl _, fun _ => Eq.refl _, fun _ => Eq.refl _,
    fun _ => Eq.refl _, fun _ => Eq.refl _⟩

/-- The parts of the machine that no statement over every command speaks of may take any value. -/
theorem Keeps.beside {droneD fd idl boot reeds reqs strobeAt fabWait hkAt msgAt msgNow accs thermal host flash bell power
    shelf free}
    (h : Keeps may was s) : Keeps may was { s with
      droneD := droneD, fd := fd, idl := idl, boot := boot, reeds := reeds, reqs := reqs, strobeAt := strobeAt,
      fabWait := fabWait, hkAt := hkAt, msgAt := msgAt, msgNow := msgNow, accs := accs, thermal := thermal, host := host,
      flash := flash, bell := bell, power := power, shelf := shelf, free := free } :=
  ⟨h.pending, h.now, h.phase, h.droneF, h.canon, h.tags, h.tagsKept, h.committed, h.ready, h.chans, h.feeds, h.rails,
    h.park, h.cal, h.tiles,
    h.slots, h.bore⟩

/-- A move of the feeds. -/
theorem Keeps.moveFeeds {feedA feedB droneD fd idl boot reeds reqs strobeAt fabWait hkAt msgAt msgNow accs thermal host
    flash bell power shelf free}
    (hm : may.feeds = true) (h : Keeps may was s) : Keeps may was { s with
      feedA := feedA, feedB := feedB, droneD := droneD, fd := fd, idl := idl, boot := boot, reeds := reeds, reqs := reqs,
      strobeAt := strobeAt, fabWait := fabWait, hkAt := hkAt, msgAt := msgAt, msgNow := msgNow, accs := accs, thermal :=
      thermal, host := host, flash := flash, bell := bell, power := power, shelf := shelf, free := free } :=
  ⟨h.pending, h.now, h.phase, h.droneF, h.canon, h.tags, h.tagsKept, h.committed, h.ready, h.chans, fun e => absurd
    (e.symm.trans hm) Bool.false_ne_true, h.rails, h.park, h.cal, h.tiles, h.slots, h.bore⟩

/-- A move of the rail sequencer. -/
theorem Keeps.moveRails {rails droneD fd idl boot reeds reqs strobeAt fabWait hkAt msgAt msgNow accs thermal host flash bell
    power shelf free}
    (hm : may.rails = true) (h : Keeps may was s) : Keeps may was { s with
      rails := rails, droneD := droneD, fd := fd, idl := idl, boot := boot, reeds := reeds, reqs := reqs, strobeAt :=
      strobeAt, fabWait := fabWait, hkAt := hkAt, msgAt := msgAt, msgNow := msgNow, accs := accs, thermal := thermal, host
      := host, flash := flash, bell := bell, power := power, shelf := shelf, free := free } :=
  ⟨h.pending, h.now, h.phase, h.droneF, h.canon, h.tags, h.tagsKept, h.committed, h.ready, h.chans, h.feeds, fun e => absurd
    (e.symm.trans hm) Bool.false_ne_true, h.park, h.cal, h.tiles, h.slots, h.bore⟩

/-- A move of the park unit. -/
theorem Keeps.movePark {park droneD fd idl boot reeds reqs strobeAt fabWait hkAt msgAt msgNow accs thermal host flash bell
    power shelf free}
    (hm : may.park = true) (h : Keeps may was s) : Keeps may was { s with
      park := park, droneD := droneD, fd := fd, idl := idl, boot := boot, reeds := reeds, reqs := reqs, strobeAt :=
      strobeAt, fabWait := fabWait, hkAt := hkAt, msgAt := msgAt, msgNow := msgNow, accs := accs, thermal := thermal, host
      := host, flash := flash, bell := bell, power := power, shelf := shelf, free := free } :=
  ⟨h.pending, h.now, h.phase, h.droneF, h.canon, h.tags, h.tagsKept, h.committed, h.ready, h.chans, h.feeds, h.rails, fun e
    => absurd (e.symm.trans hm) Bool.false_ne_true, h.cal, h.tiles, h.slots, h.bore⟩

/-- A move of the coefficients or of the calibration run. -/
theorem Keeps.moveCal {cal droneD fd idl boot reeds reqs strobeAt fabWait hkAt msgAt msgNow accs thermal host flash bell
    power shelf free}
    (hm : may.cal = true) (h : Keeps may was s) : Keeps may was { s with
      cal := cal, droneD := droneD, fd := fd, idl := idl, boot := boot, reeds := reeds, reqs := reqs, strobeAt := strobeAt,
      fabWait := fabWait, hkAt := hkAt, msgAt := msgAt, msgNow := msgNow, accs := accs, thermal := thermal, host := host,
      flash := flash, bell := bell, power := power, shelf := shelf, free := free } :=
  ⟨h.pending, h.now, h.phase, h.droneF, h.canon, h.tags, h.tagsKept, h.committed, h.ready, h.chans, h.feeds, h.rails,
    h.park, unmarked hm, h.tiles, h.slots, h.bore⟩

/-- A move of the Bore that keeps its canonical form. -/
theorem Keeps.moveBore {bore droneD fd idl boot reeds reqs strobeAt fabWait hkAt msgAt msgNow accs thermal host flash bell
    power shelf free}
    (hm : may.bore = true) (hw : memWf s.bore.mem = true → memWf bore.mem = true)
    (h : Keeps may was s) : Keeps may was { s with
      bore := bore, droneD := droneD, fd := fd, idl := idl, boot := boot, reeds := reeds, reqs := reqs, strobeAt :=
      strobeAt, fabWait := fabWait, hkAt := hkAt, msgAt := msgAt, msgNow := msgNow, accs := accs, thermal := thermal, host
      := host, flash := flash, bell := bell, power := power, shelf := shelf, free := free } :=
  ⟨h.pending, h.now, h.phase, h.droneF, fun c => (h.canon c).imp_left hw, h.tags, h.tagsKept, h.committed, h.ready, h.chans,
    h.feeds,
    h.rails, h.park, h.cal, h.tiles, h.slots, unmarked hm⟩

/-- A move of the command engine that takes no tag. -/
theorem Keeps.moveCmdq {cmdq droneD fd idl boot reeds reqs strobeAt fabWait hkAt msgAt msgNow accs thermal host flash bell
    power shelf free}
    (hq : TagsKept s.cmdq cmdq) (h : Keeps may was s) : Keeps may was { s with
      cmdq := cmdq, droneD := droneD, fd := fd, idl := idl, boot := boot, reeds := reeds, reqs := reqs, strobeAt :=
      strobeAt, fabWait := fabWait, hkAt := hkAt, msgAt := msgAt, msgNow := msgNow, accs := accs, thermal := thermal, host
      := host, flash := flash, bell := bell, power := power, shelf := shelf, free := free } :=
  ⟨h.pending, h.now, h.phase, h.droneF, h.canon, fun d => (h.tags d).sublist hq, fun e => hq.trans (h.tagsKept e),
    h.committed, h.ready, h.chans, h.feeds, h.rails,
    h.park, h.cal, h.tiles, h.slots, h.bore⟩

/-- A move of the registers that keeps their canonical form. -/
theorem Keeps.moveRegs {regs droneD fd idl boot reeds reqs strobeAt fabWait hkAt msgAt msgNow accs thermal host flash bell
    power shelf free}
    (hw : tabWf regReset s.regs = true → tabWf regReset regs = true) (h : Keeps may was s) : Keeps may was { s with
      regs := regs, droneD := droneD, fd := fd, idl := idl, boot := boot, reeds := reeds, reqs := reqs, strobeAt :=
      strobeAt, fabWait := fabWait, hkAt := hkAt, msgAt := msgAt, msgNow := msgNow, accs := accs, thermal := thermal, host
      := host, flash := flash, bell := bell, power := power, shelf := shelf, free := free } :=
  ⟨h.pending, h.now, h.phase, h.droneF, fun c => ⟨(h.canon c).1, hw (h.canon c).2.1, (h.canon c).2.2⟩, h.tags, h.tagsKept,
    h.committed, h.ready, h.chans, h.feeds, h.rails, h.park, h.cal, h.tiles, h.slots, h.bore⟩

/-- A move of the channels that keeps their canonical form. -/
theorem Keeps.moveChans {chans droneD fd idl boot reeds reqs strobeAt fabWait hkAt msgAt msgNow accs thermal host flash bell
    power shelf free}
    (hm : may.chans = true)
    (hw : tabWf (fun _ => ({} : ChanSt)) s.chans = true → tabWf (fun _ => ({} : ChanSt)) chans = true) (h : Keeps may was s)
    : Keeps may was { s with
      chans := chans, droneD := droneD, fd := fd, idl := idl, boot := boot, reeds := reeds, reqs := reqs, strobeAt :=
      strobeAt, fabWait := fabWait, hkAt := hkAt, msgAt := msgAt, msgNow := msgNow, accs := accs, thermal := thermal, host
      := host, flash := flash, bell := bell, power := power, shelf := shelf, free := free } :=
  ⟨h.pending, h.now, h.phase, h.droneF, fun c => (h.canon c).imp id (And.imp id (And.imp hw id)),
    h.tags, h.tagsKept, h.committed, h.ready, unmarked hm, h.feeds, h.rails,
    h.park, h.cal, h.tiles, h.slots,
    h.bore⟩

/-- A move of the tiles that keeps their canonical form. -/
theorem Keeps.moveTiles {tiles droneD fd idl boot reeds reqs strobeAt fabWait hkAt msgAt msgNow accs thermal host flash bell
    power shelf free}
    (hm : may.tiles = true)
    (hw : tabWf (fun _ => ({} : TileSt)) s.tiles = true → tabWf (fun _ => ({} : TileSt)) tiles = true) (h : Keeps may was s)
    : Keeps may was { s with
      tiles := tiles, droneD := droneD, fd := fd, idl := idl, boot := boot, reeds := reeds, reqs := reqs, strobeAt :=
      strobeAt, fabWait := fabWait, hkAt := hkAt, msgAt := msgAt, msgNow := msgNow, accs := accs, thermal := thermal, host
      := host, flash := flash, bell := bell, power := power, shelf := shelf, free := free } :=
  ⟨h.pending, h.now, h.phase, h.droneF, fun c => (h.canon c).imp id (And.imp id (And.imp id (And.imp hw id))), h.tags,
    h.tagsKept, h.committed, h.ready, h.chans, h.feeds, h.rails, h.park, h.cal, fun e => absurd (e.symm.trans hm)
    Bool.false_ne_true,
    h.slots, h.bore⟩

/-- A move of the loops that keeps their canonical form. -/
theorem Keeps.moveLoops {loops droneD fd idl boot reeds reqs strobeAt fabWait hkAt msgAt msgNow accs thermal host flash bell
    power shelf free}
    (hw : tabWf (fun _ => ({} : LoopCh)) s.loops = true → tabWf (fun _ => ({} : LoopCh)) loops = true) (h : Keeps may was s)
    : Keeps may was { s with
      loops := loops, droneD := droneD, fd := fd, idl := idl, boot := boot, reeds := reeds, reqs := reqs, strobeAt :=
      strobeAt, fabWait := fabWait, hkAt := hkAt, msgAt := msgAt, msgNow := msgNow, accs := accs, thermal := thermal, host
      := host, flash := flash, bell := bell, power := power, shelf := shelf, free := free } :=
  ⟨h.pending, h.now, h.phase, h.droneF, fun c => (h.canon c).imp id (And.imp id (And.imp id (And.imp id (And.imp hw id)))),
    h.tags, h.tagsKept, h.committed, h.ready, h.chans, h.feeds, h.rails, h.park, h.cal, h.tiles, h.slots, h.bore⟩

/-- A move of the table pages that keeps their canonical form. -/
theorem Keeps.moveTabs {tabs droneD fd idl boot reeds reqs strobeAt fabWait hkAt msgAt msgNow accs thermal host flash bell
    power shelf free}
    (hw : tabWf (fun _ => ({} : TabCmd)) s.tabs = true → tabWf (fun _ => ({} : TabCmd)) tabs = true) (h : Keeps may was s) :
    Keeps may was { s with
      tabs := tabs, droneD := droneD, fd := fd, idl := idl, boot := boot, reeds := reeds, reqs := reqs, strobeAt :=
      strobeAt, fabWait := fabWait, hkAt := hkAt, msgAt := msgAt, msgNow := msgNow, accs := accs, thermal := thermal, host
      := host, flash := flash, bell := bell, power := power, shelf := shelf, free := free } :=
  ⟨h.pending, h.now, h.phase, h.droneF, fun c => (h.canon c).imp id (And.imp id (And.imp id (And.imp id (And.imp id
    (hw))))), h.tags, h.tagsKept, h.committed, h.ready, h.chans, h.feeds, h.rails, h.park, h.cal, h.tiles, h.slots, h.bore⟩


/-- Changing the values of a canonical table and dropping those that are then the default keeps it canonical. -/
theorem tabWf_mapFilter {α : Type} [DecidableEq α] {d : α} (l : Tab α) (f : Nat × α → Nat × α) (hf : ∀ e, (f e).1 = e.1)
    (h : tabWf (fun _ => d) l = true) : tabWf (fun _ => d) ((l.map f).filter (fun e => decide (e.2 ≠ d))) = true := by
  rw [tabWf_iff] at h ⊢
  refine ⟨?_, fun e he => by simpa using (List.mem_filter.mp he).2⟩
  have hm : (l.map f).map (·.1) = l.map (·.1) := by rw [List.map_map]; exact List.map_congr_left fun e _ => hf e
  exact (hm ▸ h.1).sublist (List.filter_sublist.map _)

/-- The tags depend on the commands in flight alone. -/
theorem TagsKept.of_cmds {p q : CmdQ} (h : q.cmds = p.cmds) : TagsKept p q := by
  unfold TagsKept
  rw [h]

/-- Changing the commands in flight without changing their tags takes no tag. -/
theorem TagsKept.of_map {p q : CmdQ} {f : Cmd → Cmd} (h : q.cmds = p.cmds.map f) (hf : ∀ c, (f c).tag = c.tag) :
    TagsKept p q := by
  have e : (p.cmds.map f).map (·.tag) = p.cmds.map (·.tag) := by
    rw [List.map_map]
    exact List.map_congr_left fun c _ => hf c
  unfold TagsKept
  rw [h, e]

/-- The canonical form of the Bore depends on its bytes alone. -/
theorem memWf_of_mem {b c : Machine.Bore} (h : c.mem = b.mem) : memWf b.mem = true → memWf c.mem = true := fun w => by
  rw [h]; exact w

/-- A slot table that is cleared commits none and makes none ready. -/
theorem Keeps.clearSlots (hm : may.slots = true) (h : Keeps may was s) : Keeps may was { s with slots := [] } :=
  ⟨h.pending, h.now, h.phase, h.droneF, h.canon, h.tags, h.tagsKept,
    fun _ e => (nomatch (show SlotState.empty = .committed from e)),
    fun _ e => (nomatch (show false = true from e)), h.chans, h.feeds, h.rails, h.park, h.cal, h.tiles,
    unmarked hm, h.bore⟩

/-! ### Control -/

theorem Keeps.ite {c : Prop} [Decidable c] {t u : State} (ht : Keeps may was t) (hu : Keeps may was u) :
    Keeps may was (if c then t else u) := by
  split
  · exact ht
  · exact hu

theorem Keeps.foldl {α : Type} {f : State → α → State} {l : List α} (hf : ∀ u x, Keeps may was u → Keeps may was (f u x))
    (h : Keeps may was s) : Keeps may was (l.foldl f s) := by
  induction l generalizing s with
  | nil => exact h
  | cons x l ih => exact ih (hf _ _ h)

/-- A fold that carries more than the machine. -/
theorem Keeps.foldlWith {α β : Type} {π : β → State} {f : β → α → β} {l : List α} {b : β}
    (hf : ∀ u x, Keeps may was (π u) → Keeps may was (π (f u x))) (h : Keeps may was (π b)) : Keeps may was (π (l.foldl f
    b)) := by
  induction l generalizing b with
  | nil => exact h
  | cons x l ih => exact ih (hf _ _ h)

/-- Every next state of an outcome is one that keeps what it must. -/
structure KeepsAll (may : Moves) (was : State) (r : Result) : Prop where
  of_next : ∀ t, r = .next t → Keeps may was t

theorem Keeps.next (h : Keeps may was s) : KeepsAll may was (.next s) := ⟨fun _ e => by cases e; exact h⟩

theorem KeepsAll.ite {c : Prop} [Decidable c] {t u : Result} (ht : KeepsAll may was t) (hu : KeepsAll may was u) :
    KeepsAll may was (if c then t else u) := by
  split
  · exact ht
  · exact hu

end Sys2Proof.Machine
end

