-- ==== Sys2Proof/Proofs/KeepsFeeds.lean ====
section
/-! SUPPORT. What each function of the model keeps: the shared operations, the feeds and the rails. A lemma per function; the
hypotheses name the parts that it may move. -/

namespace Sys2Proof.Machine

open Sys2Proof.Safety

variable {may : Moves} {was : State}

theorem setReg_keeps {s : State} {off : Nat} {w : Word} (h : Keeps may was s) : Keeps may was (setReg s off w) :=
  h.moveRegs (tabWf_tabSet _ _ _ _)

theorem putReg_keeps {s : State} {off lo n v : Nat} (h : Keeps may was s) : Keeps may was (putReg s off lo n v) :=
  setReg_keeps h

theorem bumpReg_keeps {s : State} {off lo n : Nat} {k : Nat} (h : Keeps may was s) :
    Keeps may was (bumpReg s off lo n k) :=
  putReg_keeps h

theorem satReg_keeps {s : State} {off lo n : Nat} {k : Nat} (h : Keeps may was s) : Keeps may was (satReg s off lo n k) :=
  putReg_keeps h

theorem dropRegs_keeps {s : State} {r : Dom} (h : Keeps may was s) : Keeps may was (dropRegs r s) :=
  h.moveRegs (tabWf_filter _ _ _)

theorem tick_keeps {s : State} (h : Keeps may was s) : Keeps may was (tick s) :=
  Keeps.beside h

theorem sendMsi_keeps {s : State} {fn vec : Nat} (h : Keeps may was s) : Keeps may was (sendMsi s fn vec) :=
  Keeps.ite (Keeps.beside h) (Keeps.beside h)

theorem pageIrq_keeps {s : State} {page : Nat} (h : Keeps may was s) : Keeps may was (pageIrq s page) := by
  unfold pageIrq
  exact Keeps.foldl (fun _ _ hu => Keeps.ite (sendMsi_keeps hu) hu) h

theorem irqSet_keeps {s : State} {page : Nat} {bits : Word} (h : Keeps may was s) : Keeps may was (irqSet s page bits) :=
  Keeps.ite (pageIrq_keeps (setReg_keeps h)) (setReg_keeps h)

theorem sendToDrive_keeps {s : State} {f : Frame} (h : Keeps may was s) : Keeps may was (sendToDrive s f) :=
  Keeps.ite (Keeps.beside h) h

theorem sendToFeed_keeps {s : State} {f : Frame} (h : Keeps may was s) : Keeps may was (sendToFeed s f) :=
  Keeps.ite (Keeps.beside h) h

theorem bellLost_keeps {s : State} {lo n : Nat} (h : Keeps may was s) : Keeps may was (bellLost s lo n) :=
  irqSet_keeps (satReg_keeps h)

theorem bellIn_keeps {s : State} {m : Msg} (h : Keeps may was s) : Keeps may was (bellIn s m) :=
  Keeps.ite (Keeps.beside h) (Keeps.ite (bellLost_keeps (Keeps.beside h)) (Keeps.beside h))

theorem feedMsg_keeps {s : State} {m : Msg} (h : Keeps may was s) : Keeps may was (feedMsg s m) :=
  Keeps.ite (sendToDrive_keeps (sendToDrive_keeps (setReg_keeps h)))
    (Keeps.ite (satReg_keeps (Keeps.beside (setReg_keeps h))) (Keeps.beside (setReg_keeps h)))

theorem openShadow_keeps {s : State} {shid : Nat} {valve : Option Nat} (h : Keeps may was s) :
    Keeps may was (openShadow s shid valve) :=
  Keeps.beside h

theorem sentNow_keeps {s : State} {source : BitVec 13} (h : Keeps may was s) : Keeps may was (sentNow s source) :=
  Keeps.beside h

theorem postAs_keeps {s : State} {page src cls sub : Nat} {detail : Word} (h : Keeps may was s) :
    Keeps may was (postAs s page src cls sub detail) :=
  Keeps.ite h
    (Keeps.ite (feedMsg_keeps (sentNow_keeps (Keeps.ite (Keeps.beside h) h)))
    (Keeps.ite (Keeps.ite (Keeps.beside h) h)
    (bellIn_keeps
    (Keeps.ite (openShadow_keeps (sentNow_keeps (Keeps.ite (Keeps.beside h) h)))
    (sentNow_keeps (Keeps.ite (Keeps.beside h) h))))))

theorem post_keeps {s : State} {page src : Nat} {detail : Word} {sub : Nat} (h : Keeps may was s) :
    Keeps may was (post s page src detail sub) :=
  postAs_keeps h

theorem postFree_keeps {s : State} {page src : Nat} {sub : Nat} (h : Keeps may was s) :
    Keeps may was (postFree s page src sub) :=
  tick_keeps (post_keeps h)

theorem badEncoding_keeps {s : State} {page off : Nat} (h : Keeps may was s) : Keeps may was (badEncoding s page off) :=
  post_keeps h

theorem refusedCtrl_keeps {s : State} {page off : Nat} (h : Keeps may was s) : Keeps may was (refusedCtrl s page off) :=
  post_keeps h

theorem ruleZero_keeps {s : State} {off : Nat} {rules : List FieldRule} {v : Word} (h : Keeps may was s) :
    Keeps may was (ruleZero s off rules v) := by
  unfold ruleZero
  dsimp only
  split
  · exact h
  · exact putReg_keeps h

theorem writeReg_keeps {s : State} {off : Nat} {v : Word} (h : Keeps may was s) : Keeps may was (writeReg s off v) := by
  unfold writeReg
  split
  · exact h
  · exact Keeps.ite h
      (Keeps.ite (badEncoding_keeps (setReg_keeps (ruleZero_keeps h))) (setReg_keeps (ruleZero_keeps h)))

theorem useCheck_keeps {s : State} {page src : Nat} (h : Keeps may was s) : Keeps may was (useCheck s page src) :=
  (putReg_keeps h).beside

theorem setBore_keeps {s : State} {a : Nat} {w : Word} (hBore : may.bore = true) (h : Keeps may was s) :
    Keeps may was (setBore s a w) := by
  unfold setBore
  split
  · exact (useCheck_keeps h).moveBore hBore (memWf_setWordAt _ _ _)
  · exact h.moveBore hBore (memWf_setWordAt _ _ _)

theorem setBores_keeps {s : State} {a : Nat} {ws : List Word} (hBore : may.bore = true) (h : Keeps may was s) :
    Keeps may was (setBores s a ws) :=
  Keeps.foldlWith (π := Prod.fst) (fun _ _ h => setBore_keeps hBore h) h

theorem setFeed_keeps {s : State} {f : Feed} {g : FeedSt} (hFeeds : may.feeds = true) (h : Keeps may was s) :
    Keeps may was (setFeed s f g) := by
  cases f
  · exact h.moveFeeds hFeeds
  · exact h.moveFeeds hFeeds

theorem feedPush_keeps {s : State} (h : Keeps may was s) : Keeps may was (feedPush s) :=
  Keeps.ite h (sendToDrive_keeps (sendToDrive_keeps (bumpReg_keeps h)))

theorem pushIfChanged_keeps {old s : State} (h : Keeps may was s) : Keeps may was (pushIfChanged old s) :=
  Keeps.ite h (feedPush_keeps h)

theorem leaveDelay_keeps {s : State} {f : Feed} (hFeeds : may.feeds = true) (h : Keeps may was s) :
    Keeps may was (leaveDelay s f) :=
  Keeps.ite (setFeed_keeps hFeeds h) (setFeed_keeps hFeeds h)

theorem heldGoesOn_keeps {s : State} {f : Feed} (hFeeds : may.feeds = true) (h : Keeps may was s) :
    Keeps may was (heldGoesOn s f) :=
  Keeps.ite (leaveDelay_keeps hFeeds h) h

theorem measV_keeps {s : State} {f : Feed} {v : BitVec 16} (h : Keeps may was s) : Keeps may was (measV s f v) :=
  putReg_keeps h

theorem measI_keeps {s : State} {f : Feed} {i : BitVec 16} (h : Keeps may was s) : Keeps may was (measI s f i) :=
  putReg_keeps h

theorem calmI_keeps {s : State} {f : Feed} (h : Keeps may was s) : Keeps may was (calmI s f) :=
  Keeps.ite h (measI_keeps h)

theorem shareErrHolds_keeps {s : State} (h : Keeps may was s) : Keeps may was (shareErrHolds s) :=
  Keeps.beside h

theorem shareRaise_keeps {s : State} {heavier : Feed} {raise : Nat} (h : Keeps may was s) :
    Keeps may was (shareRaise s heavier raise) :=
  Keeps.beside h

theorem shareRest_keeps {s : State} (h : Keeps may was s) : Keeps may was (shareRest s) :=
  Keeps.beside h

theorem settleFeeds_keeps {old s : State} (hFeeds : may.feeds = true) (h : Keeps may was s) :
    Keeps may was (settleFeeds old s) :=
  pushIfChanged_keeps
    (shareErrHolds_keeps
    (Keeps.ite
    (Keeps.beside
    (calmI_keeps (calmI_keeps (Keeps.moveFeeds hFeeds (heldGoesOn_keeps hFeeds (heldGoesOn_keeps hFeeds h))))))
    (shareRest_keeps
    (Keeps.beside
    (calmI_keeps
    (calmI_keeps (Keeps.moveFeeds hFeeds (heldGoesOn_keeps hFeeds (heldGoesOn_keeps hFeeds h)))))))))

theorem recordTrip_keeps {s : State} {f : Feed} {k : TripKind} (h : Keeps may was s) : Keeps may was (recordTrip s f k) :=
  Keeps.ite h (Keeps.ite (postFree_keeps (Keeps.beside h)) (Keeps.ite h (Keeps.beside h)))

theorem qualify_keeps {s : State} {f : Feed} (hFeeds : may.feeds = true) (h : Keeps may was s) :
    Keeps may was (qualify s f) :=
  Keeps.ite (setFeed_keeps hFeeds h)
    (Keeps.ite (setFeed_keeps hFeeds h) (Keeps.ite (setFeed_keeps hFeeds h) (setFeed_keeps hFeeds h)))

theorem tripNotes_keeps {s : State} {f : Feed} {k : TripKind} {detail : Word} (hFeeds : may.feeds = true)
    (h : Keeps may was s) : Keeps may was (tripNotes s f k detail) := by
  unfold tripNotes
  split
  · exact recordTrip_keeps (post_keeps (setFeed_keeps hFeeds h))
  · exact recordTrip_keeps (setFeed_keeps hFeeds h)

theorem afterTrip_keeps {s : State} {f : Feed} {k : TripKind} (hFeeds : may.feeds = true) (h : Keeps may was s) :
    Keeps may was (afterTrip s f k) := by
  unfold afterTrip
  split
  · exact setFeed_keeps hFeeds h
  · exact setFeed_keeps hFeeds h
  · exact qualify_keeps hFeeds h
  · exact qualify_keeps hFeeds h
  · exact setFeed_keeps hFeeds h

theorem tripFresh_keeps {s : State} {f : Feed} {k : TripKind} {detail : Word} (hFeeds : may.feeds = true)
    (h : Keeps may was s) : Keeps may was (tripFresh s f k detail) :=
  afterTrip_keeps hFeeds
    (Keeps.ite (post_keeps (setFeed_keeps hFeeds (tripNotes_keeps hFeeds h)))
    (setFeed_keeps hFeeds (tripNotes_keeps hFeeds h)))

theorem withdraw_keeps {s : State} {page src : Nat} {sticky : Word} (h : Keeps may was s) :
    Keeps may was (withdraw s page src sticky) := by
  have hp := putReg_keeps (off := ro page 0x1C) (lo := src) (n := 1) (v := b2n (bit sticky src)) h
  unfold withdraw
  exact Keeps.ite hp.beside hp.beside

theorem recordInstead_keeps {s : State} {f : Feed} {t : TickTrip} {k : TripKind} (h : Keeps may was s) :
    Keeps may was (recordInstead s f t k) :=
  Keeps.ite (Keeps.beside h) (Keeps.ite (recordTrip_keeps h) h)

theorem tripInstead_keeps {s : State} {f : Feed} {t : TickTrip} {k : TripKind} {detail : Word}
    (hFeeds : may.feeds = true) (h : Keeps may was s) : Keeps may was (tripInstead s f t k detail) := by
  unfold tripInstead
  repeat' split
  · exact Keeps.ite
      (Keeps.ite
      (post_keeps
      (recordInstead_keeps
      (post_keeps (setFeed_keeps hFeeds (withdraw_keeps (Keeps.foldl (fun _ _ => withdraw_keeps) h))))))
      (recordInstead_keeps
      (post_keeps (setFeed_keeps hFeeds (withdraw_keeps (Keeps.foldl (fun _ _ => withdraw_keeps) h))))))
      (afterTrip_keeps hFeeds
      (Keeps.ite
      (post_keeps
      (recordInstead_keeps
      (post_keeps (setFeed_keeps hFeeds (withdraw_keeps (Keeps.foldl (fun _ _ => withdraw_keeps) h))))))
      (recordInstead_keeps
      (post_keeps (setFeed_keeps hFeeds (withdraw_keeps (Keeps.foldl (fun _ _ => withdraw_keeps) h)))))))
  · exact Keeps.ite
      (Keeps.ite
      (post_keeps
      (recordInstead_keeps
      (post_keeps (setFeed_keeps hFeeds (withdraw_keeps (Keeps.foldl (fun _ _ => withdraw_keeps) h))))))
      (recordInstead_keeps
      (post_keeps (setFeed_keeps hFeeds (withdraw_keeps (Keeps.foldl (fun _ _ => withdraw_keeps) h))))))
      (afterTrip_keeps hFeeds
      (Keeps.ite
      (post_keeps
      (recordInstead_keeps
      (post_keeps (setFeed_keeps hFeeds (withdraw_keeps (Keeps.foldl (fun _ _ => withdraw_keeps) h))))))
      (recordInstead_keeps
      (post_keeps (setFeed_keeps hFeeds (withdraw_keeps (Keeps.foldl (fun _ _ => withdraw_keeps) h)))))))
  · exact Keeps.ite
      (Keeps.ite
      (post_keeps
      (recordInstead_keeps (setFeed_keeps hFeeds (withdraw_keeps (Keeps.foldl (fun _ _ => withdraw_keeps) h)))))
      (recordInstead_keeps (setFeed_keeps hFeeds (withdraw_keeps (Keeps.foldl (fun _ _ => withdraw_keeps) h)))))
      (afterTrip_keeps hFeeds
      (Keeps.ite
      (post_keeps
      (recordInstead_keeps (setFeed_keeps hFeeds (withdraw_keeps (Keeps.foldl (fun _ _ => withdraw_keeps) h)))))
      (recordInstead_keeps (setFeed_keeps hFeeds (withdraw_keeps (Keeps.foldl (fun _ _ => withdraw_keeps) h))))))
  · exact Keeps.ite
      (Keeps.ite
      (post_keeps (recordInstead_keeps (post_keeps (setFeed_keeps hFeeds (Keeps.foldl (fun _ _ => withdraw_keeps) h)))))
      (recordInstead_keeps (post_keeps (setFeed_keeps hFeeds (Keeps.foldl (fun _ _ => withdraw_keeps) h)))))
      (afterTrip_keeps hFeeds
      (Keeps.ite
      (post_keeps
      (recordInstead_keeps (post_keeps (setFeed_keeps hFeeds (Keeps.foldl (fun _ _ => withdraw_keeps) h)))))
      (recordInstead_keeps (post_keeps (setFeed_keeps hFeeds (Keeps.foldl (fun _ _ => withdraw_keeps) h))))))
  · exact Keeps.ite
      (Keeps.ite
      (post_keeps (recordInstead_keeps (post_keeps (setFeed_keeps hFeeds (Keeps.foldl (fun _ _ => withdraw_keeps) h)))))
      (recordInstead_keeps (post_keeps (setFeed_keeps hFeeds (Keeps.foldl (fun _ _ => withdraw_keeps) h)))))
      (afterTrip_keeps hFeeds
      (Keeps.ite
      (post_keeps
      (recordInstead_keeps (post_keeps (setFeed_keeps hFeeds (Keeps.foldl (fun _ _ => withdraw_keeps) h)))))
      (recordInstead_keeps (post_keeps (setFeed_keeps hFeeds (Keeps.foldl (fun _ _ => withdraw_keeps) h))))))
  · exact Keeps.ite
      (Keeps.ite (post_keeps (recordInstead_keeps (setFeed_keeps hFeeds (Keeps.foldl (fun _ _ => withdraw_keeps) h))))
      (recordInstead_keeps (setFeed_keeps hFeeds (Keeps.foldl (fun _ _ => withdraw_keeps) h))))
      (afterTrip_keeps hFeeds
      (Keeps.ite (post_keeps (recordInstead_keeps (setFeed_keeps hFeeds (Keeps.foldl (fun _ _ => withdraw_keeps) h))))
      (recordInstead_keeps (setFeed_keeps hFeeds (Keeps.foldl (fun _ _ => withdraw_keeps) h)))))
  · exact Keeps.ite
      (Keeps.ite
      (post_keeps (recordInstead_keeps (post_keeps (setFeed_keeps hFeeds (Keeps.foldl (fun _ _ => withdraw_keeps) h)))))
      (recordInstead_keeps (post_keeps (setFeed_keeps hFeeds (Keeps.foldl (fun _ _ => withdraw_keeps) h)))))
      (afterTrip_keeps hFeeds
      (Keeps.ite
      (post_keeps
      (recordInstead_keeps (post_keeps (setFeed_keeps hFeeds (Keeps.foldl (fun _ _ => withdraw_keeps) h)))))
      (recordInstead_keeps (post_keeps (setFeed_keeps hFeeds (Keeps.foldl (fun _ _ => withdraw_keeps) h))))))
  · exact Keeps.ite
      (Keeps.ite
      (post_keeps (recordInstead_keeps (post_keeps (setFeed_keeps hFeeds (Keeps.foldl (fun _ _ => withdraw_keeps) h)))))
      (recordInstead_keeps (post_keeps (setFeed_keeps hFeeds (Keeps.foldl (fun _ _ => withdraw_keeps) h)))))
      (afterTrip_keeps hFeeds
      (Keeps.ite
      (post_keeps
      (recordInstead_keeps (post_keeps (setFeed_keeps hFeeds (Keeps.foldl (fun _ _ => withdraw_keeps) h)))))
      (recordInstead_keeps (post_keeps (setFeed_keeps hFeeds (Keeps.foldl (fun _ _ => withdraw_keeps) h))))))
  · exact Keeps.ite
      (Keeps.ite (post_keeps (recordInstead_keeps (setFeed_keeps hFeeds (Keeps.foldl (fun _ _ => withdraw_keeps) h))))
      (recordInstead_keeps (setFeed_keeps hFeeds (Keeps.foldl (fun _ _ => withdraw_keeps) h))))
      (afterTrip_keeps hFeeds
      (Keeps.ite (post_keeps (recordInstead_keeps (setFeed_keeps hFeeds (Keeps.foldl (fun _ _ => withdraw_keeps) h))))
      (recordInstead_keeps (setFeed_keeps hFeeds (Keeps.foldl (fun _ _ => withdraw_keeps) h)))))

theorem tripFeed_keeps {s : State} {f : Feed} {k : TripKind} {detail : Word} (hFeeds : may.feeds = true)
    (h : Keeps may was s) : Keeps may was (tripFeed s f k detail) := by
  unfold tripFeed
  split
  · exact tripFresh_keeps hFeeds h
  · have hi := fun t => tripInstead_keeps (t := t) (k := k) (detail := detail) (f := f) hFeeds h
    exact Keeps.ite (Keeps.ite (afterTrip_keeps hFeeds (hi _)) (hi _)) (Keeps.ite (afterTrip_keeps hFeeds h) h)

theorem feedSupply_keeps {s : State} {f : Feed} {kept : Bool} (hFeeds : may.feeds = true) (h : Keeps may was s) :
    Keeps may was (feedSupply s f kept) :=
  Keeps.ite (Keeps.beside h)
    (Keeps.ite (Keeps.beside h) (postFree_keeps (Keeps.moveFeeds hFeeds (Keeps.beside h))))

theorem execFeedSupplyStart_keeps {s : State} {f : Feed} {recordsKept : Bool} (hFeeds : may.feeds = true)
    (h : Keeps may was s) : KeepsAll may was (execFeedSupplyStart f recordsKept s) :=
  Keeps.next (feedSupply_keeps hFeeds h)

theorem enterPresent_keeps {s : State} {f : Feed} (hFeeds : may.feeds = true) (h : Keeps may was s) :
    Keeps may was (enterPresent s f) :=
  Keeps.ite (Keeps.ite (setFeed_keeps hFeeds h) (qualify_keeps hFeeds h)) h

theorem otpLoaded_keeps {s : State} {profile : BitVec 8} {crcOk : Bool} (hFeeds : may.feeds = true)
    (h : Keeps may was s) : Keeps may was (otpLoaded s profile crcOk) :=
  Keeps.ite h
    (settleFeeds_keeps hFeeds
    (enterPresent_keeps hFeeds
    (enterPresent_keeps hFeeds
    (Keeps.ite (Keeps.beside (setReg_keeps h)) (postFree_keeps (Keeps.beside (setReg_keeps h)))))))

theorem execOtpProfileLoaded_keeps {s : State} {profile : BitVec 8} {crcOk : Bool} (hFeeds : may.feeds = true)
    (h : Keeps may was s) : KeepsAll may was (execOtpProfileLoaded profile crcOk s) :=
  Keeps.next (otpLoaded_keeps hFeeds h)

theorem holdLow_keeps {s : State} {v : BitVec 12} (h : Keeps may was s) : Keeps may was (holdLow s v) :=
  Keeps.ite h (postFree_keeps (Keeps.beside h))

theorem execHoldLow_keeps {s : State} {vHold : BitVec 12} (h : Keeps may was s) :
    KeepsAll may was (execHoldLow vHold s) :=
  Keeps.next (holdLow_keeps h)

theorem supplyLost_keeps {s : State} {f : Feed} (hFeeds : may.feeds = true) (h : Keeps may was s) :
    Keeps may was (supplyLost s f) :=
  Keeps.ite (Keeps.beside h) (settleFeeds_keeps hFeeds (Keeps.moveFeeds hFeeds h))

theorem execFeedSupplyLost_keeps {s : State} {f : Feed} (hFeeds : may.feeds = true) (h : Keeps may was s) :
    KeepsAll may was (execFeedSupplyLost f s) :=
  Keeps.next (supplyLost_keeps hFeeds h)

theorem presOn_keeps {s : State} {f : Feed} (hFeeds : may.feeds = true) (h : Keeps may was s) :
    Keeps may was (presOn s f) :=
  settleFeeds_keeps hFeeds (enterPresent_keeps hFeeds (setFeed_keeps hFeeds h))

theorem execPresAsserted_keeps {s : State} {f : Feed} (hFeeds : may.feeds = true) (h : Keeps may was s) :
    KeepsAll may was (execPresAsserted f s) :=
  Keeps.next (presOn_keeps hFeeds h)

theorem presOff_keeps {s : State} {f : Feed} (hFeeds : may.feeds = true) (h : Keeps may was s) :
    Keeps may was (presOff s f) := by
  unfold presOff
  dsimp only
  split
  · exact settleFeeds_keeps hFeeds (setFeed_keeps hFeeds h)
  · exact settleFeeds_keeps hFeeds (setFeed_keeps hFeeds (setFeed_keeps hFeeds h))
  · exact settleFeeds_keeps hFeeds
      (Keeps.ite (setFeed_keeps hFeeds (setFeed_keeps hFeeds h))
      (setFeed_keeps hFeeds (tripNotes_keeps hFeeds (setFeed_keeps hFeeds h))))
  · exact settleFeeds_keeps hFeeds (tripFeed_keeps hFeeds (setFeed_keeps hFeeds h))

theorem execPresDeasserted_keeps {s : State} {f : Feed} (hFeeds : may.feeds = true) (h : Keeps may was s) :
    KeepsAll may was (execPresDeasserted f s) :=
  Keeps.next (presOff_keeps hFeeds h)

theorem windowIn_keeps {s : State} {f : Feed} {v : BitVec 16} (hFeeds : may.feeds = true) (h : Keeps may was s) :
    Keeps may was (windowIn s f v) :=
  Keeps.ite h
    (settleFeeds_keeps hFeeds
    (Keeps.ite (qualify_keeps hFeeds (setFeed_keeps hFeeds (measV_keeps h))) (setFeed_keeps hFeeds (measV_keeps h))))

theorem execWindowEnter_keeps {s : State} {f : Feed} {v : BitVec 16} (hFeeds : may.feeds = true) (h : Keeps may was s) :
    KeepsAll may was (execWindowEnter f v s) :=
  Keeps.next (windowIn_keeps hFeeds h)

theorem windowOut_keeps {s : State} {f : Feed} (hFeeds : may.feeds = true) (h : Keeps may was s) :
    Keeps may was (windowOut s f) :=
  Keeps.ite h (setFeed_keeps hFeeds h)

theorem execWindowLeave_keeps {s : State} {f : Feed} {v : BitVec 16} (hFeeds : may.feeds = true) (h : Keeps may was s) :
    KeepsAll may was (execWindowLeave f v s) :=
  Keeps.next (Keeps.ite (settleFeeds_keeps hFeeds (windowOut_keeps hFeeds (measV_keeps h))) h)

theorem uvTripFx_keeps {s : State} {f : Feed} {v : BitVec 16} (hFeeds : may.feeds = true) (h : Keeps may was s) :
    Keeps may was (uvTripFx s f v) :=
  Keeps.ite h (settleFeeds_keeps hFeeds (tripFeed_keeps hFeeds (setFeed_keeps hFeeds (measV_keeps h))))

theorem execUvTrip_keeps {s : State} {f : Feed} {v : BitVec 16} (hFeeds : may.feeds = true) (h : Keeps may was s) :
    KeepsAll may was (execUvTrip f v s) :=
  Keeps.next (uvTripFx_keeps hFeeds h)

theorem ovTripFx_keeps {s : State} {f : Feed} {v : BitVec 16} (hFeeds : may.feeds = true) (h : Keeps may was s) :
    Keeps may was (ovTripFx s f v) :=
  Keeps.ite h
    (Keeps.ite (settleFeeds_keeps hFeeds (tripFeed_keeps hFeeds (setFeed_keeps hFeeds (measV_keeps h))))
    (settleFeeds_keeps hFeeds (windowOut_keeps hFeeds (measV_keeps h))))

theorem execOvTrip_keeps {s : State} {f : Feed} {v : BitVec 16} (hFeeds : may.feeds = true) (h : Keeps may was s) :
    KeepsAll may was (execOvTrip f v s) :=
  Keeps.next (ovTripFx_keeps hFeeds h)

theorem coolDone_keeps {s : State} {f : Feed} (hFeeds : may.feeds = true) (h : Keeps may was s) :
    Keeps may was (coolDone s f) :=
  Keeps.ite h
    (settleFeeds_keeps hFeeds (Keeps.ite (qualify_keeps hFeeds (setFeed_keeps hFeeds h)) (setFeed_keeps hFeeds h)))

theorem execCooldownExpired_keeps {s : State} {f : Feed} (hFeeds : may.feeds = true) (h : Keeps may was s) :
    KeepsAll may was (execCooldownExpired f s) :=
  Keeps.next (coolDone_keeps hFeeds h)

theorem delayExpired_keeps {s : State} {f : Feed} {vFeed vSled : BitVec 16} {otherToo : Bool}
    (hFeeds : may.feeds = true) (h : Keeps may was s) : Keeps may was (delayExpired s f vFeed vSled otherToo) :=
  Keeps.ite h
    (Keeps.ite (setFeed_keeps hFeeds h) (settleFeeds_keeps hFeeds (leaveDelay_keeps hFeeds (setFeed_keeps hFeeds h))))

theorem execInsertionDelayExpired_keeps {s : State} {f : Feed} {vFeed vSled : BitVec 16} {otherToo : Bool}
    (hFeeds : may.feeds = true) (h : Keeps may was s) :
    KeepsAll may was (execInsertionDelayExpired f vFeed vSled otherToo s) :=
  Keeps.next (Keeps.ite (Keeps.beside (delayExpired_keeps hFeeds h)) (delayExpired_keeps hFeeds h))

theorem startExpired_keeps {s : State} {f : Feed} {vSled : BitVec 16} (hFeeds : may.feeds = true)
    (h : Keeps may was s) : Keeps may was (startExpired s f vSled) :=
  Keeps.ite (settleFeeds_keeps hFeeds (tripFeed_keeps hFeeds h)) h

theorem execStartTimerExpired_keeps {s : State} {f : Feed} {vSled : BitVec 16} (hFeeds : may.feeds = true)
    (h : Keeps may was s) : KeepsAll may was (execStartTimerExpired f vSled s) :=
  Keeps.next (startExpired_keeps hFeeds h)

theorem gateCheckFx_keeps {s : State} {f : Feed} {gateSrc : BitVec 16} (hFeeds : may.feeds = true)
    (h : Keeps may was s) : Keeps may was (gateCheckFx s f gateSrc) :=
  Keeps.ite (settleFeeds_keeps hFeeds (tripFeed_keeps hFeeds h)) h

theorem execGateCheckTimeout_keeps {s : State} {f : Feed} {gateSrc : BitVec 16} (hFeeds : may.feeds = true)
    (h : Keeps may was s) : KeepsAll may was (execGateCheckTimeout f gateSrc s) :=
  Keeps.next (gateCheckFx_keeps hFeeds h)

theorem vdsEnhanceFx_keeps {s : State} {f : Feed} (hFeeds : may.feeds = true) (h : Keeps may was s) :
    Keeps may was (vdsEnhanceFx s f) :=
  Keeps.ite (settleFeeds_keeps hFeeds (setFeed_keeps hFeeds h)) h

theorem execVdsEnhance_keeps {s : State} {f : Feed} (hFeeds : may.feeds = true) (h : Keeps may was s) :
    KeepsAll may was (execVdsEnhance f s) :=
  Keeps.next (vdsEnhanceFx_keeps hFeeds h)

theorem dwellDone_keeps {s : State} {f : Feed} {energyMj : BitVec 16} (hFeeds : may.feeds = true)
    (h : Keeps may was s) : Keeps may was (dwellDone s f energyMj) :=
  Keeps.ite h (settleFeeds_keeps hFeeds (setFeed_keeps hFeeds (Keeps.ite (setReg_keeps h) h)))

theorem execGateDwellDone_keeps {s : State} {f : Feed} {energyMj : BitVec 16} (hFeeds : may.feeds = true)
    (h : Keeps may was s) : KeepsAll may was (execGateDwellDone f energyMj s) :=
  Keeps.next (dwellDone_keeps hFeeds h)

theorem dwellRestart_keeps {s : State} {f : Feed} (hFeeds : may.feeds = true) (h : Keeps may was s) :
    Keeps may was (dwellRestart s f) :=
  Keeps.ite (setFeed_keeps hFeeds h) h

theorem execGateDwellRestart_keeps {s : State} {f : Feed} (hFeeds : may.feeds = true) (h : Keeps may was s) :
    KeepsAll may was (execGateDwellRestart f s) :=
  Keeps.next (dwellRestart_keeps hFeeds h)

theorem execCurrentLimitEnter_keeps {s : State} {f : Feed} {i : BitVec 16} (hFeeds : may.feeds = true)
    (h : Keeps may was s) : KeepsAll may was (execCurrentLimitEnter f i s) :=
  Keeps.next (Keeps.ite (settleFeeds_keeps hFeeds (setFeed_keeps hFeeds (measI_keeps h))) h)

theorem execCurrentLimitExit_keeps {s : State} {f : Feed} {i : BitVec 16} (hFeeds : may.feeds = true)
    (h : Keeps may was s) : KeepsAll may was (execCurrentLimitExit f i s) :=
  Keeps.next (Keeps.ite (settleFeeds_keeps hFeeds (setFeed_keeps hFeeds (measI_keeps h))) h)

theorem execTimedLimitExpired_keeps {s : State} {f : Feed} {i : BitVec 16} (hFeeds : may.feeds = true)
    (h : Keeps may was s) : KeepsAll may was (execTimedLimitExpired f i s) :=
  Keeps.next (Keeps.ite (settleFeeds_keeps hFeeds (tripFeed_keeps hFeeds (measI_keeps h))) h)

theorem fastTripFx_keeps {s : State} {f : Feed} {i : BitVec 16} (hFeeds : may.feeds = true) (h : Keeps may was s) :
    Keeps may was (fastTripFx s f i) :=
  Keeps.ite (settleFeeds_keeps hFeeds (tripFeed_keeps hFeeds (measI_keeps h))) h

theorem execFastTrip_keeps {s : State} {f : Feed} {i : BitVec 16} (hFeeds : may.feeds = true) (h : Keeps may was s) :
    KeepsAll may was (execFastTrip f i s) :=
  Keeps.next (fastTripFx_keeps hFeeds h)

theorem reverseFx_keeps {s : State} {f : Feed} {i : BitVec 16} (hFeeds : may.feeds = true) (h : Keeps may was s) :
    Keeps may was (reverseFx s f i) :=
  Keeps.ite (settleFeeds_keeps hFeeds (postFree_keeps (setFeed_keeps hFeeds (measI_keeps h)))) h

theorem execReverseCurrentTrip_keeps {s : State} {f : Feed} {i : BitVec 16} (hFeeds : may.feeds = true)
    (h : Keeps may was s) : KeepsAll may was (execReverseCurrentTrip f i s) :=
  Keeps.next (reverseFx_keeps hFeeds h)

theorem blockedBack_keeps {s : State} {f : Feed} {vFeed vSled : BitVec 16} (hFeeds : may.feeds = true)
    (h : Keeps may was s) : Keeps may was (blockedBack s f vFeed vSled) :=
  Keeps.ite (settleFeeds_keeps hFeeds (setFeed_keeps hFeeds (measV_keeps h))) h

theorem execBlockedRecover_keeps {s : State} {f : Feed} {vFeed vSled : BitVec 16} (hFeeds : may.feeds = true)
    (h : Keeps may was s) : KeepsAll may was (execBlockedRecover f vFeed vSled s) :=
  Keeps.next (blockedBack_keeps hFeeds h)

theorem execConsecCountReset_keeps {s : State} {f : Feed} (hFeeds : may.feeds = true) (h : Keeps may was s) :
    KeepsAll may was (execConsecCountReset f s) :=
  Keeps.next (Keeps.ite (setFeed_keeps hFeeds h) h)

theorem clearLatch_keeps {s : State} {f : Feed} (hFeeds : may.feeds = true) (h : Keeps may was s) :
    Keeps may was (clearLatch s f) :=
  Keeps.ite (qualify_keeps hFeeds (setFeed_keeps hFeeds h)) (setFeed_keeps hFeeds h)

theorem holdOff_keeps {s : State} {f : Feed} (hFeeds : may.feeds = true) (h : Keeps may was s) :
    Keeps may was (holdOff s f) := by
  unfold holdOff
  dsimp only
  split
  · exact setFeed_keeps hFeeds h
  · exact setFeed_keeps hFeeds h
  · exact setFeed_keeps hFeeds (setFeed_keeps hFeeds h)
  · exact tripFeed_keeps hFeeds (setFeed_keeps hFeeds h)

theorem holdEnd_keeps {s : State} {f : Feed} (hFeeds : may.feeds = true) (h : Keeps may was s) :
    Keeps may was (holdEnd s f) :=
  Keeps.ite (qualify_keeps hFeeds (setFeed_keeps hFeeds h)) (setFeed_keeps hFeeds h)

theorem fdCtrl_keeps {s : State} {f : Feed} {off lastOk clr : Bool} (hFeeds : may.feeds = true) (h : Keeps may was s) :
    Keeps may was (fdCtrl s f off lastOk clr) :=
  Keeps.ite h
    (settleFeeds_keeps hFeeds
    (Keeps.ite
    (post_keeps
    (Keeps.ite
    (Keeps.ite (Keeps.ite (clearLatch_keeps hFeeds h) h)
    (holdOff_keeps hFeeds (Keeps.ite (clearLatch_keeps hFeeds h) h)))
    (holdEnd_keeps hFeeds (Keeps.ite (clearLatch_keeps hFeeds h) h))))
    (Keeps.ite
    (Keeps.ite (Keeps.ite (clearLatch_keeps hFeeds h) h)
    (holdOff_keeps hFeeds (Keeps.ite (clearLatch_keeps hFeeds h) h)))
    (holdEnd_keeps hFeeds (Keeps.ite (clearLatch_keeps hFeeds h) h)))))

theorem execFdOff_keeps {s : State} {f : Feed} {lastOk clrLatch : Bool} (hFeeds : may.feeds = true)
    (h : Keeps may was s) : KeepsAll may was (execFdOff f lastOk clrLatch s) :=
  Keeps.next (fdCtrl_keeps hFeeds h)

theorem execFdOn_keeps {s : State} {f : Feed} {clrLatch : Bool} (hFeeds : may.feeds = true) (h : Keeps may was s) :
    KeepsAll may was (execFdOn f clrLatch s) :=
  Keeps.next (fdCtrl_keeps hFeeds h)

theorem execFdClrLatch_keeps {s : State} {f : Feed} {off : Bool} (hFeeds : may.feeds = true) (h : Keeps may was s) :
    KeepsAll may was (execFdClrLatch f off s) :=
  Keeps.next (fdCtrl_keeps hFeeds h)

theorem execFdInsDelayWrite_keeps {s : State} {f : Feed} {v : Word} (h : Keeps may was s) :
    KeepsAll may was (execFdInsDelayWrite f v s) :=
  Keeps.next (Keeps.ite (writeReg_keeps h) h)

theorem execFdFoldbackWrite_keeps {s : State} {f : Feed} {v : Word} (h : Keeps may was s) :
    KeepsAll may was (execFdFoldbackWrite f v s) :=
  Keeps.next (Keeps.ite (writeReg_keeps h) h)

theorem itripMoves_keeps {s : State} {f : Feed} (hFeeds : may.feeds = true) (h : Keeps may was s) :
    Keeps may was (itripMoves s f) :=
  Keeps.ite (setFeed_keeps hFeeds h) (setFeed_keeps hFeeds h)

theorem fastTripWrite_keeps {s : State} {f : Feed} {v : Word} (hFeeds : may.feeds = true) (h : Keeps may was s) :
    Keeps may was (fastTripWrite s f v) :=
  Keeps.ite h
    (Keeps.ite (post_keeps h) (pushIfChanged_keeps (itripMoves_keeps hFeeds (writeReg_keeps h))))

theorem execFdFastTripWrite_keeps {s : State} {f : Feed} {v : Word} (hFeeds : may.feeds = true) (h : Keeps may was s) :
    KeepsAll may was (execFdFastTripWrite f v s) :=
  Keeps.next (fastTripWrite_keeps hFeeds h)

theorem execItripComparatorMove_keeps {s : State} {f : Feed} (hFeeds : may.feeds = true) (h : Keeps may was s) :
    KeepsAll may was (execItripComparatorMove f s) := by
  unfold execItripComparatorMove
  split
  · exact Keeps.next (setFeed_keeps hFeeds h)
  · exact Keeps.next h

theorem execFdSagWrite_keeps {s : State} {f : Feed} {v : Word} (h : Keeps may was s) :
    KeepsAll may was (execFdSagWrite f v s) :=
  Keeps.next (Keeps.ite (writeReg_keeps h) h)

theorem trReleaseFx_keeps {s : State} {arm : Bool} (h : Keeps may was s) : Keeps may was (trReleaseFx s arm) :=
  Keeps.ite h (Keeps.beside (putReg_keeps h))

theorem execTrRelease_keeps {s : State} {arm : Bool} (h : Keeps may was s) : KeepsAll may was (execTrRelease arm s) :=
  Keeps.next (trReleaseFx_keeps h)

theorem trRdData_keeps {s : State} (h : Keeps may was s) : Keeps may was (trRdData s).2 :=
  putReg_keeps h

theorem execTrRdDataRead_keeps {s : State} (h : Keeps may was s) : KeepsAll may was (execTrRdDataRead s) :=
  Keeps.next (Keeps.beside (trRdData_keeps h))

theorem shareNow_keeps {s : State} {permille : BitVec 10} (h : Keeps may was s) : Keeps may was (shareNow s permille) :=
  putReg_keeps h

theorem settleShare_keeps {old s : State} (h : Keeps may was s) : Keeps may was (settleShare old s) :=
  pushIfChanged_keeps (shareErrHolds_keeps h)

theorem raiseBelow_keeps {s : State} {bound : Nat} (h : Keeps may was s) : Keeps may was (raiseBelow s bound) :=
  tick_keeps (shareRaise_keeps h)

theorem leaveRebalance_keeps {s : State} (h : Keeps may was s) : Keeps may was (leaveRebalance s) :=
  settleShare_keeps (Keeps.beside (Keeps.ite h (raiseBelow_keeps h)))

theorem execRebalanceSettled_keeps {s : State} {permille : BitVec 10} (h : Keeps may was s) :
    KeepsAll may was (execRebalanceSettled permille s) :=
  Keeps.next (Keeps.ite (leaveRebalance_keeps (shareNow_keeps h)) h)

theorem execRebalanceTimeout_keeps {s : State} (h : Keeps may was s) : KeepsAll may was (execRebalanceTimeout s) :=
  Keeps.next (Keeps.ite (leaveRebalance_keeps h) h)

theorem execAtLimitSet_keeps {s : State} (h : Keeps may was s) : KeepsAll may was (execAtLimitSet s) :=
  Keeps.next (Keeps.ite (settleShare_keeps (Keeps.beside (shareRaise_keeps h))) h)

theorem execAtLimitClear_keeps {s : State} (h : Keeps may was s) : KeepsAll may was (execAtLimitClear s) :=
  Keeps.next (Keeps.ite (settleShare_keeps (Keeps.beside (Keeps.ite (raiseBelow_keeps h) h))) h)

theorem shCtrl_keeps {s : State} {v : Word} (h : Keeps may was s) : Keeps may was (shCtrl s v) :=
  Keeps.ite h
    (Keeps.ite (Keeps.ite (writeReg_keeps h) (shareRest_keeps (writeReg_keeps h)))
    (settleShare_keeps (Keeps.beside (Keeps.ite (writeReg_keeps h) (shareRest_keeps (writeReg_keeps h))))))

theorem execShCtrlWrite_keeps {s : State} {v : Word} (h : Keeps may was s) : KeepsAll may was (execShCtrlWrite v s) :=
  Keeps.next (shCtrl_keeps h)

theorem execShareErr_keeps {s : State} {permille : BitVec 10} (h : Keeps may was s) :
    KeepsAll may was (execShareErr permille s) :=
  Keeps.next (Keeps.ite (postFree_keeps (Keeps.beside (shareNow_keeps h))) h)

theorem execSagDetect_keeps {s : State} {f : Feed} {v : BitVec 16} (hFeeds : may.feeds = true) (h : Keeps may was s) :
    KeepsAll may was (execSagDetect f v s) :=
  Keeps.next (Keeps.ite (pushIfChanged_keeps (setFeed_keeps hFeeds (measV_keeps h))) h)

theorem execSagSustained_keeps {s : State} {f : Feed} {v : BitVec 16} (hFeeds : may.feeds = true)
    (h : Keeps may was s) : KeepsAll may was (execSagSustained f v s) :=
  Keeps.next (Keeps.ite (pushIfChanged_keeps (post_keeps (setFeed_keeps hFeeds (measV_keeps h)))) h)

theorem execSagClear_keeps {s : State} {f : Feed} {v : BitVec 16} (hFeeds : may.feeds = true) (h : Keeps may was s) :
    KeepsAll may was (execSagClear f v s) :=
  Keeps.next (Keeps.ite (measV_keeps h) (pushIfChanged_keeps (setFeed_keeps hFeeds (measV_keeps h))))

theorem execBusSagSet_keeps {s : State} {vSled : BitVec 16} (h : Keeps may was s) :
    KeepsAll may was (execBusSagSet vSled s) :=
  Keeps.next (Keeps.ite (pushIfChanged_keeps (postFree_keeps (Keeps.beside h))) h)

theorem execBusSagClear_keeps {s : State} {vSled : BitVec 16} (h : Keeps may was s) :
    KeepsAll may was (execBusSagClear vSled s) :=
  Keeps.next (Keeps.ite h (pushIfChanged_keeps (Keeps.beside h)))

theorem frst_keeps {s : State} (hFeeds : may.feeds = true) (h : Keeps may was s) : Keeps may was (frst s) :=
  Keeps.ite h
    (feedPush_keeps
    (shareErrHolds_keeps
    (Keeps.ite
    (Keeps.beside
    (Keeps.beside
    (itripMoves_keeps hFeeds
    (itripMoves_keeps hFeeds (putReg_keeps (putReg_keeps (putReg_keeps (dropRegs_keeps h))))))))
    (Keeps.beside
    (itripMoves_keeps hFeeds
    (itripMoves_keeps hFeeds (putReg_keeps (putReg_keeps (putReg_keeps (dropRegs_keeps h))))))))))

theorem execFsReset_keeps {s : State} {v : Word} (hFeeds : may.feeds = true) (h : Keeps may was s) :
    KeepsAll may was (execFsReset v s) :=
  Keeps.next (Keeps.ite (frst_keeps hFeeds h) h)

theorem execFeedWatchdogReset_keeps {s : State} (hFeeds : may.feeds = true) (h : Keeps may was s) :
    KeepsAll may was (execFeedWatchdogReset s) :=
  Keeps.next (frst_keeps hFeeds h)

theorem railFailed_keeps {s : State} {src : Nat} {rail : Rail} (hRails : may.rails = true) (h : Keeps may was s) :
    Keeps may was (railFailed s src rail) :=
  postFree_keeps (Keeps.moveRails hRails h)

theorem execRailSeqStart_keeps {s : State} (hRails : may.rails = true) (h : Keeps may was s) :
    KeepsAll may was (execRailSeqStart s) :=
  Keeps.next (Keeps.ite (Keeps.moveRails hRails h) h)

theorem execRailStepDone_keeps {s : State} (hRails : may.rails = true) (h : Keeps may was s) :
    KeepsAll may was (execRailStepDone s) :=
  Keeps.next (Keeps.moveRails hRails h)

theorem execRailPgTimeout_keeps {s : State} {rail : Rail} (hRails : may.rails = true) (h : Keeps may was s) :
    KeepsAll may was (execRailPgTimeout rail s) := by
  unfold execRailPgTimeout
  split
  · exact Keeps.next (Keeps.ite (railFailed_keeps hRails h) h)
  · exact Keeps.next h

theorem execRailPgFall_keeps {s : State} {rail : Rail} (hRails : may.rails = true) (h : Keeps may was s) :
    KeepsAll may was (execRailPgFall rail s) :=
  Keeps.next (Keeps.ite (railFailed_keeps hRails h) h)

theorem hvLostFx_keeps {s : State} {v : Valve} (hRails : may.rails = true) (h : Keeps may was s) :
    Keeps may was (hvLostFx s v) :=
  Keeps.ite h (Keeps.ite (railFailed_keeps hRails h) (postFree_keeps (Keeps.moveRails hRails h)))

theorem execHvLost_keeps {s : State} {v : Valve} (hRails : may.rails = true) (h : Keeps may was s) :
    KeepsAll may was (execHvLost v s) :=
  Keeps.next (hvLostFx_keeps hRails h)

theorem execRailLost_keeps {s : State} {rail : Rail} (hRails : may.rails = true) (h : Keeps may was s) :
    KeepsAll may was (execRailLost rail s) :=
  Keeps.next (Keeps.ite (railFailed_keeps hRails h) h)

theorem downStepFx_keeps {s : State} (hRails : may.rails = true) (h : Keeps may was s) : Keeps may was (downStepFx s) :=
  Keeps.ite h
    (Keeps.ite (Keeps.moveRails hRails h)
    (Keeps.ite (postFree_keeps (Keeps.moveRails hRails h)) (Keeps.moveRails hRails h)))

theorem execDownSeqStep_keeps {s : State} (hRails : may.rails = true) (h : Keeps may was s) :
    KeepsAll may was (execDownSeqStep s) :=
  Keeps.next (downStepFx_keeps hRails h)

theorem execRetryWaitExpired_keeps {s : State} (hRails : may.rails = true) (h : Keeps may was s) :
    KeepsAll may was (execRetryWaitExpired s) :=
  Keeps.next (Keeps.ite (Keeps.moveRails hRails h) h)

theorem execRailConsecReset_keeps {s : State} (hRails : may.rails = true) (h : Keeps may was s) :
    KeepsAll may was (execRailConsecReset s) :=
  Keeps.next (Keeps.ite (Keeps.moveRails hRails h) h)

theorem execPgIbLossEnablesDrop_keeps {s : State} (hRails : may.rails = true) (h : Keeps may was s) :
    KeepsAll may was (execPgIbLossEnablesDrop s) :=
  Keeps.next (Keeps.ite h (Keeps.moveRails hRails h))

theorem psRefused_keeps {s : State} {v : Nat} (h : Keeps may was s) : Keeps may was (psRefused s v) :=
  post_keeps h

theorem psStopped_keeps {s : State} {r : RailSeq} (hRails : may.rails = true) (h : Keeps may was s) :
    Keeps may was (psStopped s r) :=
  postFree_keeps (Keeps.moveRails hRails h)

theorem psStop_keeps {s : State} (hRails : may.rails = true) (h : Keeps may was s) : Keeps may was (psStop s) := by
  unfold psStop
  repeat' split
  · exact h
  · exact psStopped_keeps hRails h
  · exact psStopped_keeps hRails h
  · exact psStopped_keeps hRails h
  · exact psStopped_keeps hRails h
  · exact psStopped_keeps hRails h
  · exact psRefused_keeps h

theorem execPsStop_keeps {s : State} (hRails : may.rails = true) (h : Keeps may was s) :
    KeepsAll may was (execPsStop s) :=
  Keeps.next (psStop_keeps hRails h)

theorem psStart_keeps {s : State} (hRails : may.rails = true) (h : Keeps may was s) : Keeps may was (psStart s) :=
  Keeps.ite h (Keeps.ite (Keeps.moveRails hRails h) (psRefused_keeps h))

theorem execPsStart_keeps {s : State} (hRails : may.rails = true) (h : Keeps may was s) :
    KeepsAll may was (execPsStart s) :=
  Keeps.next (psStart_keeps hRails h)

theorem psClrLatch_keeps {s : State} (hRails : may.rails = true) (h : Keeps may was s) : Keeps may was (psClrLatch s) :=
  Keeps.ite h (Keeps.ite (Keeps.moveRails hRails h) (psRefused_keeps h))

theorem execPsClrLatch_keeps {s : State} (hRails : may.rails = true) (h : Keeps may was s) :
    KeepsAll may was (execPsClrLatch s) :=
  Keeps.next (psClrLatch_keeps hRails h)

theorem psCtrl_keeps {s : State} {v : Word} (hRails : may.rails = true) (h : Keeps may was s) :
    Keeps may was (psCtrl s v) := by
  unfold psCtrl
  split
  · exact h
  · exact psStop_keeps hRails h
  · exact psStart_keeps hRails h
  · exact psClrLatch_keeps hRails h
  · exact Keeps.ite (badEncoding_keeps h) h

theorem execDtinArmed_keeps {s : State} (hRails : may.rails = true) (h : Keeps may was s) :
    KeepsAll may was (execDtinArmed s) :=
  Keeps.next (Keeps.ite (Keeps.moveRails hRails h) h)

theorem tCrit_keeps {s : State} (hRails : may.rails = true) (h : Keeps may was s) : Keeps may was (tCrit s) := by
  have ht := tick_keeps h
  unfold tCrit
  exact Keeps.ite h (Keeps.ite ht (postFree_keeps (ht.moveRails hRails)))

theorem execTCritStop_keeps {s : State} (hRails : may.rails = true) (h : Keeps may was s) :
    KeepsAll may was (execTCritStop s) :=
  Keeps.next (tCrit_keeps hRails h)

end Sys2Proof.Machine
end

