-- ==== Sys2Proof/Proofs/KeepsPlans.lean ====
section
/-! SUPPORT. What each function of the model keeps: the plan slots, their entries and their strobe. A lemma per function; the
hypotheses name the parts that it may move. -/

namespace Sys2Proof.Machine

open Sys2Proof.Safety

variable {may : Moves} {was : State}

theorem denied_keeps {s : State} {a : Access} {kind : Nat} (h : Keeps may was s) : Keeps may was (denied s a kind) :=
  post_keeps (setReg_keeps (bumpReg_keeps h))

theorem onVerdict_keeps {s : State} {a : Access} {v : Verdict} (h : Keeps may was s) : Keeps may was (onVerdict s a v) := by
  cases v with
  | ok => exact h
  | feed => exact post_keeps (satReg_keeps h)
  | hole | stage | domain => exact post_keeps h
  | form | mute | level | lock | slot => exact denied_keeps h

theorem guarded_keeps {s : State} {a : Access} {k : State → State} (hk : Keeps may was s → Keeps may was (k s))
    (h : Keeps may was s) : Keeps may was (guarded s a k) := by
  unfold guarded
  split
  · exact h
  · split
    · exact hk h
    · exact onVerdict_keeps h

theorem wr_keeps {s : State} {fn : Fn} {page o lvl : Nat} {k : State → State} (hk : Keeps may was s → Keeps may was (k s))
    (h : Keeps may was s) : Keeps may was (wr s fn page o lvl k) :=
  guarded_keeps hk h

theorem answer_keeps {s : State} {v : Word} {poisoned : Bool} (h : Keeps may was s) :
    Keeps may was (answer s v poisoned) :=
  Keeps.beside h

theorem rd_keeps {s : State} {fn : Fn} {page o : Nat} {k : State → Word × State}
    (hk : Keeps may was s → Keeps may was (k s).2) (h : Keeps may was s) : Keeps may was (rd s fn page o k) := by
  simp only [rd]
  split
  · exact h
  · split
    · exact answer_keeps (hk h)
    · exact answer_keeps (onVerdict_keeps h)

theorem partialLevel_keeps {s : State} {fn : Fn} {off lvl : Nat} {mask v : Word} (h : Keeps may was s) :
    Keeps may was (partialLevel s fn off lvl mask v).1 := by
  unfold partialLevel
  split
  · exact h
  · exact Keeps.ite h (denied_keeps h)

theorem setChan_keeps {s : State} {ch : Nat} {c : ChanSt} (hChans : may.chans = true) (h : Keeps may was s) :
    Keeps may was (setChan s ch c) :=
  h.moveChans hChans (tabWf_tabSet _ _ _ _)

theorem setTile_keeps {s : State} {t : Nat} {x : TileSt} (hTiles : may.tiles = true) (h : Keeps may was s) :
    Keeps may was (setTile s t x) :=
  h.moveTiles hTiles (tabWf_tabSet _ _ _ _)

theorem setReed_keeps {s : State} {r : Nat} {x : ReedSt} (h : Keeps may was s) : Keeps may was (setReed s r x) :=
  Keeps.beside h

theorem setLoopCh_keeps {s : State} {ch : Nat} {x : LoopCh} (h : Keeps may was s) : Keeps may was (setLoopCh s ch x) :=
  h.moveLoops (tabWf_tabSet _ _ _ _)

/-- A slot's new value is committed or ready only where its old one was, or where `may` says so. -/
theorem setSlot_keeps {s : State} {k : Nat} {x : SlotSt} (hSlots : may.slots = true)
    (hc : x.state = .committed → (slot was k).state = .committed ∨ may.strobes = some k)
    (hr : x.ready = true → (slot was k).ready = true ∨ may.copies = some k) (h : Keeps may was s) :
    Keeps may was (setSlot s k x) := by
  refine ⟨h.pending, h.now, h.phase, h.droneF, h.canon, h.tags, h.tagsKept, fun j => ?_, fun j => ?_, h.chans,
    h.feeds, h.rails, h.park,
    h.cal, h.tiles, unmarked hSlots, h.bore⟩
  · rw [slot_setSlot]; split
    · rename_i e; subst e; exact hc
    · exact h.committed j
  · rw [slot_setSlot]; split
    · rename_i e; subst e; exact hr
    · exact h.ready j

theorem setTab_keeps {s : State} {k : Nat} {x : TabCmd} (h : Keeps may was s) : Keeps may was (setTab s k x) :=
  h.moveTabs (tabWf_tabSet _ _ _ _)

theorem setReq_keeps {s : State} {k : Nat} {r : Req} (h : Keeps may was s) : Keeps may was (setReq s k r) :=
  Keeps.beside h

theorem delReq_keeps {s : State} {k : Nat} (h : Keeps may was s) : Keeps may was (delReq s k) :=
  Keeps.beside h

theorem setSq_keeps {s : State} {q : Nat} {x : SqSt} (h : Keeps may was s) : Keeps may was (setSq s q x) :=
  h.moveCmdq (TagsKept.of_cmds rfl)

theorem setCq_keeps {s : State} {q : Nat} {x : CqSt} (h : Keeps may was s) : Keeps may was (setCq s q x) :=
  h.moveCmdq (TagsKept.of_cmds rfl)

theorem setCmd_keeps {s : State} {c : Cmd} (h : Keeps may was s) : Keeps may was (setCmd s c) :=
  h.moveCmdq (TagsKept.of_map rfl fun _ => by
    split
    · rename_i e; exact (beq_iff_eq.mp e).symm
    · rfl)

theorem freeTag_keeps {s : State} {tag : Nat} (h : Keeps may was s) : Keeps may was (freeTag s tag) :=
  h.moveCmdq (List.filter_sublist.map _)

theorem dropTag_keeps {s : State} {tag : Nat} (h : Keeps may was s) : Keeps may was (dropTag s tag) := by
  have hq : Keeps may was { freeTag s tag with cmdq := { (freeTag s tag).cmdq with
      schedTag := (freeTag s tag).cmdq.schedTag.filter (fun p => p.2 != tag) } } :=
    (freeTag_keeps h).moveCmdq (TagsKept.of_cmds rfl)
  exact hq.moveTabs (tabWf_mapFilter _ _ (fun _ => by dsimp only; split <;> rfl))

theorem cqSignal_keeps {s : State} {q fn : Nat} {force : Bool} (h : Keeps may was s) :
    Keeps may was (cqSignal s q fn force) :=
  Keeps.ite h (Keeps.ite (setCq_keeps (sendMsi_keeps h)) h)

theorem writeCompletion_keeps {s : State} {c : Cmd} {q sct sc : Nat} {dw0 dw1 : Word} (hBore : may.bore = true)
    (h : Keeps may was s) : Keeps may was (writeCompletion s c q sct sc dw0 dw1) :=
  cqSignal_keeps
    (freeTag_keeps
    (Keeps.ite (bumpReg_keeps (bumpReg_keeps (setCq_keeps (setBores_keeps hBore (setBores_keeps hBore h)))))
    (bumpReg_keeps (setCq_keeps (setBores_keeps hBore (setBores_keeps hBore h))))))

theorem complete_keeps {s : State} {tag sct sc : Nat} {dw0 dw1 : Word} (hBore : may.bore = true) (h : Keeps may was s) :
    Keeps may was (complete s tag sct sc dw0 dw1) := by
  unfold complete
  repeat' split
  · exact h
  · exact writeCompletion_keeps hBore h
  · exact writeCompletion_keeps hBore h
  · exact setCmd_keeps h

theorem flushCq_keeps {s : State} {q : Nat} (hBore : may.bore = true) (h : Keeps may was s) :
    Keeps may was (flushCq s q) := by
  refine Keeps.foldl (fun u c hu => ?_) h
  split
  · exact complete_keeps hBore hu
  · exact hu

theorem planDone_keeps {s : State} {k : Nat} (hBore : may.bore = true) (h : Keeps may was s) :
    Keeps may was (planDone s k) :=
  Keeps.foldl (fun _ _ => complete_keeps hBore) h

theorem journal_keeps {s : State} {type : Byte} {ws : List Word} {src : Option Nat} (h : Keeps may was s) :
    Keeps may was (journal s type ws src) :=
  Keeps.beside h

theorem stageRecord_keeps {s : State} {ws : List Word} (hBore : may.bore = true) (h : Keeps may was s) :
    Keeps may was (stageRecord s ws) :=
  Keeps.beside (journal_keeps (setBores_keeps hBore h))

theorem finish_keeps {s : State} {k src : Nat} {cut : Bool} {result groups arrived : Nat} {tag : Option Nat}
    (hBore : may.bore = true) (h : Keeps may was s) :
    Keeps may was (finish s k src cut result groups arrived tag) := by
  unfold finish
  extract_lets lat jt w0 w1 t res s1 s2 s3 s4 s5 s6
  have h2 : Keeps may was s2 := putReg_keeps (putReg_keeps (putReg_keeps (putReg_keeps (bumpReg_keeps h))))
  have h5 : Keeps may was s5 := irqSet_keeps (stageRecord_keeps hBore (setReg_keeps h2))
  have h6 : Keeps may was s6 := by
    unfold s6
    split
    · exact post_keeps h5
    · exact h5
  split
  · exact complete_keeps hBore h6
  · exact h6

theorem endReq_keeps {s : State} {k result : Nat} (hBore : may.bore = true) (h : Keeps may was s) :
    Keeps may was (endReq s k result) := by
  unfold endReq
  split
  · exact h
  · exact finish_keeps hBore (Keeps.ite (bumpReg_keeps (delReq_keeps h)) (delReq_keeps h))

theorem redoSlot_keeps {s : State} {cause k : Nat} (hSlots : may.slots = true) (h : Keeps may was s) :
    Keeps may was (redoSlot s cause k) := by
  unfold redoSlot
  have hs : ∀ w d x, Keeps may was (setSlot (post (bumpReg s (ro pgPLAN 0x50) 0 16) pgPLAN 3 d) k
      { slot s k with ready := false, waitAdmit := w, work := x }) := fun _ _ _ =>
    setSlot_keeps hSlots (h.committed k) (fun e => by cases e) (post_keeps (bumpReg_keeps h))
  exact Keeps.ite (post_keeps (hs _ _ _)) (hs _ _ _)

theorem redoIf_keeps {s : State} {p : SlotSt → Bool} (hSlots : may.slots = true) (h : Keeps may was s) :
    Keeps may was (redoIf s p) :=
  Keeps.foldl (fun _ _ hu => Keeps.ite (redoSlot_keeps hSlots hu) hu) h

theorem redoAll_keeps {s : State} (hSlots : may.slots = true) (h : Keeps may was s) : Keeps may was (redoAll s) :=
  redoIf_keeps hSlots h

theorem redoTiles_keeps {s : State} {ts : List Nat} {but : Option Nat} (hSlots : may.slots = true)
    (h : Keeps may was s) : Keeps may was (redoTiles s ts but) :=
  Keeps.foldl (fun _ _ hu => Keeps.ite (redoSlot_keeps hSlots hu) hu) h

theorem redoTile_keeps {s : State} {t : Nat} (hSlots : may.slots = true) (h : Keeps may was s) :
    Keeps may was (redoTile s t) :=
  redoTiles_keeps hSlots h

theorem dropReady_keeps {s : State} (hSlots : may.slots = true) (h : Keeps may was s) : Keeps may was (dropReady s) :=
  Keeps.foldl (fun _ k hu => Keeps.ite
    (setSlot_keeps hSlots (hu.committed k) (fun e => by cases e) hu) hu) h

theorem setBase_keeps {s : State} {ch : Nat} {code : BitVec 16} (h : Keeps may was s) :
    Keeps may was (setBase s ch code) :=
  setLoopCh_keeps h

theorem parkChan_keeps {s : State} {ch : Nat} (hChans : may.chans = true) (h : Keeps may was s) :
    Keeps may was (parkChan s ch) :=
  Keeps.ite h (setChan_keeps hChans (setBase_keeps h))

theorem releaseChan_keeps {s : State} {ch : Nat} (hChans : may.chans = true) (h : Keeps may was s) :
    Keeps may was (releaseChan s ch) :=
  setChan_keeps hChans (setBase_keeps h)

theorem freezeReed_keeps {s : State} {r : Nat} {plain : Bool} (hChans : may.chans = true) (h : Keeps may was s) :
    Keeps may was (freezeReed s r plain) :=
  (setReed_keeps h).moveChans hChans (tabWf_tabMap _ _ _ _ _)

theorem clampNote_keeps {s : State} {ch : Nat} {cOld final : BitVec 16} {g : Seg} (h : Keeps may was s) :
    Keeps may was (clampNote s ch cOld final g) :=
  Keeps.ite (post_keeps (bumpReg_keeps h)) h

theorem beginEntry_keeps {s : State} {ch k : Nat} {e : Entry} (hChans : may.chans = true) (hTiles : may.tiles = true)
    (h : Keeps may was s) : Keeps may was (beginEntry s ch k e) := by
  unfold beginEntry
  refine Keeps.ite (setChan_keeps hChans h) ?_
  extract_lets s1 l s2 plain len cOld first due tg code c2 s3 s4
  have h3 : Keeps may was s3 := setChan_keeps hChans (Keeps.ite (setBase_keeps h) (setLoopCh_keeps (setBase_keeps h)))
  refine setTile_keeps hTiles ?_
  unfold s4
  split
  · exact clampNote_keeps h3
  · exact h3

theorem mapChans_keeps {s : State} {p : Nat → Bool} {f : ChanSt → ChanSt} (hChans : may.chans = true) (h : Keeps may was s) :
    Keeps may was (mapChans s p f) :=
  h.moveChans hChans (tabWf_mapFilter _ (fun e => if p (e.1 / 1024) then (e.1, f e.2) else e) (fun _ => by split <;> rfl))

theorem stopTongues_keeps {s : State} (hChans : may.chans = true) (h : Keeps may was s) : Keeps may was (stopTongues s) :=
  mapChans_keeps hChans h

theorem breathReached_keeps {s : State} {r : Nat} (hChans : may.chans = true) (hTiles : may.tiles = true)
    (h : Keeps may was s) : Keeps may was (breathReached s r) :=
  Keeps.foldl (fun _ _ => beginEntry_keeps hChans hTiles) h

theorem execBreathOffsetReached_keeps {s : State} {r : Reed} (hChans : may.chans = true) (hTiles : may.tiles = true)
    (h : Keeps may was s) : KeepsAll may was (execBreathOffsetReached r s) :=
  Keeps.next (breathReached_keeps hChans hTiles h)

theorem nextSeg_keeps {s : State} {ch : Nat} (hChans : may.chans = true) (h : Keeps may was s) :
    Keeps may was (nextSeg s ch) := by
  unfold nextSeg
  dsimp only
  repeat' split
  · exact clampNote_keeps (setChan_keeps hChans h)
  · exact h
  · exact h

theorem execTongueSegmentNext_keeps {s : State} {ch : Chan} (hChans : may.chans = true) (h : Keeps may was s) :
    KeepsAll may was (execTongueSegmentNext ch s) :=
  Keeps.next (nextSeg_keeps hChans h)

theorem endTongue_keeps {s : State} {ch : Nat} (hChans : may.chans = true) (h : Keeps may was s) :
    Keeps may was (endTongue s ch) :=
  setChan_keeps hChans h

theorem execTongueEnd_keeps {s : State} {ch : Chan} (hChans : may.chans = true) (h : Keeps may was s) :
    KeepsAll may was (execTongueEnd ch s) :=
  Keeps.next (endTongue_keeps hChans h)

theorem coreRestart_keeps {s : State} (hBore : may.bore = true) (h : Keeps may was s) : Keeps may was (coreRestart s) :=
  Keeps.ite h
    (Keeps.foldl (fun _ _ a => dropTag_keeps (complete_keeps hBore (post_keeps a)))
    (putReg_keeps (Keeps.beside (post_keeps h))))

theorem borePost_keeps {s : State} {src : Nat} {detail : Word} (h : Keeps may was s) :
    Keeps may was (borePost s src detail) :=
  post_keeps h

theorem hardFail_keeps {s : State} {a : Nat} (hBore : may.bore = true) (h : Keeps may was s) :
    Keeps may was (hardFail s a) :=
  Keeps.ite
    (Keeps.ite (post_keeps (borePost_keeps (journal_keeps (Keeps.moveBore hBore (fun a => a) h))))
    (borePost_keeps (journal_keeps (Keeps.moveBore hBore (fun a => a) h))))
    (Keeps.ite (Keeps.moveBore hBore (fun a => a) h) (Keeps.ite h (Keeps.moveBore hBore (fun a => a) h)))

theorem regionNote_keeps {s : State} {a : Nat} (h : Keeps may was s) : Keeps may was (regionNote s a) := by
  unfold regionNote
  split
  · exact post_keeps h
  · exact post_keeps h
  · exact post_keeps (setReed_keeps h)
  · exact h

theorem markBad_keeps {s : State} {a : Nat} (hBore : may.bore = true) (h : Keeps may was s) :
    Keeps may was (State.markBad s a) :=
  Keeps.ite h (Keeps.moveBore hBore (fun a => a) h)

theorem parFail_keeps {s : State} {a : Nat} (hBore : may.bore = true) (h : Keeps may was s) :
    Keeps may was (parFail s a).1 := by
  unfold parFail
  extract_lets r addr s1 s2 s3
  have h2 : Keeps may was s2 :=
    Keeps.ite (coreRestart_keeps hBore (hardFail_keeps hBore (Keeps.ite h (setReg_keeps h))))
      (hardFail_keeps hBore (Keeps.ite h (setReg_keeps h)))
  have h3 : Keeps may was s3 := borePost_keeps (bumpReg_keeps h2)
  split
  · split
    · exact h3.moveBore hBore (memWf_setWordAt _ _ _)
    · exact markBad_keeps hBore h3
  · dsimp only
    exact borePost_keeps (bumpReg_keeps (markBad_keeps hBore h2))

theorem parRead_keeps {s : State} {a : Nat} (hBore : may.bore = true) (h : Keeps may was s) :
    Keeps may was (parRead s a).1 := by
  unfold parRead
  split
  · exact parFail_keeps hBore h
  · exact h

theorem parReads_keeps {s : State} {a n : Nat} (hBore : may.bore = true) (h : Keeps may was s) :
    Keeps may was (parReads s a n).1 := by
  unfold parReads
  split
  · exact h
  · exact regionNote_keeps (Keeps.foldlWith (π := Prod.fst) (fun _ _ hu => parFail_keeps hBore hu) h)

theorem parSpan_keeps {s : State} {a len : Nat} (hBore : may.bore = true) (h : Keeps may was s) :
    Keeps may was (parSpan s a len).1 :=
  Keeps.foldlWith (π := Prod.fst) (fun _ _ hu => parRead_keeps hBore hu) h

theorem execBankRetentionEnter_keeps {s : State} {bank : Fin 16} (hBore : may.bore = true) (h : Keeps may was s) :
    KeepsAll may was (execBankRetentionEnter bank s) :=
  KeepsAll.ite (Keeps.next (Keeps.moveBore hBore (fun a => a) h)) (Keeps.next h)

theorem execBankWake_keeps {s : State} {bank : Fin 16} (hBore : may.bore = true) (h : Keeps may was s) :
    KeepsAll may was (execBankWake bank s) :=
  Keeps.next (Keeps.moveBore hBore (fun a => a) h)

theorem bellDrain_keeps {s : State} (hBore : may.bore = true) (h : Keeps may was s) : Keeps may was (bellDrain s) :=
  Keeps.beside (Keeps.foldl (fun _ _ => setBores_keeps hBore) h)

theorem execBoreInitDone_keeps {s : State} (hBore : may.bore = true) (h : Keeps may was s) :
    KeepsAll may was (execBoreInitDone s) :=
  KeepsAll.ite (Keeps.next (bellDrain_keeps hBore (h.moveBore hBore (tabWf_filter _ _ _)))) (Keeps.next h)

theorem kernelRead_keeps {s : State} {i : Nat} (h : Keeps may was s) : Keeps may was (kernelRead s i).1 := by
  unfold kernelRead
  dsimp only
  repeat' split
  · exact h
  · dsimp only
    exact (post_keeps h).beside
  · dsimp only
    exact post_keeps h

theorem kernelPass_keeps {s : State} {g : Nat} (h : Keeps may was s) : Keeps may was (kernelPass s g).1 :=
  Keeps.foldlWith (π := Prod.fst) (fun _ _ hu => kernelRead_keeps hu) h

theorem compCode_keeps {s : State} {v c : Nat} {range : Bool} {r dp : Rat} (h : Keeps may was s) :
    Keeps may was (compCode s v c range r dp).1 := by
  unfold compCode
  dsimp only
  split
  · exact Keeps.ite h (post_keeps (Keeps.beside h))
  · exact tick_keeps (Keeps.ite h (post_keeps (Keeps.beside h)))

theorem xtDrop_keeps {s : State} {n : Nat} (h : Keeps may was s) : Keeps may was (xtDrop s n) :=
  Keeps.beside h

theorem compVictim_keeps {p : State × List Entry} {v : Nat} {ts : List Term} (h : Keeps may was p.1) :
    Keeps may was (compVictim p v ts).1 := by
  unfold compVictim
  dsimp only
  repeat' split
  all_goals apply_rules only [xtDrop_keeps, compCode_keeps, h]

theorem compensate_keeps {s : State} {b : Nat} {es : List Entry} (h : Keeps may was s) :
    Keeps may was (compensate s b es).1 := by
  unfold compensate
  refine Keeps.foldlWith (π := Prod.fst) (fun _ _ hu => compVictim_keeps hu)
    (Keeps.foldlWith (π := Prod.fst) (fun u e hu => ?_) h)
  dsimp only
  split
  · exact xtDrop_keeps hu
  · exact xtDrop_keeps hu

theorem kernelsPass_keeps {s : State} {es : List Entry} (h : Keeps may was s) : Keeps may was (kernelsPass s es).1 :=
  Keeps.foldlWith (π := Prod.fst) (fun _ _ hu => kernelPass_keeps hu) h

theorem resolveOne_keeps {k : Nat} {r : Resolved} {i : Nat} (hBore : may.bore = true) (h : Keeps may was r.s) :
    Keeps may was (resolveOne k r i).s := by
  unfold resolveOne
  split
  · exact h
  · extract_lets a w0 w1 ch p idx q sp
    have hp : Keeps may was p.1 := parReads_keeps hBore h
    have hq : Keeps may was q.1 := by
      unfold q
      split
      · exact hp
      · exact parReads_keeps hBore hp
    repeat' split
    · exact postFree_keeps hp
    · exact hp
    all_goals exact hq

theorem resolve_keeps {s : State} {k n : Nat} (hBore : may.bore = true) (h : Keeps may was s) :
    Keeps may was (resolve s k n).s :=
  Keeps.foldlWith (π := Resolved.s) (fun _ _ hu => resolveOne_keeps hBore hu) h

theorem rejectPlan_keeps {s : State} {k reason : Nat} {detail : Option (Nat × Nat)} (hSlots : may.slots = true)
    (hBore : may.bore = true) (h : Keeps may was s) : Keeps may was (rejectPlan s k reason detail) :=
  planDone_keeps hBore (endReq_keeps hBore (post_keeps
    (setSlot_keeps hSlots (fun e => by cases e) (fun e => by cases e) h)))

theorem rejectAdmission_keeps {s : State} {k reason : Nat} {redo : Bool} (hSlots : may.slots = true)
    (hBore : may.bore = true) (h : Keeps may was s) : Keeps may was (rejectAdmission s k reason redo) :=
  rejectPlan_keeps hSlots hBore (post_keeps h)

theorem shapesPass_keeps {s : State} {es : List Entry} (hBore : may.bore = true) (h : Keeps may was s) :
    Keeps may was (shapesPass s es).1 :=
  Keeps.foldlWith (π := Prod.fst) (fun _ _ hu => parReads_keeps hBore hu) h

theorem startAdmit_keeps {s : State} {k : Nat} (hSlots : may.slots = true) (h : Keeps may was s) :
    Keeps may was (startAdmit s k) :=
  Keeps.ite (post_keeps (setSlot_keeps hSlots (h.committed k) (h.ready k) h)) h

theorem admitWaits_keeps {s : State} (hSlots : may.slots = true) (h : Keeps may was s) : Keeps may was (admitWaits s) :=
  Keeps.foldl (fun _ _ hu => Keeps.ite (startAdmit_keeps hSlots hu) hu) h

theorem writeEntries_keeps {s : State} {k : Nat} {es : List Entry} (hBore : may.bore = true) (h : Keeps may was s) :
    Keeps may was (writeEntries s k es) :=
  Keeps.foldl (fun u _ => Keeps.foldl fun _ _ => setBores_keeps hBore) h

theorem expansionDone_keeps {s : State} {k : Nat} (hSlots : may.slots = true) (hBore : may.bore = true)
    (h : Keeps may was s) : Keeps may was (expansionDone s k) := by
  unfold expansionDone
  refine Keeps.ite h ?_
  extract_lets r _ _ s1 on kp c n _ _ s2 s3
  have hr : Keeps may was r.s := resolve_keeps hBore h
  split
  · exact rejectPlan_keeps hSlots hBore hr
  · have h1 : Keeps may was s1 := hr.beside
    have hk : Keeps may was kp.1 := by
      unfold kp
      split
      · exact kernelsPass_keeps h1
      · exact h1
    have hc : Keeps may was c.1 := by
      unfold c
      split
      · exact compensate_keeps hk
      · exact hk
    have h3 : Keeps may was s3 := putReg_keeps hc.beside
    refine Keeps.ite (rejectPlan_keeps hSlots hBore hk) (startAdmit_keeps hSlots ?_)
    exact setSlot_keeps hSlots (fun e => by cases e) (h3.ready k) (writeEntries_keeps hBore h3)

theorem execExpansionDone_keeps {s : State} {k : Slot} (hSlots : may.slots = true) (hBore : may.bore = true)
    (h : Keeps may was s) : KeepsAll may was (execExpansionDone k s) :=
  Keeps.next (expansionDone_keeps hSlots hBore h)

theorem recordAdmission_keeps {s : State} {k : Nat} {t : Trial} {groups : Nat} (h : Keeps may was s) :
    Keeps may was (recordAdmission s k t groups) :=
  setReg_keeps (setReg_keeps (setReg_keeps (setReg_keeps (setReg_keeps h))))

theorem admissionDone_keeps {s : State} {k : Nat} (hSlots : may.slots = true) (hBore : may.bore = true)
    (h : Keeps may was s) : Keeps may was (admissionDone s k) := by
  unfold admissionDone
  refine Keeps.ite h ?_
  extract_lets redo p s1 a t groups s2 s3 s4 s5 _ s6
  have h1 : Keeps may was s1 := shapesPass_keeps hBore h
  have h2 : Keeps may was s2 := recordAdmission_keeps h1
  have h5 : Keeps may was s5 := setReg_keeps (setReg_keeps (Keeps.ite h2 (putReg_keeps h2)))
  have h6 : Keeps may was s6 :=
    setSlot_keeps hSlots (fun e => by dsimp only at e; split at e <;> cases e) (h5.ready k) h5
  exact Keeps.ite (rejectAdmission_keeps hSlots hBore h1)
    (Keeps.ite (rejectAdmission_keeps hSlots hBore h2) (Keeps.ite h6 (planDone_keeps hBore h6)))

theorem execAdmissionDone_keeps {s : State} {k : Slot} (hSlots : may.slots = true) (hBore : may.bore = true)
    (h : Keeps may was s) : KeepsAll may was (execAdmissionDone k s) :=
  Keeps.next (admissionDone_keeps hSlots hBore h)

theorem execAdmissionResume_keeps {s : State} (hSlots : may.slots = true) (h : Keeps may was s) :
    KeepsAll may was (execAdmissionResume s) :=
  KeepsAll.ite (Keeps.next h) (Keeps.next (Keeps.foldl (fun _ k hu =>
    Keeps.ite (setSlot_keeps hSlots (hu.committed k) (hu.ready k) hu) hu) h))

theorem copyCounts_keeps {s : State} {es : List Entry} (h : Keeps may was s) : Keeps may was (copyCounts s es) :=
  Keeps.beside
    (Keeps.foldl (fun _ _ a => post_keeps (bumpReg_keeps a))
    (Keeps.foldl (fun _ _ a => post_keeps (bumpReg_keeps a)) h))

theorem planParityRepair_keeps {s : State} {k ch : Nat} (hSlots : may.slots = true) (hBore : may.bore = true)
    (h : Keeps may was s) : Keeps may was (planParityRepair s k ch) := by
  unfold planParityRepair
  dsimp only
  repeat' split
  · exact h
  · exact bumpReg_keeps (parFail_keeps hBore h)
  · exact parReads_keeps hBore (bumpReg_keeps (parFail_keeps hBore h))
  · exact rejectPlan_keeps hSlots hBore
      (postFree_keeps (parReads_keeps hBore (bumpReg_keeps (parFail_keeps hBore h))))

theorem planRepairs_keeps {s : State} {k : Nat} (hSlots : may.slots = true) (hBore : may.bore = true)
    (h : Keeps may was s) : Keeps may was (planRepairs s k) :=
  Keeps.foldl (fun _ _ => planParityRepair_keeps hSlots hBore) h

/-- The copy is what makes a slot ready: `may` must say so. -/
theorem copyVerified_keeps {s : State} {k : Nat} (hCopy : may.copies = some k) (hSlots : may.slots = true)
    (hBore : may.bore = true) (h : Keeps may was s) : Keeps may was (copyVerified s k) := by
  unfold copyVerified
  refine Keeps.ite h ?_
  extract_lets s1 p es s2
  have h1 : Keeps may was s1 := planRepairs_keeps hSlots hBore h
  have hp : Keeps may was p.1 := shapesPass_keeps hBore h1
  have h2 : Keeps may was s2 := copyCounts_keeps hp
  exact Keeps.ite h1 (Keeps.ite (rejectPlan_keeps hSlots hBore hp)
    (planDone_keeps hBore (setSlot_keeps hSlots (h2.committed k) (fun _ => .inr hCopy) h2)))

theorem execArmCopyVerified_keeps {s : State} {k : Slot} (hCopy : may.copies = some k.val) (hSlots : may.slots = true)
    (hBore : may.bore = true) (h : Keeps may was s) : KeepsAll may was (execArmCopyVerified k s) :=
  Keeps.next (copyVerified_keeps hCopy hSlots hBore h)

theorem execPlanParityRepair_keeps {s : State} {k : Slot} {ch : Chan} (hSlots : may.slots = true)
    (hBore : may.bore = true) (h : Keeps may was s) : KeepsAll may was (execPlanParityRepair k ch s) :=
  Keeps.next (planParityRepair_keeps hSlots hBore h)

theorem plResult_keeps {s : State} {cmd k count res : Nat} (h : Keeps may was s) :
    Keeps may was (plResult s cmd k count res) :=
  Keeps.ite (setReg_keeps h) (post_keeps (setReg_keeps h))

theorem plOpen_keeps {s : State} {k : Nat} (hSlots : may.slots = true) (h : Keeps may was s) :
    Keeps may was (plOpen s k).1 := by
  unfold plOpen
  dsimp only
  split
  · exact setSlot_keeps hSlots (fun e => by cases e) (h.ready k) h
  · exact h

theorem plStage_keeps {s : State} {k n : Nat} (hSlots : may.slots = true) (hBore : may.bore = true)
    (h : Keeps may was s) : Keeps may was (plStage s k n).1 := by
  have h1 : ∀ x : SlotSt, x.state ≠ .committed → (x.ready = true → (slot s k).ready = true) → Keeps may was (setSlot s k x) :=
    fun _ hx hr => setSlot_keeps hSlots (fun e => absurd e hx) (fun e => h.ready k (hr e)) h
  unfold plStage
  dsimp only
  repeat' split
  · exact h
  · exact h
  · exact rejectPlan_keeps hSlots hBore (h1 _ (fun e => by cases e) id)
  · exact rejectPlan_keeps hSlots hBore (h1 _ (fun e => by cases e) id)
  · exact rejectPlan_keeps hSlots hBore (resolve_keeps hBore (h1 _ (fun e => by cases e) id))
  · exact resolve_keeps hBore (h1 _ (fun e => by cases e) id)

theorem plArm_keeps {s : State} {k : Nat} (hSlots : may.slots = true) (h : Keeps may was s) :
    Keeps may was (plArm s k).1 := by
  unfold plArm
  dsimp only
  repeat' split
  · exact h
  · exact h
  · exact h
  · exact setSlot_keeps hSlots (fun e => by cases e) (fun e => by cases e) h
  · exact startAdmit_keeps hSlots (setSlot_keeps hSlots (fun e => by cases e) (fun e => by cases e) h)

theorem disarm_keeps {s : State} {k : Nat} (hSlots : may.slots = true) (hBore : may.bore = true)
    (h : Keeps may was s) : Keeps may was (disarm s k) := by
  have h1 : ∀ w, Keeps may was (endReq (setSlot s k { slot s k with state := .admitted, ready := false, work := w }) k 4) :=
    fun _ => endReq_keeps hBore (setSlot_keeps hSlots (fun e => by cases e) (fun e => by cases e) h)
  exact Keeps.ite (h1 _) (planDone_keeps hBore (h1 _))

theorem plDisarm_keeps {s : State} {k : Nat} (hSlots : may.slots = true) (hBore : may.bore = true)
    (h : Keeps may was s) : Keeps may was (plDisarm s k).1 := by
  unfold plDisarm
  dsimp only
  split
  · exact h
  · exact disarm_keeps hSlots hBore h

theorem plRelease_keeps {s : State} {k : Nat} (hSlots : may.slots = true) (hBore : may.bore = true)
    (h : Keeps may was s) : Keeps may was (plRelease s k).1 := by
  unfold plRelease
  dsimp only
  split
  · exact h
  · exact planDone_keeps hBore (endReq_keeps hBore
      (setSlot_keeps hSlots (fun e => by cases e) (fun e => by cases e) h))

theorem planCmd_keeps {s : State} {cmd k count : Nat} (hSlots : may.slots = true) (hBore : may.bore = true)
    (h : Keeps may was s) : Keeps may was (planCmd s cmd k count) := by
  unfold planCmd
  split
  · exact plResult_keeps (plOpen_keeps hSlots h)
  · exact plResult_keeps (plStage_keeps hSlots hBore h)
  · exact plResult_keeps (plArm_keeps hSlots h)
  · exact plResult_keeps (plDisarm_keeps hSlots hBore h)
  · exact plResult_keeps (plRelease_keeps hSlots hBore h)

theorem deltaStore_keeps {s : State} {off a : Nat} {data : List Word} (hBore : may.bore = true) (h : Keeps may was s) :
    Keeps may was (deltaStore s off a data) :=
  Keeps.ite (setBores_keeps hBore h) (post_keeps h)

theorem setpointStore_keeps {s : State} {off a : Nat} {data : List Word} (hBore : may.bore = true)
    (h : Keeps may was s) : Keeps may was (setpointStore s off a data) :=
  Keeps.ite (post_keeps h) (setTab_keeps (setBores_keeps hBore h))

theorem shapeStore_keeps {s : State} {off a : Nat} {w : Word} (hBore : may.bore = true) (h : Keeps may was s) :
    Keeps may was (shapeStore s off a w) :=
  Keeps.ite (post_keeps h) (setTab_keeps (setBore_keeps hBore h))

theorem shapeWritten_keeps {s : State} {as : List Nat} (hSlots : may.slots = true) (h : Keeps may was s) :
    Keeps may was (shapeWritten s as) :=
  Keeps.ite (redoAll_keeps hSlots h) h

theorem syncDrop_keeps {s : State} {result : Nat} (h : Keeps may was s) : Keeps may was (syncDrop s result) :=
  post_keeps (satReg_keeps h)

theorem commitRequest_keeps {s : State} {src k : Nat} {cut : Bool} {tag : Option Nat} (hBore : may.bore = true)
    (h : Keeps may was s) : Keeps may was (commitRequest s src k cut tag) :=
  Keeps.ite (syncDrop_keeps h)
    (Keeps.ite (finish_keeps hBore (Keeps.ite (syncDrop_keeps h) h))
    (Keeps.ite (finish_keeps hBore h)
    (Keeps.ite (finish_keeps hBore h)
    (Keeps.ite (finish_keeps hBore (Keeps.ite (syncDrop_keeps h) h)) (setReq_keeps h)))))

theorem execSyncInEdge_keeps {s : State} {falling : Bool} (hBore : may.bore = true) (h : Keeps may was s) :
    KeepsAll may was (execSyncInEdge falling s) :=
  KeepsAll.ite (Keeps.next (commitRequest_keeps hBore (Keeps.beside (Keeps.beside h))))
    (Keeps.next (Keeps.beside h))

theorem execCommitNow_keeps {s : State} {fn : Fn} {k : Slot} {cut : Bool} (hBore : may.bore = true)
    (h : Keeps may was s) : KeepsAll may was (execCommitNow fn k cut s) :=
  Keeps.next (guarded_keeps (commitRequest_keeps hBore) h)

theorem setSchedEn_keeps {s : State} {k : Nat} {on : Bool} (h : Keeps may was s) : Keeps may was (setSchedEn s k on) :=
  putReg_keeps h

theorem takeSchedTag_keeps {s : State} {k : Nat} (h : Keeps may was s) : Keeps may was (takeSchedTag s k).1 :=
  h.moveCmdq (TagsKept.of_cmds rfl)

theorem schedArm_keeps {s : State} {k : Nat} {tag : Option Nat} (hBore : may.bore = true) (h : Keeps may was s) :
    Keeps may was (schedArm s k tag).1 := by
  unfold schedArm
  dsimp only
  repeat' split
  · dsimp only
    exact finish_keeps hBore h
  · dsimp only
    exact finish_keeps hBore h
  · exact (setSchedEn_keeps h).moveCmdq (TagsKept.of_cmds rfl)
  · exact setSchedEn_keeps h

theorem execCmSchedArm_keeps {s : State} {fn : Fn} {k : Slot} (hBore : may.bore = true) (h : Keeps may was s) :
    KeepsAll may was (execCmSchedArm fn k s) :=
  Keeps.next (wr_keeps (fun _ => Keeps.ite h (schedArm_keeps hBore h)) h)

theorem schedEnd_keeps {s : State} {k result : Nat} (hBore : may.bore = true) (h : Keeps may was s) :
    Keeps may was (schedEnd s k result) :=
  finish_keeps hBore (takeSchedTag_keeps (setSchedEn_keeps h))

theorem execCmSchedCancel_keeps {s : State} {fn : Fn} {k : Slot} (hBore : may.bore = true) (h : Keeps may was s) :
    KeepsAll may was (execCmSchedCancel fn k s) :=
  Keeps.next (wr_keeps (Keeps.ite (schedEnd_keeps hBore h)) h)

theorem schedTWrite_keeps {s : State} {o : Nat} {v : Word} (h : Keeps may was s) : Keeps may was (schedTWrite s o v) :=
  Keeps.ite (post_keeps h) (writeReg_keeps h)

theorem execCmSchedTWrite_keeps {s : State} {fn : Fn} {k : Slot} {hi : Bool} {v : Word} (h : Keeps may was s) :
    KeepsAll may was (execCmSchedTWrite fn k hi v s) :=
  Keeps.next (wr_keeps schedTWrite_keeps h)

theorem schedEnWrite_keeps {s : State} {v : Word} (hBore : may.bore = true) (h : Keeps may was s) :
    Keeps may was (schedEnWrite s v) :=
  Keeps.foldl (fun _ _ a => Keeps.ite a (Keeps.ite (schedArm_keeps hBore a) (schedEnd_keeps hBore a))) h

theorem execScheduleFire_keeps {s : State} {k : Slot} (hBore : may.bore = true) (h : Keeps may was s) :
    KeepsAll may was (execScheduleFire k s) :=
  KeepsAll.ite (Keeps.next (commitRequest_keeps hBore (takeSchedTag_keeps (setSchedEn_keeps h))))
    (Keeps.next h)

theorem strobeReed_keeps {s : State} {x : SlotSt} {r : Nat} (hChans : may.chans = true) (h : Keeps may was s) :
    Keeps may was (strobeReed x s r) :=
  setReed_keeps (freezeReed_keeps hChans h)

theorem strobeEntry_keeps {s : State} {x : SlotSt} {k : Nat} {e : Entry} (hChans : may.chans = true)
    (hTiles : may.tiles = true) (h : Keeps may was s) : Keeps may was (strobeEntry x k s e) :=
  Keeps.ite h
    (Keeps.ite (beginEntry_keeps hChans hTiles (setChan_keeps hChans h)) (setChan_keeps hChans h))

theorem strobeTile_keeps {s : State} {t : Nat} (hTiles : may.tiles = true) (h : Keeps may was s) :
    Keeps may was (strobeTile s t) :=
  setTile_keeps hTiles h

/-- The strobe is what commits a slot: `may` must say so. -/
theorem strobe_keeps {s : State} {k : Nat} {r : Req} (hStrobe : may.strobes = some k) (hChans : may.chans = true)
    (hTiles : may.tiles = true) (hSlots : may.slots = true) (hBore : may.bore = true) (h : Keeps may was s) :
    Keeps may was (strobe s k r) := by
  unfold strobe
  extract_lets x tiles s1 s2 s3 s4 _ s5 s6 s7 s8 s9 s10 s11
  have h1 : Keeps may was s1 := delReq_keeps h.beside
  have h3 : Keeps may was s3 :=
    Keeps.foldl (fun _ _ hu => strobeReed_keeps hChans hu) (Keeps.ite (mapChans_keeps hChans h1) h1)
  have h4 : Keeps may was s4 := Keeps.foldl (fun _ _ hu => strobeEntry_keeps hChans hTiles hu) h3
  have h5 : Keeps may was s5 := setSlot_keeps hSlots (fun _ => .inr hStrobe) (fun e => by cases e) h4
  have h6 : Keeps may was s6 :=
    redoTiles_keeps hSlots (Keeps.foldl (fun _ _ hu => strobeTile_keeps hTiles hu) h5)
  have h9 : Keeps may was s9 := setReg_keeps (setReg_keeps (bumpReg_keeps h6))
  have h10 : Keeps may was s10 := Keeps.ite (bumpReg_keeps h9) h9
  exact finish_keeps hBore (Keeps.ite h10.beside h10)

theorem execStrobeIssue_keeps {s : State} {k : Slot} (hStrobe : may.strobes = some k.val) (hChans : may.chans = true)
    (hTiles : may.tiles = true) (hSlots : may.slots = true) (hBore : may.bore = true) (h : Keeps may was s) :
    KeepsAll may was (execStrobeIssue k s) := by
  unfold execStrobeIssue
  split
  · exact Keeps.next h
  · exact KeepsAll.ite (Keeps.next (strobe_keeps hStrobe hChans hTiles hSlots hBore h)) (Keeps.next h)

theorem execCommitTimeout_keeps {s : State} {k : Slot} (hBore : may.bore = true) (h : Keeps may was s) :
    KeepsAll may was (execCommitTimeout k s) := by
  unfold execCommitTimeout
  split
  · exact KeepsAll.ite (Keeps.next (endReq_keeps hBore h)) (Keeps.next h)
  · exact Keeps.next h

theorem breathWrite_keeps {s : State} {o : Nat} {v : Word} (hSlots : may.slots = true) (h : Keeps may was s) :
    Keeps may was (breathWrite s o v) :=
  Keeps.ite h (Keeps.ite (redoAll_keeps hSlots (writeReg_keeps h)) (writeReg_keeps h))

theorem execBreathWrite_keeps {s : State} {fn : Fn} {off : BitVec 12} {v : Word} (hSlots : may.slots = true)
    (h : Keeps may was s) : KeepsAll may was (execBreathWrite fn off v s) :=
  Keeps.next (wr_keeps (breathWrite_keeps hSlots) h)

end Sys2Proof.Machine
end

