-- ==== Sys2Proof/Proofs/KeepsOutputs.lean ====
section
/-! SUPPORT. What each function of the model keeps: the channels, the park unit and the table pages. A lemma per function; the
hypotheses name the parts that it may move. -/

namespace Sys2Proof.Machine

open Sys2Proof.Safety

variable {may : Moves} {was : State}

theorem fuseNow_keeps {s : State} {ch kind src : Nat} (hChans : may.chans = true) (h : Keeps may was s) :
    Keeps may was (fuseNow s ch kind src) :=
  Keeps.ite (post_keeps (postAs_keeps (setChan_keeps hChans h))) (postAs_keeps (setChan_keeps hChans h))

theorem limiterEngage_keeps {s : State} {ch : Nat} (hChans : may.chans = true) (h : Keeps may was s) :
    Keeps may was (limiterEngage s ch) :=
  Keeps.ite h (postAs_keeps (setChan_keeps hChans h))

theorem execLimiterEngage_keeps {s : State} {ch : Chan} (hChans : may.chans = true) (h : Keeps may was s) :
    KeepsAll may was (execLimiterEngage ch s) :=
  Keeps.next (limiterEngage_keeps hChans h)

theorem execLimiterRelease_keeps {s : State} {ch : Chan} (hChans : may.chans = true) (h : Keeps may was s) :
    KeepsAll may was (execLimiterRelease ch s) :=
  Keeps.next (setChan_keeps hChans h)

theorem execShortFuse_keeps {s : State} {ch : Chan} (hChans : may.chans = true) (h : Keeps may was s) :
    KeepsAll may was (execShortFuse ch s) :=
  KeepsAll.ite (Keeps.next (fuseNow_keeps hChans h)) (Keeps.next h)

theorem execComplDetect_keeps {s : State} {ch : Chan} (hChans : may.chans = true) (h : Keeps may was s) :
    KeepsAll may was (execComplDetect ch s) :=
  KeepsAll.ite (Keeps.next h) (Keeps.next (post_keeps (setChan_keeps hChans h)))

theorem execComplFuse_keeps {s : State} {ch : Chan} (hChans : may.chans = true) (h : Keeps may was s) :
    KeepsAll may was (execComplFuse ch s) :=
  KeepsAll.ite (Keeps.next (fuseNow_keeps hChans h)) (Keeps.next h)

theorem execComplianceCleared_keeps {s : State} {ch : Chan} (hChans : may.chans = true) (h : Keeps may was s) :
    KeepsAll may was (execComplianceCleared ch s) :=
  Keeps.next (setChan_keeps hChans h)

theorem execChConsecReset_keeps {s : State} {ch : Chan} (hChans : may.chans = true) (h : Keeps may was s) :
    KeepsAll may was (execChConsecReset ch s) :=
  KeepsAll.ite (Keeps.next (setChan_keeps hChans h)) (Keeps.next h)

theorem chCmd_keeps {s : State} {t : Nat} {all : Bool} {applies : ChanSt → Bool} {ok : State → Nat → Bool}
    {act : State → Nat → State} (ha : ∀ u c, Keeps may was u → Keeps may was (act u c)) (h : Keeps may was s) :
    Keeps may was (chCmd s t all applies ok act) := by
  simp only [chCmd]
  repeat' split
  · exact ha _ _ h
  · exact post_keeps h
  · exact Keeps.foldl ha h
  · exact post_keeps (Keeps.foldl ha h)

theorem tlChCmd_keeps {s : State} {t cmd : Nat} {all : Bool} (hChans : may.chans = true) (h : Keeps may was s) :
    Keeps may was (tlChCmd s t cmd all) := by
  unfold tlChCmd
  split
  · exact tick_keeps (chCmd_keeps (fun _ _ => releaseChan_keeps hChans) h)
  · exact tick_keeps (chCmd_keeps (fun _ _ a => setChan_keeps hChans (releaseChan_keeps hChans a)) h)
  · exact chCmd_keeps (fun _ _ => setChan_keeps hChans) h
  · exact chCmd_keeps (fun _ _ => releaseChan_keeps hChans) h
  · exact chCmd_keeps (fun _ _ => setChan_keeps hChans) h
  · exact badEncoding_keeps h

theorem execTlChRelease_keeps {s : State} {fn : Fn} {t : Tile} {all : Bool} (hChans : may.chans = true)
    (h : Keeps may was s) : KeepsAll may was (execTlChRelease fn t all s) :=
  Keeps.next (wr_keeps (tlChCmd_keeps hChans) h)

theorem execTlChUnlock_keeps {s : State} {fn : Fn} {t : Tile} {all : Bool} (hChans : may.chans = true)
    (h : Keeps may was s) : KeepsAll may was (execTlChUnlock fn t all s) :=
  Keeps.next (wr_keeps (tlChCmd_keeps hChans) h)

theorem execTlChOff_keeps {s : State} {fn : Fn} {t : Tile} {all : Bool} (hChans : may.chans = true)
    (h : Keeps may was s) : KeepsAll may was (execTlChOff fn t all s) :=
  Keeps.next (wr_keeps (tlChCmd_keeps hChans) h)

theorem execTlChOn_keeps {s : State} {fn : Fn} {t : Tile} {all : Bool} (hChans : may.chans = true)
    (h : Keeps may was s) : KeepsAll may was (execTlChOn fn t all s) :=
  Keeps.next (wr_keeps (tlChCmd_keeps hChans) h)

theorem execTlChClrFlags_keeps {s : State} {fn : Fn} {t : Tile} {all : Bool} (hChans : may.chans = true)
    (h : Keeps may was s) : KeepsAll may was (execTlChClrFlags fn t all s) :=
  Keeps.next (wr_keeps (tlChCmd_keeps hChans) h)

theorem chCfg_keeps {s : State} {fn : Fn} {t : Nat} {v : Word} (hChans : may.chans = true) (h : Keeps may was s) :
    Keeps may was (chCfg s fn t v) :=
  setChan_keeps hChans (Keeps.ite (denied_keeps h) h)

theorem execTlChCfgWrite_keeps {s : State} {fn : Fn} {t : Tile} {v : Word} (hChans : may.chans = true)
    (h : Keeps may was s) : KeepsAll may was (execTlChCfgWrite fn t v s) :=
  Keeps.next (wr_keeps (chCfg_keeps hChans) h)

theorem chPwrRead_keeps {s : State} {t : Nat} (h : Keeps may was s) : Keeps may was (chPwrRead s t).2 :=
  Keeps.ite (putReg_keeps h) h

theorem execTlChPwrRead_keeps {s : State} {fn : Fn} {t : Tile} (h : Keeps may was s) :
    KeepsAll may was (execTlChPwrRead fn t s) :=
  Keeps.next (rd_keeps chPwrRead_keeps h)

theorem execPStale_keeps {s : State} {ch : Chan} (hChans : may.chans = true) (h : Keeps may was s) :
    KeepsAll may was (execPStale ch s) :=
  Keeps.next (setChan_keeps hChans h)

theorem execICheck_keeps {s : State} {ch : Chan} (hChans : may.chans = true) (h : Keeps may was s) :
    KeepsAll may was (execICheck ch s) :=
  KeepsAll.ite (Keeps.next h) (Keeps.next (post_keeps (setChan_keeps hChans h)))

theorem valveMove_keeps {s : State} {t : Nat} {v : Valve} {st : ValveState} {i : BitVec 12} (hTiles : may.tiles = true)
    (hSlots : may.slots = true) (h : Keeps may was s) : Keeps may was (valveMove s t v st i) :=
  redoIf_keeps hSlots (setTile_keeps hTiles h)

theorem valveEvent_keeps {s : State} {t : Nat} {v : Valve} {p : ValveState → Bool} {k : State → State}
    (hk : Keeps may was s → Keeps may was (k s)) (h : Keeps may was s) : Keeps may was (valveEvent s t v p k) :=
  Keeps.ite (hk h) h

theorem valveTrip_keeps {s : State} {t : Nat} {v : Valve} {i : BitVec 12} (hTiles : may.tiles = true)
    (hSlots : may.slots = true) (h : Keeps may was s) : Keeps may was (valveTrip s t v i) :=
  post_keeps (valveMove_keeps hTiles hSlots h)

theorem execValveRejoin_keeps {s : State} {t : Tile} {v : Valve} (hTiles : may.tiles = true) (hSlots : may.slots = true)
    (h : Keeps may was s) : KeepsAll may was (execValveRejoin t v s) :=
  Keeps.next (valveEvent_keeps (valveMove_keeps hTiles hSlots) h)

theorem execValveLimitEnter_keeps {s : State} {t : Tile} {v : Valve} {i : BitVec 12} (hTiles : may.tiles = true)
    (hSlots : may.slots = true) (h : Keeps may was s) : KeepsAll may was (execValveLimitEnter t v i s) :=
  Keeps.next (valveEvent_keeps (valveMove_keeps hTiles hSlots) h)

theorem execValveLimitExit_keeps {s : State} {t : Tile} {v : Valve} {i : BitVec 12} (hTiles : may.tiles = true)
    (hSlots : may.slots = true) (h : Keeps may was s) : KeepsAll may was (execValveLimitExit t v i s) :=
  Keeps.next (valveEvent_keeps (valveMove_keeps hTiles hSlots) h)

theorem execValveLimitExpired_keeps {s : State} {t : Tile} {v : Valve} {i : BitVec 12} (hTiles : may.tiles = true)
    (hSlots : may.slots = true) (h : Keeps may was s) : KeepsAll may was (execValveLimitExpired t v i s) :=
  Keeps.next (valveEvent_keeps (valveTrip_keeps hTiles hSlots) h)

theorem execValveFastTrip_keeps {s : State} {t : Tile} {v : Valve} {i : BitVec 12} (hTiles : may.tiles = true)
    (hSlots : may.slots = true) (h : Keeps may was s) : KeepsAll may was (execValveFastTrip t v i s) :=
  Keeps.next (valveEvent_keeps (valveTrip_keeps hTiles hSlots) h)

theorem execValveReverseBlock_keeps {s : State} {t : Tile} {v : Valve} {rail : BitVec 16} (hTiles : may.tiles = true)
    (hSlots : may.slots = true) (h : Keeps may was s) : KeepsAll may was (execValveReverseBlock t v rail s) :=
  Keeps.next (valveEvent_keeps (fun _ => post_keeps (valveMove_keeps hTiles hSlots h)) h)

theorem execSoftStartDone_keeps {s : State} {t : Tile} {v : Valve} (hTiles : may.tiles = true)
    (hSlots : may.slots = true) (h : Keeps may was s) : KeepsAll may was (execSoftStartDone t v s) :=
  Keeps.next (valveEvent_keeps (valveMove_keeps hTiles hSlots) h)

theorem execSoftStartTimeout_keeps {s : State} {t : Tile} {v : Valve} {i : BitVec 12} (hTiles : may.tiles = true)
    (hSlots : may.slots = true) (h : Keeps may was s) : KeepsAll may was (execSoftStartTimeout t v i s) :=
  Keeps.next (valveEvent_keeps (valveTrip_keeps hTiles hSlots) h)

theorem valveCmd_keeps {s : State} {t : Nat} {ok : Bool} {k : State → State} (hk : Keeps may was s → Keeps may was (k s))
    (h : Keeps may was s) : Keeps may was (valveCmd s t ok k) := by
  unfold valveCmd
  split
  · exact hk h
  · exact post_keeps h

theorem valveRelease_keeps {s : State} {t : Nat} {v : Valve} {rail : Nat} (hTiles : may.tiles = true)
    (hSlots : may.slots = true) (h : Keeps may was s) : Keeps may was (valveRelease s t v rail) :=
  valveCmd_keeps (valveMove_keeps hTiles hSlots) h

theorem valveOff_keeps {s : State} {t : Nat} {v : Valve} (hTiles : may.tiles = true) (hSlots : may.slots = true)
    (h : Keeps may was s) : Keeps may was (valveOff s t v) :=
  valveCmd_keeps (valveMove_keeps hTiles hSlots) h

theorem valveOn_keeps {s : State} {t : Nat} {v : Valve} (hTiles : may.tiles = true) (hSlots : may.slots = true)
    (h : Keeps may was s) : Keeps may was (valveOn s t v) :=
  valveCmd_keeps (valveMove_keeps hTiles hSlots) h

theorem execTlValveRelease_keeps {s : State} {fn : Fn} {t : Tile} {v : Valve} {rail : BitVec 16}
    (hTiles : may.tiles = true) (hSlots : may.slots = true) (h : Keeps may was s) :
    KeepsAll may was (execTlValveRelease fn t v rail s) :=
  Keeps.next (wr_keeps (valveRelease_keeps hTiles hSlots) h)

theorem execTlValveOff_keeps {s : State} {fn : Fn} {t : Tile} {v : Valve} (hTiles : may.tiles = true)
    (hSlots : may.slots = true) (h : Keeps may was s) : KeepsAll may was (execTlValveOff fn t v s) :=
  Keeps.next (wr_keeps (valveOff_keeps hTiles hSlots) h)

theorem execTlValveOn_keeps {s : State} {fn : Fn} {t : Tile} {v : Valve} (hTiles : may.tiles = true)
    (hSlots : may.slots = true) (h : Keeps may was s) : KeepsAll may was (execTlValveOn fn t v s) :=
  Keeps.next (wr_keeps (valveOn_keeps hTiles hSlots) h)

theorem execTileDark_keeps {s : State} {t : Tile} (hChans : may.chans = true) (hTiles : may.tiles = true)
    (h : Keeps may was s) : KeepsAll may was (execTileDark t s) :=
  KeepsAll.ite (Keeps.next h)
    (Keeps.next (post_keeps ((setTile_keeps hTiles h).moveChans hChans (tabWf_tabMap _ _ _ _ _))))

theorem execIsumMismatch_keeps {s : State} {t : Tile} {diffMa : BitVec 32} (hTiles : may.tiles = true)
    (h : Keeps may was s) : KeepsAll may was (execIsumMismatch t diffMa s) :=
  KeepsAll.ite (Keeps.next h) (Keeps.next (post_keeps (setTile_keeps hTiles h)))

theorem refFail_keeps {s : State} {r : Nat} (hChans : may.chans = true) (h : Keeps may was s) :
    Keeps may was (refFail s r) :=
  Keeps.ite h (Keeps.ite (Keeps.ite h (post_keeps (setReed_keeps h)))
    (post_keeps ((setReed_keeps h).moveChans hChans (tabWf_tabMap _ _ _ _ _))))

theorem execReedRefFail_keeps {s : State} {r : Reed} (hChans : may.chans = true) (h : Keeps may was s) :
    KeepsAll may was (execReedRefFail r s) :=
  Keeps.next (refFail_keeps hChans h)

theorem execRefTransferDone_keeps {s : State} {r : Reed} (h : Keeps may was s) :
    KeepsAll may was (execRefTransferDone r s) :=
  KeepsAll.ite (Keeps.next (setReed_keeps h)) (Keeps.next h)

theorem execBackupFail_keeps {s : State} {t : Tile} {disagree : BitVec 6} (hTiles : may.tiles = true)
    (h : Keeps may was s) : KeepsAll may was (execBackupFail t disagree s) :=
  KeepsAll.ite (Keeps.next h) (Keeps.next (post_keeps (setTile_keeps hTiles h)))

theorem execBackupRecover_keeps {s : State} {t : Tile} (hTiles : may.tiles = true) (h : Keeps may was s) :
    KeepsAll may was (execBackupRecover t s) :=
  Keeps.next (setTile_keeps hTiles h)

theorem refReturn_keeps {s : State} {r : Nat} {inWindow : Bool} (h : Keeps may was s) :
    Keeps may was (refReturn s r inWindow) :=
  Keeps.ite (setReed_keeps h) (post_keeps h)

theorem execTlRefReturn_keeps {s : State} {fn : Fn} {t : Tile} {q : Fin 32} {inWindow : Bool} (h : Keeps may was s) :
    KeepsAll may was (execTlRefReturn fn t q inWindow s) :=
  Keeps.next (wr_keeps refReturn_keeps h)

theorem parkEvent_keeps {s : State} {cause : Nat} {tiles : Word} (hPark : may.park = true) (h : Keeps may was s) :
    Keeps may was (parkEvent s cause tiles) :=
  Keeps.ite h (post_keeps (Keeps.movePark hPark h))

theorem parkReach_keeps {s : State} {t : Nat} (hChans : may.chans = true) (hPark : may.park = true)
    (hSlots : may.slots = true) (h : Keeps may was s) : Keeps may was (parkReach s t) := by
  unfold parkReach
  dsimp only
  split
  · exact h
  · exact redoTile_keeps hSlots (Keeps.foldl (fun _ _ => parkChan_keeps hChans) (Keeps.movePark hPark h))

theorem execParkEventReachTile_keeps {s : State} {t : Tile} (hChans : may.chans = true) (hPark : may.park = true)
    (hSlots : may.slots = true) (h : Keeps may was s) : KeepsAll may was (execParkEventReachTile t s) :=
  Keeps.next (parkReach_keeps hChans hPark hSlots h)

theorem readStore_keeps {s : State} (h : Keeps may was s) : Keeps may was (readStore s).2.2 := by
  unfold readStore
  dsimp only
  repeat' split
  · exact h
  · dsimp only
    exact post_keeps h
  · dsimp only
    exact post_keeps h

theorem execParkLoaderStart_keeps {s : State} (hPark : may.park = true) (h : Keeps may was s) :
    KeepsAll may was (execParkLoaderStart s) :=
  KeepsAll.ite (Keeps.next (Keeps.movePark hPark h)) (Keeps.next h)

theorem loadParkRegs_keeps {s : State} (hChans : may.chans = true) (h : Keeps may was s) :
    Keeps may was (loadParkRegs s) :=
  h.moveChans hChans (tabWf_tabMap _ _ _ _ _)

theorem parkStrobe_keeps {s : State} {loadUs : Nat} (hChans : may.chans = true) (hPark : may.park = true)
    (hTiles : may.tiles = true) (h : Keeps may was s) : Keeps may was (parkStrobe s loadUs) :=
  Keeps.ite h (parkEvent_keeps hPark (putReg_keeps
    ((loadParkRegs_keeps hChans ((readStore_keeps h).movePark hPark)).moveTiles hTiles (tabWf_tabMap _ _ _ _ _))))

theorem execParkStrobe_keeps {s : State} {loadUs : BitVec 16} (hChans : may.chans = true) (hPark : may.park = true)
    (hTiles : may.tiles = true) (h : Keeps may was s) : KeepsAll may was (execParkStrobe loadUs s) :=
  Keeps.next (parkStrobe_keeps hChans hPark hTiles h)

theorem execPkParkAll_keeps {s : State} {fn : Fn} (hPark : may.park = true) (h : Keeps may was s) :
    KeepsAll may was (execPkParkAll fn s) := by
  unfold execPkParkAll
  repeat' split
  · exact Keeps.next (wr_keeps (parkEvent_keeps hPark) h)

theorem execPkParkTiles_keeps {s : State} {fn : Fn} (hPark : may.park = true) (h : Keeps may was s) :
    KeepsAll may was (execPkParkTiles fn s) :=
  Keeps.next (wr_keeps (parkEvent_keeps hPark) h)

theorem parkRefuse_keeps {s : State} (hPark : may.park = true) (h : Keeps may was s) : Keeps may was (parkRefuse s) :=
  post_keeps (Keeps.movePark hPark h)

theorem parkUpdate_keeps {s : State} (hPark : may.park = true) (h : Keeps may was s) : Keeps may was (parkUpdate s) := by
  unfold parkUpdate
  repeat' split
  · exact parkRefuse_keeps hPark h
  · exact post_keeps (Keeps.movePark hPark h)
  · exact Keeps.movePark hPark h

theorem execPkUpdate_keeps {s : State} {fn : Fn} (hPark : may.park = true) (h : Keeps may was s) :
    KeepsAll may was (execPkUpdate fn s) :=
  Keeps.next (wr_keeps (parkUpdate_keeps hPark) h)

theorem parkUpdateDone_keeps {s : State} {failed : Option (Fin 2)} {verify : Bool} (hPark : may.park = true)
    (h : Keeps may was s) : Keeps may was (parkUpdateDone s failed verify) := by
  unfold parkUpdateDone
  repeat' split
  · exact h
  · exact post_keeps (Keeps.movePark hPark h)
  · exact Keeps.movePark hPark h
  · exact post_keeps (Keeps.movePark hPark h)
  · exact Keeps.movePark hPark h
  · exact post_keeps (Keeps.movePark hPark h)
  · exact Keeps.movePark hPark h
  · exact post_keeps (Keeps.movePark hPark h)
  · exact Keeps.movePark hPark h
  · exact post_keeps (Keeps.movePark hPark h)
  · exact Keeps.movePark hPark h
  · exact post_keeps (Keeps.movePark hPark h)
  · exact Keeps.movePark hPark h

theorem execPkUpdateDone_keeps {s : State} {failedCopy : Option (Fin 2)} {verify : Bool} (hPark : may.park = true)
    (h : Keeps may was s) : KeepsAll may was (execPkUpdateDone failedCopy verify s) :=
  Keeps.next (parkUpdateDone_keeps hPark h)

theorem parkApply_keeps {s : State} (hPark : may.park = true) (h : Keeps may was s) : Keeps may was (parkApply s) :=
  Keeps.ite (parkRefuse_keeps hPark h) (Keeps.movePark hPark h)

theorem execPkApply_keeps {s : State} {fn : Fn} (hPark : may.park = true) (h : Keeps may was s) :
    KeepsAll may was (execPkApply fn s) :=
  Keeps.next (wr_keeps (parkApply_keeps hPark) h)

theorem execPkApplyDone_keeps {s : State} (hChans : may.chans = true) (hPark : may.park = true) (h : Keeps may was s) :
    KeepsAll may was (execPkApplyDone s) :=
  KeepsAll.ite (Keeps.next (loadParkRegs_keeps hChans (Keeps.movePark hPark h))) (Keeps.next h)

theorem parkReload_keeps {s : State} (hPark : may.park = true) (h : Keeps may was s) : Keeps may was (parkReload s) :=
  Keeps.ite (parkRefuse_keeps hPark h) (Keeps.movePark hPark h)

theorem execPkReload_keeps {s : State} {fn : Fn} (hPark : may.park = true) (h : Keeps may was s) :
    KeepsAll may was (execPkReload fn s) :=
  Keeps.next (wr_keeps (parkReload_keeps hPark) h)

theorem execPkReloadDone_keeps {s : State} (hPark : may.park = true) (h : Keeps may was s) :
    KeepsAll may was (execPkReloadDone s) :=
  KeepsAll.ite (Keeps.next h) (Keeps.next (Keeps.movePark hPark (readStore_keeps h)))

theorem advancePair_keeps {s : State} (h : Keeps may was s) : Keeps may was (advancePair s) :=
  bumpReg_keeps h

theorem parkDataWrite_keeps {s : State} {v : Word} (hPark : may.park = true) (h : Keeps may was s) :
    Keeps may was (parkDataWrite s v) :=
  advancePair_keeps (Keeps.movePark hPark h)

theorem parkDataRead_keeps {s : State} (h : Keeps may was s) : Keeps may was (parkDataRead s).2 :=
  advancePair_keeps h

theorem execPkDataAccess_keeps {s : State} {fn : Fn} {w : Option Word} (hPark : may.park = true) (h : Keeps may was s) :
    KeepsAll may was (execPkDataAccess fn w s) := by
  unfold execPkDataAccess
  split
  · exact Keeps.next (wr_keeps (parkDataWrite_keeps hPark) h)
  · exact Keeps.next (rd_keeps parkDataRead_keeps h)

theorem notePrograms_keeps {s : State} {part off len : Nat} (h : Keeps may was s) :
    Keeps may was (notePrograms s part off len) :=
  Keeps.beside h

theorem setCoef_keeps {s : State} {i : Nat} {w : Word} (hCal : may.cal = true) (h : Keeps may was s) :
    Keeps may was (setCoef s i w) :=
  Keeps.moveCal hCal h

theorem loadRegion_keeps {s : State} {k : Nat} {payload : List Host.Cell} (hBore : may.bore = true)
    (h : Keeps may was s) : Keeps may was (loadRegion s k payload) := by
  unfold loadRegion
  extract_lets lo n inside b0 b1 s1 a w
  have h1 : Keeps may was s1 := h.moveBore hBore (memWf_cellsInto _ _ _ _)
  split
  · exact (useCheck_keeps h1).moveBore hBore id
  · exact h1

theorem setRegsFrom_keeps {s : State} {p : List Host.Cell} {at' : Nat} {offs : List Nat} (h : Keeps may was s) :
    Keeps may was (setRegsFrom s p at' offs) :=
  Keeps.foldl (fun _ _ => setReg_keeps) h

theorem loadMtCal_keeps {s : State} {p : List Host.Cell} (hCal : may.cal = true) (h : Keeps may was s) :
    Keeps may was (loadMtCal s p) :=
  Keeps.ite (setRegsFrom_keeps (Keeps.moveCal hCal h)) (Keeps.moveCal hCal h)

theorem tabRestore_keeps {s : State} {k : Nat} {p : List Host.Cell} (hCal : may.cal = true) (hBore : may.bore = true)
    (h : Keeps may was s) : Keeps may was (tabRestore s k p) := by
  unfold tabRestore
  split
  · exact loadMtCal_keeps hCal (h.moveCal hCal)
  · exact setRegsFrom_keeps (h.moveLoops (tabWf_tabMap _ _ _ _ _))
  · exact setRegsFrom_keeps h.beside
  · exact loadRegion_keeps hBore h

theorem tabBuiltin_keeps {s : State} {k : Nat} (hCal : may.cal = true) (hBore : may.bore = true)
    (h : Keeps may was s) : Keeps may was (tabBuiltin s k) := by
  unfold tabBuiltin
  split
  · exact loadRegion_keeps hBore h
  · exact h.moveCal hCal
  · exact Keeps.foldl (fun _ _ hu => setReg_keeps hu) (h.moveLoops (tabWf_tabMap _ _ _ _ _))
  · exact Keeps.foldl (fun _ _ hu => setReg_keeps hu) h.beside
  · exact loadRegion_keeps hBore h

theorem tabRedo_keeps {s : State} {k : Nat} (hSlots : may.slots = true) (h : Keeps may was s) :
    Keeps may was (tabRedo s k) :=
  Keeps.ite (redoAll_keeps hSlots h) (Keeps.ite (redoIf_keeps hSlots h) h)

theorem setRes_keeps {s : State} {tag sct sc : Nat} {dw0 dw1 : Word} (h : Keeps may was s) :
    Keeps may was (setRes s tag sct sc dw0 dw1) := by
  unfold setRes
  split
  · exact h
  · exact setCmd_keeps h

theorem tabRefuse_keeps {s : State} {k : Nat} (h : Keeps may was s) : Keeps may was (tabRefuse s k) :=
  refusedCtrl_keeps (setTab_keeps h)

theorem tabStart_keeps {s : State} {k cmd : Nat} (h : Keeps may was s) : Keeps may was (tabStart s k cmd) :=
  setTab_keeps h

theorem tabEnd_keeps {s : State} {k err : Nat} (h : Keeps may was s) : Keeps may was (tabEnd s k err) := by
  unfold tabEnd
  dsimp only
  repeat' split
  · exact setRes_keeps (setReg_keeps (setTab_keeps h))
  · exact setRes_keeps (setReg_keeps (setTab_keeps h))
  · exact setRes_keeps (setTab_keeps h)
  · exact setRes_keeps (setTab_keeps h)
  · exact setReg_keeps (setTab_keeps h)
  · exact setTab_keeps h

theorem setGen_keeps {s : State} {k : Nat} {g : Word} (h : Keeps may was s) : Keeps may was (setGen s k g) := by
  unfold setGen
  split
  · exact setReg_keeps h
  · exact h

theorem tabLoad_keeps {s : State} {k : Nat} (h : Keeps may was s) : Keeps may was (tabLoad s k) :=
  Keeps.ite (tabRefuse_keeps h) (tabStart_keeps h)

theorem tabLoadDone_keeps {s : State} {k : Nat} {ok : Bool} (hCal : may.cal = true) (hSlots : may.slots = true)
    (hBore : may.bore = true) (h : Keeps may was s) : Keeps may was (tabLoadDone s k ok) :=
  Keeps.ite h
    (Keeps.ite (tabEnd_keeps (post_keeps h))
    (Keeps.ite (tabEnd_keeps (post_keeps h))
    (tabRedo_keeps hSlots (tabEnd_keeps (setTab_keeps (setGen_keeps (tabRestore_keeps hCal hBore h)))))))

theorem tabClimbLoad_keeps {s : State} {k : Nat} (hCal : may.cal = true) (hSlots : may.slots = true)
    (hBore : may.bore = true) (h : Keeps may was s) : Keeps may was (tabClimbLoad s k) :=
  tabRedo_keeps hSlots
    (setGen_keeps
    (Keeps.ite (tabRestore_keeps hCal hBore (setTab_keeps h)) (tabBuiltin_keeps hCal hBore (setTab_keeps h))))

theorem tabSaveStart_keeps {s : State} {k : Nat} (h : Keeps may was s) : Keeps may was (tabSaveStart s k) :=
  setTab_keeps (tabStart_keeps h)

theorem tabSaveFail_keeps {s : State} {k err : Nat} (h : Keeps may was s) : Keeps may was (tabSaveFail s k err) :=
  tabEnd_keeps (post_keeps h)

theorem tabSaveDone_keeps {s : State} {k : Nat} {ok : Bool} (h : Keeps may was s) : Keeps may was (tabSaveDone s k ok) :=
  Keeps.ite h
    (Keeps.ite (tabSaveFail_keeps h)
    (tabEnd_keeps (setGen_keeps (journal_keeps (notePrograms_keeps (Keeps.beside h))))))

theorem parSweep_keeps {s : State} {k : Nat} (hBore : may.bore = true) (h : Keeps may was s) :
    Keeps may was (parSweep s k) :=
  Keeps.foldl (fun _ _ => parRead_keeps hBore) h

theorem noteSetpoints_keeps {s : State} {bad : List Nat} (h : Keeps may was s) : Keeps may was (noteSetpoints s bad) :=
  setReg_keeps (setReg_keeps h)

theorem noteSeqs_keeps {s : State} {bad : List Nat} (h : Keeps may was s) : Keeps may was (noteSeqs s bad) :=
  setReg_keeps (setReg_keeps h)

theorem tabSave_keeps {s : State} {k : Nat} (hBore : may.bore = true) (h : Keeps may was s) :
    Keeps may was (tabSave s k) :=
  Keeps.ite (tabRefuse_keeps h)
    (Keeps.ite
    (Keeps.ite (noteSetpoints_keeps (tabSaveStart_keeps (Keeps.ite (parSweep_keeps hBore h) h)))
    (tabSaveFail_keeps (noteSetpoints_keeps (tabSaveStart_keeps (Keeps.ite (parSweep_keeps hBore h) h)))))
    (Keeps.ite
    (Keeps.ite (noteSeqs_keeps (tabSaveStart_keeps (Keeps.ite (parSweep_keeps hBore h) h)))
    (tabSaveFail_keeps (noteSeqs_keeps (tabSaveStart_keeps (Keeps.ite (parSweep_keeps hBore h) h)))))
    (tabSaveStart_keeps (Keeps.ite (parSweep_keeps hBore h) h))))

theorem tabCheck_keeps {s : State} {k : Nat} (hBore : may.bore = true) (h : Keeps may was s) :
    Keeps may was (tabCheck s k) := by
  unfold tabCheck
  dsimp only
  repeat' split
  · exact tabRefuse_keeps h
  · exact tabEnd_keeps (noteSetpoints_keeps (parSweep_keeps hBore (tabStart_keeps h)))
  · exact tabEnd_keeps (setReg_keeps (parSweep_keeps hBore (tabStart_keeps h)))
  · exact tabEnd_keeps (setReg_keeps (parSweep_keeps hBore (tabStart_keeps h)))
  · exact tabEnd_keeps (noteSeqs_keeps (parSweep_keeps hBore (tabStart_keeps h)))
  · exact tabEnd_keeps (tabStart_keeps h)
  · exact tabEnd_keeps (putReg_keeps (tabStart_keeps h))

theorem seqDefault_keeps {s : State} (hBore : may.bore = true) (h : Keeps may was s) : Keeps may was (seqDefault s) :=
  Keeps.ite (tabRefuse_keeps h) (tabEnd_keeps (setTab_keeps (loadRegion_keeps hBore (tabStart_keeps h))))

theorem coefDefault_keeps {s : State} (hCal : may.cal = true) (h : Keeps may was s) : Keeps may was (coefDefault s) :=
  Keeps.ite (tabRefuse_keeps h) (tabEnd_keeps (Keeps.moveCal hCal (tabStart_keeps h)))

theorem tabWrite_keeps {s : State} {fn : Fn} {k : Nat} {f : State → State} (hf : Keeps may was s → Keeps may was (f s))
    (h : Keeps may was s) : KeepsAll may was (tabWrite s fn k f) :=
  Keeps.next (wr_keeps hf h)

theorem execStLoadDone_keeps {s : State} {ok : Bool} (hCal : may.cal = true) (hSlots : may.slots = true)
    (hBore : may.bore = true) (h : Keeps may was s) : KeepsAll may was (execStLoadDone ok s) :=
  Keeps.next (tabLoadDone_keeps hCal hSlots hBore h)

theorem execStSaveDone_keeps {s : State} {ok : Bool} (h : Keeps may was s) : KeepsAll may was (execStSaveDone ok s) :=
  Keeps.next (tabSaveDone_keeps h)

theorem execTgLoadDone_keeps {s : State} {ok : Bool} (hCal : may.cal = true) (hSlots : may.slots = true)
    (hBore : may.bore = true) (h : Keeps may was s) : KeepsAll may was (execTgLoadDone ok s) :=
  Keeps.next (tabLoadDone_keeps hCal hSlots hBore h)

theorem execTgSaveDone_keeps {s : State} {ok : Bool} (h : Keeps may was s) : KeepsAll may was (execTgSaveDone ok s) :=
  Keeps.next (tabSaveDone_keeps h)

theorem execMsLoad_keeps {s : State} {fn : Fn} (h : Keeps may was s) : KeepsAll may was (execMsLoad fn s) :=
  tabWrite_keeps tabLoad_keeps h

theorem execMsLoadDone_keeps {s : State} {ok : Bool} (hCal : may.cal = true) (hSlots : may.slots = true)
    (hBore : may.bore = true) (h : Keeps may was s) : KeepsAll may was (execMsLoadDone ok s) :=
  Keeps.next (tabLoadDone_keeps hCal hSlots hBore h)

theorem execMsSave_keeps {s : State} {fn : Fn} (hBore : may.bore = true) (h : Keeps may was s) :
    KeepsAll may was (execMsSave fn s) :=
  tabWrite_keeps (tabSave_keeps hBore) h

theorem execMsSaveDone_keeps {s : State} {ok : Bool} (h : Keeps may was s) : KeepsAll may was (execMsSaveDone ok s) :=
  Keeps.next (tabSaveDone_keeps h)

theorem execMsCheck_keeps {s : State} {fn : Fn} (hBore : may.bore = true) (h : Keeps may was s) :
    KeepsAll may was (execMsCheck fn s) :=
  tabWrite_keeps (tabCheck_keeps hBore) h

theorem execMsDefault_keeps {s : State} {fn : Fn} (hBore : may.bore = true) (h : Keeps may was s) :
    KeepsAll may was (execMsDefault fn s) :=
  tabWrite_keeps (seqDefault_keeps hBore) h

theorem execClLoad_keeps {s : State} {fn : Fn} (h : Keeps may was s) : KeepsAll may was (execClLoad fn s) :=
  tabWrite_keeps tabLoad_keeps h

theorem execClLoadDone_keeps {s : State} {ok : Bool} (hCal : may.cal = true) (hSlots : may.slots = true)
    (hBore : may.bore = true) (h : Keeps may was s) : KeepsAll may was (execClLoadDone ok s) :=
  Keeps.next (tabLoadDone_keeps hCal hSlots hBore h)

theorem execClSave_keeps {s : State} {fn : Fn} (hBore : may.bore = true) (h : Keeps may was s) :
    KeepsAll may was (execClSave fn s) :=
  tabWrite_keeps (tabSave_keeps hBore) h

theorem execClSaveDone_keeps {s : State} {ok : Bool} (h : Keeps may was s) : KeepsAll may was (execClSaveDone ok s) :=
  Keeps.next (tabSaveDone_keeps h)

theorem execClDefault_keeps {s : State} {fn : Fn} (hCal : may.cal = true) (h : Keeps may was s) :
    KeepsAll may was (execClDefault fn s) :=
  tabWrite_keeps (coefDefault_keeps hCal) h

theorem execLpLoad_keeps {s : State} {fn : Fn} (h : Keeps may was s) : KeepsAll may was (execLpLoad fn s) :=
  tabWrite_keeps tabLoad_keeps h

theorem execLpLoadDone_keeps {s : State} {ok : Bool} (hCal : may.cal = true) (hSlots : may.slots = true)
    (hBore : may.bore = true) (h : Keeps may was s) : KeepsAll may was (execLpLoadDone ok s) :=
  Keeps.next (tabLoadDone_keeps hCal hSlots hBore h)

theorem execLpSave_keeps {s : State} {fn : Fn} (hBore : may.bore = true) (h : Keeps may was s) :
    KeepsAll may was (execLpSave fn s) :=
  tabWrite_keeps (tabSave_keeps hBore) h

theorem execLpSaveDone_keeps {s : State} {ok : Bool} (h : Keeps may was s) : KeepsAll may was (execLpSaveDone ok s) :=
  Keeps.next (tabSaveDone_keeps h)

theorem execThLoadDone_keeps {s : State} {ok : Bool} (hCal : may.cal = true) (hSlots : may.slots = true)
    (hBore : may.bore = true) (h : Keeps may was s) : KeepsAll may was (execThLoadDone ok s) :=
  Keeps.next (tabLoadDone_keeps hCal hSlots hBore h)

theorem execThSaveDone_keeps {s : State} {ok : Bool} (h : Keeps may was s) : KeepsAll may was (execThSaveDone ok s) :=
  Keeps.next (tabSaveDone_keeps h)

theorem fabTable_keeps {s : State} {k code : Nat} (hBore : may.bore = true) (h : Keeps may was s) :
    Keeps may was (fabTable s k code) := by
  unfold fabTable
  split
  · exact tabLoad_keeps h
  · exact tabSave_keeps hBore h
  · exact tabCheck_keeps hBore h
  · exact badEncoding_keeps h

theorem tableTag_keeps {s : State} {k tag : Nat} {busy : Bool} (h : Keeps may was s) :
    Keeps may was (tableTag s k tag busy) :=
  Keeps.ite (setTab_keeps h) (setRes_keeps h)

theorem planTag_keeps {s : State} {k tag : Nat} (hBore : may.bore = true) (h : Keeps may was s) :
    Keeps may was (planTag s k tag) := by
  unfold planTag
  split
  · exact Keeps.ite (complete_keeps hBore h) (Keeps.ite (planDone_keeps hBore (setCmd_keeps h)) (setCmd_keeps h))
  · exact Keeps.ite (complete_keeps hBore h) (Keeps.ite (planDone_keeps hBore h) h)

theorem runFab_keeps {s : State} {c : FabCmd} (hSlots : may.slots = true) (hBore : may.bore = true)
    (h : Keeps may was s) : Keeps may was (runFab s c) := by
  unfold runFab
  split
  · exact planCmd_keeps hSlots hBore h
  · exact planTag_keeps hBore (planCmd_keeps hSlots hBore h)
  · exact fabTable_keeps hBore h
  · exact tableTag_keeps (fabTable_keeps hBore h)

theorem fabAccept_keeps {s : State} {c : FabCmd} (hSlots : may.slots = true) (hBore : may.bore = true)
    (h : Keeps may was s) : Keeps may was (fabAccept s c) :=
  Keeps.ite (runFab_keeps hSlots hBore h) h.beside

theorem acceptWaiting_keeps {s : State} (hSlots : may.slots = true) (hBore : may.bore = true)
    (h : Keeps may was s) : Keeps may was (acceptWaiting s) :=
  Keeps.foldl (fun _ _ hu => runFab_keeps hSlots hBore hu) h.beside

theorem plWrite_keeps {s : State} {fn : Fn} {cmd k count : Nat} (hSlots : may.slots = true) (hBore : may.bore = true)
    (h : Keeps may was s) : Keeps may was (plWrite s fn cmd k count) :=
  guarded_keeps (fabAccept_keeps hSlots hBore) h

theorem execPlOpen_keeps {s : State} {fn : Fn} {k : Slot} (hSlots : may.slots = true) (hBore : may.bore = true)
    (h : Keeps may was s) : KeepsAll may was (execPlOpen fn k s) :=
  Keeps.next (plWrite_keeps hSlots hBore h)

theorem execPlStage_keeps {s : State} {fn : Fn} {k : Slot} {count : BitVec 16} (hSlots : may.slots = true)
    (hBore : may.bore = true) (h : Keeps may was s) : KeepsAll may was (execPlStage fn k count s) :=
  Keeps.next (plWrite_keeps hSlots hBore h)

theorem execPlArm_keeps {s : State} {fn : Fn} {k : Slot} (hSlots : may.slots = true) (hBore : may.bore = true)
    (h : Keeps may was s) : KeepsAll may was (execPlArm fn k s) :=
  Keeps.next (plWrite_keeps hSlots hBore h)

theorem execPlDisarm_keeps {s : State} {fn : Fn} {k : Slot} (hSlots : may.slots = true) (hBore : may.bore = true)
    (h : Keeps may was s) : KeepsAll may was (execPlDisarm fn k s) :=
  Keeps.next (plWrite_keeps hSlots hBore h)

theorem execPlRelease_keeps {s : State} {fn : Fn} {k : Slot} (hSlots : may.slots = true) (hBore : may.bore = true)
    (h : Keeps may was s) : KeepsAll may was (execPlRelease fn k s) :=
  Keeps.next (plWrite_keeps hSlots hBore h)

theorem fabWrite_keeps {s : State} {fn : Fn} {k code : Nat} (hSlots : may.slots = true) (hBore : may.bore = true)
    (h : Keeps may was s) : KeepsAll may was (fabWrite s fn k code) :=
  tabWrite_keeps (fabAccept_keeps hSlots hBore) h

theorem execStLoad_keeps {s : State} {fn : Fn} (hSlots : may.slots = true) (hBore : may.bore = true)
    (h : Keeps may was s) : KeepsAll may was (execStLoad fn s) :=
  fabWrite_keeps hSlots hBore h

theorem execStSave_keeps {s : State} {fn : Fn} (hSlots : may.slots = true) (hBore : may.bore = true)
    (h : Keeps may was s) : KeepsAll may was (execStSave fn s) :=
  fabWrite_keeps hSlots hBore h

theorem execStCheck_keeps {s : State} {fn : Fn} (hSlots : may.slots = true) (hBore : may.bore = true)
    (h : Keeps may was s) : KeepsAll may was (execStCheck fn s) :=
  fabWrite_keeps hSlots hBore h

theorem execTgLoad_keeps {s : State} {fn : Fn} (hSlots : may.slots = true) (hBore : may.bore = true)
    (h : Keeps may was s) : KeepsAll may was (execTgLoad fn s) :=
  fabWrite_keeps hSlots hBore h

theorem execTgSave_keeps {s : State} {fn : Fn} (hSlots : may.slots = true) (hBore : may.bore = true)
    (h : Keeps may was s) : KeepsAll may was (execTgSave fn s) :=
  fabWrite_keeps hSlots hBore h

theorem execTgCheck_keeps {s : State} {fn : Fn} (hSlots : may.slots = true) (hBore : may.bore = true)
    (h : Keeps may was s) : KeepsAll may was (execTgCheck fn s) :=
  fabWrite_keeps hSlots hBore h

theorem execThLoad_keeps {s : State} {fn : Fn} (hSlots : may.slots = true) (hBore : may.bore = true)
    (h : Keeps may was s) : KeepsAll may was (execThLoad fn s) :=
  fabWrite_keeps hSlots hBore h

theorem execThSave_keeps {s : State} {fn : Fn} (hSlots : may.slots = true) (hBore : may.bore = true)
    (h : Keeps may was s) : KeepsAll may was (execThSave fn s) :=
  fabWrite_keeps hSlots hBore h

theorem execThCheck_keeps {s : State} {fn : Fn} (hSlots : may.slots = true) (hBore : may.bore = true)
    (h : Keeps may was s) : KeepsAll may was (execThCheck fn s) :=
  fabWrite_keeps hSlots hBore h

end Sys2Proof.Machine
end

