-- ==== Sys2Proof/Proofs/KeepsMeasure.lean ====
section
/-! SUPPORT. What each function of the model keeps: the accumulators, the sequencers, the coefficients, the meters and the
loops. A lemma per function; the hypotheses name the parts that it may move. -/

namespace Sys2Proof.Machine

open Sys2Proof.Safety

variable {may : Moves} {was : State}

theorem accSet_keeps {s : State} {i : Nat} {w0 w1 w2 w3 : Word} (hBore : may.bore = true) (h : Keeps may was s) :
    Keeps may was (accSet s i w0 w1 w2 w3) :=
  setBores_keeps hBore h

theorem accRestart_keeps {s : State} {disc : Nat} {i : Nat} (hBore : may.bore = true) (h : Keeps may was s) :
    Keeps may was (accRestart s disc i) :=
  accSet_keeps hBore (Keeps.beside h)

theorem accParity_keeps {s : State} {i : Nat} (hBore : may.bore = true) (h : Keeps may was s) :
    Keeps may was (accParity s i) :=
  post_keeps (accRestart_keeps hBore (bumpReg_keeps h))

theorem accCheck_keeps {s : State} {i : Nat} (hBore : may.bore = true) (h : Keeps may was s) :
    Keeps may was (accCheck s i).1 := by
  unfold accCheck
  dsimp only
  split
  · exact parReads_keeps hBore h
  · exact accParity_keeps hBore (parReads_keeps hBore h)

theorem accDiscard_keeps {s : State} {i : Nat} (hBore : may.bore = true) (h : Keeps may was s) :
    Keeps may was (accDiscard s i) :=
  setBore_keeps hBore (accCheck_keeps hBore h)

theorem powerUpdate_keeps {s : State} {ch : Nat} {v : Int} (hChans : may.chans = true) (h : Keeps may was s) :
    Keeps may was (powerUpdate s ch v) :=
  setChan_keeps hChans h

theorem loopCheck_keeps {s : State} {ch : Nat} (hBore : may.bore = true) (h : Keeps may was s) :
    Keeps may was (loopCheck s ch) :=
  Keeps.ite (accCheck_keeps hBore h) (accCheck_keeps hBore (accCheck_keeps hBore h))

theorem loopMeasure_keeps {s : State} {i : Nat} (hBore : may.bore = true) (h : Keeps may was s) :
    Keeps may was (loopMeasure s i) :=
  Keeps.foldl (fun _ _ a => Keeps.ite a (setLoopCh_keeps (loopCheck_keeps hBore a))) h

theorem accFeeds_keeps {s : State} {i : Nat} {v : Int} (hChans : may.chans = true) (hTiles : may.tiles = true)
    (hBore : may.bore = true) (h : Keeps may was s) : Keeps may was (accFeeds s i v) :=
  Keeps.ite (powerUpdate_keeps hChans h)
    (Keeps.ite (setTile_keeps hTiles h) (Keeps.ite (loopMeasure_keeps hBore h) h))

theorem accEnter_keeps {s : State} {i : Nat} {x : Int} {ovr : Bool} (hChans : may.chans = true)
    (hTiles : may.tiles = true) (hBore : may.bore = true) (h : Keeps may was s) : Keeps may was (accEnter s i x ovr) := by
  unfold accEnter
  dsimp only
  repeat' split
  · exact h
  · exact accSet_keeps hBore (Keeps.beside (accCheck_keeps hBore h))
  · exact accSet_keeps hBore (Keeps.beside (accCheck_keeps hBore h))
  · exact accSet_keeps hBore (Keeps.beside (accCheck_keeps hBore h))
  · exact accSet_keeps hBore (Keeps.beside (accCheck_keeps hBore h))
  · exact accSet_keeps hBore (Keeps.beside (accCheck_keeps hBore h))
  · exact accSet_keeps hBore (Keeps.beside (accCheck_keeps hBore h))
  · exact accSet_keeps hBore (Keeps.beside (accCheck_keeps hBore h))
  · exact accSet_keeps hBore (Keeps.beside (accCheck_keeps hBore h))
  · exact accFeeds_keeps hChans hTiles hBore
      (post_keeps (accSet_keeps hBore (Keeps.beside (accCheck_keeps hBore h))))
  · exact accFeeds_keeps hChans hTiles hBore
      (post_keeps (accSet_keeps hBore (Keeps.beside (accCheck_keeps hBore h))))
  · exact accFeeds_keeps hChans hTiles hBore
      (post_keeps (accSet_keeps hBore (Keeps.beside (accCheck_keeps hBore h))))
  · exact accFeeds_keeps hChans hTiles hBore
      (post_keeps (accSet_keeps hBore (Keeps.beside (accCheck_keeps hBore h))))
  · exact accFeeds_keeps hChans hTiles hBore (accSet_keeps hBore (Keeps.beside (accCheck_keeps hBore h)))
  · exact accFeeds_keeps hChans hTiles hBore (accSet_keeps hBore (Keeps.beside (accCheck_keeps hBore h)))
  · exact accFeeds_keeps hChans hTiles hBore (accSet_keeps hBore (Keeps.beside (accCheck_keeps hBore h)))
  · exact accFeeds_keeps hChans hTiles hBore (accSet_keeps hBore (Keeps.beside (accCheck_keeps hBore h)))
  · exact accFeeds_keeps hChans hTiles hBore
      (post_keeps (accSet_keeps hBore (Keeps.beside (accCheck_keeps hBore h))))
  · exact accFeeds_keeps hChans hTiles hBore
      (post_keeps (accSet_keeps hBore (Keeps.beside (accCheck_keeps hBore h))))
  · exact accFeeds_keeps hChans hTiles hBore
      (post_keeps (accSet_keeps hBore (Keeps.beside (accCheck_keeps hBore h))))
  · exact accFeeds_keeps hChans hTiles hBore
      (post_keeps (accSet_keeps hBore (Keeps.beside (accCheck_keeps hBore h))))
  · exact accFeeds_keeps hChans hTiles hBore (accSet_keeps hBore (Keeps.beside (accCheck_keeps hBore h)))
  · exact accFeeds_keeps hChans hTiles hBore (accSet_keeps hBore (Keeps.beside (accCheck_keeps hBore h)))
  · exact accFeeds_keeps hChans hTiles hBore (accSet_keeps hBore (Keeps.beside (accCheck_keeps hBore h)))
  · exact accFeeds_keeps hChans hTiles hBore (accSet_keeps hBore (Keeps.beside (accCheck_keeps hBore h)))

theorem execAccSample_keeps {s : State} {r : Reed} {acc : Fin 64} {sample : Int} {ovr : Bool}
    (hChans : may.chans = true) (hTiles : may.tiles = true) (hBore : may.bore = true) (h : Keeps may was s) :
    KeepsAll may was (execAccSample r acc sample ovr s) :=
  Keeps.next (Keeps.ite (accEnter_keeps hChans hTiles hBore h) h)

theorem execAccParityRestart_keeps {s : State} {r : Reed} {acc : Fin 64} (hBore : may.bore = true)
    (h : Keeps may was s) : KeepsAll may was (execAccParityRestart r acc s) :=
  Keeps.next (Keeps.ite (accParity_keeps hBore h) h)

theorem accCfgWrite_keeps {s : State} {v : Word} (h : Keeps may was s) : Keeps may was (accCfgWrite s v) :=
  Keeps.ite (badEncoding_keeps (putReg_keeps (Keeps.beside h))) (putReg_keeps (Keeps.beside h))

theorem execAcCfgWrite_keeps {s : State} {fn : Fn} {v : Word} (h : Keeps may was s) :
    KeepsAll may was (execAcCfgWrite fn v s) :=
  Keeps.next (wr_keeps accCfgWrite_keeps h)

theorem accCmd_keeps {s : State} {cmd : Nat} (hBore : may.bore = true) (h : Keeps may was s) :
    Keeps may was (accCmd s cmd) := by
  unfold accCmd
  dsimp only
  split
  · exact Keeps.foldl (fun _ _ => accRestart_keeps hBore)
      (Keeps.ite (Keeps.foldl (fun _ _ => accCheck_keeps hBore) h) h)
  · exact Keeps.foldl (fun _ _ => accSet_keeps hBore)
      (Keeps.ite (Keeps.foldl (fun _ _ => accCheck_keeps hBore) h) h)
  · exact Keeps.foldl (fun _ _ => setBore_keeps hBore)
      (Keeps.ite (Keeps.foldl (fun _ _ => accCheck_keeps hBore) h) h)
  · exact badEncoding_keeps (Keeps.ite (Keeps.foldl (fun _ _ => accCheck_keeps hBore) h) h)

theorem execAcRestart_keeps {s : State} {fn : Fn} (hBore : may.bore = true) (h : Keeps may was s) :
    KeepsAll may was (execAcRestart fn s) :=
  Keeps.next (wr_keeps (accCmd_keeps hBore) h)

theorem execAcTrkClr_keeps {s : State} {fn : Fn} (hBore : may.bore = true) (h : Keeps may was s) :
    KeepsAll may was (execAcTrkClr fn s) :=
  Keeps.next (wr_keeps (accCmd_keeps hBore) h)

theorem execAcDiscClr_keeps {s : State} {fn : Fn} (hBore : may.bore = true) (h : Keeps may was s) :
    KeepsAll may was (execAcDiscClr fn s) :=
  Keeps.next (wr_keeps (accCmd_keeps hBore) h)

theorem accWarm_keeps {s : State} (hBore : may.bore = true) (h : Keeps may was s) : Keeps may was (accWarm s) :=
  Keeps.foldl (fun _ _ a => setBore_keeps hBore (accRestart_keeps hBore a)) h

theorem readEntry_keeps {s : State} {r e : Nat} (hBore : may.bore = true) (h : Keeps may was s) :
    Keeps may was (readEntry s r e).1 := by
  have hp := parReads_keeps (a := seqAddr r e) (n := 2) hBore h
  unfold readEntry
  dsimp only
  split
  · dsimp only
    exact post_keeps (setReed_keeps hp)
  · split
    · exact hp
    · exact hp

theorem findEntry_keeps {s : State} {r e n : Nat} (hBore : may.bore = true) (h : Keeps may was s) :
    Keeps may was (findEntry s r e n).1 := by
  induction n generalizing s e with
  | zero => exact h
  | succ n ih =>
    have hp := readEntry_keeps (r := r) (e := e) hBore h
    unfold findEntry
    dsimp only
    split
    · exact hp
    · exact ih hp

theorem startPass_keeps {s : State} {r : Nat} {known : Bool} (hBore : may.bore = true) (h : Keeps may was s) :
    Keeps may was (startPass s r known) := by
  unfold startPass
  extract_lets _ s1 p x
  have hp : Keeps may was p.1 := findEntry_keeps hBore (setReed_keeps h)
  split
  · exact setReed_keeps hp
  · exact setReed_keeps (Keeps.ite hp (post_keeps hp))

theorem toWait_keeps {s : State} {r : Nat} {known : Bool} (hBore : may.bore = true) (h : Keeps may was s) :
    Keeps may was (toWait s r known) :=
  Keeps.ite (startPass_keeps hBore (setReed_keeps h)) (setReed_keeps h)

theorem goOn_keeps {s : State} {r : Nat} {target : ReedSeq} {known : Bool} (hBore : may.bore = true)
    (h : Keeps may was s) : Keeps may was (goOn s r target known) := by
  unfold goOn
  split
  · exact Keeps.ite (setReed_keeps h) (setReed_keeps h)
  · exact Keeps.ite (setReed_keeps h) (toWait_keeps hBore h)
  · exact Keeps.ite (setReed_keeps h) (setReed_keeps h)

theorem wakeReed_keeps {s : State} {r : Nat} (hBore : may.bore = true) (h : Keeps may was s) :
    Keeps may was (wakeReed s r) := by
  unfold wakeReed
  dsimp only
  repeat' split
  · exact h
  · exact goOn_keeps hBore h
  · exact goOn_keeps hBore h
  · exact goOn_keeps hBore h
  · exact goOn_keeps hBore h
  · exact h

theorem kickInsert_keeps {s : State} {r : Nat} {known : Bool} (h : Keeps may was s) :
    Keeps may was (kickInsert s r known) := by
  unfold kickInsert
  dsimp only
  repeat' split
  · exact h
  · exact setReed_keeps h
  · exact setReed_keeps h
  · exact setReed_keeps h
  · exact setReed_keeps h
  · exact setReed_keeps h
  · exact setReed_keeps h
  · exact h

theorem calIssue_keeps {s : State} (h : Keeps may was s) : Keeps may was (calIssue s) := by
  unfold calIssue
  split
  · exact h
  · exact Keeps.ite h (kickInsert_keeps (setReed_keeps h))

theorem openWire_keeps {s : State} {r : Nat} {c : Conv} {x : Int} (h : Keeps may was s) :
    Keeps may was (openWire s r c x) :=
  Keeps.ite h (Keeps.ite (Keeps.ite (setReed_keeps h) (post_keeps (setReed_keeps h))) (setReed_keeps h))

theorem deliver_keeps {s : State} {r : Nat} {c : Conv} {w : Word} {raw : Int} {ovr : Bool} (hChans : may.chans = true)
    (hTiles : may.tiles = true) (hBore : may.bore = true) (h : Keeps may was s) :
    Keeps may was (deliver s r c w raw ovr) :=
  openWire_keeps (accEnter_keeps hChans hTiles hBore h)

theorem afterConv_keeps {s : State} {r : Nat} (hBore : may.bore = true) (h : Keeps may was s) :
    Keeps may was (afterConv s r) := by
  have hp : ∀ x e n, Keeps may was (findEntry (setReed s r x) r e n).1 := fun _ _ _ => findEntry_keeps hBore (setReed_keeps h)
  unfold afterConv
  dsimp only
  repeat' split
  · exact goOn_keeps hBore (setReed_keeps h)
  · exact setReed_keeps h
  · exact goOn_keeps hBore (setReed_keeps h)
  · exact goOn_keeps hBore (setReed_keeps (hp _ _ _))
  · exact goOn_keeps hBore (setReed_keeps (hp _ _ _))

theorem hkDone_keeps {s : State} {r : Nat} (h : Keeps may was s) : Keeps may was (hkDone s r) :=
  Keeps.ite (bumpReg_keeps (setReed_keeps h)) (setReed_keeps h)

theorem calSample_keeps {s : State} {raw : Int} {ovr : Bool} (hCal : may.cal = true) (h : Keeps may was s) :
    Keeps may was (calSample s raw ovr) := by
  unfold calSample
  split
  · exact h
  · exact Keeps.moveCal hCal h

theorem afterInsert_keeps {s : State} {r : Nat} (hBore : may.bore = true) (h : Keeps may was s) :
    Keeps may was (afterInsert s r) :=
  goOn_keeps hBore
    (Keeps.ite (calIssue_keeps (bumpReg_keeps (setReed_keeps (setReed_keeps h)))) (hkDone_keeps (setReed_keeps h)))

theorem conversionEnd_keeps {s : State} {r : Nat} {raw : Int} {ovr : Bool} (hChans : may.chans = true)
    (hCal : may.cal = true) (hTiles : may.tiles = true) (hBore : may.bore = true) (h : Keeps may was s) :
    Keeps may was (conversionEnd s r raw ovr) := by
  unfold conversionEnd
  dsimp only
  split
  · exact afterInsert_keeps hBore (Keeps.ite (calSample_keeps hCal h) (deliver_keeps hChans hTiles hBore h))
  · exact Keeps.ite
      (Keeps.ite (goOn_keeps hBore (setReed_keeps (accDiscard_keeps hBore h))) (setReed_keeps (accDiscard_keeps hBore h)))
      (afterConv_keeps hBore (deliver_keeps hChans hTiles hBore h))
  · exact h

theorem execConversionEnd_keeps {s : State} {r : Reed} {raw : Int} {ovr : Bool} (hChans : may.chans = true)
    (hCal : may.cal = true) (hTiles : may.tiles = true) (hBore : may.bore = true) (h : Keeps may was s) :
    KeepsAll may was (execConversionEnd r raw ovr s) :=
  Keeps.next (conversionEnd_keeps hChans hCal hTiles hBore h)

theorem execSeqDelayExpired_keeps {s : State} {r : Reed} (h : Keeps may was s) :
    KeepsAll may was (execSeqDelayExpired r s) := by
  unfold execSeqDelayExpired
  dsimp only
  repeat' split
  · exact Keeps.next h
  · exact Keeps.next (setReed_keeps h)
  · exact Keeps.next (setReed_keeps h)
  · exact Keeps.next h
  · exact Keeps.next (setReed_keeps h)
  · exact Keeps.next h
  · exact Keeps.next h

theorem execModulatorPowerUp_keeps {s : State} {r : Reed} (h : Keeps may was s) :
    KeepsAll may was (execModulatorPowerUp r s) :=
  Keeps.next (Keeps.ite (setReed_keeps h) h)

theorem execStartupDone_keeps {s : State} {r : Reed} (h : Keeps may was s) : KeepsAll may was (execStartupDone r s) :=
  KeepsAll.ite (Keeps.next h) (KeepsAll.ite (Keeps.next (setReed_keeps h)) (Keeps.next (setReed_keeps h)))

theorem setReedCfg_keeps {s : State} {v : Word} {r : Nat} (hBore : may.bore = true) (h : Keeps may was s) :
    Keeps may was (setReedCfg s v r) := by
  unfold setReedCfg
  dsimp only
  split
  · exact wakeReed_keeps hBore (setReed_keeps h)
  · exact Keeps.ite (setReed_keeps (setReed_keeps h)) (wakeReed_keeps hBore (setReed_keeps h))
  · exact Keeps.ite (setReed_keeps (setReed_keeps h)) (setReed_keeps h)
  · exact Keeps.ite (setReed_keeps h)
      (Keeps.ite (setReed_keeps (setReed_keeps h)) (setReed_keeps (setReed_keeps h)))
  · exact setReed_keeps h

theorem seqModeWrite_keeps {s : State} {v : Word} (hBore : may.bore = true) (h : Keeps may was s) :
    Keeps may was (seqModeWrite s v) :=
  Keeps.ite (badEncoding_keeps (Keeps.foldl (fun _ _ => setReedCfg_keeps hBore) h))
    (Keeps.foldl (fun _ _ => setReedCfg_keeps hBore) h)

theorem execSeqModeWrite_keeps {s : State} {fn : Fn} {v : Word} (hBore : may.bore = true) (h : Keeps may was s) :
    KeepsAll may was (execSeqModeWrite fn v s) :=
  Keeps.next (wr_keeps (seqModeWrite_keeps hBore) h)

theorem timerWrite_keeps {s : State} {v : Word} (h : Keeps may was s) : Keeps may was (timerWrite s v) :=
  Keeps.foldl (fun _ _ => setReed_keeps) h

theorem drvDelayWrite_keeps {s : State} {v : Word} (h : Keeps may was s) : Keeps may was (drvDelayWrite s v) :=
  Keeps.foldl (fun _ _ => setReed_keeps) h

theorem trigger_keeps {s : State} {src : Nat} {r : Nat} (hBore : may.bore = true) (h : Keeps may was s) :
    Keeps may was (trigger s src r) :=
  Keeps.ite h
    (Keeps.ite (startPass_keeps hBore (setReed_keeps h)) (Keeps.ite (post_keeps (setReed_keeps h)) (setReed_keeps h)))

theorem trigWrite_keeps {s : State} {v : Word} (hBore : may.bore = true) (h : Keeps may was s) :
    Keeps may was (trigWrite s v) :=
  Keeps.ite (badEncoding_keeps h)
    (Keeps.ite
    (Keeps.foldl (fun _ _ => trigger_keeps hBore)
    (Keeps.ite (Keeps.foldl (fun _ _ => setReed_keeps) (Keeps.ite (Keeps.foldl (fun _ _ => setReed_keeps) h) h))
    (Keeps.ite (Keeps.foldl (fun _ _ => setReed_keeps) h) h)))
    (Keeps.ite (Keeps.foldl (fun _ _ => setReed_keeps) (Keeps.ite (Keeps.foldl (fun _ _ => setReed_keeps) h) h))
    (Keeps.ite (Keeps.foldl (fun _ _ => setReed_keeps) h) h)))

theorem execMsTrigSoft_keeps {s : State} {fn : Fn} (hBore : may.bore = true) (h : Keeps may was s) :
    KeepsAll may was (execMsTrigSoft fn s) :=
  Keeps.next (wr_keeps (trigWrite_keeps hBore) h)

theorem execMsTrigDrvArm_keeps {s : State} {fn : Fn} (hBore : may.bore = true) (h : Keeps may was s) :
    KeepsAll may was (execMsTrigDrvArm fn s) :=
  Keeps.next (wr_keeps (trigWrite_keeps hBore) h)

theorem execMsTrigDrvDisarm_keeps {s : State} {fn : Fn} (hBore : may.bore = true) (h : Keeps may was s) :
    KeepsAll may was (execMsTrigDrvDisarm fn s) :=
  Keeps.next (wr_keeps (trigWrite_keeps hBore) h)

theorem execReedTimerTrigger_keeps {s : State} {r : Reed} (hBore : may.bore = true) (h : Keeps may was s) :
    KeepsAll may was (execReedTimerTrigger r s) :=
  KeepsAll.ite (Keeps.next h) (Keeps.next (trigger_keeps hBore (setReed_keeps h)))

theorem execDriveTrigger_keeps {s : State} {r : Reed} (hBore : may.bore = true) (h : Keeps may was s) :
    KeepsAll may was (execDriveTrigger r s) := by
  unfold execDriveTrigger
  dsimp only
  split
  · exact Keeps.next h
  · exact KeepsAll.ite (Keeps.next h)
      (KeepsAll.ite (Keeps.next (setReed_keeps h)) (Keeps.next (trigger_keeps hBore (setReed_keeps h))))

theorem overrunRead_keeps {s : State} (h : Keeps may was s) : Keeps may was (overrunRead s).2 :=
  setReed_keeps h

theorem execMsTrigOverrunRead_keeps {s : State} {fn : Fn} (h : Keeps may was s) :
    KeepsAll may was (execMsTrigOverrunRead fn s) :=
  Keeps.next (rd_keeps overrunRead_keeps h)

theorem urgentWrite_keeps {s : State} {v : Word} (h : Keeps may was s) : Keeps may was (urgentWrite s v) :=
  Keeps.ite (badEncoding_keeps h)
    (Keeps.ite (refusedCtrl_keeps (putReg_keeps (putReg_keeps h)))
    (kickInsert_keeps (setReed_keeps (putReg_keeps (putReg_keeps h)))))

theorem execMsUrgentWrite_keeps {s : State} {fn : Fn} {v : Word} (h : Keeps may was s) :
    KeepsAll may was (execMsUrgentWrite fn v s) :=
  Keeps.next (wr_keeps urgentWrite_keeps h)

theorem hkDue_keeps {s : State} (h : Keeps may was s) : Keeps may was (hkDue s) :=
  Keeps.ite h
    (Keeps.foldl
    (fun _ _ a => Keeps.ite (kickInsert_keeps (post_keeps (setReed_keeps a))) (kickInsert_keeps (setReed_keeps a)))
    (Keeps.beside h))

theorem execHkRoundDue_keeps {s : State} (h : Keeps may was s) : KeepsAll may was (execHkRoundDue s) :=
  Keeps.next (hkDue_keeps h)

theorem refuseClears_keeps {s : State} {page n : Nat} (h : Keeps may was s) : Keeps may was (refuseClears s page n) :=
  Keeps.ite (Keeps.beside h) (Keeps.beside h)

theorem openClear_keeps {s : State} {v : Word} (h : Keeps may was s) : Keeps may was (openClear s v) :=
  Keeps.ite (setReed_keeps h) (refuseClears_keeps (setReed_keeps h))

theorem execMsOpenClear_keeps {s : State} {fn : Fn} {v : Word} (h : Keeps may was s) :
    KeepsAll may was (execMsOpenClear fn v s) :=
  Keeps.next (wr_keeps openClear_keeps h)

theorem seqStore_keeps {s : State} {off a : Nat} {data : List Word} (hBore : may.bore = true) (h : Keeps may was s) :
    Keeps may was (seqStore s off a data) :=
  Keeps.ite (post_keeps h) (setTab_keeps (setBores_keeps hBore h))

theorem measWarm_keeps {s : State} (h : Keeps may was s) : Keeps may was (measWarm s) :=
  Keeps.beside h

theorem measStart_keeps {s : State} (hBore : may.bore = true) (h : Keeps may was s) : Keeps may was (measStart s) :=
  Keeps.foldl (fun _ _ => wakeReed_keeps hBore) h

theorem containReed_keeps {s : State} {r : Nat} (h : Keeps may was s) : Keeps may was (containReed s r) :=
  setReed_keeps h

theorem freeReed_keeps {s : State} {r : Nat} (hBore : may.bore = true) (h : Keeps may was s) :
    Keeps may was (freeReed s r) :=
  calIssue_keeps (wakeReed_keeps hBore (setReed_keeps h))

theorem padHoldTile_keeps {s : State} {t : Nat} {on : Bool} (hBore : may.bore = true) (h : Keeps may was s) :
    Keeps may was (padHoldTile s t on) :=
  Keeps.foldl
    (fun _ _ a => Keeps.ite (setReed_keeps a) (calIssue_keeps (wakeReed_keeps hBore (setReed_keeps a)))) h

theorem coefStep_keeps {s : State} (h : Keeps may was s) : Keeps may was (coefStep s) :=
  Keeps.ite h (putReg_keeps h)

theorem scEnd_keeps {s : State} {err : Nat} (hCal : may.cal = true) (h : Keeps may was s) : Keeps may was (scEnd s err) := by
  unfold scEnd
  split
  · exact h
  · exact tabEnd_keeps
      (Keeps.ite (Keeps.moveCal hCal (Keeps.ite (setReed_keeps h) h))
      (post_keeps (Keeps.moveCal hCal (Keeps.ite (setReed_keeps h) h))))

theorem coefWrite_keeps {s : State} {w : Word} (hCal : may.cal = true) (h : Keeps may was s) :
    Keeps may was (coefWrite s w) := by
  unfold coefWrite
  dsimp only
  repeat' split
  · exact coefStep_keeps (badEncoding_keeps h)
  · exact coefStep_keeps (scEnd_keeps hCal (setTab_keeps (setCoef_keeps hCal h)))
  · exact coefStep_keeps (setTab_keeps (setCoef_keeps hCal h))
  · exact coefStep_keeps (setTab_keeps (setCoef_keeps hCal h))

theorem coefRead_keeps {s : State} (h : Keeps may was s) : Keeps may was (coefRead s).2 :=
  coefStep_keeps h

theorem execClDataAccess_keeps {s : State} {fn : Fn} {w : Option Word} (hCal : may.cal = true) (h : Keeps may was s) :
    KeepsAll may was (execClDataAccess fn w s) := by
  unfold execClDataAccess
  split
  · exact Keeps.next (wr_keeps (coefWrite_keeps hCal) h)
  · exact Keeps.next (rd_keeps coefRead_keeps h)

theorem scStart_keeps {s : State} {full : Bool} (hCal : may.cal = true) (h : Keeps may was s) :
    Keeps may was (scStart s full) :=
  Keeps.ite (tabRefuse_keeps h)
    (Keeps.ite (tabEnd_keeps (post_keeps (tabStart_keeps h))) (calIssue_keeps (Keeps.moveCal hCal (tabStart_keeps h))))

theorem execClScZero_keeps {s : State} {fn : Fn} (hCal : may.cal = true) (h : Keeps may was s) :
    KeepsAll may was (execClScZero fn s) :=
  tabWrite_keeps (scStart_keeps hCal) h

theorem execClScFull_keeps {s : State} {fn : Fn} (hCal : may.cal = true) (h : Keeps may was s) :
    KeepsAll may was (execClScFull fn s) :=
  tabWrite_keeps (scStart_keeps hCal) h

theorem scDone_keeps {s : State} {idx : Nat} {full : Bool} (hCal : may.cal = true) (h : Keeps may was s) :
    Keeps may was (scDone s idx full) := by
  unfold scDone
  dsimp only
  repeat' split
  · exact h
  · exact h
  · exact scEnd_keeps hCal (setCoef_keeps hCal (setReg_keeps h))
  · exact scEnd_keeps hCal (setReg_keeps h)

theorem execClScDone_keeps {s : State} {idx : BitVec 18} {full : Bool} (hCal : may.cal = true) (h : Keeps may was s) :
    KeepsAll may was (execClScDone idx full s) :=
  Keeps.next (scDone_keeps hCal h)

theorem execClScUrgentTimeout_keeps {s : State} (hCal : may.cal = true) (h : Keeps may was s) :
    KeepsAll may was (execClScUrgentTimeout s) := by
  unfold execClScUrgentTimeout
  split
  · exact Keeps.next h
  · exact KeepsAll.ite (Keeps.next (scEnd_keeps hCal h)) (Keeps.next h)

theorem periodEnd_keeps {s : State} {raw : List Int} {ovr halves : BitVec 8} (h : Keeps may was s) :
    Keeps may was (periodEnd s raw ovr halves) :=
  Keeps.ite h
    (Keeps.ite
    (post_keeps
    (Keeps.foldl (fun _ _ => post_keeps)
    (Keeps.beside
    (setReg_keeps (setReg_keeps (setReg_keeps (setReg_keeps (Keeps.foldl (fun _ _ => setReg_keeps) h))))))))
    (Keeps.foldl (fun _ _ => post_keeps)
    (Keeps.beside
    (setReg_keeps (setReg_keeps (setReg_keeps (setReg_keeps (Keeps.foldl (fun _ _ => setReg_keeps) h))))))))

theorem execMeterPeriodEnd_keeps {s : State} {raw : List Int} {ovr halvesOpen : BitVec 8} (h : Keeps may was s) :
    KeepsAll may was (execMeterPeriodEnd raw ovr halvesOpen s) :=
  Keeps.next (periodEnd_keeps h)

theorem measured_keeps {s : State} {f : Feed} {x : VI} (h : Keeps may was s) : Keeps may was (measured s f x) :=
  calmI_keeps (measI_keeps (measV_keeps h))

theorem permilleNow_keeps {s : State} {ia ib : Int} (h : Keeps may was s) : Keeps may was (permilleNow s ia ib) :=
  Keeps.ite h (shareNow_keeps h)

theorem powerSample_keeps {s : State} {a b ib : VI} (h : Keeps may was s) : Keeps may was (powerSample s a b ib) :=
  Keeps.ite h (shareErrHolds_keeps (Keeps.beside (permilleNow_keeps (measured_keeps (measured_keeps h)))))

theorem execPowerSample_keeps {s : State} {a b ib : VI} (h : Keeps may was s) :
    KeepsAll may was (execPowerSample a b ib s) :=
  Keeps.next (powerSample_keeps h)

theorem energyClear_keeps {s : State} {m : Nat} (h : Keeps may was s) : Keeps may was (energyClear s m) :=
  Keeps.beside h

theorem meterWrite_keeps {s : State} {o : Nat} {v : Word} (h : Keeps may was s) : Keeps may was (meterWrite s o v) :=
  Keeps.ite (badEncoding_keeps h) (Keeps.ite (energyClear_keeps (writeReg_keeps h)) (writeReg_keeps h))

theorem execMtPeriodWrite_keeps {s : State} {off : BitVec 12} {v : Word} (h : Keeps may was s) :
    KeepsAll may was (execMtPeriodWrite off v s) :=
  Keeps.next (Keeps.ite (meterWrite_keeps h) h)

theorem execMtEClr_keeps {s : State} {mask : BitVec 3} (h : Keeps may was s) : KeepsAll may was (execMtEClr mask s) :=
  Keeps.next (Keeps.ite (energyClear_keeps (putReg_keeps h)) h)

theorem energyLoRead_keeps {s : State} {p : Nat} (h : Keeps may was s) : Keeps may was (energyLoRead s p).2 :=
  Keeps.beside h

theorem execMtELoRead_keeps {s : State} {pair : Fin 3} (h : Keeps may was s) : KeepsAll may was (execMtELoRead pair s) :=
  Keeps.next (Keeps.ite (answer_keeps (energyLoRead_keeps h)) h)

theorem mtScStat_keeps {s : State} {busy : Bool} {err c : Nat} (h : Keeps may was s) :
    Keeps may was (mtScStat s busy err c) :=
  setReg_keeps h

theorem mtScFail_keeps {s : State} {err c : Nat} (h : Keeps may was s) : Keeps may was (mtScFail s err c) :=
  post_keeps h

theorem mtScStart_keeps {s : State} {c : Nat} {full : Bool} {nper : Nat} (h : Keeps may was s) :
    Keeps may was (mtScStart s c full nper) :=
  Keeps.ite h (Keeps.ite (mtScFail_keeps (putReg_keeps h)) (mtScStat_keeps (Keeps.beside h)))

theorem mtScWrite_keeps {s : State} {v : Word} (h : Keeps may was s) : Keeps may was (mtScWrite s v) := by
  unfold mtScWrite
  split
  · exact mtScStart_keeps h
  · exact mtScStart_keeps h
  · exact badEncoding_keeps h

theorem execMtScZero_keeps {s : State} {c : Fin 8} {nper : BitVec 4} (h : Keeps may was s) :
    KeepsAll may was (execMtScZero c nper s) :=
  Keeps.next (mtScStart_keeps h)

theorem execMtScFull_keeps {s : State} {c : Fin 8} {nper : BitVec 4} (h : Keeps may was s) :
    KeepsAll may was (execMtScFull c nper s) :=
  Keeps.next (mtScStart_keeps h)

theorem mtScDone_keeps {s : State} {samples : List Int} {ovr : Bool} (h : Keeps may was s) :
    Keeps may was (mtScDone s samples ovr) := by
  unfold mtScDone
  dsimp only
  repeat' split
  · exact h
  · exact h
  · exact mtScStat_keeps (setReg_keeps (Keeps.beside h))
  · exact mtScFail_keeps (mtScStat_keeps (Keeps.beside h))

theorem execMtScDone_keeps {s : State} {samples : List Int} {ovr : Bool} (h : Keeps may was s) :
    KeepsAll may was (execMtScDone samples ovr s) :=
  Keeps.next (mtScDone_keeps h)

theorem captureDone_keeps {s : State} {samples : List (Nat × Word)} (h : Keeps may was s) :
    Keeps may was (captureDone s samples) := by
  unfold captureDone
  split
  · exact Keeps.beside h
  · exact h

theorem execTripCaptureDone_keeps {s : State} {samples : List (Nat × Word)} (h : Keeps may was s) :
    KeepsAll may was (execTripCaptureDone samples s) :=
  Keeps.next (captureDone_keeps h)

theorem driftCheck_keeps {s : State} {ch : Nat} (h : Keeps may was s) : Keeps may was (driftCheck s ch) :=
  Keeps.ite (post_keeps (setLoopCh_keeps h)) (Keeps.ite (setLoopCh_keeps h) h)

theorem loopEvaluate_keeps {s : State} {ch : Nat} (hChans : may.chans = true) (hBore : may.bore = true)
    (h : Keeps may was s) : Keeps may was (loopEvaluate s ch) :=
  Keeps.ite (Keeps.ite (loopCheck_keeps hBore h) h)
    (driftCheck_keeps
    (Keeps.ite
    (post_keeps
    (Keeps.ite
    (post_keeps
    (Keeps.ite (setLoopCh_keeps (Keeps.ite (loopCheck_keeps hBore h) h))
    (bumpReg_keeps (setChan_keeps hChans (setLoopCh_keeps (Keeps.ite (loopCheck_keeps hBore h) h))))))
    (Keeps.ite (setLoopCh_keeps (Keeps.ite (loopCheck_keeps hBore h) h))
    (bumpReg_keeps (setChan_keeps hChans (setLoopCh_keeps (Keeps.ite (loopCheck_keeps hBore h) h)))))))
    (Keeps.ite
    (post_keeps
    (Keeps.ite (setLoopCh_keeps (Keeps.ite (loopCheck_keeps hBore h) h))
    (bumpReg_keeps (setChan_keeps hChans (setLoopCh_keeps (Keeps.ite (loopCheck_keeps hBore h) h))))))
    (Keeps.ite (setLoopCh_keeps (Keeps.ite (loopCheck_keeps hBore h) h))
    (bumpReg_keeps (setChan_keeps hChans (setLoopCh_keeps (Keeps.ite (loopCheck_keeps hBore h) h))))))))

theorem execLoopEvaluate_keeps {s : State} {ch : Chan} (hChans : may.chans = true) (hBore : may.bore = true)
    (h : Keeps may was s) : KeepsAll may was (execLoopEvaluate ch s) :=
  Keeps.next (loopEvaluate_keeps hChans hBore h)

theorem execLoopStale_keeps {s : State} {ch : Chan} (h : Keeps may was s) : KeepsAll may was (execLoopStale ch s) :=
  Keeps.next (Keeps.ite (post_keeps (setLoopCh_keeps h)) h)

theorem loopResume_keeps {s : State} {r : Nat} (h : Keeps may was s) : Keeps may was (loopResume s r) :=
  Keeps.foldl (fun _ _ => setLoopCh_keeps) (Keeps.beside h)

theorem loopResumeAll_keeps {s : State} (h : Keeps may was s) : Keeps may was (loopResumeAll s) :=
  Keeps.foldl (@loopResume_keeps may was) h

theorem settleHoldEnd_keeps {s : State} {r : Nat} (h : Keeps may was s) : Keeps may was (settleHoldEnd s r) :=
  Keeps.ite h (loopResume_keeps (setReed_keeps h))

theorem execSettleHoldEnd_keeps {s : State} {r : Reed} (h : Keeps may was s) : KeepsAll may was (execSettleHoldEnd r s) :=
  Keeps.next (settleHoldEnd_keeps h)

theorem loopStatRead_keeps {s : State} (h : Keeps may was s) : Keeps may was (loopStatRead s).2 :=
  Keeps.ite (bumpReg_keeps h) h

theorem execLpChStatRead_keeps {s : State} {fn : Fn} (h : Keeps may was s) : KeepsAll may was (execLpChStatRead fn s) :=
  Keeps.next (rd_keeps loopStatRead_keeps h)

theorem loopRegWrite_keeps {s : State} {o : Nat} {v : Word} (h : Keeps may was s) : Keeps may was (loopRegWrite s o v) :=
  Keeps.ite (setTab_keeps (Keeps.ite (setLoopCh_keeps h) (writeReg_keeps h)))
    (Keeps.ite (setLoopCh_keeps h) (writeReg_keeps h))

end Sys2Proof.Machine
end

