-- ==== Sys2Proof/Proofs/KeepsStore.lean ====
section
/-! SUPPORT. What each function of the model keeps: the flash store, parity and the thermal unit. A lemma per function; the
hypotheses name the parts that it may move. -/

namespace Sys2Proof.Machine

open Sys2Proof.Safety

variable {may : Moves} {was : State}

theorem feedSend_keeps {s : State} {w : FeedWait} (h : Keeps may was s) : Keeps may was (feedSend s w) := by
  unfold feedSend
  split
  · exact Keeps.beside (sendToFeed_keeps (sendToFeed_keeps h))
  · exact Keeps.beside (sendToFeed_keeps h)

theorem feedAccess_keeps {s : State} {w : FeedWait} (h : Keeps may was s) : Keeps may was (feedAccess s w) :=
  Keeps.ite h (Keeps.ite (Keeps.beside h) (feedSend_keeps h))

theorem feedWrite_keeps {s : State} {off : Nat} {v : Word} (h : Keeps may was s) : Keeps may was (feedWrite s off v) :=
  feedAccess_keeps h

theorem sendStop_keeps {s : State} (h : Keeps may was s) : Keeps may was (sendStop s) :=
  feedWrite_keeps h

theorem orderlyStop_keeps {s : State} (h : Keeps may was s) : Keeps may was (orderlyStop s) :=
  Keeps.ite (sendStop_keeps h)
    (Keeps.ite (feedWrite_keeps (Keeps.ite (feedWrite_keeps (sendStop_keeps h)) (sendStop_keeps h)))
    (Keeps.ite (feedWrite_keeps (sendStop_keeps h)) (sendStop_keeps h)))

theorem sparesCheck_keeps {s : State} {free : Nat} (h : Keeps may was s) : Keeps may was (sparesCheck s free) :=
  Keeps.ite
    (post_keeps (Keeps.ite (post_keeps (Keeps.beside (putReg_keeps h))) (Keeps.beside (putReg_keeps h))))
    (Keeps.ite (post_keeps (Keeps.beside (putReg_keeps h))) (Keeps.beside (putReg_keeps h)))

theorem wearCheck_keeps {s : State} {maxPe minPe : Nat} (h : Keeps may was s) : Keeps may was (wearCheck s maxPe minPe) :=
  Keeps.ite
    (post_keeps
    (Keeps.ite (post_keeps (Keeps.beside (setReg_keeps (setReg_keeps h))))
    (Keeps.beside (setReg_keeps (setReg_keeps h)))))
    (Keeps.ite (post_keeps (Keeps.beside (setReg_keeps (setReg_keeps h))))
    (Keeps.beside (setReg_keeps (setReg_keeps h))))

theorem trainIf_keeps {s : State} (h : Keeps may was s) : Keeps may was (trainIf s) :=
  setReg_keeps h

theorem metaPage_keeps {s : State} (h : Keeps may was s) : Keeps may was (metaPage s) := by
  unfold metaPage
  split
  · exact h
  · exact Keeps.beside h

theorem metaFirst_keeps {s : State} (h : Keeps may was s) : Keeps may was (metaFirst s) :=
  Keeps.beside (metaPage_keeps h)

theorem flashMount_keeps {s : State} {m : Medium} {torn : List TornPage} {fallback : Bool} (h : Keeps may was s) :
    Keeps may was (flashMount s m torn fallback) := by
  unfold flashMount
  dsimp only
  repeat' split
  · exact h
  · exact Keeps.foldl (fun _ _ => post_keeps)
      (trainIf_keeps
      (putReg_keeps
      (setReg_keeps (putReg_keeps (setReg_keeps (setReg_keeps (setReg_keeps (setReg_keeps (Keeps.beside h)))))))))
  · exact Keeps.foldl (fun _ _ => post_keeps)
      (trainIf_keeps
      (putReg_keeps
      (setReg_keeps (putReg_keeps (setReg_keeps (setReg_keeps (setReg_keeps (setReg_keeps (Keeps.beside h)))))))))
  · exact post_keeps
      (journal_keeps
      (Keeps.foldl (fun _ _ => post_keeps)
      (trainIf_keeps
      (putReg_keeps
      (setReg_keeps
      (putReg_keeps (setReg_keeps (setReg_keeps (setReg_keeps (setReg_keeps (Keeps.beside h)))))))))))
  · exact post_keeps
      (journal_keeps
      (Keeps.foldl (fun _ _ => post_keeps)
      (trainIf_keeps
      (putReg_keeps
      (setReg_keeps
      (putReg_keeps (setReg_keeps (setReg_keeps (setReg_keeps (setReg_keeps (Keeps.beside h)))))))))))
  · exact post_keeps
      (Keeps.foldl (fun _ _ => post_keeps)
      (trainIf_keeps
      (putReg_keeps
      (setReg_keeps (putReg_keeps (setReg_keeps (setReg_keeps (setReg_keeps (setReg_keeps (Keeps.beside h))))))))))
  · exact post_keeps
      (Keeps.foldl (fun _ _ => post_keeps)
      (trainIf_keeps
      (putReg_keeps
      (setReg_keeps (putReg_keeps (setReg_keeps (setReg_keeps (setReg_keeps (setReg_keeps (Keeps.beside h))))))))))
  · exact post_keeps
      (post_keeps
      (journal_keeps
      (Keeps.foldl (fun _ _ => post_keeps)
      (trainIf_keeps
      (putReg_keeps
      (setReg_keeps
      (putReg_keeps (setReg_keeps (setReg_keeps (setReg_keeps (setReg_keeps (Keeps.beside h))))))))))))
  · exact post_keeps
      (post_keeps
      (journal_keeps
      (Keeps.foldl (fun _ _ => post_keeps)
      (trainIf_keeps
      (putReg_keeps
      (setReg_keeps
      (putReg_keeps (setReg_keeps (setReg_keeps (setReg_keeps (setReg_keeps (Keeps.beside h))))))))))))
  · exact postFree_keeps
      (Keeps.foldl (fun _ _ => post_keeps)
      (trainIf_keeps
      (putReg_keeps
      (setReg_keeps (putReg_keeps (setReg_keeps (setReg_keeps (setReg_keeps (setReg_keeps (Keeps.beside h))))))))))
  · exact postFree_keeps
      (Keeps.foldl (fun _ _ => post_keeps)
      (trainIf_keeps
      (putReg_keeps
      (setReg_keeps (putReg_keeps (setReg_keeps (setReg_keeps (setReg_keeps (setReg_keeps (Keeps.beside h))))))))))
  · exact postFree_keeps
      (post_keeps
      (journal_keeps
      (Keeps.foldl (fun _ _ => post_keeps)
      (trainIf_keeps
      (putReg_keeps
      (setReg_keeps
      (putReg_keeps (setReg_keeps (setReg_keeps (setReg_keeps (setReg_keeps (Keeps.beside h))))))))))))
  · exact postFree_keeps
      (post_keeps
      (journal_keeps
      (Keeps.foldl (fun _ _ => post_keeps)
      (trainIf_keeps
      (putReg_keeps
      (setReg_keeps
      (putReg_keeps (setReg_keeps (setReg_keeps (setReg_keeps (setReg_keeps (Keeps.beside h))))))))))))

theorem execFlashMount_keeps {s : State} {m : Medium} {torn : List TornPage} {ckptFallback : Bool}
    (h : Keeps may was s) : KeepsAll may was (execFlashMount m torn ckptFallback s) :=
  Keeps.next (flashMount_keeps h)

theorem mountDone_keeps {s : State} {readable : Bool} {ms : BitVec 16} (h : Keeps may was s) :
    Keeps may was (mountDone s readable ms) := by
  unfold mountDone
  split
  · exact Keeps.ite (Keeps.beside (putReg_keeps h))
      (wearCheck_keeps
      (sparesCheck_keeps
      (Keeps.beside (setReg_keeps (Keeps.ite (putReg_keeps h) (metaFirst_keeps (Keeps.beside (putReg_keeps h))))))))
  · exact h

theorem execMountDone_keeps {s : State} {ckptReadable : Bool} {ms : BitVec 16} (h : Keeps may was s) :
    KeepsAll may was (execMountDone ckptReadable ms s) :=
  Keeps.next (mountDone_keeps h)

theorem codewordRead_keeps {s : State} {part lca : Nat} {step : Option Nat} {bits reported : Nat}
    (h : Keeps may was s) : Keeps may was (codewordRead s part lca step bits reported) := by
  have ht : ∀ c : Cmd, (Cmd.meetUncorrectable s.flash part lca c).tag = c.tag := fun c => by
    unfold Cmd.meetUncorrectable
    split
    · rfl
    · dsimp only
      rw [apply_ite Cmd.tag, ite_self]
  unfold codewordRead
  refine Keeps.ite h ?_
  extract_lets key
  split
  · exact post_keeps (bumpReg_keeps (h.moveCmdq (TagsKept.of_map rfl ht)))
  · extract_lets _ s1 s2
    have h2 : Keeps may was s2 := putReg_keeps (Keeps.ite (bumpReg_keeps h) h)
    exact Keeps.ite h2.beside h2

theorem execCodewordRead_keeps {s : State} {part : BitVec 4} {lca : BitVec 28} {step : Option (Fin 17)}
    {bitsCorrected : BitVec 10} {pband : Fin 6} (h : Keeps may was s) :
    KeepsAll may was (execCodewordRead part lca step bitsCorrected pband s) :=
  Keeps.next (codewordRead_keeps h)

theorem execRelocationDone_keeps {s : State} {freeSpare : Nat} {maxPe minPe : Nat} (h : Keeps may was s) :
    KeepsAll may was (execRelocationDone freeSpare maxPe minPe s) := by
  unfold execRelocationDone
  repeat' split
  · exact Keeps.next h
  · exact Keeps.next (wearCheck_keeps (sparesCheck_keeps (notePrograms_keeps (bumpReg_keeps (Keeps.beside h)))))
  · exact Keeps.next (wearCheck_keeps (sparesCheck_keeps (bumpReg_keeps (Keeps.beside h))))

theorem retireBlock_keeps {s : State} {src : Nat} {block : Word} {moves : Nat} (h : Keeps may was s) :
    Keeps may was (retireBlock s src block moves) :=
  Keeps.ite h (sparesCheck_keeps (post_keeps (bumpReg_keeps (Keeps.beside h))))

theorem execProgramFail_keeps {s : State} {block : Word} (h : Keeps may was s) :
    KeepsAll may was (execProgramFail block s) :=
  Keeps.next (retireBlock_keeps h)

theorem execEraseFail_keeps {s : State} {block : Word} (h : Keeps may was s) : KeepsAll may was (execEraseFail block s) :=
  Keeps.next (retireBlock_keeps h)

theorem execWearLevelMove_keeps {s : State} {maxPe minPe : Nat} (h : Keeps may was s) :
    KeepsAll may was (execWearLevelMove maxPe minPe s) :=
  KeepsAll.ite (Keeps.next (wearCheck_keeps h)) (Keeps.next h)

theorem appendRecord_keeps {s : State} {p : Nat} {type : Byte} {payload : List Byte} {damaged : Bool}
    (h : Keeps may was s) : Keeps may was (appendRecord s p type payload damaged) :=
  Keeps.beside h

theorem noteRing_keeps {s : State} {p off len : Nat} (h : Keeps may was s) : Keeps may was (noteRing s p off len) :=
  Keeps.ite (notePrograms_keeps (notePrograms_keeps h)) (notePrograms_keeps h)

theorem makeDurable_keeps {s : State} {c : MetaChange} (h : Keeps may was s) : Keeps may was (makeDurable s c) := by
  unfold makeDurable
  repeat' split
  · exact noteRing_keeps (Keeps.beside h)
  · exact setRes_keeps (journal_keeps (notePrograms_keeps (Keeps.beside h)))
  · exact journal_keeps (notePrograms_keeps (Keeps.beside h))

theorem allDurable_keeps {s : State} (h : Keeps may was s) : Keeps may was (allDurable s) :=
  Keeps.foldl (@makeDurable_keeps may was) (metaPage_keeps (Keeps.beside h))

theorem execMetadataDurable_keeps {s : State} (h : Keeps may was s) : KeepsAll may was (execMetadataDurable s) :=
  Keeps.next (Keeps.ite (allDurable_keeps h) h)

theorem itemBytes_keeps {s : State} {it : JItem} (hBore : may.bore = true) (h : Keeps may was s) :
    Keeps may was (itemBytes s it).1 := by
  unfold itemBytes
  split
  · exact h
  · exact parSpan_keeps hBore h

theorem execRingAppend_keeps {s : State} {part : Fin 3} {type : Byte} {payload : List Byte} (hBore : may.bore = true)
    (h : Keeps may was s) : KeepsAll may was (execRingAppend part type payload s) := by
  unfold execRingAppend
  dsimp only
  repeat' split
  · exact Keeps.next h
  · exact Keeps.next (appendRecord_keeps h)
  · exact Keeps.next (appendRecord_keeps (itemBytes_keeps hBore (Keeps.beside h)))

theorem execTripCaptureWrite_keeps {s : State} (h : Keeps may was s) : KeepsAll may was (execTripCaptureWrite s) :=
  KeepsAll.ite (Keeps.next h) (Keeps.next (trReleaseFx_keeps (journal_keeps (appendRecord_keeps h))))

theorem scrubRate_keeps {s : State} {left elapsed : Nat} (h : Keeps may was s) :
    Keeps may was (scrubRate s left elapsed) :=
  Keeps.ite h (Keeps.ite (putReg_keeps (putReg_keeps h)) (setReg_keeps (Keeps.beside h)))

theorem execScrubRateUpdate_keeps {s : State} {pagesLeft : Nat} {elapsedS : Nat} (h : Keeps may was s) :
    KeepsAll may was (execScrubRateUpdate pagesLeft elapsedS s) :=
  Keeps.next (scrubRate_keeps h)

theorem newPass_keeps {s : State} (h : Keeps may was s) : Keeps may was (newPass s) :=
  putReg_keeps (putReg_keeps (Keeps.beside h))

theorem execScrubPassEnd_keeps {s : State} (h : Keeps may was s) : KeepsAll may was (execScrubPassEnd s) :=
  KeepsAll.ite (Keeps.next h) (Keeps.next (newPass_keeps (bumpReg_keeps (Keeps.beside h))))

theorem execScrubDebt_keeps {s : State} {blocks : BitVec 20} (h : Keeps may was s) :
    KeepsAll may was (execScrubDebt blocks s) :=
  KeepsAll.ite (Keeps.next h) (Keeps.next (post_keeps (satReg_keeps h)))

theorem flashBand_keeps {s : State} {old new : Nat} (h : Keeps may was s) : Keeps may was (flashBand s old new) :=
  Keeps.ite
    (putReg_keeps
    (Keeps.beside (Keeps.ite (Keeps.beside (Keeps.ite (trainIf_keeps h) h)) (Keeps.ite (trainIf_keeps h) h))))
    (Keeps.ite
    (putReg_keeps
    (journal_keeps
    (Keeps.beside (Keeps.ite (Keeps.beside (Keeps.ite (trainIf_keeps h) h)) (Keeps.ite (trainIf_keeps h) h)))))
    (Keeps.ite (Keeps.beside (Keeps.ite (trainIf_keeps h) h)) (Keeps.ite (trainIf_keeps h) h)))

theorem execIfRetrain_keeps {s : State} (h : Keeps may was s) : KeepsAll may was (execIfRetrain s) :=
  Keeps.next (Keeps.ite (trainIf_keeps h) h)

theorem quiesce_keeps {s : State} {cause : Nat} (h : Keeps may was s) : Keeps may was (quiesce s cause) :=
  Keeps.ite (Keeps.beside h) h

theorem resumeFlash_keeps {s : State} (h : Keeps may was s) : Keeps may was (resumeFlash s) :=
  Keeps.ite (Keeps.beside h) h

theorem nfCmd_keeps {s : State} {c : Nat} (h : Keeps may was s) : Keeps may was (nfCmd s c) := by
  unfold nfCmd
  split
  · exact Keeps.ite (quiesce_keeps h) (refusedCtrl_keeps h)
  · exact Keeps.ite (resumeFlash_keeps h) (refusedCtrl_keeps h)
  · exact Keeps.ite (Keeps.ite (newPass_keeps h) (putReg_keeps (newPass_keeps h))) h
  · exact badEncoding_keeps h

theorem execNfQuiesce_keeps {s : State} {fn : Fn} (h : Keeps may was s) : KeepsAll may was (execNfQuiesce fn s) :=
  Keeps.next (wr_keeps nfCmd_keeps h)

theorem execNfResume_keeps {s : State} {fn : Fn} (h : Keeps may was s) : KeepsAll may was (execNfResume fn s) :=
  Keeps.next (wr_keeps nfCmd_keeps h)

theorem execNfScrubNow_keeps {s : State} {fn : Fn} (h : Keeps may was s) : KeepsAll may was (execNfScrubNow fn s) :=
  Keeps.next (wr_keeps nfCmd_keeps h)

theorem execQuiesceDone_keeps {s : State} (h : Keeps may was s) : KeepsAll may was (execQuiesceDone s) :=
  KeepsAll.ite (Keeps.next h)
    (Keeps.next
    (Keeps.ite
    (orderlyStop_keeps
    (Keeps.ite (resumeFlash_keeps (Keeps.beside (allDurable_keeps (Keeps.ite (appendRecord_keeps h) h))))
    (Keeps.beside (allDurable_keeps (Keeps.ite (appendRecord_keeps h) h)))))
    (Keeps.ite (resumeFlash_keeps (Keeps.beside (allDurable_keeps (Keeps.ite (appendRecord_keeps h) h))))
    (Keeps.beside (allDurable_keeps (Keeps.ite (appendRecord_keeps h) h))))))

theorem flashOff_keeps {s : State} (h : Keeps may was s) : Keeps may was (flashOff s) :=
  Keeps.beside h

theorem consumerFails_keeps {s : State} {a : Nat} (hSlots : may.slots = true) (hBore : may.bore = true)
    (h : Keeps may was s) : Keeps may was (consumerFails s a) := by
  unfold consumerFails
  split
  · refine Keeps.foldl (fun u k hu => Keeps.ite hu ?_) h
    split
    · exact rejectPlan_keeps hSlots hBore hu
    · exact hu
  · exact Keeps.foldl (fun _ _ hu => Keeps.ite hu (Keeps.ite (rejectPlan_keeps hSlots hBore hu)
      (Keeps.ite (rejectAdmission_keeps hSlots hBore hu) hu))) h
  · exact accParity_keeps hBore h
  · exact Keeps.ite (rejectPlan_keeps hSlots hBore (postFree_keeps h)) h
  · exact h

theorem execBoreReplay_keeps {s : State} {addr : BitVec 26} {pass : Bool} (hSlots : may.slots = true)
    (hBore : may.bore = true) (h : Keeps may was s) : KeepsAll may was (execBoreReplay addr pass s) :=
  KeepsAll.ite (Keeps.next h)
    (KeepsAll.ite (Keeps.next (borePost_keeps (bumpReg_keeps h)))
    (Keeps.next
    (Keeps.ite (regionNote_keeps (parFail_keeps hBore h))
    (consumerFails_keeps hSlots hBore (regionNote_keeps (parFail_keeps hBore h))))))

theorem strayFail_keeps {s : State} {a : Nat} (hBore : may.bore = true) (h : Keeps may was s) :
    Keeps may was (strayFail s a) :=
  Keeps.ite (accParity_keeps hBore (parFail_keeps hBore h)) (parFail_keeps hBore h)

theorem execPatrolRead_keeps {s : State} (hBore : may.bore = true) (h : Keeps may was s) :
    KeepsAll may was (execPatrolRead s) :=
  KeepsAll.ite (Keeps.next h)
    (KeepsAll.ite (Keeps.next (Keeps.moveBore hBore (fun a => a) (Keeps.ite (strayFail_keeps hBore h) h)))
    (Keeps.next (bumpReg_keeps (Keeps.moveBore hBore (fun a => a) (Keeps.ite (strayFail_keeps hBore h) h)))))

theorem execBoreInit_keeps {s : State} (hBore : may.bore = true) (h : Keeps may was s) :
    KeepsAll may was (execBoreInit s) :=
  KeepsAll.ite (Keeps.next (Keeps.moveBore hBore (fun a => a) h)) (Keeps.next h)

theorem updateTile_keeps {s : State} {t : Nat} (h : Keeps may was s) : Keeps may was (updateTile s t) :=
  Keeps.ite (post_keeps (Keeps.beside (kernelPass_keeps h))) (Keeps.beside (kernelPass_keeps h))

theorem bandMove_keeps {s : State} (hSlots : may.slots = true) (h : Keeps may was s) : Keeps may was (bandMove s) :=
  Keeps.ite h (redoAll_keeps hSlots (flashBand_keeps (post_keeps (Keeps.beside h))))

theorem setRequest_keeps {s : State} {r : Fin 9} {why : Nat} (h : Keeps may was s) : Keeps may was (setRequest s r why) :=
  Keeps.ite (Keeps.beside h) (post_keeps (Keeps.beside h))

theorem shutStop_keeps {s : State} (h : Keeps may was s) : Keeps may was (shutStop s) :=
  Keeps.ite h (Keeps.ite (quiesce_keeps (Keeps.beside h)) (Keeps.beside h))

theorem crossed_keeps {s : State} {old : Bool} {thr src : Nat} (h : Keeps may was s) :
    Keeps may was (crossed s old thr src) :=
  Keeps.ite (post_keeps h) h

theorem requestUpdate_keeps {s : State} {old : Option Rat} (hPark : may.park = true) (h : Keeps may was s) :
    Keeps may was (requestUpdate s old) := by
  unfold requestUpdate
  extract_lets q had s1 s2 hot s3 _ s4 r1 r2 r3 r4 s5
  have h1 : Keeps may was s1 := crossed_keeps (crossed_keeps (crossed_keeps h))
  have h2 : Keeps may was s2 := Keeps.ite (shutStop_keeps h1) h1
  have h4 : Keeps may was s4 := (show Keeps may was s3 from Keeps.ite (parkEvent_keeps hPark h2) h2).beside
  have h5 : Keeps may was s5 := setRequest_keeps h4
  exact Keeps.ite (Keeps.ite h5 h5.beside) (Keeps.ite (setRequest_keeps h4) (setRequest_keeps h4.beside))

theorem timeUpdate_keeps {s : State} (h : Keeps may was s) : Keeps may was (timeUpdate s) :=
  Keeps.beside h

theorem modelUpdate_keeps {s : State} (hPark : may.park = true) (hSlots : may.slots = true) (h : Keeps may was s) :
    Keeps may was (modelUpdate s) := by
  unfold modelUpdate
  dsimp only
  repeat' split
  · exact h
  · exact timeUpdate_keeps
      (requestUpdate_keeps hPark (bandMove_keeps hSlots (Keeps.beside (Keeps.foldl (@updateTile_keeps may was) h))))
  · exact timeUpdate_keeps
      (requestUpdate_keeps hPark (bandMove_keeps hSlots (Keeps.beside (Keeps.foldl (@updateTile_keeps may was) h))))
  · exact timeUpdate_keeps
      (requestUpdate_keeps hPark (bandMove_keeps hSlots (Keeps.beside (Keeps.foldl (@updateTile_keeps may was) h))))
  · exact timeUpdate_keeps
      (requestUpdate_keeps hPark (bandMove_keeps hSlots (Keeps.beside (Keeps.foldl (@updateTile_keeps may was) h))))

theorem execModelUpdate_keeps {s : State} (hPark : may.park = true) (hSlots : may.slots = true) (h : Keeps may was s) :
    KeepsAll may was (execModelUpdate s) :=
  Keeps.next (modelUpdate_keeps hPark hSlots h)

theorem execShutWaitExpired_keeps {s : State} (h : Keeps may was s) : KeepsAll may was (execShutWaitExpired s) :=
  Keeps.next (Keeps.ite (sendStop_keeps h) h)

theorem thermClimb_keeps {s : State} (h : Keeps may was s) : Keeps may was (thermClimb s) :=
  Keeps.ite (setRequest_keeps (Keeps.beside h)) h

theorem execThermClimb_keeps {s : State} (h : Keeps may was s) : KeepsAll may was (execThermClimb s) :=
  Keeps.next (thermClimb_keeps h)

theorem thermHoldFall_keeps {s : State} (h : Keeps may was s) : Keeps may was (thermHoldFall s) :=
  Keeps.ite h (Keeps.beside (setRequest_keeps (Keeps.beside h)))

theorem execThermHoldFall_keeps {s : State} (h : Keeps may was s) : KeepsAll may was (execThermHoldFall s) :=
  Keeps.next (thermHoldFall_keeps h)

theorem startTile_keeps {s : State} {t : Nat} {reads : List (Rat × Bool)} (h : Keeps may was s) :
    Keeps may was (startTile s t reads) :=
  Keeps.ite h (Keeps.beside h)

theorem baseStep_keeps {bases : Nat → Rat} {srcs : Nat → Nat} {s : State} {t : Nat} (h : Keeps may was s) :
    Keeps may was (baseStep bases srcs s t) := by
  unfold baseStep
  extract_lets g period tau f th s1 old
  have h1 : Keeps may was s1 := h.beside
  split
  · exact post_keeps h1
  · exact h1.beside

theorem diodeRound_keeps {s : State} (hBore : may.bore = true) (h : Keeps may was s) : Keeps may was (diodeRound s) := by
  unfold diodeRound
  refine Keeps.ite h ?_
  extract_lets s1 fresh acts reads s2 eOf es e moved s3 bases srcs s4
  have h2 : Keeps may was s2 :=
    Keeps.foldl (fun _ _ hu => startTile_keeps hu) (Keeps.foldl (fun _ _ hu => accCheck_keeps hBore hu) h)
  have h3 : Keeps may was s3 := by
    refine Keeps.foldl (fun u m hu => ?_) h2
    dsimp only
    split
    · exact post_keeps hu.beside
    · exact hu.beside
  have h4 : Keeps may was s4 := Keeps.foldl (fun _ _ hu => baseStep_keeps hu) h3
  exact Keeps.ite h4 h4.beside

theorem execDiodeRound_keeps {s : State} (hBore : may.bore = true) (h : Keeps may was s) :
    KeepsAll may was (execDiodeRound s) :=
  Keeps.next (diodeRound_keeps hBore h)

theorem diodeClr_keeps {s : State} {j : Nat} (h : Keeps may was s) : Keeps may was (diodeClr s j) :=
  Keeps.ite (refusedCtrl_keeps h) (Keeps.ite (Keeps.beside h) h)

theorem execTpDiodeClr_keeps {s : State} {fn : Fn} {j : Fin 64} (h : Keeps may was s) :
    KeepsAll may was (execTpDiodeClr fn j s) :=
  Keeps.next (wr_keeps diodeClr_keeps h)

theorem threshWrite_keeps {s : State} {v : Word} (h : Keeps may was s) : Keeps may was (threshWrite s v) :=
  Keeps.ite (setReg_keeps h) (refusedCtrl_keeps h)

theorem execTpThreshWrite_keeps {s : State} {fn : Fn} {v : Word} (h : Keeps may was s) :
    KeepsAll may was (execTpThreshWrite fn v s) :=
  Keeps.next (wr_keeps threshWrite_keeps h)

theorem kAdvance_keeps {s : State} (h : Keeps may was s) : Keeps may was (kAdvance s) :=
  Keeps.ite (bumpReg_keeps h) h

theorem kDirty_keeps {s : State} (h : Keeps may was s) : Keeps may was (kDirty s) :=
  setTab_keeps h

theorem kernelPut_keeps {s : State} {i : Nat} {v : Word} (h : Keeps may was s) : Keeps may was (kernelPut s i v) :=
  kDirty_keeps (Keeps.beside (Keeps.ite (useCheck_keeps h) h))

theorem kDataWrite_keeps {s : State} {v : Word} (hSlots : may.slots = true) (h : Keeps may was s) :
    Keeps may was (kDataWrite s v) :=
  Keeps.ite (badEncoding_keeps (kAdvance_keeps h))
    (redoIf_keeps hSlots (kernelPut_keeps (kAdvance_keeps h)))

theorem execThKDataWrite_keeps {s : State} {fn : Fn} {v : Word} (hSlots : may.slots = true) (h : Keeps may was s) :
    KeepsAll may was (execThKDataWrite fn v s) :=
  Keeps.next (wr_keeps (kDataWrite_keeps hSlots) h)

theorem tileClassWrite_keeps {s : State} {j : Nat} {v : Word} (hSlots : may.slots = true) (h : Keeps may was s) :
    Keeps may was (tileClassWrite s j v) := by
  unfold tileClassWrite
  exact redoIf_keeps hSlots (kDirty_keeps (setReg_keeps h))

theorem execThTileClassWrite_keeps {s : State} {fn : Fn} {j : Fin 4} {v : Word} (hSlots : may.slots = true)
    (h : Keeps may was s) : KeepsAll may was (execThTileClassWrite fn j v s) := by
  unfold execThTileClassWrite
  exact Keeps.next (wr_keeps (tileClassWrite_keeps hSlots) h)

theorem kDataRead_keeps {s : State} (h : Keeps may was s) : Keeps may was (kDataRead s).2 :=
  kAdvance_keeps (kernelRead_keeps h)

theorem execThKDataRead_keeps {s : State} {fn : Fn} (h : Keeps may was s) : KeepsAll may was (execThKDataRead fn s) :=
  Keeps.next (rd_keeps kDataRead_keeps h)

theorem elTempRead_keeps {s : State} (h : Keeps may was s) : Keeps may was (elTempRead s).2 :=
  Keeps.ite (bumpReg_keeps h) h

theorem execThElTempRead_keeps {s : State} {fn : Fn} (h : Keeps may was s) : KeepsAll may was (execThElTempRead fn s) :=
  Keeps.next (rd_keeps elTempRead_keeps h)

theorem nodeRead_keeps {s : State} (h : Keeps may was s) : Keeps may was (nodeRead s).2 :=
  Keeps.ite (putReg_keeps (putReg_keeps h)) h

theorem execThNodeRead_keeps {s : State} {fn : Fn} (h : Keeps may was s) : KeepsAll may was (execThNodeRead fn s) :=
  Keeps.next (rd_keeps nodeRead_keeps h)

theorem diodeERead_keeps {s : State} (h : Keeps may was s) : Keeps may was (diodeERead s).2 :=
  Keeps.ite (bumpReg_keeps h) h

theorem execTpDiodeERead_keeps {s : State} {fn : Fn} (h : Keeps may was s) : KeepsAll may was (execTpDiodeERead fn s) :=
  Keeps.next (rd_keeps diodeERead_keeps h)

end Sys2Proof.Machine
end

