-- ==== Sys2Proof/Proofs/KeepsBell.lean ====
section
/-! SUPPORT. What each function of the model keeps: the Bell, the resets of functions and the shelf link. A lemma per
function; the hypotheses name the parts that it may move. -/

namespace Sys2Proof.Machine

open Sys2Proof.Safety

variable {may : Moves} {was : State}

theorem ringOverwrite_keeps {s : State} {n : Word} (h : Keeps may was s) : Keeps may was (ringOverwrite s n) :=
  Keeps.ite h (post_keeps (irqSet_keeps (bumpReg_keeps (journal_keeps (setReg_keeps h)))))

theorem record_keeps {s : State} {m : Msg} {conseq opener : Bool} {shid sev : Nat} (hBore : may.bore = true)
    (h : Keeps may was s) : Keeps may was (record s m conseq opener shid sev) :=
  Keeps.ite
    (setBores_keeps hBore
    (ringOverwrite_keeps (Keeps.ite (Keeps.beside (setReg_keeps (Keeps.beside h))) (setReg_keeps (Keeps.beside h)))))
    (Keeps.ite (Keeps.beside (Keeps.ite (Keeps.beside (setReg_keeps (Keeps.beside h))) (setReg_keeps (Keeps.beside h))))
    (bellLost_keeps (Keeps.ite (Keeps.beside (setReg_keeps (Keeps.beside h))) (setReg_keeps (Keeps.beside h)))))

theorem noteShadowed_keeps {s : State} {shid : Nat} {m : Msg} (h : Keeps may was s) :
    Keeps may was (noteShadowed s shid m) :=
  Keeps.beside h

theorem disableSq_keeps {s : State} {q : Nat} (h : Keeps may was s) : Keeps may was (disableSq s q) :=
  Keeps.ite h (setSq_keeps (putReg_keeps h))

theorem emptySlot_keeps {s : State} {k : Nat} (hSlots : may.slots = true) (hBore : may.bore = true)
    (h : Keeps may was s) : Keeps may was (emptySlot s k) :=
  planDone_keeps hBore (endReq_keeps hBore (setSlot_keeps hSlots (fun e => by cases e) (fun e => by cases e) h))

theorem holdAcc_keeps {s : State} {i : Nat} (hBore : may.bore = true) (h : Keeps may was s) :
    Keeps may was (holdAcc s i) :=
  Keeps.beside (accRestart_keeps hBore h)

theorem containOne_keeps {s : State} {page : Nat} {i : Nat} (hSlots : may.slots = true) (hBore : may.bore = true)
    (h : Keeps may was s) : Keeps may was (containOne page s i) := by
  unfold containOne
  split
  · exact setReed_keeps h
  · exact containReed_keeps h
  · exact holdAcc_keeps hBore h
  · exact Keeps.beside h
  · exact quiesce_keeps h
  · exact disableSq_keeps h
  · exact emptySlot_keeps hSlots hBore h
  · exact h

theorem freeOne_keeps {s : State} {page : Nat} {i : Nat} (hBore : may.bore = true) (h : Keeps may was s) :
    Keeps may was (freeOne page s i) := by
  unfold freeOne
  split
  · exact loopResume_keeps (setReed_keeps h)
  · exact freeReed_keeps hBore h
  · exact Keeps.beside h
  · exact Keeps.beside h
  · exact resumeFlash_keeps h
  · exact h

theorem contain_keeps {s : State} {page src : Nat} {targets : List Nat} (hSlots : may.slots = true)
    (hBore : may.bore = true) (h : Keeps may was s) : Keeps may was (contain s page src targets) :=
  Keeps.beside (Keeps.foldl (fun _ _ => containOne_keeps hSlots hBore) (openShadow_keeps h))

theorem uncontain_keeps {s : State} {page src : Nat} (hBore : may.bore = true) (h : Keeps may was s) :
    Keeps may was (uncontain s page src) :=
  Keeps.foldl (fun _ _ => freeOne_keeps hBore) (Keeps.beside h)

theorem unarm_keeps {s : State} {k : Nat} (hSlots : may.slots = true) (hBore : may.bore = true) (h : Keeps may was s) :
    Keeps may was (unarm s k) :=
  Keeps.ite (disarm_keeps hSlots hBore h) h

theorem alert_keeps {s : State} {n : Word} (h : Keeps may was s) : Keeps may was (alert s n) :=
  irqSet_keeps (setReg_keeps h)

theorem parkReaction_keeps {s : State} {page src : Nat} {n : Word} (hPark : may.park = true) (hSlots : may.slots = true)
    (hBore : may.bore = true) (h : Keeps may was s) : Keeps may was (parkReaction s page src n) :=
  Keeps.ite
    (alert_keeps
    (record_keeps hBore
    (setReg_keeps
    (openShadow_keeps
    (Keeps.foldl (fun _ _ => unarm_keeps hSlots hBore)
    (parkEvent_keeps hPark (irqSet_keeps (Keeps.beside (setReg_keeps h)))))))))
    (record_keeps hBore
    (setReg_keeps
    (openShadow_keeps
    (Keeps.foldl (fun _ _ => unarm_keeps hSlots hBore)
    (parkEvent_keeps hPark (irqSet_keeps (Keeps.beside (setReg_keeps h))))))))

theorem settle_keeps {s : State} {m : Msg} {own : Bool} (hPark : may.park = true) (hSlots : may.slots = true)
    (hBore : may.bore = true) (h : Keeps may was s) : Keeps may was (settle s m own) :=
  Keeps.ite
    (parkReaction_keeps hPark hSlots hBore
    (Keeps.ite (alert_keeps (record_keeps hBore (Keeps.ite h (contain_keeps hSlots hBore h))))
    (record_keeps hBore (Keeps.ite h (contain_keeps hSlots hBore h)))))
    (Keeps.ite (alert_keeps (record_keeps hBore (Keeps.ite h (contain_keeps hSlots hBore h))))
    (record_keeps hBore (Keeps.ite h (contain_keeps hSlots hBore h))))

theorem accept_keeps {s : State} {m : Msg} (hPark : may.park = true) (hSlots : may.slots = true)
    (hBore : may.bore = true) (h : Keeps may was s) : Keeps may was (accept s m) := by
  unfold accept
  dsimp only
  split
  · exact record_keeps hBore (noteShadowed_keeps (Keeps.ite h (setReg_keeps h)))
  · exact settle_keeps hPark hSlots hBore (Keeps.ite h (setReg_keeps h))

theorem bellAccept_keeps {s : State} (hPark : may.park = true) (hSlots : may.slots = true) (hBore : may.bore = true)
    (h : Keeps may was s) : Keeps may was (bellAccept s) := by
  unfold bellAccept
  split
  · exact h
  · exact Keeps.ite h (accept_keeps hPark hSlots hBore (Keeps.beside h))

theorem execBellAccept_keeps {s : State} (hPark : may.park = true) (hSlots : may.slots = true) (hBore : may.bore = true)
    (h : Keeps may was s) : KeepsAll may was (execBellAccept s) :=
  Keeps.next (bellAccept_keeps hPark hSlots hBore h)

theorem shadowClose_keeps {s : State} {shid : Nat} (hPark : may.park = true) (hSlots : may.slots = true)
    (hBore : may.bore = true) (h : Keeps may was s) : Keeps may was (shadowClose s shid) := by
  unfold shadowClose
  split
  · exact h
  · exact Keeps.ite h
      (Keeps.ite (Keeps.foldl (fun _ _ => settle_keeps hPark hSlots hBore) (Keeps.beside h))
      (irqSet_keeps (Keeps.foldl (fun _ _ => settle_keeps hPark hSlots hBore) (Keeps.beside h))))

theorem execShadowClose_keeps {s : State} {shid : Fin 64} (hPark : may.park = true) (hSlots : may.slots = true)
    (hBore : may.bore = true) (h : Keeps may was s) : KeepsAll may was (execShadowClose shid s) :=
  Keeps.next (shadowClose_keeps hPark hSlots hBore h)

theorem execBellJournalCopy_keeps {s : State} (hBore : may.bore = true) (h : Keeps may was s) :
    KeepsAll may was (execBellJournalCopy s) :=
  KeepsAll.ite (Keeps.next (setReg_keeps (appendRecord_keeps (parSpan_keeps hBore h)))) (Keeps.next h)

theorem parkRelease_keeps {s : State} (h : Keeps may was s) : Keeps may was (parkRelease s) :=
  Keeps.ite (Keeps.beside h) h

theorem stickyWrite_keeps {s : State} {page : Nat} {v : Word} (hBore : may.bore = true) (h : Keeps may was s) :
    Keeps may was (stickyWrite s page v) :=
  parkRelease_keeps
    (Keeps.foldl (fun _ _ => uncontain_keeps hBore) (Keeps.ite (setReg_keeps h) (refuseClears_keeps (setReg_keeps h))))

theorem irqStatWrite_keeps {s : State} {page : Nat} {v : Word} (h : Keeps may was s) :
    Keeps may was (irqStatWrite s page v) :=
  Keeps.ite (pageIrq_keeps (setReg_keeps h)) (setReg_keeps h)

theorem irqEnWrite_keeps {s : State} {page : Nat} {v : Word} (h : Keeps may was s) :
    Keeps may was (irqEnWrite s page v) :=
  Keeps.ite (pageIrq_keeps (setReg_keeps h)) (setReg_keeps h)

theorem sevWrite_keeps {s : State} {page : Nat} {v : Word} (h : Keeps may was s) : Keeps may was (sevWrite s page v) :=
  setReg_keeps h

theorem injected_keeps {s : State} {page src : Nat} {detail : Word} (h : Keeps may was s) :
    Keeps may was (injected s page src detail) :=
  Keeps.ite (post_keeps (Keeps.beside h)) (Keeps.beside (Keeps.beside h))

theorem injWrite_keeps {s : State} {page : Nat} {v : Word} (h : Keeps may was s) : Keeps may was (injWrite s page v) := by
  unfold injWrite
  split
  · exact setReg_keeps h
  · exact Keeps.ite (setReg_keeps h) (badEncoding_keeps h)
  · exact injected_keeps (setReg_keeps h)

theorem tileBlk_keeps {s : State} {t : Nat} (hChans : may.chans = true) (hSlots : may.slots = true)
    (h : Keeps may was s) : Keeps may was (tileBlk s t) :=
  redoTile_keeps hSlots (mapChans_keeps hChans h)

theorem blkAction_keeps {s : State} {page : Nat} (hChans : may.chans = true) (hSlots : may.slots = true)
    (hBore : may.bore = true) (h : Keeps may was s) : Keeps may was (blkAction s page) := by
  unfold blkAction
  repeat' split
  · exact tileBlk_keeps hChans hSlots h
  · exact loopResumeAll_keeps h
  · exact Keeps.foldl (fun _ _ a => Keeps.ite a (freeReed_keeps hBore (containReed_keeps a))) h
  · exact Keeps.ite (Keeps.beside (quiesce_keeps h)) (quiesce_keeps h)
  · exact Keeps.foldl (fun _ _ a => Keeps.ite a (accRestart_keeps hBore a)) h
  · exact Keeps.foldl (@disableSq_keeps may was) h
  · exact Keeps.foldl (fun _ _ => emptySlot_keeps hSlots hBore) h
  · exact h

theorem blkReset_keeps {s : State} {page : Nat} (hChans : may.chans = true) (hSlots : may.slots = true)
    (hBore : may.bore = true) (h : Keeps may was s) : Keeps may was (blkReset s page) :=
  Keeps.ite h
    (Keeps.ite
    (alert_keeps (record_keeps hBore (setReg_keeps (blkAction_keeps hChans hSlots hBore (openShadow_keeps h)))))
    (record_keeps hBore (setReg_keeps (blkAction_keeps hChans hSlots hBore (openShadow_keeps h)))))

theorem headerWrite_keeps {s : State} {page o : Nat} {v : Word} (hChans : may.chans = true) (hSlots : may.slots = true)
    (hBore : may.bore = true) (h : Keeps may was s) : Keeps may was (headerWrite s page o v) := by
  unfold headerWrite
  split
  · exact Keeps.ite (blkReset_keeps hChans hSlots hBore h) h
  · exact irqStatWrite_keeps h
  · exact irqEnWrite_keeps h
  · exact stickyWrite_keeps hBore h
  · exact sevWrite_keeps h
  · exact injWrite_keeps h
  · exact h

theorem setJcpVer_keeps {s : State} {fn : Nat} {v : BitVec 8} (h : Keeps may was s) : Keeps may was (setJcpVer s fn v) :=
  h.moveCmdq (TagsKept.of_cmds rfl)

theorem flr_keeps {s : State} {fn : Nat} (h : Keeps may was s) : Keeps may was (flr s fn) := by
  unfold flr
  extract_lets qs cqs tags s1 _ s2 s3 s4 s5 x s6
  have h1 : Keeps may was s1 := Keeps.foldl (fun _ _ hu => dropTag_keeps hu) h
  have h3 : Keeps may was s3 :=
    Keeps.foldl (fun _ _ hu => setSq_keeps (putReg_keeps hu)) (h1.moveCmdq (TagsKept.of_cmds rfl))
  have h5 : Keeps may was s5 := setJcpVer_keeps (Keeps.foldl (fun _ _ hu => setCq_keeps (putReg_keeps hu)) h3)
  exact post_keeps (bumpReg_keeps h5.beside)

theorem flrAll_keeps {s : State} (h : Keeps may was s) : Keeps may was (flrAll s) :=
  Keeps.foldl (@flr_keeps may was) h

theorem linkDown_keeps {s : State} (h : Keeps may was s) : Keeps may was (linkDown s) :=
  Keeps.ite h (post_keeps (Keeps.beside h))

theorem linkReset_keeps {s : State} (h : Keeps may was s) : Keeps may was (linkReset s) :=
  Keeps.beside (flrAll_keeps (linkDown_keeps h))

theorem slTx_keeps {s : State} {p : Port} {fr : SlFrame} (h : Keeps may was s) : Keeps may was (slTx s p fr) := by
  unfold slTx
  split
  · exact Keeps.beside h
  · exact Keeps.beside h

theorem slSend_keeps {s : State} {p : Port} {fr : SlFrame} (h : Keeps may was s) : Keeps may was (slSend s p fr) :=
  Keeps.ite (slTx_keeps h) (Keeps.ite (slTx_keeps h) h)

theorem slRing_keeps {s : State} {fr : SlFrame} (h : Keeps may was s) : Keeps may was (slRing s fr) :=
  slSend_keeps h

theorem slSayHello_keeps {s : State} (h : Keeps may was s) : Keeps may was (slSayHello s) :=
  slRing_keeps h

theorem slSayClaim_keeps {s : State} (h : Keeps may was s) : Keeps may was (slSayClaim s) :=
  Keeps.ite (slRing_keeps h) h

theorem slReceive_keeps {s : State} {p : Port} {fr : SlFrame} {crcOk : Bool} (h : Keeps may was s) :
    Keeps may was (slReceive s p fr crcOk) :=
  Keeps.ite h (Keeps.ite (post_keeps (bumpReg_keeps h)) (Keeps.ite h (slSend_keeps h)))

theorem execSlFrameReceive_keeps {s : State} {p : Port} {fr : SlFrame} {crcOk : Bool} (h : Keeps may was s) :
    KeepsAll may was (execSlFrameReceive p fr crcOk s) :=
  Keeps.next (slReceive_keeps h)

theorem execSlEchoTimer_keeps {s : State} {p : Port} (h : Keeps may was s) : KeepsAll may was (execSlEchoTimer p s) :=
  Keeps.next (Keeps.ite h (slTx_keeps (Keeps.beside h)))

theorem execSlEchoReq_keeps {s : State} {p : Port} {t2 t3 : Nat} {_seq : Word} (h : Keeps may was s) :
    KeepsAll may was (execSlEchoReq p t2 t3 _seq s) :=
  Keeps.next (Keeps.ite h (slTx_keeps h))

theorem execSlEchoRsp_keeps {s : State} {p : Port} {t1 t4 : Nat} {turn : Word} (h : Keeps may was s) :
    KeepsAll may was (execSlEchoRsp p t1 t4 turn s) := by
  unfold execSlEchoRsp
  repeat' split
  · exact Keeps.next h
  · exact Keeps.next (Keeps.beside h)
  · exact Keeps.next (Keeps.beside h)

theorem slUnsync_keeps {s : State} (h : Keeps may was s) : Keeps may was (slUnsync s) :=
  Keeps.ite (post_keeps (Keeps.beside h)) (Keeps.beside h)

theorem slStep_keeps {s : State} {by16 : Nat} (hBore : may.bore = true) (h : Keeps may was s) :
    Keeps may was (slStep s by16) :=
  Keeps.foldl (fun _ _ => schedEnd_keeps hBore) (post_keeps (bumpReg_keeps (Keeps.beside h)))

theorem slStepTo_keeps {s : State} {cc : Nat} (hBore : may.bore = true) (h : Keeps may was s) :
    Keeps may was (slStepTo s cc) :=
  Keeps.ite (slStep_keeps hBore h) h

theorem slTime1_keeps {s : State} {p : Port} {hi : BitVec 16} {master : BitVec 4} (h : Keeps may was s) :
    Keeps may was (slTime1 s p hi master) :=
  Keeps.ite h (Keeps.beside h)

theorem execSlTime1_keeps {s : State} {p : Port} {hi : BitVec 16} {master : BitVec 4} (h : Keeps may was s) :
    KeepsAll may was (execSlTime1 p hi master s) :=
  Keeps.next (slTime1_keeps h)

theorem slBeatSend_keeps {s : State} (h : Keeps may was s) : Keeps may was (slBeatSend s) :=
  Keeps.ite
    (Keeps.ite (Keeps.ite h (slTx_keeps (slTx_keeps h)))
    (slTx_keeps (slTx_keeps (Keeps.ite h (slTx_keeps (slTx_keeps h))))))
    (Keeps.ite (Keeps.ite h (slTx_keeps (slTx_keeps h))) h)

theorem execSlBeatSend_keeps {s : State} (h : Keeps may was s) : KeepsAll may was (execSlBeatSend s) :=
  Keeps.next (slBeatSend_keeps h)

theorem slBeat_keeps {s : State} {p : Port} {beat : Word} {synced : Bool} {arrival16 : Nat} (hBore : may.bore = true)
    (h : Keeps may was s) : Keeps may was (slBeat s p beat synced arrival16) :=
  Keeps.ite h
    (Keeps.ite
    (slUnsync_keeps
    (Keeps.ite (slStep_keeps hBore (tick_keeps (setReg_keeps (Keeps.beside h))))
    (Keeps.beside (tick_keeps (setReg_keeps (Keeps.beside h))))))
    (Keeps.ite
    (Keeps.beside
    (Keeps.ite (slStep_keeps hBore (tick_keeps (setReg_keeps (Keeps.beside h))))
    (Keeps.beside (tick_keeps (setReg_keeps (Keeps.beside h))))))
    (Keeps.ite (slStep_keeps hBore (tick_keeps (setReg_keeps (Keeps.beside h))))
    (Keeps.beside (tick_keeps (setReg_keeps (Keeps.beside h)))))))

theorem execSlBeatReceive_keeps {s : State} {p : Port} {beat : Word} {synced : Bool} {arrival16 : Nat}
    (hBore : may.bore = true) (h : Keeps may was s) : KeepsAll may was (execSlBeatReceive p beat synced arrival16 s) :=
  Keeps.next (slBeat_keeps hBore h)

theorem slElect_keeps {s : State} (h : Keeps may was s) : Keeps may was (slElect s) :=
  slSayClaim_keeps (Keeps.beside h)

theorem slBeatTimeout_keeps {s : State} (h : Keeps may was s) : Keeps may was (slBeatTimeout s) :=
  Keeps.ite h (slElect_keeps (post_keeps (slUnsync_keeps (Keeps.beside h))))

theorem execSlBeatTimeout_keeps {s : State} (h : Keeps may was s) : KeepsAll may was (execSlBeatTimeout s) :=
  Keeps.next (slBeatTimeout_keeps h)

theorem slClaim_keeps {s : State} {w : Word} (h : Keeps may was s) : Keeps may was (slClaim s w) :=
  Keeps.ite h (Keeps.ite (slUnsync_keeps (Keeps.beside (Keeps.beside h))) (Keeps.beside h))

theorem execSlClaim_keeps {s : State} {_p : Port} {data : Word} (h : Keeps may was s) :
    KeepsAll may was (execSlClaim _p data s) :=
  Keeps.next (slClaim_keeps h)

theorem slElectionDone_keeps {s : State} (hBore : may.bore = true) (h : Keeps may was s) :
    Keeps may was (slElectionDone s) := by
  unfold slElectionDone
  dsimp only
  repeat' split
  · exact h
  · exact h
  · exact post_keeps (Keeps.beside (slStepTo_keeps hBore (Keeps.beside (bumpReg_keeps h))))
  · exact post_keeps (tick_keeps (Keeps.beside (slUnsync_keeps (Keeps.beside (bumpReg_keeps h)))))
  · exact post_keeps (tick_keeps (Keeps.beside (Keeps.beside (bumpReg_keeps h))))

theorem execSlElectionDone_keeps {s : State} (hBore : may.bore = true) (h : Keeps may was s) :
    KeepsAll may was (execSlElectionDone s) :=
  Keeps.next (slElectionDone_keeps hBore h)

theorem slRenegotiate_keeps {s : State} (h : Keeps may was s) : Keeps may was (slRenegotiate s) :=
  Keeps.ite h
    (Keeps.ite (post_keeps (Keeps.ite (Keeps.beside h) (slUnsync_keeps (Keeps.beside h))))
    (Keeps.ite (Keeps.beside h) (slUnsync_keeps (Keeps.beside h))))

theorem slRangeCheck_keeps {s : State} (h : Keeps may was s) : Keeps may was (slRangeCheck s) :=
  Keeps.ite (slUnsync_keeps (Keeps.beside h)) h

theorem slDup_keeps {s : State} (h : Keeps may was s) : Keeps may was (slDup s) :=
  post_keeps (slUnsync_keeps (Keeps.beside h))

theorem slHello_keeps {s : State} {src : BitVec 4} {data : Word} {time : Nat} (hBore : may.bore = true)
    (h : Keeps may was s) : Keeps may was (slHello s src data time) := by
  unfold slHello
  extract_lets l x fresh top s1 s2 _ s3
  have h2 : Keeps may was s2 := slRenegotiate_keeps h.beside
  have h3 : Keeps may was s3 := Keeps.ite (slStepTo_keeps hBore h2) h2
  refine Keeps.ite h (Keeps.ite (slDup_keeps h) ?_)
  split
  · exact Keeps.ite (slSayHello_keeps h2.beside) h2
  · exact Keeps.ite (slRangeCheck_keeps h2) (slElect_keeps h2)
  · exact slRangeCheck_keeps h2
  · exact Keeps.ite (slRangeCheck_keeps h3) (Keeps.ite (slElect_keeps h3) h3)

theorem execSlHello_keeps {s : State} {_p : Port} {src : BitVec 4} {_synced : Bool} {data : Word} {time : Nat}
    (hBore : may.bore = true) (h : Keeps may was s) : KeepsAll may was (execSlHello _p src _synced data time s) :=
  Keeps.next (slHello_keeps hBore h)

theorem schedLoad_keeps {s : State} {k : Nat} {cut : Bool} {lo hi : Word} {tag : Option Nat} (hBore : may.bore = true)
    (h : Keeps may was s) : Keeps may was (schedLoad s k cut lo hi tag).1 := by
  unfold schedLoad
  split
  · exact h
  · exact schedArm_keeps hBore (putReg_keeps (setReg_keeps (setReg_keeps h)))

theorem schedNote_keeps {s : State} {pos result : Nat} (h : Keeps may was s) : Keeps may was (schedNote s pos result) :=
  Keeps.ite (putReg_keeps h) (Keeps.ite (putReg_keeps h) (setReg_keeps (putReg_keeps h)))

theorem slSchedCmd_keeps {s : State} {k : Nat} {cut : Bool} (hBore : may.bore = true) (h : Keeps may was s) :
    Keeps may was (slSchedCmd s k cut) :=
  Keeps.ite (refusedCtrl_keeps h)
    (Keeps.ite
    (schedNote_keeps
    (schedLoad_keeps hBore
    (Keeps.beside
    (Keeps.ite (setReg_keeps (setReg_keeps h))
    (Keeps.ite (slRing_keeps (slRing_keeps (setReg_keeps (setReg_keeps h))))
    (Keeps.foldl (fun _ _ a => slRing_keeps (slRing_keeps a)) (setReg_keeps (setReg_keeps h))))))))
    (Keeps.beside
    (Keeps.ite (setReg_keeps (setReg_keeps h))
    (Keeps.ite (slRing_keeps (slRing_keeps (setReg_keeps (setReg_keeps h))))
    (Keeps.foldl (fun _ _ a => slRing_keeps (slRing_keeps a)) (setReg_keeps (setReg_keeps h)))))))

theorem execSlSchedCmd_keeps {s : State} {fn : Fn} {slot : Slot} {cut : Bool} (hBore : may.bore = true)
    (h : Keeps may was s) : KeepsAll may was (execSlSchedCmd fn slot cut s) :=
  Keeps.next (wr_keeps (slSchedCmd_keeps hBore) h)

theorem execSlSched0_keeps {s : State} {src : BitVec 4} {slot : Slot} {cut : Bool} {lo : Word} (h : Keeps may was s) :
    KeepsAll may was (execSlSched0 src slot cut lo s) :=
  Keeps.next (Keeps.ite (Keeps.beside h) h)

theorem slSched1_keeps {s : State} {src : BitVec 4} {k : Nat} {hi : Word} (hBore : may.bore = true)
    (h : Keeps may was s) : Keeps may was (slSched1 s src k hi) := by
  unfold slSched1
  repeat' split
  · exact h
  · exact h
  · exact h
  · exact slRing_keeps (schedLoad_keeps hBore (Keeps.beside h))

theorem execSlSched1_keeps {s : State} {src : BitVec 4} {slot : Slot} {_cut : Bool} {hi : Word}
    (hBore : may.bore = true) (h : Keeps may was s) : KeepsAll may was (execSlSched1 src slot _cut hi s) :=
  Keeps.next (slSched1_keeps hBore h)

theorem slSchedAck_keeps {s : State} {pos : Nat} {result : Nat} (h : Keeps may was s) :
    Keeps may was (slSchedAck s pos result) :=
  Keeps.ite h (schedNote_keeps (Keeps.beside h))

theorem execSlSchedAck_keeps {s : State} {src : BitVec 4} {_slot : Slot} {result : BitVec 5} (h : Keeps may was s) :
    KeepsAll may was (execSlSchedAck src _slot result s) :=
  Keeps.next (slSchedAck_keeps h)

theorem execSlSchedNackTimeout_keeps {s : State} {pos : BitVec 4} (h : Keeps may was s) :
    KeepsAll may was (execSlSchedNackTimeout pos s) :=
  Keeps.next (Keeps.ite (post_keeps (Keeps.beside h)) h)

theorem slDown_keeps {s : State} (h : Keeps may was s) : Keeps may was (slDown s) :=
  Keeps.ite h (slUnsync_keeps (Keeps.beside h))

theorem slWrapped_keeps {s : State} {dnPort : Bool} {pos : BitVec 4} (h : Keeps may was s) :
    Keeps may was (slWrapped s dnPort pos) :=
  Keeps.ite (Keeps.beside h) (post_keeps (Keeps.beside h))

theorem slPortDown_keeps {s : State} {p : Port} (h : Keeps may was s) : Keeps may was (slPortDown s p) :=
  Keeps.ite h
    (Keeps.ite (slDown_keeps (post_keeps (Keeps.beside h)))
    (Keeps.ite (slRing_keeps (slWrapped_keeps (post_keeps (Keeps.beside h)))) (post_keeps (Keeps.beside h))))

theorem execSlPortDown_keeps {s : State} {p : Port} (h : Keeps may was s) : KeepsAll may was (execSlPortDown p s) :=
  Keeps.next (slPortDown_keeps h)

theorem execSlWrap_keeps {s : State} {pos : BitVec 4} {dnPort : Bool} (h : Keeps may was s) :
    KeepsAll may was (execSlWrap pos dnPort s) :=
  Keeps.next (Keeps.ite h (slWrapped_keeps h))

theorem slOpen_keeps {s : State} (h : Keeps may was s) : Keeps may was (slOpen s) :=
  Keeps.ite (slSayHello_keeps (Keeps.beside h)) h

theorem slPortUp_keeps {s : State} {p : Port} (h : Keeps may was s) : Keeps may was (slPortUp s p) :=
  Keeps.ite h
    (Keeps.ite (slOpen_keeps (Keeps.beside h)) (slSayHello_keeps (Keeps.beside (Keeps.beside h))))

theorem execSlPortUp_keeps {s : State} {p : Port} (h : Keeps may was s) : KeepsAll may was (execSlPortUp p s) :=
  Keeps.next (slPortUp_keeps h)

theorem slCtrlWrite_keeps {s : State} {v : Word} (h : Keeps may was s) : Keeps may was (slCtrlWrite s v) :=
  Keeps.ite (slOpen_keeps (writeReg_keeps h)) (slDown_keeps (writeReg_keeps h))

theorem execSlCtrlWrite_keeps {s : State} {fn : Fn} {v : Word} (h : Keeps may was s) :
    KeepsAll may was (execSlCtrlWrite fn v s) :=
  Keeps.next (wr_keeps slCtrlWrite_keeps h)

theorem slTimeLo_keeps {s : State} (h : Keeps may was s) : Keeps may was (slTimeLo s).2 :=
  Keeps.beside h

theorem execSlTimeLoRead_keeps {s : State} {fn : Fn} (h : Keeps may was s) : KeepsAll may was (execSlTimeLoRead fn s) :=
  Keeps.next (rd_keeps slTimeLo_keeps h)

end Sys2Proof.Machine
end

