-- ==== Sys2Proof/Proofs/KeepsPower.lean ====
section
/-! SUPPORT. What each function of the model keeps: power, clocks, resets and boot. A lemma per function; the hypotheses name
the parts that it may move. -/

namespace Sys2Proof.Machine

open Sys2Proof.Safety

variable {may : Moves} {was : State}

theorem tgRedo_keeps {s : State} {k : Nat} (hSlots : may.slots = true) (h : Keeps may was s) :
    Keeps may was (tgRedo s k) :=
  redoIf_keeps hSlots h

theorem tgOff_keeps {s : State} {k : Nat} (hChans : may.chans = true) (hTiles : may.tiles = true)
    (hSlots : may.slots = true) (h : Keeps may was s) : Keeps may was (tgOff s k) :=
  tgRedo_keeps hSlots
    (Keeps.beside (Keeps.foldl (fun _ _ => setTile_keeps hTiles) (mapChans_keeps hChans (Keeps.beside h))))

theorem tgOffAsk_keeps {s : State} {k : Nat} (hChans : may.chans = true) (hTiles : may.tiles = true)
    (hSlots : may.slots = true) (h : Keeps may was s) : Keeps may was (tgOffAsk s k) :=
  Keeps.ite (putReg_keeps h)
    (Keeps.ite (tgOff_keeps hChans hTiles hSlots (putReg_keeps h)) (refusedCtrl_keeps h))

theorem tgOnAsk_keeps {s : State} {k : Nat} (h : Keeps may was s) : Keeps may was (tgOnAsk s k) :=
  Keeps.ite (putReg_keeps h) (Keeps.beside (putReg_keeps h))

theorem execTgDomainOff_keeps {s : State} {fn : Fn} {k : Fin 8} (hChans : may.chans = true) (hTiles : may.tiles = true)
    (hSlots : may.slots = true) (h : Keeps may was s) : KeepsAll may was (execTgDomainOff fn k s) :=
  Keeps.next (wr_keeps (tgOffAsk_keeps hChans hTiles hSlots) h)

theorem execTgDomainOn_keeps {s : State} {fn : Fn} {k : Fin 8} (h : Keeps may was s) :
    KeepsAll may was (execTgDomainOn fn k s) :=
  Keeps.next (wr_keeps tgOnAsk_keeps h)

theorem domCtrlWrite_keeps {s : State} {v : Word} (hChans : may.chans = true) (hTiles : may.tiles = true)
    (hSlots : may.slots = true) (h : Keeps may was s) : Keeps may was (domCtrlWrite s v) :=
  Keeps.foldl (fun _ _ a => Keeps.ite (tgOffAsk_keeps hChans hTiles hSlots a) (tgOnAsk_keeps a)) h

theorem tgOnDone_keeps {s : State} {k : Nat} (hChans : may.chans = true) (hTiles : may.tiles = true)
    (hSlots : may.slots = true) (hBore : may.bore = true) (h : Keeps may was s) : Keeps may was (tgOnDone s k) := by
  unfold tgOnDone
  extract_lets _ s1 s2 s3 m _ s4
  refine Keeps.ite h ?_
  have h1 : Keeps may was s1 := h.beside
  have h2 : Keeps may was s2 := h1.moveChans hChans (tabWf_tabMap _ _ _ _ _)
  have h3 : Keeps may was s3 := Keeps.foldl (fun _ _ hu => setTile_keeps hTiles hu) h2
  exact tgRedo_keeps hSlots (Keeps.foldl (fun _ _ hu => wakeReed_keeps hBore hu) h3.beside)

theorem execTgDomainOnDone_keeps {s : State} {k : Fin 8} (hChans : may.chans = true) (hTiles : may.tiles = true)
    (hSlots : may.slots = true) (hBore : may.bore = true) (h : Keeps may was s) :
    KeepsAll may was (execTgDomainOnDone k s) :=
  Keeps.next (tgOnDone_keeps hChans hTiles hSlots hBore h)

theorem clockLost_keeps {s : State} (hChans : may.chans = true) (hSlots : may.slots = true) (h : Keeps may was s) :
    Keeps may was (clockLost s) :=
  dropReady_keeps hSlots (stopTongues_keeps hChans h)

theorem workArrives_keeps {s : State} (hSlots : may.slots = true) (hBore : may.bore = true) (h : Keeps may was s) :
    Keeps may was (workArrives s) := by
  unfold workArrives
  repeat' split
  · exact h
  · exact bumpReg_keeps (Keeps.beside h)
  · exact acceptWaiting_keeps hSlots hBore (bumpReg_keeps (Keeps.beside h))
  · exact h

theorem execPllWorkArrives_keeps {s : State} (hSlots : may.slots = true) (hBore : may.bore = true)
    (h : Keeps may was s) : KeepsAll may was (execPllWorkArrives s) :=
  Keeps.next (Keeps.ite (workArrives_keeps hSlots hBore h) h)

theorem pllcLocked_keeps {s : State} (hSlots : may.slots = true) (hBore : may.bore = true) (h : Keeps may was s) :
    Keeps may was (pllcLocked s) :=
  Keeps.ite h
    (acceptWaiting_keeps hSlots hBore (Keeps.ite (redoIf_keeps hSlots (Keeps.beside h)) (Keeps.beside h)))

theorem execPllCLocked_keeps {s : State} (hSlots : may.slots = true) (hBore : may.bore = true) (h : Keeps may was s) :
    KeepsAll may was (execPllCLocked s) :=
  Keeps.next (pllcLocked_keeps hSlots hBore h)

theorem endStretch_keeps {s : State} (h : Keeps may was s) : Keeps may was (endStretch s) :=
  Keeps.ite h (putReg_keeps (Keeps.beside h))

theorem execWarmIdleExpired_keeps {s : State} (h : Keeps may was s) : KeepsAll may was (execWarmIdleExpired s) :=
  Keeps.next (Keeps.ite (Keeps.beside (endStretch_keeps h)) h)

theorem execSleepIdleExpired_keeps {s : State} (h : Keeps may was s) : KeepsAll may was (execSleepIdleExpired s) :=
  Keeps.next (Keeps.ite (Keeps.beside h) h)

theorem pllcLost_keeps {s : State} (hChans : may.chans = true) (hSlots : may.slots = true) (h : Keeps may was s) :
    Keeps may was (pllcLost s) :=
  Keeps.ite h (clockLost_keeps hChans hSlots (post_keeps (Keeps.beside (endStretch_keeps h))))

theorem execPllCLockLoss_keeps {s : State} (hChans : may.chans = true) (hSlots : may.slots = true)
    (h : Keeps may was s) : KeepsAll may was (execPllCLockLoss s) :=
  Keeps.next (Keeps.ite (pllcLost_keeps hChans hSlots h) h)

theorem execPllCWakeTimeout_keeps {s : State} (h : Keeps may was s) : KeepsAll may was (execPllCWakeTimeout s) :=
  Keeps.next (Keeps.ite (post_keeps (Keeps.beside h)) h)

theorem pllsLost_keeps {s : State} (h : Keeps may was s) : Keeps may was (pllsLost s) :=
  Keeps.ite h (post_keeps (Keeps.beside h))

theorem execPllSLockLoss_keeps {s : State} (h : Keeps may was s) : KeepsAll may was (execPllSLockLoss s) :=
  Keeps.next (pllsLost_keeps h)

theorem execPllSLocked_keeps {s : State} (h : Keeps may was s) : KeepsAll may was (execPllSLocked s) :=
  Keeps.next (Keeps.ite (Keeps.beside h) h)

theorem refclkLost_keeps {s : State} (hChans : may.chans = true) (hSlots : may.slots = true) (h : Keeps may was s) :
    Keeps may was (refclkLost s) :=
  Keeps.ite h
    (linkReset_keeps
    (Keeps.beside
    (slPortDown_keeps
    (slPortDown_keeps
    (clockLost_keeps hChans hSlots
    (pllsLost_keeps (pllcLost_keeps hChans hSlots (post_keeps (Keeps.beside h)))))))))

theorem execRefclkLost_keeps {s : State} (hChans : may.chans = true) (hSlots : may.slots = true) (h : Keeps may was s) :
    KeepsAll may was (execRefclkLost s) :=
  Keeps.next (refclkLost_keeps hChans hSlots h)

theorem execRefclkReturn_keeps {s : State} (h : Keeps may was s) : KeepsAll may was (execRefclkReturn s) :=
  Keeps.next (Keeps.ite (Keeps.beside h) h)

theorem readCore_keeps {s : State} {mv : Nat} (h : Keeps may was s) : Keeps may was (readCore s mv) :=
  Keeps.beside h

theorem droopStart_keeps {s : State} {mv : Nat} (h : Keeps may was s) : Keeps may was (droopStart s mv) :=
  Keeps.ite h
    (Keeps.ite (readCore_keeps h) (post_keeps (bumpReg_keeps (Keeps.beside (readCore_keeps h)))))

theorem execDroopStart_keeps {s : State} {mv : BitVec 10} (h : Keeps may was s) :
    KeepsAll may was (execDroopStart mv s) :=
  Keeps.next (droopStart_keeps h)

theorem droopEnd_keeps {s : State} {mv aboveCc : Nat} (h : Keeps may was s) : Keeps may was (droopEnd s mv aboveCc) :=
  Keeps.ite h (Keeps.ite (readCore_keeps h) (Keeps.beside (endStretch_keeps (readCore_keeps h))))

theorem execDroopEnd_keeps {s : State} {mv : BitVec 10} {aboveCc : BitVec 16} (h : Keeps may was s) :
    KeepsAll may was (execDroopEnd mv aboveCc s) :=
  Keeps.next (droopEnd_keeps h)

theorem droopSustained_keeps {s : State} {mv : Nat} (h : Keeps may was s) : Keeps may was (droopSustained s mv) :=
  Keeps.ite h (Keeps.ite (readCore_keeps h) (post_keeps (Keeps.beside (readCore_keeps h))))

theorem execDroopSustained_keeps {s : State} {mv : BitVec 10} (h : Keeps may was s) :
    KeepsAll may was (execDroopSustained mv s) :=
  Keeps.next (droopSustained_keeps h)

theorem pushCauses_keeps {s : State} (h : Keeps may was s) : Keeps may was (pushCauses s) :=
  Keeps.beside h

theorem causeClimb_keeps {s : State} {feedCause : Bool} (h : Keeps may was s) : Keeps may was (causeClimb s feedCause) :=
  Keeps.ite h (Keeps.ite (Keeps.ite (Keeps.beside h) h) (Keeps.ite (Keeps.beside h) h))

theorem execCauseClimb_keeps {s : State} {feedCause : Bool} (h : Keeps may was s) :
    KeepsAll may was (execCauseClimb feedCause s) :=
  Keeps.next (causeClimb_keeps h)

theorem execBusSagHeld_keeps {s : State} (h : Keeps may was s) : KeepsAll may was (execBusSagHeld s) :=
  Keeps.next (Keeps.ite (Keeps.beside h) h)

theorem execCoreCauseL8_keeps {s : State} (h : Keeps may was s) : KeepsAll may was (execCoreCauseL8 s) :=
  Keeps.next (Keeps.ite (Keeps.beside h) h)

theorem execClockCauseRise_keeps {s : State} (h : Keeps may was s) : KeepsAll may was (execClockCauseRise s) :=
  Keeps.next (Keeps.ite (Keeps.beside h) h)

theorem execClockCauseClear_keeps {s : State} (h : Keeps may was s) : KeepsAll may was (execClockCauseClear s) :=
  Keeps.next (Keeps.ite (Keeps.beside h) h)

theorem shedClass_keeps {s : State} {k : Nat} (hPark : may.park = true) (h : Keeps may was s) :
    Keeps may was (shedClass s k) :=
  Keeps.ite (parkEvent_keeps hPark (setReg_keeps (Keeps.beside h)))
    (post_keeps (parkEvent_keeps hPark (setReg_keeps (Keeps.beside h))))

theorem l8Enter_keeps {s : State} (h : Keeps may was s) : Keeps may was (l8Enter s) :=
  post_keeps (Keeps.ite (quiesce_keeps (Keeps.beside h)) (Keeps.beside h))

theorem enterLevel_keeps {s : State} {l : Nat} (hPark : may.park = true) (hSlots : may.slots = true)
    (hBore : may.bore = true) (h : Keeps may was s) : Keeps may was (enterLevel s l) := by
  unfold enterLevel
  split
  · exact redoIf_keeps hSlots h
  · exact Keeps.foldl (fun _ _ => endReq_keeps hBore) h
  · exact Keeps.beside h
  · exact shedClass_keeps hPark h
  · exact post_keeps (parkEvent_keeps hPark h)
  · exact l8Enter_keeps h
  · exact h

theorem leaveLevel_keeps {s : State} {l : Nat} (hSlots : may.slots = true) (hBore : may.bore = true)
    (h : Keeps may was s) : Keeps may was (leaveLevel s l) := by
  unfold leaveLevel
  split
  · exact redoIf_keeps hSlots h
  · exact loopResumeAll_keeps h
  · exact Keeps.moveBore hBore (fun a => a) h
  · exact Keeps.beside h
  · exact h

theorem setLevel_keeps {s : State} {l : Nat} (h : Keeps may was s) : Keeps may was (setLevel s l) :=
  Keeps.beside h

theorem climbOne_keeps {s : State} {l : Nat} (hPark : may.park = true) (hSlots : may.slots = true)
    (hBore : may.bore = true) (h : Keeps may was s) : Keeps may was (climbOne s l) :=
  post_keeps (enterLevel_keeps hPark hSlots hBore (bumpReg_keeps (setLevel_keeps h)))

theorem ladderClimb_keeps {s : State} (hPark : may.park = true) (hSlots : may.slots = true) (hBore : may.bore = true)
    (h : Keeps may was s) : Keeps may was (ladderClimb s) :=
  Keeps.ite h (Keeps.foldl (fun _ _ => climbOne_keeps hPark hSlots hBore) h)

theorem execLadderClimb_keeps {s : State} (hPark : may.park = true) (hSlots : may.slots = true)
    (hBore : may.bore = true) (h : Keeps may was s) : KeepsAll may was (execLadderClimb s) :=
  Keeps.next (ladderClimb_keeps hPark hSlots hBore h)

theorem ladderDescend_keeps {s : State} (hSlots : may.slots = true) (hBore : may.bore = true) (h : Keeps may was s) :
    Keeps may was (ladderDescend s) :=
  Keeps.ite h (post_keeps (leaveLevel_keeps hSlots hBore (bumpReg_keeps (setLevel_keeps h))))

theorem execLadderDescend_keeps {s : State} (hSlots : may.slots = true) (hBore : may.bore = true)
    (h : Keeps may was s) : KeepsAll may was (execLadderDescend s) :=
  Keeps.next (ladderDescend_keeps hSlots hBore h)

theorem l6Step_keeps {s : State} (hPark : may.park = true) (h : Keeps may was s) : Keeps may was (l6Step s) :=
  Keeps.ite (shedClass_keeps hPark h) h

theorem execL6Step_keeps {s : State} (hPark : may.park = true) (h : Keeps may was s) : KeepsAll may was (execL6Step s) :=
  Keeps.next (l6Step_keeps hPark h)

theorem execL8StopWaitExpired_keeps {s : State} (h : Keeps may was s) : KeepsAll may was (execL8StopWaitExpired s) :=
  Keeps.next (Keeps.ite (orderlyStop_keeps h) h)

theorem pwCtrlWrite_keeps {s : State} {v : Word} (hPark : may.park = true) (hSlots : may.slots = true)
    (hBore : may.bore = true) (h : Keeps may was s) : Keeps may was (pwCtrlWrite s v) :=
  ladderClimb_keeps hPark hSlots hBore (writeReg_keeps h)

theorem execPwFloorWrite_keeps {s : State} {fn : Fn} {v : Word} (hPark : may.park = true) (hSlots : may.slots = true)
    (hBore : may.bore = true) (h : Keeps may was s) : KeepsAll may was (execPwFloorWrite fn v s) :=
  Keeps.next (wr_keeps (pwCtrlWrite_keeps hPark hSlots hBore) h)

theorem execCkCtrlWrite_keeps {s : State} {fn : Fn} {off : BitVec 12} {v : Word} (h : Keeps may was s) :
    KeepsAll may was (execCkCtrlWrite fn off v s) :=
  KeepsAll.ite (Keeps.next (wr_keeps writeReg_keeps h)) (Keeps.next h)

theorem maxlvlRead_keeps {s : State} (h : Keeps may was s) : Keeps may was (maxlvlRead s).2 :=
  Keeps.beside h

theorem execPwMaxlvlRead_keeps {s : State} {fn : Fn} (h : Keeps may was s) : KeepsAll may was (execPwMaxlvlRead fn s) :=
  Keeps.next (rd_keeps maxlvlRead_keeps h)

theorem noteCause_keeps {s : State} {last lo : Nat} (h : Keeps may was s) : Keeps may was (noteCause s last lo) :=
  bumpReg_keeps (putReg_keeps h)

theorem resetMsg_keeps {s : State} (h : Keeps may was s) : Keeps may was (resetMsg s) :=
  post_keeps h

theorem holdAgain_keeps {s : State} {m : Msg} (h : Keeps may was s) : Keeps may was (holdAgain s m) :=
  Keeps.ite (satReg_keeps (Keeps.beside h)) (Keeps.beside h)

theorem idlDrop_keeps {s : State} (h : Keeps may was s) : Keeps may was (idlDrop s) :=
  Keeps.foldl (@holdAgain_keeps may was) (Keeps.beside h)

/-- What the warm reset clears: the plan slots, the command engine, and what it names of the tables, the loops, the calibration
run and the Bore's upkeep. -/
theorem Keeps.clearWarm {s : State} {boot reqs fabWait tabs loops cal flash idl} (hCal : may.cal = true)
    (hSlots : may.slots = true) (hBore : may.bore = true)
    (ht : tabWf (fun _ => ({} : TabCmd)) s.tabs = true → tabWf (fun _ => ({} : TabCmd)) tabs = true)
    (hl : tabWf (fun _ => ({} : LoopCh)) s.loops = true → tabWf (fun _ => ({} : LoopCh)) loops = true)
    (h : Keeps may was s) : Keeps may was { s with
      boot := boot, slots := [], reqs := reqs, fabWait := fabWait, tabs := tabs, cmdq := {}, loops := loops, cal := cal,
      bore := { s.bore with initRun := false, climbDone := false, patrol := 0 }, flash := flash, idl := idl } :=
  ⟨h.pending, h.now, h.phase, h.droneF,
    fun c => (h.canon c).imp id (And.imp id (And.imp id (And.imp id (And.imp hl ht)))),
    fun _ => List.nodup_nil, fun _ => List.nil_sublist _, fun _ e => (nomatch (show SlotState.empty = .committed from e)),
    fun _ e => (nomatch (show false = true from e)), h.chans, h.feeds, h.rails, h.park, unmarked hCal, h.tiles,
    unmarked hSlots, unmarked hBore⟩

theorem warm_keeps {s : State} {last : Nat} (hCal : may.cal = true) (hSlots : may.slots = true)
    (hBore : may.bore = true) (h : Keeps may was s) : Keeps may was (warm s last) := by
  unfold warm
  have h3 : Keeps may was (bumpReg (dropRegs .warm (accWarm (measWarm s))) (ro pgCMDQ 0x48) 0 16) :=
    bumpReg_keeps (dropRegs_keeps (accWarm_keeps hBore (measWarm_keeps h)))
  refine Keeps.ite h (resetMsg_keeps (noteCause_keeps (Keeps.clearWarm hCal hSlots hBore ?_ ?_ h3)))
  · exact tabWf_filter _ _ _
  · exact tabWf_mapFilter _ (fun l => (l.1, LoopCh.warm l.2)) (fun _ => rfl)

theorem execWarmReset_keeps {s : State} (hCal : may.cal = true) (hSlots : may.slots = true) (hBore : may.bore = true)
    (h : Keeps may was s) : KeepsAll may was (execWarmReset s) :=
  Keeps.next (warm_keeps hCal hSlots hBore h)

theorem allTgOn_keeps {s : State} (hChans : may.chans = true) (hTiles : may.tiles = true) (hSlots : may.slots = true)
    (hBore : may.bore = true) (h : Keeps may was s) : Keeps may was (allTgOn s) :=
  Keeps.foldl (fun _ _ a => Keeps.ite a (tgOnDone_keeps hChans hTiles hSlots hBore (Keeps.beside a))) h

theorem drstCommon_keeps {s : State} (hPark : may.park = true) (hSlots : may.slots = true) (hBore : may.bore = true)
    (h : Keeps may was s) : Keeps may was (drstCommon s) := by
  unfold drstCommon
  extract_lets s1 x
  have h1 : Keeps may was s1 := idlDrop_keeps (flashOff_keeps h)
  exact ⟨h1.pending, h1.now, h1.phase, h1.droneF,
    fun c => (h1.canon c).imp id (And.imp id (And.imp id (And.imp id (fun _ => ⟨rfl, rfl⟩)))),
    fun _ => List.nodup_nil, fun _ => List.nil_sublist _, fun _ e => (nomatch (show SlotState.empty = .committed from e)),
    fun _ e => (nomatch (show false = true from e)), h1.chans, h1.feeds, h1.rails, unmarked hPark, h1.cal, h1.tiles,
    unmarked hSlots, unmarked hBore⟩

/-- What a reset of the drive die makes of its channels, tiles and coefficients. -/
theorem Keeps.resetOutputs {s : State} {chans tiles cal power boot} (hChans : may.chans = true) (hCal : may.cal = true)
    (hTiles : may.tiles = true)
    (hc : tabWf (fun _ => ({} : ChanSt)) s.chans = true → tabWf (fun _ => ({} : ChanSt)) chans = true)
    (ht : tabWf (fun _ => ({} : TileSt)) s.tiles = true → tabWf (fun _ => ({} : TileSt)) tiles = true)
    (h : Keeps may was s) : Keeps may was { s with chans := chans, tiles := tiles, cal := cal, power := power, boot := boot } :=
  ⟨h.pending, h.now, h.phase, h.droneF, fun c => (h.canon c).imp id (And.imp id (And.imp hc (And.imp ht id))),
    h.tags, h.tagsKept, h.committed, h.ready, unmarked hChans, h.feeds, h.rails, h.park, unmarked hCal, unmarked hTiles,
    h.slots, h.bore⟩

theorem drstFx_keeps {s : State} {last : Nat} (hChans : may.chans = true) (hPark : may.park = true)
    (hCal : may.cal = true) (hTiles : may.tiles = true) (hSlots : may.slots = true) (hBore : may.bore = true)
    (h : Keeps may was s) : Keeps may was (drstFx s last) := by
  unfold drstFx
  exact Keeps.ite h (resetMsg_keeps (noteCause_keeps (Keeps.resetOutputs hChans hCal hTiles
    (tabWf_mapFilter _ (fun c => (c.1, ChanSt.drst c.2)) (fun _ => rfl))
    (tabWf_mapFilter _ (fun t => (t.1, TileSt.drst t.2)) (fun _ => rfl))
    (drstCommon_keeps hPark hSlots hBore (accWarm_keeps hBore (dropRegs_keeps
      (allTgOn_keeps hChans hTiles hSlots hBore (stopTongues_keeps hChans h))))))))

theorem execDrst_keeps {s : State} (hChans : may.chans = true) (hPark : may.park = true) (hCal : may.cal = true)
    (hTiles : may.tiles = true) (hSlots : may.slots = true) (hBore : may.bore = true) (h : Keeps may was s) :
    KeepsAll may was (execDrst s) :=
  Keeps.next (drstFx_keeps hChans hPark hCal hTiles hSlots hBore h)

theorem railsLost_keeps {s : State} (hChans : may.chans = true) (hPark : may.park = true)
    (hCal : may.cal = true) (hTiles : may.tiles = true) (hSlots : may.slots = true) (hBore : may.bore = true)
    (h : Keeps may was s) : Keeps may was (railsLost s) := by
  unfold railsLost
  extract_lets s1
  have h1 : Keeps may was s1 := drstCommon_keeps hPark hSlots hBore h
  exact ⟨h1.pending, h1.now, h1.phase, h1.droneF,
    fun c => (h1.canon c).imp (fun _ => rfl) (And.imp (tabWf_filter _ _ _) (fun x => ⟨rfl, rfl, x.2.2⟩)),
    h1.tags, h1.tagsKept, h1.committed, h1.ready, unmarked hChans, h1.feeds, h1.rails, h1.park, unmarked hCal,
    unmarked hTiles, h1.slots, unmarked hBore⟩

theorem execDriveRailsLost_keeps {s : State} (hChans : may.chans = true) (hPark : may.park = true)
    (hCal : may.cal = true) (hTiles : may.tiles = true) (hSlots : may.slots = true) (hBore : may.bore = true)
    (h : Keeps may was s) : KeepsAll may was (execDriveRailsLost s) :=
  Keeps.next (Keeps.ite (railsLost_keeps hChans hPark hCal hTiles hSlots hBore h) (Keeps.beside h))

theorem execDriveRailsUp_keeps {s : State} (hChans : may.chans = true) (hCal : may.cal = true)
    (hTiles : may.tiles = true) (h : Keeps may was s) : KeepsAll may was (execDriveRailsUp s) := by
  have hc : Keeps may was { s with chans := [] } := h.moveChans hChans (fun _ => tabWf_nil _)
  have ht : Keeps may was { s with chans := [], tiles := [] } := hc.moveTiles hTiles (fun _ => tabWf_nil _)
  exact Keeps.next (Keeps.ite h (noteCause_keeps (ht.moveCal hCal)))

theorem execStage2Entry_keeps {s : State} (h : Keeps may was s) : KeepsAll may was (execStage2Entry s) :=
  Keeps.next (Keeps.ite h (resetMsg_keeps (Keeps.beside h)))

/-- Power-on leaves nothing but the queue, the time, the park copies and the flash store. -/
theorem porFx_keeps {s : State} (hChans : may.chans = true) (hFeeds : may.feeds = true) (hRails : may.rails = true)
    (hPark : may.park = true) (hCal : may.cal = true) (hTiles : may.tiles = true) (hSlots : may.slots = true)
    (hBore : may.bore = true) (hDrone : may.drone = true) (h : Keeps may was s) : Keeps may was (porFx s) :=
  ⟨h.pending, h.now, h.phase, unmarked hDrone, fun _ => ⟨rfl, rfl, rfl, rfl, rfl, rfl⟩, fun _ => List.nodup_nil,
    fun _ => List.nil_sublist _, fun _ e => (nomatch (show SlotState.empty = .committed from e)),
    fun _ e => (nomatch (show false = true from e)), unmarked hChans, unmarked hFeeds, unmarked hRails,
    unmarked hPark, unmarked hCal, unmarked hTiles,
    unmarked hSlots, unmarked hBore⟩

theorem execPor_keeps {s : State} (hChans : may.chans = true) (hFeeds : may.feeds = true) (hRails : may.rails = true)
    (hPark : may.park = true) (hCal : may.cal = true) (hTiles : may.tiles = true) (hSlots : may.slots = true)
    (hBore : may.bore = true) (hDrone : may.drone = true) (h : Keeps may was s) : KeepsAll may was (execPor s) :=
  Keeps.next (porFx_keeps hChans hFeeds hRails hPark hCal hTiles hSlots hBore hDrone h)

theorem syReset_keeps {s : State} {fn : Fn} {v : Word} (hChans : may.chans = true) (hPark : may.park = true)
    (hCal : may.cal = true) (hTiles : may.tiles = true) (hSlots : may.slots = true) (hBore : may.bore = true)
    (h : Keeps may was s) : Keeps may was (syReset s fn v) := by
  unfold syReset
  repeat' split
  · exact badEncoding_keeps h
  · exact warm_keeps hCal hSlots hBore h
  · exact drstFx_keeps hChans hPark hCal hTiles hSlots hBore h
  · exact denied_keeps h
  · exact badEncoding_keeps h

theorem execSyResetWarm_keeps {s : State} {fn : Fn} {key : BitVec 16} (hChans : may.chans = true)
    (hPark : may.park = true) (hCal : may.cal = true) (hTiles : may.tiles = true) (hSlots : may.slots = true)
    (hBore : may.bore = true) (h : Keeps may was s) : KeepsAll may was (execSyResetWarm fn key s) :=
  Keeps.next (wr_keeps (syReset_keeps hChans hPark hCal hTiles hSlots hBore) h)

theorem execSyResetDrst_keeps {s : State} {fn : Fn} {key : BitVec 16} (hChans : may.chans = true)
    (hPark : may.park = true) (hCal : may.cal = true) (hTiles : may.tiles = true) (hSlots : may.slots = true)
    (hBore : may.bore = true) (h : Keeps may was s) : KeepsAll may was (execSyResetDrst fn key s) :=
  Keeps.next (wr_keeps (syReset_keeps hChans hPark hCal hTiles hSlots hBore) h)

theorem setSlotState_keeps {s : State} {i : Nat} {x : ImgState} (h : Keeps may was s) :
    Keeps may was (setSlotState s i x) :=
  Keeps.beside h

theorem bootRefused_keeps {s : State} {off : Nat} (h : Keeps may was s) : Keeps may was (bootRefused s off) :=
  post_keeps h

theorem imageBad_keeps {s : State} {i err : Nat} (h : Keeps may was s) : Keeps may was (imageBad s i err) :=
  post_keeps h

theorem slotSelect_keeps {s : State} (h : Keeps may was s) : Keeps may was (slotSelect s) := by
  unfold slotSelect
  dsimp only
  repeat' split
  · exact h
  · exact Keeps.beside h
  · exact h
  · exact Keeps.beside h
  · exact Keeps.beside h

theorem execBootSlotSelect_keeps {s : State} (h : Keeps may was s) : KeepsAll may was (execBootSlotSelect s) :=
  Keeps.next (slotSelect_keeps h)

theorem slotFails_keeps {s : State} (hCal : may.cal = true) (hSlots : may.slots = true) (hBore : may.bore = true)
    (h : Keeps may was s) : Keeps may was (slotFails s) :=
  Keeps.ite (warm_keeps hCal hSlots hBore (Keeps.beside h))
    (warm_keeps hCal hSlots hBore (post_keeps (setSlotState_keeps (Keeps.beside h))))

theorem pairing_keeps {s : State} (hCal : may.cal = true) (hSlots : may.slots = true) (hBore : may.bore = true)
    (h : Keeps may was s) : Keeps may was (pairing s) :=
  Keeps.ite h
    (Keeps.ite (Keeps.beside h)
    (Keeps.ite (Keeps.ite (slotFails_keeps hCal hSlots hBore (Keeps.beside h)) (post_keeps (Keeps.beside h)))
    (Keeps.ite (post_keeps (Keeps.beside h)) (Keeps.beside h))))

theorem sfwVerified_keeps {s : State} (hCal : may.cal = true) (hSlots : may.slots = true) (hBore : may.bore = true)
    (h : Keeps may was s) : Keeps may was (sfwVerified s) :=
  Keeps.ite h
    (Keeps.ite (slotFails_keeps hCal hSlots hBore (imageBad_keeps h))
    (pairing_keeps hCal hSlots hBore (Keeps.beside h)))

theorem execSfwVerified_keeps {s : State} (hCal : may.cal = true) (hSlots : may.slots = true) (hBore : may.bore = true)
    (h : Keeps may was s) : KeepsAll may was (execSfwVerified s) :=
  Keeps.next (sfwVerified_keeps hCal hSlots hBore h)

theorem bondCompare_keeps {s : State} (h : Keeps may was s) : Keeps may was (bondCompare s) := by
  unfold bondCompare
  dsimp only
  split
  · exact Keeps.beside h
  · exact post_keeps (Keeps.beside h)

theorem stage3_keeps {s : State} {queuesLive : Bool} (h : Keeps may was s) : Keeps may was (stage3 s queuesLive) :=
  Keeps.ite h
    (Keeps.ite (bondCompare_keeps (journal_keeps (journal_keeps (putReg_keeps (Keeps.beside h)))))
    (journal_keeps (putReg_keeps (Keeps.beside h))))

theorem execStage3Entry_keeps {s : State} {queuesLive : Bool} (h : Keeps may was s) :
    KeepsAll may was (execStage3Entry queuesLive s) :=
  Keeps.next (stage3_keeps h)

theorem execStage3Deadline_keeps {s : State} (hCal : may.cal = true) (hSlots : may.slots = true)
    (hBore : may.bore = true) (h : Keeps may was s) : KeepsAll may was (execStage3Deadline s) :=
  Keeps.next (Keeps.ite (slotFails_keeps hCal hSlots hBore h) h)

theorem execTrialExpired_keeps {s : State} (hCal : may.cal = true) (hSlots : may.slots = true) (hBore : may.bore = true)
    (h : Keeps may was s) : KeepsAll may was (execTrialExpired s) :=
  Keeps.next (Keeps.ite (slotFails_keeps hCal hSlots hBore h) h)

theorem execCoreWatchdog_keeps {s : State} (hCal : may.cal = true) (hSlots : may.slots = true) (hBore : may.bore = true)
    (h : Keeps may was s) : KeepsAll may was (execCoreWatchdog s) :=
  Keeps.next (Keeps.ite h (Keeps.ite (slotFails_keeps hCal hSlots hBore h) (coreRestart_keeps hBore h)))

theorem execCoreRestartDone_keeps {s : State} (h : Keeps may was s) : KeepsAll may was (execCoreRestartDone s) :=
  Keeps.next (Keeps.ite (Keeps.beside h) h)

theorem calLoad_keeps {s : State} {k : Nat} (hCal : may.cal = true) (hSlots : may.slots = true)
    (hBore : may.bore = true) (h : Keeps may was s) : Keeps may was (calLoad s k) :=
  Keeps.ite h
    (Keeps.ite (measStart_keeps hBore (Keeps.beside (tabClimbLoad_keeps hCal hSlots hBore h)))
    (Keeps.beside (tabClimbLoad_keeps hCal hSlots hBore h)))

theorem execStage4CalLoad_keeps {s : State} {kind : Fin 6} (hCal : may.cal = true) (hSlots : may.slots = true)
    (hBore : may.bore = true) (h : Keeps may was s) : KeepsAll may was (execStage4CalLoad kind s) :=
  Keeps.next (calLoad_keeps hCal hSlots hBore h)

theorem execStage4Entry_keeps {s : State} (h : Keeps may was s) : KeepsAll may was (execStage4Entry s) :=
  Keeps.next (Keeps.ite (loopResumeAll_keeps (putReg_keeps (Keeps.beside h))) h)

theorem btCtrl_keeps {s : State} {v : Word} (hCal : may.cal = true) (hSlots : may.slots = true)
    (hBore : may.bore = true) (h : Keeps may was s) : Keeps may was (btCtrl s v) := by
  unfold btCtrl
  repeat' split
  · exact badEncoding_keeps h
  · exact h
  · exact Keeps.ite (bootRefused_keeps h) (setSlotState_keeps (Keeps.beside h))
  · exact Keeps.ite (warm_keeps hCal hSlots hBore h) (bootRefused_keeps h)
  · exact Keeps.ite (bootRefused_keeps h) (redoAll_keeps hSlots (journal_keeps (post_keeps (Keeps.beside h))))
  · exact badEncoding_keeps h

theorem execBtConfirm_keeps {s : State} {fn : Fn} {key : BitVec 16} (hCal : may.cal = true) (hSlots : may.slots = true)
    (hBore : may.bore = true) (h : Keeps may was s) : KeepsAll may was (execBtConfirm fn key s) :=
  Keeps.next (wr_keeps (btCtrl_keeps hCal hSlots hBore) h)

theorem execBtActivate_keeps {s : State} {fn : Fn} {key : BitVec 16} (hCal : may.cal = true) (hSlots : may.slots = true)
    (hBore : may.bore = true) (h : Keeps may was s) : KeepsAll may was (execBtActivate fn key s) :=
  Keeps.next (wr_keeps (btCtrl_keeps hCal hSlots hBore) h)

theorem execBtForcePair_keeps {s : State} {fn : Fn} {key : BitVec 16} (hCal : may.cal = true)
    (hSlots : may.slots = true) (hBore : may.bore = true) (h : Keeps may was s) :
    KeepsAll may was (execBtForcePair fn key s) :=
  Keeps.next (wr_keeps (btCtrl_keeps hCal hSlots hBore) h)

theorem padTest_keeps {s : State} {vLow : Nat} {dflt : PadMeas} {drv : List (Nat × PadMeas)} {monDflt : MonMeas}
    {mon : List (Nat × MonMeas)} (hBore : may.bore = true) (h : Keeps may was s) :
    Keeps may was (padTest s vLow dflt drv monDflt mon) :=
  Keeps.foldl (fun _ _ a => Keeps.foldl (@loopResume_keeps may was) (padHoldTile_keeps hBore a))
    (Keeps.beside h)

theorem execPadTestDone_keeps {s : State} {vLow : Nat} {dflt : PadMeas} {drv : List (Nat × PadMeas)} {monDflt : MonMeas}
    {mon : List (Nat × MonMeas)} (hBore : may.bore = true) (h : Keeps may was s) :
    KeepsAll may was (execPadTestDone vLow dflt drv monDflt mon s) :=
  Keeps.next (Keeps.ite (padTest_keeps hBore h) h)

theorem execPadtestRepeatDone_keeps {s : State} {vLow : Nat} {dflt : PadMeas} {drv : List (Nat × PadMeas)}
    {monDflt : MonMeas} {mon : List (Nat × MonMeas)} (hBore : may.bore = true) (h : Keeps may was s) :
    KeepsAll may was (execPadtestRepeatDone vLow dflt drv monDflt mon s) :=
  Keeps.next (Keeps.ite (padTest_keeps hBore h) h)

theorem padtestWrite_keeps {s : State} {v : Word} (hBore : may.bore = true) (h : Keeps may was s) :
    Keeps may was (padtestWrite s v) :=
  Keeps.ite h
    (Keeps.ite (bootRefused_keeps h) (Keeps.foldl (fun _ _ => padHoldTile_keeps hBore) (Keeps.beside h)))

theorem execBtPadtestStart_keeps {s : State} {fn : Fn} {v : Word} (hBore : may.bore = true) (h : Keeps may was s) :
    KeepsAll may was (execBtPadtestStart fn v s) :=
  Keeps.next (wr_keeps (padtestWrite_keeps hBore) h)

theorem bondLimWrite_keeps {s : State} {v : Word} (h : Keeps may was s) : Keeps may was (bondLimWrite s v) :=
  Keeps.ite (badEncoding_keeps h) (Keeps.beside (writeReg_keeps h))

theorem execBtBondLimWrite_keeps {s : State} {fn : Fn} {v : Word} (h : Keeps may was s) :
    KeepsAll may was (execBtBondLimWrite fn v s) :=
  Keeps.next (wr_keeps bondLimWrite_keeps h)

theorem bondDataRead_keeps {s : State} (h : Keeps may was s) : Keeps may was (bondDataRead s).2 :=
  putReg_keeps h

theorem execBtBondDataRead_keeps {s : State} {fn : Fn} (h : Keeps may was s) :
    KeepsAll may was (execBtBondDataRead fn s) :=
  Keeps.next (rd_keeps bondDataRead_keeps h)

theorem updCtrl_keeps {s : State} {cmd : Nat} (h : Keeps may was s) : Keeps may was (updCtrl s cmd) := by
  unfold updCtrl
  split
  · exact Keeps.ite (bootRefused_keeps h)
      (Keeps.ite (Keeps.beside h)
      (Keeps.ite (Keeps.beside h) (Keeps.ite (Keeps.beside h) (setSlotState_keeps (Keeps.beside h)))))
  · exact Keeps.ite (bootRefused_keeps h) (Keeps.beside h)
  · exact Keeps.ite (Keeps.beside h) (Keeps.ite (setSlotState_keeps (Keeps.beside h)) (bootRefused_keeps h))
  · exact badEncoding_keeps h

theorem execBtUpdWrite_keeps {s : State} {fn : Fn} (h : Keeps may was s) : KeepsAll may was (execBtUpdWrite fn s) :=
  Keeps.next (wr_keeps updCtrl_keeps h)

theorem execBtUpdSeal_keeps {s : State} {fn : Fn} (h : Keeps may was s) : KeepsAll may was (execBtUpdSeal fn s) :=
  Keeps.next (wr_keeps updCtrl_keeps h)

theorem execBtUpdAbort_keeps {s : State} {fn : Fn} (h : Keeps may was s) : KeepsAll may was (execBtUpdAbort fn s) :=
  Keeps.next (wr_keeps updCtrl_keeps h)

theorem updProgram_keeps {s : State} {len : Nat} (hBore : may.bore = true) (h : Keeps may was s) :
    Keeps may was (updProgram s len).1 := by
  unfold updProgram
  dsimp only
  split
  · exact parSpan_keeps hBore h
  · exact notePrograms_keeps (Keeps.beside (parSpan_keeps hBore h))

theorem updWriteDone_keeps {s : State} {ok : Bool} (hBore : may.bore = true) (h : Keeps may was s) :
    Keeps may was (updWriteDone s ok) := by
  unfold updWriteDone
  repeat' split
  · exact h
  · exact Keeps.beside (updProgram_keeps hBore h)
  · exact Keeps.beside h

theorem execUpdWriteDone_keeps {s : State} {ok : Bool} (hBore : may.bore = true) (h : Keeps may was s) :
    KeepsAll may was (execUpdWriteDone ok s) :=
  Keeps.next (updWriteDone_keeps hBore h)

theorem updSealDone_keeps {s : State} {ok : Bool} (h : Keeps may was s) : Keeps may was (updSealDone s ok) :=
  Keeps.ite h
    (Keeps.ite (Keeps.beside h) (Keeps.ite (imageBad_keeps (Keeps.beside h)) (setSlotState_keeps (Keeps.beside h))))

theorem execUpdSealDone_keeps {s : State} {ok : Bool} (h : Keeps may was s) : KeepsAll may was (execUpdSealDone ok s) :=
  Keeps.next (updSealDone_keeps h)

theorem updAbortDone_keeps {s : State} (hBore : may.bore = true) (h : Keeps may was s) : Keeps may was (updAbortDone s) :=
  Keeps.ite h (setSlotState_keeps (Keeps.beside (Keeps.ite (updProgram_keeps hBore (tick_keeps h)) h)))

theorem execUpdAbortDone_keeps {s : State} (hBore : may.bore = true) (h : Keeps may was s) :
    KeepsAll may was (execUpdAbortDone s) :=
  Keeps.next (updAbortDone_keeps hBore h)

end Sys2Proof.Machine
end

