-- ==== Sys2Proof/Proofs/KeepsPages.lean ====
section
/-! SUPPORT. What each function of the model keeps: the register pages and the inter-die link. A lemma per function; the
hypotheses name the parts that it may move. -/

namespace Sys2Proof.Machine

open Sys2Proof.Safety

variable {may : Moves} {was : State}

theorem feedReadTrip_keeps {s : State} {o : Nat} (h : Keeps may was s) : Keeps may was (feedReadTrip s o).2 := by
  unfold feedReadTrip
  split
  · exact h
  · exact h
  · exact h
  · exact trRdData_keeps h
  · exact h
  · exact h
  · exact h
  · exact h

theorem feedReadMeter_keeps {s : State} {o : Nat} (h : Keeps may was s) : Keeps may was (feedReadMeter s o).2 := by
  unfold feedReadMeter
  split
  · exact energyLoRead_keeps h
  · exact energyLoRead_keeps h
  · exact energyLoRead_keeps h
  · exact h
  · exact h
  · exact h
  · exact h

theorem feedRead_keeps {s : State} {off : Nat} (h : Keeps may was s) : Keeps may was (feedRead s off).2 := by
  unfold feedRead
  dsimp only
  repeat' split
  · exact h
  · exact h
  · exact h
  · exact h
  · exact h
  · exact h
  · exact h
  · exact h
  · exact h
  · exact h
  · exact feedReadMeter_keeps h
  · exact feedReadTrip_keeps h
  · exact h
  · exact h
  · exact h

theorem protChanged_keeps {s : State} {off : Nat} {v : Word} {fn : Nat} (h : Keeps may was s) :
    Keeps may was (protChanged s off v fn) :=
  Keeps.ite h (journal_keeps (post_keeps (bumpReg_keeps h)))

theorem lockWrite_keeps {s : State} {page : Nat} {v : Word} {fn : Nat} (h : Keeps may was s) :
    Keeps may was (lockWrite s page v fn) :=
  protChanged_keeps (setReg_keeps h)

theorem feedStoreReg_keeps {s : State} {off : Nat} {v : Word} (hFeeds : may.feeds = true) (hRails : may.rails = true)
    (h : Keeps may was s) : Keeps may was (feedStoreReg s off v) := by
  unfold feedStoreReg
  split
  · exact Keeps.ite (frst_keeps hFeeds h) h
  · exact Keeps.ite (fdCtrl_keeps hFeeds h) (Keeps.ite (fastTripWrite_keeps hFeeds h) (writeReg_keeps h))
  · exact Keeps.ite (fdCtrl_keeps hFeeds h) (Keeps.ite (fastTripWrite_keeps hFeeds h) (writeReg_keeps h))
  · exact Keeps.ite (shCtrl_keeps h) (writeReg_keeps h)
  · exact Keeps.ite (mtScWrite_keeps h) (meterWrite_keeps h)
  · exact Keeps.ite (trReleaseFx_keeps h) (writeReg_keeps h)
  · exact Keeps.ite (psCtrl_keeps hRails h) (writeReg_keeps h)

theorem feedStore_keeps {s : State} {off : Nat} {v : Word} {fn : Nat} (hChans : may.chans = true)
    (hFeeds : may.feeds = true) (hRails : may.rails = true) (hSlots : may.slots = true) (hBore : may.bore = true)
    (h : Keeps may was s) : Keeps may was (feedStore s off v fn) := by
  unfold feedStore
  split
  · exact Keeps.ite (lockWrite_keeps h) (Keeps.ite (headerWrite_keeps hChans hSlots hBore h) h)
  · exact Keeps.ite (lockWrite_keeps h)
      (Keeps.ite (headerWrite_keeps hChans hSlots hBore h) (Keeps.ite (feedStoreReg_keeps hFeeds hRails h) h))

theorem readPwr_keeps {s : State} {o : Nat} (h : Keeps may was s) : Keeps may was (readPwr s o).2 := by
  unfold readPwr
  split
  · exact h
  · exact h
  · exact maxlvlRead_keeps h
  · exact h
  · exact h
  · exact h
  · exact h

theorem readBoot_keeps {s : State} {o : Nat} (h : Keeps may was s) : Keeps may was (readBoot s o).2 := by
  unfold readBoot
  split
  · exact h
  · exact h
  · exact h
  · exact h
  · exact h
  · exact h
  · exact h
  · exact h
  · exact h
  · exact h
  · exact bondDataRead_keeps h
  · exact h
  · exact h

theorem readPark_keeps {s : State} {o : Nat} (h : Keeps may was s) : Keeps may was (readPark s o).2 := by
  unfold readPark
  split
  · exact h
  · exact h
  · exact parkDataRead_keeps h
  · exact h
  · exact h
  · exact h
  · exact h

theorem readTile_keeps {s : State} {t o : Nat} (h : Keeps may was s) : Keeps may was (readTile s t o).2 := by
  unfold readTile
  repeat' split
  · exact h
  · exact h
  · exact h
  · exact h
  · exact chPwrRead_keeps h
  · exact h
  · exact h
  · exact h
  · exact h
  · exact h
  · exact h
  · exact h
  · exact h
  · exact h
  · exact h
  · exact h
  · exact h
  · exact h
  · exact h

theorem probeRead_keeps {s : State} (hBore : may.bore = true) (h : Keeps may was s) : Keeps may was (probeRead s).1 :=
  parReads_keeps hBore h

theorem readSlink_keeps {s : State} {o : Nat} (h : Keeps may was s) : Keeps may was (readSlink s o).2 := by
  unfold readSlink
  split
  · exact h
  · exact h
  · exact slTimeLo_keeps h
  · exact h
  · exact h
  · exact h
  · exact h
  · exact h
  · exact h

theorem readMeas_keeps {s : State} {o : Nat} (h : Keeps may was s) : Keeps may was (readMeas s o).2 := by
  unfold readMeas
  split
  · exact h
  · exact h
  · exact h
  · exact h
  · exact h
  · exact overrunRead_keeps h
  · exact h
  · exact h
  · exact h

theorem readCal_keeps {s : State} {o : Nat} (h : Keeps may was s) : Keeps may was (readCal s o).2 := by
  unfold readCal
  split
  · exact coefRead_keeps h
  · exact h
  · exact h

theorem readLoop_keeps {s : State} {o : Nat} (h : Keeps may was s) : Keeps may was (readLoop s o).2 := by
  unfold readLoop
  repeat' split
  · exact h
  · exact loopStatRead_keeps h
  · exact h
  · exact h
  · exact h
  · exact h
  · exact h
  · exact h
  · exact h
  · exact h

theorem readThm_keeps {s : State} {o : Nat} (h : Keeps may was s) : Keeps may was (readThm s o).2 := by
  unfold readThm
  repeat' split
  · exact h
  · exact kDataRead_keeps h
  · exact h
  · exact h
  · exact h
  · exact elTempRead_keeps h
  · exact h
  · exact h
  · exact nodeRead_keeps h
  · exact h
  · exact h
  · exact h

theorem readTemp_keeps {s : State} {o : Nat} (h : Keeps may was s) : Keeps may was (readTemp s o).2 := by
  unfold readTemp
  split
  · exact h
  · exact h
  · exact h
  · exact h
  · exact diodeERead_keeps h
  · exact h
  · exact h
  · exact h

theorem pageRead_keeps {s : State} {off : Nat} (hBore : may.bore = true) (h : Keeps may was s) :
    Keeps may was (pageRead s off).2 := by
  unfold pageRead
  dsimp only
  repeat' split
  · exact h
  · exact h
  · exact h
  · exact readTile_keeps h
  · exact h
  · exact h
  · exact readPwr_keeps h
  · exact h
  · exact h
  · exact h
  · exact h
  · exact h
  · exact readPark_keeps h
  · exact h
  · exact h
  · exact h
  · exact h
  · exact probeRead_keeps hBore h
  · exact tick_keeps (probeRead_keeps hBore h)
  · exact h
  · exact readMeas_keeps h
  · exact h
  · exact readCal_keeps h
  · exact readLoop_keeps h
  · exact readThm_keeps h
  · exact readTemp_keeps h
  · exact readSlink_keeps h
  · exact h
  · exact readBoot_keeps h
  · exact h

theorem appendInterval_keeps {s : State} {sections : List (Fin 6)} (hBore : may.bore = true) (h : Keeps may was s) :
    Keeps may was (appendInterval s sections) := by
  unfold appendInterval
  extract_lets read r
  have hr : Keeps may was r.1 := Keeps.foldlWith (π := Prod.fst) (fun _ _ hu => accCheck_keeps hBore hu) h
  exact bumpReg_keeps (appendRecord_keeps hr)

theorem execTelemetryInterval_keeps {s : State} {sections : List (Fin 6)} (hBore : may.bore = true)
    (h : Keeps may was s) : KeepsAll may was (execTelemetryInterval sections s) :=
  KeepsAll.ite (Keeps.next h)
    (KeepsAll.ite (Keeps.next (appendInterval_keeps hBore h)) (Keeps.next (post_keeps (bumpReg_keeps h))))

theorem execIdlTrainStart_keeps {s : State} (h : Keeps may was s) : KeepsAll may was (execIdlTrainStart s) :=
  Keeps.next (Keeps.ite (Keeps.beside h) h)

theorem holdForLink_keeps {s : State} (h : Keeps may was s) : Keeps may was (holdForLink s) :=
  Keeps.ite (Keeps.beside h) h

theorem execIdlTrain_keeps {s : State} {receiver : Die} {verMin verMax : BitVec 8} {lanesOk : BitVec 4}
    (h : Keeps may was s) : KeepsAll may was (execIdlTrain receiver verMin verMax lanesOk s) := by
  unfold execIdlTrain
  repeat' split
  · exact Keeps.next h
  · exact Keeps.next (holdForLink_keeps (Keeps.beside h))
  · exact Keeps.next (holdForLink_keeps (Keeps.beside h))

theorem linkUp_keeps {s : State} (hCal : may.cal = true) (hSlots : may.slots = true) (hBore : may.bore = true)
    (h : Keeps may was s) : Keeps may was (linkUp s) := by
  unfold linkUp
  split
  · exact Keeps.ite h
      (Keeps.ite
      (pairing_keeps hCal hSlots hBore
      (Keeps.ite (loadMtCal_keeps hCal (feedPush_keeps (Keeps.ite (post_keeps (Keeps.beside h)) (Keeps.beside h))))
      (feedPush_keeps (Keeps.ite (post_keeps (Keeps.beside h)) (Keeps.beside h)))))
      (Keeps.ite (loadMtCal_keeps hCal (feedPush_keeps (Keeps.ite (post_keeps (Keeps.beside h)) (Keeps.beside h))))
      (feedPush_keeps (Keeps.ite (post_keeps (Keeps.beside h)) (Keeps.beside h)))))
  · exact h

theorem execIdlLinkUp_keeps {s : State} (hCal : may.cal = true) (hSlots : may.slots = true) (hBore : may.bore = true)
    (h : Keeps may was s) : KeepsAll may was (execIdlLinkUp s) :=
  Keeps.next (linkUp_keeps hCal hSlots hBore h)

theorem takeDrive_keeps {s : State} {α : Type} {p : Frame → Option α} {k : α → State → State}
    (hk : ∀ x u, Keeps may was u → Keeps may was (k x u)) (h : Keeps may was s) : Keeps may was (takeDrive s p k) := by
  unfold takeDrive
  refine Keeps.ite h ?_
  split
  · exact hk _ _ h.beside
  · exact h

theorem takeFeed_keeps {s : State} {α : Type} {p : Frame → Option α} {k : α → State → State}
    (hk : ∀ x u, Keeps may was u → Keeps may was (k x u)) (h : Keeps may was s) : Keeps may was (takeFeed s p k) := by
  unfold takeFeed
  refine Keeps.ite h ?_
  split
  · exact hk _ _ h.beside
  · exact h

theorem frameError_keeps {s : State} {receiver : Die} (h : Keeps may was s) : Keeps may was (frameError s receiver) := by
  unfold frameError
  repeat' split
  · exact h
  · exact Keeps.ite h (post_keeps (bumpReg_keeps (Keeps.beside h)))
  · exact Keeps.beside h

theorem execIdlFrameError_keeps {s : State} {receiver : Die} (h : Keeps may was s) :
    KeepsAll may was (execIdlFrameError receiver s) :=
  Keeps.next (frameError_keeps h)

theorem feedUnreach_keeps {s : State} {off : Nat} (h : Keeps may was s) : Keeps may was (feedUnreach s off) :=
  post_keeps (satReg_keeps h)

theorem feedLostAccess_keeps {s : State} {w : FeedWait} (h : Keeps may was s) : Keeps may was (feedLostAccess s w) := by
  unfold feedLostAccess
  split
  · exact setRes_keeps (feedUnreach_keeps h)
  · exact Keeps.ite (feedUnreach_keeps h) (answer_keeps (feedUnreach_keeps h))

theorem linkGone_keeps {s : State} (hSlots : may.slots = true) (h : Keeps may was s) : Keeps may was (linkGone s) :=
  admitWaits_keeps hSlots
    (dropReady_keeps hSlots (Keeps.foldl (@feedLostAccess_keeps may was) (idlDrop_keeps h)))

theorem linkLost_keeps {s : State} (hSlots : may.slots = true) (h : Keeps may was s) : Keeps may was (linkLost s) :=
  Keeps.ite h (linkGone_keeps hSlots (bumpReg_keeps (post_keeps h)))

theorem execIdlLinkLost_keeps {s : State} (hSlots : may.slots = true) (h : Keeps may was s) :
    KeepsAll may was (execIdlLinkLost s) :=
  Keeps.next (linkLost_keeps hSlots h)

theorem idlNak_keeps {s : State} {receiver : Die} {seq : BitVec 8} (hSlots : may.slots = true) (h : Keeps may was s) :
    Keeps may was (idlNak s receiver seq) := by
  unfold idlNak
  repeat' split
  · exact h
  · exact Keeps.ite h
      (Keeps.ite (linkLost_keeps hSlots (bumpReg_keeps h)) (Keeps.beside (bumpReg_keeps (bumpReg_keeps h))))
  · exact Keeps.ite h (Keeps.ite (linkLost_keeps hSlots h) (Keeps.beside h))

theorem execIdlNak_keeps {s : State} {receiver : Die} {seq : BitVec 8} (hSlots : may.slots = true)
    (h : Keeps may was s) : KeepsAll may was (execIdlNak receiver seq s) :=
  Keeps.next (idlNak_keeps hSlots h)

theorem retrain_keeps {s : State} (hSlots : may.slots = true) (h : Keeps may was s) : Keeps may was (retrain s) :=
  Keeps.ite (refusedCtrl_keeps h) (linkGone_keeps hSlots (post_keeps h))

theorem execIdRetrain_keeps {s : State} {fn : Fn} (hSlots : may.slots = true) (h : Keeps may was s) :
    KeepsAll may was (execIdRetrain fn s) :=
  Keeps.next (wr_keeps (retrain_keeps hSlots) h)

theorem execIdlPush0_keeps {s : State} (h : Keeps may was s) : KeepsAll may was (execIdlPush0 s) :=
  Keeps.next (takeDrive_keeps (fun _ _ a => Keeps.beside a) h)

theorem applyPush_keeps {s : State} {w0 w1 : Word} (hSlots : may.slots = true) (h : Keeps may was s) :
    Keeps may was (applyPush s w0 w1) :=
  admitWaits_keeps hSlots
    (Keeps.ite
    (redoAll_keeps hSlots
    (Keeps.ite (post_keeps (pushCauses_keeps (Keeps.beside h))) (pushCauses_keeps (Keeps.beside h))))
    (Keeps.ite (post_keeps (pushCauses_keeps (Keeps.beside h))) (pushCauses_keeps (Keeps.beside h))))

theorem execIdlPush1_keeps {s : State} (hSlots : may.slots = true) (h : Keeps may was s) :
    KeepsAll may was (execIdlPush1 s) := by
  unfold execIdlPush1
  dsimp only
  split
  · exact Keeps.next (takeDrive_keeps (fun _ _ => applyPush_keeps hSlots) h)
  · exact Keeps.next (takeDrive_keeps (fun _ _ a => a) h)

theorem execIdlRdReq_keeps {s : State} (h : Keeps may was s) : KeepsAll may was (execIdlRdReq s) :=
  Keeps.next
    (takeFeed_keeps
    (fun _ _ a =>
    Keeps.ite (sendToDrive_keeps a) (Keeps.ite (sendToDrive_keeps a) (sendToDrive_keeps (feedRead_keeps a))))
    h)

theorem rdDataIn_keeps {s : State} {v : Word} {lat : Nat} (h : Keeps may was s) : Keeps may was (rdDataIn s v lat) := by
  unfold rdDataIn
  repeat' split
  · exact h
  · exact setRes_keeps (putReg_keeps (putReg_keeps (Keeps.beside h)))
  · exact Keeps.ite (denied_keeps (putReg_keeps (putReg_keeps (Keeps.beside h))))
      (putReg_keeps (putReg_keeps (Keeps.beside h)))
  · exact answer_keeps
      (Keeps.ite (denied_keeps (putReg_keeps (putReg_keeps (Keeps.beside h))))
      (putReg_keeps (putReg_keeps (Keeps.beside h))))

theorem execIdlRdData_keeps {s : State} {latNs : BitVec 16} (h : Keeps may was s) :
    KeepsAll may was (execIdlRdData latNs s) :=
  Keeps.next (takeDrive_keeps (fun _ _ => rdDataIn_keeps) h)

theorem execIdlWrAddr_keeps {s : State} (h : Keeps may was s) : KeepsAll may was (execIdlWrAddr s) :=
  Keeps.next (takeFeed_keeps (fun _ _ a => Keeps.beside a) h)

theorem wrDataIn_keeps {s : State} {v : Word} (hChans : may.chans = true) (hFeeds : may.feeds = true)
    (hRails : may.rails = true) (hSlots : may.slots = true) (hBore : may.bore = true) (h : Keeps may was s) :
    Keeps may was (wrDataIn s v) := by
  unfold wrDataIn
  split
  · exact h
  · exact Keeps.ite (sendToDrive_keeps (Keeps.beside h))
      (sendToDrive_keeps (feedStore_keeps hChans hFeeds hRails hSlots hBore (Keeps.beside h)))

theorem execIdlWrData_keeps {s : State} (hChans : may.chans = true) (hFeeds : may.feeds = true)
    (hRails : may.rails = true) (hSlots : may.slots = true) (hBore : may.bore = true) (h : Keeps may was s) :
    KeepsAll may was (execIdlWrData s) :=
  Keeps.next (takeFeed_keeps (fun _ _ => wrDataIn_keeps hChans hFeeds hRails hSlots hBore) h)

theorem wrAckIn_keeps {s : State} {refused : Bool} (h : Keeps may was s) : Keeps may was (wrAckIn s refused) := by
  unfold wrAckIn
  repeat' split
  · exact h
  · exact Keeps.foldl (@feedAccess_keeps may was) (setRes_keeps (Keeps.beside h))
  · exact Keeps.foldl (@feedAccess_keeps may was) (setRes_keeps (Keeps.beside h))
  · exact Keeps.foldl (@feedAccess_keeps may was) (denied_keeps (Keeps.beside h))
  · exact Keeps.foldl (@feedAccess_keeps may was) (Keeps.beside h)

theorem execIdlWrAck_keeps {s : State} (h : Keeps may was s) : KeepsAll may was (execIdlWrAck s) :=
  Keeps.next (takeDrive_keeps (fun _ _ => wrAckIn_keeps) h)

theorem execIdlDroneSend_keeps {s : State} (h : Keeps may was s) : KeepsAll may was (execIdlDroneSend s) :=
  Keeps.next (Keeps.ite (sendToDrive_keeps h) h)

theorem droneIn_keeps {s : State} {count : Word} (h : Keeps may was s) : Keeps may was (droneIn s count) :=
  Keeps.ite (post_keeps (Keeps.beside (setReg_keeps (tick_keeps (tick_keeps h)))))
    (Keeps.beside (setReg_keeps (tick_keeps (tick_keeps h))))

theorem execIdlDrone_keeps {s : State} (h : Keeps may was s) : KeepsAll may was (execIdlDrone s) :=
  Keeps.next (takeDrive_keeps (fun _ _ => droneIn_keeps) h)

theorem execIdlBell0_keeps {s : State} (h : Keeps may was s) : KeepsAll may was (execIdlBell0 s) :=
  Keeps.next (takeDrive_keeps (fun _ _ a => Keeps.beside a) h)

theorem execIdlBell1_keeps {s : State} (h : Keeps may was s) : KeepsAll may was (execIdlBell1 s) := by
  refine Keeps.next (takeDrive_keeps (fun d u hu => ?_) h)
  split
  · exact bellIn_keeps hu.beside
  · exact hu

theorem execIdlHeldBellSend_keeps {s : State} (h : Keeps may was s) : KeepsAll may was (execIdlHeldBellSend s) :=
  KeepsAll.ite (Keeps.next h)
    (Keeps.next (Keeps.foldl (fun _ _ a => sendToDrive_keeps (sendToDrive_keeps a)) (Keeps.beside h)))

end Sys2Proof.Machine
end

