-- ==== Sys2Proof/Proofs/KeepsHost.lean ====
section
/-! SUPPORT. What each function of the model keeps: queues, host accesses, commands and SMBus. A lemma per function; the
hypotheses name the parts that it may move. -/

namespace Sys2Proof.Machine

open Sys2Proof.Safety

variable {may : Moves} {was : State}

theorem sqCtrlWrite_keeps {s : State} {q : Nat} {v : Word} (h : Keeps may was s) : Keeps may was (sqCtrlWrite s q v) :=
  Keeps.ite (refusedCtrl_keeps h) (Keeps.ite (refusedCtrl_keeps h) (setSq_keeps (writeReg_keeps h)))

theorem cqCtrlWrite_keeps {s : State} {q : Nat} {v : Word} (hBore : may.bore = true) (h : Keeps may was s) :
    Keeps may was (cqCtrlWrite s q v) :=
  Keeps.ite (refusedCtrl_keeps h)
    (Keeps.ite (refusedCtrl_keeps h)
    (Keeps.ite (flushCq_keeps hBore (setCq_keeps (writeReg_keeps h))) (writeReg_keeps h)))

theorem sqBaseWrite_keeps {s : State} {q : Nat} {v : Word} (h : Keeps may was s) : Keeps may was (sqBaseWrite s q v) :=
  Keeps.ite (refusedCtrl_keeps h) (setSq_keeps (writeReg_keeps h))

theorem cqBaseWrite_keeps {s : State} {q : Nat} {v : Word} (h : Keeps may was s) : Keeps may was (cqBaseWrite s q v) :=
  Keeps.ite (refusedCtrl_keeps h) (writeReg_keeps h)

theorem execJcSqCtrlWrite_keeps {s : State} {fn : Fn} {q : QId} {v : Word} (h : Keeps may was s) :
    KeepsAll may was (execJcSqCtrlWrite fn q v s) :=
  Keeps.next (wr_keeps sqCtrlWrite_keeps h)

theorem execJcCqCtrlWrite_keeps {s : State} {fn : Fn} {q : QId} {v : Word} (hBore : may.bore = true)
    (h : Keeps may was s) : KeepsAll may was (execJcCqCtrlWrite fn q v s) :=
  Keeps.next (wr_keeps (cqCtrlWrite_keeps hBore) h)

theorem doorbellBad_keeps {s : State} {o : Nat} (h : Keeps may was s) : Keeps may was (doorbellBad s o) :=
  post_keeps h

theorem sqTailWrite_keeps {s : State} {fn : Fn} {q tail : Nat} (h : Keeps may was s) :
    Keeps may was (sqTailWrite s fn q tail) :=
  Keeps.ite (doorbellBad_keeps h) (Keeps.ite (badEncoding_keeps h) (setSq_keeps h))

theorem cqHeadWrite_keeps {s : State} {fn : Fn} {q head : Nat} (hBore : may.bore = true) (h : Keeps may was s) :
    Keeps may was (cqHeadWrite s fn q head) :=
  Keeps.ite (doorbellBad_keeps h) (Keeps.ite (badEncoding_keeps h) (flushCq_keeps hBore (setCq_keeps h)))

theorem execSqDoorbell_keeps {s : State} {fn : Fn} {q : QId} {tail : BitVec 12} (h : Keeps may was s) :
    KeepsAll may was (execSqDoorbell fn q tail s) :=
  Keeps.next (wr_keeps sqTailWrite_keeps h)

theorem execCqDoorbell_keeps {s : State} {fn : Fn} {q : QId} {head : BitVec 12} (hBore : may.bore = true)
    (h : Keeps may was s) : KeepsAll may was (execCqDoorbell fn q head s) :=
  Keeps.next (wr_keeps (cqHeadWrite_keeps hBore) h)

theorem fetchOne_keeps {s : State} {q : Nat} (hBore : may.bore = true) (h : Keeps may was s) :
    Keeps may was (fetchOne s q) := by
  unfold fetchOne
  extract_lets x d a r s1
  have h1 : Keeps may was s1 := Keeps.foldlWith (π := Prod.fst) (fun _ _ hu => parRead_keeps hBore hu) h
  clear_value s1
  exact (setSq_keeps h1).moveCmdq (TagsKept.of_cmds rfl)

theorem fetchSome_keeps {s : State} {q n : Nat} (hBore : may.bore = true) (h : Keeps may was s) :
    Keeps may was (fetchSome q n s) := by
  induction n generalizing s with
  | zero => exact h
  | succ n ih => exact ih (fetchOne_keeps hBore h)

theorem sqArbitrate_keeps {s : State} (hBore : may.bore = true) (h : Keeps may was s) :
    Keeps may was (sqArbitrate s) := by
  unfold sqArbitrate
  refine Keeps.ite h ?_
  dsimp only
  split
  · exact h
  · exact Keeps.ite (post_keeps h) (fetchSome_keeps hBore (h.moveCmdq (TagsKept.of_cmds (by split <;> rfl))))

theorem execSqArbitrate_keeps {s : State} (hBore : may.bore = true) (h : Keeps may was s) :
    KeepsAll may was (execSqArbitrate s) :=
  Keeps.next (sqArbitrate_keeps hBore h)

theorem execSqDrainDone_keeps {s : State} {q : QId} (h : Keeps may was s) : KeepsAll may was (execSqDrainDone q s) :=
  Keeps.next (Keeps.ite (setSq_keeps h) h)

theorem execCqAggTimer_keeps {s : State} {q : QId} (h : Keeps may was s) : KeepsAll may was (execCqAggTimer q s) :=
  Keeps.next (Keeps.ite h (cqSignal_keeps h))

theorem tabCode_keeps {s : State} {k c : Nat} (hCal : may.cal = true) (hSlots : may.slots = true)
    (hBore : may.bore = true) (h : Keeps may was s) : Keeps may was (tabCode s k c) := by
  unfold tabCode
  repeat' split
  · exact fabAccept_keeps hSlots hBore h
  · exact tabLoad_keeps h
  · exact tabSave_keeps hBore h
  · exact coefDefault_keeps hCal h
  · exact tabCheck_keeps hBore h
  · exact badEncoding_keeps h
  · exact seqDefault_keeps hBore h
  · exact scStart_keeps hCal h
  · exact badEncoding_keeps h
  · exact scStart_keeps hCal h
  · exact badEncoding_keeps h
  · exact badEncoding_keeps h

theorem pkCmd_keeps {s : State} {c : Nat} {mask : Word} (hPark : may.park = true) (h : Keeps may was s) :
    Keeps may was (pkCmd s c mask) := by
  unfold pkCmd
  split
  · exact parkEvent_keeps hPark h
  · exact Keeps.ite h (parkEvent_keeps hPark h)
  · exact parkUpdate_keeps hPark h
  · exact parkApply_keeps hPark h
  · exact parkReload_keeps hPark h
  · exact badEncoding_keeps h

theorem valveCode_keeps {s : State} {t : Nat} {v : Word} (hTiles : may.tiles = true) (hSlots : may.slots = true)
    (h : Keeps may was s) : Keeps may was (valveCode s t v) := by
  unfold valveCode
  dsimp only
  split
  · exact tick_keeps (valveRelease_keeps hTiles hSlots h)
  · exact valveOff_keeps hTiles hSlots h
  · exact valveOn_keeps hTiles hSlots h
  · exact badEncoding_keeps h

theorem refCode_keeps {s : State} {t : Nat} {v : Word} (h : Keeps may was s) : Keeps may was (refCode s t v) :=
  Keeps.ite (tick_keeps (refReturn_keeps h)) h

theorem pcieRetrain_keeps {s : State} (h : Keeps may was s) : Keeps may was (pcieRetrain s) :=
  Keeps.ite (Keeps.beside h) h

theorem routeWrite_keeps {s : State} {v : Word} (h : Keeps may was s) : Keeps may was (routeWrite s v) :=
  Keeps.ite (Keeps.beside h) h

theorem prWrite_keeps {s : State} {o : Nat} {v : Word} {fn : Fn} (h : Keeps may was s) :
    Keeps may was (prWrite s o v fn) := by
  unfold prWrite
  split
  · exact Keeps.ite (protChanged_keeps (writeReg_keeps h)) h
  · exact h

theorem writeTile_keeps {s : State} {fn : Fn} {t o : Nat} {v : Word} (hChans : may.chans = true)
    (hTiles : may.tiles = true) (hSlots : may.slots = true) (h : Keeps may was s) :
    Keeps may was (writeTile s fn t o v) := by
  unfold writeTile
  split
  · exact chCfg_keeps hChans h
  · exact tlChCmd_keeps hChans h
  · exact valveCode_keeps hTiles hSlots h
  · exact refCode_keeps h
  · exact writeReg_keeps h

theorem writePlan_keeps {s : State} {o : Nat} {v : Word} (hSlots : may.slots = true) (hBore : may.bore = true)
    (h : Keeps may was s) : Keeps may was (writePlan s o v) :=
  Keeps.ite (Keeps.ite (fabAccept_keeps hSlots hBore h) (badEncoding_keeps h)) (writeReg_keeps h)

theorem writeCommit_keeps {s : State} {o : Nat} {v : Word} (hBore : may.bore = true) (h : Keeps may was s) :
    Keeps may was (writeCommit s o v) :=
  Keeps.ite (commitRequest_keeps hBore h)
    (Keeps.ite (schedEnWrite_keeps hBore h) (Keeps.ite (schedTWrite_keeps h) (writeReg_keeps h)))

theorem writeMeas_keeps {s : State} {o : Nat} {v : Word} (hCal : may.cal = true) (hSlots : may.slots = true)
    (hBore : may.bore = true) (h : Keeps may was s) : Keeps may was (writeMeas s o v) := by
  unfold writeMeas
  split
  · exact Keeps.beside (writeReg_keeps h)
  · exact tabCode_keeps hCal hSlots hBore h
  · exact seqModeWrite_keeps hBore h
  · exact timerWrite_keeps h
  · exact drvDelayWrite_keeps h
  · exact trigWrite_keeps hBore h
  · exact urgentWrite_keeps h
  · exact openClear_keeps h
  · exact writeReg_keeps h

theorem writeAcc_keeps {s : State} {o : Nat} {v : Word} (hBore : may.bore = true) (h : Keeps may was s) :
    Keeps may was (writeAcc s o v) := by
  unfold writeAcc
  split
  · exact accCfgWrite_keeps h
  · exact accCmd_keeps hBore h
  · exact writeReg_keeps h

theorem writeCal_keeps {s : State} {o : Nat} {v : Word} (hCal : may.cal = true) (hSlots : may.slots = true)
    (hBore : may.bore = true) (h : Keeps may was s) : Keeps may was (writeCal s o v) := by
  unfold writeCal
  split
  · exact coefWrite_keeps hCal h
  · exact tabCode_keeps hCal hSlots hBore h
  · exact writeReg_keeps h

theorem writeThm_keeps {s : State} {o : Nat} {v : Word} (hCal : may.cal = true) (hSlots : may.slots = true)
    (hBore : may.bore = true) (h : Keeps may was s) : Keeps may was (writeThm s o v) :=
  Keeps.ite (tabCode_keeps hCal hSlots hBore h)
    (Keeps.ite (kDataWrite_keeps hSlots h) (Keeps.ite (tileClassWrite_keeps hSlots h) (writeReg_keeps h)))

theorem writePark_keeps {s : State} {o : Nat} {v : Word} (hPark : may.park = true) (h : Keeps may was s) :
    Keeps may was (writePark s o v) := by
  unfold writePark
  split
  · exact pkCmd_keeps hPark h
  · exact parkDataWrite_keeps hPark h
  · exact writeReg_keeps h

theorem writeTemp_keeps {s : State} {o : Nat} {v : Word} (h : Keeps may was s) : Keeps may was (writeTemp s o v) := by
  unfold writeTemp
  split
  · exact threshWrite_keeps h
  · exact Keeps.ite (diodeClr_keeps h) (badEncoding_keeps h)
  · exact writeReg_keeps h

theorem writeBoot_keeps {s : State} {o : Nat} {v : Word} (hCal : may.cal = true) (hSlots : may.slots = true)
    (hBore : may.bore = true) (h : Keeps may was s) : Keeps may was (writeBoot s o v) := by
  unfold writeBoot
  split
  · exact btCtrl_keeps hCal hSlots hBore h
  · exact Keeps.beside (writeReg_keeps h)
  · exact bondLimWrite_keeps h
  · exact padtestWrite_keeps hBore h
  · exact updCtrl_keeps h
  · exact writeReg_keeps h

theorem writeHost_keeps {s : State} {o : Nat} {v : Word} (h : Keeps may was s) : Keeps may was (writeHost s o v) := by
  unfold writeHost
  split
  · exact Keeps.ite (pcieRetrain_keeps (writeReg_keeps h)) (writeReg_keeps h)
  · exact routeWrite_keeps h
  · exact writeReg_keeps h

theorem writeSlink_keeps {s : State} {o : Nat} {v : Word} (hBore : may.bore = true) (h : Keeps may was s) :
    Keeps may was (writeSlink s o v) := by
  unfold writeSlink
  split
  · exact slCtrlWrite_keeps h
  · exact slSchedCmd_keeps hBore h
  · exact writeReg_keeps h

theorem writePwr_keeps {s : State} {o : Nat} {v : Word} (hChans : may.chans = true) (hPark : may.park = true)
    (hTiles : may.tiles = true) (hSlots : may.slots = true) (hBore : may.bore = true) (h : Keeps may was s) :
    Keeps may was (writePwr s o v) := by
  unfold writePwr
  split
  · exact pwCtrlWrite_keeps hPark hSlots hBore h
  · exact domCtrlWrite_keeps hChans hTiles hSlots h
  · exact writeReg_keeps h

theorem writeCmdq_keeps {s : State} {fn : Fn} {o : Nat} {v : Word} (hBore : may.bore = true) (h : Keeps may was s) :
    Keeps may was (writeCmdq s fn o v) := by
  unfold writeCmdq
  repeat' split
  · exact sqTailWrite_keeps h
  · exact cqHeadWrite_keeps hBore h
  · exact sqBaseWrite_keeps h
  · exact sqCtrlWrite_keeps h
  · exact writeReg_keeps h
  · exact cqBaseWrite_keeps h
  · exact cqCtrlWrite_keeps hBore h
  · exact writeReg_keeps h
  · exact writeReg_keeps h

theorem pageWrite_keeps {s : State} {fn : Fn} {off : Nat} {v : Word} (hChans : may.chans = true)
    (hPark : may.park = true) (hCal : may.cal = true) (hTiles : may.tiles = true) (hSlots : may.slots = true)
    (hBore : may.bore = true) (h : Keeps may was s) : Keeps may was (pageWrite s fn off v) := by
  unfold pageWrite
  dsimp only
  repeat' split
  · exact lockWrite_keeps h
  · exact headerWrite_keeps hChans hSlots hBore h
  · exact writeTile_keeps hChans hTiles hSlots h
  · exact syReset_keeps hChans hPark hCal hTiles hSlots hBore h
  · exact h
  · exact writePwr_keeps hChans hPark hTiles hSlots hBore h
  · exact prWrite_keeps h
  · exact writeHost_keeps h
  · exact writeCmdq_keeps hBore h
  · exact nfCmd_keeps h
  · exact writeReg_keeps h
  · exact writePark_keeps hPark h
  · exact tabCode_keeps hCal hSlots hBore h
  · exact writeReg_keeps h
  · exact writePlan_keeps hSlots hBore h
  · exact writeCommit_keeps hBore h
  · exact breathWrite_keeps hSlots h
  · exact tabCode_keeps hCal hSlots hBore h
  · exact writeReg_keeps h
  · exact writeMeas_keeps hCal hSlots hBore h
  · exact writeAcc_keeps hBore h
  · exact writeCal_keeps hCal hSlots hBore h
  · exact tabCode_keeps hCal hSlots hBore h
  · exact loopRegWrite_keeps h
  · exact writeThm_keeps hCal hSlots hBore h
  · exact writeTemp_keeps h
  · exact writeSlink_keeps hBore h
  · exact retrain_keeps hSlots h
  · exact h
  · exact h
  · exact writeBoot_keeps hCal hSlots hBore h
  · exact writeReg_keeps h

theorem bar0Write_keeps {s : State} {fn : Fn} {off : Nat} {v : Word} {formOk : Bool} (hChans : may.chans = true)
    (hPark : may.park = true) (hCal : may.cal = true) (hTiles : may.tiles = true) (hSlots : may.slots = true)
    (hBore : may.bore = true) (h : Keeps may was s) : Keeps may was (bar0Write s fn off v formOk) :=
  guarded_keeps
    (fun _ => Keeps.ite (feedAccess_keeps h) (pageWrite_keeps hChans hPark hCal hTiles hSlots hBore h)) h

theorem bar0Read_keeps {s : State} {fn : Fn} {off : Nat} {formOk : Bool} (hBore : may.bore = true)
    (h : Keeps may was s) : Keeps may was (bar0Read s fn off formOk) := by
  unfold bar0Read
  dsimp only
  repeat' split
  · exact h
  · exact feedAccess_keeps h
  · exact answer_keeps (onVerdict_keeps h)
  · exact answer_keeps (pageRead_keeps hBore h)
  · exact answer_keeps (onVerdict_keeps h)

theorem execRegisterWrite_keeps {s : State} {fn : Fn} {off : BitVec 24} {v : Word} {formOk : Bool}
    (hChans : may.chans = true) (hPark : may.park = true) (hCal : may.cal = true) (hTiles : may.tiles = true)
    (hSlots : may.slots = true) (hBore : may.bore = true) (h : Keeps may was s) :
    KeepsAll may was (execRegisterWrite fn off v formOk s) :=
  Keeps.next (bar0Write_keeps hChans hPark hCal hTiles hSlots hBore h)

theorem execFeedPageRead_keeps {s : State} {fn : Fn} {off : BitVec 24} (hBore : may.bore = true) (h : Keeps may was s) :
    KeepsAll may was (execFeedPageRead fn off s) :=
  Keeps.next (Keeps.ite (bar0Read_keeps hBore h) h)

theorem execFeedPageWrite_keeps {s : State} {fn : Fn} {off : BitVec 24} {v : Word} (hChans : may.chans = true)
    (hPark : may.park = true) (hCal : may.cal = true) (hTiles : may.tiles = true) (hSlots : may.slots = true)
    (hBore : may.bore = true) (h : Keeps may was s) : KeepsAll may was (execFeedPageWrite fn off v s) :=
  Keeps.next (Keeps.ite (bar0Write_keeps hChans hPark hCal hTiles hSlots hBore h) h)

theorem headerAccess_keeps {s : State} {fn : Fn} {page : BitVec 9} {o : Nat} {v : Word} (hChans : may.chans = true)
    (hPark : may.park = true) (hCal : may.cal = true) (hTiles : may.tiles = true) (hSlots : may.slots = true)
    (hBore : may.bore = true) (h : Keeps may was s) : KeepsAll may was (headerAccess s fn page o v) :=
  Keeps.next (bar0Write_keeps hChans hPark hCal hTiles hSlots hBore h)

theorem execPgIrqStatWrite_keeps {s : State} {fn : Fn} {page : BitVec 9} {v : Word} (hChans : may.chans = true)
    (hPark : may.park = true) (hCal : may.cal = true) (hTiles : may.tiles = true) (hSlots : may.slots = true)
    (hBore : may.bore = true) (h : Keeps may was s) : KeepsAll may was (execPgIrqStatWrite fn page v s) :=
  headerAccess_keeps hChans hPark hCal hTiles hSlots hBore h

theorem execPgLockWrite_keeps {s : State} {fn : Fn} {page : BitVec 9} {v : Word} (hChans : may.chans = true)
    (hPark : may.park = true) (hCal : may.cal = true) (hTiles : may.tiles = true) (hSlots : may.slots = true)
    (hBore : may.bore = true) (h : Keeps may was s) : KeepsAll may was (execPgLockWrite fn page v s) :=
  headerAccess_keeps hChans hPark hCal hTiles hSlots hBore h

theorem execStickyClear_keeps {s : State} {fn : Fn} {page : BitVec 9} {v : Word} (hChans : may.chans = true)
    (hPark : may.park = true) (hCal : may.cal = true) (hTiles : may.tiles = true) (hSlots : may.slots = true)
    (hBore : may.bore = true) (h : Keeps may was s) : KeepsAll may was (execStickyClear fn page v s) :=
  headerAccess_keeps hChans hPark hCal hTiles hSlots hBore h

theorem execPgFltSevWrite_keeps {s : State} {fn : Fn} {page : BitVec 9} {v : Word} (hChans : may.chans = true)
    (hPark : may.park = true) (hCal : may.cal = true) (hTiles : may.tiles = true) (hSlots : may.slots = true)
    (hBore : may.bore = true) (h : Keeps may was s) : KeepsAll may was (execPgFltSevWrite fn page v s) :=
  headerAccess_keeps hChans hPark hCal hTiles hSlots hBore h

theorem execPgBlkRst_keeps {s : State} {fn : Fn} {page : BitVec 9} (hChans : may.chans = true) (hPark : may.park = true)
    (hCal : may.cal = true) (hTiles : may.tiles = true) (hSlots : may.slots = true) (hBore : may.bore = true)
    (h : Keeps may was s) : KeepsAll may was (execPgBlkRst fn page s) :=
  headerAccess_keeps hChans hPark hCal hTiles hSlots hBore h

theorem execInjOff_keeps {s : State} {fn : Fn} {page : BitVec 9} {src : Fin 16} (hChans : may.chans = true)
    (hPark : may.park = true) (hCal : may.cal = true) (hTiles : may.tiles = true) (hSlots : may.slots = true)
    (hBore : may.bore = true) (h : Keeps may was s) : KeepsAll may was (execInjOff fn page src s) :=
  headerAccess_keeps hChans hPark hCal hTiles hSlots hBore h

theorem execInjPulse_keeps {s : State} {fn : Fn} {page : BitVec 9} {src : Fin 16} {detail : BitVec 16}
    (hChans : may.chans = true) (hPark : may.park = true) (hCal : may.cal = true) (hTiles : may.tiles = true)
    (hSlots : may.slots = true) (hBore : may.bore = true) (h : Keeps may was s) :
    KeepsAll may was (execInjPulse fn page src detail s) :=
  headerAccess_keeps hChans hPark hCal hTiles hSlots hBore h

theorem execInjHold_keeps {s : State} {fn : Fn} {page : BitVec 9} {src : Fin 16} {detail : BitVec 16}
    (hChans : may.chans = true) (hPark : may.park = true) (hCal : may.cal = true) (hTiles : may.tiles = true)
    (hSlots : may.slots = true) (hBore : may.bore = true) (h : Keeps may was s) :
    KeepsAll may was (execInjHold fn page src detail s) :=
  headerAccess_keeps hChans hPark hCal hTiles hSlots hBore h

theorem execInjCheck_keeps {s : State} {fn : Fn} {page : BitVec 9} {src : Fin 16} {detail : BitVec 16}
    (hChans : may.chans = true) (hPark : may.park = true) (hCal : may.cal = true) (hTiles : may.tiles = true)
    (hSlots : may.slots = true) (hBore : may.bore = true) (h : Keeps may was s) :
    KeepsAll may was (execInjCheck fn page src detail s) :=
  headerAccess_keeps hChans hPark hCal hTiles hSlots hBore h

theorem execPrRegWrite_keeps {s : State} {fn : Fn} {off : BitVec 12} {v : Word} (hChans : may.chans = true)
    (hPark : may.park = true) (hCal : may.cal = true) (hTiles : may.tiles = true) (hSlots : may.slots = true)
    (hBore : may.bore = true) (h : Keeps may was s) : KeepsAll may was (execPrRegWrite fn off v s) :=
  Keeps.next (bar0Write_keeps hChans hPark hCal hTiles hSlots hBore h)

theorem accWrite_keeps {s : State} {off : Nat} (h : Keeps may was s) : Keeps may was (accWrite s off) :=
  post_keeps h

theorem windowStore_keeps {s : State} {off : Nat} {w : Word} (hBore : may.bore = true) (h : Keeps may was s) :
    Keeps may was (windowStore s off w) := by
  unfold windowStore
  dsimp only
  split
  · exact setpointStore_keeps hBore h
  · exact shapeStore_keeps hBore h
  · exact seqStore_keeps hBore h
  · exact deltaStore_keeps hBore h
  · exact setBore_keeps hBore h

theorem readStep_keeps {fn : Fn} {p : ReadTlp} {off : Nat} (h : Keeps may was p.s) : Keeps may was (readStep fn p off).s := by
  unfold readStep
  dsimp only
  split
  · exact Keeps.ite (bumpReg_keeps h) h
  · exact Keeps.ite h (onVerdict_keeps h)

theorem bar2Read_keeps {s : State} {fn : Fn} {off more : Nat} (hBore : may.bore = true) (h : Keeps may was s) :
    Keeps may was (bar2Read s fn off more) := by
  unfold bar2Read
  refine Keeps.ite h ?_
  extract_lets offs p s1 s2
  have hp : Keeps may was p.s := Keeps.foldlWith (π := ReadTlp.s) (fun _ _ hu => readStep_keeps hu) h
  have h1 : Keeps may was s1 := Keeps.foldl (fun _ _ hu => Keeps.ite (strayFail_keeps hBore hu) hu) hp
  exact (answer_keeps h1).beside

theorem execBarRead_keeps {s : State} {fn : Fn} {bar : Bar} {at' : ReadSpan} {formOk : Bool} (hBore : may.bore = true)
    (h : Keeps may was s) : KeepsAll may was (execBarRead fn bar at' formOk s) := by
  unfold execBarRead
  split
  · exact Keeps.next (bar0Read_keeps hBore h)
  · exact Keeps.next (bar2Read_keeps hBore h)
  · exact Keeps.next (Keeps.ite (answer_keeps h) h)

theorem tlpStep_keeps {fn : Fn} {lo hi : Nat} {p : State × List Mark} {x : Nat × Word} (hBore : may.bore = true)
    (h : Keeps may was p.1) : Keeps may was (tlpStep fn lo hi p x).1 := by
  unfold tlpStep
  extract_lets a once
  have ho : ∀ m k, Keeps may was (k p.1) → Keeps may was (once m k).1 := fun _ _ hk => by
    unfold once
    split
    · exact h
    · exact hk
  clear_value once
  split
  · split
    · exact ho _ _ (windowStore_keeps hBore h)
    · exact windowStore_keeps hBore h
  · extract_lets src q
    have hq : Keeps may was q.1 := ho _ _ (onVerdict_keeps h)
    split
    · exact accWrite_keeps hq
    · exact hq

theorem bar2Write_keeps {s : State} {fn : Fn} {off : Nat} {data : List Word} (hSlots : may.slots = true)
    (hBore : may.bore = true) (h : Keeps may was s) : Keeps may was (bar2Write s fn off data) :=
  Keeps.ite h (shapeWritten_keeps hSlots (Keeps.foldlWith (π := Prod.fst) (fun _ _ hu => tlpStep_keeps hBore hu) h))

theorem execBar2SetpointWrite_keeps {s : State} {fn : Fn} {off : BitVec 26} {data : List Word}
    (hSlots : may.slots = true) (hBore : may.bore = true) (h : Keeps may was s) :
    KeepsAll may was (execBar2SetpointWrite fn off data s) :=
  Keeps.next (bar2Write_keeps hSlots hBore h)

theorem execBar2DeltaWrite_keeps {s : State} {fn : Fn} {off : BitVec 26} {data : List Word} (hSlots : may.slots = true)
    (hBore : may.bore = true) (h : Keeps may was s) : KeepsAll may was (execBar2DeltaWrite fn off data s) :=
  Keeps.next (bar2Write_keeps hSlots hBore h)

theorem execBar2ShapeWrite_keeps {s : State} {fn : Fn} {off : BitVec 26} {data : List Word} (hSlots : may.slots = true)
    (hBore : may.bore = true) (h : Keeps may was s) : KeepsAll may was (execBar2ShapeWrite fn off data s) :=
  Keeps.next (bar2Write_keeps hSlots hBore h)

theorem execBar2SeqWrite_keeps {s : State} {fn : Fn} {off : BitVec 26} {data : List Word} (hSlots : may.slots = true)
    (hBore : may.bore = true) (h : Keeps may was s) : KeepsAll may was (execBar2SeqWrite fn off data s) :=
  Keeps.next (bar2Write_keeps hSlots hBore h)

theorem execBar2SqWrite_keeps {s : State} {fn : Fn} {off : BitVec 26} {data : List Word} (hSlots : may.slots = true)
    (hBore : may.bore = true) (h : Keeps may was s) : KeepsAll may was (execBar2SqWrite fn off data s) :=
  Keeps.next (bar2Write_keeps hSlots hBore h)

theorem execBar2WindowWrite_keeps {s : State} {fn : Fn} {off : BitVec 26} {data : List Word} (hSlots : may.slots = true)
    (hBore : may.bore = true) (h : Keeps may was s) : KeepsAll may was (execBar2WindowWrite fn off data s) :=
  Keeps.next (bar2Write_keeps hSlots hBore h)

theorem execBar2AccWrite_keeps {s : State} {fn : Fn} {off : BitVec 26} (hSlots : may.slots = true)
    (hBore : may.bore = true) (h : Keeps may was s) : KeepsAll may was (execBar2AccWrite fn off s) :=
  Keeps.next (bar2Write_keeps hSlots hBore h)

theorem bar2Partial_keeps {s : State} {fn : Fn} {off : Nat} {be : BitVec 4} {v : Word} {parityOk : Bool}
    (hSlots : may.slots = true) (hBore : may.bore = true) (h : Keeps may was s) :
    Keeps may was (bar2Partial s fn off be v parityOk) := by
  unfold bar2Partial
  dsimp only
  repeat' split
  · exact h
  · exact windowStore_keeps hBore h
  · exact shapeWritten_keeps hSlots (windowStore_keeps hBore (bumpReg_keeps h))
  · exact windowStore_keeps hBore (bumpReg_keeps h)
  · exact post_keeps (bumpReg_keeps (strayFail_keeps hBore (bumpReg_keeps h)))
  · exact bar2Write_keeps hSlots hBore h

theorem execBar2PartialWrite_keeps {s : State} {fn : Fn} {off : BitVec 26} {be : BitVec 4} {v : Word} {parityOk : Bool}
    (hSlots : may.slots = true) (hBore : may.bore = true) (h : Keeps may was s) :
    KeepsAll may was (execBar2PartialWrite fn off be v parityOk s) :=
  Keeps.next (bar2Partial_keeps hSlots hBore h)

theorem release_keeps {s : State} {c : Cmd} (h : Keeps may was s) : Keeps may was (release s c) :=
  setCmd_keeps h

/-- A tag is taken that no command in flight holds. -/
theorem Keeps.takeTag {s t : State} {c : Cmd} {q : CmdQ} (hm : may.decodes = true) (h : Keeps may was s)
    (hk : TagsKept s.cmdq t.cmdq) (hc : c.tag ∉ s.cmdq.cmds.map (·.tag)) (ht : Keeps may was t)
    (hq : q.cmds = t.cmdq.cmds ++ [c]) : Keeps may was { t with cmdq := q } :=
  ⟨ht.pending, ht.now, ht.phase, ht.droneF, ht.canon, fun d => by
      show (q.cmds.map (·.tag)).Nodup
      rw [hq, List.map_append, List.nodup_append]
      refine ⟨ht.tags d, List.nodup_singleton _, fun a ha b hb => ?_⟩
      rintro rfl
      have hb' : a = c.tag := List.mem_singleton.mp hb
      exact hc (hk.subset (hb' ▸ ha)),
    unmarked hm, ht.committed, ht.ready, ht.chans, ht.feeds, ht.rails, ht.park, ht.cal, ht.tiles, ht.slots, ht.bore⟩

theorem freeTagNo_fresh {s : State} {tag : Nat} (h : freeTagNo s = some tag) : tag ∉ s.cmdq.cmds.map (·.tag) := by
  have hn : (cmdOf s tag).isNone = true := List.find?_some (p := fun t => (cmdOf s t).isNone) h
  simpa [cmdOf] using hn

theorem cmdDecode_keeps {s : State} {badWords : BitVec 16} (hBore : may.bore = true) (hDecodes : may.decodes = true)
    (h : Keeps may was s) : Keeps may was (cmdDecode s badWords) := by
  unfold cmdDecode
  split
  · rename_i e rest tag _ htag
    extract_lets place s1 c n _ s2 s3 sc
    have hf : ∀ {m : Moves} {w : State}, m.bore = true → Keeps m w s → Keeps m w s1 := fun hm hw =>
      Keeps.foldl (fun _ _ hu => parFail_keeps hm hu) hw
    have h2 : Keeps may was s2 := (Keeps.takeTag hDecodes h ((hf (m := { bore := true }) rfl Keeps.rfl).tagsKept rfl)
      (c := c) (freeTagNo_fresh htag) (hf hBore h) rfl)
    exact Keeps.ite (complete_keeps hBore (post_keeps (bumpReg_keeps h2)))
      (Keeps.ite (complete_keeps hBore h2) (Keeps.ite (release_keeps h2) h2))
  · exact h

theorem execCmdDecode_keeps {s : State} {badWords : BitVec 16} (hBore : may.bore = true) (hDecodes : may.decodes = true)
    (h : Keeps may was s) : KeepsAll may was (execCmdDecode badWords s) :=
  Keeps.next (cmdDecode_keeps hBore hDecodes h)

theorem execFenceRelease_keeps {s : State} {q : QId} (h : Keeps may was s) : KeepsAll may was (execFenceRelease q s) :=
  Keeps.next (Keeps.foldl (fun _ _ hu => Keeps.ite (release_keeps hu) hu) h)

theorem onReady_keeps {s : State} {tag : Tag} {opc : Nat} {k : Cmd → State → State}
    (hk : ∀ c u, Keeps may was u → Keeps may was (k c u)) (h : Keeps may was s) :
    KeepsAll may was (onReady s tag opc k) := by
  unfold onReady
  split
  · exact Keeps.next (hk _ _ (setCmd_keeps h))
  · exact Keeps.next h

theorem execJcpNop_keeps {s : State} {tag : Tag} (hBore : may.bore = true) (h : Keeps may was s) :
    KeepsAll may was (execJcpNop tag s) :=
  onReady_keeps (fun _ _ => complete_keeps hBore) h

theorem jcpVersion_keeps {s : State} {c : Cmd} (hBore : may.bore = true) (h : Keeps may was s) :
    Keeps may was (jcpVersion c s) :=
  setJcpVer_keeps (complete_keeps hBore h)

theorem execJcpVersion_keeps {s : State} {tag : Tag} (hBore : may.bore = true) (h : Keeps may was s) :
    KeepsAll may was (execJcpVersion tag s) :=
  onReady_keeps (fun _ _ => jcpVersion_keeps hBore) h

theorem jcpAbort_keeps {s : State} {c : Cmd} (hBore : may.bore = true) (h : Keeps may was s) :
    Keeps may was (jcpAbort c s) := by
  unfold jcpAbort
  dsimp only
  split
  · exact complete_keeps hBore h
  · exact Keeps.ite (complete_keeps hBore (complete_keeps hBore h)) (complete_keeps hBore h)

theorem execJcpAbort_keeps {s : State} {tag : Tag} (hBore : may.bore = true) (h : Keeps may was s) :
    KeepsAll may was (execJcpAbort tag s) :=
  onReady_keeps (fun _ _ => jcpAbort_keeps hBore) h

theorem jcpPlan_keeps {s : State} {c : Cmd} (hSlots : may.slots = true) (hBore : may.bore = true)
    (h : Keeps may was s) : Keeps may was (jcpPlan c s) :=
  fabAccept_keeps hSlots hBore (setCmd_keeps h)

theorem execJcpPlan_keeps {s : State} {tag : Tag} (hSlots : may.slots = true) (hBore : may.bore = true)
    (h : Keeps may was s) : KeepsAll may was (execJcpPlan tag s) :=
  onReady_keeps (fun _ _ => jcpPlan_keeps hSlots hBore) h

theorem jcpCommit_keeps {s : State} {c : Cmd} (hBore : may.bore = true) (h : Keeps may was s) :
    Keeps may was (jcpCommit c s) :=
  Keeps.ite (commitRequest_keeps hBore (setCmd_keeps h))
    (Keeps.ite (complete_keeps hBore (tick_keeps (tick_keeps h)))
    (Keeps.ite (complete_keeps hBore (tick_keeps (tick_keeps h)))
    (schedArm_keeps hBore (putReg_keeps (setReg_keeps (setReg_keeps (setCmd_keeps h)))))))

theorem execJcpCommit_keeps {s : State} {tag : Tag} (hBore : may.bore = true) (h : Keeps may was s) :
    KeepsAll may was (execJcpCommit tag s) :=
  onReady_keeps (fun _ _ => jcpCommit_keeps hBore) h

theorem jcpPark_keeps {s : State} {c : Cmd} (hPark : may.park = true) (hBore : may.bore = true) (h : Keeps may was s) :
    Keeps may was (jcpPark c s) :=
  complete_keeps hBore (pkCmd_keeps hPark h)

theorem execJcpPark_keeps {s : State} {tag : Tag} (hPark : may.park = true) (hBore : may.bore = true)
    (h : Keeps may was s) : KeepsAll may was (execJcpPark tag s) :=
  onReady_keeps (fun _ _ => jcpPark_keeps hPark hBore) h

theorem onCore_keeps {s : State} {tag : Tag} {opc : Nat} {k : Cmd → State → State}
    (hk : ∀ c u, Keeps may was u → Keeps may was (k c u)) (h : Keeps may was s) :
    KeepsAll may was (onCore s tag opc k) :=
  onReady_keeps (fun _ _ hu => Keeps.ite (hk _ _ (setCmd_keeps hu)) hu) h

theorem coreAccess_keeps {s : State} {fn : Fn} {off : Nat} (h : Keeps may was s) :
    Keeps may was (coreAccess s fn off).2 := by
  unfold coreAccess
  extract_lets a
  split
  · exact (onVerdict_keeps h : Keeps may was (onVerdict s a .hole))
  · split
    · split
      · exact h
      · exact (onVerdict_keeps h : Keeps may was (onVerdict s a .feed))
    · split
      · exact (onVerdict_keeps h : Keeps may was (onVerdict s a .domain))
      · exact h

theorem jcpRegRead_keeps {s : State} {c : Cmd} (hBore : may.bore = true) (h : Keeps may was s) :
    Keeps may was (jcpRegRead c s) := by
  unfold jcpRegRead
  dsimp only
  repeat' split
  · exact setRes_keeps (coreAccess_keeps h)
  · exact feedAccess_keeps h
  · exact setRes_keeps (onVerdict_keeps h)
  · exact setRes_keeps (pageRead_keeps hBore h)

theorem execJcpRegRead_keeps {s : State} {tag : Tag} (hBore : may.bore = true) (h : Keeps may was s) :
    KeepsAll may was (execJcpRegRead tag s) :=
  onCore_keeps (fun _ _ => jcpRegRead_keeps hBore) h

theorem jcpRegWrite_keeps {s : State} {c : Cmd} (hChans : may.chans = true) (hPark : may.park = true)
    (hCal : may.cal = true) (hTiles : may.tiles = true) (hSlots : may.slots = true) (hBore : may.bore = true)
    (h : Keeps may was s) : Keeps may was (jcpRegWrite c s) :=
  Keeps.ite (setRes_keeps (coreAccess_keeps h))
    (Keeps.ite (feedAccess_keeps h) (setRes_keeps (pageWrite_keeps hChans hPark hCal hTiles hSlots hBore h)))

theorem execJcpRegWrite_keeps {s : State} {tag : Tag} (hChans : may.chans = true) (hPark : may.park = true)
    (hCal : may.cal = true) (hTiles : may.tiles = true) (hSlots : may.slots = true) (hBore : may.bore = true)
    (h : Keeps may was s) : KeepsAll may was (execJcpRegWrite tag s) :=
  onCore_keeps (fun _ _ => jcpRegWrite_keeps hChans hPark hCal hTiles hSlots hBore) h

theorem jcpTable_keeps {s : State} {c : Cmd} (hCal : may.cal = true) (hSlots : may.slots = true)
    (hBore : may.bore = true) (h : Keeps may was s) : Keeps may was (jcpTable c s) := by
  unfold jcpTable
  dsimp only
  split
  · exact h
  · exact Keeps.ite (setRes_keeps (onVerdict_keeps h))
      (Keeps.ite (fabAccept_keeps hSlots hBore h) (tableTag_keeps (tabCode_keeps hCal hSlots hBore h)))

theorem execJcpTable_keeps {s : State} {tag : Tag} (hCal : may.cal = true) (hSlots : may.slots = true)
    (hBore : may.bore = true) (h : Keeps may was s) : KeepsAll may was (execJcpTable tag s) :=
  onCore_keeps (fun _ _ => jcpTable_keeps hCal hSlots hBore) h

theorem jcpNvRead_keeps {s : State} {c : Cmd} (h : Keeps may was s) : Keeps may was (jcpNvRead c s) := by
  unfold jcpNvRead
  repeat' split
  · exact setRes_keeps h
  · exact setRes_keeps h
  · exact Keeps.ite (setRes_keeps h) (setCmd_keeps h)
  · exact Keeps.ite (setRes_keeps h) h

theorem execJcpNvRead_keeps {s : State} {tag : Tag} (h : Keeps may was s) : KeepsAll may was (execJcpNvRead tag s) :=
  onCore_keeps (fun _ _ => jcpNvRead_keeps) h

theorem jcpNvWrite_keeps {s : State} {c : Cmd} (hBore : may.bore = true) (h : Keeps may was s) :
    Keeps may was (jcpNvWrite c s) := by
  unfold jcpNvWrite
  repeat' split
  · exact setRes_keeps h
  · exact setRes_keeps h
  · exact Keeps.ite (setRes_keeps h)
      (Keeps.ite (setRes_keeps (parSpan_keeps hBore h))
      (Keeps.ite (setRes_keeps (parSpan_keeps hBore h)) (Keeps.beside (parSpan_keeps hBore h))))

theorem execJcpNvWrite_keeps {s : State} {tag : Tag} (hBore : may.bore = true) (h : Keeps may was s) :
    KeepsAll may was (execJcpNvWrite tag s) :=
  onCore_keeps (fun _ _ => jcpNvWrite_keeps hBore) h

theorem mgmtComplete_keeps {s : State} {tag : Nat} (hBore : may.bore = true) (h : Keeps may was s) :
    Keeps may was (mgmtComplete s tag) := by
  unfold mgmtComplete
  repeat' split
  · exact h
  · exact h
  · exact h
  · exact complete_keeps hBore (setBores_keeps hBore h)
  · exact complete_keeps hBore (setBores_keeps hBore h)
  · exact complete_keeps hBore h
  · exact complete_keeps hBore h

theorem execMgmtComplete_keeps {s : State} {tag : Tag} (hBore : may.bore = true) (h : Keeps may was s) :
    KeepsAll may was (execMgmtComplete tag s) :=
  Keeps.next (mgmtComplete_keeps hBore h)

theorem execMgmtTimeout_keeps {s : State} {tag : Tag} (hBore : may.bore = true) (h : Keeps may was s) :
    KeepsAll may was (execMgmtTimeout tag s) := by
  unfold execMgmtTimeout
  split
  · exact Keeps.next (Keeps.ite (dropTag_keeps (complete_keeps hBore (post_keeps h))) h)
  · exact Keeps.next h

theorem execCoreUnavailable_keeps {s : State} {tag : Tag} (hBore : may.bore = true) (h : Keeps may was s) :
    KeepsAll may was (execCoreUnavailable tag s) := by
  unfold execCoreUnavailable
  split
  · exact Keeps.next (Keeps.ite (dropTag_keeps (complete_keeps hBore (post_keeps h))) h)
  · exact Keeps.next h

theorem execPoisonedRx_keeps {s : State} {woff : BitVec 24} (h : Keeps may was s) :
    KeepsAll may was (execPoisonedRx woff s) :=
  Keeps.next (Keeps.ite (post_keeps (bumpReg_keeps h)) h)

theorem execFlr_keeps {s : State} {fn : Fn} (h : Keeps may was s) : KeepsAll may was (execFlr fn s) :=
  Keeps.next (Keeps.ite (flr_keeps h) h)

theorem execPerstAssert_keeps {s : State} (hChans : may.chans = true) (hPark : may.park = true) (hCal : may.cal = true)
    (hTiles : may.tiles = true) (hSlots : may.slots = true) (hBore : may.bore = true) (h : Keeps may was s) :
    KeepsAll may was (execPerstAssert s) :=
  Keeps.next (Keeps.ite (drstFx_keeps hChans hPark hCal hTiles hSlots hBore (linkDown_keeps h)) h)

theorem execHotReset_keeps {s : State} (h : Keeps may was s) : KeepsAll may was (execHotReset s) :=
  Keeps.next (Keeps.ite (linkReset_keeps h) h)

theorem execD3hotEnter_keeps {s : State} {fn : Fn} (h : Keeps may was s) : KeepsAll may was (execD3hotEnter fn s) :=
  Keeps.next (Keeps.ite (Keeps.beside h) h)

theorem msixRelease_keeps {s : State} {fn vec : Nat} (h : Keeps may was s) : Keeps may was (msixRelease s fn vec) :=
  Keeps.ite (sendMsi_keeps (Keeps.beside h)) h

theorem execD3hotExit_keeps {s : State} {fn : Fn} (h : Keeps may was s) : KeepsAll may was (execD3hotExit fn s) :=
  Keeps.next
    (Keeps.ite (Keeps.foldl (fun u => @msixRelease_keeps may was u (fnNum fn)) (Keeps.beside h)) h)

theorem execMsixUnmask_keeps {s : State} {fn : Fn} {w : TableWrite} (h : Keeps may was s) :
    KeepsAll may was (execMsixUnmask fn w s) :=
  Keeps.next
    (Keeps.ite h (Keeps.ite (msixRelease_keeps (Keeps.beside (Keeps.beside h))) (Keeps.beside h)))

theorem execPcieLinkUp_keeps {s : State} {speed width : BitVec 6} (h : Keeps may was s) :
    KeepsAll may was (execPcieLinkUp speed width s) :=
  Keeps.next (Keeps.ite (Keeps.beside h) h)

theorem execHsRetrain_keeps {s : State} {fn : Fn} (h : Keeps may was s) : KeepsAll may was (execHsRetrain fn s) :=
  Keeps.next (wr_keeps pcieRetrain_keeps h)

theorem aerNote_keeps {s : State} {corr : Bool} {status : Word} (h : Keeps may was s) :
    Keeps may was (aerNote s corr status) :=
  Keeps.foldl (fun _ _ a => Keeps.beside a) h

theorem execPcieError_keeps {s : State} {corr : Bool} {status : Word} (h : Keeps may was s) :
    KeepsAll may was (execPcieError corr status s) :=
  Keeps.next (Keeps.ite (post_keeps (bumpReg_keeps (aerNote_keeps h))) h)

theorem execTileBlkReset_keeps {s : State} {fn : Fn} {t : Tile} (hChans : may.chans = true) (hPark : may.park = true)
    (hCal : may.cal = true) (hTiles : may.tiles = true) (hSlots : may.slots = true) (hBore : may.bore = true)
    (h : Keeps may was s) : KeepsAll may was (execTileBlkReset fn t s) :=
  headerAccess_keeps hChans hPark hCal hTiles hSlots hBore h

theorem smbAnswer_keeps {s : State} {b : List Byte} (h : Keeps may was s) : Keeps may was (smbAnswer s b) :=
  Keeps.beside h

theorem fdRead_keeps {s : State} {b : List Byte} (h : Keeps may was s) : Keeps may was (fdRead s b) :=
  smbAnswer_keeps h

theorem execFrVinA_keeps {s : State} (h : Keeps may was s) : KeepsAll may was (execFrVinA s) :=
  Keeps.next (fdRead_keeps h)

theorem execFrIinA_keeps {s : State} (h : Keeps may was s) : KeepsAll may was (execFrIinA s) :=
  Keeps.next (fdRead_keeps h)

theorem execFrVinB_keeps {s : State} (h : Keeps may was s) : KeepsAll may was (execFrVinB s) :=
  Keeps.next (fdRead_keeps h)

theorem execFrIinB_keeps {s : State} (h : Keeps may was s) : KeepsAll may was (execFrIinB s) :=
  Keeps.next (fdRead_keeps h)

theorem execFrVout_keeps {s : State} (h : Keeps may was s) : KeepsAll may was (execFrVout s) :=
  Keeps.next (fdRead_keeps h)

theorem execFrIout_keeps {s : State} (h : Keeps may was s) : KeepsAll may was (execFrIout s) :=
  Keeps.next (fdRead_keeps h)

theorem execFrPin_keeps {s : State} (h : Keeps may was s) : KeepsAll may was (execFrPin s) :=
  Keeps.next (fdRead_keeps h)

theorem execFrTemp_keeps {s : State} (h : Keeps may was s) : KeepsAll may was (execFrTemp s) :=
  Keeps.next (fdRead_keeps h)

theorem execFrStatus_keeps {s : State} (h : Keeps may was s) : KeepsAll may was (execFrStatus s) :=
  Keeps.next (Keeps.ite (fdRead_keeps (Keeps.beside h)) (fdRead_keeps h))

theorem execFrEnergy_keeps {s : State} (h : Keeps may was s) : KeepsAll may was (execFrEnergy s) :=
  Keeps.next (fdRead_keeps h)

theorem badPec_keeps {s : State} (h : Keeps may was s) : Keeps may was (badPec s) :=
  Keeps.beside h

theorem execSmbFdAddr_keeps {s : State} {w : Option (BitVec 16)} {pecOk : Bool} (h : Keeps may was s) :
    KeepsAll may was (execSmbFdAddr w pecOk s) := by
  unfold execSmbFdAddr
  repeat' split
  · exact Keeps.next (smbAnswer_keeps h)
  · exact Keeps.next (smbAnswer_keeps h)
  · exact Keeps.next (Keeps.beside h)
  · exact Keeps.next (badPec_keeps h)

theorem fdDone_keeps {s : State} {res : Nat} (h : Keeps may was s) : Keeps may was (fdDone s res) :=
  Keeps.beside h

theorem fdDataRead_keeps {s : State} (h : Keeps may was s) : Keeps may was (fdDataRead s) := by
  unfold fdDataRead
  split
  · exact fdDone_keeps (smbAnswer_keeps h)
  · exact Keeps.ite (fdDone_keeps (smbAnswer_keeps h)) (fdDone_keeps (smbAnswer_keeps (feedRead_keeps h)))

theorem fdDataWrite_keeps {s : State} {v : Word} (hChans : may.chans = true) (hFeeds : may.feeds = true)
    (hRails : may.rails = true) (hSlots : may.slots = true) (hBore : may.bore = true) (h : Keeps may was s) :
    Keeps may was (fdDataWrite s v) := by
  unfold fdDataWrite
  split
  · exact fdDone_keeps h
  · exact Keeps.ite (fdDone_keeps h) (fdDone_keeps (feedStore_keeps hChans hFeeds hRails hSlots hBore h))

theorem execSmbFdData_keeps {s : State} {w : Option Word} {pecOk : Bool} (hChans : may.chans = true)
    (hFeeds : may.feeds = true) (hRails : may.rails = true) (hSlots : may.slots = true) (hBore : may.bore = true)
    (h : Keeps may was s) : KeepsAll may was (execSmbFdData w pecOk s) := by
  unfold execSmbFdData
  repeat' split
  · exact Keeps.next (smbAnswer_keeps h)
  · exact Keeps.next (fdDataRead_keeps h)
  · exact Keeps.next (fdDataWrite_keeps hChans hFeeds hRails hSlots hBore h)
  · exact Keeps.next (badPec_keeps h)

theorem execSmbFdRes_keeps {s : State} (h : Keeps may was s) : KeepsAll may was (execSmbFdRes s) :=
  Keeps.next (fdRead_keeps h)

theorem execFdSmbReset_keeps {s : State} {b0 b1 : Byte} {pecOk : Bool} (hFeeds : may.feeds = true)
    (h : Keeps may was s) : KeepsAll may was (execFdSmbReset b0 b1 pecOk s) :=
  Keeps.next
    (Keeps.ite (smbAnswer_keeps h) (Keeps.ite (badPec_keeps h) (Keeps.ite (frst_keeps hFeeds h) h)))

theorem ddRead_keeps {s : State} {b : List Byte} (h : Keeps may was s) : Keeps may was (ddRead s b) :=
  smbAnswer_keeps h

theorem execDdStage_keeps {s : State} (h : Keeps may was s) : KeepsAll may was (execDdStage s) :=
  Keeps.next (ddRead_keeps h)

theorem execDdPair_keeps {s : State} (h : Keeps may was s) : KeepsAll may was (execDdPair s) :=
  Keeps.next (ddRead_keeps h)

theorem execDdVers_keeps {s : State} (h : Keeps may was s) : KeepsAll may was (execDdVers s) :=
  Keeps.next (ddRead_keeps h)

theorem execDdBond_keeps {s : State} (h : Keeps may was s) : KeepsAll may was (execDdBond s) :=
  Keeps.next (ddRead_keeps h)

theorem execDdLink_keeps {s : State} (h : Keeps may was s) : KeepsAll may was (execDdLink s) :=
  Keeps.next (ddRead_keeps h)

theorem execDdTemp_keeps {s : State} (h : Keeps may was s) : KeepsAll may was (execDdTemp s) :=
  Keeps.next (ddRead_keeps h)

theorem execSmbClockLowTimeout_keeps {s : State} {port : Die} (h : Keeps may was s) :
    KeepsAll may was (execSmbClockLowTimeout port s) :=
  Keeps.next (Keeps.ite (smbAnswer_keeps h) h)

end Sys2Proof.Machine
end

