-- ==== Sys2Proof/Proofs/KeepsExec.lean ====
section
/-! PROOF. What every command keeps: each one moves no more of the machine than the sets of Safety.lean name, and canonical form, the
tags of the command engine and the order of the plan slots' states are kept by all. -/

namespace Sys2Proof.Machine

open Sys2Proof.Safety

/-- The slot that a command may commit. -/
def strobesOf : Instr → Option Nat
  | .strobeIssue k => some k.val
  | _ => none

/-- The slot that a command may make ready. -/
def copiesOf : Instr → Option Nat
  | .armCopyVerified k => some k.val
  | _ => none

/-- The command clears the drone count. -/
def clearsDrone : Instr → Bool
  | .por => true
  | _ => false

/-- The command takes a tag. -/
def takesTag : Instr → Bool
  | .cmdDecode .. => true
  | _ => false

/-- What a command may move. -/
def mayOf (c : Instr) : Moves :=
  { chans := mayMoveChannels c, feeds := mayMoveFeeds c, rails := mayMoveRails c, park := mayMovePark c,
    cal := mayMoveCoefficients c, tiles := mayMoveTiles c, slots := mayMoveSlots c, bore := mayMoveBore c,
    drone := clearsDrone c, decodes := takesTag c, strobes := strobesOf c, copies := copiesOf c }

theorem exec_keeps : ∀ (c : Instr) (s : State), KeepsAll (mayOf c) s (exec c s)
  | .por, _ => execPor_keeps rfl rfl rfl rfl rfl rfl rfl rfl rfl Keeps.rfl
  | .feedSupplyStart _ _, _ => execFeedSupplyStart_keeps rfl Keeps.rfl
  | .otpProfileLoaded _ _, _ => execOtpProfileLoaded_keeps rfl Keeps.rfl
  | .holdLow _, _ => execHoldLow_keeps Keeps.rfl
  | .presAsserted _, _ => execPresAsserted_keeps rfl Keeps.rfl
  | .presDeasserted _, _ => execPresDeasserted_keeps rfl Keeps.rfl
  | .windowEnter _ _, _ => execWindowEnter_keeps rfl Keeps.rfl
  | .windowLeave _ _, _ => execWindowLeave_keeps rfl Keeps.rfl
  | .uvTrip _ _, _ => execUvTrip_keeps rfl Keeps.rfl
  | .ovTrip _ _, _ => execOvTrip_keeps rfl Keeps.rfl
  | .cooldownExpired _, _ => execCooldownExpired_keeps rfl Keeps.rfl
  | .insertionDelayExpired _ _ _ _, _ => execInsertionDelayExpired_keeps rfl Keeps.rfl
  | .startTimerExpired _ _, _ => execStartTimerExpired_keeps rfl Keeps.rfl
  | .gateCheckTimeout _ _, _ => execGateCheckTimeout_keeps rfl Keeps.rfl
  | .vdsEnhance _, _ => execVdsEnhance_keeps rfl Keeps.rfl
  | .gateDwellDone _ _, _ => execGateDwellDone_keeps rfl Keeps.rfl
  | .currentLimitEnter _ _, _ => execCurrentLimitEnter_keeps rfl Keeps.rfl
  | .currentLimitExit _ _, _ => execCurrentLimitExit_keeps rfl Keeps.rfl
  | .timedLimitExpired _ _, _ => execTimedLimitExpired_keeps rfl Keeps.rfl
  | .fastTrip _ _, _ => execFastTrip_keeps rfl Keeps.rfl
  | .reverseCurrentTrip _ _, _ => execReverseCurrentTrip_keeps rfl Keeps.rfl
  | .blockedRecover _ _ _, _ => execBlockedRecover_keeps rfl Keeps.rfl
  | .consecCountReset _, _ => execConsecCountReset_keeps rfl Keeps.rfl
  | .fdOff _ _ _, _ => execFdOff_keeps rfl Keeps.rfl
  | .fdOn _ _, _ => execFdOn_keeps rfl Keeps.rfl
  | .fdClrLatch _ _, _ => execFdClrLatch_keeps rfl Keeps.rfl
  | .fdInsDelayWrite _ _, _ => execFdInsDelayWrite_keeps Keeps.rfl
  | .fdFoldbackWrite _ _, _ => execFdFoldbackWrite_keeps Keeps.rfl
  | .fdFastTripWrite _ _, _ => execFdFastTripWrite_keeps rfl Keeps.rfl
  | .itripComparatorMove _, _ => execItripComparatorMove_keeps rfl Keeps.rfl
  | .fdSagWrite _ _, _ => execFdSagWrite_keeps Keeps.rfl
  | .tripCaptureDone _, _ => execTripCaptureDone_keeps Keeps.rfl
  | .trRelease _, _ => execTrRelease_keeps Keeps.rfl
  | .trRdDataRead, _ => execTrRdDataRead_keeps Keeps.rfl
  | .rebalanceSettled _, _ => execRebalanceSettled_keeps Keeps.rfl
  | .rebalanceTimeout, _ => execRebalanceTimeout_keeps Keeps.rfl
  | .atLimitSet, _ => execAtLimitSet_keeps Keeps.rfl
  | .atLimitClear, _ => execAtLimitClear_keeps Keeps.rfl
  | .shCtrlWrite _, _ => execShCtrlWrite_keeps Keeps.rfl
  | .shareErr _, _ => execShareErr_keeps Keeps.rfl
  | .sagDetect _ _, _ => execSagDetect_keeps rfl Keeps.rfl
  | .sagSustained _ _, _ => execSagSustained_keeps rfl Keeps.rfl
  | .sagClear _ _, _ => execSagClear_keeps rfl Keeps.rfl
  | .busSagSet _, _ => execBusSagSet_keeps Keeps.rfl
  | .railSeqStart, _ => execRailSeqStart_keeps rfl Keeps.rfl
  | .railStepDone, _ => execRailStepDone_keeps rfl Keeps.rfl
  | .railPgTimeout _, _ => execRailPgTimeout_keeps rfl Keeps.rfl
  | .railPgFall _, _ => execRailPgFall_keeps rfl Keeps.rfl
  | .hvLost _, _ => execHvLost_keeps rfl Keeps.rfl
  | .railLost _, _ => execRailLost_keeps rfl Keeps.rfl
  | .downSeqStep, _ => execDownSeqStep_keeps rfl Keeps.rfl
  | .retryWaitExpired, _ => execRetryWaitExpired_keeps rfl Keeps.rfl
  | .railConsecReset, _ => execRailConsecReset_keeps rfl Keeps.rfl
  | .pgIbLossEnablesDrop, _ => execPgIbLossEnablesDrop_keeps rfl Keeps.rfl
  | .psStop, _ => execPsStop_keeps rfl Keeps.rfl
  | .psStart, _ => execPsStart_keeps rfl Keeps.rfl
  | .psClrLatch, _ => execPsClrLatch_keeps rfl Keeps.rfl
  | .dtinArmed, _ => execDtinArmed_keeps rfl Keeps.rfl
  | .tCritStop, _ => execTCritStop_keeps rfl Keeps.rfl
  | .fsReset _, _ => execFsReset_keeps rfl Keeps.rfl
  | .feedWatchdogReset, _ => execFeedWatchdogReset_keeps rfl Keeps.rfl
  | .driveRailsUp, _ => execDriveRailsUp_keeps rfl rfl rfl Keeps.rfl
  | .driveRailsLost, _ => execDriveRailsLost_keeps rfl rfl rfl rfl rfl rfl Keeps.rfl
  | .stage2Entry, _ => execStage2Entry_keeps Keeps.rfl
  | .parkLoaderStart, _ => execParkLoaderStart_keeps rfl Keeps.rfl
  | .parkStrobe _, _ => execParkStrobe_keeps rfl rfl rfl Keeps.rfl
  | .padTestDone _ _ _ _ _, _ => execPadTestDone_keeps rfl Keeps.rfl
  | .bootSlotSelect, _ => execBootSlotSelect_keeps Keeps.rfl
  | .sfwVerified, _ => execSfwVerified_keeps rfl rfl rfl Keeps.rfl
  | .stage3Entry _, _ => execStage3Entry_keeps Keeps.rfl
  | .stage3Deadline, _ => execStage3Deadline_keeps rfl rfl rfl Keeps.rfl
  | .trialExpired, _ => execTrialExpired_keeps rfl rfl rfl Keeps.rfl
  | .stage4CalLoad _, _ => execStage4CalLoad_keeps rfl rfl rfl Keeps.rfl
  | .stage4Entry, _ => execStage4Entry_keeps Keeps.rfl
  | .btConfirm _ _, _ => execBtConfirm_keeps rfl rfl rfl Keeps.rfl
  | .btActivate _ _, _ => execBtActivate_keeps rfl rfl rfl Keeps.rfl
  | .btForcePair _ _, _ => execBtForcePair_keeps rfl rfl rfl Keeps.rfl
  | .btUpdWrite _, _ => execBtUpdWrite_keeps Keeps.rfl
  | .updWriteDone _, _ => execUpdWriteDone_keeps rfl Keeps.rfl
  | .btUpdSeal _, _ => execBtUpdSeal_keeps Keeps.rfl
  | .updSealDone _, _ => execUpdSealDone_keeps Keeps.rfl
  | .btUpdAbort _, _ => execBtUpdAbort_keeps Keeps.rfl
  | .btBondLimWrite _ _, _ => execBtBondLimWrite_keeps Keeps.rfl
  | .btBondDataRead _, _ => execBtBondDataRead_keeps Keeps.rfl
  | .btPadtestStart _ _, _ => execBtPadtestStart_keeps rfl Keeps.rfl
  | .padtestRepeatDone _ _ _ _ _, _ => execPadtestRepeatDone_keeps rfl Keeps.rfl
  | .warmReset, _ => execWarmReset_keeps rfl rfl rfl Keeps.rfl
  | .drst, _ => execDrst_keeps rfl rfl rfl rfl rfl rfl Keeps.rfl
  | .coreWatchdog, _ => execCoreWatchdog_keeps rfl rfl rfl Keeps.rfl
  | .coreRestartDone, _ => execCoreRestartDone_keeps Keeps.rfl
  | .idlTrainStart, _ => execIdlTrainStart_keeps Keeps.rfl
  | .idlTrain _ _ _ _, _ => execIdlTrain_keeps Keeps.rfl
  | .idlLinkUp, _ => execIdlLinkUp_keeps rfl rfl rfl Keeps.rfl
  | .idlFrameError _, _ => execIdlFrameError_keeps Keeps.rfl
  | .idlNak _ _, _ => execIdlNak_keeps rfl Keeps.rfl
  | .idlLinkLost, _ => execIdlLinkLost_keeps rfl Keeps.rfl
  | .idlPush0, _ => execIdlPush0_keeps Keeps.rfl
  | .idlPush1, _ => execIdlPush1_keeps rfl Keeps.rfl
  | .idlRdReq, _ => execIdlRdReq_keeps Keeps.rfl
  | .idlRdData _, _ => execIdlRdData_keeps Keeps.rfl
  | .idlWrAddr, _ => execIdlWrAddr_keeps Keeps.rfl
  | .idlWrData, _ => execIdlWrData_keeps rfl rfl rfl rfl rfl Keeps.rfl
  | .idlWrAck, _ => execIdlWrAck_keeps Keeps.rfl
  | .idlDrone, _ => execIdlDrone_keeps Keeps.rfl
  | .idlDroneSend, _ => execIdlDroneSend_keeps Keeps.rfl
  | .idlBell0, _ => execIdlBell0_keeps Keeps.rfl
  | .idlBell1, _ => execIdlBell1_keeps Keeps.rfl
  | .idlHeldBellSend, _ => execIdlHeldBellSend_keeps Keeps.rfl
  | .idRetrain _, _ => execIdRetrain_keeps rfl Keeps.rfl
  | .limiterEngage _, _ => execLimiterEngage_keeps rfl Keeps.rfl
  | .shortFuse _, _ => execShortFuse_keeps rfl Keeps.rfl
  | .complDetect _, _ => execComplDetect_keeps rfl Keeps.rfl
  | .complFuse _, _ => execComplFuse_keeps rfl Keeps.rfl
  | .chConsecReset _, _ => execChConsecReset_keeps rfl Keeps.rfl
  | .tlChRelease _ _ _, _ => execTlChRelease_keeps rfl Keeps.rfl
  | .tlChUnlock _ _ _, _ => execTlChUnlock_keeps rfl Keeps.rfl
  | .tlChOff _ _ _, _ => execTlChOff_keeps rfl Keeps.rfl
  | .tlChOn _ _ _, _ => execTlChOn_keeps rfl Keeps.rfl
  | .tlChClrFlags _ _ _, _ => execTlChClrFlags_keeps rfl Keeps.rfl
  | .tlChCfgWrite _ _ _, _ => execTlChCfgWrite_keeps rfl Keeps.rfl
  | .tlChPwrRead _ _, _ => execTlChPwrRead_keeps Keeps.rfl
  | .pStale _, _ => execPStale_keeps rfl Keeps.rfl
  | .iCheck _, _ => execICheck_keeps rfl Keeps.rfl
  | .isumMismatch _ _, _ => execIsumMismatch_keeps rfl Keeps.rfl
  | .pkParkAll _, _ => execPkParkAll_keeps rfl Keeps.rfl
  | .pkParkTiles _, _ => execPkParkTiles_keeps rfl Keeps.rfl
  | .parkEventReachTile _, _ => execParkEventReachTile_keeps rfl rfl rfl Keeps.rfl
  | .pkUpdate _, _ => execPkUpdate_keeps rfl Keeps.rfl
  | .pkUpdateDone _ _, _ => execPkUpdateDone_keeps rfl Keeps.rfl
  | .pkApply _, _ => execPkApply_keeps rfl Keeps.rfl
  | .pkApplyDone, _ => execPkApplyDone_keeps rfl rfl Keeps.rfl
  | .pkReload _, _ => execPkReload_keeps rfl Keeps.rfl
  | .pkReloadDone, _ => execPkReloadDone_keeps rfl Keeps.rfl
  | .pkDataAccess _ _, _ => execPkDataAccess_keeps rfl Keeps.rfl
  | .valveRejoin _ _, _ => execValveRejoin_keeps rfl rfl Keeps.rfl
  | .valveLimitEnter _ _ _, _ => execValveLimitEnter_keeps rfl rfl Keeps.rfl
  | .valveLimitExit _ _ _, _ => execValveLimitExit_keeps rfl rfl Keeps.rfl
  | .valveLimitExpired _ _ _, _ => execValveLimitExpired_keeps rfl rfl Keeps.rfl
  | .valveFastTrip _ _ _, _ => execValveFastTrip_keeps rfl rfl Keeps.rfl
  | .valveReverseBlock _ _ _, _ => execValveReverseBlock_keeps rfl rfl Keeps.rfl
  | .softStartDone _ _, _ => execSoftStartDone_keeps rfl rfl Keeps.rfl
  | .softStartTimeout _ _ _, _ => execSoftStartTimeout_keeps rfl rfl Keeps.rfl
  | .tlValveRelease _ _ _ _, _ => execTlValveRelease_keeps rfl rfl Keeps.rfl
  | .tlValveOff _ _ _, _ => execTlValveOff_keeps rfl rfl Keeps.rfl
  | .tlValveOn _ _ _, _ => execTlValveOn_keeps rfl rfl Keeps.rfl
  | .tileDark _, _ => execTileDark_keeps rfl rfl Keeps.rfl
  | .reedRefFail _, _ => execReedRefFail_keeps rfl Keeps.rfl
  | .refTransferDone _, _ => execRefTransferDone_keeps Keeps.rfl
  | .backupFail _ _, _ => execBackupFail_keeps rfl Keeps.rfl
  | .backupRecover _, _ => execBackupRecover_keeps rfl Keeps.rfl
  | .tlRefReturn _ _ _ _, _ => execTlRefReturn_keeps Keeps.rfl
  | .tileBlkReset _ _, _ => execTileBlkReset_keeps rfl rfl rfl rfl rfl rfl Keeps.rfl
  | .bar2SetpointWrite _ _ _, _ => execBar2SetpointWrite_keeps rfl rfl Keeps.rfl
  | .stLoad _, _ => execStLoad_keeps rfl rfl Keeps.rfl
  | .stLoadDone _, _ => execStLoadDone_keeps rfl rfl rfl Keeps.rfl
  | .stSave _, _ => execStSave_keeps rfl rfl Keeps.rfl
  | .stSaveDone _, _ => execStSaveDone_keeps Keeps.rfl
  | .stCheck _, _ => execStCheck_keeps rfl rfl Keeps.rfl
  | .plOpen _ _, _ => execPlOpen_keeps rfl rfl Keeps.rfl
  | .plStage _ _ _, _ => execPlStage_keeps rfl rfl Keeps.rfl
  | .expansionDone _, _ => execExpansionDone_keeps rfl rfl Keeps.rfl
  | .admissionDone _, _ => execAdmissionDone_keeps rfl rfl Keeps.rfl
  | .admissionResume, _ => execAdmissionResume_keeps rfl Keeps.rfl
  | .plArm _ _, _ => execPlArm_keeps rfl rfl Keeps.rfl
  | .armCopyVerified _, _ => execArmCopyVerified_keeps rfl rfl rfl Keeps.rfl
  | .planParityRepair _ _, _ => execPlanParityRepair_keeps rfl rfl Keeps.rfl
  | .plDisarm _ _, _ => execPlDisarm_keeps rfl rfl Keeps.rfl
  | .plRelease _ _, _ => execPlRelease_keeps rfl rfl Keeps.rfl
  | .bar2DeltaWrite _ _ _, _ => execBar2DeltaWrite_keeps rfl rfl Keeps.rfl
  | .syncInEdge _, _ => execSyncInEdge_keeps rfl Keeps.rfl
  | .commitNow _ _ _, _ => execCommitNow_keeps rfl Keeps.rfl
  | .scheduleFire _, _ => execScheduleFire_keeps rfl Keeps.rfl
  | .cmSchedArm _ _, _ => execCmSchedArm_keeps rfl Keeps.rfl
  | .cmSchedCancel _ _, _ => execCmSchedCancel_keeps rfl Keeps.rfl
  | .cmSchedTWrite _ _ _ _, _ => execCmSchedTWrite_keeps Keeps.rfl
  | .strobeIssue _, _ => execStrobeIssue_keeps rfl rfl rfl rfl rfl Keeps.rfl
  | .commitTimeout _, _ => execCommitTimeout_keeps rfl Keeps.rfl
  | .breathWrite _ _ _, _ => execBreathWrite_keeps rfl Keeps.rfl
  | .breathOffsetReached _, _ => execBreathOffsetReached_keeps rfl rfl Keeps.rfl
  | .tongueSegmentNext _, _ => execTongueSegmentNext_keeps rfl Keeps.rfl
  | .tongueEnd _, _ => execTongueEnd_keeps rfl Keeps.rfl
  | .settleHoldEnd _, _ => execSettleHoldEnd_keeps Keeps.rfl
  | .bar2ShapeWrite _ _ _, _ => execBar2ShapeWrite_keeps rfl rfl Keeps.rfl
  | .tgLoad _, _ => execTgLoad_keeps rfl rfl Keeps.rfl
  | .tgLoadDone _, _ => execTgLoadDone_keeps rfl rfl rfl Keeps.rfl
  | .tgSave _, _ => execTgSave_keeps rfl rfl Keeps.rfl
  | .tgSaveDone _, _ => execTgSaveDone_keeps Keeps.rfl
  | .tgCheck _, _ => execTgCheck_keeps rfl rfl Keeps.rfl
  | .seqModeWrite _ _, _ => execSeqModeWrite_keeps rfl Keeps.rfl
  | .seqDelayExpired _, _ => execSeqDelayExpired_keeps Keeps.rfl
  | .conversionEnd _ _ _, _ => execConversionEnd_keeps rfl rfl rfl rfl Keeps.rfl
  | .modulatorPowerUp _, _ => execModulatorPowerUp_keeps Keeps.rfl
  | .startupDone _, _ => execStartupDone_keeps Keeps.rfl
  | .msTrigSoft _, _ => execMsTrigSoft_keeps rfl Keeps.rfl
  | .msTrigDrvArm _, _ => execMsTrigDrvArm_keeps rfl Keeps.rfl
  | .msTrigDrvDisarm _, _ => execMsTrigDrvDisarm_keeps rfl Keeps.rfl
  | .reedTimerTrigger _, _ => execReedTimerTrigger_keeps rfl Keeps.rfl
  | .driveTrigger _, _ => execDriveTrigger_keeps rfl Keeps.rfl
  | .msTrigOverrunRead _, _ => execMsTrigOverrunRead_keeps Keeps.rfl
  | .msUrgentWrite _ _, _ => execMsUrgentWrite_keeps Keeps.rfl
  | .hkRoundDue, _ => execHkRoundDue_keeps Keeps.rfl
  | .msOpenClear _ _, _ => execMsOpenClear_keeps Keeps.rfl
  | .bar2SeqWrite _ _ _, _ => execBar2SeqWrite_keeps rfl rfl Keeps.rfl
  | .msLoad _, _ => execMsLoad_keeps Keeps.rfl
  | .msLoadDone _, _ => execMsLoadDone_keeps rfl rfl rfl Keeps.rfl
  | .msSave _, _ => execMsSave_keeps rfl Keeps.rfl
  | .msSaveDone _, _ => execMsSaveDone_keeps Keeps.rfl
  | .msCheck _, _ => execMsCheck_keeps rfl Keeps.rfl
  | .msDefault _, _ => execMsDefault_keeps rfl Keeps.rfl
  | .accSample _ _ _ _, _ => execAccSample_keeps rfl rfl rfl Keeps.rfl
  | .accParityRestart _ _, _ => execAccParityRestart_keeps rfl Keeps.rfl
  | .acCfgWrite _ _, _ => execAcCfgWrite_keeps Keeps.rfl
  | .acRestart _, _ => execAcRestart_keeps rfl Keeps.rfl
  | .acTrkClr _, _ => execAcTrkClr_keeps rfl Keeps.rfl
  | .acDiscClr _, _ => execAcDiscClr_keeps rfl Keeps.rfl
  | .bar2AccWrite _ _, _ => execBar2AccWrite_keeps rfl rfl Keeps.rfl
  | .clDataAccess _ _, _ => execClDataAccess_keeps rfl Keeps.rfl
  | .clLoad _, _ => execClLoad_keeps Keeps.rfl
  | .clLoadDone _, _ => execClLoadDone_keeps rfl rfl rfl Keeps.rfl
  | .clSave _, _ => execClSave_keeps rfl Keeps.rfl
  | .clSaveDone _, _ => execClSaveDone_keeps Keeps.rfl
  | .clDefault _, _ => execClDefault_keeps rfl Keeps.rfl
  | .clScZero _, _ => execClScZero_keeps rfl Keeps.rfl
  | .clScFull _, _ => execClScFull_keeps rfl Keeps.rfl
  | .clScDone _ _, _ => execClScDone_keeps rfl Keeps.rfl
  | .clScUrgentTimeout, _ => execClScUrgentTimeout_keeps rfl Keeps.rfl
  | .meterPeriodEnd _ _ _, _ => execMeterPeriodEnd_keeps Keeps.rfl
  | .powerSample _ _ _, _ => execPowerSample_keeps Keeps.rfl
  | .mtPeriodWrite _ _, _ => execMtPeriodWrite_keeps Keeps.rfl
  | .mtELoRead _, _ => execMtELoRead_keeps Keeps.rfl
  | .mtEClr _, _ => execMtEClr_keeps Keeps.rfl
  | .mtScZero _ _, _ => execMtScZero_keeps Keeps.rfl
  | .mtScFull _ _, _ => execMtScFull_keeps Keeps.rfl
  | .mtScDone _ _, _ => execMtScDone_keeps Keeps.rfl
  | .frVinA, _ => execFrVinA_keeps Keeps.rfl
  | .frIinA, _ => execFrIinA_keeps Keeps.rfl
  | .frVinB, _ => execFrVinB_keeps Keeps.rfl
  | .frIinB, _ => execFrIinB_keeps Keeps.rfl
  | .frVout, _ => execFrVout_keeps Keeps.rfl
  | .frIout, _ => execFrIout_keeps Keeps.rfl
  | .frPin, _ => execFrPin_keeps Keeps.rfl
  | .frTemp, _ => execFrTemp_keeps Keeps.rfl
  | .frStatus, _ => execFrStatus_keeps Keeps.rfl
  | .frEnergy, _ => execFrEnergy_keeps Keeps.rfl
  | .loopEvaluate _, _ => execLoopEvaluate_keeps rfl rfl Keeps.rfl
  | .loopStale _, _ => execLoopStale_keeps Keeps.rfl
  | .lpLoad _, _ => execLpLoad_keeps Keeps.rfl
  | .lpLoadDone _, _ => execLpLoadDone_keeps rfl rfl rfl Keeps.rfl
  | .lpSave _, _ => execLpSave_keeps rfl Keeps.rfl
  | .lpSaveDone _, _ => execLpSaveDone_keeps Keeps.rfl
  | .modelUpdate, _ => execModelUpdate_keeps rfl rfl Keeps.rfl
  | .shutWaitExpired, _ => execShutWaitExpired_keeps Keeps.rfl
  | .thermClimb, _ => execThermClimb_keeps Keeps.rfl
  | .thermHoldFall, _ => execThermHoldFall_keeps Keeps.rfl
  | .diodeRound, _ => execDiodeRound_keeps rfl Keeps.rfl
  | .tpDiodeClr _ _, _ => execTpDiodeClr_keeps Keeps.rfl
  | .tpThreshWrite _ _, _ => execTpThreshWrite_keeps Keeps.rfl
  | .thKDataWrite _ _, _ => execThKDataWrite_keeps rfl Keeps.rfl
  | .thTileClassWrite _ _ _, _ => execThTileClassWrite_keeps rfl Keeps.rfl
  | .thLoad _, _ => execThLoad_keeps rfl rfl Keeps.rfl
  | .thLoadDone _, _ => execThLoadDone_keeps rfl rfl rfl Keeps.rfl
  | .thSave _, _ => execThSave_keeps rfl rfl Keeps.rfl
  | .thSaveDone _, _ => execThSaveDone_keeps Keeps.rfl
  | .thCheck _, _ => execThCheck_keeps rfl rfl Keeps.rfl
  | .boreReplay _ _, _ => execBoreReplay_keeps rfl rfl Keeps.rfl
  | .patrolRead, _ => execPatrolRead_keeps rfl Keeps.rfl
  | .bankRetentionEnter _, _ => execBankRetentionEnter_keeps rfl Keeps.rfl
  | .bankWake _, _ => execBankWake_keeps rfl Keeps.rfl
  | .boreInit, _ => execBoreInit_keeps rfl Keeps.rfl
  | .boreInitDone, _ => execBoreInitDone_keeps rfl Keeps.rfl
  | .bar2PartialWrite _ _ _ _ _, _ => execBar2PartialWrite_keeps rfl rfl Keeps.rfl
  | .bar2SqWrite _ _ _, _ => execBar2SqWrite_keeps rfl rfl Keeps.rfl
  | .sqDoorbell _ _ _, _ => execSqDoorbell_keeps Keeps.rfl
  | .cqDoorbell _ _ _, _ => execCqDoorbell_keeps rfl Keeps.rfl
  | .sqArbitrate, _ => execSqArbitrate_keeps rfl Keeps.rfl
  | .cmdDecode _, _ => execCmdDecode_keeps rfl rfl Keeps.rfl
  | .fenceRelease _, _ => execFenceRelease_keeps Keeps.rfl
  | .jcpNop _, _ => execJcpNop_keeps rfl Keeps.rfl
  | .jcpVersion _, _ => execJcpVersion_keeps rfl Keeps.rfl
  | .jcpAbort _, _ => execJcpAbort_keeps rfl Keeps.rfl
  | .jcpPlan _, _ => execJcpPlan_keeps rfl rfl Keeps.rfl
  | .jcpCommit _, _ => execJcpCommit_keeps rfl Keeps.rfl
  | .jcpPark _, _ => execJcpPark_keeps rfl rfl Keeps.rfl
  | .jcpRegRead _, _ => execJcpRegRead_keeps rfl Keeps.rfl
  | .jcpRegWrite _, _ => execJcpRegWrite_keeps rfl rfl rfl rfl rfl rfl Keeps.rfl
  | .jcpTable _, _ => execJcpTable_keeps rfl rfl rfl Keeps.rfl
  | .jcpNvRead _, _ => execJcpNvRead_keeps Keeps.rfl
  | .jcpNvWrite _, _ => execJcpNvWrite_keeps rfl Keeps.rfl
  | .mgmtComplete _, _ => execMgmtComplete_keeps rfl Keeps.rfl
  | .mgmtTimeout _, _ => execMgmtTimeout_keeps rfl Keeps.rfl
  | .coreUnavailable _, _ => execCoreUnavailable_keeps rfl Keeps.rfl
  | .jcSqCtrlWrite _ _ _, _ => execJcSqCtrlWrite_keeps Keeps.rfl
  | .jcCqCtrlWrite _ _ _, _ => execJcCqCtrlWrite_keeps rfl Keeps.rfl
  | .sqDrainDone _, _ => execSqDrainDone_keeps Keeps.rfl
  | .cqAggTimer _, _ => execCqAggTimer_keeps Keeps.rfl
  | .registerWrite _ _ _ _, _ => execRegisterWrite_keeps rfl rfl rfl rfl rfl rfl Keeps.rfl
  | .feedPageRead _ _, _ => execFeedPageRead_keeps rfl Keeps.rfl
  | .feedPageWrite _ _ _, _ => execFeedPageWrite_keeps rfl rfl rfl rfl rfl rfl Keeps.rfl
  | .poisonedRx _, _ => execPoisonedRx_keeps Keeps.rfl
  | .flr _, _ => execFlr_keeps Keeps.rfl
  | .perstAssert, _ => execPerstAssert_keeps rfl rfl rfl rfl rfl rfl Keeps.rfl
  | .hotReset, _ => execHotReset_keeps Keeps.rfl
  | .d3hotEnter _, _ => execD3hotEnter_keeps Keeps.rfl
  | .msixUnmask _ _, _ => execMsixUnmask_keeps Keeps.rfl
  | .pgIrqStatWrite _ _ _, _ => execPgIrqStatWrite_keeps rfl rfl rfl rfl rfl rfl Keeps.rfl
  | .pgLockWrite _ _ _, _ => execPgLockWrite_keeps rfl rfl rfl rfl rfl rfl Keeps.rfl
  | .prRegWrite _ _ _, _ => execPrRegWrite_keeps rfl rfl rfl rfl rfl rfl Keeps.rfl
  | .smbFdAddr _ _, _ => execSmbFdAddr_keeps Keeps.rfl
  | .smbFdData _ _, _ => execSmbFdData_keeps rfl rfl rfl rfl rfl Keeps.rfl
  | .smbFdRes, _ => execSmbFdRes_keeps Keeps.rfl
  | .fdSmbReset _ _ _, _ => execFdSmbReset_keeps rfl Keeps.rfl
  | .ddStage, _ => execDdStage_keeps Keeps.rfl
  | .ddPair, _ => execDdPair_keeps Keeps.rfl
  | .ddVers, _ => execDdVers_keeps Keeps.rfl
  | .ddBond, _ => execDdBond_keeps Keeps.rfl
  | .ddLink, _ => execDdLink_keeps Keeps.rfl
  | .ddTemp, _ => execDdTemp_keeps Keeps.rfl
  | .smbClockLowTimeout _, _ => execSmbClockLowTimeout_keeps Keeps.rfl
  | .flashMount _ _ _, _ => execFlashMount_keeps Keeps.rfl
  | .mountDone _ _, _ => execMountDone_keeps Keeps.rfl
  | .codewordRead _ _ _ _ _, _ => execCodewordRead_keeps Keeps.rfl
  | .relocationDone _ _ _, _ => execRelocationDone_keeps Keeps.rfl
  | .programFail _, _ => execProgramFail_keeps Keeps.rfl
  | .eraseFail _, _ => execEraseFail_keeps Keeps.rfl
  | .wearLevelMove _ _, _ => execWearLevelMove_keeps Keeps.rfl
  | .metadataDurable, _ => execMetadataDurable_keeps Keeps.rfl
  | .ringAppend _ _ _, _ => execRingAppend_keeps rfl Keeps.rfl
  | .telemetryInterval _, _ => execTelemetryInterval_keeps rfl Keeps.rfl
  | .tripCaptureWrite, _ => execTripCaptureWrite_keeps Keeps.rfl
  | .bellJournalCopy, _ => execBellJournalCopy_keeps rfl Keeps.rfl
  | .scrubRateUpdate _ _, _ => execScrubRateUpdate_keeps Keeps.rfl
  | .scrubPassEnd, _ => execScrubPassEnd_keeps Keeps.rfl
  | .scrubDebt _, _ => execScrubDebt_keeps Keeps.rfl
  | .ifRetrain, _ => execIfRetrain_keeps Keeps.rfl
  | .nfQuiesce _, _ => execNfQuiesce_keeps Keeps.rfl
  | .quiesceDone, _ => execQuiesceDone_keeps Keeps.rfl
  | .nfResume _, _ => execNfResume_keeps Keeps.rfl
  | .nfScrubNow _, _ => execNfScrubNow_keeps Keeps.rfl
  | .bellAccept, _ => execBellAccept_keeps rfl rfl rfl Keeps.rfl
  | .shadowClose _, _ => execShadowClose_keeps rfl rfl rfl Keeps.rfl
  | .stickyClear _ _ _, _ => execStickyClear_keeps rfl rfl rfl rfl rfl rfl Keeps.rfl
  | .pgFltSevWrite _ _ _, _ => execPgFltSevWrite_keeps rfl rfl rfl rfl rfl rfl Keeps.rfl
  | .injOff _ _ _, _ => execInjOff_keeps rfl rfl rfl rfl rfl rfl Keeps.rfl
  | .injPulse _ _ _ _, _ => execInjPulse_keeps rfl rfl rfl rfl rfl rfl Keeps.rfl
  | .injHold _ _ _ _, _ => execInjHold_keeps rfl rfl rfl rfl rfl rfl Keeps.rfl
  | .injCheck _ _ _ _, _ => execInjCheck_keeps rfl rfl rfl rfl rfl rfl Keeps.rfl
  | .pgBlkRst _ _, _ => execPgBlkRst_keeps rfl rfl rfl rfl rfl rfl Keeps.rfl
  | .syResetWarm _ _, _ => execSyResetWarm_keeps rfl rfl rfl rfl rfl rfl Keeps.rfl
  | .syResetDrst _ _, _ => execSyResetDrst_keeps rfl rfl rfl rfl rfl rfl Keeps.rfl
  | .tgDomainOff _ _, _ => execTgDomainOff_keeps rfl rfl rfl Keeps.rfl
  | .tgDomainOn _ _, _ => execTgDomainOn_keeps Keeps.rfl
  | .tgDomainOnDone _, _ => execTgDomainOnDone_keeps rfl rfl rfl rfl Keeps.rfl
  | .pllWorkArrives, _ => execPllWorkArrives_keeps rfl rfl Keeps.rfl
  | .pllCLocked, _ => execPllCLocked_keeps rfl rfl Keeps.rfl
  | .warmIdleExpired, _ => execWarmIdleExpired_keeps Keeps.rfl
  | .sleepIdleExpired, _ => execSleepIdleExpired_keeps Keeps.rfl
  | .pllCLockLoss, _ => execPllCLockLoss_keeps rfl rfl Keeps.rfl
  | .refclkLost, _ => execRefclkLost_keeps rfl rfl Keeps.rfl
  | .refclkReturn, _ => execRefclkReturn_keeps Keeps.rfl
  | .droopStart _, _ => execDroopStart_keeps Keeps.rfl
  | .droopEnd _ _, _ => execDroopEnd_keeps Keeps.rfl
  | .droopSustained _, _ => execDroopSustained_keeps Keeps.rfl
  | .causeClimb _, _ => execCauseClimb_keeps Keeps.rfl
  | .busSagHeld, _ => execBusSagHeld_keeps Keeps.rfl
  | .coreCauseL8, _ => execCoreCauseL8_keeps Keeps.rfl
  | .clockCauseRise, _ => execClockCauseRise_keeps Keeps.rfl
  | .clockCauseClear, _ => execClockCauseClear_keeps Keeps.rfl
  | .ladderClimb, _ => execLadderClimb_keeps rfl rfl rfl Keeps.rfl
  | .ladderDescend, _ => execLadderDescend_keeps rfl rfl Keeps.rfl
  | .l6Step, _ => execL6Step_keeps rfl Keeps.rfl
  | .l8StopWaitExpired, _ => execL8StopWaitExpired_keeps Keeps.rfl
  | .pwFloorWrite _ _, _ => execPwFloorWrite_keeps rfl rfl rfl Keeps.rfl
  | .ckCtrlWrite _ _ _, _ => execCkCtrlWrite_keeps Keeps.rfl
  | .slFrameReceive _ _ _, _ => execSlFrameReceive_keeps Keeps.rfl
  | .slEchoTimer _, _ => execSlEchoTimer_keeps Keeps.rfl
  | .slEchoReq _ _ _ seq, _ => execSlEchoReq_keeps (_seq := seq) Keeps.rfl
  | .slEchoRsp _ _ _ _, _ => execSlEchoRsp_keeps Keeps.rfl
  | .slTime1 _ _ _, _ => execSlTime1_keeps Keeps.rfl
  | .slBeatSend, _ => execSlBeatSend_keeps Keeps.rfl
  | .slBeatReceive _ _ _ _, _ => execSlBeatReceive_keeps rfl Keeps.rfl
  | .slBeatTimeout, _ => execSlBeatTimeout_keeps Keeps.rfl
  | .slHello p _ synced _ _, _ => execSlHello_keeps (_p := p) (_synced := synced) rfl Keeps.rfl
  | .slClaim p _, _ => execSlClaim_keeps (_p := p) Keeps.rfl
  | .slElectionDone, _ => execSlElectionDone_keeps rfl Keeps.rfl
  | .slSchedCmd _ _ _, _ => execSlSchedCmd_keeps rfl Keeps.rfl
  | .slSched0 _ _ _ _, _ => execSlSched0_keeps Keeps.rfl
  | .slSched1 _ _ cut _, _ => execSlSched1_keeps (_cut := cut) rfl Keeps.rfl
  | .slSchedAck _ k _, _ => execSlSchedAck_keeps (_slot := k) Keeps.rfl
  | .slSchedNackTimeout _, _ => execSlSchedNackTimeout_keeps Keeps.rfl
  | .slPortDown _, _ => execSlPortDown_keeps Keeps.rfl
  | .slWrap _ _, _ => execSlWrap_keeps Keeps.rfl
  | .slPortUp _, _ => execSlPortUp_keeps Keeps.rfl
  | .slCtrlWrite _ _, _ => execSlCtrlWrite_keeps Keeps.rfl
  | .slTimeLoRead _, _ => execSlTimeLoRead_keeps Keeps.rfl
  | .pwMaxlvlRead _, _ => execPwMaxlvlRead_keeps Keeps.rfl
  | .gateDwellRestart _, _ => execGateDwellRestart_keeps rfl Keeps.rfl
  | .busSagClear _, _ => execBusSagClear_keeps Keeps.rfl
  | .limiterRelease _, _ => execLimiterRelease_keeps rfl Keeps.rfl
  | .complianceCleared _, _ => execComplianceCleared_keeps rfl Keeps.rfl
  | .updAbortDone, _ => execUpdAbortDone_keeps rfl Keeps.rfl
  | .pcieLinkUp _ _, _ => execPcieLinkUp_keeps Keeps.rfl
  | .hsRetrain _, _ => execHsRetrain_keeps Keeps.rfl
  | .pcieError _ _, _ => execPcieError_keeps Keeps.rfl
  | .d3hotExit _, _ => execD3hotExit_keeps Keeps.rfl
  | .pllCWakeTimeout, _ => execPllCWakeTimeout_keeps Keeps.rfl
  | .pllSLockLoss, _ => execPllSLockLoss_keeps Keeps.rfl
  | .pllSLocked, _ => execPllSLocked_keeps Keeps.rfl
  | .barRead _ _ _ _, _ => execBarRead_keeps rfl Keeps.rfl
  | .bar2WindowWrite _ _ _, _ => execBar2WindowWrite_keeps rfl rfl Keeps.rfl
  | .lpChStatRead _, _ => execLpChStatRead_keeps Keeps.rfl
  | .thElTempRead _, _ => execThElTempRead_keeps Keeps.rfl
  | .thNodeRead _, _ => execThNodeRead_keeps Keeps.rfl
  | .tpDiodeERead _, _ => execTpDiodeERead_keeps Keeps.rfl
  | .thKDataRead _, _ => execThKDataRead_keeps Keeps.rfl
  | .feedSupplyLost _, _ => execFeedSupplyLost_keeps rfl Keeps.rfl

theorem keeps_of_exec {c : Instr} {s t : State} (h : exec c s = .next t) : Keeps (mayOf c) s t :=
  (exec_keeps c s).of_next t h

end Sys2Proof.Machine
end

