-- ==== Sys2Proof/Proofs/Invariants.lean ====
section
/-! PROOF. What every step keeps: a step is one command or one cycle of time, and each keeps the invariants. -/

namespace Sys2Proof.Machine

open Sys2Proof.Safety

/-- A step lets a cycle pass, or it runs the front of the queue, which moves what `mayOf` says. -/
theorem step_cases {s t : State} (h : step s = .next t) : (s.pending = [] ∧ t = idle s) ∨
    ∃ c rest, s.pending = c :: rest ∧ exec c { s with pending := rest } = .next t ∧
      Keeps (mayOf c) { s with pending := rest } t := by
  cases hp : s.pending with
  | nil => exact .inl ⟨rfl, (Host.Outcome.next.inj ((step_of_empty s hp).symm.trans h)).symm⟩
  | cons c rest =>
    rw [step_of_front s hp] at h
    exact .inr ⟨c, rest, rfl, h, keeps_of_exec h⟩

/-- Settles O7: no command moves the queue or the passed time, and POR alone clears the drone count. -/
theorem commandsLeaveQueueAndClock : Obligations.CommandsLeaveQueueAndClock := by
  intro c s t h
  have k := keeps_of_exec h
  refine ⟨k.pending, k.now, k.phase, fun hc => k.droneF ?_⟩
  show clearsDrone c = false
  unfold clearsDrone
  split
  · exact absurd rfl hc
  · rfl

/-- Settles O60: what every command keeps, read off at the eight parts. -/
theorem onlyTheirCommandsMoveThem : Obligations.OnlyTheirCommandsMoveThem := by
  intro c s t h
  have k := keeps_of_exec h
  exact ⟨k.chans, k.feeds, k.rails, k.park, k.cal, k.tiles, k.slots, k.bore⟩

/-- Settles O6: canonical form is kept by every command, and an idle cycle moves none of what it speaks of. -/
theorem everyStepKeepsCanon : Obligations.EveryStepKeepsCanon := by
  intro s t hs h
  rcases step_cases h with ⟨_, e⟩ | ⟨c, rest, _, _, k⟩
  · obtain ⟨_, er, eb, ec, et, _, _, _, _, _, _, _, el, ep⟩ := parts_of_timeless (idle_timeless s)
    obtain ⟨hb, hr, hc, ht, hl, hp⟩ := hs
    rw [e]
    unfold CanonInv
    rw [eb, er, ec, et, el, ep]
    exact ⟨hb, hr, hc, ht, hl, hp⟩
  · exact k.canon hs

/-- Settles O45: only a decode takes a tag, and it takes a free one. -/
theorem commandTags : Obligations.CommandTags := by
  intro s t hs h
  rcases step_cases h with ⟨_, e⟩ | ⟨c, rest, _, _, k⟩
  · obtain ⟨_, _, _, _, _, _, _, _, eq, _⟩ := parts_of_timeless (idle_timeless s)
    rw [e, eq]
    exact hs
  · exact k.tags hs

theorem clockInv_reset {s : State} (hp : s.phase < droneUnit) (hn : s.phase ≤ s.now * dronePerCc) (h0 : s.droneF = 0) :
    ClockInv s := by
  refine ⟨hp, ?_⟩
  rw [h0, Nat.zero_mul, Nat.zero_add]
  exact hn

/-- Settles O5: a command moves neither the time nor, unless it is POR, the drone count. -/
theorem everyStepKeepsClock : Obligations.EveryStepKeepsClock := by
  intro s t hs h
  rcases step_cases h with ⟨_, e⟩ | ⟨c, rest, _, hx, k⟩
  · exact e ▸ clockInv_idle s hs
  · obtain ⟨hp, hd⟩ := hs
    have en : t.now = s.now := k.now
    have ep : t.phase = s.phase := k.phase
    by_cases hc : c = .por
    · subst hc
      have h0 : t.droneF = 0 := by cases hx; rfl
      refine clockInv_reset ?_ ?_ h0
      · rw [ep]; exact hp
      · rw [ep, en]; exact (Nat.le_add_left _ _).trans hd
    · have ed : t.droneF = s.droneF := (commandsLeaveQueueAndClock _ _ _ hx).2.2.2 hc
      unfold ClockInv
      rw [ep, en, ed]
      exact ⟨hp, hd⟩

/-! ### Who commits a slot and who makes it ready -/

/-- A strobe goes only of a ready armed slot, with the link up and pushed, in RUN and below L3 (R206). -/
theorem of_goesNow {s : State} {k : Nat} {r : Req} (h : goesNow s k r = true) : (slot s k).state = .armed ∧
    (slot s k).ready = true ∧ idlUp s = true ∧ s.idl.pushOk = true ∧ inRun s = true ∧ level s < 3 := by
  unfold goesNow strobeReady at h
  simp only [Bool.and_eq_true, decide_eq_true_eq, beq_iff_eq] at h
  obtain ⟨⟨⟨_, ⟨⟨⟨⟨⟨hu, hp⟩, hr⟩, ha⟩, hy⟩, hl⟩, _⟩, _⟩, _⟩ := h
  exact ⟨ha, hy, hu, hp, hr, hl⟩

theorem execStrobeIssue_cases {s t : State} {k : Slot} (h : exec (.strobeIssue k) s = .next t) :
    t = s ∨ ∃ r, req s k.val = some r ∧ goesNow s k.val r = true ∧ t = strobe s k.val r := by
  change execStrobeIssue k s = .next t at h
  unfold execStrobeIssue at h
  split at h
  · exact .inl (Host.Outcome.next.inj h).symm
  · split at h
    · exact .inr ⟨_, ‹_›, ‹_›, (Host.Outcome.next.inj h).symm⟩
    · exact .inl (Host.Outcome.next.inj h).symm

theorem execArmCopyVerified_cases {s t : State} {k : Slot} (h : exec (.armCopyVerified k) s = .next t) :
    t = s ∨ (slot s k.val).state = .armed ∧ (slot s k.val).work = .copy := by
  have e : t = copyVerified s k.val := (Host.Outcome.next.inj h).symm
  unfold copyVerified at e
  dsimp only at e
  split at e
  · exact .inl e
  · rename_i hc
    simp only [not_or, not_not] at hc
    exact .inr ⟨hc.1, hc.2.1⟩

theorem strobesOf_eq {c : Instr} {k : Nat} (h : strobesOf c = some k) : ∃ j : Slot, j.val = k ∧ c = .strobeIssue j := by
  unfold strobesOf at h
  split at h
  · exact ⟨_, Option.some.inj h, rfl⟩
  · cases h

theorem copiesOf_eq {c : Instr} {k : Nat} (h : copiesOf c = some k) : ∃ j : Slot, j.val = k ∧ c = .armCopyVerified j := by
  unfold copiesOf at h
  split at h
  · exact ⟨_, Option.some.inj h, rfl⟩
  · cases h

theorem slot_idle (s : State) (k : Nat) : slot (idle s) k = slot s k := by
  obtain ⟨_, _, _, _, _, es, _⟩ := parts_of_timeless (idle_timeless s)
  unfold slot
  rw [es]

theorem committed_of_step {s t : State} {k : Nat} (h : step s = .next t) (hc : (slot t k).state = .committed) :
    (slot s k).state = .committed ∨ ∃ c : Slot, c.val = k ∧ s.pending.head? = some (.strobeIssue c) ∧
      (slot s k).state = .armed ∧ (slot s k).ready = true ∧ idlUp s = true ∧ s.idl.pushOk = true ∧ inRun s = true ∧
      level s < 3 := by
  rcases step_cases h with ⟨_, e⟩ | ⟨c, rest, hp, hx, kp⟩
  · rw [e, slot_idle] at hc
    exact .inl hc
  · rcases kp.committed k hc with hw | hw
    · exact .inl hw
    · obtain ⟨j, rfl, rfl⟩ := strobesOf_eq hw
      rcases execStrobeIssue_cases hx with e | ⟨r, _, hg, _⟩
      · exact .inl (by rw [e] at hc; exact hc)
      · exact .inr ⟨j, rfl, by rw [hp]; rfl, of_goesNow hg⟩

theorem ready_of_step {s t : State} {k : Nat} (h : step s = .next t) (hc : (slot t k).ready = true) :
    (slot s k).ready = true ∨ ∃ c : Slot, c.val = k ∧ s.pending.head? = some (.armCopyVerified c) ∧
      (slot s k).state = .armed ∧ (slot s k).work = .copy := by
  rcases step_cases h with ⟨_, e⟩ | ⟨c, rest, hp, hx, kp⟩
  · rw [e, slot_idle] at hc
    exact .inl hc
  · rcases kp.ready k hc with hw | hw
    · exact .inl hw
    · obtain ⟨j, rfl, rfl⟩ := copiesOf_eq hw
      rcases execArmCopyVerified_cases hx with e | hg
      · exact .inl (by rw [e] at hc; exact hc)
      · exact .inr ⟨j, rfl, by rw [hp]; rfl, hg⟩

/-- Settles O59: a slot is committed by its own strobe alone and made ready by its own copy alone; a strobe of a slot that is not
ready goes nowhere. -/
theorem onlyAReadyPlanStrobes : Obligations.OnlyAReadyPlanStrobes := by
  refine ⟨fun s t k h => ⟨committed_of_step h, ready_of_step h⟩, fun s k hn => ?_⟩
  refine ⟨s, ?_, rfl⟩
  show execStrobeIssue k s = .next s
  unfold execStrobeIssue
  split
  · rfl
  · split
    · rename_i hg
      exact absurd (of_goesNow hg).2.1 (by rw [hn]; exact Bool.false_ne_true)
    · rfl

end Sys2Proof.Machine
end

