-- ==== Sys2Proof/Proofs/Registers.lean ====
section
/-! SUPPORT. Registers: what a field reads after a write, which registers a message leaves as they were, and what an accepted write of a
block register stores (R12 to R16). -/

namespace Sys2Proof.Machine

/-! ### Fields -/

/-- Words that agree on the bits of a field agree on the field. -/
theorem fld_congr {w w' : Word} {lo n : Nat} (h : ∀ i < n, w.getLsbD (lo + i) = w'.getLsbD (lo + i)) : fld w lo n = fld w' lo n := by
  refine Nat.eq_of_testBit_eq fun i => ?_
  rw [testBit_fld, testBit_fld]
  by_cases hi : i < n
  · rw [h i hi]
  · simp [hi]

theorem getLsbD_put_above (w : Word) (lo n v i : Nat) (h : lo + n ≤ i) : (put w lo n v).getLsbD i = w.getLsbD i := by
  have small {a : Nat} (ha : a < 2 ^ n) : (a * 2 ^ lo).testBit i = false := by
    rw [Nat.testBit_mul_two_pow]
    have : a.testBit (i - lo) = false :=
      Nat.testBit_lt_two_pow (ha.trans_le (Nat.pow_le_pow_right (by decide) (Nat.le_sub_of_add_le (by omega))))
    simp [this]
  have hm := small (a := 2 ^ n - 1) (Nat.sub_lt (Nat.two_pow_pos n) Nat.one_pos)
  have hv := small (Nat.mod_lt v (Nat.two_pow_pos n))
  by_cases hi : i < 32
  · simp only [put, BitVec.getLsbD_or, BitVec.getLsbD_and, BitVec.getLsbD_not, BitVec.getLsbD_ofNat, hm, hv, hi, decide_true,
      Bool.and_false, Bool.not_false, Bool.and_true, Bool.or_false]
  · rw [BitVec.getLsbD_of_ge _ _ (Nat.not_lt.mp hi), BitVec.getLsbD_of_ge _ _ (Nat.not_lt.mp hi)]

/-- Setting a field leaves every field above it as it was. -/
theorem fld_put_above (w : Word) (lo n v lo' n' : Nat) (h : lo + n ≤ lo') : fld (put w lo n v) lo' n' = fld w lo' n' :=
  fld_congr fun i _ => getLsbD_put_above w lo n v _ (by omega)

theorem fld_lt (w : Word) (lo n : Nat) : fld w lo n < 2 ^ n := Nat.mod_lt _ (Nat.two_pow_pos n)

/-- A field of one bit is that bit. -/
theorem fld_one (w : Word) (lo : Nat) : fld w lo 1 = b2n (bit w lo) := by
  have h := Nat.toNat_testBit w.toNat lo
  unfold fld
  rw [pow_one, ← h]
  unfold b2n bit BitVec.getLsbD
  cases w.toNat.testBit lo <;> rfl

/-- The bits of a mask are taken from the new word, the others stay. -/
theorem fld_masked {old w m : Word} {lo n : Nat} (h : ∀ i < n, m.getLsbD (lo + i) = true) :
    fld ((old &&& ~~~m) ||| (w &&& m)) lo n = fld w lo n := by
  refine fld_congr fun i hi => ?_
  have hm := h i hi
  have h32 : lo + i < 32 := by
    by_contra hc
    rw [BitVec.getLsbD_of_ge _ _ (Nat.not_lt.mp hc)] at hm
    cases hm
  have hm' : m[lo + i] = true := hm
  simp [hm', h32]

variable (s : State)

theorem regFld_putReg_self (off lo n v : Nat) (h : lo + n ≤ 32) : regFld (putReg s off lo n v) off lo n = v % 2 ^ n := by
  unfold regFld putReg
  rw [getReg_setReg_self, fld_put_self _ _ _ _ h]

theorem regFld_putReg_above (off lo n v lo' n' : Nat) (h : lo + n ≤ lo') :
    regFld (putReg s off lo n v) off lo' n' = regFld s off lo' n' := by
  unfold regFld putReg
  rw [getReg_setReg_self, fld_put_above _ _ _ _ _ _ h]

theorem regFld_putReg_below (off lo n v lo' n' : Nat) (h : lo' + n' ≤ lo) :
    regFld (putReg s off lo n v) off lo' n' = regFld s off lo' n' := by
  unfold regFld putReg
  rw [getReg_setReg_self, fld_put_below _ _ _ _ _ _ h]

theorem getReg_putReg_other (off lo n v o : Nat) (h : o ≠ off) : getReg (putReg s off lo n v) o = getReg s o :=
  getReg_setReg_other _ _ _ _ h

theorem getReg_of_regs {s t : State} (h : t.regs = s.regs) (off : Nat) : getReg t off = getReg s off := by
  unfold getReg
  rw [h]

theorem regFld_of_getReg {s t : State} {off : Nat} (h : getReg t off = getReg s off) (lo n : Nat) :
    regFld t off lo n = regFld s off lo n := by
  unfold regFld
  rw [h]

/-! ### What a message leaves as it was -/

@[simp] theorem post_pending (page src : Nat) (d : Word) (sub : Nat) : (post s page src d sub).pending = s.pending := pending_of_still (post_still ..)
@[simp] theorem post_now (page src : Nat) (d : Word) (sub : Nat) : (post s page src d sub).now = s.now := now_of_still (post_still ..)
@[simp] theorem post_phase (page src : Nat) (d : Word) (sub : Nat) : (post s page src d sub).phase = s.phase := phase_of_still (post_still ..)
@[simp] theorem post_droneF (page src : Nat) (d : Word) (sub : Nat) : (post s page src d sub).droneF = s.droneF := droneF_of_still (post_still ..)
@[simp] theorem post_droneD (page src : Nat) (d : Word) (sub : Nat) : (post s page src d sub).droneD = s.droneD := droneD_of_still (post_still ..)
@[simp] theorem post_feedA (page src : Nat) (d : Word) (sub : Nat) : (post s page src d sub).feedA = s.feedA := feedA_of_still (post_still ..)
@[simp] theorem post_feedB (page src : Nat) (d : Word) (sub : Nat) : (post s page src d sub).feedB = s.feedB := feedB_of_still (post_still ..)
@[simp] theorem post_rails (page src : Nat) (d : Word) (sub : Nat) : (post s page src d sub).rails = s.rails := rails_of_still (post_still ..)
@[simp] theorem post_boot (page src : Nat) (d : Word) (sub : Nat) : (post s page src d sub).boot = s.boot := boot_of_still (post_still ..)
@[simp] theorem post_chans (page src : Nat) (d : Word) (sub : Nat) : (post s page src d sub).chans = s.chans := chans_of_still (post_still ..)
@[simp] theorem post_tiles (page src : Nat) (d : Word) (sub : Nat) : (post s page src d sub).tiles = s.tiles := tiles_of_still (post_still ..)
@[simp] theorem post_reeds (page src : Nat) (d : Word) (sub : Nat) : (post s page src d sub).reeds = s.reeds := reeds_of_still (post_still ..)
@[simp] theorem post_loops (page src : Nat) (d : Word) (sub : Nat) : (post s page src d sub).loops = s.loops := loops_of_still (post_still ..)
@[simp] theorem post_park (page src : Nat) (d : Word) (sub : Nat) : (post s page src d sub).park = s.park := park_of_still (post_still ..)
@[simp] theorem post_slots (page src : Nat) (d : Word) (sub : Nat) : (post s page src d sub).slots = s.slots := slots_of_still (post_still ..)
@[simp] theorem post_reqs (page src : Nat) (d : Word) (sub : Nat) : (post s page src d sub).reqs = s.reqs := reqs_of_still (post_still ..)
@[simp] theorem post_strobeAt (page src : Nat) (d : Word) (sub : Nat) : (post s page src d sub).strobeAt = s.strobeAt := strobeAt_of_still (post_still ..)
@[simp] theorem post_fabWait (page src : Nat) (d : Word) (sub : Nat) : (post s page src d sub).fabWait = s.fabWait := fabWait_of_still (post_still ..)
@[simp] theorem post_hkAt (page src : Nat) (d : Word) (sub : Nat) : (post s page src d sub).hkAt = s.hkAt := hkAt_of_still (post_still ..)
@[simp] theorem post_tabs (page src : Nat) (d : Word) (sub : Nat) : (post s page src d sub).tabs = s.tabs := tabs_of_still (post_still ..)
@[simp] theorem post_accs (page src : Nat) (d : Word) (sub : Nat) : (post s page src d sub).accs = s.accs := accs_of_still (post_still ..)
@[simp] theorem post_cal (page src : Nat) (d : Word) (sub : Nat) : (post s page src d sub).cal = s.cal := cal_of_still (post_still ..)
@[simp] theorem post_thermal (page src : Nat) (d : Word) (sub : Nat) : (post s page src d sub).thermal = s.thermal := thermal_of_still (post_still ..)
@[simp] theorem post_bore (page src : Nat) (d : Word) (sub : Nat) : (post s page src d sub).bore = s.bore := bore_of_still (post_still ..)
@[simp] theorem post_cmdq (page src : Nat) (d : Word) (sub : Nat) : (post s page src d sub).cmdq = s.cmdq := cmdq_of_still (post_still ..)
@[simp] theorem post_flash (page src : Nat) (d : Word) (sub : Nat) : (post s page src d sub).flash = s.flash := flash_of_still (post_still ..)
@[simp] theorem post_power (page src : Nat) (d : Word) (sub : Nat) : (post s page src d sub).power = s.power := power_of_still (post_still ..)
@[simp] theorem post_shelf (page src : Nat) (d : Word) (sub : Nat) : (post s page src d sub).shelf = s.shelf := shelf_of_still (post_still ..)
@[simp] theorem postFree_pending (page src sub : Nat) : (postFree s page src sub).pending = s.pending := pending_of_still (postFree_still ..)
@[simp] theorem postFree_now (page src sub : Nat) : (postFree s page src sub).now = s.now := now_of_still (postFree_still ..)
@[simp] theorem postFree_phase (page src sub : Nat) : (postFree s page src sub).phase = s.phase := phase_of_still (postFree_still ..)
@[simp] theorem postFree_droneF (page src sub : Nat) : (postFree s page src sub).droneF = s.droneF := droneF_of_still (postFree_still ..)
@[simp] theorem postFree_droneD (page src sub : Nat) : (postFree s page src sub).droneD = s.droneD := droneD_of_still (postFree_still ..)
@[simp] theorem postFree_feedA (page src sub : Nat) : (postFree s page src sub).feedA = s.feedA := feedA_of_still (postFree_still ..)
@[simp] theorem postFree_feedB (page src sub : Nat) : (postFree s page src sub).feedB = s.feedB := feedB_of_still (postFree_still ..)
@[simp] theorem postFree_rails (page src sub : Nat) : (postFree s page src sub).rails = s.rails := rails_of_still (postFree_still ..)
@[simp] theorem postFree_boot (page src sub : Nat) : (postFree s page src sub).boot = s.boot := boot_of_still (postFree_still ..)
@[simp] theorem postFree_chans (page src sub : Nat) : (postFree s page src sub).chans = s.chans := chans_of_still (postFree_still ..)
@[simp] theorem postFree_tiles (page src sub : Nat) : (postFree s page src sub).tiles = s.tiles := tiles_of_still (postFree_still ..)
@[simp] theorem postFree_reeds (page src sub : Nat) : (postFree s page src sub).reeds = s.reeds := reeds_of_still (postFree_still ..)
@[simp] theorem postFree_loops (page src sub : Nat) : (postFree s page src sub).loops = s.loops := loops_of_still (postFree_still ..)
@[simp] theorem postFree_park (page src sub : Nat) : (postFree s page src sub).park = s.park := park_of_still (postFree_still ..)
@[simp] theorem postFree_slots (page src sub : Nat) : (postFree s page src sub).slots = s.slots := slots_of_still (postFree_still ..)
@[simp] theorem postFree_reqs (page src sub : Nat) : (postFree s page src sub).reqs = s.reqs := reqs_of_still (postFree_still ..)
@[simp] theorem postFree_strobeAt (page src sub : Nat) : (postFree s page src sub).strobeAt = s.strobeAt := strobeAt_of_still (postFree_still ..)
@[simp] theorem postFree_fabWait (page src sub : Nat) : (postFree s page src sub).fabWait = s.fabWait := fabWait_of_still (postFree_still ..)
@[simp] theorem postFree_hkAt (page src sub : Nat) : (postFree s page src sub).hkAt = s.hkAt := hkAt_of_still (postFree_still ..)
@[simp] theorem postFree_tabs (page src sub : Nat) : (postFree s page src sub).tabs = s.tabs := tabs_of_still (postFree_still ..)
@[simp] theorem postFree_accs (page src sub : Nat) : (postFree s page src sub).accs = s.accs := accs_of_still (postFree_still ..)
@[simp] theorem postFree_cal (page src sub : Nat) : (postFree s page src sub).cal = s.cal := cal_of_still (postFree_still ..)
@[simp] theorem postFree_thermal (page src sub : Nat) : (postFree s page src sub).thermal = s.thermal := thermal_of_still (postFree_still ..)
@[simp] theorem postFree_bore (page src sub : Nat) : (postFree s page src sub).bore = s.bore := bore_of_still (postFree_still ..)
@[simp] theorem postFree_cmdq (page src sub : Nat) : (postFree s page src sub).cmdq = s.cmdq := cmdq_of_still (postFree_still ..)
@[simp] theorem postFree_flash (page src sub : Nat) : (postFree s page src sub).flash = s.flash := flash_of_still (postFree_still ..)
@[simp] theorem postFree_power (page src sub : Nat) : (postFree s page src sub).power = s.power := power_of_still (postFree_still ..)
@[simp] theorem postFree_shelf (page src sub : Nat) : (postFree s page src sub).shelf = s.shelf := shelf_of_still (postFree_still ..)
@[simp] theorem postAs_pending (page src cls sub : Nat) (d : Word) : (postAs s page src cls sub d).pending = s.pending := pending_of_still (postAs_still ..)
@[simp] theorem postAs_now (page src cls sub : Nat) (d : Word) : (postAs s page src cls sub d).now = s.now := now_of_still (postAs_still ..)
@[simp] theorem postAs_phase (page src cls sub : Nat) (d : Word) : (postAs s page src cls sub d).phase = s.phase := phase_of_still (postAs_still ..)
@[simp] theorem postAs_droneF (page src cls sub : Nat) (d : Word) : (postAs s page src cls sub d).droneF = s.droneF := droneF_of_still (postAs_still ..)
@[simp] theorem postAs_droneD (page src cls sub : Nat) (d : Word) : (postAs s page src cls sub d).droneD = s.droneD := droneD_of_still (postAs_still ..)
@[simp] theorem postAs_feedA (page src cls sub : Nat) (d : Word) : (postAs s page src cls sub d).feedA = s.feedA := feedA_of_still (postAs_still ..)
@[simp] theorem postAs_feedB (page src cls sub : Nat) (d : Word) : (postAs s page src cls sub d).feedB = s.feedB := feedB_of_still (postAs_still ..)
@[simp] theorem postAs_rails (page src cls sub : Nat) (d : Word) : (postAs s page src cls sub d).rails = s.rails := rails_of_still (postAs_still ..)
@[simp] theorem postAs_boot (page src cls sub : Nat) (d : Word) : (postAs s page src cls sub d).boot = s.boot := boot_of_still (postAs_still ..)
@[simp] theorem postAs_chans (page src cls sub : Nat) (d : Word) : (postAs s page src cls sub d).chans = s.chans := chans_of_still (postAs_still ..)
@[simp] theorem postAs_tiles (page src cls sub : Nat) (d : Word) : (postAs s page src cls sub d).tiles = s.tiles := tiles_of_still (postAs_still ..)
@[simp] theorem postAs_reeds (page src cls sub : Nat) (d : Word) : (postAs s page src cls sub d).reeds = s.reeds := reeds_of_still (postAs_still ..)
@[simp] theorem postAs_loops (page src cls sub : Nat) (d : Word) : (postAs s page src cls sub d).loops = s.loops := loops_of_still (postAs_still ..)
@[simp] theorem postAs_park (page src cls sub : Nat) (d : Word) : (postAs s page src cls sub d).park = s.park := park_of_still (postAs_still ..)
@[simp] theorem postAs_slots (page src cls sub : Nat) (d : Word) : (postAs s page src cls sub d).slots = s.slots := slots_of_still (postAs_still ..)
@[simp] theorem postAs_reqs (page src cls sub : Nat) (d : Word) : (postAs s page src cls sub d).reqs = s.reqs := reqs_of_still (postAs_still ..)
@[simp] theorem postAs_strobeAt (page src cls sub : Nat) (d : Word) : (postAs s page src cls sub d).strobeAt = s.strobeAt := strobeAt_of_still (postAs_still ..)
@[simp] theorem postAs_fabWait (page src cls sub : Nat) (d : Word) : (postAs s page src cls sub d).fabWait = s.fabWait := fabWait_of_still (postAs_still ..)
@[simp] theorem postAs_hkAt (page src cls sub : Nat) (d : Word) : (postAs s page src cls sub d).hkAt = s.hkAt := hkAt_of_still (postAs_still ..)
@[simp] theorem postAs_tabs (page src cls sub : Nat) (d : Word) : (postAs s page src cls sub d).tabs = s.tabs := tabs_of_still (postAs_still ..)
@[simp] theorem postAs_accs (page src cls sub : Nat) (d : Word) : (postAs s page src cls sub d).accs = s.accs := accs_of_still (postAs_still ..)
@[simp] theorem postAs_cal (page src cls sub : Nat) (d : Word) : (postAs s page src cls sub d).cal = s.cal := cal_of_still (postAs_still ..)
@[simp] theorem postAs_thermal (page src cls sub : Nat) (d : Word) : (postAs s page src cls sub d).thermal = s.thermal := thermal_of_still (postAs_still ..)
@[simp] theorem postAs_bore (page src cls sub : Nat) (d : Word) : (postAs s page src cls sub d).bore = s.bore := bore_of_still (postAs_still ..)
@[simp] theorem postAs_cmdq (page src cls sub : Nat) (d : Word) : (postAs s page src cls sub d).cmdq = s.cmdq := cmdq_of_still (postAs_still ..)
@[simp] theorem postAs_flash (page src cls sub : Nat) (d : Word) : (postAs s page src cls sub d).flash = s.flash := flash_of_still (postAs_still ..)
@[simp] theorem postAs_power (page src cls sub : Nat) (d : Word) : (postAs s page src cls sub d).power = s.power := power_of_still (postAs_still ..)
@[simp] theorem postAs_shelf (page src cls sub : Nat) (d : Word) : (postAs s page src cls sub d).shelf = s.shelf := shelf_of_still (postAs_still ..)

/-- A message may set a sticky bit, and count or interrupt where one is lost; every other register it leaves as it was. -/
def unmarked? (off : Nat) : Bool :=
  off % 4096 != 0x1C && off != ro pgFSYS 0x4C && off != ro pgBELL 0x50 && off != ro pgBELL 0x14

theorem ne_of_unmarked {off : Nat} (h : unmarked? off = true) :
    off % 4096 ≠ 0x1C ∧ off ≠ ro pgFSYS 0x4C ∧ off ≠ ro pgBELL 0x50 ∧ off ≠ ro pgBELL 0x14 := by
  simpa [unmarked?, and_assoc] using h

@[simp] theorem sendMsi_regs (fn vec : Nat) : (sendMsi s fn vec).regs = s.regs := by
  unfold sendMsi
  dsimp only
  split <;> rfl

/-- A part that every step of a fold leaves as it was. -/
theorem foldl_part {α β : Type} {π : State → β} {f : State → α → State} (hf : ∀ u x, π (f u x) = π u) (l : List α) :
    π (l.foldl f s) = π s := by
  induction l generalizing s with
  | nil => rfl
  | cons x l ih => exact (ih _).trans (hf _ _)

@[simp] theorem pageIrq_regs (page : Nat) : (pageIrq s page).regs = s.regs := by
  unfold pageIrq
  refine foldl_part (π := State.regs) s (fun u x => ?_) _
  split
  · exact sendMsi_regs ..
  · rfl

@[simp] theorem sendToDrive_regs (f : Frame) : (sendToDrive s f).regs = s.regs := by unfold sendToDrive; split <;> rfl
@[simp] theorem sendToFeed_regs (f : Frame) : (sendToFeed s f).regs = s.regs := by unfold sendToFeed; split <;> rfl
@[simp] theorem sentNow_regs (c : BitVec 13) : (sentNow s c).regs = s.regs := rfl
@[simp] theorem openShadow_regs (k : Nat) (v : Option Nat) : (openShadow s k v).regs = s.regs := rfl

theorem getReg_irqSet {off page : Nat} (hp : off ≠ ro page 0x14) (bits : Word) : getReg (irqSet s page bits) off = getReg s off := by
  unfold irqSet
  dsimp only
  split
  · rw [getReg_of_regs (pageIrq_regs _ page), getReg_setReg_other _ _ _ _ hp]
  · exact getReg_setReg_other _ _ _ _ hp

section
variable {off : Nat} (h : unmarked? off = true)
include h

theorem getReg_bellIn (m : Msg) : getReg (bellIn s m) off = getReg s off := by
  obtain ⟨_, _, h3, h4⟩ := ne_of_unmarked h
  unfold bellIn
  split
  · rfl
  · dsimp only
    split
    · unfold bellLost satReg
      rw [getReg_irqSet _ h4, getReg_putReg_other _ _ _ _ _ _ h3]
      rfl
    · rfl

theorem getReg_feedMsg (m : Msg) : getReg (feedMsg s m) off = getReg s off := by
  obtain ⟨h1, h2, _, _⟩ := ne_of_unmarked h
  have hs : off ≠ ro m.page 0x1C := fun e => h1 (by rw [e]; unfold ro; omega)
  unfold feedMsg
  dsimp only
  split
  · rw [getReg_of_regs (sendToDrive_regs _ _), getReg_of_regs (sendToDrive_regs _ _), getReg_setReg_other _ _ _ _ hs]
  · split
    · unfold satReg
      rw [getReg_putReg_other _ _ _ _ _ _ h2]
      exact getReg_setReg_other _ _ _ _ hs
    · exact getReg_setReg_other _ _ _ _ hs

theorem getReg_postAs (page src cls sub : Nat) (d : Word) : getReg (postAs s page src cls sub d) off = getReg s off := by
  unfold postAs
  split
  · rfl
  · extract_lets inj m _ s1 s2 s3
    have h1 : getReg s1 off = getReg s off := by unfold s1; split <;> rfl
    split
    · rw [getReg_feedMsg _ h]; exact h1
    · split
      · exact h1
      · rw [getReg_bellIn _ h]
        refine Eq.trans ?_ h1
        unfold s3
        split <;> rfl

theorem getReg_post (page src : Nat) (d : Word) (sub : Nat) : getReg (post s page src d sub) off = getReg s off :=
  getReg_postAs s h ..

theorem getReg_postFree (page src sub : Nat) : getReg (postFree s page src sub) off = getReg s off :=
  getReg_postAs s h ..

end

/-! ### What a message leaves of the feed die -/

/-- The feed die but for the messages that it holds. -/
def FeedDie.unheld (d : FeedDie) : FeedDie := { d with held := [] }

@[simp] theorem sendToDrive_fd (f : Frame) : (sendToDrive s f).fd = s.fd := by unfold sendToDrive; split <;> rfl
@[simp] theorem sendToFeed_fd (f : Frame) : (sendToFeed s f).fd = s.fd := by unfold sendToFeed; split <;> rfl

@[simp] theorem sendMsi_fd (fn vec : Nat) : (sendMsi s fn vec).fd = s.fd := by
  unfold sendMsi
  dsimp only
  split <;> rfl

@[simp] theorem pageIrq_fd (page : Nat) : (pageIrq s page).fd = s.fd := by
  unfold pageIrq
  refine foldl_part (π := State.fd) s (fun u x => ?_) _
  split
  · exact sendMsi_fd ..
  · rfl

@[simp] theorem irqSet_fd (page : Nat) (bits : Word) : (irqSet s page bits).fd = s.fd := by
  unfold irqSet
  dsimp only
  split
  · exact pageIrq_fd ..
  · rfl

@[simp] theorem bellIn_fd (m : Msg) : (bellIn s m).fd = s.fd := by
  unfold bellIn
  split
  · rfl
  · dsimp only
    split
    · exact (irqSet_fd _ _ _).trans rfl
    · rfl

@[simp] theorem feedMsg_unheld (m : Msg) : (feedMsg s m).fd.unheld = s.fd.unheld := by
  unfold feedMsg
  dsimp only
  split
  · rw [sendToDrive_fd, sendToDrive_fd]; rfl
  · split <;> rfl

@[simp] theorem postAs_unheld (page src cls sub : Nat) (d : Word) : (postAs s page src cls sub d).fd.unheld = s.fd.unheld := by
  unfold postAs
  split
  · rfl
  · extract_lets inj m _ s1 s2 s3
    have h1 : s1.fd = s.fd := by unfold s1; split <;> rfl
    split
    · rw [feedMsg_unheld]; exact congrArg FeedDie.unheld h1
    · split
      · exact congrArg FeedDie.unheld h1
      · rw [bellIn_fd]
        refine congrArg FeedDie.unheld (Eq.trans ?_ h1)
        unfold s3
        split <;> rfl

@[simp] theorem post_unheld (page src : Nat) (d : Word) (sub : Nat) : (post s page src d sub).fd.unheld = s.fd.unheld :=
  postAs_unheld ..
@[simp] theorem postFree_unheld (page src sub : Nat) : (postFree s page src sub).fd.unheld = s.fd.unheld := postAs_unheld ..

/-! ### Accepted writes of block registers -/

/-- A value whose fields all lie in their ranges, none of them a zero that stands for another value, is taken as it is. -/
theorem ruleWord_of_accepted {rules : List FieldRule} (old v : Word)
    (h : ∀ r ∈ rules, r.min ≤ fld v r.lo r.n ∧ fld v r.lo r.n ≤ r.max ∧ (fld v r.lo r.n = 0 → r.zeroAs = 0)) :
    ruleWord rules old v = v := by
  unfold ruleWord
  induction rules with
  | nil => rfl
  | cons r rules ih =>
    obtain ⟨hlo, hhi, hz⟩ := h r (List.mem_cons_self ..)
    rw [List.foldl_cons]
    dsimp only
    rw [if_neg (fun c => c.2 (hz c.1)), if_neg (by omega)]
    exact ih (fun r' hr => h r' (List.mem_cons_of_mem _ hr))

theorem getReg_ruleZero {off : Nat} {rules : List FieldRule} (v : Word) {o : Nat} (h : ∀ r ∈ rules, o ≠ fzOff r off) :
    getReg (ruleZero s off rules v) o = getReg s o := by
  unfold ruleZero
  dsimp only
  split
  · rfl
  · rename_i r rs e
    have hr : r ∈ rules := (List.mem_filter.mp (e ▸ List.mem_cons_self .. : r ∈ rules.filter _)).1
    exact getReg_putReg_other _ _ _ _ _ _ (h r hr)

/-- An accepted write of a block register stores its writable bits (R12 to R15). -/
theorem getReg_writeReg {off : Nat} {v : Word} {r : RegRow} (hr : regRow off = some r) (ha : r.acc = .rw)
    (hu : unmarked? off = true) (hf : ∀ f ∈ r.rules, off ≠ fzOff f off) :
    getReg (writeReg s off v) off =
      (getReg s off &&& ~~~r.mask) ||| (ruleWord r.rules (getReg s off) v &&& r.mask) := by
  unfold writeReg
  rw [hr]
  dsimp only
  rw [if_neg (not_not.mpr ha), getReg_ruleZero s v hf]
  split
  · unfold badEncoding
    rw [getReg_post _ hu, getReg_setReg_self]
  · rw [getReg_setReg_self]

/-- A field of an accepted write is what the register then holds. -/
theorem regFld_writeReg {off : Nat} {v : Word} {r : RegRow} {lo n : Nat} (hr : regRow off = some r) (ha : r.acc = .rw)
    (hu : unmarked? off = true) (hf : ∀ f ∈ r.rules, off ≠ fzOff f off) (hm : ∀ i < n, r.mask.getLsbD (lo + i) = true)
    (hv : ∀ f ∈ r.rules, f.min ≤ fld v f.lo f.n ∧ fld v f.lo f.n ≤ f.max ∧ (fld v f.lo f.n = 0 → f.zeroAs = 0)) :
    regFld (writeReg s off v) off lo n = fld v lo n := by
  unfold regFld
  rw [getReg_writeReg s hr ha hu hf, ruleWord_of_accepted _ _ hv, fld_masked hm]

end Sys2Proof.Machine
end

