-- ==== Sys2Proof/Proofs/FeedMoves.lean ====
section
/-! SUPPORT. The moves of a feed, said once each: what a trip, a qualification, the end of a delay and what settles after them make of
it (R40 to R48, R60), and which registers they leave as they were. -/

namespace Sys2Proof.Machine

variable (s : State) (f : Feed)

@[simp] theorem calmFeed_startTimer (g : FeedSt) : (calmFeed g).startTimer = g.startTimer := by unfold calmFeed; split <;> rfl
@[simp] theorem calmFeed_plimW (g : FeedSt) : (calmFeed g).plimW = g.plimW := by unfold calmFeed; split <;> rfl
theorem calmFeed_of_on (g : FeedSt) (h : g.state.isOn = true) : calmFeed g = g := by unfold calmFeed; rw [if_pos h]
theorem calmFeed_limitTimer (g : FeedSt) (h : g.limitTimer = false) : (calmFeed g).limitTimer = false := by
  unfold calmFeed
  split
  · exact h
  · rfl

theorem driven_of_isOn {x : FeedState} (h : x.isOn = true) : x.driven = true := by cases x <;> first | rfl | cases h
theorem driven_of_charging (h : charging s f = true) : (feed s f).state.driven = true := by
  unfold charging at h
  rcases Bool.or_eq_true_iff.mp h with e | e <;> rw [beq_iff_eq.mp e] <;> rfl

/-! ### Settling -/

/-- The end of a hold moves a feed that is in 3 DELAY, and leaves what stands in its record and at its inputs. -/
theorem heldGoesOn_inputs : let g := feed (heldGoesOn s f) f
    g.pres = (feed s f).pres ∧ g.inWindow = (feed s f).inWindow ∧ g.off = (feed s f).off ∧ g.tr = (feed s f).tr ∧
      ((feed s f).state ≠ .latched → g.state ≠ .latched) := by
  unfold heldGoesOn
  split
  · unfold leaveDelay
    dsimp only
    split <;> rw [feed_setFeed_self] <;> exact ⟨rfl, rfl, rfl, rfl, fun _ e => nomatch e⟩
  · exact ⟨rfl, rfl, rfl, rfl, id⟩

theorem feed_settleFeeds (old : State) :
    feed (settleFeeds old s) f = calmFeed (feed (heldGoesOn (heldGoesOn s .a) .b) f) := by
  have hs := settleFeeds_still s old
  cases f
  · exact congrArg State.feedA hs
  · exact congrArg State.feedB hs

/-- Settling leaves what stands in the record of a feed and at its inputs, and latches none. -/
theorem settleFeeds_inputs (old : State) : let g := feed (settleFeeds old s) f
    g.pres = (feed s f).pres ∧ g.inWindow = (feed s f).inWindow ∧ g.off = (feed s f).off ∧ g.tr = (feed s f).tr ∧
      ((feed s f).state ≠ .latched → g.state ≠ .latched) := by
  dsimp only
  rw [feed_settleFeeds, calmFeed_pres, calmFeed_inWindow, calmFeed_off, calmFeed_tr, calmFeed_state]
  cases f
  · rw [show feed (heldGoesOn (heldGoesOn s .a) .b) .a = feed (heldGoesOn s .a) .a from heldGoesOn_other _ .b]
    exact heldGoesOn_inputs s .a
  · have e : feed (heldGoesOn s .a) .b = feed s .b := heldGoesOn_other s .a
    rw [← e]
    exact heldGoesOn_inputs (heldGoesOn s .a) .b

@[simp] theorem leaveDelay_regs : (leaveDelay s f).regs = s.regs := by
  unfold leaveDelay
  dsimp only
  split <;> exact setFeed_regs ..
@[simp] theorem heldGoesOn_regs : (heldGoesOn s f).regs = s.regs := by
  unfold heldGoesOn
  split
  · exact leaveDelay_regs ..
  · rfl
@[simp] theorem leaveDelay_fd : (leaveDelay s f).fd = s.fd := by
  unfold leaveDelay
  dsimp only
  split <;> exact setFeed_fd ..
@[simp] theorem heldGoesOn_fd : (heldGoesOn s f).fd = s.fd := by
  unfold heldGoesOn
  split
  · exact leaveDelay_fd ..
  · rfl
@[simp] theorem calmI_fd : (calmI s f).fd = s.fd := by unfold calmI; split <;> rfl
@[simp] theorem feedPush_fd : (feedPush s).fd = s.fd := by
  unfold feedPush
  split
  · rfl
  · exact (sendToDrive_fd ..).trans (sendToDrive_fd ..)
@[simp] theorem pushIfChanged_fd (old : State) : (pushIfChanged old s).fd = s.fd := by
  unfold pushIfChanged
  split
  · rfl
  · exact feedPush_fd s

theorem getReg_feedPush {off : Nat} (h : off ≠ ro pgFSYS 0x4C) : getReg (feedPush s) off = getReg s off := by
  unfold feedPush
  split
  · rfl
  · dsimp only
    rw [getReg_of_regs (sendToDrive_regs _ _), getReg_of_regs (sendToDrive_regs _ _)]
    exact getReg_putReg_other _ _ _ _ _ _ h

theorem getReg_pushIfChanged (old : State) {off : Nat} (h : off ≠ ro pgFSYS 0x4C) :
    getReg (pushIfChanged old s) off = getReg s off := by
  unfold pushIfChanged
  split
  · rfl
  · exact getReg_feedPush s h

/-- Settling leaves every register but the push's count and the currents of feeds that are not driven. -/
theorem getReg_settleFeeds (old : State) {off : Nat} (h : off ≠ ro pgFSYS 0x4C) : ∃ u : State,
    feed u .a = calmFeed (feed (heldGoesOn (heldGoesOn s .a) .b) .a) ∧
    feed u .b = calmFeed (feed (heldGoesOn (heldGoesOn s .a) .b) .b) ∧ u.regs = s.regs ∧
    getReg (settleFeeds old s) off = getReg (calmI (calmI u .a) .b) off := by
  refine ⟨{ heldGoesOn (heldGoesOn s .a) .b with
    feedA := calmFeed (heldGoesOn (heldGoesOn s .a) .b).feedA, feedB := calmFeed (heldGoesOn (heldGoesOn s .a) .b).feedB },
    rfl, rfl, ?_, ?_⟩
  · exact (heldGoesOn_regs _ .b).trans (heldGoesOn_regs s .a)
  · unfold settleFeeds
    dsimp only
    rw [getReg_pushIfChanged _ _ h]
    split <;> rfl

theorem getReg_calmI {off : Nat} (h : off ≠ ro (pgFEED f) 0x60) : getReg (calmI s f) off = getReg s off := by
  unfold calmI
  split
  · rfl
  · exact getReg_putReg_other _ _ _ _ _ _ h

theorem getReg_settleFeeds_of_ne (old : State) {off : Nat} (h : off ≠ ro pgFSYS 0x4C) (ha : off ≠ ro 0x101 0x60)
    (hb : off ≠ ro 0x102 0x60) : getReg (settleFeeds old s) off = getReg s off := by
  obtain ⟨u, _, _, hr, e⟩ := getReg_settleFeeds s old h
  rw [e, getReg_calmI _ .b hb, getReg_calmI _ .a ha, getReg_of_regs hr]

theorem regFld_calmI_high (g : Feed) : regFld (calmI s g) (ro (pgFEED f) 0x60) 16 16 = regFld s (ro (pgFEED f) 0x60) 16 16 := by
  unfold calmI
  split
  · rfl
  · by_cases e : g = f
    · subst e
      exact regFld_putReg_above _ _ _ _ _ _ _ (by decide)
    · refine regFld_of_getReg (getReg_putReg_other _ _ _ _ _ _ ?_) _ _
      cases f <;> cases g <;> first | decide | exact absurd rfl e

/-- The voltage of a feed stays in its register. -/
theorem settleFeeds_voltage (old : State) :
    regFld (settleFeeds old s) (ro (pgFEED f) 0x60) 16 16 = regFld s (ro (pgFEED f) 0x60) 16 16 := by
  obtain ⟨u, _, _, hr, e⟩ := getReg_settleFeeds s old (off := ro (pgFEED f) 0x60) (by cases f <;> decide)
  rw [regFld_of_getReg e, regFld_calmI_high, regFld_calmI_high]
  exact regFld_of_getReg (getReg_of_regs hr _) _ _

/-- The current of a driven feed stays in its register. -/
theorem settleFeeds_current (old : State) (h : (feed s f).state.driven = true) :
    getReg (settleFeeds old s) (ro (pgFEED f) 0x60) = getReg s (ro (pgFEED f) 0x60) := by
  have hd : (feed s f).state ≠ .delay := fun e => by rw [e] at h; cases h
  obtain ⟨u, ha, hb, hr, e⟩ := getReg_settleFeeds s old (off := ro (pgFEED f) 0x60) (by cases f <;> decide)
  have hf : feed u f = calmFeed (feed s f) := by
    rw [← settleFeeds_feed s old f hd, feed_settleFeeds]
    cases f
    · exact ha
    · exact hb
  have hdr : (feed u f).state.driven = true := by rw [hf, calmFeed_state]; exact h
  rw [e]
  cases f
  · rw [getReg_calmI _ .b (by decide)]
    unfold calmI
    rw [if_pos hdr, getReg_of_regs hr]
  · unfold calmI
    have h2 : (feed (calmI u .a) .b).state.driven = true := by rw [feed_of_still (calmI_still u .a)]; exact hdr
    show getReg (if (feed (calmI u .a) .b).state.driven then calmI u .a else _) _ = _
    rw [if_pos h2, getReg_calmI _ .a (by decide), getReg_of_regs hr]

theorem settleFeeds_fd (old : State) : ∃ d : FeedDie, (settleFeeds old s).fd = d ∧ d.supply = s.fd.supply ∧ d.armed = s.fd.armed := by
  unfold settleFeeds
  dsimp only
  rw [pushIfChanged_fd]
  refine ⟨_, rfl, ?_⟩
  split <;> (unfold shareErrHolds; simp [shareRest])

/-! ### Qualifying and tripping -/

@[simp] theorem feed_recordTrip (k : TripKind) (g : Feed) : feed (recordTrip s f k) g = feed s g := by
  unfold recordTrip
  split
  · rfl
  · split
    · dsimp only
      rw [feed_postFree]
      cases g <;> rfl
    · split
      · rfl
      · cases g <;> rfl

theorem feed_qualify : feed (qualify s f) f =
    if (feed s f).tr.latched then { feed s f with state := .latched }
    else if !(feed s f).inWindow then { feed s f with state := .qualify }
    else if (feed s f).tr.coolMs ≠ 0 then { feed s f with state := .cooldown }
    else { feed s f with state := .delay, delayDone := false, delayMs := BitVec.ofNat 11 (regFld s (ro (pgFEED f) 0x48) 0 11) } := by
  unfold qualify
  dsimp only
  split
  · exact feed_setFeed_self ..
  · split
    · exact feed_setFeed_self ..
    · split
      · exact feed_setFeed_self ..
      · exact feed_setFeed_self ..

/-- A feed that is in its window, not latched and cooled down starts its insertion delay. -/
theorem feed_qualify_delay (hl : (feed s f).tr.latched = false) (hw : (feed s f).inWindow = true) (hc : (feed s f).tr.coolMs = 0) :
    feed (qualify s f) f = { feed s f with
      state := .delay, delayDone := false, delayMs := BitVec.ofNat 11 (regFld s (ro (pgFEED f) 0x48) 0 11) } := by
  rw [feed_qualify, hl, hw, hc]
  rfl

theorem feed_qualify_qualify (hl : (feed s f).tr.latched = false) (hw : (feed s f).inWindow = false) :
    feed (qualify s f) f = { feed s f with state := .qualify } := by
  rw [feed_qualify, hl, hw]
  rfl

theorem feed_afterTrip_counted {k : TripKind} (h : k = .fastTrip ∨ k = .timedLimit ∨ k = .shortAtStart ∨ k = .gateFail) :
    feed (afterTrip s f k) f = { feed s f with state := if (feed s f).tr.latched then .latched else .cooldown } := by
  rcases h with rfl | rfl | rfl | rfl <;> exact feed_setFeed_self ..

/-- What a trip of kind `k` makes of a feed before it moves on (R41, R46 to R48). -/
def tripped (s : State) (f : Feed) (k : TripKind) : FeedSt :=
  { gateOff { feed s f with lastKind := BitVec.ofNat 4 k.code } .qualify with
    tr := tripRecord (feed s f).tr k,
    tickTrip := some { tick := s.droneF, kind := BitVec.ofNat 4 k.code, rec0 := (feed s f).tr, from0 := (feed s f).state,
                       timer := (feed s f).startTimer, sticky := getReg s (ro (pgFEED f) 0x1C) } }

theorem feed_tripNotes (k : TripKind) (d : Word) :
    feed (tripNotes s f k d) f = { feed s f with lastKind := BitVec.ofNat 4 k.code } := by
  unfold tripNotes
  dsimp only
  rw [feed_recordTrip]
  split
  · rw [feed_post, feed_setFeed_self]
  · rw [feed_setFeed_self]

theorem tripFresh_eq (k : TripKind) (d : Word) :
    ∃ u, feed u f = tripped s f k ∧ tripFresh s f k d = afterTrip u f k := by
  refine ⟨_, ?_, rfl⟩
  split
  · rw [feed_post, feed_setFeed_self, feed_tripNotes]
    rfl
  · rw [feed_setFeed_self, feed_tripNotes]
    rfl

/-- A trip of a driven feed is the first of its drone tick. -/
theorem tripFeed_of_driven (k : TripKind) (d : Word) (h : (feed s f).state.driven = true) :
    tripFeed s f k d = tripFresh s f k d := by
  unfold tripFeed tripOfTick
  rw [if_pos h]

/-- A trip of a driven feed: it is tripped, and moves on as its kind says. -/
theorem tripFeed_eq (k : TripKind) (d : Word) (h : (feed s f).state.driven = true) :
    ∃ u, feed u f = tripped s f k ∧ tripFeed s f k d = afterTrip u f k := by
  rw [tripFeed_of_driven s f k d h]
  exact tripFresh_eq s f k d

theorem feed_tripFeed_counted {k : TripKind} (d : Word) (h : (feed s f).state.driven = true)
    (hk : k = .fastTrip ∨ k = .timedLimit ∨ k = .shortAtStart ∨ k = .gateFail) :
    feed (tripFeed s f k d) f =
      { tripped s f k with state := if (tripRecord (feed s f).tr k).latched then .latched else .cooldown } := by
  obtain ⟨u, hu, e⟩ := tripFeed_eq s f k d h
  rw [e, feed_afterTrip_counted u f hk, hu]
  rfl

/-- A trip that is settled: its kind is shown, the gate is off, and the feed is latched or cools down. -/
theorem settled_trip {old : State} {k : TripKind} (d : Word) (h : (feed s f).state.driven = true)
    (hk : k = .fastTrip ∨ k = .timedLimit ∨ k = .shortAtStart ∨ k = .gateFail) :
    let g := feed (settleFeeds old (tripFeed s f k d)) f
    g.lastKind = BitVec.ofNat 4 k.code ∧ g.gateEnh = false ∧ g.tr = tripRecord (feed s f).tr k ∧
      g.state = if g.tr.latched then .latched else .cooldown := by
  have e := feed_tripFeed_counted s f d h hk
  have hd : (feed (tripFeed s f k d) f).state ≠ .delay := by rw [e]; dsimp only; split <;> exact fun c => nomatch c
  dsimp only
  rw [settleFeeds_feed _ old f hd, e, calmFeed_lastKind, calmFeed_gateEnh, calmFeed_tr, calmFeed_state]
  exact ⟨rfl, rfl, rfl, rfl⟩

end Sys2Proof.Machine
end

