-- ==== Sys2Proof/Proofs/FeedSupply.lean ====
section
/-! O8 to O11. The feeds: supply and presence, window and delay, start and trips, and the control registers. -/

namespace Sys2Proof.Machine

variable (s : State) (f : Feed)

/-! ### What a qualification and an entry leave -/

theorem qualify_eq : ∃ g, qualify s f = setFeed s f g ∧ g.pres = (feed s f).pres ∧ g.tr = (feed s f).tr ∧
    g.inWindow = (feed s f).inWindow ∧ g.off = (feed s f).off ∧ g.lastKind = (feed s f).lastKind ∧ g.gateEnh = (feed s f).gateEnh := by
  unfold qualify
  dsimp only
  split
  · exact ⟨_, rfl, rfl, rfl, rfl, rfl, rfl, rfl⟩
  · split
    · exact ⟨_, rfl, rfl, rfl, rfl, rfl, rfl, rfl⟩
    · split
      · exact ⟨_, rfl, rfl, rfl, rfl, rfl, rfl, rfl⟩
      · exact ⟨_, rfl, rfl, rfl, rfl, rfl, rfl, rfl⟩

@[simp] theorem qualify_regs : (qualify s f).regs = s.regs := by
  obtain ⟨g, e, _⟩ := qualify_eq s f
  rw [e, setFeed_regs]

@[simp] theorem qualify_fd : (qualify s f).fd = s.fd := by
  obtain ⟨g, e, _⟩ := qualify_eq s f
  rw [e, setFeed_fd]

@[simp] theorem enterPresent_regs : (enterPresent s f).regs = s.regs := by
  unfold enterPresent
  dsimp only
  split
  · split
    · exact setFeed_regs ..
    · exact qualify_regs ..
  · rfl

@[simp] theorem enterPresent_fd : (enterPresent s f).fd = s.fd := by
  unfold enterPresent
  dsimp only
  split
  · split
    · exact setFeed_fd ..
    · exact qualify_fd ..
  · rfl

@[simp] theorem enterPresent_pres : (feed (enterPresent s f) f).pres = (feed s f).pres := by
  unfold enterPresent
  dsimp only
  split
  · split
    · rw [feed_setFeed_self]
    · obtain ⟨g, e, hp, _⟩ := qualify_eq s f
      rw [e, feed_setFeed_self, hp]
  · rfl

/-! ### Presence -/

/-- A removed feed ends in 0 ABSENT before what settles. -/
theorem afterTrip_extract : feed (afterTrip s f .extract) f = { feed s f with state := .absent } := feed_setFeed_self ..

theorem tripFresh_extract (d : Word) :
    (feed (tripFresh s f .extract d) f).state = .absent ∧ (feed (tripFresh s f .extract d) f).pres = (feed s f).pres := by
  obtain ⟨u, hu, e⟩ := tripFresh_eq s f .extract d
  rw [e, afterTrip_extract, hu]
  exact ⟨rfl, rfl⟩

theorem feed_of_keeps {s t : State} {may : Moves} (h : Keeps may s t) (hf : may.feeds = false) (f : Feed) : feed t f = feed s f := by
  obtain ⟨ha, hb⟩ := h.feeds hf
  cases f
  · exact ha
  · exact hb

@[simp] theorem feed_withdraw (page src : Nat) (w : Word) (g : Feed) : feed (withdraw s page src w) g = feed s g :=
  feed_of_keeps (withdraw_keeps (may := {}) Keeps.rfl) rfl g

@[simp] theorem feed_recordInstead (t : TickTrip) (k : TripKind) (g : Feed) : feed (recordInstead s f t k) g = feed s g :=
  feed_of_keeps (recordInstead_keeps (may := {}) Keeps.rfl) rfl g

theorem afterTrip_pres (k : TripKind) : (feed (afterTrip s f k) f).pres = (feed s f).pres := by
  obtain ⟨g, e, hp, _⟩ := qualify_eq s f
  have hq : (feed (qualify s f) f).pres = (feed s f).pres := by rw [e, feed_setFeed_self, hp]
  cases k
  case uv => exact hq
  case ov => exact hq
  all_goals exact (congrArg FeedSt.pres (feed_setFeed_self ..)).trans rfl

theorem tripInstead_pres (t : TickTrip) (k : TripKind) (d : Word) :
    (feed (tripInstead s f t k d) f).pres = (feed s f).pres := by
  unfold tripInstead
  extract_lets latchedBy s1 s2 _ s3 s4 s5 s6
  have h1 : feed s1 f = feed s f := foldl_part (π := fun u => feed u f) s (fun u x => feed_withdraw u _ _ _ f) _
  have h2 : feed s2 f = feed s1 f := by
    unfold s2
    split
    · split
      · exact feed_withdraw ..
      · rfl
    · rfl
  have h3 : (feed s3 f).pres = (feed s2 f).pres := by unfold s3; rw [feed_setFeed_self]
  have h4 : feed s4 f = feed s3 f := by
    unfold s4
    split
    · exact feed_post ..
    · rfl
  have h5 : feed s5 f = feed s4 f := feed_recordInstead ..
  have h6 : feed s6 f = feed s5 f := by
    unfold s6
    split
    · exact feed_post ..
    · rfl
  have hp : (feed s6 f).pres = (feed s f).pres := by rw [h6, h5, h4, h3, h2, h1]
  split
  · exact hp
  · rw [afterTrip_pres]; exact hp

/-- A removal ends in 0 ABSENT, whatever tripped in its drone tick. -/
theorem tripFeed_extract (d : Word) :
    (feed (tripFeed s f .extract d) f).state = .absent ∧ (feed (tripFeed s f .extract d) f).pres = (feed s f).pres := by
  unfold tripFeed
  split
  · exact tripFresh_extract s f d
  · rename_i t _
    split
    · rw [if_pos (.inl rfl), afterTrip_extract]
      exact ⟨rfl, tripInstead_pres s f t .extract d⟩
    · rw [if_pos (.inl rfl), afterTrip_extract]
      exact ⟨rfl, rfl⟩

theorem feed_presOff : (feed (presOff s f) f).pres = false ∧ (feed (presOff s f) f).state = .absent := by
  unfold presOff
  extract_lets _ s1 g _ _ s2
  have h1 : (feed s1 f).pres = false := by unfold s1; rw [feed_setFeed_self]
  have h2 : (feed s2 f).state = .absent ∧ (feed s2 f).pres = false := by
    unfold s2
    split
    · rename_i e
      exact ⟨e, h1⟩
    · rw [feed_setFeed_self]
      exact ⟨rfl, h1⟩
    · split
      · rw [feed_setFeed_self]
        exact ⟨rfl, h1⟩
      · rw [feed_setFeed_self]
        exact ⟨rfl, (congrArg FeedSt.pres (feed_tripNotes s1 f .extract _)).trans h1⟩
    · obtain ⟨ha, hp⟩ := tripFeed_extract s1 f (BitVec.ofNat 32 g.state.code)
      exact ⟨ha, hp.trans h1⟩
  obtain ⟨ha, hp⟩ := h2
  rw [settleFeeds_feed s2 s f (by rw [ha]; exact fun c => nomatch c), calmFeed_pres, calmFeed_state]
  exact ⟨hp, ha⟩

theorem feed_presOn : (feed (presOn s f) f).pres = true ∧
    ((feed s f).state = .absent → s.fd.armed = true → (feed s f).off = true → (feed (presOn s f) f).state = .heldOff) := by
  unfold presOn
  refine ⟨?_, fun ha hr ho => ?_⟩
  · obtain ⟨hp, _⟩ := settleFeeds_inputs (enterPresent (setFeed s f { feed s f with pres := true }) f) f s
    rw [hp, enterPresent_pres, feed_setFeed_self]
  · have e : feed (enterPresent (setFeed s f { feed s f with pres := true }) f) f =
        { feed s f with pres := true, state := .heldOff } := by
      unfold enterPresent
      rw [feed_setFeed_self]
      dsimp only
      rw [if_pos ⟨rfl, ha, by rw [setFeed_fd]; exact hr⟩, if_pos ho, feed_setFeed_self]
    rw [settleFeeds_feed _ s f (by rw [e]; exact fun c => nomatch c), e, calmFeed_state]

/-! ### Supply -/

theorem feedSupply_fresh (kept : Bool) (h : s.fd.supply = false) : let t := feedSupply s f kept
    t.fd.supply = true ∧ t.fd.recValid = kept ∧ t.fd.vHold = 1200 ∧
      (kept = true → t.feedA.tr = s.feedA.tr ∧ t.feedB.tr = s.feedB.tr) ∧
      (kept = false → t.feedA.tr = {} ∧ t.feedB.tr = {}) := by
  unfold feedSupply
  rw [h]
  dsimp only
  cases kept
  · rw [if_neg (by decide), if_neg (by decide), postFree_feedA, postFree_feedB]
    have e := postFree_unheld { s with
      fd := { (match f with
        | .a => { s.fd with liveA := true, vHold := 1200 }
        | .b => { s.fd with liveB := true, vHold := 1200 } : FeedDie) with supply := true, recValid := false }
      feedA := { s.feedA with tr := {} }, feedB := { s.feedB with tr := {} } } pgTRIP 2 0
    refine ⟨(congrArg FeedDie.supply e).trans rfl, (congrArg FeedDie.recValid e).trans rfl,
      (congrArg FeedDie.vHold e).trans ?_, fun c => absurd c Bool.false_ne_true, fun _ => ⟨rfl, rfl⟩⟩
    cases f <;> rfl
  · rw [if_neg (by decide), if_pos rfl]
    exact ⟨rfl, rfl, by cases f <;> rfl, fun _ => ⟨rfl, rfl⟩, fun c => absurd c.symm Bool.false_ne_true⟩

theorem otpLoaded_profile (p : BitVec 8) (ok : Bool) (h : s.fd.supply = true) :
    (otpLoaded s p ok).fd.armed = true ∧ regFld (otpLoaded s p ok) (ro pgFSYS 0x44) 0 8 = p.toNat := by
  unfold otpLoaded
  rw [h]
  extract_lets s1 _ s2 s3
  have hr : getReg s3 (ro pgFSYS 0x44) = pack [(0, 8, p.toNat), (8, 1, b2n ok), (9, 1, b2n (!ok))] ∧ s3.fd.armed = true := by
    unfold s3
    split
    · exact ⟨(getReg_of_regs rfl _).trans (getReg_setReg_self ..), rfl⟩
    · refine ⟨(getReg_postFree s2 (by decide) pgFSYS 0 0).trans ((getReg_of_regs rfl _).trans (getReg_setReg_self ..)), ?_⟩
      exact (congrArg FeedDie.armed (postFree_unheld s2 pgFSYS 0 0)).trans rfl
  obtain ⟨hw, ha⟩ := hr
  rw [if_neg (by decide)]
  constructor
  · obtain ⟨d, e, _, hd⟩ := settleFeeds_fd (enterPresent (enterPresent s3 .a) .b) s
    rw [e, hd, enterPresent_fd, enterPresent_fd]
    exact ha
  · unfold regFld
    rw [getReg_settleFeeds_of_ne _ _ (by decide) (by decide) (by decide), getReg_of_regs (enterPresent_regs _ _),
      getReg_of_regs (enterPresent_regs _ _), hw]
    unfold pack
    simp only [List.foldl_cons, List.foldl_nil]
    rw [fld_put_below _ _ _ _ _ _ (by decide), fld_put_below _ _ _ _ _ _ (by decide), fld_put_self _ _ _ _ (by decide)]
    exact Nat.mod_eq_of_lt p.isLt

theorem holdLow_hold (v : BitVec 12) (h : s.fd.supply = true) (hv : v.toNat < 800) : (holdLow s v).fd.vHold = v := by
  unfold holdLow
  rw [if_neg (by rw [h]; simp [hv])]
  exact (congrArg FeedDie.vHold (postFree_unheld _ pgTRIP 1 0)).trans rfl

theorem supplyLost_eq (h : (match f with | .a => s.fd.liveB | .b => s.fd.liveA) = false) : ∃ (d : FeedDie) (b : Boot),
    supplyLost s f = settleFeeds s { s with
      feedA := unpowered s.feedA, feedB := unpowered s.feedB, fd := { d with supply := false, armed := false }, boot := b } := by
  unfold supplyLost
  cases f
  · exact ⟨_, _, if_neg (by simpa using h)⟩
  · exact ⟨_, _, if_neg (by simpa using h)⟩

/-- With the last live feed gone the die is off: nothing settles but the two feeds, which stand in 0 ABSENT. -/
theorem supplyLost_last (h : (match f with | .a => s.fd.liveB | .b => s.fd.liveA) = false) : let t := supplyLost s f
    t.fd.supply = false ∧ t.fd.armed = false ∧ t.feedA.tr = s.feedA.tr ∧ t.feedB.tr = s.feedB.tr ∧
      t.feedA.state = .absent ∧ t.feedB.state = .absent ∧ t.feedA.gateEnh = false ∧ t.feedB.gateEnh = false := by
  obtain ⟨d, b, e⟩ := supplyLost_eq s f h
  generalize hu : ({ s with
    feedA := unpowered s.feedA, feedB := unpowered s.feedB, fd := { d with supply := false, armed := false }, boot := b } : State) = u at e
  have ha : u.feedA = unpowered s.feedA := by rw [← hu]
  have hb : u.feedB = unpowered s.feedB := by rw [← hu]
  have hd : u.fd.supply = false ∧ u.fd.armed = false := by rw [← hu]; exact ⟨rfl, rfl⟩
  have ea : (settleFeeds s u).feedA = calmFeed (unpowered s.feedA) := by
    rw [← ha]
    exact settleFeeds_feed u s .a (by rw [show feed u .a = u.feedA from rfl, ha]; exact fun c => nomatch c)
  have eb : (settleFeeds s u).feedB = calmFeed (unpowered s.feedB) := by
    rw [← hb]
    exact settleFeeds_feed u s .b (by rw [show feed u .b = u.feedB from rfl, hb]; exact fun c => nomatch c)
  obtain ⟨x, he, hs, har⟩ := settleFeeds_fd u s
  dsimp only
  rw [e, ea, eb, he]
  simp only [calmFeed_tr, calmFeed_state, calmFeed_gateEnh]
  exact ⟨hs.trans hd.1, har.trans hd.2, rfl, rfl, rfl, rfl, rfl, rfl⟩

/-- Settles O8, clause by clause: a removal ends in 0 ABSENT by every path of a trip, and settling moves only feeds that are on or
in 3 DELAY. -/
theorem feedSupplyAndPresence : Obligations.FeedSupplyAndPresence := by
  unfold Obligations.FeedSupplyAndPresence
  intro s f
  refine ⟨fun kept h => ⟨_, rfl, feedSupply_fresh s f kept h⟩, fun p ok h => ⟨_, rfl, otpLoaded_profile s p ok h⟩,
    fun v h hv => ⟨_, rfl, holdLow_hold s v h hv⟩, ⟨_, rfl, feed_presOn s f⟩, ⟨_, rfl, feed_presOff s f⟩,
    fun h => ⟨_, rfl, supplyLost_last s f h⟩⟩

end Sys2Proof.Machine
end

