-- ==== Sys2Proof/Proofs/FeedWindow.lean ====
section
/-! O9. The window of a feed, its cool-down and its insertion delay (R43, R46, R50, R608). -/

namespace Sys2Proof.Machine

variable (s : State) (f : Feed)

theorem measV_shows (v : BitVec 16) : regFld (measV s f v) (ro (pgFEED f) 0x60) 16 16 = v.toNat :=
  (regFld_putReg_self s _ 16 16 _ (by decide)).trans (Nat.mod_eq_of_lt v.isLt)

theorem feed_window_measV (v : BitVec 16) (b : Bool) :
    feed (setFeed (measV s f v) f { feed (measV s f v) f with inWindow := b }) f = { feed s f with inWindow := b } := by
  rw [feed_setFeed_self, feed_measV]

theorem qualify_delayDone (hl : (feed s f).tr.latched = false) (hw : (feed s f).inWindow = true) (hc : (feed s f).tr.coolMs = 0)
    (old : State) : (feed (settleFeeds old (qualify s f)) f).state = .delay ∧ (feed (settleFeeds old (qualify s f)) f).tr = (feed s f).tr := by
  have e := feed_qualify_delay s f hl hw hc
  rw [settleFeeds_feed_running _ old f (by rw [e]), e, calmFeed_state, calmFeed_tr]
  exact ⟨rfl, rfl⟩

theorem windowIn_enters (v : BitVec 16) (hlo : 4000 ≤ v.toNat) (hhi : v.toNat ≤ 6400) :
    (feed (windowIn s f v) f).inWindow = true ∧ regFld (windowIn s f v) (ro (pgFEED f) 0x60) 16 16 = v.toNat ∧
      ((feed s f).state = .qualify → (feed s f).tr.latched = false → (feed s f).tr.coolMs = 0 →
        (feed (windowIn s f v) f).state = .delay) := by
  unfold windowIn
  rw [if_neg (by omega)]
  extract_lets s1 _ s2
  have e2 : feed s2 f = { feed s f with inWindow := true } := feed_window_measV s f v true
  have hr : s2.regs = (measV s f v).regs := setFeed_regs ..
  by_cases hq : (feed s2 f).state = .qualify
  · rw [if_pos hq]
    obtain ⟨g, eg, _, _, hw, _⟩ := qualify_eq s2 f
    have hsame := settleFeeds_inputs (qualify s2 f) f s
    refine ⟨hsame.2.1.trans ?_, ?_, fun _ hl hc => ?_⟩
    · rw [eg, feed_setFeed_self, hw, e2]
    · rw [settleFeeds_voltage, regFld_of_getReg (getReg_of_regs ((qualify_regs s2 f).trans hr) _), measV_shows]
    · exact (qualify_delayDone s2 f (by rw [e2]; exact hl) (by rw [e2]) (by rw [e2]; exact hc) s).1
  · rw [if_neg hq]
    have hsame := settleFeeds_inputs s2 f s
    refine ⟨hsame.2.1.trans (by rw [e2]), ?_, fun c => absurd (by rw [e2]; exact c) hq⟩
    rw [settleFeeds_voltage, regFld_of_getReg (getReg_of_regs hr _), measV_shows]

/-- A feed that leaves its window returns to 1 QUALIFY where it was on its way to conduct. -/
theorem windowOut_leaves (h : (feed s f).state.isOn = false) : let g := feed (windowOut s f) f
    g.inWindow = false ∧ (g.state = .delay → False) ∧
      ((feed s f).state ∈ [FeedState.cooldown, .delay, .blocked] → g.state = .qualify) := by
  unfold windowOut
  dsimp only
  rw [h, if_neg Bool.false_ne_true, feed_setFeed_self]
  cases e : (feed s f).state <;> simp

theorem windowLeave_leaves (old : State) (h : (feed s f).state.isOn = false) : let g := feed (settleFeeds old (windowOut s f)) f
    g.inWindow = false ∧ ((feed s f).state ∈ [FeedState.cooldown, .delay, .blocked] → g.state = .qualify) := by
  obtain ⟨hw, hd, hq⟩ := windowOut_leaves s f h
  dsimp only
  rw [settleFeeds_feed _ old f hd, calmFeed_inWindow, calmFeed_state]
  exact ⟨hw, hq⟩

/-- A trip without a cool-down leaves the latch as it was. -/
theorem tripRecord_latched {k : TripKind} (r : TripRec) (h : k = .uv ∨ k = .ov) : (tripRecord r k).latched = r.latched := by
  rcases h with rfl | rfl <;> rfl

/-- A feed outside its window that UV or OV trips goes to 1 QUALIFY unless it is latched. -/
theorem settled_windowTrip {old : State} {k : TripKind} (d : Word) (h : (feed s f).state.driven = true) (hk : k = .uv ∨ k = .ov)
    (hw : (feed s f).inWindow = false) (hl : (feed s f).tr.latched = false) :
    let g := feed (settleFeeds old (tripFeed s f k d)) f
    g.state = .qualify ∧ g.lastKind = BitVec.ofNat 4 k.code ∧ g.gateEnh = false := by
  obtain ⟨u, hu, e⟩ := tripFeed_eq s f k d h
  have ea : afterTrip u f k = qualify u f := by rcases hk with rfl | rfl <;> rfl
  have eq : feed (qualify u f) f = { feed u f with state := .qualify } :=
    feed_qualify_qualify u f (by rw [hu]; exact (tripRecord_latched _ hk).trans hl) (by rw [hu]; exact hw)
  dsimp only
  rw [e, ea, settleFeeds_feed _ old f (by rw [eq]; exact fun c => nomatch c), eq, hu,
    calmFeed_state, calmFeed_lastKind, calmFeed_gateEnh]
  exact ⟨rfl, rfl, rfl⟩

/-- A driven feed has no other trip in its drone tick. -/
theorem tickState_of_driven (h : (feed s f).state.driven = true) : tickState s f = (feed s f).state := by
  unfold tickState tripOfTick
  rw [if_pos h]

theorem uvTripFx_trips (v : BitVec 16) (hv : v.toNat < 3800) (ho : (feed s f).state.isOn = true) (hl : (feed s f).tr.latched = false) :
    let g := feed (uvTripFx s f v) f
    g.state = .qualify ∧ g.lastKind = 1 ∧ g.gateEnh = false := by
  unfold uvTripFx
  rw [tickState_of_driven s f (driven_of_isOn ho), ho, if_neg (by simpa using hv)]
  exact settled_windowTrip _ f _ (by simpa using driven_of_isOn ho) (.inl rfl) (by simp) (by simpa using hl)

theorem ovTripFx_trips (v : BitVec 16) (hv : 6600 < v.toNat) (ho : (feed s f).state.driven = true) (hl : (feed s f).tr.latched = false) :
    let g := feed (ovTripFx s f v) f
    g.state = .qualify ∧ g.lastKind = 2 ∧ g.gateEnh = false := by
  unfold ovTripFx
  rw [if_neg (by omega), tickState_of_driven s f ho]
  dsimp only
  rw [if_pos ho]
  exact settled_windowTrip _ f _ (by simpa using ho) (.inr rfl) (by simp) (by simpa using hl)

theorem coolDone_delays (hp : s.fd.supply = true) (hc : (feed s f).state = .cooldown) (hw : (feed s f).inWindow = true)
    (hl : (feed s f).tr.latched = false) : (feed (coolDone s f) f).state = .delay ∧ (feed (coolDone s f) f).tr.coolMs = 0 := by
  unfold coolDone
  rw [if_neg (by simp [hp])]
  dsimp only
  rw [if_pos hc]
  obtain ⟨hd, ht⟩ := qualify_delayDone (setFeed s f { feed s f with tr := { (feed s f).tr with coolMs := 0 } }) f
    (by rw [feed_setFeed_self]; exact hl) (by rw [feed_setFeed_self]; exact hw) (by rw [feed_setFeed_self]) s
  exact ⟨hd, by rw [ht, feed_setFeed_self]⟩

/-! ### The insertion delay -/

/-- The end of the insertion delay drives the gate: at once within 0.5 V, otherwise by a ramp. -/
theorem feed_leaveDelay : feed (leaveDelay s f) f =
    if (feed s f).flat then { feed s f with state := .enhance, delayDone := false, startTimer := false, dwellAt := s.droneF }
    else { feed s f with state := .ramp, delayDone := false, startTimer := true, rampTick := s.droneF,
                         plimW := BitVec.ofNat 8 (regFld s (ro (pgFEED f) 0x4C) 0 8) } := by
  unfold leaveDelay
  dsimp only
  split <;> exact feed_setFeed_self ..

theorem delayExpired_eq (vf vs : BitVec 16) (o : Bool) (hd : (feed s f).state = .delay) (ha : s.fd.armed = true)
    (hc : charging s (other f) = false) (hb : ¬ (f = .b ∧ o = true ∧ s.feedA.state = .delay)) :
    delayExpired s f vf vs o =
      settleFeeds s (leaveDelay (setFeed s f { feed s f with delayDone := true, flat := decide (vf.toNat ≤ vs.toNat + 50) }) f) := by
  unfold delayExpired
  rw [if_neg (by simp [hd, ha])]
  dsimp only
  rw [if_neg (by rw [hc]; exact fun c => c.elim (fun c => nomatch c) hb)]

theorem delayExpired_goes (vf vs : BitVec 16) (o : Bool) (hd : (feed s f).state = .delay) (ha : s.fd.armed = true)
    (hc : charging s (other f) = false) (hb : ¬ (f = .b ∧ o = true ∧ s.feedA.state = .delay)) :
    let t := delayExpired s f vf vs o
    (vf.toNat ≤ vs.toNat + 50 → (feed t f).state = .enhance) ∧
      (vs.toNat + 50 < vf.toNat → (feed t f).state = .ramp ∧ (feed t f).startTimer = true ∧
        (feed t f).plimW = BitVec.ofNat 8 (regFld s (ro (pgFEED f) 0x4C) 0 8)) := by
  rw [delayExpired_eq s f vf vs o hd ha hc hb]
  generalize hs : setFeed s f { feed s f with delayDone := true, flat := decide (vf.toNat ≤ vs.toNat + 50) } = s1
  have hr : s1.regs = s.regs := by rw [← hs, setFeed_regs]
  have h1 : feed s1 f = { feed s f with delayDone := true, flat := decide (vf.toNat ≤ vs.toNat + 50) } := by
    rw [← hs, feed_setFeed_self]
  have e := feed_leaveDelay s1 f
  have hn : (feed (leaveDelay s1 f) f).state ≠ .delay := by
    rw [e]
    split <;> exact fun c => nomatch c
  dsimp only
  rw [settleFeeds_feed _ s f hn, calmFeed_state, calmFeed_startTimer, calmFeed_plimW, e, h1]
  refine ⟨fun hv => ?_, fun hv => ?_⟩
  · rw [if_pos (decide_eq_true hv)]
  · rw [if_neg (by simpa using hv)]
    exact ⟨rfl, rfl, by rw [regFld_of_getReg (getReg_of_regs hr _)]⟩

theorem delayExpired_holds (vf vs : BitVec 16) (o : Bool) (hd : (feed s f).state = .delay) (ha : s.fd.armed = true)
    (hc : charging s (other f) = true) :
    feed (delayExpired s f vf vs o) f = { feed s f with delayDone := true, flat := decide (vf.toNat ≤ vs.toNat + 50) } := by
  unfold delayExpired
  rw [if_neg (by simp [hd, ha])]
  dsimp only
  rw [if_pos (.inl hc), feed_setFeed_self]

theorem execInsertionDelayExpired_yields (vf vs : BitVec 16) (o : Bool) : ∃ t,
    exec (.insertionDelayExpired f vf vs o) s = .next t ∧ feed t f = feed (delayExpired s f vf vs o) f := by
  refine ⟨_, rfl, ?_⟩
  dsimp only
  split
  · cases f <;> rfl
  · rfl

/-- Settles O9: a qualification that succeeds starts the delay, a trip outside the window ends in 1 QUALIFY, and the end of the delay
drives the gate unless the other feed charges the bulk. -/
theorem feedWindowAndDelay : Obligations.FeedWindowAndDelay := by
  unfold Obligations.FeedWindowAndDelay
  intro s f
  refine ⟨fun v hlo hhi => ⟨_, rfl, windowIn_enters s f v hlo hhi⟩, fun v hv ho => ⟨settleFeeds s (windowOut (measV s f v) f), congrArg Host.Outcome.next (if_pos hv), ?_⟩,
    fun v hv ho hl => ⟨_, rfl, uvTripFx_trips s f v hv ho hl⟩, fun v hv ho hl => ⟨_, rfl, ovTripFx_trips s f v hv ho hl⟩,
    fun hp hc hw hl => ⟨_, rfl, coolDone_delays s f hp hc hw hl⟩, fun vf vs o hd ha => ⟨fun hc hb => ?_, fun hc => ?_⟩⟩
  · simpa using windowLeave_leaves (measV s f v) f s (by simpa using ho)
  · obtain ⟨t, ht, e⟩ := execInsertionDelayExpired_yields s f vf vs o
    refine ⟨t, ht, ?_⟩
    dsimp only
    rw [e]
    exact delayExpired_goes s f vf vs o hd ha hc hb
  · obtain ⟨t, ht, e⟩ := execInsertionDelayExpired_yields s f vf vs o
    refine ⟨t, ht, ?_⟩
    dsimp only
    rw [e, delayExpired_holds s f vf vs o hd ha hc]
    exact ⟨hd, rfl⟩

end Sys2Proof.Machine
end

