-- ==== Sys2Proof/Proofs/FeedTrips.lean ====
section
/-! O10 and O11. Start, trips and reverse current of a feed (R40, R45 to R48, R609), and FD_CTRL with the settings (R50, R73 to R76). -/

namespace Sys2Proof.Machine

variable (s : State) (f : Feed)

/-! ### Start and trips -/

/-- A move to a state other than 3 DELAY stays in force when the feeds settle. -/
theorem feed_settle_setFeed (old : State) (g : FeedSt) (h : g.state ≠ .delay) :
    feed (settleFeeds old (setFeed s f g)) f = calmFeed g := by
  rw [settleFeeds_feed _ old f (by rw [feed_setFeed_self]; exact h), feed_setFeed_self]

theorem feed_settle_feed {old u : State} {g : FeedSt} (e : feed u f = g) (h : g.state ≠ .delay) :
    feed (settleFeeds old u) f = calmFeed g := by
  subst e
  exact settleFeeds_feed u old f h

theorem startExpired_trips (v : BitVec 16) (hc : charging s f = true) (ht : (feed s f).startTimer = true) :
    let g := feed (startExpired s f v) f
    g.lastKind = 5 ∧ g.gateEnh = false ∧ g.state = if g.tr.latched then .latched else .cooldown := by
  unfold startExpired
  dsimp only
  rw [if_pos (by rw [hc, ht]; rfl)]
  obtain ⟨hk, hg, _, hs⟩ := settled_trip s f (old := s) (k := .shortAtStart) (BitVec.ofNat 32 v.toNat) (driven_of_charging s f hc)
    (.inr (.inr (.inl rfl)))
  exact ⟨hk, hg, hs⟩

/-- GATE_FAIL latches at once (R47). -/
theorem tripRecord_gateFail (r : TripRec) : (tripRecord r .gateFail).latched = true := rfl

theorem gateCheckFx_latches (v : BitVec 16) (hc : charging s f = true) : let g := feed (gateCheckFx s f v) f
    g.lastKind = 6 ∧ g.state = .latched ∧ g.tr.latched = true := by
  have hd := driven_of_charging s f hc
  have hs : (feed s f).state = .ramp ∨ (feed s f).state = .enhance := by simpa [charging] using hc
  unfold gateCheckFx
  rw [tickState_of_driven s f hd, if_pos hs]
  obtain ⟨hk, _, ht, hst⟩ := settled_trip s f (old := s) (k := .gateFail) (v.signExtend 32) hd (.inr (.inr (.inr rfl)))
  rw [ht, tripRecord_gateFail] at hst
  exact ⟨hk, hst, by rw [ht, tripRecord_gateFail]⟩

theorem vdsEnhanceFx_enhances (hs : (feed s f).state = .ramp) (ha : s.fd.armed = true) :
    (feed (vdsEnhanceFx s f) f).state = .enhance := by
  unfold vdsEnhanceFx
  rw [if_pos ⟨hs, ha⟩, feed_settle_setFeed _ _ _ _ (by exact nofun), calmFeed_state]

theorem dwellDone_on (e : BitVec 16) (hs : (feed s f).state = .enhance) (ha : s.fd.armed = true) : let g := feed (dwellDone s f e) f
    g.state = .on ∧ g.gateEnh = true ∧ g.startTimer = false := by
  unfold dwellDone
  dsimp only
  rw [if_neg (by simp [hs, ha]), feed_settle_setFeed _ _ _ _ (by exact nofun),
    calmFeed_state, calmFeed_gateEnh, calmFeed_startTimer]
  exact ⟨rfl, rfl, rfl⟩

theorem dwellRestart_restarts (hs : (feed s f).state = .enhance) : let g := feed (dwellRestart s f) f
    g.state = .enhance ∧ g.gateEnh = false ∧ g.dwellAt = s.droneF := by
  unfold dwellRestart
  rw [if_pos hs, feed_setFeed_self]
  exact ⟨hs, rfl, rfl⟩

theorem measI_shows (i : BitVec 16) : regFld (measI s f i) (ro (pgFEED f) 0x60) 0 16 = i.toNat :=
  (regFld_putReg_self s _ 0 16 _ (by decide)).trans (Nat.mod_eq_of_lt i.isLt)

theorem limit_enters (old : State) (i : BitVec 16) :
    let t := settleFeeds old (setFeed (measI s f i) f { feed (measI s f i) f with state := .limit, limitTimer := true })
    (feed t f).state = .limit ∧ (feed t f).limitTimer = true ∧ regFld t (ro (pgFEED f) 0x60) 0 16 = i.toNat := by
  dsimp only
  rw [feed_settle_setFeed _ _ _ _ (by exact nofun), calmFeed_of_on _ rfl,
    regFld_of_getReg (settleFeeds_current _ f old (by rw [feed_setFeed_self]; rfl)),
    regFld_of_getReg (getReg_of_regs (setFeed_regs ..) _), measI_shows]
  exact ⟨rfl, rfl, rfl⟩

theorem limit_leaves (old : State) (i : BitVec 16) :
    let t := settleFeeds old (setFeed (measI s f i) f { feed (measI s f i) f with state := .on, limitTimer := false })
    (feed t f).state = .on ∧ (feed t f).limitTimer = false := by
  dsimp only
  rw [feed_settle_setFeed _ _ _ _ (by exact nofun), calmFeed_of_on _ rfl]
  exact ⟨rfl, rfl⟩

theorem timedLimit_trips (old : State) (i : BitVec 16) (hs : (feed s f).state = .limit) :
    let g := feed (settleFeeds old (tripFeed (measI s f i) f .timedLimit (i.signExtend 32))) f
    g.lastKind = 4 ∧ g.gateEnh = false ∧ g.state = if g.tr.latched then .latched else .cooldown := by
  obtain ⟨hk, hg, _, hst⟩ := settled_trip (measI s f i) f (old := old) (k := .timedLimit) (i.signExtend 32)
    (by rw [feed_measI, hs]; rfl) (.inr (.inl rfl))
  exact ⟨hk, hg, hst⟩

/-- A counted trip adds one to TRIPS, up to 255 (R47). -/
theorem tripRecord_trips {k : TripKind} (r : TripRec) (hk : k.code ≤ 6) :
    (tripRecord r k).trips.toNat = min (r.trips.toNat + 1) 255 := by
  have hb : (if k.code ≤ 6 ∧ r.trips.toNat < 255 then r.trips + 1 else r.trips).toNat = min (r.trips.toNat + 1) 255 := by
    split
    · rename_i h
      have h1 : (1 : BitVec 8).toNat = 1 := rfl
      rw [BitVec.toNat_add_of_lt (by omega), h1]
      omega
    · have := r.trips.isLt
      omega
  rw [← hb]
  unfold tripRecord
  dsimp only
  split
  · split <;> rfl
  · split <;> rfl
  · split <;> rfl

theorem fastTripFx_trips (i : BitVec 16) (hd : (feed s f).state.driven = true)
    (hi : (((feed s f).itripCmp.toNat * 100 : Nat) : Int) ≤ i.toInt) : let g := feed (fastTripFx s f i) f
    g.lastKind = 3 ∧ g.gateEnh = false ∧ g.tr.trips.toNat = min ((feed s f).tr.trips.toNat + 1) 255 ∧
      g.state = if g.tr.latched then .latched else .cooldown := by
  unfold fastTripFx
  rw [tickState_of_driven s f hd, if_pos ⟨hd, hi⟩]
  obtain ⟨hk, hg, ht, hst⟩ := settled_trip (measI s f i) f (old := s) (k := .fastTrip) (i.signExtend 32)
    (by rw [feed_measI]; exact hd) (.inl rfl)
  exact ⟨hk, hg, by rw [ht, tripRecord_trips _ (by decide), feed_measI], hst⟩

theorem reverseFx_blocks (i : BitVec 16) (hs : (feed s f).state = .on ∨ (feed s f).state = .enhance) (hi : i.toInt ≤ -500) :
    (feed (reverseFx s f i) f).state = .blocked ∧ (feed (reverseFx s f i) f).gateEnh = false := by
  unfold reverseFx
  dsimp only
  rw [if_pos ⟨hs, hi⟩, feed_settle_feed f (g := gateOff (feed s f) .blocked) (by rw [feed_postFree, feed_setFeed_self])
    nofun, calmFeed_state, calmFeed_gateEnh]
  exact ⟨rfl, rfl⟩

theorem blockedBack_on (vf vs : BitVec 16) (hs : (feed s f).state = .blocked) (ha : s.fd.armed = true) (hv : vs.toNat + 5 ≤ vf.toNat) :
    (feed (blockedBack s f vf vs) f).state = .on ∧ (feed (blockedBack s f vf vs) f).gateEnh = true := by
  unfold blockedBack
  rw [if_pos ⟨hs, hv, ha⟩]
  dsimp only
  rw [feed_settle_setFeed _ _ _ _ (by exact nofun), calmFeed_state, calmFeed_gateEnh]
  exact ⟨rfl, rfl⟩

/-- Settles O10: a counted trip of a driven feed is settled as its kind says, and every other move holds when the feeds settle. -/
theorem feedStartAndTrips : Obligations.FeedStartAndTrips := by
  unfold Obligations.FeedStartAndTrips
  intro s f
  refine ⟨fun v hc ht => ⟨_, rfl, startExpired_trips s f v hc ht⟩, fun v hc => ⟨_, rfl, gateCheckFx_latches s f v hc⟩,
    fun hs ha => ⟨_, rfl, vdsEnhanceFx_enhances s f hs ha⟩, fun e hs ha => ⟨_, rfl, dwellDone_on s f e hs ha⟩,
    fun hs => ⟨_, rfl, dwellRestart_restarts s f hs⟩, fun i hs hi => ?_, fun i hs hi => ?_, fun i hs => ?_,
    fun i hd hi => ⟨_, rfl, fastTripFx_trips s f i hd hi⟩, fun i hs hi => ⟨_, rfl, reverseFx_blocks s f i hs hi⟩,
    fun vf vs hs ha hv => ⟨_, rfl, blockedBack_on s f vf vs hs ha hv⟩, fun ho => ?_⟩
  · exact ⟨_, congrArg Host.Outcome.next (if_pos ⟨hs, hi⟩), limit_enters s f s i⟩
  · exact ⟨_, congrArg Host.Outcome.next (if_pos ⟨hs, hi⟩), limit_leaves s f s i⟩
  · have ht : tickState s f = .limit := (tickState_of_driven s f (by rw [hs]; rfl)).trans hs
    exact ⟨_, congrArg Host.Outcome.next (if_pos ht), timedLimit_trips s f s i hs⟩
  · refine ⟨_, congrArg Host.Outcome.next (if_pos ho), ?_⟩
    dsimp only
    rw [feed_setFeed_self]
    exact ⟨rfl, rfl⟩

/-! ### FD_CTRL -/

theorem holdOff_on (h : (feed s f).state = .on) :
    feed (holdOff s f) f = { tripped (setFeed s f { feed s f with off := true }) f .forcedOff with state := .heldOff } := by
  have hs : (feed (setFeed s f { feed s f with off := true }) f).state = .on := by rw [feed_setFeed_self]; exact h
  unfold holdOff
  dsimp only
  rw [hs]
  dsimp only
  obtain ⟨u, hu, e⟩ := tripFeed_eq (setFeed s f { feed s f with off := true }) f .forcedOff 0 (by rw [hs]; rfl)
  rw [e, ← hu]
  exact feed_setFeed_self ..

theorem fdOff_holds (lastOk : Bool) (hp : s.fd.supply = true) (hs : (feed s f).state = .on)
    (ho : (feed s (other f)).state = .on ∨ lastOk = true) : let g := feed (fdCtrl s f true lastOk false) f
    g.state = .heldOff ∧ g.off = true ∧ g.lastKind = 8 := by
  have hr : offRefused s f lastOk = false := by
    unfold offRefused
    rcases ho with h | h <;> simp [h]
  have e : fdCtrl s f true lastOk false = settleFeeds s (holdOff s f) := by
    unfold fdCtrl
    simp [hp, hr]
  have eh := holdOff_on s f hs
  dsimp only
  rw [e, feed_settle_feed f eh nofun, calmFeed_state, calmFeed_off, calmFeed_lastKind]
  refine ⟨rfl, ?_, rfl⟩
  show (feed (setFeed s f { feed s f with off := true }) f).off = true
  rw [feed_setFeed_self]

theorem fdOff_refused (hp : s.fd.supply = true) (hs : (feed s f).state = .on) (ho : (feed s (other f)).state ≠ .on) :
    let g := feed (fdCtrl s f true false false) f
    g.state = .on ∧ g.off = (feed s f).off := by
  have hr : offRefused s f false = true := by
    unfold offRefused
    rw [hs]
    simp [ho, FeedState.driven]
  have e : fdCtrl s f true false false = settleFeeds s (post s (pgFEED f) 8 0x40) := by
    unfold fdCtrl
    simp [hp, hr]
  dsimp only
  rw [e, feed_settle_feed f (feed_post ..) (by rw [hs]; exact nofun), calmFeed_state, calmFeed_off]
  exact ⟨hs, rfl⟩

theorem fdOn_qualifies (hp : s.fd.supply = true) (hs : (feed s f).state = .heldOff) (hl : (feed s f).tr.latched = false)
    (hw : (feed s f).inWindow = true) (hc : (feed s f).tr.coolMs = 0) : let g := feed (fdCtrl s f false false false) f
    g.state = .delay ∧ g.off = false := by
  have e : fdCtrl s f false false false = settleFeeds s (qualify (setFeed s f { feed s f with off := false }) f) := by
    unfold fdCtrl holdEnd
    simp [hp, hs]
  have eq := feed_qualify_delay (setFeed s f { feed s f with off := false }) f
    (by rw [feed_setFeed_self]; exact hl) (by rw [feed_setFeed_self]; exact hw) (by rw [feed_setFeed_self]; exact hc)
  dsimp only
  rw [e, settleFeeds_feed_running _ s f (by rw [eq]), eq, calmFeed_state, calmFeed_off, feed_setFeed_self]
  exact ⟨rfl, rfl⟩

/-- A feed that is not latched does not qualify into 9 LATCHED. -/
theorem qualify_unlatched (h : (feed s f).tr.latched = false) : (feed (qualify s f) f).state ≠ .latched ∧
    (feed (qualify s f) f).tr = (feed s f).tr := by
  rw [feed_qualify, h, if_neg Bool.false_ne_true]
  split
  · exact ⟨nofun, rfl⟩
  · split
    · exact ⟨nofun, rfl⟩
    · exact ⟨nofun, rfl⟩

theorem clearLatch_clears (h : (feed s f).state = .latched) : let g := feed (clearLatch s f) f
    g.tr.latched = false ∧ g.tr.consec = 0 ∧ g.state ≠ .latched := by
  unfold clearLatch
  dsimp only
  rw [if_pos h]
  obtain ⟨hs, ht⟩ := qualify_unlatched
    (setFeed s f { feed s f with tr := { (feed s f).tr with latched := false, consec := 0, lastCounted := 0 } }) f
    (by rw [feed_setFeed_self])
  rw [ht, feed_setFeed_self]
  exact ⟨rfl, rfl, hs⟩

theorem holdEnd_unlatched (h : (feed s f).tr.latched = false) (hs : (feed s f).state ≠ .latched) :
    (feed (holdEnd s f) f).state ≠ .latched ∧ (feed (holdEnd s f) f).tr = (feed s f).tr := by
  unfold holdEnd
  dsimp only
  split
  · obtain ⟨hn, ht⟩ := qualify_unlatched (setFeed s f { feed s f with off := false }) f (by rw [feed_setFeed_self]; exact h)
    refine ⟨hn, ht.trans (by rw [feed_setFeed_self])⟩
  · rw [feed_setFeed_self]
    exact ⟨hs, rfl⟩

theorem fdClrLatch_clears (hp : s.fd.supply = true) (hl : (feed s f).tr.latched = true) (hs : (feed s f).state = .latched)
    (hok : clrLatchOk s f = true) : let g := feed (fdCtrl s f false false true) f
    g.tr.latched = false ∧ g.tr.consec = 0 ∧ g.state ≠ .latched := by
  have e : fdCtrl s f false false true = settleFeeds s (holdEnd (clearLatch s f) f) := by
    unfold fdCtrl
    simp [hp, hl, hok]
  obtain ⟨cl, cc, cs⟩ := clearLatch_clears s f hs
  obtain ⟨hn, ht⟩ := holdEnd_unlatched (clearLatch s f) f cl cs
  obtain ⟨_, _, _, htr, hlat⟩ := settleFeeds_inputs (holdEnd (clearLatch s f) f) f s
  dsimp only
  rw [e, htr, ht]
  exact ⟨cl, cc, hlat hn⟩

/-! ### Settings -/

/-- A field of an accepted write of a register of the FEED pages is what the register then holds. -/
theorem regFld_writeReg_feed {o lo n : Nat} {v : Word} {r : RegRow} (hr : ∀ g, regRow (ro (pgFEED g) o) = some r)
    (hu : ∀ g, unmarked? (ro (pgFEED g) o) = true) (ha : r.acc = .rw) (hf : ∀ g, ∀ x ∈ r.rules, ro (pgFEED g) o ≠ fzOff x (ro (pgFEED g) o))
    (hm : ∀ i < n, r.mask.getLsbD (lo + i) = true)
    (hv : ∀ x ∈ r.rules, x.min ≤ fld v x.lo x.n ∧ fld v x.lo x.n ≤ x.max ∧ (fld v x.lo x.n = 0 → x.zeroAs = 0)) :
    regFld (writeReg s (ro (pgFEED f) o) v) (ro (pgFEED f) o) lo n = fld v lo n :=
  regFld_writeReg s (hr f) ha (hu f) (hf f) hm hv

theorem insDelay_write (v : Word) (hv : fld v 0 11 ≤ 1600) :
    regFld (writeReg s (ro (pgFEED f) 0x48) v) (ro (pgFEED f) 0x48) 0 11 = fld v 0 11 :=
  regFld_writeReg_feed s f (by rintro (_ | _) <;> rfl) (by rintro (_ | _) <;> rfl) rfl (by rintro (_ | _) <;> decide) (by decide)
    (by simpa using hv)

theorem foldback_write (v : Word) (hlo : 10 ≤ fld v 0 8) (hhi : fld v 0 8 ≤ 200) :
    regFld (writeReg s (ro (pgFEED f) 0x4C) v) (ro (pgFEED f) 0x4C) 0 8 = fld v 0 8 :=
  regFld_writeReg_feed s f (by rintro (_ | _) <;> rfl) (by rintro (_ | _) <;> rfl) rfl (by rintro (_ | _) <;> decide) (by decide)
    (by simpa using ⟨hlo, hhi⟩)

theorem fastTrip_write (v : Word) (hlo : 20 ≤ fld v 0 8) (hhi : fld v 0 8 ≤ 250) :
    regFld (writeReg s (ro (pgFEED f) 0x50) v) (ro (pgFEED f) 0x50) 0 8 = fld v 0 8 :=
  regFld_writeReg_feed s f (by rintro (_ | _) <;> rfl) (by rintro (_ | _) <;> rfl) rfl (by rintro (_ | _) <;> decide) (by decide)
    (by simpa using ⟨hlo, hhi⟩)

theorem sag_write (v : Word) (hlo : 380 ≤ fld v 0 10) (hhi : fld v 0 10 ≤ 540) (hz : fld v 16 8 ≠ 0) :
    let t := writeReg s (ro (pgFEED f) 0x54) v
    regFld t (ro (pgFEED f) 0x54) 0 10 = fld v 0 10 ∧ regFld t (ro (pgFEED f) 0x54) 16 8 = fld v 16 8 := by
  have h8 : fld v 16 8 < 256 := fld_lt v 16 8
  have hv : ∀ x ∈ [({ lo := 0, n := 10, min := 380, max := 540 } : FieldRule),
      { lo := 16, n := 8, min := 1, max := 255, zeroAs := 1, fz := .at 0x044, fzBit := 9 }],
      x.min ≤ fld v x.lo x.n ∧ fld v x.lo x.n ≤ x.max ∧ (fld v x.lo x.n = 0 → x.zeroAs = 0) := by
    intro x hx
    simp only [List.mem_cons, List.not_mem_nil, or_false] at hx
    rcases hx with rfl | rfl
    · exact ⟨hlo, hhi, fun _ => rfl⟩
    · exact ⟨Nat.pos_of_ne_zero hz, Nat.le_of_lt_succ h8, fun e => absurd e hz⟩
  exact ⟨regFld_writeReg_feed s f (by rintro (_ | _) <;> rfl) (by rintro (_ | _) <;> rfl) rfl (by rintro (_ | _) <;> decide) (by decide) hv,
    regFld_writeReg_feed s f (by rintro (_ | _) <;> rfl) (by rintro (_ | _) <;> rfl) rfl (by rintro (_ | _) <;> decide) (by decide) hv⟩

theorem itripMoves_regs : (itripMoves s f).regs = s.regs := by
  unfold itripMoves
  dsimp only
  split <;> exact setFeed_regs ..

theorem fastTripWrite_accepts (v : Word) (hp : s.fd.supply = true) (hlo : 20 ≤ fld v 0 8) (hhi : fld v 0 8 ≤ 250)
    (hi : signed 16 (regFld s (ro (pgFEED f) 0x60) 0 16) + 1000 ≤ (fld v 0 8 * 100 : Nat)) :
    regFld (fastTripWrite s f v) (ro (pgFEED f) 0x50) 0 8 = fld v 0 8 := by
  unfold fastTripWrite
  rw [if_neg (by simp [hp])]
  dsimp only
  rw [if_neg (by push_cast at hi; omega), regFld_of_getReg (getReg_pushIfChanged _ _ (by cases f <;> decide)),
    regFld_of_getReg (getReg_of_regs (itripMoves_regs _ f) _), fastTrip_write s f v hlo hhi]

theorem fastTripWrite_refuses (v : Word) (hp : s.fd.supply = true) (hlo : 20 ≤ fld v 0 8) (hhi : fld v 0 8 ≤ 250)
    (hi : ((fld v 0 8 * 100 : Nat) : Int) < signed 16 (regFld s (ro (pgFEED f) 0x60) 0 16) + 1000) :
    regFld (fastTripWrite s f v) (ro (pgFEED f) 0x50) 0 8 = regFld s (ro (pgFEED f) 0x50) 0 8 := by
  unfold fastTripWrite
  rw [if_neg (by simp [hp])]
  dsimp only
  rw [if_pos ⟨hlo, hhi, by push_cast at hi; omega⟩]
  exact regFld_of_getReg (getReg_post s (by cases f <;> rfl) _ _ _ _) _ _

/-- Settles O11: a hold trips the feed as kind 8, a hold's end and a cleared latch qualify it, and an accepted setting is what its
field then holds. -/
theorem feedControl : Obligations.FeedControl := by
  unfold Obligations.FeedControl
  intro s f hp
  refine ⟨fun lastOk hs ho => ⟨_, rfl, fdOff_holds s f lastOk hp hs ho⟩, fun hs ho => ⟨_, rfl, fdOff_refused s f hp hs ho⟩,
    fun hs hl hw hc => ⟨_, rfl, fdOn_qualifies s f hp hs hl hw hc⟩, fun hl hs hok => ⟨_, rfl, fdClrLatch_clears s f hp hl hs hok⟩,
    fun v hv => ⟨_, congrArg Host.Outcome.next (if_pos hp), insDelay_write s f v hv⟩,
    fun v hlo hhi => ⟨_, congrArg Host.Outcome.next (if_pos hp), foldback_write s f v hlo hhi⟩,
    fun v hlo hhi => ⟨fun hi => ⟨_, rfl, fastTripWrite_accepts s f v hp hlo hhi hi⟩,
      fun hi => ⟨_, rfl, fastTripWrite_refuses s f v hp hlo hhi hi⟩⟩,
    fun v hv => ⟨setFeed s f { feed s f with itripCmp := v, itripNext := none }, ?_, ?_⟩,
    fun v hlo hhi hz => ⟨_, congrArg Host.Outcome.next (if_pos hp), sag_write s f v hlo hhi hz⟩⟩
  · show execItripComparatorMove f s = _
    unfold execItripComparatorMove
    rw [hv]
  · dsimp only
    rw [feed_setFeed_self]
    exact ⟨rfl, rfl⟩

end Sys2Proof.Machine
end

