-- ==== Sys2Proof/Proofs/Sharing.lean ====
section
/-! O12. Current sharing, sags and the trip recorder (R55 to R58, R60, R79). -/

namespace Sys2Proof.Machine

open Sys2Proof.Safety (Yields SameFeedGates)

variable (s : State) (f : Feed)

/-- A command's next state may have changed no more than the command may. -/
theorem yields_of_exec {c : Instr} {s t : State} {P : State → Prop} (e : exec c s = .next t) (h : Keeps (mayOf c) s t → P t) :
    Yields c s P :=
  ⟨t, e, h (keeps_of_exec e)⟩

theorem sameFeedGates_of_keeps {may : Moves} {s t : State} (k : Keeps may s t) (hf : may.feeds = false) (hr : may.rails = false) :
    SameFeedGates s t :=
  ⟨(k.feeds hf).1, (k.feeds hf).2, k.rails hr⟩

@[simp] theorem settleShare_fd (old : State) : (settleShare old s).fd = (shareErrHolds s).fd := pushIfChanged_fd ..
theorem getReg_settleShare (old : State) {off : Nat} (h : off ≠ ro pgFSYS 0x4C) : getReg (settleShare old s) off = getReg s off :=
  getReg_pushIfChanged _ old h
@[simp] theorem shareRaise_regs (n : Nat) : (shareRaise s f n).regs = s.regs := rfl
@[simp] theorem raiseBelow_regs (n : Nat) : (raiseBelow s n).regs = s.regs := rfl
@[simp] theorem raiseBelow_fd (n : Nat) : (raiseBelow s n).fd = (shareRaise s (heavierFeed s) ((freeWord s).toNat % n)).fd := tick_fd _

/-! ### Sharing -/

theorem leaveRebalance_settles : (leaveRebalance s).fd.share = steadyShare s ∧
    getReg (leaveRebalance s) (ro pgSHARE 0x48) = getReg s (ro pgSHARE 0x48) := by
  unfold leaveRebalance
  dsimp only
  refine ⟨congrArg FeedDie.share (settleShare_fd ..), ?_⟩
  rw [getReg_settleShare _ _ (by decide)]
  split
  · rfl
  · exact getReg_of_regs (raiseBelow_regs s 151) _

theorem steadyShare_shareNow (p : BitVec 10) : steadyShare (shareNow s p) = steadyShare s := by
  unfold steadyShare shareNow
  rw [regFld_of_getReg (getReg_putReg_other _ _ _ _ _ _ (by decide)), putReg_fd]

theorem shareNow_shows (p : BitVec 10) : regFld (shareNow s p) (ro pgSHARE 0x48) 0 10 = p.toNat :=
  (regFld_putReg_self s _ 0 10 _ (by decide)).trans (Nat.mod_eq_of_lt p.isLt)

theorem rebalanceSettled_yields (p : BitVec 10) (h : s.fd.share = .rebalance) : Yields (.rebalanceSettled p) s fun t =>
    t.fd.share = steadyShare s ∧ regFld t (ro pgSHARE 0x48) 0 10 = p.toNat ∧ SameFeedGates s t := by
  obtain ⟨hs, hr⟩ := leaveRebalance_settles (shareNow s p)
  exact yields_of_exec (congrArg Host.Outcome.next (if_pos h)) fun k =>
    ⟨hs.trans (steadyShare_shareNow s p), (regFld_of_getReg hr _ _).trans (shareNow_shows s p), sameFeedGates_of_keeps k rfl rfl⟩

theorem rebalanceTimeout_yields (h : s.fd.share = .rebalance) : Yields .rebalanceTimeout s fun t =>
    t.fd.share = steadyShare s ∧ regFld t (ro pgSHARE 0x48) 0 10 = regFld s (ro pgSHARE 0x48) 0 10 ∧ SameFeedGates s t := by
  obtain ⟨hs, hr⟩ := leaveRebalance_settles s
  exact yields_of_exec (congrArg Host.Outcome.next (if_pos h)) fun k =>
    ⟨hs, regFld_of_getReg hr _ _, sameFeedGates_of_keeps k rfl rfl⟩

theorem atLimitSet_yields (hb : bothOn s = true) (hl : regFld s (ro pgSHARE 0x40) 0 1 = 1) : Yields .atLimitSet s fun t =>
    t.fd.atLimit = true ∧ t.fd.share = .dual ∧ (heavierFeed s = .a → t.fd.raiseA = 150 ∧ t.fd.raiseB = 0) ∧
    (heavierFeed s = .b → t.fd.raiseB = 150 ∧ t.fd.raiseA = 0) ∧ SameFeedGates s t := by
  refine yields_of_exec (congrArg Host.Outcome.next (if_pos ⟨hb, hl⟩)) fun k => ⟨?_, ?_, fun h => ?_, fun h => ?_, sameFeedGates_of_keeps k rfl rfl⟩
  · rw [settleShare_fd]
    rfl
  · rw [settleShare_fd]
    rfl
  · rw [settleShare_fd, h]
    exact ⟨rfl, rfl⟩
  · rw [settleShare_fd, h]
    exact ⟨rfl, rfl⟩

/-- Below the limit the raise stands under 150 mV. -/
theorem raiseBelow_below : (raiseBelow s 150).fd.raiseA.toNat < 150 ∧ (raiseBelow s 150).fd.raiseB.toNat < 150 := by
  have h : (freeWord s).toNat % 150 < 150 := Nat.mod_lt _ (by decide)
  have hr : (BitVec.ofNat 8 (min ((freeWord s).toNat % 150) 150)).toNat < 150 := by
    rw [BitVec.toNat_ofNat]
    omega
  rw [raiseBelow_fd]
  cases heavierFeed s
  · exact ⟨hr, Nat.zero_lt_succ 149⟩
  · exact ⟨Nat.zero_lt_succ 149, hr⟩

theorem atLimitClear_yields (hb : bothOn s = true) (hl : s.fd.atLimit = true) : Yields .atLimitClear s fun t =>
    t.fd.atLimit = false ∧ t.fd.share = .rebalance ∧ t.fd.raiseA.toNat < 150 ∧ t.fd.raiseB.toNat < 150 ∧ SameFeedGates s t := by
  refine yields_of_exec (congrArg Host.Outcome.next (if_pos hl)) fun k => ?_
  obtain ⟨ha, hr⟩ := raiseBelow_below s
  dsimp only at k ⊢
  rw [if_pos hb, if_pos hb] at k ⊢
  rw [settleShare_fd]
  exact ⟨rfl, rfl, ha, hr, sameFeedGates_of_keeps k rfl rfl⟩

theorem bothOn_of_feeds {s t : State} (ha : t.feedA = s.feedA) (hb : t.feedB = s.feedB) : bothOn t = bothOn s := by
  unfold bothOn
  rw [ha, hb]

theorem shCtrl_rebalances (v : Word) (hp : s.fd.supply = true) (hb : bothOn s = true) (hv : bit v 0 = true) :
    (shCtrl s v).fd.share = .rebalance ∧ regFld (shCtrl s v) (ro pgSHARE 0x40) 0 1 = 1 := by
  have hw : bothOn (writeReg s (ro pgSHARE 0x40) v) = true :=
    (bothOn_of_feeds (feedA_of_still (writeReg_still ..)) (feedB_of_still (writeReg_still ..))).trans hb
  have hr : regFld (writeReg s (ro pgSHARE 0x40) v) (ro pgSHARE 0x40) 0 1 = fld v 0 1 :=
    regFld_writeReg s rfl rfl rfl (by decide) (by decide) (by simp)
  unfold shCtrl
  rw [if_neg (by simp [hp])]
  dsimp only
  rw [hv, if_pos rfl, hw, if_neg (by decide), if_pos rfl]
  refine ⟨congrArg FeedDie.share (settleShare_fd ..), ?_⟩
  rw [regFld_of_getReg (getReg_settleShare _ _ (by decide))]
  exact hr.trans ((fld_one v 0).trans (by rw [hv]; rfl))

/-! ### SHARE_ERR -/

theorem shareBad_shareNow (p : BitVec 10) (hb : bothOn s = true)
    (h : (regFld s (ro pgSHARE 0x40) 0 1 = 0 ∧ s.fd.share = .dual) ∨ (s.fd.share = .sharing ∧ (p.toNat < 400 ∨ 600 < p.toNat))) :
    shareBad (shareNow s p) = true := by
  have hr : regFld (shareNow s p) (ro pgSHARE 0x40) 0 1 = regFld s (ro pgSHARE 0x40) 0 1 :=
    regFld_of_getReg (getReg_putReg_other _ _ _ _ _ _ (by decide)) _ _
  have hb' : bothOn (shareNow s p) = true := hb
  have hf : (shareNow s p).fd = s.fd := rfl
  unfold shareBad
  rw [hb', hr, hf, shareNow_shows]
  rcases h with ⟨h0, hd⟩ | ⟨hs, hp⟩
  · simp [h0, hd]
  · simp [hs, hp]

theorem shareErr_yields (p : BitVec 10) (h : shareBad (shareNow s p) = true) : Yields (.shareErr p) s fun t =>
    t.fd.shareErr = true ∧ regFld t (ro pgSHARE 0x48) 0 10 = p.toNat ∧ SameFeedGates s t := by
  refine yields_of_exec (congrArg Host.Outcome.next (if_pos h)) fun k => ⟨?_, ?_, sameFeedGates_of_keeps k rfl rfl⟩
  · exact (congrArg FeedDie.shareErr (postFree_unheld _ pgSHARE 0 0)).trans rfl
  · rw [regFld_of_getReg (getReg_postFree _ (by decide) _ _ _)]
    exact shareNow_shows s p

/-! ### Sags -/

theorem feed_pushIfChanged (old : State) (g : Feed) : feed (pushIfChanged old s) g = feed s g :=
  feed_of_still (pushIfChanged_still s old) g

theorem sagDetect_yields (v : BitVec 16) (ho : (feed s f).state.isOn = true) (hv : v.toNat < sagV s f) :
    Yields (.sagDetect f v) s fun t =>
      (feed t f).sag = true ∧ (feed t f).state = (feed s f).state ∧ feed t (other f) = feed s (other f) := by
  refine yields_of_exec (congrArg Host.Outcome.next (if_pos ⟨ho, hv⟩)) fun _ => ?_
  dsimp only
  rw [feed_pushIfChanged, feed_pushIfChanged, feed_setFeed_self, feed_setFeed_other, feed_measV, feed_measV]
  exact ⟨rfl, rfl, rfl⟩

theorem sagSustained_yields (v : BitVec 16) (ho : (feed s f).state.isOn = true) (hs : (feed s f).sag = true) (hv : v.toNat < sagV s f) :
    Yields (.sagSustained f v) s fun t =>
      (feed t f).sagSust = true ∧ (feed t f).state = (feed s f).state ∧ feed t (other f) = feed s (other f) := by
  refine yields_of_exec (congrArg Host.Outcome.next (if_pos ⟨ho, hs, hv⟩)) fun _ => ?_
  dsimp only
  rw [feed_pushIfChanged, feed_pushIfChanged, feed_post, feed_post, feed_setFeed_self, feed_setFeed_other, feed_measV, feed_measV]
  exact ⟨rfl, rfl, rfl⟩

theorem sagClear_yields (v : BitVec 16) (h : (feed s f).state.isOn = false ∨ sagV s f ≤ v.toNat) : Yields (.sagClear f v) s fun t =>
    (feed t f).sag = false ∧ (feed t f).sagSust = false ∧ (feed t f).state = (feed s f).state ∧
      feed t (other f) = feed s (other f) := by
  have hn : ¬ ((feed s f).state.isOn = true ∧ v.toNat < sagV s f) := by
    rintro ⟨ho, hv⟩
    rcases h with h | h
    · rw [ho] at h
      cases h
    · omega
  refine yields_of_exec (congrArg Host.Outcome.next (if_neg hn)) fun _ => ?_
  dsimp only
  rw [feed_pushIfChanged, feed_pushIfChanged, feed_setFeed_self, feed_setFeed_other, feed_measV, feed_measV]
  exact ⟨rfl, rfl, rfl, rfl⟩

theorem busSagSet_yields (v : BitVec 16) (h : v.toNat < busSagV s) : Yields (.busSagSet v) s fun t =>
    t.fd.busSag = true ∧ SameFeedGates s t := by
  refine yields_of_exec (congrArg Host.Outcome.next (if_pos h)) fun k => ⟨?_, sameFeedGates_of_keeps k rfl rfl⟩
  rw [pushIfChanged_fd]
  exact (congrArg FeedDie.busSag (postFree_unheld _ pgSHARE 3 0)).trans rfl

theorem busSagClear_yields (v : BitVec 16) (h : busSagV s ≤ v.toNat) : Yields (.busSagClear v) s fun t =>
    t.fd.busSag = false ∧ SameFeedGates s t := by
  refine yields_of_exec (congrArg Host.Outcome.next (if_neg (Nat.not_lt.mpr h))) fun k => ⟨?_, sameFeedGates_of_keeps k rfl rfl⟩
  rw [pushIfChanged_fd]

/-! ### The trip recorder -/

theorem tripCaptureDone_yields (xs : List (Nat × Word)) (k : BitVec 4) (h : s.fd.capture = some (f, k)) :
    Yields (.tripCaptureDone xs) s fun t =>
      t.fd.capValid = true ∧ t.fd.capFeed = f ∧ t.fd.capKind = k ∧ t.fd.capture = none ∧ SameFeedGates s t := by
  refine yields_of_exec (t := captureDone s xs) rfl fun kp => ?_
  have hd : (captureDone s xs).fd.capValid = true ∧ (captureDone s xs).fd.capFeed = f ∧ (captureDone s xs).fd.capKind = k ∧
      (captureDone s xs).fd.capture = none := by
    unfold captureDone
    rw [h]
    exact ⟨rfl, rfl, rfl, rfl⟩
  obtain ⟨hv, hf, hk, hc⟩ := hd
  exact ⟨hv, hf, hk, hc, sameFeedGates_of_keeps kp rfl rfl⟩

theorem trRelease_yields (arm : Bool) (hp : s.fd.supply = true) : Yields (.trRelease arm) s fun t =>
    t.fd.capValid = false ∧ regFld t (ro pgTRIP 0x40) 1 1 = b2n arm ∧ SameFeedGates s t := by
  refine yields_of_exec (congrArg Host.Outcome.next (if_neg (by simp [hp]))) fun k => ⟨rfl, ?_, sameFeedGates_of_keeps k rfl rfl⟩
  refine (regFld_putReg_self s (ro pgTRIP 0x40) 1 1 (b2n arm) (by decide)).trans ?_
  cases arm <;> rfl

theorem trRdDataRead_yields : Yields .trRdDataRead s fun t => SameFeedGates s t ∧
    t.host.rdata = tabGet (fun _ => 0) s.fd.samples (regFld s (ro pgTRIP 0x50) 0 16) ∧
    regFld t (ro pgTRIP 0x50) 0 16 = if 63999 ≤ regFld s (ro pgTRIP 0x50) 0 16 then 0 else regFld s (ro pgTRIP 0x50) 0 16 + 1 := by
  refine yields_of_exec (t := _) rfl fun k => ⟨sameFeedGates_of_keeps k rfl rfl, rfl, ?_⟩
  refine (regFld_putReg_self s (ro pgTRIP 0x50) 0 16 _ (by decide)).trans (Nat.mod_eq_of_lt ?_)
  split
  · decide
  · rw [show (2 : Nat) ^ 16 = 65536 from rfl]
    omega

/-- Settles O12, one lemma per command; the frames come from what each command may move. -/
theorem sharingAndSags : Obligations.SharingAndSags := by
  unfold Obligations.SharingAndSags
  intro s f
  refine ⟨fun h => ⟨fun p => rebalanceSettled_yields s p h, rebalanceTimeout_yields s h⟩, atLimitSet_yields s, atLimitClear_yields s,
    fun v hp hb hv => ?_, fun p hb h => shareErr_yields s p (shareBad_shareNow s p hb h), sagDetect_yields s f, sagSustained_yields s f,
    sagClear_yields s f, busSagSet_yields s, busSagClear_yields s, tripCaptureDone_yields s f, trRelease_yields s, trRdDataRead_yields s⟩
  obtain ⟨hs, hr⟩ := shCtrl_rebalances s v hp hb hv
  exact yields_of_exec (t := shCtrl s v) rfl fun k => ⟨hs, hr, sameFeedGates_of_keeps k rfl rfl⟩

end Sys2Proof.Machine
end

