-- ==== Sys2Proof/Proofs/RailSequencer.lean ====
section
/-! O13. The rail sequencer of the feed die (R62 to R70, R604). -/

namespace Sys2Proof.Machine

open Sys2Proof.Safety (Yields)

variable (s : State)

@[simp] theorem watchDtin_state (r : RailSeq) : (watchDtin r).state = r.state := rfl
@[simp] theorem watchDtin_en (r : RailSeq) : (watchDtin r).en = r.en := rfl
@[simp] theorem watchDtin_downTo (r : RailSeq) : (watchDtin r).downTo = r.downTo := rfl
@[simp] theorem watchDtin_downNext (r : RailSeq) : (watchDtin r).downNext = r.downNext := rfl

/-! ### The up-sequence -/

theorem railStepDone_yields (k : Fin 6) (h : s.rails.state = .step k) : Yields .railStepDone s fun t =>
    t.rails.pg = s.rails.pg ||| stepMask k.val ∧ t.rails.state = if k.val = 5 then .up else .step (k + 1) := by
  refine ⟨{ s with rails := railStepDoneFx s.rails }, rfl, ?_⟩
  dsimp only
  unfold railStepDoneFx
  rw [h]
  dsimp only
  split <;> exact ⟨rfl, rfl⟩

/-! ### Failures -/

theorem railIdx_lt (r : Rail) : railIdx r < 6 := by cases r <;> decide

/-- A failed or lost rail begins the down-sequence, with the rail in FAILED and CONSEC one higher (R63, R66). -/
theorem railFailed_rails (src : Nat) (r : Rail) : let t := railFailed s src r
    t.rails.state = .stopping ∧ t.rails.failed.toNat = railIdx r ∧ t.rails.consec.toNat = min (s.rails.consec.toNat + 1) 15 ∧
      t.rails.downTo = if 3 ≤ s.rails.consec.toNat + 1 then .latched else .retryWait := by
  unfold railFailed
  dsimp only
  rw [postFree_rails]
  have hr := railIdx_lt r
  refine ⟨rfl, ?_, ?_, rfl⟩
  · exact (BitVec.toNat_ofNat _ 4).trans (Nat.mod_eq_of_lt (by omega))
  · exact (BitVec.toNat_ofNat _ 4).trans (Nat.mod_eq_of_lt (by omega))

theorem railPgFall_yields (r : Rail) (h : s.rails.state.stepping = true) (hp : s.rails.pg.getLsbD (railIdx r) = true) :
    Yields (.railPgFall r) s fun t => t.rails.state = .stopping ∧ t.rails.failed.toNat = railIdx r := by
  obtain ⟨hs, hf, _⟩ := railFailed_rails s 0 r
  exact ⟨_, congrArg Host.Outcome.next (if_pos ⟨h, hp⟩), hs, hf⟩

theorem railPgTimeout_yields (r : Rail) (k : Fin 6) (h : s.rails.state = .step k) (hk : railStep r = k.val) :
    Yields (.railPgTimeout r) s fun t =>
      t.rails.state = .stopping ∧ t.rails.failed.toNat = railIdx r ∧ t.rails.consec.toNat = min (s.rails.consec.toNat + 1) 15 ∧
      t.rails.downTo = if 3 ≤ s.rails.consec.toNat + 1 then .latched else .retryWait := by
  refine ⟨railFailed s 0 r, ?_, railFailed_rails s 0 r⟩
  show execRailPgTimeout r s = _
  unfold execRailPgTimeout
  rw [h]
  dsimp only
  rw [if_pos hk]

theorem railLost_yields (r : Rail) (h : s.rails.state = .up) : Yields (.railLost r) s fun t =>
    t.rails.state = .stopping ∧ t.rails.failed.toNat = railIdx r := by
  obtain ⟨hs, hf, _⟩ := railFailed_rails s 1 r
  exact ⟨_, congrArg Host.Outcome.next (if_pos h), hs, hf⟩

/-- One enable is dropped, and no other. -/
theorem getLsbD_drop (en : BitVec 6) {i : Nat} (hi : i < 6) :
    (en &&& ~~~ BitVec.ofNat 6 (2 ^ i)).getLsbD i = false ∧
      ∀ j, j ≠ i → (en &&& ~~~ BitVec.ofNat 6 (2 ^ i)).getLsbD j = en.getLsbD j := by
  simp only [BitVec.getLsbD_and, BitVec.getLsbD_not, BitVec.getLsbD_ofNat]
  refine ⟨by simp [hi, Nat.testBit_two_pow_self], fun j hj => ?_⟩
  by_cases h6 : j < 6
  · simp [h6, Nat.testBit_two_pow_of_ne (Ne.symm hj)]
  · rw [BitVec.getLsbD_of_ge _ _ (Nat.not_lt.mp h6), Bool.false_and]

theorem hvLost_yields (v : Valve) (h : s.rails.state = .up) (h4 : s.rails.pg.getLsbD 4 = true) (h5 : s.rails.pg.getLsbD 5 = true) :
    Yields (.hvLost v) s fun t =>
      t.rails.state = .up ∧ t.rails.en.getLsbD (railIdx (valveRail v)) = false ∧
      (∀ i, i ≠ railIdx (valveRail v) → t.rails.en.getLsbD i = s.rails.en.getLsbD i) := by
  have hp : ∀ w, s.rails.pg.getLsbD (railIdx (valveRail w)) = true := fun w => by cases w <;> assumption
  obtain ⟨hd, hk⟩ := getLsbD_drop s.rails.en (railIdx_lt (valveRail v))
  refine ⟨hvLostFx s v, rfl, ?_⟩
  unfold hvLostFx
  dsimp only
  rw [if_neg (by rw [hp]; simp [h]), if_neg (by rw [hp]; decide), postFree_rails]
  exact ⟨h, hd, hk⟩

/-! ### The down-sequence -/

theorem downSeqStep_next (h : s.rails.state = .stopping) (hn : s.rails.downNext < 4) : Yields .downSeqStep s fun t =>
    t.rails.state = .stopping ∧ t.rails.downNext = s.rails.downNext + 1 := by
  refine ⟨downStepFx s, rfl, ?_⟩
  unfold downStepFx
  rw [if_neg (by simp [h])]
  dsimp only
  rw [if_pos (by exact Nat.succ_le_of_lt hn)]
  exact ⟨h, rfl⟩

/-- The last drop is that of IB. -/
theorem getLsbD_dropIb (en : BitVec 6) : (en &&& ~~~ stepMask 1).getLsbD 0 = false := by simp [stepMask]

theorem downSeqStep_last (h : s.rails.state = .stopping) (hn : s.rails.downNext = 4) : Yields .downSeqStep s fun t =>
    t.rails.state = s.rails.downTo ∧ t.rails.en.getLsbD 0 = false := by
  refine ⟨downStepFx s, rfl, ?_⟩
  unfold downStepFx
  rw [if_neg (by simp [h]), hn]
  dsimp only
  rw [if_neg (by exact Nat.not_succ_le_self 4)]
  split
  · rw [postFree_rails]
    exact ⟨rfl, getLsbD_dropIb _⟩
  · exact ⟨rfl, getLsbD_dropIb _⟩

/-! ### Commands and T_crit -/

theorem psStop_yields (hp : s.fd.supply = true) (h : s.rails.state = .up) : Yields .psStop s fun t =>
    t.rails.state = .stopping ∧ t.rails.downTo = .stopped := by
  refine ⟨psStop s, rfl, ?_⟩
  unfold psStop
  rw [if_neg (by simp [hp]), h]
  dsimp only
  unfold psStopped
  rw [postFree_rails]
  exact ⟨rfl, rfl⟩

theorem psStart_yields (hp : s.fd.supply = true) (h : s.rails.state = .stopped) : Yields .psStart s fun t => t.rails.state = .step 1 := by
  refine ⟨psStart s, rfl, ?_⟩
  unfold psStart
  rw [if_neg (by simp [hp]), if_pos h]
  rfl

theorem psClrLatch_yields (hp : s.fd.supply = true) (h : s.rails.state = .latched) : Yields .psClrLatch s fun t =>
    t.rails.state = .stopped ∧ t.rails.consec = 0 := by
  refine ⟨psClrLatch s, rfl, ?_⟩
  unfold psClrLatch
  rw [if_neg (by simp [hp]), if_pos h]
  exact ⟨rfl, rfl⟩

/-- The state after T_crit: every enable but EN_IB low, 8 STOPPED (R69). -/
def CritStopped (s t : State) : Prop :=
  t.rails.state = .stopped ∧ t.rails.en = s.rails.en &&& 1 ∧ t.rails.dtinArmed = false

/-- T_crit stops, unless it comes by a DTIN that the feed die does not yet watch. -/
theorem tCrit_stops (hp : s.fd.supply = true) (h : s.rails.state ≠ .latched) :
    (s.rails.dtinArmed = true → CritStopped s (tCrit s)) ∧ (CritStopped s (tCrit s) ∨ (tCrit s).rails = s.rails) := by
  unfold tCrit
  rw [if_neg (by simp [hp])]
  dsimp only
  unfold CritStopped
  by_cases hd : (bit (freeWord s) 0 && !(tick s).rails.dtinArmed) = true
  · rw [if_pos hd, tick_rails]
    refine ⟨fun ha => ?_, .inr rfl⟩
    rw [tick_rails, ha] at hd
    simp at hd
  · rw [if_neg hd, postFree_rails, tick_rails]
    exact ⟨fun _ => ⟨if_neg h, rfl, rfl⟩, .inl ⟨if_neg h, rfl, rfl⟩⟩

/-- Settles O13: each event and command in the states that R62 to R70 name; a failure starts the down-sequence by one lemma. -/
theorem railSequencer : Obligations.RailSequencer := by
  unfold Obligations.RailSequencer
  intro s
  refine ⟨fun hi h => ⟨_, congrArg Host.Outcome.next (if_pos ⟨hi, h⟩), rfl, rfl⟩, railStepDone_yields s, railPgFall_yields s,
    railPgTimeout_yields s, hvLost_yields s, railLost_yields s, downSeqStep_next s, downSeqStep_last s,
    fun h => ⟨_, congrArg Host.Outcome.next (if_pos h), rfl⟩, fun h => ⟨_, congrArg Host.Outcome.next (if_pos h), rfl, h⟩,
    fun h => ⟨_, congrArg Host.Outcome.next (if_neg (by rw [h]; decide)), rfl, rfl⟩, psStop_yields s, psStart_yields s,
    psClrLatch_yields s, fun h => ⟨_, congrArg Host.Outcome.next (if_pos h), rfl⟩, fun hp h => ?_⟩
  obtain ⟨hd, ho⟩ := tCrit_stops s hp h
  exact ⟨fun ha => ⟨tCrit s, rfl, hd ha⟩, ⟨tCrit s, rfl, ho⟩⟩

end Sys2Proof.Machine
end

