-- ==== Sys2Proof/Proofs/ChannelEvents.lean ====
section
/-! O23. What each event of one channel makes of that channel (R135 to R137, R141, R153, R154). The file opens with the accessors of a
state that shares a part with another. -/

namespace Sys2Proof.Machine

open Sys2Proof.Safety (Yields OtherChans output)

variable (s : State)

/-! ### Accessors of a shared part -/

theorem chan_of_chans {s t : State} (h : t.chans = s.chans) (ch : Nat) : chan t ch = chan s ch := by unfold chan; rw [h]
theorem tile_of_tiles {s t : State} (h : t.tiles = s.tiles) (k : Nat) : tile t k = tile s k := by unfold tile; rw [h]
theorem reed_of_reeds {s t : State} (h : t.reeds = s.reeds) (r : Nat) : reed t r = reed s r := by unfold reed; rw [h]
theorem slot_of_slots {s t : State} (h : t.slots = s.slots) (k : Nat) : slot t k = slot s k := by unfold slot; rw [h]
theorem boreByte_of_bore {s t : State} (h : t.bore = s.bore) (a : Nat) : boreByte t a = boreByte s a := by unfold boreByte; rw [h]

/-- A table of channels mapped over an interval. -/
theorem chan_of_tabMap {s t : State} {lo n : Nat} {f : Nat → ChanSt → ChanSt} (h : t.chans = tabMap (fun _ => {}) s.chans lo n f)
    (ch : Nat) : chan t ch = if lo ≤ ch ∧ ch < lo + n then f ch (chan s ch) else chan s ch := by
  unfold chan
  rw [h]
  split
  · exact tabGet_tabMap_in (fun _ => ({} : ChanSt)) s.chans lo n f ch ‹_›
  · exact tabGet_tabMap_out (fun _ => ({} : ChanSt)) s.chans lo n f ch (by omega)

@[simp] theorem chan_post (page src : Nat) (d : Word) (sub ch : Nat) : chan (post s page src d sub) ch = chan s ch :=
  chan_of_chans (post_chans ..) ch
@[simp] theorem chan_postAs (page src cls sub : Nat) (d : Word) (ch : Nat) : chan (postAs s page src cls sub d) ch = chan s ch :=
  chan_of_chans (postAs_chans ..) ch
@[simp] theorem tile_post (page src : Nat) (d : Word) (sub k : Nat) : tile (post s page src d sub) k = tile s k :=
  tile_of_tiles (post_tiles ..) k

/-- A command on one channel leaves the others. -/
theorem otherChans_setChan {s t : State} {ch : Nat} {c : ChanSt} (h : ∀ k, chan t k = chan (setChan s ch c) k) :
    chan t ch = c ∧ OtherChans ch s t :=
  ⟨(h ch).trans (chan_setChan_self s ch c), fun k hk => (h k).trans ((chan_setChan s ch k c).trans (if_neg hk))⟩

/-! ### The limiter, compliance and checks -/

theorem limiterEngage_yields (ch : Chan) (ht : tileOn s (ch.val / 1024) = true) (hf : (chan s ch.val).fuse = .clear)
    (hl : (chan s ch.val).limiting = false) : Yields (.limiterEngage ch) s fun t =>
      chan t ch.val = { chan s ch.val with limiting := true, shortFlag := true } ∧ OtherChans ch.val s t := by
  refine ⟨limiterEngage s ch.val, rfl, ?_⟩
  unfold limiterEngage
  dsimp only
  rw [if_neg (by simp [ht, hf, hl])]
  exact otherChans_setChan (fun k => chan_postAs ..)

theorem complDetect_yields (ch : Chan) (ht : tileOn s (ch.val / 1024) = true) (he : (chan s ch.val).cfg.getLsbD 0 = true)
    (hf : (chan s ch.val).fuse = .clear) (hl : (chan s ch.val).complLive = false) : Yields (.complDetect ch) s fun t =>
      chan t ch.val = { chan s ch.val with complLive := true, complFlag := true } ∧ OtherChans ch.val s t := by
  have hn : ¬ ((!tileOn s (ch.val / 1024)) = true ∨ (!(chan s ch.val).cfg.getLsbD 0) = true ∨ (chan s ch.val).fuse ≠ .clear ∨
      (chan s ch.val).complLive = true) := by
    simp [ht, he, hf, hl]
  exact ⟨_, if_neg hn, otherChans_setChan (fun k => chan_post ..)⟩

theorem iCheck_yields (ch : Chan) (ht : tileOn s (ch.val / 1024) = true) (hf : (chan s ch.val).fuse = .clear)
    (hl : (chan s ch.val).limiting = false) (hc : (chan s ch.val).complLive = false) (hg : changing (chan s ch.val) s.now = false)
    (hn : (chan s ch.val).tongue = none) : Yields (.iCheck ch) s fun t =>
      chan t ch.val = { chan s ch.val with iOk := false } ∧ OtherChans ch.val s t := by
  have hno : ¬ ((!tileOn s (ch.val / 1024)) = true ∨ (chan s ch.val).fuse ≠ .clear ∨ (chan s ch.val).limiting = true ∨
      (chan s ch.val).complLive = true ∨ changing (chan s ch.val) s.now = true ∨ (chan s ch.val).tongue.isSome = true) := by
    simp [ht, hf, hl, hc, hg, hn]
  exact ⟨_, if_neg hno, otherChans_setChan (fun k => chan_post ..)⟩

/-! ### Fuses -/

/-- The fuse state that a channel's next fuse leaves it in: locked from FUSE_LOCK on (R141). -/
def fusedAs (s : State) (ch : Nat) : Fuse :=
  if regFld s (ro (pgTILE (ch / 1024)) 0x40) 0 2 ≤ min ((chan s ch).consec.toNat + 1) 3 then .locked else .fused

theorem fusedAs_ne (ch : Nat) : fusedAs s ch ≠ .clear := by
  unfold fusedAs
  split <;> exact nofun

/-- A fuse takes the channel to 0 A in its range, with its kind and CONSEC one higher, and leaves every other channel. -/
theorem chan_fuseNow (ch kind src : Nat) : ∀ k, chan (fuseNow s ch kind src) k = chan (setChan s ch
    { fuseChan s.now (chan s ch) (fusedAs s ch) with
      kind := BitVec.ofNat 2 kind, consec := BitVec.ofNat 2 (min ((chan s ch).consec.toNat + 1) 3) }) k := by
  intro k
  have hf : (if decide (regFld s (ro (pgTILE (ch / 1024)) 0x40) 0 2 ≤ min ((chan s ch).consec.toNat + 1) 3) = true then Fuse.locked
      else .fused) = fusedAs s ch := by
    unfold fusedAs
    simp only [decide_eq_true_eq]
  unfold fuseNow
  dsimp only
  rw [hf]
  split
  · rw [chan_post, chan_postAs]
  · rw [chan_postAs]

theorem fuseNow_fuses (ch kind src : Nat) : let t := fuseNow s ch kind src
    output t ch = (0, (chan s ch).range) ∧ (chan t ch).kind = BitVec.ofNat 2 kind ∧
      (chan t ch).consec.toNat = min ((chan s ch).consec.toNat + 1) 3 ∧ (chan t ch).fuse = fusedAs s ch ∧
      (chan t ch).tongue = none ∧ OtherChans ch s t := by
  obtain ⟨hc, ho⟩ := otherChans_setChan (chan_fuseNow s ch kind src)
  dsimp only [output]
  rw [hc]
  refine ⟨rfl, rfl, ?_, rfl, rfl, ho⟩
  exact (BitVec.toNat_ofNat _ 2).trans (Nat.mod_eq_of_lt (by omega))

theorem shortFuse_yields (ch : Chan) (hf : (chan s ch.val).fuse = .clear) (hl : (chan s ch.val).limiting = true) :
    Yields (.shortFuse ch) s fun t => output t ch.val = (0, (chan s ch.val).range) ∧
      (chan t ch.val).kind = 1 ∧ (chan t ch.val).consec.toNat = min ((chan s ch.val).consec.toNat + 1) 3 ∧
      (chan t ch.val).fuse = fusedAs s ch.val ∧ (chan t ch.val).tongue = none ∧ OtherChans ch.val s t :=
  ⟨fuseNow s ch.val 1 0, if_pos ⟨hf, hl⟩, fuseNow_fuses s ch.val 1 0⟩

theorem complFuse_yields (ch : Chan) (hf : (chan s ch.val).fuse = .clear) (hl : (chan s ch.val).complLive = true)
    (h0 : (chan s ch.val).cfg.getLsbD 0 = true) (h2 : (chan s ch.val).cfg.getLsbD 2 = true) (ht : (chan s ch.val).tongue = none) :
    Yields (.complFuse ch) s fun t => output t ch.val = (0, (chan s ch.val).range) ∧ (chan t ch.val).kind = 2 ∧
      (chan t ch.val).fuse ≠ .clear ∧ OtherChans ch.val s t := by
  obtain ⟨ho, hk, _, hfu, _, hx⟩ := fuseNow_fuses s ch.val 2 1
  exact ⟨fuseNow s ch.val 2 1, if_pos ⟨hf, hl, h0, h2, by rw [ht]; rfl⟩, ho, hk, by rw [hfu]; exact fusedAs_ne s ch.val, hx⟩

/-- Settles O23: each event writes its own channel, and what it reports moves none. -/
theorem channelSupervision : Obligations.ChannelSupervision := by
  unfold Obligations.ChannelSupervision
  intro s ch
  refine ⟨limiterEngage_yields s ch, ⟨_, rfl, otherChans_setChan (fun _ => rfl)⟩, shortFuse_yields s ch, fun h => ⟨s, if_neg ?_, rfl⟩,
    complDetect_yields s ch, complFuse_yields s ch, fun h => ⟨s, if_neg ?_, rfl⟩, ⟨_, rfl, otherChans_setChan (fun _ => rfl)⟩,
    fun h => ⟨_, if_pos h, otherChans_setChan (fun _ => rfl)⟩, ⟨_, rfl, otherChans_setChan (fun _ => rfl)⟩, iCheck_yields s ch⟩
  · rintro ⟨hf, hl⟩
    rcases h with h | h
    · exact h hf
    · rw [hl] at h
      cases h
  · rintro ⟨_, _, h0, _, ht⟩
    rcases h with h | h
    · exact h (Option.isNone_iff_eq_none.mp ht)
    · rw [h0] at h
      cases h

end Sys2Proof.Machine
end

