-- ==== Sys2Proof/Proofs/Valves.lean ====
section
/-! O25. The valves of a tile and the dark tile (R156 to R159). -/

namespace Sys2Proof.Machine

open Sys2Proof.Safety (Yields output mayWrite)

variable (s : State)

/-! ### Moves of a valve -/

/-- Valve `v` of tile `k` stands in `st`; the other valve, the other tiles and every channel are as before. -/
def ValveGoes (s : State) (k : Nat) (v : Valve) (st : ValveState) (t : State) : Prop :=
  valve (tile t k) v = st ∧ valve (tile t k) (otherValve v) = valve (tile s k) (otherValve v) ∧
    (∀ j, j ≠ k → tile t j = tile s j) ∧ t.chans = s.chans

theorem valve_withValve (x : TileSt) (v : Valve) (st : ValveState) (i : BitVec 12) :
    valve (x.withValve v st i) v = st ∧ valve (x.withValve v st i) (otherValve v) = valve x (otherValve v) := by
  cases v <;> exact ⟨rfl, rfl⟩

theorem valveMove_outside (k : Nat) (v : Valve) (st : ValveState) (i : BitVec 12) :
    (valveMove s k v st i).outside = (setTile s k ((tile s k).withValve v st i)).outside := redoIf_outside ..

theorem valveMove_goes (k : Nat) (v : Valve) (st : ValveState) (i : BitVec 12) : ValveGoes s k v st (valveMove s k v st i) := by
  have ht : ∀ j, tile (valveMove s k v st i) j = if j = k then (tile s k).withValve v st i else tile s j := fun j =>
    (tile_of_tiles (tiles_of_outside (valveMove_outside ..)) j).trans (tile_setTile ..)
  obtain ⟨hv, ho⟩ := valve_withValve (tile s k) v st i
  refine ⟨?_, ?_, fun j hj => (ht j).trans (if_neg hj), (chans_of_outside (valveMove_outside s k v st i)).trans rfl⟩
  · rw [ht, if_pos rfl, hv]
  · rw [ht, if_pos rfl, ho]

/-- A report leaves the valves where they are. -/
theorem ValveGoes.post {s t : State} {k : Nat} {v : Valve} {st : ValveState} (h : ValveGoes s k v st t) (page src : Nat) (d : Word)
    (sub : Nat) : ValveGoes s k v st (post t page src d sub) := by
  obtain ⟨hv, ho, hj, hc⟩ := h
  refine ⟨?_, ?_, fun j n => (tile_post ..).trans (hj j n), (post_chans ..).trans hc⟩
  · rw [tile_post]
    exact hv
  · rw [tile_post]
    exact ho

theorem valveTrip_goes (k : Nat) (v : Valve) (i : BitVec 12) : ValveGoes s k v .tripped (valveTrip s k v i) :=
  (valveMove_goes s k v .tripped 0).post ..

/-- An event of a valve of a powered tile, in a state that its row names, acts. -/
theorem valveEvent_acts {k : Nat} {v : Valve} {p : ValveState → Bool} (f : State → State) (ht : tileOn s k = true)
    (hp : p (valve (tile s k) v) = true) : valveEvent s k v p f = f s :=
  if_pos (by rw [ht, hp]; rfl)

theorem darkChan_clear (now : Nat) (c : ChanSt) (h : c.fuse = .clear) :
    ((darkChan now c).code, (darkChan now c).range) = (0, c.range) ∧ (darkChan now c).atPark = true := by
  unfold darkChan
  rw [if_neg (not_not.mpr h)]
  exact ⟨rfl, rfl⟩

section
variable (k : Tile) (v : Valve) (ht : tileOn s k.val = true)
include ht

theorem valveRejoin_yields (h : valve (tile s k.val) v = .blocked) :
    Yields (.valveRejoin k v) s (ValveGoes s k.val v (closeState s.now (tile s k.val))) :=
  ⟨_, congrArg Host.Outcome.next (valveEvent_acts s _ ht (beq_iff_eq.mpr h)), valveMove_goes ..⟩

theorem valveLimitEnter_yields (i : BitVec 12) (h : valve (tile s k.val) v = .conduct) :
    Yields (.valveLimitEnter k v i) s (ValveGoes s k.val v .limit) :=
  ⟨_, congrArg Host.Outcome.next (valveEvent_acts s _ ht (beq_iff_eq.mpr h)), valveMove_goes ..⟩

theorem valveLimitExit_yields (i : BitVec 12) (h : valve (tile s k.val) v = .limit) :
    Yields (.valveLimitExit k v i) s (ValveGoes s k.val v .conduct) :=
  ⟨_, congrArg Host.Outcome.next (valveEvent_acts s _ ht (beq_iff_eq.mpr h)), valveMove_goes ..⟩

theorem valveLimitExpired_yields (i : BitVec 12) (h : valve (tile s k.val) v = .limit) :
    Yields (.valveLimitExpired k v i) s (ValveGoes s k.val v .tripped) :=
  ⟨_, congrArg Host.Outcome.next (valveEvent_acts s _ ht (beq_iff_eq.mpr h)), valveTrip_goes ..⟩

theorem valveFastTrip_yields (i : BitVec 12) (h : (valve (tile s k.val) v).feeds = true) :
    Yields (.valveFastTrip k v i) s (ValveGoes s k.val v .tripped) :=
  ⟨_, congrArg Host.Outcome.next (valveEvent_acts s _ ht h), valveTrip_goes ..⟩

theorem valveReverseBlock_yields (mv : BitVec 16) (h : (valve (tile s k.val) v).carries = true) :
    Yields (.valveReverseBlock k v mv) s (ValveGoes s k.val v .blocked) :=
  ⟨_, congrArg Host.Outcome.next (valveEvent_acts s _ ht h), (valveMove_goes ..).post ..⟩

theorem softStartDone_yields (h : valve (tile s k.val) v = .softStart) :
    Yields (.softStartDone k v) s (ValveGoes s k.val v .conduct) :=
  ⟨_, congrArg Host.Outcome.next (valveEvent_acts s _ ht (beq_iff_eq.mpr h)), valveMove_goes ..⟩

theorem softStartTimeout_yields (i : BitVec 12) (h : valve (tile s k.val) v = .softStart) :
    Yields (.softStartTimeout k v i) s (ValveGoes s k.val v .tripped) :=
  ⟨_, congrArg Host.Outcome.next (valveEvent_acts s _ ht (beq_iff_eq.mpr h)), valveTrip_goes ..⟩

/-! ### The dark tile -/

theorem tileDark_yields (he : exemptNow s.now (tile s k.val) = false) (hd : (tile s k.val).dark = false)
    (ha : (tile s k.val).va.feeds = false) (hb : (tile s k.val).vb.feeds = false) : Yields (.tileDark k) s fun t =>
      (tile t k.val).dark = true ∧ (∀ ch, ch / 1024 = k.val → (chan s ch).fuse = .clear →
        output t ch = (0, (chan s ch).range) ∧ (chan t ch).atPark = true) ∧
      (∀ ch, ch / 1024 ≠ k.val → chan t ch = chan s ch) := by
  have hn : ¬ ((!tileOn s k.val) = true ∨ exemptNow s.now (tile s k.val) = true ∨ (tile s k.val).dark = true ∨
      (tile s k.val).va.feeds = true ∨ (tile s k.val).vb.feeds = true) := by
    simp [ht, he, hd, ha, hb]
  have hc : ∀ {t : State}, t.chans = tabMap (fun _ => {}) s.chans (k.val * 1024) 1024 (fun _ c => darkChan s.now c) → ∀ ch,
      chan t ch = if k.val * 1024 ≤ ch ∧ ch < k.val * 1024 + 1024 then darkChan s.now (chan s ch) else chan s ch :=
    fun h ch => chan_of_tabMap h ch
  refine ⟨_, if_neg hn, ?_, fun ch hk hf => ?_, fun ch hk => ?_⟩
  · rw [tile_post]
    exact congrArg TileSt.dark (tile_setTile_self s k.val _)
  · dsimp only [output]
    rw [hc (post_chans ..), if_pos (by omega)]
    exact darkChan_clear s.now (chan s ch) hf
  · rw [hc (post_chans ..), if_neg (by omega)]

end

/-! ### TL_VALVE_CMD -/

section
variable (fn : Fn) (k : Tile) (v : Valve)

theorem valveCmd_acts {ok : Bool} (f : State → State) (k : Nat) (h : ok = true) : valveCmd s k ok f = f s := if_pos h

/-- A refused command moves no valve and no channel. -/
theorem valveCmd_refused {ok : Bool} (f : State → State) (k : Nat) (h : ok = false) :
    (valveCmd s k ok f).tiles = s.tiles ∧ (valveCmd s k ok f).chans = s.chans := by
  unfold valveCmd
  rw [h]
  exact ⟨post_tiles .., post_chans ..⟩

theorem tlValveRelease_yields (rail : BitVec 16) (hw : mayWrite s fn (pgTILE k.val) 0x68 1 = true)
    (hs : sticky s (pgTILE k.val) (match v with | .va => 3 | .vb => 4) = false)
    (h : valve (tile s k.val) v = .tripped) (hr : 450 ≤ rail.toNat) :
    Yields (.tlValveRelease fn k v rail) s (ValveGoes s k.val v (closeState s.now (tile s k.val))) := by
  refine ⟨_, congrArg Host.Outcome.next ((wr_of_mayWrite s fn _ _ _ _ hw).trans (valveCmd_acts s _ _ ?_)), valveMove_goes ..⟩
  simp only [Bool.and_eq_true, Bool.not_eq_true', beq_iff_eq, decide_eq_true_eq]
  exact ⟨⟨h, hr⟩, hs⟩

theorem tlValveRelease_refused (rail : BitVec 16) (hw : mayWrite s fn (pgTILE k.val) 0x68 1 = true) (hr : rail.toNat < 450) :
    Yields (.tlValveRelease fn k v rail) s fun t => t.tiles = s.tiles ∧ t.chans = s.chans := by
  refine ⟨_, congrArg Host.Outcome.next (wr_of_mayWrite s fn _ _ _ _ hw), valveCmd_refused s _ k.val ?_⟩
  rw [decide_eq_false (Nat.not_le.mpr hr), Bool.and_false]
  rfl

theorem tlValveOn_yields (hw : mayWrite s fn (pgTILE k.val) 0x68 1 = true) (h : valve (tile s k.val) v = .heldOff) :
    Yields (.tlValveOn fn k v) s (ValveGoes s k.val v (closeState s.now (tile s k.val))) :=
  ⟨_, congrArg Host.Outcome.next ((wr_of_mayWrite s fn _ _ _ _ hw).trans (valveCmd_acts s _ _ (beq_iff_eq.mpr h))), valveMove_goes ..⟩

theorem tlValveOff_yields (hw : mayWrite s fn (pgTILE k.val) 0x68 0 = true) (h : valve (tile s k.val) v ≠ .heldOff)
    (ho : (valve (tile s k.val) (otherValve v)).carries = true) :
    Yields (.tlValveOff fn k v) s (ValveGoes s k.val v .heldOff) := by
  refine ⟨_, congrArg Host.Outcome.next ((wr_of_mayWrite s fn _ _ _ _ hw).trans (valveCmd_acts s _ _ ?_)), valveMove_goes ..⟩
  rw [ho, Bool.and_true]
  exact bne_iff_ne.mpr h

theorem tlValveOff_refused (hw : mayWrite s fn (pgTILE k.val) 0x68 0 = true)
    (ho : (valve (tile s k.val) (otherValve v)).carries = false) :
    Yields (.tlValveOff fn k v) s fun t => t.tiles = s.tiles := by
  refine ⟨_, congrArg Host.Outcome.next (wr_of_mayWrite s fn _ _ _ _ hw), (valveCmd_refused s _ k.val ?_).1⟩
  rw [ho, Bool.and_false]

end

/-- Settles O25: every event and command of a valve is one move of that valve, and a report moves none. -/
theorem valves : Obligations.Valves := by
  unfold Obligations.Valves
  intro s k v
  refine ⟨fun ht => ⟨valveRejoin_yields s k v ht, valveLimitEnter_yields s k v ht, valveLimitExit_yields s k v ht,
    valveLimitExpired_yields s k v ht, valveFastTrip_yields s k v ht, valveReverseBlock_yields s k v ht, softStartDone_yields s k v ht,
    softStartTimeout_yields s k v ht, tileDark_yields s k ht⟩, fun fn rail hw => ?_, fun fn hw => ?_⟩
  · exact ⟨fun h hr hs => tlValveRelease_yields s fn k v rail hw hs h hr, tlValveRelease_refused s fn k v rail hw, tlValveOn_yields s fn k v hw⟩
  · exact ⟨tlValveOff_yields s fn k v hw, tlValveOff_refused s fn k v hw⟩

end Sys2Proof.Machine
end

