-- ==== Sys2Proof/Proofs/TileChecks.lean ====
section
/-! O26. References of reeds, the checks of a tile and the block reset of a TILE page (R155, R160 to R165, R581). The file opens with a
channel table mapped in place and with the writes of a page header. -/

namespace Sys2Proof.Machine

open Sys2Proof.Safety (Yields output mayWrite CanonInv)

variable (s : State)

/-! ### Tables mapped in place -/

/-- Mapping a table of rising keys and dropping what has become the default maps each entry. -/
theorem tabGet_mapFilter {α : Type} [DecidableEq α] {d : α} (f : Nat → α → α) (hd : ∀ k, f k d = d) (l : Tab α)
    (h : (l.map (·.1)).Pairwise (· < ·)) (k : Nat) :
    tabGet (fun _ => d) ((l.map (fun e => (e.1, f e.1 e.2))).filter (fun e => decide (e.2 ≠ d))) k = f k (tabGet (fun _ => d) l k) := by
  induction l with
  | nil => exact (hd k).symm
  | cons p l ih =>
    have hk : (p.1 :: l.map (·.1)).Pairwise (· < ·) := h
    obtain ⟨hp, hl⟩ := List.pairwise_cons.mp hk
    have hrest := ih hl
    rw [List.map_cons, List.filter_cons]
    by_cases hk : k = p.1
    · have habs : ∀ q ∈ l, q.1 ≠ k := fun q hq e => by
        have := hp q.1 (List.mem_map_of_mem hq)
        omega
      have hnone : tabGet (fun _ => d) l k = d := tabGet_of_absent _ l k habs
      have hget : tabGet (fun _ => d) (p :: l) k = p.2 := if_pos hk
      rw [hget]
      split
      · subst hk
        exact if_pos rfl
      · rename_i hn
        have hdk : f p.1 p.2 = d := by simpa using hn
        rw [hrest, hnone, hd, hk, hdk]
    · have hget : tabGet (fun _ => d) (p :: l) k = tabGet (fun _ => d) l k := if_neg hk
      rw [hget, ← hrest]
      split
      · exact if_neg hk
      · rfl

/-- A mapped table of channels in canonical form. -/
theorem chan_mapChans (p : Nat → Bool) (f : ChanSt → ChanSt) (hf : f {} = {}) (h : CanonInv s) (ch : Nat) :
    chan (mapChans s p f) ch = if p (ch / 1024) then f (chan s ch) else chan s ch := by
  obtain ⟨_, _, hc, _⟩ := h
  have hm : (fun e : Nat × ChanSt => if p (e.1 / 1024) then (e.1, f e.2) else e) =
      fun e => (e.1, if p (e.1 / 1024) then f e.2 else e.2) := by
    funext e
    split <;> rfl
  unfold chan mapChans
  rw [hm]
  exact tabGet_mapFilter (fun k c => if p (k / 1024) then f c else c) (fun k => by rw [hf, ite_self]) s.chans
    ((tabWf_iff _ _).mp hc).1 ch

/-! ### Writes of a page's header -/

theorem ro_page (page o : Nat) (h : o < 4096) : ro page o / 4096 = page := by unfold ro; omega
theorem ro_off (page o : Nat) (h : o < 4096) : ro page o % 4096 = o := by unfold ro; omega

/-- A write that R607 admits at its own level takes effect on its page. -/
theorem bar0Write_of_mayWrite {fn : Fn} {page o lvl : Nat} {v : Word} (h : mayWrite s fn page o lvl = true) (ho : o < 4096)
    (hl : writeLvl s (ro page o) v = lvl) (hs : writeSlot (ro page o) v = none) (hf : isFeedPage page = false) :
    bar0Write s fn (ro page o) v true = pageWrite s fn (ro page o) v := by
  have hw := wr_of_mayWrite s fn page o lvl (fun s => pageWrite s fn (ro page o) v) h
  unfold bar0Write
  rw [hl, hs, ro_page page o ho, hf]
  exact hw

theorem writeSlot_header (page o : Nat) (v : Word) (h : o < 0x40) : writeSlot (ro page o) v = none := by
  have h1 : ro page o ≠ ro pgPLAN 0x40 := fun e => by unfold ro pgPLAN at e; omega
  have h2 : ro page o ≠ ro pgCOMMIT 0x44 := fun e => by unfold ro pgCOMMIT at e; omega
  unfold writeSlot
  rw [if_neg h1, if_neg h2]

theorem pageWrite_header (fn : Fn) (page o : Nat) (v : Word) (h : o < 0x40) (hl : o ≠ 0x28) :
    pageWrite s fn (ro page o) v = headerWrite s page o v := by
  unfold pageWrite
  dsimp only
  rw [ro_off page o (by omega), ro_page page o (by omega), if_neg hl, if_pos h]

/-- A write of a header register that its level admits acts on that register. -/
theorem headerAccess_of_mayWrite {fn : Fn} {page : BitVec 9} {o lvl : Nat} (v : Word) (h : mayWrite s fn page.toNat o lvl = true)
    (ho : o < 0x40) (hl : o ≠ 0x28) (hlvl : headerLvl page.toNat o = lvl) (hf : isFeedPage page.toNat = false) :
    headerAccess s fn page o v = .next (headerWrite s page.toNat o v) := by
  unfold headerAccess
  rw [bar0Write_of_mayWrite s h (by omega) ?_ (writeSlot_header _ _ _ ho) hf, pageWrite_header s fn _ _ _ ho hl]
  unfold writeLvl
  dsimp only
  rw [ro_off page.toNat o (by omega), ro_page page.toNat o (by omega), if_pos ho, hlvl]

/-! ### References -/

theorem reedRefFail_transfers (r : Reed) (ht : tileOn s (r.val / 32) = true) (hb : (tile s (r.val / 32)).backupFailed = false)
    (ho : (reed s r.val).onBackup = false) (hx : (reed s r.val).transfer = false) : Yields (.reedRefFail r) s fun t =>
      (reed t r.val).refBad = true ∧ (reed t r.val).transfer = true ∧ t.chans = s.chans := by
  refine ⟨refFail s r.val, rfl, ?_⟩
  unfold refFail
  dsimp only
  rw [if_neg (by simp [ht]), if_pos (by simp [hb]), if_neg (by simp [ho, hx]), reed_of_reeds (post_reeds ..), reed_setReed_self]
  exact ⟨rfl, rfl, (post_chans ..).trans rfl⟩

/-- With no reference left the clear channels of the reed fuse (R163). -/
theorem reedRefFail_fuses (r : Reed) (ht : tileOn s (r.val / 32) = true) (hb : (tile s (r.val / 32)).backupFailed = true) :
    Yields (.reedRefFail r) s fun t =>
      (∀ ch, ch / 32 = r.val → (chan s ch).fuse = .clear →
        output t ch = (0, (chan s ch).range) ∧ (chan t ch).fuse = .fused ∧ (chan t ch).kind = 3) ∧
      (∀ ch, ch / 32 ≠ r.val → chan t ch = chan s ch) := by
  let refLost (c : ChanSt) : ChanSt := if c.fuse = .clear then { fuseChan s.now c .fused with kind := 3 } else c
  have hc : (refFail s r.val).chans = tabMap (fun _ => {}) s.chans (r.val * 32) 32 (fun _ c => refLost c) := by
    unfold refFail
    dsimp only
    rw [if_neg (by simp [ht]), if_neg (by simp [hb])]
    exact (post_chans ..).trans rfl
  refine ⟨refFail s r.val, rfl, fun ch hr hf => ?_, fun ch hr => ?_⟩
  · dsimp only [output]
    rw [chan_of_tabMap hc, if_pos (by omega), show refLost (chan s ch) = _ from if_pos hf]
    exact ⟨rfl, rfl, rfl⟩
  · rw [chan_of_tabMap hc, if_neg (by omega)]

theorem tlRefReturn_yields (fn : Fn) (k : Tile) (q : Fin 32) (hw : mayWrite s fn (pgTILE k.val) 0x78 1 = true)
    (hb : (reed s (k.val * 32 + q.val)).onBackup = true) (hs : sticky s (pgTILE k.val) 8 = false)
    (hp : reedPlays s (k.val * 32 + q.val) = false) :
    Yields (.tlRefReturn fn k q true) s (fun t => (reed t (k.val * 32 + q.val)).onBackup = false ∧
      (reed t (k.val * 32 + q.val)).refBad = false ∧ t.chans = s.chans) := by
  have hk : (k.val * 32 + q.val) / 32 = k.val := by omega
  refine ⟨_, congrArg Host.Outcome.next (wr_of_mayWrite s fn _ _ _ _ hw), ?_⟩
  unfold refReturn
  dsimp only
  rw [hk, hb, hs, hp, if_pos (by decide), reed_setReed_self]
  exact ⟨rfl, rfl, rfl⟩

theorem tlRefReturn_refused (fn : Fn) (k : Tile) (q : Fin 32) (hw : mayWrite s fn (pgTILE k.val) 0x78 1 = true) :
    Yields (.tlRefReturn fn k q false) s (fun t => t.reeds = s.reeds ∧ t.chans = s.chans) := by
  refine ⟨_, congrArg Host.Outcome.next (wr_of_mayWrite s fn _ _ _ _ hw), ?_⟩
  unfold refReturn
  dsimp only
  rw [Bool.and_false, if_neg (by simp)]
  exact ⟨post_reeds .., post_chans ..⟩

/-! ### The checks of a tile -/

theorem backupFail_yields (k : Tile) (d : BitVec 6) (ht : tileOn s k.val = true) : Yields (.backupFail k d) s fun t =>
    (tile t k.val).backupFailed = true ∧ t.chans = s.chans := by
  by_cases hb : (tile s k.val).backupFailed = true
  · exact ⟨s, if_pos (.inr hb), hb, rfl⟩
  · refine ⟨_, if_neg (by simp [ht, hb]), ?_, (post_chans ..).trans rfl⟩
    rw [tile_post]
    exact congrArg TileSt.backupFailed (tile_setTile_self s k.val _)

theorem isumMismatch_yields (k : Tile) (d : BitVec 32) (ht : tileOn s k.val = true) (hp : tilePlays s k.val = false)
    (ha : (tile s k.val).va = .conduct) (hb : (tile s k.val).vb = .conduct) (hd : sumsDiffer (isum s k.val) d.toInt = true) :
    Yields (.isumMismatch k d) s fun t => mismatchLive t k.val = true ∧ t.chans = s.chans := by
  refine ⟨_, if_neg (by simp [ht, hp, ha, hb, hd]), ?_, (post_chans ..).trans rfl⟩
  unfold mismatchLive
  rw [tile_post, beq_iff_eq]
  refine (congrArg TileSt.mismatchAt (tile_setTile_self s k.val _)).trans (congrArg some ?_)
  unfold isum
  rw [post_chans]
  rfl

/-! ### The block reset of a TILE page -/

theorem stopChan_of_tongue (now : Nat) (c : ChanSt) (g : Tongue) (h : c.tongue = some g) :
    (stopChan now c).code = g.final ∧ (stopChan now c).tongue = none := by
  unfold stopChan finalChan
  rw [h]
  exact ⟨rfl, rfl⟩

theorem stopChan_waiting (now : Nat) (c : ChanSt) : (stopChan now c).waiting = none := rfl

theorem stopChan_of_none (now : Nat) (c : ChanSt) (h : c.tongue = none) :
    ((stopChan now c).code, (stopChan now c).range) = (c.code, c.range) := by
  unfold stopChan finalChan
  rw [h]

/-- What a block reset does beside its action moves no channel. -/
theorem blkReset_chans (page : Nat) (h : bit (pageCap page) 17 = true) :
    (blkReset s page).chans = (blkAction (openShadow s page) page).chans := by
  unfold blkReset
  rw [if_neg (by simp [h])]
  dsimp only
  split
  · exact ((alert_keeps (may := { bore := true }) (record_keeps rfl (setReg_keeps Keeps.rfl))).chans rfl)
  · exact ((record_keeps (may := { bore := true }) rfl (setReg_keeps Keeps.rfl)).chans rfl)

theorem pgTILE_kind (k : Tile) : pageKind (pgTILE k.val) = 0x20 := by
  have := k.isLt
  unfold pageKind pgTILE
  rw [if_pos (by omega)]

theorem pageCap_tile : ∀ k : Tile, bit (pageCap (pgTILE k.val)) 17 = true := by decide

theorem isFeedPage_tile : ∀ k : Tile, isFeedPage (pgTILE k.val) = false := by decide

theorem headerWrite_blkRst (page : Nat) : headerWrite s page 0x0C 1 = blkReset s page := by
  unfold headerWrite
  exact if_pos (by decide)

theorem tileBlk_chans (t : Nat) : (tileBlk s t).chans = (mapChans s (· == t) (stopChan s.now)).chans :=
  chans_of_outside (redoTile_outside ..)

theorem tileBlkReset_yields (fn : Fn) (k : Tile) (hc : CanonInv s) (hw : mayWrite s fn (pgTILE k.val) 0x0C 0 = true) :
    Yields (.tileBlkReset fn k) s fun t => ∀ ch, chan t ch = if ch / 1024 = k.val then stopChan s.now (chan s ch) else chan s ch := by
  have hk := k.isLt
  have hn : (BitVec.ofNat 9 (pgTILE k.val)).toNat = pgTILE k.val :=
    (BitVec.toNat_ofNat _ 9).trans (Nat.mod_eq_of_lt (by unfold pgTILE; omega))
  have hlvl : headerLvl (pgTILE k.val) 0x0C = 0 := if_pos (pageCap_tile k)
  have e := headerAccess_of_mayWrite s (page := BitVec.ofNat 9 (pgTILE k.val)) (o := 0x0C) (lvl := 0) (fn := fn) 1
    (by rw [hn]; exact hw) (by decide) (by decide) (by rw [hn]; exact hlvl) (by rw [hn]; exact isFeedPage_tile k)
  rw [hn] at e
  refine ⟨_, e, fun ch => ?_⟩
  have ha : (blkReset s (pgTILE k.val)).chans = (mapChans s (· == k.val) (stopChan s.now)).chans := by
    rw [blkReset_chans s _ (pageCap_tile k)]
    unfold blkAction
    rw [if_pos (pgTILE_kind k), tileBlk_chans, show pgTILE k.val - 0x20 = k.val by unfold pgTILE; omega]
    rfl
  rw [headerWrite_blkRst,chan_of_chans ha, chan_mapChans s _ _ rfl hc]
  simp only [beq_iff_eq]

/-- Settles O26: a lost reference fuses by one map over its reed, and a block reset stops the channels of its tile by another. -/
theorem referencesAndTileChecks : Obligations.ReferencesAndTileChecks := by
  unfold Obligations.ReferencesAndTileChecks
  intro s
  refine ⟨fun r ht => ⟨reedRefFail_transfers s r ht, reedRefFail_fuses s r ht⟩, fun r ht => ⟨_, if_pos ht, reed_setReed_self .., rfl⟩,
    fun k => ⟨backupFail_yields s k, ⟨_, rfl, tile_setTile_self .., rfl⟩, isumMismatch_yields s k⟩,
    fun fn k q hw hb hs hp => ⟨tlRefReturn_yields s fn k q hw hb hs hp, tlRefReturn_refused s fn k q hw⟩, fun fn k hc hw => ?_⟩
  obtain ⟨t, e, h⟩ := tileBlkReset_yields s fn k hc hw
  refine ⟨t, e, fun ch g hk hg => ?_, fun ch hk => ?_, fun ch hk => ?_⟩
  · rw [h, if_pos hk]
    exact stopChan_of_tongue s.now _ g hg
  · dsimp only [output]
    rw [h, if_pos hk]
    exact ⟨stopChan_waiting s.now _, stopChan_of_none s.now _⟩
  · rw [h, if_neg hk]

end Sys2Proof.Machine
end

