-- ==== Sys2Proof/Proofs/ChannelCommands.lean ====
section
/-! O24. TL_CH_CMD, TL_CH_CFG and TL_CH_PWR (R136, R138, R141 to R144, R152, R166, R616). -/

namespace Sys2Proof.Machine

open Sys2Proof.Safety (Yields output mayWrite mayRead OtherChans SameOutputs)

variable (s : State)

/-! ### One channel's part of a fold -/

section
variable {f : State → Nat → State} (hf : ∀ u j c, c ≠ j → chan (f u j) c = chan u c)
include hf

theorem foldl_untouched (l : List Nat) (u : State) {c : Nat} (h : c ∉ l) : chan (l.foldl f u) c = chan u c := by
  induction l generalizing u with
  | nil => rfl
  | cons j l ih => exact (ih (f u j) (fun m => h (List.mem_cons_of_mem _ m))).trans (hf u j c (fun e => h (e ▸ List.mem_cons_self ..)))

/-- In a fold whose steps each act on one channel alone, a channel of the list is acted on once, as it stood at first, in the cycle of
the fold. -/
theorem foldl_own (hnow : ∀ u j, (f u j).now = u.now) (l : List Nat) (hn : l.Nodup) {c : Nat} (hc : c ∈ l) :
    ∃ u, u.now = s.now ∧ chan u c = chan s c ∧ chan (l.foldl f s) c = chan (f u c) c := by
  induction l generalizing s with
  | nil => cases hc
  | cons j l ih =>
    obtain ⟨hj, hl⟩ := List.nodup_cons.mp hn
    by_cases e : c = j
    · subst e
      exact ⟨s, rfl, rfl, foldl_untouched hf l (f s c) hj⟩
    · obtain ⟨u, ht, hu, h⟩ := ih (f s j) hl ((List.mem_cons.mp hc).resolve_left e)
      exact ⟨u, ht.trans (hnow s j), hu.trans (hf s j c e), h⟩

end

theorem mem_tileChans (t ch : Nat) : ch ∈ tileChans t ↔ ch / 1024 = t := by
  unfold tileChans
  rw [List.mem_range'_1]
  omega

theorem nodup_tileChans (t : Nat) : (tileChans t).Nodup := List.nodup_range'

/-! ### What a channel's command makes of it -/

/-- A channel that is brought back: its park code and range, its fuse clear. -/
def released (s : State) (ch : Nat) : ChanSt :=
  { takeCoef (setBase s ch (parkCode (chan s ch).park)) ch
      ((chan s ch).load s.now (parkCode (chan s ch).park) (parkRange (chan s ch).park) 1) with fuse := .clear, atPark := true }

theorem chan_releaseChan (ch k : Nat) : chan (releaseChan s ch) k = chan (setChan s ch (released s ch)) k := rfl

theorem releaseChan_releases (ch : Nat) : let t := releaseChan s ch
    output t ch = (parkCode (chan s ch).park, parkRange (chan s ch).park) ∧ (chan t ch).fuse = .clear ∧ (chan t ch).atPark = true ∧
      OtherChans ch s t := by
  obtain ⟨hc, ho⟩ := otherChans_setChan (chan_releaseChan s ch)
  dsimp only [output]
  rw [hc]
  exact ⟨rfl, rfl, rfl, ho⟩

/-! ### Commands of one channel -/

section
variable (k : Nat) {applies : ChanSt → Bool} {ok : State → Nat → Bool} {act : State → Nat → State}

theorem chCmd_acts (ha : applies (chan s (selected s k)) = true) (ho : ok s (selected s k) = true) :
    chCmd s k false applies ok act = act s (selected s k) := by
  unfold chCmd
  dsimp only
  rw [ha, ho]
  rfl

/-- A command that is refused for its channel moves none. -/
theorem chCmd_refused (ho : ok s (selected s k) = false) : (chCmd s k false applies ok act).chans = s.chans := by
  unfold chCmd
  dsimp only
  rw [ho, Bool.and_false]
  exact post_chans ..

/-- With ALL, every channel of the tile that the command applies to and is accepted for is acted on. -/
theorem chCmd_all (hf : ∀ u j c, c ≠ j → chan (act u j) c = chan u c) (hnow : ∀ u j, (act u j).now = u.now) {c : Nat} (hk : c / 1024 = k) (ha : applies (chan s c) = true)
    (ho : ok s c = true) : ∃ u, chan u c = chan s c ∧ chan (chCmd s k true applies ok act) c = chan (act u c) c := by
  have hc : c ∈ ((tileChans k).filter (fun ch => applies (chan s ch))).filter (ok s) :=
    List.mem_filter.mpr ⟨List.mem_filter.mpr ⟨(mem_tileChans k c).mpr hk, ha⟩, ho⟩
  obtain ⟨u, _, hu, h⟩ := foldl_own s hf hnow _ (((nodup_tileChans k).filter _).filter _) hc
  refine ⟨u, hu, ?_⟩
  unfold chCmd
  dsimp only
  rw [if_neg (by decide)]
  split
  · exact h
  · exact (chan_post ..).trans h

end

theorem chan_tick (k : Nat) : chan (tick s) k = chan s k := rfl

theorem releaseOk_of_sticky (ch : Nat) (h : sticky s (pgTILE (ch / 1024)) (kindSource (chan s ch).kind.toNat) = true) :
    releaseOk s ch = false := by
  unfold releaseOk
  dsimp only
  rw [h]
  rfl

/-- The selected channel lies in its tile. -/
theorem selected_tile (k : Nat) : selected s k / 1024 = k := by
  have h : regFld s (ro (pgTILE k) 0x48) 0 10 < 1024 := fld_lt _ 0 10
  unfold selected
  omega

section
variable (fn : Fn) (k : Tile)

theorem tlChRelease_one (hw : mayWrite s fn (pgTILE k.val) 0x5C 1 = true) (hf : (chan s (selected s k.val)).fuse = .fused)
    (ho : releaseOk s (selected s k.val) = true) : Yields (.tlChRelease fn k false) s fun t =>
      output t (selected s k.val) = (parkCode (chan s (selected s k.val)).park, parkRange (chan s (selected s k.val)).park) ∧
      (chan t (selected s k.val)).fuse = .clear ∧ (chan t (selected s k.val)).atPark = true ∧ OtherChans (selected s k.val) s t :=
  ⟨_, congrArg Host.Outcome.next ((wr_of_mayWrite s fn _ _ _ _ hw).trans
    (congrArg tick (chCmd_acts s k.val (beq_iff_eq.mpr hf) ho))), releaseChan_releases s (selected s k.val)⟩

theorem tlChRelease_refused (hw : mayWrite s fn (pgTILE k.val) 0x5C 1 = true)
    (hs : sticky s (pgTILE k.val) (kindSource (chan s (selected s k.val)).kind.toNat) = true) :
    Yields (.tlChRelease fn k false) s fun t => t.chans = s.chans :=
  ⟨_, congrArg Host.Outcome.next (wr_of_mayWrite s fn _ _ _ _ hw),
    chCmd_refused s k.val (releaseOk_of_sticky s _ (by rw [selected_tile]; exact hs))⟩

theorem tlChRelease_all (hw : mayWrite s fn (pgTILE k.val) 0x5C 1 = true) : Yields (.tlChRelease fn k true) s fun t =>
    ∀ c, c / 1024 = k.val → (chan s c).fuse = .fused → releaseOk s c = true →
      (chan t c).fuse = .clear ∧ output t c = (parkCode (chan s c).park, parkRange (chan s c).park) := by
  refine ⟨_, congrArg Host.Outcome.next (wr_of_mayWrite s fn _ _ _ _ hw), fun c hk hf ho => ?_⟩
  obtain ⟨u, hu, h⟩ := chCmd_all s k.val (applies := fun c => c.fuse == .fused) (ok := releaseOk) (act := releaseChan)
    (fun u j c hc => (releaseChan_releases u j).2.2.2 c hc) (fun _ _ => rfl) hk (beq_iff_eq.mpr hf) ho
  obtain ⟨hout, hfu, _⟩ := releaseChan_releases u c
  have ht : chan (tlChCmd s k.val 1 true) c = chan (releaseChan u c) c := h
  dsimp only [output] at hout ⊢
  rw [ht, hfu, hout, hu]
  exact ⟨rfl, rfl⟩

theorem tlChOff_one (hw : mayWrite s fn (pgTILE k.val) 0x5C 1 = true)
    (hf : (chan s (selected s k.val)).fuse = .clear ∨ (chan s (selected s k.val)).fuse = .fused) :
    Yields (.tlChOff fn k false) s fun t => output t (selected s k.val) = (0, (chan s (selected s k.val)).range) ∧
      (chan t (selected s k.val)).fuse = .off ∧ OtherChans (selected s k.val) s t := by
  have ha : ((chan s (selected s k.val)).fuse == .clear || (chan s (selected s k.val)).fuse == .fused) = true := by
    rcases hf with h | h <;> rw [h] <;> rfl
  refine ⟨_, congrArg Host.Outcome.next ((wr_of_mayWrite s fn _ _ _ _ hw).trans (chCmd_acts s k.val
    (applies := fun c => c.fuse == .clear || c.fuse == .fused) (ok := fun _ _ => true)
    (act := fun s ch => setChan s ch (fuseChan s.now (chan s ch) .off)) ha rfl)), ?_⟩
  obtain ⟨hc, ho⟩ := otherChans_setChan (s := s) (ch := selected s k.val)
    (c := fuseChan s.now (chan s (selected s k.val)) .off) (fun _ => rfl)
  dsimp only [output]
  rw [hc]
  exact ⟨rfl, rfl, ho⟩

theorem tlChOn_one (hw : mayWrite s fn (pgTILE k.val) 0x5C 1 = true) (hf : (chan s (selected s k.val)).fuse = .off) :
    Yields (.tlChOn fn k false) s fun t =>
      output t (selected s k.val) = (parkCode (chan s (selected s k.val)).park, parkRange (chan s (selected s k.val)).park) ∧
      (chan t (selected s k.val)).fuse = .clear ∧ OtherChans (selected s k.val) s t := by
  obtain ⟨ho, hfu, _, hx⟩ := releaseChan_releases s (selected s k.val)
  exact ⟨_, congrArg Host.Outcome.next ((wr_of_mayWrite s fn _ _ _ _ hw).trans (chCmd_acts s k.val
    (applies := fun c => c.fuse == .off) (ok := fun _ _ => true) (beq_iff_eq.mpr hf) rfl)), ho, hfu, hx⟩

theorem tlChClrFlags_one (hw : mayWrite s fn (pgTILE k.val) 0x5C 1 = true) : Yields (.tlChClrFlags fn k false) s fun t =>
    chan t (selected s k.val) = clearFlags (chan s (selected s k.val)) ∧ OtherChans (selected s k.val) s t :=
  ⟨_, congrArg Host.Outcome.next ((wr_of_mayWrite s fn _ _ _ _ hw).trans (chCmd_acts s k.val
    (applies := fun _ => true) (ok := fun _ _ => true) (act := fun s ch => setChan s ch (clearFlags (chan s ch))) rfl rfl)), otherChans_setChan (fun _ => rfl)⟩

theorem tlChUnlock_one (hw : mayWrite s fn (pgTILE k.val) 0x5C 0 = true) (hf : (chan s (selected s k.val)).fuse = .locked)
    (ho : releaseOk s (selected s k.val) = true) : Yields (.tlChUnlock fn k false) s fun t =>
      (chan t (selected s k.val)).fuse = .clear ∧ (chan t (selected s k.val)).consec = 0 ∧
      output t (selected s k.val) = (parkCode (chan s (selected s k.val)).park, parkRange (chan s (selected s k.val)).park) ∧
      OtherChans (selected s k.val) s t := by
  refine ⟨_, congrArg Host.Outcome.next ((wr_of_mayWrite s fn _ _ _ _ hw).trans
    (congrArg tick (chCmd_acts s k.val (beq_iff_eq.mpr hf) ho))), ?_⟩
  obtain ⟨hr, hfu, _, hx⟩ := releaseChan_releases s (selected s k.val)
  obtain ⟨hc, hy⟩ := otherChans_setChan (s := releaseChan s (selected s k.val)) (ch := selected s k.val)
    (c := { chan (releaseChan s (selected s k.val)) (selected s k.val) with consec := 0 }) (fun _ => rfl)
  dsimp only [output] at hr ⊢
  simp only [chan_tick]
  rw [hc]
  exact ⟨hfu, rfl, hr, fun c hne => (hy c hne).trans (hx c hne)⟩

/-! ### TL_CH_CFG and TL_CH_PWR -/

/-- The configuration that a write of TL_CH_CFG stores: SHORT_ACT is the writer's at P0 only (R616). -/
theorem cfg_bits (a b c : Bool) : (BitVec.ofNat 3 (b2n a + 2 * b2n b + 4 * b2n c)).getLsbD 0 = a ∧
    (BitVec.ofNat 3 (b2n a + 2 * b2n b + 4 * b2n c)).getLsbD 1 = b ∧ (BitVec.ofNat 3 (b2n a + 2 * b2n b + 4 * b2n c)).getLsbD 2 = c := by
  revert a b c
  decide

theorem tooLow_p0 (fn : Fn) : tooLow fn 0 = true ↔ fn ≠ .pf0 := by cases fn <;> decide

theorem tlChCfgWrite_yields (v : Word) (hw : mayWrite s fn (pgTILE k.val) 0x4C 1 = true) : Yields (.tlChCfgWrite fn k v) s fun t =>
    (chan t (selected s k.val)).cfg.getLsbD 0 = bit v 0 ∧ (chan t (selected s k.val)).cfg.getLsbD 2 = bit v 2 ∧
    (chan t (selected s k.val)).cfg.getLsbD 1 = (if fn = .pf0 then bit v 1 else (chan s (selected s k.val)).cfg.getLsbD 1) ∧
    (bit v 0 = false → (chan t (selected s k.val)).complLive = false) ∧ SameOutputs s t ∧ OtherChans (selected s k.val) s t := by
  refine ⟨_, congrArg Host.Outcome.next (wr_of_mayWrite s fn _ _ _ _ hw), ?_⟩
  have hact : (if (tooLow fn 0 && bit v 1 != (chan s (selected s k.val)).cfg.getLsbD 1) = true
      then (chan s (selected s k.val)).cfg.getLsbD 1 else bit v 1) =
      if fn = .pf0 then bit v 1 else (chan s (selected s k.val)).cfg.getLsbD 1 := by
    by_cases h : fn = .pf0
    · rw [if_pos h, if_neg (by rw [h]; simp [tooLow, fnNum])]
    · rw [if_neg h, (tooLow_p0 fn).mpr h, Bool.true_and]
      by_cases e : bit v 1 = (chan s (selected s k.val)).cfg.getLsbD 1 <;> simp [e]
  have hden : ∀ (b : Bool) (a : Access) (u : State), u.chans = (if b then denied s a 0 else s).chans → u.chans = s.chans := by
    intro b a u hu
    cases b
    · exact hu
    · exact hu.trans (chans_of_still (denied_still ..))
  unfold chCfg
  dsimp only
  rw [hact]
  generalize hs' : (if (tooLow fn 0 && bit v 1 != (chan s (selected s k.val)).cfg.getLsbD 1) = true
      then denied s { fn := fn, off := ro (pgTILE k.val) 0x4C, write := true, lvl := 0 } 0 else s) = s'
  have hch : s'.chans = s.chans := hden _ _ s' (by rw [← hs'])
  obtain ⟨h0, h1, h2⟩ := cfg_bits (bit v 0) (if fn = .pf0 then bit v 1 else (chan s (selected s k.val)).cfg.getLsbD 1) (bit v 2)
  generalize hx : ({ chan s (selected s k.val) with
    cfg := BitVec.ofNat 3 (b2n (bit v 0) + 2 * b2n (if fn = .pf0 then bit v 1 else (chan s (selected s k.val)).cfg.getLsbD 1) +
      4 * b2n (bit v 2)), complLive := (chan s (selected s k.val)).complLive && bit v 0 } : ChanSt) = x
  have hcfg : x.cfg = BitVec.ofNat 3 (b2n (bit v 0) +
      2 * b2n (if fn = .pf0 then bit v 1 else (chan s (selected s k.val)).cfg.getLsbD 1) + 4 * b2n (bit v 2)) := by rw [← hx]
  have hlive : x.complLive = ((chan s (selected s k.val)).complLive && bit v 0) := by rw [← hx]
  have hout : (x.code, x.range) = ((chan s (selected s k.val)).code, (chan s (selected s k.val)).range) := by rw [← hx]
  have hall : ∀ c, chan (setChan s' (selected s k.val) x) c = if c = selected s k.val then x else chan s c := fun c => by
    rw [chan_setChan, chan_of_chans hch]
  rw [hall, if_pos rfl, hcfg]
  refine ⟨h0, h2, h1, fun hb => by rw [hlive, hb, Bool.and_false], fun c => ?_, fun c hc => (hall c).trans (if_neg hc)⟩
  dsimp only [output]
  rw [hall]
  split
  · rename_i e
    rw [e]
    exact hout
  · rfl

theorem tlChPwrRead_yields (hr : mayRead s fn (pgTILE k.val) 0x58 = true) : Yields (.tlChPwrRead fn k) s fun t =>
    fld t.host.rdata 0 16 = (chan s (selected s k.val)).vHtr.toNat ∧
    fld t.host.rdata 16 16 = (chan s (selected s k.val)).pUw.toNat ∧ t.chans = s.chans := by
  refine ⟨_, congrArg Host.Outcome.next (rd_of_mayRead s fn _ _ _ hr), ?_⟩
  dsimp only
  rw [answer_rdata, answer_chans]
  unfold chPwrRead pack
  dsimp only [List.foldl_cons, List.foldl_nil]
  refine ⟨?_, ?_, ?_⟩
  · rw [fld_put_below _ _ _ _ _ _ (by decide), fld_put_self _ _ _ _ (by decide)]
    exact Nat.mod_eq_of_lt (chan s (selected s k.val)).vHtr.isLt
  · rw [fld_put_self _ _ _ _ (by decide)]
    exact Nat.mod_eq_of_lt (chan s (selected s k.val)).pUw.isLt
  · split <;> rfl

end

/-- Settles O24: RELEASE, UNLOCK and ON bring a channel back by one lemma, and with ALL every channel is acted on once. -/
theorem channelCommands : Obligations.ChannelCommands := by
  unfold Obligations.ChannelCommands
  intro s fn k
  exact ⟨fun hw => ⟨tlChRelease_one s fn k hw, fun _ hs => tlChRelease_refused s fn k hw hs, tlChRelease_all s fn k hw, tlChOff_one s fn k hw,
    tlChOn_one s fn k hw, tlChClrFlags_one s fn k hw⟩, tlChUnlock_one s fn k, tlChCfgWrite_yields s fn k, tlChPwrRead_yields s fn k⟩

end Sys2Proof.Machine
end

