-- ==== Sys2Proof/Proofs/ParkStore.lean ====
section
/-! O20. The park loader, the park store and park events (R87, R127, R145 to R151, R611). -/

namespace Sys2Proof.Machine

open Sys2Proof.Safety (Yields output mayWrite mayRead OtherChans SameOutputs)

variable (s : State)

/-! ### Masks -/

theorem testBit_maskOf (l : List Nat) (i : Nat) : (maskOf l).testBit i = decide (i ∈ l) := by
  have h : ∀ (l : List Nat) (m : Nat), (l.foldl (fun m i => m ||| 2 ^ i) m).testBit i = (m.testBit i || decide (i ∈ l)) := by
    intro l
    induction l with
    | nil => simp
    | cons j l ih =>
      intro m
      rw [List.foldl_cons, ih, Nat.testBit_or, Nat.testBit_two_pow]
      by_cases hj : i = j
      · simp [hj]
      · simp [hj, Ne.symm hj]
  unfold maskOf
  rw [h, Nat.zero_testBit, Bool.false_or]

theorem mem_bitsOf (w n i : Nat) : i ∈ bitsOf w n ↔ i < n ∧ w.testBit i = true := by
  unfold bitsOf
  rw [List.mem_filter, List.mem_range]

/-- With every tile on, a mask of tiles reaches all that it names. -/
theorem mask_of_tileOn (w : Word) (h : ∀ t < 32, tileOn s t = true) :
    BitVec.ofNat 32 (maskOf ((bitsOf w.toNat 32).filter (tileOn s))) = w := by
  refine BitVec.eq_of_getLsbD_eq fun i hi => ?_
  have hm : i ∈ (bitsOf w.toNat 32).filter (tileOn s) ↔ w.toNat.testBit i = true := by
    rw [List.mem_filter, mem_bitsOf]
    exact ⟨fun h => h.1.2, fun hb => ⟨⟨hi, hb⟩, h i hi⟩⟩
  rw [BitVec.getLsbD_ofNat, testBit_maskOf, decide_eq_true hi, Bool.true_and]
  exact Bool.eq_iff_iff.mpr (decide_eq_true_iff.trans hm)

theorem tileOn_of_dom (h : s.power.dom = 0xFFFFF) : ∀ t < 32, tileOn s t = true := by
  have hb : ∀ d < 20, (0xFFFFF : BitVec 20).getLsbD d = true := by decide
  intro t ht
  unfold tileOn domOn
  rw [h]
  exact hb _ (by omega)

/-! ### Park events -/

/-- A park event of a mask of tiles that are all on is requested of each of them. -/
theorem parkEvent_events (cause : Nat) (tiles : Word) (hd : s.power.dom = 0xFFFFF) (ht : tiles ≠ 0) :
    (parkEvent s cause tiles).park = { s.park with
      lastCause := BitVec.ofNat 4 cause,
      events := s.park.events ++ [{ cause := BitVec.ofNat 4 cause, tiles := tiles, left := tiles }] } := by
  unfold parkEvent
  rw [if_neg ht]
  dsimp only
  rw [mask_of_tileOn s tiles (tileOn_of_dom s hd), if_neg ht, post_park]

theorem parkEvent_chans (cause : Nat) (tiles : Word) : (parkEvent s cause tiles).chans = s.chans := by
  unfold parkEvent
  split
  · rfl
  · exact post_chans ..

theorem sameOutputs_of_chans {s t : State} (h : t.chans = s.chans) : SameOutputs s t := fun ch => by
  dsimp only [output]
  rw [chan_of_chans h]

theorem getReg_parkEvent (cause : Nat) (tiles : Word) {off : Nat} (h : unmarked? off = true) :
    getReg (parkEvent s cause tiles) off = getReg s off := by
  unfold parkEvent
  split
  · rfl
  · exact (getReg_post _ h ..).trans rfl

/-! ### A tile that the event reaches -/

theorem parkChan_other (ch k : Nat) (h : k ≠ ch) : chan (parkChan s ch) k = chan s k := by
  unfold parkChan
  dsimp only
  split
  · rfl
  · rw [chan_setChan, if_neg h]
    rfl

theorem parkChan_now (ch : Nat) : (parkChan s ch).now = s.now := by
  unfold parkChan
  dsimp only
  split <;> rfl

theorem parkChan_parks (ch : Nat) (hf : (chan s ch).fuse = .clear) (ho : outranks s (chan s ch) 3 = false) :
    output (parkChan s ch) ch = (parkCode (chan s ch).park, parkRange (chan s ch).park) ∧ (chan (parkChan s ch) ch).atPark = true := by
  unfold parkChan
  dsimp only [output]
  rw [if_neg (by simp [hf, ho]), chan_setChan_self]
  exact ⟨rfl, rfl⟩

theorem parkChan_fused (ch : Nat) (hf : (chan s ch).fuse ≠ .clear) : parkChan s ch = s := by
  unfold parkChan
  dsimp only
  rw [if_pos (by simp [hf])]

theorem reachFirst_one (t : Nat) (e : ParkEvent) (h : e.left.getLsbD t = true) : ∃ es, reachFirst t [e] = some es := by
  unfold reachFirst
  rw [if_pos h]
  exact ⟨_, rfl⟩

theorem chan_parkReach (t : Nat) (e : ParkEvent) (he : s.park.events = [e]) (hl : e.left.getLsbD t = true) (ch : Nat) :
    ∃ u, u.now = s.now ∧ chan u ch = chan s ch ∧ chan (parkReach s t) ch = if ch / 1024 = t then chan (parkChan u ch) ch else chan s ch := by
  obtain ⟨es, hes⟩ := reachFirst_one t e hl
  have hr : (parkReach s t).chans = ((tileChans t).foldl parkChan { s with park := { s.park with events := es } }).chans := by
    unfold parkReach
    rw [he, hes]
    exact chans_of_outside (redoTile_outside ..)
  by_cases hk : ch / 1024 = t
  · obtain ⟨u, hn, hu, h⟩ := foldl_own { s with park := { s.park with events := es } } (fun u j c hc => parkChan_other u j c hc)
      parkChan_now (tileChans t) (nodup_tileChans t) ((mem_tileChans t ch).mpr hk)
    refine ⟨u, hn, hu, ?_⟩
    rw [chan_of_chans hr, h, if_pos hk]
  · refine ⟨s, rfl, rfl, ?_⟩
    rw [chan_of_chans hr, if_neg hk]
    exact foldl_untouched (fun u j c hc => parkChan_other u j c hc) _ _ (fun m => hk ((mem_tileChans t ch).mp m))

theorem parkEventReachTile_yields (t' : Tile) (e : ParkEvent) (he : s.park.events = [e]) (hl : e.left.getLsbD t'.val = true) :
    Yields (.parkEventReachTile t') s fun t =>
      (∀ ch, ch / 1024 = t'.val → ((chan s ch).fuse = .clear → outranks s (chan s ch) 3 = false →
        output t ch = (parkCode (chan s ch).park, parkRange (chan s ch).park) ∧ (chan t ch).atPark = true) ∧
        ((chan s ch).fuse ≠ .clear → output t ch = output s ch)) ∧
      (∀ ch, ch / 1024 ≠ t'.val → output t ch = output s ch) := by
  refine ⟨parkReach s t'.val, rfl, fun ch hk => ⟨fun hf ho => ?_, fun hf => ?_⟩, fun ch hk => ?_⟩
  · obtain ⟨u, hn, hu, h⟩ := chan_parkReach s t'.val e he hl ch
    rw [if_pos hk] at h
    obtain ⟨hp, hat⟩ := parkChan_parks u ch (by rw [hu]; exact hf) (by unfold outranks at ho ⊢; rw [hu, hn]; exact ho)
    dsimp only [output] at hp ⊢
    rw [h, hp, hat, hu]
    exact ⟨rfl, rfl⟩
  · obtain ⟨u, hn, hu, h⟩ := chan_parkReach s t'.val e he hl ch
    rw [if_pos hk, parkChan_fused u ch (by rw [hu]; exact hf), hu] at h
    dsimp only [output]
    rw [h]
  · obtain ⟨u, hn, hu, h⟩ := chan_parkReach s t'.val e he hl ch
    rw [if_neg hk] at h
    dsimp only [output]
    rw [h]

/-! ### Loader and park registers -/

theorem chan_loadParkRegs (ch : Nat) : chan (loadParkRegs s) ch =
    if ch < 32768 then { chan s ch with park := tabGet (fun _ => 0) s.park.shadow ch } else chan s ch := by
  have h : (loadParkRegs s).chans = tabMap (fun _ => {}) s.chans 0 32768
      (fun ch c => { c with park := tabGet (fun _ => 0) s.park.shadow ch }) := rfl
  rw [chan_of_tabMap h]
  simp only [Nat.zero_le, true_and, Nat.zero_add]

theorem readStore_first (h : s.park.copy0.intact = true) : readStore s = (s.park.copy0.entries, 0, s) := by
  unfold readStore
  dsimp only
  rw [if_pos h]

/-- What PARK_STROBE leaves before the park event of every tile. -/
theorem parkStrobe_eq (us : Nat) (hl : s.park.loader = true) (h0 : s.park.copy0.intact = true) : ∃ u : State,
    parkStrobe s us = parkEvent (putReg u (ro pgPARK 0x68) 0 16 us) 0 allTiles ∧ u.power = s.power ∧
    u.park = { s.park with
      shadow := s.park.copy0.entries, copyUsed := 0, loader := false, loaded := true, strobed := true, dirty := false } ∧
    ∀ ch : Nat, ch < 32768 → (chan u ch).park = tabGet (fun _ => 0) s.park.copy0.entries ch := by
  unfold parkStrobe
  rw [if_neg (by simp [hl]), readStore_first s h0]
  refine ⟨_, rfl, rfl, rfl, fun ch hc => ?_⟩
  exact (congrArg ChanSt.park ((chan_loadParkRegs _ ch).trans (if_pos hc))).trans rfl

theorem parkStrobe_yields (us : BitVec 16) (hl : s.park.loader = true) (h0 : s.park.copy0.intact = true) (hd : s.power.dom = 0xFFFFF) :
    Yields (.parkStrobe us) s fun t =>
      t.park.loaded = true ∧ t.park.strobed = true ∧ t.park.loader = false ∧ t.park.shadow = s.park.copy0.entries ∧
      t.park.copyUsed = 0 ∧ regFld t (ro pgPARK 0x68) 0 16 = us.toNat ∧
      t.park.events = s.park.events ++ [{ cause := 0, tiles := allTiles, left := allTiles }] ∧
      (∀ ch : Chan, (chan t ch.val).park = tabGet (fun _ => 0) s.park.copy0.entries ch.val) := by
  obtain ⟨u, e, hp, hk, hc⟩ := parkStrobe_eq s us.toNat hl h0
  have hev := parkEvent_events (putReg u (ro pgPARK 0x68) 0 16 us.toNat) 0 allTiles (by rw [putReg_power, hp]; exact hd) (by decide)
  rw [putReg_park, hk] at hev
  refine ⟨_, congrArg Host.Outcome.next e, ?_⟩
  dsimp only
  rw [hev, regFld_of_getReg (getReg_parkEvent _ 0 allTiles (by decide)), regFld_putReg_self _ _ _ _ _ (by decide)]
  refine ⟨rfl, rfl, rfl, rfl, rfl, Nat.mod_eq_of_lt us.isLt, rfl, fun ch => ?_⟩
  rw [chan_of_chans (parkEvent_chans _ 0 allTiles)]
  exact hc ch.val ch.isLt

/-! ### PK_CMD -/

section
variable (fn : Fn)

theorem pkUpdate_yields (hw : mayWrite s fn pgPARK 0x44 0 = true) (hb : parkBusy s = false) (hn : wornCopy s = none) :
    Yields (.pkUpdate fn) s fun t => t.park.update = some s.park.shadow ∧ t.park.dirty = false := by
  refine ⟨_, congrArg Host.Outcome.next (wr_of_mayWrite s fn _ _ _ _ hw), ?_⟩
  dsimp only
  unfold parkUpdate
  rw [hb, hn]
  exact ⟨rfl, rfl⟩

theorem pkApply_yields (hw : mayWrite s fn pgPARK 0x44 0 = true) (hb : parkBusy s = false) (he : s.park.events = []) :
    Yields (.pkApply fn) s fun t => t.park.apply = true := by
  refine ⟨_, congrArg Host.Outcome.next (wr_of_mayWrite s fn _ _ _ _ hw), ?_⟩
  dsimp only
  unfold parkApply
  rw [hb, he]
  rfl

theorem pkReload_yields (hw : mayWrite s fn pgPARK 0x44 0 = true) (hb : parkBusy s = false) (he : s.park.events = []) :
    Yields (.pkReload fn) s fun t => t.park.reload = true := by
  refine ⟨_, congrArg Host.Outcome.next (wr_of_mayWrite s fn _ _ _ _ hw), ?_⟩
  dsimp only
  unfold parkReload
  rw [hb, he]
  rfl

/-- A copy that is programmed without a failure passes its CRC. -/
theorem programCopy_intact (c : ParkCopy) (es : Tab (BitVec 16)) (gen : Word) : (programCopy c es gen true).intact = true := by
  unfold ParkCopy.intact programCopy
  exact beq_self_eq_true _

theorem pkUpdateDone_yields (es : Tab (BitVec 16)) (v : Bool) (h : s.park.update = some es) : Yields (.pkUpdateDone none v) s fun t =>
    t.park.copy0.entries = es ∧ t.park.copy1.entries = es ∧ t.park.copy0.intact = true ∧ t.park.copy1.intact = true ∧
    t.park.copy0.gen = t.park.copy1.gen ∧ t.park.update = none ∧ t.park.lastErr = 0 := by
  refine ⟨parkUpdateDone s none v, rfl, ?_⟩
  unfold parkUpdateDone
  rw [h]
  exact ⟨rfl, rfl, programCopy_intact .., programCopy_intact .., rfl, rfl, rfl⟩

theorem pkApplyDone_yields (h : s.park.apply = true) : Yields .pkApplyDone s fun t => t.park.apply = false ∧ SameOutputs s t ∧
    ∀ ch : Chan, (chan t ch.val).park = tabGet (fun _ => 0) s.park.shadow ch.val := by
  refine ⟨_, if_pos h, rfl, fun ch => ?_, fun ch => ?_⟩
  · dsimp only [output]
    rw [chan_loadParkRegs]
    split <;> rfl
  · rw [chan_loadParkRegs, if_pos ch.isLt]

theorem pkReloadDone_yields (h : s.park.reload = true) (h0 : s.park.copy0.intact = true) : Yields .pkReloadDone s fun t =>
    t.park.reload = false ∧ t.park.dirty = false ∧ t.park.shadow = s.park.copy0.entries ∧ SameOutputs s t := by
  refine ⟨_, if_neg (by simp [h]), ?_⟩
  rw [readStore_first s h0]
  exact ⟨rfl, rfl, rfl, fun _ => rfl⟩

/-! ### PK_DATA -/

theorem pkDataWrite_yields (v : Word) (hw : mayWrite s fn pgPARK 0x58 0 = true) : Yields (.pkDataAccess fn (some v)) s fun t =>
    t.park.dirty = true ∧ tabGet (fun _ => 0) t.park.shadow (2 * parkPair s) = BitVec.ofNat 16 (fld v 0 16) ∧
    tabGet (fun _ => 0) t.park.shadow (2 * parkPair s + 1) = BitVec.ofNat 16 (fld v 16 16) ∧ SameOutputs s t := by
  refine ⟨_, congrArg Host.Outcome.next (wr_of_mayWrite s fn _ _ _ _ hw), rfl, ?_, ?_, fun _ => rfl⟩
  · exact (tabGet_tabSet_other (fun _ => (0 : BitVec 16)) _ _ _ _ (by omega)).trans (tabGet_tabSet_self ..)
  · exact tabGet_tabSet_self (fun _ => (0 : BitVec 16)) _ _ _

theorem pkDataRead_yields (hr : mayRead s fn pgPARK 0x58 = true) : Yields (.pkDataAccess fn none) s fun t =>
    fld t.host.rdata 0 16 = (tabGet (fun _ => (0 : BitVec 16)) s.park.shadow (2 * parkPair s)).toNat ∧
    t.park.shadow = s.park.shadow ∧ parkPair t = (parkPair s + 1) % 16384 := by
  refine ⟨_, congrArg Host.Outcome.next (rd_of_mayRead s fn _ _ _ hr), ?_, rfl, ?_⟩
  · rw [answer_rdata]
    unfold parkDataRead pack
    dsimp only [List.foldl_cons, List.foldl_nil]
    rw [fld_put_below _ _ _ _ _ _ (by decide), fld_put_self _ _ _ _ (by decide)]
    exact Nat.mod_eq_of_lt (BitVec.isLt _)
  · exact regFld_bumpReg_self s (ro pgPARK 0x54) 0 14 1 (by decide)

end

/-- Settles O20: an event reaches the channels of a tile one by one, and the loader, APPLY and RELOAD move no output. -/
theorem parkStore : Obligations.ParkStore := by
  unfold Obligations.ParkStore
  intro s
  refine ⟨fun hd hs h4 h5 => ⟨_, if_pos (by rw [hd, hs, h4, h5]; rfl), rfl⟩, parkStrobe_yields s, fun fn hw hd => ⟨?_, fun hn => ?_⟩,
    parkEventReachTile_yields s, fun fn hw hb => ⟨pkUpdate_yields s fn hw hb, pkApply_yields s fn hw hb, pkReload_yields s fn hw hb⟩,
    pkUpdateDone_yields s, pkApplyDone_yields s, pkReloadDone_yields s, fun fn => ⟨pkDataWrite_yields s fn, pkDataRead_yields s fn⟩⟩
  · refine ⟨_, congrArg Host.Outcome.next (wr_of_mayWrite s fn _ _ _ _ hw), ?_, sameOutputs_of_chans (parkEvent_chans ..)⟩
    rw [parkEvent_events s 5 allTiles hd (by decide)]
    rfl
  · refine ⟨_, congrArg Host.Outcome.next (wr_of_mayWrite s fn _ _ _ _ hw), ?_, sameOutputs_of_chans (parkEvent_chans ..)⟩
    rw [parkEvent_events s 5 _ hd hn]
    rfl

end Sys2Proof.Machine
end

