-- ==== Sys2Proof/Proofs/SequencerFrames.lean ====
section
/-! SUPPORT. What the reed sequencers leave as it was: a property of the machine that rests on neither the reeds nor the Bore nor what a
failing word of the Bore brings about holds after them when it held before (R253 to R291, R391 to R397). -/

namespace Sys2Proof.Machine

/-- A property of the machine that no word of the sequence tables, read or failing, bears on. -/
structure Rests (P : State → Prop) : Prop where
  reeds : ∀ {s v}, P s → P { s with reeds := v }
  bore : ∀ {s v}, P s → P { s with bore := v }
  boreReg : ∀ {s o w}, 0x48 ≤ o → o ≤ 0x50 → P s → P (setReg s (ro pgBORE o) w)
  post : ∀ {s page src d sub}, P s → P (post s page src d sub)
  journal : ∀ {s type ws src}, P s → P (journal s type ws src)
  coreRestart : ∀ {s}, P s → P (coreRestart s)

namespace Rests

variable {P : State → Prop} (h : Rests P) {s : State}
include h

theorem setReed {r : Nat} {x : ReedSt} (hs : P s) : P (setReed s r x) := h.reeds hs

theorem foldl {α : Type} {f : State → α → State} (hf : ∀ s x, P s → P (f s x)) (l : List α) (hs : P s) : P (l.foldl f s) := by
  have _ := h
  induction l generalizing s with
  | nil => exact hs
  | cons x l ih => exact ih (hf _ _ hs)

theorem ite {c : Prop} [Decidable c] {t : State} (hs : P s) (ht : P t) : P (if c then s else t) := by
  have _ := h
  split
  · exact hs
  · exact ht

theorem bump {o lo n : Nat} (h1 : 0x48 ≤ o) (h2 : o ≤ 0x50) (hs : P s) : P (bumpReg s (ro pgBORE o) lo n) := h.boreReg h1 h2 hs

theorem borePost {src : Nat} {d : Word} (hs : P s) : P (borePost s src d) := h.post hs

theorem markBad {a : Nat} (hs : P s) : P (s.markBad a) := h.ite hs (h.bore hs)

theorem hardFail {a : Nat} (hs : P s) : P (hardFail s a) := by
  unfold Machine.hardFail
  dsimp only
  split
  · exact h.ite (h.post (h.borePost (h.journal (h.bore hs)))) (h.borePost (h.journal (h.bore hs)))
  · exact h.ite (h.bore hs) (h.ite hs (h.bore hs))

theorem parFail {a : Nat} (hs : P s) : P (parFail s a).1 := by
  unfold Machine.parFail
  extract_lets r addr s1 s2 s3
  have h1 : P s1 := h.ite hs (h.boreReg (o := 0x50) (by decide) (by decide) hs)
  have h2 : P s2 := h.ite (h.coreRestart (h.hardFail h1)) (h.hardFail h1)
  have h3 : P s3 := h.borePost (h.bump (o := 0x48) (by decide) (by decide) h2)
  split
  · split
    · exact h.bore h3
    · exact h.markBad h3
  · dsimp only
    exact h.borePost (h.bump (o := 0x4C) (by decide) (by decide) (h.markBad h2))

theorem regionNote {a : Nat} (hs : P s) : P (regionNote s a) := by
  unfold Machine.regionNote
  split
  · exact h.post hs
  · exact h.post hs
  · exact h.post (h.setReed hs)
  · exact hs

/-- A fold over words that carries whether all passed. -/
theorem foldPar {α : Type} {f : State × Bool → α → State × Bool} (hf : ∀ p x, P p.1 → P (f p x).1) (l : List α)
    {p : State × Bool} (hp : P p.1) : P (l.foldl f p).1 := by
  have _ := h
  induction l generalizing p with
  | nil => exact hp
  | cons x l ih => exact ih (hf _ _ hp)

theorem parReads {a n : Nat} (hs : P s) : P (parReads s a n).1 := by
  unfold Machine.parReads
  split
  · exact hs
  · exact h.regionNote (h.foldPar (f := fun p w => let r := Machine.parFail p.1 w; (r.1, p.2 && r.2)) (fun _ _ => h.parFail) _ hs)

theorem readEntry {r e : Nat} (hs : P s) : P (readEntry s r e).1 := by
  unfold Machine.readEntry
  extract_lets a p u w0 w1
  have hp : P u := h.parReads hs
  generalize u = v at hp ⊢
  split
  · dsimp only
    exact h.post (h.setReed hp)
  · split
    · exact hp
    · exact hp

theorem findEntry {r e n : Nat} (hs : P s) : P (findEntry s r e n).1 := by
  induction n generalizing s e with
  | zero => exact hs
  | succ n ih =>
    unfold Machine.findEntry
    dsimp only
    split
    · exact h.readEntry hs
    · exact ih (h.readEntry hs)

theorem startPass {r : Nat} {known : Bool} (hs : P s) : P (startPass s r known) := by
  unfold Machine.startPass
  extract_lets _ s1 p x
  have hp : P p.1 := h.findEntry (h.setReed hs)
  split
  · exact h.setReed hp
  · exact h.setReed (h.ite hp (h.post hp))

theorem toWait {r : Nat} {known : Bool} (hs : P s) : P (toWait s r known) :=
  h.ite (h.startPass (h.setReed hs)) (h.setReed hs)

theorem goOn {r : Nat} {target : ReedSeq} {known : Bool} (hs : P s) : P (goOn s r target known) := by
  unfold Machine.goOn
  dsimp only
  split
  · exact h.setReed hs
  · split
    · exact h.setReed hs
    · exact h.toWait hs
    · exact h.setReed hs

theorem wakeReed {r : Nat} (hs : P s) : P (wakeReed s r) := by
  unfold Machine.wakeReed
  dsimp only
  split
  · exact hs
  · split
    · exact h.goOn hs
    · exact h.goOn hs
    · exact h.goOn hs
    · exact hs

theorem kickInsert {r : Nat} {known : Bool} (hs : P s) : P (kickInsert s r known) := by
  unfold Machine.kickInsert
  dsimp only
  split
  · exact hs
  · split
    · exact h.setReed hs
    · exact h.setReed hs
    · exact h.setReed hs
    · exact hs

theorem calIssue (hs : P s) : P (calIssue s) := by
  unfold Machine.calIssue
  split
  · exact hs
  · exact h.ite hs (h.kickInsert (h.setReed hs))

theorem freeReed {r : Nat} (hs : P s) : P (freeReed s r) := h.calIssue (h.wakeReed (h.setReed hs))

theorem padHoldTile {t : Nat} {on : Bool} (hs : P s) : P (padHoldTile s t on) :=
  h.foldl (fun _ _ hu => h.ite (h.setReed hu) (h.calIssue (h.wakeReed (h.setReed hu)))) _ hs

theorem measStart (hs : P s) : P (measStart s) := h.foldl (fun _ _ => h.wakeReed) _ hs

/-- What also rests on neither the accumulators' restarts nor the loops holds after a resume of the loops (R340). -/
theorem loopResume (hacc : ∀ {s v}, P s → P { s with accs := v }) (hloop : ∀ {s v}, P s → P { s with loops := v }) {r : Nat}
    (hs : P s) : P (loopResume s r) :=
  h.foldl (fun _ _ hu => hloop hu) _ (hacc hs)

end Rests

end Sys2Proof.Machine
end

