-- ==== Sys2Proof/Proofs/PadTest.lean ====
section
/-! O19. The pad test and the bond report (R91 to R97, R122). -/

namespace Sys2Proof.Machine

open Sys2Proof.Safety (Yields output mayWrite mayRead SameOutputs)

variable (s : State)

/-! ### What the pad test leaves in the report -/

/-- The run, the end and the entries of the pad test. -/
def padReport : Bool × Bool × Tab Word × Tab (BitVec 2) := (s.boot.padRun, s.boot.padDone, s.boot.bond, s.boot.mons)

theorem dropTag_boot (tag : Nat) : (dropTag s tag).boot = s.boot :=
  Eq.trans (Eq.refl (freeTag s tag).boot) (boot_of_quiet (freeTag_quiet ..))

theorem coreRestart_padReport : padReport (coreRestart s) = padReport s := by
  unfold coreRestart
  split
  · rfl
  · refine (foldl_part _ (π := padReport) (fun u c => ?_) _).trans ?_
    · unfold padReport
      rw [dropTag_boot, boot_of_quiet (complete_quiet ..), post_boot]
    · unfold padReport
      dsimp only [putReg, setReg]
      rw [post_boot]

/-- The report of the machine `s` rests on nothing that the sequencers and the loops move. -/
theorem padReport_rests : Rests (fun u => padReport u = padReport s) where
  reeds h := h
  bore h := h
  boreReg _ _ h := h
  post h := by unfold padReport at h ⊢; rwa [post_boot]
  journal h := by unfold padReport at h ⊢; rwa [boot_of_quiet (journal_quiet ..)]
  coreRestart h := (coreRestart_padReport _).trans h

/-- The report that a pad test leaves. -/
theorem padTest_report (vLow : Nat) (dflt : PadMeas) (drv : List (Nat × PadMeas)) (md : MonMeas) (mon : List (Nat × MonMeas)) :
    ∃ entry cls, padReport (padTest s vLow dflt drv md mon) =
        (false, true, tabMap (fun _ => 0) s.boot.bond 0 32768 entry, tabMap (fun _ => (3 : BitVec 2)) s.boot.mons 0 16384 cls) ∧
      (∀ ch old, s.boot.padTiles.getLsbD (ch / 1024) = true → tileOn s (ch / 1024) = true → entry ch old =
        bondEntry (rLo s) (rHi s) ((chan s ch).fuse != .clear) (codeCurrent (chan s ch).code.toNat (chan s ch).range) vLow
          ((drv.lookup ch).getD dflt)) ∧
      ∀ m old, s.boot.padTiles.getLsbD (m / 512) = true → tileOn s (m / 512) = true → cls m old = monClass ((mon.lookup m).getD md) := by
  unfold padTest
  extract_lets under entry cls bond mons tiles s1
  refine ⟨entry, cls, ?_, ?_, ?_⟩
  · refine (foldl_part _ (π := padReport) (fun u t => ?_) _).trans rfl
    exact (padReport_rests u).foldl (fun _ _ hv => (padReport_rests u).loopResume id id hv) _ ((padReport_rests u).padHoldTile rfl)
  · intro ch old ht ho
    exact if_neg (by simp [under, ht, ho])
  · intro m old ht ho
    exact if_neg (by simp [under, ht, ho])

theorem bond_of_padReport {t : State} {a b c d} (h : padReport t = (a, b, c, d)) :
    t.boot.padRun = a ∧ t.boot.padDone = b ∧ t.boot.bond = c ∧ t.boot.mons = d := by
  unfold padReport at h
  simpa using h

theorem exec_padTest {vLow : Nat} {dflt : PadMeas} {drv : List (Nat × PadMeas)} {md : MonMeas} {mon : List (Nat × MonMeas)} {c : Instr}
    (hr : s.boot.padRun = true) (h : (c = .padTestDone vLow dflt drv md mon ∧ s.boot.padDone = false) ∨
      (c = .padtestRepeatDone vLow dflt drv md mon ∧ s.boot.padDone = true)) :
    exec c s = .next (padTest s vLow dflt drv md mon) := by
  obtain ⟨rfl, hd⟩ | ⟨rfl, hd⟩ := h
  · exact congrArg Host.Outcome.next (if_pos (by simp [hr, hd]))
  · exact congrArg Host.Outcome.next (if_pos (by simp [hr, hd]))

theorem padTest_yields {vLow : Nat} {dflt : PadMeas} {drv : List (Nat × PadMeas)} {md : MonMeas} {mon : List (Nat × MonMeas)} {c : Instr}
    (hr : s.boot.padRun = true) (h : (c = .padTestDone vLow dflt drv md mon ∧ s.boot.padDone = false) ∨
      (c = .padtestRepeatDone vLow dflt drv md mon ∧ s.boot.padDone = true)) :
    Yields c s fun t => t.boot.padRun = false ∧ t.boot.padDone = true ∧ SameOutputs s t ∧
      (∀ m, m < 16384 → s.boot.padTiles.getLsbD (m / 512) = true → tileOn s (m / 512) = true →
        tabGet (fun _ => (3 : BitVec 2)) t.boot.mons m = monClass ((mon.lookup m).getD md)) ∧
      ∀ ch : Chan, s.boot.padTiles.getLsbD (ch.val / 1024) = true → tileOn s (ch.val / 1024) = true →
        tabGet (fun _ => (0 : Word)) t.boot.bond ch.val =
          bondEntry (rLo s) (rHi s) ((chan s ch.val).fuse != .clear)
            (codeCurrent (chan s ch.val).code.toNat (chan s ch.val).range) vLow ((drv.lookup ch.val).getD dflt) := by
  refine ⟨_, exec_padTest s hr h, ?_⟩
  obtain ⟨entry, cls, hp, he, hc⟩ := padTest_report s vLow dflt drv md mon
  obtain ⟨h1, h2, h3, h4⟩ := bond_of_padReport hp
  have ho : SameOutputs s (padTest s vLow dflt drv md mon) :=
    sameOutputs_of_chans ((padTest_keeps (may := { bore := true }) rfl Keeps.rfl).chans rfl)
  refine ⟨h1, h2, ho, fun m hm ht hon => ?_, fun ch ht hon => ?_⟩
  · rw [h4, tabGet_tabMap_in _ _ _ _ _ _ ⟨Nat.zero_le _, by omega⟩]
    exact hc _ _ ht hon
  · rw [h3, tabGet_tabMap_in _ _ _ _ _ _ ⟨Nat.zero_le _, by omega⟩]
    exact he _ _ ht hon

/-! ### The commands -/

theorem regFld_bondLim (v : Word) {lo n : Nat} (h : ∀ i < n, (0x0FFF_0FFF : Word).getLsbD (lo + i) = true) :
    regFld (writeReg s (ro pgBOOT 0x74) v) (ro pgBOOT 0x74) lo n = fld v lo n :=
  regFld_writeReg s (off := ro pgBOOT 0x74) rfl rfl (by decide) (by decide) h nofun

theorem bondLimWrite_limits (v : Word) (h : fld v 0 12 < fld v 16 12) :
    rLo (bondLimWrite s v) = fld v 0 12 ∧ rHi (bondLimWrite s v) = fld v 16 12 := by
  unfold bondLimWrite
  rw [if_neg (by omega)]
  exact ⟨regFld_bondLim s v (by decide), regFld_bondLim s v (by decide)⟩

theorem padtestWrite_starts (v : Word) (hb : bit v 8 = true) (ha : anyArmed s = false) : (padtestWrite s v).boot.padRun = true := by
  unfold padtestWrite
  rw [hb, ha]
  exact congrArg Prod.fst (foldl_part _ (π := padReport) (fun u _ => (padReport_rests u).padHoldTile rfl) _)

theorem padtestWrite_armed (v : Word) (hb : bit v 8 = true) (ha : anyArmed s = true) :
    (padtestWrite s v).boot.padRun = s.boot.padRun := by
  unfold padtestWrite bootRefused
  rw [hb, ha, if_neg (by decide), if_pos rfl, post_boot]

/-- Settles O19: the entries and classes are those of the map that the test applies, and what follows (the modulators and the
loops go on) ignores the report. -/
theorem padTestAndBonds : Obligations.PadTestAndBonds := by
  unfold Obligations.PadTestAndBonds
  intro s
  refine ⟨fun vLow dflt drv md mon hr c hc => padTest_yields s hr hc, fun fn v hw hv => ?_, fun fn hr => ?_, fun fn v hw hb => ?_⟩
  · exact ⟨_, congrArg Host.Outcome.next (wr_of_mayWrite _ _ _ _ _ _ hw), bondLimWrite_limits s v hv⟩
  · refine ⟨_, congrArg Host.Outcome.next (rd_of_mayRead _ _ _ _ _ hr), answer_rdata .., fun hi => ?_⟩
    unfold bondDataRead
    dsimp only
    rw [if_neg (by omega)]
    exact (regFld_putReg_self s _ 0 16 _ (by decide)).trans (Nat.mod_eq_of_lt (by omega))
  · exact ⟨fun ha => ⟨_, congrArg Host.Outcome.next (wr_of_mayWrite _ _ _ _ _ _ hw), padtestWrite_starts s v hb ha⟩,
      fun ha => ⟨_, congrArg Host.Outcome.next (wr_of_mayWrite _ _ _ _ _ _ hw), padtestWrite_armed s v hb ha⟩⟩

end Sys2Proof.Machine
end

