-- ==== Sys2Proof/Proofs/Resets.lean ====
section
/-! O15. POR, the rails, stage 2 and the resets of the drive die (R17, R62, R80 to R86, R165, R520, R585). -/

namespace Sys2Proof.Machine

open Sys2Proof.Safety (Yields output mayWrite CanonInv SameOutputs)

variable (s : State)

/-! ### What a message of the drive die and a word of the Bore leave -/

section
variable {β : Type} {π : State → β}

/-- A word of the Bore takes its parity, and with it an injection that waits for it (R512). -/
theorem setBore_part (hb : ∀ s v, π { s with bore := v } = π s) (hr : ∀ s v, π { s with regs := v } = π s)
    (hl : ∀ s v, π { s with bell := v } = π s) (a : Nat) (w : Word) : π (setBore s a w) = π s := by
  unfold setBore
  split
  · exact (hb (useCheck s ..) _).trans ((hl ..).trans (hr ..))
  · exact hb ..

theorem setBores_part (hb : ∀ s v, π { s with bore := v } = π s) (hr : ∀ s v, π { s with regs := v } = π s)
    (hl : ∀ s v, π { s with bell := v } = π s) (a : Nat) (ws : List Word) : π (setBores s a ws) = π s := by
  induction ws generalizing s a with
  | nil => rfl
  | cons w ws ih => rw [setBores_cons, ih, setBore_part s hb hr hl]

theorem sendMsi_part (hh : ∀ s v, π { s with host := v } = π s) (fn vec : Nat) : π (sendMsi s fn vec) = π s := by
  unfold sendMsi
  dsimp only
  split
  · exact hh ..
  · exact hh ..

theorem irqSet_part (hh : ∀ s v, π { s with host := v } = π s) (hr : ∀ s v, π { s with regs := v } = π s) (page : Nat) (bits : Word) :
    π (irqSet s page bits) = π s := by
  have hp : ∀ u : State, π (pageIrq u page) = π u := fun u => by
    unfold pageIrq
    refine foldl_part u (fun v x => ?_) _
    split
    · exact sendMsi_part v hh ..
    · rfl
  unfold irqSet
  dsimp only
  split
  · exact (hp _).trans (hr ..)
  · exact hr ..

/-- A message of a drive-die page moves nothing but the Bell, the interrupts and their registers. -/
theorem postAs_part (hh : ∀ s v, π { s with host := v } = π s) (hr : ∀ s v, π { s with regs := v } = π s)
    (hb : ∀ s v, π { s with bell := v } = π s) (hm : ∀ s a n, π { s with msgAt := a, msgNow := n } = π s) {page : Nat}
    (hp : isFeedPage page = false) (src cls sub : Nat) (d : Word) : π (postAs s page src cls sub d) = π s := by
  have hin : ∀ (u : State) m, π (bellIn u m) = π u := fun u m => by
    unfold bellIn
    split
    · exact hb ..
    · dsimp only
      split
      · exact (irqSet_part _ hh hr ..).trans ((hr ..).trans (hb ..))
      · exact hb ..
  unfold postAs
  split
  · rfl
  · extract_lets inj m _ s1 s2 s3
    have h1 : π s1 = π s := by
      unfold s1
      split
      · exact hb ..
      · rfl
    rw [if_neg (by simp [hp])]
    split
    · exact h1
    · have h2 : π s2 = π s := (hm s1 _ _).trans h1
      rw [hin]
      refine Eq.trans ?_ h2
      unfold s3
      split
      · exact hb ..
      · rfl

theorem post_idl {page : Nat} (hp : isFeedPage page = false) (src : Nat) (d : Word) (sub : Nat) :
    (post s page src d sub).idl = s.idl :=
  postAs_part s (π := fun s : State => s.idl) (fun _ _ => rfl) (fun _ _ => rfl) (fun _ _ => rfl) (fun _ _ _ => rfl) hp ..

theorem post_fd {page : Nat} (hp : isFeedPage page = false) (src : Nat) (d : Word) (sub : Nat) :
    (post s page src d sub).fd = s.fd :=
  postAs_part s (π := fun s : State => s.fd) (fun _ _ => rfl) (fun _ _ => rfl) (fun _ _ => rfl) (fun _ _ _ => rfl) hp ..

end

/-! ### SY_RESET_CAUSE -/

theorem regFld_noteCause (last lo : Nat) (h : last < 16) (hlo : 4 ≤ lo) : regFld (noteCause s last lo) (ro pgSYS 0x68) 0 4 = last :=
  (regFld_putReg_below _ _ _ _ _ _ _ hlo).trans ((regFld_putReg_self s _ 0 4 last (by decide)).trans (Nat.mod_eq_of_lt h))

theorem regFld_resetMsg_noteCause (last lo : Nat) (h : last < 16) (hlo : 4 ≤ lo) :
    regFld (resetMsg (noteCause s last lo)) (ro pgSYS 0x68) 0 4 = last :=
  (regFld_of_getReg (getReg_post _ (by decide) ..) 0 4).trans (regFld_noteCause s last lo h hlo)

/-! ### WARM -/

theorem accWarm_boot : (accWarm s).boot = s.boot := by
  refine foldl_part _ (π := fun s : State => s.boot) (fun u i => ?_) _
  exact (boot_of_quiet (setBore_quiet ..)).trans ((boot_of_quiet (setBores_quiet ..)).trans rfl)

theorem accWarm_idl : (accWarm s).idl = s.idl := by
  refine foldl_part _ (π := fun s : State => s.idl) (fun u i => ?_) _
  exact (setBore_part _ (π := fun s : State => s.idl) (fun _ _ => rfl) (fun _ _ => rfl) (fun _ _ => rfl) _ _).trans
    ((setBores_part _ (π := fun s : State => s.idl) (fun _ _ => rfl) (fun _ _ => rfl) (fun _ _ => rfl) _ _).trans rfl)

theorem accWarm_chans : (accWarm s).chans = s.chans := (accWarm_keeps (may := { bore := true }) rfl Keeps.rfl).chans rfl

/-- What a WARM reset leaves. -/
theorem warm_parts (last : Nat) (h : driveOn s = true) (hl : last < 16) :
    (warm s last).boot = s.boot.warm s.now ∧ (warm s last).slots = [] ∧ (warm s last).reqs = [] ∧ (warm s last).cmdq = {} ∧
      regFld (warm s last) (ro pgSYS 0x68) 0 4 = last := by
  obtain ⟨u, hu⟩ : ∃ u, accWarm (measWarm s) = u := ⟨_, rfl⟩
  have hb : u.boot = s.boot := hu ▸ accWarm_boot _
  have hn : u.now = s.now := hu ▸ ((accWarm_keeps (may := { bore := true }) rfl Keeps.rfl).now).trans rfl
  unfold warm
  rw [if_neg (by simp [h]), hu]
  refine ⟨?_, ?_, ?_, ?_, regFld_resetMsg_noteCause _ last 8 hl (by decide)⟩
  · refine (post_boot ..).trans ?_
    show u.boot.warm u.now = _
    rw [hb, hn]
  · exact (post_slots ..).trans rfl
  · exact (post_reqs ..).trans rfl
  · exact (post_cmdq ..).trans rfl

theorem warm_outputs (last : Nat) : SameOutputs s (warm s last) := sameOutputs_of_chans (congrArg Prod.fst (warm_drives s last))

theorem slot_of_empty (h : s.slots = []) (k : Nat) : (slot s k).state = .empty := by
  unfold slot
  rw [h]
  rfl

theorem req_of_empty (h : s.reqs = []) (k : Nat) : req s k = none := by
  unfold req
  rw [h]
  rfl

/-! ### What DRST, the loss of the rails and POR have in common -/

theorem holdAgain_part {β : Type} {π : State → β} (hfd : ∀ s v, π { s with fd := v } = π s) (hr : ∀ s v, π { s with regs := v } = π s)
    (m : Msg) : π (holdAgain s m) = π s := by
  unfold holdAgain
  dsimp only
  split
  · exact (hr ..).trans (hfd ..)
  · exact hfd ..

theorem idlDrop_idl : (idlDrop s).idl.state = .down :=
  (foldl_part _ (π := fun s : State => s.idl.state)
    (fun u m => holdAgain_part u (π := fun s : State => s.idl.state) (fun _ _ => rfl) (fun _ _ => rfl) m) _).trans rfl

theorem idlDrop_part {β : Type} {π : State → β} (hfd : ∀ s v, π { s with fd := v } = π s) (hr : ∀ s v, π { s with regs := v } = π s)
    (hi : ∀ s v, π { s with idl := v } = π s) : π (idlDrop s) = π s :=
  (foldl_part _ (fun u m => holdAgain_part u hfd hr m) _).trans
    ((hfd { s with idl := { push0 := s.idl.push0, push1 := s.idl.push1 } } _).trans (hi ..))

theorem drstCommon_idl : (drstCommon s).idl.state = .down := idlDrop_idl _

theorem drstCommon_flash : (drstCommon s).flash.boot = s.flash.boot ∧ (drstCommon s).flash.cal = s.flash.cal := by
  have h : ∀ u : State, (idlDrop u).flash = u.flash := fun u =>
    idlDrop_part u (π := fun s : State => s.flash) (fun _ _ => rfl) (fun _ _ => rfl) (fun _ _ => rfl)
  unfold drstCommon
  dsimp only
  rw [h]
  exact ⟨rfl, rfl⟩

theorem drstCommon_park : (drstCommon s).park.copy0 = s.park.copy0 ∧ (drstCommon s).park.copy1 = s.park.copy1 := by
  have h : (idlDrop (flashOff s)).park = s.park :=
    idlDrop_part _ (π := fun s : State => s.park) (fun _ _ => rfl) (fun _ _ => rfl) (fun _ _ => rfl)
  unfold drstCommon
  dsimp only
  rw [h]
  exact ⟨rfl, rfl⟩

theorem drstCommon_feeds : (drstCommon s).feedA = s.feedA ∧ (drstCommon s).feedB = s.feedB :=
  ⟨idlDrop_part (flashOff s) (π := fun s : State => s.feedA) (fun _ _ => rfl) (fun _ _ => rfl) (fun _ _ => rfl),
    idlDrop_part (flashOff s) (π := fun s : State => s.feedB) (fun _ _ => rfl) (fun _ _ => rfl) (fun _ _ => rfl)⟩

theorem drstCommon_chans : (drstCommon s).chans = s.chans :=
  idlDrop_part (flashOff s) (π := fun s : State => s.chans) (fun _ _ => rfl) (fun _ _ => rfl) (fun _ _ => rfl)

/-- A table that keeps only what `p` admits reads the default elsewhere. -/
theorem tabGet_filter_out {α : Type} (d : Nat → α) (l : Tab α) (p : Nat → Bool) (k : Nat) (h : p k = false) :
    tabGet d (l.filter (fun e => p e.1)) k = d k :=
  tabGet_of_absent d _ k fun e he hk => by
    have hp := (List.mem_filter.mp he).2
    rw [hk, h] at hp
    exact Bool.false_ne_true hp

theorem driveOn_of_unpowered (h : s.power.dom = 1) : driveOn s = false := by
  unfold driveOn domOn
  rw [h]
  decide

theorem output_of_noChans (h : s.chans = []) (ch : Nat) : output s ch = (0, false) := by
  dsimp only [output, chan]
  rw [h]
  rfl

theorem railsLost_reg (off : Nat) (h : isFeedPage (off / 4096) = false) : getReg (railsLost s) off = regReset off :=
  tabGet_filter_out regReset _ (fun k => isFeedPage (k / 4096)) off h

/-! ### DRST -/

/-- With every TG domain on, DRST has none to bring up. -/
theorem allTgOn_of_on (h : s.power.dom = 0xFFFFF) : allTgOn s = s := by
  have hb : ∀ d < 20, (0xFFFFF : BitVec 20).getLsbD d = true := by decide
  unfold allTgOn
  refine List.foldlRecOn (motive := fun t => t = s) _ _ rfl fun t ht k hk => ?_
  subst ht
  have hk := List.mem_range.mp hk
  exact if_pos (by unfold domOn; rw [h]; exact hb _ (by omega))

/-- What a DRST leaves. -/
theorem drst_parts (last : Nat) (h : driveOn s = true) (hl : last < 16) :
    (drstFx s last).boot.stage = 2 ∧ (drstFx s last).idl.state = .down ∧ regFld (drstFx s last) (ro pgSYS 0x68) 0 4 = last := by
  obtain ⟨u, hu⟩ : ∃ u, accWarm (dropRegs .drst (allTgOn (stopTongues s))) = u := ⟨_, rfl⟩
  unfold drstFx
  rw [if_neg (by simp [h])]
  dsimp only
  rw [hu]
  refine ⟨?_, ?_, regFld_resetMsg_noteCause _ last 16 hl (by decide)⟩
  · exact (congrArg Boot.stage (post_boot ..)).trans rfl
  · exact (congrArg Idl.state (post_idl _ rfl ..)).trans (drstCommon_idl u)

theorem drst_chans (last : Nat) (h : driveOn s = true) (hd : s.power.dom = 0xFFFFF) :
    (drstFx s last).chans =
      ((stopTongues s).chans.map (fun c => (c.1, c.2.drst))).filter (fun c => decide (c.2 ≠ {})) := by
  obtain ⟨u, hu⟩ : ∃ u, accWarm (dropRegs .drst (allTgOn (stopTongues s))) = u := ⟨_, rfl⟩
  have hc : u.chans = (stopTongues s).chans := by
    have hon : allTgOn (stopTongues s) = stopTongues s := allTgOn_of_on (stopTongues s) hd
    rw [← hu, hon, accWarm_chans]
    rfl
  unfold drstFx
  rw [if_neg (by simp [h])]
  dsimp only
  rw [hu]
  refine (post_chans ..).trans ?_
  show ((drstCommon u).chans.map _).filter _ = _
  rw [drstCommon_chans, hc]

theorem stopTongues_wf (h : CanonInv s) : ((stopTongues s).chans.map (·.1)).Pairwise (· < ·) := by
  have hk : CanonInv (stopTongues s) := (mapChans_keeps (may := { chans := true }) rfl Keeps.rfl).canon h
  obtain ⟨_, _, hc, _⟩ := hk
  exact ((tabWf_iff _ _).mp hc).1

/-- A channel after a DRST with every domain on. -/
theorem chan_drst (last : Nat) (hc : CanonInv s) (h : driveOn s = true) (hd : s.power.dom = 0xFFFFF) (ch : Nat) :
    chan (drstFx s last) ch = (stopChan s.now (chan s ch)).drst := by
  unfold chan
  rw [drst_chans s last h hd, tabGet_mapFilter (fun _ c => ChanSt.drst c) (fun _ => rfl) _ (stopTongues_wf s hc)]
  exact congrArg ChanSt.drst ((chan_mapChans s (fun _ => true) (stopChan s.now) rfl hc ch).trans (if_pos rfl))

/-! ### The core alone -/

theorem coreRestart_boot (h : s.boot.core = true) :
    (coreRestart s).boot = { s.boot with core := false, restarting := true } := by
  unfold coreRestart
  rw [if_neg (by simp [h])]
  refine (foldl_part _ (π := fun s : State => s.boot) (fun u c => ?_) _).trans ?_
  · rw [dropTag_boot, boot_of_quiet (complete_quiet ..), post_boot]
  · dsimp only [putReg, setReg]
    rw [post_boot]

theorem coreWatchdog_yields (h : s.boot.core = true) (ht : s.boot.trial = false) : Yields .coreWatchdog s fun t =>
    t.boot.core = false ∧ t.boot.restarting = true ∧ t.boot.stage = s.boot.stage ∧ SameOutputs s t := by
  have e : exec .coreWatchdog s = .next (coreRestart s) :=
    congrArg Host.Outcome.next ((if_neg (by simp [h])).trans (if_neg (by simp [ht])))
  refine ⟨_, e, ?_⟩
  dsimp only
  rw [coreRestart_boot s h]
  exact ⟨rfl, rfl, rfl, sameOutputs_of_chans ((coreRestart_keeps (may := { bore := true }) rfl Keeps.rfl).chans rfl)⟩

/-! ### SY_RESET -/

theorem driveOn_of_mayWrite {fn : Fn} {page o lvl : Nat} (h : mayWrite s fn page o lvl = true) : driveOn s = true := by
  unfold mayWrite hostReach at h
  simp only [Bool.and_eq_true] at h
  obtain ⟨⟨⟨hd, _⟩, _⟩, _⟩ := h
  exact hd

theorem syReset_warm (fn : Fn) {v : Word} (hk : fld v 16 16 = 0xD0A5) (ha : fld v 0 2 = 1) : syReset s fn v = warm s 4 := by
  unfold syReset
  rw [if_neg (not_not.mpr hk), ha]
  rfl

theorem syReset_drst {v : Word} (hk : fld v 16 16 = 0xD0A5) (ha : fld v 0 2 = 2) : syReset s .pf0 v = drstFx s 2 := by
  unfold syReset
  rw [if_neg (not_not.mpr hk), ha]
  exact if_pos rfl

theorem fld_syReset (act key : Nat) (ha : act < 4) (hk : key < 65536) :
    fld (pack [(0, 2, act), (16, 16, key)]) 0 2 = act ∧ fld (pack [(0, 2, act), (16, 16, key)]) 16 16 = key :=
  ⟨(fld_put_below (put 0 0 2 act) 16 16 key 0 2 (by decide)).trans ((fld_put_self 0 0 2 act (by decide)).trans (Nat.mod_eq_of_lt ha)),
    (fld_put_self _ 16 16 key (by decide)).trans (Nat.mod_eq_of_lt hk)⟩

/-! ### The statement -/

theorem por_yields : Yields .por s fun t => (∀ off, getReg t off = regReset off) ∧ (∀ f, (feed t f).state = .absent) ∧
    (∀ ch, output t ch = (0, false)) ∧ t.rails.state = .idle ∧ driveOn t = false ∧ t.boot.stage = 0 ∧
    t.park.copy0 = s.park.copy0 ∧ t.park.copy1 = s.park.copy1 ∧ t.flash.boot = s.flash.boot ∧ t.flash.cal = s.flash.cal := by
  obtain ⟨hp0, hp1⟩ := drstCommon_park s
  obtain ⟨hf0, hf1⟩ := drstCommon_flash s
  exact ⟨porFx s, rfl, fun _ => rfl, fun f => by cases f <;> rfl, fun _ => rfl, rfl, driveOn_of_unpowered _ rfl, rfl, hp0, hp1, hf0, hf1⟩

theorem railsLost_yields (h : driveOn s = true) : Yields .driveRailsLost s fun t => driveOn t = false ∧
    (∀ ch, output t ch = (0, false)) ∧ t.idl.state = .down ∧ t.host.linkUp = false ∧ t.park.copy0 = s.park.copy0 ∧
    t.feedA = s.feedA ∧ t.feedB = s.feedB ∧ ∀ off, isFeedPage (off / 4096) = false → getReg t off = regReset off := by
  obtain ⟨hA, hB⟩ := drstCommon_feeds s
  obtain ⟨hp0, -⟩ := drstCommon_park s
  exact ⟨railsLost s, congrArg Host.Outcome.next (if_pos h), driveOn_of_unpowered _ rfl, output_of_noChans _ rfl, drstCommon_idl s, rfl, hp0, hA, hB,
    railsLost_reg s⟩

theorem warmReset_yields (h : driveOn s = true) : Yields .warmReset s fun t => t.boot.stage = 2 ∧ t.boot.selected = false ∧
    SameOutputs s t ∧ (∀ k, (slot t k).state = .empty ∧ req t k = none) ∧ t.cmdq.cmds = [] ∧ regFld t (ro pgSYS 0x68) 0 4 = 4 := by
  obtain ⟨hb, hs, hr, hc, hl⟩ := warm_parts s 4 h (by decide)
  refine ⟨_, exec_warmReset s, ?_⟩
  dsimp only
  rw [hb, hc]
  exact ⟨rfl, rfl, warm_outputs s 4, fun k => ⟨slot_of_empty _ hs k, req_of_empty _ hr k⟩, rfl, hl⟩

theorem drst_yields (hc : CanonInv s) (h : driveOn s = true) (hd : s.power.dom = 0xFFFFF) : Yields .drst s fun t =>
    t.boot.stage = 2 ∧ t.idl.state = .down ∧ (∀ ch, (chan t ch).fuse = .clear ∧ (chan t ch).tongue = none ∧
      ((chan s ch).tongue = none → output t ch = output s ch)) ∧ regFld t (ro pgSYS 0x68) 0 4 = 2 := by
  obtain ⟨hb, hi, hl⟩ := drst_parts s 2 h (by decide)
  refine ⟨_, rfl, hb, hi, fun ch => ?_, hl⟩
  dsimp only [output]
  rw [chan_drst s 2 hc h hd]
  refine ⟨rfl, rfl, fun ht => ?_⟩
  exact stopChan_of_none s.now (chan s ch) ht

/-- Settles O15: each reset by the parts that it writes anew, with what comes before them hidden where it is long. -/
theorem driveDieResets : Obligations.DriveDieResets := by
  unfold Obligations.DriveDieResets
  intro s
  refine ⟨por_yields s, fun hd hr => ?_, railsLost_yields s, fun hd hr => ?_, warmReset_yields s, drst_yields s,
    coreWatchdog_yields s, fun hr hs => ?_, fun fn hw => ?_, fun hw => ?_⟩
  · exact ⟨_, congrArg Host.Outcome.next (if_neg (by simp [hd, hr])), rfl, output_of_noChans _ rfl, fun _ => ⟨rfl, rfl⟩,
      regFld_noteCause _ 0 16 (by decide) (by decide)⟩
  · refine ⟨_, congrArg Host.Outcome.next (if_neg (by simp [hd, hr])), ?_, ?_, ?_⟩
    · exact (congrArg Power.dom (post_power ..)).trans rfl
    · exact (congrArg Boot.stage (post_boot ..)).trans rfl
    · exact (congrArg Boot.stage2At (post_boot ..)).trans rfl
  · exact ⟨_, congrArg Host.Outcome.next (if_pos (by simp [hr, hs])), rfl, rfl⟩
  · obtain ⟨ha, hk⟩ := fld_syReset 1 0xD0A5 (by decide) (by decide)
    obtain ⟨hb, hs, -, -, -⟩ := warm_parts s 4 (driveOn_of_mayWrite s hw) (by decide)
    refine ⟨_, congrArg Host.Outcome.next ((wr_of_mayWrite _ _ _ _ _ _ hw).trans (syReset_warm s fn hk ha)), ?_⟩
    dsimp only
    rw [hb]
    exact ⟨rfl, warm_outputs s 4, slot_of_empty _ hs⟩
  · obtain ⟨ha, hk⟩ := fld_syReset 2 0xD0A5 (by decide) (by decide)
    exact ⟨_, congrArg Host.Outcome.next ((wr_of_mayWrite _ _ _ _ _ _ hw).trans (syReset_drst s hk ha)),
      drst_parts s 2 (driveOn_of_mayWrite s hw) (by decide)⟩

end Sys2Proof.Machine
end

