-- ==== Sys2Proof/Proofs/BootSlots.lean ====
section
/-! O17. Choosing, verifying and failing an image slot, and the entries of stages 3 and 4 (R80, R98 to R107, R613). -/

namespace Sys2Proof.Machine

open Sys2Proof.Safety (Yields output mayWrite SameOutputs)

variable (s : State)

/-! ### What a completion leaves -/

section
variable {β : Type} {π : State → β} (hq : ∀ s v, π { s with cmdq := v } = π s) (hh : ∀ s v, π { s with host := v } = π s)
include hq hh

theorem cqSignal_part (q fn : Nat) (force : Bool) : π (cqSignal s q fn force) = π s := by
  unfold cqSignal
  dsimp only
  split
  · rfl
  · split
    · exact (hq ..).trans (sendMsi_part s hh ..)
    · rfl

variable (hb : ∀ s v, π { s with bore := v } = π s) (hr : ∀ s v, π { s with regs := v } = π s)
    (hl : ∀ s v, π { s with bell := v } = π s)
include hb hr hl

theorem writeCompletion_part (c : Cmd) (q sct sc : Nat) (dw0 dw1 : Word) : π (writeCompletion s c q sct sc dw0 dw1) = π s := by
  unfold writeCompletion
  extract_lets x base ws s1 wrap s2 s3 s4
  have h1 : π s1 = π s := (setBores_part _ hb hr hl ..).trans (setBores_part s hb hr hl ..)
  have h2 : π s2 = π s := (hq ..).trans h1
  have h3 : π s3 = π s := (hr ..).trans h2
  have h4 : π s4 = π s := by
    unfold s4
    split
    · exact (hr ..).trans h3
    · exact h3
  exact (cqSignal_part _ hq hh ..).trans ((hq ..).trans h4)

/-- A completion moves nothing but its queue, its interrupt, its entry in the Bore and the counts of both. -/
theorem complete_part (tag sct sc : Nat) (dw0 dw1 : Word) : π (complete s tag sct sc dw0 dw1) = π s := by
  unfold complete
  split
  · rfl
  · split
    · exact writeCompletion_part s hq hh hb hr hl ..
    · split
      · exact writeCompletion_part s hq hh hb hr hl ..
      · exact hq ..

end

/-! ### Choosing a slot -/

theorem execBootSlotSelect_of {b : Bool} {i : Nat} {l : List Nat} (h2 : s.boot.stage = 2) (hs : s.boot.selected = false)
    (hd : driveOn s = true) (hf : s.flash.state = .ready)
    (ho : [0, 1].filter (fun i => slotState s i == .pending) ++
      [b2n s.boot.pref, 1 - b2n s.boot.pref].filter (fun i => slotState s i == .valid) = i :: l)
    (ht : (slotState s i == .pending) = b) : Yields .bootSlotSelect s fun t =>
      t.boot.selected = true ∧ t.boot.running = decide (i = 1) ∧ t.boot.trial = b := by
  have e : slotSelect s = { s with boot := { s.boot with
      selected := true, running := decide (i = 1), trial := b, holdWhy := 0 } } := by
    unfold slotSelect
    dsimp only
    rw [if_neg (by simp [h2, hs, hd]), if_neg (by simp [hf]), if_neg (by simp [mounted, hf]), ho]
    dsimp only
    rw [ht]
  exact ⟨_, congrArg Host.Outcome.next e, rfl, rfl, rfl⟩

theorem slotSelect_none (h2 : s.boot.stage = 2) (hs : s.boot.selected = false) (hd : driveOn s = true)
    (hf : s.flash.state = .ready) (ha : s.boot.stateA ∈ [.empty, .failed]) (hb : s.boot.stateB ∈ [ImgState.empty, .failed]) :
    Yields .bootSlotSelect s fun t => t.boot.selected = false ∧ t.boot.holdWhy = 2 := by
  have hn : ∀ i, (slotState s i == .pending) = false ∧ (slotState s i == .valid) = false := fun i => by
    unfold slotState
    simp only [List.mem_cons, List.not_mem_nil, or_false] at ha hb
    split
    · rcases ha with h | h <;> rw [h] <;> decide
    · rcases hb with h | h <;> rw [h] <;> decide
  have e : slotSelect s = { s with boot := { s.boot with holdWhy := 2 } } := by
    unfold slotSelect
    dsimp only
    rw [if_neg (by simp [h2, hs, hd]), if_neg (by simp [hf]), if_neg (by simp [mounted, hf])]
    simp [hn]
  exact ⟨_, congrArg Host.Outcome.next e, hs, rfl⟩

/-! ### Verifying and failing a slot -/

theorem slotState_setSlotState (i : Nat) (x : ImgState) : slotState (setSlotState s i x) i = x := by
  unfold slotState setSlotState
  by_cases h : i = 0
  · rw [if_pos h, if_pos h]
  · rw [if_neg h, if_neg h]

theorem slotState_of_boot {s t : State} (h : t.boot = s.boot) (i : Nat) : slotState t i = slotState s i := by
  unfold slotState
  rw [h]

/-- A failed trial is marked FAILED before the WARM reset that chooses again. -/
theorem slotFails_of_trial (ht : s.boot.trial = true) (hd : driveOn s = true) :
    slotState (slotFails s) (runningSlot s) = .failed ∧ (slotFails s).boot.core = false ∧ (slotFails s).boot.selected = false ∧
      (slotFails s).boot.trial = false := by
  obtain ⟨b, hb⟩ : ∃ b, slotFails s = warm (post (setSlotState { s with boot := b } (runningSlot s) .failed) pgBOOT 0
      (BitVec.ofNat 32 (runningSlot s))) 5 := by
    unfold slotFails
    dsimp only
    rw [if_neg (by simp [ht])]
    exact ⟨_, rfl⟩
  rw [hb]
  generalize hu : post (setSlotState { s with boot := b } (runningSlot s) .failed) pgBOOT 0 (BitVec.ofNat 32 (runningSlot s)) = u
  have hub : u.boot = (setSlotState { s with boot := b } (runningSlot s) .failed).boot := hu ▸ post_boot ..
  have hud : driveOn u = true := by
    rw [← hu]
    unfold driveOn domOn
    rw [post_power]
    exact hd
  obtain ⟨hw, -⟩ := warm_parts u 5 hud (by decide)
  have hs : slotState (warm u 5) (runningSlot s) = slotState u (runningSlot s) := by
    unfold slotState
    rw [hw]
    rfl
  rw [hs, hw, slotState_of_boot hub]
  exact ⟨slotState_setSlotState _ _ _, rfl, rfl, rfl⟩

theorem imageBad_boot (i err : Nat) : (imageBad s i err).boot = s.boot := post_boot ..

/-- Outside a trial pairing leaves the core running and the versions as they are. -/
theorem pairing_kept (ht : s.boot.trial = false) :
    (pairing s).boot.core = s.boot.core ∧ (pairing s).boot.sfw = s.boot.sfw := by
  unfold pairing
  extract_lets b i fresh out u
  have hu : u.boot.core = s.boot.core ∧ u.boot.sfw = s.boot.sfw := ⟨rfl, rfl⟩
  have hn : ∀ a b c d, (post u a b c d).boot.core = s.boot.core ∧ (post u a b c d).boot.sfw = s.boot.sfw := fun a b c d => by
    rw [post_boot]
    exact hu
  split
  · exact ⟨rfl, rfl⟩
  · split
    · exact ⟨rfl, rfl⟩
    · split
      · rw [if_neg (by rw [show u.boot.trial = s.boot.trial from rfl, ht]; decide)]
        exact hn ..
      · split
        · exact hn ..
        · exact hu

theorem sfwVerified_starts (h2 : s.boot.stage = 2) (hs : s.boot.selected = true) (hc : s.boot.core = false)
    (he : bundleErr s (runningSlot s) = 0) (ht : s.boot.trial = false) :
    (sfwVerified s).boot.core = true ∧ (sfwVerified s).boot.sfw = compVersion s (runningSlot s) 0 := by
  unfold sfwVerified
  dsimp only
  rw [if_neg (by simp [h2, hs, hc]), if_neg (by simp [he])]
  exact pairing_kept _ ht

theorem sfwVerified_fails (h2 : s.boot.stage = 2) (hs : s.boot.selected = true) (hc : s.boot.core = false)
    (he : bundleErr s (runningSlot s) ≠ 0) (ht : s.boot.trial = true) (hd : driveOn s = true) :
    slotState (sfwVerified s) (runningSlot s) = .failed ∧ (sfwVerified s).boot.core = false ∧
      (sfwVerified s).boot.selected = false := by
  have e : sfwVerified s = slotFails (imageBad s (runningSlot s) (bundleErr s (runningSlot s))) := by
    unfold sfwVerified
    dsimp only
    rw [if_neg (by simp [h2, hs, hc]), if_pos he]
  generalize hu : imageBad s (runningSlot s) (bundleErr s (runningSlot s)) = u at e
  have hb : u.boot = s.boot := hu ▸ imageBad_boot ..
  have hr : runningSlot u = runningSlot s := by unfold runningSlot; rw [hb]
  have hud : driveOn u = true := by
    rw [← hu]
    unfold imageBad driveOn domOn
    rw [post_power]
    exact hd
  obtain ⟨h1, h3, h4, -⟩ := slotFails_of_trial u (by rw [hb, ht]) hud
  rw [e]
  exact ⟨hr ▸ h1, h3, h4⟩

/-! ### Stages 3 and 4 -/

theorem bondCompare_boot : (bondCompare s).boot = s.boot := by
  unfold bondCompare
  dsimp only
  split
  · rfl
  · rw [post_boot]

theorem stage3_stage (h2 : s.boot.stage = 2) (hc : s.boot.core = true) (hh : s.boot.holdWhy = 0)
    (ho : s.boot.outcome = 1 ∨ s.boot.outcome = 2) (hi : s.bore.climbDone = true) : (stage3 s true).boot.stage = 3 := by
  unfold stage3
  dsimp only
  rw [if_neg (by rcases ho with ho | ho <;> simp [h2, hc, hh, ho, hi])]
  have hj : ∀ (u : State) ty ws, (journal u ty ws).boot = u.boot := fun u ty ws => boot_of_quiet (journal_quiet ..)
  rw [apply_ite State.boot, bondCompare_boot, hj, hj, ite_self]
  rfl

theorem loadRegion_part {β : Type} {π : State → β} (hb : ∀ s v, π { s with bore := v } = π s) (hr : ∀ s v, π { s with regs := v } = π s)
    (hl : ∀ s v, π { s with bell := v } = π s) (k : Nat) (p : List Host.Cell) : π (loadRegion s k p) = π s := by
  unfold loadRegion
  dsimp only
  split
  · exact (hb (useCheck _ ..) _).trans ((hl ..).trans ((hr ..).trans (hb ..)))
  · exact hb ..

theorem setRegsFrom_part {β : Type} {π : State → β} (hr : ∀ s v, π { s with regs := v } = π s) (p : List Host.Cell) (a : Nat)
    (offs : List Nat) : π (setRegsFrom s p a offs) = π s := foldl_part s (fun _ _ => hr ..) _

/-- A LOAD brings content, and moves neither the commands of the table pages nor the boot block. -/
theorem tabRestore_part {β : Type} {π : State → β} (hb : ∀ s v, π { s with bore := v } = π s) (hr : ∀ s v, π { s with regs := v } = π s)
    (hl : ∀ s v, π { s with bell := v } = π s) (hc : ∀ s v, π { s with cal := v } = π s) (ho : ∀ s v, π { s with loops := v } = π s)
    (ht : ∀ s v, π { s with thermal := v } = π s) (k : Nat) (p : List Host.Cell) : π (tabRestore s k p) = π s := by
  have hm : ∀ u : State, π (loadMtCal u p) = π u := fun u => by
    unfold loadMtCal
    dsimp only
    split
    · exact (setRegsFrom_part _ hr ..).trans (hc ..)
    · exact hc ..
  unfold tabRestore
  split
  · exact (hm _).trans (hc ..)
  · exact (setRegsFrom_part _ hr ..).trans (ho ..)
  · exact (setRegsFrom_part _ hr ..).trans (ht ..)
  · exact loadRegion_part s hb hr hl ..

theorem tabBuiltin_part {β : Type} {π : State → β} (hb : ∀ s v, π { s with bore := v } = π s) (hr : ∀ s v, π { s with regs := v } = π s)
    (hl : ∀ s v, π { s with bell := v } = π s) (hc : ∀ s v, π { s with cal := v } = π s) (ho : ∀ s v, π { s with loops := v } = π s)
    (ht : ∀ s v, π { s with thermal := v } = π s) (k : Nat) : π (tabBuiltin s k) = π s := by
  unfold tabBuiltin
  split
  · exact loadRegion_part s hb hr hl ..
  · exact hc ..
  · exact (foldl_part _ (fun _ _ => hr ..) _).trans (ho ..)
  · exact (foldl_part _ (fun _ _ => hr ..) _).trans (ht ..)
  · exact loadRegion_part s hb hr hl ..

/-- What the load of a kind leaves of the pages' commands and of the boot block. -/
def tabsAndBoot : Tab TabCmd × Sys2Proof.Machine.Boot := (s.tabs, s.boot)

theorem eq_of_tabsAndBoot {t : State} (h : tabsAndBoot t = tabsAndBoot s) : t.tabs = s.tabs ∧ t.boot = s.boot :=
  ⟨congrArg Prod.fst h, congrArg Prod.snd h⟩

theorem tabsAndBoot_of_quiet {t : State} (h : t.quiet = s.quiet) (ht : t.tabs = s.tabs) : tabsAndBoot t = tabsAndBoot s :=
  congrArg₂ Prod.mk ht (boot_of_quiet h)

theorem tabsAndBoot_redoIf (p : SlotSt → Bool) : tabsAndBoot (redoIf s p) = tabsAndBoot s := by
  unfold redoIf
  refine foldl_part s (fun u k => ?_) _
  dsimp only
  split
  · have hp : ∀ v a b c d, tabsAndBoot (post v a b c d) = tabsAndBoot v := fun v a b c d =>
      congrArg₂ Prod.mk (post_tabs ..) (post_boot ..)
    unfold redoSlot
    extract_lets x s1 s2 wait s3
    have h1 : tabsAndBoot s1 = tabsAndBoot u := rfl
    have h2 : tabsAndBoot s2 = tabsAndBoot s1 := hp ..
    have h3 : tabsAndBoot s3 = tabsAndBoot s2 := rfl
    split
    · exact (hp ..).trans (h3.trans (h2.trans h1))
    · exact h3.trans (h2.trans h1)
  · rfl

theorem tabRedo_tabsAndBoot (k : Nat) : tabsAndBoot (tabRedo s k) = tabsAndBoot s := by
  unfold tabRedo redoAll
  split
  · exact tabsAndBoot_redoIf ..
  · split
    · exact tabsAndBoot_redoIf ..
    · rfl

theorem setGen_tabsAndBoot (k : Nat) (g : Word) : tabsAndBoot (setGen s k g) = tabsAndBoot s := by
  unfold setGen
  split <;> rfl

theorem loopResume_boot (r : Nat) : (loopResume s r).boot = s.boot := by
  unfold loopResume
  extract_lets chs accs _ u
  refine (foldl_part u (π := fun s : State => s.boot) (fun _ _ => ?_) chs).trans rfl
  rfl

theorem loopResumeAll_boot : (loopResumeAll s).boot = s.boot := by
  unfold loopResumeAll
  generalize List.range 1024 = l
  exact foldl_part _ (π := fun s : State => s.boot) (fun u r => loopResume_boot u r) l

/-- The stage-4 load of a kind leaves its table loaded. -/
theorem tabClimbLoad_loaded (k : Nat) : (tab (tabClimbLoad s k) k).loaded = true ∧ (tabClimbLoad s k).boot = s.boot := by
  unfold tabClimbLoad
  extract_lets has x u v
  have hu : (tab u k).loaded = true ∧ u.boot = s.boot := ⟨congrArg TabCmd.loaded (tab_setTab_self ..), rfl⟩
  have hv : tabsAndBoot v = tabsAndBoot u := by
    unfold v
    split
    · exact tabRestore_part u (π := tabsAndBoot) (fun _ _ => rfl) (fun _ _ => rfl) (fun _ _ => rfl)
        (fun _ _ => rfl) (fun _ _ => rfl) (fun _ _ => rfl) ..
    · exact tabBuiltin_part u (π := tabsAndBoot) (fun _ _ => rfl) (fun _ _ => rfl) (fun _ _ => rfl)
        (fun _ _ => rfl) (fun _ _ => rfl) (fun _ _ => rfl) ..
  clear_value v u
  obtain ⟨ht, hb⟩ := eq_of_tabsAndBoot _ ((tabRedo_tabsAndBoot (setGen v k _) k).trans ((setGen_tabsAndBoot v k _).trans hv))
  refine ⟨?_, hb.trans hu.2⟩
  unfold tab
  rw [ht]
  exact hu.1

/-- Dropping a tag leaves a loaded table loaded. -/
theorem loaded_of_orphaned (f : TabCmd → TabCmd) (hf : ∀ x, (f x).loaded = x.loaded) (l : Tab TabCmd) (k : Nat)
    (h : (tabGet (fun _ => {}) l k).loaded = true) :
    (tabGet (fun _ => {}) ((l.map (fun p => (p.1, f p.2))).filter (fun p => decide (p.2 ≠ {}))) k).loaded = true := by
  induction l with
  | nil => exact h
  | cons p l ih =>
    rw [List.map_cons, List.filter_cons]
    by_cases hk : k = p.1
    · have hp : (f p.2).loaded = true := by
        have hg : tabGet (fun _ => ({} : TabCmd)) (p :: l) k = p.2 := if_pos hk
        rw [hf, ← hg]
        exact h
      have hn : f p.2 ≠ {} := fun e => by
        rw [e] at hp
        exact Bool.false_ne_true hp
      rw [if_pos (decide_eq_true hn)]
      exact (congrArg TabCmd.loaded (if_pos hk)).trans hp
    · have hg : tabGet (fun _ => ({} : TabCmd)) (p :: l) k = tabGet (fun _ => {}) l k := if_neg hk
      rw [hg] at h
      split
      · exact (congrArg TabCmd.loaded (if_neg hk)).trans (ih h)
      · exact ih h

/-- The kind `k` stays loaded, and the kinds that the boot block counts as loaded stay counted. -/
def StaysLoaded (k : Nat) (s u : State) : Prop := (tab u k).loaded = true ∧ u.boot.calLoaded = s.boot.calLoaded

theorem staysLoaded_of_parts {k : Nat} {s u v : State} (h : StaysLoaded k s u) (ht : v.tabs = u.tabs) (hb : v.boot = u.boot) :
    StaysLoaded k s v := by
  unfold StaysLoaded tab at h ⊢
  rw [ht, hb]
  exact h

theorem staysLoaded_dropTag {k : Nat} {s u : State} (tag : Nat) (h : StaysLoaded k s u) : StaysLoaded k s (dropTag u tag) :=
  ⟨by
    have hf : (fun p : Nat × TabCmd => if p.2.tag.map (·.val) == some tag then (p.1, { p.2 with tag := none }) else p) =
        fun p => (p.1, if p.2.tag.map (·.val) == some tag then { p.2 with tag := none } else p.2) := by
      funext p
      split <;> rfl
    have hl := loaded_of_orphaned (fun x => if x.tag.map (·.val) == some tag then { x with tag := none } else x)
      (fun x => by split <;> rfl) u.tabs k h.1
    unfold tab dropTag
    dsimp only [freeTag_tabs]
    rw [hf]
    exact hl, (congrArg Boot.calLoaded (dropTag_boot ..)).trans h.2⟩

theorem complete_tabs (tag sct sc : Nat) (dw0 dw1 : Word) : (complete s tag sct sc dw0 dw1).tabs = s.tabs :=
  complete_part s (π := fun s : State => s.tabs) (fun _ _ => rfl) (fun _ _ => rfl) (fun _ _ => rfl) (fun _ _ => rfl) (fun _ _ => rfl) ..

theorem staysLoaded_coreRestart {k : Nat} {s u : State} (h : StaysLoaded k s u) : StaysLoaded k s (coreRestart u) := by
  unfold coreRestart
  split
  · exact h
  · have hp := staysLoaded_of_parts h (post_tabs u pgSYS 1 u.boot.sfw 0) (post_boot u pgSYS 1 u.boot.sfw 0)
    generalize post u pgSYS 1 u.boot.sfw = w at hp
    refine List.foldlRecOn (motive := StaysLoaded k s) _ _ hp fun v hv c _ => ?_
    · refine staysLoaded_dropTag _ (staysLoaded_of_parts hv ?_ ?_)
      · rw [complete_tabs, post_tabs]
      · rw [boot_of_quiet (complete_quiet ..), post_boot]

theorem staysLoaded_rests (k : Nat) : Rests (StaysLoaded k s) where
  reeds h := h
  bore h := h
  boreReg _ _ h := h
  post h := staysLoaded_of_parts h (post_tabs ..) (post_boot ..)
  journal h := staysLoaded_of_parts h rfl rfl
  coreRestart h := staysLoaded_coreRestart h

theorem calLoad_loads (k : Nat) (h3 : s.boot.stage = 3) (hc : coreRuns s = true) (hb : tabBusy s k = false)
    (hk : k ∉ s.boot.calLoaded) : (calLoad s k).boot.calLoaded = s.boot.calLoaded ++ [k] ∧ (tab (calLoad s k) k).loaded = true := by
  obtain ⟨hl, ht⟩ := tabClimbLoad_loaded s k
  unfold calLoad
  rw [if_neg (by simp [h3, hc, hb, hk])]
  generalize tabClimbLoad s k = u at hl ht
  rw [← ht]
  dsimp only
  have hv : StaysLoaded k { u with boot := { u.boot with calLoaded := u.boot.calLoaded ++ [k] } }
      { u with boot := { u.boot with calLoaded := u.boot.calLoaded ++ [k] } } := ⟨hl, rfl⟩
  have hm := (staysLoaded_rests _ k).measStart hv
  generalize measStart _ = m at hm ⊢
  split
  · exact ⟨hm.2, hm.1⟩
  · exact ⟨rfl, hl⟩

/-! ### BT_CTRL -/

theorem fld_btCtrl (a : Nat) (h : a < 8) :
    fld (pack [(0, 3, a), (16, 16, 0xB007)]) 0 3 = a ∧ fld (pack [(0, 3, a), (16, 16, 0xB007)]) 16 16 = 0xB007 :=
  ⟨(fld_put_below (put 0 0 3 a) 16 16 0xB007 0 3 (by decide)).trans ((fld_put_self 0 0 3 a (by decide)).trans (Nat.mod_eq_of_lt h)),
    (fld_put_self _ 16 16 0xB007 (by decide)).trans (by decide)⟩

theorem btConfirm_of_trial {v : Word} (hk : fld v 16 16 = 0xB007) (ha : fld v 0 3 = 1) (ht : s.boot.trial = true) :
    btCtrl s v = setSlotState { s with boot := { s.boot with trial := false, pref := s.boot.running } } (runningSlot s) .valid := by
  unfold btCtrl
  dsimp only
  rw [if_neg (not_not.mpr hk), ha]
  exact if_neg (by simp [ht])

theorem btActivate_of_pending {v : Word} (hk : fld v 16 16 = 0xB007) (ha : fld v 0 3 = 2) (hp : s.boot.stateA = .pending)
    (hu : s.boot.updCmd = 0) : btCtrl s v = warm s 5 := by
  unfold btCtrl
  dsimp only
  rw [if_neg (not_not.mpr hk), ha]
  exact if_pos ⟨.inl hp, hu⟩

theorem btForcePair_boot {v : Word} (hk : fld v 16 16 = 0xB007) (ha : fld v 0 3 = 4) (ho : s.boot.outcome = 3)
    (hh : s.boot.holdWhy = 1) :
    (btCtrl s v).boot.outcome = 2 ∧ (btCtrl s v).boot.forced = true ∧ (btCtrl s v).boot.holdWhy = 0 := by
  obtain ⟨b, hb, h1, h2, h3⟩ : ∃ b, (btCtrl s v).boot = b ∧ b.outcome = 2 ∧ b.forced = true ∧ b.holdWhy = 0 := by
    unfold btCtrl
    dsimp only
    rw [if_neg (not_not.mpr hk), ha]
    show ∃ b, (if s.boot.outcome ≠ 3 then bootRefused s 0x44 else _).boot = b ∧ _
    rw [if_neg (not_not.mpr ho), boot_of_outside (redoAll_outside ..), boot_of_quiet (journal_quiet ..), post_boot]
    exact ⟨_, rfl, rfl, rfl, if_pos hh⟩
  rw [hb]
  exact ⟨h1, h2, h3⟩

theorem setSlotState_pref_trial (i : Nat) (x : ImgState) :
    (setSlotState s i x).boot.pref = s.boot.pref ∧ (setSlotState s i x).boot.trial = s.boot.trial := by
  unfold setSlotState
  dsimp only
  split <;> exact ⟨rfl, rfl⟩

theorem btCtrl_yields {fn : Fn} (hw : mayWrite s fn pgBOOT 0x44 0 = true) :
    (s.boot.trial = true → Yields (.btConfirm fn 0xB007) s fun t =>
      slotState t (runningSlot s) = .valid ∧ t.boot.pref = s.boot.running ∧ t.boot.trial = false) ∧
    (s.boot.stateA = .pending → s.boot.updCmd = 0 → Yields (.btActivate fn 0xB007) s fun t =>
      t.boot.stage = 2 ∧ t.boot.selected = false ∧ t.boot.stateA = .pending ∧ regFld t (ro pgSYS 0x68) 0 4 = 5) ∧
    (s.boot.outcome = 3 → s.boot.holdWhy = 1 → Yields (.btForcePair fn 0xB007) s fun t =>
      t.boot.outcome = 2 ∧ t.boot.forced = true ∧ t.boot.holdWhy = 0) := by
  refine ⟨fun ht => ?_, fun hp hu => ?_, fun ho hh => ?_⟩
  · obtain ⟨ha, hk⟩ := fld_btCtrl 1 (by decide)
    refine ⟨_, congrArg Host.Outcome.next ((wr_of_mayWrite _ _ _ _ _ _ hw).trans (btConfirm_of_trial s hk ha ht)), ?_⟩
    obtain ⟨h1, h2⟩ := setSlotState_pref_trial { s with boot := { s.boot with trial := false, pref := s.boot.running } }
      (runningSlot s) .valid
    exact ⟨slotState_setSlotState _ _ _, h1, h2⟩
  · obtain ⟨ha, hk⟩ := fld_btCtrl 2 (by decide)
    obtain ⟨hb, -, -, -, hl⟩ := warm_parts s 5 (driveOn_of_mayWrite s hw) (by decide)
    refine ⟨_, congrArg Host.Outcome.next ((wr_of_mayWrite _ _ _ _ _ _ hw).trans (btActivate_of_pending s hk ha hp hu)), ?_⟩
    dsimp only
    rw [hb]
    exact ⟨rfl, rfl, hp, hl⟩
  · obtain ⟨ha, hk⟩ := fld_btCtrl 4 (by decide)
    exact ⟨_, congrArg Host.Outcome.next (wr_of_mayWrite _ _ _ _ _ _ hw), btForcePair_boot s hk ha ho hh⟩

/-! ### The statement -/

theorem bootSlotSelect_yields (h2 : s.boot.stage = 2) (hs : s.boot.selected = false) (hd : driveOn s = true)
    (hf : s.flash.state = .ready) :
    (s.boot.stateA = .pending → Yields .bootSlotSelect s fun t =>
      t.boot.selected = true ∧ t.boot.running = false ∧ t.boot.trial = true) ∧
    (s.boot.stateA ≠ .pending → s.boot.stateB ≠ .pending → slotState s (b2n s.boot.pref) = .valid →
      Yields .bootSlotSelect s fun t => t.boot.selected = true ∧ t.boot.running = s.boot.pref ∧ t.boot.trial = false) ∧
    (s.boot.stateA ∈ [.empty, .failed] → s.boot.stateB ∈ [.empty, .failed] → Yields .bootSlotSelect s fun t =>
      t.boot.selected = false ∧ t.boot.holdWhy = 2) := by
  have h0 : slotState s 0 = s.boot.stateA := rfl
  have h1 : slotState s 1 = s.boot.stateB := rfl
  refine ⟨fun ha => ?_, fun ha hb hv => ?_, slotSelect_none s h2 hs hd hf⟩
  · have hp : (slotState s 0 == .pending) = true := by rw [h0, ha]; rfl
    exact execBootSlotSelect_of s (i := 0) h2 hs hd hf (by rw [List.filter_cons, if_pos hp, List.cons_append]) hp
  · have hp : (slotState s (b2n s.boot.pref) == .pending) = false := by rw [hv]; decide
    have hr : decide (b2n s.boot.pref = 1) = s.boot.pref := by cases s.boot.pref <;> rfl
    have hn : [0, 1].filter (fun i => slotState s i == .pending) = [] := by simp [h0, h1, ha, hb]
    have he := execBootSlotSelect_of s (i := b2n s.boot.pref) h2 hs hd hf
      (by rw [hn, List.nil_append, List.filter_cons, if_pos (by rw [hv]; rfl)]) hp
    rwa [hr] at he

/-- Settles O17: each row by its case of the boot block; a failed trial by the parts of the WARM reset that follows. -/
theorem bootSlots : Obligations.BootSlots := by
  unfold Obligations.BootSlots
  intro s
  refine ⟨fun h2 hs hd hf => bootSlotSelect_yields s h2 hs hd hf, fun h2 hs hc => ⟨fun he ht => ?_, fun he ht hd => ?_⟩,
    fun h2 hc hh ho hi => ?_, fun h2 hs hh hn ht hd => ?_, fun ht hd => ?_, fun k h3 hc hb hk => ?_,
    fun h3 hc hi hp hk hm => ?_, fun fn hw => btCtrl_yields s hw⟩
  · exact ⟨_, rfl, sfwVerified_starts s h2 hs hc he ht⟩
  · exact ⟨_, rfl, sfwVerified_fails s h2 hs hc he ht hd⟩
  · exact ⟨_, rfl, stage3_stage s h2 hc hh ho hi, sameOutputs_of_chans ((stage3_keeps (may := {}) Keeps.rfl).chans rfl)⟩
  · obtain ⟨h1, -, h3, -⟩ := slotFails_of_trial s ht hd
    exact ⟨_, congrArg Host.Outcome.next (if_pos ⟨h2, hs, hh, hn⟩), h1, h3⟩
  · obtain ⟨h1, -, -, h4⟩ := slotFails_of_trial s ht hd
    exact ⟨_, congrArg Host.Outcome.next (if_pos ht), h1, h4⟩
  · exact ⟨_, rfl, calLoad_loads s k.val h3 hc hb hk⟩
  · have hall : (List.range 6).all (s.boot.calLoaded.contains ·) = true := by
      rw [List.all_eq_true]
      exact fun k hk' => List.contains_iff_mem.mpr (hk ⟨k, List.mem_range.mp hk'⟩)
    refine ⟨_, congrArg Host.Outcome.next (if_pos ⟨h3, hc, hi, hp, hall, hm⟩), ?_⟩
    dsimp only
    rw [loopResumeAll_boot]
    rfl

end Sys2Proof.Machine
end

