-- ==== Sys2Proof/Proofs/Copies.lean ====
section
/-! SUPPORT. Copied ranges of bytes: what a byte of a range reads after it was copied out of one store and into another. -/

namespace Sys2Proof.Machine

/-- A byte of a range that is copied out. -/
theorem tabGet_cellsFrom (m : List Host.Cell) (lo n dst i : Nat) (h : i < n) :
    tabGet (fun _ => (0 : Byte)) (cellsFrom m lo n dst) (dst + i) = tabGet (fun _ => 0) m (lo + i) := by
  unfold cellsFrom
  induction m with
  | nil => rfl
  | cons c m ih =>
    rw [List.filter_cons]
    by_cases hc : lo ≤ c.1 ∧ c.1 < lo + n
    · rw [if_pos (by simpa using hc), List.map_cons]
      by_cases hk : lo + i = c.1
      · exact (if_pos (by omega)).trans (if_pos hk).symm
      · exact (if_neg (by omega)).trans (ih.trans (if_neg hk).symm)
    · rw [if_neg (by simpa using hc)]
      exact ih.trans (if_neg (by omega)).symm

/-- A copied range lists its bytes at rising addresses. -/
theorem cellsFrom_rising (m : List Host.Cell) (lo n dst : Nat) (h : memWf m = true) :
    ((cellsFrom m lo n dst).map (·.1)).Pairwise (· < ·) := by
  have hm : (m.map (·.1)).Pairwise (· < ·) := ((tabWf_iff _ _).mp h).1
  unfold cellsFrom
  rw [List.map_map, List.pairwise_map]
  refine ((List.pairwise_map.mp hm).filter _).imp_of_mem fun ha hb hab => ?_
  have ha := (List.mem_filter.mp ha).2
  have hb := (List.mem_filter.mp hb).2
  simp only [decide_eq_true_eq] at ha hb
  dsimp only [Function.comp]
  omega

/-- The bytes of a range that stand in a list of rising addresses. -/
theorem tabGet_cellsIn (hi lo : Nat) (cs : List Host.Cell) (k : Nat) (hw : (cs.map (·.1)).Pairwise (· < ·)) (h : lo ≤ k ∧ k < hi) :
    tabGet (fun _ => (0 : Byte)) (cellsIn hi lo cs) k = tabGet (fun _ => 0) cs k := by
  induction cs generalizing lo with
  | nil => rfl
  | cons c cs ih =>
    obtain ⟨hc, hw⟩ := List.pairwise_cons.mp (show (c.1 :: cs.map (·.1)).Pairwise (· < ·) from hw)
    have hkey : ∀ j ≤ c.1, ∀ q ∈ cs, q.1 ≠ j := fun j hj q hq e => by
      have := hc q.1 (List.mem_map_of_mem hq)
      omega
    have hsplit : cellsIn hi lo (c :: cs) =
        if lo ≤ c.1 ∧ c.1 < hi ∧ c.2 ≠ 0 then c :: cellsIn hi (c.1 + 1) cs else cellsIn hi lo cs := rfl
    rw [hsplit]
    by_cases hk : k = c.1
    · have hread : tabGet (fun _ => (0 : Byte)) (c :: cs) k = c.2 := if_pos hk
      rw [hread]
      split
      · exact if_pos hk
      · rename_i hn
        have h0 : c.2 = 0 := by
          by_contra hne
          exact hn ⟨by omega, by omega, hne⟩
        rw [ih lo hw h, tabGet_of_absent _ _ _ (hkey k (by omega)), h0]
    · have hread : tabGet (fun _ => (0 : Byte)) (c :: cs) k = tabGet (fun _ => 0) cs k := if_neg hk
      rw [hread]
      split
      · refine (if_neg hk).trans ?_
        by_cases hlt : k < c.1
        · have habs : ∀ q ∈ cellsIn hi (c.1 + 1) cs, q.1 ≠ k := fun q hq e => by
            have := (cellsIn_wf hi (c.1 + 1) cs).2 q hq
            omega
          rw [tabGet_of_absent _ _ _ (hkey k (by omega)), tabGet_of_absent _ _ _ habs]
        · exact ih (c.1 + 1) hw ⟨by omega, h.2⟩
      · exact ih lo hw h

/-- A byte outside a range that is copied in. -/
theorem tabGet_cellsInto_out (m : List Host.Cell) (lo n : Nat) (cs : List Host.Cell) (k : Nat) (h : k < lo ∨ lo + n ≤ k) :
    tabGet (fun _ => (0 : Byte)) (cellsInto m lo n cs) k = tabGet (fun _ => 0) m k := by
  have hin : ∀ q ∈ cellsIn (lo + n) lo cs, q.1 ≠ k := fun q hq e => by
    have := (cellsIn_wf (lo + n) lo cs).2 q hq
    omega
  unfold cellsInto
  rcases h with h | h
  · rw [List.append_assoc, tabGet_append_left, tabGet_filter _ _ _ (fun a => decide (a < lo)) (by simpa using h)]
    intro q hq e
    rcases List.mem_append.mp hq with hq | hq
    · exact hin q hq e
    · have := (List.mem_filter.mp hq).2
      simp only [decide_eq_true_eq] at this
      omega
  · rw [tabGet_append, tabGet_filter _ _ _ (fun a => decide (lo + n ≤ a)) (by simpa using h)]
    intro q hq e
    rcases List.mem_append.mp hq with hq | hq
    · have := (List.mem_filter.mp hq).2
      simp only [decide_eq_true_eq] at this
      omega
    · exact hin q hq e

/-- A byte of a range that is copied in. -/
theorem tabGet_cellsInto_in (m : List Host.Cell) (lo n : Nat) (cs : List Host.Cell) (k : Nat) (hw : (cs.map (·.1)).Pairwise (· < ·))
    (h : lo ≤ k ∧ k < lo + n) : tabGet (fun _ => (0 : Byte)) (cellsInto m lo n cs) k = tabGet (fun _ => 0) cs k := by
  unfold cellsInto
  rw [tabGet_append_left, tabGet_append, tabGet_cellsIn _ _ _ _ hw h]
  · intro q hq e
    have := (List.mem_filter.mp hq).2
    simp only [decide_eq_true_eq] at this
    omega
  · intro q hq e
    have := (List.mem_filter.mp hq).2
    simp only [decide_eq_true_eq] at this
    omega

end Sys2Proof.Machine
end

