-- ==== Sys2Proof/Proofs/ImageUpdates.lean ====
section
/-! O18. WRITE, SEAL and ABORT of an image (R116 to R120). -/

namespace Sys2Proof.Machine

open Sys2Proof.Safety (Yields mayWrite)

variable (s : State)

/-! ### The two slots -/

theorem target_ne_running : targetSlot s ≠ runningSlot s := by
  unfold targetSlot runningSlot
  cases s.boot.running <;> decide

theorem slot_lt (s : State) : targetSlot s ≤ 1 ∧ runningSlot s ≤ 1 := by
  unfold targetSlot runningSlot
  cases s.boot.running <;> decide

theorem slotState_setSlotState_other (i j : Nat) (x : ImgState) (hi : i ≤ 1) (hj : j ≤ 1) (h : i ≠ j) :
    slotState (setSlotState s i x) j = slotState s j := by
  unfold slotState setSlotState
  by_cases h0 : i = 0
  · have hj0 : j ≠ 0 := by omega
    rw [if_neg hj0, if_neg hj0, if_pos h0]
  · have hj0 : j = 0 := by omega
    rw [if_pos hj0, if_pos hj0, if_neg h0]

theorem running_kept_of_target (x : ImgState) :
    slotState (setSlotState s (targetSlot s) x) (runningSlot s) = slotState s (runningSlot s) :=
  slotState_setSlotState_other s _ _ x (slot_lt s).1 (slot_lt s).2 (target_ne_running s)

theorem setSlotState_upd (i : Nat) (x : ImgState) :
    (setSlotState s i x).boot.updCmd = s.boot.updCmd ∧ (setSlotState s i x).boot.updErr = s.boot.updErr ∧
      (setSlotState s i x).boot.forecast = s.boot.forecast := by
  unfold setSlotState
  dsimp only
  split <;> exact ⟨rfl, rfl, rfl⟩

/-! ### The commands -/

theorem updWrite_starts (hu : s.boot.updCmd = 0)
    (hr : updRangeOk (getReg s (ro pgBOOT 0x84)).toNat (getReg s (ro pgBOOT 0x88)).toNat = true) (hl : getReg s (ro pgBOOT 0x88) ≠ 0) :
    (updCtrl s 1).boot.updCmd = 1 ∧ (updCtrl s 1).boot.updErr = 0 ∧
      (s.boot.updStarted = false → slotState (updCtrl s 1) (targetSlot s) = .empty) ∧
      slotState (updCtrl s 1) (runningSlot s) = slotState s (runningSlot s) := by
  have h0 : (getReg s (ro pgBOOT 0x88)).toNat ≠ 0 := fun e => hl (BitVec.eq_of_toNat_eq e)
  obtain ⟨u, hk, h1, h2, e⟩ : ∃ u : State, (slotState u = slotState s ∧ runningSlot u = runningSlot s ∧ targetSlot u = targetSlot s) ∧
      u.boot.updCmd = 1 ∧ u.boot.updErr = 0 ∧
      updCtrl s 1 = if s.boot.updStarted then u else setSlotState u (targetSlot u) .empty := by
    refine ⟨{ s with boot := { s.boot with
        updCmd := 1, updErr := 0, updStarted := true, updOff := (getReg s (ro pgBOOT 0x84)).toNat,
        updLen := (getReg s (ro pgBOOT 0x88)).toNat } }, ⟨rfl, rfl, rfl⟩, rfl, rfl, ?_⟩
    unfold updCtrl
    dsimp only
    rw [if_neg (not_not.mpr hu), if_neg (by simp [hr]), if_neg h0]
    rfl
  obtain ⟨hs, hrun, htar⟩ := hk
  rw [e]
  cases hst : s.boot.updStarted
  · obtain ⟨h3, h4, -⟩ := setSlotState_upd u (targetSlot u) .empty
    exact ⟨h3.trans h1, h4.trans h2, fun _ => htar ▸ slotState_setSlotState u _ _,
      hrun ▸ (running_kept_of_target u .empty).trans (congrFun hs _)⟩
  · exact ⟨h1, h2, nofun, congrFun hs _⟩

theorem updSeal_starts (hu : s.boot.updCmd = 0) : (updCtrl s 2).boot.updCmd = 2 ∧ (updCtrl s 2).boot.updErr = 0 := by
  have e : updCtrl s 2 = { s with boot := { s.boot with
      updCmd := 2, updErr := 0, updStarted := false, forecast := 0, featForecast := 0 } } := if_neg (not_not.mpr hu)
  rw [e]
  exact ⟨rfl, rfl⟩

theorem updAbort_empties (hu : s.boot.updCmd = 0) (hp : slotState s (targetSlot s) = .pending) :
    slotState (updCtrl s 3) (targetSlot s) = .empty ∧ slotState (updCtrl s 3) (runningSlot s) = slotState s (runningSlot s) := by
  have e : updCtrl s 3 = setSlotState { s with boot := { s.boot with updStarted := false } } (targetSlot s) .empty :=
    (if_neg (not_not.mpr hu)).trans (if_pos hp)
  rw [e]
  exact ⟨slotState_setSlotState _ _ _, running_kept_of_target { s with boot := { s.boot with updStarted := false } } .empty⟩

theorem updAbort_noted (hu : s.boot.updCmd ≠ 0) : (updCtrl s 3).boot.updAbort = true := by
  have e : updCtrl s 3 = { s with boot := { s.boot with updAbort := true } } := if_pos hu
  rw [e]

/-! ### The ends -/

theorem notePrograms_boot (part off len : Nat) :
    (notePrograms s part off len).boot = s.boot ∧ (notePrograms s part off len).flash.boot = s.flash.boot := ⟨rfl, rfl⟩

/-- A span none of whose words fails parity is read as it stands. -/
theorem parSpan_clean (a len : Nat) (h : ∀ w ∈ s.bore.badPar, w < a ∨ a + len ≤ w) : parSpan s a len = (s, true) := by
  have hf : s.bore.badPar.filter (fun w => decide (a ≤ w ∧ w < a + len)) = [] :=
    List.filter_eq_nil_iff.mpr fun w hw hn => by
      have := h w hw
      simp only [decide_eq_true_eq] at hn
      omega
  unfold parSpan
  rw [hf]
  rfl

theorem updProgram_clean (len : Nat) (hm : memWf s.bore.mem = true)
    (hp : ∀ w ∈ s.bore.badPar, w < 0x110_0000 ∨ 0x110_0000 + len ≤ w) :
    (updProgram s len).2 = true ∧ ∀ i, i < len →
      tabGet (fun _ => (0 : Byte)) (updProgram s len).1.flash.boot (slotAt (targetSlot s) + s.boot.updOff + i) =
        boreByte s (0x110_0000 + i) := by
  unfold updProgram
  rw [parSpan_clean s _ _ hp]
  refine ⟨rfl, fun i hi => ?_⟩
  show tabGet _ (cellsInto s.flash.boot (slotAt (targetSlot s) + s.boot.updOff) len
    (cellsFrom s.bore.mem 0x110_0000 len (slotAt (targetSlot s) + s.boot.updOff))) _ = _
  rw [tabGet_cellsInto_in _ _ _ _ _ (cellsFrom_rising _ _ _ _ hm) (by omega), tabGet_cellsFrom _ _ _ _ _ hi]
  rfl

theorem updWriteDone_programs (hm : memWf s.bore.mem = true)
    (hp : ∀ w ∈ s.bore.badPar, w < 0x110_0000 ∨ 0x110_0000 + s.boot.updLen ≤ w) (hc : s.boot.updCmd = 1)
    (ha : s.boot.updAbort = false) (hw : bootWritable s = true) :
    (updWriteDone s true).boot.updCmd = 0 ∧ (updWriteDone s true).boot.updErr = 0 ∧ ∀ i, i < s.boot.updLen →
      tabGet (fun _ => (0 : Byte)) (updWriteDone s true).flash.boot (slotAt (targetSlot s) + s.boot.updOff + i) =
        boreByte s (0x110_0000 + i) := by
  obtain ⟨hok, hread⟩ := updProgram_clean s s.boot.updLen hm hp
  have e : updWriteDone s true = { (updProgram s s.boot.updLen).1 with boot := { (updProgram s s.boot.updLen).1.boot with
      updCmd := 0, updErr := if (updProgram s s.boot.updLen).2 then 0 else 2 } } := by
    unfold updWriteDone
    rw [if_neg (by simp [hc, ha]), hw]
    rfl
  rw [e, hok]
  exact ⟨rfl, rfl, hread⟩

theorem updWriteDone_fails (hc : s.boot.updCmd = 1) (ha : s.boot.updAbort = false) :
    updWriteDone s false = { s with boot := { s.boot with updCmd := 0, updErr := 2 } } := by
  unfold updWriteDone
  rw [if_neg (by simp [hc, ha])]
  rfl

theorem updSealDone_seals (hc : s.boot.updCmd = 2) (ha : s.boot.updAbort = false) (hw : bootWritable s = true)
    (he : bundleErr s (targetSlot s) = 0) :
    (updSealDone s true).boot.updCmd = 0 ∧ slotState (updSealDone s true) (targetSlot s) = .pending ∧
      (updSealDone s true).boot.forecast = pairOutcome s (targetSlot s) := by
  unfold updSealDone
  dsimp only
  rw [if_neg (by simp [hc, ha]), hw, if_neg (by decide), if_neg (not_not.mpr he)]
  obtain ⟨h1, -, h3⟩ := setSlotState_upd { s with boot := { s.boot with
    updCmd := 0, forecast := pairOutcome s (targetSlot s),
    featForecast := pairFeatures s (targetSlot s) (pairOutcome s (targetSlot s)) } } (targetSlot s) .pending
  exact ⟨h1, slotState_setSlotState _ _ _, h3⟩

/-- Which slot runs rests on no word of the Bore. -/
theorem running_rests (b : Bool) : Rests (fun u => u.boot.running = b) where
  reeds h := h
  bore h := h
  boreReg _ _ h := h
  post h := (congrArg Boot.running (post_boot ..)).trans h
  journal h := h
  coreRestart {u} h := by
    by_cases hc : u.boot.core = true
    · exact (congrArg Boot.running (coreRestart_boot u hc)).trans h
    · have e : coreRestart u = u := if_pos (by simpa using hc)
      rw [e]
      exact h

theorem updProgram_running (len : Nat) (h : s.boot.running = b) : (updProgram s len).1.boot.running = b := by
  have hp : (parSpan s 0x110_0000 len).1.boot.running = b := by
    unfold parSpan
    refine (running_rests b).foldPar (fun p w hu => ?_) _ h
    unfold parRead
    dsimp only
    split
    · exact (running_rests b).parFail hu
    · exact hu
  unfold updProgram
  dsimp only
  split
  · exact hp
  · exact hp

theorem updAbortDone_empties (h : s.boot.updAbort = true) :
    (updAbortDone s).boot.updCmd = 0 ∧ (updAbortDone s).boot.updErr = 6 ∧ slotState (updAbortDone s) (targetSlot s) = .empty := by
  obtain ⟨u, hu, e⟩ : ∃ u : State, u.boot.running = s.boot.running ∧ updAbortDone s =
      setSlotState { u with boot := { u.boot with updCmd := 0, updAbort := false, updStarted := false, updErr := 6 } }
        (targetSlot u) .empty := by
    unfold updAbortDone
    rw [if_neg (by simp [h])]
    refine ⟨_, ?_, rfl⟩
    split
    · exact updProgram_running (tick s) _ rfl
    · rfl
  have ht : targetSlot u = targetSlot s := by unfold targetSlot; rw [hu]
  rw [e, ht]
  obtain ⟨h1, h2, -⟩ := setSlotState_upd { u with boot := { u.boot with
    updCmd := 0, updAbort := false, updStarted := false, updErr := 6 } } (targetSlot s) .empty
  exact ⟨h1, h2, slotState_setSlotState _ _ _⟩

/-- Settles O18: each command and each end by the slots that it sets; the bytes of a WRITE are a copied range. -/
theorem imageUpdates : Obligations.ImageUpdates := by
  unfold Obligations.ImageUpdates
  intro s
  have hwr : ∀ {fn} k, mayWrite s fn pgBOOT 0x8C 0 = true → wr s fn pgBOOT 0x8C 0 k = k s := fun k h => wr_of_mayWrite s _ _ _ _ k h
  refine ⟨fun fn hw hu => ⟨fun hr hl => ?_, ?_, fun hp => ?_⟩, fun fn hw hu => ?_, fun hm hp hc ha hw => ?_, fun hc ha => ?_,
    fun hc ha hw he => ?_, fun ha => ?_⟩
  · exact ⟨_, congrArg Host.Outcome.next (hwr _ hw), updWrite_starts s hu hr hl⟩
  · exact ⟨_, congrArg Host.Outcome.next (hwr _ hw), updSeal_starts s hu⟩
  · exact ⟨_, congrArg Host.Outcome.next (hwr _ hw), updAbort_empties s hu hp⟩
  · exact ⟨_, congrArg Host.Outcome.next (hwr _ hw), updAbort_noted s hu⟩
  · exact ⟨_, rfl, updWriteDone_programs s hm hp hc ha hw⟩
  · exact ⟨_, congrArg Host.Outcome.next (updWriteDone_fails s hc ha), rfl, rfl, rfl⟩
  · exact ⟨_, rfl, updSealDone_seals s hc ha hw he⟩
  · exact ⟨_, rfl, updAbortDone_empties s ha⟩

end Sys2Proof.Machine
end

