-- ==== Sys2Proof/Proofs/LinkTraining.lean ====
section
/-! O21. Training, errors, replays and the loss of the inter-die link (R108 to R111, R586). -/

namespace Sys2Proof.Machine

open Sys2Proof.Safety (Yields mayWrite)

variable (s : State)

/-! ### Training -/

theorem holdForLink_idl : (holdForLink s).idl = s.idl := by
  unfold holdForLink
  split <;> rfl

/-- What training has agreed. -/
def linkTerms : IdlState × BitVec 8 × BitVec 3 := (s.idl.state, s.idl.ver, s.idl.lanes)

theorem sendToDrive_terms (f : Frame) : linkTerms (sendToDrive s f) = linkTerms s := by
  unfold sendToDrive
  split <;> rfl

theorem feedPush_terms : linkTerms (feedPush s) = linkTerms s := by
  unfold feedPush
  dsimp only
  split
  · rfl
  · exact (sendToDrive_terms ..).trans ((sendToDrive_terms ..).trans rfl)

theorem linkTerms_of_idl {s t : State} (h : t.idl = s.idl) : linkTerms t = linkTerms s := by
  unfold linkTerms
  rw [h]

theorem warm_terms (last : Nat) : linkTerms (warm s last) = linkTerms s := by
  obtain ⟨u, hu⟩ : ∃ u, accWarm (measWarm s) = u := ⟨_, rfl⟩
  have hi : u.idl = s.idl := hu ▸ accWarm_idl _
  unfold warm
  rw [hu]
  split
  · rfl
  · refine (linkTerms_of_idl (post_idl _ rfl ..)).trans ?_
    show (u.idl.state, u.idl.ver, u.idl.lanes) = _
    rw [hi]
    rfl

theorem slotFails_terms : linkTerms (slotFails s) = linkTerms s := by
  unfold slotFails
  extract_lets i n note
  split
  · rw [warm_terms]
    rfl
  · rw [warm_terms, linkTerms_of_idl (post_idl (page := pgBOOT) _ rfl ..)]
    rfl

theorem pairing_terms : linkTerms (pairing s) = linkTerms s := by
  unfold pairing
  extract_lets b i fresh out u
  have hu : linkTerms u = linkTerms s := rfl
  split
  · rfl
  · split
    · rfl
    · split
      · split
        · exact (slotFails_terms u).trans hu
        · exact (linkTerms_of_idl (post_idl u rfl ..)).trans hu
      · split
        · exact (linkTerms_of_idl (post_idl u rfl ..)).trans hu
        · exact hu

theorem loadMtCal_terms (p : List Host.Cell) : linkTerms (loadMtCal s p) = linkTerms s := by
  unfold loadMtCal
  dsimp only
  split
  · exact setRegsFrom_part _ (π := linkTerms) (fun _ _ => rfl) ..
  · rfl

theorem idlNoCommon_of_ranges {lo hi l lo' hi' l'} (hd : s.idl.trainDrive = some (lo, hi, l)) (hf : s.idl.trainFeed = some (lo', hi', l'))
    (h1 : lo.toNat ≤ 16) (h2 : 16 ≤ hi.toNat) (h3 : lo'.toNat ≤ 16) (h4 : 16 ≤ hi'.toNat) : idlNoCommon s = false := by
  unfold idlNoCommon commonVersion ownIdlVersion
  rw [hd, hf]
  simp only [List.any_cons, List.any_nil, Bool.or_false, Bool.or_eq_false_iff, Bool.not_eq_false', decide_eq_true_eq]
  omega

theorem linkLanes_le (a b : BitVec 4) : (linkLanes a b).2 ≤ 4 := by
  unfold linkLanes
  dsimp only
  split
  · exact Nat.le_refl 4
  · split
    · exact Nat.le_of_ble_eq_true rfl
    · exact Nat.zero_le 4

theorem linkUp_terms {lo hi l lo' hi' l'} (ht : s.idl.state = .training) (hd : s.idl.trainDrive = some (lo, hi, l))
    (hf : s.idl.trainFeed = some (lo', hi', l')) (hn : idlNoCommon s = false) (hl : (linkLanes l l').2 ≠ 0) :
    linkTerms (linkUp s) = (.up, 0x10, BitVec.ofNat 3 (linkLanes l l').2) := by
  unfold linkUp
  rw [ht, hd, hf]
  dsimp only
  rw [if_neg (by simp [hn, hl])]
  generalize hu : ({ s with
    idl := {
      push0 := s.idl.push0, push1 := s.idl.push1, state := .up, ver := BitVec.ofNat 8 ownIdlVersion,
      lanes := BitVec.ofNat 3 (linkLanes l l').2 } } : State) = u
  have h1 : linkTerms u = (.up, 0x10, BitVec.ofNat 3 (linkLanes l l').2) := by rw [← hu]; rfl
  generalize hv : (if (linkLanes l l').2 = 2 then post u pgIDL 1 ((linkLanes l l').1.setWidth 32) else u) = v
  have h2 : linkTerms v = linkTerms u := by
    rw [← hv]
    split
    · exact linkTerms_of_idl (post_idl u rfl ..)
    · rfl
  have h3 : ∀ w : State, linkTerms w = linkTerms u →
      linkTerms (if w.boot.holdWhy = 3 ∨ w.boot.holdWhy = 4 then pairing w else w) = linkTerms u := fun w hw => by
    split
    · exact (pairing_terms w).trans hw
    · exact hw
  refine Eq.trans (h3 _ ?_) h1
  split
  · exact (loadMtCal_terms ..).trans ((feedPush_terms v).trans h2)
  · exact (feedPush_terms v).trans h2

/-! ### The loss of the link -/

section
variable {β : Type} {π : State → β}

/-- An access that the loss of the link ends is counted and reported, and answered where something waits for it. -/
theorem feedLostAccess_part (hh : ∀ s v, π { s with host := v } = π s) (hq : ∀ s v, π { s with cmdq := v } = π s)
    (hr : ∀ s w, π (setReg s (ro pgIDL 0x54) w) = π s) (hp : ∀ s src d, π (post s pgIDL src d) = π s) (w : FeedWait) :
    π (feedLostAccess s w) = π s := by
  have hu : π (feedUnreach s w.off.toNat) = π s := (hp ..).trans (hr ..)
  unfold feedLostAccess
  extract_lets u
  split
  · unfold setRes
    split
    · exact hu
    · exact (hq ..).trans hu
  · split
    · exact hu
    · exact (hh ..).trans hu

theorem dropReady_part (hs : ∀ s v, π { s with slots := v } = π s) : π (dropReady s) = π s := by
  unfold dropReady
  refine foldl_part s (fun u k => ?_) _
  dsimp only
  split
  · exact hs ..
  · rfl

theorem startAdmit_part (hs : ∀ s v, π { s with slots := v } = π s) (hp : ∀ s src d, π (post s pgBREATH src d) = π s) (k : Nat) :
    π (startAdmit s k) = π s := by
  unfold startAdmit
  split
  · exact (hp ..).trans (hs ..)
  · rfl

theorem admitWaits_part (hs : ∀ s v, π { s with slots := v } = π s) (hp : ∀ s src d, π (post s pgBREATH src d) = π s) :
    π (admitWaits s) = π s := by
  unfold admitWaits
  refine foldl_part s (fun u k => ?_) _
  dsimp only
  split
  · exact startAdmit_part u hs hp k
  · rfl

/-- What follows the fall of the link leaves all but the slots, the waiting accesses' results and their reports. -/
theorem linkGone_part (hh : ∀ s v, π { s with host := v } = π s) (hq : ∀ s v, π { s with cmdq := v } = π s)
    (hr : ∀ s w, π (setReg s (ro pgIDL 0x54) w) = π s) (hs : ∀ s v, π { s with slots := v } = π s)
    (hi : ∀ s src d, π (post s pgIDL src d) = π s) (hb : ∀ s src d, π (post s pgBREATH src d) = π s) :
    π (linkGone s) = π (idlDrop s) := by
  unfold linkGone
  exact (admitWaits_part _ hs hb).trans ((dropReady_part _ hs).trans
    (foldl_part _ (fun u w => feedLostAccess_part u hh hq hr hi w) _))

end

/-- The link is down and has no push. -/
theorem linkGone_idl : (linkGone s).idl.state = .down ∧ (linkGone s).idl.pushOk = false := by
  have h : (linkGone s).idl = (idlDrop s).idl := linkGone_part s (π := fun s : State => s.idl) (fun _ _ => rfl) (fun _ _ => rfl)
    (fun _ _ => rfl) (fun _ _ => rfl) (fun u _ _ => post_idl u rfl ..) (fun u _ _ => post_idl u rfl ..)
  have hd : (idlDrop s).idl.pushOk = false := (foldl_part _ (π := fun s : State => s.idl.pushOk)
    (fun u m => holdAgain_part u (π := fun s : State => s.idl.pushOk) (fun _ _ => rfl) (fun _ _ => rfl) m) _).trans rfl
  rw [h]
  exact ⟨idlDrop_idl s, hd⟩

/-- A register that the loss of the link does not count in. -/
theorem getReg_linkGone {off : Nat} (hu : unmarked? off = true) (h1 : off ≠ ro pgIDL 0x54) (h2 : off ≠ ro pgFSYS 0x4C) :
    getReg (linkGone s) off = getReg s off := by
  refine (linkGone_part s (π := fun s => getReg s off) (fun _ _ => rfl) (fun _ _ => rfl) (fun u w => getReg_setReg_other _ _ _ _ h1)
    (fun _ _ => rfl) (fun u _ _ => getReg_post u hu ..) (fun u _ _ => getReg_post u hu ..)).trans ?_
  refine (foldl_part _ (π := fun s => getReg s off) (fun u m => ?_) _).trans rfl
  unfold holdAgain
  dsimp only
  split
  · exact getReg_setReg_other _ _ _ _ h2
  · rfl

/-! ### The slots at the loss of the link -/

/-- A fold over the slots whose step changes the slot that it names alone. -/
theorem slot_foldl {f : State → Nat → State} {F : SlotSt → SlotSt} (hf : ∀ u k, slot (f u k) k = F (slot u k))
    (ho : ∀ u j k, k ≠ j → slot (f u j) k = slot u k) (l : List Nat) (hn : l.Nodup) (k : Nat) :
    slot (l.foldl f s) k = if k ∈ l then F (slot s k) else slot s k := by
  induction l generalizing s with
  | nil => rfl
  | cons j l ih =>
    obtain ⟨hj, hl⟩ := List.nodup_cons.mp hn
    rw [List.foldl_cons, ih _ hl]
    by_cases e : k = j
    · subst e
      rw [if_neg hj, if_pos List.mem_cons_self, hf]
    · rw [ho s j k e]
      simp [e]

theorem slot_dropReady (k : Nat) : slot (dropReady s) k =
    if k ∈ slotList then (if (slot s k).state = .armed then { slot s k with ready := false, work := .redo } else slot s k) else slot s k := by
  unfold dropReady
  refine slot_foldl s (F := fun x => if x.state = .armed then { x with ready := false, work := .redo } else x) (fun u k => ?_)
    (fun u j k h => ?_) _ (List.nodup_range) k
  · dsimp only
    split
    · exact slot_setSlot_self ..
    · rfl
  · dsimp only
    split
    · rw [slot_setSlot, if_neg h]
    · rfl

theorem slot_setSlot_congr {β : Type} (f : SlotSt → β) (j k : Nat) (x : SlotSt) (h : f x = f (slot s j)) :
    f (slot (setSlot s j x) k) = f (slot s k) := by
  rw [slot_setSlot]
  split
  · rename_i e
    rw [e, h]
  · rfl

/-- A waiting admission changes neither a slot's state nor READY. -/
theorem slot_admitWaits (k : Nat) :
    ((slot (admitWaits s) k).state, (slot (admitWaits s) k).ready) = ((slot s k).state, (slot s k).ready) := by
  unfold admitWaits
  refine foldl_part s (π := fun s => ((slot s k).state, (slot s k).ready)) (fun u j => ?_) _
  dsimp only
  split
  · unfold startAdmit
    split
    · rw [slot_of_slots (post_slots ..)]
      exact slot_setSlot_congr u (fun x => (x.state, x.ready)) j k _ rfl
    · rfl
  · rfl

/-- The loss of the link leaves an armed plan armed and clears its READY. -/
theorem slot_linkGone (k : Slot) (h : (slot s k.val).state = .armed) :
    (slot (linkGone s) k.val).state = .armed ∧ (slot (linkGone s) k.val).ready = false := by
  obtain ⟨u, hu, hs⟩ : ∃ u, linkGone s = admitWaits (dropReady u) ∧ u.slots = s.slots := by
    refine ⟨_, rfl, ?_⟩
    exact (foldl_part _ (π := fun s : State => s.slots) (fun u w => feedLostAccess_part u (π := fun s : State => s.slots) (fun _ _ => rfl)
      (fun _ _ => rfl) (fun _ _ => rfl) (fun u _ _ => post_slots ..) w) _).trans
      (idlDrop_part s (π := fun s : State => s.slots) (fun _ _ => rfl) (fun _ _ => rfl) (fun _ _ => rfl))
  have hk : k.val ∈ slotList := List.mem_range.mpr k.isLt
  obtain ⟨h1, h2⟩ := Prod.mk.inj (slot_admitWaits (dropReady u) k.val)
  rw [hu, h1, h2, slot_dropReady, if_pos hk, slot_of_slots hs, if_pos h]
  exact ⟨h, rfl⟩

/-! ### Errors and replays -/

theorem linkLost_of_up (h : idlUp s = true) :
    linkLost s = linkGone (bumpReg (post s pgIDL 0 (btIdl s)) (ro pgIDL 0x4C) 16 16) := if_neg (by simp [h])

theorem linkLost_idl (h : idlUp s = true) : (linkLost s).idl.state = .down ∧ (linkLost s).idl.pushOk = false := by
  rw [linkLost_of_up s h]
  exact linkGone_idl _

theorem linkLost_slot (h : idlUp s = true) (k : Slot) (ha : (slot s k.val).state = .armed) :
    (slot (linkLost s) k.val).state = .armed ∧ (slot (linkLost s) k.val).ready = false := by
  rw [linkLost_of_up s h]
  have hs : slot (bumpReg (post s pgIDL 0 (btIdl s)) (ro pgIDL 0x4C) 16 16) k.val = slot s k.val :=
    slot_of_slots (post_slots s pgIDL 0 (btIdl s) 0) k.val
  exact slot_linkGone _ k (by rw [hs]; exact ha)

theorem regFld_linkLost_errors (h : idlUp s = true) (lo n : Nat) :
    regFld (linkLost s) (ro pgIDL 0x48) lo n = regFld s (ro pgIDL 0x48) lo n := by
  refine regFld_of_getReg ?_ lo n
  rw [linkLost_of_up s h, getReg_linkGone _ (by decide) (by decide) (by decide), getReg_bumpReg_other _ _ _ _ _ _ (by decide)]
  exact getReg_post s (by decide) ..

theorem frameError_drive (h : idlUp s = true) (hd : s.idl.toDrive.discarding = false) :
    (frameError s .drive).idl.toDrive.discarding = true ∧
      regFld (frameError s .drive) (ro pgIDL 0x48) 0 16 = (regFld s (ro pgIDL 0x48) 0 16 + 1) % 65536 := by
  have e : frameError s .drive = post (bumpReg { s with idl := { s.idl with toDrive := { s.idl.toDrive with discarding := true } } }
      (ro pgIDL 0x48) 0 16) pgIDL 2 (BitVec.ofNat 32 s.idl.toDrive.nextType) := by
    unfold frameError
    rw [if_neg (by simp [h])]
    exact if_neg (by simp [hd])
  rw [e, post_idl _ rfl]
  refine ⟨rfl, (regFld_of_getReg (getReg_post _ (by decide) ..) _ _).trans ?_⟩
  exact regFld_bumpReg_self { s with idl := { s.idl with toDrive := { s.idl.toDrive with discarding := true } } } _ 0 16 1 (by decide)

theorem idlNak_feed (h : idlUp s = true) (hd : s.idl.toDrive.discarding = true) :
    idlNak s .feed s.idl.toDrive.expected =
      if 3 ≤ s.idl.toDrive.replays then linkLost s else { s with idl := { s.idl with toDrive := s.idl.toDrive.replay } } := by
  unfold idlNak
  rw [if_neg (by simp [h])]
  exact if_neg (by simp [hd])

theorem idlNak_drive (h : idlUp s = true) (hd : s.idl.toFeed.discarding = true) :
    idlNak s .drive s.idl.toFeed.expected =
      if 3 ≤ s.idl.toFeed.replays then linkLost (bumpReg s (ro pgIDL 0x48) 16 16)
      else { bumpReg (bumpReg s (ro pgIDL 0x48) 16 16) (ro pgIDL 0x4C) 0 16 with idl := { s.idl with toFeed := s.idl.toFeed.replay } } := by
  unfold idlNak
  rw [if_neg (by simp [h])]
  exact if_neg (by simp [hd])

theorem up_of_idlUp (h : idlUp s = true) : s.idl.state = .up := by
  unfold idlUp at h
  exact eq_of_beq h

theorem idlNak_feed_yields (h : idlUp s = true) (hd : s.idl.toDrive.discarding = true) :
    Yields (.idlNak .feed s.idl.toDrive.expected) s fun t =>
      (s.idl.toDrive.replays < 3 → t.idl.toDrive.discarding = false ∧ t.idl.toDrive.wire = s.idl.toDrive.wire ∧
        t.idl.toDrive.replays = s.idl.toDrive.replays + 1 ∧ t.idl.state = .up) ∧
      (3 ≤ s.idl.toDrive.replays → t.idl.state = .down) := by
  refine ⟨_, congrArg Host.Outcome.next (idlNak_feed s h hd), fun hr => ?_, fun hr => ?_⟩
  · rw [if_neg (by omega)]
    exact ⟨rfl, rfl, rfl, up_of_idlUp s h⟩
  · rw [if_pos hr]
    exact (linkLost_idl s h).1

theorem idlNak_drive_yields (h : idlUp s = true) (hd : s.idl.toFeed.discarding = true) :
    Yields (.idlNak .drive s.idl.toFeed.expected) s fun t =>
      regFld t (ro pgIDL 0x48) 16 16 = (regFld s (ro pgIDL 0x48) 16 16 + 1) % 65536 ∧
      (s.idl.toFeed.replays < 3 → t.idl.toFeed.discarding = false ∧ t.idl.toFeed.wire = s.idl.toFeed.wire ∧ t.idl.state = .up) ∧
      (3 ≤ s.idl.toFeed.replays → t.idl.state = .down) := by
  have hb : regFld (bumpReg s (ro pgIDL 0x48) 16 16) (ro pgIDL 0x48) 16 16 = (regFld s (ro pgIDL 0x48) 16 16 + 1) % 65536 :=
    regFld_bumpReg_self s (ro pgIDL 0x48) 16 16 1 (by decide)
  have hup : idlUp (bumpReg s (ro pgIDL 0x48) 16 16) = true := h
  refine ⟨_, congrArg Host.Outcome.next (idlNak_drive s h hd), ?_, fun hr => ?_, fun hr => ?_⟩
  · split
    · rw [regFld_linkLost_errors _ hup, hb]
    · have hk := getReg_bumpReg_other (bumpReg s (ro pgIDL 0x48) 16 16) (ro pgIDL 0x4C) 0 16 1 (ro pgIDL 0x48) (by decide)
      exact (regFld_of_getReg hk 16 16).trans hb
  · rw [if_neg (by omega)]
    exact ⟨rfl, rfl, up_of_idlUp s h⟩
  · rw [if_pos hr]
    exact (linkLost_idl _ hup).1

/-- Settles O21: training by what each command agrees; the loss of the link by what it makes of the link and of each slot. -/
theorem linkTraining : Obligations.LinkTraining := by
  unfold Obligations.LinkTraining
  intro s
  refine ⟨fun hf hd hi => ?_, fun lo hi l ht => ⟨?_, ?_⟩, fun lo hi l lo' hi' l' ht hd hf h1 h2 h3 h4 hl => ?_, fun hup => ?_⟩
  · exact ⟨_, congrArg Host.Outcome.next (if_pos ⟨hf, hd, hi⟩), rfl⟩
  · refine ⟨_, congrArg Host.Outcome.next (if_neg (not_not.mpr ht)), ?_⟩
    dsimp only
    rw [holdForLink_idl]
    exact ⟨rfl, rfl⟩
  · refine ⟨_, congrArg Host.Outcome.next (if_neg (not_not.mpr ht)), ?_⟩
    dsimp only
    rw [holdForLink_idl]
    exact ⟨rfl, rfl⟩
  · have h := linkUp_terms s ht hd hf (idlNoCommon_of_ranges s hd hf h1 h2 h3 h4) hl
    obtain ⟨hs, hr⟩ := Prod.mk.inj (show ((linkUp s).idl.state, (linkUp s).idl.ver, (linkUp s).idl.lanes) = _ from h)
    obtain ⟨hv, hn⟩ := Prod.mk.inj hr
    have hle := linkLanes_le l l'
    refine ⟨_, rfl, hs, hv, ?_⟩
    rw [hn, BitVec.toNat_ofNat]
    exact Nat.mod_eq_of_lt (by omega)
  · refine ⟨fun hd => ⟨_, rfl, frameError_drive s hup hd⟩, ?_, idlNak_feed_yields s hup, idlNak_drive_yields s hup, ?_, fun fn hw => ?_⟩
    · exact ⟨_, congrArg Host.Outcome.next (if_neg (by simp [hup])), rfl⟩
    · obtain ⟨hs, hp⟩ := linkLost_idl s hup
      exact ⟨_, rfl, hs, hp, fun k hk => linkLost_slot s hup k hk⟩
    · have e : retrain s = linkGone (post s pgIDL 4 0) := if_neg (by simp [hup])
      refine ⟨_, congrArg Host.Outcome.next ((wr_of_mayWrite _ _ _ _ _ _ hw).trans e), (linkGone_idl _).1, fun k hk => ?_⟩
      exact (slot_linkGone _ k (by rw [slot_of_slots (post_slots ..)]; exact hk)).2

end Sys2Proof.Machine
end

