-- ==== Sys2Proof/Proofs/LinkFrames.lean ====
section
/-! O22. Pushes, feed-page accesses, the drone count and feed-die messages over the link (R23, R112 to R115, R442, R445). -/

namespace Sys2Proof.Machine

open Sys2Proof.Safety (Yields SameFeedGates)

variable (s : State)

/-! ### Taking a frame -/

/-- The machine once the drive die has taken its oldest frame. -/
def driveTook (rest : List (BitVec 8 × Frame)) : State :=
  { s with idl := { s.idl with toDrive := { s.idl.toDrive with wire := rest, replays := 0 }, held0 := none } }

/-- The machine once the feed die has taken its oldest frame. -/
def feedTook (rest : List (BitVec 8 × Frame)) : State :=
  { s with idl := { s.idl with toFeed := { s.idl.toFeed with wire := rest, replays := 0 } } }

section
variable {s} {α : Type} {p : Frame → Option α} {x : α} {q : BitVec 8} {f : Frame} {rest : List (BitVec 8 × Frame)}

theorem takeDrive_of (k : α → State → State) (hup : idlUp s = true) (hd : s.idl.toDrive.discarding = false)
    (hw : s.idl.toDrive.wire = (q, f) :: rest) (hp : p f = some x) : takeDrive s p k = k x (driveTook s rest) := by
  have hh : s.idl.toDrive.wire.head?.bind (fun g => p g.2) = some x := by rw [hw]; exact hp
  have hr : s.idl.toDrive.received = { s.idl.toDrive with wire := rest, replays := 0 } := by
    unfold IdlDir.received
    rw [hw]
    rfl
  unfold takeDrive driveTook
  rw [if_neg (by simp [hup, hd]), hh, hr]

theorem takeFeed_of (k : α → State → State) (hup : idlUp s = true) (hd : s.idl.toFeed.discarding = false)
    (hw : s.idl.toFeed.wire = (q, f) :: rest) (hp : p f = some x) : takeFeed s p k = k x (feedTook s rest) := by
  have hh : s.idl.toFeed.wire.head?.bind (fun g => p g.2) = some x := by rw [hw]; exact hp
  have hr : s.idl.toFeed.received = { s.idl.toFeed with wire := rest, replays := 0 } := by
    unfold IdlDir.received
    rw [hw]
    rfl
  unfold takeFeed feedTook
  rw [if_neg (by simp [hup, hd]), hh, hr]

end

/-! ### Pushes -/

theorem redoIf_idl (p : SlotSt → Bool) : (redoIf s p).idl = s.idl := by
  unfold redoIf
  refine foldl_part s (π := fun s : State => s.idl) (fun u k => ?_) _
  dsimp only
  split
  · unfold redoSlot
    extract_lets x s1 s2 wait s3
    have h2 : s3.idl = u.idl := post_idl s1 rfl ..
    split
    · exact (post_idl s3 rfl ..).trans h2
    · exact h2
  · rfl

theorem admitWaits_idl : (admitWaits s).idl = s.idl :=
  admitWaits_part s (π := fun s : State => s.idl) (fun _ _ => rfl) (fun u _ _ => post_idl u rfl ..)

/-- A push that is applied replaces both words (R112). -/
theorem applyPush_idl (w0 w1 : Word) : (applyPush s w0 w1).idl = { s.idl with push0 := w0, push1 := w1, pushOk := true } := by
  unfold applyPush
  extract_lets p0 p1 full _ u v
  have hu : u.idl = { s.idl with push0 := w0, push1 := w1, pushOk := true } := rfl
  have hv : v.idl = u.idl := by
    unfold v
    split
    · exact post_idl u rfl ..
    · rfl
  rw [admitWaits_idl]
  split
  · exact (redoIf_idl v _).trans (hv.trans hu)
  · exact hv.trans hu

/-! ### What the drive die receives -/

theorem denied_idl (a : Access) (kind : Nat) : (denied s a kind).idl = s.idl := post_idl _ rfl ..

theorem getReg_denied {off : Nat} (hu : unmarked? off = true) (h1 : off ≠ ro pgPROT 0x4C) (h2 : off ≠ ro pgPROT 0x50) (a : Access)
    (kind : Nat) : getReg (denied s a kind) off = getReg s off :=
  (getReg_post _ hu ..).trans ((getReg_setReg_other _ _ _ _ h2).trans (getReg_bumpReg_other _ _ _ _ _ _ h1))

theorem regFld_denied_count (a : Access) (kind : Nat) :
    regFld (denied s a kind) (ro pgPROT 0x4C) 0 16 = (regFld s (ro pgPROT 0x4C) 0 16 + 1) % 65536 := by
  refine (regFld_of_getReg ((getReg_post _ (by decide) ..).trans (getReg_setReg_other _ _ _ _ (by decide))) 0 16).trans ?_
  exact regFld_bumpReg_self s (ro pgPROT 0x4C) 0 16 1 (by decide)

/-- The oldest feed-page read has its value and its latency noted. -/
def rdNoted (ws : List FeedWait) (lat : Nat) : State :=
  let u := putReg { s with idl := { s.idl with rdWait := ws } } (ro pgIDL 0x50) 0 16 lat
  putReg u (ro pgIDL 0x50) 16 16 (max lat (regFld u (ro pgIDL 0x50) 16 16))

theorem regFld_rdNoted {ws : List FeedWait} {lat : Nat} (hl : lat < 65536) : regFld (rdNoted s ws lat) (ro pgIDL 0x50) 0 16 = lat :=
  (regFld_putReg_below _ (ro pgIDL 0x50) 16 16 _ 0 16 (by decide)).trans
    ((regFld_putReg_self _ (ro pgIDL 0x50) 0 16 lat (by decide)).trans (Nat.mod_eq_of_lt hl))

theorem rdDataIn_cons {v : Word} {lat : Nat} {w : FeedWait} {ws : List FeedWait} (hw : s.idl.rdWait = w :: ws) (ht : w.tag = none)
    (hf : w.fn ≠ 3) : rdDataIn s v lat = answer
      (if v = 0xFFFF_FFFF ∧ feedLocked (rdNoted s ws lat) (0x10_0000 + w.off.toNat) w.priv.toNat false then
        denied (rdNoted s ws lat) { fn := w.func, off := 0x10_0000 + w.off.toNat } 1 else rdNoted s ws lat) v := by
  unfold rdDataIn
  rw [hw]
  dsimp only
  rw [ht]
  exact if_neg hf

theorem rdDataIn_reads {v : Word} {lat : Nat} {w : FeedWait} {ws : List FeedWait} (hw : s.idl.rdWait = w :: ws) (ht : w.tag = none)
    (hf : w.fn ≠ 3) (hl : lat < 65536) :
    (rdDataIn s v lat).host.rdata = v ∧ (rdDataIn s v lat).host.poisoned = false ∧ (rdDataIn s v lat).idl.rdWait = ws ∧
      regFld (rdDataIn s v lat) (ro pgIDL 0x50) 0 16 = lat := by
  have hn : ∀ a k, (denied (rdNoted s ws lat) a k).idl.rdWait = ws ∧
      regFld (denied (rdNoted s ws lat) a k) (ro pgIDL 0x50) 0 16 = lat := fun a k => by
    rw [denied_idl, regFld_of_getReg (getReg_denied _ (by decide) (by decide) (by decide) ..)]
    exact ⟨rfl, regFld_rdNoted s hl⟩
  rw [rdDataIn_cons s hw ht hf]
  generalize hu : (if v = 0xFFFF_FFFF ∧ feedLocked (rdNoted s ws lat) (0x10_0000 + w.off.toNat) w.priv.toNat false = true then
    denied (rdNoted s ws lat) { fn := w.func, off := 0x10_0000 + w.off.toNat } 1 else rdNoted s ws lat) = u
  have h : u.idl.rdWait = ws ∧ regFld u (ro pgIDL 0x50) 0 16 = lat := by
    rw [← hu]
    split
    · exact hn _ _
    · exact ⟨rfl, regFld_rdNoted s hl⟩
  exact ⟨rfl, rfl, h.1, h.2⟩

theorem wrAckIn_ends {r : Bool} {w : FeedWait} {ws : List FeedWait} (hw : s.idl.wrWait = w :: ws) (ht : w.tag = none)
    (hh : s.idl.heldAcc = []) :
    (wrAckIn s r).idl = { s.idl with wrWait := ws, heldAcc := [] } ∧
      regFld (wrAckIn s r) (ro pgPROT 0x4C) 0 16 = (regFld s (ro pgPROT 0x4C) 0 16 + b2n r) % 65536 := by
  have hlt : regFld s (ro pgPROT 0x4C) 0 16 < 65536 := fld_lt ..
  unfold wrAckIn
  rw [hw]
  dsimp only
  rw [ht, hh]
  dsimp only [List.foldl_nil]
  cases r
  · exact ⟨rfl, (Nat.mod_eq_of_lt hlt).symm⟩
  · rw [if_pos rfl, denied_idl]
    exact ⟨rfl, regFld_denied_count { s with idl := { s.idl with wrWait := ws, heldAcc := [] } } _ _⟩

theorem droneIn_stands (c : Word) : (droneIn s c).idl.droneAt = some (droneIn s c).droneD ∧
    (droneIn s c).idl.toDrive = s.idl.toDrive := by
  unfold droneIn
  extract_lets was gap stand trim u w v now _ t
  have ht : t.idl.droneAt = some t.droneD ∧ t.idl.toDrive = s.idl.toDrive := ⟨rfl, rfl⟩
  split
  · rw [post_idl t rfl, post_droneD]
    exact ht
  · exact ht

/-! ### What the feed die receives -/

theorem sendToDrive_of_up (f : Frame) (h : idlUp s = true) :
    sendToDrive s f = { s with idl := { s.idl with toDrive := s.idl.toDrive.send f } } := if_pos h

/-- A frame that is sent stands last on the wire. -/
theorem sendToDrive_wire (f : Frame) (h : idlUp s = true) :
    (sendToDrive s f).idl.toDrive.wire = s.idl.toDrive.wire ++ [(s.idl.toDrive.nextSeq, f)] := by
  rw [sendToDrive_of_up s f h]
  rfl

/-- A read of a feed page leaves the link. -/
theorem feedRead_idl (off : Nat) : (feedRead s off).2.idl = s.idl := by
  unfold feedRead
  dsimp only
  split
  · rfl
  · split
    · rfl
    · split
      · rfl
      · split
        · rfl
        · rfl
        · rfl
        · rfl
        · unfold feedReadMeter
          split <;> rfl
        · unfold feedReadTrip
          split <;> rfl
        · rfl

theorem liveNow_feedTook (rest : List (BitVec 8 × Frame)) (page src : Nat) : liveNow (feedTook s rest) page src = liveNow s page src := by
  have hc : causeLive (feedTook s rest) page src = causeLive s page src := by
    unfold causeLive
    split <;> rfl
  unfold liveNow
  rw [hc]
  rfl

/-- What a feed page reads does not rest on the frames that are still to be taken. -/
theorem feedRead_feedTook (rest : List (BitVec 8 × Frame)) (off : Nat) : (feedRead (feedTook s rest) off).1 = (feedRead s off).1 := by
  have hl : ∀ page, liveWord (feedTook s rest) page = liveWord s page := fun page => by
    unfold liveWord
    rw [funext (liveNow_feedTook s rest page)]
  have hh : ∀ page o, headerWord (feedTook s rest) page o = headerWord s page o := fun page o => by
    unfold headerWord pgStat
    rw [hl]
    rfl
  unfold feedRead
  dsimp only
  split
  · exact hh ..
  · split
    · rfl
    · split
      · rfl
      · split
        · rfl
        · rfl
        · rfl
        · rfl
        · unfold feedReadMeter
          split <;> rfl
        · unfold feedReadTrip
          split <;> rfl
        · rfl

theorem feedMsg_terms (m : Msg) : linkTerms (feedMsg s m) = linkTerms s := by
  unfold feedMsg
  extract_lets u h v
  split
  · exact (sendToDrive_terms ..).trans ((sendToDrive_terms ..).trans rfl)
  · split <;> rfl

/-- No message changes what training has agreed. -/
theorem postAs_terms (page src cls sub : Nat) (d : Word) : linkTerms (postAs s page src cls sub d) = linkTerms s := by
  by_cases hp : isFeedPage page = true
  · unfold postAs
    split
    · rfl
    · extract_lets inj m _ s1
      have h1 : linkTerms s1 = linkTerms s := by
        unfold s1
        split <;> rfl
      rw [feedMsg_terms]
      exact h1
  · exact postAs_part s (π := linkTerms) (fun _ _ => rfl) (fun _ _ => rfl) (fun _ _ => rfl) (fun _ _ _ => rfl) (by simpa using hp) ..

theorem writeReg_terms (off : Nat) (v : Word) : linkTerms (writeReg s off v) = linkTerms s := by
  unfold writeReg
  split
  · rfl
  · split
    · rfl
    · extract_lets _ w u old t
      have hu : linkTerms u = linkTerms s := by
        unfold u ruleZero
        dsimp only
        split <;> rfl
      have ht : linkTerms t = linkTerms s := hu
      split
      · exact (postAs_terms ..).trans ht
      · exact ht

theorem idlUp_of_terms {s t : State} (h : linkTerms t = linkTerms s) : idlUp t = idlUp s :=
  congrArg (fun x : IdlState × BitVec 8 × BitVec 3 => x.1 == .up) h

/-- The insertion delay of feed A that arrives at PRIV 0 is stored and acknowledged. -/
theorem wrDataIn_insDelay {v : Word} (hup : idlUp s = true) (hh : s.idl.wrHeld = some (0x1048, 0)) (hv : fld v 0 11 ≤ 1600) :
    regFld (wrDataIn s v) (ro 0x101 0x48) 0 11 = fld v 0 11 ∧
      (wrDataIn s v).idl.toDrive.wire.getLast?.map (·.2) = some (.wrAck 0x1048 false) := by
  have e : wrDataIn s v =
      sendToDrive (writeReg { s with idl := { s.idl with wrHeld := none } } (ro (pgFEED .a) 0x48) v) (.wrAck 0x1048 false) := by
    unfold wrDataIn
    rw [hh]
    rfl
  have hu : idlUp (writeReg { s with idl := { s.idl with wrHeld := none } } (ro (pgFEED .a) 0x48) v) = true :=
    (idlUp_of_terms (writeReg_terms ..)).trans hup
  rw [e]
  refine ⟨?_, ?_⟩
  · exact (regFld_of_getReg (getReg_of_regs (sendToDrive_regs ..) _) 0 11).trans
      (insDelay_write { s with idl := { s.idl with wrHeld := none } } .a v hv)
  · rw [sendToDrive_wire _ _ hu, List.getLast?_concat]
    rfl

theorem wrDataIn_refused {v : Word} {o : BitVec 15} {p : BitVec 2} (hh : s.idl.wrHeld = some (o, p))
    (hr : feedRefuses s (0x10_0000 + o.toNat) p.toNat = true) :
    wrDataIn s v = sendToDrive { s with idl := { s.idl with wrHeld := none } } (.wrAck o true) := by
  unfold wrDataIn
  rw [hh]
  exact if_pos hr

/-! ### The frames of the feed die -/

theorem heldBellSend_wire (l : List Msg) (h : idlUp s = true) :
    (l.foldl (fun s m => sendToDrive (sendToDrive s (.bell0 m.source m.kind m.inj)) (.bell1 m.detail)) s).idl.toDrive.wire.length =
      s.idl.toDrive.wire.length + 2 * l.length := by
  induction l generalizing s with
  | nil => rfl
  | cons m l ih =>
    have h1 : idlUp (sendToDrive s (.bell0 m.source m.kind m.inj)) = true := (idlUp_of_terms (sendToDrive_terms ..)).trans h
    have h2 : idlUp (sendToDrive (sendToDrive s (.bell0 m.source m.kind m.inj)) (.bell1 m.detail)) = true :=
      (idlUp_of_terms (sendToDrive_terms ..)).trans h1
    rw [List.foldl_cons, ih _ h2, sendToDrive_wire _ _ h1, sendToDrive_wire _ _ h, List.length_append, List.length_append,
      List.length_cons]
    simp only [List.length_cons, List.length_nil]
    omega

theorem heldBellSend_fd (l : List Msg) :
    (l.foldl (fun s m => sendToDrive (sendToDrive s (.bell0 m.source m.kind m.inj)) (.bell1 m.detail)) s).fd = s.fd :=
  foldl_part s (π := fun s : State => s.fd) (fun _ _ => (sendToDrive_fd ..).trans (sendToDrive_fd ..)) l

/-! ### The statement -/

/-- What the drive die receives. -/
theorem driveFrames_yield (hup : idlUp s = true) (hd : s.idl.toDrive.discarding = false) :
    (∀ q w rest, s.idl.toDrive.wire = (q, .push0 w) :: rest → Yields .idlPush0 s fun t =>
      t.idl.held0 = some w ∧ t.idl.toDrive.wire = rest ∧ t.idl.push0 = s.idl.push0) ∧
    (∀ q w rest, s.idl.toDrive.wire = (q, .push1 w) :: rest →
      (∀ w0, s.idl.held0 = some w0 → Yields .idlPush1 s fun t =>
        t.idl.push0 = w0 ∧ t.idl.push1 = w ∧ t.idl.pushOk = true ∧ t.idl.toDrive.wire = rest) ∧
      (s.idl.held0 = none → Yields .idlPush1 s fun t => t.idl.push0 = s.idl.push0 ∧ t.idl.push1 = s.idl.push1)) ∧
    (∀ q v rest w ws lat, s.idl.toDrive.wire = (q, .rdData v) :: rest → s.idl.rdWait = w :: ws → w.tag = none → w.fn ≠ 3 →
      Yields (.idlRdData lat) s fun t => t.host.rdata = v ∧ t.host.poisoned = false ∧ t.idl.rdWait = ws ∧
        regFld t (ro pgIDL 0x50) 0 16 = lat.toNat) ∧
    (∀ q o r rest w ws, s.idl.toDrive.wire = (q, .wrAck o r) :: rest → s.idl.wrWait = w :: ws → w.tag = none → s.idl.heldAcc = [] →
      Yields .idlWrAck s fun t => t.idl.wrWait = ws ∧ t.idl.toDrive.wire = rest ∧
        regFld t (ro pgPROT 0x4C) 0 16 = (regFld s (ro pgPROT 0x4C) 0 16 + b2n r) % 65536) ∧
    (∀ q c rest, s.idl.toDrive.wire = (q, .drone c) :: rest → Yields .idlDrone s fun t =>
      t.idl.droneAt = some t.droneD ∧ t.idl.toDrive.wire = rest) ∧
    (∀ q src kind inj rest, s.idl.toDrive.wire = (q, .bell0 src kind inj) :: rest → Yields .idlBell0 s fun t =>
      t.idl.bell0 = some (src, kind, inj)) ∧
    (∀ q d rest src kind inj, s.idl.toDrive.wire = (q, .bell1 d) :: rest → s.idl.bell0 = some (src, kind, inj) →
      s.bell.inq.length < 64 → Yields .idlBell1 s fun t => t.idl.bell0 = none ∧
        t.bell.inq = s.bell.inq ++ [{ source := src, kind := kind, detail := d, inj := inj, stamp := some (shelfNow s) }]) := by
  refine ⟨fun q w rest hw => ?_, fun q w rest hw => ⟨fun w0 h0 => ?_, fun h0 => ?_⟩, fun q v rest w ws lat hw hr ht hf => ?_,
    fun q o r rest w ws hw hr ht hh => ?_, fun q c rest hw => ?_, fun q src kind inj rest hw => ?_,
    fun q d rest src kind inj hw hb hn => ?_⟩
  · exact ⟨_, congrArg Host.Outcome.next (takeDrive_of _ hup hd hw rfl), rfl, rfl, rfl⟩
  · have e : exec .idlPush1 s = .next (applyPush (driveTook s rest) w0 w) := by
      refine congrArg Host.Outcome.next ((takeDrive_of _ hup hd hw (by rfl)).trans ?_)
      rw [h0]
    refine ⟨_, e, ?_⟩
    dsimp only
    rw [applyPush_idl]
    exact ⟨rfl, rfl, rfl, rfl⟩
  · have e : exec .idlPush1 s = .next (driveTook s rest) := by
      refine congrArg Host.Outcome.next ((takeDrive_of _ hup hd hw (by rfl)).trans ?_)
      rw [h0]
    exact ⟨_, e, rfl, rfl⟩
  · exact ⟨_, congrArg Host.Outcome.next (takeDrive_of _ hup hd hw rfl), rdDataIn_reads (driveTook s rest) hr ht hf lat.isLt⟩
  · obtain ⟨hi, hc⟩ := wrAckIn_ends (driveTook s rest) (r := r) hr ht hh
    refine ⟨_, congrArg Host.Outcome.next (takeDrive_of _ hup hd hw rfl), ?_⟩
    dsimp only
    rw [hi]
    exact ⟨rfl, rfl, hc⟩
  · obtain ⟨ha, hw'⟩ := droneIn_stands (driveTook s rest) c
    exact ⟨_, congrArg Host.Outcome.next (takeDrive_of _ hup hd hw rfl), ha, congrArg IdlDir.wire hw'⟩
  · exact ⟨_, congrArg Host.Outcome.next (takeDrive_of _ hup hd hw rfl), rfl⟩
  · have e : exec .idlBell1 s = .next (bellIn { driveTook s rest with idl := { (driveTook s rest).idl with bell0 := none } }
        { source := src, kind := kind, detail := d, inj := inj, stamp := some (shelfNow s) }) := by
      refine congrArg Host.Outcome.next ((takeDrive_of _ hup hd hw (by rfl)).trans ?_)
      rw [show (driveTook s rest).idl.bell0 = some (src, kind, inj) from hb]
      rfl
    have hroom := bellIn_of_room { driveTook s rest with idl := { (driveTook s rest).idl with bell0 := none } }
      { source := src, kind := kind, detail := d, inj := inj, stamp := some (shelfNow s) } hn
    refine ⟨_, e.trans (congrArg Host.Outcome.next hroom), rfl, rfl⟩

/-- What the feed die receives. -/
theorem feedFrames_yield (hup : idlUp s = true) (hd : s.idl.toFeed.discarding = false) :
    (∀ q o p rest, s.idl.toFeed.wire = (q, .rdReq o p) :: rest → o.toNat < 0x7000 →
      (feedLocked s (0x10_0000 + o.toNat) p.toNat false = true → Yields .idlRdReq s fun t =>
        t.idl.toDrive.wire = s.idl.toDrive.wire ++ [(s.idl.toDrive.nextSeq, .rdData 0xFFFF_FFFF)]) ∧
      (feedLocked s (0x10_0000 + o.toNat) p.toNat false = false → Yields .idlRdReq s fun t =>
        t.idl.toDrive.wire = s.idl.toDrive.wire ++ [(s.idl.toDrive.nextSeq, .rdData (feedRead s (0x10_0000 + o.toNat)).1)])) ∧
    (∀ q o p rest, s.idl.toFeed.wire = (q, .wrAddr o p) :: rest → Yields .idlWrAddr s fun t =>
      t.idl.wrHeld = some (o, p) ∧ t.idl.toFeed.wire = rest) ∧
    (∀ q v rest o p, s.idl.toFeed.wire = (q, .wrData v) :: rest → s.idl.wrHeld = some (o, p) →
      (feedRefuses s (0x10_0000 + o.toNat) p.toNat = true → Yields .idlWrData s fun t => SameFeedGates s t ∧
        t.idl.toDrive.wire = s.idl.toDrive.wire ++ [(s.idl.toDrive.nextSeq, .wrAck o true)]) ∧
      (p = 0 → o = 0x1048 → fld v 0 11 ≤ 1600 → Yields .idlWrData s fun t =>
        regFld t (ro 0x101 0x48) 0 11 = fld v 0 11 ∧ t.idl.toDrive.wire.getLast?.map (·.2) = some (.wrAck o false))) := by
  refine ⟨fun q o p rest hw ho => ⟨fun hl => ?_, fun hl => ?_⟩, fun q o p rest hw => ?_,
    fun q v rest o p hw hh => ⟨fun hr => ?_, ?_⟩⟩
  · have e : exec .idlRdReq s = .next (sendToDrive (feedTook s rest) (.rdData 0xFFFF_FFFF)) :=
      congrArg Host.Outcome.next ((takeFeed_of _ hup hd hw (by rfl)).trans ((if_neg (Nat.not_le.mpr ho)).trans (if_pos hl)))
    exact ⟨_, e, sendToDrive_wire _ _ hup⟩
  · have hn : ¬ feedLocked (feedTook s rest) (0x10_0000 + o.toNat) p.toNat false = true := fun h =>
      Bool.false_ne_true (hl.symm.trans h)
    have e : exec .idlRdReq s = .next (sendToDrive (feedRead (feedTook s rest) (0x10_0000 + o.toNat)).2
        (.rdData (feedRead (feedTook s rest) (0x10_0000 + o.toNat)).1)) :=
      congrArg Host.Outcome.next ((takeFeed_of _ hup hd hw (by rfl)).trans ((if_neg (Nat.not_le.mpr ho)).trans (if_neg hn)))
    have hi := feedRead_idl (feedTook s rest) (0x10_0000 + o.toNat)
    have hu : idlUp (feedRead (feedTook s rest) (0x10_0000 + o.toNat)).2 = true := (idlUp_of_terms (linkTerms_of_idl hi)).trans hup
    refine ⟨_, e, ?_⟩
    dsimp only
    rw [sendToDrive_wire _ _ hu, hi, feedRead_feedTook]
    rfl
  · exact ⟨_, congrArg Host.Outcome.next (takeFeed_of _ hup hd hw rfl), rfl, rfl⟩
  · have e := wrDataIn_refused (feedTook s rest) (v := v) hh hr
    have hs := sendToDrive_of_up { feedTook s rest with idl := { (feedTook s rest).idl with wrHeld := none } } (.wrAck o true) hup
    exact ⟨_, congrArg Host.Outcome.next ((takeFeed_of _ hup hd hw (by rfl)).trans (e.trans hs)), ⟨rfl, rfl, rfl⟩, rfl⟩
  · rintro rfl rfl hv
    exact ⟨_, congrArg Host.Outcome.next (takeFeed_of _ hup hd hw rfl), wrDataIn_insDelay (feedTook s rest) hup hh hv⟩

/-- Settles O22: a receiver's command is its effect on the machine that has taken the frame; what is sent stands last on the wire. -/
theorem linkFrames : Obligations.LinkFrames := by
  unfold Obligations.LinkFrames
  intro s hup
  refine ⟨driveFrames_yield s hup, feedFrames_yield s hup, fun hd => ?_, ?_⟩
  · exact ⟨_, congrArg Host.Outcome.next (if_pos hd), sendToDrive_wire s _ hup⟩
  · refine ⟨_, if_neg (by simp [hup]), ?_, ?_⟩
    · exact congrArg FeedDie.held (heldBellSend_fd { s with fd := { s.fd with held := [] } } s.fd.held)
    · exact heldBellSend_wire { s with fd := { s.fd with held := [] } } s.fd.held hup

end Sys2Proof.Machine
end

