-- ==== Sys2Proof/Proofs/PlanCommands.lean ====
section
/-! O27. OPEN, STAGE, ARM, DISARM and RELEASE of a plan slot (R185 to R193, R197, R205, R526), after the parts of a request's end and
of a resolution that finds no failing word. -/

namespace Sys2Proof.Machine

open Sys2Proof.Safety (Yields mayWriteSlot SameOutputs)

variable (s : State)

/-! ### The end of a request -/

section
variable {β : Type} {π : State → β} (hq : ∀ s v, π { s with cmdq := v } = π s) (hh : ∀ s v, π { s with host := v } = π s)
    (hb : ∀ s v, π { s with bore := v } = π s) (hr : ∀ s v, π { s with regs := v } = π s)
    (hl : ∀ s v, π { s with bell := v } = π s) (hf : ∀ s v, π { s with flash := v } = π s)
    (hm : ∀ s a n, π { s with msgAt := a, msgNow := n } = π s)
include hq hh hb hr hl hf hm

/-- The end of a request reports it and completes the command that waits for it; nothing else moves. -/
theorem finish_part (k src : Nat) (cut : Bool) (result groups arrived : Nat) (tag : Option Nat) :
    π (finish s k src cut result groups arrived tag) = π s := by
  unfold finish
  extract_lets lat jt w0 w1 t res s1 s2 s3 s4 s5 s6
  have h1 : π s1 = π s := (hr (putReg (bumpReg s res 16 16) res 0 5 result) _).trans ((hr (bumpReg s res 16 16) _).trans (hr s _))
  have h2 : π s2 = π s := (hr (putReg s1 (ro pgCOMMIT 0x4C) 20 4 k) _).trans ((hr s1 _).trans h1)
  have h3 : π s3 = π s := (hr s2 _).trans h2
  have h4 : π s4 = π s := (hf (journal (setBores s3 _ _) 4 _ _) _).trans ((hf (setBores s3 _ _) _).trans ((setBores_part s3 hb hr hl ..).trans h3))
  have h5 : π s5 = π s := (irqSet_part s4 hh hr ..).trans h4
  have h6 : π s6 = π s := by
    unfold s6
    split
    · exact (postAs_part s5 hh hr hl hm rfl ..).trans h5
    · exact h5
  split
  · exact (complete_part s6 hq hh hb hr hl ..).trans h6
  · exact h6

theorem endReq_part (hd : ∀ s v, π { s with reqs := v } = π s) (k result : Nat) : π (endReq s k result) = π s := by
  unfold endReq
  split
  · rfl
  · extract_lets u v
    have hv : π v = π s := by
      unfold v
      split
      · exact (hr u _).trans (hd ..)
      · exact hd ..
    exact (finish_part v hq hh hb hr hl hf hm ..).trans hv

omit hf hm in
theorem planDone_part (k : Nat) : π (planDone s k) = π s := by
  unfold planDone
  exact foldl_part s (fun u tag => complete_part u hq hh hb hr hl ..) _

end

theorem finish_reqs (k src : Nat) (cut : Bool) (result groups arrived : Nat) (tag : Option Nat) :
    (finish s k src cut result groups arrived tag).reqs = s.reqs :=
  finish_part s (π := fun s : State => s.reqs) (fun _ _ => rfl) (fun _ _ => rfl) (fun _ _ => rfl) (fun _ _ => rfl) (fun _ _ => rfl)
    (fun _ _ => rfl) (fun _ _ _ => rfl) ..

theorem planDone_reqs (k : Nat) : (planDone s k).reqs = s.reqs :=
  planDone_part s (π := fun s : State => s.reqs) (fun _ _ => rfl) (fun _ _ => rfl) (fun _ _ => rfl) (fun _ _ => rfl) (fun _ _ => rfl) ..

theorem req_of_reqs {s t : State} (h : t.reqs = s.reqs) (k : Nat) : req t k = req s k := by
  unfold req
  rw [h]

theorem req_delReq (k : Nat) : req (delReq s k) k = none := by
  unfold req delReq tabDel
  refine List.lookup_eq_none_iff.mpr fun p hp => ?_
  have hp := (List.mem_filter.mp hp).2
  rw [bne_iff_ne] at hp ⊢
  exact hp.symm

/-- A request that ends is gone. -/
theorem req_endReq (k result : Nat) : req (endReq s k result) k = none := by
  unfold endReq
  split
  · assumption
  · extract_lets u v
    have hv : v.reqs = (delReq s k).reqs := by
      unfold v
      split <;> rfl
    rw [req_of_reqs (finish_reqs ..), req_of_reqs hv]
    exact req_delReq s k

theorem endReq_slots (k result : Nat) : (endReq s k result).slots = s.slots :=
  endReq_part s (π := fun s : State => s.slots) (fun _ _ => rfl) (fun _ _ => rfl) (fun _ _ => rfl) (fun _ _ => rfl) (fun _ _ => rfl)
    (fun _ _ => rfl) (fun _ _ _ => rfl) (fun _ _ => rfl) ..

theorem planDone_slots (k : Nat) : (planDone s k).slots = s.slots :=
  planDone_part s (π := fun s : State => s.slots) (fun _ _ => rfl) (fun _ _ => rfl) (fun _ _ => rfl) (fun _ _ => rfl) (fun _ _ => rfl) ..

/-- A plan that is rejected has the reason. -/
theorem slot_rejectPlan (k reason : Nat) (d : Option (Nat × Nat)) :
    (slot (rejectPlan s k reason d) k).state = .rejected ∧ (slot (rejectPlan s k reason d) k).reason = BitVec.ofNat 5 reason := by
  unfold rejectPlan
  dsimp only
  rw [slot_of_slots (planDone_slots ..), slot_of_slots (endReq_slots ..), slot_of_slots (post_slots ..), slot_setSlot_self]
  exact ⟨rfl, rfl⟩

/-! ### Reads and resolution without a failing word -/

/-- With no word of failing parity a consumer receives what it reads. -/
theorem parReads_clean (h : s.bore.badPar = []) (a n : Nat) : parReads s a n = (s, true) := by
  have hf : ((List.range n).map (fun i => a + 4 * i)).filter s.bore.badPar.contains = [] := by
    rw [h]
    exact List.filter_eq_nil_iff.mpr fun _ _ => by simp
  unfold parReads
  rw [hf]

/-- What one delta resolves to when no word fails: the entry, or the reason with the index and the channel. -/
def deltaOutcome (k i : Nat) (es : List Entry) : Nat × Nat × Nat ⊕ Entry :=
  let w0 := boreWord s (deltaAddr k i)
  let w1 := boreWord s (deltaAddr k i + 4)
  let ch := fld w0 0 15
  let sp := spWords s (ch * 4 + fld w0 16 2)
  if deltaBad w0 w1 then .inl (2, i, ch)
  else if !bit w0 20 && !bit (sp[0]?.getD 0) 17 then .inl (3, i, ch)
  else if !bit w0 20 && !spOk sp then .inl (4, i, ch)
  else if es.any (fun e => e.ch == ch) then .inl (5, i, ch)
  else .inr (deltaEntry w0 w1 sp)

/-- A resolution goes on after one delta. -/
def Resolved.next (r : Resolved) : Nat × Nat × Nat ⊕ Entry → Resolved
  | .inl f => { r with fail := some f }
  | .inr e => { r with entries := r.entries ++ [e] }

theorem resolveOne_clean (k i : Nat) (r : Resolved) (hr : r.fail = none) (hp : r.s.bore.badPar = []) :
    resolveOne k r i = r.next (deltaOutcome r.s k i r.entries) := by
  have hq : (if bit (boreWord r.s (deltaAddr k i)) 20 then (r.s, true)
      else parReads r.s (spAddr (fld (boreWord r.s (deltaAddr k i)) 0 15 * 4 + fld (boreWord r.s (deltaAddr k i)) 16 2)) 4) =
      (r.s, true) := by
    split
    · rfl
    · exact parReads_clean r.s hp _ _
  unfold resolveOne deltaOutcome
  rw [hr]
  dsimp only
  rw [parReads_clean r.s hp, hq]
  simp only [Bool.not_true, Bool.false_eq_true, if_false]
  split
  · rfl
  · split
    · rfl
    · split
      · rfl
      · split
        · rfl
        · unfold Resolved.next
          dsimp only
          rw [hr]

theorem deltaOutcome_of_bore {s t : State} (h : t.bore = s.bore) (k i : Nat) (es : List Entry) :
    deltaOutcome t k i es = deltaOutcome s k i es := by
  have hb : ∀ a, boreWord t a = boreWord s a := fun a => by unfold boreWord; rw [h]
  have hs : ∀ a n, boreWords t a n = boreWords s a n := fun a n => by
    unfold boreWords
    rw [funext fun i => hb (a + 4 * i)]
  unfold deltaOutcome spWords
  simp only [hb, hs]

theorem resolveOne_swap (k i : Nat) (r : Resolved) (t : State) (hp : r.s.bore.badPar = []) (ht : t.bore = r.s.bore) :
    resolveOne k { r with s := t } i = { resolveOne k r i with s := t } ∧ (resolveOne k r i).s = r.s := by
  rcases Option.eq_none_or_eq_some r.fail with hf | ⟨f, hf⟩
  · rw [resolveOne_clean k i r hf hp, resolveOne_clean k i { r with s := t } hf (by rw [ht]; exact hp), deltaOutcome_of_bore ht]
    cases deltaOutcome r.s k i r.entries with
    | inl f => exact ⟨rfl, rfl⟩
    | inr e => exact ⟨rfl, rfl⟩
  · have e : resolveOne k r i = r := by
      unfold resolveOne
      rw [hf]
    have e' : resolveOne k { r with s := t } i = { r with s := t } := by
      unfold resolveOne
      rw [hf]
    rw [e, e']
    exact ⟨rfl, rfl⟩

/-- A resolution without a failing word rests on the Bore alone and changes nothing. -/
theorem resolve_of_bore {s t : State} (hp : s.bore.badPar = []) (ht : t.bore = s.bore) (k n : Nat) :
    resolve t k n = { resolve s k n with s := t } ∧ (resolve s k n).s = s := by
  have h : ∀ (l : List Nat) (r : Resolved), r.s = s →
      l.foldl (resolveOne k) { r with s := t } = { l.foldl (resolveOne k) r with s := t } ∧ (l.foldl (resolveOne k) r).s = s := by
    intro l
    induction l with
    | nil => exact fun r hr => ⟨rfl, hr⟩
    | cons i l ih =>
      intro r hr
      obtain ⟨h1, h2⟩ := resolveOne_swap k i r t (by rw [hr]; exact hp) (by rw [hr]; exact ht)
      rw [List.foldl_cons, List.foldl_cons, h1]
      exact ih _ (h2.trans hr)
  exact h (List.range n) { s := s } rfl

/-! ### The result of a command -/

theorem plResult_slots (cmd k count res : Nat) : (plResult s cmd k count res).slots = s.slots := by
  unfold plResult
  dsimp only
  split
  · rfl
  · exact (post_slots ..).trans rfl

theorem plResult_reqs (cmd k count res : Nat) : (plResult s cmd k count res).reqs = s.reqs := by
  unfold plResult
  dsimp only
  split
  · rfl
  · exact (post_reqs ..).trans rfl

theorem plResult_code (cmd k count res : Nat) (h : res < 8) : fld (getReg (plResult s cmd k count res) (ro pgPLAN 0x44)) 8 3 = res := by
  have hp : getReg (plResult s cmd k count res) (ro pgPLAN 0x44) = pack [(0, 4, cmd), (4, 4, k), (8, 3, res)] := by
    unfold plResult
    dsimp only
    split
    · exact getReg_setReg_self ..
    · exact (getReg_post _ (by decide) ..).trans (getReg_setReg_self ..)
  rw [hp]
  exact (fld_put_self _ 8 3 res (by decide)).trans (Nat.mod_eq_of_lt h)

/-! ### The five commands -/

theorem slot_plOpen (k : Nat) (h : (slot s k).state = .empty ∨ (slot s k).state = .rejected) :
    (plOpen s k).2 = 0 ∧ (slot (plOpen s k).1 k).state = .staging ∧ (slot (plOpen s k).1 k).deltas = 0 ∧
      (slot (plOpen s k).1 k).reason = 0 := by
  unfold plOpen
  dsimp only
  rw [if_pos h, slot_setSlot_self]
  exact ⟨rfl, rfl, rfl, rfl⟩

theorem plOpen_refused (k : Nat) (h1 : (slot s k).state ≠ .empty) (h2 : (slot s k).state ≠ .rejected) : plOpen s k = (s, 1) :=
  if_neg (by simp [h1, h2])

/-- The slot as STAGE leaves it before its checks. -/
def stagedSlot (k n : Nat) : State :=
  setSlot s k { slot s k with
    state := .staging, deltas := BitVec.ofNat 16 n, reason := 0, work := .expand, entries := [], xt := false, detailIdx := 0,
    detailCh := 0, detailValid := false, stagedAt := s.now, band := band s }

theorem plStage_eq (k n : Nat) (hs : (slot s k).state = .staging ∨ (slot s k).state = .rejected) (hw : (slot s k).work = .none) :
    plStage s k n =
      if 32768 < n then (rejectPlan (stagedSlot s k n) k 1 none, 0)
      else if (stagedSlot s k n).boot.stage.val < 4 ∨ (tab (stagedSlot s k n) kST).running = 1 then
        (rejectPlan (stagedSlot s k n) k 7 none, 0)
      else
        match (resolve (stagedSlot s k n) k n).fail with
        | some (reason, i, ch) => (rejectPlan (resolve (stagedSlot s k n) k n).s k reason (some (i, ch)), 0)
        | none => ((resolve (stagedSlot s k n) k n).s, 0) := by
  have h1 : ¬((slot s k).state ≠ .staging ∧ (slot s k).state ≠ .rejected) := fun h => hs.elim h.1 h.2
  unfold plStage
  dsimp only
  rw [if_neg (not_not.mpr hw), if_neg h1]
  rfl

theorem plStage_resolved (k n : Nat) (hs : (slot s k).state = .staging ∨ (slot s k).state = .rejected) (hw : (slot s k).work = .none)
    (hn : n ≤ 32768) (h4 : s.boot.stage.val = 4) (ht : (tab s kST).running ≠ 1) (hp : s.bore.badPar = [])
    (hr : (resolve s k n).fail = none) : plStage s k n = (stagedSlot s k n, 0) := by
  obtain ⟨e, -⟩ := resolve_of_bore (s := s) (t := stagedSlot s k n) hp rfl k n
  have hst : ¬((stagedSlot s k n).boot.stage.val < 4 ∨ (tab (stagedSlot s k n) kST).running = 1) := by
    rintro (h | h)
    · have h4' : (stagedSlot s k n).boot.stage.val = 4 := h4
      omega
    · exact ht h
  rw [plStage_eq s k n hs hw, if_neg (by omega), if_neg hst, e]
  dsimp only
  rw [hr]

theorem slot_stagedSlot (k n : Nat) : slot (stagedSlot s k n) k = { slot s k with
    state := .staging, deltas := BitVec.ofNat 16 n, reason := 0, work := .expand, entries := [], xt := false, detailIdx := 0,
    detailCh := 0, detailValid := false, stagedAt := s.now, band := band s } := slot_setSlot_self ..

theorem plArm_admitted (k : Nat) (hw : (slot s k).work = .none) (hs : (slot s k).state = .admitted) (hp : s.bell.parkHold = false)
    (hr : hasRoom s k = true) : plArm s k = (setSlot s k { slot s k with state := .armed, ready := false, work := .copy }, 0) := by
  unfold plArm
  dsimp only
  rw [if_neg (not_not.mpr hw), if_neg (by simp [hp, hs]), if_neg (by simp [hr]), if_pos hs]

theorem plArm_held (k : Nat) (hw : (slot s k).work = .none) (hp : s.bell.parkHold = true) : plArm s k = (s, 1) := by
  unfold plArm
  dsimp only
  rw [if_neg (not_not.mpr hw), if_pos (.inl hp)]

/-- DISARM brings the slot back to 3 ADMITTED and ends its request. -/
theorem disarm_slot (k : Nat) : (slot (disarm s k) k).state = .admitted ∧ (slot (disarm s k) k).ready = false ∧ req (disarm s k) k = none := by
  unfold disarm
  extract_lets x u v
  have hu : slot u k = { x with state := .admitted, ready := false, work := if x.work = .redo then .admission else .none } :=
    slot_setSlot_self ..
  have hv : slot v k = slot u k := slot_of_slots (endReq_slots ..) k
  have hr : req v k = none := req_endReq ..
  split
  · rw [hv, hu]
    exact ⟨rfl, rfl, hr⟩
  · rw [slot_of_slots (planDone_slots ..), req_of_reqs (planDone_reqs ..), hv, hu]
    exact ⟨rfl, rfl, hr⟩

theorem plRelease_slot (k : Nat) (h1 : (slot s k).state ≠ .empty) (h2 : (slot s k).state ≠ .armed) :
    (plRelease s k).2 = 0 ∧ (slot (plRelease s k).1 k).state = .empty ∧ (slot (plRelease s k).1 k).entries = [] ∧
      req (plRelease s k).1 k = none := by
  have e : plRelease s k = (planDone (endReq (setSlot s k {}) k 4) k, 0) := if_neg (by simp [h1, h2])
  rw [e]
  dsimp only
  rw [slot_of_slots (planDone_slots ..), slot_of_slots (endReq_slots ..), slot_setSlot_self, req_of_reqs (planDone_reqs ..)]
  exact ⟨rfl, rfl, rfl, req_endReq ..⟩

/-! ### The statement -/

/-- The exec of a command of PL_CMD: the command's code and count. -/
theorem plWrite_inRun {fn : Fn} {k : Slot} (h : mayWriteSlot s fn pgPLAN 0x40 1 k.val = true) (hr : inRun s = true) (cmd n : Nat) :
    plWrite s fn cmd k.val n = planCmd s cmd k.val n := by
  unfold plWrite
  rw [guarded_of_mayWriteSlot s _ _ _ _ _ _ h]
  exact if_pos hr

theorem plWrite_waits {fn : Fn} {k : Slot} (h : mayWriteSlot s fn pgPLAN 0x40 1 k.val = true) (hr : inRun s = false) (cmd n : Nat) :
    plWrite s fn cmd k.val n = { s with fabWait := s.fabWait ++ [.plan cmd k.val n none] } := by
  unfold plWrite
  rw [guarded_of_mayWriteSlot s _ _ _ _ _ _ h]
  exact if_neg (by simp [hr])

theorem planCmd_outputs (cmd k count : Nat) : SameOutputs s (planCmd s cmd k count) :=
  sameOutputs_of_chans ((planCmd_keeps (may := { slots := true, bore := true }) rfl rfl Keeps.rfl).chans rfl)

theorem planOpen_yields {fn : Fn} {k : Slot} (h : mayWriteSlot s fn pgPLAN 0x40 1 k.val = true) (hr : inRun s = true) :
    ((slot s k.val).state = .empty ∨ (slot s k.val).state = .rejected → Yields (.plOpen fn k) s fun t =>
      (slot t k.val).state = .staging ∧ (slot t k.val).deltas = 0 ∧ (slot t k.val).reason = 0 ∧
      fld (getReg t (ro pgPLAN 0x44)) 8 3 = 0 ∧ SameOutputs s t) ∧
    ((slot s k.val).state ≠ .empty → (slot s k.val).state ≠ .rejected → Yields (.plOpen fn k) s fun t =>
      t.slots = s.slots ∧ fld (getReg t (ro pgPLAN 0x44)) 8 3 = 1 ∧ SameOutputs s t) := by
  have e : exec (.plOpen fn k) s = .next (planCmd s 1 k.val 0) := congrArg Host.Outcome.next (plWrite_inRun s h hr 1 0)
  have hp : planCmd s 1 k.val 0 = plResult (plOpen s k.val).1 1 k.val 0 (plOpen s k.val).2 := rfl
  refine ⟨fun hs => ?_, fun h1 h2 => ?_⟩
  · obtain ⟨h0, h1, h2, h3⟩ := slot_plOpen s k.val hs
    refine ⟨_, e, ?_⟩
    refine ⟨?_, ?_, ?_, ?_, planCmd_outputs s _ _ _⟩
    · rw [hp, slot_of_slots (plResult_slots ..)]
      exact h1
    · rw [hp, slot_of_slots (plResult_slots ..)]
      exact h2
    · rw [hp, slot_of_slots (plResult_slots ..)]
      exact h3
    · rw [hp, h0]
      exact plResult_code _ _ _ _ _ (by decide)
  · have hq : planCmd s 1 k.val 0 = plResult s 1 k.val 0 1 := by rw [hp, plOpen_refused s k.val h1 h2]
    refine ⟨_, e, ?_, ?_, planCmd_outputs s _ _ _⟩
    · rw [hq, plResult_slots]
    · rw [hq]
      exact plResult_code _ _ _ _ _ (by decide)

theorem planStage_yields {fn : Fn} {k : Slot} (h : mayWriteSlot s fn pgPLAN 0x40 1 k.val = true) (hr : inRun s = true) (n : BitVec 16)
    (hs : (slot s k.val).state = .staging ∨ (slot s k.val).state = .rejected) (hw : (slot s k.val).work = .none) :
    (32768 < n.toNat → Yields (.plStage fn k n) s fun t =>
      (slot t k.val).state = .rejected ∧ (slot t k.val).reason = 1 ∧ SameOutputs s t) ∧
    (n.toNat ≤ 32768 → s.boot.stage.val < 4 → Yields (.plStage fn k n) s fun t =>
      (slot t k.val).state = .rejected ∧ (slot t k.val).reason = 7 ∧ SameOutputs s t) ∧
    (n.toNat ≤ 32768 → s.boot.stage.val = 4 → (tab s kST).running ≠ 1 → s.bore.badPar = [] →
      (resolve s k.val n.toNat).fail = none → Yields (.plStage fn k n) s fun t =>
        (slot t k.val).state = .staging ∧ (slot t k.val).work = .expand ∧ (slot t k.val).deltas = n ∧ SameOutputs s t) := by
  have e : exec (.plStage fn k n) s = .next (planCmd s 2 k.val n.toNat) := congrArg Host.Outcome.next (plWrite_inRun s h hr 2 n.toNat)
  have hp : planCmd s 2 k.val n.toNat = plResult (plStage s k.val n.toNat).1 2 k.val n.toNat (plStage s k.val n.toNat).2 := rfl
  have hslot : slot (planCmd s 2 k.val n.toNat) k.val = slot (plStage s k.val n.toNat).1 k.val := by
    rw [hp, slot_of_slots (plResult_slots ..)]
  refine ⟨fun hn => ?_, fun hn h4 => ?_, fun hn h4 ht hb hf => ?_⟩
  · have hq : (plStage s k.val n.toNat).1 = rejectPlan (stagedSlot s k.val n.toNat) k.val 1 none := by
      rw [plStage_eq s k.val n.toNat hs hw, if_pos hn]
    obtain ⟨h1, h2⟩ := slot_rejectPlan (stagedSlot s k.val n.toNat) k.val 1 none
    refine ⟨_, e, ?_, ?_, planCmd_outputs s _ _ _⟩
    · rw [hslot, hq]
      exact h1
    · rw [hslot, hq]
      exact h2
  · have hq : (plStage s k.val n.toNat).1 = rejectPlan (stagedSlot s k.val n.toNat) k.val 7 none := by
      rw [plStage_eq s k.val n.toNat hs hw, if_neg (by omega), if_pos (.inl h4)]
    obtain ⟨h1, h2⟩ := slot_rejectPlan (stagedSlot s k.val n.toNat) k.val 7 none
    refine ⟨_, e, ?_, ?_, planCmd_outputs s _ _ _⟩
    · rw [hslot, hq]
      exact h1
    · rw [hslot, hq]
      exact h2
  · refine ⟨_, e, ?_⟩
    dsimp only
    rw [hslot, plStage_resolved s k.val n.toNat hs hw hn h4 ht hb hf]
    dsimp only
    rw [slot_stagedSlot]
    exact ⟨rfl, rfl, BitVec.eq_of_toNat_eq (by simp), planCmd_outputs s _ _ _⟩

theorem planArm_yields {fn : Fn} {k : Slot} (h : mayWriteSlot s fn pgPLAN 0x40 1 k.val = true) (hr : inRun s = true) :
    ((slot s k.val).work = .none → (slot s k.val).state = .admitted → s.bell.parkHold = false → hasRoom s k.val = true →
      Yields (.plArm fn k) s fun t => (slot t k.val).state = .armed ∧ (slot t k.val).ready = false ∧ (slot t k.val).work = .copy ∧
        (slot t k.val).entries = (slot s k.val).entries ∧ SameOutputs s t) ∧
    ((slot s k.val).work = .none → s.bell.parkHold = true → Yields (.plArm fn k) s fun t => t.slots = s.slots ∧ SameOutputs s t) := by
  have e : exec (.plArm fn k) s = .next (planCmd s 3 k.val 0) := congrArg Host.Outcome.next (plWrite_inRun s h hr 3 0)
  have hp : planCmd s 3 k.val 0 = plResult (plArm s k.val).1 3 k.val 0 (plArm s k.val).2 := rfl
  refine ⟨fun hw hs hh hm => ?_, fun hw hh => ?_⟩
  · refine ⟨_, e, ?_⟩
    dsimp only
    have hslot : slot (planCmd s 3 k.val 0) k.val = { slot s k.val with state := .armed, ready := false, work := .copy } := by
      rw [hp, slot_of_slots (plResult_slots ..), plArm_admitted s k.val hw hs hh hm]
      exact slot_setSlot_self ..
    rw [hslot]
    exact ⟨rfl, rfl, rfl, rfl, planCmd_outputs s _ _ _⟩
  · refine ⟨_, e, ?_, planCmd_outputs s _ _ _⟩
    rw [hp, plResult_slots, plArm_held s k.val hw hh]

theorem planDisarm_yields {fn : Fn} {k : Slot} (h : mayWriteSlot s fn pgPLAN 0x40 1 k.val = true) (hr : inRun s = true)
    (ha : (slot s k.val).state = .armed) :
    ((slot s k.val).ready = false ∨ committing s k.val = false → Yields (.plDisarm fn k) s fun t =>
      (slot t k.val).state = .admitted ∧ (slot t k.val).ready = false ∧ req t k.val = none ∧ SameOutputs s t) ∧
    ((slot s k.val).ready = true → committing s k.val = true → Yields (.plDisarm fn k) s fun t =>
      t.slots = s.slots ∧ t.reqs = s.reqs ∧ fld (getReg t (ro pgPLAN 0x44)) 8 3 = 1 ∧ SameOutputs s t) := by
  have e : exec (.plDisarm fn k) s = .next (planCmd s 4 k.val 0) := congrArg Host.Outcome.next (plWrite_inRun s h hr 4 0)
  have hp : planCmd s 4 k.val 0 = plResult (plDisarm s k.val).1 4 k.val 0 (plDisarm s k.val).2 := rfl
  refine ⟨fun hc => ?_, fun hd hc => ?_⟩
  · have hq : plDisarm s k.val = (disarm s k.val, 0) := if_neg (by rcases hc with hc | hc <;> simp [ha, hc])
    obtain ⟨h1, h2, h3⟩ := disarm_slot s k.val
    refine ⟨_, e, ?_⟩
    dsimp only
    rw [hp, hq, slot_of_slots (plResult_slots ..), req_of_reqs (plResult_reqs ..)]
    exact ⟨h1, h2, h3, hq ▸ hp ▸ planCmd_outputs s 4 k.val 0⟩
  · have hq : planCmd s 4 k.val 0 = plResult s 4 k.val 0 1 := by
      rw [hp, show plDisarm s k.val = (s, 1) from if_pos (.inr (by simp [hd, hc]))]
    refine ⟨_, e, ?_, ?_, ?_, planCmd_outputs s _ _ _⟩
    · rw [hq, plResult_slots]
    · rw [hq, plResult_reqs]
    · rw [hq]
      exact plResult_code _ _ _ _ _ (by decide)

theorem planRelease_yields {fn : Fn} {k : Slot} (h : mayWriteSlot s fn pgPLAN 0x40 1 k.val = true) (hr : inRun s = true)
    (h1 : (slot s k.val).state ≠ .empty) (h2 : (slot s k.val).state ≠ .armed) : Yields (.plRelease fn k) s fun t =>
      (slot t k.val).state = .empty ∧ (slot t k.val).entries = [] ∧ req t k.val = none ∧ SameOutputs s t := by
  have e : exec (.plRelease fn k) s = .next (planCmd s 5 k.val 0) := congrArg Host.Outcome.next (plWrite_inRun s h hr 5 0)
  have hp : planCmd s 5 k.val 0 = plResult (plRelease s k.val).1 5 k.val 0 (plRelease s k.val).2 := rfl
  obtain ⟨-, h3, h4, h5⟩ := plRelease_slot s k.val h1 h2
  refine ⟨_, e, ?_, ?_, ?_, planCmd_outputs s _ _ _⟩
  · rw [hp, slot_of_slots (plResult_slots ..)]
    exact h3
  · rw [hp, slot_of_slots (plResult_slots ..)]
    exact h4
  · rw [hp, req_of_reqs (plResult_reqs ..)]
    exact h5

/-- Settles O27: outside RUN the command waits; in RUN each command by what it makes of its slot. -/
theorem planCommands : Obligations.PlanCommands := by
  unfold Obligations.PlanCommands
  intro s fn k h x
  have hw : ∀ cmd n, inRun s = false → ∃ t, Host.Outcome.next (plWrite s fn cmd k.val n) = (.next t : Result) ∧
      t.fabWait = s.fabWait ++ [.plan cmd k.val n none] ∧ t.slots = s.slots ∧ SameOutputs s t := fun cmd n hr =>
    ⟨_, congrArg Host.Outcome.next (plWrite_waits s h hr cmd n), rfl, rfl, fun _ => rfl⟩
  refine ⟨fun hr => ⟨hw 1 0 hr, fun n => hw 2 n.toNat hr, hw 3 0 hr, hw 4 0 hr, hw 5 0 hr⟩, fun hr => ?_⟩
  obtain ⟨ho1, ho2⟩ := planOpen_yields s h hr
  obtain ⟨ha1, ha2⟩ := planArm_yields s h hr
  exact ⟨ho1, ho2, fun n hs hwk => planStage_yields s h hr n hs hwk, ha1, ha2, fun ha => (planDisarm_yields s h hr ha).1,
    fun ha => (planDisarm_yields s h hr ha).2, planRelease_yields s h hr⟩

end Sys2Proof.Machine
end

