-- ==== Sys2Proof/Proofs/CommitRequests.lean ====
section
/-! O29. Requests of COMMIT_NOW, SYNC_IN and schedules, and their timeouts (R199 to R210, R230), after the registers that the end of
a request leaves. -/

namespace Sys2Proof.Machine

open Sys2Proof.Safety (Yields mayWrite mayWriteSlot SameOutputs)

variable (s : State)

/-! ### The registers that shared operations leave -/

/-- A register of a page's body, away from the pages that a message or a completion counts in. -/
def body? (off : Nat) : Bool := 0x40 ≤ off % 4096 && off / 4096 != pgBELL && off / 4096 != pgCMDQ && off / 4096 != pgFSYS

theorem body?_ro {page o : Nat} (ho : o < 4096) (h : 0x40 ≤ o) (hb : page ≠ pgBELL) (hc : page ≠ pgCMDQ) (hf : page ≠ pgFSYS) :
    body? (ro page o) = true := by
  unfold body? ro
  rw [show (page * 4096 + o) % 4096 = o by omega, show (page * 4096 + o) / 4096 = page by omega]
  simp [h, hb, hc, hf]

section
variable {off : Nat} (h : body? off = true)
include h

theorem ne_header_of_body {page o : Nat} (ho : o < 0x40) : off ≠ ro page o := by
  rintro rfl
  simp [body?, ro] at h
  omega

theorem ne_of_body {page o : Nat} (hp : page = pgBELL ∨ page = pgCMDQ ∨ page = pgFSYS) (ho : o < 4096) : off ≠ ro page o := by
  rintro rfl
  simp only [body?, ro, Bool.and_eq_true, bne_iff_ne] at h
  omega

theorem unmarked_of_body : unmarked? off = true := by
  have h1 : off ≠ ro pgFSYS 0x4C := ne_of_body h (.inr (.inr rfl)) (by decide)
  have h2 : off ≠ ro pgBELL 0x50 := ne_of_body h (.inl rfl) (by decide)
  have h3 : off ≠ ro pgBELL 0x14 := ne_of_body h (.inl rfl) (by decide)
  have h4 : off % 4096 ≠ 0x1C := by
    simp only [body?, Bool.and_eq_true, decide_eq_true_eq] at h
    omega
  simp [unmarked?, h1, h2, h3, h4]

theorem getReg_setBore (a : Nat) (w : Word) : getReg (setBore s a w) off = getReg s off := by
  have hr : (setBore s a w).regs = match checkFor s a with
      | some p => (putReg s (ro p.1 0x24) 6 1 0).regs
      | none => s.regs := by
    unfold setBore
    split
    · next hc => rw [hc]; rfl
    · next hc => rw [hc]
  cases hc : checkFor s a with
  | none => exact getReg_of_regs (by rw [hr, hc]) off
  | some p =>
    have hp : off ≠ ro p.1 0x24 := ne_header_of_body h (by decide)
    exact (getReg_of_regs (by rw [hr, hc]) off).trans (getReg_putReg_other s _ 6 1 0 off hp)

theorem getReg_setBores (a : Nat) (ws : List Word) : getReg (setBores s a ws) off = getReg s off := by
  induction ws generalizing s a with
  | nil => rfl
  | cons w ws ih =>
    rw [setBores_cons, ih, getReg_setBore s h]

theorem getReg_stageRecord (ws : List Word) : getReg (stageRecord s ws) off = getReg s off :=
  (getReg_of_regs (s := setBores s (0x60_0000 + s.flash.staged % 131072 * 16) ws) rfl off).trans (getReg_setBores s h ..)

theorem getReg_irqSet_body (page : Nat) (bits : Word) : getReg (irqSet s page bits) off = getReg s off :=
  getReg_irqSet s (ne_header_of_body h (by decide)) bits

theorem getReg_writeCompletion (c : Cmd) (q sct sc : Nat) (dw0 dw1 : Word) :
    getReg (writeCompletion s c q sct sc dw0 dw1) off = getReg s off := by
  have hb : ∀ (u : State) o lo n k, o < 4096 → getReg (bumpReg u (ro pgCMDQ o) lo n k) off = getReg u off := fun u o lo n k ho =>
    getReg_putReg_other _ _ _ _ _ _ (ne_of_body h (.inr (.inl rfl)) ho)
  unfold writeCompletion
  extract_lets x base ws s1 wrap s2 s3 s4
  have h1 : getReg s1 off = getReg s off := (getReg_setBores _ h ..).trans (getReg_setBores s h ..)
  have h3 : getReg s3 off = getReg s off := (hb s2 _ _ _ _ (by decide)).trans h1
  have h4 : getReg s4 off = getReg s off := by
    unfold s4
    split
    · exact (hb s3 _ _ _ _ (by decide)).trans h3
    · exact h3
  unfold cqSignal
  dsimp only
  split
  · exact h4
  · split
    · exact (getReg_of_regs (sendMsi_regs ..) off).trans h4
    · exact h4

theorem getReg_complete (tag sct sc : Nat) (dw0 dw1 : Word) : getReg (complete s tag sct sc dw0 dw1) off = getReg s off := by
  unfold complete
  split
  · rfl
  · split
    · exact getReg_writeCompletion s h ..
    · split
      · exact getReg_writeCompletion s h ..
      · rfl

end

/-! ### The end of a request -/

theorem body?_commit (k : Slot) : body? (ro pgCOMMIT (0x180 + 4 * k.val)) = true :=
  body?_ro (by omega) (by omega) (by decide) (by decide) (by decide)

/-- The rest of a request's end, after its three registers, changes no register of a page's body. -/
theorem getReg_finish {off : Nat} (h : body? off = true) (k src : Nat) (cut : Bool) (result groups arrived : Nat) (tag : Option Nat) :
    getReg (finish s k src cut result groups arrived tag) off =
      let res := ro pgCOMMIT (0x180 + 4 * k)
      let u := putReg (putReg (bumpReg s res 16 16) res 0 5 result) res 5 2 src
      getReg (setReg (putReg (putReg u (ro pgCOMMIT 0x4C) 20 4 k) (ro pgCOMMIT 0x4C) 24 5 result) (ro pgCOMMIT 0x58)
        (pack [(0, 24, min (s.now - arrived) 0xFF_FFFF), (24, 2, src)])) off := by
  unfold finish
  extract_lets lat jt w0 w1 t res s1 s2 s3 s4 s5 s6
  have h5 : getReg s5 off = getReg s3 off := (getReg_irqSet_body s4 h ..).trans (getReg_stageRecord s3 h _)
  have h6 : getReg s6 off = getReg s3 off := by
    unfold s6
    split
    · exact (getReg_post s5 (unmarked_of_body h) ..).trans h5
    · exact h5
  split
  · exact (getReg_complete s6 h ..).trans h6
  · exact h6

/-- A request's end leaves every register of a page's body but its result, the last result and the last latency. -/
theorem getReg_finish_other {off : Nat} (h : body? off = true) (k : Slot) (src : Nat) (cut : Bool) (result groups arrived : Nat)
    (tag : Option Nat) (h1 : off ≠ ro pgCOMMIT (0x180 + 4 * k.val)) (h2 : off ≠ ro pgCOMMIT 0x4C) (h3 : off ≠ ro pgCOMMIT 0x58) :
    getReg (finish s k.val src cut result groups arrived tag) off = getReg s off := by
  rw [getReg_finish s h]
  dsimp only
  rw [getReg_setReg_other _ _ _ _ h3, getReg_putReg_other _ _ _ _ _ _ h2, getReg_putReg_other _ _ _ _ _ _ h2,
    getReg_putReg_other _ _ _ _ _ _ h1, getReg_putReg_other _ _ _ _ _ _ h1]
  exact getReg_putReg_other _ _ _ _ _ _ h1

/-- The slot's result register shows the result. -/
theorem regFld_finish (k : Slot) (src : Nat) (cut : Bool) {result : Nat} (groups arrived : Nat) (tag : Option Nat)
    (hr : result < 32) : regFld (finish s k.val src cut result groups arrived tag) (ro pgCOMMIT (0x180 + 4 * k.val)) 0 5 = result := by
  have h2 : ro pgCOMMIT (0x180 + 4 * k.val) ≠ ro pgCOMMIT 0x4C := by unfold ro; omega
  have h3 : ro pgCOMMIT (0x180 + 4 * k.val) ≠ ro pgCOMMIT 0x58 := by unfold ro; omega
  refine (regFld_of_getReg ((getReg_finish s (body?_commit k) ..).trans ?_) 0 5).trans ((regFld_putReg_below _ _ 5 2 src 0 5
    (by decide)).trans ((regFld_putReg_self (bumpReg s (ro pgCOMMIT (0x180 + 4 * k.val)) 16 16) _ 0 5 result (by decide)).trans
    (Nat.mod_eq_of_lt hr)))
  dsimp only
  rw [getReg_setReg_other _ _ _ _ h3, getReg_putReg_other _ _ _ _ _ _ h2, getReg_putReg_other _ _ _ _ _ _ h2]

theorem finish_outputs (k src : Nat) (cut : Bool) (result groups arrived : Nat) (tag : Option Nat) :
    SameOutputs s (finish s k src cut result groups arrived tag) :=
  sameOutputs_of_chans ((finish_keeps (may := { bore := true }) rfl Keeps.rfl).chans rfl)

theorem regFld_endReq (k : Slot) {r : Req} (hr : req s k.val = some r) {result : Nat} (hres : result < 32) :
    regFld (endReq s k.val result) (ro pgCOMMIT (0x180 + 4 * k.val)) 0 5 = result := by
  unfold endReq
  rw [hr]
  exact regFld_finish _ k _ _ _ _ _ hres

/-! ### A request arrives -/

theorem req_setReq (k : Nat) (r : Req) : req (setReq s k r) k = some r := by
  unfold req setReq
  dsimp only
  generalize s.reqs = l
  induction l with
  | nil => simp [tabIns]
  | cons p l ih =>
    unfold tabIns
    split
    · simp
    · split
      · simp
      · next h =>
        rw [List.lookup_cons, show (k == p.1) = false from by simpa using h]
        exact ih

/-- The request of an armed slot without one becomes pending (R200). -/
theorem commitRequest_pends (src : Nat) (k : Nat) (cut : Bool) (tag : Option Nat) (h4 : s.boot.stage.val = 4) (hl : level s < 3)
    (ha : (slot s k).state = .armed) (hq : req s k = none) :
    commitRequest s src k cut tag = setReq s k {
      src := BitVec.ofNat 2 src, cut := cut, arrived := s.now, tag := tag.map (Fin.ofNat 512),
      lat := pathLat src + if s.power.fast = .warm then 16 else 0 } := by
  unfold commitRequest
  rw [if_neg (by omega), if_neg (by omega), if_neg (by omega), if_neg (by simp [ha]), if_neg (by simp [hq])]

/-- The request of a slot that is not armed completes with result 2. -/
theorem commitRequest_unarmed (src : Nat) (k : Nat) (cut : Bool) (tag : Option Nat) (h4 : s.boot.stage.val = 4) (hl : level s < 3)
    (ha : (slot s k).state ≠ .armed) : commitRequest s src k cut tag = finish s k src cut 2 0 s.now tag := by
  unfold commitRequest
  rw [if_neg (by omega), if_neg (by omega), if_neg (by omega), if_pos ha]

/-! ### Schedule entries -/

theorem b2n_inj {a b : Bool} (h : b2n a = b2n b) : a = b := by
  revert h
  revert a b
  decide

theorem schedEn_setSchedEn (k : Slot) (on : Bool) : schedEn (setSchedEn s k.val on) k.val = on := by
  have h := regFld_putReg_self s (ro pgCOMMIT 0x64) k.val 1 (b2n on) (by omega)
  rw [regFld, fld_one] at h
  exact b2n_inj (h.trans (by cases on <;> rfl))

/-- The bits of the schedule stand after a request's end as before it. -/
theorem schedEn_finish (k j : Slot) (src : Nat) (cut : Bool) (result groups arrived : Nat) (tag : Option Nat) :
    schedEn (finish s k.val src cut result groups arrived tag) j.val = schedEn s j.val := by
  unfold schedEn
  rw [getReg_finish_other s (by decide) k _ _ _ _ _ _ (by unfold ro; omega) (by decide) (by decide)]

/-- What a request that becomes pending shows. -/
theorem commitRequest_shows (src : Nat) (k : Nat) (cut : Bool) (tag : Option Nat) (h4 : s.boot.stage.val = 4) (hl : level s < 3)
    (ha : (slot s k).state = .armed) (hq : req s k = none) :
    let t := commitRequest s src k cut tag
    (∃ r, req t k = some r ∧ r.src = BitVec.ofNat 2 src ∧ r.cut = cut ∧ r.arrived = s.now ∧
      r.lat = pathLat src + if s.power.fast = .warm then 16 else 0) ∧ t.slots = s.slots ∧ t.regs = s.regs ∧ SameOutputs s t := by
  rw [commitRequest_pends s src k cut tag h4 hl ha hq]
  exact ⟨⟨_, req_setReq .., rfl, rfl, rfl, rfl⟩, rfl, rfl, fun _ => rfl⟩

theorem schedEn_of_regs {s t : State} (h : t.regs = s.regs) (k : Nat) : schedEn t k = schedEn s k :=
  congrArg (bit · k) (getReg_of_regs h _)

/-- An entry that ends without firing is no longer armed, and its result stands in its register (R230). -/
theorem schedEnd_shows (k : Slot) {result : Nat} (hr : result < 32) :
    let t := schedEnd s k.val result
    schedEn t k.val = false ∧ regFld t (ro pgCOMMIT (0x180 + 4 * k.val)) 0 5 = result ∧ SameOutputs s t :=
  ⟨(schedEn_finish ..).trans ((schedEn_of_regs rfl _).trans (schedEn_setSchedEn s k false)), regFld_finish _ k _ _ _ _ _ hr,
    sameOutputs_of_chans ((schedEnd_keeps (may := { bore := true }) rfl Keeps.rfl).chans rfl)⟩

/-! ### The commands -/

theorem commitNow_yields {fn : Fn} {k : Slot} (h : mayWriteSlot s fn pgCOMMIT 0x44 1 k.val = true) (cut : Bool) :
    exec (.commitNow fn k cut) s = .next (commitRequest s 2 k.val cut none) :=
  congrArg Host.Outcome.next (guarded_of_mayWriteSlot s _ _ _ _ _ _ h)

/-- An edge of the selected polarity that is not close to the last is one request (R209). -/
theorem syncInEdge_requests (falling : Bool) (hd : domOn s 3 = true) (hb : bit (getReg s (ro pgCOMMIT 0x40)) 0 = true)
    (hp : bit (getReg s (ro pgCOMMIT 0x40)) 1 = falling) (he : ∀ e, s.host.syncEdge = some e → e + 2 ≤ s.now) :
    exec (.syncInEdge falling) s = .next (commitRequest
      { s with host := { s.host with syncIn := !falling, syncEdge := some s.now } } 0 (fld (getReg s (ro pgCOMMIT 0x40)) 4 4)
      (bit (getReg s (ro pgCOMMIT 0x40)) 2) none) := by
  have hc : (match s.host.syncEdge with | some t => decide (s.now < t + 2) | none => false) = false := by
    split
    · next t ht => exact decide_eq_false (by have := he t ht; omega)
    · rfl
  refine if_pos ?_
  change (domOn s 3 && bit (getReg s (ro pgCOMMIT 0x40)) 0 && bit (getReg s (ro pgCOMMIT 0x40)) 1 == falling &&
    !(match s.host.syncEdge with | some t => decide (s.now < t + 2) | none => false)) = true
  rw [hc, hd, hb, hp]
  simp

/-- An edge close to the last that counted is part of it. -/
theorem syncInEdge_close (falling : Bool) {e : Nat} (he : s.host.syncEdge = some e) (hn : s.now < e + 2) :
    exec (.syncInEdge falling) s = .next { s with host := { s.host with syncIn := !falling } } := by
  have hc : (match s.host.syncEdge with | some t => decide (s.now < t + 2) | none => false) = true := by
    rw [he]
    exact decide_eq_true hn
  refine if_neg ?_
  change ¬ (domOn s 3 && bit (getReg s (ro pgCOMMIT 0x40)) 0 && bit (getReg s (ro pgCOMMIT 0x40)) 1 == falling &&
    !(match s.host.syncEdge with | some t => decide (s.now < t + 2) | none => false)) = true
  rw [hc]
  simp

theorem scheduleFire_requests {k : Slot} (h : schedEn s k.val = true) (ht : schedTime s k.val ≤ shelfNow s + 3)
    (h4 : s.boot.stage.val = 4) (hl : level s < 3) (ha : (slot s k.val).state = .armed) (hq : req s k.val = none) :
    Yields (.scheduleFire k) s fun t =>
      ((∃ r, req t k.val = some r ∧ r.src = 1 ∧ r.cut = schedCut s k.val ∧ r.arrived = s.now ∧
        r.lat = pathLat 1 + if s.power.fast = .warm then 16 else 0) ∧ t.slots = s.slots ∧ SameOutputs s t) ∧
      schedEn t k.val = false := by
  let u := (takeSchedTag (setSchedEn s k.val false) k.val).1
  obtain ⟨hr, hs, hg, ho⟩ := commitRequest_shows u 1 k.val (schedCut s k.val) (takeSchedTag (setSchedEn s k.val false) k.val).2
    h4 hl ha hq
  exact ⟨_, if_pos ⟨h, ht⟩, ⟨hr, hs, ho⟩,
    (schedEn_of_regs hg _).trans ((schedEn_of_regs rfl _).trans (schedEn_setSchedEn s k false))⟩

/-- A write of CM_SCHED_EN that arms an entry: with its time far enough ahead it is armed, else it ends with LATE (R210). -/
theorem cmSchedArm_yields {fn : Fn} {k : Slot} (h : mayWrite s fn pgCOMMIT 0x64 1 = true) (hn : schedEn s k.val = false)
    (hf : featOn s 2 = true) :
    (shelfNow s + 3 ≤ schedTime s k.val → Yields (.cmSchedArm fn k) s fun t => schedEn t k.val = true ∧ SameOutputs s t) ∧
    (schedTime s k.val < shelfNow s + 3 → Yields (.cmSchedArm fn k) s fun t =>
      schedEn t k.val = false ∧ regFld t (ro pgCOMMIT (0x180 + 4 * k.val)) 0 5 = 8 ∧ SameOutputs s t) := by
  have e : exec (.cmSchedArm fn k) s = .next (schedArm s k.val none).1 :=
    congrArg Host.Outcome.next ((wr_of_mayWrite s fn _ _ _ _ h).trans (if_neg (by simp [hn])))
  refine ⟨fun ht => ?_, fun ht => ?_⟩
  · have hq : schedArm s k.val none = (setSchedEn s k.val true, 0) :=
      (if_neg (by simp [hf])).trans (if_neg (by omega))
    exact ⟨_, e, by rw [hq]; exact schedEn_setSchedEn s k true, by rw [hq]; exact fun _ => rfl⟩
  · have hq : schedArm s k.val none = (finish s k.val 1 (schedCut s k.val) 8 0 s.now none, 8) :=
      (if_neg (by simp [hf])).trans (if_pos ht)
    refine ⟨_, e, ?_⟩
    rw [hq]
    exact ⟨(schedEn_finish ..).trans hn, regFld_finish s k 1 _ 0 s.now none (by decide), finish_outputs _ _ _ _ _ _ _ _⟩

/-- A time register takes all its bits. -/
theorem schedT_row : ∀ (k : Slot) (hi : Bool), ∃ r, regRow (ro pgCOMMIT (0x100 + 8 * k.val + if hi then 4 else 0)) = some r ∧
    r.acc = .rw ∧ r.rules = [] ∧ r.mask = BitVec.allOnes 32 := by
  decide

theorem schedTWrite_takes {k : Slot} (hi : Bool) (v : Word) (hn : schedEn s k.val = false) :
    let o := 0x100 + 8 * k.val + if hi then 4 else 0
    schedTWrite s o v = writeReg s (ro pgCOMMIT o) v ∧ getReg (writeReg s (ro pgCOMMIT o) v) (ro pgCOMMIT o) = v := by
  intro o
  have ho : o < 4096 ∧ 0x40 ≤ o ∧ (o - 0x100) / 8 = k.val := by
    unfold o
    split <;> omega
  obtain ⟨hl, hu, hk⟩ := ho
  obtain ⟨r, hr, ha, hrules, hm⟩ := schedT_row k hi
  refine ⟨if_neg (by rw [hk, hn]; exact nofun), ?_⟩
  have hb : body? (ro pgCOMMIT o) = true := body?_ro hl hu (by decide) (by decide) (by decide)
  rw [getReg_writeReg s hr ha (unmarked_of_body hb) (by rw [hrules]; exact nofun),
    hrules, hm]
  simp only [ruleWord, List.foldl_nil, BitVec.not_allOnes, BitVec.and_zero, BitVec.zero_or, BitVec.and_allOnes]

/-- A request that has waited its time with READY 0 ends with result 7 (R203). -/
theorem commitTimeout_ends {k : Slot} {r : Req} (hr : req s k.val = some r) (hw : regFld s (ro pgCOMMIT 0x48) 0 7 * 1200 ≤ r.waited) :
    exec (.commitTimeout k) s = .next (endReq s k.val 7) := by
  change execCommitTimeout k s = _
  unfold execCommitTimeout
  rw [hr]
  exact if_pos hw

theorem commitTimeout_waits {k : Slot} {r : Req} (hr : req s k.val = some r) (hw : r.waited < regFld s (ro pgCOMMIT 0x48) 0 7 * 1200) :
    exec (.commitTimeout k) s = .next s := by
  change execCommitTimeout k s = _
  unfold execCommitTimeout
  rw [hr]
  exact if_neg (by omega)

/-- Settles O29: every source's request by what it shows when it becomes pending or ends. -/
theorem commitRequests : Obligations.CommitRequests := by
  unfold Obligations.CommitRequests
  intro s k free pends ends
  refine ⟨fun fn cut h => ⟨?_, ?_⟩, ?_, ?_, ?_, ?_, fun fn h => ⟨?_, ?_, ?_⟩, ?_, fun r hr => ⟨fun hw => ?_, fun hw => ?_⟩⟩
  · rintro ⟨h4, hl, ha, hq⟩
    obtain ⟨h1, h2, -, h3⟩ := commitRequest_shows s 2 k.val cut none h4.symm hl ha hq
    exact ⟨_, commitNow_yields s h cut, h1, h2, h3⟩
  · intro h4 hl ha
    refine ⟨_, commitNow_yields s h cut, ?_⟩
    rw [commitRequest_unarmed s 2 k.val cut none h4 hl ha]
    exact ⟨regFld_finish s k 2 cut 0 s.now none (by decide), finish_outputs _ _ _ _ _ _ _ _⟩
  · rintro falling c hd hb hp hk ⟨h4, hl, ha, hq⟩ he
    have e := syncInEdge_requests s falling hd hb hp he
    rw [show fld (getReg s (ro pgCOMMIT 0x40)) 4 4 = k.val from hk] at e
    let u : State := { s with host := { s.host with syncIn := !falling, syncEdge := some s.now } }
    obtain ⟨h1, h2, -, h3⟩ := commitRequest_shows u 0 k.val (bit c 2) none h4.symm hl ha hq
    exact ⟨_, e, ⟨h1, h2, h3⟩, congrArg (fun t : State => t.host.syncIn) (commitRequest_pends u 0 k.val _ none h4.symm hl ha hq)⟩
  · intro falling e he hn
    exact ⟨_, syncInEdge_close s falling he hn, rfl, rfl, fun _ => rfl⟩
  · rintro h ht ⟨h4, hl, ha, hq⟩
    exact scheduleFire_requests s h ht h4.symm hl ha hq
  · intro ht
    exact ⟨s, if_neg fun h => by omega, rfl⟩
  · exact fun hn hf ht => (cmSchedArm_yields s h hn hf).1 ht
  · exact fun hn hf ht => (cmSchedArm_yields s h hn hf).2 ht
  · intro hn
    exact ⟨_, congrArg Host.Outcome.next ((wr_of_mayWrite s fn _ _ _ _ h).trans (if_pos hn)), schedEnd_shows s k (by decide)⟩
  · intro fn hi v h hn
    obtain ⟨h1, h2⟩ := schedTWrite_takes s hi v hn
    refine ⟨_, congrArg Host.Outcome.next ((wr_of_mayWrite s fn _ _ _ _ h).trans h1), h2, ?_⟩
    exact sameOutputs_of_chans ((writeReg_keeps (may := {}) Keeps.rfl).chans rfl)
  · exact ⟨_, commitTimeout_ends s hr hw, req_endReq .., regFld_endReq s k hr (by decide),
      sameOutputs_of_chans ((endReq_keeps (may := { bore := true }) rfl Keeps.rfl).chans rfl)⟩
  · exact ⟨s, commitTimeout_waits s hr hw, rfl⟩

end Sys2Proof.Machine
end

