-- ==== Sys2Proof/Proofs/StageWork.lean ====
section
/-! O28. Expansion, admission, copy and parity of a plan (R185, R190, R193, R217 to R226), with no failing word in the Bore. -/

namespace Sys2Proof.Machine

open Sys2Proof.Safety (Yields SameOutputs)

variable (s : State)

/-! ### What resolution and the passes over the Bore leave -/

/-- Reads away from the failing words pass. -/
theorem parReads_away {a n : Nat} (h : ∀ w ∈ s.bore.badPar, w < a ∨ a + 4 * n ≤ w) : parReads s a n = (s, true) := by
  have hf : ((List.range n).map (fun i => a + 4 * i)).filter s.bore.badPar.contains = [] := by
    refine List.filter_eq_nil_iff.mpr fun w hw hc => ?_
    obtain ⟨i, hi, rfl⟩ := List.mem_map.mp hw
    have := h _ (List.contains_iff_mem.mp hc)
    have := List.mem_range.mp hi
    omega
  unfold parReads
  rw [hf]

/-- The shapes of a plan pass when no word fails. -/
theorem shapesPass_clean (hb : s.bore.badPar = []) (es : List Entry) : shapesPass s es = (s, true) := by
  unfold shapesPass
  generalize (((es.filter (fun e => !e.plain && shapesOn s)).map (fun e => shapeAddr (band s) e.shape.toNat)).eraseDups) = l
  induction l with
  | nil => rfl
  | cons a l ih =>
    rw [List.foldl_cons]
    dsimp only
    rw [parReads_clean s hb]
    exact ih

/-- No entry that a delta resolves to is a compensation. -/
theorem resolve_plain (hb : s.bore.badPar = []) (k n : Nat) : ∀ e ∈ (resolve s k n).entries, e.comp = false := by
  have h : ∀ (l : List Nat) (r : Resolved), r.s = s → (∀ e ∈ r.entries, e.comp = false) →
      ∀ e ∈ (l.foldl (resolveOne k) r).entries, e.comp = false := by
    intro l
    induction l with
    | nil => exact fun r _ h => h
    | cons i l ih =>
      intro r hr h
      refine ih _ ((resolveOne_swap k i r s (by rw [hr]; exact hb) (by rw [hr])).2.trans hr) ?_
      rcases Option.eq_none_or_eq_some r.fail with hf | ⟨f, hf⟩
      · rw [resolveOne_clean k i r hf (by rw [hr]; exact hb)]
        unfold deltaOutcome
        dsimp only
        split
        · exact h
        · split
          · exact h
          · split
            · exact h
            · split
              · exact h
              · intro e he
                rcases List.mem_append.mp he with he | he
                · exact h e he
                · rw [List.mem_singleton.mp he]
                  rfl
      · rw [show resolveOne k r i = r by unfold resolveOne; rw [hf]]
        exact h
  exact h _ { s := s } rfl nofun

theorem writeEntries_part {β : Type} {π : State → β} (hb : ∀ s v, π { s with bore := v } = π s)
    (hr : ∀ s v, π { s with regs := v } = π s) (hl : ∀ s v, π { s with bell := v } = π s) (k : Nat) (es : List Entry) :
    π (writeEntries s k es) = π s :=
  foldl_part s (fun u _ => foldl_part u (fun v _ => setBores_part v hb hr hl ..) _) _

theorem writeEntries_slots (k : Nat) (es : List Entry) : (writeEntries s k es).slots = s.slots :=
  writeEntries_part s (π := fun s : State => s.slots) (fun _ _ => rfl) (fun _ _ => rfl) (fun _ _ => rfl) ..

/-- Starting an admission may only make it wait. -/
theorem slot_startAdmit (k : Nat) : ∃ w, slot (startAdmit s k) k = { slot s k with waitAdmit := w } := by
  unfold startAdmit
  split
  · exact ⟨true, (slot_of_slots (post_slots ..) k).trans (slot_setSlot_self ..)⟩
  · exact ⟨_, rfl⟩

/-- The detail of a plan's rejection stands in its slot. -/
theorem slot_rejectPlan_detail (k reason i ch : Nat) :
    (slot (rejectPlan s k reason (some (i, ch))) k).detailIdx = BitVec.ofNat 16 i ∧
    (slot (rejectPlan s k reason (some (i, ch))) k).detailCh = BitVec.ofNat 15 ch := by
  unfold rejectPlan
  dsimp only
  rw [slot_of_slots (planDone_slots ..), slot_of_slots (endReq_slots ..), slot_of_slots (post_slots ..), slot_setSlot_self]
  exact ⟨rfl, rfl⟩

/-! ### Expansion -/

/-- Outside compensation the expansion ends with the resolved entries and owes its admission. -/
theorem slot_expansionDone (k : Nat) (hb : s.bore.badPar = []) (hr : inRun s = true) (hs : (slot s k).state = .staging)
    (hw : (slot s k).work = .expand) (hx : featOn s 1 = false) (hf : (resolve s k (slot s k).deltas.toNat).fail = none) :
    ∃ w, slot (expansionDone s k) k = { slot s k with
      state := .expanded, work := .admission, entries := (resolve s k (slot s k).deltas.toNat).entries, xt := false,
      waitAdmit := w } := by
  have hc : ((resolve s k (slot s k).deltas.toNat).entries.filter (·.comp)).length = 0 :=
    congrArg List.length (List.filter_eq_nil_iff.mpr fun e he => by simp [resolve_plain s hb k _ e he])
  have hq : (resolve s k (slot s k).deltas.toNat).s = s := (resolve_of_bore hb rfl k _).2
  unfold expansionDone
  extract_lets x r _ _ s1 on kp c n _ _ s2 s3
  have hon : on = false := by
    have h1 : featOn s1 1 = false := by
      change featOn r.s 1 = false
      rw [hq]
      exact hx
    change (xtOn s1 && _) = false
    unfold xtOn
    rw [h1]
    rfl
  have hkp : kp = (s1, true) := if_neg (by simp [hon])
  have hc2 : c = (s1, r.entries) := by
    rw [show c = (kp.1, r.entries) from if_neg (by simp [hon]), hkp]
  have hn : n = 0 := by
    change (c.2.filter (·.comp)).length = 0
    rw [hc2]
    exact hc
  have h3 : s3.slots = s.slots := by
    change c.1.slots = s.slots
    rw [hc2]
    change r.s.slots = s.slots
    rw [hq]
  rw [if_neg (by simp [x, hs, hw, hr])]
  split
  · next heq => exact absurd (hf.symm.trans heq) nofun
  rw [if_neg (by simp [hkp])]
  obtain ⟨w, h⟩ := slot_startAdmit (setSlot (writeEntries s3 k c.2) k { slot s3 k with
      state := .expanded, work := .admission, entries := c.2, xt := decide (0 < n) }) k
  rw [h, slot_setSlot_self, slot_of_slots h3, hc2, hn]
  exact ⟨w, rfl⟩

theorem expansionDone_rejects (k reason i ch : Nat) (hb : s.bore.badPar = []) (hr : inRun s = true) (hs : (slot s k).state = .staging)
    (hw : (slot s k).work = .expand) (hf : (resolve s k (slot s k).deltas.toNat).fail = some (reason, i, ch)) :
    expansionDone s k = rejectPlan s k reason (some (i, ch)) := by
  unfold expansionDone
  extract_lets x r
  rw [if_neg (by simp [x, hs, hw, hr])]
  split
  · next heq =>
    cases heq.symm.trans hf
    rw [show r.s = s from (resolve_of_bore hb rfl k _).2]
  · next heq => exact absurd (hf.symm.trans heq) nofun

/-! ### Admission -/


section
variable (k : Nat) (hb : s.bore.badPar = []) (hr : inRun s = true) (hs : (slot s k).state = .expanded)
    (hw : (slot s k).work = .admission) (ha : (slot s k).waitAdmit = false) (hl : admitBlocked s = false) (hk : banksReady s k = true)
include hb hr hs hw ha hl hk

/-- A plan whose trial passes is admitted with the trial's groups and spacing (R224). -/
theorem slot_admissionDone (ht : (admitPlan s (slot s k).entries).1.reason = 0) :
    (slot (admissionDone s k) k).state = .admitted ∧ (slot (admissionDone s k) k).work = .none ∧
    (slot (admissionDone s k) k).spacing = BitVec.ofNat 12 (admitPlan s (slot s k).entries).1.sp ∧
    ((slot s k).entries ≠ [] → (slot (admissionDone s k) k).groups = BitVec.ofNat 5 (admitPlan s (slot s k).entries).1.g) := by
  unfold admissionDone
  extract_lets x redo p s1 a t groups s2 s3 s4 s5 _ s6
  have hp : p = (s, true) := shapesPass_clean s hb _
  have h1 : s1 = s := congrArg Prod.fst hp
  have ha' : a = admitPlan s x.entries := by unfold a; rw [h1]
  have hg : x.entries ≠ [] → groups = t.g := fun h => if_neg (by
    rw [show t.reason = 0 from (congrArg (fun b : Trial × _ => b.1.reason) ha').trans ht]
    simp [h])
  rw [if_neg (by simp [x, hw, ha, hl, hr, hk]), if_neg (by simp [hp]),
    if_neg (by rw [show t.reason = 0 from (congrArg (fun b : Trial × _ => b.1.reason) ha').trans ht]; simp),
    if_neg (by simp [x, hw])]
  have h6 : slot (planDone s6 k) k = slot s6 k := slot_of_slots (planDone_slots ..) k
  rw [h6, show slot s6 k = _ from slot_setSlot_self ..]
  refine ⟨if_neg (by simp [x, hs]), if_neg (by simp [x, hw]), ?_, fun h => ?_⟩
  · rw [show t = (admitPlan s x.entries).1 from congrArg Prod.fst ha']
  · rw [hg h, show t = (admitPlan s x.entries).1 from congrArg Prod.fst ha']

omit hs in
/-- A plan whose trials all fail is rejected with the reason of the check. -/
theorem slot_admissionDone_rejected (ht : (admitPlan s (slot s k).entries).1.reason ≠ 0) :
    (slot (admissionDone s k) k).state = .rejected ∧
    (slot (admissionDone s k) k).reason = BitVec.ofNat 5 (admitPlan s (slot s k).entries).1.reason := by
  unfold admissionDone
  extract_lets x redo p s1 a t groups s2 s3 s4 s5 _ s6
  have hp : p = (s, true) := shapesPass_clean s hb _
  have h1 : s1 = s := congrArg Prod.fst hp
  have hreason : t.reason = (admitPlan s x.entries).1.reason := by
    unfold t a
    rw [h1]
  rw [if_neg (by simp [x, hw, ha, hl, hr, hk]), if_neg (by simp [hp]), if_pos (by rw [hreason]; exact ht), ← hreason]
  exact slot_rejectPlan ..

end

/-- Waiting admissions resume; nothing else of a slot changes. -/
theorem slot_admissionResume (h : admitBlocked s = false) : ∃ t, exec .admissionResume s = .next t ∧ SameOutputs s t ∧
    ∀ j : Slot, slot t j.val = { slot s j.val with waitAdmit := false } := by
  refine ⟨_, if_neg (by simp [h]), ?_, fun j => ?_⟩
  · exact sameOutputs_of_chans (foldl_part s (π := State.chans) (fun u k => by dsimp only; split <;> rfl) _)
  · refine (slot_foldl s (F := fun x => { x with waitAdmit := false }) (fun u k => ?_) (fun u j k h => ?_) _ List.nodup_range _).trans
      (if_pos (List.mem_range.mpr j.isLt))
    · split
      · exact slot_setSlot_self ..
      · next hf =>
        rw [Bool.not_eq_true] at hf
        rw [← hf]
    · split
      · exact (slot_setSlot ..).trans (if_neg h)
      · rfl

/-! ### The copy -/

theorem copyCounts_slots (es : List Entry) : (copyCounts s es).slots = s.slots := by
  unfold copyCounts
  dsimp only
  refine (foldl_part _ (π := State.slots) (fun u i => ?_) _).trans (foldl_part s (fun u e => ?_) _)
  · exact (post_slots ..).trans rfl
  · exact (post_slots ..).trans rfl

/-- The copy of an armed slot sets READY and keeps the number of its entries (R193). -/
theorem slot_copyVerified (k : Nat) (hb : s.bore.badPar = []) (hr : inRun s = true) (hs : (slot s k).state = .armed)
    (hw : (slot s k).work = .copy) (hk : banksReady s k = true) :
    (slot (copyVerified s k) k).ready = true ∧ (slot (copyVerified s k) k).state = .armed ∧
    (slot (copyVerified s k) k).work = .none ∧ (slot (copyVerified s k) k).entries.length = (slot s k).entries.length := by
  have hq : planRepairs s k = s := by
    unfold planRepairs
    rw [hb]
    rfl
  unfold copyVerified
  extract_lets x s1 p es s2 y
  have hp : p = (s, true) := by
    change shapesPass s1 x.entries = _
    rw [show s1 = s from hq]
    exact shapesPass_clean s hb _
  have h2 : slot s2 k = slot s k := by
    refine slot_of_slots ((copyCounts_slots ..).trans ?_) k
    rw [hp]
  rw [if_neg (by simp [x, hs, hw, hr, hk]), if_neg (by rw [show s1 = s from hq]; simp [hs]), if_neg (by simp [hp]),
    slot_of_slots (planDone_slots ..), slot_setSlot_self]
  exact ⟨rfl, (congrArg SlotSt.state h2).trans hs, rfl, List.length_map ..⟩

/-! ### A failing word of an armed plan -/

/-- A core restart leaves every register of a page's body but its own. -/
theorem getReg_coreRestart {off : Nat} (h : body? off = true) (hc : off ≠ ro pgSYS 0x68) : getReg (coreRestart s) off = getReg s off := by
  unfold coreRestart
  split
  · rfl
  · extract_lets s1 _ s2
    have h2 : getReg s2 off = getReg s off := (getReg_putReg_other _ _ _ _ _ _ hc).trans
      ((getReg_of_regs (s := s1) rfl off).trans (getReg_post s (unmarked_of_body h) ..))
    refine (foldl_part s2 (π := fun s : State => getReg s off) (fun u c => ?_) _).trans h2
    have hd : ∀ (v : State) tag, (dropTag v tag).regs = v.regs := fun _ _ => rfl
    exact (getReg_of_regs (hd ..) off).trans ((getReg_complete _ h ..).trans (getReg_post u (unmarked_of_body h) ..))

/-- A register of a page's body, away from SYS and BORE, stands through the failure of a word. -/
theorem body_rests {off : Nat} (h : body? off = true) (hs : off / 4096 ≠ pgSYS) (hb : off / 4096 ≠ pgBORE) (w : Word) :
    Rests (fun u => getReg u off = w) where
  reeds h := h
  bore h := h
  boreReg {u o v} h1 h2 hu := (getReg_setReg_other u _ off v (fun e => hb (by rw [e]; unfold ro; omega))).trans hu
  post hu := (getReg_post _ (unmarked_of_body h) ..).trans hu
  journal hu := hu
  coreRestart hu := (getReg_coreRestart _ h (fun e => hs (by rw [e]; rfl))).trans hu

theorem getReg_rejectPlan {off : Nat} (h : body? off = true) (hc : off / 4096 ≠ pgCOMMIT) (k : Slot) (reason : Nat)
    (d : Option (Nat × Nat)) : getReg (rejectPlan s k.val reason d) off = getReg s off := by
  have hn : ∀ o < 4096, off ≠ ro pgCOMMIT o := fun o ho e => hc (by rw [e]; unfold ro; omega)
  unfold rejectPlan
  extract_lets x s1 s2
  have h2 : getReg s2 off = getReg s off := (getReg_post s1 (unmarked_of_body h) ..).trans rfl
  have he : getReg (endReq s2 k.val 3) off = getReg s2 off := by
    unfold endReq
    split
    · rfl
    · exact (getReg_finish_other _ h k _ _ _ _ _ _ (hn _ (by omega)) (hn _ (by decide)) (hn _ (by decide))).trans rfl
  refine (foldl_part (endReq s2 k.val 3) (π := fun s : State => getReg s off) (fun u tag => getReg_complete u h ..) _).trans
    (he.trans h2)

theorem body?_tile (t : Tile) : body? (ro (pgTILE t.val) 0x404) = true :=
  body?_ro (by decide) (by decide) (by unfold pgTILE pgBELL; omega) (by unfold pgTILE pgCMDQ; omega) (by unfold pgTILE pgFSYS; omega)

/-- The parity count of a tile counts a failing word of a plan once (R193). -/
theorem regFld_planParityRepair (k : Slot) (ch : Chan) (hs : (slot s k.val).state = .armed)
    (hw : (slot s k.val).work = .copy ∨ (slot s k.val).work = .redo) (he : ∃ e ∈ (slot s k.val).entries, e.ch = ch.val) :
    regFld (planParityRepair s k.val ch.val) (ro (pgTILE (ch.val / 1024)) 0x404) 16 16 =
      (regFld s (ro (pgTILE (ch.val / 1024)) 0x404) 16 16 + 1) % 65536 := by
  let off := ro (pgTILE (ch.val / 1024)) 0x404
  have hb : body? off = true := body?_tile ⟨ch.val / 1024, by omega⟩
  have hp : off / 4096 = 0x20 + ch.val / 1024 := by
    change ((0x20 + ch.val / 1024) * 4096 + 0x404) / 4096 = _
    omega
  have hr : ∀ w, Rests (fun u => getReg u off = w) := body_rests hb (by rw [hp]; unfold pgSYS; omega) (by rw [hp]; unfold pgBORE; omega)
  have ha : (slot s k.val).entries.any (fun e => e.ch == ch.val) = true := by
    obtain ⟨e, h1, h2⟩ := he
    exact List.any_eq_true.mpr ⟨e, h1, beq_iff_eq.mpr h2⟩
  unfold planParityRepair
  extract_lets x t s1 s2
  have h1 : getReg s1 off = getReg s off := (hr _).parFail rfl
  have h2 : regFld s2 off 16 16 = (regFld s off 16 16 + 1) % 65536 :=
    (regFld_bumpReg_self s1 off 16 16 1 (by decide)).trans (by rw [regFld_of_getReg h1]; rfl)
  rw [if_neg (by rcases hw with hw | hw <;> simp [x, hs, hw, ha])]
  split
  · exact h2
  · next i _ =>
    refine (regFld_of_getReg ?_ 16 16).trans h2
    have h3 : getReg (parReads s2 (deltaAddr k.val i) 2).1 off = getReg s2 off := (hr _).parReads rfl
    dsimp only
    split
    · exact h3
    · refine (getReg_rejectPlan _ hb (by rw [hp]; unfold pgCOMMIT; omega) k 8 _).trans ?_
      exact (getReg_postFree _ (unmarked_of_body hb) ..).trans h3

theorem boreRegion_plan {a : Nat} (h : 0x0180_0000 ≤ a) (hm : (a - 0x0180_0000) % 0x0030_0000 < 0x0020_0000) :
    boreRegion a = 11 := by
  unfold boreRegion
  iterate 13 rw [if_neg (by omega)]
  exact if_pos hm

/-- The words of an expanded plan lie in the plan copies. -/
theorem boreRegion_planAddr (t : Tile) (k : Slot) {i : Nat} (h : i < 2048) : boreRegion (planAddr t.val k.val i) = 11 := by
  unfold planAddr
  exact boreRegion_plan (by omega) (by omega)

/-- A failing word of a plan copy is repaired in place; at most that word fails still. -/
theorem parFail_planCopy {a : Nat} (ha : boreRegion a = 11) (hb : s.bore.badPar = []) :
    ∀ w ∈ (parFail s a).1.bore.badPar, w = a := by
  unfold parFail
  extract_lets r addr s1 s2 s3
  have hh : ∀ u : State, (hardFail u a).bore.badPar = u.bore.badPar := fun u => by
    unfold hardFail
    extract_lets bank row _ v1 v2 v3
    have h2 : v2.bore.badPar = u.bore.badPar := rfl
    have h3 : v3.bore.badPar = u.bore.badPar := (congrArg Bore.badPar (post_bore ..)).trans h2
    clear_value v3
    split
    · split
      · exact (congrArg Bore.badPar (post_bore ..)).trans h3
      · exact h3
    · split
      · rfl
      · split <;> rfl
  have h3 : s3.bore.badPar = [] := by
    have h2 : s2.bore.badPar = [] := by
      unfold s2
      rw [if_neg (by rw [show r = 11 from ha]; decide), hh]
      exact (congrArg Bore.badPar (show s1.bore = s.bore by unfold s1; split <;> rfl)).trans hb
    exact (congrArg Bore.badPar (post_bore ..)).trans h2
  have hw : sourceWord s3 a = some (boreWord s3 a) := by
    unfold sourceWord
    rw [ha]
    rfl
  have hsrc : hasSource a = true := by
    unfold hasSource
    rw [ha]
    rfl
  rw [if_pos hsrc, hw]
  intro w h
  unfold Bore.put at h
  rw [h3] at h
  revert h
  dsimp only
  split <;> simp

theorem parFail_slots (a : Nat) : (parFail s a).1.slots = s.slots := (parFail_keeps (may := { bore := true }) rfl Keeps.rfl).slots rfl

/-- A repair from a delta whose words pass leaves the slot as it was. -/
theorem slot_planParityRepair (k : Slot) (ch : Chan) (hb : s.bore.badPar = []) (hl : (slot s k.val).entries.length < 2048) :
    slot (planParityRepair s k.val ch.val) k.val = slot s k.val := by
  have hi : (tilePart (slot s k.val).entries (ch.val / 1024)).findIdx (fun e => e.ch == ch.val) < 2048 :=
    Nat.lt_of_le_of_lt (List.findIdx_le_length.trans (List.length_filter_le ..)) hl
  have hr := boreRegion_planAddr ⟨ch.val / 1024, by omega⟩ k hi
  unfold planParityRepair
  dsimp only
  split
  · rfl
  generalize ha : planAddr (ch.val / 1024) k.val
    ((tilePart (slot s k.val).entries (ch.val / 1024)).findIdx (fun e => e.ch == ch.val)) = a
  have hlo : 0x180_0000 ≤ a := by
    rw [← ha]
    unfold planAddr
    omega
  have hs := parFail_slots s a
  have hp := parFail_planCopy s (a := a) (ha ▸ hr) hb
  generalize (parFail s a).1 = u at hs hp ⊢
  have hs : (bumpReg u (ro (pgTILE (ch.val / 1024)) 0x404) 16 16).slots = s.slots := (bumpReg_slots ..).trans hs
  split
  · exact slot_of_slots hs _
  · next i hf =>
    have hn := (List.mem_range.mp (List.mem_of_find?_eq_some hf)).trans (slot s k.val).deltas.isLt
    have hc := parReads_away (bumpReg u (ro (pgTILE (ch.val / 1024)) 0x404) 16 16) (a := deltaAddr k.val i) (n := 2) fun w hw => by
      rw [bumpReg_bore] at hw
      have hw := hp w hw
      have hk := k.isLt
      unfold deltaAddr
      omega
    rw [hc, if_pos rfl]
    exact slot_of_slots hs _

/-- Settles O28: each piece of stage-time work by what it makes of its slot. -/
theorem stageWork : Obligations.StageWork := by
  unfold Obligations.StageWork
  intro s k hb hr x
  have hout : ∀ {t u : State}, Keeps { slots := true, bore := true } t u → SameOutputs t u := fun h => sameOutputs_of_chans (h.chans rfl)
  refine ⟨fun hs hw hx hf => ?_, fun reason i ch hs hw hf => ?_, fun hs hw ha hl hk => ⟨fun ht => ?_, fun ht => ?_⟩, fun h => ?_,
    fun hs hw hk => ?_, fun ch hs hw he => ?_⟩
  · obtain ⟨w, h⟩ := slot_expansionDone s k.val hb hr hs hw hx hf
    refine ⟨_, rfl, ?_⟩
    dsimp only
    rw [h]
    exact ⟨rfl, rfl, rfl, rfl, hout (expansionDone_keeps rfl rfl Keeps.rfl)⟩
  · have e := expansionDone_rejects s k.val reason i ch hb hr hs hw hf
    obtain ⟨h1, h2⟩ := slot_rejectPlan s k.val reason (some (i, ch))
    obtain ⟨h3, h4⟩ := slot_rejectPlan_detail s k.val reason i ch
    refine ⟨_, rfl, ?_⟩
    dsimp only
    rw [e]
    exact ⟨h1, h2, h3, h4, hout (rejectPlan_keeps rfl rfl Keeps.rfl)⟩
  · obtain ⟨h1, h2, h3, h4⟩ := slot_admissionDone s k.val hb hr hs hw ha hl hk ht
    exact ⟨_, rfl, h1, h2, h3, h4, hout (admissionDone_keeps rfl rfl Keeps.rfl)⟩
  · obtain ⟨h1, h2⟩ := slot_admissionDone_rejected s k.val hb hr hw ha hl hk ht
    exact ⟨_, rfl, h1, h2, hout (admissionDone_keeps rfl rfl Keeps.rfl)⟩
  · obtain ⟨t, e, ho, h⟩ := slot_admissionResume s h
    refine ⟨t, e, fun j => ?_⟩
    rw [h j]
    exact ⟨rfl, rfl, ho⟩
  · obtain ⟨h1, h2, h3, h4⟩ := slot_copyVerified s k.val hb hr hs hw hk
    exact ⟨_, rfl, h1, h2, h3, h4,
      sameOutputs_of_chans ((copyVerified_keeps (may := { slots := true, bore := true, copies := some k.val }) rfl rfl rfl Keeps.rfl).chans rfl)⟩
  · exact ⟨_, rfl, fun hl => slot_planParityRepair s k ch hb hl, hout (planParityRepair_keeps rfl rfl Keeps.rfl),
      regFld_planParityRepair s k ch hs hw he⟩

end Sys2Proof.Machine
end

