-- ==== Sys2Proof/Proofs/StrobesAndBreath.lean ====
section
/-! O30. A strobe with CUT ends tongues by a pass over the listed channels that drops reset values; in a table that is not in canonical
form the pass uncovers an entry that a reset value had hidden, and the strobe finds the channel fused. -/

namespace Sys2Proof.Machine

open Sys2Proof.Safety (Yields)

/-- A request with CUT that arrived in cycle 0. -/
def reqCut : Req := { src := 2, cut := true, arrived := 0 }

/-- Channel 5 is listed twice, first at its reset value and then fused, and an armed plan that moves it is ready to strobe. -/
def strobeTwice : State :=
  { State.reset with
    idl := { state := .up, pushOk := true }
    power := { fast := .run }
    chans := [(5, {}), (5, { fuse := .fused })]
    slots := [(0, { state := .armed, ready := true, entries := [{ ch := 5, code := 9, range := false }], reedGroup := [(0, 0)] })]
    reqs := [(0, reqCut)] }

theorem goesNow_strobeTwice : goesNow strobeTwice 0 reqCut = true := by decide

/-- Before the strobe channel 5 is clear; after it the channel is fused and plays nothing. -/
theorem tongue_strobe_strobeTwice : (chan strobeTwice 5).fuse = .clear ∧ (chan (strobe strobeTwice 0 reqCut) 5).tongue = none := by
  decide +kernel

/-- Refutes O30: the statement does not ask that the table of channels is in canonical form. In `strobeTwice` the strobe's CUT drops
the reset value that is listed first for channel 5, the fused entry behind it comes forth, and the entry of the plan starts nothing. -/
theorem not_strobesAndBreath : ¬ Obligations.StrobesAndBreath := by
  unfold Obligations.StrobesAndBreath
  rintro ⟨h, -⟩
  obtain ⟨goes, -⟩ := h strobeTwice 0 reqCut rfl
  obtain ⟨t, ht, -, -, -, -, -, -, -, entries, -⟩ := goes goesNow_strobeTwice
  have e : exec (.strobeIssue 0) strobeTwice = .next (strobe strobeTwice 0 reqCut) := by
    change execStrobeIssue 0 strobeTwice = _
    simp [execStrobeIssue, show req strobeTwice 0 = some reqCut from rfl, goesNow_strobeTwice]
  obtain rfl : strobe strobeTwice 0 reqCut = t := Host.Outcome.next.inj (e.symm.trans ht)
  obtain ⟨hc, hn⟩ := tongue_strobe_strobeTwice
  obtain ⟨-, now, -⟩ := entries { ch := 5, code := 9, range := false } (by decide) (by decide) hc (by decide)
  obtain ⟨-, -, g, hg, -⟩ := now (by decide)
  exact absurd (hn.symm.trans hg) nofun

end Sys2Proof.Machine
end

