-- ==== Sys2Proof/Proofs/TongueEvents.lean ====
section
/-! O31. The course of a tongue: the start of waiting entries, the next segment and the end (R126, R237, R238, R240). -/

namespace Sys2Proof.Machine

open Sys2Proof.Safety (Yields output CanonInv OtherChans SameOutputs)

variable (s : State)

/-! ### One entry starts -/

theorem chan_clampNote (ch : Nat) (cOld final : BitVec 16) (g : Seg) (c : Nat) : chan (clampNote s ch cOld final g) c = chan s c :=
  chan_of_chans (clampNote_chans ..) c

/-- The code that an entry's start writes: the final code of a plain one, else that of its first segment (R126, R237). -/
def firstCode (c : ChanSt) (e : Entry) : BitVec 16 :=
  if e.segs.isEmpty || e.range != c.range then e.code
  else BitVec.ofNat 16 (match e.segs with | g :: _ => segCode c.code.toNat e.code.toNat g.amp | [] => 0)

/-- What the start of an entry makes of a clear channel that no higher source holds. -/
theorem chan_beginEntry (ch k : Nat) (e : Entry) (hf : (chan s ch).fuse = .clear) (ho : outranks s (chan s ch) 2 = false) :
    ∃ c, chan (beginEntry s ch k e) ch = c ∧ c.waiting = none ∧ c.range = e.range ∧ c.code = firstCode (chan s ch) e ∧
      ∃ g, c.tongue = some g ∧ g.slot = k ∧ g.final = e.code ∧ g.cOld = (chan s ch).code := by
  unfold beginEntry
  extract_lets c s1 l s2 plain len cOld first due tg code _ s3 s4
  rw [if_neg (by simp [c, hf, ho])]
  have h4 : chan s4 ch = chan s3 ch := by
    unfold s4
    split
    · exact chan_clampNote ..
    · rfl
  have hs : chan (setTile s4 (ch / 1024) { tile s4 (ch / 1024) with lastSlot := BitVec.ofNat 4 k }) ch = chan s4 ch := rfl
  exact ⟨_, hs.trans (h4.trans (chan_setChan_self ..)), rfl, rfl, rfl, _, rfl, rfl, rfl, rfl⟩

/-- The code of a first segment is within 16 bits. -/
theorem toNat_segCode (cOld final : Nat) (amp : Int) : (BitVec.ofNat 16 (segCode cOld final amp)).toNat = segCode cOld final amp := by
  have h : segCode cOld final amp ≤ 65535 := by
    unfold segCode clampI
    split
    · decide
    · split
      · decide
      · omega
  rw [BitVec.toNat_ofNat, Nat.mod_eq_of_lt (by omega)]

/-- A higher source of this cycle holds the channel: its entry is dropped. -/
theorem beginEntry_outranked (ch k : Nat) (e : Entry) (ho : outranks s (chan s ch) 2 = true) :
    beginEntry s ch k e = setChan s ch { chan s ch with waiting := none } := if_pos (by simp [ho])

theorem beginEntry_now (ch k : Nat) (e : Entry) : (beginEntry s ch k e).now = s.now :=
  (beginEntry_keeps (may := { chans := true, tiles := true }) rfl rfl Keeps.rfl).now

/-! ### The entries of a reed -/

/-- The start of one waiting entry. -/
def startsEntry (s : State) (w : Nat × Nat × Entry) : State := beginEntry s w.1 w.2.1 w.2.2

theorem chan_starts_other (l : List (Nat × Nat × Entry)) (ch : Nat) (h : ∀ w ∈ l, w.1 ≠ ch) :
    chan (l.foldl startsEntry s) ch = chan s ch := by
  induction l generalizing s with
  | nil => rfl
  | cons w l ih =>
    rw [List.foldl_cons, ih _ fun v hv => h v (List.mem_cons_of_mem _ hv)]
    exact chan_beginEntry_other _ _ _ _ _ fun e => h w List.mem_cons_self e.symm

/-- Of entries for different channels each starts on its channel as it was. -/
theorem chan_starts (l : List (Nat × Nat × Entry)) (hn : (l.map (·.1)).Nodup) (w : Nat × Nat × Entry) (hw : w ∈ l) :
    ∃ u : State, chan u w.1 = chan s w.1 ∧ u.now = s.now ∧ chan (l.foldl startsEntry s) w.1 = chan (startsEntry u w) w.1 := by
  induction l generalizing s with
  | nil => exact nomatch hw
  | cons v l ih =>
    obtain ⟨hv, hl⟩ := List.nodup_cons.mp hn
    rw [List.foldl_cons]
    rcases List.mem_cons.mp hw with rfl | hw
    · exact ⟨s, rfl, rfl, chan_starts_other _ _ _ fun v hm e => hv (List.mem_map.mpr ⟨v, hm, e⟩)⟩
    · have hne : w.1 ≠ v.1 := fun e => hv (List.mem_map.mpr ⟨w, hw, e⟩)
      obtain ⟨u, h1, h2, h3⟩ := ih (startsEntry s v) hl hw
      exact ⟨u, h1.trans (chan_beginEntry_other _ _ _ _ _ hne), h2.trans (beginEntry_now ..), h3⟩

theorem mem_of_chan {ch : Nat} {c : ChanSt} (h : chan s ch = c) (hc : c ≠ {}) : (ch, c) ∈ s.chans := by
  subst h
  unfold chan at hc ⊢
  generalize s.chans = l at hc ⊢
  induction l with
  | nil => exact absurd rfl hc
  | cons p l ih =>
    unfold tabGet at hc ⊢
    split
    · next h => rw [h]; exact List.mem_cons_self
    · next h => exact List.mem_cons_of_mem _ (ih (by rwa [if_neg h] at hc))

/-- The keys of the waiting entries are keys of the table of channels, once each. -/
theorem waitingIn_nodup (r : Nat) (h : (s.chans.map (·.1)).Pairwise (· < ·)) : ((waitingIn s r).map (·.1)).Nodup := by
  unfold waitingIn
  refine ((List.pairwise_map.mp h).filterMap _ ?_ (S := fun a b : Nat × Nat × Entry => a.1 ≠ b.1)) |> List.pairwise_map.mpr
  intro p q hpq a ha b hb
  have hk : ∀ {p : Nat × ChanSt} {a : Nat × Nat × Entry},
      (if p.1 / 32 = r then p.2.waiting.map (fun w => (p.1, w.1, w.2)) else none) = some a → a.1 = p.1 := by
    intro p a h
    split at h
    · obtain ⟨w, -, rfl⟩ := Option.map_eq_some_iff.mp h
      rfl
    · exact nomatch h
  rw [hk ha, hk hb]
  exact Nat.ne_of_lt hpq

theorem mem_waitingIn {ch k : Nat} {e : Entry} (h : (chan s ch).waiting = some (k, e)) : (ch, k, e) ∈ waitingIn s (ch / 32) := by
  refine List.mem_filterMap.mpr ⟨(ch, chan s ch), mem_of_chan s rfl fun hc => ?_, ?_⟩
  · rw [hc] at h
    exact nomatch h
  · dsimp only
    rw [if_pos rfl, h]
    rfl

theorem reed_of_waitingIn {r : Nat} {w : Nat × Nat × Entry} (h : w ∈ waitingIn s r) : w.1 / 32 = r := by
  obtain ⟨p, -, hp⟩ := List.mem_filterMap.mp h
  split at hp
  · next hr =>
    obtain ⟨v, -, rfl⟩ := Option.map_eq_some_iff.mp hp
    exact hr
  · exact nomatch hp

/-- At its breath offset the entry of a channel starts on the channel as it was; the channels of other reeds are as before. -/
theorem chan_breathReached {ch k : Nat} {e : Entry} (hc : CanonInv s) (h : (chan s ch).waiting = some (k, e)) :
    (∃ u : State, chan u ch = chan s ch ∧ u.now = s.now ∧ chan (breathReached s (ch / 32)) ch = chan (beginEntry u ch k e) ch) ∧
    ∀ c, c / 32 ≠ ch / 32 → chan (breathReached s (ch / 32)) c = chan s c := by
  obtain ⟨-, -, hw, -⟩ := hc
  refine ⟨chan_starts s _ (waitingIn_nodup s _ ((tabWf_iff _ _).mp hw).1) (ch, k, e) (mem_waitingIn s h), fun c hne => ?_⟩
  exact chan_starts_other s _ c fun w hm e => hne (by rw [← e, reed_of_waitingIn s hm])

/-! ### The commands -/

theorem nextSeg_chan {ch : Nat} {g : Tongue} {sg : Seg} (hg : (chan s ch).tongue = some g) (hs : g.segs[g.k + 1]? = some sg) :
    (nextSeg s ch).chans = (setChan s ch { chan s ch with
      code := BitVec.ofNat 16 (segCode g.cOld.toNat g.final.toNat sg.amp), src := 2, wrote := some s.now,
      tongue := some { g with k := g.k + 1, due := g.due + sg.dur } }).chans := by
  unfold nextSeg
  dsimp only
  rw [hg]
  dsimp only
  rw [hs]
  exact clampNote_chans ..

/-- Settles O31: each start by what it makes of its channel, and each write of a tongue by the one channel that it sets. -/
theorem tongueEvents : Obligations.TongueEvents := by
  unfold Obligations.TongueEvents
  intro s
  refine ⟨fun r ch k e hc hr hw hf ho => ?_, fun r ch k e hc hr hw ho => ?_, fun ch g sg hg hs => ?_, fun ch g hg => ?_⟩
  · obtain ⟨⟨u, hu, hn, h⟩, hother⟩ := chan_breathReached s hc hw
    rw [hr] at h hother
    have hfu : (chan u ch.val).fuse = .clear := by rw [hu, hf]
    have hou : outranks u (chan u ch.val) 2 = false := by
      rw [hu]
      unfold outranks at ho ⊢
      rw [hn]
      exact ho
    obtain ⟨c, hcu, h1, h2, h3, h4⟩ := chan_beginEntry u ch.val k e hfu hou
    refine ⟨_, rfl, ?_⟩
    dsimp only
    rw [h, hcu]
    rw [hu] at h3 h4
    refine ⟨h1, h2, h4, fun hp => h3.trans (if_pos ?_), fun g gs hg hp => ?_, hother⟩
    · rcases hp with hp | hp
      · simp [hp]
      · simp [hp]
    · rw [h3]
      unfold firstCode
      rw [hg, if_neg (by simp [hp])]
      exact toNat_segCode ..
  · obtain ⟨⟨u, hu, hn, h⟩, -⟩ := chan_breathReached s hc hw
    rw [hr] at h
    have hou : outranks u (chan u ch.val) 2 = true := by
      rw [hu]
      unfold outranks at ho ⊢
      rw [hn]
      exact ho
    rw [beginEntry_outranked u _ _ _ hou, chan_setChan_self, hu] at h
    refine ⟨_, rfl, ?_⟩
    dsimp only
    unfold output
    rw [h]
    exact ⟨rfl, rfl⟩
  · refine ⟨_, rfl, ?_⟩
    have h := nextSeg_chan s hg hs
    refine ⟨?_, ?_, fun c hne => ?_⟩
    · rw [chan_of_chans h, chan_setChan_self]
      exact toNat_segCode ..
    · rw [chan_of_chans h, chan_setChan_self]
      exact ⟨_, rfl, rfl, rfl⟩
    · rw [chan_of_chans h, chan_setChan, if_neg hne]
  · refine ⟨_, rfl, ?_⟩
    have h : chan (endTongue s ch.val) ch.val = { chan s ch.val with code := g.final, src := 2, wrote := some s.now, tongue := none } := by
      unfold endTongue
      rw [chan_setChan_self]
      unfold finalChan
      rw [hg]
    refine ⟨?_, ?_, fun c hne => ?_⟩
    · rw [h]
    · rw [h]
    · exact (chan_setChan ..).trans (if_neg hne)

end Sys2Proof.Machine
end

