-- ==== Sys2Proof/Proofs/ElementLoops.lean ====
section
/-! O52. Evaluation, limits, staleness, the end of the settle hold and the status of the element loops (R331 to R345). -/

namespace Sys2Proof.Machine

open Sys2Proof.Safety (Yields OtherChans SameBore SameFeedGates mayRead)

variable (s : State)

/-! ### One evaluation -/

theorem accCheck_clean (h : s.bore.badPar = []) (i : Nat) : accCheck s i = (s, true) := by
  unfold accCheck
  rw [parReads_clean s h]
  rfl

theorem loopCheck_clean (h : s.bore.badPar = []) (ch : Nat) : loopCheck s ch = s := by
  unfold loopCheck
  simp [accCheck_clean s h]

/-- The conditions under which LOOP_EVALUATE acts on a channel (R27, R331, R335). -/
def loopActs (ch : Nat) : Bool := loopReady s ch && !lowerLane s ch && !outranks s (chan s ch) 1

/-- The step that the gain and the error ask for (R332). -/
def askedDelta (ch : Nat) : Int :=
  let l := loopCh s ch
  loopDelta (getReg s (ro pgLOOP (0xC0 + 4 * l.gsel))) l.sign ((loopTarget l : Int) - loopQ l.isAbs (loopA s ch) (loopB s ch))

/-- The step within the limits of R333. -/
def limitedDelta (ch : Nat) : Int :=
  let l := loopCh s ch
  if askedDelta s ch = 0 then 0 else
    loopLimit l.base.toNat (regFld s (ro pgLOOP (0xE0 + 4 * l.gsel)) 0 12) ((chan s ch).code.toNat + askedDelta s ch) - (chan s ch).code.toNat

/-- The step that the evaluation makes, within the tile's cap (R334). -/
def madeDelta (ch : Nat) : Int :=
  capDelta (tileNet s (ch / 1024)) (regFld s (ro pgLOOP 0x4C) 0 7 * mA) (lsb (chan s ch).range) (limitedDelta s ch)

theorem driftCheck_loopCh (ch : Nat) : (loopCh (driftCheck s ch) ch).updates = (loopCh s ch).updates := by
  have hp : ∀ (u : State) src d, loopCh (post u pgLOOP src d) ch = loopCh u ch := fun u src d => by
    unfold loopCh
    rw [post_loops]
  unfold driftCheck
  dsimp only
  split
  · rw [hp, loopCh_setLoopCh_self]
  · split
    · rw [loopCh_setLoopCh_self]
    · rfl

section
variable {β : Type} {π : State → β} (hl : ∀ s v, π { s with loops := v } = π s) (hp : ∀ s src d, π (post s pgLOOP src d) = π s)
include hl hp

theorem driftCheck_part (ch : Nat) : π (driftCheck s ch) = π s := by
  unfold driftCheck
  dsimp only
  split
  · exact (hp ..).trans (hl ..)
  · split
    · exact hl ..
    · rfl

end

/-- What an evaluation that acts leaves: the step on its channel, one evaluation more, and the Bore. -/
theorem loopEvaluate_acts (ch : Nat) (hb : s.bore.badPar = []) (h : loopActs s ch = true) :
    ∃ t, loopEvaluate s ch = t ∧ t.bore = s.bore ∧ OtherChans ch s t ∧
      (loopCh t ch).updates = BitVec.ofNat 16 (min ((loopCh s ch).updates.toNat + 1) 65535) ∧
      (madeDelta s ch = 0 → chan t ch = chan s ch) ∧
      (madeDelta s ch ≠ 0 → (chan t ch).code = BitVec.ofInt 16 ((chan s ch).code.toNat + madeDelta s ch) ∧ (chan t ch).src = 3 ∧
        regFld t (ro pgLOOP 0x78) 0 32 = (regFld s (ro pgLOOP 0x78) 0 32 + 1) % 2 ^ 32) := by
  unfold loopActs at h
  simp only [Bool.and_eq_true, Bool.not_eq_true'] at h
  obtain ⟨⟨h1, h2⟩, h3⟩ := h
  have hd : (if looped (loopCh s ch) then loopCheck s ch else s) = s := by rw [loopCheck_clean s hb, ite_self]
  unfold loopEvaluate
  rw [hd]
  extract_lets s0 l c q d lim d1 cut d2 capped l' s1 s2 s3 s4
  rw [if_neg (by simp [s0, h1, h2, h3])]
  have hm : madeDelta s ch = d2 := rfl
  clear_value d2
  have hpost : ∀ {β : Type} (π : State → β), (∀ s v, π { s with loops := v } = π s) → (∀ s src d, π (post s pgLOOP src d) = π s) →
      π (driftCheck s4 ch) = π s2 := by
    intro β π hl hp
    refine (driftCheck_part s4 hl hp ch).trans ?_
    have h3 : π s3 = π s2 := by
      unfold s3
      split
      · exact hp ..
      · rfl
    unfold s4
    split
    · exact (hp ..).trans h3
    · exact h3
  have hl4 : (loopCh (driftCheck s4 ch) ch).updates = (loopCh s2 ch).updates := by
    have hp : ∀ (u : State) src d, loopCh (post u pgLOOP src d) ch = loopCh u ch := fun u src d => by
      unfold loopCh
      rw [post_loops]
    rw [driftCheck_loopCh]
    have h3 : loopCh s3 ch = loopCh s2 ch := by
      unfold s3
      split
      · exact hp ..
      · rfl
    unfold s4
    split
    · rw [hp, h3]
    · rw [h3]
  have hu : (loopCh s2 ch).updates = BitVec.ofNat 16 (min ((loopCh s ch).updates.toNat + 1) 65535) := by
    have h1 : (loopCh s1 ch) = l' := loopCh_setLoopCh_self ..
    have h2 : loopCh s2 ch = loopCh s1 ch := by
      unfold s2
      split <;> rfl
    rw [h2, h1]
  have hc : ∀ j, chan (driftCheck s4 ch) j = chan s2 j := fun j =>
    hpost (fun s => chan s j) (fun _ _ => rfl) (fun _ _ _ => chan_of_chans (post_chans ..) j)
  refine ⟨_, rfl, (hpost State.bore (fun _ _ => rfl) (fun _ _ _ => post_bore ..)).trans ?_, fun j hj => (hc j).trans ?_, hl4.trans hu,
    fun h0 => (hc ch).trans ?_, fun h0 => ?_⟩
  · unfold s2
    split <;> rfl
  · unfold s2
    split
    · rfl
    · exact (chan_setChan ..).trans (if_neg hj)
  · unfold s2
    rw [if_pos (hm.symm.trans h0)]
    rfl
  · have h2 : s2 = bumpReg (setChan s1 ch { c with
        code := BitVec.ofInt 16 (c.code.toNat + d2), src := 3, wrote := some s1.now, unlooped := some (c.code, c.src) })
        (ro pgLOOP 0x78) 0 32 := if_neg (by rw [← hm]; exact h0)
    have hch : chan s2 ch = { c with
        code := BitVec.ofInt 16 (c.code.toNat + d2), src := 3, wrote := some s1.now, unlooped := some (c.code, c.src) } := by
      rw [h2]
      exact chan_setChan_self ..
    have hg : regFld (driftCheck s4 ch) (ro pgLOOP 0x78) 0 32 = regFld s2 (ro pgLOOP 0x78) 0 32 :=
      hpost (fun s => regFld s (ro pgLOOP 0x78) 0 32) (fun _ _ => rfl) (fun _ _ _ => regFld_of_getReg (getReg_post _ (by decide) ..) 0 32)
    rw [hc, hch, hm, hg, h2]
    exact ⟨rfl, rfl, regFld_bumpReg_self _ _ 0 32 1 (by decide)⟩

/-! ### The limits of a step (R333, R334) -/

theorem clampI_mem {lo hi : Int} (h : lo ≤ hi) (i : Int) : lo ≤ clampI lo hi i ∧ clampI lo hi i ≤ hi := by
  unfold clampI
  split
  · omega
  · split <;> omega

/-- The cap shortens a step and never turns it. -/
theorem capDelta_between (net : Int) (cap l : Nat) (d : Int) :
    (0 ≤ d → 0 ≤ capDelta net cap l d ∧ capDelta net cap l d ≤ d) ∧ (d ≤ 0 → d ≤ capDelta net cap l d ∧ capDelta net cap l d ≤ 0) := by
  unfold capDelta
  extract_lets room n
  have hn : n ≤ d.natAbs := Nat.min_le_left ..
  constructor <;> intro h <;> split <;> omega

/-- The code that an evaluation leaves lies between the code before and the limited one, within 16 bits and BASE ± TRIM_MAX. -/
theorem madeDelta_within (ch : Nat) :
    let l := loopCh s ch
    let base : Int := l.base.toNat
    let most : Int := regFld s (ro pgLOOP (0xE0 + 4 * l.gsel)) 0 12
    let c : Int := (chan s ch).code.toNat
    (0 ≤ c + madeDelta s ch ∧ c + madeDelta s ch ≤ 65535) ∧
      (base - most ≤ c → c ≤ base + most → base - most ≤ c + madeDelta s ch ∧ c + madeDelta s ch ≤ base + most) := by
  intro l base most c
  have hc : c < 65536 := by
    have := (chan s ch).code.isLt
    omega
  have hb : base < 65536 := by
    have := l.base.isLt
    omega
  have hlim := clampI_mem (lo := max 0 (base - most)) (hi := min 65535 (base + most)) (by omega) (c + askedDelta s ch)
  have hl : limitedDelta s ch = 0 ∨
      limitedDelta s ch = clampI (max 0 (base - most)) (min 65535 (base + most)) (c + askedDelta s ch) - c := by
    unfold limitedDelta
    dsimp only
    split
    · exact .inl rfl
    · exact .inr rfl
  obtain ⟨hpos, hneg⟩ := capDelta_between (tileNet s (ch / 1024)) (regFld s (ro pgLOOP 0x4C) 0 7 * mA) (lsb (chan s ch).range)
    (limitedDelta s ch)
  rw [show capDelta _ _ _ _ = madeDelta s ch from rfl] at hpos hneg
  generalize clampI (max 0 (base - most)) (min 65535 (base + most)) (c + askedDelta s ch) = lim at hlim hl
  generalize madeDelta s ch = d2 at hpos hneg ⊢
  generalize limitedDelta s ch = d1 at hpos hneg hl
  omega

theorem toNat_ofInt_code {i : Int} (h0 : 0 ≤ i) (h : i ≤ 65535) : ((BitVec.ofInt 16 i).toNat : Int) = i := by
  rw [BitVec.toNat_ofInt]
  omega

/-- The code after an evaluation that acts. -/
theorem code_loopEvaluate (ch : Nat) (hb : s.bore.badPar = []) (h : loopActs s ch = true) :
    ((chan (loopEvaluate s ch) ch).code.toNat : Int) = (chan s ch).code.toNat + madeDelta s ch := by
  obtain ⟨t, ht, -, -, -, hz, hn⟩ := loopEvaluate_acts s ch hb h
  rw [ht]
  by_cases h0 : madeDelta s ch = 0
  · rw [hz h0, h0, Int.add_zero]
  · obtain ⟨hc, -⟩ := hn h0
    obtain ⟨⟨h1, h2⟩, -⟩ := madeDelta_within s ch
    rw [hc, toNat_ofInt_code h1 h2]

/-- A loop that may not act changes nothing. -/
theorem loopEvaluate_idle (ch : Nat) (hb : s.bore.badPar = []) (h : loopActs s ch = false) : loopEvaluate s ch = s := by
  have hd : (if looped (loopCh s ch) then loopCheck s ch else s) = s := by rw [loopCheck_clean s hb, ite_self]
  unfold loopEvaluate
  rw [hd]
  refine if_pos ?_
  unfold loopActs at h
  revert h
  cases loopReady s ch <;> cases lowerLane s ch <;> cases outranks s (chan s ch) 1 <;> simp

/-! ### Staleness and the settle hold -/

theorem loopStale_marks (ch : Chan) (h1 : looped (loopCh s ch.val) = true) (h2 : loopFrozen s (ch.val / 32) = false)
    (h3 : loopHeld s (ch.val / 32) = false) (h4 : loopEn s = true) (h5 : (loopCh s ch.val).stale = false)
    (h6 : (loopCh s ch.val).quietFrom + 12000000 ≤ s.now) :
    Yields (.loopStale ch) s fun t => loopCh t ch.val = { loopCh s ch.val with stale := true } ∧ t.chans = s.chans := by
  let u := setLoopCh s ch.val { loopCh s ch.val with stale := true }
  refine ⟨post u pgLOOP 2 (BitVec.ofNat 32 ch.val), congrArg Host.Outcome.next (if_pos (by simp [h1, h2, h3, h4, h5, h6])), ?_, ?_⟩
  · have hl : loopCh (post u pgLOOP 2 (BitVec.ofNat 32 ch.val)) ch.val = loopCh u ch.val := by
      unfold loopCh
      rw [post_loops]
    exact hl.trans (loopCh_setLoopCh_self ..)
  · exact post_chans ..

/-- One looped channel of a reed resumes (R340). -/
def resumeChan (r : Nat) (s : State) (ch : Nat) : State :=
  let l := loopCh s ch
  setLoopCh s ch { l with firstPend := true, quietFrom := s.now, seqA := BitVec.ofNat 8 (accSeq s (r * 64 + l.monA)),
                          seqB := BitVec.ofNat 8 (accSeq s (r * 64 + l.monB)) }

theorem firstPend_resumes (r : Nat) (l : List Nat) (ch : Nat) :
    (loopCh (l.foldl (resumeChan r) s) ch).firstPend = (decide (ch ∈ l) || (loopCh s ch).firstPend) := by
  induction l generalizing s with
  | nil => rfl
  | cons j l ih =>
    rw [List.foldl_cons, ih]
    unfold resumeChan
    dsimp only
    rw [loopCh_setLoopCh]
    by_cases h : ch = j
    · simp [h]
    · simp [h]

/-- Each looped channel of a reed that resumes owes its first step. -/
theorem loopResume_firstPend {r ch : Nat} (hr : ch / 32 = r) (hl : looped (loopCh s ch) = true) :
    (loopCh (loopResume s r) ch).firstPend = true := by
  refine (firstPend_resumes _ r _ ch).trans ?_
  rw [decide_eq_true, Bool.true_or]
  refine List.mem_filter.mpr ⟨?_, hl⟩
  unfold reedChans
  rw [List.mem_range']
  exact ⟨ch % 32, by omega, by omega⟩

theorem settleHoldEnd_resumes (r : Nat) (hf : (reed s r).frozen = true)
    (ht : (reed s r).settleFrom + regFld s (ro pgLOOP 0x44) (if (reed s r).freezePlain then 16 else 0) 8 * 1200 ≤ s.now)
    (hc : ∀ e ∈ s.chans, e.1 / 32 = r → e.2.tongue = none ∧ e.2.waiting = none) :
    settleHoldEnd s r = loopResume (setReed s r { reed s r with frozen := false, freezePlain := false }) r := by
  have h1 : reedPlays s r = false := List.any_eq_false.mpr fun e he => by
    have := hc e he
    grind
  have h2 : s.chans.any (fun e => e.1 / 32 == r && e.2.waiting.isSome) = false := List.any_eq_false.mpr fun e he => by
    have := hc e he
    grind
  refine if_neg ?_
  rw [h1, h2, hf]
  simpa using ht

theorem loopResume_part {β : Type} {π : State → β} (hl : ∀ s v, π { s with loops := v } = π s) (ha : ∀ s v, π { s with accs := v } = π s)
    (r : Nat) : π (loopResume s r) = π s := by
  unfold loopResume
  extract_lets chs accs _ s1
  exact (foldl_part s1 (fun u ch => hl ..) _).trans (ha ..)

/-! ### The status read -/

theorem loopIdx_loopStatRead : loopIdx (loopStatRead s).2 =
    if bit (getReg s (ro pgLOOP 0x54)) 16 then (loopIdx s + 1) % 32768 else loopIdx s := by
  unfold loopStatRead
  dsimp only
  split
  · exact (regFld_bumpReg_self s _ 0 15 1 (by decide)).trans rfl
  · rfl

/-- Settles O52: an evaluation by the step that it makes, the others by what they mark. -/
theorem elementLoops : Obligations.ElementLoops := by
  unfold Obligations.ElementLoops
  intro s
  refine ⟨fun ch => ?_, fun r hf ht hc => ?_, fun fn h => ?_⟩
  · intro l c base most d acts
    refine ⟨fun hb h => ⟨_, rfl, loopEvaluate_idle s ch.val hb h⟩, fun hb h => ?_, fun hb h hd hlim hcap => ?_,
      fun h1 h2 h3 h4 h5 h6 => loopStale_marks s ch h1 h2 h3 h4 h5 h6, fun h => ⟨_, congrArg Host.Outcome.next (if_neg ?_), rfl⟩⟩
    · have hcode := code_loopEvaluate s ch.val hb h
      obtain ⟨t, ht, hbore, hother, hup, -, -⟩ := loopEvaluate_acts s ch.val hb h
      have hk := loopEvaluate_keeps (may := { chans := true, bore := true }) rfl rfl (Keeps.rfl (s := s)) (ch := ch.val)
      rw [ht] at hcode hk
      refine ⟨t, congrArg Host.Outcome.next ht, hother, fun a => boreByte_of_bore hbore a, ⟨(hk.feeds rfl).1, (hk.feeds rfl).2, hk.rails rfl⟩,
        ?_, fun h1 h2 => ?_⟩
      · rw [hup, BitVec.toNat_ofNat]
        exact Nat.mod_eq_of_lt (by omega)
      · rw [hcode]
        exact (madeDelta_within s ch.val).2 h1 h2
    · have hm : madeDelta s ch.val = d := by
        have hl : limitedDelta s ch.val = d := (if_neg hd).trans (by
          rw [show askedDelta s ch.val = d from rfl, hlim]
          exact add_sub_cancel_left ..)
        unfold madeDelta
        rw [hl]
        exact hcap
      have hcode := code_loopEvaluate s ch.val hb h
      obtain ⟨t, ht, -, -, -, -, hn⟩ := loopEvaluate_acts s ch.val hb h
      rw [ht, hm] at hcode
      obtain ⟨-, hsrc, hcount⟩ := hn (by rw [hm]; exact hd)
      exact ⟨t, congrArg Host.Outcome.next ht, hcode, hsrc, hcount⟩
    · have hq : decide (l.quietFrom + 12000000 ≤ s.now) = false := decide_eq_false (by omega)
      change ¬ (looped l && !loopFrozen s (ch.val / 32) && !loopHeld s (ch.val / 32) && loopEn s && !l.stale &&
        decide (l.quietFrom + 12000000 ≤ s.now)) = true
      rw [hq, Bool.and_false]
      exact Bool.false_ne_true
  · have e := settleHoldEnd_resumes s r.val hf ht hc
    refine ⟨_, congrArg Host.Outcome.next e, ?_, (loopResume_part _ (π := State.chans) (fun _ _ => rfl) (fun _ _ => rfl) _).trans rfl,
      fun a => boreByte_of_bore ((loopResume_part _ (π := State.bore) (fun _ _ => rfl) (fun _ _ => rfl) _).trans rfl) a,
      fun ch hr hl => loopResume_firstPend _ hr hl⟩
    rw [reed_of_reeds (loopResume_part _ (π := State.reeds) (fun _ _ => rfl) (fun _ _ => rfl) _), reed_setReed_self]
  · refine ⟨_, congrArg Host.Outcome.next (rd_of_mayRead s fn _ _ _ h), rfl, loopIdx_loopStatRead s⟩

end Sys2Proof.Machine
end

