-- ==== Sys2Proof/Proofs/ClocksAndDroop.lean ====
section
/-! O56. The fast clock, its losses, the reference and droop (R525 to R531, R540, R615). -/

namespace Sys2Proof.Machine

open Sys2Proof.Safety (Yields SameFeedGates mayWrite)

variable (s : State)

/-! ### The clocks stand through the commands that waited for RUN -/

theorem dropTag_power (tag : Nat) : (dropTag s tag).power = s.power :=
  Eq.trans (Eq.refl (freeTag s tag).power) (power_of_quiet (freeTag_quiet ..))

theorem coreRestart_power : (coreRestart s).power = s.power := by
  unfold coreRestart
  split
  · rfl
  · extract_lets s1 _ s2
    have h2 : s2.power = s.power := Eq.trans (Eq.refl s1.power) (post_power ..)
    refine (foldl_part s2 (π := State.power) (fun u c => ?_) _).trans h2
    exact (dropTag_power ..).trans ((power_of_quiet (complete_quiet ..)).trans (post_power ..))

theorem power_rests (p : Power) : Rests (fun u => u.power = p) where
  reeds h := h
  bore h := h
  boreReg _ _ h := h
  post h := (post_power ..).trans h
  journal h := h
  coreRestart h := (coreRestart_power _).trans h

theorem parReads_power (a n : Nat) : (parReads s a n).1.power = s.power := (power_rests _).parReads rfl

theorem parRead_power (a : Nat) : (parRead s a).1.power = s.power := by
  unfold parRead
  split
  · exact (power_rests _).parFail rfl
  · rfl

theorem resolveOne_power (k i : Nat) (r : Resolved) : (resolveOne k r i).s.power = r.s.power := by
  unfold resolveOne
  split
  · rfl
  · extract_lets a w0 w1 ch p idx q sp
    have hp : p.1.power = r.s.power := parReads_power ..
    have hq : q.1.power = r.s.power := by
      unfold q
      split
      · exact hp
      · exact (parReads_power ..).trans hp
    split
    · exact (postFree_power ..).trans hp
    · split
      · exact hp
      · split
        · exact hq
        · split
          · exact hq
          · split
            · exact hq
            · split
              · exact hq
              · exact hq

theorem resolve_power (k n : Nat) : (resolve s k n).s.power = s.power := by
  have h : ∀ (l : List Nat) (r : Resolved), (l.foldl (resolveOne k) r).s.power = r.s.power := by
    intro l
    induction l with
    | nil => exact fun _ => rfl
    | cons i l ih => exact fun r => (ih _).trans (resolveOne_power k i r)
  exact h _ _

theorem planStage_power (k n : Nat) : (plStage s k n).1.power = s.power := by
  unfold plStage
  extract_lets x s1 r
  have hr : r.s.power = s.power := resolve_power s1 k n
  split
  · rfl
  · split
    · rfl
    · split
      · exact power_of_outside (rejectPlan_outside ..)
      · split
        · exact power_of_outside (rejectPlan_outside ..)
        · split
          · exact (power_of_outside (rejectPlan_outside ..)).trans hr
          · exact hr

theorem startAdmit_power (k : Nat) : (startAdmit s k).power = s.power :=
  startAdmit_part s (π := State.power) (fun _ _ => rfl) (fun _ _ _ => post_power ..) k

theorem planCmd_power (cmd k count : Nat) : (planCmd s cmd k count).power = s.power := by
  have hr : ∀ (u : State) cmd k count res, (plResult u cmd k count res).power = u.power := fun u cmd k count res => by
    unfold plResult
    dsimp only
    split
    · rfl
    · exact (post_power ..).trans rfl
  unfold planCmd
  extract_lets r
  refine (hr ..).trans ?_
  unfold r
  split
  · unfold plOpen
    dsimp only
    split <;> rfl
  · exact planStage_power ..
  · unfold plArm
    dsimp only
    split
    · rfl
    · split
      · rfl
      · split
        · rfl
        · split
          · rfl
          · exact startAdmit_power ..
  · unfold plDisarm
    dsimp only
    split
    · rfl
    · unfold disarm
      dsimp only
      have he : ∀ (x : SlotSt), (endReq (setSlot s k x) k 4).power = s.power := fun x =>
        (power_of_quiet (endReq_quiet (setSlot s k x) ..)).trans rfl
      split
      · exact he _
      · exact (power_of_quiet (planDone_quiet ..)).trans (he _)
  · unfold plRelease
    dsimp only
    split
    · rfl
    · exact (power_of_quiet (planDone_quiet ..)).trans ((power_of_quiet (endReq_quiet (setSlot s k {}) ..)).trans rfl)


theorem setRes_power (tag sct sc : Nat) (d0 d1 : Word) : (setRes s tag sct sc d0 d1).power = s.power := power_of_quiet (setRes_quiet ..)

theorem tabEnd_power (k err : Nat) : (tabEnd s k err).power = s.power := power_of_quiet (tabEnd_quiet ..)

theorem tabRefuse_power (k : Nat) : (tabRefuse s k).power = s.power := power_of_quiet (tabRefuse_quiet ..)

theorem tabStart_power (k cmd : Nat) : (tabStart s k cmd).power = s.power := rfl

theorem parSweep_power (k : Nat) : (parSweep s k).power = s.power := foldl_part s (π := State.power) (fun u a => parRead_power u a) _

theorem tabSaveFail_power (k err : Nat) : (tabSaveFail s k err).power = s.power := (tabEnd_power ..).trans (post_power ..)

theorem noteSetpoints_power (bad : List Nat) : (noteSetpoints s bad).power = s.power := rfl

theorem noteSeqs_power (bad : List Nat) : (noteSeqs s bad).power = s.power := rfl

theorem tabSave_power (k : Nat) : (tabSave s k).power = s.power := by
  unfold tabSave
  split
  · exact tabRefuse_power ..
  · extract_lets s1 bad s2 bad' s3
    have h1 : s1.power = s.power := by
      change (if k ≤ kMS then parSweep s k else s).power = s.power
      split
      · exact parSweep_power ..
      · rfl
    have h2 : s2.power = s.power := (noteSetpoints_power ..).trans h1
    have h3 : s3.power = s.power := (noteSeqs_power ..).trans h1
    clear_value s3 s2 bad bad'
    split
    · split
      · exact h2
      · exact (tabSaveFail_power ..).trans h2
    · split
      · split
        · exact h3
        · exact (tabSaveFail_power ..).trans h3
      · exact h1

theorem tabCheck_power (k : Nat) : (tabCheck s k).power = s.power := by
  have hs : ∀ j, (parSweep (tabStart s k 3) j).power = s.power := fun j => parSweep_power ..
  unfold tabCheck
  split
  · exact tabRefuse_power ..
  · dsimp only
    split
    · exact (tabEnd_power ..).trans ((noteSetpoints_power ..).trans (hs _))
    · exact (tabEnd_power ..).trans ((setReg_power ..).trans (hs _))
    · exact (tabEnd_power ..).trans ((noteSeqs_power ..).trans (hs _))
    · split
      · exact tabEnd_power ..
      · exact tabEnd_power ..

theorem fabTable_power (k code : Nat) : (fabTable s k code).power = s.power := by
  unfold fabTable
  split
  · unfold tabLoad
    split
    · exact tabRefuse_power ..
    · rfl
  · exact tabSave_power ..
  · exact tabCheck_power ..
  · exact post_power ..

theorem runFab_power (f : FabCmd) : (runFab s f).power = s.power := by
  unfold runFab
  split
  · exact planCmd_power ..
  · next cmd k count t =>
    unfold planTag
    extract_lets res s1
    have h1 : s1.power = (planCmd s cmd k count).power := by
      unfold s1
      split <;> rfl
    split
    · exact (power_of_quiet (complete_quiet ..)).trans (planCmd_power ..)
    · split
      · exact (power_of_quiet (planDone_quiet ..)).trans (h1.trans (planCmd_power ..))
      · exact h1.trans (planCmd_power ..)
  · exact fabTable_power ..
  · unfold tableTag
    dsimp only
    split
    · exact fabTable_power ..
    · exact (setRes_power ..).trans (fabTable_power ..)

theorem acceptWaiting_power : (acceptWaiting s).power = s.power :=
  (foldl_part { s with fabWait := [] } (π := State.power) runFab_power s.fabWait).trans rfl
/-! ### Skipping, tongues and READY -/

/-- The end of skipping clears `stretch` and changes nothing else of the clocks. -/
theorem endStretch_power : (endStretch s).power = { s.power with stretch := false } := by
  unfold endStretch
  split
  · next h =>
    rw [Bool.not_eq_true'] at h
    rw [← h]
  · rfl

theorem clockLost_power : (clockLost s).power = s.power :=
  (power_of_outside (dropReady_outside (stopTongues s))).trans rfl

/-- With the fast clock gone no channel plays or waits. -/
theorem chan_clockLost (ch : Nat) : (chan (clockLost s) ch).tongue = none ∧ (chan (clockLost s) ch).waiting = none := by
  have hc : (clockLost s).chans = (stopTongues s).chans := chans_of_outside (dropReady_outside (stopTongues s))
  rw [chan_of_chans hc]
  have hall : ∀ p ∈ (stopTongues s).chans, p.2.tongue = none ∧ p.2.waiting = none := by
    intro p hp
    obtain ⟨q, -, rfl⟩ := List.mem_map.mp (List.mem_filter.mp hp).1
    rw [if_pos rfl]
    dsimp only
    unfold stopChan finalChan
    split
    · exact ⟨rfl, rfl⟩
    · next h => exact ⟨h, rfl⟩
  unfold chan
  generalize (stopTongues s).chans = l at hall
  induction l with
  | nil => exact ⟨rfl, rfl⟩
  | cons p l ih =>
    unfold tabGet
    split
    · exact hall p List.mem_cons_self
    · exact ih fun q hq => hall q (List.mem_cons_of_mem _ hq)

/-- With the fast clock gone an armed slot stays armed without READY. -/
theorem slot_clockLost {k : Nat} (hk : k < 16) (h : (slot s k).state = .armed) :
    (slot (clockLost s) k).state = .armed ∧ (slot (clockLost s) k).ready = false := by
  have hs : slot (stopTongues s) k = slot s k := rfl
  unfold clockLost
  rw [slot_dropReady, if_pos (show k ∈ slotList from List.mem_range.mpr hk), hs, if_pos h]
  exact ⟨h, rfl⟩

/-- A lost lock outside SLEEP: the clock wakes and counts as unlocked, and its work is lost (R525, R615). -/
theorem pllcLost_eq (h : s.power.fast ≠ .sleep) : ∃ u : State, pllcLost s = clockLost u ∧ u.slots = s.slots ∧
    u.power = { s.power with
      stretch := false, fast := .waking, pllcLock := false, unlocked := true, relock := true,
      unlockAt := if s.power.unlocked then s.power.unlockAt else s.now } := by
  unfold pllcLost
  extract_lets d s1 p s2
  rw [if_neg h]
  have h1 : s1.power = { s.power with stretch := false } := endStretch_power s
  have hn : s1.now = s.now := by
    unfold s1 endStretch
    split <;> rfl
  have hs : s1.slots = s.slots := by
    unfold s1 endStretch
    split <;> rfl
  refine ⟨_, rfl, (post_slots ..).trans hs, (post_power ..).trans ?_⟩
  unfold s2
  dsimp only
  rw [show p = _ from h1, h1, hn]

theorem pllsLost_power : (pllsLost s).power = { s.power with pllsLock := false } := by
  unfold pllsLost
  split
  · next h =>
    rw [Bool.not_eq_true'] at h
    rw [← h]
  · exact post_power ..

theorem pllsLost_boot : (pllsLost s).boot = s.boot := by
  unfold pllsLost
  split
  · rfl
  · exact post_boot ..

/-! ### The commands of the fast clock -/

theorem workArrives_warm (hw : hasWork s = true) (hf : s.power.fast = .warm) :
    (workArrives s).power.fast = .run ∧ (workArrives s).chans = s.chans := by
  refine ⟨?_, (workArrives_keeps (may := { slots := true, bore := true }) rfl rfl Keeps.rfl).chans rfl⟩
  unfold workArrives
  rw [if_neg (by simp [hw]), hf]
  exact congrArg Power.fast (acceptWaiting_power _)

theorem workArrives_sleep (hw : hasWork s = true) (hf : s.power.fast = .sleep) :
    (workArrives s).power = { s.power with fast := .waking, wakeAt := s.now } ∧ (workArrives s).chans = s.chans := by
  unfold workArrives
  rw [if_neg (by simp [hw]), hf]
  exact ⟨rfl, rfl⟩

theorem pllcLocked_runs (hf : s.power.fast = .waking) (hr : s.power.refOk = true) :
    (pllcLocked s).power.fast = .run ∧ (pllcLocked s).power.pllcLock = true ∧ (pllcLocked s).power.unlocked = false ∧
    (pllcLocked s).chans = s.chans := by
  have hc := (pllcLocked_keeps (may := { slots := true, bore := true }) rfl rfl (Keeps.rfl (s := s))).chans rfl
  have hp : (pllcLocked s).power = { s.power with
      fast := .run, pllcLock := true, unlocked := false, relock := false, backup := false,
      clockGood := if s.power.unlocked then s.now else s.power.clockGood } := by
    unfold pllcLocked
    extract_lets redo s1
    rw [if_neg (by simp [hf, hr]), acceptWaiting_power]
    split
    · exact power_of_outside (redoIf_outside ..)
    · rfl
  rw [hp]
  exact ⟨rfl, rfl, rfl, hc⟩

/-- No work for as long as the register says. -/
theorem idleFor_of {n : Nat} (hw : hasWork s = false) (hn : s.power.workAt + n ≤ s.now) : idleFor s n = true := by
  unfold idleFor
  simp [hw, hn]

theorem warmIdle_yields (hw : hasWork s = false) (hf : s.power.fast = .run)
    (hn : s.power.workAt + regFld s (ro pgCLK 0x40) 4 12 ≤ s.now) :
    Yields .warmIdleExpired s fun t => t.power.fast = .warm ∧ t.chans = s.chans := by
  refine ⟨_, congrArg Host.Outcome.next (if_pos ⟨hf, idleFor_of s hw hn⟩), rfl, ?_⟩
  unfold endStretch
  dsimp only
  split <;> rfl

theorem sleepIdle_yields (hw : hasWork s = false) (hf : s.power.fast = .warm)
    (hn : s.power.workAt + regFld s (ro pgCLK 0x40) 16 16 * 1200 ≤ s.now) (ha : anyArmed s = false)
    (hb : bit (getReg s (ro pgCLK 0x40)) 0 = true) :
    Yields .sleepIdleExpired s fun t => t.power.fast = .sleep ∧ t.power.pllcLock = false ∧ t.chans = s.chans :=
  ⟨_, congrArg Host.Outcome.next (if_pos ⟨hf, idleFor_of s hw hn, by simp [ha], hb⟩), rfl, rfl, rfl⟩

theorem pllcLoss_yields (hd : driveOn s = true) (hf : s.power.fast ≠ .sleep) : Yields .pllCLockLoss s fun t =>
    t.power.fast = .waking ∧ t.power.pllcLock = false ∧ (∀ ch, (chan t ch).tongue = none ∧ (chan t ch).waiting = none) ∧
    (∀ k, k < 16 → (slot s k).state = .armed → (slot t k).state = .armed ∧ (slot t k).ready = false) := by
  obtain ⟨u, e, hs, hp⟩ := pllcLost_eq s hf
  refine ⟨_, congrArg Host.Outcome.next ((if_pos hd).trans e), ?_, ?_, chan_clockLost u, fun k hk ha => slot_clockLost u hk ?_⟩
  · rw [clockLost_power, hp]
  · rw [clockLost_power, hp]
  · rw [slot_of_slots hs]
    exact ha

theorem pllcWakeTimeout_yields (hf : s.power.fast = .waking) (hu : s.power.unlocked = false) (hn : s.power.wakeAt + 24000 ≤ s.now) :
    Yields .pllCWakeTimeout s fun t => t.power = { s.power with unlocked := true, unlockAt := s.now } ∧ t.chans = s.chans :=
  ⟨_, congrArg Host.Outcome.next (if_pos ⟨hf, by simp [hu], hn⟩), (post_power ..).trans rfl, (post_chans ..).trans rfl⟩

/-! ### The loss of the reference -/

section
variable {β : Type} {π : State → β}

/-- The ports of the shelf link fall without any other of the named parts. -/
theorem slDown_part (hs : ∀ s v, π { s with shelf := v } = π s) (hp : ∀ s src d, π (post s pgSLINK src d) = π s) :
    π (slDown s) = π s := by
  unfold slDown
  split
  · rfl
  · unfold slUnsync
    dsimp only
    split
    · exact (hp ..).trans (hs s _)
    · exact hs s _

end

/-- The two ports of the shelf link. -/
def shelfPorts (s : State) : Bool × Bool := (s.shelf.upOk, s.shelf.dnOk)

theorem shelfPorts_post (page src : Nat) (d : Word) (sub : Nat) : shelfPorts (post s page src d sub) = shelfPorts s := by
  unfold shelfPorts
  rw [post_shelf]

theorem shelfPorts_slDown : shelfPorts (slDown s) = shelfPorts s := by
  unfold slDown
  split
  · rfl
  · unfold slUnsync
    dsimp only
    split
    · exact (shelfPorts_post ..).trans rfl
    · rfl

theorem shelfPorts_slRing (fr : SlFrame) : shelfPorts (slRing s fr) = shelfPorts s := by
  have ht : ∀ p, shelfPorts (slTx s p fr) = shelfPorts s := fun p => by cases p <;> rfl
  unfold slRing
  generalize (if portOk s .dn ∨ s.shelf.wrapped then Port.dn else .up) = p
  unfold slSend
  split
  · exact ht _
  · split
    · exact ht _
    · rfl

theorem shelfPorts_slWrapped (dn : Bool) (pos : BitVec 4) : shelfPorts (slWrapped s dn pos) = shelfPorts s := by
  unfold slWrapped
  dsimp only
  split
  · rfl
  · exact (shelfPorts_post ..).trans rfl

/-- The ports without one of them. -/
def withoutPort (x : Bool × Bool) : Port → Bool × Bool
  | .up => (false, x.2)
  | .dn => (x.1, false)

/-- A port that falls is down; the other is as before. -/
theorem shelfPorts_slPortDown (p : Port) : shelfPorts (slPortDown s p) = withoutPort (shelfPorts s) p := by
  unfold slPortDown
  split
  · next h =>
    rw [Bool.not_eq_true'] at h
    cases p with
    | up => exact congrArg (·, s.shelf.dnOk) h
    | dn => exact congrArg (s.shelf.upOk, ·) h
  · extract_lets _ s1 s2 dn s3
    have h2 : shelfPorts s2 = withoutPort (shelfPorts s) p :=
      (shelfPorts_post ..).trans (by cases p <;> rfl)
    split
    · exact (shelfPorts_slDown _).trans h2
    · split
      · exact (shelfPorts_slRing ..).trans ((shelfPorts_slWrapped ..).trans h2)
      · exact h2

theorem slPortDown_power (p : Port) : (slPortDown s p).power = s.power := by
  have hd : ∀ u : State, (slDown u).power = u.power := fun u =>
    slDown_part u (π := State.power) (fun _ _ => rfl) (fun _ _ _ => post_power ..)
  have hw : ∀ (u : State) dn pos, (slWrapped u dn pos).power = u.power := fun u dn pos => by
    unfold slWrapped
    dsimp only
    split
    · rfl
    · exact (post_power ..).trans rfl
  have hr : ∀ (u : State) fr, (slRing u fr).power = u.power := fun u fr => by
    have ht : ∀ p, (slTx u p fr).power = u.power := fun p => by cases p <;> rfl
    unfold slRing
    generalize (if portOk u .dn ∨ u.shelf.wrapped then Port.dn else .up) = p
    unfold slSend
    split
    · exact ht _
    · split
      · exact ht _
      · rfl
  unfold slPortDown
  split
  · rfl
  · extract_lets _ s1 s2 dn s3
    have h2 : s2.power = s.power := (post_power ..).trans rfl
    split
    · exact (hd _).trans h2
    · split
      · exact (hr ..).trans ((hw ..).trans h2)
      · exact h2

/-! ### What a reset of the host's link leaves -/

section
variable {β : Type} {π : State → β} (hs : ∀ s v, π { s with host := { s.host with msixSent := v } } = π s)
    (hp : ∀ s v, π { s with host := { s.host with msixPend := v } } = π s)
include hs hp

theorem sendMsi_keepsPart (fn vec : Nat) : π (sendMsi s fn vec) = π s := by
  unfold sendMsi
  dsimp only
  split
  · exact hs ..
  · exact hp ..

theorem irqSet_keepsPart (hr : ∀ s v, π { s with regs := v } = π s) (page : Nat) (bits : Word) : π (irqSet s page bits) = π s := by
  have hg : ∀ u : State, π (pageIrq u page) = π u := fun u => by
    unfold pageIrq
    refine foldl_part u (fun v x => ?_) _
    split
    · exact sendMsi_keepsPart v hs hp ..
    · rfl
  unfold irqSet
  dsimp only
  split
  · exact (hg _).trans (hr ..)
  · exact hr ..

/-- A message of a drive-die page moves of the host no more than the messages of its vectors. -/
theorem postAs_keepsPart (hr : ∀ s v, π { s with regs := v } = π s) (hb : ∀ s v, π { s with bell := v } = π s)
    (hm : ∀ s a n, π { s with msgAt := a, msgNow := n } = π s) {page : Nat} (hpage : isFeedPage page = false) (src cls sub : Nat)
    (d : Word) : π (postAs s page src cls sub d) = π s := by
  have hin : ∀ (u : State) m, π (bellIn u m) = π u := fun u m => by
    unfold bellIn
    split
    · exact hb ..
    · dsimp only
      split
      · exact (irqSet_keepsPart _ hs hp hr ..).trans ((hr ..).trans (hb ..))
      · exact hb ..
  unfold postAs
  split
  · rfl
  · extract_lets inj m _ s1 s2 s3
    have h1 : π s1 = π s := by
      unfold s1
      split
      · exact hb ..
      · rfl
    rw [if_neg (by simp [hpage])]
    split
    · exact h1
    · have h2 : π s2 = π s := (hm s1 _ _).trans h1
      rw [hin]
      refine Eq.trans ?_ h2
      unfold s3
      split
      · exact hb ..
      · rfl

end

theorem post_linkUp {page : Nat} (h : isFeedPage page = false) (src : Nat) (d : Word) (sub : Nat) :
    (post s page src d sub).host.linkUp = s.host.linkUp :=
  postAs_keepsPart s (π := fun s : State => s.host.linkUp) (fun _ _ => rfl) (fun _ _ => rfl) (fun _ _ => rfl) (fun _ _ => rfl)
    (fun _ _ _ => rfl) h ..

theorem dropTag_host (tag : Nat) : (dropTag s tag).host = s.host := rfl

/-- A function-level reset as its own parts leave a part of the state. -/
theorem flr_part {β : Type} {π : State → β} (hd : ∀ s tag, π (dropTag s tag) = π s) (hq : ∀ s v, π { s with cmdq := v } = π s)
    (hr : ∀ s v, π { s with regs := v } = π s)
    (hh : ∀ s a b c d, π { s with host := { s.host with msixTab := a, msixPend := b, msixEn := c, d3 := d } } = π s)
    (hp : ∀ s d, π (post s pgHOST 3 d) = π s) (fn : Nat) : π (flr s fn) = π s := by
  unfold flr
  extract_lets qs cqs tags s1 _ s2 s3 s4 s5 h s6 s7
  have h1 : π s1 = π s := foldl_part s hd _
  have h2 : π s2 = π s := (hq s1 _).trans h1
  have h3 : π s3 = π s :=
    (foldl_part s2 (fun u q => (hq (putReg u (ro pgCMDQ (0x104 + 16 * q)) 0 1 0) _).trans (hr u _)) _).trans h2
  have h4 : π s4 = π s :=
    (foldl_part s3 (fun u q => (hq (putReg u (ro pgCMDQ (0x504 + 16 * q)) 0 1 0) _).trans (hr u _)) _).trans h3
  have h5 : π s5 = π s := (hq s4 _).trans h4
  have h6 : π s6 = π s := (hh s5 ..).trans h5
  exact (hp s7 _).trans ((hr s6 _).trans h6)

theorem linkReset_power : (linkReset s).power = s.power := by
  have hf : ∀ u fn, (flr u fn).power = u.power := fun u fn =>
    flr_part u (π := State.power) dropTag_power (fun _ _ => rfl) (fun _ _ => rfl) (fun _ _ _ _ _ => rfl) (fun _ _ => post_power ..) fn
  have hl : (linkDown s).power = s.power := by
    unfold linkDown
    split
    · rfl
    · exact (post_power ..).trans rfl
  exact (foldl_part (linkDown s) (π := State.power) hf [0, 1, 2]).trans hl

theorem linkReset_linkUp : (linkReset s).host.linkUp = false := by
  have hf : ∀ u fn, (flr u fn).host.linkUp = u.host.linkUp := fun u fn =>
    flr_part u (π := fun s : State => s.host.linkUp) (fun _ _ => by rw [dropTag_host]) (fun _ _ => rfl) (fun _ _ => rfl)
      (fun _ _ _ _ _ => rfl) (fun _ _ => post_linkUp _ rfl ..) fn
  have hl : (linkDown s).host.linkUp = false := by
    unfold linkDown
    split
    · next h => simpa using h
    · exact (post_linkUp _ rfl ..).trans rfl
  exact (foldl_part (linkDown s) (π := fun s : State => s.host.linkUp) hf [0, 1, 2]).trans hl

theorem linkReset_shelf : (linkReset s).shelf = s.shelf := by
  have hd : ∀ (u : State) tag, (dropTag u tag).shelf = u.shelf := fun u tag =>
    Eq.trans (Eq.refl (freeTag u tag).shelf) (shelf_of_quiet (freeTag_quiet ..))
  have hf : ∀ u fn, (flr u fn).shelf = u.shelf := fun u fn =>
    flr_part u (π := State.shelf) hd (fun _ _ => rfl) (fun _ _ => rfl) (fun _ _ _ _ _ => rfl) (fun _ _ => post_shelf ..) fn
  have hl : (linkDown s).shelf = s.shelf := by
    unfold linkDown
    split
    · rfl
    · exact (post_shelf ..).trans rfl
  exact (foldl_part (linkDown s) (π := State.shelf) hf [0, 1, 2]).trans hl

/-! ### The reference -/

/-- The last step of the loss: the backup clock takes the loads, the CLOCK cause rises, and the host's link resets. -/
theorem onBackup_shows : ∃ t, linkReset { s with power := { s.power with backup := true, clockReq := 3 } } = t ∧
    t.power = { s.power with backup := true, clockReq := 3 } ∧ t.host.linkUp = false ∧ shelfPorts t = shelfPorts s := by
  refine ⟨_, rfl, linkReset_power _, linkReset_linkUp _, ?_⟩
  unfold shelfPorts
  rw [linkReset_shelf]

/-- What the loss of the reference shows in the clocks, the host's link and the shelf link (R527, R567). -/
theorem refclkLost_shows (hd : driveOn s = true) (hr : s.power.refOk = true) :
    (refclkLost s).power.refOk = false ∧ (refclkLost s).power.backup = true ∧ (refclkLost s).power.clockReq = 3 ∧
    (refclkLost s).power.pllsLock = false ∧ (refclkLost s).host.linkUp = false ∧ shelfPorts (refclkLost s) = (false, false) := by
  unfold refclkLost
  extract_lets _ s1 s2 s3 _
  rw [if_neg (by simp [hd, hr])]
  have h1 : s1.power.refOk = false := congrArg Power.refOk (post_power ..)
  have hc : (pllcLost s1).power.refOk = false := by
    by_cases h : s1.power.fast = .sleep
    · rw [show pllcLost s1 = s1 from if_pos h]
      exact h1
    · obtain ⟨u, e, -, hp⟩ := pllcLost_eq s1 h
      rw [e, clockLost_power, hp]
      exact h1
  have h2 : s2.power = { (pllcLost s1).power with pllsLock := false } := (clockLost_power _).trans (pllsLost_power _)
  have h3 : s3.power = s2.power := (slPortDown_power ..).trans (slPortDown_power ..)
  have hports : shelfPorts s3 = (false, false) := by
    unfold s3
    rw [shelfPorts_slPortDown, shelfPorts_slPortDown]
    rfl
  obtain ⟨t, ht, hp, hl, hs⟩ := onBackup_shows s3
  have h : t.power.refOk = false ∧ t.power.backup = true ∧ t.power.clockReq = 3 ∧ t.power.pllsLock = false ∧
      t.host.linkUp = false ∧ shelfPorts t = (false, false) := by
    rw [hp, h3, h2]
    exact ⟨hc, rfl, rfl, rfl, hl, hs.trans hports⟩
  rw [← ht] at h
  exact h

/-! ### Droop -/

theorem readCore_power (mv : Nat) : ∃ least low, (readCore s mv).power = { s.power with
    vcore := BitVec.ofNat 10 mv, vcoreMin := least, coreLow := low } ∧
    (mv < threshMv s → low = some (s.power.coreLow.getD s.now)) :=
  ⟨_, _, rfl, fun h => if_neg (by omega)⟩

theorem droopStart_skips (mv : BitVec 10) (hd : driveOn s = true) (hf : s.power.fast = .run) (hs : s.power.stretch = false)
    (hm : mv.toNat < threshMv s) : Yields (.droopStart mv) s fun t =>
      t.power.stretch = true ∧ t.power.vcore = mv ∧ t.chans = s.chans ∧
      regFld t (ro pgCLK 0x50) 0 16 = (regFld s (ro pgCLK 0x50) 0 16 + 1) % 65536 := by
  have ht : threshMv (readCore s mv.toNat) = threshMv s := rfl
  refine ⟨_, congrArg Host.Outcome.next ((if_neg (by simp [hd])).trans (if_neg ?_)), ?_, ?_, ?_, ?_⟩
  · rw [ht]
    change ¬ (s.power.fast ≠ .run ∨ s.power.stretch ∨ threshMv s ≤ mv.toNat)
    simp [hf, hs, hm]
  · rw [post_power]
    rfl
  · rw [post_power]
    exact BitVec.eq_of_toNat_eq (by simp [readCore])
  · exact (post_chans ..).trans rfl
  · exact (regFld_of_getReg (getReg_post _ (by decide) ..) 0 16).trans (regFld_bumpReg_self _ _ 0 16 1 (by decide))

theorem droopEnd_ends (mv : BitVec 10) (cc : BitVec 16) (hd : driveOn s = true) (hm : threshMv s + 10 < mv.toNat) (hc : 64 ≤ cc.toNat) :
    Yields (.droopEnd mv cc) s fun t => t.power.stretch = false ∧ t.power.coreReq = 0 ∧ t.chans = s.chans := by
  have ht : threshMv (readCore s mv.toNat) = threshMv s := rfl
  refine ⟨_, congrArg Host.Outcome.next ((if_neg (by simp [hd])).trans (if_neg (by rw [ht]; omega))), ?_, rfl, ?_⟩
  · dsimp only
    rw [endStretch_power]
  · dsimp only
    unfold endStretch
    split <;> rfl

theorem droopSustained_raises (mv : BitVec 10) {from' : Nat} (hd : driveOn s = true) (hm : mv.toNat < threshMv s)
    (hl : s.power.coreLow = some from') (hn : from' + regFld s (ro pgCLK 0x48) 16 8 * 1200 ≤ s.now) (hc : s.power.coreReq = 0) :
    Yields (.droopSustained mv) s fun t => t.power.coreReq = 5 ∧ t.chans = s.chans := by
  have hlow : (readCore s mv.toNat).power.coreLow = some from' := (if_neg (by omega)).trans (by rw [hl]; rfl)
  refine ⟨droopSustained s mv.toNat, rfl, ?_⟩
  unfold droopSustained
  extract_lets s1 due
  have hdue : due = true := by
    unfold due
    rw [hlow]
    exact decide_eq_true hn
  have hreq : s1.power.coreReq = 0 := hc
  rw [if_neg (by simp [hd]), if_neg (by simp [hdue, hreq])]
  dsimp only
  rw [post_power]
  exact ⟨rfl, (post_chans ..).trans rfl⟩

/-! ### The threshold register -/

/-- A field that its rule admits, and that no other rule touches, is taken as written. -/
theorem fld_ruleWord {rules : List FieldRule} (old v : Word) {lo n : Nat}
    (h : ∀ r ∈ rules, (r.min ≤ fld v r.lo r.n ∧ fld v r.lo r.n ≤ r.max ∧ (fld v r.lo r.n = 0 → r.zeroAs = 0)) ∨ lo + n ≤ r.lo ∨
      r.lo + r.n ≤ lo) : fld (ruleWord rules old v) lo n = fld v lo n := by
  have hw : ∀ (l : List FieldRule), (∀ r ∈ l, r ∈ rules) → ∀ w, fld w lo n = fld v lo n →
      fld (l.foldl (fun w r =>
        let x := fld v r.lo r.n
        if x = 0 ∧ r.zeroAs ≠ 0 then put w r.lo r.n r.zeroAs
        else if x < r.min ∨ r.max < x then put w r.lo r.n (fld old r.lo r.n)
        else w) w) lo n = fld v lo n := by
    intro l
    induction l with
    | nil => exact fun _ _ h => h
    | cons r l ih =>
      intro hl w hw
      refine ih (fun r' h' => hl r' (List.mem_cons_of_mem _ h')) _ ?_
      have hput : ∀ x, (lo + n ≤ r.lo ∨ r.lo + r.n ≤ lo) → fld (put w r.lo r.n x) lo n = fld v lo n := fun x hd => by
        rcases hd with hd | hd
        · exact (fld_put_below _ _ _ _ _ _ hd).trans hw
        · exact (fld_put_above _ _ _ _ _ _ hd).trans hw
      dsimp only
      rcases h r (hl r List.mem_cons_self) with ⟨h1, h2, h3⟩ | hd
      · rw [if_neg (fun c => c.2 (h3 c.1)), if_neg (by omega)]
        exact hw
      · split
        · exact hput _ hd
        · split
          · exact hput _ hd
          · exact hw
  exact hw rules (fun _ h => h) v rfl

/-- CK_DROOP: THRESH_MV and SUST_US. -/
theorem droopRow : ∃ r, regRow (ro pgCLK 0x48) = some r ∧ r.acc = .rw ∧ (∀ f ∈ r.rules, ro pgCLK 0x48 ≠ fzOff f (ro pgCLK 0x48)) ∧
    (∀ i < 10, r.mask.getLsbD (0 + i) = true) ∧
    (∀ f ∈ r.rules, (f.lo = 0 ∧ f.n = 10 ∧ f.min = 650 ∧ f.max = 740) ∨ 0 + 10 ≤ f.lo) := by
  decide

theorem threshMv_writeReg (v : Word) (h1 : 650 ≤ fld v 0 10) (h2 : fld v 0 10 ≤ 740) : threshMv (writeReg s (ro pgCLK 0x48) v) = fld v 0 10 := by
  obtain ⟨r, hr, ha, hf, hm, hrules⟩ := droopRow
  unfold threshMv regFld
  rw [getReg_writeReg s hr ha (by decide) hf, fld_masked hm]
  refine fld_ruleWord _ _ fun f hf => ?_
  rcases hrules f hf with ⟨hlo, hn, hmin, hmax⟩ | hd
  · rw [hlo, hn, hmin, hmax]
    exact .inl ⟨h1, h2, fun h => by omega⟩
  · exact .inr (.inl hd)

theorem writeReg_power (off : Nat) (v : Word) : (writeReg s off v).power = s.power := by
  have hz : ∀ rules, (ruleZero s off rules v).power = s.power := fun rules => by
    unfold ruleZero
    dsimp only
    split <;> rfl
  unfold writeReg
  split
  · rfl
  · dsimp only
    split
    · rfl
    · split
      · exact (post_power ..).trans (hz _)
      · exact hz _

/-- Settles O56: each command by what it makes of the clocks. -/
theorem clocksAndDroop : Obligations.ClocksAndDroop := by
  unfold Obligations.ClocksAndDroop
  intro s
  refine ⟨fun hd hw => ⟨fun hf => ?_, fun hf => ?_⟩, fun hf hr => ⟨_, rfl, pllcLocked_runs s hf hr⟩,
    fun hw => ⟨warmIdle_yields s hw, sleepIdle_yields s hw⟩, pllcLoss_yields s, pllcWakeTimeout_yields s, fun hl => ?_, fun hd hr => ?_,
    fun hd hr => ?_, fun hd hr => ?_, fun mv hd => droopStart_skips s mv hd, fun mv cc hd => droopEnd_ends s mv cc hd,
    fun mv from' hd hm hl => droopSustained_raises s mv hd hm hl, fun fn v hw h1 h2 => ?_⟩
  · exact ⟨_, congrArg Host.Outcome.next (if_pos hd), workArrives_sleep s hw hf⟩
  · exact ⟨_, congrArg Host.Outcome.next (if_pos hd), workArrives_warm s hw hf⟩
  · refine ⟨_, rfl, pllsLost_power s, ?_⟩
    unfold coreRuns
    rw [pllsLost_power, Bool.and_false]
  · exact ⟨_, congrArg Host.Outcome.next (if_pos (by simp [hd, hr])), rfl⟩
  · obtain ⟨h1, h2, h3, h4, h5, h6⟩ := refclkLost_shows s hd hr
    have hk := refclkLost_keeps (may := { chans := true, slots := true }) rfl rfl (Keeps.rfl (s := s))
    obtain ⟨ha, hb⟩ := hk.feeds rfl
    exact ⟨_, rfl, h1, h2, h3, h4, h5, congrArg Prod.fst h6, congrArg Prod.snd h6, ha, hb, hk.rails rfl⟩
  · exact ⟨_, congrArg Host.Outcome.next (if_pos (by simp [hd, hr])), rfl, rfl⟩
  · have e : exec (.ckCtrlWrite fn 0x048 v) s = .next (writeReg s (ro pgCLK 0x48) v) :=
      congrArg Host.Outcome.next (wr_of_mayWrite s fn pgCLK 0x48 0 (fun s => writeReg s (ro pgCLK 0x48) v) hw)
    exact ⟨_, e, threshMv_writeReg s v h1 h2, writeReg_power ..⟩

end Sys2Proof.Machine
end

