-- ==== Sys2Proof/Proofs/Coefficients.lean ====
section
/-! O50. CL_DATA and the system calibration (R305 to R313). -/

namespace Sys2Proof.Machine

open Sys2Proof.Safety (Yields mayWrite mayRead)

variable (s : State)

/-! ### The end of a table page's command -/

theorem setRes_tabs (tag sct sc : Nat) (d0 d1 : Word) : (setRes s tag sct sc d0 d1).tabs = s.tabs := by
  unfold setRes
  split <;> rfl

/-- A command that ends leaves its result and nothing running; the rest of its page's engine is as before. -/
theorem tab_tabEnd (k err : Nat) : tab (tabEnd s k err) k =
    { tab s k with running := 0, lastErr := BitVec.ofNat 4 err, copy := [], tag := none } := by
  unfold tabEnd
  extract_lets x s1 s2
  have h2 : s2.tabs = s1.tabs := by
    unfold s2
    split <;> rfl
  have ht : ∀ u : State, u.tabs = s1.tabs → tab u k = tab s1 k := fun u h => by
    unfold tab
    rw [h]
  have h1 : tab s1 k = { x with running := 0, lastErr := BitVec.ofNat 4 err, copy := [], tag := none } := tab_setTab_self ..
  split
  · exact (ht _ ((setRes_tabs ..).trans h2)).trans h1
  · exact (ht _ h2).trans h1

theorem tabEnd_cal (k err : Nat) : (tabEnd s k err).cal = s.cal := cal_of_quiet (tabEnd_quiet ..)

/-! ### CL_IDX and CL_DATA -/

theorem coefIdx_coefStep : coefIdx (coefStep s) =
    if bit (getReg s (ro pgCAL 0x40)) 24 = false then coefIdx s
    else if coefIdx s = 167935 then 0 else (coefIdx s + 1) % 2 ^ 18 := by
  unfold coefStep
  split
  · next h => rw [if_pos (by simpa using h)]
  · next h =>
    rw [if_neg (by simpa using h)]
    refine (regFld_putReg_self s _ 0 18 _ (by decide)).trans ?_
    split
    · rfl
    · rfl

theorem coefStep_cal : (coefStep s).cal = s.cal := by
  unfold coefStep
  split <;> rfl

theorem coefStep_tabs : (coefStep s).tabs = s.tabs := by
  unfold coefStep
  split <;> rfl

/-- The end of a run leaves every coefficient, no run, and the error in LAST_ERR. -/
theorem scEnd_shows {q : CalRun} (h : s.cal.run = some q) (err : Nat) :
    (scEnd s err).cal = { s.cal with run := none } ∧ (tab (scEnd s err) kCL).lastErr = BitVec.ofNat 4 err := by
  unfold scEnd
  split
  · next hn => exact nomatch hn.symm.trans h
  extract_lets r x s1 _ s2
  have h1 : s1.cal = s.cal := by
    unfold s1
    split <;> rfl
  have h2 : s2.cal = { s.cal with run := none } := by
    rw [← h1]
  refine ⟨(tabEnd_cal ..).trans ?_, congrArg TabCmd.lastErr (tab_tabEnd ..)⟩
  split
  · exact h2
  · exact (post_cal ..).trans h2

theorem coef_of_cal {s t : State} (h : t.cal.coef = s.cal.coef) (i : Nat) : coef t i = coef s i := by
  unfold coef
  rw [h]

/-- A word with GAIN in range goes to its index alone; a run on that index ends. -/
theorem coef_coefWrite (v : Word) (hi : coefIdx s < coefCount) (hg : gainOk (fld v 0 16) = true) (j : Nat) :
    coef (coefWrite s v) j = if j = coefIdx s then v else coef s j := by
  unfold coefWrite
  extract_lets i s1 _ s2 s3
  have h2 : ∀ j, coef s2 j = if j = i then v else coef s j := fun j => coef_setCoef ..
  have h3 : s3 = match s2.cal.run with
      | some c => if c.idx = i then scEnd s2 4 else s2
      | none => s2 := if_neg (by
    rintro (h | h)
    · exact absurd hi (Nat.not_lt.mpr h)
    · rw [hg] at h
      exact nomatch h)
  rw [coef_of_cal (congrArg Cal.coef (coefStep_cal _)), h3]
  split
  · next c hc =>
    split
    · have h : (scEnd s2 4).cal.coef = s2.cal.coef := by rw [(scEnd_shows s2 hc 4).1]
      exact (coef_of_cal h j).trans (h2 j)
    · exact h2 j
  · exact h2 j

theorem coefWrite_refused (v : Word) (hg : gainOk (fld v 0 16) = false) :
    (coefWrite s v).cal = s.cal ∧ (coefWrite s v).tabs = s.tabs := by
  unfold coefWrite
  extract_lets i s1 _ s2 s3
  have h3 : s3 = badEncoding s pgCAL 0x44 := if_pos (.inr (by rw [hg]; rfl))
  rw [h3]
  exact ⟨(coefStep_cal _).trans (post_cal ..), (coefStep_tabs _).trans (post_tabs ..)⟩

/-! ### A run starts -/

/-- The engine of a page runs through a drop of tags while it runs a command. -/
theorem running_dropTag {k : Nat} {r : BitVec 4} (h : (tab s k).running = r) (hr : r ≠ 0) (tag : Nat) :
    (tab (dropTag s tag) k).running = r := by
  let f : TabCmd → TabCmd := fun x => if x.tag.map (·.val) == some tag then { x with tag := none } else x
  have hf : ∀ x, (f x).running = x.running := fun x => by
    unfold f
    split <;> rfl
  have hm : (dropTag s tag).tabs = (s.tabs.map (fun p => (p.1, f p.2))).filter (fun p => decide (p.2 ≠ {})) := by
    have hp : (fun p : Nat × TabCmd => if p.2.tag.map (·.val) == some tag then (p.1, { p.2 with tag := none }) else p) =
        fun p => (p.1, f p.2) := by
      funext p
      unfold f
      split <;> rfl
    rw [← hp]
    rfl
  unfold tab at h ⊢
  rw [hm]
  generalize s.tabs = l at h
  induction l with
  | nil => exact absurd h.symm hr
  | cons p l ih =>
    unfold tabGet at h
    rw [List.map_cons, List.filter_cons]
    split at h
    · next hk =>
      rw [if_pos (by
        rw [decide_eq_true_iff]
        exact fun he => hr (h.symm.trans ((hf p.2).symm.trans (congrArg TabCmd.running he))))]
      unfold tabGet
      rw [if_pos hk, hf]
      exact h
    · next hk =>
      split
      · unfold tabGet
        rw [if_neg hk]
        exact ih h
      · exact ih h

theorem running_coreRestart {k : Nat} {r : BitVec 4} (h : (tab s k).running = r) (hr : r ≠ 0) :
    (tab (coreRestart s) k).running = r := by
  unfold coreRestart
  split
  · exact h
  · extract_lets s1 _ s2
    have h2 : (tab s2 k).running = r := by
      have h1 : s1.tabs = s.tabs := post_tabs ..
      have e : s2.tabs = s1.tabs := putReg_tabs ..
      unfold tab at h ⊢
      rw [e, h1]
      exact h
    have hf : ∀ (u : State) (c : Cmd), (tab u k).running = r →
        (tab (dropTag (complete (post u pgCMDQ 3 (BitVec.ofNat 32 c.tag)) c.tag 0 8 0 0) c.tag) k).running = r := fun u c hu => by
      have ht : (complete (post u pgCMDQ 3 (BitVec.ofNat 32 c.tag)) c.tag 0 8 0 0).tabs = u.tabs := (complete_tabs ..).trans (post_tabs ..)
      generalize complete (post u pgCMDQ 3 (BitVec.ofNat 32 c.tag)) c.tag 0 8 0 0 = v at ht ⊢
      have hv : (tab v k).running = r := by
        unfold tab at hu ⊢
        rw [ht]
        exact hu
      exact running_dropTag v hv hr c.tag
    clear_value s2
    generalize s2.cmdq.cmds.filter (fun c => c.stage == .mgmt) = l
    induction l generalizing s2 with
    | nil => exact h2
    | cons c l ih => exact ih _ (hf s2 c h2)

theorem running_tab_rests (k : Nat) {r : BitVec 4} (hr : r ≠ 0) : Rests (fun u => (tab u k).running = r) where
  reeds h := h
  bore h := h
  boreReg _ _ h := h
  post {u page src d sub} h := by
    unfold tab at h ⊢
    rw [post_tabs]
    exact h
  journal h := h
  coreRestart h := running_coreRestart _ h hr

theorem dropTag_cal (tag : Nat) : (dropTag s tag).cal = s.cal :=
  Eq.trans (Eq.refl (freeTag s tag).cal) (cal_of_quiet (freeTag_quiet ..))

theorem coreRestart_cal : (coreRestart s).cal = s.cal := by
  unfold coreRestart
  split
  · rfl
  · extract_lets s1 _ s2
    have h2 : s2.cal = s.cal := Eq.trans (Eq.refl s1.cal) (post_cal ..)
    refine (foldl_part s2 (π := State.cal) (fun u c => ?_) _).trans h2
    exact (dropTag_cal ..).trans ((cal_of_quiet (complete_quiet ..)).trans (post_cal ..))

theorem cal_rests (c : Cal) : Rests (fun u => u.cal = c) where
  reeds h := h
  bore h := h
  boreReg _ _ h := h
  post h := (post_cal ..).trans h
  journal h := h
  coreRestart h := (coreRestart_cal _).trans h

/-- SC_ZERO or SC_FULL on an input that has a converter begins its run. -/
theorem scStart_runs (full : Bool) (hb : tabBusy s kCL = false) (hi : coefIdx s ≤ 98303) :
    ∃ q, (scStart s full).cal = { s.cal with run := some q } ∧ tabBusy (scStart s full) kCL = true ∧ q.full = full ∧
      q.idx = coefIdx s ∧ q.total = 2 ^ regFld s (ro pgCAL 0x4C) 0 4 ∧ q.samples = [] := by
  let q : CalRun := {
    full := full, idx := coefIdx s, total := 2 ^ regFld s (ro pgCAL 0x4C) 0 4, osr := BitVec.ofNat 3 (regFld s (ro pgCAL 0x4C) 4 3),
    since := s.now }
  let u : State := { tabStart s kCL (if full then 5 else 4) with cal := { s.cal with run := some q } }
  have e : scStart s full = calIssue u := (if_neg (by simp [hb])).trans (if_neg (Nat.not_lt.mpr hi))
  have hr : ∃ r : BitVec 4, (tab u kCL).running = r ∧ r ≠ 0 := by
    refine ⟨BitVec.ofNat 4 (if full then 5 else 4), congrArg TabCmd.running (tab_setTab_self ..), ?_⟩
    cases full <;> decide
  obtain ⟨r, hr, h0⟩ := hr
  refine ⟨q, ?_, ?_, rfl, rfl, rfl, rfl⟩
  · rw [e]
    exact (cal_rests _).calIssue rfl
  · rw [e]
    unfold tabBusy
    rw [(running_tab_rests kCL h0).calIssue hr]
    simpa using h0

/-- On any other input it ends at once with 6. -/
theorem scStart_refused (full : Bool) (hb : tabBusy s kCL = false) (hi : 98303 < coefIdx s) :
    (scStart s full).cal = s.cal ∧ (tab (scStart s full) kCL).lastErr = 6 := by
  let u := post (tabStart s kCL (if full then 5 else 4)) pgCAL 0 (scDetail 6 (coefIdx s))
  have e : scStart s full = tabEnd u kCL 6 := (if_neg (by simp [hb])).trans (if_pos hi)
  rw [e]
  exact ⟨(tabEnd_cal ..).trans ((post_cal ..).trans rfl), congrArg TabCmd.lastErr (tab_tabEnd ..)⟩

/-! ### A run ends -/

section
variable {q : CalRun} (hq : s.cal.run = some q)
include hq

theorem scDone_waits (ho : q.ovr = false) (hl : q.samples.length < q.total) : scDone s q.idx q.full = s := by
  unfold scDone
  rw [hq]
  exact if_pos (by simp [ho, hl])

/-- A run that is over, with what it makes of its coefficient. -/
theorem scDone_ends (h : q.ovr = true ∨ q.total ≤ q.samples.length) : ∃ u : State, u.cal = s.cal ∧ u.tabs = s.tabs ∧
    scDone s q.idx q.full =
      match scResult (coef s q.idx) q.full (signed 24 (regFld s (ro pgCAL 0x50) 0 24)) q.samples q.ovr with
      | .inl w => scEnd (setCoef u q.idx w) 0
      | .inr e => scEnd u e := by
  refine ⟨setReg s (ro pgCAL 0x58) (pack [(0, 24, spreadOf q.samples), (24, 8, q.idx)]), rfl, rfl, ?_⟩
  unfold scDone
  rw [hq]
  have hreg : ∀ w, regFld (setReg s (ro pgCAL 0x58) w) (ro pgCAL 0x50) 0 24 = regFld s (ro pgCAL 0x50) 0 24 := fun w =>
    regFld_of_getReg (getReg_setReg_other _ _ _ _ (by decide)) 0 24
  refine (if_neg ?_).trans ?_
  · rcases h with h | h
    · simp [h]
    · simp
      omega
  · dsimp only
    rw [hreg]
    rfl

/-- A run that succeeds sets its coefficient alone. -/
theorem scDone_sets (ho : q.ovr = false) (hl : q.total ≤ q.samples.length) {w : Word}
    (hw : scResult (coef s q.idx) q.full (signed 24 (regFld s (ro pgCAL 0x50) 0 24)) q.samples false = .inl w) :
    (scDone s q.idx q.full).cal.run = none ∧ (tab (scDone s q.idx q.full) kCL).lastErr = 0 ∧
    ∀ k, coef (scDone s q.idx q.full) k = if k = q.idx then w else coef s k := by
  obtain ⟨u, hu, -, e⟩ := scDone_ends s hq (.inr hl)
  rw [ho, hw] at e
  have hrun : (setCoef u q.idx w).cal.run = some q := by
    change u.cal.run = some q
    rw [hu, hq]
  obtain ⟨hc, hl⟩ := scEnd_shows (setCoef u q.idx w) hrun 0
  rw [e]
  refine ⟨by rw [hc], hl, fun k => ?_⟩
  have hcoef : (scEnd (setCoef u q.idx w) 0).cal.coef = (setCoef u q.idx w).cal.coef := by rw [hc]
  rw [coef_of_cal hcoef, coef_setCoef, coef_of_cal (congrArg Cal.coef hu)]

/-- A run that met an over-range ends with 5 and leaves its coefficient. -/
theorem scDone_over (ho : q.ovr = true) : (scDone s q.idx q.full).cal.run = none ∧
    (tab (scDone s q.idx q.full) kCL).lastErr = 5 ∧ (scDone s q.idx q.full).cal.coef = s.cal.coef := by
  obtain ⟨u, hu, -, e⟩ := scDone_ends s hq (.inl ho)
  have hr : scResult (coef s q.idx) q.full (signed 24 (regFld s (ro pgCAL 0x50) 0 24)) q.samples q.ovr = .inr 5 := if_pos ho
  rw [hr] at e
  obtain ⟨hc, hl⟩ := scEnd_shows u (hu ▸ hq) 5
  rw [e]
  refine ⟨?_, hl, ?_⟩
  · rw [hc]
  · rw [hc, hu]

theorem clScUrgentTimeout_ends
    (hw : (reed s (scReed q.idx)).heldOff = true ∨ ((reed s (scReed q.idx)).urgent ≠ none ∧ (reed s (scReed q.idx)).urgCal = false))
    (hn : q.since + 12000000 ≤ s.now) : Yields .clScUrgentTimeout s fun t =>
      t.cal.run = none ∧ (tab t kCL).lastErr = 7 ∧ t.cal.coef = s.cal.coef := by
  obtain ⟨hc, hl⟩ := scEnd_shows s hq 7
  refine ⟨scEnd s 7, ?_, by rw [hc], hl, by rw [hc]⟩
  change execClScUrgentTimeout s = _
  unfold execClScUrgentTimeout
  rw [hq]
  refine if_pos ?_
  rcases hw with hw | ⟨h1, h2⟩
  · simp [hw, hn]
  · rw [Option.isSome_iff_ne_none.mpr h1, h2]
    simp [hn]

end

/-- A zero run within 16 bits sets OFFSET alone. -/
theorem scResult_zero (old : Word) (reference : Int) (l : List Int)
    (h1 : -32768 ≤ roundDiv (l.foldl (· + ·) 0) (max l.length 1)) (h2 : roundDiv (l.foldl (· + ·) 0) (max l.length 1) ≤ 32767) :
    scResult old false reference l false = .inl (put old 16 16 (unsigned 16 (roundDiv (l.foldl (· + ·) 0) (max l.length 1)))) := by
  unfold scResult
  dsimp only
  rw [if_neg Bool.false_ne_true, if_pos (by decide), if_neg (by omega)]

/-- Settles O50: the accesses of CL_DATA by the table of coefficients, a run by how it ends. -/
theorem coefficients : Obligations.Coefficients := by
  unfold Obligations.Coefficients
  intro s fn i
  refine ⟨fun h => ?_, fun v h => ⟨fun hi hg => ?_, fun hg => ?_⟩, fun c full hc h hb => ⟨fun hi => ?_, fun hi => ?_⟩, fun q idx hq hidx => ?_⟩
  · exact ⟨_, congrArg Host.Outcome.next (rd_of_mayRead s fn _ _ _ h), rfl, coefStep_cal s, coefIdx_coefStep s⟩
  · exact ⟨_, congrArg Host.Outcome.next (wr_of_mayWrite s fn _ _ _ _ h), coef_coefWrite s v hi hg⟩
  · exact ⟨_, congrArg Host.Outcome.next (wr_of_mayWrite s fn _ _ _ _ h), coefWrite_refused s v hg⟩
  · obtain ⟨q, hcal, hbusy, hf, hx, ht, hs⟩ := scStart_runs s full hb hi
    have e : exec c s = .next (scStart s full) := by
      rcases hc with ⟨rfl, rfl⟩ | ⟨rfl, rfl⟩
      · exact congrArg Host.Outcome.next (wr_of_mayWrite s fn _ _ _ _ h)
      · exact congrArg Host.Outcome.next (wr_of_mayWrite s fn _ _ _ _ h)
    exact ⟨_, e, hbusy, by rw [hcal], q, by rw [hcal], hf, hx, ht, hs⟩
  · have e : exec c s = .next (scStart s full) := by
      rcases hc with ⟨rfl, rfl⟩ | ⟨rfl, rfl⟩
      · exact congrArg Host.Outcome.next (wr_of_mayWrite s fn _ _ _ _ h)
      · exact congrArg Host.Outcome.next (wr_of_mayWrite s fn _ _ _ _ h)
    exact ⟨_, e, scStart_refused s full hb hi⟩
  · have e : exec (.clScDone idx q.full) s = .next (scDone s q.idx q.full) := by rw [← hidx]; rfl
    refine ⟨fun ho hl => ⟨_, e, scDone_waits s hq ho hl⟩, fun ho => ⟨_, e, scDone_over s hq ho⟩, fun ho hl => ?_,
      fun hw hn => clScUrgentTimeout_ends s hq hw hn⟩
    refine ⟨fun hf h1 h2 => ?_, fun w hf hw => ?_⟩
    · obtain ⟨hrun, herr, hcoef⟩ := scDone_sets s hq ho hl (by rw [hf]; exact scResult_zero _ _ _ h1 h2)
      refine ⟨_, e, hrun, herr, ?_, ?_, fun k hk => (hcoef k).trans (if_neg hk)⟩
      · rw [hcoef, if_pos rfl, fld_put_self _ _ _ _ (by decide)]
        exact Nat.mod_eq_of_lt (by unfold unsigned; omega)
      · rw [hcoef, if_pos rfl, fld_put_below _ _ _ _ _ _ (by decide)]
    · obtain ⟨hrun, herr, hcoef⟩ := scDone_sets s hq ho hl (by rw [hf]; exact hw)
      exact ⟨_, e, hrun, herr, (hcoef _).trans (if_pos rfl), fun k hk => (hcoef k).trans (if_neg hk)⟩

end Sys2Proof.Machine
end

