-- ==== Sys2Proof/Proofs/Meters.lean ====
section
/-! O51. The meter commands of the feed die (R314 to R323). -/

namespace Sys2Proof.Machine

open Sys2Proof.Safety (Yields SameFeedGates)

variable (s : State)

/-! ### What a message of any page leaves -/

section
variable {β : Type} {π : State → β} (hr : ∀ s v, π { s with regs := v } = π s) (hi : ∀ s v, π { s with idl := v } = π s)
    (hh : ∀ s v, π { s with host := v } = π s) (hb : ∀ s v, π { s with bell := v } = π s)
    (hf : ∀ s v, π { s with fd := { s.fd with held := v } } = π s) (hm : ∀ s a n, π { s with msgAt := a, msgNow := n } = π s)
include hr hi hh hb hf hm

omit hh hb hm in
theorem feedMsg_part (m : Msg) : π (feedMsg s m) = π s := by
  have hs : ∀ (u : State) f, π (sendToDrive u f) = π u := fun u f => by
    unfold sendToDrive
    split
    · exact hi ..
    · rfl
  unfold feedMsg
  extract_lets u h _ v
  have hu : π u = π s := hr ..
  split
  · exact (hs ..).trans ((hs ..).trans hu)
  · split
    · exact (hr v _).trans ((hf ..).trans hu)
    · exact (hf ..).trans hu

theorem postAs_anyPart (page src cls sub : Nat) (d : Word) : π (postAs s page src cls sub d) = π s := by
  by_cases hp : isFeedPage page = true
  · unfold postAs
    split
    · rfl
    · extract_lets inj m _ s1
      have h1 : π s1 = π s := by
        unfold s1
        split
        · exact hb ..
        · rfl
      rw [feedMsg_part _ hr hi hf]
      exact (hm ..).trans h1
  · exact postAs_part s hh hr hb hm (by simpa using hp) ..

theorem writeReg_anyPart (off : Nat) (v : Word) : π (writeReg s off v) = π s := by
  unfold writeReg
  split
  · rfl
  · split
    · rfl
    · extract_lets _ w u old t
      have hu : π u = π s := by
        unfold u ruleZero
        dsimp only
        split
        · rfl
        · exact hr ..
      have ht : π t = π s := (hr ..).trans hu
      split
      · exact (postAs_anyPart t hr hi hh hb hf hm ..).trans ht
      · exact ht

end

theorem writeReg_unheld (off : Nat) (v : Word) : (writeReg s off v).fd.unheld = s.fd.unheld :=
  writeReg_anyPart s (π := fun u => u.fd.unheld) (fun _ _ => rfl) (fun _ _ => rfl) (fun _ _ => rfl) (fun _ _ => rfl) (fun _ _ => rfl)
    (fun _ _ _ => rfl) ..

/-- The feeds and the rails. -/
def gates (s : State) : FeedSt × FeedSt × RailSeq := (s.feedA, s.feedB, s.rails)

theorem gates_post (page src : Nat) (d : Word) (sub : Nat) : gates (post s page src d sub) = gates s :=
  postAs_anyPart s (π := gates) (fun _ _ => rfl) (fun _ _ => rfl) (fun _ _ => rfl) (fun _ _ => rfl) (fun _ _ => rfl) (fun _ _ _ => rfl) ..

theorem sameFeedGates_of_gates {s t : State} (h : gates t = gates s) : SameFeedGates s t :=
  ⟨congrArg (·.1) h, congrArg (·.2.1) h, congrArg (·.2.2) h⟩

theorem gates_setReg (off : Nat) (v : Word) : gates (setReg s off v) = gates s := by
  unfold gates
  rw [setReg_feedA, setReg_feedB, setReg_rails]

theorem gates_putReg (off lo n v : Nat) : gates (putReg s off lo n v) = gates s := gates_setReg ..

theorem gates_setFd (d : FeedDie) : gates { s with fd := d } = gates s := rfl

theorem gates_writeReg (off : Nat) (v : Word) : gates (writeReg s off v) = gates s :=
  writeReg_anyPart s (π := gates) (fun _ _ => rfl) (fun _ _ => rfl) (fun _ _ => rfl) (fun _ _ => rfl) (fun _ _ => rfl) (fun _ _ _ => rfl) ..

/-! ### The end of a period -/

/-- The result register of a channel at the end of a period. -/
def resWord (s : State) (raw : List Int) (ovr : BitVec 8) (opens c : Nat) : Word :=
  pack [(0, 22, unsigned 22 (meterCode (mtCoef s c) ((raw[c]?).getD 0) (ovr.getLsbD c))), (24, 1, b2n (ovr.getLsbD c)),
    (25, 1, b2n (opens.testBit c))]

theorem resWord_fields (raw : List Int) (ovr : BitVec 8) (opens c : Nat) :
    fld (resWord s raw ovr opens c) 0 22 = unsigned 22 (meterCode (mtCoef s c) ((raw[c]?).getD 0) (ovr.getLsbD c)) ∧
      bit (resWord s raw ovr opens c) 24 = ovr.getLsbD c := by
  unfold resWord pack
  simp only [List.foldl_cons, List.foldl_nil]
  constructor
  · rw [fld_put_below _ _ _ _ _ _ (by decide), fld_put_below _ _ _ _ _ _ (by decide), fld_put_self _ _ _ _ (by decide)]
    unfold unsigned
    omega
  · refine b2n_inj ?_
    rw [← fld_one, fld_put_below _ _ _ _ _ _ (by decide), fld_put_self _ _ _ _ (by decide)]
    cases ovr.getLsbD c <;> rfl

theorem mtRes_inj {c d : Nat} (h : mtRes c = mtRes d) : c = d := by
  unfold mtRes ro at h
  omega

section
variable (raw : List Int) (ovr : BitVec 8) (opens : Nat)

/-- The results of the channels of a list are written. -/
def writeResults (s : State) (l : List Nat) : State := l.foldl (fun s c => setReg s (mtRes c) (resWord s raw ovr opens c)) s

theorem writeResults_fd (l : List Nat) : (writeResults raw ovr opens s l).fd = s.fd := by
  unfold writeResults
  refine foldl_part s (π := State.fd) (fun u c => ?_) l
  exact setReg_fd ..

theorem writeResults_gates (l : List Nat) : gates (writeResults raw ovr opens s l) = gates s := by
  unfold writeResults
  refine foldl_part s (π := gates) (fun u c => ?_) l
  rfl

theorem getReg_writeResults_other (l : List Nat) {off : Nat} (h : ∀ c ∈ l, off ≠ mtRes c) :
    getReg (writeResults raw ovr opens s l) off = getReg s off := by
  induction l generalizing s with
  | nil => rfl
  | cons c l ih =>
    exact (ih _ fun d hd => h d (List.mem_cons_of_mem _ hd)).trans (getReg_setReg_other _ _ _ _ (h c List.mem_cons_self))

theorem getReg_writeResults (l : List Nat) {c : Nat} (h : c ∈ l) :
    getReg (writeResults raw ovr opens s l) (mtRes c) = resWord s raw ovr opens c := by
  induction l generalizing s with
  | nil => exact nomatch h
  | cons d l ih =>
    by_cases hl : c ∈ l
    · exact (ih _ hl).trans rfl
    · obtain rfl : c = d := by
        rcases List.mem_cons.mp h with h | h
        · exact h
        · exact absurd h hl
      refine (getReg_writeResults_other _ raw ovr opens l fun e he hr => hl ?_).trans (getReg_setReg_self ..)
      rw [mtRes_inj hr]
      exact he

end

/-- The coefficients that the next period uses. -/
theorem tabGet_cals (c : Nat) (l : List Nat) (t : Tab Word) :
    tabGet (fun _ => identity) (l.foldl (fun t c => tabSet (fun _ => identity) t c (getReg s (mtCal c))) t) c =
      if c ∈ l then getReg s (mtCal c) else tabGet (fun _ => identity) t c := by
  induction l generalizing t with
  | nil => rfl
  | cons d l ih =>
    rw [List.foldl_cons, ih, tabGet_tabSet]
    by_cases hl : c ∈ l
    · rw [if_pos hl, if_pos (List.mem_cons_of_mem _ hl)]
    · rw [if_neg hl]
      by_cases hd : c = d
      · rw [if_pos hd, if_pos (by rw [hd]; exact List.mem_cons_self), hd]
      · rw [if_neg hd, if_neg (by simp [hd, hl])]

/-- The registers of the METER page at the end of a period, the results in `u` written. -/
def periodRegs (s u : State) (ovr : BitVec 8) (opens : Nat) : State :=
  setReg (setReg (setReg (setReg u (ro pgMETER 0x48)
    (pack [(0, 16, regFld s (ro pgMETER 0x48) 0 16 + 1), (16, 8, ovr.toNat), (24, 8, opens)]))
    (ro pgMETER 0x70) (BitVec.ofNat 32 (meanMw s.fd.pSumA s.fd.pCount)))
    (ro pgMETER 0x74) (BitVec.ofNat 32 (meanMw s.fd.pSumB s.fd.pCount)))
    (ro pgMETER 0x78) (BitVec.ofNat 32 (meanMw s.fd.pSumIb s.fd.pCount))

/-- The feed die when the next period begins. -/
def nextPeriod (u : State) (l : List Nat) : FeedDie :=
  { u.fd with
    pSumA := 0, pSumB := 0, pSumIb := 0, pCount := 0, fresh := true
    calInForce := l.foldl (fun t c => tabSet (fun _ => identity) t c (getReg u (mtCal c))) []
    periodSel := BitVec.ofNat 2 (regFld u (ro pgMETER 0x40) 0 2), periodMs := BitVec.ofNat 10 (regFld u (ro pgMETER 0x44) 0 10) }

section
variable (u : State) (raw : List Int) (ovr halves : BitVec 8) (opens : Nat)


theorem periodRegs_gates : gates (periodRegs s u ovr opens) = gates u := by
  unfold periodRegs gates
  simp only [setReg_feedA, setReg_feedB, setReg_rails]

/-- The end of a period writes nothing else of the page. -/
theorem getReg_periodRegs_other {o : Nat} (h : o < 0x48 ∨ 0x48 < o ∧ o < 0x70 ∨ 0x78 < o) :
    getReg (periodRegs s u ovr opens) (ro pgMETER o) = getReg u (ro pgMETER o) := by
  unfold periodRegs
  have hn : ∀ p, p = 0x48 ∨ 0x70 ≤ p ∧ p ≤ 0x78 → ro pgMETER o ≠ ro pgMETER p := fun p hp => by
    unfold ro
    omega
  rw [getReg_setReg_other _ _ _ _ (hn _ (by decide)), getReg_setReg_other _ _ _ _ (hn _ (by decide)),
    getReg_setReg_other _ _ _ _ (hn _ (by decide)), getReg_setReg_other _ _ _ _ (hn _ (by decide))]

theorem getReg_periodRegs_seq : regFld (periodRegs s u ovr opens) (ro pgMETER 0x48) 0 16 =
    (regFld s (ro pgMETER 0x48) 0 16 + 1) % 65536 := by
  unfold periodRegs regFld
  rw [getReg_setReg_other _ _ _ _ (by decide), getReg_setReg_other _ _ _ _ (by decide), getReg_setReg_other _ _ _ _ (by decide),
    getReg_setReg_self]
  simp only [pack, List.foldl_cons, List.foldl_nil]
  rw [fld_put_below _ _ _ _ _ _ (by decide), fld_put_below _ _ _ _ _ _ (by decide), fld_put_self _ _ _ _ (by decide)]
  rfl

theorem getReg_periodRegs_mean : getReg (periodRegs s u ovr opens) (ro pgMETER 0x70) =
    BitVec.ofNat 32 (meanMw s.fd.pSumA s.fd.pCount) := by
  unfold periodRegs
  rw [getReg_setReg_other _ _ _ _ (by decide), getReg_setReg_other _ _ _ _ (by decide), getReg_setReg_self]

theorem periodEnd_of (h : s.fd.supply = true) : ∃ opens u, u = writeResults raw ovr opens s (List.range 8) ∧
    (periodEnd s raw ovr halves).fd.unheld = (nextPeriod (periodRegs s u ovr opens) (List.range 8)).unheld ∧ gates (periodEnd s raw ovr halves) = gates u ∧
      ∀ off, unmarked? off = true → getReg (periodEnd s raw ovr halves) off = getReg (periodRegs s u ovr opens) off := by
  unfold periodEnd
  rw [if_neg (by simp [h])]
  generalize List.range 8 = l
  extract_lets osw openOf opens newOpen stat newOvr s1 s2 n s3 s4 s5 cals _ s6 s7
  have h1 : s1 = writeResults raw ovr opens s l := rfl
  have hs : fld stat 0 16 = regFld s (ro pgMETER 0x48) 0 16 := rfl
  clear_value stat
  have hf : s1.fd = s.fd := by rw [h1, writeResults_fd]
  clear_value s1
  have h5 : s5 = periodRegs s s1 ovr opens := by
    have f2 : s2.fd = s.fd := (setReg_fd ..).trans hf
    have f3 : s3.fd = s.fd := (setReg_fd ..).trans f2
    have f4 : s4.fd = s.fd := (setReg_fd ..).trans f3
    unfold s5 n
    rw [f4, f2]
    unfold s4 n
    rw [f3, f2]
    unfold s3 n
    rw [f2]
    unfold s2 periodRegs
    rw [← hs]
  have h6 : s6 = { s5 with fd := nextPeriod s5 l } := rfl
  have h7 : s7.fd.unheld = s6.fd.unheld ∧ gates s7 = gates s6 ∧ ∀ off, unmarked? off = true → getReg s7 off = getReg s6 off := by
    unfold s7
    refine ⟨foldl_part s6 (π := fun v => v.fd.unheld) (fun v c => post_unheld ..) _,
      foldl_part s6 (π := gates) (fun v c => gates_post ..) _, fun off ho => ?_⟩
    exact foldl_part s6 (π := fun v => getReg v off) (fun v c => getReg_post _ ho ..) _
  refine ⟨opens, s1, h1, ?_⟩
  have h5g : gates s5 = gates s1 := (congrArg gates h5).trans (periodRegs_gates ..)
  rw [← h5]
  clear_value s7 s5
  obtain ⟨ha, hb, hc⟩ := h7
  have hd : s6.fd.unheld = (nextPeriod s5 l).unheld := congrArg (fun v : State => v.fd.unheld) h6
  have he : gates s6 = gates s1 := (congrArg gates h6).trans ((gates_setFd ..).trans h5g)
  have hg : ∀ off, getReg s6 off = getReg s5 off := fun off => getReg_of_regs (by rw [h6]) off
  split
  · exact ⟨(post_unheld ..).trans (ha.trans hd), (gates_post ..).trans (hb.trans he),
      fun off ho => (getReg_post _ ho ..).trans ((hc off ho).trans (hg off))⟩
  · exact ⟨ha.trans hd, hb.trans he, fun off ho => (hc off ho).trans (hg off)⟩

end

theorem periodEnd_yields (raw : List Int) (ovr halves : BitVec 8) (h : s.fd.supply = true) :
    Yields (.meterPeriodEnd raw ovr halves) s fun t => SameFeedGates s t ∧ t.fd.energyA = s.fd.energyA ∧
      (∀ c, c < 8 → regFld t (mtRes c) 0 22 = unsigned 22 (meterCode (mtCoef s c) ((raw[c]?).getD 0) (ovr.getLsbD c)) ∧
        bit (getReg t (mtRes c)) 24 = ovr.getLsbD c ∧ mtCoef t c = getReg s (mtCal c)) ∧
      regFld t (ro pgMETER 0x48) 0 16 = (regFld s (ro pgMETER 0x48) 0 16 + 1) % 65536 ∧
      getReg t (ro pgMETER 0x70) = BitVec.ofNat 32 (meanMw s.fd.pSumA s.fd.pCount) ∧ t.fd.pCount = 0 ∧
      t.fd.periodMs.toNat = regFld s (ro pgMETER 0x44) 0 10 := by
  refine ⟨_, rfl, ?_⟩
  obtain ⟨opens, u, hu, hf, hg, hr⟩ := periodEnd_of s raw ovr halves h
  have huf : u.fd = s.fd := hu ▸ writeResults_fd ..
  have hug : gates u = gates s := hu ▸ writeResults_gates ..
  have hun : ∀ {c o}, c < 8 → (o < 0x48 ∨ 0x78 < o) → getReg u (ro pgMETER o) = getReg s (ro pgMETER o) := fun {c o} _ ho => by
    rw [hu]
    exact getReg_writeResults_other _ _ _ _ _ fun c hc => by
      have := List.mem_range.mp hc
      unfold mtRes ro
      omega
  generalize periodEnd s raw ovr halves = t at *
  have hcal : ∀ c, c < 8 → getReg (periodRegs s u ovr opens) (mtCal c) = getReg s (mtCal c) := fun c hc =>
    (getReg_periodRegs_other _ _ _ _ (by omega)).trans (hun hc (by omega))
  have hres : ∀ c, c < 8 → getReg t (mtRes c) = resWord s raw ovr opens c := fun c hc => by
    rw [hr _ ?_, getReg_periodRegs_other _ _ _ _ (by omega), hu]
    · exact getReg_writeResults _ _ _ _ _ (List.mem_range.mpr hc)
    · revert c; decide
  have hin : t.fd.calInForce = (nextPeriod (periodRegs s u ovr opens) (List.range 8)).calInForce :=
    (congrArg FeedDie.calInForce hf :)
  have hen : t.fd.energyA = u.fd.energyA := (congrArg FeedDie.energyA hf :)
  have hms : t.fd.periodMs = (nextPeriod (periodRegs s u ovr opens) (List.range 8)).periodMs := (congrArg FeedDie.periodMs hf :)
  refine ⟨sameFeedGates_of_gates (hg.trans hug), hen.trans (congrArg FeedDie.energyA huf), fun c hc => ⟨?_, ?_, ?_⟩,
    (regFld_of_getReg (hr _ (by decide)) ..).trans (getReg_periodRegs_seq ..), (hr _ (by decide)).trans (getReg_periodRegs_mean ..),
    (congrArg FeedDie.pCount hf :), ?_⟩
  · unfold regFld
    rw [hres c hc]
    exact (resWord_fields ..).1
  · rw [hres c hc]
    exact (resWord_fields ..).2
  · unfold mtCoef
    rw [hin]
    exact (tabGet_cals ..).trans ((if_pos (List.mem_range.mpr hc)).trans (hcal c hc))
  · rw [hms, ← regFld_of_getReg (hun (c := 0) (by decide) (by decide) : getReg u (ro pgMETER 0x44) = _),
      ← regFld_of_getReg (getReg_periodRegs_other s u ovr opens (by decide))]
    exact Nat.mod_eq_of_lt (fld_lt _ 0 10)

/-! ### Samples, settings and calibration -/

section
variable (a b ib : VI)

theorem measured_leaves (f : Feed) (x : VI) : (measured s f x).fd = s.fd ∧ gates (measured s f x) = gates s ∧
    ∀ off, off ≠ ro (pgFEED f) 0x60 → getReg (measured s f x) off = getReg s off := by
  unfold measured
  refine ⟨calmI_fd .., ?_, fun off h => ?_⟩
  · unfold calmI
    dsimp only
    split
    · exact (gates_putReg ..).trans (gates_putReg ..)
    · exact (gates_putReg ..).trans ((gates_putReg ..).trans (gates_putReg ..))
  · rw [getReg_calmI _ f h]
    exact (getReg_putReg_other _ _ _ _ _ _ h).trans (getReg_putReg_other _ _ _ _ _ _ h)

theorem permilleNow_leaves (ia ib : Int) : (permilleNow s ia ib).fd = s.fd ∧ gates (permilleNow s ia ib) = gates s ∧
    ∀ off, off ≠ ro pgSHARE 0x48 → getReg (permilleNow s ia ib) off = getReg s off := by
  unfold permilleNow
  dsimp only
  split
  · exact ⟨rfl, rfl, fun _ _ => rfl⟩
  · exact ⟨rfl, gates_putReg .., fun off h => getReg_putReg_other _ _ _ _ _ _ h⟩

theorem powerSample_of (h : s.fd.supply = true) : ∃ u : State, u.fd = s.fd ∧ gates u = gates s ∧
    (∀ off, off ≠ ro 0x101 0x60 → off ≠ ro 0x102 0x60 → off ≠ ro pgSHARE 0x48 → getReg u off = getReg s off) ∧
    powerSample s a b ib = (let a := viCorrected s 0 1 a
      let b := viCorrected s 2 3 b
      let ib := viCorrected s 4 5 ib
      let ea := addEnergy s.fd.energyA s.fd.remA (feedPower a)
      let eb := addEnergy s.fd.energyB s.fd.remB (feedPower b)
      let ei := addEnergy s.fd.energyIb s.fd.remIb (ibPower ib)
      shareErrHolds
        { u with
          fd := { u.fd with
            pSumA := u.fd.pSumA + feedPower a, pSumB := u.fd.pSumB + feedPower b, pSumIb := u.fd.pSumIb + ibPower ib,
            pCount := u.fd.pCount + 1,
            energyA := ea.1, remA := ea.2, energyB := eb.1, remB := eb.2, energyIb := ei.1, remIb := ei.2 } }) := by
  unfold powerSample
  rw [if_neg (by simp [h])]
  extract_lets xa xb xi ea eb ei u
  obtain ⟨fa, ga, ra⟩ := measured_leaves s .a xa
  obtain ⟨fb, gb, rb⟩ := measured_leaves (measured s .a xa) .b xb
  obtain ⟨fu, gu, ru⟩ := permilleNow_leaves (measured (measured s .a xa) .b xb) xa.i xb.i
  exact ⟨u, fu.trans (fb.trans fa), gu.trans (gb.trans ga),
    fun off h1 h2 h3 => (ru off h3).trans ((rb off h2).trans (ra off h1)), rfl⟩

theorem powerSample_yields (h : s.fd.supply = true) :
    let pa := (feedPower (viCorrected s 0 1 a)).toNat
    let pb := (feedPower (viCorrected s 2 3 b)).toNat
    let pi := (ibPower (viCorrected s 4 5 ib)).toNat
    Yields (.powerSample a b ib) s fun t => SameFeedGates s t ∧
      (∀ off, off ≠ ro 0x101 0x60 → off ≠ ro 0x102 0x60 → off ≠ ro pgSHARE 0x48 → getReg t off = getReg s off) ∧
      t.fd.energyA = (s.fd.energyA + (s.fd.remA + pa) / 51200000000) % 2 ^ 64 ∧ t.fd.remA = (s.fd.remA + pa) % 51200000000 ∧
      t.fd.energyB = (s.fd.energyB + (s.fd.remB + pb) / 51200000000) % 2 ^ 64 ∧ t.fd.remB = (s.fd.remB + pb) % 51200000000 ∧
      t.fd.energyIb = (s.fd.energyIb + (s.fd.remIb + pi) / 51200000000) % 2 ^ 64 ∧ t.fd.remIb = (s.fd.remIb + pi) % 51200000000 ∧
      t.fd.pSumA = s.fd.pSumA + feedPower (viCorrected s 0 1 a) ∧ t.fd.pCount = s.fd.pCount + 1 := by
  obtain ⟨u, hf, hg, hr, he⟩ := powerSample_of s a b ib h
  refine ⟨_, congrArg Host.Outcome.next he, ?_⟩
  exact ⟨sameFeedGates_of_gates ((gates_setFd ..).trans ((gates_setFd ..).trans hg)),
    fun off h1 h2 h3 => (getReg_of_regs rfl off).trans (hr off h1 h2 h3), rfl, rfl, rfl, rfl, rfl, rfl,
    congrArg (fun d : FeedDie => d.pSumA + _) hf, congrArg (fun d : FeedDie => d.pCount + 1) hf⟩

end

theorem mtPeriodWrite_yields (v : Word) (h : s.fd.supply = true) (h1 : 1 ≤ fld v 0 10) (h2 : fld v 0 10 ≤ 1000) :
    Yields (.mtPeriodWrite 0x044 v) s fun t =>
      regFld t (ro pgMETER 0x44) 0 10 = fld v 0 10 ∧ t.fd.periodMs = s.fd.periodMs ∧ SameFeedGates s t := by
  have he : exec (.mtPeriodWrite 0x044 v) s = .next (writeReg s (ro pgMETER 0x44) v) := by
    unfold exec execMtPeriodWrite meterWrite
    dsimp only
    rw [if_pos ⟨h, Or.inr rfl⟩, if_neg (fun hc => absurd hc.1 (by decide)), if_neg (fun hc => absurd hc.1 (by decide))]
    rfl
  refine ⟨_, he, ?_, (congrArg FeedDie.periodMs (writeReg_unheld s _ v) :), sameFeedGates_of_gates (gates_writeReg ..)⟩
  refine regFld_writeReg s (show regRow (ro pgMETER 0x44) = some _ by rfl) rfl (by decide) (by decide) (by decide) ?_
  simp
  omega

theorem energyRead_yields (p : Fin 3) (h : s.fd.supply = true) :
    Yields (.mtELoRead p) s fun t => t.host.rdata = BitVec.ofNat 32 (energyOf s p.val) ∧
      tabGet (fun _ => (0 : Word)) t.fd.eShadow p.val = BitVec.ofNat 32 (energyOf s p.val / 2 ^ 32) ∧ t.regs = s.regs ∧
      SameFeedGates s t := by
  refine ⟨_, congrArg Host.Outcome.next (if_pos h), rfl, ?_, rfl, rfl, rfl, rfl⟩
  dsimp only [answer, energyLoRead]
  rw [tabGet_tabSet_self]

theorem energyClear_yields (m : BitVec 3) (h : s.fd.supply = true) :
    Yields (.mtEClr m) s fun t => regFld t (ro pgMETER 0x40) 9 3 = m.toNat ∧ SameFeedGates s t ∧
      ∀ p : Fin 3, energyOf t p.val = if m.getLsbD p.val then 0 else energyOf s p.val := by
  have hr : ∀ u : State, (energyClear u m.toNat).regs = u.regs := fun _ => rfl
  refine ⟨_, congrArg Host.Outcome.next (if_pos h), ?_, ⟨rfl, rfl, rfl⟩, fun p => ?_⟩
  · rw [regFld_of_getReg (getReg_of_regs (hr _) _), regFld_putReg_self _ _ _ _ _ (by decide)]
    exact Nat.mod_eq_of_lt m.isLt
  · match p with
    | 0 => rfl
    | 1 => rfl
    | 2 => rfl

theorem mtScFail_leaves (err c : Nat) : (mtScFail s err c).fd.unheld = s.fd.unheld ∧ gates (mtScFail s err c) = gates s ∧
    ∀ off, unmarked? off = true → getReg (mtScFail s err c) off = getReg s off :=
  ⟨post_unheld .., gates_post .., fun _ h => getReg_post _ h ..⟩

theorem mtScStat_shows (busy : Bool) (err c : Nat) (h : err < 16) : bit (getReg (mtScStat s busy err c) (ro pgMETER 0xC8)) 0 = busy ∧
    regFld (mtScStat s busy err c) (ro pgMETER 0xC8) 1 4 = err := by
  unfold mtScStat regFld
  rw [getReg_setReg_self]
  unfold pack
  simp only [List.foldl_cons, List.foldl_nil]
  constructor
  · refine b2n_inj ?_
    rw [← fld_one, fld_put_below _ _ _ _ _ _ (by decide), fld_put_below _ _ _ _ _ _ (by decide), fld_put_self _ _ _ _ (by decide)]
    cases busy <;> rfl
  · rw [fld_put_below _ _ _ _ _ _ (by decide), fld_put_self _ _ _ _ (by decide)]
    exact Nat.mod_eq_of_lt h

theorem mtScStart_free (c : Nat) (full : Bool) (n : Nat) (h : s.fd.supply = true) (hn : s.fd.mtSc = none) :
    (mtScStart s c full n).fd.mtSc = some (c, full, max n 1) ∧ bit (getReg (mtScStart s c full n) (ro pgMETER 0xC8)) 0 = true ∧
      SameFeedGates s (mtScStart s c full n) := by
  unfold mtScStart
  rw [if_neg (by simp [h]), if_neg (by simp [hn])]
  exact ⟨rfl, (mtScStat_shows _ _ _ _ (by decide)).1, rfl, rfl, rfl⟩

theorem mtScStart_busy (c : Nat) (full : Bool) (n : Nat) (h : s.fd.supply = true) (hn : s.fd.mtSc ≠ none) :
    (mtScStart s c full n).fd.mtSc = s.fd.mtSc ∧ regFld (mtScStart s c full n) (ro pgMETER 0xC8) 1 4 = 4 ∧
      SameFeedGates s (mtScStart s c full n) := by
  unfold mtScStart
  rw [if_neg (by simp [h]), if_pos (Option.isSome_iff_ne_none.mpr hn)]
  obtain ⟨hf, hg, hr⟩ := mtScFail_leaves (putReg s (ro pgMETER 0xC8) 1 4 4) 4 c
  exact ⟨(congrArg FeedDie.mtSc hf :), (regFld_of_getReg (hr _ (by decide)) ..).trans (regFld_putReg_self _ _ _ _ _ (by decide)),
    sameFeedGates_of_gates hg⟩

theorem mtCal_plain {c : Nat} (hc : c < 8) : unmarked? (mtCal c) = true ∧ mtCal c ≠ ro pgMETER 0xC8 := by
  revert c
  decide

section
variable {c : Nat} {full : Bool} {n : Nat} {l : List Int} (hc : c < 8) (hm : s.fd.mtSc = some (c, full, n)) (hl : l.length = n)
include hc hm hl

omit hc in
theorem mtScDone_of (ovr : Bool) : ∃ u : State, u.fd.mtSc = none ∧ gates u = gates s ∧ u.regs = s.regs ∧ mtScDone s l ovr =
    match scResult (getReg u (mtCal c)) full (signed 22 (regFld u (ro pgMETER 0xC4) 0 22)) l ovr with
    | .inl w => mtScStat (setReg u (mtCal c) w) false 0 c
    | .inr e => mtScFail (mtScStat u false e c) e c := by
  refine ⟨{ s with fd := { s.fd with mtSc := none } }, rfl, gates_setFd .., rfl, ?_⟩
  unfold mtScDone
  split
  · next hn => exact nomatch hn.symm.trans hm
  · next d f k hk =>
    cases hk.symm.trans hm
    exact if_neg (not_not_intro hl)

theorem mtScDone_fails {ovr : Bool} {e : Nat} (he : e < 16)
    (h : scResult (getReg s (mtCal c)) full (signed 22 (regFld s (ro pgMETER 0xC4) 0 22)) l ovr = .inr e) :
    Yields (.mtScDone l ovr) s fun t => t.fd.mtSc = none ∧ regFld t (ro pgMETER 0xC8) 1 4 = e ∧
      getReg t (mtCal c) = getReg s (mtCal c) ∧ SameFeedGates s t := by
  obtain ⟨u, hf, hg, hr, hd⟩ := mtScDone_of s hm hl ovr
  rw [regFld_of_getReg (getReg_of_regs hr _), getReg_of_regs hr, h] at hd
  obtain ⟨pf, pg, pr⟩ := mtScFail_leaves (mtScStat u false e c) e c
  obtain ⟨hp, hn⟩ := mtCal_plain hc
  refine ⟨_, congrArg Host.Outcome.next hd, (congrArg FeedDie.mtSc pf :).trans hf,
    (regFld_of_getReg (pr _ (by decide)) ..).trans (mtScStat_shows _ _ _ _ he).2, ?_, sameFeedGates_of_gates (pg.trans ((gates_setReg ..).trans hg))⟩
  exact (pr _ hp).trans ((getReg_setReg_other _ _ _ _ hn).trans (getReg_of_regs hr _))

theorem mtScDone_sets {ovr : Bool} {w : Word}
    (h : scResult (getReg s (mtCal c)) full (signed 22 (regFld s (ro pgMETER 0xC4) 0 22)) l ovr = .inl w) :
    Yields (.mtScDone l ovr) s fun t => t.fd.mtSc = none ∧ regFld t (ro pgMETER 0xC8) 1 4 = 0 ∧
      getReg t (mtCal c) = w ∧ SameFeedGates s t := by
  obtain ⟨u, hf, hg, hr, hd⟩ := mtScDone_of s hm hl ovr
  rw [regFld_of_getReg (getReg_of_regs hr _), getReg_of_regs hr, h] at hd
  refine ⟨_, congrArg Host.Outcome.next hd, hf, (mtScStat_shows _ _ _ _ (by decide)).2, ?_,
    sameFeedGates_of_gates ((gates_setReg ..).trans ((gates_setReg ..).trans hg))⟩
  exact (getReg_setReg_other _ _ _ _ (mtCal_plain hc).2).trans (getReg_setReg_self ..)

end

/-- Settles O51: each command's own register and state rule, with the messages leaving the feed die's meters as they are. -/
theorem meters : Obligations.Meters := fun s h =>
  ⟨fun raw ovr ho => periodEnd_yields s raw ovr ho h, fun a b ib => powerSample_yields s a b ib h,
    fun v h1 h2 => mtPeriodWrite_yields s v h h1 h2, fun p => energyRead_yields s p h, fun m => energyClear_yields s m h,
    fun ch n full c hc => by
      rcases hc with ⟨rfl, rfl⟩ | ⟨rfl, rfl⟩ <;>
        exact ⟨fun hn => ⟨_, rfl, mtScStart_free s ch _ n.toNat h hn⟩, fun hn => ⟨_, rfl, mtScStart_busy s ch _ n.toNat h hn⟩⟩,
    fun c full n l hc hm hl => ⟨mtScDone_fails s hc hm hl (by decide) rfl, fun w hw => mtScDone_sets s hc hm hl hw⟩⟩

end Sys2Proof.Machine
end

