-- ==== Sys2Proof/Proofs/BoreUpkeep.lean ====
section
/-! O43. The upkeep of the Bore (R390 to R400). -/

namespace Sys2Proof.Machine

open Sys2Proof.Safety (Yields SameBore)

variable (s : State)

theorem sameBore_of_mem {s t : State} (h : t.bore.mem = s.bore.mem) : SameBore s t := fun a => by
  unfold boreByte
  rw [h]

theorem sameBore_post {t : State} {page src : Nat} {d : Word} {sub : Nat} (h : SameBore s t) : SameBore s (post t page src d sub) :=
  fun a => (congrArg (fun b : Bore => tabGet (fun _ => 0) b.mem a) (post_bore ..)).trans (h a)

theorem sameBore_bump {t : State} {off lo n k : Nat} (h : SameBore s t) : SameBore s (bumpReg t off lo n k) :=
  fun a => (congrArg (fun b : Bore => tabGet (fun _ => 0) b.mem a) (bumpReg_bore ..)).trans (h a)

/-- The bytes of the Bore and the unmarked registers are those of `s`. -/
def SameShown (s u : State) : Prop := u.bore.mem = s.bore.mem ∧ ∀ off, unmarked? off = true → getReg u off = getReg s off

theorem SameShown.post {s u : State} (h : SameShown s u) (page src : Nat) (d : Word) (sub : Nat) :
    SameShown s (post u page src d sub) :=
  ⟨(congrArg Bore.mem (post_bore ..)).trans h.1, fun off ho => (getReg_post u ho ..).trans (h.2 off ho)⟩

theorem SameShown.of {s u v : State} (h : SameShown s u) (hm : v.bore.mem = u.bore.mem) (hr : v.regs = u.regs) : SameShown s v :=
  ⟨hm.trans h.1, fun off ho => (getReg_of_regs hr off).trans (h.2 off ho)⟩

/-- A failed word is noted, its row perhaps retired, and no byte moves. -/
theorem hardFail_leaves (a : Nat) : SameShown s (hardFail s a) := by
  have h : SameShown s s := ⟨rfl, fun _ _ => rfl⟩
  unfold hardFail
  extract_lets bank row _ s1 s2 s3
  have h2 : SameShown s s2 := h.of rfl rfl
  have h3 : SameShown s s3 := h2.post ..
  clear_value s3
  split
  · split
    · exact h3.post ..
    · exact h3
  · split
    · exact h.of rfl rfl
    · split
      · exact h
      · exact h.of rfl rfl

theorem markBad_leaves (a : Nat) : (s.markBad a).bore.mem = s.bore.mem ∧ (s.markBad a).regs = s.regs := by
  unfold State.markBad
  split <;> exact ⟨rfl, rfl⟩

/-- A word without a source counts as damaged. -/
theorem parFail_bare {a : Nat} (h : boreRegion a ∈ [0, 2, 3, 8]) : parFail s a =
    (borePost (bumpReg ((hardFail (setReg s (ro pgBORE 0x50) (pack [(0, 26, a), (28, 4, boreRegion a)])) a).markBad a)
      (ro pgBORE 0x4C) 0 16) 2 (BitVec.ofNat 32 a), false) := by
  have hr : boreRegion a ≠ 12 ∧ boreRegion a ≠ 13 ∧ hasSource a = false := by
    unfold hasSource
    generalize boreRegion a = r at h
    revert h
    simp only [List.mem_cons, List.not_mem_nil, or_false]
    rintro (rfl | rfl | rfl | rfl) <;> exact ⟨by decide, by decide, rfl⟩
  obtain ⟨h12, h13, hs⟩ := hr
  unfold parFail
  extract_lets r addr s1 s2 s3
  rw [if_neg (by rw [hs]; decide)]
  have e1 : s1 = setReg s (ro pgBORE 0x50) (pack [(0, 26, a), (28, 4, r)]) := if_neg h13
  have e2 : s2 = hardFail s1 a := if_neg h12
  rw [e2, e1]

theorem parFail_damaged {a : Nat} (h : boreRegion a ∈ [0, 2, 3, 8]) : SameBore s (parFail s a).1 ∧
    regFld (parFail s a).1 (ro pgBORE 0x4C) 0 16 = (regFld s (ro pgBORE 0x4C) 0 16 + 1) % 65536 := by
  rw [parFail_bare s h]
  dsimp only
  obtain ⟨hm, hg⟩ := hardFail_leaves (setReg s (ro pgBORE 0x50) (pack [(0, 26, a), (28, 4, boreRegion a)])) a
  have hg4 := (hg (ro pgBORE 0x4C) (by decide)).trans (getReg_setReg_other _ _ _ _ (by decide))
  rw [setReg_bore] at hm
  generalize hardFail _ a = u at hm hg4 ⊢
  obtain ⟨bm, br⟩ := markBad_leaves u a
  have h4 : SameBore s (u.markBad a) := sameBore_of_mem (bm.trans hm)
  have g4 := (getReg_of_regs br _).trans hg4
  generalize u.markBad a = v at h4 g4 ⊢
  refine ⟨sameBore_post s (sameBore_bump s h4), ?_⟩
  refine (regFld_of_getReg (getReg_post _ (by decide) ..) ..).trans ?_
  rw [regFld_bumpReg_self _ _ _ _ _ (by decide), regFld_of_getReg g4]
  rfl

theorem boreReplay_passes (a : BitVec 26) (h : domOn s 4 = true) : Yields (.boreReplay a true) s fun t => SameBore s t ∧
    regFld t (ro pgBORE 0x48) 0 16 = (regFld s (ro pgBORE 0x48) 0 16 + 1) % 65536 := by
  refine ⟨_, (if_neg (by simp [h])).trans (if_pos rfl), sameBore_post s (sameBore_of_mem rfl), ?_⟩
  exact (regFld_of_getReg (getReg_post _ (by decide) ..) ..).trans (regFld_bumpReg_self _ _ _ _ _ (by decide))

theorem boreReplay_fails (a : BitVec 26) (h : domOn s 4 = true) (hr : boreRegion (a.toNat / 4 * 4) ∈ [0, 2, 3]) :
    Yields (.boreReplay a false) s fun t => SameBore s t ∧
      regFld t (ro pgBORE 0x4C) 0 16 = (regFld s (ro pgBORE 0x4C) 0 16 + 1) % 65536 := by
  refine ⟨_, (if_neg (by simp [h])).trans (if_neg (by decide)), ?_⟩
  dsimp only
  generalize a.toNat / 4 * 4 = w at hr
  have hn : ∀ u, regionNote u w = u ∧ consumerFails u w = u := fun u => by
    unfold regionNote consumerFails
    generalize boreRegion w = r at hr
    revert hr
    simp only [List.mem_cons, List.not_mem_nil, or_false]
    rintro (rfl | rfl | rfl) <;> exact ⟨rfl, rfl⟩
  rw [(hn _).1, (hn _).2, ite_self]
  refine parFail_damaged s ?_
  revert hr
  simp only [List.mem_cons, List.not_mem_nil, or_false]
  omega

theorem patrolRead_yields (h : domOn s 4 = true) (he : bit (getReg s (ro pgBORE 0x40)) 1 = true) (hb : s.bore.badPar = []) :
    (s.bore.patrol + 1 < boreSize → Yields .patrolRead s fun t =>
      t.bore.patrol = s.bore.patrol + 1 ∧ SameBore s t ∧ t.regs = s.regs) ∧
    (boreSize ≤ s.bore.patrol + 1 → Yields .patrolRead s fun t => t.bore.patrol = 0 ∧ SameBore s t ∧
      regFld t (ro pgBORE 0x5C) 0 16 = (regFld s (ro pgBORE 0x5C) 0 16 + 1) % 65536) := by
  have e : execPatrolRead s = if s.bore.patrol + 1 < boreSize then
      .next { s with bore := { s.bore with patrol := s.bore.patrol + 1 } }
      else .next (bumpReg { s with bore := { s.bore with patrol := 0 } } (ro pgBORE 0x5C) 0 16) := by
    unfold execPatrolRead
    rw [if_neg (by simp [h, he])]
    dsimp only
    rw [if_neg (c := s.bore.badPar.contains _ = true) (by simp [hb])]
  refine ⟨fun hp => ⟨_, e.trans (if_pos hp), rfl, sameBore_of_mem rfl, rfl⟩, fun hp => ⟨_, e.trans (if_neg (Nat.not_lt.mpr hp)), ?_⟩⟩
  refine ⟨(congrArg Bore.patrol (bumpReg_bore _ _ _ _ _) :), sameBore_bump s (sameBore_of_mem rfl), ?_⟩
  refine (regFld_bumpReg_self _ _ _ _ _ (by decide)).trans ?_
  rw [regFld_of_getReg (s := s) (getReg_of_regs rfl _)]
  rfl

theorem bank_bit (r : BitVec 16) (b : Fin 16) : (r ||| BitVec.ofNat 16 (2 ^ b.val)).getLsbD b.val = true ∧
    (r &&& ~~~ (BitVec.ofNat 16 (2 ^ b.val))).getLsbD b.val = false := by
  have h : (BitVec.ofNat 16 (2 ^ b.val)).getLsbD b.val = true := by
    rw [BitVec.getLsbD_ofNat, Nat.testBit_two_pow_self]
    simp
  rw [BitVec.getLsbD_or, BitVec.getLsbD_and, BitVec.getLsbD_not, h]
  simp

/-- How far the zeroing has come. -/
def zeroing (s : State) : Bool × Bool × Bool := (s.bore.climbDone, s.bore.initDone, s.bore.initRun)

theorem zeroing_setBore (a : Nat) (w : Word) : zeroing (setBore s a w) = zeroing s := by
  have hb : ∀ (u : State) b, zeroing { u with bore := u.bore.put a w b } = zeroing u := fun _ _ => rfl
  unfold setBore
  split
  · next p k _ =>
    have hu : zeroing (useCheck s p k) = zeroing s := rfl
    generalize useCheck s p k = u at hu ⊢
    exact (hb u true).trans hu
  · exact hb s false

theorem zeroing_setBores (a : Nat) (ws : List Word) : zeroing (setBores s a ws) = zeroing s := by
  induction ws generalizing s a with
  | nil => rfl
  | cons w ws ih => rw [setBores_cons, ih, zeroing_setBore]

theorem bellDrain_leaves : zeroing (bellDrain s) = zeroing s ∧ (bellDrain s).bell.ringLive = true ∧ (bellDrain s).bell.store = [] := by
  refine ⟨?_, rfl, rfl⟩
  exact foldl_part s (π := zeroing) (fun u r => zeroing_setBores u ..) s.bell.store

/-- What the zeroing leaves of a byte. -/
theorem boreByte_zeroed (a : Nat) : boreByte { s with bore := s.bore.zeroed } a =
    if initClears (!s.bore.initDone) (boreRegion a) then 0 else boreByte s a := by
  unfold boreByte Bore.zeroed
  dsimp only
  split
  · next h => exact tabGet_filter_out _ _ (fun a => !initClears (!s.bore.initDone) (boreRegion a)) a (by simp [h])
  · next h => exact tabGet_filter _ _ _ (fun a => !initClears (!s.bore.initDone) (boreRegion a)) (by simp [h])

theorem boreInitDone_yields (h : s.bore.initRun = true) : Yields .boreInitDone s fun t => t.bore.climbDone = true ∧
    t.bore.initDone = true ∧ t.bore.initRun = false ∧ t.bell.ringLive = true ∧ t.bell.store = [] ∧
    (s.bell.store = [] → ∀ a, boreByte t a = if initClears (!s.bore.initDone) (boreRegion a) then 0 else boreByte s a) := by
  refine ⟨_, if_pos h, ?_⟩
  obtain ⟨hz, hl, hs⟩ := bellDrain_leaves { s with bore := s.bore.zeroed }
  refine ⟨congrArg (·.1) hz, congrArg (·.2.1) hz, congrArg (·.2.2) hz, hl, hs, fun he a => ?_⟩
  rw [← boreByte_zeroed]
  unfold bellDrain
  dsimp only
  rw [he]
  rfl

/-- Settles O43: no byte moves but by the zeroing, which is a filter of the Bore's bytes. -/
theorem boreUpkeep : Obligations.BoreUpkeep := fun s =>
  ⟨fun a h => ⟨boreReplay_passes s a h, boreReplay_fails s a h⟩, patrolRead_yields s,
    fun b => ⟨fun h1 h2 => ⟨_, if_pos ⟨h1, h2⟩, (bank_bit ..).1, sameBore_of_mem rfl⟩,
      fun h => ⟨_, if_neg (fun hc => Nat.not_lt.mpr hc.1 h), rfl⟩, ⟨_, rfl, (bank_bit ..).2, sameBore_of_mem rfl⟩⟩,
    fun h1 h2 h3 => ⟨_, if_pos ⟨h1, h2, by simp [h3]⟩, rfl, sameBore_of_mem rfl⟩, boreInitDone_yields s⟩

end Sys2Proof.Machine
end

