-- ==== Sys2Proof/Proofs/SmbusPorts.lean ====
section
/-! O40. The two SMBus ports (R72, R77, R324, R453, R454). -/

namespace Sys2Proof.Machine

open Sys2Proof.Safety (Yields SameFeedGates)

variable (s : State)

/-- A byte of a number. -/
theorem leBytes_length (n v : Nat) : (leBytes n v).length = n := by
  unfold leBytes
  simp

theorem fdRead_answers (b : List Byte) : (fdRead s b).host.smb = (if s.fd.armed then b else []) ∧ (fdRead s b).regs = s.regs ∧
    SameFeedGates s (fdRead s b) ∧ (fdRead s b).chans = s.chans :=
  ⟨rfl, rfl, ⟨rfl, rfl, rfl⟩, rfl⟩

theorem ddRead_answers (b : List Byte) :
    (ddRead s b).host.smb = (if driveOn s && decide (2 ≤ s.boot.stage.val) then b else []) ∧ (ddRead s b).regs = s.regs ∧
    SameFeedGates s (ddRead s b) ∧ (ddRead s b).chans = s.chans :=
  ⟨rfl, rfl, ⟨rfl, rfl, rfl⟩, rfl⟩

theorem fdAddr_read : fdRead s (leBytes 2 s.host.fdOffset.toNat) =
    if !s.fd.armed then smbAnswer s [] else smbAnswer s (leBytes 2 s.host.fdOffset.toNat) := by
  unfold fdRead
  cases s.fd.armed <;> rfl

/-- The status word: OVR is its low byte. -/
theorem statusByte (st : Word) (o f : Nat) :
    ((leBytes 2 (pack [(0, 8, fld st 16 8), (8, 1, o), (9, 1, f)]).toNat).getD 0 0).toNat = fld st 16 8 := by
  have h : fld (pack [(0, 8, fld st 16 8), (8, 1, o), (9, 1, f)]) 0 8 = fld st 16 8 := by
    unfold pack
    simp only [List.foldl_cons, List.foldl_nil]
    rw [fld_put_below _ _ _ _ _ _ (by decide), fld_put_below _ _ _ _ _ _ (by decide), fld_put_self _ _ _ _ (by decide)]
    exact Nat.mod_eq_of_lt (fld_lt ..)
  refine Eq.trans ?_ h
  generalize pack _ = w
  unfold leBytes fld
  simp [List.range_succ]

theorem frStatus_yields (h : s.fd.armed = true) : Yields .frStatus s fun t => t.fd.fresh = false ∧ t.host.smb.length = 2 ∧
    (t.host.smb.getD 0 0).toNat = fld (getReg s (ro pgMETER 0x48)) 16 8 ∧ t.regs = s.regs := by
  refine ⟨_, congrArg Host.Outcome.next (if_pos h), rfl, ?_, ?_, rfl⟩ <;> (unfold fdRead smbAnswer; dsimp only; rw [if_pos h])
  · exact leBytes_length ..
  · exact statusByte ..

section
variable (h : s.fd.armed = true)
include h

theorem smbFdAddr_write (v : BitVec 16) :
    Yields (.smbFdAddr (some v) true) s (fun t => t.host.fdOffset = v ∧ t.regs = s.regs) ∧
    Yields (.smbFdAddr (some v) false) s (fun t => t.host.fdRes = 2 ∧ t.host.fdOffset = s.host.fdOffset ∧ t.regs = s.regs) :=
  ⟨⟨_, congrArg Host.Outcome.next (if_neg (by simp [h])), rfl, rfl⟩, ⟨_, congrArg Host.Outcome.next (if_neg (by simp [h])), rfl, rfl, rfl⟩⟩

theorem exec_fdDataRead : exec (.smbFdData none true) s = .next (fdDataRead s) := congrArg Host.Outcome.next (if_neg (by simp [h]))

theorem exec_fdDataWrite (v : Word) : exec (.smbFdData (some v) true) s = .next (fdDataWrite s v) :=
  congrArg Host.Outcome.next (if_neg (by simp [h]))

theorem smbFdData_reads {off : Nat} (ht : fdTarget s = some off) (hr : feedReserved off = false) :
    Yields (.smbFdData none true) s fun t => t.host.smb = leBytes 4 (feedRead s off).1.toNat ∧ t.host.fdRes = 0 := by
  refine ⟨_, exec_fdDataRead s h, ?_⟩
  unfold fdDataRead
  rw [ht]
  dsimp only
  rw [if_neg (by simp [hr])]
  exact ⟨rfl, rfl⟩

theorem smbFdData_badPec (v : Word) : Yields (.smbFdData (some v) false) s fun t => t.regs = s.regs ∧ t.host.fdRes = 2 :=
  ⟨_, congrArg Host.Outcome.next (if_neg (by simp [h])), rfl, rfl⟩

theorem smbFdData_insDelay {v : Word} (ht : fdTarget s = some (ro 0x101 0x48)) (hv : fld v 0 11 ≤ 1600) :
    Yields (.smbFdData (some v) true) s fun t => regFld t (ro 0x101 0x48) 0 11 = fld v 0 11 ∧ t.host.fdRes = 0 := by
  have hn : settingRefused s (ro 0x101 0x48) v = false := rfl
  have hs : feedStore s (ro 0x101 0x48) v 3 = writeReg s (ro 0x101 0x48) v := rfl
  refine ⟨_, exec_fdDataWrite s h v, ?_⟩
  unfold fdDataWrite
  rw [ht]
  dsimp only
  rw [if_neg (by decide), hn, hs]
  exact ⟨(regFld_of_getReg (getReg_of_regs rfl _) ..).trans (insDelay_write s .a v hv), rfl⟩

theorem smbFdData_beyond (v : Word) (ht : fdTarget s = none) : Yields (.smbFdData (some v) true) s fun t =>
    t.host.fdRes = 3 ∧ t.regs = s.regs ∧ SameFeedGates s t := by
  refine ⟨_, exec_fdDataWrite s h v, ?_⟩
  unfold fdDataWrite
  rw [ht]
  exact ⟨rfl, rfl, rfl, rfl, rfl⟩

end

/-- Settles O40: each command of a port is one read of it, or one write of its own. -/
theorem smbusPorts : Obligations.SmbusPorts := by
  intro s fr dd
  have hf : ∀ {c : Instr} {b : List Byte}, exec c s = .next (fdRead s b) → fr c b := fun h => ⟨_, h, fdRead_answers s _⟩
  have hd : ∀ {c : Instr} {b : List Byte}, exec c s = .next (ddRead s b) → dd c b := fun h => ⟨_, h, ddRead_answers s _⟩
  exact ⟨hf rfl, hf rfl, hf rfl, hf rfl, hf rfl, hf rfl, hf rfl, hf rfl, hf rfl, hf rfl,
    hf (congrArg Host.Outcome.next (fdAddr_read s).symm), frStatus_yields s, fun v h => smbFdAddr_write s h v,
    fun _ h => smbFdData_reads s h, fun v h ht hv => ⟨smbFdData_insDelay s h ht hv, smbFdData_badPec s h v⟩,
    fun v h => smbFdData_beyond s h v, hd rfl, hd rfl, hd rfl, hd rfl, hd rfl, hd rfl,
    fun h => ⟨_, congrArg Host.Outcome.next (if_pos h), rfl, rfl, rfl⟩,
    fun h => ⟨_, congrArg Host.Outcome.next (if_pos h), rfl, rfl⟩⟩

end Sys2Proof.Machine
end

