-- ==== Sys2Proof/Proofs/RegisterAccesses.lean ====
section
/-! O35. A read at a hole returns 0, but its UNMAPPED message finds the Bell's queue full and one of its source held: the overwritten
message counts in the Bell's lost messages, so a register changes (R492, R578). -/

namespace Sys2Proof.Machine

open Sys2Proof.Safety (Yields)

/-- The UNMAPPED message of a hole at offset 0. -/
def holeMsg : Msg := { source := srcCode pgSYS 0, kind := 0, detail := 0 }

/-- A powered machine with the link up, 64 messages in the Bell's queue and one of UNMAPPED held behind them. -/
def bellFull : State :=
  { State.reset with
    power := { dom := 0x3FF }
    host := { linkUp := true }
    bell := { inq := List.replicate 64 holeMsg, held := [holeMsg] } }

theorem hostReach_bellFull : hostReach bellFull .pf0 = true := by decide

theorem regs_holeRead : (bar0Read bellFull .pf0 0x200000 true).regs ≠ bellFull.regs := by decide +kernel

/-- Refutes O35: the clause that a read at a hole leaves every register as it was does not ask for room in the Bell's queue, and in
`bellFull` the read's message is the one that BL_LOST counts. -/
theorem not_registerAccesses : ¬ Obligations.RegisterAccesses := by
  unfold Obligations.RegisterAccesses
  intro h
  obtain ⟨-, -, -, hole, -⟩ := h bellFull .pf0
  obtain ⟨t, ht, -, -, hr⟩ := hole 0x200000 0 hostReach_bellFull (by decide)
  obtain rfl : bar0Read bellFull .pf0 0x200000 true = t := Host.Outcome.next.inj ht
  exact regs_holeRead hr

end Sys2Proof.Machine
end

