-- ==== Sys2Proof/Proofs/WindowWrites.lean ====
section
/-! O34. Writes through the BAR2 windows (R388, R428, R443, R578). -/

namespace Sys2Proof.Machine

open Sys2Proof.Safety (Yields SameBore SameOutputs mayStore)

variable (s : State)

/-! ### A store leaves every condition of the next DW -/

/-- What R607 and the windows' rules read of a machine. -/
structure SameGate (s u : State) : Prop where
  boot : u.boot = s.boot
  power : u.power = s.power
  slots : u.slots = s.slots
  running : ∀ k, (tab u k).running = (tab s k).running
  regs : ∀ off, off % 4096 ≠ 0x24 → getReg u off = getReg s off

theorem windowOf_lt {o r : Nat} (h : windowOf o = some r) :
    r < 10 ∧ windowStart r ≤ o ∧ (r = 8 → 0x100_0000 ≤ o ∧ o < 0x140_0000) := by
  unfold windowOf at h
  split_ifs at h <;> cases h <;> simp only [windowStart] <;> omega

theorem boreRegion_deltas {x : Nat} (hl : 0xD0_0000 ≤ x) (hu : x < 0x110_0000) : boreRegion x = 8 := by
  unfold boreRegion
  rw [if_neg (by omega), if_neg (by omega), if_neg (by omega), if_neg (by omega), if_neg (by omega), if_neg (by omega),
    if_neg (by omega), if_neg (by omega), if_neg (by omega), if_pos hu]

theorem boreRegion_deltaWindow {o : Nat} (h : windowOf o = some 8) : boreRegion (windowAddr 8 o) = 8 := by
  obtain ⟨hl, hu⟩ := (windowOf_lt h).2.2 rfl
  have e : windowAddr 8 o = 0xD0_0000 + (o - 0x100_0000) := by unfold windowAddr windowBase windowStart; rfl
  exact boreRegion_deltas (by omega) (by omega)

theorem windowClosed_of {s u : State} (hs : u.slots = s.slots) (hr : ∀ k, (tab u k).running = (tab s k).running) (o : Nat) :
    windowClosed u o = windowClosed s o := by
  unfold windowClosed
  simp only [hr, slot_of_slots hs]

namespace SameGate

variable {s} {u v : State}

theorem trans (h : SameGate s u) (k : SameGate u v) : SameGate s v :=
  ⟨k.boot.trans h.boot, k.power.trans h.power, k.slots.trans h.slots, fun i => (k.running i).trans (h.running i),
    fun off ho => (k.regs off ho).trans (h.regs off ho)⟩

theorem sqCovers (h : SameGate s u) (fn : Fn) (lo hi : Nat) : sqCovers u fn lo hi = sqCovers s fn lo hi := by
  unfold Machine.sqCovers
  rw [Bool.eq_iff_iff, List.any_eq_true, List.any_eq_true]
  refine exists_congr fun q => and_congr_right fun hq => ?_
  have hq := List.mem_range.mp hq
  rw [h.regs (ro pgCMDQ (0x104 + 16 * q)) (by unfold ro; omega), h.regs (ro pgCMDQ (0x100 + 16 * q)) (by unfold ro; omega)]

theorem judge (h : SameGate s u) (a : Access) (ha : a.bar2 = true) : judge u a = judge s a := by
  have hm : muted u a.fn a.write = muted s a.fn a.write := by
    unfold muted
    rw [h.regs (ro pgPROT 0x40) (by decide)]
  have hs : stageClosed u = stageClosed s := by
    unfold stageClosed
    rw [h.boot]
  have hd : ∀ d, domOn u d = domOn s d := fun d => by
    unfold domOn
    rw [h.power]
  unfold Machine.judge judge2
  rw [if_pos ha, if_pos ha]
  cases hw : windowOf a.off with
  | none => rfl
  | some r =>
    have hl : winLocked u a.fn r a.write = winLocked s a.fn r a.write := by
      unfold winLocked
      rw [h.regs (ro pgPROT (0x100 + 4 * r)) (by have := windowOf_lt hw; unfold ro; omega)]
    simp only [hs, hm, hl, hd, h.sqCovers]

theorem closed (h : SameGate s u) (o : Nat) : windowClosed u o = windowClosed s o := windowClosed_of h.slots h.running o

end SameGate

/-- The registers after a write of the Bore: an armed CHECK is used up. -/
theorem setBore_regs (a : Nat) (w : Word) : (setBore s a w).regs = match checkFor s a with
    | some p => (putReg s (ro p.1 0x24) 6 1 0).regs
    | none => s.regs := by
  unfold setBore
  split
  · next hc => rw [hc]; rfl
  · next hc => rw [hc]

theorem setBore_gate (a : Nat) (w : Word) : SameGate s (setBore s a w) := by
  refine ⟨?_, ?_, ?_, fun k => ?_, fun off ho => ?_⟩
  · exact setBore_part s (π := fun u => u.boot) (fun _ _ => rfl) (fun _ _ => rfl) (fun _ _ => rfl) a w
  · exact setBore_part s (π := fun u => u.power) (fun _ _ => rfl) (fun _ _ => rfl) (fun _ _ => rfl) a w
  · exact setBore_part s (π := fun u => u.slots) (fun _ _ => rfl) (fun _ _ => rfl) (fun _ _ => rfl) a w
  · exact setBore_part s (π := fun u => (tab u k).running) (fun _ _ => rfl) (fun _ _ => rfl) (fun _ _ => rfl) a w
  · cases hc : checkFor s a with
    | none => exact getReg_of_regs (by rw [setBore_regs, hc]) off
    | some p =>
      have hp : off ≠ ro p.1 0x24 := fun e => ho (by rw [e]; unfold ro; omega)
      exact (getReg_of_regs (by rw [setBore_regs, hc]) off).trans (getReg_putReg_other s _ 6 1 0 off hp)

theorem setTab_gate {k : Nat} {x : TabCmd} (h : x.running = (tab s k).running) : SameGate s (setTab s k x) := by
  refine ⟨rfl, rfl, rfl, fun i => ?_, fun off _ => getReg_of_regs rfl off⟩
  have e : tab (setTab s k x) i = if i = k then x else tab s i := tabGet_tabSet ..
  rw [e]
  split
  · next hk => rw [h, hk]
  · rfl

/-- What a DW that its window's rule takes leaves: the word stored, and the conditions of the next DW as they were. -/
def Stored (s : State) (off : Nat) (w : Word) (t : State) : Prop :=
  SameGate s t ∧ t.bore.mem = setWordAt s.bore.mem (windowAddr ((windowOf off).getD 0) off) w

theorem windowStore_stored (off : Nat) (w : Word) (h : windowClosed s off = false) : Stored s off w (windowStore s off w) := by
  unfold windowClosed at h
  unfold Stored windowStore
  dsimp only at h ⊢
  generalize (windowOf off).getD 0 = r at h
  generalize windowAddr r off = a at h ⊢
  have hg := setBore_gate s a w
  have hm := setBore_mem s a w
  have h1 : setBores s a [w] = setBore s a w := rfl
  split <;> simp only [beq_eq_false_iff_ne, ne_eq] at h
  · unfold setpointStore
    rw [if_neg h, h1]
    generalize setBore s a w = u at hg hm ⊢
    exact ⟨hg.trans (setTab_gate _ rfl), hm⟩
  · unfold shapeStore
    rw [if_neg h]
    generalize setBore s a w = u at hg hm ⊢
    exact ⟨hg.trans (setTab_gate _ rfl), hm⟩
  · unfold seqStore
    rw [if_neg h, h1]
    generalize setBore s a w = u at hg hm ⊢
    exact ⟨hg.trans (setTab_gate _ rfl), hm⟩
  · unfold deltaStore
    rw [if_pos (by simpa using h), h1]
    exact ⟨hg, hm⟩
  · exact ⟨hg, hm⟩

/-! ### A TLP of whole words -/

/-- R607 for a DW of a write TLP whose bytes reach from `lo` to `hi`. -/
theorem judge_window {fn : Fn} {off r lo hi : Nat} (hw : windowOf off = some r) :
    judge s { fn := fn, bar2 := true, off := off, write := true, lo := lo, hi := hi } = .ok ↔
      stageClosed s = false ∧ muted s fn true = false ∧ tooLow fn (windowWriteLvl r) = false ∧
        (r = 0 → fn ≠ .pf0 → sqCovers s fn lo hi = true) ∧ winLocked s fn r true = false ∧ domOn s (4 + r / 7) = true := by
  unfold judge judge2
  rw [if_pos rfl, hw]
  dsimp only
  split_ifs <;> simp_all
  grind

theorem sqCovers_mono {fn : Fn} {lo hi k : Nat} (h : sqCovers s fn lo hi = true) (hk : k ≤ hi) : sqCovers s fn lo k = true := by
  unfold sqCovers at h ⊢
  rw [List.any_eq_true] at h ⊢
  obtain ⟨q, hq, hc⟩ := h
  refine ⟨q, hq, ?_⟩
  simp only [Bool.and_eq_true, decide_eq_true_eq] at hc ⊢
  exact ⟨hc.1, Nat.le_trans hk hc.2⟩

/-- A DW that may be stored may be stored in a TLP that its queues cover. -/
theorem judge_of_mayStore {fn : Fn} {off r lo hi : Nat} (h : mayStore s fn off = true) (hw : windowOf off = some r)
    (hq : r = 0 → fn = .pf0 ∨ sqCovers s fn lo hi = true) :
    judge s { fn := fn, bar2 := true, off := off, write := true, lo := lo, hi := min hi 0x40_0000 } = .ok := by
  unfold mayStore at h
  rw [Bool.and_eq_true, beq_iff_eq, judge_window s hw] at h
  obtain ⟨-, hs, hm, hl, -, hk, hd⟩ := h
  refine (judge_window s hw).mpr ⟨hs, hm, hl, fun h0 hf => ?_, hk, hd⟩
  exact sqCovers_mono s ((hq h0).resolve_left hf) (Nat.min_le_left ..)

theorem hostReach_of_mayStore {fn : Fn} {off : Nat} (h : mayStore s fn off = true) : hostReach s fn = true := by
  unfold mayStore at h
  exact ((Bool.and_eq_true ..).mp h).1

theorem tlpStep_stores {u : State} (hg : SameGate s u) {fn : Fn} {lo hi : Nat} {x : Nat × Word} (ms : List Mark)
    (hj : judge s { fn := fn, bar2 := true, off := x.1, write := true, lo := lo, hi := min hi 0x40_0000 } = .ok)
    (hc : windowClosed s x.1 = false) : tlpStep fn lo hi (u, ms) x = (windowStore u x.1 x.2, ms) := by
  unfold tlpStep
  dsimp only
  rw [hg.judge _ rfl, hj, hg.closed, hc]
  rfl

theorem tlpWords_cons (off : Nat) (w : Word) (ws : List Word) : tlpWords off (w :: ws) = (off, w) :: tlpWords (off + 4) ws := by
  unfold tlpWords
  rw [List.zipIdx_cons', List.map_cons, List.map_map]
  refine congrArg₂ List.cons rfl (List.map_congr_left fun p _ => ?_)
  exact Prod.ext (show off + 4 * (p.2 + 1) = off + 4 + 4 * p.2 by omega) rfl

/-- The stores of a TLP whose DWs all pass. -/
def storeWords (u : State) (xs : List (Nat × Word)) : State := xs.foldl (fun u x => windowStore u x.1 x.2) u

theorem tlp_stores {fn : Fn} {lo hi : Nat} (xs : List (Nat × Word))
    (h : ∀ x ∈ xs, judge s { fn := fn, bar2 := true, off := x.1, write := true, lo := lo, hi := min hi 0x40_0000 } = .ok ∧
      windowClosed s x.1 = false) {u : State} (hg : SameGate s u) (ms : List Mark) :
    xs.foldl (tlpStep fn lo hi) (u, ms) = (storeWords u xs, ms) := by
  induction xs generalizing u with
  | nil => rfl
  | cons x xs ih =>
    obtain ⟨hj, hc⟩ := h x List.mem_cons_self
    rw [List.foldl_cons, tlpStep_stores s hg ms hj hc]
    exact ih (fun y hy => h y (List.mem_cons_of_mem _ hy))
      (hg.trans (windowStore_stored u _ _ ((hg.closed _).trans hc)).1)

theorem boreWord_of_bytes {s t : State} {a : Nat} (h : ∀ i, i < 4 → boreByte t (a + i) = boreByte s (a + i)) :
    boreWord t a = boreWord s a := by
  unfold boreByte at h
  unfold boreWord wordAt
  dsimp only
  rw [h 0 (by decide), h 1 (by decide), h 2 (by decide), h 3 (by decide)]

/-- Consecutive DWs of one window, stored: each reads back, and no byte outside them moves. -/
theorem storeWords_stores (r : Nat) (data : List Word) : ∀ (u : State) (off : Nat),
    (∀ i, i < data.length → windowOf (off + 4 * i) = some r ∧ windowClosed u (off + 4 * i) = false) →
    let t := storeWords u (tlpWords off data)
    (∀ i (h : i < data.length), boreWord t (windowAddr r (off + 4 * i)) = data[i]) ∧
      ∀ a, (∀ i, i < data.length → a < windowAddr r (off + 4 * i) ∨ windowAddr r (off + 4 * i) + 4 ≤ a) → boreByte t a = boreByte u a := by
  induction data with
  | nil => exact fun u off _ => ⟨fun i h => absurd h (Nat.not_lt_zero i), fun a _ => rfl⟩
  | cons w ws ih =>
    intro u off h
    obtain ⟨hw, hc⟩ := h 0 (Nat.succ_pos _)
    obtain ⟨hg, hm⟩ := windowStore_stored u off w hc
    have hr : (windowOf off).getD 0 = r := congrArg (·.getD 0) hw
    rw [hr] at hm
    have hn : ∀ i, i < ws.length → windowOf (off + 4 + 4 * i) = some r ∧ windowClosed (windowStore u off w) (off + 4 + 4 * i) = false :=
      fun i hi => by
        have hs := h (i + 1) (Nat.succ_lt_succ hi)
        rw [hg.closed, show off + 4 + 4 * i = off + 4 * (i + 1) by omega]
        exact hs
    obtain ⟨hi, ho⟩ := ih _ _ hn
    rw [tlpWords_cons]
    have hb : windowStart r ≤ off := (windowOf_lt hw).2.1
    refine ⟨fun i hil => ?_, fun a ha => ?_⟩
    · cases i with
      | zero =>
        refine (boreWord_of_bytes fun k hk => ho _ fun j hj => ?_).trans ?_
        · unfold windowAddr
          omega
        · unfold boreWord
          rw [hm]
          exact wordAt_setWordAt_self ..
      | succ i =>
        have hs := hi i (Nat.lt_of_succ_lt_succ hil)
        rw [show off + 4 + 4 * i = off + 4 * (i + 1) by omega] at hs
        exact hs
    · refine (ho a fun i hil => ?_).trans ?_
      · have hs := ha (i + 1) (Nat.succ_lt_succ hil)
        rwa [show off + 4 + 4 * i = off + 4 * (i + 1) by omega]
      · unfold boreByte
        rw [hm]
        exact tabGet_setWordAt_other _ _ _ _ (ha 0 (Nat.succ_pos _))

theorem sameBore_shapeWritten (as : List Nat) : (shapeWritten s as).bore = s.bore :=
  (shapeWritten_keeps (may := { slots := true }) rfl Keeps.rfl).bore rfl

theorem bar2Write_outputs (fn : Fn) (off : Nat) (data : List Word) : SameOutputs s (bar2Write s fn off data) :=
  sameOutputs_of_chans ((bar2Write_keeps (may := { slots := true, bore := true }) rfl rfl Keeps.rfl).chans rfl)

theorem bar2Write_stores {fn : Fn} {off r : Nat} {data : List Word}
    (h : ∀ i, i < data.length → mayStore s fn (off + 4 * i) = true ∧ windowOf (off + 4 * i) = some r ∧ windowClosed s (off + 4 * i) = false)
    (hq : r = 0 → fn = .pf0 ∨ sqCovers s fn off (off + 4 * data.length) = true) (hl : data.length ≤ maxPayload) :
    (∀ i (h : i < data.length), boreWord (bar2Write s fn off data) (windowAddr r (off + 4 * i)) = data[i]) ∧
      ∀ a, (∀ i, i < data.length → a < windowAddr r (off + 4 * i) ∨ windowAddr r (off + 4 * i) + 4 ≤ a) →
        boreByte (bar2Write s fn off data) a = boreByte s a := by
  have hs := storeWords_stores r data s off fun i hi => (h i hi).2
  have he : (bar2Write s fn off data).bore = (storeWords s (tlpWords off data)).bore := by
    unfold bar2Write
    split
    · next hc =>
      cases data with
      | nil => rfl
      | cons w ws =>
        rw [hostReach_of_mayStore s (h 0 (Nat.succ_pos _)).1, Bool.not_true, Bool.false_or, decide_eq_true_eq] at hc
        exact absurd hl (Nat.not_le.mpr hc)
    · dsimp only
      rw [sameBore_shapeWritten, tlp_stores s _ _ ⟨rfl, rfl, rfl, fun _ => rfl, fun _ _ => rfl⟩]
      intro x hx
      unfold tlpWords at hx
      obtain ⟨p, hp, rfl⟩ := List.mem_map.mp hx
      have hi : p.2 < data.length := by
        have := List.snd_lt_of_mem_zipIdx hp
        simpa using this
      obtain ⟨hm, hw, hc⟩ := h p.2 hi
      exact ⟨judge_of_mayStore s hm hw hq, hc⟩
  unfold boreWord boreByte at hs ⊢
  rwa [he]

/-! ### A closed window, a partial write, the accumulators -/

/-- A DW for a delta area that is not open or a table whose LOAD runs stores nothing. -/
theorem windowStore_closed (off : Nat) (w : Word) (h : windowClosed s off = true) : (windowStore s off w).bore = s.bore := by
  unfold windowClosed at h
  unfold windowStore
  dsimp only at h ⊢
  generalize (windowOf off).getD 0 = r at h
  generalize windowAddr r off = a at h ⊢
  split <;> simp only [beq_iff_eq, Bool.false_eq_true] at h
  · unfold setpointStore
    rw [if_pos h, post_bore]
  · unfold shapeStore
    rw [if_pos h, post_bore]
  · unfold seqStore
    rw [if_pos h, post_bore]
  · unfold deltaStore
    rw [if_neg (by simpa using h), post_bore]

theorem bar2Write_closed {fn : Fn} {off r : Nat} (v : Word) (hm : mayStore s fn off = true) (hw : windowOf off = some r) (hr : r ≠ 0)
    (hc : windowClosed s off = true) : SameBore s (bar2Write s fn off [v]) := by
  have hj := judge_of_mayStore s hm hw (lo := off) (hi := off + 4) fun h => absurd h hr
  have hb : (bar2Write s fn off [v]).bore = s.bore := by
    unfold bar2Write
    split
    · rfl
    · dsimp only
      rw [sameBore_shapeWritten]
      have ht : tlpStep fn off (off + 4) (s, []) (off, v) = (windowStore s off v, [.window ((windowOf off).getD 0)]) := by
        unfold tlpStep
        dsimp only
        rw [hj, hc]
        rfl
      exact (congrArg (fun p : State × List Mark => p.1.bore) ht).trans (windowStore_closed s off v hc)
  exact fun a => boreByte_of_bore hb a

section
variable {fn : Fn} {off r : Nat} (hm : mayStore s fn (off / 4 * 4) = true) (hw : windowOf (off / 4 * 4) = some r)
    (hc : windowClosed s (off / 4 * 4) = false) (be : BitVec 4) (v : Word)
include hm hw hc

theorem bar2Partial_of (ok : Bool) : ∃ u : State, u.bore = s.bore ∧ windowClosed u (off / 4 * 4) = false ∧ bar2Partial s fn off be v ok =
    if ok && !s.bore.badPar.contains (windowAddr r (off / 4 * 4)) then
      if windowOf (off / 4 * 4) = some 5 then
        shapeWritten (windowStore u (off / 4 * 4) (mergeBytes (boreWord s (windowAddr r (off / 4 * 4))) v be)) [windowAddr r (off / 4 * 4)]
      else windowStore u (off / 4 * 4) (mergeBytes (boreWord s (windowAddr r (off / 4 * 4))) v be)
    else post (bumpReg (strayFail u (windowAddr r (off / 4 * 4))) (ro pgBORE 0x58) 16 16) pgBORE 5
      (BitVec.ofNat 32 (windowAddr r (off / 4 * 4))) := by
  refine ⟨bumpReg s (ro pgBORE 0x58) 0 16, bumpReg_bore .., ?_, ?_⟩
  · exact (windowClosed_of (bumpReg_slots ..) (fun _ => rfl) _).trans hc
  · have hj : judge s { fn := fn, bar2 := true, off := off / 4 * 4, write := true } = .ok := by
      unfold mayStore at hm
      rw [Bool.and_eq_true, beq_iff_eq] at hm
      exact hm.2
    unfold bar2Partial
    rw [if_neg (by rw [hostReach_of_mayStore s hm]; decide)]
    extract_lets o a addr u t
    have ha : addr = windowAddr r (off / 4 * 4) := congrArg (fun x : Option Nat => windowAddr (x.getD 0) _) hw
    have hu : u.bore = s.bore := bumpReg_bore ..
    have ht : t = windowStore u (off / 4 * 4) (mergeBytes (boreWord s addr) v be) := by
      unfold t
      rw [boreWord_of_bytes fun i _ => boreByte_of_bore hu _]
    rw [hj]
    dsimp only
    rw [if_neg (by rw [hc]; decide), hu, ht, ha]

/-- A partial write whose read passes merges the enabled bytes. -/
theorem bar2Partial_merges (hb : s.bore.badPar.contains (windowAddr r (off / 4 * 4)) = false) :
    boreWord (bar2Partial s fn off be v true) (windowAddr r (off / 4 * 4)) = mergeBytes (boreWord s (windowAddr r (off / 4 * 4))) v be ∧
      ∀ a, (a < windowAddr r (off / 4 * 4) ∨ windowAddr r (off / 4 * 4) + 4 ≤ a) →
        boreByte (bar2Partial s fn off be v true) a = boreByte s a := by
  have h : (bar2Partial s fn off be v true).bore.mem =
      setWordAt s.bore.mem (windowAddr r (off / 4 * 4)) (mergeBytes (boreWord s (windowAddr r (off / 4 * 4))) v be) := by
    obtain ⟨u, hub, huc, he⟩ := bar2Partial_of s hm hw hc be v true
    obtain ⟨-, hs⟩ := windowStore_stored u _ (mergeBytes (boreWord s (windowAddr r (off / 4 * 4))) v be) huc
    rw [hub, hw] at hs
    rw [he, if_pos (by rw [hb]; rfl)]
    split
    · rw [sameBore_shapeWritten]
      exact hs
    · exact hs
  unfold boreWord boreByte
  rw [h]
  exact ⟨wordAt_setWordAt_self .., fun a ha => tabGet_setWordAt_other _ _ _ _ ha⟩

/-- One whose read of a delta fails stores nothing. -/
theorem bar2Partial_fails (hr : r = 8) : SameBore s (bar2Partial s fn off be v false) := by
  subst hr
  obtain ⟨u, hub, -, he⟩ := bar2Partial_of s hm hw hc be v false
  rw [he, if_neg (by rw [Bool.false_and]; decide)]
  have ha : boreRegion (windowAddr 8 (off / 4 * 4)) = 8 := boreRegion_deltaWindow hw
  refine sameBore_post s (sameBore_bump s fun a => ?_)
  unfold strayFail
  dsimp only
  rw [if_neg (by rw [ha]; decide), (parFail_damaged u (by rw [ha]; decide)).1 a, boreByte_of_bore hub]

end

theorem bar2AccWrite_refused {fn : Fn} {off : BitVec 26} (hr : hostReach s fn = true) (hs : stageClosed s = false)
    (hm : muted s fn true = false) (hw : windowOf off.toNat = some 7) : Yields (.bar2AccWrite fn off) s fun t => SameBore s t ∧
      regFld t (ro pgPROT 0x4C) 0 16 = (regFld s (ro pgPROT 0x4C) 0 16 + 1) % 65536 := by
  refine ⟨_, rfl, ?_⟩
  have hj : judge s { fn := fn, bar2 := true, off := off.toNat, write := true, lo := off.toNat, hi := min (off.toNat + 4) 0x40_0000 } = .level := by
    unfold judge judge2
    rw [if_pos rfl, hw]
    dsimp only
    rw [hs, hm, if_neg (by decide), if_neg (by decide), if_pos (by simp [tooLow, windowWriteLvl])]
  obtain ⟨a, ht⟩ : ∃ a : Access, tlpStep fn off.toNat (off.toNat + 4) (s, []) (off.toNat, 0) =
      (accWrite (denied s a 2) off.toNat, [.verdict pgPROT 0, .window 7]) := by
    refine ⟨{ fn := fn, bar2 := true, off := off.toNat, write := true, lo := off.toNat, hi := min (off.toNat + 4) 0x40_0000 }, ?_⟩
    unfold tlpStep
    dsimp only
    rw [hj]
    dsimp only
    rw [hw]
    rfl
  have he : bar2Write s fn off.toNat [0] = accWrite (denied s a 2) off.toNat := by
    unfold bar2Write
    rw [if_neg (by rw [hr]; decide)]
    dsimp only
    have h0 : shapeHits s fn (tlpWords off.toNat [0]) = [] := by
      unfold shapeHits
      rw [tlpWords_cons, List.filter_cons_of_neg (by simp [hw])]
      rfl
    rw [h0]
    unfold shapeWritten
    rw [if_neg (by simp)]
    exact congrArg Prod.fst ht
  have hd : (denied s a 2).bore = s.bore := (post_bore ..).trans ((setReg_bore ..).trans (bumpReg_bore ..))
  have hg : getReg (denied s a 2) (ro pgPROT 0x4C) = getReg (bumpReg s (ro pgPROT 0x4C) 0 16) (ro pgPROT 0x4C) :=
    (getReg_post _ (by decide) ..).trans (getReg_setReg_other _ _ _ _ (by decide))
  have hx : getReg (accWrite (denied s a 2) off.toNat) (ro pgPROT 0x4C) = _ := (getReg_post _ (by decide) ..).trans hg
  rw [he]
  refine ⟨fun b => boreByte_of_bore ((post_bore ..).trans hd) b, ?_⟩
  rw [regFld_of_getReg hx, regFld_bumpReg_self _ _ _ _ _ (by decide)]
  rfl

/-- Settles O34: a DW leaves the conditions of the next as they were, so a TLP is the list of its stores. -/
theorem windowWrites : Obligations.WindowWrites := by
  intro s fn off
  refine ⟨fun data r c hc h hq hl => ?_, fun v hm hc => ⟨fun hw => ⟨_, rfl, bar2Write_closed s v hm hw (by decide) hc⟩,
    fun hw => ⟨_, rfl, bar2Write_closed s v hm hw (by decide) hc⟩, fun hw => ⟨_, rfl, bar2Write_closed s v hm hw (by decide) hc⟩,
    fun hw => ⟨_, rfl, bar2Write_closed s v hm hw (by decide) hc⟩⟩,
    fun r be v hm hw hc hb => ⟨⟨_, rfl, bar2Partial_merges s hm hw hc be v hb⟩,
      fun hr => ⟨_, rfl, bar2Partial_fails s hm hw hc be v hr⟩⟩, bar2AccWrite_refused s⟩
  have he : exec c s = .next (bar2Write s fn off.toNat data) := by
    obtain ⟨rfl, -⟩ | ⟨rfl, -⟩ | ⟨rfl, -⟩ | ⟨rfl, -⟩ | ⟨rfl, -⟩ | rfl := hc <;> rfl
  exact ⟨_, he, bar2Write_outputs s fn _ data, bar2Write_stores s h hq hl⟩

end Sys2Proof.Machine
end

