-- ==== Sys2Proof/Proofs/TableLoadAndSave.lean ====
section
/-! O32. LOAD and SAVE of the six table pages (R168 to R178, R470, R612, R613). -/

namespace Sys2Proof.Machine

open Sys2Proof.Safety (Yields SameBore SameOutputs mayWrite)

variable (s : State)

/-! ### The bytes of words and of an image -/

/-- The bytes of a list of rising addresses that are not zero. -/
theorem tabGet_nonzero (l : List Host.Cell) (hw : (l.map (·.1)).Pairwise (· < ·)) (k : Nat) :
    tabGet (fun _ => (0 : Byte)) (l.filter (fun c => c.2 != 0)) k = tabGet (fun _ => 0) l k := by
  induction l with
  | nil => rfl
  | cons c l ih =>
    obtain ⟨hc, hw⟩ := List.pairwise_cons.mp (show (c.1 :: l.map (·.1)).Pairwise (· < ·) from hw)
    rw [List.filter_cons]
    by_cases hz : c.2 = 0
    · rw [if_neg (by simp [hz]), ih hw]
      by_cases hk : k = c.1
      · refine (tabGet_of_absent _ _ _ fun q hq e => ?_).trans (hz.symm.trans (if_pos hk).symm)
        have := hc q.1 (List.mem_map_of_mem hq)
        omega
      · exact (if_neg hk).symm
    · rw [if_pos (bne_iff_ne.mpr hz)]
      unfold tabGet
      rw [ih hw]

theorem mem_wordCells {a : Nat} {w : Word} {c : Host.Cell} (h : c ∈ wordCells a w) : a ≤ c.1 ∧ c.1 < a + 4 := by
  unfold wordCells at h
  obtain ⟨i, hi, rfl⟩ := List.mem_map.mp (List.mem_of_mem_filter h)
  have := List.mem_range.mp hi
  dsimp only
  omega

theorem wordCells_rising (a : Nat) (w : Word) : ((wordCells a w).map (·.1)).Pairwise (· < ·) := by
  unfold wordCells
  rw [List.pairwise_map]
  refine List.Pairwise.filter _ ?_
  rw [List.pairwise_map]
  exact List.pairwise_lt_range.imp fun h => Nat.add_lt_add_left h a

theorem tabGet_wordCells (a : Nat) (w : Word) {j : Nat} (h : j < 4) : tabGet (fun _ => (0 : Byte)) (wordCells a w) (a + j) = byteOf w j := by
  unfold wordCells
  rw [tabGet_nonzero]
  · obtain rfl | rfl | rfl | rfl : j = 0 ∨ j = 1 ∨ j = 2 ∨ j = 3 := by omega
    all_goals simp [List.range_succ, tabGet]
  · rw [List.map_map, List.pairwise_map]
    exact List.pairwise_lt_range.imp fun h => Nat.add_lt_add_left h a

theorem mem_wordsCells {ws : List Word} {c : Host.Cell} : ∀ {a : Nat}, c ∈ wordsCells a ws → a ≤ c.1 ∧ c.1 < a + 4 * ws.length := by
  induction ws with
  | nil => exact fun h => nomatch h
  | cons w ws ih =>
    intro a h
    rw [List.length_cons]
    rcases List.mem_append.mp h with h | h
    · have := mem_wordCells h
      omega
    · have := ih h
      omega

theorem wordsCells_rising (ws : List Word) : ∀ a : Nat, ((wordsCells a ws).map (·.1)).Pairwise (· < ·) := by
  induction ws with
  | nil => exact fun _ => .nil
  | cons w ws ih =>
    intro a
    unfold wordsCells
    rw [List.map_append, List.pairwise_append]
    refine ⟨wordCells_rising a w, ih _, fun x hx y hy => ?_⟩
    obtain ⟨c, hc, rfl⟩ := List.mem_map.mp hx
    obtain ⟨d, hd, rfl⟩ := List.mem_map.mp hy
    have := mem_wordCells hc
    have := mem_wordsCells hd
    omega

theorem tabGet_wordsCells (ws : List Word) {j : Nat} (hj : j < 4) : ∀ (a i : Nat) (h : i < ws.length),
    tabGet (fun _ => (0 : Byte)) (wordsCells a ws) (a + 4 * i + j) = byteOf ws[i] j := by
  induction ws with
  | nil => exact fun _ _ h => absurd h (Nat.not_lt_zero _)
  | cons w ws ih =>
    intro a i h
    unfold wordsCells
    cases i with
    | zero =>
      rw [tabGet_append_left]
      · exact tabGet_wordCells a w hj
      · intro c hc
        have := mem_wordsCells hc
        omega
    | succ i =>
      rw [tabGet_append, show a + 4 * (i + 1) + j = a + 4 + 4 * i + j by omega]
      · exact ih _ i (Nat.lt_of_succ_lt_succ h)
      · intro c hc
        have := mem_wordCells hc
        omega

theorem mem_cellsIn {hi : Nat} {cs : List Host.Cell} {q : Host.Cell} : ∀ {lo : Nat}, q ∈ cellsIn hi lo cs → q ∈ cs := by
  induction cs with
  | nil => exact id
  | cons c cs ih =>
    intro lo h
    unfold cellsIn at h
    split at h
    · rcases List.mem_cons.mp h with h | h
      · exact h ▸ List.mem_cons_self
      · exact List.mem_cons_of_mem _ (ih h)
    · exact List.mem_cons_of_mem _ (ih h)

theorem cellsIn_cons (hi lo : Nat) (c : Host.Cell) (cs : List Host.Cell) : cellsIn hi lo (c :: cs) =
    if lo ≤ c.1 ∧ c.1 < hi ∧ c.2 ≠ 0 then c :: cellsIn hi (c.1 + 1) cs else cellsIn hi lo cs := rfl

theorem cellsIn_append (hi : Nat) (xs ys : List Host.Cell) : ∀ lo, ∃ lo', cellsIn hi lo (xs ++ ys) = cellsIn hi lo xs ++ cellsIn hi lo' ys := by
  induction xs with
  | nil => exact fun lo => ⟨lo, rfl⟩
  | cons x xs ih =>
    intro lo
    rw [List.cons_append, cellsIn_cons, cellsIn_cons]
    split
    · obtain ⟨l, h⟩ := ih (x.1 + 1)
      exact ⟨l, congrArg _ h⟩
    · exact ih lo

/-- A byte of a range that is copied in, from the rising part of the copy. -/
theorem tabGet_cellsInto_prefix (m : List Host.Cell) (lo n : Nat) (xs ys : List Host.Cell) (k : Nat)
    (hw : (xs.map (·.1)).Pairwise (· < ·)) (hy : ∀ q ∈ ys, q.1 ≠ k) (h : lo ≤ k ∧ k < lo + n) :
    tabGet (fun _ => (0 : Byte)) (cellsInto m lo n (xs ++ ys)) k = tabGet (fun _ => 0) xs k := by
  obtain ⟨l, hl⟩ := cellsIn_append (lo + n) xs ys lo
  unfold cellsInto
  rw [tabGet_append_left, tabGet_append, hl, tabGet_append_left _ _ _ _ fun q hq => hy q (mem_cellsIn hq), tabGet_cellsIn _ _ _ _ hw h]
  · intro q hq e
    have := (List.mem_filter.mp hq).2
    simp only [decide_eq_true_eq] at this
    omega
  · intro q hq e
    have := (List.mem_filter.mp hq).2
    simp only [decide_eq_true_eq] at this
    omega

theorem wordAt_of_bytes {m : List Host.Cell} {a : Nat} {w : Word}
    (h : ∀ j, j < 4 → tabGet (fun _ => (0 : Byte)) m (a + j) = byteOf w j) : wordAt m a = w := by
  unfold wordAt
  dsimp only
  rw [h 0 (by decide), h 1 (by decide), h 2 (by decide), h 3 (by decide)]
  exact bytes_of_word w

/-- The header of an image that is put: its first word is the magic, its third GEN. -/
theorem putImage_header (m : List Host.Cell) (k : Nat) (g : Word) (p : List Host.Cell) :
    wordAt (putImage m k g p) (calAt k) = 0x4C41_4358 ∧ wordAt (putImage m k g p) (calAt k + 8) = g := by
  have h : ∀ i w, i < 5 → [(0x4C41_4358 : Word), BitVec.ofNat 32 k, g, BitVec.ofNat 32 (payloadLen k), 0x0101_0000][i]? = some w →
      wordAt (putImage m k g p) (calAt k + 4 * i) = w := fun i w hi hw => by
    unfold putImage
    dsimp only
    rw [wordAt_setWordAt_other _ _ _ _ (by omega)]
    refine wordAt_of_bytes fun j hj => ?_
    rw [tabGet_cellsInto_prefix _ _ _ _ _ _ (wordsCells_rising _ _)]
    · obtain ⟨hl, rfl⟩ := List.getElem?_eq_some_iff.mp hw
      exact tabGet_wordsCells _ hj _ i hl
    · intro q hq
      obtain ⟨c, -, rfl⟩ := List.mem_map.mp hq
      dsimp only
      omega
    · omega
  have h0 := h 0 _ (by decide) List.getElem?_cons_zero
  rw [Nat.mul_zero, Nat.add_zero] at h0
  exact ⟨h0, h 2 g (by decide) (by simp)⟩

/-! ### The command of a page, written -/

/-- A command that the fabric takes in RUN runs at once. -/
theorem exec_fabWrite {fn : Fn} {k : Nat} (code : Nat) (hw : mayWrite s fn (tabPage k) (tabCmdOff k) 1 = true) (hr : inRun s = true) :
    fabWrite s fn k code = .next (fabTable s k code) :=
  congrArg Host.Outcome.next ((wr_of_mayWrite s fn _ _ _ _ hw).trans (if_pos hr))

theorem exec_tabWrite {fn : Fn} {k : Nat} (f : State → State) (hw : mayWrite s fn (tabPage k) (tabCmdOff k) 1 = true) :
    tabWrite s fn k f = .next (f s) :=
  congrArg Host.Outcome.next (wr_of_mayWrite s fn _ _ _ _ hw)

section
variable {s} {fn : Fn} {c : Instr} {k : Nat} (hw : mayWrite s fn (tabPage k) (tabCmdOff k) 1 = true)
    (hr : k = kMS ∨ k = kCL ∨ k = kLP ∨ inRun s = true)
include hw hr

theorem exec_load (h : (c = .stLoad fn ∧ k = kST) ∨ (c = .tgLoad fn ∧ k = kTG) ∨ (c = .msLoad fn ∧ k = kMS) ∨ (c = .clLoad fn ∧ k = kCL) ∨
    (c = .lpLoad fn ∧ k = kLP) ∨ (c = .thLoad fn ∧ k = kTH)) : exec c s = .next (tabLoad s k) := by
  obtain ⟨rfl, rfl⟩ | ⟨rfl, rfl⟩ | ⟨rfl, rfl⟩ | ⟨rfl, rfl⟩ | ⟨rfl, rfl⟩ | ⟨rfl, rfl⟩ := h
  · exact exec_fabWrite s 1 hw (by simpa using hr)
  · exact exec_fabWrite s 1 hw (by simpa using hr)
  · exact exec_tabWrite s _ hw
  · exact exec_tabWrite s _ hw
  · exact exec_tabWrite s _ hw
  · exact exec_fabWrite s 1 hw (by simpa using hr)

theorem exec_save (h : (c = .tgSave fn ∧ k = kTG) ∨ (c = .clSave fn ∧ k = kCL) ∨ (c = .lpSave fn ∧ k = kLP) ∨ (c = .thSave fn ∧ k = kTH) ∨
    (c = .stSave fn ∧ k = kST) ∨ (c = .msSave fn ∧ k = kMS)) : exec c s = .next (tabSave s k) := by
  obtain ⟨rfl, rfl⟩ | ⟨rfl, rfl⟩ | ⟨rfl, rfl⟩ | ⟨rfl, rfl⟩ | ⟨rfl, rfl⟩ | ⟨rfl, rfl⟩ := h
  · exact exec_fabWrite s 2 hw (by simpa using hr)
  · exact exec_tabWrite s _ hw
  · exact exec_tabWrite s _ hw
  · exact exec_fabWrite s 2 hw (by simpa using hr)
  · exact exec_fabWrite s 2 hw (by simpa using hr)
  · exact exec_tabWrite s _ hw

end

theorem tabLoad_free {k : Nat} (h : tabBusy s k = false) : (tab (tabLoad s k) k).running = 1 ∧ (tab (tabLoad s k) k).lastErr = 0 ∧
    (tab (tabLoad s k) k).dirty = (tab s k).dirty := by
  have e : tabLoad s k = tabStart s k 1 := if_neg (by rw [h]; decide)
  rw [e]
  unfold tabStart
  rw [tab_setTab_self]
  exact ⟨rfl, rfl, rfl⟩

theorem tab_tabRefuse (k : Nat) : tab (tabRefuse s k) k = { tab s k with lastErr := 4 } := by
  have h : (tabRefuse s k).tabs = (setTab s k { tab s k with lastErr := 4 }).tabs := post_tabs ..
  unfold tab at h ⊢
  rw [h]
  exact tab_setTab_self ..

theorem tabLoad_busy {k : Nat} (h : tabBusy s k = true) : (tab (tabLoad s k) k).running = (tab s k).running ∧
    (tab (tabLoad s k) k).lastErr = 4 := by
  have e : tabLoad s k = tabRefuse s k := if_pos h
  rw [e, tab_tabRefuse]
  exact ⟨rfl, rfl⟩

/-! ### The end of a command -/

theorem setRes_part {β : Type} {π : State → β} (hq : ∀ s v, π { s with cmdq := v } = π s) (tag sct sc : Nat) (d0 d1 : Word) :
    π (setRes s tag sct sc d0 d1) = π s := by
  unfold setRes
  split
  · rfl
  · exact hq ..

theorem tabEnd_part {β : Type} {π : State → β} (hq : ∀ s v, π { s with cmdq := v } = π s) (hr : ∀ s v, π { s with regs := v } = π s)
    (ht : ∀ s v, π { s with tabs := v } = π s) (k err : Nat) : π (tabEnd s k err) = π s := by
  unfold tabEnd
  extract_lets x s1 s2
  have h2 : π s2 = π s := by
    unfold s2
    split
    · exact (hr ..).trans (ht ..)
    · exact ht ..
  split
  · exact (setRes_part s2 hq ..).trans h2
  · exact h2

theorem tabEnd_bore (k err : Nat) : (tabEnd s k err).bore = s.bore :=
  tabEnd_part s (π := State.bore) (fun _ _ => rfl) (fun _ _ => rfl) (fun _ _ => rfl) k err

theorem tabEnd_flash (k err : Nat) : (tabEnd s k err).flash = s.flash :=
  tabEnd_part s (π := State.flash) (fun _ _ => rfl) (fun _ _ => rfl) (fun _ _ => rfl) k err

theorem tabEnd_chans (k err : Nat) : (tabEnd s k err).chans = s.chans := chans_of_quiet (tabEnd_quiet ..)

theorem tab_of_tabs {s t : State} (h : t.tabs = s.tabs) (k : Nat) : tab t k = tab s k := by
  unfold tab
  rw [h]

/-! ### The end of a LOAD -/

section
variable (k : Nat)

/-- A command that ends with an error tells its page and moves nothing. -/
theorem tabEnd_error {k : Nat} (src err : Nat) (d : Word) (he : err < 16) : let t := tabEnd (post s (tabPage k) src d) k err
    (tab t k).running = 0 ∧ (tab t k).lastErr.toNat = err ∧ SameBore s t ∧ t.cal = s.cal ∧ t.flash = s.flash := by
  refine ⟨congrArg TabCmd.running (tab_tabEnd ..), ?_, fun a => boreByte_of_bore ((tabEnd_bore ..).trans (post_bore ..)) a,
    (tabEnd_cal ..).trans (post_cal ..), (tabEnd_flash ..).trans (post_flash ..)⟩
  rw [tab_tabEnd]
  exact Nat.mod_eq_of_lt he

/-- The content of an image and its GEN stand in the table and its page. -/
def loadImage (s : State) (k : Nat) : State :=
  let u := tabRestore s k (cellsFrom s.flash.cal (calAt k + 64) (payloadLen k) 0)
  setGen u k (imageGen u.flash.cal k)

theorem tabLoadDone_ok {k : Nat} (hr : (tab s k).running = 1) (hf : flashReads s = true) (hc : calHas s k = true) :
    tabLoadDone s k true = tabRedo (tabEnd (setTab (loadImage s k) k { tab (loadImage s k) k with loaded := true, dirty := 0 }) k 0) k := by
  unfold tabLoadDone
  rw [if_neg (by rw [hr]; decide), if_neg (by rw [hf]; decide), if_neg (by rw [hc]; decide)]
  rfl

theorem tabLoadDone_outputs (ok : Bool) : SameOutputs s (tabLoadDone s k ok) :=
  sameOutputs_of_chans ((tabLoadDone_keeps (may := { slots := true, bore := true, cal := true }) rfl rfl rfl Keeps.rfl).chans rfl)

theorem tabLoadDone_loads {k : Nat} (hr : (tab s k).running = 1) (hf : flashReads s = true) (hc : calHas s k = true) :
    (tab (tabLoadDone s k true) k).running = 0 ∧ (tab (tabLoadDone s k true) k).loaded = true ∧
      (tab (tabLoadDone s k true) k).dirty = 0 ∧ (tab (tabLoadDone s k true) k).lastErr = 0 := by
  rw [tabLoadDone_ok s hr hf hc, tab_of_tabs (eq_of_tabsAndBoot _ (tabRedo_tabsAndBoot ..)).1, tab_tabEnd, tab_setTab_self]
  exact ⟨rfl, rfl, rfl, rfl⟩

theorem tabLoadDone_none {k : Nat} (hr : (tab s k).running = 1) (hf : flashReads s = true) (hc : calHas s k = false) :
    (tab (tabLoadDone s k true) k).running = 0 ∧ (tab (tabLoadDone s k true) k).lastErr = 3 ∧ SameBore s (tabLoadDone s k true) := by
  have e : tabLoadDone s k true = tabEnd (post s (tabPage k) (loadSrc k) 3) k 3 := by
    unfold tabLoadDone
    rw [if_neg (by rw [hr]; decide), if_neg (by rw [hf]; decide), if_pos (by rw [hc]; decide)]
  obtain ⟨h1, h2, h3, -⟩ := tabEnd_error s (k := k) (loadSrc k) 3 3 (by decide)
  rw [e]
  exact ⟨h1, BitVec.eq_of_toNat_eq h2, h3⟩

theorem tabLoadDone_failed {k : Nat} (hr : (tab s k).running = 1) :
    (tab (tabLoadDone s k false) k).running = 0 ∧ (tab (tabLoadDone s k false) k).lastErr = 2 ∧ SameBore s (tabLoadDone s k false) ∧
      (tabLoadDone s k false).cal.coef = s.cal.coef := by
  have e : tabLoadDone s k false = tabEnd (post s (tabPage k) (loadSrc k) 2) k 2 := by
    unfold tabLoadDone
    rw [if_neg (by rw [hr]; decide), if_pos (by rfl)]
  obtain ⟨h1, h2, h3, h4, -⟩ := tabEnd_error s (k := k) (loadSrc k) 2 2 (by decide)
  rw [e]
  exact ⟨h1, BitVec.eq_of_toNat_eq h2, h3, congrArg Cal.coef h4⟩

end

/-! ### SAVE -/

theorem parSweep_clean (k : Nat) (h : s.bore.badPar = []) : parSweep s k = s := by
  unfold parSweep
  rw [h]
  rfl

/-- A SAVE of the content of `s` runs. -/
def SaveRuns (s : State) (k : Nat) (t : State) : Prop :=
  (tab t k).running = 2 ∧ (tab t k).dirty = 0 ∧ (tab t k).copy = tabContent s k ∧ (tab t k).lastErr = 0

theorem tabSaveStart_runs (k : Nat) : SaveRuns s k (tabSaveStart s k) := by
  have h : tabContent (tabStart s k 2) k = tabContent s k := rfl
  unfold SaveRuns tabSaveStart
  dsimp only
  rw [tab_setTab_self, h]
  unfold tabStart
  rw [tab_setTab_self]
  exact ⟨rfl, rfl, rfl, rfl⟩

theorem tabSave_starts {k : Nat} (hb : tabBusy s k = false) (hp : k ≤ kMS → s.bore.badPar = [])
    (hs : k = kST → badSetpoints s = []) (hm : k = kMS → badSeqs s = []) :
    SaveRuns s k (tabSave s k) := by
  have hw : (if k ≤ kMS then parSweep s k else s) = s := by
    split
    · next h => exact parSweep_clean s k (hp h)
    · rfl
  have h0 := tabSaveStart_runs s k
  have hst : badSetpoints (tabSaveStart s k) = badSetpoints s := rfl
  have hsq : badSeqs (tabSaveStart s k) = badSeqs s := rfl
  have hn : ∀ (u : State) l, (noteSetpoints u l).tabs = u.tabs := fun u l => rfl
  have hq : ∀ (u : State) l, (noteSeqs u l).tabs = u.tabs := fun u l => rfl
  unfold tabSave
  rw [if_neg (by rw [hb]; decide)]
  extract_lets u b1 u1 b2 u2
  have hu : u = tabSaveStart s k := by unfold u; rw [hw]
  clear_value u
  subst hu
  split
  · next h =>
    have hb1 : b1 = [] := hst.trans (hs h)
    rw [hb1, if_pos List.isEmpty_nil]
    unfold SaveRuns tab at h0 ⊢
    rwa [hn]
  · split
    · next h =>
      have hb2 : b2 = [] := hsq.trans (hm h)
      rw [hb2, if_pos List.isEmpty_nil]
      unfold SaveRuns tab at h0 ⊢
      rwa [hq]
    · exact h0

/-! ### The end of a SAVE -/

/-- A SAVE of the page has ended with its image in CAL. -/
def Saved (s : State) (k : Nat) (t : State) : Prop :=
  (tab t k).running = 0 ∧ (tab t k).lastErr = 0 ∧ wordAt t.flash.cal (calAt k) = 0x4C41_4358 ∧
    wordAt t.flash.cal (calAt k + 8) = imageGen s.flash.cal k + 1 ∧ SameBore s t

theorem tabSaveDone_saves {k : Nat} (hr : (tab s k).running = 2) (hd : domOn s 9 = true) (hf : s.flash.state = .ready) :
    Saved s k (tabSaveDone s k true) := by
  unfold tabSaveDone
  rw [if_neg (by rw [hr]; decide), if_neg (by rw [hd, hf]; decide)]
  extract_lets g _ u v
  have hw : (setGen (journal v 12 [BitVec.ofNat 32 k, g, 0, 0]) k g).flash.cal = putImage s.flash.cal k g (tab s k).copy ∧
      (setGen (journal v 12 [BitVec.ofNat 32 k, g, 0, 0]) k g).bore = s.bore := by
    unfold setGen
    split <;> exact ⟨rfl, rfl⟩
  obtain ⟨h0, h8⟩ := putImage_header s.flash.cal k g (tab s k).copy
  generalize setGen _ k g = w at hw ⊢
  have hf : (tabEnd w k 0).flash.cal = putImage s.flash.cal k g (tab s k).copy := (congrArg Flash.cal (tabEnd_flash ..)).trans hw.1
  unfold Saved
  rw [hf, tab_tabEnd]
  exact ⟨rfl, rfl, h0, h8, fun a => boreByte_of_bore ((tabEnd_bore ..).trans hw.2) a⟩

theorem tabSaveDone_failed {k : Nat} (hr : (tab s k).running = 2) : let t := tabSaveDone s k false
    (tab t k).running = 0 ∧ (tab t k).lastErr = 2 ∧ t.flash.cal = s.flash.cal := by
  have e : tabSaveDone s k false = tabEnd (post s (tabPage k) (saveSrc k) 2) k 2 := by
    unfold tabSaveDone
    rw [if_neg (by rw [hr]; decide), if_pos (by rfl)]
    rfl
  obtain ⟨h1, h2, -, -, h5⟩ := tabEnd_error s (k := k) (saveSrc k) 2 2 (by decide)
  rw [e]
  exact ⟨h1, BitVec.eq_of_toNat_eq h2, congrArg Flash.cal h5⟩

/-- Settles O32: a page's command is one step of its engine, and an image's header is the first words that are put. -/
theorem tableLoadAndSave : Obligations.TableLoadAndSave := by
  intro s
  refine ⟨fun fn c k hc hw hr => ?_, fun ok c k hc hr => ?_, fun fn c k hc hw hr hb => ?_, fun ok c k hc hr => ?_⟩
  · have he := exec_load hw hr hc
    exact ⟨fun hb => ⟨_, he, tabLoad_free s hb⟩, fun hb => ⟨_, he, tabLoad_busy s hb⟩⟩
  · have he : exec c s = .next (tabLoadDone s k ok) := by
      obtain ⟨rfl, rfl⟩ | ⟨rfl, rfl⟩ | ⟨rfl, rfl⟩ | ⟨rfl, rfl⟩ | ⟨rfl, rfl⟩ | ⟨rfl, rfl⟩ := hc <;> rfl
    refine ⟨fun ho hf hi => ?_, fun ho hf hi => ?_, fun ho => ?_⟩ <;> subst ho
    · obtain ⟨h1, h2, h3, h4⟩ := tabLoadDone_loads s hr hf hi
      exact ⟨_, he, h1, h2, h3, h4, tabLoadDone_outputs s k true⟩
    · exact ⟨_, he, tabLoadDone_none s hr hf hi⟩
    · exact ⟨_, he, tabLoadDone_failed s hr⟩
  · have he : exec c s = .next (tabSave s k) := by
      refine exec_save hw hr ?_
      obtain ⟨h, e, -⟩ | h | h | h | ⟨h, e, -⟩ | ⟨h, e, -⟩ := hc
      · exact .inl ⟨h, e⟩
      · exact .inr (.inl h)
      · exact .inr (.inr (.inl h))
      · exact .inr (.inr (.inr (.inl h)))
      · exact .inr (.inr (.inr (.inr (.inl ⟨h, e⟩))))
      · exact .inr (.inr (.inr (.inr (.inr ⟨h, e⟩))))
    have hp : k ≤ kMS → s.bore.badPar = [] := by
      obtain ⟨-, -, h⟩ | ⟨-, rfl⟩ | ⟨-, rfl⟩ | ⟨-, rfl⟩ | ⟨-, -, h, -⟩ | ⟨-, -, h, -⟩ := hc
      · exact fun _ => h
      · exact fun h => absurd h (by decide)
      · exact fun h => absurd h (by decide)
      · exact fun h => absurd h (by decide)
      · exact fun _ => h
      · exact fun _ => h
    refine ⟨_, he, tabSave_starts s hb hp (fun h => ?_) (fun h => ?_)⟩ <;> subst h
    · simp at hc
      exact hc.2.2
    · simp at hc
      exact hc.2.2
  · have he : exec c s = .next (tabSaveDone s k ok) := by
      obtain ⟨rfl, rfl⟩ | ⟨rfl, rfl⟩ | ⟨rfl, rfl⟩ | ⟨rfl, rfl⟩ | ⟨rfl, rfl⟩ | ⟨rfl, rfl⟩ := hc <;> rfl
    refine ⟨fun ho hd hf => ?_, fun ho => ?_⟩ <;> subst ho
    · exact ⟨_, he, tabSaveDone_saves s hr hd hf⟩
    · exact ⟨_, he, tabSaveDone_failed s hr⟩

end Sys2Proof.Machine
end

