-- ==== Sys2Proof/Proofs/TableContent.lean ====
section
/-! O33. What LOAD, CHECK and DEFAULT do to the content of a table page (R171, R264, R268, R309, R356, R470). -/

namespace Sys2Proof.Machine

open Sys2Proof.Safety (Yields SameBore mayWrite)

variable (s : State)

/-! ### Bytes and words of a copied image -/

theorem wordAt_cellsFrom (m : List Host.Cell) (lo n a : Nat) (h : a + 4 ≤ n) : wordAt (cellsFrom m lo n 0) a = wordAt m (lo + a) := by
  have hb : ∀ j, j < 4 → tabGet (fun _ => (0 : Byte)) (cellsFrom m lo n 0) (a + j) = tabGet (fun _ => 0) m (lo + a + j) := fun j hj => by
    have := tabGet_cellsFrom m lo n 0 (a + j) (by omega)
    rwa [Nat.zero_add, ← Nat.add_assoc] at this
  unfold wordAt
  dsimp only
  rw [hb 0 (by decide), hb 1 (by decide), hb 2 (by decide), hb 3 (by decide)]

/-- A list of words that is taken from a range into a table. -/
theorem tabGet_words {d : Nat → Word} (g : Nat → Word) {n i : Nat} (h : i < n) :
    tabGet d ((List.range n).filterMap (fun i => let w := g i; if w = d i then none else some (i, w))) i = g i := by
  rw [List.range_eq_range']
  exact tabGet_range d g 0 n i ⟨Nat.zero_le _, by omega⟩

theorem cellsFrom_shift (m : List Host.Cell) (lo n dst : Nat) : (cellsFrom m lo n 0).map (fun c => (c.1 + dst, c.2)) = cellsFrom m lo n dst := by
  unfold cellsFrom
  rw [List.map_map]
  rfl

/-- The bytes of the Bore after a table of the Bore has taken new content. -/
theorem loadRegion_mem (k : Nat) (p : List Host.Cell) : (loadRegion s k p).bore.mem =
    cellsInto s.bore.mem (tabBase k) (payloadLen k) (p.map (fun c => (c.1 + tabBase k, c.2))) := by
  unfold loadRegion
  dsimp only
  split
  · next p i _ => exact congrArg Bore.mem (bore_of_still (useCheck_still _ p i))
  · rfl

/-! ### The content of a kind, replaced or checked: the engine's cases by page -/

theorem tabRestore_coefficients (p : List Host.Cell) : tabRestore s kCL p = loadMtCal
    { s with
      cal := { s.cal with
        coef := (List.range coefCount).filterMap (fun i =>
          let w := wordAt p (4 * i)
          if w = identity then none else some (i, w)) } } p := by
  unfold tabRestore
  simp only

theorem tabRestore_kernels (p : List Host.Cell) : tabRestore s kTH p = setRegsFrom
    { s with
      thermal := { s.thermal with
        badKernels := []
        kernels := (List.range 2048).filterMap (fun i =>
          let w := wordAt p (4 * i)
          if w = kDefault i then none else some (i, w)) } } p 8192 ((List.range 4).map (fun j => ro pgTHM (0x80 + 4 * j))) := by
  unfold tabRestore
  simp only

theorem tabCheck_setpoints : tabCheck s kST = if tabBusy s kST then tabRefuse s kST else
    let u := parSweep (tabStart s kST 3) kST
    tabEnd (noteSetpoints u (badSetpoints u)) kST 0 := by
  unfold tabCheck
  simp only

theorem tabCheck_shapes : tabCheck s kTG = if tabBusy s kTG then tabRefuse s kTG else
    let u := parSweep (tabStart s kTG 3) kTG
    tabEnd (setReg u (ro pgTONGUE 0x48) (match oddShapes u with
      | [] => 0
      | i :: _ => pack [(0, 15, (oddShapes u).length), (16, 12, i % 4096), (28, 3, i / 4096), (31, 1, 1)])) kTG 0 := by
  unfold tabCheck
  simp only <;> (generalize oddShapes _ = l; cases l <;> rfl)

theorem tabCheck_seqs : tabCheck s kMS = if tabBusy s kMS then tabRefuse s kMS else
    let u := parSweep (tabStart s kMS 3) kMS
    tabEnd (noteSeqs u (badSeqs u)) kMS 0 := by
  unfold tabCheck
  simp only

theorem tabCheck_kernels : tabCheck s kTH = if tabBusy s kTH then tabRefuse s kTH else
    match badKernelWords (tabStart s kTH 3) with
    | [] => tabEnd (tabStart s kTH 3) kTH 0
    | i :: _ => tabEnd (putReg (tabStart s kTH 3) (ro pgTHM 0x50) 0 11 i) kTH 1 := by
  unfold tabCheck
  simp only <;> (generalize badKernelWords _ = l; cases l <;> rfl)

/-! ### The content after a LOAD -/

theorem tabRedo_outside (k : Nat) : (tabRedo s k).outside = s.outside := by
  unfold tabRedo
  split
  · exact redoAll_outside s
  · split
    · exact redoIf_outside s _
    · rfl

theorem tabRedo_bore (k : Nat) : (tabRedo s k).bore = s.bore := (tabRedo_keeps (may := { slots := true }) rfl Keeps.rfl).bore rfl

/-- What the end of a LOAD leaves as the image's content left it. -/
theorem loadEnd_leaves (u : State) (k : Nat) (x : TabCmd) : let t := tabRedo (tabEnd (setTab u k x) k 0) k
    t.bore = u.bore ∧ t.cal = u.cal ∧ t.loops = u.loops ∧ t.thermal = u.thermal := by
  have hq := tabEnd_quiet (setTab u k x) k 0
  have ho := tabRedo_outside (tabEnd (setTab u k x) k 0) k
  exact ⟨(tabRedo_bore ..).trans (tabEnd_bore ..), (cal_of_outside ho).trans (cal_of_quiet hq),
    (loops_of_outside ho).trans (loops_of_quiet hq), (thermal_of_outside ho).trans (thermal_of_quiet hq)⟩

theorem setGen_part {β : Type} {π : State → β} (hr : ∀ s v, π { s with regs := v } = π s) (k : Nat) (g : Word) : π (setGen s k g) = π s := by
  unfold setGen
  split
  · exact hr ..
  · rfl

section
variable {k : Nat} (hr : (tab s k).running = 1) (hf : flashReads s = true) (hc : calHas s k = true)
include hr hf hc

theorem load_part {β : Type} {π : State → β} (hp : ∀ s v, π { s with regs := v } = π s)
    (hl : let u := loadImage s k
      ∀ t : State, t.bore = u.bore → t.cal = u.cal → t.loops = u.loops → t.thermal = u.thermal → π t = π u) :
    π (tabLoadDone s k true) = π (tabRestore s k (cellsFrom s.flash.cal (calAt k + 64) (payloadLen k) 0)) := by
  rw [tabLoadDone_ok s hr hf hc]
  obtain ⟨h1, h2, h3, h4⟩ := loadEnd_leaves (loadImage s k) k { tab (loadImage s k) k with loaded := true, dirty := 0 }
  exact (hl _ h1 h2 h3 h4).trans (setGen_part _ hp ..)

/-- A table of the Bore holds the image's payload, and no other byte moves. -/
theorem load_bytes (hk : k = kST ∨ k = kTG ∨ k = kMS) (hm : memWf s.flash.cal = true) :
    (∀ i, i < payloadLen k → boreByte (tabLoadDone s k true) (tabBase k + i) =
      tabGet (fun _ => (0 : Byte)) s.flash.cal (calAt k + 64 + i)) ∧
    ∀ a, a < tabBase k ∨ tabBase k + payloadLen k ≤ a → boreByte (tabLoadDone s k true) a = boreByte s a := by
  have hb := load_part s hr hf hc (π := State.bore) (fun _ _ => rfl) (fun t h1 _ _ _ => h1)
  have he : tabRestore s k (cellsFrom s.flash.cal (calAt k + 64) (payloadLen k) 0) =
      loadRegion s k (cellsFrom s.flash.cal (calAt k + 64) (payloadLen k) 0) := by
    obtain rfl | rfl | rfl := hk <;> rfl
  have hmem : (tabLoadDone s k true).bore.mem = cellsInto s.bore.mem (tabBase k) (payloadLen k)
      (cellsFrom s.flash.cal (calAt k + 64) (payloadLen k) (tabBase k)) := by
    rw [hb, he, loadRegion_mem, cellsFrom_shift]
  unfold boreByte
  rw [hmem]
  refine ⟨fun i hi => ?_, fun a ha => tabGet_cellsInto_out _ _ _ _ _ ha⟩
  rw [tabGet_cellsInto_in _ _ _ _ _ (cellsFrom_rising _ _ _ _ hm) ⟨Nat.le_add_right .., by omega⟩]
  exact tabGet_cellsFrom _ _ _ _ _ hi

end

theorem loadMtCal_leaves (p : List Host.Cell) : (loadMtCal s p).bore = s.bore ∧ (loadMtCal s p).cal.coef = s.cal.coef := by
  unfold loadMtCal
  dsimp only
  split
  · exact ⟨setRegsFrom_part _ (π := State.bore) (fun _ _ => rfl) .., setRegsFrom_part _ (π := fun u => u.cal.coef) (fun _ _ => rfl) ..⟩
  · exact ⟨rfl, rfl⟩

theorem sameBore_load {k : Nat} (hr : (tab s k).running = 1) (hf : flashReads s = true) (hc : calHas s k = true)
    (hb : ∀ p, (tabRestore s k p).bore = s.bore) : SameBore s (tabLoadDone s k true) := fun a =>
  boreByte_of_bore ((load_part s hr hf hc (π := State.bore) (fun _ _ => rfl) (fun _ h1 _ _ _ => h1)).trans (hb _)) a

section
variable (hf : flashReads s = true)
include hf

theorem load_coefficients (hr : (tab s kCL).running = 1) (hc : calHas s kCL = true) : SameBore s (tabLoadDone s kCL true) ∧
    ∀ i, i < coefCount → coef (tabLoadDone s kCL true) i = calWord s kCL (4 * i) := by
  refine ⟨sameBore_load s hr hf hc fun p => (loadMtCal_leaves ..).1, fun i hi => ?_⟩
  have h := load_part s hr hf hc (π := fun u => u.cal.coef) (fun _ _ => rfl) (fun t _ h2 _ _ => congrArg Cal.coef h2)
  rw [coef_of_cal h i, tabRestore_coefficients, coef_of_cal (loadMtCal_leaves _ _).2 i]
  unfold coef
  rw [tabGet_words (fun i => wordAt (cellsFrom s.flash.cal (calAt kCL + 64) (payloadLen kCL) 0) (4 * i)) hi]
  have hi : i < 167936 := hi
  exact wordAt_cellsFrom _ _ _ _ (show 4 * i + 4 ≤ 671776 by omega)

theorem load_loops (hr : (tab s kLP).running = 1) (hc : calHas s kLP = true) : SameBore s (tabLoadDone s kLP true) ∧
    ∀ ch : Chan, (loopCh (tabLoadDone s kLP true) ch.val).cfg = (calWord s kLP (4 * ch.val)).setWidth 13 := by
  refine ⟨sameBore_load s hr hf hc fun p => setRegsFrom_part _ (π := State.bore) (fun _ _ => rfl) .., fun ch => ?_⟩
  have h := load_part s hr hf hc (π := State.loops) (fun _ _ => rfl) (fun t _ _ h3 _ => h3)
  have hl : ∀ p, (tabRestore s kLP p).loops = tabMap (fun _ => ({} : LoopCh)) s.loops 0 32768
      (fun ch l => { l with cfg := (wordAt p (4 * ch)).setWidth 13 }) := fun p =>
    setRegsFrom_part _ (π := State.loops) (fun _ _ => rfl) ..
  unfold loopCh
  rw [h, hl, tabGet_tabMap_in _ _ _ _ _ _ ⟨Nat.zero_le _, by have := ch.isLt; omega⟩]
  have hw : 4 * ch.val + 4 ≤ 0x2_1000 := by have := ch.isLt; omega
  exact congrArg (BitVec.setWidth 13) (wordAt_cellsFrom s.flash.cal (calAt kLP + 64) (payloadLen kLP) (4 * ch.val) hw)

theorem load_kernels (hr : (tab s kTH).running = 1) (hc : calHas s kTH = true) : SameBore s (tabLoadDone s kTH true) ∧
    ∀ i, i < 2048 → tabGet kDefault (tabLoadDone s kTH true).thermal.kernels i = calWord s kTH (4 * i) := by
  refine ⟨sameBore_load s hr hf hc fun p => setRegsFrom_part _ (π := State.bore) (fun _ _ => rfl) .., fun i hi => ?_⟩
  have h := load_part s hr hf hc (π := fun u => u.thermal.kernels) (fun _ _ => rfl) (fun t _ _ _ h4 => congrArg Thermal.kernels h4)
  have hl : ∀ p, (tabRestore s kTH p).thermal.kernels = (List.range 2048).filterMap (fun i =>
      let w := wordAt p (4 * i)
      if w = kDefault i then none else some (i, w)) := fun p => by
    have hk : ∀ (u : State) a offs, (setRegsFrom u p a offs).thermal.kernels = u.thermal.kernels := fun u a offs =>
      setRegsFrom_part u (π := fun u : State => u.thermal.kernels) (fun _ _ => rfl) ..
    rw [tabRestore_kernels, hk]
  rw [h, hl]
  exact (tabGet_words (fun i => wordAt (cellsFrom s.flash.cal (calAt kTH + 64) (payloadLen kTH) 0) (4 * i)) hi).trans
    (wordAt_cellsFrom _ _ _ _ (show 4 * i + 4 ≤ 8208 by omega))

end

/-! ### CHECK -/

theorem getReg_tabEnd (k err : Nat) {off : Nat} (h : ∀ o, timesOff k = some o → off ≠ ro (tabPage k) o) :
    getReg (tabEnd s k err) off = getReg s off := by
  unfold tabEnd
  extract_lets x s1 s2
  have h2 : getReg s2 off = getReg s off := by
    unfold s2
    split
    · next o ho => exact (getReg_setReg_other _ _ _ _ (h o ho)).trans (getReg_of_regs rfl off)
    · exact getReg_of_regs rfl off
  have hs : ∀ (u : State) tag sct sc d0 d1, getReg (setRes u tag sct sc d0 d1) off = getReg u off := fun u tag sct sc d0 d1 =>
    getReg_of_regs (setRes_part u (π := State.regs) (fun _ _ => rfl) ..) off
  split
  · exact (hs ..).trans h2
  · exact h2

section
variable (k : Nat)

theorem badSetpoints_of_bore {s t : State} (h : t.bore = s.bore) : badSetpoints t = badSetpoints s := by
  simp only [badSetpoints, spWords, boreWords, boreWord, parBad, h]

theorem badSeqs_of_bore {s t : State} (h : t.bore = s.bore) : badSeqs t = badSeqs s := by
  simp only [badSeqs, boreWord, parBad, h]

theorem oddShapes_of_bore {s t : State} (h : t.bore = s.bore) : oddShapes t = oddShapes s := by
  simp only [oddShapes, shapeWords, boreWords, boreWord, h]

/-- The check of a page has ended without an error and without moving a byte. -/
def Checked (s : State) (k : Nat) (t : State) : Prop := (tab t k).running = 0 ∧ (tab t k).lastErr = 0 ∧ SameBore s t

theorem tabEnd_checked {u : State} (h : u.bore = s.bore) : Checked s k (tabEnd u k 0) := by
  refine ⟨congrArg TabCmd.running (tab_tabEnd ..), congrArg TabCmd.lastErr (tab_tabEnd ..), fun a => boreByte_of_bore ((tabEnd_bore ..).trans h) a⟩

end

section
variable (hb : s.bore.badPar = [])
include hb

omit hb in
theorem noteSetpoints_bore (l : List Nat) : (noteSetpoints s l).bore = s.bore := by
  unfold noteSetpoints
  rw [setReg_bore, setReg_bore]

omit hb in
theorem noteSeqs_bore (l : List Nat) : (noteSeqs s l).bore = s.bore := by
  unfold noteSeqs
  rw [setReg_bore, setReg_bore]

omit hb in
theorem getReg_noteSetpoints (l : List Nat) : getReg (noteSetpoints s l) (ro pgSTAB 0x48) = BitVec.ofNat 32 l.length := by
  unfold noteSetpoints
  rw [getReg_setReg_other _ _ _ _ (by decide), getReg_setReg_self]

omit hb in
theorem getReg_noteSeqs (l : List Nat) : getReg (noteSeqs s l) (ro pgMEAS 0x4C) = BitVec.ofNat 32 l.length := by
  unfold noteSeqs
  rw [getReg_setReg_other _ _ _ _ (by decide), getReg_setReg_self]

theorem stCheck_checks (h : tabBusy s kST = false) :
    getReg (tabCheck s kST) (ro pgSTAB 0x48) = BitVec.ofNat 32 (badSetpoints s).length ∧ Checked s kST (tabCheck s kST) := by
  have e : tabCheck s kST = tabEnd (noteSetpoints (tabStart s kST 3) (badSetpoints (tabStart s kST 3))) kST 0 := by
    rw [tabCheck_setpoints, if_neg (by rw [h]; decide), parSweep_clean (tabStart s kST 3) kST hb]
  rw [e, badSetpoints_of_bore (show (tabStart s kST 3).bore = s.bore from rfl)]
  generalize badSetpoints s = l
  exact ⟨(getReg_tabEnd _ _ _ (by decide)).trans (getReg_noteSetpoints ..), tabEnd_checked s kST (noteSetpoints_bore ..)⟩

theorem msCheck_checks (h : tabBusy s kMS = false) :
    getReg (tabCheck s kMS) (ro pgMEAS 0x4C) = BitVec.ofNat 32 (badSeqs s).length ∧ Checked s kMS (tabCheck s kMS) := by
  have e : tabCheck s kMS = tabEnd (noteSeqs (tabStart s kMS 3) (badSeqs (tabStart s kMS 3))) kMS 0 := by
    rw [tabCheck_seqs, if_neg (by rw [h]; decide), parSweep_clean (tabStart s kMS 3) kMS hb]
  rw [e, badSeqs_of_bore (show (tabStart s kMS 3).bore = s.bore from rfl)]
  generalize badSeqs s = l
  exact ⟨(getReg_tabEnd _ _ _ (by decide)).trans (getReg_noteSeqs ..), tabEnd_checked s kMS (noteSeqs_bore ..)⟩

theorem tgCheck_checks (h : tabBusy s kTG = false) :
    fld (getReg (tabCheck s kTG) (ro pgTONGUE 0x48)) 0 15 = (oddShapes s).length ∧ Checked s kTG (tabCheck s kTG) := by
  have e : tabCheck s kTG = tabEnd (setReg (tabStart s kTG 3) (ro pgTONGUE 0x48) (match oddShapes (tabStart s kTG 3) with
      | [] => 0
      | i :: _ => pack [(0, 15, (oddShapes (tabStart s kTG 3)).length), (16, 12, i % 4096), (28, 3, i / 4096), (31, 1, 1)])) kTG 0 := by
    rw [tabCheck_shapes, if_neg (by rw [h]; decide), parSweep_clean (tabStart s kTG 3) kTG hb]
  have hl : (oddShapes s).length < 32768 := by
    have := (List.length_filter_le (fun i => shapeOdd (shapeWords s (i / 4096) (i % 4096))) (List.range 24576))
    rw [List.length_range] at this
    exact Nat.lt_of_le_of_lt this (by decide)
  rw [e, oddShapes_of_bore (show (tabStart s kTG 3).bore = s.bore from rfl)]
  generalize oddShapes s = l at hl ⊢
  refine ⟨?_, tabEnd_checked s kTG rfl⟩
  rw [getReg_tabEnd _ _ _ (by decide), getReg_setReg_self]
  cases l with
  | nil => rfl
  | cons i l =>
    unfold pack
    simp only [List.foldl_cons, List.foldl_nil]
    rw [fld_put_below _ _ _ _ _ _ (by decide), fld_put_below _ _ _ _ _ _ (by decide), fld_put_below _ _ _ _ _ _ (by decide),
      fld_put_self _ _ _ _ (by decide)]
    exact Nat.mod_eq_of_lt hl

end

theorem thCheck_checks (h : tabBusy s kTH = false) : (tab (tabCheck s kTH) kTH).running = 0 ∧
    (tab (tabCheck s kTH) kTH).lastErr = (if badKernelWords s = [] then 0 else 1) ∧
      (tabCheck s kTH).thermal.kernels = s.thermal.kernels := by
  have hs : badKernelWords (tabStart s kTH 3) = badKernelWords s := rfl
  have hk : ∀ u : State, ∀ err, (tabEnd u kTH err).thermal = u.thermal := fun u err => thermal_of_quiet (tabEnd_quiet ..)
  rw [tabCheck_kernels, if_neg (by rw [h]; decide), hs]
  generalize badKernelWords s = l
  cases l with
  | nil => exact ⟨congrArg TabCmd.running (tab_tabEnd ..), congrArg TabCmd.lastErr (tab_tabEnd ..), congrArg Thermal.kernels (hk ..)⟩
  | cons i l =>
    exact ⟨congrArg TabCmd.running (tab_tabEnd ..), congrArg TabCmd.lastErr (tab_tabEnd ..), congrArg Thermal.kernels (hk ..)⟩

/-! ### DEFAULT -/

section
variable {f : Nat → List Host.Cell} {b w : Nat} (hf : ∀ i, ∀ c ∈ f i, b + i * w ≤ c.1 ∧ c.1 < b + i * w + w)
include hf

/-- A byte of one of the blocks of a list. -/
theorem tabGet_blocks {i k : Nat} (hk : b + i * w ≤ k ∧ k < b + i * w + w) (n : Nat) (hi : i < n) :
    tabGet (fun _ => (0 : Byte)) ((List.range n).flatMap f) k = tabGet (fun _ => 0) (f i) k := by
  induction n with
  | zero => exact absurd hi (Nat.not_lt_zero i)
  | succ n ih =>
    rw [List.range_succ, List.flatMap_append, List.flatMap_singleton]
    by_cases hn : i = n
    · subst hn
      refine tabGet_append _ _ _ _ fun c hc => ?_
      obtain ⟨j, hj, hc⟩ := List.mem_flatMap.mp hc
      have hj := Nat.mul_le_mul_right w (Nat.succ_le_of_lt (List.mem_range.mp hj))
      rw [Nat.succ_mul] at hj
      have := hf j c hc
      omega
    · have hin : i < n := by omega
      rw [tabGet_append_left]
      · exact ih hin
      · intro c hc
        have hj := Nat.mul_le_mul_right w (Nat.succ_le_of_lt hin)
        rw [Nat.succ_mul] at hj
        have := hf n c hc
        omega

theorem blocks_rising (hr : ∀ i, ((f i).map (·.1)).Pairwise (· < ·)) (n : Nat) : (((List.range n).flatMap f).map (·.1)).Pairwise (· < ·) := by
  induction n with
  | zero => exact .nil
  | succ n ih =>
    rw [List.range_succ, List.flatMap_append, List.flatMap_singleton, List.map_append, List.pairwise_append]
    refine ⟨ih, hr n, fun x hx y hy => ?_⟩
    obtain ⟨c, hc, rfl⟩ := List.mem_map.mp hx
    obtain ⟨d, hd, rfl⟩ := List.mem_map.mp hy
    obtain ⟨j, hj, hc⟩ := List.mem_flatMap.mp hc
    have hj := Nat.mul_le_mul_right w (Nat.succ_le_of_lt (List.mem_range.mp hj))
    rw [Nat.succ_mul] at hj
    have := hf j c hc
    have := hf n d hd
    omega

theorem mem_blocks {n : Nat} {c : Host.Cell} (hc : c ∈ (List.range n).flatMap f) : b ≤ c.1 ∧ c.1 < b + n * w := by
  obtain ⟨j, hj, hc⟩ := List.mem_flatMap.mp hc
  have hj := Nat.mul_le_mul_right w (Nat.succ_le_of_lt (List.mem_range.mp hj))
  rw [Nat.succ_mul] at hj
  have := hf j c hc
  omega

end

/-- The built-in entries of reed `r`, at its place in the payload. -/
def builtinReed (r : Nat) : List Host.Cell := (List.range 48).flatMap fun e => wordCells (r * 512 + e * 8) (builtinEntry e)

theorem mem_builtinEntry (r e : Nat) (c : Host.Cell) (h : c ∈ wordCells (r * 512 + e * 8) (builtinEntry e)) :
    r * 512 + e * 8 ≤ c.1 ∧ c.1 < r * 512 + e * 8 + 8 := by
  obtain ⟨hl, hu⟩ := mem_wordCells h
  exact ⟨hl, Nat.lt_trans hu (Nat.add_lt_add_left (by decide) _)⟩

theorem mem_builtinReed (r : Nat) (c : Host.Cell) (h : c ∈ builtinReed r) : 0 + r * 512 ≤ c.1 ∧ c.1 < 0 + r * 512 + 512 := by
  have := mem_blocks (mem_builtinEntry r) h
  omega

theorem builtinSeq_blocks : builtinSeq = (List.range 1024).flatMap builtinReed := by
  have h : (fun r => (List.range 48).flatMap fun e => wordCells (r * 512 + e * 8) (builtinEntry e)) = builtinReed := funext fun r => by
    unfold builtinReed
    rfl
  unfold builtinSeq
  rw [h]

theorem builtinSeq_rising : (builtinSeq.map (·.1)).Pairwise (· < ·) := by
  rw [builtinSeq_blocks]
  exact blocks_rising mem_builtinReed (fun r => blocks_rising (mem_builtinEntry r) (fun _ => wordCells_rising _ _) 48) 1024

/-- The two words of a built-in entry. -/
theorem tabGet_builtinSeq {r e j : Nat} (hr : r < 1024) (he : e < 48) (hj : j < 8) :
    tabGet (fun _ => (0 : Byte)) builtinSeq (r * 512 + e * 8 + j) = if j < 4 then byteOf (builtinEntry e) j else 0 := by
  rw [builtinSeq_blocks, tabGet_blocks mem_builtinReed (i := r) (by omega) 1024 hr]
  refine (tabGet_blocks (mem_builtinEntry r) (i := e) (by omega) 48 he).trans ?_
  split
  · next h => exact tabGet_wordCells _ _ h
  · refine tabGet_of_absent _ _ _ fun c hc => ?_
    have := mem_wordCells hc
    omega

theorem tabGet_shift (l : List Host.Cell) (d k : Nat) :
    tabGet (fun _ => (0 : Byte)) (l.map (fun c => (c.1 + d, c.2))) (d + k) = tabGet (fun _ => 0) l k := by
  induction l with
  | nil => rfl
  | cons c l ih =>
    rw [List.map_cons]
    unfold tabGet
    by_cases h : k = c.1
    · rw [if_pos h, if_pos (by omega)]
    · rw [if_neg h, if_neg (by omega), ih]

theorem tabBase_seqs : tabBase kMS = 0xAC_0000 := by unfold tabBase; rfl

theorem payloadLen_seqs : payloadLen kMS = 0x8_0000 := by unfold payloadLen; rfl

theorem seqDefault_of (h : tabBusy s kMS = false) : ∃ u : State, u.bore.mem = (loadRegion s kMS builtinSeq).bore.mem ∧
    seqDefault s = tabEnd (setTab u kMS { tab u kMS with dirty := 1 }) kMS 0 := by
  refine ⟨loadRegion (tabStart s kMS 4) kMS builtinSeq, ?_, if_neg (by rw [h]; decide)⟩
  rw [loadRegion_mem, loadRegion_mem]
  rfl

theorem seqDefault_stores (h : tabBusy s kMS = false) : (∀ (r : Reed) (e : Fin 48),
    boreWord (seqDefault s) (seqAddr r.val e.val) = builtinEntry e.val ∧ boreWord (seqDefault s) (seqAddr r.val e.val + 4) = 0) ∧
      (tab (seqDefault s) kMS).dirty = 1 ∧ (tab (seqDefault s) kMS).running = 0 := by
  obtain ⟨u, hu, he⟩ := seqDefault_of s h
  have hm : (seqDefault s).bore.mem =
      cellsInto s.bore.mem (tabBase kMS) (payloadLen kMS) (builtinSeq.map fun c => (c.1 + tabBase kMS, c.2)) := by
    rw [he, tabEnd_bore, ← loadRegion_mem]
    exact hu
  refine ⟨fun r e => ?_, ?_, ?_⟩
  · have hb : ∀ j, j < 8 → tabGet (fun _ => (0 : Byte)) (seqDefault s).bore.mem (seqAddr r.val e.val + j) =
        if j < 4 then byteOf (builtinEntry e.val) j else 0 := fun j hj => by
      have hr := r.isLt
      have hl := e.isLt
      have ha : seqAddr r.val e.val + j = tabBase kMS + (r.val * 512 + e.val * 8 + j) := by
        rw [tabBase_seqs]
        unfold seqAddr
        omega
      have hin : tabBase kMS ≤ tabBase kMS + (r.val * 512 + e.val * 8 + j) ∧
          tabBase kMS + (r.val * 512 + e.val * 8 + j) < tabBase kMS + payloadLen kMS := by
        rw [payloadLen_seqs]
        omega
      rw [hm, ha, tabGet_cellsInto_in _ _ _ _ _ ?_ hin, tabGet_shift]
      · exact tabGet_builtinSeq hr hl hj
      · have h := builtinSeq_rising
        rw [List.pairwise_map] at h
        rw [List.map_map, List.pairwise_map]
        exact h.imp fun h => Nat.add_lt_add_right h _
    exact ⟨wordAt_of_bytes fun j hj => (hb j (by omega)).trans (if_pos hj), wordAt_of_bytes fun j hj => by
      rw [Nat.add_assoc, hb (4 + j) (by omega), if_neg (by omega)]
      unfold byteOf
      simp⟩
  · rw [he, tab_tabEnd, tab_setTab_self]
  · rw [he, tab_tabEnd]

theorem coefDefault_sets (h : tabBusy s kCL = false) (i : Nat) :
    coef (coefDefault s) i = if 98304 ≤ i ∧ i ≤ 163839 then coef s i else identity := by
  have hc : (coefDefault s).cal.coef = s.cal.coef.filter (fun p => decide (98304 ≤ p.1 ∧ p.1 ≤ 163839)) := by
    unfold coefDefault
    rw [if_neg (by rw [h]; decide)]
    dsimp only
    rw [tabEnd_cal]
    rfl
  unfold coef
  rw [hc]
  split
  · next hi => exact tabGet_filter _ _ _ (fun k => decide (98304 ≤ k ∧ k ≤ 163839)) (by simpa using hi)
  · next hi => exact tabGet_filter_out _ _ (fun k => decide (98304 ≤ k ∧ k ≤ 163839)) i (by simpa using hi)

/-- Settles O33: an image's payload is copied byte by byte or word by word, and a check moves no byte. -/
theorem tableContent : Obligations.TableContent := by
  intro s
  refine ⟨fun hm hf => ⟨fun c k hc hr hi => ?_, fun hr hc => ⟨_, rfl, load_coefficients s hf hr hc⟩,
    fun hr hc => ⟨_, rfl, load_loops s hf hr hc⟩, fun hr hc => ⟨_, rfl, load_kernels s hf hr hc⟩⟩, fun fn => ⟨?_, ?_, ?_, ?_, ?_, ?_⟩⟩
  · have he : exec c s = .next (tabLoadDone s k true) := by
      obtain ⟨rfl, rfl⟩ | ⟨rfl, rfl⟩ | ⟨rfl, rfl⟩ := hc <;> rfl
    refine ⟨_, he, load_bytes s hr hf hi ?_ hm⟩
    obtain ⟨-, h⟩ | ⟨-, h⟩ | ⟨-, h⟩ := hc
    · exact .inl h
    · exact .inr (.inl h)
    · exact .inr (.inr h)
  · exact fun hw hr hb hp => ⟨_, exec_fabWrite s 3 hw hr, stCheck_checks s hp hb⟩
  · exact fun hw hr hb hp => ⟨_, exec_fabWrite s 3 hw hr, tgCheck_checks s hp hb⟩
  · exact fun hw hb hp => ⟨_, exec_tabWrite s _ hw, msCheck_checks s hp hb⟩
  · exact fun hw hr hb => ⟨_, exec_fabWrite s 3 hw hr, thCheck_checks s hb⟩
  · exact fun hw hb => ⟨_, exec_tabWrite s _ hw, seqDefault_stores s hb⟩
  · exact fun hw hb => ⟨_, exec_tabWrite s _ hw, coefDefault_sets s hb⟩

end Sys2Proof.Machine
end

