-- ==== Sys2Proof/Proofs/BellRegisters.lean ====
section
/-! SUPPORT. The registers that the Bell's work and the work behind a clear leave: the sticky words, the number of records, and the
control words of the queues (R493, R501, R506, R581). -/

namespace Sys2Proof.Machine

variable (s : State)

/-- A register that messages of the drive die, completions, results, stores into the Bore and interrupts leave as it was. -/
def steady? (off : Nat) : Bool :=
  off % 4096 != 0x14 && off % 4096 != 0x24 && (off % 4096 < 0x40 || (off / 4096 != pgCOMMIT && off / 4096 != pgSYS)) &&
    off != ro pgBELL 0x50 && off != ro pgCMDQ 0x54 && off != ro pgCMDQ 0x58

theorem steady?_sticky (page : Nat) : steady? (ro page 0x1C) = true := by
  unfold steady? ro
  rw [show (page * 4096 + 0x1C) % 4096 = 0x1C by omega]
  simp only [Bool.and_eq_true, Bool.or_eq_true, bne_iff_ne, decide_eq_true_eq]
  omega

theorem steady?_sqCtrl (q : Nat) (hq : q < 64) : steady? (ro pgCMDQ (0x104 + 16 * q)) = true := by
  unfold steady? ro pgCMDQ pgBELL pgCOMMIT pgSYS
  simp only [Bool.and_eq_true, Bool.or_eq_true, bne_iff_ne, decide_eq_true_eq]
  omega

section
variable {off : Nat} (h : steady? off = true)
include h

theorem ne_of_steady : off % 4096 ≠ 0x14 ∧ off % 4096 ≠ 0x24 ∧ (off % 4096 < 0x40 ∨ (off / 4096 ≠ pgCOMMIT ∧ off / 4096 ≠ pgSYS)) ∧
    off ≠ ro pgBELL 0x50 ∧ off ≠ ro pgCMDQ 0x54 ∧ off ≠ ro pgCMDQ 0x58 := by
  simpa [steady?, and_assoc] using h

theorem getReg_irqSet_steady (page : Nat) (bits : Word) : getReg (irqSet s page bits) off = getReg s off :=
  getReg_irqSet s (fun e => (ne_of_steady h).1 (by rw [e]; unfold ro; omega)) bits

theorem getReg_bellLost_steady (lo n : Nat) : getReg (bellLost s lo n) off = getReg s off := by
  obtain ⟨-, -, -, hb, -, -⟩ := ne_of_steady h
  exact (getReg_irqSet_steady _ h ..).trans (getReg_putReg_other _ _ _ _ _ _ hb)

theorem getReg_bellIn_steady (m : Msg) : getReg (bellIn s m) off = getReg s off := by
  unfold bellIn
  split
  · rfl
  · dsimp only
    split
    · exact getReg_bellLost_steady _ h ..
    · rfl

theorem getReg_postAs_steady {page : Nat} (hp : isFeedPage page = false) (src cls sub : Nat) (d : Word) :
    getReg (postAs s page src cls sub d) off = getReg s off := by
  unfold postAs
  split
  · rfl
  · extract_lets inj m _ s1 s2 s3
    have h1 : getReg s1 off = getReg s off := by unfold s1; split <;> rfl
    rw [if_neg (by simp [hp])]
    split
    · exact h1
    · refine (getReg_bellIn_steady s3 h m).trans (Eq.trans ?_ h1)
      unfold s3
      split <;> rfl

theorem getReg_post_steady {page : Nat} (hp : isFeedPage page = false) (src : Nat) (d : Word) (sub : Nat) :
    getReg (post s page src d sub) off = getReg s off :=
  getReg_postAs_steady s h hp ..

theorem getReg_setBore_steady (a : Nat) (w : Word) : getReg (setBore s a w) off = getReg s off := by
  have hr : ∀ p, off ≠ ro p 0x24 := fun p e => (ne_of_steady h).2.1 (by rw [e]; unfold ro; omega)
  have hc : (setBore s a w).regs = match checkFor s a with
      | some p => (putReg s (ro p.1 0x24) 6 1 0).regs
      | none => s.regs := by
    unfold setBore
    split
    · next hc => rw [hc]; rfl
    · next hc => rw [hc]
  cases hk : checkFor s a with
  | none => exact getReg_of_regs (by rw [hc, hk]) off
  | some p => exact (getReg_of_regs (by rw [hc, hk]) off).trans (getReg_putReg_other s _ 6 1 0 off (hr _))

theorem getReg_setBores_steady (a : Nat) (ws : List Word) : getReg (setBores s a ws) off = getReg s off := by
  induction ws generalizing s a with
  | nil => rfl
  | cons w ws ih => rw [setBores_cons, ih, getReg_setBore_steady s h]

theorem getReg_writeCompletion_steady (c : Cmd) (q sct sc : Nat) (dw0 dw1 : Word) :
    getReg (writeCompletion s c q sct sc dw0 dw1) off = getReg s off := by
  obtain ⟨-, -, -, -, hc, hd⟩ := ne_of_steady h
  unfold writeCompletion
  extract_lets x base ws s1 wrap s2 s3 s4
  have h1 : getReg s1 off = getReg s off := (getReg_setBores_steady _ h ..).trans (getReg_setBores_steady s h ..)
  have h3 : getReg s3 off = getReg s off := (getReg_putReg_other s2 _ _ _ _ _ hc).trans h1
  have h4 : getReg s4 off = getReg s off := by
    unfold s4
    split
    · exact (getReg_putReg_other s3 _ _ _ _ _ hd).trans h3
    · exact h3
  unfold cqSignal
  dsimp only
  split
  · exact h4
  · split
    · exact (getReg_of_regs (sendMsi_regs ..) off).trans h4
    · exact h4

theorem getReg_complete_steady (tag sct sc : Nat) (dw0 dw1 : Word) : getReg (complete s tag sct sc dw0 dw1) off = getReg s off := by
  unfold complete
  split
  · rfl
  · split
    · exact getReg_writeCompletion_steady s h ..
    · split
      · exact getReg_writeCompletion_steady s h ..
      · rfl

theorem getReg_coreRestart_steady : getReg (coreRestart s) off = getReg s off := by
  obtain ⟨-, -, hs, -⟩ := ne_of_steady h
  have hy : off ≠ ro pgSYS 0x68 := fun e => by subst e; revert hs; decide
  unfold coreRestart
  split
  · rfl
  · extract_lets s1 _ s2
    have h2 : getReg s2 off = getReg s off := (getReg_putReg_other _ _ _ _ _ _ hy).trans
      ((getReg_of_regs (s := s1) rfl off).trans (getReg_post_steady s h (by decide) ..))
    refine (foldl_part s2 (π := fun s : State => getReg s off) (fun u c => ?_) _).trans h2
    exact (getReg_of_regs (s := complete _ c.tag 0 8 0 0) rfl off).trans ((getReg_complete_steady _ h ..).trans (getReg_post_steady u h (by decide) ..))

theorem getReg_finish_steady (k src : Nat) (cut : Bool) (result groups arrived : Nat) (t : Option Nat) (hk : k < 16) :
    getReg (finish s k src cut result groups arrived t) off = getReg s off := by
  obtain ⟨-, -, hs, -⟩ := ne_of_steady h
  have hm : ∀ o, 0x40 ≤ o → o < 4096 → off ≠ ro pgCOMMIT o := fun o h1 h2 e => by
    rcases hs with hs | hs
    · exact absurd hs (by rw [e]; unfold ro; omega)
    · exact hs.1 (by rw [e]; unfold ro; omega)
  unfold finish
  extract_lets lat jt w0 w1 t res s1 s2 s3 s4 s5 s6
  have h1 : getReg s1 off = getReg s off := (getReg_putReg_other _ _ _ _ _ _ (hm _ (by omega) (by omega))).trans
    ((getReg_putReg_other _ _ _ _ _ _ (hm _ (by omega) (by omega))).trans (getReg_putReg_other _ _ _ _ _ _ (hm _ (by omega) (by omega))))
  have h2 : getReg s2 off = getReg s off := (getReg_putReg_other _ _ _ _ _ _ (hm _ (by decide) (by decide))).trans
    ((getReg_putReg_other s1 _ _ _ _ _ (hm _ (by decide) (by decide))).trans h1)
  have h3 : getReg s3 off = getReg s off := (getReg_setReg_other s2 _ _ _ (hm _ (by decide) (by decide))).trans h2
  have h4 : getReg s4 off = getReg s off :=
    (getReg_of_regs (s := setBores s3 (0x60_0000 + s3.flash.staged % 131072 * 16) _) rfl off).trans ((getReg_setBores_steady s3 h ..).trans h3)
  have h5 : getReg s5 off = getReg s off := (getReg_irqSet_steady s4 h ..).trans h4
  have h6 : getReg s6 off = getReg s off := by
    unfold s6
    split
    · exact (getReg_post_steady s5 h (by decide) ..).trans h5
    · exact h5
  split
  · exact (getReg_complete_steady s6 h ..).trans h6
  · exact h6

theorem getReg_endReq_steady (k result : Nat) (hk : k < 16) : getReg (endReq s k result) off = getReg s off := by
  obtain ⟨-, -, hs, -⟩ := ne_of_steady h
  have hc : off ≠ ro pgCOMMIT 0x54 := fun e => by subst e; revert hs; decide
  unfold endReq
  split
  · rfl
  · extract_lets s1 s2
    have h2 : getReg s2 off = getReg s off := by
      unfold s2
      split
      · exact (getReg_putReg_other s1 _ _ _ _ _ hc).trans rfl
      · rfl
    exact (getReg_finish_steady s2 h _ _ _ _ _ _ _ hk).trans h2

theorem getReg_planDone_steady (k : Nat) : getReg (planDone s k) off = getReg s off :=
  foldl_part s (π := fun s : State => getReg s off) (fun u _ => getReg_complete_steady u h ..) _

theorem getReg_emptySlot_steady (k : Nat) (hk : k < 16) : getReg (emptySlot s k) off = getReg s off :=
  (getReg_planDone_steady _ h k).trans ((getReg_endReq_steady _ h k 4 hk).trans rfl)

theorem getReg_ringOverwrite_steady (hw : off ≠ ro pgBELL 0x4C) (n : Word) : getReg (ringOverwrite s n) off = getReg s off := by
  obtain ⟨-, -, -, hb, -⟩ := ne_of_steady h
  unfold ringOverwrite
  extract_lets old s1 s2 s3
  split
  · rfl
  · have h1 : getReg s1 off = getReg s off := getReg_setReg_other _ _ _ _ hw
    have h3 : getReg s3 off = getReg s off :=
      (getReg_irqSet_steady _ h ..).trans ((getReg_putReg_other s2 _ _ _ _ _ hb).trans ((getReg_of_regs (s := s1) rfl off).trans h1))
    exact (getReg_post_steady s3 h (by decide) ..).trans h3

/-- A record changes the numbers of records, and counts where one is lost. -/
theorem getReg_record_steady (hw : off ≠ ro pgBELL 0x4C) (hn : off ≠ ro pgBELL 0x48) (m : Msg) (conseq opener : Bool) (shid sev : Nat) :
    getReg (record s m conseq opener shid sev) off = getReg s off := by
  unfold record
  extract_lets n t ws _ s1 _ s2
  have h1 : getReg s1 off = getReg s off := (getReg_setReg_other _ _ _ _ hn).trans rfl
  have h2 : getReg s2 off = getReg s off := by
    unfold s2
    split
    · exact (getReg_of_regs (s := s1) rfl off).trans h1
    · exact h1
  split
  · exact (getReg_setBores_steady _ h ..).trans ((getReg_ringOverwrite_steady s2 h hw n).trans h2)
  · split
    · exact (getReg_of_regs (s := s2) rfl off).trans h2
    · exact (getReg_bellLost_steady s2 h ..).trans h2

theorem getReg_alert_steady (ha : off ≠ ro pgBELL 0x54) (n : Word) : getReg (alert s n) off = getReg s off :=
  (getReg_irqSet_steady _ h ..).trans (getReg_setReg_other _ _ _ _ ha)

end

/-! ### Messages of every page -/

/-- A register that is neither the sticky word of a page that the feed die's messages mark nor its count of lost messages. -/
def feedFree? (off : Nat) : Bool := !(off % 4096 == 0x1C && 0x100 ≤ off / 4096 && off / 4096 ≤ 0x107) && off != ro pgFSYS 0x4C

theorem feedFree?_sticky {page : Nat} (hp : page < 0x100 ∨ 0x107 < page) : feedFree? (ro page 0x1C) = true := by
  unfold feedFree? ro pgFSYS
  rw [show (page * 4096 + 0x1C) % 4096 = 0x1C by omega, show (page * 4096 + 0x1C) / 4096 = page by omega]
  simp
  omega

/-- The page that a message of a feed-die source marks. -/
theorem msgPage_feed {page src : Nat} (hp : isFeedPage page = true) (hs : src < 32) {m : Msg} (hm : m.source = srcCode page src) :
    0x100 ≤ m.page ∧ m.page ≤ 0x107 := by
  simp only [isFeedPage, Bool.and_eq_true, decide_eq_true_eq] at hp
  unfold Msg.page
  rw [hm]
  unfold srcCode
  rw [BitVec.toNat_ofNat]
  omega

theorem getReg_feedMsg_free {off : Nat} (h : feedFree? off = true) {m : Msg} (hm : 0x100 ≤ m.page ∧ m.page ≤ 0x107) :
    getReg (feedMsg s m) off = getReg s off := by
  have h1 : off ≠ ro m.page 0x1C := fun e => by
    subst e
    unfold feedFree? ro at h
    rw [show (m.page * 4096 + 0x1C) % 4096 = 0x1C by omega, show (m.page * 4096 + 0x1C) / 4096 = m.page by omega] at h
    simp [hm] at h
  have h2 : off ≠ ro pgFSYS 0x4C := by
    simp only [feedFree?, Bool.and_eq_true, bne_iff_ne] at h
    exact h.2
  unfold feedMsg
  dsimp only
  split
  · rw [getReg_of_regs (sendToDrive_regs _ _), getReg_of_regs (sendToDrive_regs _ _), getReg_setReg_other _ _ _ _ h1]
  · split
    · unfold satReg
      rw [getReg_putReg_other _ _ _ _ _ _ h2]
      exact getReg_setReg_other _ _ _ _ h1
    · exact getReg_setReg_other _ _ _ _ h1

theorem getReg_post_free {off : Nat} (h : steady? off = true) (hf : feedFree? off = true) (page src : Nat) (d : Word) (sub : Nat) :
    getReg (post s page src d sub) off = getReg s off := by
  cases hp : isFeedPage page with
  | false => exact getReg_post_steady s h hp ..
  | true =>
    unfold post postAs
    split
    · rfl
    · next hb =>
      have hs : src < 32 := Nat.lt_of_not_le fun hge => hb (by simp [bit, BitVec.getLsbD_of_ge _ _ hge])
      extract_lets inj m _ s1
      have h1 : getReg s1 off = getReg s off := by unfold s1; split <;> rfl
      exact (getReg_feedMsg_free _ hf (msgPage_feed hp hs (m := m) rfl)).trans h1

/-- Such a register stands through the failure of a word and through what the reed sequencers do. -/
theorem steady_rests {off : Nat} (h : steady? off = true) (hf : feedFree? off = true)
    (hb : off % 4096 < 0x48 ∨ off / 4096 ≠ pgBORE) (w : Word) : Rests (fun u => getReg u off = w) where
  reeds h := h
  bore h := h
  boreReg {u o v} h1 h2 hu := (getReg_setReg_other u _ off v (fun e => by
    subst e
    unfold ro pgBORE at hb
    omega)).trans hu
  post hu := (getReg_post_free _ h hf ..).trans hu
  journal hu := hu
  coreRestart hu := (getReg_coreRestart_steady _ h).trans hu

/-- A fold over the slots that leaves a part in each of them leaves it. -/
theorem slotList_part {β : Type} {π : State → β} {f : State → Nat → State} (hf : ∀ u, ∀ k < 16, π (f u k) = π u) :
    π (slotList.foldl f s) = π s := by
  have h : ∀ (l : List Nat) (u : State), (∀ k ∈ l, k < 16) → π (l.foldl f u) = π u := by
    intro l
    induction l with
    | nil => exact fun u _ => rfl
    | cons k l ih =>
      intro u hl
      rw [List.foldl_cons, ih _ fun j hj => hl j (List.mem_cons_of_mem _ hj)]
      exact hf u k (hl k List.mem_cons_self)
  exact h slotList s fun k hk => List.mem_range.mp hk

/-! ### The number of records -/

theorem nextRecord_emptySlots : nextRecord (slotList.foldl emptySlot s) = nextRecord s :=
  slotList_part s (π := nextRecord) fun u k hk => getReg_emptySlot_steady u (by decide) k hk

/-- One more record: NEXT is one higher. -/
theorem nextRecord_record (m : Msg) (conseq opener : Bool) (shid sev : Nat) :
    nextRecord (record s m conseq opener shid sev) = nextRecord s + 1 := by
  have hs : steady? (ro pgBELL 0x48) = true := by decide
  unfold nextRecord record
  extract_lets n t ws _ s1 _ s2
  have h1 : getReg s1 (ro pgBELL 0x48) = n + 1 := getReg_setReg_self ..
  have h2 : getReg s2 (ro pgBELL 0x48) = n + 1 := by
    unfold s2
    split
    · exact (getReg_of_regs (s := s1) rfl _).trans h1
    · exact h1
  split
  · exact (getReg_setBores_steady _ hs ..).trans ((getReg_ringOverwrite_steady s2 hs (by decide) n).trans h2)
  · split
    · exact (getReg_of_regs (s := s2) rfl _).trans h2
    · exact (getReg_bellLost_steady s2 hs ..).trans h2

theorem getReg_redoTile_steady {off : Nat} (h : steady? off = true) (hp : off ≠ ro pgPLAN 0x50) (t : Nat) :
    getReg (redoTile s t) off = getReg s off := by
  have hr : ∀ (u : State) cause k, getReg (redoSlot u cause k) off = getReg u off := fun u cause k => by
    unfold redoSlot
    extract_lets x s1 s2 wait s3
    have h1 : getReg s1 off = getReg u off := getReg_putReg_other _ _ _ _ _ _ hp
    have h3 : getReg s3 off = getReg u off := (getReg_of_regs (s := s2) rfl off).trans ((getReg_post_steady s1 h (by decide) ..).trans h1)
    split
    · exact (getReg_post_steady s3 h (by decide) ..).trans h3
    · exact h3
  unfold redoTile redoTiles
  refine foldl_part s (π := fun s : State => getReg s off) (fun u k => ?_) _
  dsimp only
  split
  · exact hr u 1 k
  · rfl

theorem getReg_disableSq {off : Nat} {q : Nat} (h : off ≠ ro pgCMDQ (0x104 + 16 * q)) : getReg (disableSq s q) off = getReg s off := by
  unfold disableSq
  split
  · rfl
  · exact (getReg_of_regs (s := putReg s (ro pgCMDQ (0x104 + 16 * q)) 0 1 0) rfl off).trans (getReg_putReg_other _ _ _ _ _ _ h)

theorem ro_cmdq_ne_bell (q : Nat) : ro pgBELL 0x48 ≠ ro pgCMDQ (0x104 + 16 * q) := by
  unfold ro pgBELL pgCMDQ
  omega

theorem nextRecord_blkAction (page : Nat) : nextRecord (blkAction s page) = nextRecord s := by
  have hs : steady? (ro pgBELL 0x48) = true := by decide
  have hr : Rests (fun u => nextRecord u = nextRecord s) := steady_rests hs (by decide) (by decide) _
  unfold blkAction
  split
  · exact (getReg_redoTile_steady _ hs (by decide) _).trans rfl
  · split
    · exact foldl_part s (π := nextRecord) (fun u r => loopResume_part u (fun _ _ => rfl) (fun _ _ => rfl) r) _
    · refine hr.foldl (fun u r hu => hr.ite hu (hr.freeReed ?_)) _ rfl
      exact hu
    · extract_lets u
      have hu : nextRecord u = nextRecord s := by unfold u quiesce; split <;> rfl
      split
      · exact hu
      · exact hu
    · refine foldl_part s (π := nextRecord) (fun u i => ?_) _
      split
      · rfl
      · exact (getReg_setBores_steady _ hs ..).trans rfl
    · exact foldl_part s (π := nextRecord) (fun u q => getReg_disableSq u (ro_cmdq_ne_bell q)) _
    · exact nextRecord_emptySlots s
    · rfl

theorem nextRecord_alert (n : Word) : nextRecord (alert s n) = nextRecord s :=
  getReg_alert_steady s (by decide) (by decide) n

end Sys2Proof.Machine
end

