-- ==== Sys2Proof/Proofs/BellControl.lean ====
section
/-! O42. Clears, severities, injection and block resets (R501 to R505, R515 to R517, R581). -/

namespace Sys2Proof.Machine

open Sys2Proof.Safety (Yields mayWrite)

variable (s : State)

/-! ### The write of PG_FLT_STICKY -/

theorem getReg_freeOne {off : Nat} (h : steady? off = true) (hf : feedFree? off = true) (hb : off % 4096 < 0x48 ∨ off / 4096 ≠ pgBORE)
    (page i : Nat) : getReg (freeOne page s i) off = getReg s off := by
  unfold freeOne
  split
  · exact (loopResume_part _ (π := fun u : State => getReg u off) (fun _ _ => rfl) (fun _ _ => rfl) i).trans rfl
  · exact (steady_rests h hf hb _).freeReed rfl
  · rfl
  · rfl
  · exact getReg_of_regs (by unfold resumeFlash; split <;> rfl) off
  · rfl

theorem getReg_uncontain {off : Nat} (h : steady? off = true) (hf : feedFree? off = true) (hb : off % 4096 < 0x48 ∨ off / 4096 ≠ pgBORE)
    (page src : Nat) : getReg (uncontain s page src) off = getReg s off :=
  (foldl_part _ (π := fun u : State => getReg u off) (fun u i => getReg_freeOne u h hf hb page i) _).trans rfl

/-- What the sticky word keeps of the write: the bits that are not gone. -/
theorem getReg_stickyWrite {page : Nat} (hp : page < 0x100 ∨ 0x107 < page) (v : Word) :
    getReg (stickyWrite s page v) (ro page 0x1C) = getReg s (ro page 0x1C) &&&
      ~~~ (BitVec.ofNat 32 (maskOf (((bitsOf (v &&& implMask page).toNat 16).filter (sticky s page)).filter
        (fun k => !liveNow s page k && !justAccepted s page k)))) := by
  have h := steady?_sticky page
  have hf := feedFree?_sticky hp
  have hb : ro page 0x1C % 4096 < 0x48 ∨ ro page 0x1C / 4096 ≠ pgBORE := .inl (by unfold ro; omega)
  unfold stickyWrite
  extract_lets asked live gone s1 s2
  have h2 : getReg s2 (ro page 0x1C) = getReg s1 (ro page 0x1C) := by
    refine getReg_of_regs ?_ _
    unfold s2 refuseClears
    split
    · rfl
    · dsimp only
      split <;> rfl
  have h3 : ∀ u : State, (parkRelease u).regs = u.regs := fun u => by unfold parkRelease; split <;> rfl
  rw [getReg_of_regs (h3 _), foldl_part s2 (π := fun u : State => getReg u (ro page 0x1C)) (fun u k => getReg_uncontain u h hf hb page k), h2]
  exact getReg_setReg_self ..

theorem sticky_stickyWrite {page : Nat} {v : Word} (hp : page < 0x100 ∨ 0x107 < page) (k : Fin 16)
    (hv : bit (v &&& implMask page) k.val = true) (hs : sticky s page k.val = true) (ha : justAccepted s page k.val = false) :
    sticky (stickyWrite s page v) page k.val = liveNow s page k.val := by
  have hk : (v &&& implMask page).toNat.testBit k.val = true := hv
  have h1 : bit (getReg s (ro page 0x1C)) k.val = true := hs
  unfold sticky
  rw [getReg_stickyWrite s hp]
  unfold bit at h1 ⊢
  rw [BitVec.getLsbD_and, h1, BitVec.getLsbD_not, BitVec.getLsbD_ofNat, testBit_maskOf]
  have hg : k.val ∈ bitsOf (v &&& implMask page).toNat 16 := (mem_bitsOf ..).mpr ⟨k.isLt, hk⟩
  have hm : (k.val ∈ (((bitsOf (v &&& implMask page).toNat 16).filter (sticky s page)).filter
      (fun k => !liveNow s page k && !justAccepted s page k))) ↔ liveNow s page k.val = false := by
    simp only [List.mem_filter, hg, hs, ha, true_and, Bool.not_false, Bool.and_true, Bool.not_eq_true']
  rw [decide_eq_true (show k.val < 32 by omega)]
  cases hl : liveNow s page k.val with
  | true => rw [decide_eq_false fun hk => by simp [hm.mp hk] at hl]; rfl
  | false => rw [decide_eq_true (hm.mpr hl)]; rfl

/-! ### Injections -/

/-- In a powered die with room in the Bell's queue, the injected message of a source that exists stands last in it. -/
theorem inq_injected {page src : Nat} (hd : driveOn s = true) (hf : isFeedPage page = false) (hc : bit (pageCap page) src = true)
    (hq : s.bell.inq.length < 64) (d : Word) : (injected s page src d).bell.inq = s.bell.inq ++
      [{ source := srcCode page src, kind := BitVec.ofNat 8 (srcClass page src * 32), detail := d, inj := true }] := by
  have hb : ∀ (u : State) m, u.bell.inq.length < 64 → (bellIn u m).bell.inq = u.bell.inq ++ [m] := fun u m hu => by
    unfold bellIn
    rw [if_pos hu]
  unfold injected
  extract_lets _ s1
  rw [if_pos hc]
  have hi : s1.bell.injNext.contains (page, src) = true := by simp [s1]
  have hd1 : driveOn s1 = true := hd
  unfold post postAs
  rw [if_neg (by simp [hc])]
  extract_lets inj m s2 s3 s4
  have h2 : s2.bell.inq = s.bell.inq ∧ driveOn s2 = true := by
    unfold s2
    split
    · exact ⟨rfl, hd⟩
    · exact ⟨rfl, hd⟩
  have h4 : s4.bell.inq = s.bell.inq := by
    unfold s4
    split
    · exact h2.1
    · exact h2.1
  rw [if_neg (by simp [hf]), if_neg (by simp [h2.2]), hb _ _ (by rw [h4]; exact hq), h4]
  have hm : m = { source := srcCode page src, kind := BitVec.ofNat 8 (srcClass page src * 32), detail := d, inj := inj } := rfl
  rw [hm, show inj = true from hi]

theorem getReg_injected {page src : Nat} {off : Nat} (h : unmarked? off = true) (d : Word) :
    getReg (injected s page src d) off = getReg s off := by
  unfold injected
  dsimp only
  split
  · exact (getReg_post _ h ..).trans rfl
  · rfl

theorem unmarked?_inj (page : Nat) : unmarked? (ro page 0x24) = true := by
  unfold unmarked? ro pgFSYS pgBELL
  rw [show (page * 4096 + 0x24) % 4096 = 0x24 by omega]
  simp only [Bool.and_eq_true, bne_iff_ne]
  omega

/-- The fields of an injection's word, with its reserved bits left out. -/
theorem fld_injWord (src : Fin 16) (mode : Fin 4) (d : BitVec 16) : let w := injWord src.val mode.val d.toNat
    fld w 0 4 = src.val ∧ fld w 4 2 = mode.val ∧ fld w 16 16 = d.toNat := by
  have h1 : fld (injWord src.val mode.val d.toNat) 0 4 = src.val % 2 ^ 4 :=
    (fld_put_below _ 16 16 _ 0 4 (by decide)).trans ((fld_put_below _ 4 2 _ 0 4 (by decide)).trans (fld_put_self _ 0 4 _ (by decide)))
  have h2 : fld (injWord src.val mode.val d.toNat) 4 2 = mode.val % 2 ^ 2 :=
    (fld_put_below _ 16 16 _ 4 2 (by decide)).trans (fld_put_self _ 4 2 _ (by decide))
  have h3 : fld (injWord src.val mode.val d.toNat) 16 16 = d.toNat % 2 ^ 16 := fld_put_self _ 16 16 _ (by decide)
  exact ⟨h1.trans (Nat.mod_eq_of_lt src.isLt), h2.trans (Nat.mod_eq_of_lt mode.isLt), h3.trans (Nat.mod_eq_of_lt d.isLt)⟩

/-- The reserved bits that a write of PG_FLT_INJ drops lie in neither field. -/
theorem fld_injKept (w : Word) (lo n : Nat) (h : lo + n ≤ 6) : fld (w &&& 0xFFFF_003F) lo n = fld w lo n := by
  refine fld_congr fun i hi => ?_
  have hm : ∀ j < 6, (0xFFFF_003F : Word).getLsbD j = true := by decide
  rw [BitVec.getLsbD_and, hm _ (by omega), Bool.and_true]

theorem headerWrite_inj (page : Nat) (v : Word) : headerWrite s page 0x24 v = injWrite s page v := by
  unfold headerWrite
  simp only

theorem headerWrite_sticky (page : Nat) (v : Word) : headerWrite s page 0x1C v = stickyWrite s page v := by
  unfold headerWrite
  simp only

theorem headerWrite_sev (page : Nat) (v : Word) : headerWrite s page 0x20 v = sevWrite s page v := by
  unfold headerWrite
  simp only

section
variable {page : Nat} (src : Fin 16) (d : BitVec 16)

theorem injWrite_off : injWrite s page (injWord src.val 0 0) =
    setReg s (ro page 0x24) (injWord src.val 0 0 &&& 0xFFFF_003F) := by
  obtain ⟨-, h2, -⟩ := fld_injWord src 0 0
  unfold injWrite
  dsimp only at h2 ⊢
  simp only [show fld (injWord src.val 0 0) 4 2 = 0 from h2]

/-- PULSE and HOLD: the word is kept and the source's message sent. -/
theorem injWrite_sends (mode : Fin 4) (hm : mode = 1 ∨ mode = 2) : injWrite s page (injWord src.val mode.val d.toNat) =
    injected (setReg s (ro page 0x24) (injWord src.val mode.val d.toNat &&& 0xFFFF_003F)) page src.val (BitVec.ofNat 32 d.toNat) := by
  obtain ⟨h1, h2, h3⟩ := fld_injWord src mode d
  unfold injWrite
  dsimp only
  rw [h1, h2, h3]
  rcases hm with rfl | rfl <;> rfl

theorem injWrite_check (hc : checkable page src.val = true) : injWrite s page (injWord src.val 3 d.toNat) =
    setReg s (ro page 0x24) (injWord src.val 3 d.toNat &&& 0xFFFF_003F ||| 0x40) := by
  obtain ⟨h1, h2, -⟩ := fld_injWord src 3 d
  unfold injWrite
  dsimp only
  rw [show fld (injWord src.val 3 d.toNat) 4 2 = 3 from h2, show fld (injWord src.val 3 d.toNat) 0 4 = src.val from h1]
  simp only [hc, if_true]

end

/-! ### The block reset -/

/-- The record of a block reset, and its alert, leave the slots and every register that a record leaves. -/
theorem blkReset_slots {page : Nat} (h : bit (pageCap page) 17 = true) :
    (blkReset s page).slots = (blkAction (openShadow s page) page).slots := by
  unfold blkReset
  rw [if_neg (by simp [h])]
  dsimp only
  split
  · exact ((alert_keeps (may := { bore := true }) (record_keeps rfl (setReg_keeps Keeps.rfl))).slots rfl)
  · exact ((record_keeps (may := { bore := true }) rfl (setReg_keeps Keeps.rfl)).slots rfl)

theorem getReg_blkReset {page off : Nat} (h : bit (pageCap page) 17 = true) (hs : steady? off = true) (hb : off / 4096 ≠ pgBELL) :
    getReg (blkReset s page) off = getReg (blkAction (openShadow s page) page) off := by
  have hn : ∀ o < 4096, off ≠ ro pgBELL o := fun o ho e => hb (by rw [e, ro_page _ _ ho])
  unfold blkReset
  rw [if_neg (by simp [h])]
  extract_lets s1 s2 sev n s3
  have h2 : getReg s2 off = getReg s1 off := getReg_setReg_other _ _ _ _ (hn _ (by decide))
  have h3 : getReg s3 off = getReg s1 off := (getReg_record_steady s2 hs (hn _ (by decide)) (hn _ (by decide)) ..).trans h2
  split
  · exact (getReg_alert_steady s3 hs (hn _ (by decide)) n).trans h3
  · exact h3

theorem blkReset_recorded {page : Nat} (h : bit (pageCap page) 17 = true) :
    nextRecord (blkReset s page) = nextRecord s + 1 ∧ sticky (blkReset s page) pgBELL 2 = true := by
  have hs : steady? (ro pgBELL 0x1C) = true := steady?_sticky _
  unfold blkReset
  rw [if_neg (by simp [h])]
  extract_lets s1 s2 sev n s3
  have h1 : nextRecord s1 = nextRecord s := (nextRecord_blkAction _ page).trans rfl
  have h2 : nextRecord s2 = nextRecord s := (getReg_setReg_other _ _ _ _ (by decide)).trans h1
  have h3 : nextRecord s3 = nextRecord s + 1 := (nextRecord_record s2 ..).trans (by rw [h2])
  have hb : sticky s3 pgBELL 2 = true := by
    unfold sticky
    rw [getReg_record_steady s2 hs (by decide) (by decide), show getReg s2 (ro pgBELL 0x1C) = _ from getReg_setReg_self ..]
    unfold bit
    rw [BitVec.getLsbD_or, show (4 : Word).getLsbD 2 = true by decide, Bool.or_true]
  split
  · exact ⟨(nextRecord_alert s3 n).trans h3, (congrArg (fun w => bit w 2) (getReg_alert_steady s3 hs (by decide) n)).trans hb⟩
  · exact ⟨h3, hb⟩

theorem slot_emptySlots (k : Slot) : slot (slotList.foldl emptySlot s) k.val = {} := by
  have he : ∀ (u : State) j k, slot (emptySlot u j) k = slot (setSlot u j {}) k := fun u j k =>
    slot_of_slots ((planDone_slots ..).trans (endReq_slots ..)) k
  rw [slot_foldl s (F := fun _ => {}) (fun u k => (he u k k).trans (slot_setSlot_self ..))
    (fun u j k h => (he u j k).trans (by rw [slot_setSlot, if_neg h])) slotList (List.nodup_range (n := 16)),
    if_pos (show k.val ∈ slotList from List.mem_range.mpr k.isLt)]

theorem sqCtrl_disableSq (q : Nat) : bit (sqCtrl (disableSq s q) q) 0 = false := by
  unfold disableSq
  split
  · next h => simpa using h
  · have h : fld (sqCtrl (putReg s (ro pgCMDQ (0x104 + 16 * q)) 0 1 0) q) 0 1 = 0 :=
      (congrArg (fun w => fld w 0 1) (getReg_setReg_self ..)).trans (fld_put_self _ 0 1 0 (by decide))
    rw [fld_one] at h
    exact (congrArg (fun w => bit w 0) (getReg_of_regs (s := putReg s (ro pgCMDQ (0x104 + 16 * q)) 0 1 0) rfl _)).trans
      (b2n_inj (b := false) h)

/-- CMDQ's block reset leaves no submission queue enabled. -/
theorem sqCtrl_disableSqs (q : QId) : bit (sqCtrl ((List.range 64).foldl disableSq s) q.val) 0 = false := by
  have hk : ∀ u : State, bit (sqCtrl u q.val) 0 = false → ∀ j, bit (sqCtrl (disableSq u j) q.val) 0 = false := fun u hu j => by
    by_cases e : j = q.val
    · rw [e]
      exact sqCtrl_disableSq u q.val
    · have hn : ro pgCMDQ (0x104 + 16 * q.val) ≠ ro pgCMDQ (0x104 + 16 * j) := by unfold ro; omega
      unfold sqCtrl
      rw [getReg_disableSq u hn]
      exact hu
  have hl : ∀ (l : List Nat) (u : State), (bit (sqCtrl u q.val) 0 = false ∨ q.val ∈ l) →
      bit (sqCtrl (l.foldl disableSq u) q.val) 0 = false := by
    intro l
    induction l with
    | nil => exact fun u hu => hu.resolve_right List.not_mem_nil
    | cons j l ih =>
      intro u hu
      refine ih _ ?_
      rcases hu with hu | hu
      · exact .inl (hk u hu j)
      · rcases List.mem_cons.mp hu with e | hm
        · exact .inl (e ▸ sqCtrl_disableSq u q.val)
        · exact .inr hm
  exact hl _ s (.inr (List.mem_range.mpr q.isLt))

theorem blkAction_cmdq : blkAction s 0x006 = (List.range 64).foldl disableSq s := by
  unfold blkAction
  rw [if_neg (by decide)]
  simp only

theorem blkAction_plan : blkAction s 0x00B = slotList.foldl emptySlot s := by
  unfold blkAction
  rw [if_neg (by decide)]
  simp only

theorem blkReset_clears {page : Nat} (h : bit (pageCap page) 17 = true) :
    (page = 0x006 → ∀ q : QId, bit (sqCtrl (blkReset s page) q.val) 0 = false) ∧
    (page = 0x00B → ∀ k : Slot, (slot (blkReset s page) k.val).state = .empty) := by
  refine ⟨fun e q => ?_, fun e k => ?_⟩
  · unfold sqCtrl
    rw [getReg_blkReset s h (steady?_sqCtrl q.val q.isLt) (by rw [ro_page _ _ (by omega)]; decide), e, blkAction_cmdq]
    exact sqCtrl_disableSqs _ q
  · rw [slot_of_slots (blkReset_slots s h), e, blkAction_plan]
    exact congrArg SlotSt.state (slot_emptySlots _ k)

/-! ### The obligation -/

section
variable {fn : Fn} {page : BitVec 9} (hf : isFeedPage page.toNat = false)
include hf

theorem stickyClear_yields {v : Word} (k : Fin 16) (hw : mayWrite s fn page.toNat 0x1C 1 = true)
    (hv : bit (v &&& implMask page.toNat) k.val = true) (hs : sticky s page.toNat k.val = true)
    (ha : justAccepted s page.toNat k.val = false) : Yields (.stickyClear fn page v) s fun t =>
      sticky t page.toNat k.val = liveNow s page.toNat k.val := by
  have hp : page.toNat < 0x100 ∨ 0x107 < page.toNat := by
    simp only [isFeedPage, Bool.and_eq_false_iff, decide_eq_false_iff_not] at hf
    by_contra hc
    rw [show page.toNat = 0x107 by omega, show implMask 0x107 = 0 by decide, show v &&& 0 = 0 from BitVec.and_zero] at hv
    simp [bit] at hv
  refine ⟨_, (headerAccess_of_mayWrite s v hw (by decide) (by decide) rfl hf).trans
    (congrArg Host.Outcome.next (headerWrite_sticky s page.toNat v)), ?_⟩
  exact sticky_stickyWrite s hp k hv hs ha

theorem pgFltSevWrite_yields (v : Word) (hw : mayWrite s fn page.toNat 0x20 0 = true) : Yields (.pgFltSevWrite fn page v) s fun t =>
    getReg t (ro page.toNat 0x20) = v &&& sevMask page.toNat ∧ ∀ off, off ≠ ro page.toNat 0x20 → getReg t off = getReg s off :=
  ⟨_, (headerAccess_of_mayWrite s v hw (by decide) (by decide) rfl hf).trans
    (congrArg Host.Outcome.next (headerWrite_sev s page.toNat v)), getReg_setReg_self .., fun off h => getReg_setReg_other _ _ _ _ h⟩

/-- A write of PG_FLT_INJ that R607 admits acts as one on its page. -/
theorem injection_yields {P : State → Prop} {v : Word} (hw : mayWrite s fn page.toNat 0x24 0 = true)
    (h : P (injWrite s page.toNat v)) : ∃ t, headerAccess s fn page 0x24 v = .next t ∧ P t :=
  ⟨_, (headerAccess_of_mayWrite s v hw (by decide) (by decide) rfl hf).trans
    (congrArg Host.Outcome.next (headerWrite_inj s page.toNat v)), h⟩

theorem injOff_yields (src : Fin 16) (hw : mayWrite s fn page.toNat 0x24 0 = true) : Yields (.injOff fn page src) s fun t =>
    fld (getReg t (ro page.toNat 0x24)) 4 2 = 0 ∧ bit (getReg t (ro page.toNat 0x24)) 6 = false := by
  obtain ⟨-, h2, -⟩ := fld_injWord src 0 0
  refine injection_yields s hf hw ?_
  rw [injWrite_off, getReg_setReg_self, fld_injKept _ _ _ (by decide)]
  refine ⟨h2, ?_⟩
  unfold bit
  rw [BitVec.getLsbD_and, show (0xFFFF_003F : Word).getLsbD 6 = false by decide, Bool.and_false]

theorem injSends_inq (src : Fin 16) (d : BitVec 16) (mode : Fin 4) (hm : mode = 1 ∨ mode = 2)
    (hw : mayWrite s fn page.toNat 0x24 0 = true) (hc : bit (pageCap page.toNat) src.val = true) (hq : s.bell.inq.length < 64) :
    (injWrite s page.toNat (injWord src.val mode.val d.toNat)).bell.inq = s.bell.inq ++
      [{ source := srcCode page.toNat src.val, kind := BitVec.ofNat 8 (srcClass page.toNat src.val * 32),
         detail := BitVec.ofNat 32 d.toNat, inj := true }] := by
  have hd : driveOn s = true := by
    simp only [mayWrite, Bool.and_eq_true, hostReach] at hw
    exact hw.1.1.1
  rw [injWrite_sends s src d mode hm]
  exact inq_injected (setReg s _ _) hd hf hc hq _

theorem injHold_live (src : Fin 16) (d : BitVec 16) (hc : bit (pageCap page.toNat) src.val = true) :
    liveNow (injWrite s page.toNat (injWord src.val (2 : Fin 4).val d.toNat)) page.toNat src.val = true := by
  have _ := hf
  obtain ⟨h1, h2, -⟩ := fld_injWord src 2 d
  have hw : ∀ lo n, lo + n ≤ 6 → fld (getReg (injWrite s page.toNat (injWord src.val (2 : Fin 4).val d.toNat)) (ro page.toNat 0x24)) lo n =
      fld (injWord src.val (2 : Fin 4).val d.toNat) lo n := fun lo n hl => by
    rw [injWrite_sends s src d 2 (.inr rfl), getReg_injected _ (unmarked?_inj _), getReg_setReg_self, fld_injKept _ _ _ hl]
  unfold liveNow heldLive
  dsimp only
  rw [hw 4 2 (by decide), hw 0 4 (by decide), h1, h2, hc]
  simp

theorem injCheck_yields (src : Fin 16) (d : BitVec 16) (hw : mayWrite s fn page.toNat 0x24 0 = true)
    (hc : checkable page.toNat src.val = true) : Yields (.injCheck fn page src d) s fun t =>
      checkArmed t page.toNat src.val = true ∧ t.bell = s.bell := by
  obtain ⟨h1, h2, -⟩ := fld_injWord src 3 d
  refine injection_yields s hf hw ?_
  have hk : ∀ (w : Word) lo n, lo + n ≤ 6 → fld (w ||| 0x40) lo n = fld w lo n := fun w lo n hl => fld_congr fun i hi => by
    have hm : ∀ j < 6, (0x40 : Word).getLsbD j = false := by decide
    rw [BitVec.getLsbD_or, hm _ (by omega), Bool.or_false]
  rw [injWrite_check s src d hc]
  refine ⟨?_, rfl⟩
  unfold checkArmed
  dsimp only
  rw [getReg_setReg_self, hk _ _ _ (by decide), hk _ _ _ (by decide), fld_injKept _ _ _ (by decide), fld_injKept _ _ _ (by decide),
    show fld (injWord src.val 3 d.toNat) 4 2 = 3 from h2, show fld (injWord src.val 3 d.toNat) 0 4 = src.val from h1]
  unfold bit
  rw [BitVec.getLsbD_or, show (0x40 : Word).getLsbD 6 = true by decide, Bool.or_true]
  simp

theorem pgBlkRst_yields (hw : mayWrite s fn page.toNat 0x0C 0 = true) (hc : bit (pageCap page.toNat) 17 = true) :
    Yields (.pgBlkRst fn page) s fun t => nextRecord t = nextRecord s + 1 ∧ sticky t pgBELL 2 = true ∧
      (page = 0x006 → ∀ q : QId, bit (sqCtrl t q.val) 0 = false) ∧ (page = 0x00B → ∀ k : Slot, (slot t k.val).state = .empty) := by
  obtain ⟨hn, hb⟩ := blkReset_recorded s hc
  obtain ⟨hq, hp⟩ := blkReset_clears s hc
  refine ⟨_, (headerAccess_of_mayWrite s 1 hw (by decide) (by decide) ?_ hf).trans
    (congrArg Host.Outcome.next (headerWrite_blkRst s page.toNat)), hn, hb, fun e => hq (congrArg BitVec.toNat e),
    fun e => hp (congrArg BitVec.toNat e)⟩
  unfold headerLvl
  simp only [hc, if_true]

end

/-- Settles O42: each write acts as its header register does, and the reset of a block on what the page covers. -/
theorem bellControl : Obligations.BellControl := by
  unfold Obligations.BellControl
  intro s fn page hf
  refine ⟨fun v k hw hv hs ha => stickyClear_yields s hf k hw hv hs ha, fun v hw => pgFltSevWrite_yields s hf v hw, fun hw => ?_,
    fun hw hc => pgBlkRst_yields s hf hw hc⟩
  refine ⟨fun src => injOff_yields s hf src hw, fun src d hc hq => ⟨?_, ?_⟩, fun src d hc => injCheck_yields s hf src d hw hc⟩
  · exact injection_yields s hf hw (injSends_inq s hf src d 1 (.inl rfl) hw hc hq)
  · exact injection_yields s hf hw ⟨injHold_live s hf src d hc, injSends_inq s hf src d 2 (.inr rfl) hw hc hq⟩

end Sys2Proof.Machine
end

