-- ==== Sys2Proof/Proofs/BellRecords.lean ====
section
/-! O41. Accepting messages, severities, shadows and the copy to JOURNAL (R493 to R496, R499, R506 to R512). -/

namespace Sys2Proof.Machine

open Sys2Proof.Safety (Yields SameOutputs SameBore)

variable (s : State)

/-! ### What a reaction leaves of a sticky word -/

/-- The slot that a message of PLAN names exists. -/
theorem containTargets_plan {src : Nat} {d : Word} {i : Nat} (h : i ∈ containTargets s 0x00B src d) : i < 16 := by
  unfold containTargets at h
  simp only at h
  split at h
  · rw [List.mem_singleton.mp h]
    exact fld_lt d 0 4
  · split at h
    · rw [List.mem_singleton.mp h]
      omega
    · exact absurd h List.not_mem_nil

theorem sticky_ne_sqCtrl (page q : Nat) : ro page 0x1C ≠ ro pgCMDQ (0x104 + 16 * q) := by unfold ro; omega

theorem getReg_containOne (page p : Nat) (i : Nat) (hi : page = 0x00B → i < 16) :
    getReg (containOne page s i) (ro p 0x1C) = getReg s (ro p 0x1C) := by
  have hs := steady?_sticky p
  unfold containOne
  split
  · rfl
  · rfl
  · exact (getReg_of_regs (s := accRestart s 0 i) rfl _).trans ((getReg_setBores_steady _ hs ..).trans rfl)
  · rfl
  · exact getReg_of_regs (by unfold quiesce; split <;> rfl) _
  · exact getReg_disableSq s (sticky_ne_sqCtrl p i)
  · exact getReg_emptySlot_steady s hs i (hi rfl)
  · rfl

theorem getReg_contain (page src : Nat) (targets : List Nat) (ht : ∀ i ∈ targets, page = 0x00B → i < 16) (p : Nat) :
    getReg (contain s page src targets) (ro p 0x1C) = getReg s (ro p 0x1C) := by
  have h : ∀ (l : List Nat) (u : State), (∀ i ∈ l, page = 0x00B → i < 16) →
      getReg (l.foldl (containOne page) u) (ro p 0x1C) = getReg u (ro p 0x1C) := by
    intro l
    induction l with
    | nil => exact fun u _ => rfl
    | cons i l ih =>
      intro u hl
      rw [List.foldl_cons, ih _ fun j hj => hl j (List.mem_cons_of_mem _ hj)]
      exact getReg_containOne u page p i (hl i List.mem_cons_self)
  exact (getReg_of_regs (s := targets.foldl (containOne page) (openShadow s page)) rfl _).trans ((h targets _ ht).trans rfl)

theorem getReg_unarm_steady {off : Nat} (h : steady? off = true) (k : Nat) (hk : k < 16) : getReg (unarm s k) off = getReg s off := by
  unfold unarm
  split
  · unfold disarm
    extract_lets x s1 s2
    have h2 : getReg s2 off = getReg s off := (getReg_endReq_steady s1 h k 4 hk).trans rfl
    split
    · exact h2
    · exact (getReg_planDone_steady s2 h k).trans h2
  · rfl

theorem getReg_parkEvent_steady {off : Nat} (h : steady? off = true) (cause : Nat) (tiles : Word) :
    getReg (parkEvent s cause tiles) off = getReg s off := by
  unfold parkEvent
  split
  · rfl
  · exact (getReg_post_steady _ h (by decide) ..).trans rfl

/-- A sticky bit stands through a word of sticky bits that are set. -/
theorem sticky_set {p src q : Nat} (w : Word) (h : sticky s p src = true) :
    sticky (setReg s (ro q 0x1C) (getReg s (ro q 0x1C) ||| w)) p src = true := by
  unfold sticky at h ⊢
  rw [getReg_setReg]
  split
  · next e =>
    rw [e] at h
    unfold bit at h ⊢
    rw [BitVec.getLsbD_or, h, Bool.true_or]
  · exact h

theorem sticky_of_getReg {t : State} {p src : Nat} (h : getReg t (ro p 0x1C) = getReg s (ro p 0x1C)) (hs : sticky s p src = true) :
    sticky t p src = true :=
  (congrArg (fun w => bit w src) h).trans hs

theorem sticky_ne_bell (p : Nat) : ro p 0x1C ≠ ro pgBELL 0x4C ∧ ro p 0x1C ≠ ro pgBELL 0x48 ∧ ro p 0x1C ≠ ro pgBELL 0x54 ∧
    ro p 0x1C ≠ ro pgBELL 0x58 := by
  unfold ro
  omega

theorem sticky_record {p src : Nat} (m : Msg) (conseq opener : Bool) (shid sev : Nat) (h : sticky s p src = true) :
    sticky (record s m conseq opener shid sev) p src = true := by
  obtain ⟨h1, h2, -, -⟩ := sticky_ne_bell p
  exact sticky_of_getReg s (getReg_record_steady s (steady?_sticky p) h1 h2 ..) h

theorem sticky_alert {p src : Nat} (n : Word) (h : sticky s p src = true) : sticky (alert s n) p src = true :=
  sticky_of_getReg s (getReg_alert_steady s (steady?_sticky p) (sticky_ne_bell p).2.2.1 n) h

theorem sticky_parkReaction {p k : Nat} (page src : Nat) (n : Word) (h : sticky s p k = true) :
    sticky (parkReaction s page src n) p k = true := by
  have hs := steady?_sticky p
  obtain ⟨-, -, -, h58⟩ := sticky_ne_bell p
  unfold parkReaction
  extract_lets s1 _ s2 s3 s4 s5 s6 sev m taken s7
  have h3 : sticky s3 p k = true := sticky_of_getReg s ((getReg_irqSet_steady s2 hs ..).trans
    ((getReg_of_regs (s := s1) rfl _).trans (getReg_setReg_other _ _ _ _ h58))) h
  have h4 : sticky s4 p k = true := sticky_of_getReg s3 ((slotList_part _ (π := fun u : State => getReg u (ro p 0x1C))
    fun u j hj => getReg_unarm_steady u hs j hj).trans (getReg_parkEvent_steady s3 hs ..)) h3
  have h5 : sticky s5 p k = true := sticky_of_getReg s4 (getReg_of_regs (openShadow_regs s4 24 none) _) h4
  have h6 : sticky s6 p k = true := sticky_set s5 2 h5
  have h7 : sticky s7 p k = true := sticky_record s6 _ _ _ _ _ h6
  split
  · exact sticky_alert s7 m h7
  · exact h7

theorem sticky_settle {p k : Nat} (m : Msg) (own : Bool) (h : sticky s p k = true) : sticky (settle s m own) p k = true := by
  unfold settle
  extract_lets page src sev targets n s1 s2 s3
  have ht : ∀ i ∈ targets, page = 0x00B → i < 16 := fun i hi e => by
    unfold targets at hi
    split at hi
    · rw [e] at hi
      exact containTargets_plan s hi
    · exact absurd hi List.not_mem_nil
  have h1 : sticky s1 p k = true := by
    unfold s1
    split
    · exact h
    · exact sticky_of_getReg s (getReg_contain s page src targets ht p) h
  have h2 : sticky s2 p k = true := sticky_record s1 _ _ _ _ _ h1
  have h3 : sticky s3 p k = true := by
    unfold s3
    split
    · exact sticky_alert s2 n h2
    · exact h2
  split
  · exact sticky_parkReaction s3 _ _ _ h3
  · exact h3

/-! ### Accepting a message -/

/-- The machine in which the Bell has taken the first message and set its sticky bit. -/
def noted (m : Msg) (rest : List Msg) : State :=
  let u := { s with bell := { s.bell with
    inq := rest ++ s.bell.held.take 1, held := s.bell.held.drop 1, last := some (s.now, m.source) } }
  if isFeedPage m.page then u else
    setReg u (ro m.page 0x1C) (getReg u (ro m.page 0x1C) ||| BitVec.ofNat 32 (2 ^ m.local))

variable {s} {m : Msg} {rest : List Msg}

theorem bellAccept_takes (hq : s.bell.inq = m :: rest) (hl : s.bell.last.map (·.1) ≠ some s.now) : bellAccept s =
    match if ownReaction m.page m.local m.cls then none else shadowOf s m.page m.local with
    | some shid => record (noteShadowed (noted s m rest) shid m) m true false shid 0
    | none => settle (noted s m rest) m (ownReaction m.page m.local m.cls) := by
  have hs : shadowOf (noted s m rest) m.page m.local = shadowOf s m.page m.local := by
    unfold noted
    dsimp only
    split <;> rfl
  rw [← hs]
  unfold bellAccept
  rw [hq]
  dsimp only
  rw [if_neg hl]
  rfl

theorem sticky_noted (hf : isFeedPage m.page = false) : sticky (noted s m rest) m.page m.local = true := by
  have hm : m.local < 16 := Nat.mod_lt _ (by decide)
  unfold noted
  dsimp only
  rw [if_neg (by simp [hf])]
  unfold sticky
  rw [getReg_setReg_self]
  unfold bit
  rw [BitVec.getLsbD_or, BitVec.getLsbD_ofNat, Nat.testBit_two_pow_self, decide_eq_true (show m.local < 32 by omega)]
  simp

theorem bellAccept_sticky (hq : s.bell.inq = m :: rest) (hl : s.bell.last.map (·.1) ≠ some s.now) (hf : isFeedPage m.page = false) :
    sticky (bellAccept s) m.page m.local = true := by
  rw [bellAccept_takes hq hl]
  split
  · exact sticky_record _ _ _ _ _ _ (sticky_of_getReg (noted s m rest) rfl (sticky_noted hf))
  · exact sticky_settle _ _ _ (sticky_noted hf)

/-! ### The words of a record -/

theorem fld_two (w : Word) (lo : Nat) : fld w lo 2 = fld w lo 1 + 2 * fld w (lo + 1) 1 := by
  unfold fld
  rw [pow_succ 2 lo, ← Nat.div_div_eq_div_mul]
  omega

section
variable (s : State) (m : Msg) (conseq opener : Bool) (shid sev : Nat)

/-- The source, CONSEQUENT and OPENER of a record's first word. -/
theorem fld_recordHead : let w := recordHead m conseq opener shid sev
    fld w 0 13 = m.source.toNat ∧ fld w 21 1 = b2n conseq ∧ fld w 22 1 = b2n opener := by
  have hb : ∀ b : Bool, b2n b % 2 ^ 1 = b2n b := by decide
  refine ⟨?_, ?_, ?_⟩
  · change fld (put (put (put (put (put (put (put _ 0 13 _) 13 8 _) 21 1 _) 22 1 _) 23 6 _) 29 1 _) 30 2 _) 0 13 = _
    rw [fld_put_below _ _ _ _ _ _ (by decide), fld_put_below _ _ _ _ _ _ (by decide), fld_put_below _ _ _ _ _ _ (by decide),
      fld_put_below _ _ _ _ _ _ (by decide), fld_put_below _ _ _ _ _ _ (by decide), fld_put_below _ _ _ _ _ _ (by decide),
      fld_put_self _ _ _ _ (by decide), Nat.mod_eq_of_lt m.source.isLt]
  · change fld (put (put (put (put (put _ 21 1 _) 22 1 _) 23 6 _) 29 1 _) 30 2 _) 21 1 = _
    rw [fld_put_below _ _ _ _ _ _ (by decide), fld_put_below _ _ _ _ _ _ (by decide), fld_put_below _ _ _ _ _ _ (by decide),
      fld_put_below _ _ _ _ _ _ (by decide), fld_put_self _ _ _ _ (by decide), hb]
  · change fld (put (put (put (put _ 22 1 _) 23 6 _) 29 1 _) 30 2 _) 22 1 = _
    rw [fld_put_below _ _ _ _ _ _ (by decide), fld_put_below _ _ _ _ _ _ (by decide), fld_put_below _ _ _ _ _ _ (by decide),
      fld_put_self _ _ _ _ (by decide), hb]

/-- With the ring live a record stands in it: its first word and its detail. -/
theorem boreWord_record (hl : s.bell.ringLive = true) :
    boreWord (record s m conseq opener shid sev) (recordAddr (nextRecord s)) = recordHead m conseq opener shid sev ∧
    boreWord (record s m conseq opener shid sev) (recordAddr (nextRecord s) + 4) = m.detail := by
  unfold record
  extract_lets n t ws _ s1 _ s2
  have h2 : s2.bell.ringLive = true := by
    unfold s2
    split
    · exact hl
    · exact hl
  rw [if_pos h2]
  generalize ringOverwrite s2 n = u
  rw [show nextRecord s = n from rfl]
  constructor
  · rw [setBores_cons, setBores_cons, setBores_cons, setBores_cons, setBores_nil]
    iterate 3 rw [boreWord_setBore_other _ _ _ _ (.inl (by omega))]
    exact boreWord_setBore_self ..
  · rw [setBores_cons, setBores_cons, setBores_cons, setBores_cons, setBores_nil]
    iterate 2 rw [boreWord_setBore_other _ _ _ _ (.inl (by omega))]
    exact boreWord_setBore_self ..

/-- A record moves a part that neither the Bell, the Bore, the registers nor the interrupts hold as little as the flash store's journal. -/
theorem record_part {β : Type} {π : State → β} (hh : ∀ s v, π { s with host := v } = π s) (hr : ∀ s v, π { s with regs := v } = π s)
    (hl : ∀ s v, π { s with bell := v } = π s) (hb : ∀ s v, π { s with bore := v } = π s) (hf : ∀ s v, π { s with flash := v } = π s)
    (hm : ∀ s a n, π { s with msgAt := a, msgNow := n } = π s) : π (record s m conseq opener shid sev) = π s := by
  have ho : ∀ (u : State) n, π (ringOverwrite u n) = π u := fun u n => by
    unfold ringOverwrite
    extract_lets old s1 s2 s3
    split
    · rfl
    · have h3 : π s3 = π u := (irqSet_part _ hh hr ..).trans ((hr s2 _).trans ((hf s1 _).trans (hr u _)))
      exact (postAs_part s3 hh hr hl hm rfl ..).trans h3
  unfold record
  extract_lets n t ws _ s1 _ s2
  have h1 : π s1 = π s := (hr _ _).trans (hl s _)
  have h2 : π s2 = π s := by
    unfold s2
    split
    · exact (hl s1 _).trans h1
    · exact h1
  split
  · exact (setBores_part _ hb hr hl ..).trans ((ho s2 n).trans h2)
  · split
    · exact (hl s2 _).trans h2
    · exact (irqSet_part _ hh hr ..).trans ((hr s2 _).trans h2)

theorem alert_part {β : Type} {π : State → β} (hh : ∀ s v, π { s with host := v } = π s) (hr : ∀ s v, π { s with regs := v } = π s)
    (n : Word) : π (alert s n) = π s :=
  (irqSet_part _ hh hr ..).trans (hr s _)

end

/-! ### A message that is recorded and nothing more -/

theorem noted_fields (s : State) (m : Msg) (rest : List Msg) : (noted s m rest).slots = s.slots ∧ (noted s m rest).park = s.park ∧
    (noted s m rest).chans = s.chans ∧ (noted s m rest).power = s.power ∧ (noted s m rest).bell.ringLive = s.bell.ringLive := by
  unfold noted
  dsimp only
  split <;> exact ⟨rfl, rfl, rfl, rfl, rfl⟩

theorem getReg_noted (s : State) (m : Msg) (rest : List Msg) {off : Nat} (h : off ≠ ro m.page 0x1C) :
    getReg (noted s m rest) off = getReg s off := by
  unfold noted
  dsimp only
  split
  · rfl
  · exact (getReg_setReg_other _ _ _ _ h).trans rfl

theorem nextRecord_noted (s : State) (m : Msg) (rest : List Msg) : nextRecord (noted s m rest) = nextRecord s :=
  getReg_noted s m rest (sticky_ne_bell m.page).2.1.symm

theorem appliedSev_noted (s : State) (m : Msg) (rest : List Msg) (page src : Nat) :
    appliedSev (noted s m rest) page src = appliedSev s page src := by
  have h : severity (noted s m rest) page src = severity s page src :=
    regFld_of_getReg (getReg_noted s m rest (by unfold ro; omega)) _ _
  unfold appliedSev
  rw [h]

/-- A record moves neither slots, the park store nor an output. -/
theorem record_still (u : State) (m : Msg) (conseq opener : Bool) (shid sev : Nat) :
    (record u m conseq opener shid sev).slots = u.slots ∧ (record u m conseq opener shid sev).park = u.park ∧
    (record u m conseq opener shid sev).chans = u.chans ∧ (record u m conseq opener shid sev).power = u.power :=
  ⟨record_part u m _ _ _ _ (π := State.slots) (fun _ _ => rfl) (fun _ _ => rfl) (fun _ _ => rfl) (fun _ _ => rfl) (fun _ _ => rfl)
      (fun _ _ _ => rfl),
    record_part u m _ _ _ _ (π := State.park) (fun _ _ => rfl) (fun _ _ => rfl) (fun _ _ => rfl) (fun _ _ => rfl) (fun _ _ => rfl)
      (fun _ _ _ => rfl),
    record_part u m _ _ _ _ (π := State.chans) (fun _ _ => rfl) (fun _ _ => rfl) (fun _ _ => rfl) (fun _ _ => rfl) (fun _ _ => rfl)
      (fun _ _ _ => rfl),
    record_part u m _ _ _ _ (π := State.power) (fun _ _ => rfl) (fun _ _ => rfl) (fun _ _ => rfl) (fun _ _ => rfl) (fun _ _ => rfl)
      (fun _ _ _ => rfl)⟩

section
variable (hq : s.bell.inq = m :: rest) (hl : s.bell.last.map (·.1) ≠ some s.now) (hr : s.bell.ringLive = true)
  (ho : ownReaction m.page m.local m.cls = false)
include hq hl ho

/-- Inside a shadow a message is recorded as CONSEQUENT. -/
theorem bellAccept_shadowed {shid : Nat} (hs : shadowOf s m.page m.local = some shid) :
    bellAccept s = record (noteShadowed (noted s m rest) shid m) m true false shid 0 := by
  rw [bellAccept_takes hq hl, ho, hs]
  rfl

/-- Outside every shadow and at severity 0 it is recorded and nothing more. -/
theorem bellAccept_recorded (hs : shadowOf s m.page m.local = none) (hv : appliedSev s m.page m.local = 0) :
    bellAccept s = record (noted s m rest) m false false m.page 0 := by
  rw [bellAccept_takes hq hl, ho, hs]
  simp only [Bool.false_eq_true, if_false]
  unfold settle
  simp only [appliedSev_noted, hv]
  rfl

/-- At severity 3 the record is followed by the alert and the park reaction. -/
theorem bellAccept_parks (hs : shadowOf s m.page m.local = none) (hv : appliedSev s m.page m.local = 3) :
    bellAccept s = parkReaction (alert (record (noted s m rest) m false false m.page 3) (nextRecord s)) m.page m.local (nextRecord s) := by
  rw [bellAccept_takes hq hl, ho, hs]
  simp only [Bool.false_eq_true, if_false]
  unfold settle
  simp only [appliedSev_noted, hv, nextRecord_noted]
  rfl

include hr in
theorem bellAccept_yields_recorded (hs : shadowOf s m.page m.local = none) (hv : appliedSev s m.page m.local = 0) :
    Yields .bellAccept s fun t => nextRecord t = nextRecord s + 1 ∧ boreWord t (recordAddr (nextRecord s) + 4) = m.detail ∧
      fld (boreWord t (recordAddr (nextRecord s))) 0 13 = m.source.toNat ∧
      fld (boreWord t (recordAddr (nextRecord s))) 21 2 = 0 ∧ t.slots = s.slots ∧ t.park = s.park ∧ SameOutputs s t := by
  obtain ⟨n1, n2, n3, -, n5⟩ := noted_fields s m rest
  obtain ⟨r1, r2, r3, -⟩ := record_still (noted s m rest) m false false m.page 0
  obtain ⟨w1, w2⟩ := boreWord_record (noted s m rest) m false false m.page 0 (n5.trans hr)
  obtain ⟨f1, f2, f3⟩ := fld_recordHead m false false m.page 0
  rw [nextRecord_noted] at w1 w2
  refine ⟨_, congrArg Host.Outcome.next (bellAccept_recorded hq hl ho hs hv), ?_, w2, ?_, ?_, r1.trans n1, r2.trans n2,
    sameOutputs_of_chans (r3.trans n3)⟩
  · rw [nextRecord_record, nextRecord_noted]
  · rw [w1]
    exact f1
  · rw [w1, fld_two, f2, f3]
    rfl

include hr in
theorem bellAccept_yields_shadowed (shid : Nat) (hs : shadowOf s m.page m.local = some shid) :
    Yields .bellAccept s fun t => nextRecord t = nextRecord s + 1 ∧ fld (boreWord t (recordAddr (nextRecord s))) 21 1 = 1 ∧
      t.slots = s.slots ∧ t.park = s.park ∧ SameOutputs s t := by
  obtain ⟨n1, n2, n3, -, n5⟩ := noted_fields s m rest
  obtain ⟨r1, r2, r3, -⟩ := record_still (noteShadowed (noted s m rest) shid m) m true false shid 0
  obtain ⟨w1, -⟩ := boreWord_record (noteShadowed (noted s m rest) shid m) m true false shid 0 (n5.trans hr)
  obtain ⟨-, f2, -⟩ := fld_recordHead m true false shid 0
  have hn : nextRecord (noteShadowed (noted s m rest) shid m) = nextRecord s := (getReg_of_regs (s := noted s m rest) rfl _).trans
    (nextRecord_noted s m rest)
  rw [hn] at w1
  refine ⟨_, congrArg Host.Outcome.next (bellAccept_shadowed hq hl ho hs), ?_, ?_, r1.trans n1, r2.trans n2,
    sameOutputs_of_chans (r3.trans n3)⟩
  · rw [nextRecord_record, hn]
  · rw [w1]
    exact f2

end

/-! ### The park reaction -/

section
variable (s : State)

theorem parkHold_irqSet (page : Nat) (bits : Word) : (irqSet s page bits).bell.parkHold = s.bell.parkHold :=
  irqSet_part s (π := fun u : State => u.bell.parkHold) (fun _ _ => rfl) (fun _ _ => rfl) page bits

theorem parkHold_bellLost (lo n : Nat) : (bellLost s lo n).bell.parkHold = s.bell.parkHold := (parkHold_irqSet _ _ _).trans rfl

theorem parkHold_postAs {page : Nat} (hp : isFeedPage page = false) (src cls sub : Nat) (d : Word) :
    (postAs s page src cls sub d).bell.parkHold = s.bell.parkHold := by
  have hin : ∀ (u : State) m, (bellIn u m).bell.parkHold = u.bell.parkHold := fun u m => by
    unfold bellIn
    split
    · rfl
    · dsimp only
      split
      · exact (parkHold_bellLost _ _ _).trans rfl
      · rfl
  unfold postAs
  split
  · rfl
  · extract_lets inj m _ s1 s2 s3
    have h1 : s1.bell.parkHold = s.bell.parkHold := by unfold s1; split <;> rfl
    rw [if_neg (by simp [hp])]
    split
    · exact h1
    · rw [hin]
      refine Eq.trans ?_ h1
      unfold s3
      split <;> rfl

theorem parkHold_setBores (a : Nat) (ws : List Word) : (setBores s a ws).bell.parkHold = s.bell.parkHold := by
  induction ws generalizing s a with
  | nil => rfl
  | cons w ws ih =>
    rw [setBores_cons, ih]
    unfold setBore
    split <;> rfl

theorem parkHold_writeCompletion (c : Cmd) (q sct sc : Nat) (dw0 dw1 : Word) :
    (writeCompletion s c q sct sc dw0 dw1).bell.parkHold = s.bell.parkHold := by
  unfold writeCompletion
  extract_lets x base ws s1 wrap s2 s3 s4
  have h1 : s1.bell.parkHold = s.bell.parkHold := (parkHold_setBores _ _ ws).trans (parkHold_setBores s _ ws)
  have h4 : s4.bell.parkHold = s.bell.parkHold := by
    refine Eq.trans ?_ h1
    unfold s4
    split <;> rfl
  exact (cqSignal_part _ (π := fun u : State => u.bell.parkHold) (fun _ _ => rfl) (fun _ _ => rfl) _ _ _).trans h4

theorem parkHold_complete (tag sct sc : Nat) (dw0 dw1 : Word) : (complete s tag sct sc dw0 dw1).bell.parkHold = s.bell.parkHold := by
  unfold complete
  split
  · rfl
  · split
    · exact parkHold_writeCompletion ..
    · split
      · exact parkHold_writeCompletion ..
      · rfl

theorem parkHold_finish (k src : Nat) (cut : Bool) (result groups arrived : Nat) (t : Option Nat) :
    (finish s k src cut result groups arrived t).bell.parkHold = s.bell.parkHold := by
  unfold finish
  extract_lets lat jt w0 w1 sh res s1 s2 s3 s4 s5 s6
  have h4 : s4.bell.parkHold = s.bell.parkHold := (parkHold_setBores s3 (0x60_0000 + s3.flash.staged % 131072 * 16) _).trans rfl
  have h6 : s6.bell.parkHold = s.bell.parkHold := by
    have h5 : s5.bell.parkHold = s.bell.parkHold := (parkHold_irqSet s4 pgCOMMIT _).trans h4
    unfold s6
    split
    · exact (parkHold_postAs s5 (by decide) ..).trans h5
    · exact h5
  split
  · exact (parkHold_complete s6 ..).trans h6
  · exact h6

theorem parkHold_unarm (k : Nat) : (unarm s k).bell.parkHold = s.bell.parkHold := by
  have he : ∀ u : State, (endReq u k 4).bell.parkHold = u.bell.parkHold := fun u => by
    unfold endReq
    split
    · rfl
    · exact (parkHold_finish ..).trans rfl
  unfold unarm
  split
  · unfold disarm
    dsimp only
    split
    · exact (he _).trans rfl
    · exact (foldl_part _ (π := fun u : State => u.bell.parkHold) (fun u t => parkHold_complete u t _ _ _ _) _).trans ((he _).trans rfl)
  · rfl

theorem parkHold_record (m : Msg) (conseq opener : Bool) (shid sev : Nat) :
    (record s m conseq opener shid sev).bell.parkHold = s.bell.parkHold := by
  unfold record
  extract_lets n t ws _ s1 _ s2
  have h2 : s2.bell.parkHold = s.bell.parkHold := by unfold s2; split <;> rfl
  have ho : (ringOverwrite s2 n).bell.parkHold = s2.bell.parkHold := by
    unfold ringOverwrite
    extract_lets old u1 u2 u3
    split
    · rfl
    · exact (parkHold_postAs u3 (by decide) ..).trans ((parkHold_irqSet _ _ _).trans rfl)
  split
  · exact (parkHold_setBores ..).trans (ho.trans h2)
  · split
    · exact h2
    · exact (parkHold_bellLost s2 _ _).trans h2

/-- No slot stays armed: each that was is disarmed. -/
theorem slot_unarmed (k : Slot) : (slot (slotList.foldl unarm s) k.val).state ≠ .armed := by
  have hd : ∀ (u : State) j k, k ≠ j → slot (unarm u j) k = slot u k := fun u j k h => by
    unfold unarm
    split
    · unfold disarm
      extract_lets x u1 u2
      have h2 : slot u2 k = slot u k := (slot_of_slots (endReq_slots u1 j 4) k).trans (by unfold u1; rw [slot_setSlot, if_neg h])
      split
      · exact h2
      · exact (slot_of_slots (planDone_slots u2 j) k).trans h2
    · rfl
  have hk : ∀ u : State, (slot (unarm u k.val) k.val).state ≠ .armed := fun u => by
    unfold unarm
    split
    · rw [(disarm_slot u k.val).1]
      decide
    · next h => exact h
  have hl : ∀ (l : List Nat) (u : State), ((slot u k.val).state ≠ .armed ∨ k.val ∈ l) → (slot (l.foldl unarm u) k.val).state ≠ .armed := by
    intro l
    induction l with
    | nil => exact fun u hu => hu.resolve_right List.not_mem_nil
    | cons j l ih =>
      intro u hu
      refine ih _ ?_
      by_cases e : k.val = j
      · exact .inl (e ▸ hk u)
      · refine hu.imp (fun h => ?_) fun h => (List.mem_cons.mp h).resolve_left e
        rw [hd u j k.val e]
        exact h
  exact hl slotList s (.inr (List.mem_range.mpr k.isLt))

theorem parkHold_parkEvent (cause : Nat) (tiles : Word) : (parkEvent s cause tiles).bell.parkHold = s.bell.parkHold := by
  unfold parkEvent
  split
  · rfl
  · exact (parkHold_postAs _ (by decide) ..).trans rfl

theorem unarm_park (k : Nat) : (unarm s k).park = s.park := by
  have he : ∀ v : State, (endReq v k 4).park = v.park := fun v => endReq_part v (π := State.park) (fun _ _ => rfl) (fun _ _ => rfl)
    (fun _ _ => rfl) (fun _ _ => rfl) (fun _ _ => rfl) (fun _ _ => rfl) (fun _ _ _ => rfl) (fun _ _ => rfl) k 4
  unfold unarm
  split
  · unfold disarm
    extract_lets x u1 u2
    split
    · exact (he u1).trans rfl
    · exact (planDone_part u2 (π := State.park) (fun _ _ => rfl) (fun _ _ => rfl) (fun _ _ => rfl) (fun _ _ => rfl)
        (fun _ _ => rfl) k).trans ((he u1).trans rfl)
  · rfl

/-- The beginning of a park reaction: the hold stands and its interrupt is raised. -/
def parkBegun (page src : Nat) (n : Word) : State :=
  let u := setReg s (ro pgBELL 0x58) n
  irqSet { u with bell := { u.bell with
    parkHold := true, parkSrcs := if u.bell.parkSrcs.contains (page, src) then u.bell.parkSrcs else u.bell.parkSrcs ++ [(page, src)] } }
    pgBELL 2

/-- The end of a park reaction: its shadow opens and its own record is made. -/
def parkNoted (n : Word) : State :=
  let s := openShadow s 24
  let s := setReg s (ro pgBELL 0x1C) (getReg s (ro pgBELL 0x1C) ||| 2)
  let sev := appliedSev s pgBELL 1
  let m := nextRecord s
  let s := record s { source := srcCode pgBELL 1, kind := 0x21, detail := n } false true 24 sev
  if 1 ≤ sev then alert s m else s

theorem parkReaction_eq (page src : Nat) (n : Word) :
    parkReaction s page src n = parkNoted (slotList.foldl unarm (parkEvent (parkBegun s page src n) 1 allTiles)) n := rfl

theorem parkBegun_fields (page src : Nat) (n : Word) : (parkBegun s page src n).bell.parkHold = true ∧
    (parkBegun s page src n).park = s.park ∧ (parkBegun s page src n).power = s.power := by
  unfold parkBegun
  refine ⟨(parkHold_irqSet ..).trans rfl, ?_, ?_⟩
  · exact (irqSet_part _ (π := State.park) (fun _ _ => rfl) (fun _ _ => rfl) _ _).trans rfl
  · exact (irqSet_part _ (π := State.power) (fun _ _ => rfl) (fun _ _ => rfl) _ _).trans rfl

theorem parkNoted_fields (n : Word) : (parkNoted s n).bell.parkHold = s.bell.parkHold ∧ (parkNoted s n).slots = s.slots ∧
    (parkNoted s n).park = s.park := by
  unfold parkNoted
  extract_lets s5 s6 sev m s7
  have h6 : s6.bell.parkHold = s.bell.parkHold ∧ s6.slots = s.slots ∧ s6.park = s.park := ⟨rfl, rfl, rfl⟩
  obtain ⟨r1, r2, -⟩ := record_still s6 { source := srcCode pgBELL 1, kind := 0x21, detail := n } false true 24 sev
  have h7 : s7.bell.parkHold = s.bell.parkHold ∧ s7.slots = s.slots ∧ s7.park = s.park :=
    ⟨(parkHold_record ..).trans h6.1, r1.trans h6.2.1, r2.trans h6.2.2⟩
  clear_value s7
  split
  · exact ⟨(alert_part s7 (π := fun u : State => u.bell.parkHold) (fun _ _ => rfl) (fun _ _ => rfl) m).trans h7.1,
      (alert_part s7 (π := State.slots) (fun _ _ => rfl) (fun _ _ => rfl) m).trans h7.2.1,
      (alert_part s7 (π := State.park) (fun _ _ => rfl) (fun _ _ => rfl) m).trans h7.2.2⟩
  · exact h7

/-- The park reaction of a record: the hold stands, no slot stays armed, the event is requested, and no output moves (R507). -/
theorem parkReaction_holds (page src : Nat) (n : Word) : (parkReaction s page src n).bell.parkHold = true ∧
    (∀ k : Slot, (slot (parkReaction s page src n) k.val).state ≠ .armed) ∧ (parkReaction s page src n).chans = s.chans ∧
    (s.power.dom = 0xFFFFF →
      (parkReaction s page src n).park.events = s.park.events ++ [{ cause := 1, tiles := allTiles, left := allTiles }]) := by
  obtain ⟨b1, b2, b3⟩ := parkBegun_fields s page src n
  have hc : (parkReaction s page src n).chans = s.chans :=
    (parkReaction_keeps (may := { park := true, slots := true, bore := true }) rfl rfl rfl Keeps.rfl).chans rfl
  rw [parkReaction_eq] at hc ⊢
  obtain ⟨n1, n2, n3⟩ := parkNoted_fields (slotList.foldl unarm (parkEvent (parkBegun s page src n) 1 allTiles)) n
  refine ⟨n1.trans ?_, fun k => ?_, hc, fun hd => ?_⟩
  · exact (foldl_part _ (π := fun u : State => u.bell.parkHold) parkHold_unarm _).trans ((parkHold_parkEvent ..).trans b1)
  · rw [slot_of_slots n2]
    exact slot_unarmed _ k
  · rw [n3, foldl_part _ (π := State.park) unarm_park _, parkEvent_events _ 1 allTiles (by rw [b3]; exact hd) (by decide), b2]
    rfl

end

theorem bellAccept_yields_park (hq : s.bell.inq = m :: rest) (hl : s.bell.last.map (·.1) ≠ some s.now)
    (ho : ownReaction m.page m.local m.cls = false) (hs : shadowOf s m.page m.local = none) (hv : appliedSev s m.page m.local = 3) :
    Yields .bellAccept s fun t => t.bell.parkHold = true ∧ (∀ k : Slot, (slot t k.val).state ≠ .armed) ∧ SameOutputs s t ∧
      (s.power.dom = 0xFFFFF → t.park.events = s.park.events ++ [{ cause := 1, tiles := allTiles, left := allTiles }]) := by
  obtain ⟨-, n2, n3, n4, -⟩ := noted_fields s m rest
  obtain ⟨-, r2, r3, r4⟩ := record_still (noted s m rest) m false false m.page 3
  let u := record (noted s m rest) m false false m.page 3
  have ha : ∀ {β : Type} (π : State → β), (∀ s v, π { s with host := v } = π s) → (∀ s v, π { s with regs := v } = π s) →
      π (alert u (nextRecord s)) = π u := fun π hh hr => alert_part u (π := π) hh hr _
  have a1 : (alert u (nextRecord s)).park = s.park := (ha State.park (fun _ _ => rfl) (fun _ _ => rfl)).trans (r2.trans n2)
  have a2 : (alert u (nextRecord s)).chans = s.chans := (ha State.chans (fun _ _ => rfl) (fun _ _ => rfl)).trans (r3.trans n3)
  have a3 : (alert u (nextRecord s)).power = s.power := (ha State.power (fun _ _ => rfl) (fun _ _ => rfl)).trans (r4.trans n4)
  obtain ⟨h1, h2, h3, h4⟩ := parkReaction_holds (alert u (nextRecord s)) m.page m.local (nextRecord s)
  rw [a1, a3] at h4
  exact ⟨_, congrArg Host.Outcome.next (bellAccept_parks hq hl ho hs hv), h1, h2, sameOutputs_of_chans (h3.trans a2), h4⟩

/-! ### The end of a shadow and the core's copy -/

theorem lookup_tabDel {α : Type} (l : Tab α) (k : Nat) : (tabDel l k).lookup k = none := by
  rw [List.lookup_eq_none_iff]
  intro p hp
  have h := (List.mem_filter.mp hp).2
  simpa using fun e => (bne_iff_ne.mp h) e.symm

theorem shadowClose_yields (shid : Fin 64) {x : Shadow} (hx : s.bell.shadows.lookup shid.val = some x) (h0 : x.shadowed = [])
    (hc : x.closeAt ≤ s.now) (ho : reactionOver s shid.val = true) : Yields (.shadowClose shid) s fun t =>
      t.bell.shadows.lookup shid.val = none ∧ t.regs = s.regs ∧ SameOutputs s t := by
  have e : shadowClose s shid.val = { s with bell := { s.bell with shadows := tabDel s.bell.shadows shid.val } } := by
    unfold shadowClose
    rw [hx]
    dsimp only
    rw [if_neg (by simp [ho, hc]), h0]
    rfl
  exact ⟨_, congrArg Host.Outcome.next e, lookup_tabDel .., rfl, sameOutputs_of_chans rfl⟩

/-- The words of the records have no source beside the ring, so a failing one moves no byte. -/
theorem parSpan_record (n : Word) : SameBore s (parSpan s (recordAddr n) 16).1 ∧
    nextRecord (parSpan s (recordAddr n) 16).1 = nextRecord s := by
  have hn : Rests (fun u => nextRecord u = nextRecord s) := steady_rests (by decide) (by decide) (by decide) _
  have hr : ∀ w, recordAddr n ≤ w ∧ w < recordAddr n + 16 → boreRegion w ∈ [0, 2, 3, 8] := fun w hw => by
    unfold recordAddr at hw
    unfold boreRegion
    rw [if_neg (by omega), if_neg (by omega), if_pos (by omega)]
    decide
  have hl : ∀ (l : List Nat) (p : State × Bool), (∀ w ∈ l, recordAddr n ≤ w ∧ w < recordAddr n + 16) →
      SameBore s p.1 ∧ nextRecord p.1 = nextRecord s →
      SameBore s (l.foldl (fun p w => let r := parRead p.1 w; (r.1, p.2 && r.2)) p).1 ∧
      nextRecord (l.foldl (fun p w => let r := parRead p.1 w; (r.1, p.2 && r.2)) p).1 = nextRecord s := by
    intro l
    induction l with
    | nil => exact fun p _ hp => hp
    | cons w l ih =>
      intro p hw hp
      refine ih _ (fun v hv => hw v (List.mem_cons_of_mem _ hv)) ?_
      dsimp only
      unfold parRead
      split
      · refine ⟨fun a => ?_, hn.parFail hp.2⟩
        exact ((parFail_damaged p.1 (hr w (hw w List.mem_cons_self))).1 a).trans (hp.1 a)
      · exact hp
  exact hl _ (s, true) (fun w hw => of_decide_eq_true (List.mem_filter.mp hw).2) ⟨fun _ => rfl, rfl⟩

theorem appendRecord_leaves (u : State) (p : Nat) (type : Byte) (payload : List Byte) (damaged : Bool) :
    (appendRecord u p type payload damaged).regs = u.regs ∧ (appendRecord u p type payload damaged).bore = u.bore := by
  have h : ∀ v : Flash, ({ u with flash := v } : State).regs = u.regs ∧ ({ u with flash := v } : State).bore = u.bore :=
    fun _ => ⟨rfl, rfl⟩
  exact h _

/-- With the core running and a record to copy, the copy is appended to JOURNAL and CORE_RD moves by one. -/
theorem execBellJournalCopy_of (hc : coreRuns s = true) (hl : s.bell.ringLive = true) (hn : coreRecord s ≠ nextRecord s)
    (ho : ringOpen s 2 = true) : ∃ u p type payload damaged, u = (parSpan s (recordAddr (coreRecord s)) 16).1 ∧
      execBellJournalCopy s = .next (setReg (appendRecord u p type payload damaged) (ro pgBELL 0x4C) (coreRecord s + 1)) := by
  unfold execBellJournalCopy
  dsimp only
  rw [if_pos ⟨hc, hl, hn, ho⟩]
  exact ⟨_, _, _, _, _, rfl, rfl⟩

theorem bellJournalCopy_yields (hc : coreRuns s = true) (hl : s.bell.ringLive = true) (hn : coreRecord s ≠ nextRecord s)
    (ho : ringOpen s 2 = true) : Yields .bellJournalCopy s fun t =>
      coreRecord t = coreRecord s + 1 ∧ nextRecord t = nextRecord s ∧ SameBore s t := by
  obtain ⟨h1, h2⟩ := parSpan_record (s := s) (coreRecord s)
  obtain ⟨v, p, type, payload, damaged, hv, e⟩ := execBellJournalCopy_of hc hl hn ho
  obtain ⟨a1, a2⟩ := appendRecord_leaves v p type payload damaged
  rw [← hv] at h1 h2
  refine ⟨_, e, getReg_setReg_self .., ?_, fun a => ?_⟩
  · exact (getReg_setReg_other _ _ _ _ (by decide)).trans ((getReg_of_regs a1 _).trans h2)
  · exact (boreByte_of_bore (setReg_bore ..) a).trans ((boreByte_of_bore a2 a).trans (h1 a))

/-- Settles O41: by what follows the sticky bit of the accepted message — its record in a shadow or outside, its reaction. -/
theorem bellRecords : Obligations.BellRecords := by
  unfold Obligations.BellRecords
  intro s
  refine ⟨fun m rest hq hl hf => ⟨_, rfl, bellAccept_sticky hq hl hf⟩, fun m rest hq hl hr ho => ⟨?_, ?_, ?_⟩, ?_, ?_⟩
  · exact fun hs hv => bellAccept_yields_recorded hq hl hr ho hs hv
  · exact fun shid hs => bellAccept_yields_shadowed hq hl hr ho shid hs
  · exact fun hs hv => bellAccept_yields_park hq hl ho hs hv
  · exact fun shid x hx h0 hc ho => shadowClose_yields shid hx h0 hc ho
  · exact fun hc hl hn ho => bellJournalCopy_yields hc hl hn ho

end Sys2Proof.Machine
end

