-- ==== Sys2Proof/Proofs/PcieEvents.lean ====
section
/-! O38. Resets of functions, the PCIe link and MSI-X (R417 to R422, R435 to R438, R445, R446, R585). -/

namespace Sys2Proof.Machine

open Sys2Proof.Safety (Yields mayWrite)

variable (s : State)

/-! ### The parts of a function-level reset -/

/-- The commands of the function are dropped. -/
def flrDropped (fn : Nat) : State :=
  let u := ((s.cmdq.cmds.filter (fun c => c.fn == fn)).map (·.tag)).foldl dropTag s
  { u with cmdq := { u.cmdq with fetched := u.cmdq.fetched.filter (fun c => c.fn != fn) } }

def sqReset (s : State) (q : Nat) : State := setSq (putReg s (ro pgCMDQ (0x104 + 16 * q)) 0 1 0) q {}
def cqReset (s : State) (q : Nat) : State := setCq (putReg s (ro pgCMDQ (0x504 + 16 * q)) 0 1 0) q {}

/-- Its MSI-X state and power state return to their reset values. -/
def flrHost (fn : Nat) : State :=
  let h := s.host
  { s with host := { h with
    msixTab := h.msixTab.filter (fun p => p.1 / 128 != fn), msixPend := h.msixPend.filter (fun p => p.1 / 32 != fn),
    msixEn := h.msixEn &&& ~~~ (BitVec.ofNat 3 (2 ^ fn)), d3 := h.d3 &&& ~~~ (BitVec.ofNat 3 (2 ^ fn)) } }

/-- The queues that a reset of the function empties. -/
def flrSqs (fn : Nat) : List Nat := (List.range 64).filter (fun q => sqFn s q == fn && (bit (sqCtrl s q) 0 || inflight s q != 0))

theorem flr_eq (fn : Nat) : flr s fn =
    post (bumpReg (flrHost (setJcpVer (((flrSqs s fn).map (sqCq s)).eraseDups.foldl cqReset
      ((flrSqs s fn).foldl sqReset (flrDropped s fn))) fn 0x10) fn) (ro pgHOST 0x54) (8 * fn) 8) pgHOST 3 (BitVec.ofNat 32 fn) := rfl

section
variable {f : State → Nat → State} {o : Nat → Nat} (hf : ∀ u q, (f u q).regs = (putReg u (o q) 0 1 0).regs)
include hf

/-- A fold that clears bit 0 of a register each leaves every other register. -/
theorem getReg_cleared {off : Nat} (l : List Nat) (h : ∀ q ∈ l, off ≠ o q) : getReg (l.foldl f s) off = getReg s off := by
  induction l generalizing s with
  | nil => rfl
  | cons q l ih =>
    rw [List.foldl_cons, ih _ fun j hj => h j (List.mem_cons_of_mem _ hj), getReg_of_regs (hf s q)]
    exact getReg_putReg_other _ _ _ _ _ _ (h q List.mem_cons_self)

theorem bit_cleared {q : Nat} (l : List Nat) (h : q ∈ l ∨ bit (getReg s (o q)) 0 = false) :
    bit (getReg (l.foldl f s) (o q)) 0 = false := by
  induction l generalizing s with
  | nil => exact h.resolve_left List.not_mem_nil
  | cons j l ih =>
    refine ih _ ?_
    by_cases e : o q = o j
    · refine .inr ?_
      have hz := fld_put_self (getReg s (o j)) 0 1 0 (by decide)
      rw [fld_one] at hz
      rw [getReg_of_regs (hf s j), e]
      exact (congrArg (fun w => bit w 0) (getReg_setReg_self ..)).trans (b2n_inj (b := false) hz)
    · refine h.imp (fun hq => (List.mem_cons.mp hq).resolve_left fun hj => e (congrArg o hj)) fun hb => ?_
      rw [getReg_of_regs (hf s j), getReg_putReg_other _ _ _ _ _ _ e]
      exact hb

end

theorem sqReset_regs (u : State) (q : Nat) : (sqReset u q).regs = (putReg u (ro pgCMDQ (0x104 + 16 * q)) 0 1 0).regs := rfl
theorem cqReset_regs (u : State) (q : Nat) : (cqReset u q).regs = (putReg u (ro pgCMDQ (0x504 + 16 * q)) 0 1 0).regs := rfl

theorem dropTag_sqs (t : Nat) : (dropTag s t).cmdq.sqs = s.cmdq.sqs ∧ (dropTag s t).cmdq.fetched = s.cmdq.fetched ∧
    (dropTag s t).regs = s.regs ∧ (dropTag s t).cmdq.cmds = s.cmdq.cmds.filter (fun d => d.tag != t) :=
  ⟨rfl, rfl, rfl, rfl⟩

theorem cmds_dropTags (l : List Nat) : (l.foldl dropTag s).cmdq.cmds = s.cmdq.cmds.filter (fun d => !l.contains d.tag) := by
  induction l generalizing s with
  | nil => simp
  | cons t l ih =>
    rw [List.foldl_cons, ih, (dropTag_sqs s t).2.2.2, List.filter_filter]
    refine List.filter_congr fun d _ => ?_
    rw [List.contains_cons, Bool.not_or, Bool.and_comm]
    rfl

/-- No command of the function stays. -/
theorem flrDropped_cmds (fn : Nat) : (∀ c ∈ (flrDropped s fn).cmdq.cmds, c.fn ≠ fn) ∧ (∀ c ∈ (flrDropped s fn).cmdq.fetched, c.fn ≠ fn) := by
  refine ⟨fun c hc e => ?_, fun c hc => by simpa using (List.mem_filter.mp hc).2⟩
  have hc' : c ∈ (((s.cmdq.cmds.filter (fun c => c.fn == fn)).map (·.tag)).foldl dropTag s).cmdq.cmds := hc
  rw [cmds_dropTags, List.mem_filter] at hc'
  obtain ⟨hm, hn⟩ := hc'
  have ht : c.tag ∈ (s.cmdq.cmds.filter (fun c => c.fn == fn)).map (·.tag) :=
    List.mem_map_of_mem (List.mem_filter.mpr ⟨hm, by simpa using e⟩)
  rw [List.contains_iff_mem.mpr ht] at hn
  exact absurd hn (by decide)

theorem flrDropped_regs (fn : Nat) : (flrDropped s fn).regs = s.regs ∧ (flrDropped s fn).cmdq.sqs = s.cmdq.sqs :=
  ⟨foldl_part s (π := State.regs) (fun u t => (dropTag_sqs u t).2.2.1) _,
    foldl_part s (π := fun u : State => u.cmdq.sqs) (fun u t => (dropTag_sqs u t).1) _⟩

/-! ### What a reset of a function leaves -/

theorem getReg_flr_queue {off : Nat} (hs : steady? off = true) (hn : off ≠ ro pgHOST 0x54) (fn : Nat) :
    getReg (flr s fn) off = getReg (((flrSqs s fn).map (sqCq s)).eraseDups.foldl cqReset
      ((flrSqs s fn).foldl sqReset (flrDropped s fn))) off := by
  rw [flr_eq, getReg_post_steady _ hs (by decide), show getReg (bumpReg _ _ _ _) off = _ from getReg_putReg_other _ _ _ _ _ _ hn]
  rfl

theorem sqCtrl_flr (fn : Nat) (q : QId) : getReg (flr s fn) (ro pgCMDQ (0x104 + 16 * q.val)) =
    getReg ((flrSqs s fn).foldl sqReset (flrDropped s fn)) (ro pgCMDQ (0x104 + 16 * q.val)) := by
  rw [getReg_flr_queue s (steady?_sqCtrl q.val q.isLt) (by unfold ro pgCMDQ pgHOST; omega)]
  refine getReg_cleared _ (f := cqReset) (o := fun q => ro pgCMDQ (0x504 + 16 * q)) cqReset_regs _ fun c _ => ?_
  unfold ro
  omega

theorem mem_flrSqs (fn : Nat) (q : Nat) : q ∈ flrSqs s fn ↔ q < 64 ∧ sqFn s q = fn ∧ (bit (sqCtrl s q) 0 = true ∨ inflight s q ≠ 0) := by
  unfold flrSqs
  simp [List.mem_filter, List.mem_range]

theorem flr_disables (fn : Nat) (q : QId) (hq : sqFn s q.val = fn) (hb : bit (sqCtrl s q.val) 0 = true) :
    bit (sqCtrl (flr s fn) q.val) 0 = false ∧ bit (cqCtrl (flr s fn) (sqCq s q.val)) 0 = false := by
  have hm : q.val ∈ flrSqs s fn := (mem_flrSqs ..).mpr ⟨q.isLt, hq, .inl hb⟩
  have hc : sqCq s q.val < 64 := fld_lt _ 4 6
  constructor
  · unfold sqCtrl
    rw [sqCtrl_flr]
    exact bit_cleared _ (f := sqReset) (o := fun q => ro pgCMDQ (0x104 + 16 * q)) sqReset_regs _ (.inl hm)
  · unfold cqCtrl
    have hs : steady? (ro pgCMDQ (0x504 + 16 * sqCq s q.val)) = true := by
      generalize sqCq s q.val = c at hc
      unfold steady? ro pgCMDQ pgBELL pgCOMMIT pgSYS
      simp only [Bool.and_eq_true, Bool.or_eq_true, bne_iff_ne, decide_eq_true_eq]
      omega
    rw [getReg_flr_queue s hs (by unfold ro pgCMDQ pgHOST; omega)]
    refine bit_cleared _ (f := cqReset) (o := fun q => ro pgCMDQ (0x504 + 16 * q)) cqReset_regs _ (.inl ?_)
    exact List.mem_eraseDups.mpr (List.mem_map_of_mem hm)

theorem sqs_flr (fn : Nat) : (flr s fn).cmdq.sqs = ((flrSqs s fn).foldl sqReset (flrDropped s fn)).cmdq.sqs := by
  have hb : ∀ u : State, (bumpReg (flrHost (setJcpVer u fn 0x10) fn) (ro pgHOST 0x54) (8 * fn) 8).cmdq.sqs = u.cmdq.sqs := fun _ => rfl
  rw [flr_eq, post_cmdq, hb]
  exact foldl_part ((flrSqs s fn).foldl sqReset (flrDropped s fn)) (π := fun u : State => u.cmdq.sqs) (f := cqReset) (fun _ _ => rfl) _

theorem flr_others (fn : Nat) (q : QId) (hq : sqFn s q.val ≠ fn) : sqCtrl (flr s fn) q.val = sqCtrl s q.val ∧ sq (flr s fn) q.val = sq s q.val := by
  obtain ⟨hr, hs⟩ := flrDropped_regs s fn
  have hm : ∀ j ∈ flrSqs s fn, j ≠ q.val := fun j hj e => hq (e ▸ ((mem_flrSqs ..).mp hj).2.1)
  constructor
  · refine (sqCtrl_flr ..).trans ((getReg_cleared _ (f := sqReset) (o := fun q => ro pgCMDQ (0x104 + 16 * q)) sqReset_regs _
      fun j hj => ?_).trans (getReg_of_regs hr _))
    have h := hm j hj
    unfold ro
    omega
  · have h : ∀ (l : List Nat) (u : State), (∀ j ∈ l, j ≠ q.val) → sq (l.foldl sqReset u) q.val = sq u q.val := by
      intro l
      induction l with
      | nil => exact fun u _ => rfl
      | cons j l ih =>
        intro u hl
        rw [List.foldl_cons, ih _ fun k hk => hl k (List.mem_cons_of_mem _ hk)]
        have hs : (sqReset u j).cmdq.sqs = tabSet (fun _ => {}) u.cmdq.sqs j {} := rfl
        unfold sq
        rw [hs]
        exact tabGet_tabSet_other _ _ _ _ _ (hl j List.mem_cons_self).symm
    have e : sq (flr s fn) q.val = sq ((flrSqs s fn).foldl sqReset (flrDropped s fn)) q.val := by unfold sq; rw [sqs_flr]
    rw [e, h _ _ hm]
    unfold sq
    rw [hs]

theorem flr_cmdq (fn : Nat) : (∀ c ∈ (flr s fn).cmdq.cmds, c.fn ≠ fn) ∧ (∀ c ∈ (flr s fn).cmdq.fetched, c.fn ≠ fn) := by
  have h : ∀ {β : Type} (π : State → β), (∀ u q x, π (setSq u q x) = π u) → (∀ u q x, π (setCq u q x) = π u) →
      (∀ u v, π { u with regs := v } = π u) → π (((flrSqs s fn).map (sqCq s)).eraseDups.foldl cqReset
        ((flrSqs s fn).foldl sqReset (flrDropped s fn))) = π (flrDropped s fn) := fun π h1 h2 h3 =>
    (foldl_part _ (π := π) (fun u q => (h2 (putReg u _ 0 1 0) q {}).trans (h3 u _)) _).trans
      (foldl_part _ (π := π) (fun u q => (h1 (putReg u _ 0 1 0) q {}).trans (h3 u _)) _)
  obtain ⟨hc, hf⟩ := flrDropped_cmds s fn
  have e1 : (flr s fn).cmdq.cmds = (flrDropped s fn).cmdq.cmds := by
    rw [flr_eq, post_cmdq]
    exact h (fun u => u.cmdq.cmds) (fun _ _ _ => rfl) (fun _ _ _ => rfl) (fun _ _ => rfl)
  have e2 : (flr s fn).cmdq.fetched = (flrDropped s fn).cmdq.fetched := by
    rw [flr_eq, post_cmdq]
    exact h (fun u => u.cmdq.fetched) (fun _ _ _ => rfl) (fun _ _ _ => rfl) (fun _ _ => rfl)
  rw [e1, e2]
  exact ⟨hc, hf⟩

/-- A part that neither commands, queues, registers nor the host hold stands through the reset of a function. -/
theorem flr_leaves (fn : Nat) : (flr s fn).chans = s.chans ∧ (flr s fn).slots = s.slots := by
  have hc : ∀ (u : State) t, (dropTag u t).chans = u.chans := fun _ _ => rfl
  have hs : ∀ (u : State) t, (dropTag u t).slots = u.slots := fun _ _ => rfl
  exact ⟨flr_part s (π := State.chans) hc (fun _ _ => rfl) (fun _ _ => rfl) (fun _ _ _ _ _ => rfl) (fun _ _ => post_chans ..) fn,
    flr_part s (π := State.slots) hs (fun _ _ => rfl) (fun _ _ => rfl) (fun _ _ _ _ _ => rfl) (fun _ _ => post_slots ..) fn⟩

/-- The host but for what a message of its own sends or leaves pending. -/
def HostIf.unsent (h : HostIf) : HostIf := { h with msixSent := [], msixPend := [] }

theorem post_host {page : Nat} (hp : isFeedPage page = false) (src : Nat) (d : Word) (sub : Nat) :
    (post s page src d sub).host.unsent = s.host.unsent :=
  postAs_keepsPart s (π := fun u : State => u.host.unsent) (fun _ _ => rfl) (fun _ _ => rfl) (fun _ _ => rfl) (fun _ _ => rfl)
    (fun _ _ _ => rfl) hp ..

theorem flr_host (fn : Nat) : (flr s fn).host.unsent = (flrHost s fn).host.unsent := by
  have h : ∀ (u : State), (flrHost (setJcpVer (((flrSqs s fn).map (sqCq s)).eraseDups.foldl cqReset
      ((flrSqs s fn).foldl sqReset u)) fn 0x10) fn).host = (flrHost u fn).host := fun u => by
    have e : (((flrSqs s fn).map (sqCq s)).eraseDups.foldl cqReset ((flrSqs s fn).foldl sqReset u)).host = u.host :=
      (foldl_part _ (π := State.host) (f := cqReset) (fun _ _ => rfl) _).trans
        (foldl_part u (π := State.host) (f := sqReset) (fun _ _ => rfl) _)
    unfold flrHost
    dsimp only
    rw [show (setJcpVer _ fn 0x10).host = _ from e]
  have hd : (flrDropped s fn).host = s.host := foldl_part s (π := State.host) dropTag_host _
  have hf : (flrHost (flrDropped s fn) fn).host = (flrHost s fn).host := by
    unfold flrHost
    dsimp only
    rw [hd]
  rw [flr_eq, post_host _ (by decide), ← hf, ← h]
  rfl

theorem jcpVer_flr (fn : Fn) : jcpVer (flr s (fnNum fn)) (fnNum fn) = 0x10 := by
  have h : ∀ u : State, jcpVer (setJcpVer u (fnNum fn) 0x10) (fnNum fn) = 0x10 := fun u => by cases fn <;> rfl
  unfold jcpVer
  rw [flr_eq, post_cmdq]
  exact h _

/-- The reset of a function leaves the version of another. -/
theorem jcpVer_flr_other {fn g : Fn} (hg : g ≠ fn) : jcpVer (flr s (fnNum fn)) (fnNum g) = jcpVer s (fnNum g) := by
  have h : ∀ u : State, jcpVer (setJcpVer u (fnNum fn) 0x10) (fnNum g) = jcpVer u (fnNum g) := fun u => by
    cases fn <;> cases g <;> simp_all [jcpVer, setJcpVer, fnNum]
  have hv : ∀ u : State, u.cmdq.ver = s.cmdq.ver → jcpVer u (fnNum g) = jcpVer s (fnNum g) := fun u hu => by
    unfold jcpVer
    rw [hu]
  have e : (((flrSqs s (fnNum fn)).map (sqCq s)).eraseDups.foldl cqReset
      ((flrSqs s (fnNum fn)).foldl sqReset (flrDropped s (fnNum fn)))).cmdq.ver = s.cmdq.ver :=
    (foldl_part _ (π := fun u : State => u.cmdq.ver) (f := cqReset) (fun _ _ => rfl) _).trans
      ((foldl_part _ (π := fun u : State => u.cmdq.ver) (f := sqReset) (fun _ _ => rfl) _).trans
        (foldl_part s (π := fun u : State => u.cmdq.ver) (f := dropTag) (fun _ _ => rfl) _))
  refine Eq.trans ?_ ((h _).trans (hv _ e))
  rw [flr_eq]
  unfold jcpVer
  rw [post_cmdq]
  rfl

theorem flr_msix (fn : Fn) : (flr s (fnNum fn)).host.msixEn.getLsbD (fnNum fn) = false ∧
    ∀ v : Fin 32, msixOpen (flr s (fnNum fn)) (fnNum fn) v.val = false := by
  have h := flr_host s (fnNum fn)
  have he : (flr s (fnNum fn)).host.msixEn = s.host.msixEn &&& ~~~ (BitVec.ofNat 3 (2 ^ fnNum fn)) :=
    (congrArg (fun h : HostIf => h.msixEn) h).trans rfl
  have ht : (flr s (fnNum fn)).host.msixTab = s.host.msixTab.filter (fun p => p.1 / 128 != fnNum fn) :=
    (congrArg (fun h : HostIf => h.msixTab) h).trans rfl
  refine ⟨?_, fun v => ?_⟩
  · rw [he]
    cases fn <;> simp [fnNum]
  · unfold msixOpen msixWord
    rw [if_pos rfl, ht, tabGet_filter_out _ _ (fun k => k / 128 != fnNum fn) _ (by simp; omega)]
    decide

theorem flr_yields (fn : Fn) (hc : configUp s = true) : Yields (.flr fn) s fun t =>
    (∀ q : QId, sqFn s q.val = fnNum fn → bit (sqCtrl s q.val) 0 = true →
      bit (sqCtrl t q.val) 0 = false ∧ bit (cqCtrl t (sqCq s q.val)) 0 = false) ∧
    (∀ q : QId, sqFn s q.val ≠ fnNum fn → sqCtrl t q.val = sqCtrl s q.val ∧ sq t q.val = sq s q.val) ∧
    (∀ c ∈ t.cmdq.cmds, c.fn ≠ fnNum fn) ∧ (∀ c ∈ t.cmdq.fetched, c.fn ≠ fnNum fn) ∧ jcpVer t (fnNum fn) = 0x10 ∧
    t.host.msixEn.getLsbD (fnNum fn) = false ∧ (∀ v : Fin 32, msixOpen t (fnNum fn) v.val = false) ∧
    t.chans = s.chans ∧ t.slots = s.slots := by
  obtain ⟨h1, h2⟩ := flr_cmdq s (fnNum fn)
  obtain ⟨h3, h4⟩ := flr_msix s fn
  obtain ⟨h5, h6⟩ := flr_leaves s (fnNum fn)
  exact ⟨_, congrArg Host.Outcome.next (if_pos hc), fun q hq hb => flr_disables s _ q hq hb, fun q hq => flr_others s _ q hq, h1, h2,
    jcpVer_flr s fn, h3, h4, h5, h6⟩

/-! ### The link -/

theorem linkDown_leaves : (linkDown s).chans = s.chans ∧ (linkDown s).slots = s.slots ∧ driveOn (linkDown s) = driveOn s ∧
    (linkDown s).host.linkUp = false := by
  have hp : (linkDown s).power = s.power := by
    unfold linkDown
    split
    · rfl
    · exact (post_power ..).trans rfl
  refine ⟨?_, ?_, by unfold driveOn domOn; rw [hp], ?_⟩
  all_goals
    unfold linkDown
    split
  · rfl
  · exact (post_chans ..).trans rfl
  · rfl
  · exact (post_slots ..).trans rfl
  · next h => simpa using h
  · exact (post_linkUp _ rfl ..).trans rfl

theorem drst_linkUp (last : Nat) (h : driveOn s = true) : (drstFx s last).host.linkUp = false := by
  unfold drstFx
  rw [if_neg (by simp [h])]
  dsimp only
  exact (post_linkUp _ rfl ..).trans rfl

theorem perstAssert_yields (h : driveOn s = true) : Yields .perstAssert s fun t =>
    t.host.linkUp = false ∧ t.boot.stage = 2 ∧ regFld t (ro pgSYS 0x68) 0 4 = 1 := by
  obtain ⟨-, -, hd, -⟩ := linkDown_leaves s
  rw [h] at hd
  obtain ⟨h1, -, h3⟩ := drst_parts (linkDown s) 1 hd (by decide)
  exact ⟨_, congrArg Host.Outcome.next (if_pos h), drst_linkUp _ 1 hd, h1, h3⟩

theorem linkReset_cmdq : (linkReset s).cmdq = (flr (flr (flr (linkDown s) (fnNum .pf0)) (fnNum .pf1)) (fnNum .pf2)).cmdq := by
  have h : ∀ u : State, ({ u with host := { u.host with aer := [] } } : State).cmdq = u.cmdq := fun _ => rfl
  have hf : ∀ u : State, flrAll u = flr (flr (flr u (fnNum .pf0)) (fnNum .pf1)) (fnNum .pf2) := fun _ => rfl
  unfold linkReset
  rw [hf]

theorem jcpVer_linkReset (n : Nat) :
    jcpVer (linkReset s) n = jcpVer (flr (flr (flr (linkDown s) (fnNum .pf0)) (fnNum .pf1)) (fnNum .pf2)) n := by
  unfold jcpVer
  rw [linkReset_cmdq]

theorem linkReset_leaves : (linkReset s).chans = (linkDown s).chans ∧ (linkReset s).slots = (linkDown s).slots ∧
    (linkReset s).host.aer = [] := by
  have h : ∀ u : State, ({ u with host := { u.host with aer := [] } } : State).chans = u.chans ∧
      ({ u with host := { u.host with aer := [] } } : State).slots = u.slots ∧
      ({ u with host := { u.host with aer := [] } } : State).host.aer = [] := fun _ => ⟨rfl, rfl, rfl⟩
  obtain ⟨h1, h2, h3⟩ := h (flrAll (linkDown s))
  exact ⟨h1.trans (foldl_part _ (π := State.chans) (fun u fn => (flr_leaves u fn).1) [0, 1, 2]),
    h2.trans (foldl_part _ (π := State.slots) (fun u fn => (flr_leaves u fn).2) [0, 1, 2]), h3⟩

theorem hotReset_yields (h : driveOn s = true) : Yields .hotReset s fun t =>
    t.host.linkUp = false ∧ (∀ fn, jcpVer t (fnNum fn) = 0x10) ∧ t.host.aer = [] ∧ t.chans = s.chans ∧ t.slots = s.slots := by
  obtain ⟨hc, hs, -, -⟩ := linkDown_leaves s
  have hj : ∀ fn, jcpVer (linkReset s) (fnNum fn) = 0x10 := fun fn => by
    rw [jcpVer_linkReset]
    cases fn with
    | pf2 => exact jcpVer_flr ..
    | pf1 => exact (jcpVer_flr_other _ (by decide)).trans (jcpVer_flr ..)
    | pf0 => exact (jcpVer_flr_other _ (by decide)).trans ((jcpVer_flr_other _ (by decide)).trans (jcpVer_flr ..))
  obtain ⟨h1, h2, h3⟩ := linkReset_leaves s
  exact ⟨_, congrArg Host.Outcome.next (if_pos h), linkReset_linkUp s, hj, h3, h1.trans hc, h2.trans hs⟩

theorem pcieLinkUp_yields {sp w : BitVec 6} (hd : driveOn s = true) (hr : s.power.refOk = true) (hl : s.host.linkUp = false)
    (hs : 2 ≤ s.boot.stage.val) (ht : s.boot.stage2At + 24_000_000 ≤ s.now) (hc : linkCan sp.toNat w.toNat = true)
    (hm : sp.toNat ≤ regFld s (ro pgHOST 0x44) 0 4) : Yields (.pcieLinkUp sp w) s fun t =>
      t.host.linkUp = true ∧ t.host.width = w ∧ t.host.speed = sp.setWidth 4 :=
  ⟨_, congrArg Host.Outcome.next (if_pos (by simp [hd, hr, hl, hs, ht, hc, hm])), rfl, rfl, rfl⟩

theorem hsRetrain_yields (fn : Fn) (hw : mayWrite s fn pgHOST 0x44 0 = true) (hl : s.host.linkUp = true)
    (hm : regFld s (ro pgHOST 0x44) 0 4 < s.host.speed.toNat) : Yields (.hsRetrain fn) s fun t =>
      t.host.speed.toNat = regFld s (ro pgHOST 0x44) 0 4 ∧ t.host.linkUp = true := by
  refine ⟨_, congrArg Host.Outcome.next (wr_of_mayWrite s fn _ _ _ _ hw), ?_⟩
  unfold pcieRetrain
  rw [if_pos ⟨hl, hm⟩]
  refine ⟨?_, hl⟩
  change (BitVec.ofNat 4 _).toNat = _
  have hf : regFld s (ro pgHOST 0x44) 0 4 < 2 ^ 4 := fld_lt _ 0 4
  rw [BitVec.toNat_ofNat, Nat.mod_eq_of_lt hf]

/-! ### Errors -/

theorem aer_aerNote (corr : Bool) (st : Word) (fn : Fn) :
    tabGet (fun _ => (0 : Word)) (aerNote s corr st).host.aer (2 * fnNum fn + b2n corr) =
      tabGet (fun _ => (0 : Word)) s.host.aer (2 * fnNum fn + b2n corr) ||| st := by
  unfold aerNote
  simp only [List.foldl_cons, List.foldl_nil]
  cases fn <;> simp [fnNum, tabGet_tabSet_self, tabGet_tabSet_other]

theorem pcieError_yields (corr : Bool) (st : Word) (h : driveOn s = true) : Yields (.pcieError corr st) s fun t =>
    regFld t (ro pgHOST 0x48) (if corr then 0 else 12) 12 = (regFld s (ro pgHOST 0x48) (if corr then 0 else 12) 12 + 1) % 4096 ∧
    ∀ fn : Fn, tabGet (fun _ => (0 : Word)) t.host.aer (2 * fnNum fn + b2n corr) =
      tabGet (fun _ => (0 : Word)) s.host.aer (2 * fnNum fn + b2n corr) ||| st := by
  refine ⟨_, congrArg Host.Outcome.next (if_pos h), ?_, fun fn => ?_⟩
  · rw [regFld_of_getReg (getReg_post_steady _ (by decide) (by decide) ..),
      regFld_bumpReg_self _ _ _ 12 1 (by cases corr <;> decide)]
    rfl
  · have h1 : ∀ u src, (post u pgHOST src st).host.unsent.aer = u.host.unsent.aer := fun u src =>
      congrArg HostIf.aer (post_host u (page := pgHOST) (by decide) src st 0)
    rw [show (post _ pgHOST _ st).host.aer = _ from h1 _ _]
    exact aer_aerNote s corr st fn

/-! ### MSI-X and the power state -/

theorem msixRelease_still (fn vec : Nat) : (msixRelease s fn vec).host.unsent = s.host.unsent ∧ (msixRelease s fn vec).cmdq = s.cmdq ∧
    (msixRelease s fn vec).chans = s.chans := by
  unfold msixRelease
  dsimp only
  split
  · exact ⟨sendMsi_keepsPart _ (π := fun u : State => u.host.unsent) (fun _ _ => rfl) (fun _ _ => rfl) fn vec,
      sendMsi_part _ (π := State.cmdq) (fun _ _ => rfl) fn vec, sendMsi_part _ (π := State.chans) (fun _ _ => rfl) fn vec⟩
  · exact ⟨rfl, rfl, rfl⟩

theorem d3hotExit_yields (fn : Fn) (hc : configUp s = true) (hd : s.host.d3.getLsbD (fnNum fn) = true) : Yields (.d3hotExit fn) s fun t =>
    t.host.d3.getLsbD (fnNum fn) = false ∧ t.cmdq = s.cmdq ∧ t.chans = s.chans := by
  have hf : ∀ (l : List Nat) (u : State),
      (l.foldl (fun s v => msixRelease s (fnNum fn) v) u).host.unsent.d3 = u.host.unsent.d3 ∧
      (l.foldl (fun s v => msixRelease s (fnNum fn) v) u).cmdq = u.cmdq ∧
      (l.foldl (fun s v => msixRelease s (fnNum fn) v) u).chans = u.chans := fun l u =>
    ⟨congrArg HostIf.d3 (foldl_part u (π := fun u : State => u.host.unsent) (fun u v => (msixRelease_still u (fnNum fn) v).1) l),
      foldl_part u (π := State.cmdq) (fun u v => (msixRelease_still u (fnNum fn) v).2.1) l,
      foldl_part u (π := State.chans) (fun u v => (msixRelease_still u (fnNum fn) v).2.2) l⟩
  have e : execD3hotExit fn s = .next ((List.range 32).foldl (fun s v => msixRelease s (fnNum fn) v)
      { s with host := { s.host with d3 := s.host.d3 &&& ~~~ (BitVec.ofNat 3 (2 ^ fnNum fn)) } }) := by
    unfold execD3hotExit
    rw [if_pos (by simp [hc, hd])]
  obtain ⟨h1, h2, h3⟩ := hf (List.range 32) { s with host := { s.host with d3 := s.host.d3 &&& ~~~ (BitVec.ofNat 3 (2 ^ fnNum fn)) } }
  generalize (List.range 32).foldl (fun s v => msixRelease s (fnNum fn) v) _ = t at h1 h2 h3 e
  refine ⟨t, e, ?_, h2, h3⟩
  refine (congrArg (fun d : BitVec 3 => d.getLsbD (fnNum fn)) h1).trans ?_
  cases fn <;> simp [fnNum, HostIf.unsent]

/-- The machine whose function has the vector unmasked, MSI-X on and the vector's pending bit taken. -/
def unmasked (fn : Fn) (vec : Nat) (v : Word) : State :=
  { s with host := { s.host with
    msixTab := tabSet (fun k => if k % 4 = 3 then (1 : Word) else 0) s.host.msixTab (fnNum fn * 128 + vec * 4 + 3) (v &&& 1),
    msixEn := s.host.msixEn ||| BitVec.ofNat 3 (2 ^ fnNum fn),
    msixPend := tabSet (fun _ => false) s.host.msixPend (fnNum fn * 32 + vec) false } }

theorem msixWord_unmasked (fn : Fn) (vec : Nat) (v : Word) :
    (∀ i < 3, msixWord (unmasked s fn vec v) (fnNum fn) vec i = msixWord s (fnNum fn) vec i) ∧
    msixWord (unmasked s fn vec v) (fnNum fn) vec 3 = v &&& 1 := by
  have hd : ∀ (d : Nat → Word) k, k ≠ fnNum fn * 128 + vec * 4 + 3 →
      tabGet d (unmasked s fn vec v).host.msixTab k = tabGet d s.host.msixTab k := fun d k hk => by
    unfold unmasked
    dsimp only
    unfold tabSet
    split
    · exact tabGet_tabDel_other d _ _ _ hk
    · exact tabGet_tabIns_other d _ _ _ _ hk
  refine ⟨fun i hi => ?_, ?_⟩
  · unfold msixWord
    rw [if_neg (by omega), if_neg (by omega), hd _ _ (by omega)]
  · unfold msixWord
    rw [if_pos rfl]
    unfold unmasked
    dsimp only
    unfold tabSet
    split
    · next h =>
      rw [tabGet_tabDel_self, h]
      exact (if_pos (by omega)).symm
    · exact tabGet_tabIns_self ..

theorem exec_msixUnmask_of (fn : Fn) (vec : Fin 32) (v : Word) (hr : hostReach s fn = true) (hv : bit v 0 = false)
    (hp : tabGet (fun _ => false) s.host.msixPend (fnNum fn * 32 + vec.val) = true) :
    execMsixUnmask fn ⟨BitVec.ofNat 14 (16 * vec.val + 12), v⟩ s = .next (sendMsi (unmasked s fn vec.val v) (fnNum fn) vec.val) := by
  have ho : (BitVec.ofNat 14 (16 * vec.val + 12)).toNat = 16 * vec.val + 12 := by
    rw [BitVec.toNat_ofNat]
    omega
  unfold execMsixUnmask
  dsimp only
  rw [ho, if_neg (by simp [hr]; omega), show (16 * vec.val + 12) / 4 % 4 = 3 by omega,
    show (16 * vec.val + 12) / 16 = vec.val by omega, if_pos (by simp [hv])]
  unfold msixRelease
  dsimp only
  rw [if_pos hp]
  rfl

/-- The write that unmasks a vector sends its pending message as the entry describes it. -/
theorem msixUnmask_yields (fn : Fn) (vec : Fin 32) (v : Word) (hr : hostReach s fn = true) (hv : bit v 0 = false)
    (hp : tabGet (fun _ => false) s.host.msixPend (fnNum fn * 32 + vec.val) = true) :
    Yields (.msixUnmask fn ⟨BitVec.ofNat 14 (16 * vec.val + 12), v⟩) s fun t =>
      t.host.msixSent = s.host.msixSent ++ [msixMsg s (fnNum fn) vec.val] ∧ msixOpen t (fnNum fn) vec.val = true ∧
      tabGet (fun _ => false) t.host.msixPend (fnNum fn * 32 + vec.val) = false := by
  obtain ⟨hw, h3⟩ := msixWord_unmasked s fn vec.val v
  have hpd : tabGet (fun _ => false) (unmasked s fn vec.val v).host.msixPend (fnNum fn * 32 + vec.val) = false := by
    have he : (unmasked s fn vec.val v).host.msixPend = tabSet (fun _ => false) s.host.msixPend (fnNum fn * 32 + vec.val) false := rfl
    rw [he]
    exact tabGet_tabSet_self ..
  have hd3 : (unmasked s fn vec.val v).host.d3.getLsbD (fnNum fn) = false := by
    simp only [hostReach, Bool.and_eq_true, Bool.not_eq_true'] at hr
    exact hr.2
  have hen : (unmasked s fn vec.val v).host.msixEn.getLsbD (fnNum fn) = true := by
    refine (getLsbD_or_fnBit s.host.msixEn fn fn).trans ?_
    simp
  have hop : msixOpen (unmasked s fn vec.val v) (fnNum fn) vec.val = true := by
    unfold msixOpen
    rw [h3]
    unfold bit at hv ⊢
    rw [BitVec.getLsbD_and, hv]
    rfl
  have hm : msixMsg (unmasked s fn vec.val v) (fnNum fn) vec.val = msixMsg s (fnNum fn) vec.val := by
    unfold msixMsg
    rw [hw 0 (by decide), hw 1 (by decide), hw 2 (by decide)]
  have hs : sendMsi (unmasked s fn vec.val v) (fnNum fn) vec.val = { unmasked s fn vec.val v with
      host := { (unmasked s fn vec.val v).host with
        msixSent := s.host.msixSent ++ [msixMsg s (fnNum fn) vec.val] } } := by
    unfold sendMsi
    dsimp only
    rw [if_pos (by simp [hen, hop, hd3]), hm]
    rfl
  refine ⟨_, (exec_msixUnmask_of s fn vec v hr hv hp).trans (congrArg Host.Outcome.next hs), rfl, hop, hpd⟩

/-- Settles O38: each reset by the parts of a function-level reset, each event by its own equation. -/
theorem pcieEvents : Obligations.PcieEvents := by
  unfold Obligations.PcieEvents
  intro s
  exact ⟨flr_yields s, perstAssert_yields s, hotReset_yields s,
    fun sp w hd hr hl hs ht hc hm => pcieLinkUp_yields s hd hr hl hs ht hc hm, hsRetrain_yields s, pcieError_yields s,
    fun fn vec v hr hv hp => msixUnmask_yields s fn vec v hr hv hp, d3hotExit_yields s⟩

end Sys2Proof.Machine
end

