-- ==== Sys2Proof/Proofs/Accumulators.lean ====
section
/-! O49. What a sample, a parity failure and the ACC page do to an accumulator (R292 to R301, R304, R325). -/

namespace Sys2Proof.Machine

open Sys2Proof.Safety (Yields mayWrite SameOutputs SameBore BoreSound)

variable (s : State)

/-! ### The words of an accumulator -/

theorem accWord_setBores {i j k : Nat} (hk : k < 4) (hj : j ≠ i) (ws : List Word) (hl : ws.length = 4) :
    accWord (setBores s (accAddr i) ws) j k = accWord s j k := by
  unfold accWord
  refine boreWord_of_bytes fun b hb => boreByte_setBores_other s _ _ ws ?_
  rw [hl]
  unfold accAddr
  omega

section
variable (i : Nat) (w0 w1 w2 w3 : Word)

/-- What the four words read after they are set. -/
theorem accWord_accSet : accWord (accSet s i w0 w1 w2 w3) i 0 = w0 ∧ accWord (accSet s i w0 w1 w2 w3) i 1 = w1 ∧
    accWord (accSet s i w0 w1 w2 w3) i 2 = w2 ∧ accWord (accSet s i w0 w1 w2 w3) i 3 = w3 := by
  unfold accWord accSet
  simp only [setBores_cons, setBores_nil]
  generalize accAddr i = a
  refine ⟨?_, ?_, ?_, ?_⟩
  · iterate 3 rw [boreWord_setBore_other _ _ _ _ (.inl (by omega))]
    exact boreWord_setBore_self ..
  · iterate 2 rw [boreWord_setBore_other _ _ _ _ (.inl (by omega))]
    exact boreWord_setBore_self ..
  · rw [boreWord_setBore_other _ _ _ _ (.inl (by omega)), show a + 4 * 2 = a + 4 + 4 by omega]
    exact boreWord_setBore_self ..
  · rw [show a + 4 * 3 = a + 4 + 4 + 4 by omega]
    exact boreWord_setBore_self ..

theorem accWord_accSet_other {j k : Nat} (hk : k < 4) (hj : j ≠ i) : accWord (accSet s i w0 w1 w2 w3) j k = accWord s j k :=
  accWord_setBores s hk hj _ rfl

theorem boreByte_accSet_other {a : Nat} (h : a < accAddr i ∨ accAddr i + 16 ≤ a) :
    boreByte (accSet s i w0 w1 w2 w3) a = boreByte s a :=
  boreByte_setBores_other s _ _ _ h

end

theorem accWord_of_mem {s t : State} (h : t.bore.mem = s.bore.mem) (i k : Nat) : accWord t i k = accWord s i k := by
  unfold accWord boreWord
  rw [h]

/-- With no CHECK waiting and no word stuck, a write leaves every word sound. -/
theorem boreSound_setBore (h : BoreSound s) (a : Nat) (w : Word) : BoreSound (setBore s a w) := by
  obtain ⟨hb, hs, hc⟩ := h
  have e : setBore s a w = { s with bore := s.bore.put a w false } := by
    unfold setBore
    rw [hc a]
  rw [e]
  refine ⟨?_, hs, hc⟩
  change s.bore.badPar.erase a ++ (if false || s.bore.stuck.contains a then [a] else []) = []
  rw [hb, hs]
  rfl

theorem boreSound_setBores (h : BoreSound s) (a : Nat) (ws : List Word) : BoreSound (setBores s a ws) := by
  induction ws generalizing s a with
  | nil => exact h
  | cons w ws ih =>
    rw [setBores_cons]
    exact ih _ (boreSound_setBore s h a w) _

/-! ### What an update feeds -/

theorem loopMeasure_part {β : Type} {π : State → β} (hl : ∀ s v, π { s with loops := v } = π s) (hb : s.bore.badPar = []) (i : Nat) :
    π (loopMeasure s i) = π s := by
  have h : ∀ (l : List Nat) (u : State), u.bore.badPar = [] → π (l.foldl (fun s ch =>
      let l := loopCh s ch
      if !l.mapEn || !(l.monA == i % 64 || (!l.isAbs && l.monB == i % 64)) then s else
      let s := loopCheck s ch
      let a := loopA s ch
      let b := loopB s ch
      let q := if l.isAbs || a + b != 0 then BitVec.ofNat 24 (loopQ l.isAbs a b) else l.q
      let ok := loopData s ch (accValid s) && loopData s ch (fun j => !accOvr s j) && !loopOpen s ch && loopLight s ch
      setLoopCh s ch { l with q := q, fresh := ok }) u) = π u := by
    intro l
    induction l with
    | nil => exact fun u _ => rfl
    | cons ch l ih =>
      intro u hu
      rw [List.foldl_cons]
      dsimp only
      split
      · exact ih u hu
      · rw [loopCheck_clean u hu]
        refine (ih _ ?_).trans (hl u _)
        exact hu
  exact h _ s hb

/-- Channel power, V_TILE and the loops' measures move no output and no byte of the Bore. -/
theorem accFeeds_leaves (hb : s.bore.badPar = []) (i : Nat) (v : Int) : (accFeeds s i v).bore = s.bore ∧ SameOutputs s (accFeeds s i v) := by
  unfold accFeeds
  dsimp only
  split
  · refine ⟨rfl, fun ch => ?_⟩
    unfold powerUpdate
    dsimp only [Safety.output]
    rw [chan_setChan]
    split
    · next e => rw [e]
    · rfl
  · split
    · exact ⟨rfl, fun _ => rfl⟩
    · split
      · exact ⟨loopMeasure_part s (π := State.bore) (fun _ _ => rfl) hb i,
          sameOutputs_of_chans (loopMeasure_part s (π := State.chans) (fun _ _ => rfl) hb i)⟩
      · exact ⟨rfl, fun _ => rfl⟩

/-! ### A sample -/

/-- The step that a sample makes of accumulator `i` (R295, R296). -/
def sampleStep (s : State) (i : Nat) (x : Int) : Int × Nat × Option Int :=
  accStep (accCfg s i) (!bit (accWord s i 3) 16) (tabGet (fun _ => (0 : Int)) s.accs.sum i) (fld (accWord s i 3) 8 8) x

/-- What a sample that ends no block leaves: the first word, the count and the sum. -/
structure Gathers (s t : State) (i : Nat) (x : Int) : Prop where
  value : accWord t i 0 = accWord s i 0
  fill : fld (accWord t i 3) 8 8 = (sampleStep s i x).2.1 % 256
  sum : tabGet (fun _ => (0 : Int)) t.accs.sum i = (sampleStep s i x).1
  chans : t.chans = s.chans

/-- What an update leaves: the new VALUE, SEQ one higher, VALID and the count. -/
structure Updates (s t : State) (i : Nat) (x v : Int) : Prop where
  value : fld (accWord t i 0) 0 24 = unsigned 24 v
  seq : accSeq t i = (accSeq s i + 1) % 256
  valid : accValid t i = true
  fill : fld (accWord t i 3) 8 8 = (sampleStep s i x).2.1 % 256
  outputs : SameOutputs s t

section
variable {s} {i : Nat} {x : Int}

theorem unsigned_lt (n : Nat) (v : Int) : unsigned n v < 2 ^ n := by
  unfold unsigned
  have h1 : (0 : Int) < 2 ^ n := by positivity
  have h2 := Int.emod_lt_of_pos v h1
  have h3 := Int.emod_nonneg v h1.ne'
  zify
  rw [Int.toNat_of_nonneg h3]
  exact_mod_cast h2

section
variable {a : Accs} {w0 m1 m2 w3 : Word}

theorem accSet_accs_byte {b : Nat} (h : b < accAddr i ∨ accAddr i + 16 ≤ b) :
    boreByte (accSet { s with accs := a } i w0 m1 m2 w3) b = boreByte s b :=
  boreByte_accSet_other { s with accs := a } i w0 m1 m2 w3 h

theorem accSet_accs (u : State) : (accSet u i w0 m1 m2 w3).accs = u.accs :=
  setBores_part u (π := State.accs) (fun _ _ => rfl) (fun _ _ => rfl) (fun _ _ => rfl) _ _

theorem accSet_chans (u : State) : (accSet u i w0 m1 m2 w3).chans = u.chans :=
  setBores_part u (π := State.chans) (fun _ _ => rfl) (fun _ _ => rfl) (fun _ _ => rfl) _ _

theorem gathers_of (hs : tabGet (fun _ => (0 : Int)) a.sum i = (sampleStep s i x).1)
    (hw : fld w3 8 8 = (sampleStep s i x).2.1 % 256) :
    Gathers s (accSet { s with accs := a } i (accWord s i 0) m1 m2 w3) i x := by
  obtain ⟨h0, -, -, h3⟩ := accWord_accSet { s with accs := a } i (accWord s i 0) m1 m2 w3
  refine ⟨h0, by rw [h3]; exact hw, ?_, accSet_chans _⟩
  rw [accSet_accs]
  exact hs

/-- The first and last word of an update, and its over-range message, make what an update leaves. -/
theorem updates_of (hb : BoreSound s) {v : Int} (post? : Bool)
    (hw : fld w3 8 8 = (sampleStep s i x).2.1 % 256) (hv : bit w3 16 = true) :
    let u := accSet { s with accs := a } i (put (put (accWord s i 0) 0 24 (unsigned 24 v)) 24 8 (fld (accWord s i 0) 24 8 + 1)) m1 m2 w3
    let t := accFeeds (if post? then post u pgACC 1 (accDetail i) else u) i v
    Updates s t i x v ∧ ∀ b, (b < accAddr i ∨ accAddr i + 16 ≤ b) → boreByte t b = boreByte s b := by
  intro u t
  obtain ⟨h0, -, -, h3⟩ := accWord_accSet { s with accs := a } i
    (put (put (accWord s i 0) 0 24 (unsigned 24 v)) 24 8 (fld (accWord s i 0) 24 8 + 1)) m1 m2 w3
  have hu : (if post? then post u pgACC 1 (accDetail i) else u).bore = u.bore ∧
      (if post? then post u pgACC 1 (accDetail i) else u).chans = s.chans := by
    split
    · exact ⟨post_bore .., (post_chans ..).trans (accSet_chans _)⟩
    · exact ⟨rfl, accSet_chans _⟩
  have hbad : u.bore.badPar = [] := (boreSound_setBores { s with accs := a } hb _ _).1
  obtain ⟨t1, t2⟩ := accFeeds_leaves (if post? then post u pgACC 1 (accDetail i) else u) (by rw [hu.1]; exact hbad) i v
  have ht : t.bore = u.bore := t1.trans hu.1
  have hw' : ∀ k, accWord t i k = accWord u i k := fun k => accWord_of_mem (congrArg Bore.mem ht) i k
  refine ⟨⟨?_, ?_, ?_, ?_, fun ch => (t2 ch).trans (sameOutputs_of_chans hu.2 ch)⟩, fun b hb => ?_⟩
  · rw [hw', show accWord u i 0 = _ from h0, fld_put_below _ _ _ _ _ _ (by decide), fld_put_self _ _ _ _ (by decide)]
    exact Nat.mod_eq_of_lt (unsigned_lt 24 v)
  · unfold accSeq
    rw [hw', show accWord u i 0 = _ from h0, fld_put_self _ _ _ _ (by decide)]
    rfl
  · unfold accValid
    rw [hw', show accWord u i 3 = _ from h3]
    exact hv
  · rw [hw', show accWord u i 3 = _ from h3]
    exact hw
  · exact (boreByte_of_bore ht b).trans (accSet_accs_byte hb)

end

theorem fld_fill (w : Word) (n c b : Nat) : fld (put (put (put w 8 8 n) 18 1 b) 19 5 c) 8 8 = n % 256 := by
  rw [fld_put_below _ _ _ _ _ _ (by decide), fld_put_below _ _ _ _ _ _ (by decide)]
  exact fld_put_self _ 8 8 n (by decide)

/-- A sample of an accumulator that is neither held nor marked either gathers or updates, and outside its words no byte changes. -/
theorem accEnter_cases (hs : BoreSound s) (hh : s.accs.held.contains i = false) (hr : s.accs.restart.contains i = false) (ovr : Bool) :
    (∀ a, (a < accAddr i ∨ accAddr i + 16 ≤ a) → boreByte (accEnter s i x ovr) a = boreByte s a) ∧
    ((sampleStep s i x).2.2 = none → Gathers s (accEnter s i x ovr) i x) ∧
    (∀ v, (sampleStep s i x).2.2 = some v → Updates s (accEnter s i x ovr) i x v) := by
  unfold accEnter
  rw [accCheck_clean s hs.1, if_neg (by rw [hh]; decide)]
  simp only [hr, Bool.false_eq_true, if_false, Bool.false_or]
  rw [show accStep _ _ _ _ _ = sampleStep s i x from rfl]
  have h1 : ∀ l : Tab Int, tabGet (fun _ => (0 : Int)) (tabSet (fun _ => (0 : Int)) l i (sampleStep s i x).1) i = (sampleStep s i x).1 :=
    fun l => tabGet_tabSet_self ..
  have h2 := fld_fill (accWord s i 3) (sampleStep s i x).2.1 (accCfg s i).toNat
  cases hst : (sampleStep s i x).2.2 with
  | none =>
    dsimp only
    exact ⟨fun a ha => accSet_accs_byte ha, fun _ => gathers_of (h1 _) (h2 _), nofun⟩
  | some v =>
    dsimp only
    have hw : ∀ (w : Word) b, fld (put (put w 16 1 1) 17 1 b) 8 8 = fld w 8 8 := fun w b => by
      rw [fld_put_below _ _ _ _ _ _ (by decide), fld_put_below _ _ _ _ _ _ (by decide)]
    have hv : ∀ (w : Word) b, bit (put (put w 16 1 1) 17 1 b) 16 = true := fun w b => by
      have h : fld (put (put w 16 1 1) 17 1 b) 16 1 = 1 :=
        (fld_put_below _ _ _ _ _ _ (by decide)).trans (fld_put_self _ 16 1 1 (by decide))
      rw [fld_one] at h
      exact b2n_inj (b := true) h
    obtain ⟨h, hb⟩ := updates_of hs (v := v) _ ((hw ..).trans (h2 _)) (hv _ _)
    refine ⟨hb, nofun, fun v' e => ?_⟩
    cases e
    exact h

/-- In block mode the sum grows by the sample, and the last of 2^SHIFT samples makes VALUE (R295). -/
theorem sampleStep_block (hm : (accCfg s i).getLsbD 4 = false) : sampleStep s i x =
    let fill := fld (accWord s i 3) 8 8
    let sum := (if fill = 0 then 0 else tabGet (fun _ => (0 : Int)) s.accs.sum i) + x
    let sh := (accCfg s i).toNat % 16
    if fill + 1 = 2 ^ sh then (0, 0, some ((sum + 2 ^ (sh - 1)) / 2 ^ sh)) else (sum, fill + 1, none) := by
  unfold sampleStep accStep
  simp only [hm, Bool.false_eq_true, if_false]

/-- In filter mode the state moves by 1/2^SHIFT of the difference (R296). -/
theorem sampleStep_filter (hm : (accCfg s i).getLsbD 4 = true) (hv : accValid s i = true) : sampleStep s i x =
    let sum := tabGet (fun _ => (0 : Int)) s.accs.sum i
    let st := sum + (x * 256 - sum) / 2 ^ ((accCfg s i).toNat % 16)
    (st, 0, some ((st + 128) / 256)) := by
  have hb : (!bit (accWord s i 3) 16) = false := by
    unfold accValid at hv
    rw [hv]
    rfl
  unfold sampleStep accStep
  simp only [hm, hb, Bool.false_eq_true, if_false, if_true]

end

/-! ### A parity failure -/

/-- The words of accumulator `i`. -/
def accWords (s : State) (i : Nat) : Word × Word × Word × Word := (accWord s i 0, accWord s i 1, accWord s i 2, accWord s i 3)

theorem accWords_accSet (i : Nat) (w0 w1 w2 w3 : Word) : accWords (accSet s i w0 w1 w2 w3) i = (w0, w1, w2, w3) := by
  obtain ⟨h0, h1, h2, h3⟩ := accWord_accSet s i w0 w1 w2 w3
  unfold accWords
  rw [h0, h1, h2, h3]

theorem accWords_of {s t : State} {i j : Nat} (h : ∀ k < 4, accWord t i k = accWord s j k) : accWords t i = accWords s j := by
  unfold accWords
  rw [h 0 (by decide), h 1 (by decide), h 2 (by decide), h 3 (by decide)]

theorem words_of_accWords {t : State} {i : Nat} {w : Word × Word × Word × Word} (h : accWords t i = w) :
    accWord t i 0 = w.1 ∧ accWord t i 1 = w.2.1 ∧ accWord t i 2 = w.2.2.1 ∧ accWord t i 3 = w.2.2.2 := by
  subst h
  exact ⟨rfl, rfl, rfl, rfl⟩

/-- The words after a restart: VALID, SEQ, FILL and the trackers cleared, DISC counting what it is told (R301). -/
def restartWords (disc : Nat) (w : Word × Word × Word × Word) : Word × Word × Word × Word :=
  (put w.1 24 8 0, minClear, maxClear,
    put (put (put (put w.2.2.2 8 8 0) 16 1 0) 18 1 0) 0 8 (min (fld w.2.2.2 0 8 + disc) 255))

theorem restartWords_fields (disc : Nat) (w : Word × Word × Word × Word) : let t := restartWords disc w
    bit t.2.2.2 16 = false ∧ fld t.1 24 8 = 0 ∧ fld t.2.2.2 8 8 = 0 ∧ fld t.2.2.2 0 8 = min (fld w.2.2.2 0 8 + disc) 255 := by
  unfold restartWords
  dsimp only
  refine ⟨?_, fld_put_self _ 24 8 0 (by decide), ?_, ?_⟩
  · refine b2n_inj (b := false) ?_
    rw [← fld_one, fld_put_above _ _ _ _ _ _ (by decide), fld_put_below _ _ _ _ _ _ (by decide)]
    exact fld_put_self _ 16 1 0 (by decide)
  · rw [fld_put_above _ _ _ _ _ _ (by decide), fld_put_below _ _ _ _ _ _ (by decide), fld_put_below _ _ _ _ _ _ (by decide)]
    exact fld_put_self _ 8 8 0 (by decide)
  · refine (fld_put_self _ 0 8 _ (by decide)).trans (Nat.mod_eq_of_lt ?_)
    omega

theorem accWords_accRestart (disc i : Nat) : accWords (accRestart s disc i) i = restartWords disc (accWords s i) :=
  (accWords_accSet _ i _ _ _ _).trans rfl

theorem accParity_leaves (i : Nat) : let t := accParity s i
    accValid t i = false ∧ accSeq t i = 0 ∧ fld (accWord t i 3) 8 8 = 0 ∧ fld (accWord t i 3) 0 8 = min (fld (accWord s i 3) 0 8 + 1) 255 ∧
    regFld t (ro pgACC 0x4C) 0 16 = (regFld s (ro pgACC 0x4C) 0 16 + 1) % 65536 ∧ t.chans = s.chans := by
  intro t
  have hs : steady? (ro pgACC 0x4C) = true := by decide
  have hw : accWords t i = restartWords 1 (accWords s i) :=
    (accWords_of fun k _ => accWord_of_mem (congrArg Bore.mem (post_bore ..)) i k).trans (accWords_accRestart (bumpReg s (ro pgACC 0x4C) 0 16) 1 i)
  obtain ⟨h1, h2, h3, h4⟩ := restartWords_fields 1 (accWords s i)
  rw [← hw] at h1 h2 h3 h4
  refine ⟨h1, h2, h3, h4, ?_, (post_chans ..).trans ((accSet_chans _).trans rfl)⟩
  have hr : getReg t (ro pgACC 0x4C) = getReg (bumpReg s (ro pgACC 0x4C) 0 16) (ro pgACC 0x4C) :=
    (getReg_post_steady _ hs (by decide) ..).trans ((getReg_setBores_steady _ hs ..).trans rfl)
  rw [regFld_of_getReg hr]
  exact regFld_bumpReg_self s (ro pgACC 0x4C) 0 16 1 (by decide)

/-! ### A scope of accumulators -/

theorem accScope_nodup : (accScope s).Nodup := by
  unfold accScope
  dsimp only
  split
  · exact List.nodup_singleton _
  · exact List.nodup_range'
  · exact (List.nodup_range).map fun a b h => by omega
  · exact List.nodup_range

/-- A fold over accumulators whose step changes the one that it names alone. -/
theorem accWords_foldl {f : State → Nat → State} {F : Word × Word × Word × Word → Word × Word × Word × Word}
    (hf : ∀ u i, accWords (f u i) i = F (accWords u i)) (ho : ∀ u i j, j ≠ i → accWords (f u i) j = accWords u j) (l : List Nat)
    (hn : l.Nodup) {i : Nat} (hi : i ∈ l) : accWords (l.foldl f s) i = F (accWords s i) := by
  have hout : ∀ (l : List Nat) (u : State), i ∉ l → accWords (l.foldl f u) i = accWords u i := by
    intro l
    induction l with
    | nil => exact fun _ _ => rfl
    | cons j l ih =>
      intro u h
      rw [List.foldl_cons, ih _ fun hm => h (List.mem_cons_of_mem _ hm)]
      exact ho u j i fun e => h (e ▸ List.mem_cons_self)
  induction l generalizing s with
  | nil => exact absurd hi List.not_mem_nil
  | cons j l ih =>
    obtain ⟨hj, hl⟩ := List.nodup_cons.mp hn
    rw [List.foldl_cons]
    rcases List.mem_cons.mp hi with e | hm
    · subst e
      rw [hout l _ hj, hf]
    · rw [ih _ hl hm, ho s j i fun e => hj (e ▸ hm)]

theorem accWords_accSet_other {i j : Nat} (hj : j ≠ i) (w0 w1 w2 w3 : Word) : accWords (accSet s i w0 w1 w2 w3) j = accWords s j :=
  accWords_of fun _ hk => accWord_accSet_other s i w0 w1 w2 w3 hk hj

section
variable {fn : Fn} (hw : mayWrite s fn pgACC 0x48 1 = true)
include hw

theorem acRestart_yields : Yields (.acRestart fn) s fun t => t.chans = s.chans ∧ ∀ i ∈ accScope s,
    accValid t i = false ∧ accSeq t i = 0 ∧ accWord t i 1 = minClear ∧ accWord t i 2 = maxClear := by
  refine ⟨_, congrArg Host.Outcome.next (wr_of_mayWrite s fn _ _ _ _ hw),
    (accCmd_keeps (may := { bore := true }) rfl Keeps.rfl).chans rfl, fun i hi => ?_⟩
  obtain ⟨u, hu⟩ : ∃ u, accCmd s 1 = (accScope s).foldl (fun s i => accRestart s 0 i) u := by
    unfold accCmd
    simp only
    exact ⟨_, rfl⟩
  have h : accWords (accCmd s 1) i = restartWords 0 (accWords u i) := by
    rw [hu]
    exact accWords_foldl u (F := restartWords 0) (fun u i => accWords_accRestart u 0 i)
      (fun u i j hj => (accWords_accSet_other _ hj _ _ _ _).trans rfl) _ (accScope_nodup s) hi
  obtain ⟨h1, h2, -, -⟩ := restartWords_fields 0 (accWords u i)
  rw [← h] at h1 h2
  obtain ⟨-, w1, w2, -⟩ := words_of_accWords h
  exact ⟨h1, h2, w1, w2⟩

/-- With no word of failing parity the check of the scope before a command finds nothing. -/
theorem scopeChecked (hb : s.bore.badPar = []) : (accScope s).foldl (fun s i => (accCheck s i).1) s = s := by
  have _ := hw
  have h : ∀ l : List Nat, l.foldl (fun s i => (accCheck s i).1) s = s := by
    intro l
    induction l with
    | nil => rfl
    | cons i l ih => rw [List.foldl_cons, accCheck_clean s hb, ih]
  exact h _

theorem acTrkClr_yields (hb : s.bore.badPar = []) : Yields (.acTrkClr fn) s fun t => t.chans = s.chans ∧ ∀ i ∈ accScope s,
    accWord t i 0 = accWord s i 0 ∧ accWord t i 1 = minClear ∧ accWord t i 2 = maxClear ∧ bit (accWord t i 3) 18 = false := by
  refine ⟨_, congrArg Host.Outcome.next (wr_of_mayWrite s fn _ _ _ _ hw),
    (accCmd_keeps (may := { bore := true }) rfl Keeps.rfl).chans rfl, fun i hi => ?_⟩
  have hu : accCmd s 2 =
      (accScope s).foldl (fun s i => accSet s i (accWord s i 0) minClear maxClear (put (accWord s i 3) 18 1 0)) s := by
    unfold accCmd
    dsimp only
    rw [if_pos (by decide), scopeChecked s hw hb]
    simp only
  have h : accWords (accCmd s 2) i = (accWord s i 0, minClear, maxClear, put (accWord s i 3) 18 1 0) := by
    rw [hu]
    exact accWords_foldl s (F := fun w => (w.1, minClear, maxClear, put w.2.2.2 18 1 0)) (fun u i => accWords_accSet ..)
      (fun u i j hj => accWords_accSet_other _ hj _ _ _ _) _ (accScope_nodup s) hi
  obtain ⟨h0, h1, h2, h3⟩ := words_of_accWords h
  refine ⟨h0, h1, h2, b2n_inj (b := false) ?_⟩
  rw [h3, ← fld_one]
  exact fld_put_self _ 18 1 0 (by decide)

theorem accWords_setBore_disc (u : State) (i j : Nat) (w : Word) : accWords (setBore u (accAddr i + 12) w) j =
    if j = i then (accWord u i 0, accWord u i 1, accWord u i 2, w) else accWords u j := by
  have _ := hw
  have ho : ∀ k < 4, (j ≠ i ∨ k ≠ 3) → accWord (setBore u (accAddr i + 12) w) j k = accWord u j k := fun k hk h => by
    unfold accWord
    refine boreWord_setBore_other _ _ _ _ ?_
    unfold accAddr
    omega
  split
  · next e =>
    subst e
    have h3 : accWord (setBore u (accAddr j + 12) w) j 3 = w := boreWord_setBore_self ..
    unfold accWords
    rw [ho 0 (by decide) (.inr (by decide)), ho 1 (by decide) (.inr (by decide)), ho 2 (by decide) (.inr (by decide)), h3]
  · next e => exact accWords_of fun k hk => ho k hk (.inl e)

theorem acDiscClr_yields (hb : s.bore.badPar = []) : Yields (.acDiscClr fn) s fun t => t.chans = s.chans ∧ ∀ i ∈ accScope s,
    accWord t i 0 = accWord s i 0 ∧ fld (accWord t i 3) 0 8 = 0 := by
  refine ⟨_, congrArg Host.Outcome.next (wr_of_mayWrite s fn _ _ _ _ hw),
    (accCmd_keeps (may := { bore := true }) rfl Keeps.rfl).chans rfl, fun i hi => ?_⟩
  have hu : accCmd s 3 = (accScope s).foldl (fun s i => setBore s (accAddr i + 12) (put (accWord s i 3) 0 8 0)) s := by
    unfold accCmd
    dsimp only
    rw [if_pos (by decide), scopeChecked s hw hb]
    simp only
  have h : accWords (accCmd s 3) i = (accWord s i 0, accWord s i 1, accWord s i 2, put (accWord s i 3) 0 8 0) := by
    rw [hu]
    exact accWords_foldl s (F := fun w => (w.1, w.2.1, w.2.2.1, put w.2.2.2 0 8 0))
      (fun u i => (accWords_setBore_disc s hw u i i _).trans (if_pos rfl))
      (fun u i j hj => (accWords_setBore_disc s hw u i j _).trans (if_neg hj)) _ (accScope_nodup s) hi
  obtain ⟨h0, -, -, h3⟩ := words_of_accWords h
  exact ⟨h0, by rw [h3]; exact fld_put_self _ 0 8 0 (by decide)⟩

end

/-! ### AC_CFG -/

theorem tabGet_foldl_upd {α : Type} [DecidableEq α] (d : Nat → α) (f : α → α) (l : List Nat) (hn : l.Nodup) (t : Tab α) (i : Nat) :
    tabGet d (l.foldl (fun t i => tabUpd d t i f) t) i = if i ∈ l then f (tabGet d t i) else tabGet d t i := by
  induction l generalizing t with
  | nil => rfl
  | cons j l ih =>
    obtain ⟨hj, hl⟩ := List.nodup_cons.mp hn
    rw [List.foldl_cons, ih hl]
    by_cases e : i = j
    · subst e
      rw [if_neg hj, if_pos List.mem_cons_self, tabGet_tabUpd_self]
    · rw [tabGet_tabUpd_other _ _ _ _ _ e]
      simp [e]

theorem contains_foldl_mark (l : List Nat) (m : List Nat) (i : Nat) (h : i ∈ l ∨ m.contains i = true) :
    (l.foldl (fun l i => if l.contains i then l else l ++ [i]) m).contains i = true := by
  induction l generalizing m with
  | nil => exact h.resolve_left List.not_mem_nil
  | cons j l ih =>
    refine ih _ ?_
    by_cases e : i = j
    · refine .inr ?_
      subst e
      dsimp only
      split
      · assumption
      · simp
    · refine h.imp (fun hm => (List.mem_cons.mp hm).resolve_left e) fun hc => ?_
      dsimp only
      split
      · exact hc
      · rw [List.contains_iff_mem] at hc ⊢
        exact List.mem_append_left _ hc

theorem acCfgWrite_yields {fn : Fn} (v : Word) (hw : mayWrite s fn pgACC 0x44 1 = true) : Yields (.acCfgWrite fn v) s fun t =>
    SameBore s t ∧ t.chans = s.chans ∧ ∀ i, (i ∈ accScope s → accCfg t i = accCfgWord (accCfg s i) v ∧ t.accs.restart.contains i = true) ∧
      (i ∉ accScope s → accCfg t i = accCfg s i) := by
  let a : Accs := { s.accs with
    cfg := (accScope s).foldl (fun t i => tabUpd accReset t i (fun o => accCfgWord o v)) s.accs.cfg
    restart := (accScope s).foldl (fun l i => if l.contains i then l else l ++ [i]) s.accs.restart }
  have ha : (accCfgWrite s v).accs = a ∧ (accCfgWrite s v).bore = s.bore ∧ (accCfgWrite s v).chans = s.chans := by
    unfold accCfgWrite
    dsimp only
    split
    · exact ⟨(post_accs ..).trans rfl, (post_bore ..).trans rfl, (post_chans ..).trans rfl⟩
    · exact ⟨rfl, rfl, rfl⟩
  obtain ⟨h1, h2, h3⟩ := ha
  have hc : ∀ i, accCfg (accCfgWrite s v) i = if i ∈ accScope s then accCfgWord (accCfg s i) v else accCfg s i := fun i => by
    unfold accCfg
    rw [h1]
    exact tabGet_foldl_upd accReset _ _ (accScope_nodup s) _ i
  refine ⟨_, congrArg Host.Outcome.next (wr_of_mayWrite s fn _ _ _ _ hw), sameBore_of_mem (congrArg Bore.mem h2), h3, fun i =>
    ⟨fun hi => ⟨(hc i).trans (if_pos hi), ?_⟩, fun hi => (hc i).trans (if_neg hi)⟩⟩
  rw [h1]
  exact contains_foldl_mark _ _ i (.inl hi)

/-- Settles O49: by the step that a sample makes, and by the words that each command leaves. -/
theorem accumulators : Obligations.Accumulators := by
  unfold Obligations.Accumulators
  intro s
  refine ⟨fun r k v ovr => ?_, fun r k hd => ?_, fun fn v hw => acCfgWrite_yields s v hw, fun fn hw => ⟨acRestart_yields s hw,
    acTrkClr_yields s hw, acDiscClr_yields s hw⟩⟩
  · intro i x sh fill sum hd hh hr hs
    obtain ⟨hb, hg, hu⟩ := accEnter_cases (x := x) hs hh hr ovr
    have e : exec (.accSample r k v ovr) s = .next (accEnter s i x ovr) := congrArg Host.Outcome.next (if_pos hd)
    refine ⟨fun hm hf => ?_, fun hm hf => ?_, fun hm hv => ?_, ⟨_, e, hb⟩⟩
    · have hst := (sampleStep_block (x := x) hm).trans (if_pos hf)
      obtain ⟨h1, h2, h3, h4, h5⟩ := hu _ (congrArg (fun p => p.2.2) hst)
      exact ⟨_, e, h1, h2, h3, h4.trans (congrArg (fun p => p.2.1 % 256) hst), h5⟩
    · have hst := (sampleStep_block (x := x) hm).trans (if_neg hf)
      obtain ⟨h1, h2, h3, h4⟩ := hg (congrArg (fun p => p.2.2) hst)
      exact ⟨_, e, h1, h2.trans (congrArg (fun p => p.2.1 % 256) hst), h3.trans (congrArg Prod.fst hst), h4⟩
    · have hst := sampleStep_filter (x := x) hm hv
      obtain ⟨h1, h2, h3, -, h5⟩ := hu _ (congrArg (fun p => p.2.2) hst)
      exact ⟨_, e, h1, h2, h3, h5⟩
  · exact ⟨_, congrArg Host.Outcome.next (if_pos hd), accParity_leaves s _⟩

end Sys2Proof.Machine
end

