-- ==== Sys2Proof/Proofs/ThermalRequest.lean ====
section
/-! O53. The band, the thermal request, the diodes and the threshold, kernel and class writes (R349 to R363, R374 to R383). -/

namespace Sys2Proof.Machine

open Sys2Proof.Safety (Yields mayWrite mayRead SameBore SameFeedGates)

variable (s : State)

/-! ### What the steps of an update leave -/

/-- The thresholds' register. -/
abbrev tpThresh : Nat := ro pgTEMP 0x44

theorem body?_thresh : body? tpThresh = true := by decide
theorem unmarked?_thresh : unmarked? tpThresh = true := by decide

theorem thresh_of_getReg {t : State} (h : getReg t tpThresh = getReg s tpThresh) :
    tThrottle t = tThrottle s ∧ tPark t = tPark s ∧ tShut t = tShut s :=
  ⟨regFld_of_getReg h 0 8, regFld_of_getReg h 8 8, regFld_of_getReg h 16 8⟩

theorem getReg_post_thresh (page src : Nat) (d : Word) (sub : Nat) : getReg (post s page src d sub) tpThresh = getReg s tpThresh :=
  getReg_post s unmarked?_thresh ..

theorem getReg_redoSlot {off : Nat} (h : unmarked? off = true) (hp : off ≠ ro pgPLAN 0x50) (cause k : Nat) :
    getReg (redoSlot s cause k) off = getReg s off := by
  unfold redoSlot
  extract_lets x s1 s2 wait s3
  have h1 : getReg s1 off = getReg s off := getReg_putReg_other _ _ _ _ _ _ hp
  have h3 : getReg s3 off = getReg s off := (getReg_of_regs (s := s2) rfl _).trans ((getReg_post s1 h ..).trans h1)
  split
  · exact (getReg_post s3 h ..).trans h3
  · exact h3

theorem redoSlot_leaves (cause k : Nat) : (redoSlot s cause k).thermal = s.thermal ∧ (redoSlot s cause k).tabs = s.tabs := by
  unfold redoSlot
  extract_lets x s1 s2 wait s3
  have h3 : s3.thermal = s.thermal ∧ s3.tabs = s.tabs :=
    ⟨(setSlot_thermal ..).trans ((post_thermal s1 ..).trans (bumpReg_thermal ..)),
      (setSlot_tabs ..).trans ((post_tabs s1 ..).trans (bumpReg_tabs ..))⟩
  split
  · exact ⟨(post_thermal s3 ..).trans h3.1, (post_tabs s3 ..).trans h3.2⟩
  · exact h3

/-- A redo of plans changes no register but PLAN's count, the thermal state nor the table pages. -/
theorem redoIf_part {β : Type} {π : State → β} (hp : ∀ (u : State) cause k, π (redoSlot u cause k) = π u) (p : SlotSt → Bool) :
    π (redoIf s p) = π s := by
  unfold redoIf
  refine foldl_part s (fun u k => ?_) _
  dsimp only
  split
  · exact hp u 0 k
  · rfl

/-- What an update of one tile leaves: the band, the request and the thresholds. -/
def updateBasis (s : State) : Fin 6 × Fin 9 × Word := (s.thermal.band, s.thermal.req, getReg s tpThresh)

theorem updateBasis_post (page src : Nat) (d : Word) (sub : Nat) : updateBasis (post s page src d sub) = updateBasis s := by
  unfold updateBasis
  rw [post_thermal, getReg_post_thresh]

theorem updateBasis_kernelPass (g : Nat) : updateBasis (kernelPass s g).1 = updateBasis s := by
  have hr : ∀ (u : State) i, updateBasis (kernelRead u i).1 = updateBasis u := fun u i => by
    unfold kernelRead
    split
    · rfl
    · have hp := updateBasis_post u pgTHM 0 (BitVec.ofNat 32 i) 0
      dsimp only
      generalize post u pgTHM 0 (BitVec.ofNat 32 i) = v at hp ⊢
      split
      · exact hp
      · exact hp
  have hl : ∀ (l : List Nat) (p : State × Bool), updateBasis
      (l.foldl (fun p i => let q := kernelRead p.1 i; (q.1, p.2 && q.2)) p).1 = updateBasis p.1 := by
    intro l
    induction l with
    | nil => exact fun _ => rfl
    | cons i l ih => exact fun p => (ih _).trans (hr p.1 i)
  exact hl _ (s, true)

theorem updateBasis_updateTile (t : Nat) : updateBasis (updateTile s t) = updateBasis s := by
  unfold updateTile
  extract_lets u why ok g ps pw gain tau nodes rises self' el els best old new was mask th v
  have hu : updateBasis u = updateBasis s := updateBasis_kernelPass s _
  have hv : updateBasis v = updateBasis s := Eq.trans rfl hu
  clear_value v
  split
  · exact (updateBasis_post v ..).trans hv
  · exact hv

/-! ### The band -/

theorem flashBand_leaves (old new : Nat) : (flashBand s old new).thermal = s.thermal ∧
    getReg (flashBand s old new) tpThresh = getReg s tpThresh := by
  have ht : ∀ u : State, getReg (trainIf u) tpThresh = getReg u tpThresh := fun u => getReg_setReg_other _ _ _ _ (by decide)
  have hp : ∀ (u : State) n v, getReg (putReg u (ro pgNVF 0x7C) 31 n v) tpThresh = getReg u tpThresh := fun u n v =>
    getReg_putReg_other _ _ _ _ _ _ (by decide)
  unfold flashBand
  extract_lets s1 _ s2 _ _ _
  have h1 : s1.thermal = s.thermal ∧ getReg s1 tpThresh = getReg s tpThresh := by
    unfold s1
    split
    · exact ⟨rfl, ht s⟩
    · exact ⟨rfl, rfl⟩
  have h2 : s2.thermal = s.thermal ∧ getReg s2 tpThresh = getReg s tpThresh := by
    refine ⟨Eq.trans ?_ h1.1, Eq.trans ?_ h1.2⟩
    · unfold s2
      split <;> rfl
    · unfold s2
      split <;> rfl
  clear_value s2
  split
  · exact ⟨h2.1, (hp ..).trans h2.2⟩
  · split
    · exact ⟨h2.1, (hp ..).trans h2.2⟩
    · exact h2

/-- The band follows T_th and nothing else of the request moves (R375). -/
theorem bandMove_moves : (bandMove s).thermal.tth = s.thermal.tth ∧
    (bandMove s).thermal.band = bandNext s.thermal.tth s.thermal.band ∧ (bandMove s).thermal.req = s.thermal.req ∧
    (bandMove s).thermal.updated = s.thermal.updated ∧ getReg (bandMove s) tpThresh = getReg s tpThresh := by
  unfold bandMove
  extract_lets b n th s1 s2
  split
  · next h => exact ⟨rfl, h.symm, rfl, rfl, rfl⟩
  · have h1 : s1.thermal = { s.thermal with band := n, prevBand := b, bandChanges := th.bandChanges + 1 } := rfl
    have h2 : s2.thermal = s1.thermal := post_thermal ..
    obtain ⟨f1, f2⟩ := flashBand_leaves s2 b.val n.val
    have hr : (redoAll (flashBand s2 b.val n.val)).thermal = s1.thermal :=
      (redoIf_part _ (π := State.thermal) (fun u c k => (redoSlot_leaves u c k).1) _).trans (f1.trans h2)
    rw [hr, h1]
    exact ⟨rfl, rfl, rfl, rfl, (redoIf_part _ (π := fun u : State => getReg u tpThresh) (fun u c k => getReg_redoSlot u unmarked?_thresh (by decide) c k) _).trans
      (f2.trans ((getReg_post_thresh s1 ..).trans rfl))⟩

/-! ### The request -/

theorem setRequest_sets (r : Fin 9) (why : Nat) :
    (setRequest s r why).thermal = { s.thermal with req := r, why := BitVec.ofNat 3 why } ∧ (setRequest s r why).chans = s.chans := by
  unfold setRequest
  dsimp only
  split
  · exact ⟨rfl, rfl⟩
  · exact ⟨(post_thermal ..).trans rfl, (post_chans ..).trans rfl⟩

/-- A machine whose T_th, band, request and thresholds are those of `s`. -/
structure SameHeat (s t : State) : Prop where
  tth : t.thermal.tth = s.thermal.tth
  band : t.thermal.band = s.thermal.band
  req : t.thermal.req = s.thermal.req
  updated : t.thermal.updated = s.thermal.updated
  thresh : getReg t tpThresh = getReg s tpThresh

theorem SameHeat.of {s t : State} (h : t.thermal = s.thermal) (hr : getReg t tpThresh = getReg s tpThresh) : SameHeat s t :=
  ⟨by rw [h], by rw [h], by rw [h], by rw [h], hr⟩

theorem SameHeat.trans {s t u : State} (h : SameHeat s t) (g : SameHeat t u) : SameHeat s u :=
  ⟨g.tth.trans h.tth, g.band.trans h.band, g.req.trans h.req, g.updated.trans h.updated, g.thresh.trans h.thresh⟩

theorem crossed_same (was : Bool) (thr src : Nat) : SameHeat s (crossed s was thr src) := by
  unfold crossed
  split
  · exact .of (post_thermal ..) (getReg_post_thresh s ..)
  · exact .of rfl rfl

/-- An orderly stop is asked: the latch stands. -/
theorem shutStop_same : SameHeat s (shutStop s) ∧ (shutStop s).thermal.shutLatched = true := by
  have hq : ∀ u : State, (quiesce u 0).thermal = u.thermal ∧ (quiesce u 0).regs = u.regs := fun u => by
    unfold quiesce
    split <;> exact ⟨rfl, rfl⟩
  unfold shutStop
  extract_lets th u
  split
  · next h => exact ⟨.of rfl rfl, h⟩
  · have hu : SameHeat s u ∧ u.thermal.shutLatched = true := ⟨⟨rfl, rfl, rfl, rfl, rfl⟩, rfl⟩
    clear_value u
    split
    · obtain ⟨q1, q2⟩ := hq u
      exact ⟨hu.1.trans (.of q1 (getReg_of_regs q2 _)), by rw [q1]; exact hu.2⟩
    · exact hu

theorem parkEvent_same (cause : Nat) (tiles : Word) : SameHeat s (parkEvent s cause tiles) ∧
    (parkEvent s cause tiles).thermal = s.thermal := by
  have h : (parkEvent s cause tiles).thermal = s.thermal := by
    unfold parkEvent
    split
    · rfl
    · exact (post_thermal ..).trans rfl
  exact ⟨.of h (getReg_parkEvent s cause tiles unmarked?_thresh), h⟩

/-- What an update makes of the request, against the machine before (R376, R380). -/
structure Raises (s t : State) : Prop where
  tth : t.thermal.tth = s.thermal.tth
  band : t.thermal.band = s.thermal.band
  updated : t.thermal.updated = s.thermal.updated
  least : s.thermal.req.val ≤ t.thermal.req.val
  throttle : (tThrottle s : Rat) ≤ s.thermal.tth → 1 ≤ t.thermal.req.val
  park : (tPark s : Rat) ≤ s.thermal.tth → 7 ≤ t.thermal.req.val
  shut : (tShut s : Rat) ≤ s.thermal.tth → t.thermal.req = 8 ∧ t.thermal.shutLatched = true

/-- A request of level `r` at least, over a machine of the same heat, raises as R376 says. -/
theorem raises_setRequest {u : State} (hu : SameHeat s u) {r : Nat} (hr : r ≤ 8) (why : Nat) (h0 : s.thermal.req.val ≤ r)
    (h1 : (tThrottle s : Rat) ≤ s.thermal.tth → 1 ≤ r) (h7 : (tPark s : Rat) ≤ s.thermal.tth → 7 ≤ r)
    (h8 : (tShut s : Rat) ≤ s.thermal.tth → r = 8 ∧ u.thermal.shutLatched = true) : Raises s (setRequest u (Fin.ofNat 9 r) why) := by
  have hf : (Fin.ofNat 9 r).val = r := Nat.mod_eq_of_lt (by omega)
  have he := (setRequest_sets u (Fin.ofNat 9 r) why).1
  refine ⟨?_, ?_, ?_, ?_, fun h => ?_, fun h => ?_, fun h => ?_⟩
  all_goals rw [he]
  · exact hu.tth
  · exact hu.band
  · exact hu.updated
  · exact h0.trans hf.ge
  · exact (h1 h).trans hf.ge
  · exact (h7 h).trans hf.ge
  · exact ⟨by rw [(h8 h).1]; rfl, (h8 h).2⟩

theorem requestUpdate_raises (old : Option Rat) : Raises s (requestUpdate s old) := by
  unfold requestUpdate
  extract_lets q had s1 s2 hot s3 _ s4 r1 r2 r3 r4 s5 _ _ u r5
  have e1 : SameHeat s s1 := (crossed_same s _ _ _).trans ((crossed_same _ _ _ _).trans (crossed_same _ _ _ _))
  have e2 : SameHeat s s2 ∧ ((tShut s : Rat) ≤ s.thermal.tth → s2.thermal.shutLatched = true) := by
    obtain ⟨f1, f2⟩ := shutStop_same s1
    obtain ⟨-, -, t3⟩ := thresh_of_getReg s e1.thresh
    unfold s2
    rw [t3]
    split
    · exact ⟨e1.trans f1, fun _ => f2⟩
    · next h => exact ⟨e1, fun hs => absurd hs h⟩
  have e3 : SameHeat s s3 ∧ s3.thermal = s2.thermal := by
    obtain ⟨f1, f2⟩ := parkEvent_same s2 2 allTiles
    unfold s3
    split
    · exact ⟨e2.1.trans f1, f2⟩
    · exact ⟨e2.1, rfl⟩
  have e4 : SameHeat s s4 := e3.1.trans ⟨rfl, rfl, rfl, rfl, rfl⟩
  have hl : s4.thermal.shutLatched = s2.thermal.shutLatched :=
    Eq.trans (Eq.refl s3.thermal.shutLatched) (congrArg Thermal.shutLatched e3.2)
  obtain ⟨t1, -, -⟩ := thresh_of_getReg s e4.thresh
  obtain ⟨-, t2, -⟩ := thresh_of_getReg s e2.1.thresh
  have hhot : hot = decide ((tPark s : Rat) ≤ s.thermal.tth) := by unfold hot; rw [t2]
  have hr1 : r1 = s.thermal.req.val := by unfold r1; rw [e4.req]
  have hb1 : r1 ≤ 8 := by omega
  have hr2 : r1 ≤ r2 ∧ r2 ≤ 8 ∧ ((tThrottle s : Rat) ≤ s.thermal.tth → 1 ≤ r2) := by
    unfold r2
    rw [t1]
    split
    · omega
    · next h => exact ⟨le_rfl, hb1, fun hh => absurd hh h⟩
  have hr3 : r2 ≤ r3 ∧ r3 ≤ 8 ∧ ((tPark s : Rat) ≤ s.thermal.tth → 7 ≤ r3) := by
    unfold r3
    rw [hhot]
    split
    · omega
    · next h => exact ⟨le_rfl, hr2.2.1, fun hh => absurd (decide_eq_true hh) h⟩
  have hr4 : r3 ≤ r4 ∧ r4 ≤ 8 ∧ ((tShut s : Rat) ≤ s.thermal.tth → r4 = 8) := by
    unfold r4
    rw [hl]
    split
    · omega
    · next h => exact ⟨le_rfl, hr3.2.1, fun hh => absurd (e2.2 hh) h⟩
  have hup : ∀ (v : State), SameHeat s v → v.thermal.shutLatched = s2.thermal.shutLatched → ∀ r, r4 ≤ r → r ≤ 8 → ∀ why,
      Raises s (setRequest v (Fin.ofNat 9 r) why) := fun v hv hvl r h1 h2 why =>
    raises_setRequest s hv h2 why (by omega) (fun h => by have := hr2.2.2 h; omega) (fun h => by have := hr3.2.2 h; omega)
      (fun h => ⟨by have := hr4.2.2 h; omega, hvl.trans (e2.2 h)⟩)
  clear_value r4 s4
  split
  · have h5 : Raises s s5 := hup s4 e4 hl r4 le_rfl hr4.2.1 _
    clear_value s5
    split
    · exact h5
    · exact ⟨h5.tth, h5.band, h5.updated, h5.least, h5.throttle, h5.park, h5.shut⟩
  · split
    · exact hup s4 e4 hl r4 le_rfl hr4.2.1 _
    · refine hup u ⟨e4.tth, e4.band, e4.req, e4.updated, e4.thresh⟩ hl r5 ?_ ?_ _
      · unfold r5
        omega
      · unfold r5
        omega

theorem timeUpdate_leaves : (timeUpdate s).thermal.updated = s.thermal.updated ∧ (timeUpdate s).thermal.band = s.thermal.band ∧
    (timeUpdate s).thermal.tth = s.thermal.tth ∧ (timeUpdate s).thermal.req = s.thermal.req ∧
    (timeUpdate s).thermal.shutLatched = s.thermal.shutLatched := ⟨rfl, rfl, rfl, rfl, rfl⟩

/-- MODEL_UPDATE: the band and the request that the new T_th gives. -/
theorem modelUpdate_yields (hd : domOn s 10 = true) : Yields .modelUpdate s fun t =>
    t.thermal.updated = true ∧ t.chans = s.chans ∧ SameFeedGates s t ∧
    t.thermal.band = bandNext t.thermal.tth s.thermal.band ∧ s.thermal.req.val ≤ t.thermal.req.val ∧
    ((tThrottle s : Rat) ≤ t.thermal.tth → 1 ≤ t.thermal.req.val) ∧ ((tPark s : Rat) ≤ t.thermal.tth → 7 ≤ t.thermal.req.val) ∧
    ((tShut s : Rat) ≤ t.thermal.tth → t.thermal.req = 8 ∧ t.thermal.shutLatched = true) := by
  have hk : Keeps { park := true, slots := true } s (modelUpdate s) := modelUpdate_keeps rfl rfl Keeps.rfl
  obtain ⟨u, old, he, hb, hup⟩ : ∃ u old, modelUpdate s = timeUpdate (requestUpdate (bandMove u) old) ∧ updateBasis u = updateBasis s ∧
      u.thermal.updated = true := by
    unfold modelUpdate
    rw [if_neg (by simp [hd])]
    extract_lets old s1 _ s2 _ s3
    have h1 : updateBasis s1 = updateBasis s := foldl_part s (π := updateBasis) (fun u t => updateBasis_updateTile u t) _
    clear_value s1
    refine ⟨s3, old, rfl, ?_, ?_⟩
    · refine Eq.trans ?_ (Eq.trans (show updateBasis s2 = updateBasis s1 from rfl) h1)
      unfold s3
      split <;> rfl
    · unfold s3
      split <;> rfl
  obtain ⟨m1, m2, m3, m4, m5⟩ := bandMove_moves u
  have hr := requestUpdate_raises (bandMove u) old
  have hub : u.thermal.band = s.thermal.band := congrArg Prod.fst hb
  have hur : u.thermal.req = s.thermal.req := congrArg (fun p => p.2.1) hb
  obtain ⟨t1, t2, t3⟩ := thresh_of_getReg s (m5.trans (congrArg (fun p => p.2.2) hb))
  have h1 := hr.throttle
  have h7 := hr.park
  have h8 := hr.shut
  rw [← hr.tth, t1] at h1
  rw [← hr.tth, t2] at h7
  rw [← hr.tth, t3] at h8
  have hl := hr.least
  rw [m3, hur] at hl
  have hb' := hr.band
  rw [m2, hub, ← m1, ← hr.tth] at hb'
  have hu' := hr.updated.trans (m4.trans hup)
  obtain ⟨f1, f2, f3, f4, f5⟩ := timeUpdate_leaves (requestUpdate (bandMove u) old)
  rw [← he] at f1 f2 f3 f4 f5
  refine ⟨modelUpdate s, rfl, f1.trans hu', hk.chans rfl, ⟨(hk.feeds rfl).1, (hk.feeds rfl).2, hk.rails rfl⟩, ?_⟩
  rw [f2, f3, f4, f5]
  exact ⟨hb', hl, h1, h7, h8⟩

/-! ### The climb, the fall and the stop -/

theorem shutWaitExpired_yields (ha : s.thermal.stopAsked = true) (hn : stopAccepted s = false)
    (ht : s.thermal.stopAt + max (regFld s (ro pgTEMP 0x40) 16 8) 5 * 1200000 ≤ s.now) (hu : idlUp s = true)
    (hw : s.idl.wrWait = []) (hh : s.idl.heldAcc = []) : Yields .shutWaitExpired s fun t =>
      t.idl.wrWait = [{ off := BitVec.ofNat 15 (ro pgPSEQ 0x40), fn := 3, data := some 1 }] ∧ t.chans = s.chans := by
  have hf : ∀ (u : State) f, (sendToFeed u f).idl.wrWait = u.idl.wrWait ∧ (sendToFeed u f).chans = u.chans := fun u f => by
    unfold sendToFeed
    split <;> exact ⟨rfl, rfl⟩
  refine ⟨_, congrArg Host.Outcome.next (if_pos (by simp [ha, hn, ht])), ?_⟩
  unfold sendStop feedWrite feedAccess
  rw [if_neg (by simp [hu]), if_neg (by simp [hw, hh])]
  unfold feedSend
  dsimp only
  rw [(hf _ _).1, (hf _ _).1, (hf _ _).2, (hf _ _).2, hw]
  exact ⟨rfl, rfl⟩

theorem thermClimb_yields {from' : Nat} (hu : s.thermal.updated = true) (hc : s.thermal.climbFrom = some from')
    (ht : from' + climbCc s ≤ s.now) (hi : s.thermal.invalidRaised = false) (hl : s.thermal.shutLatched = false)
    (hr : s.thermal.req.val < 6) : Yields .thermClimb s fun t =>
      t.thermal.req.val = s.thermal.req.val + 1 ∧ t.thermal.climbFrom = some s.now ∧ t.chans = s.chans := by
  refine ⟨thermClimb s, rfl, ?_⟩
  unfold thermClimb
  extract_lets th due
  have hd : due = true := by
    unfold due
    rw [show th.climbFrom = some from' from hc]
    simpa using ht
  rw [if_pos ⟨hu, hd, by simpa using hi, by simpa using hl, hr⟩]
  obtain ⟨h1, h2⟩ := setRequest_sets { s with thermal := { th with climbFrom := some s.now } } (Fin.ofNat 9 (th.req.val + 1))
    (whyOf s (th.req.val + 1))
  dsimp only
  rw [h1, h2]
  exact ⟨Nat.mod_eq_of_lt (show s.thermal.req.val + 1 < 9 by omega), rfl, rfl⟩

/-- What holds the request (R377, R379, R380). -/
def requestHeld (s : State) : Prop :=
  s.thermal.shutLatched = true ∨ s.thermal.invalid ≠ 0 ∨ anySuspect s = true ∨ holdLeft s ≠ 0

theorem thermHoldFall_held (h : requestHeld s) : Yields .thermHoldFall s fun t => t = s :=
  ⟨_, congrArg Host.Outcome.next (if_pos h), rfl⟩

theorem tableLevel_le : tableLevel s ≤ s.thermal.req.val := by
  unfold tableLevel
  extract_lets q r
  split
  · omega
  · split
    · omega
    · split <;> omega

theorem thermHoldFall_falls (h : ¬ requestHeld s) : Yields .thermHoldFall s fun t =>
    t.thermal.req.val = tableLevel s ∧ t.thermal.req.val ≤ s.thermal.req.val ∧
    (s.thermal.tth < (tPark s : Rat) → s.thermal.tth < (tThrottle s : Rat) - 2 → t.thermal.req = 0) ∧
    t.thermal.invalidRaised = false ∧ t.chans = s.chans := by
  have hle := tableLevel_le s
  have h9 : tableLevel s < 9 := by omega
  have hv : (Fin.ofNat 9 (tableLevel s)).val = tableLevel s := Nat.mod_eq_of_lt h9
  obtain ⟨u, hu, h1, h2⟩ : ∃ u : State, thermHoldFall s = { u with thermal := { u.thermal with reqValid := u.thermal.req } } ∧
      u.thermal.req = Fin.ofNat 9 (tableLevel s) ∧ u.thermal.invalidRaised = false ∧ u.chans = s.chans := by
    unfold requestHeld at h
    unfold thermHoldFall
    rw [if_neg h]
    extract_lets _ s1 s2
    have ht : tableLevel s1 = tableLevel s := rfl
    obtain ⟨e1, e2⟩ := setRequest_sets s1 (Fin.ofNat 9 (tableLevel s1)) (whyOf s1 (tableLevel s1))
    refine ⟨s2, rfl, ?_, ?_, e2.trans rfl⟩
    · rw [show s2.thermal = _ from e1, ht]
    · rw [show s2.thermal = _ from e1]
  refine ⟨thermHoldFall s, rfl, ?_⟩
  rw [hu]
  refine ⟨(congrArg Fin.val h1).trans hv, (congrArg Fin.val h1).trans hv |>.trans_le hle, fun hp hq => ?_, h2⟩
  refine h1.trans ?_
  have h0 : tableLevel s = 0 := by
    unfold tableLevel
    dsimp only
    have hq' : s.thermal.tth < (tThrottle s : Rat) := by linarith
    rw [if_neg (not_le.mpr hp), if_neg (not_le.mpr hq'), if_neg (not_le.mpr hq)]
  rw [h0]
  rfl

/-! ### Diode clears, thresholds, kernels and classes -/

section
variable {fn : Fn}

theorem refusedCtrl_leaves (page off : Nat) : (refusedCtrl s page off).thermal = s.thermal ∧
    getReg (refusedCtrl s page off) tpThresh = getReg s tpThresh :=
  ⟨post_thermal .., getReg_post_thresh s ..⟩

theorem tpDiodeClr_clears (j : Fin 64) (hw : mayWrite s fn pgTEMP 0x48 0 = true)
    (h : (diode s j.val).state = .failed ∨ (diode s j.val).state = .range) (hd : (diode s j.val).disagree = false)
    (hb : (diode s j.val).bad = false) : Yields (.tpDiodeClr fn j) s fun t =>
      diode t j.val = { diode s j.val with state := .ok, count := 0 } ∧ ∀ i, i ≠ j.val → diode t i = diode s i := by
  refine ⟨_, congrArg Host.Outcome.next (wr_of_mayWrite s fn _ _ _ _ hw), ?_⟩
  unfold diodeClr
  dsimp only
  rw [if_neg (by simp [hd, hb]), if_pos h]
  exact ⟨tabGet_tabSet_self .., fun i hi => tabGet_tabSet_other _ _ _ _ _ hi⟩

theorem tpDiodeClr_refused (j : Fin 64) (hw : mayWrite s fn pgTEMP 0x48 0 = true)
    (h : (diode s j.val).disagree = true ∨ (diode s j.val).bad = true) : Yields (.tpDiodeClr fn j) s fun t => t.thermal = s.thermal := by
  refine ⟨_, congrArg Host.Outcome.next (wr_of_mayWrite s fn _ _ _ _ hw), ?_⟩
  unfold diodeClr
  dsimp only
  rw [if_pos h]
  exact (refusedCtrl_leaves s _ _).1

theorem tpThreshWrite_yields (v : Word) (hw : mayWrite s fn pgTEMP 0x44 0 = true) : Yields (.tpThreshWrite fn v) s fun t =>
    t.thermal = s.thermal ∧ getReg t (ro pgTEMP 0x44) = if threshOk v then v &&& 0xFF_FFFF else getReg s (ro pgTEMP 0x44) := by
  refine ⟨_, congrArg Host.Outcome.next (wr_of_mayWrite s fn _ _ _ _ hw), ?_⟩
  unfold threshWrite
  split
  · exact ⟨rfl, getReg_setReg_self ..⟩
  · exact refusedCtrl_leaves s _ _

theorem redoIf_leaves (p : SlotSt → Bool) : (redoIf s p).thermal = s.thermal ∧ (redoIf s p).tabs = s.tabs :=
  ⟨redoIf_part s (π := State.thermal) (fun u c k => (redoSlot_leaves u c k).1) p,
    redoIf_part s (π := State.tabs) (fun u c k => (redoSlot_leaves u c k).2) p⟩

/-- A kernel word takes its value, and the kernels are dirty. -/
theorem kernelPut_puts (i : Nat) (v : Word) : (tab (kernelPut s i v) kTH).dirty = 1 ∧
    (kernelPut s i v).thermal.kernels = tabSet kDefault s.thermal.kernels i v := by
  unfold kernelPut
  extract_lets hit u bad _
  have hu : u.thermal = s.thermal := by unfold u; split <;> rfl
  refine ⟨?_, ?_⟩
  · unfold kDirty
    rw [tab_setTab_self]
  · rw [← hu]
    rfl

theorem kAdvance_leaves : (kAdvance s).thermal = s.thermal ∧ (kAdvance s).tabs = s.tabs := by
  unfold kAdvance
  split <;> exact ⟨rfl, rfl⟩

theorem thKDataWrite_puts (v : Word) (hw : mayWrite s fn pgTHM 0x54 1 = true) (hk : kernelWordOk (kIdx s) v = true) :
    Yields (.thKDataWrite fn v) s fun t => (tab t kTH).dirty = 1 ∧ t.chans = s.chans ∧
      ∀ i, tabGet kDefault t.thermal.kernels i = if i = kIdx s then v else tabGet kDefault s.thermal.kernels i := by
  obtain ⟨a1, -⟩ := kAdvance_leaves s
  obtain ⟨p1, p2⟩ := kernelPut_puts (kAdvance s) (kIdx s) v
  obtain ⟨r1, r2⟩ := redoIf_leaves (kernelPut (kAdvance s) (kIdx s) v)
    (fun x => x.entries.any (fun e => tileClass (kernelPut (kAdvance s) (kIdx s) v) (e.ch / 1024) == kIdx s / 128))
  have e : kDataWrite s v = redoIf (kernelPut (kAdvance s) (kIdx s) v)
      (fun x => x.entries.any (fun e => tileClass (kernelPut (kAdvance s) (kIdx s) v) (e.ch / 1024) == kIdx s / 128)) := by
    unfold kDataWrite
    dsimp only
    rw [if_neg (by simp [hk])]
  refine ⟨_, congrArg Host.Outcome.next (wr_of_mayWrite s fn _ _ _ _ hw), ?_,
    (kDataWrite_keeps (may := { slots := true }) rfl Keeps.rfl).chans rfl, fun i => ?_⟩
  · rw [e]
    unfold tab at p1 ⊢
    rw [r2]
    exact p1
  · rw [e, r1, p2, a1]
    split
    · next h => rw [h, tabGet_tabSet_self]
    · next h => exact tabGet_tabSet_other _ _ _ _ _ h

theorem thKDataWrite_refused (v : Word) (hw : mayWrite s fn pgTHM 0x54 1 = true) (hk : kernelWordOk (kIdx s) v = false) :
    Yields (.thKDataWrite fn v) s fun t => t.thermal.kernels = s.thermal.kernels ∧ t.tabs = s.tabs := by
  obtain ⟨a1, a2⟩ := kAdvance_leaves s
  refine ⟨_, congrArg Host.Outcome.next (wr_of_mayWrite s fn _ _ _ _ hw), ?_⟩
  unfold kDataWrite
  dsimp only
  rw [if_pos (by simp [hk])]
  exact ⟨congrArg Thermal.kernels ((post_thermal ..).trans a1), (post_tabs ..).trans a2⟩

theorem unmarked?_class (j : Fin 4) : unmarked? (ro pgTHM (0x80 + 4 * j.val)) = true :=
  unmarked_of_body (body?_ro (by omega) (by omega) (by decide) (by decide) (by decide))

theorem thTileClassWrite_yields (j : Fin 4) (v : Word) (hw : mayWrite s fn pgTHM (0x80 + 4 * j.val) 1 = true) :
    Yields (.thTileClassWrite fn j v) s fun t =>
      getReg t (ro pgTHM (0x80 + 4 * j.val)) = v ∧ (tab t kTH).dirty = 1 ∧ t.chans = s.chans := by
  let u := kDirty (setReg s (ro pgTHM (0x80 + 4 * j.val)) v)
  have hu : (tab u kTH).dirty = 1 := by
    unfold u kDirty
    rw [tab_setTab_self]
  refine ⟨_, congrArg Host.Outcome.next (wr_of_mayWrite s fn _ _ _ _ hw), ?_, ?_,
    (tileClassWrite_keeps (may := { slots := true }) rfl Keeps.rfl).chans rfl⟩
  · unfold tileClassWrite
    refine (redoIf_part _ (π := fun u : State => getReg u (ro pgTHM (0x80 + 4 * j.val)))
      (fun u c k => getReg_redoSlot u (unmarked?_class j) (by unfold ro pgTHM pgPLAN; omega) c k) _).trans ?_
    exact (getReg_of_regs (s := setReg s (ro pgTHM (0x80 + 4 * j.val)) v) rfl _).trans (getReg_setReg_self ..)
  · unfold tileClassWrite
    unfold tab at hu ⊢
    dsimp only
    rw [(redoIf_leaves ..).2]
    exact hu

/-! ### The indexed reads -/

theorem thKDataRead_yields (hb : s.thermal.badKernels.contains (kIdx s) = false) (hr : mayRead s fn pgTHM 0x54 = true) :
    Yields (.thKDataRead fn) s fun t => t.host.rdata = tabGet kDefault s.thermal.kernels (kIdx s) ∧
      kIdx t = if bit (getReg s (ro pgTHM 0x50)) 16 then (kIdx s + 1) % 2048 else kIdx s := by
  have e : kDataRead s = (tabGet kDefault s.thermal.kernels (kIdx s), kAdvance s) := by
    unfold kDataRead kernelRead
    dsimp only
    rw [if_pos (by rw [hb]; rfl)]
  refine ⟨_, congrArg Host.Outcome.next (rd_of_mayRead s fn _ _ _ hr), ?_⟩
  rw [e]
  refine ⟨rfl, ?_⟩
  change regFld (kAdvance s) (ro pgTHM 0x50) 0 11 = _
  unfold kAdvance
  split
  · exact regFld_bumpReg_self s _ 0 11 1 (by decide)
  · rfl

theorem temp10_lt (q : Rat) : temp10 q < 65536 := unsigned_lt 16 _

/-- The two halves of a word that shows a temperature and a value. -/
theorem fld_halves (a b : Nat) : fld (pack [(0, 16, a), (16, 16, b)]) 0 16 = a % 65536 ∧ fld (pack [(0, 16, a), (16, 16, b)]) 16 16 = b % 65536 :=
  ⟨(fld_put_below _ 16 16 _ 0 16 (by decide)).trans (fld_put_self _ 0 16 _ (by decide)), fld_put_self _ 16 16 _ (by decide)⟩

theorem thElTempRead_yields (hr : mayRead s fn pgTHM 0x68 = true) : Yields (.thElTempRead fn) s fun t =>
    fld t.host.rdata 0 16 = temp10 (tabGet (fun _ => 0) s.thermal.elT (regFld s (ro pgTHM 0x64) 0 15)) ∧
    fld t.host.rdata 16 16 = tabGet (fun _ => 0) s.thermal.elP (regFld s (ro pgTHM 0x64) 0 15) % 65536 := by
  obtain ⟨h1, h2⟩ := fld_halves (temp10 (tabGet (fun _ => 0) s.thermal.elT (regFld s (ro pgTHM 0x64) 0 15)))
    (tabGet (fun _ => 0) s.thermal.elP (regFld s (ro pgTHM 0x64) 0 15))
  exact ⟨_, congrArg Host.Outcome.next (rd_of_mayRead s fn _ _ _ hr), h1.trans (Nat.mod_eq_of_lt (temp10_lt _)), h2⟩

theorem thNodeRead_yields (hr : mayRead s fn pgTHM 0x78 = true) : Yields (.thNodeRead fn) s fun t =>
    fld t.host.rdata 0 16 = temp10 (nodeTemp s (regFld s (ro pgTHM 0x74) 0 5) (regFld s (ro pgTHM 0x74) 8 6)) ∧ t.thermal = s.thermal := by
  refine ⟨_, congrArg Host.Outcome.next (rd_of_mayRead s fn _ _ _ hr), (fld_halves _ _).1.trans (Nat.mod_eq_of_lt (temp10_lt _)), ?_⟩
  unfold nodeRead
  dsimp only
  split <;> rfl

theorem tpDiodeERead_yields (hr : mayRead s fn pgTEMP 0x60 = true) : Yields (.tpDiodeERead fn) s fun t =>
    fld t.host.rdata 0 16 = temp10 (diode s (regFld s (ro pgTEMP 0x58) 0 6)).e ∧
    fld t.host.rdata 16 16 = temp10 (nodeTemp s (regFld s (ro pgTEMP 0x58) 0 6 / 2) (diodeNode (regFld s (ro pgTEMP 0x58) 0 6))) ∧
    t.thermal = s.thermal := by
  refine ⟨_, congrArg Host.Outcome.next (rd_of_mayRead s fn _ _ _ hr), (fld_halves _ _).1.trans (Nat.mod_eq_of_lt (temp10_lt _)),
    (fld_halves _ _).2.trans (Nat.mod_eq_of_lt (temp10_lt _)), ?_⟩
  unfold diodeERead
  dsimp only
  split <;> rfl

end

/-! ### A round of the diodes (R359 to R365) -/

theorem startTile_leaves (t : Nat) (reads : List (Rat × Bool)) : (startTile s t reads).chans = s.chans ∧ (startTile s t reads).bore = s.bore ∧
    (startTile s t reads).thermal.diodes = s.thermal.diodes := by
  unfold startTile
  extract_lets ok q th
  split <;> exact ⟨rfl, rfl, rfl⟩

theorem baseStep_leaves (bases : Nat → Rat) (srcs : Nat → Nat) (t : Nat) : (baseStep bases srcs s t).chans = s.chans ∧
    (baseStep bases srcs s t).bore = s.bore ∧ (baseStep bases srcs s t).thermal.diodes = s.thermal.diodes := by
  unfold baseStep
  extract_lets g period tau f th s1
  have h1 : s1.chans = s.chans ∧ s1.bore = s.bore ∧ s1.thermal.diodes = s.thermal.diodes := ⟨rfl, rfl, rfl⟩
  clear_value s1
  split
  · rw [post_chans, post_bore, post_thermal]
    exact h1
  · exact h1

/-- What the steps of a round leave: channels and Bore. -/
def roundBasis (s : State) : Tab ChanSt × Bore := (s.chans, s.bore)

theorem roundBasis_baseStep (bases : Nat → Rat) (srcs : Nat → Nat) (t : Nat) : roundBasis (baseStep bases srcs s t) = roundBasis s := by
  obtain ⟨hc, hb, -⟩ := baseStep_leaves s bases srcs t
  exact Prod.ext hc hb

theorem diodes_foldl_baseStep (bases : Nat → Rat) (srcs : Nat → Nat) (l : List Nat) :
    (l.foldl (baseStep bases srcs) s).thermal.diodes = s.thermal.diodes :=
  foldl_part (π := fun u : State => u.thermal.diodes) s (fun u t => (baseStep_leaves u bases srcs t).2.2) l

/-- The diode of a round, as it moves, and the message of its transition (R361). -/
def diodeMove (s : State) (m : (Diode × Option Nat) × Nat) : State :=
  let s := { s with thermal := { s.thermal with diodes := tabSet (fun _ => {}) s.thermal.diodes m.2 m.1.1 } }
  match m.1.2 with
  | some src => post { s with thermal := { s.thermal with diodeOutAt := some s.now } } pgTEMP src (BitVec.ofNat 32 m.2)
  | none => s

theorem diodeMove_leaves (m : (Diode × Option Nat) × Nat) : roundBasis (diodeMove s m) = roundBasis s := by
  unfold diodeMove roundBasis
  dsimp only
  split
  · rw [post_chans, post_bore]
  · rfl

theorem diodes_diodeMove (m : (Diode × Option Nat) × Nat) :
    (diodeMove s m).thermal.diodes = tabSet (fun _ => {}) s.thermal.diodes m.2 m.1.1 := by
  unfold diodeMove
  dsimp only
  split
  · rw [post_thermal]
  · rfl

theorem diode_of_diodes {s t : State} (h : t.thermal.diodes = s.thermal.diodes) (j : Nat) : diode t j = diode s j :=
  congrArg (fun l => tabGet (fun _ => ({} : Diode)) l j) h

/-- After the moves of all diodes each holds what was computed for it. -/
theorem diode_foldl_diodeMove (g : Nat → Diode × Option Nat) (n j : Nat) (hj : j < n) :
    diode (((List.range n).map g).zipIdx.foldl diodeMove s) j = (g j).1 := by
  have hz : ((List.range n).map g).zipIdx = (List.range n).map (fun i => (g i, i)) := by
    refine List.ext_getElem (by simp) fun i h1 h2 => ?_
    simp
  rw [hz, List.foldl_map]
  induction n with
  | zero => omega
  | succ n ih =>
    rw [List.range_succ, List.foldl_append, List.foldl_cons, List.foldl_nil]
    unfold diode
    rw [diodes_diodeMove]
    rcases Nat.lt_succ_iff_lt_or_eq.mp hj with h | h
    · rw [tabGet_tabSet_other _ _ _ _ _ (by omega)]
      exact ih h (by refine List.ext_getElem (by simp) fun i h1 h2 => ?_; simp)
    · rw [h]
      exact tabGet_tabSet_self ..

/-- A diode out of range leaves 0 OK for 3 RANGE; one that has failed stays so (R361). -/
theorem diodeStep_state (d : Diode) (td e : Rat) (bad dis : Bool) :
    (d.state = .ok → bad = true → (diodeStep d td e bad dis).1.state = .range) ∧
    (d.state = .failed → (diodeStep d td e bad dis).1.state = .failed) := by
  unfold diodeStep
  refine ⟨fun h hb => ?_, fun h => ?_⟩
  · simp [h, hb]
  · simp [h]

theorem getD_map_range {β : Type} (g : Nat → β) (d : β) (n j : Nat) (hj : j < n) : ((List.range n).map g).getD j d = g j := by
  simp [List.getD, hj]

theorem diodeRound_moves (hb : s.bore.badPar = []) (h10 : domOn s 10 = true) (h11 : domOn s 11 = true) :
    roundBasis (diodeRound s) = roundBasis s ∧ ∀ j, j < 64 →
      ((diode s j).state = .ok → (accOvr s (diodeAcc j) = true ∨ accValid s (diodeAcc j) = false) → diodeNew s j = true →
        (diode (diodeRound s) j).state = .range) ∧
      ((diode s j).state = .failed → (diode (diodeRound s) j).state = .failed) := by
  unfold diodeRound
  rw [if_neg (by simp [h10, h11])]
  extract_lets s1 fresh acts reads s2 eOf es e moved s3 bases srcs s4
  have e1 : s1 = s := by
    unfold s1
    generalize List.range 64 = l
    induction l with
    | nil => rfl
    | cons i l ih => rw [List.foldl_cons, accCheck_clean s hb, ih]
  clear_value s1
  subst e1
  have hd2 : s2.thermal.diodes = s1.thermal.diodes :=
    foldl_part (π := fun u : State => u.thermal.diodes) s1 (fun u t => (startTile_leaves u t _).2.2) _
  have hb2 : roundBasis s2 = roundBasis s1 := by
    refine foldl_part (π := roundBasis) s1 (fun u t => ?_) _
    obtain ⟨hc, hbo, -⟩ := startTile_leaves u t [reads.getD (2 * t) (0, true), reads.getD (2 * t + 1) (0, true)]
    exact Prod.ext hc hbo
  have hb3 : roundBasis s3 = roundBasis s1 := (foldl_part (π := roundBasis) (f := diodeMove) s2 diodeMove_leaves _).trans hb2
  have hb4 : roundBasis s4 = roundBasis s1 :=
    (foldl_part (π := roundBasis) (f := baseStep bases srcs) s3 (fun u t => roundBasis_baseStep u bases srcs t) _).trans hb3
  have hd4 := diodes_foldl_baseStep s3 bases srcs (List.range 32)
  rw [show (List.range 32).foldl (baseStep bases srcs) s3 = s4 from rfl] at hd4
  have hm : ∀ j, j < 64 → ((diode s1 j).state = .ok → (accOvr s1 (diodeAcc j) = true ∨ accValid s1 (diodeAcc j) = false) →
        diodeNew s1 j = true → (diode s4 j).state = .range) ∧ ((diode s1 j).state = .failed → (diode s4 j).state = .failed) := by
    clear_value s2 s4
    intro j hj
    have h2 : diode s2 j = diode s1 j := diode_of_diodes hd2 j
    have h4 : diode s4 j = _ :=
      (diode_of_diodes hd4 j).trans (diode_foldl_diodeMove s2 _ 64 j hj)
    have hr : reads.getD j (0, true) = ((diodeReading s1 j).1, (diodeReading s1 j).2 || !acts j) :=
      getD_map_range _ _ 64 j hj
    have ha : acts j = diodeNew s1 j := getD_map_range _ _ 64 j hj
    rw [h4]
    refine ⟨fun hok hbad hnew => ?_, fun hf => ?_⟩
    · rw [if_neg (by rw [ha, hnew]; decide), hr]
      refine (diodeStep_state _ _ _ _ _).1 ((congrArg Diode.state h2).trans hok) ?_
      unfold diodeReading
      rcases hbad with h | h <;> simp [h]
    · split
      · exact (congrArg Diode.state h2).trans hf
      · exact (diodeStep_state _ _ _ _ _).2 ((congrArg Diode.state h2).trans hf)
  clear_value s4
  split
  · exact ⟨hb4, hm⟩
  · exact ⟨hb4, hm⟩

theorem diodeRound_yields (hb : s.bore.badPar = []) (h10 : domOn s 10 = true) (h11 : domOn s 11 = true) :
    Yields .diodeRound s fun t => t.chans = s.chans ∧ SameBore s t ∧ ∀ j : Fin 64,
      ((diode s j.val).state = .ok → (accOvr s (diodeAcc j.val) = true ∨ accValid s (diodeAcc j.val) = false) →
        diodeNew s j.val = true → (diode t j.val).state = .range) ∧
      ((diode s j.val).state = .failed → (diode t j.val).state = .failed) := by
  obtain ⟨hsame, hmoves⟩ := diodeRound_moves s hb h10 h11
  refine ⟨_, rfl, congrArg Prod.fst hsame, fun a => boreByte_of_bore (congrArg Prod.snd hsame) a, fun j => hmoves j.val j.isLt⟩

/-- Settles O53: the request, the thresholds and the indexed reads command by command, the diodes through the moves of a round. -/
theorem thermalRequest : Obligations.ThermalRequest := by
  unfold Obligations.ThermalRequest
  intro s
  exact ⟨modelUpdate_yields s, shutWaitExpired_yields s, fun from' => thermClimb_yields s, ⟨thermHoldFall_held s, thermHoldFall_falls s⟩,
    diodeRound_yields s, fun fn j hw => ⟨fun h => tpDiodeClr_clears s j hw h, tpDiodeClr_refused s j hw⟩, fun fn v => tpThreshWrite_yields s v,
    fun fn v hw => ⟨thKDataWrite_puts s v hw, thKDataWrite_refused s v hw⟩, fun fn j v => thTileClassWrite_yields s j v,
    fun fn => thKDataRead_yields s, fun fn => thElTempRead_yields s, fun fn => thNodeRead_yields s, fun fn => tpDiodeERead_yields s⟩

end Sys2Proof.Machine
end

