-- ==== Sys2Proof/Proofs/FlashStore.lean ====
section
/-! O54. Mount, codewords, blocks, rings, durability, scrubbing, quiesce and resume of the flash store (R455 to R490). -/

namespace Sys2Proof.Machine

open Sys2Proof.Safety (Yields mayWrite SameBore SameFeedGates)

variable (s : State)

/-! ### Registers and fields -/

theorem regFld_bumpReg_other {off o : Nat} (h : o ≠ off) (lo n lo' n' k : Nat) : regFld (bumpReg s off lo n k) o lo' n' = regFld s o lo' n' :=
  regFld_of_getReg (getReg_putReg_other s off lo n _ o h) lo' n'

theorem regFld_post {off : Nat} (h : unmarked? off = true) (page src : Nat) (d : Word) (sub lo n : Nat) :
    regFld (post s page src d sub) off lo n = regFld s off lo n :=
  regFld_of_getReg (getReg_post s h ..) lo n

/-- The two lower fields of a word that packs three. -/
theorem fld_pack_three (a b c l1 n1 l2 n2 l3 n3 : Nat) (h12 : l1 + n1 ≤ l2) (h23 : l2 + n2 ≤ l3) (h3 : l3 + n3 ≤ 32) :
    fld (pack [(l1, n1, a), (l2, n2, b), (l3, n3, c)]) l1 n1 = a % 2 ^ n1 ∧ fld (pack [(l1, n1, a), (l2, n2, b), (l3, n3, c)]) l2 n2 = b % 2 ^ n2 := by
  refine ⟨(fld_put_below _ l3 n3 _ l1 n1 (by omega)).trans ((fld_put_below _ l2 n2 _ l1 n1 h12).trans (fld_put_self _ l1 n1 _ (by omega))),
    (fld_put_below _ l3 n3 _ l2 n2 h23).trans (fld_put_self _ l2 n2 _ (by omega))⟩

/-! ### Spares, wear and training (R463 to R465, R484) -/

/-- What the spare check does to the store: two marks, and READ_ONLY from READY when the spares are used up. -/
theorem sparesCheck_flash (free : Nat) : ∃ a b, (sparesCheck s free).flash = { s.flash with
    sparesLow := a, readOnly := b, state := if decide (free ≤ 64) && s.flash.state == .ready then .readOnly else s.flash.state } := by
  unfold sparesCheck
  extract_lets usable s1 low full newLow newFull st _ s2 s3
  refine ⟨low, full || s.flash.readOnly, ?_⟩
  have h3 : s3.flash = s2.flash := by
    unfold s3
    split
    · exact post_flash ..
    · rfl
  split
  · exact (post_flash ..).trans h3
  · exact h3

theorem getReg_sparesCheck {off : Nat} (h : unmarked? off = true) (free : Nat) :
    getReg (sparesCheck s free) off = getReg (putReg s (ro pgNVF 0x9C) 0 20 free) off := by
  unfold sparesCheck
  extract_lets usable s1 low full newLow newFull st _ s2 s3
  have h3 : getReg s3 off = getReg s1 off := by
    unfold s3
    split
    · exact (getReg_post s2 h ..).trans rfl
    · rfl
  split
  · exact (getReg_post s3 h ..).trans h3
  · exact h3

theorem wearCheck_flash (maxPe minPe : Nat) : ∃ a b, (wearCheck s maxPe minPe).flash = { s.flash with worn80 := a, worn100 := b } := by
  unfold wearCheck
  extract_lets rated s1 pct s2 n80 n100 _ s3 s4
  refine ⟨s.flash.worn80 || n80, s.flash.worn100 || n100, ?_⟩
  have h4 : s4.flash = s3.flash := by
    unfold s4
    split
    · exact post_flash ..
    · rfl
  split
  · exact (post_flash ..).trans h4
  · exact h4

theorem getReg_flash (v : Flash) (off : Nat) : getReg { s with flash := v } off = getReg s off := rfl

theorem getReg_wearCheck {off : Nat} (h : unmarked? off = true) (ha : off ≠ ro pgNVF 0xA4) (maxPe minPe : Nat) :
    getReg (wearCheck s maxPe minPe) off = getReg (setReg s (ro pgNVF 0xA0) (pack [(0, 16, maxPe), (16, 16, minPe)])) off := by
  unfold wearCheck
  extract_lets rated s1 pct s2 n80 n100 _ s3 s4
  have h2 : getReg s2 off = getReg s1 off := getReg_setReg_other s1 _ _ _ ha
  have h3 : getReg s3 off = getReg s2 off := getReg_flash s2 _ off
  clear_value s3
  have h4 : getReg s4 off = getReg s1 off := by
    unfold s4
    split
    · exact (getReg_post s3 h ..).trans (h3.trans h2)
    · exact h3.trans h2
  split
  · exact (getReg_post s4 h ..).trans h4
  · exact h4

/-- What the two checks leave: the blocks to relocate. -/
theorem checks_relocs (free maxPe minPe : Nat) : (wearCheck (sparesCheck s free) maxPe minPe).flash.relocs = s.flash.relocs := by
  obtain ⟨a, b, h1⟩ := sparesCheck_flash s free
  obtain ⟨c, d, h2⟩ := wearCheck_flash (sparesCheck s free) maxPe minPe
  rw [h2, h1]

theorem trainIf_rate : regFld (trainIf s) (ro pgNVF 0x88) 4 11 = (if band s = 5 then 1200 else 1600) ∧ (trainIf s).flash = s.flash := by
  refine ⟨?_, rfl⟩
  unfold regFld trainIf
  dsimp only
  rw [getReg_setReg_self, (fld_pack_three _ _ _ 0 3 4 11 16 16 (by decide) (by decide) (by decide)).2]
  split <;> rfl

/-! ### Mount (R455 to R457, R476 to R479) -/

theorem flashMount_mounts (m : Medium) (torn : List TornPage) (fb : Bool) (hs : s.flash.state = .off) (h9 : domOn s 9 = true)
    (h2 : 2 ≤ s.boot.stage.val) : (flashMount s m torn fb).flash.state = .mount ∧ (flashMount s m torn fb).flash.medium = some m ∧
      (flashMount s m torn fb).flash.pending = [] := by
  unfold flashMount
  rw [if_neg (by simp [hs, h9]; omega)]
  extract_lets j _ s1 n s2 s3 s4 s5 s6 s7 s8 s9 s10 s11
  have h9 : s9.flash = s1.flash := rfl
  have h10 : s10.flash = s1.flash := (foldl_part (π := State.flash) s9 (fun u i => post_flash u ..) _).trans h9
  have h11 : s11.flash.state = .mount ∧ s11.flash.medium = some m ∧ s11.flash.pending = [] := by
    unfold s11
    split
    · rw [h10]
      exact ⟨rfl, rfl, rfl⟩
    · rw [post_flash]
      unfold journal
      dsimp only
      rw [h10]
      exact ⟨rfl, rfl, rfl⟩
  clear_value s11
  split
  · exact h11
  · split
    · rw [post_flash]
      exact h11
    · rw [postFree_flash]
      exact h11

theorem flashMount_yields (m : Medium) (torn : List TornPage) (fb : Bool) (hs : s.flash.state = .off) (h9 : domOn s 9 = true)
    (h2 : 2 ≤ s.boot.stage.val) : Yields (.flashMount m torn fb) s fun t =>
      t.flash.state = .mount ∧ t.flash.medium = some m ∧ t.flash.pending = [] ∧ t.chans = s.chans := by
  obtain ⟨hst, hm, hp⟩ := flashMount_mounts s m torn fb hs h9 h2
  exact yields_of_exec (t := flashMount s m torn fb) rfl fun k => ⟨hst, hm, hp, k.chans rfl⟩

variable {m : Medium}

theorem mountDone_fails (hs : s.flash.state = .mount) (hm : s.flash.medium = some m) (hl : s.flash.laidOut = true) (ms : BitVec 16) :
    (mountDone s false ms).flash.state = .failed := by
  unfold mountDone
  rw [hs, hm]
  dsimp only
  rw [if_pos ⟨hl, rfl⟩]

theorem metaFirst_leaves : (metaFirst s).flash.laidOut = s.flash.laidOut ∧ (metaFirst s).flash.expMib = s.flash.expMib := by
  unfold metaFirst metaPage
  split <;> exact ⟨rfl, rfl⟩

/-- A mount that succeeds ends with the two checks, over a store that is laid out (R457, R465). -/
theorem mountDone_eq (ok : Bool) (hs : s.flash.state = .mount) (hm : s.flash.medium = some m)
    (h : s.flash.laidOut = false ∨ ok = true) (ms : BitVec 16) : ∃ u : State,
      mountDone s ok ms = wearCheck (sparesCheck { u with flash := { u.flash with state := .ready } } m.freeSpare) m.maxPe m.minPe ∧
      u.flash.laidOut = true ∧ u.flash.expMib = (if s.flash.laidOut then s.flash.expMib else exportedMib m.rawMb) := by
  have hn : ¬ (s.flash.laidOut = true ∧ (!ok) = true) := by
    rcases h with h | h <;> simp [h]
  unfold mountDone
  rw [hs, hm]
  dsimp only
  refine ⟨_, if_neg hn, ?_⟩
  rw [setReg_flash]
  split
  next hl =>
    rw [if_pos (show s.flash.laidOut = true from hl)]
    exact ⟨hl, rfl⟩
  next hl =>
    rw [if_neg (show ¬ s.flash.laidOut = true from hl)]
    exact metaFirst_leaves _

theorem mountDone_mounts (ok : Bool) (hs : s.flash.state = .mount) (hm : s.flash.medium = some m)
    (h : s.flash.laidOut = false ∨ ok = true) (ms : BitVec 16) :
    (mountDone s ok ms).flash.state = (if m.freeSpare ≤ 64 then .readOnly else .ready) ∧ (mountDone s ok ms).flash.laidOut = true ∧
    (mountDone s ok ms).flash.expMib = (if s.flash.laidOut then s.flash.expMib else exportedMib m.rawMb) := by
  obtain ⟨u, e, h1, h2⟩ := mountDone_eq s ok hs hm h ms
  obtain ⟨a, b, e1⟩ := sparesCheck_flash { u with flash := { u.flash with state := .ready } } m.freeSpare
  obtain ⟨c, d, e2⟩ := wearCheck_flash (sparesCheck { u with flash := { u.flash with state := .ready } } m.freeSpare) m.maxPe m.minPe
  rw [e, e2, e1]
  refine ⟨?_, h1, h2⟩
  dsimp only
  by_cases hf : m.freeSpare ≤ 64 <;> simp [hf]

theorem mountDone_yields (ok : Bool) (ms : BitVec 16) (m : Medium) (hs : s.flash.state = .mount) (hm : s.flash.medium = some m) :
    (s.flash.laidOut = true → ok = false → Yields (.mountDone ok ms) s fun t => t.flash.state = .failed) ∧
    ((s.flash.laidOut = false ∨ ok = true) → Yields (.mountDone ok ms) s fun t =>
      t.flash.state = (if m.freeSpare ≤ 64 then .readOnly else .ready) ∧ t.flash.laidOut = true ∧
      t.flash.expMib = (if s.flash.laidOut then s.flash.expMib else exportedMib m.rawMb)) :=
  ⟨fun hl hok => ⟨_, rfl, hok ▸ mountDone_fails s hs hm hl ms⟩, fun h => ⟨_, rfl, mountDone_mounts s ok hs hm h ms⟩⟩

/-! ### Codewords and blocks (R458 to R465) -/

/-- The store when a block has been rewritten: the wait is over, the count one higher, and its programs noted (R460). -/
def rewritten (s : State) (x : Option Nat) (rest : List (Option Nat)) : State :=
  let u := bumpReg { s with flash := { s.flash with relocs := rest } } (ro pgNVF 0x80) 16 16
  match x with
  | some key => notePrograms u (key / 2 ^ 28) (key % 2 ^ 28 * 4096) 4096
  | none => u

theorem rewritten_counts (x : Option Nat) (rest : List (Option Nat)) : (rewritten s x rest).flash.relocs = rest ∧
    regFld (rewritten s x rest) (ro pgNVF 0x80) 16 16 = (regFld s (ro pgNVF 0x80) 16 16 + 1) % 65536 := by
  unfold rewritten
  extract_lets _ u
  have h : regFld u (ro pgNVF 0x80) 16 16 = (regFld s (ro pgNVF 0x80) 16 16 + 1) % 65536 :=
    regFld_bumpReg_self { s with flash := { s.flash with relocs := rest } } (ro pgNVF 0x80) 16 16 1 (by decide)
  have hu : u.flash.relocs = rest := rfl
  clear_value u
  cases x with
  | none => exact ⟨hu, h⟩
  | some key => exact ⟨hu, (regFld_of_getReg (getReg_flash u _ _) 16 16).trans h⟩

theorem execRelocationDone_cons (n hi lo : Nat) (x : Option Nat) (rest : List (Option Nat)) (hr : s.flash.relocs = x :: rest) :
    exec (.relocationDone n hi lo) s = .next (wearCheck (sparesCheck (rewritten s x rest) n) hi lo) := by
  change execRelocationDone n hi lo s = _
  cases x <;> simp only [execRelocationDone, rewritten, hr]

theorem relocationDone_yields (n hi lo : Nat) (x : Option Nat) (rest : List (Option Nat)) (hr : s.flash.relocs = x :: rest) :
    Yields (.relocationDone n hi lo) s fun t => t.flash.relocs = rest ∧
      regFld t (ro pgNVF 0x80) 16 16 = (regFld s (ro pgNVF 0x80) 16 16 + 1) % 65536 ∧ t.chans = s.chans := by
  obtain ⟨h1, h2⟩ := rewritten_counts s x rest
  refine yields_of_exec (execRelocationDone_cons s n hi lo x rest hr) fun k => ⟨(checks_relocs _ n hi lo).trans h1, ?_, k.chans rfl⟩
  generalize rewritten s x rest = v at h2 ⊢
  have h3 : getReg (wearCheck (sparesCheck v n) hi lo) (ro pgNVF 0x80) = getReg (sparesCheck v n) (ro pgNVF 0x80) :=
    (getReg_wearCheck _ (by decide) (by decide) hi lo).trans (getReg_setReg_other _ _ _ _ (by decide))
  have h4 : getReg (sparesCheck v n) (ro pgNVF 0x80) = getReg v (ro pgNVF 0x80) :=
    (getReg_sparesCheck v (by decide) n).trans (getReg_putReg_other _ _ _ _ _ _ (by decide))
  exact (regFld_of_getReg (h3.trans h4) 16 16).trans h2

section
variable (hm : mounted s.flash = true)
include hm

theorem codewordRead_fails (part : BitVec 4) (lca : BitVec 28) (bits : BitVec 10) (b : Fin 6) :
    Yields (.codewordRead part lca none bits b) s fun t =>
      regFld t (ro pgNVF 0x8C) 16 16 = (regFld s (ro pgNVF 0x8C) 16 16 + 1) % 65536 ∧ t.chans = s.chans ∧ SameBore s t := by
  refine yields_of_exec (t := codewordRead s part.toNat lca.toNat none bits.toNat b.val) rfl
    fun k => ⟨?_, k.chans rfl, fun a => boreByte_of_bore (k.bore rfl) a⟩
  unfold codewordRead
  rw [if_neg (by simp [hm])]
  dsimp only
  exact (regFld_post _ (by decide) ..).trans (regFld_bumpReg_self _ _ 16 16 1 (by decide))

theorem codewordRead_relocates (part : BitVec 4) (lca : BitVec 28) (st : Fin 17) (bits : BitVec 10) (b : Fin 6)
    (hb : regFld s (ro pgNVF 0x90) 0 10 < bits.toNat) : Yields (.codewordRead part lca (some st) bits b) s fun t =>
      t.flash.relocs = s.flash.relocs ++ [some (part.toNat * 2 ^ 28 + lca.toNat)] ∧ t.chans = s.chans ∧ SameBore s t := by
  refine yields_of_exec (t := codewordRead s part.toNat lca.toNat (some st.val) bits.toNat b.val) rfl
    fun k => ⟨?_, k.chans rfl, fun a => boreByte_of_bore (k.bore rfl) a⟩
  unfold codewordRead
  rw [if_neg (by simp [hm])]
  dsimp only
  have hx : ∀ (p : Prop) [Decidable p], regFld (if p then bumpReg s (ro pgNVF 0x8C) 0 16 else s) (ro pgNVF 0x90) 0 10 =
      regFld s (ro pgNVF 0x90) 0 10 := fun p _ => by
    split
    · exact regFld_bumpReg_other s (by decide) ..
    · rfl
  rw [if_pos (by rw [regFld_putReg_below _ _ 16 5 _ 0 10 (by decide), hx]; simp [hb])]
  have hf : ∀ (p : Prop) [Decidable p], (if p then bumpReg s (ro pgNVF 0x8C) 0 16 else s).flash = s.flash := fun p _ => by
    split <;> rfl
  dsimp only
  rw [putReg_flash, hf]

theorem retireBlock_retires (src : Nat) (block : Word) (moves : Nat) :
    (retireBlock s src block moves).flash.relocs = s.flash.relocs ++ List.replicate moves none ∧
    regFld (retireBlock s src block moves) (ro pgNVF 0x98) 16 16 = (regFld s (ro pgNVF 0x98) 16 16 + 1) % 65536 ∧
    regFld (retireBlock s src block moves) (ro pgNVF 0x9C) 0 20 = regFld s (ro pgNVF 0x9C) 0 20 - 1 := by
  unfold retireBlock
  rw [if_neg (by simp [hm])]
  extract_lets _ s1
  have h1 : s1.flash.relocs = s.flash.relocs ++ List.replicate moves none := rfl
  have h8 : regFld s1 (ro pgNVF 0x98) 16 16 = (regFld s (ro pgNVF 0x98) 16 16 + 1) % 65536 :=
    regFld_bumpReg_self { s with flash := { s.flash with relocs := s.flash.relocs ++ List.replicate moves none } } _ 16 16 1 (by decide)
  have hc : regFld s1 (ro pgNVF 0x9C) 0 20 = regFld s (ro pgNVF 0x9C) 0 20 :=
    regFld_bumpReg_other { s with flash := { s.flash with relocs := s.flash.relocs ++ List.replicate moves none } } (by decide) ..
  have hlt : regFld s (ro pgNVF 0x9C) 0 20 < 2 ^ 20 := fld_lt ..
  obtain ⟨a, b, e⟩ := sparesCheck_flash (post s1 pgNVF src block) (regFld s1 (ro pgNVF 0x9C) 0 20 - 1)
  refine ⟨?_, ?_, ?_⟩
  · rw [e]
    dsimp only
    rw [post_flash]
    exact h1
  · refine (regFld_of_getReg (getReg_sparesCheck _ (by decide) _) 16 16).trans ?_
    exact (regFld_of_getReg (getReg_putReg_other _ _ _ _ _ _ (by decide)) 16 16).trans ((regFld_post s1 (by decide) ..).trans h8)
  · refine (regFld_of_getReg (getReg_sparesCheck _ (by decide) _) 0 20).trans ?_
    rw [regFld_putReg_self _ _ _ _ _ (by decide), hc]
    omega

theorem programFail_yields (b : Word) : Yields (.programFail b) s fun t => t.flash.relocs = s.flash.relocs ++ [none] ∧
    regFld t (ro pgNVF 0x98) 16 16 = (regFld s (ro pgNVF 0x98) 16 16 + 1) % 65536 ∧
    regFld t (ro pgNVF 0x9C) 0 20 = regFld s (ro pgNVF 0x9C) 0 20 - 1 :=
  ⟨_, rfl, retireBlock_retires s hm 1 b 1⟩

theorem eraseFail_yields (b : Word) : Yields (.eraseFail b) s fun t => t.flash.relocs = s.flash.relocs ∧
    regFld t (ro pgNVF 0x98) 16 16 = (regFld s (ro pgNVF 0x98) 16 16 + 1) % 65536 ∧
    regFld t (ro pgNVF 0x9C) 0 20 = regFld s (ro pgNVF 0x9C) 0 20 - 1 := by
  obtain ⟨h1, h2⟩ := retireBlock_retires s hm 2 b 0
  exact ⟨_, rfl, h1.trans (List.append_nil _), h2⟩

theorem wearLevelMove_yields (hi lo : Nat)
    (h : regFld s (ro pgNVF 0x94) 0 12 < regFld s (ro pgNVF 0xA0) 0 16 - regFld s (ro pgNVF 0xA0) 16 16) :
    Yields (.wearLevelMove hi lo) s fun t => regFld t (ro pgNVF 0xA0) 0 16 = hi % 65536 ∧
      regFld t (ro pgNVF 0xA0) 16 16 = lo % 65536 ∧ t.chans = s.chans := by
  have e := getReg_wearCheck s (off := ro pgNVF 0xA0) (by decide) (by decide) hi lo
  rw [getReg_setReg_self] at e
  refine yields_of_exec (t := wearCheck s hi lo) (if_pos ⟨hm, h⟩) fun k => ⟨?_, ?_, k.chans rfl⟩
  · unfold regFld
    rw [e]
    exact (fld_put_below _ 16 16 _ 0 16 (by decide)).trans (fld_put_self _ 0 16 _ (by decide))
  · unfold regFld
    rw [e]
    exact fld_put_self _ 16 16 _ (by decide)

theorem ifRetrain_yields : Yields .ifRetrain s fun t =>
    regFld t (ro pgNVF 0x88) 4 11 = (if band s = 5 then 1200 else 1600) ∧ t.flash = s.flash :=
  ⟨_, congrArg Host.Outcome.next (if_pos hm), trainIf_rate s⟩

end

/-! ### Durability (R470, R474, R475) -/

/-- What a change that becomes durable leaves of the store. -/
structure Settled (f g : Flash) : Prop where
  state : g.state = f.state
  pending : g.pending = f.pending
  mj : g.mj = f.mj
  medium : g.medium = f.medium
  readOnly : g.readOnly = f.readOnly
  blkRun : g.blkRun = f.blkRun

theorem Settled.rfl {f : Flash} : Settled f f := ⟨Eq.refl _, Eq.refl _, Eq.refl _, Eq.refl _, Eq.refl _, Eq.refl _⟩

theorem Settled.trans {f g h : Flash} (a : Settled f g) (b : Settled g h) : Settled f h :=
  ⟨b.state.trans a.state, b.pending.trans a.pending, b.mj.trans a.mj, b.medium.trans a.medium, b.readOnly.trans a.readOnly,
    b.blkRun.trans a.blkRun⟩

theorem notePrograms_settled (part off len : Nat) : Settled s.flash (notePrograms s part off len).flash :=
  ⟨rfl, rfl, rfl, rfl, rfl, rfl⟩

theorem noteRing_settled (p off len : Nat) : Settled s.flash (noteRing s p off len).flash := by
  unfold noteRing
  extract_lets size o s1
  have h1 : Settled s.flash s1.flash := notePrograms_settled ..
  clear_value s1
  split
  · exact h1.trans (notePrograms_settled ..)
  · exact h1

theorem makeDurable_settled (c : MetaChange) : Settled s.flash (makeDurable s c).flash := by
  cases c with
  | ring p off bytes =>
    unfold makeDurable
    dsimp only
    refine Settled.trans ?_ (noteRing_settled ..)
    exact ⟨rfl, rfl, rfl, rfl, rfl, rfl⟩
  | cal kind image len tag =>
    unfold makeDurable
    dsimp only
    split
    · rw [setRes_part _ (π := State.flash) (fun _ _ => rfl)]
      exact ⟨rfl, rfl, rfl, rfl, rfl, rfl⟩
    · exact ⟨rfl, rfl, rfl, rfl, rfl, rfl⟩

theorem foldl_makeDurable_settled (l : List MetaChange) : Settled s.flash (l.foldl makeDurable s).flash := by
  induction l generalizing s with
  | nil => exact Settled.rfl
  | cons c l ih => exact (makeDurable_settled s c).trans (ih (makeDurable s c))

theorem metaPage_flash : ∃ j, (metaPage s).flash = { s.flash with mj := j } ∧
    ∀ m, s.flash.medium = some m → j.seq = s.flash.mj.seq + 1 ∧ j.copies = some (metaPlaces m s.flash.mj.seq) := by
  unfold metaPage
  split
  next h => exact ⟨_, rfl, fun m hm => absurd (h.symm.trans hm) (by simp)⟩
  next m' h => exact ⟨_, rfl, fun m hm => by rw [Option.some.inj (hm.symm.trans h)]; exact ⟨rfl, rfl⟩⟩

/-- When a metadata page is complete nothing waits, and the journal has advanced (R474, R475). -/
theorem allDurable_flash : (allDurable s).flash.pending = [] ∧ (allDurable s).flash.state = s.flash.state ∧
    (allDurable s).flash.readOnly = s.flash.readOnly ∧ (allDurable s).flash.blkRun = s.flash.blkRun ∧
    ∀ m, s.flash.medium = some m → (allDurable s).flash.mj.seq = s.flash.mj.seq + 1 ∧
      (allDurable s).flash.mj.copies = some (metaPlaces m s.flash.mj.seq) := by
  obtain ⟨j, e, hj⟩ := metaPage_flash { s with flash := { s.flash with pending := [] } }
  have h := foldl_makeDurable_settled (metaPage { s with flash := { s.flash with pending := [] } }) s.flash.pending
  rw [e] at h
  exact ⟨h.pending, h.state, h.readOnly, h.blkRun, fun m hm => by rw [show (allDurable s).flash.mj = j from h.mj]; exact hj m hm⟩

theorem metadataDurable_yields (hm : mounted s.flash = true) : Yields .metadataDurable s fun t => t.flash.pending = [] ∧
    t.flash.state = s.flash.state ∧ t.chans = s.chans ∧ ∀ m, s.flash.medium = some m →
      t.flash.mj.seq = s.flash.mj.seq + 1 ∧ t.flash.mj.copies = some (metaPlaces m s.flash.mj.seq) := by
  obtain ⟨hp, hs, -, -, hj⟩ := allDurable_flash s
  exact yields_of_exec (t := allDurable s) (congrArg Host.Outcome.next (if_pos hm)) fun k => ⟨hp, hs, k.chans rfl, hj⟩

/-! ### Scrubbing (R480 to R483) -/

/-- Pages that the scrubber may read in a second (NF_SCRUB_MAX). -/
def scrubMost (s : State) : Nat := regFld s (ro pgNVF 0x78) 0 16 * 10

theorem scrubMost_lt : scrubMost s < 2 ^ 20 := by
  have h : regFld s (ro pgNVF 0x78) 0 16 < 2 ^ 16 := fld_lt ..
  unfold scrubMost
  omega

/-- The length of a pass in seconds (R480). -/
def scrubPass (s : State) : Nat := scrubInterval (band s) * regFld s (ro pgNVF 0x40) 8 6 / 100

section
variable (hm : mounted s.flash = true) (he : bit (getReg s (ro pgNVF 0x40)) 0 = true) (hb : band s ≠ 5)
include hm he hb

theorem scrubRate_rates (left past : Nat) : (past < scrubPass s →
      regFld (scrubRate s left past) (ro pgNVF 0x7C) 0 20 = min ((left + (scrubPass s - past) - 1) / (scrubPass s - past)) (scrubMost s)) ∧
    (scrubPass s ≤ past → regFld (scrubRate s left past) (ro pgNVF 0x7C) 0 20 = scrubMost s ∧ (scrubRate s left past).flash.overdue = true) := by
  have hlt := scrubMost_lt s
  unfold scrubRate
  rw [if_neg (by simp [hm, he]), if_neg hb]
  extract_lets most pass late rate total prog overdue _ s1
  have e : regFld (setReg s1 (ro pgNVF 0x7C) (pack [(0, 20, rate), (20, 10, prog), (30, 1, b2n overdue)])) (ro pgNVF 0x7C) 0 20 = rate % 2 ^ 20 := by
    unfold regFld
    rw [getReg_setReg_self]
    exact (fld_pack_three _ _ _ 0 20 20 10 30 1 (by decide) (by decide) (by decide)).1
  rw [e]
  refine ⟨fun h => ?_, fun h => ?_⟩
  · have hl : late = false := decide_eq_false (Nat.not_le.mpr h)
    have hr : rate = min ((left + (scrubPass s - past) - 1) / (scrubPass s - past)) (scrubMost s) := by
      unfold rate
      rw [hl]
      rfl
    rw [hr]
    exact Nat.mod_eq_of_lt (lt_of_le_of_lt (Nat.min_le_right ..) hlt)
  · have hl : late = true := decide_eq_true h
    have hr : rate = scrubMost s := by
      unfold rate
      rw [hl]
      rfl
    have ho : overdue = true := by
      unfold overdue
      rw [hl]
      rfl
    rw [hr]
    exact ⟨Nat.mod_eq_of_lt hlt, ho⟩

theorem scrubPassEnd_yields : Yields .scrubPassEnd s fun t =>
    regFld t (ro pgNVF 0x80) 0 16 = (regFld s (ro pgNVF 0x80) 0 16 + 1) % 65536 ∧
    t.flash.overdue = false ∧ t.flash.passPages = 0 ∧ t.flash.coldPass = s.flash.coldDue ∧ t.flash.coldDue = [] := by
  refine ⟨_, if_neg (by simp [hm, he, hb]), ?_, rfl, rfl, rfl, rfl⟩
  have h := regFld_bumpReg_self { s with flash := { s.flash with coldPass := [] } } (ro pgNVF 0x80) 0 16 1 (by decide)
  refine Eq.trans ?_ h
  generalize bumpReg { s with flash := { s.flash with coldPass := [] } } (ro pgNVF 0x80) 0 16 = u
  unfold newPass
  extract_lets _ s1
  have h1 : getReg s1 (ro pgNVF 0x80) = getReg u (ro pgNVF 0x80) := getReg_flash u _ _
  clear_value s1
  refine regFld_of_getReg (Eq.trans ?_ h1) 0 16
  exact (getReg_putReg_other _ _ _ _ _ _ (by decide)).trans (getReg_putReg_other _ _ _ _ _ _ (by decide))

end

theorem scrubDebt_yields (n : BitVec 20) (hm : mounted s.flash = true) (hb : band s = 5) (hn : n ≠ 0) : Yields (.scrubDebt n) s fun t =>
    regFld t (ro pgNVF 0x84) 0 20 = min (regFld s (ro pgNVF 0x84) 0 20 + n.toNat) (2 ^ 20 - 1) ∧ t.chans = s.chans := by
  refine yields_of_exec (if_neg (by simp [hm, hb]; exact hn)) fun k => ⟨?_, k.chans rfl⟩
  refine (regFld_post _ (by decide) ..).trans ?_
  unfold satReg
  rw [regFld_putReg_self _ _ _ _ _ (by decide)]
  exact Nat.mod_eq_of_lt (lt_of_le_of_lt (Nat.min_le_right ..) (by decide))

/-! ### Rings (R468 to R473) -/

theorem length_recordBytes (type : Byte) (rseq : Word) (time : Nat) (l : List Byte) (damaged : Bool) :
    (recordBytes type rseq time l damaged).length = 16 + (l.length + 15) / 16 * 16 := by
  unfold recordBytes pad16 wordBytes
  simp only [List.length_append, List.length_cons, List.length_nil, List.length_replicate]
  omega

/-- One record of `n` payload bytes has been appended to ring `p` (R468, R472, R475). -/
structure Appended (p n : Nat) (f g : Flash) : Prop where
  next : ringNext g p = ringNext f p + 16 + (n + 15) / 16 * 16
  seq : tabGet (fun _ => (0 : Word)) g.rseq p = tabGet (fun _ => (0 : Word)) f.rseq p + 1
  head : ringHead g p = ringHead f p
  waits : g.pending.length = f.pending.length + 1
  queue : g.journalQ = f.journalQ

theorem appended_of (f : Flash) (p n stop : Nat) (recs : Tab (List Nat)) (tails : Tab Nat) (c : MetaChange)
    (h : stop = ringNext f p + (16 + (n + 15) / 16 * 16)) : Appended p n f { f with
      rseq := tabSet (fun _ => (0 : Word)) f.rseq p (tabGet (fun _ => (0 : Word)) f.rseq p + 1), recs := recs, tails := tails,
      nexts := tabSet (fun _ => 0) f.nexts p stop, pending := f.pending ++ [c] } :=
  ⟨(tabGet_tabSet_self (fun _ => 0) f.nexts p stop).trans (h.trans (Nat.add_assoc ..).symm), tabGet_tabSet_self .., rfl,
    List.length_append, rfl⟩

theorem appendRecord_appends (p : Nat) (type : Byte) (l : List Byte) (damaged : Bool) :
    Appended p l.length s.flash (appendRecord s p type l damaged).flash :=
  appended_of s.flash p l.length _ _ _ _
    (congrArg (ringNext s.flash p + ·) (length_recordBytes type (tabGet (fun _ => (0 : Word)) s.flash.rseq p) (shelfNow s) l damaged))

theorem length_wordBytes (l : List Word) : (l.flatMap wordBytes).length = 4 * l.length := by
  induction l with
  | nil => rfl
  | cons w l ih =>
    rw [List.flatMap_cons, List.length_append, ih, List.length_cons]
    change 4 + 4 * l.length = _
    omega

section
variable (part : Fin 3) (type : BitVec 8) (l : List Byte) (hc : coreRuns s = true) (ho : ringOpen s (part.val + 2) = true)
include hc ho

/-- The record of a type that waits for the core's copy to JOURNAL; none for another ring. -/
def waitingRecord (s : State) (part : Fin 3) (type : Byte) : Option JItem :=
  if part.val = 0 then s.flash.journalQ.find? (fun it => it.type == type) else none

theorem ringAppend_new (hw : waitingRecord s part type = none) : Yields (.ringAppend part type l) s fun t =>
    Appended (part.val + 2) l.length s.flash t.flash := by
  refine ⟨appendRecord s (part.val + 2) type l, ?_, appendRecord_appends ..⟩
  change execRingAppend part type l s = _
  unfold execRingAppend
  dsimp only
  rw [if_neg (by simp [hc, ho])]
  have e : (if part.val + 2 = 2 then s.flash.journalQ.find? (fun it => it.type == type) else none) = none := by
    unfold waitingRecord at hw
    split at hw
    · rw [if_pos (by omega)]
      exact hw
    · exact if_neg (by omega)
  rw [e]

theorem ringAppend_waiting (it : JItem) (hw : waitingRecord s part type = some it) (hs : it.src = none) :
    Yields (.ringAppend part type l) s fun t =>
      Appended (part.val + 2) (4 * it.words.length) { s.flash with journalQ := s.flash.journalQ.erase it } t.flash := by
  have hp : part.val = 0 := by
    by_contra hn
    rw [show waitingRecord s part type = none from if_neg hn] at hw
    cases hw
  have e : (if part.val + 2 = 2 then s.flash.journalQ.find? (fun it => it.type == type) else none) = some it := by
    rw [if_pos (by omega)]
    exact (if_pos hp).symm.trans hw
  refine ⟨appendRecord { s with flash := { s.flash with journalQ := s.flash.journalQ.erase it } } 2 type
    (it.words.flatMap wordBytes) false, ?_, ?_⟩
  · change execRingAppend part type l s = _
    unfold execRingAppend
    dsimp only
    rw [if_neg (by simp [hc, ho]), e]
    dsimp only
    unfold itemBytes
    rw [hs]
  · have h := appendRecord_appends { s with flash := { s.flash with journalQ := s.flash.journalQ.erase it } } 2 type
      (it.words.flatMap wordBytes) false
    rw [length_wordBytes] at h
    rw [hp]
    exact h

end

theorem foldl_accCheck_clean (hb : s.bore.badPar = []) (l : List Nat) (b : Bool) :
    (l.foldl (fun (p : State × Bool) i => let q := accCheck p.1 i; (q.1, p.2 && q.2)) (s, b)).1 = s := by
  induction l generalizing b with
  | nil => rfl
  | cons i l ih =>
    rw [List.foldl_cons]
    dsimp only
    rw [accCheck_clean s hb]
    exact ih _

section
variable (sections : List (Fin 6)) (he : bit (getReg s (ro pgNVF 0x40)) 1 = true) (hc : coreRuns s = true)
include he hc

theorem telemetryInterval_appends (hb : s.bore.badPar = []) (hl : level s = 0) (ho : ringOpen s 3 = true) :
    Yields (.telemetryInterval sections) s fun t => regFld t (ro pgNVF 0xAC) 0 16 = (regFld s (ro pgNVF 0xAC) 0 16 + 1) % 65536 ∧
      t.flash.pending.length = s.flash.pending.length + 1 := by
  have e : exec (.telemetryInterval sections) s = .next (appendInterval s sections) :=
    (if_neg (by simp [he, hc])).trans (if_pos ⟨hl, ho⟩)
  refine ⟨_, e, ?_⟩
  unfold appendInterval
  extract_lets read r
  have hr : r.1 = s := foldl_accCheck_clean s hb read true
  clear_value r
  rw [hr]
  generalize intervalPayload s sections = l
  have h := (appendRecord_appends s 3 32 l (!r.2)).waits
  have hg := getReg_of_regs (appendRecord_leaves s 3 32 l (!r.2)).1 (ro pgNVF 0xAC)
  generalize appendRecord s 3 32 l (!r.2) = u at h hg ⊢
  exact ⟨(regFld_bumpReg_self u _ 0 16 1 (by decide)).trans (by rw [regFld_of_getReg hg 0 16]; rfl), h⟩

theorem telemetryInterval_lost (h : level s ≠ 0 ∨ ringOpen s 3 = false) : Yields (.telemetryInterval sections) s fun t =>
    regFld t (ro pgNVF 0xAC) 16 16 = (regFld s (ro pgNVF 0xAC) 16 16 + 1) % 65536 ∧ t.flash = s.flash := by
  have hn : ¬ (level s = 0 ∧ ringOpen s 3 = true) := by
    rintro ⟨h0, h1⟩
    rcases h with h | h
    · exact h h0
    · rw [h] at h1
      cases h1
  refine ⟨_, (if_neg (by simp [he, hc])).trans (if_neg hn), ?_, post_flash ..⟩
  exact (regFld_post _ (by decide) ..).trans (regFld_bumpReg_self s _ 16 16 1 (by decide))

end

theorem appendRecord_fd (p : Nat) (type : Byte) (l : List Byte) (damaged : Bool) : (appendRecord s p type l damaged).fd = s.fd := by
  have h : ∀ v : Flash, ({ s with flash := v } : State).fd = s.fd := fun _ => rfl
  exact h _

theorem appendRecord_marks (p : Nat) (type : Byte) (l : List Byte) (damaged : Bool) :
    (appendRecord s p type l damaged).flash.readOnly = s.flash.readOnly ∧ (appendRecord s p type l damaged).flash.blkRun = s.flash.blkRun := by
  have h : ∀ a b c d e, ({ s.flash with rseq := a, recs := b, tails := c, nexts := d, pending := e } : Flash).readOnly = s.flash.readOnly ∧
      ({ s.flash with rseq := a, recs := b, tails := c, nexts := d, pending := e } : Flash).blkRun = s.flash.blkRun :=
    fun _ _ _ _ _ => ⟨rfl, rfl⟩
  exact h ..

/-- The core's copy of a trip capture: a record in CAPTURE and one in JOURNAL, and the recorder released (R473). -/
theorem execTripCaptureWrite_writes (hv : s.fd.capValid = true) (hc : coreRuns s = true) (hl : idlUp s = true)
    (ho : ringOpen s 4 = true) : ∃ l ws, exec .tripCaptureWrite s =
      .next (trReleaseFx (journal (appendRecord s 4 64 l) 5 ws) (bit (getReg (journal (appendRecord s 4 64 l) 5 ws) (ro pgTRIP 0x40)) 1)) := by
  change ∃ l ws, execTripCaptureWrite s = _
  unfold execTripCaptureWrite
  rw [if_neg (by simp [hv, hc, hl, ho])]
  extract_lets words rec' s1 s2
  refine ⟨words.flatMap wordBytes, rec', ?_⟩
  clear_value words rec'
  rfl

theorem trReleaseFx_journal (u : State) (ws : List Word) (arm : Bool) (hs : u.fd.supply = true) :
    (trReleaseFx (journal u 5 ws) arm).fd.capValid = false ∧ (trReleaseFx (journal u 5 ws) arm).flash.pending = u.flash.pending := by
  unfold trReleaseFx
  rw [if_neg (by rw [show (journal u 5 ws).fd = u.fd from rfl, hs]; decide)]
  exact ⟨rfl, rfl⟩

theorem tripCaptureWrite_yields (hv : s.fd.capValid = true) (hs : s.fd.supply = true) (hc : coreRuns s = true) (hl : idlUp s = true)
    (ho : ringOpen s 4 = true) : Yields .tripCaptureWrite s fun t =>
      t.fd.capValid = false ∧ t.flash.pending.length = s.flash.pending.length + 1 ∧ SameFeedGates s t := by
  obtain ⟨l, ws, e⟩ := execTripCaptureWrite_writes s hv hc hl ho
  refine yields_of_exec e fun k => ?_
  obtain ⟨h1, h2⟩ := trReleaseFx_journal (appendRecord s 4 64 l) ws
    (bit (getReg (journal (appendRecord s 4 64 l) 5 ws) (ro pgTRIP 0x40)) 1) ((congrArg FeedDie.supply (appendRecord_fd ..)).trans hs)
  exact ⟨h1, (congrArg List.length h2).trans (appendRecord_appends s 4 64 l false).waits, sameFeedGates_of_keeps k rfl rfl⟩

/-! ### NF_CMD and the end of a quiesce (R486, R489, R490) -/

section
variable {fn : Fn} (hw : mayWrite s fn pgNVF 0x44 0 = true)
include hw

theorem nfQuiesce_begins (h : s.flash.state = .ready ∨ s.flash.state = .readOnly) : Yields (.nfQuiesce fn) s fun t =>
    t.flash.state = .quiescing := by
  refine ⟨_, congrArg Host.Outcome.next (wr_of_mayWrite s fn _ _ _ _ hw), ?_⟩
  unfold nfCmd quiesce
  simp only [if_pos h]

theorem nfQuiesce_refused (h1 : s.flash.state ≠ .ready) (h2 : s.flash.state ≠ .readOnly) : Yields (.nfQuiesce fn) s fun t =>
    t.flash = s.flash := by
  refine ⟨_, congrArg Host.Outcome.next (wr_of_mayWrite s fn _ _ _ _ hw), ?_⟩
  unfold nfCmd
  simp only [if_neg (not_or.mpr ⟨h1, h2⟩)]
  exact post_flash ..

theorem nfResume_resumes (h : s.flash.state = .quiesced) : Yields (.nfResume fn) s fun t =>
    t.flash.state = if s.flash.readOnly then .readOnly else .ready := by
  refine ⟨_, congrArg Host.Outcome.next (wr_of_mayWrite s fn _ _ _ _ hw), ?_⟩
  unfold nfCmd resumeFlash
  simp only [if_pos h]

theorem nfScrubNow_starts (hm : mounted s.flash = true) (hb : band s ≠ 5) : Yields (.nfScrubNow fn) s fun t =>
    regFld t (ro pgNVF 0x7C) 20 10 = 0 ∧ regFld t (ro pgNVF 0x7C) 0 20 = regFld s (ro pgNVF 0x78) 0 16 * 10 := by
  refine ⟨_, congrArg Host.Outcome.next (wr_of_mayWrite s fn _ _ _ _ hw), ?_⟩
  have hb' : band (newPass s) ≠ 5 := hb
  have h78 : getReg (newPass s) (ro pgNVF 0x78) = getReg s (ro pgNVF 0x78) := by
    unfold newPass
    dsimp only
    rw [getReg_putReg_other _ _ _ _ _ _ (by decide), getReg_putReg_other _ _ _ _ _ _ (by decide)]
    rfl
  have h7C : regFld (newPass s) (ro pgNVF 0x7C) 20 10 = 0 := by
    unfold newPass
    dsimp only
    rw [regFld_putReg_below _ _ 30 1 _ 20 10 (by decide), regFld_putReg_self _ _ 20 10 _ (by decide)]
    rfl
  have hlt := scrubMost_lt s
  unfold nfCmd
  simp only [if_pos hm, if_neg hb']
  rw [regFld_putReg_above _ _ 0 20 _ 20 10 (by decide), regFld_putReg_self _ _ 0 20 _ (by decide), regFld_of_getReg h78 0 16]
  exact ⟨h7C, Nat.mod_eq_of_lt hlt⟩

end

theorem sendToFeed_flash (f : Frame) : (sendToFeed s f).flash = s.flash := by
  unfold sendToFeed
  split <;> rfl

theorem feedAccess_flash (w : FeedWait) : (feedAccess s w).flash = s.flash := by
  unfold feedAccess
  split
  · rfl
  · split
    · rfl
    · unfold feedSend
      split
      · exact (sendToFeed_flash ..).trans (sendToFeed_flash ..)
      · exact sendToFeed_flash ..

theorem orderlyStop_flash : (orderlyStop s).flash = s.flash := by
  unfold orderlyStop
  extract_lets s1 off s2
  have hoff : ∀ (u : State) f, (off u f).flash = u.flash := fun u f => feedAccess_flash ..
  have h1 : s1.flash = s.flash := feedAccess_flash ..
  have h2 : s2.flash = s.flash := by
    unfold s2
    split
    · exact (hoff ..).trans h1
    · exact h1
  split
  · exact h1
  · split
    · exact (hoff ..).trans h2
    · exact h2

theorem quiesceDone_yields (hs : s.flash.state = .quiescing) : Yields .quiesceDone s fun t => t.flash.pending = [] ∧ t.chans = s.chans ∧
    t.flash.state = if s.flash.blkRun then (if s.flash.readOnly then .readOnly else .ready) else .quiesced := by
  have key : ∃ t, exec .quiesceDone s = .next t ∧ t.flash.pending = [] ∧
      t.flash.state = if s.flash.blkRun then (if s.flash.readOnly then .readOnly else .ready) else .quiesced := by
    change ∃ t, execQuiesceDone s = .next t ∧ _
    unfold execQuiesceDone
    rw [if_neg (not_not.mpr hs)]
    extract_lets s1 s2 again _ s3 s4
    have h1 : s1.flash.readOnly = s.flash.readOnly ∧ s1.flash.blkRun = s.flash.blkRun := by
      unfold s1
      split
      · exact appendRecord_marks ..
      · exact ⟨rfl, rfl⟩
    obtain ⟨hp, -, hro, hbr, -⟩ := allDurable_flash s1
    have h4 : s4.flash.pending = [] ∧ s4.flash.state = if s.flash.blkRun then (if s.flash.readOnly then .readOnly else .ready) else .quiesced := by
      unfold s4 again
      rw [show s2.flash.blkRun = s.flash.blkRun from hbr.trans h1.2]
      cases s.flash.blkRun with
      | false => exact ⟨hp, rfl⟩
      | true =>
        refine ⟨hp, ?_⟩
        change (if s2.flash.readOnly = true then FlashState.readOnly else .ready) = _
        rw [show s2.flash.readOnly = s.flash.readOnly from hro.trans h1.1]
        rfl
    refine ⟨_, rfl, ?_⟩
    split
    · rw [orderlyStop_flash]
      exact h4
    · exact h4
  obtain ⟨t, e, hp, hst⟩ := key
  exact yields_of_exec e fun k => ⟨hp, k.chans rfl, hst⟩

/-- Settles O54, one lemma per command; an append is stated once for the three rings. -/
theorem flashStore : Obligations.FlashStore := by
  unfold Obligations.FlashStore
  intro s
  refine ⟨flashMount_yields s, mountDone_yields s, fun hm => ?_, fun part type l hc ho => ?_,
    fun he hc => ⟨fun sections => telemetryInterval_appends s sections he hc, fun sections => telemetryInterval_lost s sections he hc⟩,
    tripCaptureWrite_yields s, fun fn hw => ⟨nfQuiesce_begins s hw, nfQuiesce_refused s hw, nfResume_resumes s hw, nfScrubNow_starts s hw⟩,
    quiesceDone_yields s⟩
  · refine ⟨codewordRead_fails s hm, codewordRead_relocates s hm, relocationDone_yields s,
      fun b => ⟨programFail_yields s hm b, eraseFail_yields s hm b⟩, wearLevelMove_yields s hm, metadataDurable_yields s hm,
      ifRetrain_yields s hm, fun left past he hb => ?_, fun n hb hn => scrubDebt_yields s n hm hb hn⟩
    obtain ⟨h1, h2⟩ := scrubRate_rates s hm he hb left past
    exact ⟨fun h => ⟨_, rfl, h1 h⟩, fun h => ⟨_, rfl, h2 h⟩, scrubPassEnd_yields s hm he hb⟩
  · refine ⟨fun hw => ?_, fun it hw hs => ?_⟩
    · obtain ⟨t, e, h⟩ := ringAppend_new s part type l hc ho hw
      exact ⟨t, e, ⟨h.next, h.seq, h.head, h.waits⟩, h.queue⟩
    · obtain ⟨t, e, h⟩ := ringAppend_waiting s part type l hc ho it hw hs
      exact ⟨t, e, ⟨h.next, h.seq, h.head, h.waits⟩, h.queue⟩

end Sys2Proof.Machine
end

