-- ==== Sys2Proof/Proofs/ReedSequencers.lean ====
section
/-! O48. Conversions, delays, start-up, modes, triggers, urgent and housekeeping conversions of a reed (R253 to R291). -/

namespace Sys2Proof.Machine

open Sys2Proof.Safety (Yields output mayWrite mayRead SameOutputs SameBore)

variable (s : State)

/-! ### What a failing word leaves of the reeds -/

theorem dropTag_reeds (tag : Nat) : (dropTag s tag).reeds = s.reeds :=
  Eq.trans (Eq.refl (freeTag s tag).reeds) (reeds_of_quiet (freeTag_quiet ..))

theorem coreRestart_reeds : (coreRestart s).reeds = s.reeds := by
  unfold coreRestart
  split
  · rfl
  · extract_lets s1 _ s2
    have h2 : s2.reeds = s.reeds := Eq.trans (Eq.refl s1.reeds) (post_reeds ..)
    refine (foldl_part s2 (π := State.reeds) (fun u c => ?_) _).trans h2
    exact (dropTag_reeds ..).trans ((reeds_of_quiet (complete_quiet ..)).trans (post_reeds ..))

theorem hardFail_reeds (a : Nat) : (hardFail s a).reeds = s.reeds := by
  unfold hardFail
  extract_lets bank row _ s1 s2 s3
  have h3 : s3.reeds = s.reeds := (post_reeds ..).trans rfl
  clear_value s3
  split
  · split
    · exact (post_reeds s3 _ _ _ _).trans h3
    · exact h3
  · split
    · rfl
    · split <;> rfl

theorem parFail_reeds (a : Nat) : (parFail s a).1.reeds = s.reeds := by
  unfold parFail
  extract_lets r addr s1 s2 s3
  have h1 : s1.reeds = s.reeds := by
    unfold s1
    split <;> rfl
  have h2 : s2.reeds = s.reeds := by
    unfold s2
    split
    · exact (coreRestart_reeds _).trans ((hardFail_reeds ..).trans h1)
    · exact (hardFail_reeds ..).trans h1
  have hm : ∀ u : State, (u.markBad a).reeds = u.reeds := fun u => by
    unfold State.markBad
    split <;> rfl
  clear_value s2
  have h3 : s3.reeds = s.reeds := (post_reeds ..).trans ((bumpReg_reeds ..).trans h2)
  clear_value s3
  split
  · split
    · exact h3
    · exact (hm _).trans h3
  · dsimp only [borePost]
    rw [post_reeds, bumpReg_reeds, hm]
    exact h2

/-- The reed whose sequence table holds a word. -/
def tableReed (w : Nat) : Nat := (w - 0xAC_0000) / 8 / 64

theorem regionNote_reeds (w : Nat) : (regionNote s w).reeds = s.reeds ∨ (boreRegion w = 6 ∧
    (regionNote s w).reeds = (setReed s (tableReed w) { reed s (tableReed w) with parity := (reed s (tableReed w)).parity + 1 }).reeds) := by
  unfold regionNote
  split
  · exact .inl (post_reeds ..)
  · exact .inl (post_reeds ..)
  next h => exact .inr ⟨h, post_reeds ..⟩
  · exact .inl rfl

theorem foldl_parFail_reeds (l : List Nat) (p : State × Bool) :
    (l.foldl (fun p w => let r := parFail p.1 w; (r.1, p.2 && r.2)) p).1.reeds = p.1.reeds := by
  induction l generalizing p with
  | nil => rfl
  | cons w l ih => exact (ih _).trans (parFail_reeds ..)

/-- A unit that is read changes at most the count of failures of the reed whose table it belongs to. -/
theorem parReads_reeds (a n : Nat) : (parReads s a n).1.reeds = s.reeds ∨ ∃ w, a ≤ w ∧ w < a + 4 * n ∧ boreRegion w = 6 ∧
    (parReads s a n).1.reeds = (setReed s (tableReed w) { reed s (tableReed w) with parity := (reed s (tableReed w)).parity + 1 }).reeds := by
  unfold parReads
  split
  · exact .inl rfl
  next w ws hf =>
    have hw : w ∈ ((List.range n).map (fun i => a + 4 * i)).filter s.bore.badPar.contains := by
      rw [hf]
      exact List.mem_cons_self
    obtain ⟨i, hi, e⟩ := List.mem_map.mp (List.mem_of_mem_filter hw)
    have hi' := List.mem_range.mp hi
    dsimp only at e ⊢
    have hp := foldl_parFail_reeds (w :: ws) (s, true)
    generalize (w :: ws).foldl (fun p w => let r := parFail p.1 w; (r.1, p.2 && r.2)) (s, true) = p at hp ⊢
    rcases regionNote_reeds p.1 w with h | ⟨h6, h⟩
    · exact .inl (h.trans hp)
    · refine .inr ⟨w, by omega, by omega, h6, h.trans ?_⟩
      unfold setReed reed
      dsimp only at hp ⊢
      rw [hp]

theorem boreRegion_ne_six {a : Nat} (h : 0xC0_0000 ≤ a) : boreRegion a ≠ 6 := by
  unfold boreRegion
  rw [if_neg (by omega), if_neg (by omega), if_neg (by omega), if_neg (by omega), if_neg (by omega), if_neg (by omega),
    if_neg (by omega), if_neg (by omega)]
  repeat' split
  all_goals decide

/-- Words of the accumulators lie in no sequence table. -/
theorem parReads_acc_reeds (i n : Nat) : (parReads s (accAddr i) n).1.reeds = s.reeds := by
  rcases parReads_reeds s (accAddr i) n with h | ⟨w, hw, -, h6, -⟩
  · exact h
  · exact absurd h6 (boreRegion_ne_six (Nat.le_trans (Nat.le_add_right ..) hw))

/-! ### What a sample leaves -/

/-- A property of the machine that a sample which enters an accumulator keeps: nothing it writes bears on it (R294 to R301). -/
structure Sampled (P : State → Prop) : Prop where
  read : ∀ {s i}, P s → P (parReads s (accAddr i) 4).1
  count : ∀ {s}, P s → P (bumpReg s (ro pgACC 0x4C) 0 16)
  accs : ∀ {s v}, P s → P { s with accs := v }
  words : ∀ {s a ws}, P s → P (setBores s a ws)
  post : ∀ {s page src d sub}, P s → P (post s page src d sub)
  power : ∀ {s ch v}, P s → P (powerUpdate s ch v)
  tiles : ∀ {s v}, P s → P { s with tiles := v }
  loops : ∀ {s v}, P s → P { s with loops := v }

namespace Sampled

variable {P : State → Prop} (h : Sampled P) {s : State}
include h

theorem accParity {i : Nat} (hs : P s) : P (accParity s i) := by
  unfold Machine.accParity accRestart accSet
  extract_lets s1 w3 w3' _ s2
  have h1 : P s1 := h.count hs
  have h2 : P s2 := h.accs h1
  exact h.post (h.words h2)

theorem accCheck {i : Nat} (hs : P s) : P (accCheck s i).1 := by
  unfold Machine.accCheck
  extract_lets p
  have hp : P p.1 := h.read hs
  split
  · exact hp
  · exact h.accParity hp

theorem loopCheck {ch : Nat} (hs : P s) : P (loopCheck s ch) := by
  unfold Machine.loopCheck
  dsimp only
  split
  · exact h.accCheck hs
  · exact h.accCheck (h.accCheck hs)

theorem loopMeasure {i : Nat} (hs : P s) : P (loopMeasure s i) := by
  unfold Machine.loopMeasure
  refine List.foldlRecOn (motive := P) _ _ hs fun u hu ch _ => ?_
  dsimp only
  split
  · exact hu
  · exact h.loops (h.loopCheck hu)

theorem accFeeds {i : Nat} {v : Int} (hs : P s) : P (accFeeds s i v) := by
  unfold Machine.accFeeds
  dsimp only
  split
  · exact h.power hs
  · split
    · exact h.tiles hs
    · split
      · exact h.loopMeasure hs
      · exact hs

theorem accEnter {i : Nat} {x : Int} {ovr : Bool} (hs : P s) : P (accEnter s i x ovr) := by
  unfold Machine.accEnter
  split
  · exact hs
  · extract_lets s1 cfg w0 w3 mark zeroed mn mx fill r blockOvr _ s2 w3' m1 m2
    have h2 : P s2 := h.accs (h.accCheck hs)
    clear_value s2
    split
    · exact h.words h2
    · extract_lets w0' s3 s4
      have h3 : P s3 := h.words h2
      refine h.accFeeds (?_ : P s4)
      unfold s4
      split
      · exact h.post h3
      · exact h3

end Sampled

/-- What rests on neither the reeds nor the Bore, and on none of a sample's other effects, is kept by a sample. -/
theorem Rests.sampled {P : State → Prop} (h : Rests P) (count : ∀ {s : State}, P s → P (bumpReg s (ro pgACC 0x4C) 0 16))
    (accs : ∀ {s : State} {v}, P s → P { s with accs := v }) (words : ∀ {s a ws}, P s → P (setBores s a ws))
    (power : ∀ {s ch v}, P s → P (powerUpdate s ch v)) (tiles : ∀ {s : State} {v}, P s → P { s with tiles := v })
    (loops : ∀ {s : State} {v}, P s → P { s with loops := v }) : Sampled P where
  read hs := h.parReads hs
  count := count
  accs := accs
  words := words
  post hs := h.post hs
  power := power
  tiles := tiles
  loops := loops

theorem reeds_sampled (l : Tab ReedSt) : Sampled (fun u => u.reeds = l) where
  read hu := (parReads_acc_reeds _ _ 4).trans hu
  count hu := hu
  accs hu := hu
  words hu := (setBores_part _ (π := State.reeds) (fun _ _ => rfl) (fun _ _ => rfl) (fun _ _ => rfl) ..).trans hu
  post hu := (post_reeds ..).trans hu
  power hu := hu
  tiles hu := hu
  loops hu := hu

theorem cal_sampled (c : Cal) : Sampled (fun u => u.cal = c) :=
  (cal_rests c).sampled id id (fun hu => (setBores_part _ (π := State.cal) (fun _ _ => rfl) (fun _ _ => rfl) (fun _ _ => rfl) ..).trans hu)
    id id id

theorem seqLive_iff : seqLive s = true ↔ (tab s kMS).loaded = true ∧ domOn s 11 = true := by
  unfold seqLive
  exact Bool.and_eq_true_iff

theorem seqLive_setReed (r : Nat) (x : ReedSt) : seqLive (setReed s r x) = seqLive s := rfl

theorem seqLive_rests : Rests (fun u => seqLive u = true) where
  reeds h := h
  bore h := h
  boreReg _ _ h := h
  post h := by
    rw [seqLive_iff] at h ⊢
    unfold tab domOn at h ⊢
    rw [post_tabs, post_power]
    exact h
  journal h := h
  coreRestart {u} h := by
    rw [seqLive_iff] at h ⊢
    refine ⟨(staysLoaded_coreRestart (s := u) ⟨h.1, rfl⟩).1, ?_⟩
    unfold domOn at h ⊢
    rw [coreRestart_power]
    exact h.2

theorem seqLive_sampled : Sampled (fun u => seqLive u = true) :=
  seqLive_rests.sampled id id
    (fun hu => (setBores_part _ (π := seqLive) (fun _ _ => rfl) (fun _ _ => rfl) (fun _ _ => rfl) ..).trans hu) id id id

/-- The urgent register of MEAS: reed, result and count. -/
abbrev urgentStat : Nat := ro pgMEAS 0x78

theorem urgentStat_rests (w : Word) : Rests (fun u => getReg u urgentStat = w) :=
  body_rests (by decide) (by decide) (by decide) w

theorem urgentStat_sampled (w : Word) : Sampled (fun u => getReg u urgentStat = w) :=
  (urgentStat_rests w).sampled (fun hu => (getReg_putReg_other _ _ _ _ _ _ (by decide)).trans hu) id
    (fun hu => (getReg_setBores_steady _ (by decide) ..).trans hu) id id id

theorem output_rests (f : Nat → BitVec 16 × Bool) : Rests (fun u => ∀ ch, output u ch = f ch) where
  reeds h := h
  bore h := h
  boreReg _ _ h := h
  post h := fun ch => (sameOutputs_of_chans (post_chans ..) ch).trans (h ch)
  journal h := h
  coreRestart h := fun ch => (sameOutputs_of_chans ((coreRestart_keeps (may := { bore := true }) rfl Keeps.rfl).chans rfl) ch).trans (h ch)

theorem output_powerUpdate (i : Nat) (v : Int) (ch : Nat) : output (powerUpdate s i v) ch = output s ch := by
  unfold powerUpdate output
  dsimp only
  rw [chan_setChan]
  split
  next e => rw [e]
  · rfl

theorem output_sampled (f : Nat → BitVec 16 × Bool) : Sampled (fun u => ∀ ch, output u ch = f ch) :=
  (output_rests f).sampled id id
    (fun hu ch => (setBores_part _ (π := fun u => output u ch) (fun _ _ => rfl) (fun _ _ => rfl) (fun _ _ => rfl) ..).trans (hu ch)) (fun hu ch => (output_powerUpdate ..).trans (hu ch)) id id

/-! ### A delivered result -/

/-- An open-wire result changes of the machine at most the open marks of the reed, and may send a message (R285). -/
theorem openWire_marks (r : Nat) (c : Conv) (x : Int) : ∃ o l, let u := setReed s r { reed s r with opens := o, openLive := l }
    openWire s r c x = s ∨ openWire s r c x = u ∨ openWire s r c x = post u pgMEAS 6 (BitVec.ofNat 32 (r * 16 + c.input.toNat)) := by
  unfold openWire
  split
  · exact ⟨0, 0, .inl rfl⟩
  · extract_lets k b q s1
    split
    · split
      · exact ⟨_, _, .inr (.inl rfl)⟩
      · exact ⟨_, _, .inr (.inr rfl)⟩
    · exact ⟨_, _, .inr (.inl rfl)⟩

/-- What a sample keeps is kept by a delivery too, unless it rests on the reeds. -/
theorem Rests.deliver {P : State → Prop} (h : Rests P) (hp : Sampled P) {u : State} {r : Nat} {c : Conv} {w : Word} {raw : Int} {ovr : Bool}
    (hu : P u) : P (deliver u r c w raw ovr) := by
  unfold Machine.deliver
  extract_lets f x
  have h1 := hp.accEnter (i := r * 64 + c.acc.toNat) (x := x) (ovr := f.2) hu
  obtain ⟨o, l, e | e | e⟩ := openWire_marks (accEnter u (r * 64 + c.acc.toNat) x f.2) r c x <;> rw [e]
  · exact h1
  · exact h.reeds h1
  · exact h.post (h.reeds h1)

/-- A delivery changes of the reeds at most the open marks of its own. -/
theorem reed_deliver (r : Nat) (c : Conv) (w : Word) (raw : Int) (ovr : Bool) : ∃ o l, ∀ q,
    reed (deliver s r c w raw ovr) q = if q = r then { reed s r with opens := o, openLive := l } else reed s q := by
  unfold deliver
  extract_lets f x
  have h1 := (reeds_sampled s.reeds).accEnter (i := r * 64 + c.acc.toNat) (x := x) (ovr := f.2) (s := s) rfl
  obtain ⟨o, l, e⟩ := openWire_marks (accEnter s (r * 64 + c.acc.toNat) x f.2) r c x
  generalize accEnter s _ _ _ = v at h1 e ⊢
  have hr : ∀ q, reed v q = reed s q := reed_of_reeds h1
  have hset : ∀ q, reed (setReed v r { reed v r with opens := o, openLive := l }) q =
      if q = r then { reed s r with opens := o, openLive := l } else reed s q := fun q => by
    rw [reed_setReed, hr, hr]
  rcases e with e | e | e <;> rw [e]
  · refine ⟨(reed s r).opens, (reed s r).openLive, fun q => ?_⟩
    rw [hr]
    split
    next e => rw [e]
    · rfl
  · exact ⟨o, l, hset⟩
  · exact ⟨o, l, fun q => (reed_of_reeds (post_reeds ..) q).trans (hset q)⟩

/-! ### What a reed keeps as its sequence goes on -/

/-- What a reed keeps as its sequence goes on: settings, counts and requests; no trigger becomes pending and no urgent insert starts
without its request (R263 to R284, R289). -/
structure Runs (x y : ReedSt) : Prop where
  cfg : y.cfg = x.cfg
  overrun : y.overrun = x.overrun
  urgent : y.urgent = x.urgent
  hkOwed : y.hkOwed = x.hkOwed
  hkLate : y.hkLate = x.hkLate
  trig : x.trigPend = false → y.trigPend = false
  ins : x.urgent = none → x.insUrgent = false → y.insUrgent = false

theorem Runs.rfl {x : ReedSt} : Runs x x := ⟨Eq.refl _, Eq.refl _, Eq.refl _, Eq.refl _, Eq.refl _, id, fun _ h => h⟩

theorem Runs.trans {x y z : ReedSt} (a : Runs x y) (b : Runs y z) : Runs x z :=
  ⟨b.cfg.trans a.cfg, b.overrun.trans a.overrun, b.urgent.trans a.urgent, b.hkOwed.trans a.hkOwed, b.hkLate.trans a.hkLate,
    fun h => b.trig (a.trig h), fun h1 h2 => b.ins (a.urgent.trans h1) (a.ins h1 h2)⟩

theorem runs_parity (x : ReedSt) (n : BitVec 16) : Runs x { x with parity := n } := ⟨rfl, rfl, rfl, rfl, rfl, id, fun _ h => h⟩
theorem runs_badEnt (x : ReedSt) (n : BitVec 16) : Runs x { x with badEnt := n } := ⟨rfl, rfl, rfl, rfl, rfl, id, fun _ h => h⟩
theorem runs_wait (x : ReedSt) (b : Bool) : Runs x { x with seq := .wait, seqEmpty := b } := ⟨rfl, rfl, rfl, rfl, rfl, id, fun _ h => h⟩

theorem runs_restPower (x : ReedSt) : Runs x (restPower s x) := by
  unfold restPower
  split
  · exact ⟨rfl, rfl, rfl, rfl, rfl, id, fun _ h => h⟩
  · exact Runs.rfl

theorem runs_startConv (r : Nat) (x : ReedSt) (again : Bool) : Runs x (startConv s r x again) :=
  ⟨rfl, rfl, rfl, rfl, rfl, id, fun _ h => h⟩

theorem runs_startIns (r : Nat) (x : ReedSt) (q : ReedSeq) : Runs x (startIns s r x q) := by
  unfold startIns
  exact ⟨rfl, rfl, rfl, rfl, rfl, id, fun h _ => by rw [h]; rfl⟩

theorem runs_toDelay (r : Nat) (x : ReedSt) (known : Bool) : Runs x (toDelay s r x known) := by
  have hseq : ∀ q b, Runs x { x with seq := q, startInsert := b } := fun _ _ => ⟨rfl, rfl, rfl, rfl, rfl, id, fun _ h => h⟩
  unfold toDelay
  split
  · exact hseq .delay x.startInsert
  · split
    · exact (hseq .delay x.startInsert).trans (runs_restPower ..)
    · split
      · exact hseq .startup false
      · exact runs_startConv ..

theorem runs_takeEntry (now : Nat) (x : ReedSt) (f : Nat × Conv × Nat × Nat) : Runs x (takeEntry now x f) :=
  ⟨rfl, rfl, rfl, rfl, rfl, id, fun _ h => h⟩

/-- From one machine to the next reed `r` runs on, and no other reed changes. -/
structure Turns (s t : State) (r : Nat) : Prop where
  own : Runs (reed s r) (reed t r)
  others : ∀ q, q ≠ r → reed t q = reed s q

theorem Turns.rfl {s : State} {r : Nat} : Turns s s r := ⟨Runs.rfl, fun _ _ => Eq.refl _⟩

theorem Turns.trans {s t u : State} {r : Nat} (a : Turns s t r) (b : Turns t u r) : Turns s u r :=
  ⟨a.own.trans b.own, fun q hq => (b.others q hq).trans (a.others q hq)⟩

theorem turns_of_reeds {s t : State} (h : t.reeds = s.reeds) (r : Nat) : Turns s t r :=
  ⟨by rw [reed_of_reeds h]; exact Runs.rfl, fun q _ => reed_of_reeds h q⟩

theorem turns_setReed {r : Nat} {x : ReedSt} (h : Runs (reed s r) x) : Turns s (setReed s r x) r :=
  ⟨by rw [reed_setReed_self]; exact h, fun q hq => by rw [reed_setReed, if_neg hq]⟩

theorem Turns.post {s t : State} {r : Nat} (h : Turns s t r) (page src : Nat) (d : Word) (sub : Nat) :
    Turns s (post t page src d sub) r :=
  h.trans (turns_of_reeds (post_reeds ..) r)

theorem Turns.setReed {s t : State} {r : Nat} {x : ReedSt} (h : Turns s t r) (hx : Runs (reed t r) x) : Turns s (setReed t r x) r :=
  h.trans (turns_setReed t hx)

theorem tableReed_seqAddr {r e w : Nat} (he : e < 64) (h1 : seqAddr r e ≤ w) (h2 : w < seqAddr r e + 8) : tableReed w = r := by
  unfold seqAddr at h1 h2
  unfold tableReed
  omega

theorem turns_readEntry (r e : Nat) (he : e < 64) : Turns s (readEntry s r e).1 r := by
  unfold readEntry
  extract_lets a p u w0 w1
  have hu : Turns s u r := by
    rcases parReads_reeds s a 2 with h | ⟨w, h1, h2, -, h⟩
    · exact turns_of_reeds h r
    · rw [tableReed_seqAddr he h1 (by omega)] at h
      exact Turns.trans (turns_setReed s (runs_parity ..)) (turns_of_reeds h r)
  clear_value u
  split
  · exact (hu.setReed (runs_badEnt _ ((reed u r).badEnt + 1))).post pgMEAS 3 (pack [(6, 10, r), (0, 6, e)]) 0
  · split
    · exact hu
    · exact hu

theorem turns_findEntry (r e n : Nat) (h : e + n ≤ 64) : Turns s (findEntry s r e n).1 r := by
  induction n generalizing s e with
  | zero => exact Turns.rfl
  | succ n ih =>
    have h1 := turns_readEntry s r e (by omega)
    unfold findEntry
    dsimp only
    split
    · exact h1
    · exact h1.trans (ih _ (e + 1) (by omega))

/-- A pass that starts leaves no trigger pending, and the reed as it was otherwise (R265, R273). -/
theorem startPass_turns (r : Nat) (known : Bool) : Turns s (startPass s r known) r ∧ (reed (startPass s r known) r).trigPend = false := by
  unfold startPass
  extract_lets _ s1 p x s2
  have h1 : Turns s s1 r := turns_setReed s ⟨rfl, rfl, rfl, rfl, rfl, fun _ => rfl, fun _ h => h⟩
  have ht : (reed s1 r).trigPend = false := by
    unfold s1
    rw [reed_setReed_self]
  have h2 : Turns s1 p.1 r := turns_findEntry s1 r 0 64 (by omega)
  have hp : (reed p.1 r).trigPend = false := h2.own.trig ht
  have h3 := h1.trans h2
  clear_value p
  split
  next f hf =>
    have hx := (runs_takeEntry s1.now x f).trans (runs_toDelay p.1 r (takeEntry s1.now x f) known)
    exact ⟨h3.setReed hx, by rw [reed_setReed_self]; exact hx.trig hp⟩
  next hf =>
    have hx := (runs_wait x true).trans (runs_restPower s2 _)
    have h4 : s2.reeds = p.1.reeds := by
      unfold s2
      split
      · rfl
      · exact post_reeds ..
    refine ⟨(h3.trans (turns_of_reeds h4 r)).setReed ?_, by rw [reed_setReed_self]; exact hx.trig hp⟩
    rw [reed_of_reeds h4]
    exact hx

theorem turns_toWait (r : Nat) (known : Bool) : Turns s (toWait s r known) r := by
  have hseq : Runs (reed s r) { reed s r with seq := .wait } := ⟨rfl, rfl, rfl, rfl, rfl, id, fun _ h => h⟩
  unfold toWait
  dsimp only
  split
  · exact (turns_setReed s hseq).trans (startPass_turns ..).1
  · exact turns_setReed s (hseq.trans (runs_restPower ..))

theorem turns_goOn (r : Nat) (q : ReedSeq) (known : Bool) : Turns s (goOn s r q known) r := by
  unfold goOn
  dsimp only
  split
  · exact turns_setReed s (runs_startIns ..)
  · split
    · exact turns_setReed s (Runs.trans (y := { reed s r with seq := .off }) ⟨rfl, rfl, rfl, rfl, rfl, id, fun _ h => h⟩ (runs_restPower ..))
    · exact turns_toWait ..
    · exact turns_setReed s (runs_toDelay ..)

theorem turns_wakeReed (r : Nat) : Turns s (wakeReed s r) r := by
  unfold wakeReed
  dsimp only
  split
  · exact Turns.rfl
  · split
    · exact turns_goOn ..
    · exact turns_goOn ..
    · exact turns_goOn ..
    · exact Turns.rfl

theorem turns_kickInsert (r : Nat) (known : Bool) : Turns s (kickInsert s r known) r := by
  have hs : ∀ q, Turns s (setReed s r (if (reed s r).powered || known then startIns s r (reed s r) q
      else { reed s r with seq := .startup, startInsert := true, resume := q })) r := fun q => by
    refine turns_setReed s ?_
    split
    · exact runs_startIns ..
    · exact ⟨rfl, rfl, rfl, rfl, rfl, id, fun _ h => h⟩
  unfold kickInsert
  dsimp only
  split
  · exact Turns.rfl
  · split
    · exact hs .off
    · exact hs .wait
    · exact hs .delay
    · exact Turns.rfl

/-! ### The end of a conversion (R255 to R258, R279 to R289) -/

section
variable {r : Nat} (raw : Int) (ovr : Bool)

/-- An invalid output of a stream is discarded and counted (R256, R258). -/
theorem conversionEnd_discards (hs : (reed s r).seq = .convert) (hf : (reed s r).conv.free = true) (hi : (reed s r).invalid ≠ 0)
    (hm : (reed s r).mode ≠ 0) (hh : (reed s r).heldOff = false) (hd : insertDue (reed s r) = false) (hl : seqLive s = true)
    (hb : s.bore.badPar = []) : conversionEnd s r raw ovr =
      setReed (setBore s (accAddr (r * 64 + (reed s r).conv.acc.toNat) + 12) (put (accWord s (r * 64 + (reed s r).conv.acc.toNat) 3) 0 8
        (min (fld (accWord s (r * 64 + (reed s r).conv.acc.toNat) 3) 0 8 + 1) 255))) r { reed s r with invalid := (reed s r).invalid - 1 } := by
  have hl' : ∀ a w, seqLive (setBore s a w) = seqLive s := fun a w =>
    setBore_part s (π := seqLive) (fun _ _ => rfl) (fun _ _ => rfl) (fun _ _ => rfl) a w
  unfold conversionEnd
  dsimp only
  rw [hs]
  dsimp only
  rw [if_pos ⟨hf, hi⟩]
  unfold accDiscard
  rw [accCheck_clean s hb]
  dsimp only
  rw [if_neg (by rw [hl', hl, hh, hd]; simp [hm])]

theorem conversionEnd_delivers (hs : (reed s r).seq = .convert) (hi : (reed s r).invalid = 0) :
    conversionEnd s r raw ovr = afterConv (deliver s r (reed s r).conv (reed s r).coef raw ovr) r := by
  unfold conversionEnd
  dsimp only
  rw [hs]
  dsimp only
  rw [if_neg (by rw [hi]; simp)]

theorem conversionEnd_inserted (hs : (reed s r).seq = .insert) : conversionEnd s r raw ovr =
    afterInsert (if (reed s r).insCal then calSample s (fullScale raw ovr).1 (fullScale raw ovr).2
      else deliver s r (reed s r).ins (reed s r).coef raw ovr) r := by
  unfold conversionEnd
  dsimp only
  rw [hs]

/-- A stream that nothing holds goes on with its next conversion (R256, R289). -/
theorem afterConv_streams (hf : (reed s r).conv.free = true) (hm : (reed s r).mode ≠ 0) (hh : (reed s r).heldOff = false)
    (hd : insertDue (reed s r) = false) (hl : seqLive s = true) (h1 : 1 < (reed s r).left.toNat) :
    ∃ y, afterConv s r = setReed s r y ∧ y.seq = .convert ∧ y.left = (reed s r).left - 1 := by
  have hc : (reed s r).contained = false := (Bool.or_eq_false_iff.mp hh).1
  unfold afterConv
  dsimp only
  rw [if_neg (by rw [hl, hc]; simp; exact hm), if_pos h1]
  have e : ((reed s r).conv.free && !(reed s r).heldOff && !insertDue (reed s r)) = true := by
    rw [hf, hh, hd]
    rfl
  exact ⟨_, if_pos e, rfl, rfl⟩

end

theorem bore_deliver (r : Nat) (c : Conv) (w : Word) (raw : Int) (ovr : Bool) : (deliver s r c w raw ovr).bore =
    (accEnter s (r * 64 + c.acc.toNat) (if (fullScale raw ovr).2 || c.owc != 0 then (fullScale raw ovr).1
      else corrected 24 w (fullScale raw ovr).1) (fullScale raw ovr).2).bore := by
  unfold deliver
  extract_lets f x
  obtain ⟨o, l, e | e | e⟩ := openWire_marks (accEnter s (r * 64 + c.acc.toNat) x f.2) r c x <;> rw [e]
  · rfl
  · exact post_bore ..

section
variable (r : Reed) (raw : Int) (ovr : Bool)

theorem exec_conversionEnd : exec (.conversionEnd r raw ovr) s = .next (conversionEnd s r.val raw ovr) := rfl

theorem conversionEnd_invalid (hs : (reed s r.val).seq = .convert) (hf : (reed s r.val).conv.free = true)
    (hi : (reed s r.val).invalid ≠ 0) (hm : (reed s r.val).mode ≠ 0) (hh : (reed s r.val).heldOff = false)
    (hd : insertDue (reed s r.val) = false) (hl : seqLive s = true) (hb : s.bore.badPar = []) :
    Yields (.conversionEnd r raw ovr) s fun t => reed t r.val = { reed s r.val with invalid := (reed s r.val).invalid - 1 } ∧
      SameOutputs s t ∧ fld (accWord t (r.val * 64 + (reed s r.val).conv.acc.toNat) 3) 0 8 =
        min (fld (accWord s (r.val * 64 + (reed s r.val).conv.acc.toNat) 3) 0 8 + 1) 255 ∧
      accWord t (r.val * 64 + (reed s r.val).conv.acc.toNat) 0 = accWord s (r.val * 64 + (reed s r.val).conv.acc.toNat) 0 := by
  have e := (exec_conversionEnd s r raw ovr).trans (congrArg Host.Outcome.next (conversionEnd_discards s raw ovr hs hf hi hm hh hd hl hb))
  refine ⟨_, e, reed_setReed_self .., ?_, ?_, ?_⟩
  · refine sameOutputs_of_chans (Eq.trans (Eq.refl _) ?_)
    exact setBore_part s (π := State.chans) (fun _ _ => rfl) (fun _ _ => rfl) (fun _ _ => rfl) ..
  · change fld (boreWord (setBore s _ _) (accAddr (r.val * 64 + (reed s r.val).conv.acc.toNat) + 12)) 0 8 = _
    rw [boreWord_setBore_self, fld_put_self _ 0 8 _ (by decide)]
    exact Nat.mod_eq_of_lt (lt_of_le_of_lt (Nat.min_le_right ..) (by decide))
  · exact boreWord_setBore_other _ _ _ _ (.inl (by omega))

theorem conversionEnd_valid (hs : (reed s r.val).seq = .convert) (hf : (reed s r.val).conv.free = true)
    (hi : (reed s r.val).invalid = 0) (hm : (reed s r.val).mode ≠ 0) (hh : (reed s r.val).heldOff = false)
    (hd : insertDue (reed s r.val) = false) (hl : seqLive s = true) (h1 : 1 < (reed s r.val).left.toNat) :
    Yields (.conversionEnd r raw ovr) s fun t => (reed t r.val).seq = .convert ∧ (reed t r.val).left = (reed s r.val).left - 1 ∧
      SameOutputs s t ∧ ∀ a, boreByte t a = boreByte (accEnter s (r.val * 64 + (reed s r.val).conv.acc.toNat)
        (if (fullScale raw ovr).2 || (reed s r.val).conv.owc != 0 then (fullScale raw ovr).1
          else corrected 24 (reed s r.val).coef (fullScale raw ovr).1) (fullScale raw ovr).2) a := by
  have e := (exec_conversionEnd s r raw ovr).trans (congrArg Host.Outcome.next (conversionEnd_delivers s raw ovr hs hi))
  obtain ⟨o, l, hr⟩ := reed_deliver s r.val (reed s r.val).conv (reed s r.val).coef raw ovr
  have hlive := seqLive_rests.deliver seqLive_sampled (r := r.val) (c := (reed s r.val).conv) (w := (reed s r.val).coef) (raw := raw)
    (ovr := ovr) hl
  have hout := (output_rests (output s)).deliver (output_sampled _) (u := s) (r := r.val) (c := (reed s r.val).conv)
    (w := (reed s r.val).coef) (raw := raw) (ovr := ovr) (fun _ => rfl)
  have hbore := bore_deliver s r.val (reed s r.val).conv (reed s r.val).coef raw ovr
  generalize deliver s r.val (reed s r.val).conv (reed s r.val).coef raw ovr = u at e hr hlive hout hbore
  have hown := (hr r.val).trans (if_pos rfl)
  obtain ⟨y, ey, hy, hleft⟩ := afterConv_streams u (r := r.val) (by rw [hown]; exact hf) (by rw [hown]; exact hm)
    (by rw [hown]; exact hh) (by rw [hown]; exact hd) hlive (by rw [hown]; exact h1)
  refine ⟨_, e, ?_⟩
  rw [ey]
  dsimp only
  rw [reed_setReed_self, hleft, hown]
  exact ⟨hy, rfl, hout, fun a => boreByte_of_bore (s := accEnter ..) hbore a⟩

/-- After an urgent insert its request is gone and counted, and the sequence goes on (R276, R279, R280). -/
theorem afterInsert_urgent {r : Nat} (hu : (reed s r).insUrgent = true) (hc : s.cal.run = none) :
    (reed (afterInsert s r) r).urgent = none ∧ (reed (afterInsert s r) r).insUrgent = false ∧
    regFld (afterInsert s r) urgentStat 16 16 = (regFld s urgentStat 16 16 + 1) % 65536 ∧ SameOutputs s (afterInsert s r) := by
  let x := reed s r
  let y := { x with lastConv := some x.ins.key, urgent := none, insUrgent := false, urgCal := false, insCal := false }
  let v := bumpReg (setReed (setReed s r { x with lastConv := some x.ins.key }) r y) urgentStat 16 16
  have hv : reed v r = y := reed_setReed_self ..
  have hcount : regFld v urgentStat 16 16 = (regFld s urgentStat 16 16 + 1) % 65536 :=
    regFld_bumpReg_self (setReed _ r y) urgentStat 16 16 1 (by decide)
  have hsame : SameOutputs s v := sameOutputs_of_chans (bumpReg_chans ..)
  have e : ∃ q, afterInsert s r = goOn v r q true := by
    unfold afterInsert
    dsimp only
    rw [if_pos hu]
    have hcal : ∀ z, calIssue (bumpReg (setReed (setReed s r { x with lastConv := some x.ins.key }) r z) urgentStat 16 16) =
        bumpReg (setReed (setReed s r { x with lastConv := some x.ins.key }) r z) urgentStat 16 16 := fun z => by
      unfold calIssue
      rw [show (bumpReg (setReed (setReed s r { x with lastConv := some x.ins.key }) r z) urgentStat 16 16).cal.run = none from hc]
    rw [hcal, reed_setReed_self]
    exact ⟨_, rfl⟩
  obtain ⟨q, e⟩ := e
  clear_value v
  have ht := (turns_goOn v r q true).own
  rw [hv] at ht
  have hreg := (urgentStat_rests (getReg v urgentStat)).goOn (r := r) (target := q) (known := true) (s := v) rfl
  have hout := (output_rests (output s)).goOn (r := r) (target := q) (known := true) (s := v) hsame
  rw [e]
  exact ⟨ht.urgent, ht.ins rfl rfl, (regFld_of_getReg (s := v) hreg 16 16).trans hcount, hout⟩

theorem conversionEnd_urgent (hs : (reed s r.val).seq = .insert) (hu : (reed s r.val).insUrgent = true) (hc : s.cal.run = none) :
    Yields (.conversionEnd r raw ovr) s fun t => (reed t r.val).urgent = none ∧ (reed t r.val).insUrgent = false ∧
      regFld t urgentStat 16 16 = (regFld s urgentStat 16 16 + 1) % 65536 ∧ SameOutputs s t := by
  have e := (exec_conversionEnd s r raw ovr).trans (congrArg Host.Outcome.next (conversionEnd_inserted s raw ovr hs))
  have key : ∃ u, (if (reed s r.val).insCal then calSample s (fullScale raw ovr).1 (fullScale raw ovr).2
      else deliver s r.val (reed s r.val).ins (reed s r.val).coef raw ovr) = u ∧ (reed u r.val).insUrgent = true ∧ u.cal.run = none ∧
      getReg u urgentStat = getReg s urgentStat ∧ SameOutputs s u := by
    split
    · refine ⟨s, ?_, hu, hc, rfl, fun _ => rfl⟩
      unfold calSample
      rw [hc]
    · obtain ⟨o, l, hr⟩ := reed_deliver s r.val (reed s r.val).ins (reed s r.val).coef raw ovr
      refine ⟨_, rfl, ?_, ?_, (urgentStat_rests _).deliver (urgentStat_sampled _) (u := s) rfl,
        (output_rests (output s)).deliver (output_sampled _) (u := s) fun _ => rfl⟩
      · rw [(hr r.val).trans (if_pos rfl)]
        exact hu
      · rw [(cal_rests s.cal).deliver (cal_sampled _) (u := s) rfl]
        exact hc
  obtain ⟨u, eu, h1, h2, h3, h4⟩ := key
  rw [eu] at e
  obtain ⟨a1, a2, a3, a4⟩ := afterInsert_urgent u h1 h2
  refine ⟨_, e, a1, a2, a3.trans (by rw [regFld_of_getReg h3 16 16]), fun ch => (a4 ch).trans (h4 ch)⟩

end

/-! ### Delays, power and start-up (R263, R282, R283) -/

section
variable (r : Reed)

theorem seqDelayExpired_early (h : s.now < (reed s r.val).delayDue) : Yields (.seqDelayExpired r) s fun t => t = s :=
  ⟨s, if_pos h, rfl⟩

theorem toDelay_due (q : Nat) (x : ReedSt) (hh : x.heldOff = false) (hd : x.delayDone = true) :
    toDelay s q x true = startConv s q x (x.delay != 0) := by
  unfold toDelay
  rw [if_neg (by rw [hh]; decide), if_neg (by rw [hd]; simp), if_neg (by simp)]

theorem seqDelayExpired_starts (hs : (reed s r.val).seq = .delay) (hh : (reed s r.val).heldOff = false)
    (hd : (reed s r.val).delayDue ≤ s.now) : Yields (.seqDelayExpired r) s fun t => (reed t r.val).seq = .convert ∧
      (reed t r.val).coef = convCoef s r.val (reed s r.val).conv ∧ (reed t r.val).powered = true ∧ SameBore s t ∧ t.chans = s.chans := by
  have e : exec (.seqDelayExpired r) s =
      .next (setReed s r.val (startConv s r.val { reed s r.val with delayDone := true } ((reed s r.val).delay != 0))) := by
    change execSeqDelayExpired r s = _
    unfold execSeqDelayExpired
    dsimp only
    rw [if_neg (Nat.not_lt.mpr hd), hs]
    dsimp only
    exact congrArg (fun x => Host.Outcome.next (setReed s r.val x)) (toDelay_due s r.val _ hh rfl)
  refine ⟨_, e, ?_⟩
  dsimp only
  rw [reed_setReed_self]
  exact ⟨rfl, rfl, rfl, fun _ => rfl, rfl⟩

theorem modulatorPowerUp_yields (hs : (reed s r.val).seq ∈ [ReedSeq.off, .wait, .delay]) (hd : domOn s 11 = true) :
    Yields (.modulatorPowerUp r) s fun t => reed t r.val = { reed s r.val with powered := true } ∧ SameBore s t ∧ t.chans = s.chans := by
  have h : ((reed s r.val).seq = .off ∨ (reed s r.val).seq = .wait ∨ (reed s r.val).seq = .delay) ∧ domOn s 11 := by
    simp only [List.mem_cons, List.not_mem_nil, or_false] at hs
    exact ⟨hs, hd⟩
  exact ⟨_, congrArg Host.Outcome.next (if_pos h), reed_setReed_self .., fun _ => rfl, rfl⟩

theorem startupDone_starts (hs : (reed s r.val).seq = .startup) (hh : (reed s r.val).heldOff = false)
    (hi : (reed s r.val).startInsert = false) : Yields (.startupDone r) s fun t => (reed t r.val).seq = .convert ∧
      (reed t r.val).powered = true ∧ (reed t r.val).invalid = (if (reed s r.val).conv.free then 3 else 0) ∧ SameBore s t ∧
      t.chans = s.chans := by
  have e : exec (.startupDone r) s = .next (setReed s r.val (startConv s r.val { reed s r.val with powered := false } true)) := by
    change execStartupDone r s = _
    unfold execStartupDone
    dsimp only
    rw [if_neg (not_not.mpr hs), if_neg (by rw [hh]; decide), if_neg (by rw [hi]; simp)]
  refine ⟨_, e, ?_⟩
  dsimp only
  rw [reed_setReed_self]
  refine ⟨rfl, rfl, ?_, fun _ => rfl, rfl⟩
  unfold startConv
  dsimp only
  simp only [Bool.true_or, Bool.and_true]
  split <;> rfl

end

/-! ### Writes over a scope of reeds -/

theorem reedScope_nodup : (reedScope s).Nodup := by
  unfold reedScope
  dsimp only
  split
  · exact List.nodup_range
  · exact List.nodup_singleton _

/-- A step that runs over reeds, each time leaving every other as it was, acts on each as it stands and leaves the others. -/
theorem foldl_reeds {f : State → Nat → State} {P : State → Prop} (hP : ∀ u q, P u → P (f u q))
    (hf : ∀ u q p, p ≠ q → reed (f u q) p = reed u p) (l : List Nat) (hn : l.Nodup) (hs : P s) (r : Nat) :
    P (l.foldl f s) ∧ (r ∉ l → reed (l.foldl f s) r = reed s r) ∧
    (r ∈ l → ∃ u, P u ∧ reed u r = reed s r ∧ reed (l.foldl f s) r = reed (f u r) r) := by
  induction l generalizing s with
  | nil => exact ⟨hs, fun _ => rfl, fun h => absurd h List.not_mem_nil⟩
  | cons q l ih =>
    obtain ⟨hq, hn'⟩ := List.nodup_cons.mp hn
    obtain ⟨h1, h2, h3⟩ := ih (f s q) hn' (hP s q hs)
    rw [List.foldl_cons]
    refine ⟨h1, fun h => ?_, fun h => ?_⟩
    · rw [List.mem_cons, not_or] at h
      exact (h2 h.2).trans (hf s q r h.1)
    · by_cases e : r = q
      · rw [e]
        rw [e] at h2
        exact ⟨s, hs, rfl, h2 hq⟩
      · obtain ⟨u, hu, e1, e2⟩ := h3 ((List.mem_cons.mp h).resolve_left e)
        exact ⟨u, hu, e1.trans (hf s q r e), e2⟩

/-- The same for a step that sets each reed from what it is. -/
theorem foldl_setReed (g : State → ReedSt → ReedSt) {P : State → Prop} (hP : ∀ u v, P u → P { u with reeds := v }) (l : List Nat)
    (hn : l.Nodup) (hs : P s) (r : Nat) : let t := l.foldl (fun u q => setReed u q (g u (reed u q))) s
    P t ∧ (r ∉ l → reed t r = reed s r) ∧ (r ∈ l → ∃ u, P u ∧ reed t r = g u (reed s r)) := by
  obtain ⟨h1, h2, h3⟩ := foldl_reeds s (f := fun u q => setReed u q (g u (reed u q))) (fun u q hu => hP u _ hu)
    (fun u q p hp => by rw [reed_setReed, if_neg hp]) l hn hs r
  refine ⟨h1, h2, fun h => ?_⟩
  obtain ⟨u, hu, e1, e2⟩ := h3 h
  exact ⟨u, hu, by rw [e2, reed_setReed_self, e1]⟩

/-! ### Modes (R270, R289, R290) -/

theorem setReedCfg_sets (v : Word) (r : Nat) : (reed (setReedCfg s v r) r).cfg = reedCfgWord (reed s r).cfg v ∧
    ∀ q, q ≠ r → reed (setReedCfg s v r) q = reed s q := by
  let y := { reed s r with cfg := reedCfgWord (reed s r).cfg v }
  have key : ∃ x u, x.cfg = y.cfg ∧ u = setReed s r x ∧ Turns u (setReedCfg s v r) r := by
    unfold setReedCfg
    extract_lets x0 timed y0 x u
    refine ⟨x, u, ?_, rfl, ?_⟩
    · unfold x
      split <;> rfl
    · have hu : reed u r = x := reed_setReed_self ..
      have hoff : Turns u (setReed u r (restPower u { x with seq := .off })) r := turns_setReed u <| by
        rw [hu]
        exact Runs.trans (y := { x with seq := .off }) ⟨rfl, rfl, rfl, rfl, rfl, id, fun _ h => h⟩ (runs_restPower ..)
      clear_value u x
      split
      · exact turns_wakeReed u r
      · split
        · exact hoff
        · exact turns_wakeReed u r
      · split
        · exact hoff
        · exact Turns.rfl
      · split
        · exact Turns.rfl
        · split
          · refine turns_setReed u ?_
            rw [hu]
            exact ⟨rfl, rfl, rfl, rfl, rfl, id, fun _ h => h⟩
          · exact hoff
      · exact Turns.rfl
  obtain ⟨x, u, hx, eu, h⟩ := key
  refine ⟨?_, fun q hq => ?_⟩
  · rw [h.own.cfg, eu, reed_setReed_self]
    exact hx
  · rw [h.others q hq, eu, reed_setReed, if_neg hq]

section
variable {fn : Fn} (r : Reed)

theorem seqModeWrite_yields (v : Word) (hw : mayWrite s fn pgMEAS 0x58 1 = true) (hm : fld v 0 2 ≠ 3) (ht : fld v 2 2 ≠ 3) :
    Yields (.seqModeWrite fn v) s fun t =>
      (r.val ∈ reedScope s → (reed t r.val).cfg = BitVec.ofNat 5 (fld v 0 2 + 4 * fld v 2 2 + 16 * fld v 4 1)) ∧
      (r.val ∉ reedScope s → reed t r.val = reed s r.val) ∧ SameOutputs s t := by
  obtain ⟨-, h2, h3⟩ := foldl_reeds s (f := fun s r => setReedCfg s v r) (P := fun _ => True) (fun _ _ h => h)
    (fun u q p hp => (setReedCfg_sets u v q).2 p hp) (reedScope s) (reedScope_nodup s) trivial r.val
  have e : exec (.seqModeWrite fn v) s = .next ((reedScope s).foldl (fun s r => setReedCfg s v r) s) :=
    congrArg Host.Outcome.next ((wr_of_mayWrite s fn _ _ _ _ hw).trans (if_neg (not_or.mpr ⟨hm, ht⟩)))
  refine yields_of_exec e fun k => ⟨fun h => ?_, h2, sameOutputs_of_chans (k.chans rfl)⟩
  obtain ⟨u, -, e1, e2⟩ := h3 h
  rw [e2, (setReedCfg_sets u v r.val).1]
  unfold reedCfgWord
  rw [if_neg hm, if_neg ht]

/-! ### Triggers (R271 to R275, R284) -/

theorem msTrigDrvArm_yields (hw : mayWrite s fn pgMEAS 0x64 1 = true) : Yields (.msTrigDrvArm fn) s fun t =>
    (r.val ∈ reedScope s → reed t r.val = { reed s r.val with drvArmed := true, powered := true }) ∧
    (r.val ∉ reedScope s → reed t r.val = reed s r.val) ∧ SameBore s t := by
  obtain ⟨h1, h2, h3⟩ := foldl_setReed s (fun _ x => { x with drvArmed := true, powered := true }) (P := fun u => u.bore = s.bore)
    (fun _ _ h => h) (reedScope s) (reedScope_nodup s) rfl r.val
  refine ⟨_, congrArg Host.Outcome.next (wr_of_mayWrite s fn _ _ _ _ hw), fun h => ?_, h2, fun a => boreByte_of_bore h1 a⟩
  obtain ⟨u, -, e⟩ := h3 h
  exact e

theorem restReed_drive (x : ReedSt) : (restReed s x).drvArmed = x.drvArmed ∧ (restReed s x).drvDue = x.drvDue := by
  unfold restReed restPower
  split
  · split <;> exact ⟨rfl, rfl⟩
  · exact ⟨rfl, rfl⟩

theorem msTrigDrvDisarm_yields (hw : mayWrite s fn pgMEAS 0x64 1 = true) : Yields (.msTrigDrvDisarm fn) s fun t =>
    (r.val ∈ reedScope s → (reed t r.val).drvArmed = false ∧ (reed t r.val).drvDue = []) ∧
    (r.val ∉ reedScope s → reed t r.val = reed s r.val) ∧ SameBore s t := by
  obtain ⟨h1, h2, h3⟩ := foldl_setReed s (fun u x => restReed u { x with drvArmed := false, drvDue := [] })
    (P := fun u => u.bore = s.bore) (fun _ _ h => h) (reedScope s) (reedScope_nodup s) rfl r.val
  refine ⟨_, congrArg Host.Outcome.next (wr_of_mayWrite s fn _ _ _ _ hw), fun h => ?_, h2, fun a => boreByte_of_bore h1 a⟩
  obtain ⟨u, -, e⟩ := h3 h
  have hx := restReed_drive u { reed s r.val with drvArmed := false, drvDue := [] }
  exact ⟨(congrArg ReedSt.drvArmed e).trans hx.1, (congrArg ReedSt.drvDue e).trans hx.2⟩

end

/-- What a trigger of its source does to a reed: a pass becomes pending, an overrun counts, or a waiting reed starts (R273 to R275). -/
structure Triggered (x y : ReedSt) : Prop where
  pends : x.seq ≠ .wait → x.trigPend = false → y.trigPend = true ∧ y.seq = x.seq
  overruns : x.seq ≠ .wait → x.trigPend = true → y.trigPend = true ∧ y.overrun.toNat = min (x.overrun.toNat + 1) 65535
  starts : x.seq = .wait → x.heldOff = false → y.trigPend = false ∧ y.overrun = x.overrun

theorem trigger_triggers (src r : Nat) (hm : (reed s r).mode = 2) (ht : (reed s r).tsrc = src) (hl : seqLive s = true)
    (hc : (reed s r).contained = false) : Triggered (reed s r) (reed (trigger s src r) r) := by
  unfold trigger
  dsimp only
  rw [if_neg (by rw [hl, hc]; simp [hm, ht])]
  refine ⟨fun hs hp => ?_, fun hs hp => ?_, fun hs hh => ?_⟩
  · rw [if_neg (fun h => hs h.1), if_neg (by rw [hp]; decide), reed_setReed_self]
    exact ⟨rfl, rfl⟩
  · rw [if_neg (fun h => hs h.1), if_pos hp, reed_of_reeds (post_reeds ..), reed_setReed_self]
    refine ⟨hp, (BitVec.toNat_ofNat ..).trans (Nat.mod_eq_of_lt (lt_of_le_of_lt (Nat.min_le_right ..) (by decide)))⟩
  · rw [if_pos ⟨hs, by rw [hh]; rfl⟩]
    obtain ⟨h1, h2⟩ := startPass_turns (setReed s r (reed s r)) r (src != 0)
    exact ⟨h2, h1.own.overrun.trans (by rw [reed_setReed_self])⟩

theorem trigger_others (src r p : Nat) (hp : p ≠ r) : reed (trigger s src r) p = reed s p := by
  have hset : ∀ x, reed (setReed s r x) p = reed s p := fun x => by rw [reed_setReed, if_neg hp]
  unfold trigger
  dsimp only
  split
  · rfl
  · split
    · exact ((startPass_turns _ r _).1.others p hp).trans (hset _)
    · split
      · exact (reed_of_reeds (post_reeds ..) p).trans (hset _)
      · exact hset _

theorem seqLive_trigger (src r : Nat) (hl : seqLive s = true) : seqLive (trigger s src r) = true := by
  unfold trigger
  dsimp only
  split
  · exact hl
  · split
    · exact seqLive_rests.startPass (s := setReed s r (reed s r)) hl
    · split
      · exact seqLive_rests.post (s := setReed s r _) hl
      · exact hl

theorem mode_timed (x : ReedSt) (n : Nat) : ReedSt.mode { x with timerAt := n } = x.mode := rfl
theorem tsrc_timed (x : ReedSt) (n : Nat) : ReedSt.tsrc { x with timerAt := n } = x.tsrc := rfl
theorem heldOff_timed (x : ReedSt) (n : Nat) : ReedSt.heldOff { x with timerAt := n } = x.heldOff := rfl

section
variable {fn : Fn} (r : Reed) (hl : seqLive s = true) (hm : (reed s r.val).mode = 2) (hc : (reed s r.val).contained = false)
include hl hm hc

theorem msTrigSoft_triggers (ht : (reed s r.val).tsrc = 0) (hw : mayWrite s fn pgMEAS 0x64 1 = true) (hr : r.val ∈ reedScope s) :
    Yields (.msTrigSoft fn) s fun t => Triggered (reed s r.val) (reed t r.val) := by
  obtain ⟨-, -, h⟩ := foldl_reeds s (f := fun s r => trigger s 0 r) (P := fun u => seqLive u = true)
    (fun u q hu => seqLive_trigger u 0 q hu) (fun u q p hp => trigger_others u 0 q p hp) (reedScope s) (reedScope_nodup s) hl r.val
  obtain ⟨u, hu, e1, e2⟩ := h hr
  refine ⟨_, congrArg Host.Outcome.next (wr_of_mayWrite s fn _ _ _ _ hw), ?_⟩
  change Triggered _ (reed ((reedScope s).foldl (fun s r => trigger s 0 r) s) r.val)
  rw [e2, ← e1]
  exact trigger_triggers u 0 r.val (by rw [e1]; exact hm) (by rw [e1]; exact ht) hu (by rw [e1]; exact hc)

theorem exec_reedTimerTrigger (ht : (reed s r.val).tsrc = 1) (hd : (reed s r.val).timerDue ≤ s.now) :
    exec (.reedTimerTrigger r) s = .next (trigger (setReed s r.val { reed s r.val with timerAt := (reed s r.val).timerDue }) 1 r.val) := by
  have _ := hl
  have _ := hc
  change execReedTimerTrigger r s = _
  unfold execReedTimerTrigger
  dsimp only
  rw [if_neg (by simp [hm, ht, hd])]

theorem reedTimerTrigger_triggers (ht : (reed s r.val).tsrc = 1) (hd : (reed s r.val).timerDue ≤ s.now) :
    Yields (.reedTimerTrigger r) s fun t => Triggered (reed s r.val) (reed t r.val) := by
  have e := exec_reedTimerTrigger s r hl hm hc ht hd
  generalize hx : reed s r.val = x at e hm ht hc
  have hu : reed (setReed s r.val { x with timerAt := x.timerDue }) r.val = { x with timerAt := x.timerDue } := reed_setReed_self ..
  obtain ⟨h1, h2, h3⟩ := trigger_triggers (setReed s r.val { x with timerAt := x.timerDue }) 1 r.val (by rw [hu, mode_timed]; exact hm)
    (by rw [hu, tsrc_timed]; exact ht) ((seqLive_setReed ..).trans hl) (by rw [hu]; exact hc)
  rw [hu] at h1 h2 h3
  exact ⟨_, e, h1, h2, fun hs hh => h3 hs ((heldOff_timed ..).trans hh)⟩

theorem driveTrigger_triggers (ht : (reed s r.val).tsrc = 2) (ha : (reed s r.val).drvArmed = true) {at' : Nat} {rest : List Nat}
    (hq : (reed s r.val).drvDue = at' :: rest) (hd : at' + (reed s r.val).drvDelay.toNat ≤ s.now) :
    Yields (.driveTrigger r) s fun t => Triggered (reed s r.val) (reed t r.val) := by
  let y := { reed s r.val with drvArmed := (reed s r.val).drvRepeat, drvDue := if (reed s r.val).drvRepeat then rest else [] }
  have hu : reed (setReed s r.val y) r.val = y := reed_setReed_self ..
  have e : exec (.driveTrigger r) s = .next (trigger (setReed s r.val y) 2 r.val) := by
    change execDriveTrigger r s = _
    unfold execDriveTrigger
    dsimp only
    rw [hq]
    dsimp only
    rw [if_neg (by simp [ha, hd]), if_neg (by simp [hm, ht])]
  have h := trigger_triggers (setReed s r.val y) 2 r.val (by rw [hu]; exact hm) (by rw [hu]; exact ht) hl (by rw [hu]; exact hc)
  rw [hu] at h
  exact ⟨_, e, h.pends, h.overruns, h.starts⟩

theorem trigger_yields {src : Nat} {c : Instr} (h : (c = .msTrigSoft fn ∧ src = 0 ∧ mayWrite s fn pgMEAS 0x64 1 = true ∧ r.val ∈ reedScope s) ∨
      (c = .reedTimerTrigger r ∧ src = 1 ∧ (reed s r.val).timerDue ≤ s.now) ∨
      (c = .driveTrigger r ∧ src = 2 ∧ (reed s r.val).drvArmed = true ∧
        ∃ at' rest, (reed s r.val).drvDue = at' :: rest ∧ at' + (reed s r.val).drvDelay.toNat ≤ s.now))
    (ht : (reed s r.val).tsrc = src) : Yields c s fun t => Triggered (reed s r.val) (reed t r.val) := by
  rcases h with ⟨rfl, rfl, hw, hr⟩ | ⟨rfl, rfl, hd⟩ | ⟨rfl, rfl, ha, at', rest, hq, hd⟩
  · exact msTrigSoft_triggers s r hl hm hc ht hw hr
  · exact reedTimerTrigger_triggers s r hl hm hc ht hd
  · exact driveTrigger_triggers s r hl hm hc ht ha hq hd

end

/-! ### Urgent conversions, housekeeping and the open marks (R274, R276 to R285) -/

/-- The conversion that MS_URGENT asks for (R277). -/
def urgentConv (v : Word) : Conv :=
  { input := BitVec.ofNat 6 (fld v 10 6), range := BitVec.ofNat 2 (fld v 16 2), osr := BitVec.ofNat 3 (fld v 18 3),
    acc := BitVec.ofNat 6 (if fld v 21 4 = 0 then fld v 10 6 else 51 + fld v 21 4) }

theorem input_urgentConv {v : Word} : (urgentConv v).input.toNat = fld v 10 6 :=
  (BitVec.toNat_ofNat ..).trans (Nat.mod_eq_of_lt (fld_lt v 10 6))

section
variable {fn : Fn}

theorem msTrigOverrunRead_yields (hr : mayRead s fn pgMEAS 0x6C = true) : Yields (.msTrigOverrunRead fn) s fun t =>
    t.host.rdata = BitVec.ofNat 32 (reed s (reedIdx s)).overrun.toNat ∧
    reed t (reedIdx s) = { reed s (reedIdx s) with overrun := 0 } :=
  ⟨_, congrArg Host.Outcome.next (rd_of_mayRead s fn _ _ _ hr), rfl, reed_setReed_self ..⟩

variable {v : Word} (hw : mayWrite s fn pgMEAS 0x74 1 = true) (hv : urgentOk v = true)
include hw hv

theorem msUrgentWrite_accepted (hu : (reed s (fld v 0 10)).urgent = none) : ∃ w : State, exec (.msUrgentWrite fn v) s =
      .next (kickInsert (setReed w (fld v 0 10) { reed s (fld v 0 10) with urgent := some (urgentConv v) }) (fld v 0 10) false) ∧
    regFld w urgentStat 12 2 = 1 ∧ seqLive w = seqLive s := by
  refine ⟨putReg (putReg s urgentStat 0 10 (fld v 0 10)) urgentStat 12 2 1,
    congrArg Host.Outcome.next ((wr_of_mayWrite s fn _ _ _ _ hw).trans ?_), regFld_putReg_self _ _ 12 2 1 (by decide), rfl⟩
  unfold urgentWrite
  dsimp only
  rw [if_neg (by rw [hv]; decide), if_neg (by rw [hu]; decide)]
  rfl

theorem msUrgentWrite_waits (hu : (reed s (fld v 0 10)).urgent = none) (hs : (reed s (fld v 0 10)).seq = .convert) :
    Yields (.msUrgentWrite fn v) s fun t => (reed t (fld v 0 10)).seq = .convert ∧
      ((reed t (fld v 0 10)).urgent.map (·.input.toNat)) = some (fld v 10 6) ∧ regFld t urgentStat 12 2 = 1 := by
  obtain ⟨w, e, hreg, -⟩ := msUrgentWrite_accepted s hw hv hu
  let y := { reed s (fld v 0 10) with urgent := some (urgentConv v) }
  have hy : reed (setReed w (fld v 0 10) y) (fld v 0 10) = y := reed_setReed_self ..
  have hk : kickInsert (setReed w (fld v 0 10) y) (fld v 0 10) false = setReed w (fld v 0 10) y := by
    unfold kickInsert
    dsimp only
    rw [hy, show y.seq = .convert from hs]
    dsimp only
    exact ite_self _
  refine ⟨_, e.trans (congrArg Host.Outcome.next hk), ?_⟩
  dsimp only
  rw [hy]
  exact ⟨hs, congrArg some input_urgentConv, hreg⟩

theorem msUrgentWrite_starts (hu : (reed s (fld v 0 10)).urgent = none) (hh : (reed s (fld v 0 10)).heldOff = false)
    (hs : (reed s (fld v 0 10)).seq = .wait) (hp : (reed s (fld v 0 10)).powered = true) (hl : seqLive s = true) :
    Yields (.msUrgentWrite fn v) s fun t => (reed t (fld v 0 10)).seq = .insert ∧
      (reed t (fld v 0 10)).ins.input.toNat = fld v 10 6 := by
  obtain ⟨w, e, -, hlive⟩ := msUrgentWrite_accepted s hw hv hu
  let y := { reed s (fld v 0 10) with urgent := some (urgentConv v) }
  have hy : reed (setReed w (fld v 0 10) y) (fld v 0 10) = y := reed_setReed_self ..
  have hk : kickInsert (setReed w (fld v 0 10) y) (fld v 0 10) false =
      setReed (setReed w (fld v 0 10) y) (fld v 0 10) (startIns (setReed w (fld v 0 10) y) (fld v 0 10) y .wait) := by
    unfold kickInsert
    dsimp only
    rw [hy, if_neg (by
      unfold mayConvert
      rw [show seqLive (setReed w (fld v 0 10) y) = true from hlive.trans hl, show y.heldOff = false from hh]
      decide), show y.seq = .wait from hs]
    dsimp only
    rw [if_pos (by rw [hp]; rfl)]
  refine ⟨_, e.trans (congrArg Host.Outcome.next hk), ?_⟩
  dsimp only
  rw [reed_setReed_self]
  exact ⟨rfl, input_urgentConv⟩

theorem msUrgentWrite_refused (hu : (reed s (fld v 0 10)).urgent ≠ none) : Yields (.msUrgentWrite fn v) s fun t =>
    reed t (fld v 0 10) = reed s (fld v 0 10) ∧ regFld t urgentStat 12 2 = 2 := by
  have hu' : (reed s (fld v 0 10)).urgent.isSome = true := Option.isSome_iff_ne_none.mpr hu
  refine ⟨refusedCtrl (putReg (putReg s urgentStat 0 10 (fld v 0 10)) urgentStat 12 2 2) pgMEAS 0x74,
    congrArg Host.Outcome.next ((wr_of_mayWrite s fn _ _ _ _ hw).trans ?_), reed_of_reeds (post_reeds ..) _, ?_⟩
  · unfold urgentWrite
    dsimp only
    rw [if_neg (by rw [hv]; decide), if_pos hu']
  · exact (regFld_post _ (by decide) ..).trans (regFld_putReg_self _ _ 12 2 2 (by decide))

end

/-- One reed at a housekeeping round (R278, R281). -/
def hkReed (s : State) (q : Nat) : State :=
  if (reed s q).hkOwed ≠ 0 then kickInsert (post (setReed s q { reed s q with hkLate := true }) pgMEAS 8 (BitVec.ofNat 32 q)) q true
  else kickInsert (setReed s q { reed s q with hkOwed := 4 }) q true

theorem hkReed_owes (q : Nat) : ((reed s q).hkOwed = 0 → (reed (hkReed s q) q).hkOwed = 4) ∧
    ((reed s q).hkOwed ≠ 0 → (reed (hkReed s q) q).hkLate = true ∧ (reed (hkReed s q) q).hkOwed = (reed s q).hkOwed) := by
  refine ⟨fun h => ?_, fun h => ?_⟩
  · have e : hkReed s q = kickInsert (setReed s q { reed s q with hkOwed := 4 }) q true := if_neg (not_not.mpr h)
    rw [e, (turns_kickInsert _ q true).own.hkOwed, reed_setReed_self]
  · have e : hkReed s q = kickInsert (post (setReed s q { reed s q with hkLate := true }) pgMEAS 8 (BitVec.ofNat 32 q)) q true := if_pos h
    have ht := (turns_kickInsert (post (setReed s q { reed s q with hkLate := true }) pgMEAS 8 (BitVec.ofNat 32 q)) q true).own
    rw [e, ht.hkLate, ht.hkOwed, reed_of_reeds (post_reeds ..), reed_setReed_self]
    exact ⟨rfl, rfl⟩

theorem hkReed_others (q p : Nat) (hp : p ≠ q) : reed (hkReed s q) p = reed s p := by
  unfold hkReed
  split
  · refine ((turns_kickInsert _ q true).others p hp).trans ((reed_of_reeds (post_reeds ..) p).trans ?_)
    rw [reed_setReed, if_neg hp]
  · refine ((turns_kickInsert _ q true).others p hp).trans ?_
    rw [reed_setReed, if_neg hp]

theorem hkReed_hkAt (q : Nat) : (hkReed s q).hkAt = s.hkAt := by
  have hk : ∀ u : State, (kickInsert u q true).hkAt = u.hkAt := fun u => by
    unfold kickInsert
    dsimp only
    split
    · rfl
    · split <;> rfl
  unfold hkReed
  split
  · exact (hk _).trans ((post_hkAt ..).trans rfl)
  · exact (hk _).trans rfl

section
variable (r : Reed)

theorem exec_hkRoundDue (hl : seqLive s = true) (hd : hkDueAt s ≤ s.now) :
    exec .hkRoundDue s = .next ((List.range 1024).foldl hkReed { s with hkAt := hkDueAt s }) := by
  change Host.Outcome.next (hkDue s) = _
  unfold hkDue hkReed
  rw [if_neg (by simp [hl, hd])]

theorem foldl_hkReed (n : Nat) (u : State) (hu : u.hkAt = n) :
    ((reed u r.val).hkOwed = 0 → (reed ((List.range 1024).foldl hkReed u) r.val).hkOwed = 4) ∧
    ((reed u r.val).hkOwed ≠ 0 → (reed ((List.range 1024).foldl hkReed u) r.val).hkLate = true ∧
      (reed ((List.range 1024).foldl hkReed u) r.val).hkOwed = (reed u r.val).hkOwed) ∧
    ((List.range 1024).foldl hkReed u).hkAt = n := by
  obtain ⟨h1, -, h3⟩ := foldl_reeds u (f := hkReed) (P := fun u => u.hkAt = n)
    (fun u q hu => (hkReed_hkAt u q).trans hu) hkReed_others (List.range 1024) List.nodup_range hu r.val
  obtain ⟨v, -, e1, e2⟩ := h3 (List.mem_range.mpr r.isLt)
  obtain ⟨o1, o2⟩ := hkReed_owes v r.val
  rw [← e2, e1] at o1 o2
  exact ⟨o1, o2, h1⟩

theorem reed_hkAt (n q : Nat) : reed { s with hkAt := n } q = reed s q := reed_of_reeds (t := { s with hkAt := n }) rfl _

theorem hkRoundDue_yields (hl : seqLive s = true) (hd : hkDueAt s ≤ s.now) : Yields .hkRoundDue s fun t =>
    ((reed s r.val).hkOwed = 0 → (reed t r.val).hkOwed = 4) ∧
    ((reed s r.val).hkOwed ≠ 0 → (reed t r.val).hkLate = true ∧ (reed t r.val).hkOwed = (reed s r.val).hkOwed) ∧
    t.hkAt = hkDueAt s ∧ SameBore s t := by
  obtain ⟨o1, o2, h1⟩ := foldl_hkReed r (hkDueAt s) { s with hkAt := hkDueAt s } rfl
  rw [reed_hkAt] at o1 o2
  exact yields_of_exec (exec_hkRoundDue s hl hd) fun k => ⟨o1, o2, h1, fun a => boreByte_of_bore (k.bore rfl) a⟩

end

theorem msOpenClear_yields {fn : Fn} {v : Word} (hw : mayWrite s fn pgMEAS 0x7C 1 = true) : Yields (.msOpenClear fn v) s fun t =>
    reed t (reedIdx s) = { reed s (reedIdx s) with
      opens := (reed s (reedIdx s)).opens &&& ~~~ (BitVec.ofNat 16 (fld v 0 16) &&& ~~~ (reed s (reedIdx s)).openLive) } ∧ SameBore s t := by
  have hn : ∀ u n, (refuseClears u pgMEAS n).reeds = u.reeds := fun u n => by
    unfold refuseClears
    dsimp only
    split <;> rfl
  refine yields_of_exec (congrArg Host.Outcome.next (wr_of_mayWrite s fn _ _ _ _ hw)) fun k =>
    ⟨?_, fun a => boreByte_of_bore (k.bore rfl) a⟩
  unfold openClear
  dsimp only
  split
  · exact reed_setReed_self ..
  · exact (reed_of_reeds (hn ..) _).trans (reed_setReed_self ..)

/-- Settles O48: one lemma per command; a sequence that goes on keeps what `Runs` says, and a step over reeds acts on each alone. -/
theorem reedSequencers : Obligations.ReedSequencers := by
  unfold Obligations.ReedSequencers
  intro s r
  refine ⟨fun raw ovr => conversionEnd_invalid s r raw ovr, fun raw ovr => conversionEnd_valid s r raw ovr,
    fun raw ovr => conversionEnd_urgent s r raw ovr, seqDelayExpired_early s r, seqDelayExpired_starts s r, modulatorPowerUp_yields s r,
    startupDone_starts s r, fun fn v => seqModeWrite_yields s r v, fun fn hw => ⟨msTrigDrvArm_yields s r hw, msTrigDrvDisarm_yields s r hw⟩,
    fun fn src c h hm ht hl hc => ?_, fun hm ht hd => ⟨s, if_pos (.inr (.inr hd)), rfl⟩, fun fn => msTrigOverrunRead_yields s,
    fun fn v hw hv => ⟨fun hu _ hs => msUrgentWrite_waits s hw hv hu hs, msUrgentWrite_starts s hw hv, msUrgentWrite_refused s hw hv⟩,
    hkRoundDue_yields s r, fun hd => ⟨s, congrArg Host.Outcome.next (if_pos (by simp [hd])), rfl⟩, fun fn v => msOpenClear_yields s⟩
  obtain ⟨t, e, h1, h2, h3⟩ := trigger_yields s r hl hm hc h ht
  exact ⟨fun hs hp => ⟨t, e, h1 hs hp⟩, fun hs hp => ⟨t, e, h2 hs hp⟩, fun hs hh => ⟨t, e, h3 hs hh⟩⟩

end Sys2Proof.Machine
end
